-- ==== Sys2Proof/Word.lean ====
section
/-! DEFINITION. The word types of the device and their plainest arithmetic.

Registers are 32 bits wide (00_scope, Names and conventions); the image, the frames and the journal
are byte strings. Field values, counts and indexes are `Nat`, signed quantities `Int`: the spec adds
and compares them exactly and narrows them where it says so. -/
namespace Sys2Proof

/-- One byte of an image, a frame or a journal record. -/
abbrev Byte := BitVec 8

/-- One 32-bit register word. -/
abbrev Word := BitVec 32

/-- A 64-bit word. -/
abbrev DWord := BitVec 64

/-- Addition that stops at the largest value of `w` bits (a "saturating" counter of the spec). -/
def satAdd (w n k : Nat) : Nat := if n + k < 2 ^ w then n + k else 2 ^ w - 1

/-- Addition that wraps at `2^w` (a "wrapping" counter of the spec). -/
def wrapAdd (w n k : Nat) : Nat := (n + k) % 2 ^ w

/-- Bit `i` of `n`. -/
def bit (n i : Nat) : Bool := n / 2 ^ i % 2 == 1

/-- `n` with bit `i` set to `b`. -/
def setBit (n i : Nat) (b : Bool) : Nat :=
  if bit n i = b then n else if b then n + 2 ^ i else n - 2 ^ i

/-- A Bool as the value of a one-bit field. -/
def b2n (b : Bool) : Nat := if b then 1 else 0

end Sys2Proof
end

