-- ==== Sys2Proof/Syntax.lean ====
section
/-! DEFINITION. The commands and events the device takes, with their operands (opcode_table.json). -/
namespace Sys2Proof

/-- What the device finds on one flash chip select when it probes it (R36): the SFDP signature; and from the Basic Flash Parameter
Table, which stands at `tableAt`, the density in bytes, the 1-1-4 fast-read instruction with its wait states where the table
advertises one, and the commands (opcode, data) of the volatile status write that meets its quad-enable requirement, where one
can: none of them where there is no requirement. -/
structure FlashProbe where
  signature  : Nat
  tableAt    : Nat
  density    : Nat
  read114    : Option (Fin 256 × Fin 64)
  quadEnable : Option (List (Fin 256 × List Byte))
  deriving DecidableEq, Repr

/-- The 1-1-4 read that the device uses: opcode, wait states and the writes before it, where the table advertises the read and its
quad-enable requirement can be met by a volatile status write (R36). -/
def FlashProbe.quad (p : FlashProbe) : Option ((Fin 256 × Fin 64) × List (Fin 256 × List Byte)) :=
  match p.read114, p.quadEnable with
  | some r, some w => some (r, w)
  | _, _ => none

/-- One source of the fault collector whose rail pair goes from 01 to 10 in a K9 cycle, or whose rail fault is in its second cycle with
the code `rail` (R328), with the syndrome it carries, whether a real cause drives it (false: only an injection does, R339), and for a
double-bit error of a buffer read the number of the frame read (0 none). -/
structure FaultEv where
  source   : Fin 512
  rail     : Option (Fin 4) := none
  syndrome : Word
  real     : Bool
  frame    : Nat
  deriving DecidableEq, Repr

/-- A unit's heartbeat is judged lost, or toggles again (`back`, R309, R322). -/
structure HbEvent where
  unit : Fin 68
  back : Bool
  deriving DecidableEq, Repr

/-- A read by the host: of BAR0, BAR2 or configuration space (`space` 0, 1, 2) from offset `addr`, of up to 16 words (R391). -/
structure HostRead where
  space : Fin 3
  addr  : Nat
  words : Nat
  deriving DecidableEq, Repr

/-- The memories MEM_ACCESS reaches (Table SP-6): buffer, tables, queues (learn, command and result queues, the output queues and the queue to
the host, transmit time stamps, captures), tag buffer, journal. -/
inductive MemKind where
  | buffer | fdb | flow | vlan | lnq | tcq | tcr | outQueue | hostQueue | txQueue | capture | tagBuffer | journal
  deriving DecidableEq, Repr



/-- The commands and events of the device: one constructor per row of the table, with what the outside
world gives it (an index, a written value, a measured count, the bytes of a frame). In the order of the table, but
for twelve rows without operands that stand last. -/
inductive Instr where
  /-- A RESET_N low pulse of 1 µs or longer, with the rails in range, starts a full reset. (R414) -/
  | resetNAssert (widthNs : Nat)
  /-- The VDD_AON detector sees VDD_AON below 0.68 V and holds the device in full reset until it exceeds 0.70
      V. (R413) -/
  | vddAonDetect (supplies : Nat × Nat)
  /-- Release of RESET_N starts the start-up state machine and the XO check. (R52) -/
  | resetNRelease
  /-- A start-oscillator window of 4096 cycles ends, and the XO check classifies its edge count. (R24) -/
  | xoWindowEnd (count : Nat)
  /-- A root locks in ROOT_START, and start-up ramps PD4 and PD3, starts K2, K3 and K9, and enters WIPE. (R52) -/
  | startupRootLocked (root : Fin 2)
  /-- Root A is not locked 10 ms after the PD1 ramp, so start-up ramps PD2, starts Root B and sets
      ROOT_B_START. (R52) -/
  | rootALockTimeout
  /-- No root is locked 10 ms after the PD2 ramp, so start-up enters HALT with reason ROOT. (R52) -/
  | rootBLockTimeout
  /-- The start-up wipes complete and the journal scan ends, so start-up enters READ. (R55) -/
  | wipeDone
  /-- A copy has been read to LENGTH, with its header, key, rollback, life-cycle and record-structure checks
      run. (R48) -/
  | imageReadDone (probe : FlashProbe) (bytes : List Byte)
  /-- ECDSA verification of a copy completes and its record contents are checked. (R46) -/
  | signatureVerifyDone
  /-- The typed records and REGWRITE entries have been applied, and start-up wipes the image store, journals
      BOOT, ramps PD9 and the standby root and enters SHAFT. (R52) -/
  | applyDone
  /-- The standby root's TRACK_OK first reads 1, and start-up ramps PD10 and PD5 to PD8 and enters LANES. (R52) -/
  | shaftTrackDone
  /-- SHAFT has lasted 100 ms without standby tracking, and start-up enters LANES. (R52) -/
  | shaftTimeout
  /-- The next configured quad is enabled, at least 20 µs after the previous one. (R381) -/
  | quadEnableTick
  /-- A quad's lane PLL is not locked 10 ms after enable; it is reported and start-up continues without it. (R52) -/
  | quadLockTimeout (quad : Fin 32)
  /-- Every configured quad has locked or timed out, and start-up enters CALIBRATE. (R52) -/
  | lanesDone (calActive : Bool) (offPpb : Int)
  /-- Programming of the anti-rollback floor word after RUN completes, and FLOOR_RAISED and a FLOOR record
      follow. (R364) -/
  | floorRaiseDone (readBack : Bool)
  /-- With PCIE_REF = 1, K14 is not running 100 ms after RESET_N release and is reported as a class U source. (R34) -/
  | k14LateCheck
  /-- A journal record finishes writing into the slot after the newest. (R56) -/
  | journalWriteDone (verified : Bool)
  /-- A write of JRNL_IDX copies the chosen journal slot into JRNL_DATA0 to 7 within 64 K9 cycles. (R56) -/
  | jrnlIdxWrite (value : Word)
  /-- A GO write to DEV.NVM_CMD issues one SPI command to a flash, or is refused with DENIED. (R61) -/
  | nvmCmdGo (value : Word)
  /-- A host flash command completes and BUSY clears. (R61) -/
  | nvmCmdDone (data : List Byte)
  /-- A write of 0x4B59 to DEV.RESET_KEY arms the keyed reset; other values disarm it. (R60) -/
  | resetKeyWrite (value : Word)
  /-- 262 144 K9 cycles pass after the arm without a command, and the arm expires. (R60) -/
  | resetArmExpire
  /-- RESET_CMD with ACTION 1 on a pending arm starts a full reset within 16 K9 cycles. (R60) -/
  | resetCmdFull
  /-- RESET_CMD with ACTION 2 on a pending arm, after APPLY and outside HALT, starts a host-view reset. (R59) -/
  | resetCmdHostView
  /-- RESET_CMD with ACTION 0 or 3, or with no valid arm, is refused and sets REFUSED. (R60) -/
  | resetCmdRefused (action : Fin 4)
  /-- A PCIe Function Level Reset starts a host-view reset, or resets only the endpoint before APPLY or in
      HALT. (R59) -/
  | pcieFlr
  /-- PERST_N assertion, a return from D3hot or a link-down acts as a hot reset and starts a host-view reset or
      an endpoint reset. (R389) -/
  | pcieHotReset (perst : Bool)
  /-- The host-view reset completes: rings disabled, vectors masked, FIFOs empty, and HV_BUSY falls. (R405) -/
  | hvResetDone
  /-- PERST_N goes high, and PCIe link training starts within 20 ms once PD9 and K14 run. (R415) -/
  | perstNRelease
  /-- A START write to CLK.FMETER_CTL starts a frequency measurement, abandoning any in progress. (R14) -/
  | fmeterStart (value : Word)
  /-- The frequency meter window ends and COUNT is written. (R14) -/
  | fmeterWindowEnd (count : Nat)
  /-- A REFMON second ends, and F1S, F64, DRIFT, FREL and PPS are updated for every monitored candidate. (R70) -/
  | refmonSecond (f1s : List Int) (active : List Bool) (dcoMean : Int) (step : Int)
  /-- A REFIN candidate shows no edge for its LOS detection time. (R65) -/
  | refinLosTimeout (cand : Fin 8)
  /-- A PPS edge on the odd pin of a REFIN pair is checked against the paired clock and may feed a PPS time
      base. (R64) -/
  | refinPpsEdge (pair : Fin 4) (cyclesOk : Bool) (taps : Fin 64 × Fin 32)
  /-- No PPS edge arrives within 1.5 s, and PPS_VALID clears. (R64) -/
  | ppsEdgeTimeout (pair : Fin 4)
  /-- No valid ESMC PDU has arrived for 5 s, and the RCS rank becomes 0. (R66) -/
  | esmcAgeTimeout (port : Fin 128)
  /-- A selected candidate not LOCKED within ACQ_TIMEOUT is disqualified with reason ACQ_FAIL. (R72) -/
  | acqFailTimeout
  /-- The DPLL phase error has stayed within LOCK_WIN for 1 s, and the selector enters LOCKED. (R75) -/
  | selAcquireLock
  /-- The DECIDE time elapses, and the switch moves to COMMIT. (R75) -/
  | selDecideExpire (step : Int)
  /-- SETTLE ends, and the selector enters LOCKED or ACQUIRE and evaluates again. (R75) -/
  | selSettleEnd (inWin : Bool)
  /-- HO_LIMIT seconds in HOLDOVER elapse, and the selector enters DISQUALIFIED-ALL. (R75) -/
  | selHoldoverLimit
  /-- Once per second the device sends an ESMC information PDU on every port with ESMC_TX. (R69) -/
  | esmcInfoTick
  /-- Within 10 ms of a change of output rank, the device sends an ESMC event PDU. (R69) -/
  | esmcEventPdu
  /-- At the 10 kHz update, a root applies its filter output or holdover frequency, at most 2 ppm per update. (R85) -/
  | rootDcoUpdate (root : Fin 2) (target : Int) (locked : Bool)
  /-- A root in RELOCK is within 200 ppm and locked, and resumes its earlier or requested state. (R88) -/
  | rootRelockDone (root : Fin 2)
  /-- A 50 µs measurement window of a root in BAND_SEL ends, and the band is kept or the next is tried. (R88) -/
  | rootBandWindow (root : Fin 2) (offPpb : Int)
  /-- Once per microsecond the standby root measures and trims its phase against K1 and updates TRACK_OK. (R89) -/
  | standbyTrackMeasure (diff : Int)
  /-- Every 1024 K10 cycles a time-locked synthesizer compares its edges with its time base and steers FRAC. (R97) -/
  | tlCompare (os : Fin 4) (err : Int) (frac : Fin 1099511627776)
  /-- At the chosen second S, the synthesizer loads its phase and restarts the dividers of its outputs. (R97) -/
  | tlAlignInstant (os : Fin 4)
  /-- After ALIGNED, the outputs start at their first rising edge at or after the next whole second. (R97) -/
  | tlOutputStart (os : Fin 4)
  /-- A synthesizer loses lock, goes to HELD and its outputs go static low. (R97) -/
  | synthLockLoss (os : Fin 4)
  /-- A write of OE_HOST silences or restores a clock output at the divider's next edge. (R95) -/
  | ckoOeHostWrite (n : Fin 12) (value : Bool)
  /-- A SYNC_IN edge is stamped and arms a divider restart, or is ignored and counted. (R100) -/
  | syncInEdge (rising : Bool)
  /-- At second S the dividers of every output with SYNC_EN restart. (R100) -/
  | syncRestart
  /-- A lane forms and sends its next superblock, marker, extension and payload, with exchange marks and fill. (R110) -/
  | superblockTransmit (lane : Fin 128) (cycle : Nat) (bitPos : Nat) (resEmpty : Nat)
  /-- A lane receives a superblock, checks its marker and extension and reports the mark to the engine. (R111) -/
  | superblockReceived (lane : Fin 128) (bits : List Bool) (cycle : Nat) (bitPos : Nat) (edges : Nat × Nat)
  /-- A timing frame with a good CRC is received and its training and timing-channel fields are taken. (R113) -/
  | timingFrameReceived (lane : Fin 128) (frame : List Byte)
  /-- An encapsulated frame arrives whole on a Leat lane's frame stream. (R112) -/
  | leatFrameReceived (lane : Fin 128) (tc : Fin 8) (flen : Fin 16384) (bytes : List Byte) (good : Bool) (raw : Nat) (head : Bool)
  /-- A lane has been 100 µs in DOWN with its PLL locked and no hold, and enters DETECT with a burst. (R118) -/
  | laneDownWait (lane : Fin 128)
  /-- 1 ms after the last burst with no energy seen, the lane sends another burst. (R118) -/
  | detectBurstTimer (lane : Fin 128)
  /-- Energy at the receiver for 16 ns takes a lane in DETECT to TRAIN. (R118) -/
  | laneEnergyDetect (lane : Fin 128)
  /-- CDR lock and equaliser convergence held for 100 µs take the lane to ALIGN. (R118) -/
  | laneCdrLocked (lane : Fin 128)
  /-- 20 ms in TRAIN take the lane to RETRY. (R118) -/
  | laneTrainTimeout (lane : Fin 128)
  /-- A slip position has been watched for 2 superblock times, and the search keeps it, slips or retries. (R117) -/
  | alignPositionWatch (lane : Fin 128) (matched : Bool) (next3 : Bool) (msn : Fin 100)
  /-- 1 ms in VERIFY take the lane to RETRY. (R118) -/
  | laneVerifyTimeout (lane : Fin 128)
  /-- The backoff of a lane in RETRY elapses, and it enters DETECT with the backoff doubled. (R118) -/
  | laneBackoffExpire (lane : Fin 128)
  /-- A lane has been UP for 1 s without interruption, and its backoff returns to 1 ms. (R118) -/
  | laneUpStable (lane : Fin 128)
  /-- No line transition for 1024 UI or CDR loss of lock declares LOS and takes the lane to DOWN. (R119) -/
  | laneLosSignal (lane : Fin 128)
  /-- No energy for 2 ms in TRAIN, or no wake for 2 ms from a quiet partner, declares LOS. (R119) -/
  | laneLosTimeout (lane : Fin 128)
  /-- A quad PLL unlocks, and every lane of the quad goes to DOWN. (R118) -/
  | quadPllUnlock (quad : Fin 32)
  /-- A quad PLL locks to K1, allowing its lanes and ports to leave DOWN or OFF. (R105) -/
  | quadPllLock (quad : Fin 32)
  /-- MAN_CMD code 0 does nothing and returns OK. (R425) -/
  | laneManNop (lane : Fin 128)
  /-- HOLD takes a LEAT lane to DOWN and holds it, or takes an ETH lane's port to OFF. (R121) -/
  | laneHold (lane : Fin 128) (gen : Fin 65536)
  /-- RELEASE ends the hold and returns the lane to automatic alignment. (R121) -/
  | laneRelease (lane : Fin 128) (gen : Fin 65536)
  /-- MANUAL_TRAIN ends the hold and trains the lane with manual alignment. (R121) -/
  | laneManualTrain (lane : Fin 128) (gen : Fin 65536)
  /-- SLIP moves the word boundary by one bit in manual ALIGN. (R121) -/
  | laneSlip (lane : Fin 128) (gen : Fin 65536)
  /-- ACCEPT with MARKER_SEEN = 1 takes a lane in manual ALIGN to VERIFY. (R121) -/
  | laneAccept (lane : Fin 128) (gen : Fin 65536)
  /-- A reserved MAN_CMD code is answered WRONG_STATE. (R121) -/
  | laneManReserved (lane : Fin 128) (gen : Fin 65536)
  /-- After IDLE_US µs with nothing to carry, the lane sends QUIET_NEXT and its transmitter goes quiet. (R124) -/
  | quietEntry (lane : Fin 128)
  /-- A frame arriving at a quiet transmitter schedules a wake burst ending on a superblock boundary. (R124) -/
  | quietExitRequest (lane : Fin 128)
  /-- The wake burst starts so that it ends exactly at the chosen superblock boundary. (R124) -/
  | quietBurstStart (lane : Fin 128)
  /-- Every 1 ms a quiet transmitter wakes for one burst and one timing superblock. (R124) -/
  | quietWakeTimer (lane : Fin 128)
  /-- A 100 ms window ends and the lane health line is set from its marker and fill error counts. (R127) -/
  | laneHealthWindow (lane : Fin 128)
  /-- A write of PRBS_CTL.CLEAR zeroes PRBS_BITS and PRBS_ERR. (R125) -/
  | prbsClear (lane : Fin 128)
  /-- A frame arrives whole on an Ethernet port and is checked, classified and admitted. (R136) -/
  | ethFrameReceived (port : Fin 128) (bytes : List Byte) (err : Bool) (raw : Nat) (head : Bool) (fecCorr : Nat) (fecBad : Nat)
  /-- A PFC frame with good FCS sets or releases the pause timers of its classes. (R141) -/
  | pfcFrameReceived (port : Fin 128) (bytes : List Byte)
  /-- A class's pause timer runs out, and the class may transmit again. (R141) -/
  | pfcPauseExpire (port : Fin 128) (tc : Fin 8)
  /-- After XOFF or its release, the port sends a PFC frame as the next frame. (R142) -/
  | pfcFrameSend (port : Fin 128)
  /-- While XOFF holds, half of PFC_QUANTA passes and the PFC frame is repeated. (R142) -/
  | pfcRepeatTimer (port : Fin 128)
  /-- An ESMC PDU is validated, its codes latched and the 5 s age restarted, or it is dropped. (R144) -/
  | esmcPduReceived (port : Fin 128) (bytes : List Byte)
  /-- Block, alignment and FEC lock have held without local fault for 1 ms, and the port enters UP. (R135) -/
  | portLockAchieved (port : Fin 128)
  /-- 10 ms in LOCK without lock send remote fault and count LOCK_TIMEOUT. (R135) -/
  | portLockTimeout (port : Fin 128)
  /-- Remote fault ordered sets take a port from UP to RFAULT. (R135) -/
  | portRemoteFaultRx (port : Fin 128)
  /-- 128 columns without remote fault return a port from RFAULT to UP. (R135) -/
  | portRemoteFaultClear (port : Fin 128)
  /-- Block lock loss, hi_ber or FEC sync loss takes a port to LOCK. (R135) -/
  | portLockLoss (port : Fin 128) (hiBer : Bool)
  /-- A sample that arrived early is used when 1024 K6 cycles since the last have passed. (R166) -/
  | tbSampleDeferred (n : Fin 8)
  /-- No sample is accepted for TIMEOUT_MS, and the base enters HOLD. (R160) -/
  | tbSampleTimeout (n : Fin 8)
  /-- PEND reaches zero and the slew term p stops. (R158) -/
  | tbSlewComplete (n : Fin 8)
  /-- FEED_CMD code 0 does nothing and returns OK. (R425) -/
  | tbFeedNop (n : Fin 8)
  /-- An OFFSET command delivers a host sample to a HOST base. (R168) -/
  | tbFeedOffset (n : Fin 8) (gen : Fin 65536)
  /-- A SET command hard sets, or loads the time of, a base with VALID = 0. (R168) -/
  | tbFeedSet (n : Fin 8) (gen : Fin 65536)
  /-- FEED_CMD code 3 is answered REFUSED. (R168) -/
  | tbFeedReserved (n : Fin 8) (gen : Fin 65536)
  /-- A 1 ms RAMP tick moves the primary's f or ramp rate by at most 1 ppb towards the shadow. (R172) -/
  | tbRampTick (k : Fin 4)
  /-- A cross-link slot carries one base's compare message, and the standby compares and trims. (R174) -/
  | xcSlot (wire : Option (List (Fin 320)))
  /-- The 16-slot load of the standby timekeeper completes and comparing begins. (R176) -/
  | standbyTkLoadDone
  /-- A read of NOW_SEC_LO latches the rest of the time value from one K6 cycle. (R177) -/
  | tbNowRead (n : Fin 8) (path : Fin 3)
  /-- A read of OFF_LO latches OFF_HI. (R177) -/
  | tbOffRead (n : Fin 8) (path : Fin 3)
  /-- A read of a 48-bit counter's _LO word latches its _HI word. (R129) -/
  | counterLoRead (read : HostRead) (path : Fin 3)
  /-- A beat period ends, and the phase detector yields a raw phase and an updated RATE. (R183) -/
  | ttBeatPeriod (lane : Fin 128) (beats : List Nat × List Nat)
  /-- A whole averaging window with rate within 15 ppm takes the engine to ANCHOR. (R185) -/
  | ttLockWindowDone (lane : Fin 128)
  /-- A 62.5 ms exchange interval starts, and the next timing superblock carries the exchange mark. (R190) -/
  | ttExchangeInterval (lane : Fin 128)
  /-- An exchange pair completes, the engine computes rtt, d_in and e and delivers the sample. (R193) -/
  | ttPairFormed (lane : Fin 128)
  /-- No pair forms within 250 ms of an own mark, and the exchange is discarded with NO_PAIR. (R192) -/
  | ttPairTimeout (lane : Fin 128)
  /-- A SOURCE engine accepts no pair for 250 ms, and its health line shows an error. (R199) -/
  | ttHealthTimeout (lane : Fin 128)
  /-- PG_CMD code 0 does nothing and returns OK. (R425) -/
  | pgCmdNop (pg : Fin 16)
  /-- ARM copies the staging registers into a host-owned generator and arms it. (R218) -/
  | pgArm (pg : Fin 16) (gen : Fin 65536)
  /-- DISARM returns a generator to OFF after any pulse in progress. (R218) -/
  | pgDisarm (pg : Fin 16) (gen : Fin 65536)
  /-- PG_CMD code 3 is answered BAD_VALUE. (R218) -/
  | pgCmdReserved (pg : Fin 16) (gen : Fin 65536)
  /-- A pulse edge's launch time is reached, and the edge goes to the placer with its taps. (R213) -/
  | pgEdge (pg : Fin 16) (rising : Bool)
  /-- An edge on a capture input is stamped and queued, or counted as missed, gated or dropped. (R220) -/
  | evtInEdge (input : Fin 16) (rising : Bool) (pop : Bool) (coarse : Fin 64) (fine : Fin 32)
  /-- A read of a queue's entry word latches the oldest entry. (R224) -/
  | queueEntryRead (capture : Bool) (n : Fin 128) (path : Fin 3)
  /-- A POP write removes the oldest entry of a TX time-stamp queue. (R211) -/
  | txqPop (n : Fin 128)
  /-- A POP write removes the oldest entry of a capture queue. (R221) -/
  | capPop (n : Fin 16)
  /-- The controller reads each temperature sensor, once per millisecond. (R231) -/
  | tempSensorRead (readings : List Int)
  /-- PERIOD_S seconds after the last commit, a PERIOD trigger starts a run. (R232) -/
  | calPeriodTimer
  /-- An armed retry falls due and starts a run. (R239) -/
  | calRetryDue
  /-- The preconditions pass, and the run enters SCALE. (R235) -/
  | calPrecheckDone
  /-- The tap scale is measured, and the run enters LOOP. (R228) -/
  | calScaleDone (values : List (Nat × Int))
  /-- The lane loopbacks are measured, and the run enters POINTS. (R229) -/
  | calLoopDone (values : List (Nat × Int))
  /-- d_ts, d_pps and d_rpps are measured, and the run enters OUTPUTS. (R229) -/
  | calPointsDone (values : List (Nat × Int))
  /-- d_pg, d_cap and CKO skew are measured, and the run enters COMPUTE. (R234) -/
  | calOutputsDone (values : List (Nat × Int))
  /-- The new values pass range and step checks, and the run commits at once or waits for a second. (R237) -/
  | calComputeDone
  /-- At the chosen second of CAL_TB, all element values change in one K6 cycle and the tap walk starts. (R238) -/
  | calCommit
  /-- Every 80 µs each tap element moves one fine step towards its target. (R238) -/
  | calTapWalkStep
  /-- CAL_REF_CLK shows no edge in 1 µs. (R235) -/
  | calRefClkLoss
  /-- A 100 ms window ends and the CAL_REF_CLK frequency is checked against the ruler. (R235) -/
  | calClkFreqWindow (offPpb : Int)
  /-- A CAL_REF_PPS edge is checked against its period and stamped into PPS_OFF. (R241) -/
  | calRefPpsEdge (devPs : Int) (offset : Nat)
  /-- A gap above 1.5 s in CAL_REF_PPS during a run aborts it with PPS_MISSING. (R235) -/
  | calPpsMissing
  /-- CAL.CMD code 0 does nothing and returns OK. (R425) -/
  | calCmdNop
  /-- A RUN command is a HOST trigger of a calibration run. (R243) -/
  | calRun (gen : Fin 65536)
  /-- RESTORE commits the staged values and reference temperatures through COMMIT_WAIT and WALK. (R243) -/
  | calRestore (gen : Fin 65536)
  /-- CAL.CMD code 3 is answered REFUSED. (R243) -/
  | calCmdReserved (gen : Fin 65536)
  /-- A pipeline issues a frame's first lookup pass. (R280) -/
  | lookupFirstPass (pipe : Fin 4) (collide : Bool) (recirc : Bool) (parity : List (Nat × Nat))
  /-- A frame makes an added pass for a collision, a recirculation or a second-level lookup. (R252) -/
  | lookupLaterPass (pipe : Fin 4) (recirc : Bool) (parity : List (Nat × Nat))
  /-- AGE_UNIT milliseconds pass and AGE_NOW advances by one. (R255) -/
  | ageClockTick
  /-- Every 32 K3 cycles the ager visits one bucket per bank and decides the age of its entries. (R257) -/
  | agerVisit (parity : List (Nat × Nat))
  /-- Every 64 K3 cycles the audit checks one static item and reinstates it if missing or changed. (R260) -/
  | shadowAuditStep (ecc : Fin 3) (parity : List (Nat × Nat))
  /-- A pending-learn CAM entry 2 ms old is removed. (R267) -/
  | camEntryExpire
  /-- A table command of OP 0 returns its TAG with OK and changes nothing. (R425) -/
  | tcqNop
  /-- INSERT places a key, moving up to 8 entries along a cuckoo path. (R270) -/
  | tcqInsert
  /-- MODIFY replaces the non-key fields of an existing host entry. (R269) -/
  | tcqModify
  /-- DELETE removes a host entry. (R269) -/
  | tcqDelete
  /-- FENCE advances the table epoch once earlier commands have taken effect. (R273) -/
  | tcqFence
  /-- A reserved OP is answered BAD_VALUE. (R269) -/
  | tcqReserved
  /-- No frame remains under the fence's older epochs, and the fence completes. (R273) -/
  | fenceComplete
  /-- A write that changes LNQ_CTL.RUN starts or stops sighting reports and increments TBL.STATUS.GEN. (R261) -/
  | lnqCtlWrite (run : Bool)
  /-- A frame held 5157 K2 cycles is released past a gap and counted. (R292) -/
  | reseqTimeoutRelease (egress : Fin 128)
  /-- A free egress chooses and starts a frame under fixed latency, strict priority and DWRR. (R294) -/
  | egressFrameStart (egress : Fin 128) (raw : Nat) (fill : Nat)
  /-- A copy finishes leaving its egress, and the frame's cells are freed once its last copy leaves. (R282) -/
  | egressFrameEnd (egress : Fin 128)
  /-- A fixed-latency frame leaves exactly FLF_LAT K2 cycles after ingress, or misses and is queued. (R300) -/
  | flfDeparture (egress : Fin 128) (raw : Nat) (fill : Nat)
  /-- The referee confirms a unit bad and fails it, moving the active role to an eligible standby. (R311) -/
  | unitFailOver (unit : Fin 68) (activeOut : Bool) (standbyOut : Bool)
  /-- A unit's heartbeat does not toggle for HB_TIMEOUT and counts as an error. (R309) -/
  | heartbeatLost (beat : HbEvent)
  /-- A health line shows 00 or 11, and the referee sets UNMONITORED on the unit. (R310) -/
  | healthRailFault (unit : Fin 68)
  /-- A unit in SYNC is verified and becomes STANDBY, WTR or ACTIVE. (R313) -/
  | unitVerified (unit : Fin 68)
  /-- A FAILED unit has been healthy for HOLDOFF, and enters SYNC. (R313) -/
  | unitHoldoffExpire (unit : Fin 68)
  /-- LATCH_S elapses on a LATCHED unit, which moves to FAILED. (R313) -/
  | unitLatchExpire (unit : Fin 68)
  /-- WTR_S elapses, and the data role reverts to the primary member. (R318) -/
  | unitWtrExpire (unit : Fin 68)
  /-- A failure leaves the FLAP_WIN_S window, and FLAP_CNT falls. (R313) -/
  | flapWindowExpire (unit : Fin 68)
  /-- The failed member stays healthy for HOLDOFF before the shadow tracks, and the deferred order is
      withdrawn. (R316) -/
  | deferredOrderWithdraw (pair : Fin 32)
  /-- RED.CMD code 0 does nothing and returns OK. (R425) -/
  | redCmdNop
  /-- RELEASE moves a LATCHED unit to FAILED. (R323) -/
  | redRelease (unit : Fin 128) (gen : Fin 65536)
  /-- RED.CMD codes 2 and 3 are answered REFUSED. (R323) -/
  | redCmdReserved
  /-- A source's rail pair goes from 01 to 10, making an error event for the collector. (R328) -/
  | faultEvent (events : List FaultEv)
  /-- A source's pair shows 00 or 11 for 2 K9 cycles and makes a class U rail-fault event. (R328) -/
  | faultRailFault (source : Fin 512) (code : Fin 4 × Bool)
  /-- The 16 K9 cycles after entry to REACT end, and the collector enters HOLD. (R329) -/
  | collectorReactEnd
  /-- 1 µs after ACTIVE returns to 0, the FAILOVER reaction releases the unit's fault input. (R333) -/
  | failoverInputRelease (source : Fin 512)
  /-- A CLEAR with the current GEN clears the record, OVF and the recorded source's LEVEL. (R336) -/
  | fltClear (value : Word)
  /-- A CLR write clears a source's LEVEL, or is refused. (R336) -/
  | fltSrcClr (source : Fin 512) (value : Word)
  /-- An injection command drives a source's rail pair for CYCLES K9 cycles. (R338) -/
  | fltInject (value : Word)
  /-- The injection drive ends and DONE is set. (R338) -/
  | fltInjectEnd
  /-- A write of a counter's CFG that changes EVENT or HIGH zeroes it and changes its selection. (R346) -/
  | pmonCntCfgWrite (counter : Fin 48) (value : Word)
  /-- A write of CLEAR = 1 zeroes a counter and clears SAT. (R346) -/
  | pmonCntClear (counter : Fin 48)
  /-- A write of GLEAN_CTL that sets RUN from 0 to 1 loads the LFSR from SEED and restarts TAG_SEQ. (R349) -/
  | gleanCtlWrite (value : Word)
  /-- A tagged frame's record is written into the tag buffer after its first copy's stage 8. (R352) -/
  | gleanRecordWrite
  /-- A window's bank closes, is copied to the results and raises the window interrupt. (R356) -/
  | bwWindowClose
  /-- A write of BW_CFG abandons both banks and restarts totalling. (R357) -/
  | bwCfgWrite (value : Word)
  /-- REQ_CMD code 0 does nothing. (R367) -/
  | secCmdNone (viaJtag : Bool)
  /-- GET_NONCE fills SEC.NONCE0 to 7 from the random source. (R367) -/
  | secGetNonce (viaJtag : Bool) (random : BitVec 256)
  /-- SUBMIT checks the request record and starts its signature verification. (R367) -/
  | secSubmit (viaJtag : Bool)
  /-- SET lowers the debug level, or raises it where Table SP-7 allows. (R369) -/
  | secSet (viaJtag : Bool) (level : Fin 4)
  /-- DISARM clears an armed FULL debug level. (R371) -/
  | secDisarm (viaJtag : Bool)
  /-- RELEASE ends the mailbox claim. (R367) -/
  | secRelease (viaJtag : Bool)
  /-- REQ_CMD codes 6 and 7 are ignored. (R367) -/
  | secCmdReserved (viaJtag : Bool) (code : Nat)
  /-- A write to the mailbox from the port that does not hold the claim is discarded and counted. (R367) -/
  | mailboxForeignWrite (viaJtag : Bool) (addr : Nat) (value : Word)
  /-- A verified LIFECYCLE request starts the transition procedure. (R361) -/
  | reqLifecycle
  /-- A verified DEBUG request raises the debug level or arms FULL. (R369) -/
  | reqDebug
  /-- A verified KEY_ADD request programs an empty key slot. (R365) -/
  | reqKeyAdd (readBack : Bool)
  /-- A verified KEY_REVOKE request blows REVOKED for a slot. (R365) -/
  | reqKeyRevoke (readBack : Bool)
  /-- The target life-cycle fuse is blown and read back, and the journal clear starts. (R362) -/
  | lcFuseBlowDone (readBack : Bool)
  /-- The BYPASS instruction. (R368) -/
  | jtagBypass (tdi : List Bool)
  /-- SEC_ACCESS reaches the SEC mailbox. (R368) -/
  | jtagSecAccess (write : Bool) (addr : Nat) (value : Word)
  /-- REG_READ reads a register in a powered domain at level OBSERVE or above. (R368) -/
  | jtagRegRead (addr : Nat)
  /-- REG_WRITE writes a register at level FULL. (R368) -/
  | jtagRegWrite (addr : Nat) (value : Word)
  /-- MEM_ACCESS reaches buffer, tables, queues, tag buffer and journal at level FULL. (R368) -/
  | jtagMemAccess (mem : MemKind) (addr : Nat) (write : Option (List Byte))
  /-- SAMPLE/PRELOAD at level FULL, acting as BYPASS below it. (R368) -/
  | jtagSamplePreload (pins : List Bool) (preload : List Bool)
  /-- EXTEST at level FULL, acting as BYPASS below it. (R368) -/
  | jtagExtest (pins : List Bool) (drive : List Bool)
  /-- SCAN stops the clocks of the domains it reaches until a full reset. (R372) -/
  | jtagScan (domains : Nat)
  /-- A new PWR_REQ value stable for 1 ms becomes the pin request. (R375) -/
  | pwrReqPinStable (req : Fin 4)
  /-- A host request for RUN. (R375) -/
  | pwrHostReqRun (gen : Fin 65536)
  /-- A host request for TIMING. (R375) -/
  | pwrHostReqTiming (gen : Fin 65536)
  /-- A host request for KEEP. (R375) -/
  | pwrHostReqKeep (gen : Fin 65536)
  /-- A host request for DORMANT. (R375) -/
  | pwrHostReqDormant (gen : Fin 65536)
  /-- A host request for OFF. (R375) -/
  | pwrHostReqOff (gen : Fin 65536)
  /-- A host request with REQ 5 to 7 is answered NOT_ALLOWED. (R375) -/
  | pwrHostReqReserved (gen : Fin 65536)
  /-- A ramped domain's memories are wiped and reloaded from the shadow, and its clock gates open. (R55) -/
  | domainWipeDone (domain : Fin 11)
  /-- POWER_FAIL_N is asserted, frames stop and a shed begins. (R383) -/
  | powerFailAssert (widthNs : Nat)
  /-- A host write to a register with no row of its own takes effect field by field. (R392) -/
  | registerWrite (path : Fin 2) (space : Fin 3) (addr : Nat) (value : Word) (be : Fin 16)
  /-- An SMI READ transaction reads consecutive BAR0 words. (R396) -/
  | smiRead (addr : Nat) (words : Nat)
  /-- An SMI WRITE transaction writes consecutive BAR0 words. (R396) -/
  | smiWrite (addr : Nat) (data : List Word)
  /-- An SMI command code other than READ or WRITE ends the transaction. (R396) -/
  | smiBadCommand (code : Fin 256)
  /-- SMI_CS_N rises mid-word, and that word is discarded and reported PARTIAL. (R396) -/
  | smiPartial (addr : Nat)
  /-- A doorbell write moves a ring's host index, or is reported BAD_INDEX. (R398) -/
  | ringDoorbell (ring : Fin 6) (value : Word)
  /-- A write of a ring's CTL enables it with indices at 0, or disables it after the current entry. (R398) -/
  | ringCtlWrite (ring : Fin 6) (path : Fin 2) (value : Word)
  /-- The device fetches a TCQ command when ring 2 has room for its result. (R399) -/
  | tcqFetch (entry : List Byte)
  /-- The device fetches a TXF entry and queues the host frame at its destination. (R401) -/
  | txfFetch (entry : List Byte) (frame : List Byte)
  /-- A host frame is written into the next free RXB buffer and its RXC entry posted. (R400) -/
  | hostRxDeliver (rxb : List Byte)
  /-- A read of LNQ_DATA0 latches the oldest LNQ record. (R402) -/
  | lnqFifoRead (path : Fin 3)
  /-- A POP removes the latched LNQ record. (R402) -/
  | lnqPop (path : Fin 3)
  /-- A PUSH queues the command in TCQ_DATA0 to 7, or is reported FIFO_FULL. (R403) -/
  | tcqPush (path : Fin 3)
  /-- A read of TCR_DATA0 latches the oldest command result. (R403) -/
  | tcrFifoRead (path : Fin 3)
  /-- A POP removes the latched command result. (R403) -/
  | tcrPop (path : Fin 3)
  /-- Setting an INT_MASK bit while its status is set sends the MSI-X message. (R404) -/
  | intMaskWrite (value : Word)
  /-- An output synthesizer's PLL gains lock, so its frequency-plane outputs may drive and a time-locked
      synthesizer in HELD may go on to ALIGNING. (R97) -/
  | synthesizerLocked (os : Fin 4)
  /-- In LINE mode the PRBS checker ends a block of 1024 bits and sets LOCK or clears it and seeds again. (R125) -/
  | prbsCheckerBlock (lane : Fin 128) (seed : Fin 2147483648) (bits : List Bool)
  /-- A fault source's rail pair returns to 01, because its cause ends or its rail fault ends after 2 legal
      cycles, and ACTIVE returns to 0. (R328) -/
  | faultSourceIdle (source : Fin 512)
  /-- A unit's health rails show a legal code for CONFIRM consecutive samples, and the referee clears
      UNMONITORED. (R310) -/
  | unmonitoredClear (unit : Fin 68)
  /-- The PCIe reference clock stops or returns, so K14 stops or runs again and CLK.DOM_RUN bit 14 follows. (R21) -/
  | pcieRefclkLoss (present : Bool)
  /-- The journal is cleared and the LIFECYCLE record written, and a full reset starts. (R362) -/
  | lcJournalClearDone
  /-- 10 s without a write from the claiming port end the mailbox claim. (R367) -/
  | mailboxClaimTimeout
  /-- A nonce not used within 60 s becomes invalid. (R367) -/
  | nonceExpire
  /-- In FIELD, LEASE_S seconds after a DEBUG request, OBSERVE returns to CLOSED. (R370) -/
  | debugLeaseExpire
  /-- IDCODE returns 0x1320_058F. (R368) -/
  | jtagIdcode
  /-- TRST_N resets the TAP and leaves the debug level unchanged. (R368) -/
  | jtagTrst
  /-- 1 ms after leaving RUN, frames still inside are discarded. (R377) -/
  | pwrDrainTimeout
  /-- A switched domain completes its ramp, and the next domain's ramp or the new state follows. (R379) -/
  | domainRampDone
  /-- 1 µs after POWER_FAIL_N, the shed ramp-down towards SHED_TARGET starts. (R383) -/
  | shedRampStart
  /-- POWER_FAIL_N has been deasserted for RELEASE_MS, and the shed ends. (R383) -/
  | shedRelease
  /-- An LNQ record is written to ring 0 when the ring has room. (R399) -/
  | lnqDmaWrite
  /-- A write of 1 to ACC_ERR.VALID clears the access error latch and count. (R393) -/
  | accErrClear
  deriving DecidableEq, Repr

end Sys2Proof
end

