-- ==== Sys2Proof/Config.lean ====
section
/-! DEFINITION. What the spec leaves open, as constants without a body: nothing in Lean can evaluate them,
and no proof can lean on a value of them. -/
namespace Sys2Proof

/-- The n-th free bit. -/
opaque Config.freeBit : Nat → Bool

/-- The n-th free natural number. -/
opaque Config.freeNat : Nat → Nat

/-- The n-th free integer. -/
opaque Config.freeInt : Nat → Int

/-- SHA-256 of X‖Y of the factory key in mask ROM (R46). -/
opaque Config.factoryKeyHash : Nat

/-- The factory band table: CODE, CENTRE_KHZ and SLOPE of band `b`, and whether it is valid (R87). -/
opaque Config.factoryBand : Nat → Nat × Nat × Nat × Bool

/-- The factory nominal value of calibration element `i`, signed, 2^-16 ns (R245). -/
opaque Config.factoryNominal : Nat → Int

/-- The fixed allowance for the PCS and FEC pipeline on receive, by port mode and FEC, 2^-16 ns (R146). -/
opaque Config.pcsRx : Nat → Nat → Int

/-- The fixed allowance for the PCS and FEC pipeline on transmit, by port mode and FEC, 2^-16 ns (R146). -/
opaque Config.pcsTx : Nat → Nat → Int

/-- The bank order in which the allocator looks for the next free cell of a frame: a start by frame and by the cells it
holds already (R282). -/
opaque Config.cellStart : Nat → Nat → Nat

/-- The cell of the boundary register that drives an output pin, by the pin's number (R368). -/
opaque Config.boundaryCell : Nat → Nat

/-- The level at which clock output `n` stands when a SCAN has stopped its clock (R372). -/
opaque Config.stoppedLevel : Nat → Bool

end Sys2Proof
end

