-- ==== Sys2Proof/Machine/Reg.lean ====
section
/-! DEFINITION. What a register field is: its word's BAR0 address, its place, its access code (Table
SC-5) and its reset value; and a row of an address map. -/
namespace Sys2Proof.Machine

/-- Access codes of register fields (R11, Table SC-5). -/
inductive Acc where
  | ro | rw | w1c | rc | wo | img
  deriving DecidableEq, Repr

/-- One register field: bits `[lo + width - 1 : lo]` of the word at BAR0 offset `addr`. -/
structure Fld where
  addr  : Nat
  lo    : Nat
  width : Nat
  acc   : Acc
  reset : Nat
  deriving DecidableEq, Repr

/-- The address of copy `n` of a register that stands `count` times, `stride` bytes apart from `base`. A number past the last
copy names no register: the address lies above BAR0. -/
def cell (base stride count n : Nat) : Nat := if n < count then base + stride * n else 0x4000000

/-- One row of an address map: `count` registers, `stride` bytes apart from `base`, with their fields. -/
structure RegRow where
  base   : Nat
  stride : Nat
  count  : Nat
  flds   : Nat → List Fld

end Sys2Proof.Machine
end

