-- ==== Sys2Proof/Machine/RegMap.lean ====
section
/-! DEFINITION. The register map: every field of every register table of the spec, with its BAR0
address (R15, Table HI-3), place, access code and reset value. Field `n` of a repeated register is the
field of its n-th copy. One definition per field; `regRows` lists the words of each block. -/
namespace Sys2Proof.Machine

/-- Class of fault source `s` (Table FL-1, codes of Table FL-4): 0 unused, 1 C, 2 U, 3 F. -/
def fltClass (s : Nat) : Nat :=
  if s ≤ 0x43 then 2 else if s = 0x44 then 1 else if s = 0x45 then 2 else if s ≤ 0x48 then 3
  else if s = 0x49 then 2 else if s < 0x50 then 0 else if s = 0x50 then 3 else if s ≤ 0x57 then 2
  else if s = 0x58 then 1 else if s ≤ 0x5B then 2 else if s ≤ 0x5D then 1 else if s = 0x5E then 2
  else if s = 0x5F then 1 else if s ≤ 0xFF then 2 else if s ≤ 0x183 then 1 else if s = 0x184 then 3
  else if s < 0x190 then 0 else if s ≤ 0x1AF then 1 else if s ≤ 0x1CF then 2 else if s ≤ 0x1D1 then 3
  else if s = 0x1D2 then 2 else if s < 0x1E0 then 0 else if s = 0x1E0 then 2 else 0

/-- Default reaction of fault source `s` (Table FL-1, codes of Table FL-4): 0 COUNT, 1 CONTAIN, 4 HALT_DEVICE. -/
def fltDefReaction (s : Nat) : Nat :=
  if s = 0x46 ∨ s = 0x47 ∨ s = 0x50 ∨ s = 0x1D0 ∨ s = 0x1D1 then 4
  else if s = 0x48 ∨ s = 0x184 ∨ (0x1B0 ≤ s ∧ s ≤ 0x1CF) then 1 else 0

/-! ## Fields -/

/-- CLK.ID: BLOCK. -/
def Reg.clkIdBlock : Fld := ⟨0x100000, 16, 16, .ro, 3100⟩
/-- CLK.ID: VERSION. -/
def Reg.clkIdVersion : Fld := ⟨0x100000, 0, 16, .ro, 256⟩
/-- CLK.PLAN: XO_CFG. -/
def Reg.clkPlanXoCfg : Fld := ⟨0x100004, 12, 2, .img, 0⟩
/-- CLK.PLAN: MODRATE. -/
def Reg.clkPlanModrate : Fld := ⟨0x100004, 8, 1, .img, 0⟩
/-- CLK.PLAN: DEPTH. -/
def Reg.clkPlanDepth : Fld := ⟨0x100004, 4, 3, .img, 0⟩
/-- CLK.PLAN: PROFILE. -/
def Reg.clkPlanProfile : Fld := ⟨0x100004, 0, 2, .img, 0⟩
/-- CLK.XO_STATUS: COUNT. -/
def Reg.clkXoStatusCount : Fld := ⟨0x100008, 16, 16, .ro, 0⟩
/-- CLK.XO_STATUS: LOSS. -/
def Reg.clkXoStatusLoss : Fld := ⟨0x100008, 9, 1, .ro, 0⟩
/-- CLK.XO_STATUS: MISMATCH. -/
def Reg.clkXoStatusMismatch : Fld := ⟨0x100008, 8, 1, .ro, 0⟩
/-- CLK.XO_STATUS: STATE. -/
def Reg.clkXoStatusState : Fld := ⟨0x100008, 4, 2, .ro, 0⟩
/-- CLK.XO_STATUS: DETECTED. -/
def Reg.clkXoStatusDetected : Fld := ⟨0x100008, 0, 2, .ro, 0⟩
/-- CLK.SHAFT_STATUS: SWITCHES. -/
def Reg.clkShaftStatusSwitches : Fld := ⟨0x10000c, 16, 16, .ro, 0⟩
/-- CLK.SHAFT_STATUS: ROOTB_LOCK. -/
def Reg.clkShaftStatusRootbLock : Fld := ⟨0x10000c, 5, 1, .ro, 0⟩
/-- CLK.SHAFT_STATUS: ROOTA_LOCK. -/
def Reg.clkShaftStatusRootaLock : Fld := ⟨0x10000c, 4, 1, .ro, 0⟩
/-- CLK.SHAFT_STATUS: ACTIVE_ROOT. -/
def Reg.clkShaftStatusActiveRoot : Fld := ⟨0x10000c, 0, 1, .ro, 0⟩
/-- CLK.DOM_RUN: RUN. -/
def Reg.clkDomRunRun : Fld := ⟨0x100010, 1, 14, .ro, 0⟩
/-- CLK.FLAGS: K5_GATED. -/
def Reg.clkFlagsK5Gated : Fld := ⟨0x100014, 1, 1, .ro, 0⟩
/-- CLK.FLAGS: FLF_DENIED. -/
def Reg.clkFlagsFlfDenied : Fld := ⟨0x100014, 0, 1, .ro, 0⟩
/-- CLK.FMETER_CTL: START. -/
def Reg.clkFmeterCtlStart : Fld := ⟨0x100020, 31, 1, .wo, 0⟩
/-- CLK.FMETER_CTL: WINDOW. -/
def Reg.clkFmeterCtlWindow : Fld := ⟨0x100020, 8, 2, .rw, 0⟩
/-- CLK.FMETER_CTL: SEL. -/
def Reg.clkFmeterCtlSel : Fld := ⟨0x100020, 0, 4, .rw, 1⟩
/-- CLK.FMETER_RESULT: COUNT. -/
def Reg.clkFmeterResultCount : Fld := ⟨0x100024, 0, 32, .ro, 0⟩
/-- DEV.ID: PART. -/
def Reg.devIdPart : Fld := ⟨0x0, 16, 16, .ro, 12800⟩
/-- DEV.ID: STEPPING. -/
def Reg.devIdStepping : Fld := ⟨0x0, 8, 8, .ro, 1⟩
/-- DEV.BOOT: ROOT_B_START. -/
def Reg.devBootRootBStart : Fld := ⟨0x4, 10, 1, .ro, 0⟩
/-- DEV.BOOT: FLOOR_RAISED. -/
def Reg.devBootFloorRaised : Fld := ⟨0x4, 9, 1, .ro, 0⟩
/-- DEV.BOOT: CAL_NOMINAL. -/
def Reg.devBootCalNominal : Fld := ⟨0x4, 8, 1, .ro, 0⟩
/-- DEV.BOOT: SOURCE. -/
def Reg.devBootSource : Fld := ⟨0x4, 4, 2, .ro, 0⟩
/-- DEV.BOOT: PHASE. -/
def Reg.devBootPhase : Fld := ⟨0x4, 0, 4, .ro, 0⟩
/-- DEV.BOOT_FAIL: TYPE. -/
def Reg.devBootFailType : Fld := ⟨0x8, 16, 16, .ro, 0⟩
/-- DEV.BOOT_FAIL: REASON1. -/
def Reg.devBootFailReason1 : Fld := ⟨0x8, 8, 8, .ro, 0⟩
/-- DEV.BOOT_FAIL: REASON0. -/
def Reg.devBootFailReason0 : Fld := ⟨0x8, 0, 8, .ro, 0⟩
/-- DEV.IMG_SEQ: SEQ. -/
def Reg.devImgSeqSeq : Fld := ⟨0xc, 0, 32, .img, 0⟩
/-- DEV.IMG_BUILD: BUILD. -/
def Reg.devImgBuildBuild : Fld := ⟨0x10, 0, 32, .img, 0⟩
/-- DEV.BOOT_COUNT: COUNT. -/
def Reg.devBootCountCount : Fld := ⟨0x14, 0, 32, .ro, 0⟩
/-- DEV.NODE_ID_LO: LO. -/
def Reg.devNodeIdLoLo : Fld := ⟨0x18, 0, 32, .img, 0⟩
/-- DEV.NODE_ID_HI: HI. -/
def Reg.devNodeIdHiHi : Fld := ⟨0x1c, 0, 32, .img, 0⟩
/-- DEV.RESET_KEY: KEY. -/
def Reg.devResetKeyKey : Fld := ⟨0x20, 0, 16, .wo, 0⟩
/-- DEV.RESET_CMD: ACTION. -/
def Reg.devResetCmdAction : Fld := ⟨0x24, 0, 2, .wo, 0⟩
/-- DEV.RESET_STATUS: HV_COUNT. -/
def Reg.devResetStatusHvCount : Fld := ⟨0x28, 16, 16, .ro, 0⟩
/-- DEV.RESET_STATUS: REFUSED. -/
def Reg.devResetStatusRefused : Fld := ⟨0x28, 2, 1, .w1c, 0⟩
/-- DEV.RESET_STATUS: ARMED. -/
def Reg.devResetStatusArmed : Fld := ⟨0x28, 1, 1, .ro, 0⟩
/-- DEV.RESET_STATUS: HV_BUSY. -/
def Reg.devResetStatusHvBusy : Fld := ⟨0x28, 0, 1, .ro, 0⟩
/-- DEV.JRNL_HEAD: EMPTY. -/
def Reg.devJrnlHeadEmpty : Fld := ⟨0x30, 31, 1, .ro, 1⟩
/-- DEV.JRNL_HEAD: SLOT. -/
def Reg.devJrnlHeadSlot : Fld := ⟨0x30, 0, 13, .ro, 0⟩
/-- DEV.JRNL_IDX: SLOT. -/
def Reg.devJrnlIdxSlot : Fld := ⟨0x34, 0, 13, .rw, 0⟩
/-- DEV.JRNL_DATA n: WORD. -/
def Reg.devJrnlDataWord (n : Nat) : Fld := ⟨cell 0x40 0x4 8 n, 0, 32, .ro, 0⟩
/-- DEV.NVM_CMD: GO. -/
def Reg.devNvmCmdGo : Fld := ⟨0x60, 31, 1, .wo, 0⟩
/-- DEV.NVM_CMD: CS. -/
def Reg.devNvmCmdCs : Fld := ⟨0x60, 30, 1, .rw, 0⟩
/-- DEV.NVM_CMD: WRITE. -/
def Reg.devNvmCmdWrite : Fld := ⟨0x60, 29, 1, .rw, 0⟩
/-- DEV.NVM_CMD: ADDR_EN. -/
def Reg.devNvmCmdAddrEn : Fld := ⟨0x60, 28, 1, .rw, 0⟩
/-- DEV.NVM_CMD: OPCODE. -/
def Reg.devNvmCmdOpcode : Fld := ⟨0x60, 16, 8, .rw, 0⟩
/-- DEV.NVM_CMD: LEN. -/
def Reg.devNvmCmdLen : Fld := ⟨0x60, 0, 9, .rw, 0⟩
/-- DEV.NVM_ADDR: ADDR. -/
def Reg.devNvmAddrAddr : Fld := ⟨0x64, 0, 24, .rw, 0⟩
/-- DEV.NVM_STATUS: DENIED. -/
def Reg.devNvmStatusDenied : Fld := ⟨0x68, 1, 1, .w1c, 0⟩
/-- DEV.NVM_STATUS: BUSY. -/
def Reg.devNvmStatusBusy : Fld := ⟨0x68, 0, 1, .ro, 0⟩
/-- DEV.NVM_BUF n: DATA. -/
def Reg.devNvmBufData (n : Nat) : Fld := ⟨cell 0x100 0x4 64 n, 0, 32, .rw, 0⟩
/-- REFSEL.ID: BLOCK. -/
def Reg.refselIdBlock : Fld := ⟨0x200000, 16, 16, .ro, 3962⟩
/-- REFSEL.ID: VERSION. -/
def Reg.refselIdVersion : Fld := ⟨0x200000, 0, 16, .ro, 256⟩
/-- REFSEL.STATE: TARGET. -/
def Reg.refselStateTarget : Fld := ⟨0x200004, 24, 5, .ro, 31⟩
/-- REFSEL.STATE: SELECTED. -/
def Reg.refselStateSelected : Fld := ⟨0x200004, 16, 5, .ro, 31⟩
/-- REFSEL.STATE: PHASE. -/
def Reg.refselStatePhase : Fld := ⟨0x200004, 8, 2, .ro, 0⟩
/-- REFSEL.STATE: HIST_VALID. -/
def Reg.refselStateHistValid : Fld := ⟨0x200004, 5, 1, .ro, 0⟩
/-- REFSEL.STATE: EVER_LOCKED. -/
def Reg.refselStateEverLocked : Fld := ⟨0x200004, 4, 1, .ro, 0⟩
/-- REFSEL.STATE: LOWBW. -/
def Reg.refselStateLowbw : Fld := ⟨0x200004, 3, 1, .ro, 0⟩
/-- REFSEL.STATE: SEL_STATE. -/
def Reg.refselStateSelState : Fld := ⟨0x200004, 0, 3, .ro, 0⟩
/-- REFSEL.CFG: QL_OPTION. -/
def Reg.refselCfgQlOption : Fld := ⟨0x200008, 8, 1, .img, 0⟩
/-- REFSEL.CFG: HO_QL. -/
def Reg.refselCfgHoQl : Fld := ⟨0x200008, 4, 4, .img, 5⟩
/-- REFSEL.CFG: FREERUN_QL. -/
def Reg.refselCfgFreerunQl : Fld := ⟨0x200008, 0, 4, .img, 5⟩
/-- REFSEL.TIMES: DECIDE_MS. -/
def Reg.refselTimesDecideMs : Fld := ⟨0x20000c, 16, 16, .img, 100⟩
/-- REFSEL.TIMES: SETTLE_10MS. -/
def Reg.refselTimesSettle10ms : Fld := ⟨0x20000c, 0, 16, .img, 50⟩
/-- REFSEL.ACQ: LOCK_WIN_PS. -/
def Reg.refselAcqLockWinPs : Fld := ⟨0x200010, 16, 16, .img, 500⟩
/-- REFSEL.ACQ: ACQ_TIMEOUT_S. -/
def Reg.refselAcqAcqTimeoutS : Fld := ⟨0x200010, 0, 16, .img, 60⟩
/-- REFSEL.HO_LIMIT: SECONDS. -/
def Reg.refselHoLimitSeconds : Fld := ⟨0x200014, 0, 32, .img, 0⟩
/-- REFSEL.OUT_QL: RANK. -/
def Reg.refselOutQlRank : Fld := ⟨0x200018, 0, 4, .ro, 5⟩
/-- REFSEL.HO_STATUS: HO_SECONDS. -/
def Reg.refselHoStatusHoSeconds : Fld := ⟨0x20001c, 8, 24, .ro, 0⟩
/-- REFSEL.HO_STATUS: QUALIFIED. -/
def Reg.refselHoStatusQualified : Fld := ⟨0x20001c, 7, 1, .ro, 0⟩
/-- REFSEL.HO_STATUS: HIST_COUNT. -/
def Reg.refselHoStatusHistCount : Fld := ⟨0x20001c, 0, 7, .ro, 0⟩
/-- REFSEL.HO_FREQ: FREQ. -/
def Reg.refselHoFreqFreq : Fld := ⟨0x200020, 0, 32, .ro, 0⟩
/-- REFSEL.STEP_LO: STEP. -/
def Reg.refselStepLoStep : Fld := ⟨0x200024, 0, 32, .ro, 0⟩
/-- REFSEL.STEP_HI: STEP. -/
def Reg.refselStepHiStep : Fld := ⟨0x200028, 0, 16, .ro, 0⟩
/-- REFSEL.STEP_INFO: STEP_COUNT. -/
def Reg.refselStepInfoStepCount : Fld := ⟨0x20002c, 16, 16, .ro, 0⟩
/-- REFSEL.STEP_INFO: CAND. -/
def Reg.refselStepInfoCand : Fld := ⟨0x20002c, 0, 5, .ro, 31⟩
/-- REFSEL.SWITCHES: RETARGETS. -/
def Reg.refselSwitchesRetargets : Fld := ⟨0x200030, 16, 16, .ro, 0⟩
/-- REFSEL.SWITCHES: COMMITS. -/
def Reg.refselSwitchesCommits : Fld := ⟨0x200030, 0, 16, .ro, 0⟩
/-- REFSEL.ELIGIBLE: MASK. -/
def Reg.refselEligibleMask : Fld := ⟨0x200034, 0, 24, .ro, 0⟩
/-- REFSEL.RCS_MAP n: LANE3. -/
def Reg.refselRcsMapLane3 (n : Nat) : Fld := ⟨cell 0x200040 0x4 4 n, 24, 8, .img, 255⟩
/-- REFSEL.RCS_MAP n: LANE2. -/
def Reg.refselRcsMapLane2 (n : Nat) : Fld := ⟨cell 0x200040 0x4 4 n, 16, 8, .img, 255⟩
/-- REFSEL.RCS_MAP n: LANE1. -/
def Reg.refselRcsMapLane1 (n : Nat) : Fld := ⟨cell 0x200040 0x4 4 n, 8, 8, .img, 255⟩
/-- REFSEL.RCS_MAP n: LANE0. -/
def Reg.refselRcsMapLane0 (n : Nat) : Fld := ⟨cell 0x200040 0x4 4 n, 0, 8, .img, 255⟩
/-- REFSEL.LIMSET_LIM_1S n: LIM_1S. -/
def Reg.refselLimsetLim1sLim1s (n : Nat) : Fld := ⟨cell 0x200100 0x20 4 n, 0, 32, .img, 60000⟩
/-- REFSEL.LIMSET_LIM_64S n: LIM_64S. -/
def Reg.refselLimsetLim64sLim64s (n : Nat) : Fld := ⟨cell 0x200104 0x20 4 n, 0, 32, .img, 920000⟩
/-- REFSEL.LIMSET_LIM_DRIFT n: LIM_DRIFT. -/
def Reg.refselLimsetLimDriftLimDrift (n : Nat) : Fld := ⟨cell 0x200108 0x20 4 n, 0, 32, .img, 1000⟩
/-- REFSEL.LIMSET_LIM_REL n: LIM_REL. -/
def Reg.refselLimsetLimRelLimRel (n : Nat) : Fld := ⟨cell 0x20010c 0x20 4 n, 0, 32, .img, 0⟩
/-- REFSEL.LIMSET_WTR n: WTR. -/
def Reg.refselLimsetWtrWtr (n : Nat) : Fld := ⟨cell 0x200110 0x20 4 n, 0, 16, .img, 100⟩
/-- REFSEL.CAND_CFG n: QL_FIXED. -/
def Reg.refselCandCfgQlFixed (n : Nat) : Fld := ⟨cell 0x200200 0x40 24 n, 12, 4, .img, 0⟩
/-- REFSEL.CAND_CFG n: PRIO. -/
def Reg.refselCandCfgPrio (n : Nat) : Fld := ⟨cell 0x200200 0x40 24 n, 8, 4, .img, 0⟩
/-- REFSEL.CAND_CFG n: LIMSET. -/
def Reg.refselCandCfgLimset (n : Nat) : Fld := ⟨cell 0x200200 0x40 24 n, 4, 2, .img, 0⟩
/-- REFSEL.CAND_CFG n: REL_EN. -/
def Reg.refselCandCfgRelEn (n : Nat) : Fld := ⟨cell 0x200200 0x40 24 n, 2, 1, .img, 0⟩
/-- REFSEL.CAND_CFG n: PAIR. -/
def Reg.refselCandCfgPair (n : Nat) : Fld := ⟨cell 0x200200 0x40 24 n, 1, 1, .img, 0⟩
/-- REFSEL.CAND_CFG n: ENABLE. -/
def Reg.refselCandCfgEnable (n : Nat) : Fld := ⟨cell 0x200200 0x40 24 n, 0, 1, .img, 0⟩
/-- REFSEL.CAND_FREQ_LO n: FREQ_LO. -/
def Reg.refselCandFreqLoFreqLo (n : Nat) : Fld := ⟨cell 0x200204 0x40 24 n, 0, 32, .img, 0⟩
/-- REFSEL.CAND_FREQ_HI n: FREQ_HI. -/
def Reg.refselCandFreqHiFreqHi (n : Nat) : Fld := ⟨cell 0x200208 0x40 24 n, 0, 32, .img, 0⟩
/-- REFSEL.CAND_STATUS n: RANK. -/
def Reg.refselCandStatusRank (n : Nat) : Fld := ⟨cell 0x20020c 0x40 24 n, 28, 4, .ro, 0⟩
/-- REFSEL.CAND_STATUS n: REASON. -/
def Reg.refselCandStatusReason (n : Nat) : Fld := ⟨cell 0x20020c 0x40 24 n, 24, 4, .ro, 0⟩
/-- REFSEL.CAND_STATUS n: PPS_VALID. -/
def Reg.refselCandStatusPpsValid (n : Nat) : Fld := ⟨cell 0x20020c 0x40 24 n, 7, 1, .ro, 0⟩
/-- REFSEL.CAND_STATUS n: SELECTED. -/
def Reg.refselCandStatusSelected (n : Nat) : Fld := ⟨cell 0x20020c 0x40 24 n, 6, 1, .ro, 0⟩
/-- REFSEL.CAND_STATUS n: STATE. -/
def Reg.refselCandStatusState (n : Nat) : Fld := ⟨cell 0x20020c 0x40 24 n, 0, 3, .ro, 0⟩
/-- REFSEL.CAND_F1S n: F1S. -/
def Reg.refselCandF1sF1s (n : Nat) : Fld := ⟨cell 0x200210 0x40 24 n, 0, 32, .ro, 0⟩
/-- REFSEL.CAND_F64 n: F64. -/
def Reg.refselCandF64F64 (n : Nat) : Fld := ⟨cell 0x200214 0x40 24 n, 0, 32, .ro, 0⟩
/-- REFSEL.CAND_FREL n: FREL. -/
def Reg.refselCandFrelFrel (n : Nat) : Fld := ⟨cell 0x200218 0x40 24 n, 0, 32, .ro, 2147483648⟩
/-- REFSEL.CAND_DRIFT n: DRIFT. -/
def Reg.refselCandDriftDrift (n : Nat) : Fld := ⟨cell 0x20021c 0x40 24 n, 0, 32, .ro, 0⟩
/-- REFSEL.CAND_SOAK n: SOAK_LEFT. -/
def Reg.refselCandSoakSoakLeft (n : Nat) : Fld := ⟨cell 0x200220 0x40 24 n, 0, 16, .ro, 0⟩
/-- REFSEL.CAND_COUNTS n: DISQ_COUNT. -/
def Reg.refselCandCountsDisqCount (n : Nat) : Fld := ⟨cell 0x200224 0x40 24 n, 16, 16, .ro, 0⟩
/-- REFSEL.CAND_COUNTS n: LOS_COUNT. -/
def Reg.refselCandCountsLosCount (n : Nat) : Fld := ⟨cell 0x200224 0x40 24 n, 0, 16, .ro, 0⟩
/-- SYN.ID: BLOCK. -/
def Reg.synIdBlock : Fld := ⟨0x300000, 16, 16, .ro, 1303⟩
/-- SYN.ID: VERSION. -/
def Reg.synIdVersion : Fld := ⟨0x300000, 0, 16, .ro, 256⟩
/-- SYN.ROOT_CFG: LOOP_BW. -/
def Reg.synRootCfgLoopBw : Fld := ⟨0x300004, 0, 3, .img, 5⟩
/-- SYN.ROOT_STATUS, root n (0 A, 1 B): BAND. -/
def Reg.synRootStatusBand (n : Nat) : Fld := ⟨0x300008, 8 + 16 * (n % 2), 6, .ro, 0⟩
/-- SYN.ROOT_STATUS, root n (0 A, 1 B): CLAMP. -/
def Reg.synRootStatusClamp (n : Nat) : Fld := ⟨0x300008, 7 + 16 * (n % 2), 1, .ro, 0⟩
/-- SYN.ROOT_STATUS, root n (0 A, 1 B): LOCK. -/
def Reg.synRootStatusLock (n : Nat) : Fld := ⟨0x300008, 6 + 16 * (n % 2), 1, .ro, 0⟩
/-- SYN.ROOT_STATUS, root n (0 A, 1 B): EFF_BW. -/
def Reg.synRootStatusEffBw (n : Nat) : Fld := ⟨0x300008, 3 + 16 * (n % 2), 3, .ro, 0⟩
/-- SYN.ROOT_STATUS, root n (0 A, 1 B): STATE. -/
def Reg.synRootStatusState (n : Nat) : Fld := ⟨0x300008, 0 + 16 * (n % 2), 3, .ro, 0⟩
/-- SYN.TRACK: ERR. -/
def Reg.synTrackErr : Fld := ⟨0x30000c, 16, 16, .ro, 0⟩
/-- SYN.TRACK: TRACK_OK. -/
def Reg.synTrackTrackOk : Fld := ⟨0x30000c, 0, 1, .ro, 0⟩
/-- SYN.SYNC_CFG: POL. -/
def Reg.synSyncCfgPol : Fld := ⟨0x300010, 8, 1, .img, 0⟩
/-- SYN.SYNC_CFG: TB. -/
def Reg.synSyncCfgTb : Fld := ⟨0x300010, 0, 3, .img, 0⟩
/-- SYN.SYNC_STATUS: DONE. -/
def Reg.synSyncStatusDone : Fld := ⟨0x300014, 16, 16, .ro, 0⟩
/-- SYN.SYNC_STATUS: IGNORED. -/
def Reg.synSyncStatusIgnored : Fld := ⟨0x300014, 8, 8, .ro, 0⟩
/-- SYN.SYNC_STATUS: PENDING. -/
def Reg.synSyncStatusPending : Fld := ⟨0x300014, 0, 1, .ro, 0⟩
/-- SYN.OS_CFG n: P. -/
def Reg.synOsCfgP (n : Nat) : Fld := ⟨cell 0x300100 0x20 4 n, 16, 6, .img, 4⟩
/-- SYN.OS_CFG n: N. -/
def Reg.synOsCfgN (n : Nat) : Fld := ⟨cell 0x300100 0x20 4 n, 8, 3, .img, 4⟩
/-- SYN.OS_CFG n: TB. -/
def Reg.synOsCfgTb (n : Nat) : Fld := ⟨cell 0x300100 0x20 4 n, 4, 3, .img, 0⟩
/-- SYN.OS_CFG n: MODE. -/
def Reg.synOsCfgMode (n : Nat) : Fld := ⟨cell 0x300100 0x20 4 n, 0, 2, .img, 0⟩
/-- SYN.OS_FRAC_LO n: FRAC_LO. -/
def Reg.synOsFracLoFracLo (n : Nat) : Fld := ⟨cell 0x300104 0x20 4 n, 0, 32, .img, 0⟩
/-- SYN.OS_FRAC_HI n: FRAC_HI. -/
def Reg.synOsFracHiFracHi (n : Nat) : Fld := ⟨cell 0x300108 0x20 4 n, 0, 8, .img, 0⟩
/-- SYN.OS_STATUS n: TL_ERR. -/
def Reg.synOsStatusTlErr (n : Nat) : Fld := ⟨cell 0x30010c 0x20 4 n, 16, 16, .ro, 0⟩
/-- SYN.OS_STATUS n: LOCK. -/
def Reg.synOsStatusLock (n : Nat) : Fld := ⟨cell 0x30010c 0x20 4 n, 3, 1, .ro, 0⟩
/-- SYN.OS_STATUS n: TL_STATE. -/
def Reg.synOsStatusTlState (n : Nat) : Fld := ⟨cell 0x30010c 0x20 4 n, 0, 3, .ro, 0⟩
/-- SYN.OS_FREQ_LO n: FREQ_LO. -/
def Reg.synOsFreqLoFreqLo (n : Nat) : Fld := ⟨cell 0x300110 0x20 4 n, 0, 32, .img, 0⟩
/-- SYN.OS_FREQ_HI n: FREQ_HI. -/
def Reg.synOsFreqHiFreqHi (n : Nat) : Fld := ⟨cell 0x300114 0x20 4 n, 0, 32, .img, 0⟩
/-- SYN.CKO_CFG n: SYNC_EN. -/
def Reg.synCkoCfgSyncEn (n : Nat) : Fld := ⟨cell 0x300200 0x10 12 n, 12, 1, .img, 0⟩
/-- SYN.CKO_CFG n: LEG_N. -/
def Reg.synCkoCfgLegN (n : Nat) : Fld := ⟨cell 0x300200 0x10 12 n, 10, 2, .img, 0⟩
/-- SYN.CKO_CFG n: LEG_P. -/
def Reg.synCkoCfgLegP (n : Nat) : Fld := ⟨cell 0x300200 0x10 12 n, 8, 2, .img, 0⟩
/-- SYN.CKO_CFG n: FORMAT. -/
def Reg.synCkoCfgFormat (n : Nat) : Fld := ⟨cell 0x300200 0x10 12 n, 4, 3, .img, 0⟩
/-- SYN.CKO_CFG n: OS. -/
def Reg.synCkoCfgOs (n : Nat) : Fld := ⟨cell 0x300200 0x10 12 n, 0, 2, .img, 0⟩
/-- SYN.CKO_DIV n: DIV. -/
def Reg.synCkoDivDiv (n : Nat) : Fld := ⟨cell 0x300204 0x10 12 n, 0, 25, .img, 1⟩
/-- SYN.CKO_PHASE n: PHASE_CYC. -/
def Reg.synCkoPhasePhaseCyc (n : Nat) : Fld := ⟨cell 0x300208 0x10 12 n, 0, 24, .img, 0⟩
/-- SYN.CKO_CTL n: TAP_SAT. -/
def Reg.synCkoCtlTapSat (n : Nat) : Fld := ⟨cell 0x30020c 0x10 12 n, 18, 1, .ro, 0⟩
/-- SYN.CKO_CTL n: DRIVING. -/
def Reg.synCkoCtlDriving (n : Nat) : Fld := ⟨cell 0x30020c 0x10 12 n, 17, 1, .ro, 0⟩
/-- SYN.CKO_CTL n: OE_HOST. -/
def Reg.synCkoCtlOeHost (n : Nat) : Fld := ⟨cell 0x30020c 0x10 12 n, 16, 1, .rw, 1⟩
/-- SYN.CKO_CTL n: COARSE. -/
def Reg.synCkoCtlCoarse (n : Nat) : Fld := ⟨cell 0x30020c 0x10 12 n, 8, 6, .img, 0⟩
/-- SYN.CKO_CTL n: FINE. -/
def Reg.synCkoCtlFine (n : Nat) : Fld := ⟨cell 0x30020c 0x10 12 n, 0, 5, .img, 0⟩
/-- SYN.BAND_CFG n: VALID. -/
def Reg.synBandCfgValid (n : Nat) : Fld := ⟨cell 0x301000 0x10 64 n, 8, 1, .img, 0⟩
/-- SYN.BAND_CFG n: CODE. -/
def Reg.synBandCfgCode (n : Nat) : Fld := ⟨cell 0x301000 0x10 64 n, 0, 8, .img, 0⟩
/-- SYN.BAND_CENTRE n: CENTRE_KHZ. -/
def Reg.synBandCentreCentreKhz (n : Nat) : Fld := ⟨cell 0x301004 0x10 64 n, 0, 32, .img, 0⟩
/-- SYN.BAND_SLOPE n: SLOPE. -/
def Reg.synBandSlopeSlope (n : Nat) : Fld := ⟨cell 0x301008 0x10 64 n, 0, 32, .img, 0⟩
/-- LANE.ID n: BLOCK. -/
def Reg.laneIdBlock (n : Nat) : Fld := ⟨cell 0x800000 0x1000 128 n, 16, 16, .ro, 7847⟩
/-- LANE.ID n: VERSION. -/
def Reg.laneIdVersion (n : Nat) : Fld := ⟨cell 0x800000 0x1000 128 n, 8, 8, .ro, 16⟩
/-- LANE.ID n: LANE. -/
def Reg.laneIdLane (n : Nat) : Fld := ⟨cell 0x800000 0x1000 128 n, 0, 7, .ro, n⟩
/-- LANE.CFG n: SELFTEST. -/
def Reg.laneCfgSelftest (n : Nat) : Fld := ⟨cell 0x800004 0x1000 128 n, 11, 1, .img, 0⟩
/-- LANE.CFG n: MANUAL_ALLOW. -/
def Reg.laneCfgManualAllow (n : Nat) : Fld := ⟨cell 0x800004 0x1000 128 n, 10, 1, .img, 0⟩
/-- LANE.CFG n: IDLE_EN. -/
def Reg.laneCfgIdleEn (n : Nat) : Fld := ⟨cell 0x800004 0x1000 128 n, 9, 1, .img, 0⟩
/-- LANE.CFG n: POL_RX. -/
def Reg.laneCfgPolRx (n : Nat) : Fld := ⟨cell 0x800004 0x1000 128 n, 8, 1, .img, 0⟩
/-- LANE.CFG n: POL_TX. -/
def Reg.laneCfgPolTx (n : Nat) : Fld := ⟨cell 0x800004 0x1000 128 n, 7, 1, .img, 0⟩
/-- LANE.CFG n: QRATE. -/
def Reg.laneCfgQrate (n : Nat) : Fld := ⟨cell 0x800004 0x1000 128 n, 3, 2, .ro, 0⟩
/-- LANE.CFG n: MODE. -/
def Reg.laneCfgMode (n : Nat) : Fld := ⟨cell 0x800004 0x1000 128 n, 0, 2, .img, 0⟩
/-- LANE.TXEQ n: SWING. -/
def Reg.laneTxeqSwing (n : Nat) : Fld := ⟨cell 0x800008 0x1000 128 n, 12, 3, .img, 4⟩
/-- LANE.TXEQ n: POST. -/
def Reg.laneTxeqPost (n : Nat) : Fld := ⟨cell 0x800008 0x1000 128 n, 5, 5, .img, 0⟩
/-- LANE.TXEQ n: PRE. -/
def Reg.laneTxeqPre (n : Nat) : Fld := ⟨cell 0x800008 0x1000 128 n, 0, 4, .img, 0⟩
/-- LANE.HLTH_CFG n: IDLE_US. -/
def Reg.laneHlthCfgIdleUs (n : Nat) : Fld := ⟨cell 0x80000c 0x1000 128 n, 24, 8, .img, 10⟩
/-- LANE.HLTH_CFG n: FILL_EXP. -/
def Reg.laneHlthCfgFillExp (n : Nat) : Fld := ⟨cell 0x80000c 0x1000 128 n, 8, 6, .img, 10⟩
/-- LANE.HLTH_CFG n: MARK_LIM. -/
def Reg.laneHlthCfgMarkLim (n : Nat) : Fld := ⟨cell 0x80000c 0x1000 128 n, 0, 8, .img, 4⟩
/-- LANE.STATE n: GEN. -/
def Reg.laneStateGen (n : Nat) : Fld := ⟨cell 0x800010 0x1000 128 n, 16, 16, .ro, 0⟩
/-- LANE.STATE n: QUIET_RX. -/
def Reg.laneStateQuietRx (n : Nat) : Fld := ⟨cell 0x800010 0x1000 128 n, 15, 1, .ro, 0⟩
/-- LANE.STATE n: QUIET_TX. -/
def Reg.laneStateQuietTx (n : Nat) : Fld := ⟨cell 0x800010 0x1000 128 n, 14, 1, .ro, 0⟩
/-- LANE.STATE n: QPLL_LOCK. -/
def Reg.laneStateQpllLock (n : Nat) : Fld := ⟨cell 0x800010 0x1000 128 n, 13, 1, .ro, 0⟩
/-- LANE.STATE n: HELD. -/
def Reg.laneStateHeld (n : Nat) : Fld := ⟨cell 0x800010 0x1000 128 n, 12, 1, .ro, 0⟩
/-- LANE.STATE n: MANUAL. -/
def Reg.laneStateManual (n : Nat) : Fld := ⟨cell 0x800010 0x1000 128 n, 11, 1, .ro, 0⟩
/-- LANE.STATE n: HEALTH. -/
def Reg.laneStateHealth (n : Nat) : Fld := ⟨cell 0x800010 0x1000 128 n, 10, 1, .ro, 0⟩
/-- LANE.STATE n: SLIP. -/
def Reg.laneStateSlip (n : Nat) : Fld := ⟨cell 0x800010 0x1000 128 n, 5, 5, .ro, 0⟩
/-- LANE.STATE n: TSTATE. -/
def Reg.laneStateTstate (n : Nat) : Fld := ⟨cell 0x800010 0x1000 128 n, 0, 3, .ro, 0⟩
/-- LANE.MAN_CMD n: GEN. -/
def Reg.laneManCmdGen (n : Nat) : Fld := ⟨cell 0x800014 0x1000 128 n, 16, 16, .wo, 0⟩
/-- LANE.MAN_CMD n: CMD. -/
def Reg.laneManCmdCmd (n : Nat) : Fld := ⟨cell 0x800014 0x1000 128 n, 0, 3, .wo, 0⟩
/-- LANE.MAN_STATUS n: MARKER_SEEN. -/
def Reg.laneManStatusMarkerSeen (n : Nat) : Fld := ⟨cell 0x800018 0x1000 128 n, 3, 1, .ro, 0⟩
/-- LANE.MAN_STATUS n: RESULT. -/
def Reg.laneManStatusResult (n : Nat) : Fld := ⟨cell 0x800018 0x1000 128 n, 0, 3, .ro, 0⟩
/-- LANE.RX_QL n: LAST. -/
def Reg.laneRxQlLast (n : Nat) : Fld := ⟨cell 0x80001c 0x1000 128 n, 4, 4, .ro, 0⟩
/-- LANE.RX_QL n: STABLE. -/
def Reg.laneRxQlStable (n : Nat) : Fld := ⟨cell 0x80001c 0x1000 128 n, 0, 4, .ro, 0⟩
/-- LANE.ERR n: QPLL_UNLOCK. -/
def Reg.laneErrQpllUnlock (n : Nat) : Fld := ⟨cell 0x800020 0x1000 128 n, 5, 1, .w1c, 0⟩
/-- LANE.ERR n: TF_CRC. -/
def Reg.laneErrTfCrc (n : Nat) : Fld := ⟨cell 0x800020 0x1000 128 n, 4, 1, .w1c, 0⟩
/-- LANE.ERR n: EXT_CHK. -/
def Reg.laneErrExtChk (n : Nat) : Fld := ⟨cell 0x800020 0x1000 128 n, 3, 1, .w1c, 0⟩
/-- LANE.ERR n: STUFF_VIOL. -/
def Reg.laneErrStuffViol (n : Nat) : Fld := ⟨cell 0x800020 0x1000 128 n, 2, 1, .w1c, 0⟩
/-- LANE.ERR n: MARKER. -/
def Reg.laneErrMarker (n : Nat) : Fld := ⟨cell 0x800020 0x1000 128 n, 1, 1, .w1c, 0⟩
/-- LANE.ERR n: LOS. -/
def Reg.laneErrLos (n : Nat) : Fld := ⟨cell 0x800020 0x1000 128 n, 0, 1, .w1c, 0⟩
/-- LANE.EVENTS n: ALIGN_LOSS. -/
def Reg.laneEventsAlignLoss (n : Nat) : Fld := ⟨cell 0x800024 0x1000 128 n, 16, 16, .ro, 0⟩
/-- LANE.EVENTS n: RETRIES. -/
def Reg.laneEventsRetries (n : Nat) : Fld := ⟨cell 0x800024 0x1000 128 n, 0, 16, .ro, 0⟩
/-- LANE.BACKOFF n: MS. -/
def Reg.laneBackoffMs (n : Nat) : Fld := ⟨cell 0x800028 0x1000 128 n, 0, 11, .ro, 1⟩
/-- LANE.LOS_EVT n: COUNT. -/
def Reg.laneLosEvtCount (n : Nat) : Fld := ⟨cell 0x80002c 0x1000 128 n, 0, 16, .ro, 0⟩
/-- LANE.MARK_ERR_LO n: COUNT. -/
def Reg.laneMarkErrLoCount (n : Nat) : Fld := ⟨cell 0x800030 0x1000 128 n, 0, 32, .ro, 0⟩
/-- LANE.STUFF_TX_LO n: COUNT. -/
def Reg.laneStuffTxLoCount (n : Nat) : Fld := ⟨cell 0x800038 0x1000 128 n, 0, 32, .ro, 0⟩
/-- LANE.STUFF_RX_LO n: COUNT. -/
def Reg.laneStuffRxLoCount (n : Nat) : Fld := ⟨cell 0x800040 0x1000 128 n, 0, 32, .ro, 0⟩
/-- LANE.STUFF_VIOL_LO n: COUNT. -/
def Reg.laneStuffViolLoCount (n : Nat) : Fld := ⟨cell 0x800048 0x1000 128 n, 0, 32, .ro, 0⟩
/-- LANE.RES_EMPTY_LO n: COUNT. -/
def Reg.laneResEmptyLoCount (n : Nat) : Fld := ⟨cell 0x800050 0x1000 128 n, 0, 32, .ro, 0⟩
/-- LANE.PRBS_BITS_LO n: COUNT. -/
def Reg.lanePrbsBitsLoCount (n : Nat) : Fld := ⟨cell 0x800068 0x1000 128 n, 0, 32, .ro, 0⟩
/-- LANE.PRBS_ERR_LO n: COUNT. -/
def Reg.lanePrbsErrLoCount (n : Nat) : Fld := ⟨cell 0x800070 0x1000 128 n, 0, 32, .ro, 0⟩
/-- LANE.MARK_ERR_HI n: COUNT. -/
def Reg.laneMarkErrHiCount (n : Nat) : Fld := ⟨cell 0x800034 0x1000 128 n, 0, 16, .ro, 0⟩
/-- LANE.STUFF_TX_HI n: COUNT. -/
def Reg.laneStuffTxHiCount (n : Nat) : Fld := ⟨cell 0x80003c 0x1000 128 n, 0, 16, .ro, 0⟩
/-- LANE.STUFF_RX_HI n: COUNT. -/
def Reg.laneStuffRxHiCount (n : Nat) : Fld := ⟨cell 0x800044 0x1000 128 n, 0, 16, .ro, 0⟩
/-- LANE.STUFF_VIOL_HI n: COUNT. -/
def Reg.laneStuffViolHiCount (n : Nat) : Fld := ⟨cell 0x80004c 0x1000 128 n, 0, 16, .ro, 0⟩
/-- LANE.RES_EMPTY_HI n: COUNT. -/
def Reg.laneResEmptyHiCount (n : Nat) : Fld := ⟨cell 0x800054 0x1000 128 n, 0, 16, .ro, 0⟩
/-- LANE.PRBS_BITS_HI n: COUNT. -/
def Reg.lanePrbsBitsHiCount (n : Nat) : Fld := ⟨cell 0x80006c 0x1000 128 n, 0, 16, .ro, 0⟩
/-- LANE.PRBS_ERR_HI n: COUNT. -/
def Reg.lanePrbsErrHiCount (n : Nat) : Fld := ⟨cell 0x800074 0x1000 128 n, 0, 16, .ro, 0⟩
/-- LANE.PRBS_CTL n: PAT_RX. -/
def Reg.lanePrbsCtlPatRx (n : Nat) : Fld := ⟨cell 0x800060 0x1000 128 n, 10, 2, .rw, 0⟩
/-- LANE.PRBS_CTL n: PAT_TX. -/
def Reg.lanePrbsCtlPatTx (n : Nat) : Fld := ⟨cell 0x800060 0x1000 128 n, 8, 2, .rw, 0⟩
/-- LANE.PRBS_CTL n: CLEAR. -/
def Reg.lanePrbsCtlClear (n : Nat) : Fld := ⟨cell 0x800060 0x1000 128 n, 4, 1, .wo, 0⟩
/-- LANE.PRBS_CTL n: MODE. -/
def Reg.lanePrbsCtlMode (n : Nat) : Fld := ⟨cell 0x800060 0x1000 128 n, 0, 2, .rw, 0⟩
/-- LANE.PRBS_STATUS n: ACTIVE. -/
def Reg.lanePrbsStatusActive (n : Nat) : Fld := ⟨cell 0x800064 0x1000 128 n, 1, 1, .ro, 0⟩
/-- LANE.PRBS_STATUS n: LOCK. -/
def Reg.lanePrbsStatusLock (n : Nat) : Fld := ⟨cell 0x800064 0x1000 128 n, 0, 1, .ro, 0⟩
/-- PORT.ID n: BLOCK. -/
def Reg.portIdBlock (n : Nat) : Fld := ⟨cell 0x1000000 0x1000 128 n, 16, 16, .ro, 3707⟩
/-- PORT.ID n: VERSION. -/
def Reg.portIdVersion (n : Nat) : Fld := ⟨cell 0x1000000 0x1000 128 n, 8, 8, .ro, 16⟩
/-- PORT.ID n: PORT. -/
def Reg.portIdPort (n : Nat) : Fld := ⟨cell 0x1000000 0x1000 128 n, 0, 7, .ro, n⟩
/-- PORT.CFG n: ESMC_EXT. -/
def Reg.portCfgEsmcExt (n : Nat) : Fld := ⟨cell 0x1000004 0x1000 128 n, 7, 1, .img, 0⟩
/-- PORT.CFG n: ESMC_TX. -/
def Reg.portCfgEsmcTx (n : Nat) : Fld := ⟨cell 0x1000004 0x1000 128 n, 6, 1, .img, 0⟩
/-- PORT.CFG n: ESMC_RX. -/
def Reg.portCfgEsmcRx (n : Nat) : Fld := ⟨cell 0x1000004 0x1000 128 n, 5, 1, .img, 0⟩
/-- PORT.CFG n: FEC. -/
def Reg.portCfgFec (n : Nat) : Fld := ⟨cell 0x1000004 0x1000 128 n, 3, 2, .img, 0⟩
/-- PORT.CFG n: MODE. -/
def Reg.portCfgMode (n : Nat) : Fld := ⟨cell 0x1000004 0x1000 128 n, 0, 3, .img, 0⟩
/-- PORT.VLAN n: IN_FILTER. -/
def Reg.portVlanInFilter (n : Nat) : Fld := ⟨cell 0x1000008 0x1000 128 n, 21, 1, .img, 0⟩
/-- PORT.VLAN n: ACCEPT. -/
def Reg.portVlanAccept (n : Nat) : Fld := ⟨cell 0x1000008 0x1000 128 n, 19, 2, .img, 0⟩
/-- PORT.VLAN n: DEF_PCP. -/
def Reg.portVlanDefPcp (n : Nat) : Fld := ⟨cell 0x1000008 0x1000 128 n, 16, 3, .img, 0⟩
/-- PORT.VLAN n: PVID. -/
def Reg.portVlanPvid (n : Nat) : Fld := ⟨cell 0x1000008 0x1000 128 n, 0, 12, .img, 1⟩
/-- PORT.PCP_MAP n: MAP. -/
def Reg.portPcpMapMap (n : Nat) : Fld := ⟨cell 0x100000c 0x1000 128 n, 0, 24, .img, 16434824⟩
/-- PORT.MAXLEN n: LEN. -/
def Reg.portMaxlenLen (n : Nat) : Fld := ⟨cell 0x1000010 0x1000 128 n, 0, 14, .img, 1522⟩
/-- PORT.PFC_CFG n: PFC_EN. -/
def Reg.portPfcCfgPfcEn (n : Nat) : Fld := ⟨cell 0x1000014 0x1000 128 n, 24, 1, .img, 0⟩
/-- PORT.PFC_CFG n: LOSSLESS. -/
def Reg.portPfcCfgLossless (n : Nat) : Fld := ⟨cell 0x1000014 0x1000 128 n, 16, 8, .img, 0⟩
/-- PORT.PFC_CFG n: QUANTA. -/
def Reg.portPfcCfgQuanta (n : Nat) : Fld := ⟨cell 0x1000014 0x1000 128 n, 0, 16, .img, 65535⟩
/-- PORT.PTP_CFG n: TRAILER_TC. -/
def Reg.portPtpCfgTrailerTc (n : Nat) : Fld := ⟨cell 0x1000018 0x1000 128 n, 8, 8, .img, 0⟩
/-- PORT.PTP_CFG n: TS_TB. -/
def Reg.portPtpCfgTsTb (n : Nat) : Fld := ⟨cell 0x1000018 0x1000 128 n, 4, 3, .img, 0⟩
/-- PORT.PTP_CFG n: ONESTEP_EN. -/
def Reg.portPtpCfgOnestepEn (n : Nat) : Fld := ⟨cell 0x1000018 0x1000 128 n, 2, 1, .img, 0⟩
/-- PORT.PTP_CFG n: TC_MODE. -/
def Reg.portPtpCfgTcMode (n : Nat) : Fld := ⟨cell 0x1000018 0x1000 128 n, 0, 2, .img, 0⟩
/-- PORT.MAC_LO n: MAC. -/
def Reg.portMacLoMac (n : Nat) : Fld := ⟨cell 0x100001c 0x1000 128 n, 0, 32, .img, 0⟩
/-- PORT.MAC_HI n: MAC. -/
def Reg.portMacHiMac (n : Nat) : Fld := ⟨cell 0x1000020 0x1000 128 n, 0, 16, .img, 0⟩
/-- PORT.LINK n: TX_XOFF. -/
def Reg.portLinkTxXoff (n : Nat) : Fld := ⟨cell 0x1000024 0x1000 128 n, 24, 8, .ro, 0⟩
/-- PORT.LINK n: RX_PAUSED. -/
def Reg.portLinkRxPaused (n : Nat) : Fld := ⟨cell 0x1000024 0x1000 128 n, 16, 8, .ro, 0⟩
/-- PORT.LINK n: STATE. -/
def Reg.portLinkState (n : Nat) : Fld := ⟨cell 0x1000024 0x1000 128 n, 0, 2, .ro, 0⟩
/-- PORT.ERR n: TC_SAT. -/
def Reg.portErrTcSat (n : Nat) : Fld := ⟨cell 0x1000028 0x1000 128 n, 3, 1, .w1c, 0⟩
/-- PORT.ERR n: HI_BER. -/
def Reg.portErrHiBer (n : Nat) : Fld := ⟨cell 0x1000028 0x1000 128 n, 2, 1, .w1c, 0⟩
/-- PORT.ERR n: LOCK_TIMEOUT. -/
def Reg.portErrLockTimeout (n : Nat) : Fld := ⟨cell 0x1000028 0x1000 128 n, 1, 1, .w1c, 0⟩
/-- PORT.ERR n: LOCK_LOSS. -/
def Reg.portErrLockLoss (n : Nat) : Fld := ⟨cell 0x1000028 0x1000 128 n, 0, 1, .w1c, 0⟩
/-- PORT.ESMC_RX n: AGE_S. -/
def Reg.portEsmcRxAgeS (n : Nat) : Fld := ⟨cell 0x100002c 0x1000 128 n, 24, 8, .ro, 0⟩
/-- PORT.ESMC_RX n: ENH. -/
def Reg.portEsmcRxEnh (n : Nat) : Fld := ⟨cell 0x100002c 0x1000 128 n, 8, 8, .ro, 255⟩
/-- PORT.ESMC_RX n: SSM. -/
def Reg.portEsmcRxSsm (n : Nat) : Fld := ⟨cell 0x100002c 0x1000 128 n, 0, 4, .ro, 15⟩
/-- PORT.P2P_DELAY n: DELAY. -/
def Reg.portP2pDelayDelay (n : Nat) : Fld := ⟨cell 0x1000030 0x1000 128 n, 0, 32, .rw, 0⟩
/-- PORT.RX_FRAMES_LO n: COUNT. -/
def Reg.portRxFramesLoCount (n : Nat) : Fld := ⟨cell 0x1000040 0x1000 128 n, 0, 32, .ro, 0⟩
/-- PORT.RX_FRAMES_HI n: COUNT. -/
def Reg.portRxFramesHiCount (n : Nat) : Fld := ⟨cell 0x1000044 0x1000 128 n, 0, 16, .ro, 0⟩
/-- PORT.RX_BYTES_LO n: COUNT. -/
def Reg.portRxBytesLoCount (n : Nat) : Fld := ⟨cell 0x1000048 0x1000 128 n, 0, 32, .ro, 0⟩
/-- PORT.RX_BYTES_HI n: COUNT. -/
def Reg.portRxBytesHiCount (n : Nat) : Fld := ⟨cell 0x100004c 0x1000 128 n, 0, 16, .ro, 0⟩
/-- PORT.TX_FRAMES_LO n: COUNT. -/
def Reg.portTxFramesLoCount (n : Nat) : Fld := ⟨cell 0x1000050 0x1000 128 n, 0, 32, .ro, 0⟩
/-- PORT.TX_FRAMES_HI n: COUNT. -/
def Reg.portTxFramesHiCount (n : Nat) : Fld := ⟨cell 0x1000054 0x1000 128 n, 0, 16, .ro, 0⟩
/-- PORT.TX_BYTES_LO n: COUNT. -/
def Reg.portTxBytesLoCount (n : Nat) : Fld := ⟨cell 0x1000058 0x1000 128 n, 0, 32, .ro, 0⟩
/-- PORT.TX_BYTES_HI n: COUNT. -/
def Reg.portTxBytesHiCount (n : Nat) : Fld := ⟨cell 0x100005c 0x1000 128 n, 0, 16, .ro, 0⟩
/-- PORT.RX_FCS_ERR_LO n: COUNT. -/
def Reg.portRxFcsErrLoCount (n : Nat) : Fld := ⟨cell 0x1000060 0x1000 128 n, 0, 32, .ro, 0⟩
/-- PORT.RX_FCS_ERR_HI n: COUNT. -/
def Reg.portRxFcsErrHiCount (n : Nat) : Fld := ⟨cell 0x1000064 0x1000 128 n, 0, 16, .ro, 0⟩
/-- PORT.RX_UNDERSIZE_LO n: COUNT. -/
def Reg.portRxUndersizeLoCount (n : Nat) : Fld := ⟨cell 0x1000068 0x1000 128 n, 0, 32, .ro, 0⟩
/-- PORT.RX_UNDERSIZE_HI n: COUNT. -/
def Reg.portRxUndersizeHiCount (n : Nat) : Fld := ⟨cell 0x100006c 0x1000 128 n, 0, 16, .ro, 0⟩
/-- PORT.RX_OVERSIZE_LO n: COUNT. -/
def Reg.portRxOversizeLoCount (n : Nat) : Fld := ⟨cell 0x1000070 0x1000 128 n, 0, 32, .ro, 0⟩
/-- PORT.RX_OVERSIZE_HI n: COUNT. -/
def Reg.portRxOversizeHiCount (n : Nat) : Fld := ⟨cell 0x1000074 0x1000 128 n, 0, 16, .ro, 0⟩
/-- PORT.RX_VLAN_DROP_LO n: COUNT. -/
def Reg.portRxVlanDropLoCount (n : Nat) : Fld := ⟨cell 0x1000078 0x1000 128 n, 0, 32, .ro, 0⟩
/-- PORT.RX_VLAN_DROP_HI n: COUNT. -/
def Reg.portRxVlanDropHiCount (n : Nat) : Fld := ⟨cell 0x100007c 0x1000 128 n, 0, 16, .ro, 0⟩
/-- PORT.RX_CTRL_DROP_LO n: COUNT. -/
def Reg.portRxCtrlDropLoCount (n : Nat) : Fld := ⟨cell 0x1000080 0x1000 128 n, 0, 32, .ro, 0⟩
/-- PORT.RX_CTRL_DROP_HI n: COUNT. -/
def Reg.portRxCtrlDropHiCount (n : Nat) : Fld := ⟨cell 0x1000084 0x1000 128 n, 0, 16, .ro, 0⟩
/-- PORT.RX_PFC_LO n: COUNT. -/
def Reg.portRxPfcLoCount (n : Nat) : Fld := ⟨cell 0x1000088 0x1000 128 n, 0, 32, .ro, 0⟩
/-- PORT.RX_PFC_HI n: COUNT. -/
def Reg.portRxPfcHiCount (n : Nat) : Fld := ⟨cell 0x100008c 0x1000 128 n, 0, 16, .ro, 0⟩
/-- PORT.TX_PFC_LO n: COUNT. -/
def Reg.portTxPfcLoCount (n : Nat) : Fld := ⟨cell 0x1000090 0x1000 128 n, 0, 32, .ro, 0⟩
/-- PORT.TX_PFC_HI n: COUNT. -/
def Reg.portTxPfcHiCount (n : Nat) : Fld := ⟨cell 0x1000094 0x1000 128 n, 0, 16, .ro, 0⟩
/-- PORT.ESMC_BAD_LO n: COUNT. -/
def Reg.portEsmcBadLoCount (n : Nat) : Fld := ⟨cell 0x1000098 0x1000 128 n, 0, 32, .ro, 0⟩
/-- PORT.ESMC_BAD_HI n: COUNT. -/
def Reg.portEsmcBadHiCount (n : Nat) : Fld := ⟨cell 0x100009c 0x1000 128 n, 0, 16, .ro, 0⟩
/-- PORT.ESMC_DISCARD_LO n: COUNT. -/
def Reg.portEsmcDiscardLoCount (n : Nat) : Fld := ⟨cell 0x10000a0 0x1000 128 n, 0, 32, .ro, 0⟩
/-- PORT.ESMC_DISCARD_HI n: COUNT. -/
def Reg.portEsmcDiscardHiCount (n : Nat) : Fld := ⟨cell 0x10000a4 0x1000 128 n, 0, 16, .ro, 0⟩
/-- PORT.STOMPS_LO n: COUNT. -/
def Reg.portStompsLoCount (n : Nat) : Fld := ⟨cell 0x10000a8 0x1000 128 n, 0, 32, .ro, 0⟩
/-- PORT.STOMPS_HI n: COUNT. -/
def Reg.portStompsHiCount (n : Nat) : Fld := ⟨cell 0x10000ac 0x1000 128 n, 0, 16, .ro, 0⟩
/-- PORT.FEC_CORR_LO n: COUNT. -/
def Reg.portFecCorrLoCount (n : Nat) : Fld := ⟨cell 0x10000b0 0x1000 128 n, 0, 32, .ro, 0⟩
/-- PORT.FEC_CORR_HI n: COUNT. -/
def Reg.portFecCorrHiCount (n : Nat) : Fld := ⟨cell 0x10000b4 0x1000 128 n, 0, 16, .ro, 0⟩
/-- PORT.FEC_UNCORR_LO n: COUNT. -/
def Reg.portFecUncorrLoCount (n : Nat) : Fld := ⟨cell 0x10000b8 0x1000 128 n, 0, 32, .ro, 0⟩
/-- PORT.FEC_UNCORR_HI n: COUNT. -/
def Reg.portFecUncorrHiCount (n : Nat) : Fld := ⟨cell 0x10000bc 0x1000 128 n, 0, 16, .ro, 0⟩
/-- PORT.TC_SAT_LO n: COUNT. -/
def Reg.portTcSatLoCount (n : Nat) : Fld := ⟨cell 0x10000c0 0x1000 128 n, 0, 32, .ro, 0⟩
/-- PORT.TC_SAT_HI n: COUNT. -/
def Reg.portTcSatHiCount (n : Nat) : Fld := ⟨cell 0x10000c4 0x1000 128 n, 0, 16, .ro, 0⟩
/-- PORT.TX_OVERSIZE_LO n: COUNT. -/
def Reg.portTxOversizeLoCount (n : Nat) : Fld := ⟨cell 0x10000c8 0x1000 128 n, 0, 32, .ro, 0⟩
/-- PORT.TX_OVERSIZE_HI n: COUNT. -/
def Reg.portTxOversizeHiCount (n : Nat) : Fld := ⟨cell 0x10000cc 0x1000 128 n, 0, 16, .ro, 0⟩
/-- TK.ID: BLOCK. -/
def Reg.tkIdBlock : Fld := ⟨0x400000, 16, 16, .ro, 1820⟩
/-- TK.ID: VERSION. -/
def Reg.tkIdVersion : Fld := ⟨0x400000, 0, 16, .ro, 256⟩
/-- TK.STATUS: FAILOVERS. -/
def Reg.tkStatusFailovers : Fld := ⟨0x400004, 16, 16, .ro, 0⟩
/-- TK.STATUS: UNVERIFIED. -/
def Reg.tkStatusUnverified : Fld := ⟨0x400004, 4, 1, .ro, 0⟩
/-- TK.STATUS: XLINK_LOST. -/
def Reg.tkStatusXlinkLost : Fld := ⟨0x400004, 3, 1, .ro, 0⟩
/-- TK.STATUS: XC_OK. -/
def Reg.tkStatusXcOk : Fld := ⟨0x400004, 2, 1, .ro, 0⟩
/-- TK.STATUS: STANDBY_RUN. -/
def Reg.tkStatusStandbyRun : Fld := ⟨0x400004, 1, 1, .ro, 0⟩
/-- TK.STATUS: ACTIVE. -/
def Reg.tkStatusActive : Fld := ⟨0x400004, 0, 1, .ro, 0⟩
/-- TK.XC_CFG: XC_LIM. -/
def Reg.tkXcCfgXcLim : Fld := ⟨0x400008, 0, 10, .img, 100⟩
/-- TK.XC_STATUS: BAD_SLOTS. -/
def Reg.tkXcStatusBadSlots : Fld := ⟨0x40000c, 16, 16, .ro, 0⟩
/-- TK.XC_STATUS: OUT_OF_LIM. -/
def Reg.tkXcStatusOutOfLim : Fld := ⟨0x40000c, 0, 8, .ro, 0⟩
/-- TK.PAIR n: SWITCHES. -/
def Reg.tkPairSwitches (n : Nat) : Fld := ⟨cell 0x400010 0x4 4 n, 24, 8, .ro, 0⟩
/-- TK.PAIR n: DEFERRED. -/
def Reg.tkPairDeferred (n : Nat) : Fld := ⟨cell 0x400010 0x4 4 n, 18, 1, .ro, 0⟩
/-- TK.PAIR n: RAMPING. -/
def Reg.tkPairRamping (n : Nat) : Fld := ⟨cell 0x400010 0x4 4 n, 17, 1, .ro, 0⟩
/-- TK.PAIR n: SWAPPED. -/
def Reg.tkPairSwapped (n : Nat) : Fld := ⟨cell 0x400010 0x4 4 n, 16, 1, .ro, 0⟩
/-- TK.PAIR n: EN. -/
def Reg.tkPairEn (n : Nat) : Fld := ⟨cell 0x400010 0x4 4 n, 11, 1, .img, 0⟩
/-- TK.PAIR n: SHADOW. -/
def Reg.tkPairShadow (n : Nat) : Fld := ⟨cell 0x400010 0x4 4 n, 8, 3, .img, 0⟩
/-- TK.PAIR n: PRIMARY. -/
def Reg.tkPairPrimary (n : Nat) : Fld := ⟨cell 0x400010 0x4 4 n, 0, 3, .img, 0⟩
/-- TK.TB_CFG n: SRC_ID. -/
def Reg.tkTbCfgSrcId (n : Nat) : Fld := ⟨cell 0x401000 0x100 8 n, 8, 8, .img, 0⟩
/-- TK.TB_CFG n: SRC. -/
def Reg.tkTbCfgSrc (n : Nat) : Fld := ⟨cell 0x401000 0x100 8 n, 4, 2, .img, 0⟩
/-- TK.TB_CFG n: INIT_VALID. -/
def Reg.tkTbCfgInitValid (n : Nat) : Fld := ⟨cell 0x401000 0x100 8 n, 3, 1, .img, 0⟩
/-- TK.TB_CFG n: FORMAT. -/
def Reg.tkTbCfgFormat (n : Nat) : Fld := ⟨cell 0x401000 0x100 8 n, 1, 1, .img, 0⟩
/-- TK.TB_CFG n: ENABLE. -/
def Reg.tkTbCfgEnable (n : Nat) : Fld := ⟨cell 0x401000 0x100 8 n, 0, 1, .img, 0⟩
/-- TK.TB_GAIN n: KI. -/
def Reg.tkTbGainKi (n : Nat) : Fld := ⟨cell 0x401004 0x100 8 n, 16, 16, .img, 4096⟩
/-- TK.TB_GAIN n: KP. -/
def Reg.tkTbGainKp (n : Nat) : Fld := ⟨cell 0x401004 0x100 8 n, 0, 16, .img, 32768⟩
/-- TK.TB_ILIM n: ILIM. -/
def Reg.tkTbIlimIlim (n : Nat) : Fld := ⟨cell 0x401008 0x100 8 n, 0, 32, .img, 1000000⟩
/-- TK.TB_SLEW n: SLEW. -/
def Reg.tkTbSlewSlew (n : Nat) : Fld := ⟨cell 0x40100c 0x100 8 n, 0, 32, .img, 10⟩
/-- TK.TB_TRACK_WIN n: TRACK_WIN. -/
def Reg.tkTbTrackWinTrackWin (n : Nat) : Fld := ⟨cell 0x401010 0x100 8 n, 0, 32, .img, 1000⟩
/-- TK.TB_OUTLIER n: OUTLIER. -/
def Reg.tkTbOutlierOutlier (n : Nat) : Fld := ⟨cell 0x401014 0x100 8 n, 0, 32, .img, 100000⟩
/-- TK.TB_TIMES n: OUTLIER_CNT. -/
def Reg.tkTbTimesOutlierCnt (n : Nat) : Fld := ⟨cell 0x401018 0x100 8 n, 16, 8, .img, 4⟩
/-- TK.TB_TIMES n: TIMEOUT_MS. -/
def Reg.tkTbTimesTimeoutMs (n : Nat) : Fld := ⟨cell 0x401018 0x100 8 n, 0, 16, .img, 500⟩
/-- TK.TB_PPS_DELAY n: PPS_DELAY. -/
def Reg.tkTbPpsDelayPpsDelay (n : Nat) : Fld := ⟨cell 0x40101c 0x100 8 n, 0, 32, .img, 0⟩
/-- TK.TB_INIT_SEC_LO n: INIT_SEC_LO. -/
def Reg.tkTbInitSecLoInitSecLo (n : Nat) : Fld := ⟨cell 0x401020 0x100 8 n, 0, 32, .img, 0⟩
/-- TK.TB_INIT_SEC_HI n: INIT_SEC_HI. -/
def Reg.tkTbInitSecHiInitSecHi (n : Nat) : Fld := ⟨cell 0x401024 0x100 8 n, 0, 16, .img, 0⟩
/-- TK.TB_STATUS n: GEN. -/
def Reg.tkTbStatusGen (n : Nat) : Fld := ⟨cell 0x401028 0x100 8 n, 16, 16, .ro, 0⟩
/-- TK.TB_STATUS n: STATE_B. -/
def Reg.tkTbStatusStateB (n : Nat) : Fld := ⟨cell 0x401028 0x100 8 n, 8, 3, .ro, 0⟩
/-- TK.TB_STATUS n: STATE_A. -/
def Reg.tkTbStatusStateA (n : Nat) : Fld := ⟨cell 0x401028 0x100 8 n, 4, 3, .ro, 0⟩
/-- TK.TB_STATUS n: VALID. -/
def Reg.tkTbStatusValid (n : Nat) : Fld := ⟨cell 0x401028 0x100 8 n, 0, 1, .ro, 0⟩
/-- TK.TB_NOW_SEC_LO n: NOW_SEC_LO. -/
def Reg.tkTbNowSecLoNowSecLo (n : Nat) : Fld := ⟨cell 0x40102c 0x100 8 n, 0, 32, .ro, 0⟩
/-- TK.TB_NOW_SEC_HI n: NOW_SEC_HI. -/
def Reg.tkTbNowSecHiNowSecHi (n : Nat) : Fld := ⟨cell 0x401030 0x100 8 n, 0, 16, .ro, 0⟩
/-- TK.TB_NOW_NS n: NOW_NS. -/
def Reg.tkTbNowNsNowNs (n : Nat) : Fld := ⟨cell 0x401034 0x100 8 n, 0, 30, .ro, 0⟩
/-- TK.TB_NOW_FRAC n: NOW_FRAC. -/
def Reg.tkTbNowFracNowFrac (n : Nat) : Fld := ⟨cell 0x401038 0x100 8 n, 0, 16, .ro, 0⟩
/-- TK.TB_FREQ n: FREQ. -/
def Reg.tkTbFreqFreq (n : Nat) : Fld := ⟨cell 0x40103c 0x100 8 n, 0, 32, .ro, 0⟩
/-- TK.TB_PEND n: PEND. -/
def Reg.tkTbPendPend (n : Nat) : Fld := ⟨cell 0x401040 0x100 8 n, 0, 32, .ro, 0⟩
/-- TK.TB_OFF_LO n: OFF_LO. -/
def Reg.tkTbOffLoOffLo (n : Nat) : Fld := ⟨cell 0x401044 0x100 8 n, 0, 32, .ro, 0⟩
/-- TK.TB_OFF_HI n: OFF_HI. -/
def Reg.tkTbOffHiOffHi (n : Nat) : Fld := ⟨cell 0x401048 0x100 8 n, 0, 16, .ro, 0⟩
/-- TK.TB_XC_DIFF n: XC_DIFF. -/
def Reg.tkTbXcDiffXcDiff (n : Nat) : Fld := ⟨cell 0x40104c 0x100 8 n, 0, 32, .ro, 2147483648⟩
/-- TK.TB_EVENTS n: OUTLIERS. -/
def Reg.tkTbEventsOutliers (n : Nat) : Fld := ⟨cell 0x401050 0x100 8 n, 16, 16, .ro, 0⟩
/-- TK.TB_EVENTS n: HOLDS. -/
def Reg.tkTbEventsHolds (n : Nat) : Fld := ⟨cell 0x401050 0x100 8 n, 0, 16, .ro, 0⟩
/-- TK.TB_FEED_LO n: FEED_LO. -/
def Reg.tkTbFeedLoFeedLo (n : Nat) : Fld := ⟨cell 0x401054 0x100 8 n, 0, 32, .rw, 0⟩
/-- TK.TB_FEED_HI n: FEED_HI. -/
def Reg.tkTbFeedHiFeedHi (n : Nat) : Fld := ⟨cell 0x401058 0x100 8 n, 0, 16, .rw, 0⟩
/-- TK.TB_SET_SEC_LO n: SET_SEC_LO. -/
def Reg.tkTbSetSecLoSetSecLo (n : Nat) : Fld := ⟨cell 0x40105c 0x100 8 n, 0, 32, .rw, 0⟩
/-- TK.TB_SET_SEC_HI n: SET_SEC_HI. -/
def Reg.tkTbSetSecHiSetSecHi (n : Nat) : Fld := ⟨cell 0x401060 0x100 8 n, 0, 16, .rw, 0⟩
/-- TK.TB_SET_NS n: SET_NS. -/
def Reg.tkTbSetNsSetNs (n : Nat) : Fld := ⟨cell 0x401064 0x100 8 n, 0, 30, .rw, 0⟩
/-- TK.TB_FEED_CMD n: GEN. -/
def Reg.tkTbFeedCmdGen (n : Nat) : Fld := ⟨cell 0x401068 0x100 8 n, 16, 16, .wo, 0⟩
/-- TK.TB_FEED_CMD n: CMD. -/
def Reg.tkTbFeedCmdCmd (n : Nat) : Fld := ⟨cell 0x401068 0x100 8 n, 0, 2, .wo, 0⟩
/-- TK.TB_FEED_STATUS n: ACCEPTED. -/
def Reg.tkTbFeedStatusAccepted (n : Nat) : Fld := ⟨cell 0x40106c 0x100 8 n, 16, 16, .ro, 0⟩
/-- TK.TB_FEED_STATUS n: RESULT. -/
def Reg.tkTbFeedStatusResult (n : Nat) : Fld := ⟨cell 0x40106c 0x100 8 n, 0, 3, .ro, 0⟩
/-- TT.ID: BLOCK. -/
def Reg.ttIdBlock : Fld := ⟨0x500000, 16, 16, .ro, 32327⟩
/-- TT.ID: VERSION. -/
def Reg.ttIdVersion : Fld := ⟨0x500000, 0, 16, .ro, 256⟩
/-- TT.HOPS0/1: HOPS of time base n. -/
def Reg.ttHops (n : Nat) : Fld := ⟨cell 0x500008 4 2 (n / 4), 8 * (n % 4), 8, .ro, 0⟩
/-- TT.RUN n: RUN. -/
def Reg.ttRunRun (n : Nat) : Fld := ⟨cell 0x500010 0x4 4 n, 0, 32, .ro, 0⟩
/-- TT.HEALTH n: HEALTH. -/
def Reg.ttHealthHealth (n : Nat) : Fld := ⟨cell 0x500020 0x4 4 n, 0, 32, .ro, 0⟩
/-- TT.LANE_CFG n: PD_AVG. -/
def Reg.ttLaneCfgPdAvg (n : Nat) : Fld := ⟨cell 0x501000 0x80 128 n, 8, 4, .img, 6⟩
/-- TT.LANE_CFG n: TB. -/
def Reg.ttLaneCfgTb (n : Nat) : Fld := ⟨cell 0x501000 0x80 128 n, 4, 3, .img, 0⟩
/-- TT.LANE_CFG n: TT_EN. -/
def Reg.ttLaneCfgTtEn (n : Nat) : Fld := ⟨cell 0x501000 0x80 128 n, 0, 1, .img, 0⟩
/-- TT.LANE_EXT_TX n: EXT_TX. -/
def Reg.ttLaneExtTxExtTx (n : Nat) : Fld := ⟨cell 0x501004 0x80 128 n, 0, 32, .img, 0⟩
/-- TT.LANE_EXT_RX n: EXT_RX. -/
def Reg.ttLaneExtRxExtRx (n : Nat) : Fld := ⟨cell 0x501008 0x80 128 n, 0, 32, .img, 0⟩
/-- TT.LANE_ALPHA_LO n: ALPHA_LO. -/
def Reg.ttLaneAlphaLoAlphaLo (n : Nat) : Fld := ⟨cell 0x50100c 0x80 128 n, 0, 32, .img, 0⟩
/-- TT.LANE_ALPHA_HI n: ALPHA_HI. -/
def Reg.ttLaneAlphaHiAlphaHi (n : Nat) : Fld := ⟨cell 0x501010 0x80 128 n, 0, 32, .img, 0⟩
/-- TT.LANE_RTT_MAX n: RTT_MAX. -/
def Reg.ttLaneRttMaxRttMax (n : Nat) : Fld := ⟨cell 0x501014 0x80 128 n, 0, 32, .img, 1200000⟩
/-- TT.LANE_RTT_JUMP n: RTT_JUMP. -/
def Reg.ttLaneRttJumpRttJump (n : Nat) : Fld := ⟨cell 0x501018 0x80 128 n, 0, 16, .img, 1000⟩
/-- TT.LANE_STATUS n: LAST_DISC. -/
def Reg.ttLaneStatusLastDisc (n : Nat) : Fld := ⟨cell 0x50101c 0x80 128 n, 28, 4, .ro, 0⟩
/-- TT.LANE_STATUS n: P_HOPS. -/
def Reg.ttLaneStatusPHops (n : Nat) : Fld := ⟨cell 0x50101c 0x80 128 n, 16, 8, .ro, 0⟩
/-- TT.LANE_STATUS n: P_TB_VALID. -/
def Reg.ttLaneStatusPTbValid (n : Nat) : Fld := ⟨cell 0x50101c 0x80 128 n, 15, 1, .ro, 0⟩
/-- TT.LANE_STATUS n: P_SOURCE. -/
def Reg.ttLaneStatusPSource (n : Nat) : Fld := ⟨cell 0x50101c 0x80 128 n, 14, 1, .ro, 0⟩
/-- TT.LANE_STATUS n: CHAIN_LONG. -/
def Reg.ttLaneStatusChainLong (n : Nat) : Fld := ⟨cell 0x50101c 0x80 128 n, 13, 1, .ro, 0⟩
/-- TT.LANE_STATUS n: FORMAT_MISMATCH. -/
def Reg.ttLaneStatusFormatMismatch (n : Nat) : Fld := ⟨cell 0x50101c 0x80 128 n, 12, 1, .ro, 0⟩
/-- TT.LANE_STATUS n: HEALTH. -/
def Reg.ttLaneStatusHealth (n : Nat) : Fld := ⟨cell 0x50101c 0x80 128 n, 11, 1, .ro, 0⟩
/-- TT.LANE_STATUS n: CUR_TB. -/
def Reg.ttLaneStatusCurTb (n : Nat) : Fld := ⟨cell 0x50101c 0x80 128 n, 8, 3, .ro, 0⟩
/-- TT.LANE_STATUS n: ROLE. -/
def Reg.ttLaneStatusRole (n : Nat) : Fld := ⟨cell 0x50101c 0x80 128 n, 4, 1, .ro, 0⟩
/-- TT.LANE_STATUS n: STATE. -/
def Reg.ttLaneStatusState (n : Nat) : Fld := ⟨cell 0x50101c 0x80 128 n, 0, 3, .ro, 0⟩
/-- TT.LANE_PHASE n: PHASE. -/
def Reg.ttLanePhasePhase (n : Nat) : Fld := ⟨cell 0x501020 0x80 128 n, 0, 32, .ro, 0⟩
/-- TT.LANE_RATE n: RATE. -/
def Reg.ttLaneRateRate (n : Nat) : Fld := ⟨cell 0x501024 0x80 128 n, 0, 32, .ro, 0⟩
/-- TT.LANE_RTT_LO n: RTT_LO. -/
def Reg.ttLaneRttLoRttLo (n : Nat) : Fld := ⟨cell 0x501028 0x80 128 n, 0, 32, .ro, 0⟩
/-- TT.LANE_RTT_HI n: RTT_HI. -/
def Reg.ttLaneRttHiRttHi (n : Nat) : Fld := ⟨cell 0x50102c 0x80 128 n, 0, 16, .ro, 0⟩
/-- TT.LANE_D_IN_LO n: D_IN_LO. -/
def Reg.ttLaneDInLoDInLo (n : Nat) : Fld := ⟨cell 0x501030 0x80 128 n, 0, 32, .ro, 0⟩
/-- TT.LANE_D_IN_HI n: D_IN_HI. -/
def Reg.ttLaneDInHiDInHi (n : Nat) : Fld := ⟨cell 0x501034 0x80 128 n, 0, 16, .ro, 0⟩
/-- TT.LANE_E_LO n: E_LO. -/
def Reg.ttLaneELoELo (n : Nat) : Fld := ⟨cell 0x501038 0x80 128 n, 0, 32, .ro, 0⟩
/-- TT.LANE_E_HI n: E_HI. -/
def Reg.ttLaneEHiEHi (n : Nat) : Fld := ⟨cell 0x50103c 0x80 128 n, 0, 16, .ro, 0⟩
/-- TT.LANE_SAMPLES n: SAMPLES. -/
def Reg.ttLaneSamplesSamples (n : Nat) : Fld := ⟨cell 0x501040 0x80 128 n, 0, 32, .ro, 0⟩
/-- TT.LANE_COUNTS n: DISCARDS. -/
def Reg.ttLaneCountsDiscards (n : Nat) : Fld := ⟨cell 0x501044 0x80 128 n, 16, 16, .ro, 0⟩
/-- TT.LANE_COUNTS n: ANCHORS. -/
def Reg.ttLaneCountsAnchors (n : Nat) : Fld := ⟨cell 0x501044 0x80 128 n, 0, 16, .ro, 0⟩
/-- TT.LANE_ERRS n: AUDIT_ERR. -/
def Reg.ttLaneErrsAuditErr (n : Nat) : Fld := ⟨cell 0x501048 0x80 128 n, 16, 16, .ro, 0⟩
/-- TT.LANE_ERRS n: RTT_REBASE. -/
def Reg.ttLaneErrsRttRebase (n : Nat) : Fld := ⟨cell 0x501048 0x80 128 n, 0, 16, .ro, 0⟩
/-- TT.LANE_SEQ n: RX_SEQ. -/
def Reg.ttLaneSeqRxSeq (n : Nat) : Fld := ⟨cell 0x50104c 0x80 128 n, 16, 16, .ro, 0⟩
/-- TT.LANE_SEQ n: TX_SEQ. -/
def Reg.ttLaneSeqTxSeq (n : Nat) : Fld := ⟨cell 0x50104c 0x80 128 n, 0, 16, .ro, 0⟩
/-- TT.LANE_P_NODE_LO n: P_NODE_LO. -/
def Reg.ttLanePNodeLoPNodeLo (n : Nat) : Fld := ⟨cell 0x501050 0x80 128 n, 0, 32, .ro, 0⟩
/-- TT.LANE_P_NODE_HI n: P_NODE_HI. -/
def Reg.ttLanePNodeHiPNodeHi (n : Nat) : Fld := ⟨cell 0x501054 0x80 128 n, 0, 32, .ro, 0⟩
/-- TT.LANE_P_GM_LO n: P_GM_LO. -/
def Reg.ttLanePGmLoPGmLo (n : Nat) : Fld := ⟨cell 0x501058 0x80 128 n, 0, 32, .ro, 0⟩
/-- TT.LANE_P_GM_HI n: P_GM_HI. -/
def Reg.ttLanePGmHiPGmHi (n : Nat) : Fld := ⟨cell 0x50105c 0x80 128 n, 0, 32, .ro, 0⟩
/-- TS.ID: BLOCK. -/
def Reg.tsIdBlock : Fld := ⟨0x600000, 16, 16, .ro, 29957⟩
/-- TS.ID: VERSION. -/
def Reg.tsIdVersion : Fld := ⟨0x600000, 0, 16, .ro, 256⟩
/-- TS.STATUS: CAP_OVF. -/
def Reg.tsStatusCapOvf : Fld := ⟨0x600004, 16, 16, .ro, 0⟩
/-- TS.STATUS: CAP_NE. -/
def Reg.tsStatusCapNe : Fld := ⟨0x600004, 0, 16, .ro, 0⟩
/-- TS.TXQ_NE n: NE. -/
def Reg.tsTxqNeNe (n : Nat) : Fld := ⟨cell 0x600010 0x4 4 n, 0, 32, .ro, 0⟩
/-- TS.LEAT_TBk: the base of lane n = 8k + i, in bits [4i+2:4i]. -/
def Reg.tsLeatTbTb (n : Nat) : Fld := ⟨cell 0x600040 0x4 16 (n / 8), 4 * (n % 8), 3, .img, 0⟩
/-- TS.PG_CMD: GEN. -/
def Reg.tsPgCmdGen : Fld := ⟨0x600128, 16, 16, .wo, 0⟩
/-- TS.PG_CMD: PG. -/
def Reg.tsPgCmdPg : Fld := ⟨0x600128, 4, 4, .wo, 0⟩
/-- TS.PG_CMD: CMD. -/
def Reg.tsPgCmdCmd : Fld := ⟨0x600128, 0, 2, .wo, 0⟩
/-- TS.PG_CMD_STATUS: PG. -/
def Reg.tsPgCmdStatusPg : Fld := ⟨0x60012c, 4, 4, .ro, 0⟩
/-- TS.PG_CMD_STATUS: RESULT. -/
def Reg.tsPgCmdStatusResult : Fld := ⟨0x60012c, 0, 3, .ro, 0⟩
/-- TS.PG_STG_CFG: POL. -/
def Reg.tsPgStgCfgPol : Fld := ⟨0x600100, 8, 1, .rw, 0⟩
/-- TS.PG_STG_CFG: TB. -/
def Reg.tsPgStgCfgTb : Fld := ⟨0x600100, 4, 3, .rw, 0⟩
/-- TS.PG_STG_CFG: MODE. -/
def Reg.tsPgStgCfgMode : Fld := ⟨0x600100, 0, 2, .rw, 0⟩
/-- TS.PG_STG_START_SEC_LO: SEC. -/
def Reg.tsPgStgStartSecLoSec : Fld := ⟨0x600104, 0, 32, .rw, 0⟩
/-- TS.PG_STG_START_SEC_HI: SEC. -/
def Reg.tsPgStgStartSecHiSec : Fld := ⟨0x600108, 0, 16, .rw, 0⟩
/-- TS.PG_STG_START_NS: NS. -/
def Reg.tsPgStgStartNsNs : Fld := ⟨0x60010c, 0, 30, .rw, 0⟩
/-- TS.PG_STG_START_FRAC: FRAC. -/
def Reg.tsPgStgStartFracFrac : Fld := ⟨0x600110, 0, 16, .rw, 0⟩
/-- TS.PG_STG_PERIOD_LO: PERIOD. -/
def Reg.tsPgStgPeriodLoPeriod : Fld := ⟨0x600114, 0, 32, .rw, 0⟩
/-- TS.PG_STG_PERIOD_HI: PERIOD. -/
def Reg.tsPgStgPeriodHiPeriod : Fld := ⟨0x600118, 0, 32, .rw, 0⟩
/-- TS.PG_STG_WIDTH_LO: WIDTH. -/
def Reg.tsPgStgWidthLoWidth : Fld := ⟨0x60011c, 0, 32, .rw, 0⟩
/-- TS.PG_STG_WIDTH_HI: WIDTH. -/
def Reg.tsPgStgWidthHiWidth : Fld := ⟨0x600120, 0, 16, .rw, 0⟩
/-- TS.PG_STG_COUNT: COUNT. -/
def Reg.tsPgStgCountCount : Fld := ⟨0x600124, 0, 32, .rw, 0⟩
/-- TS.PG_CFG n: OWNER. -/
def Reg.tsPgCfgOwner (n : Nat) : Fld := ⟨cell 0x601000 0x40 16 n, 12, 1, .img, 0⟩
/-- TS.PG_CFG n: DRIVE. -/
def Reg.tsPgCfgDrive (n : Nat) : Fld := ⟨cell 0x601000 0x40 16 n, 11, 1, .img, 0⟩
/-- TS.PG_CFG n: POL. -/
def Reg.tsPgCfgPol (n : Nat) : Fld := ⟨cell 0x601000 0x40 16 n, 8, 1, .ro, 0⟩
/-- TS.PG_CFG n: TB. -/
def Reg.tsPgCfgTb (n : Nat) : Fld := ⟨cell 0x601000 0x40 16 n, 4, 3, .ro, 0⟩
/-- TS.PG_CFG n: MODE. -/
def Reg.tsPgCfgMode (n : Nat) : Fld := ⟨cell 0x601000 0x40 16 n, 0, 2, .ro, 0⟩
/-- TS.PG_START0 n: START_SEC_LO. -/
def Reg.tsPgStart0StartSecLo (n : Nat) : Fld := ⟨cell 0x601004 0x40 16 n, 0, 32, .ro, 0⟩
/-- TS.PG_START1 n: START_SEC_HI. -/
def Reg.tsPgStart1StartSecHi (n : Nat) : Fld := ⟨cell 0x601008 0x40 16 n, 0, 16, .ro, 0⟩
/-- TS.PG_START2 n: START_NS. -/
def Reg.tsPgStart2StartNs (n : Nat) : Fld := ⟨cell 0x60100c 0x40 16 n, 0, 30, .ro, 0⟩
/-- TS.PG_START3 n: START_FRAC. -/
def Reg.tsPgStart3StartFrac (n : Nat) : Fld := ⟨cell 0x601010 0x40 16 n, 0, 16, .ro, 0⟩
/-- TS.PG_PER0 n: PERIOD_LO. -/
def Reg.tsPgPer0PeriodLo (n : Nat) : Fld := ⟨cell 0x601014 0x40 16 n, 0, 32, .ro, 0⟩
/-- TS.PG_PER1 n: PERIOD_HI. -/
def Reg.tsPgPer1PeriodHi (n : Nat) : Fld := ⟨cell 0x601018 0x40 16 n, 0, 32, .ro, 0⟩
/-- TS.PG_WID0 n: WIDTH_LO. -/
def Reg.tsPgWid0WidthLo (n : Nat) : Fld := ⟨cell 0x60101c 0x40 16 n, 0, 32, .ro, 0⟩
/-- TS.PG_WID1 n: WIDTH_HI. -/
def Reg.tsPgWid1WidthHi (n : Nat) : Fld := ⟨cell 0x601020 0x40 16 n, 0, 16, .ro, 0⟩
/-- TS.PG_CNT n: COUNT. -/
def Reg.tsPgCntCount (n : Nat) : Fld := ⟨cell 0x601024 0x40 16 n, 0, 32, .ro, 0⟩
/-- TS.PG_EXT n: EXT_DELAY. -/
def Reg.tsPgExtExtDelay (n : Nat) : Fld := ⟨cell 0x601028 0x40 16 n, 0, 32, .img, 0⟩
/-- TS.PG_STATUS n: GEN. -/
def Reg.tsPgStatusGen (n : Nat) : Fld := ⟨cell 0x60102c 0x40 16 n, 16, 16, .ro, 0⟩
/-- TS.PG_STATUS n: LATE. -/
def Reg.tsPgStatusLate (n : Nat) : Fld := ⟨cell 0x60102c 0x40 16 n, 7, 1, .ro, 0⟩
/-- TS.PG_STATUS n: TAP_SAT. -/
def Reg.tsPgStatusTapSat (n : Nat) : Fld := ⟨cell 0x60102c 0x40 16 n, 6, 1, .ro, 0⟩
/-- TS.PG_STATUS n: STATE. -/
def Reg.tsPgStatusState (n : Nat) : Fld := ⟨cell 0x60102c 0x40 16 n, 0, 3, .ro, 0⟩
/-- TS.PG_FIRED n: FIRED. -/
def Reg.tsPgFiredFired (n : Nat) : Fld := ⟨cell 0x601030 0x40 16 n, 0, 32, .ro, 0⟩
/-- TS.PG_SKIPPED n: SKIPPED. -/
def Reg.tsPgSkippedSkipped (n : Nat) : Fld := ⟨cell 0x601034 0x40 16 n, 0, 32, .ro, 0⟩
/-- TS.CAP_CFG n: GATE. -/
def Reg.tsCapCfgGate (n : Nat) : Fld := ⟨cell 0x602000 0x40 16 n, 13, 1, .img, 0⟩
/-- TS.CAP_CFG n: WIN_EN. -/
def Reg.tsCapCfgWinEn (n : Nat) : Fld := ⟨cell 0x602000 0x40 16 n, 12, 1, .img, 0⟩
/-- TS.CAP_CFG n: WIN_PG. -/
def Reg.tsCapCfgWinPg (n : Nat) : Fld := ⟨cell 0x602000 0x40 16 n, 8, 4, .img, 0⟩
/-- TS.CAP_CFG n: TB. -/
def Reg.tsCapCfgTb (n : Nat) : Fld := ⟨cell 0x602000 0x40 16 n, 4, 3, .img, 0⟩
/-- TS.CAP_CFG n: EDGE. -/
def Reg.tsCapCfgEdge (n : Nat) : Fld := ⟨cell 0x602000 0x40 16 n, 0, 2, .img, 0⟩
/-- TS.CAP_EXT n: EXT_DELAY. -/
def Reg.tsCapExtExtDelay (n : Nat) : Fld := ⟨cell 0x602004 0x40 16 n, 0, 32, .img, 0⟩
/-- TS.CAP_STATUS n: DROPPED. -/
def Reg.tsCapStatusDropped (n : Nat) : Fld := ⟨cell 0x602008 0x40 16 n, 16, 16, .ro, 0⟩
/-- TS.CAP_STATUS n: OVF. -/
def Reg.tsCapStatusOvf (n : Nat) : Fld := ⟨cell 0x602008 0x40 16 n, 8, 1, .w1c, 0⟩
/-- TS.CAP_STATUS n: COUNT. -/
def Reg.tsCapStatusCount (n : Nat) : Fld := ⟨cell 0x602008 0x40 16 n, 0, 5, .ro, 0⟩
/-- TS.CAP_ENTRY0 n: WINDOW. -/
def Reg.tsCapEntry0Window (n : Nat) : Fld := ⟨cell 0x60200c 0x40 16 n, 16, 16, .ro, 0⟩
/-- TS.CAP_ENTRY0 n: VALID. -/
def Reg.tsCapEntry0Valid (n : Nat) : Fld := ⟨cell 0x60200c 0x40 16 n, 7, 1, .ro, 0⟩
/-- TS.CAP_ENTRY0 n: WVALID. -/
def Reg.tsCapEntry0Wvalid (n : Nat) : Fld := ⟨cell 0x60200c 0x40 16 n, 6, 1, .ro, 0⟩
/-- TS.CAP_ENTRY0 n: INHIGH. -/
def Reg.tsCapEntry0Inhigh (n : Nat) : Fld := ⟨cell 0x60200c 0x40 16 n, 5, 1, .ro, 0⟩
/-- TS.CAP_ENTRY0 n: RISING. -/
def Reg.tsCapEntry0Rising (n : Nat) : Fld := ⟨cell 0x60200c 0x40 16 n, 4, 1, .ro, 0⟩
/-- TS.CAP_ENTRY0 n: EMPTY. -/
def Reg.tsCapEntry0Empty (n : Nat) : Fld := ⟨cell 0x60200c 0x40 16 n, 3, 1, .ro, 1⟩
/-- TS.CAP_ENTRY0 n: TB. -/
def Reg.tsCapEntry0Tb (n : Nat) : Fld := ⟨cell 0x60200c 0x40 16 n, 0, 3, .ro, 0⟩
/-- TS.CAP_ENTRY1 n: SEC. -/
def Reg.tsCapEntry1Sec (n : Nat) : Fld := ⟨cell 0x602010 0x40 16 n, 0, 32, .ro, 0⟩
/-- TS.CAP_ENTRY2 n: NS. -/
def Reg.tsCapEntry2Ns (n : Nat) : Fld := ⟨cell 0x602014 0x40 16 n, 0, 30, .ro, 0⟩
/-- TS.CAP_ENTRY3 n: FRAC. -/
def Reg.tsCapEntry3Frac (n : Nat) : Fld := ⟨cell 0x602018 0x40 16 n, 0, 16, .ro, 0⟩
/-- TS.CAP_POP n: POP. -/
def Reg.tsCapPopPop (n : Nat) : Fld := ⟨cell 0x60201c 0x40 16 n, 0, 1, .wo, 0⟩
/-- TS.CAP_MISSED n: MISSED. -/
def Reg.tsCapMissedMissed (n : Nat) : Fld := ⟨cell 0x602020 0x40 16 n, 0, 32, .ro, 0⟩
/-- TS.CAP_GATED n: GATED. -/
def Reg.tsCapGatedGated (n : Nat) : Fld := ⟨cell 0x602024 0x40 16 n, 0, 32, .ro, 0⟩
/-- TS.TXQ_STATUS n: DROPPED. -/
def Reg.tsTxqStatusDropped (n : Nat) : Fld := ⟨cell 0x610000 0x20 128 n, 16, 16, .ro, 0⟩
/-- TS.TXQ_STATUS n: OVF. -/
def Reg.tsTxqStatusOvf (n : Nat) : Fld := ⟨cell 0x610000 0x20 128 n, 8, 1, .w1c, 0⟩
/-- TS.TXQ_STATUS n: COUNT. -/
def Reg.tsTxqStatusCount (n : Nat) : Fld := ⟨cell 0x610000 0x20 128 n, 0, 3, .ro, 0⟩
/-- TS.TXQ_ENTRY0 n: ID. -/
def Reg.tsTxqEntry0Id (n : Nat) : Fld := ⟨cell 0x610004 0x20 128 n, 16, 16, .ro, 0⟩
/-- TS.TXQ_ENTRY0 n: VALID. -/
def Reg.tsTxqEntry0Valid (n : Nat) : Fld := ⟨cell 0x610004 0x20 128 n, 7, 1, .ro, 0⟩
/-- TS.TXQ_ENTRY0 n: BAD. -/
def Reg.tsTxqEntry0Bad (n : Nat) : Fld := ⟨cell 0x610004 0x20 128 n, 6, 1, .ro, 0⟩
/-- TS.TXQ_ENTRY0 n: EMPTY. -/
def Reg.tsTxqEntry0Empty (n : Nat) : Fld := ⟨cell 0x610004 0x20 128 n, 3, 1, .ro, 1⟩
/-- TS.TXQ_ENTRY0 n: TB. -/
def Reg.tsTxqEntry0Tb (n : Nat) : Fld := ⟨cell 0x610004 0x20 128 n, 0, 3, .ro, 0⟩
/-- TS.TXQ_ENTRY1 n: SEC. -/
def Reg.tsTxqEntry1Sec (n : Nat) : Fld := ⟨cell 0x610008 0x20 128 n, 0, 32, .ro, 0⟩
/-- TS.TXQ_ENTRY2 n: NS. -/
def Reg.tsTxqEntry2Ns (n : Nat) : Fld := ⟨cell 0x61000c 0x20 128 n, 0, 30, .ro, 0⟩
/-- TS.TXQ_ENTRY3 n: FRAC. -/
def Reg.tsTxqEntry3Frac (n : Nat) : Fld := ⟨cell 0x610010 0x20 128 n, 0, 16, .ro, 0⟩
/-- TS.TXQ_POP n: POP. -/
def Reg.tsTxqPopPop (n : Nat) : Fld := ⟨cell 0x610014 0x20 128 n, 0, 1, .wo, 0⟩
/-- CAL.ID: BLOCK. -/
def Reg.calIdBlock : Fld := ⟨0x700000, 16, 16, .ro, 3233⟩
/-- CAL.ID: VERSION. -/
def Reg.calIdVersion : Fld := ⟨0x700000, 0, 16, .ro, 256⟩
/-- CAL.CFG: SENSOR_MASK. -/
def Reg.calCfgSensorMask : Fld := ⟨0x700004, 16, 16, .img, 65535⟩
/-- CAL.CFG: CAL_TB. -/
def Reg.calCfgCalTb : Fld := ⟨0x700004, 8, 3, .img, 0⟩
/-- CAL.CFG: DELTA_T. -/
def Reg.calCfgDeltaT : Fld := ⟨0x700004, 0, 8, .img, 24⟩
/-- CAL.LIMITS: RETRY_S. -/
def Reg.calLimitsRetryS : Fld := ⟨0x700008, 16, 16, .img, 30⟩
/-- CAL.LIMITS: MAX_STEP. -/
def Reg.calLimitsMaxStep : Fld := ⟨0x700008, 0, 10, .img, 20⟩
/-- CAL.PERIOD: PERIOD_S. -/
def Reg.calPeriodPeriodS : Fld := ⟨0x70000c, 0, 32, .img, 0⟩
/-- CAL.STATUS: GEN. -/
def Reg.calStatusGen : Fld := ⟨0x700010, 16, 16, .ro, 0⟩
/-- CAL.STATUS: LAST_ABORT. -/
def Reg.calStatusLastAbort : Fld := ⟨0x700010, 12, 4, .ro, 0⟩
/-- CAL.STATUS: SOURCE. -/
def Reg.calStatusSource : Fld := ⟨0x700010, 10, 2, .ro, 0⟩
/-- CAL.STATUS: STALE_TEMP. -/
def Reg.calStatusStaleTemp : Fld := ⟨0x700010, 9, 1, .ro, 0⟩
/-- CAL.STATUS: PPS_OK. -/
def Reg.calStatusPpsOk : Fld := ⟨0x700010, 8, 1, .ro, 0⟩
/-- CAL.STATUS: CLK_OK. -/
def Reg.calStatusClkOk : Fld := ⟨0x700010, 7, 1, .ro, 0⟩
/-- CAL.STATUS: WALKING. -/
def Reg.calStatusWalking : Fld := ⟨0x700010, 6, 1, .ro, 0⟩
/-- CAL.STATUS: RETRY_ARMED. -/
def Reg.calStatusRetryArmed : Fld := ⟨0x700010, 5, 1, .ro, 0⟩
/-- CAL.STATUS: STATE. -/
def Reg.calStatusState : Fld := ⟨0x700010, 0, 4, .ro, 0⟩
/-- CAL.TRIGGER: SENSOR. -/
def Reg.calTriggerSensor : Fld := ⟨0x700014, 8, 4, .ro, 0⟩
/-- CAL.TRIGGER: CAUSE. -/
def Reg.calTriggerCause : Fld := ⟨0x700014, 0, 3, .ro, 0⟩
/-- CAL.COUNTS: ABORTS. -/
def Reg.calCountsAborts : Fld := ⟨0x700018, 16, 16, .ro, 0⟩
/-- CAL.COUNTS: COMMITS. -/
def Reg.calCountsCommits : Fld := ⟨0x700018, 0, 16, .ro, 0⟩
/-- CAL.LAST_SEC: SEC. -/
def Reg.calLastSecSec : Fld := ⟨0x70001c, 0, 32, .ro, 0⟩
/-- CAL.PPS_OFF_LO: OFF. -/
def Reg.calPpsOffLoOff : Fld := ⟨0x700020, 0, 32, .ro, 0⟩
/-- CAL.PPS_OFF_HI: VALID. -/
def Reg.calPpsOffHiValid : Fld := ⟨0x700024, 31, 1, .ro, 0⟩
/-- CAL.PPS_OFF_HI: OFF. -/
def Reg.calPpsOffHiOff : Fld := ⟨0x700024, 0, 16, .ro, 0⟩
/-- CAL.CMD: GEN. -/
def Reg.calCmdGen : Fld := ⟨0x700028, 16, 16, .wo, 0⟩
/-- CAL.CMD: CMD. -/
def Reg.calCmdCmd : Fld := ⟨0x700028, 0, 2, .wo, 0⟩
/-- CAL.CMD_STATUS: RESULT. -/
def Reg.calCmdStatusResult : Fld := ⟨0x70002c, 0, 3, .ro, 0⟩
/-- CAL.CRC: CRC. -/
def Reg.calCrcCrc : Fld := ⟨0x700030, 0, 32, .ro, 0⟩
/-- CAL.STG_CRC: CRC. -/
def Reg.calStgCrcCrc : Fld := ⟨0x700034, 0, 32, .rw, 0⟩
/-- CAL.TEMP n: T_REF. -/
def Reg.calTempTRef (n : Nat) : Fld := ⟨cell 0x700040 0x4 16 n, 16, 16, .ro, 0⟩
/-- CAL.TEMP n: NOW. -/
def Reg.calTempNow (n : Nat) : Fld := ⟨cell 0x700040 0x4 16 n, 0, 16, .ro, 32768⟩
/-- CAL.STG_TREF n: T_REF. -/
def Reg.calStgTrefTRef (n : Nat) : Fld := ⟨cell 0x700080 0x4 16 n, 0, 16, .rw, 0⟩
/-- CAL.VAL n: VALUE. -/
def Reg.calValValue (n : Nat) : Fld := ⟨cell 0x701000 0x4 428 n, 0, 32, .ro, 0⟩
/-- CAL.STG n: VALUE. -/
def Reg.calStgValue (n : Nat) : Fld := ⟨cell 0x702000 0x4 428 n, 0, 32, .rw, 0⟩
/-- TBL.ID: BLOCK. -/
def Reg.tblIdBlock : Fld := ⟨0x1800000, 16, 16, .ro, 31409⟩
/-- TBL.ID: VERSION. -/
def Reg.tblIdVersion : Fld := ⟨0x1800000, 0, 16, .ro, 256⟩
/-- TBL.CFG: AGE_UNIT. -/
def Reg.tblCfgAgeUnit : Fld := ⟨0x1800004, 16, 10, .img, 1000⟩
/-- TBL.CFG: FLOW_TC. -/
def Reg.tblCfgFlowTc : Fld := ⟨0x1800004, 8, 8, .img, 0⟩
/-- TBL.CFG: AGE_NOTIFY. -/
def Reg.tblCfgAgeNotify : Fld := ⟨0x1800004, 2, 1, .img, 0⟩
/-- TBL.CFG: REFRESH_DA. -/
def Reg.tblCfgRefreshDa : Fld := ⟨0x1800004, 1, 1, .img, 0⟩
/-- TBL.CFG: LEARN_EN. -/
def Reg.tblCfgLearnEn : Fld := ⟨0x1800004, 0, 1, .img, 0⟩
/-- TBL.AGE_LIMIT: FLOW_LIMIT. -/
def Reg.tblAgeLimitFlowLimit : Fld := ⟨0x1800008, 16, 15, .img, 300⟩
/-- TBL.AGE_LIMIT: FDB_LIMIT. -/
def Reg.tblAgeLimitFdbLimit : Fld := ⟨0x1800008, 0, 15, .img, 300⟩
/-- TBL.SEED0: SEED. -/
def Reg.tblSeed0Seed : Fld := ⟨0x180000c, 0, 32, .img, 4294967295⟩
/-- TBL.SEED1: SEED. -/
def Reg.tblSeed1Seed : Fld := ⟨0x1800010, 0, 32, .img, 1515870810⟩
/-- TBL.FSEED0: SEED. -/
def Reg.tblFseed0Seed : Fld := ⟨0x1800014, 0, 32, .img, 2779096485⟩
/-- TBL.FSEED1: SEED. -/
def Reg.tblFseed1Seed : Fld := ⟨0x1800018, 0, 32, .img, 1010580540⟩
/-- TBL.LEARN_PORT n: MASK. -/
def Reg.tblLearnPortMask (n : Nat) : Fld := ⟨cell 0x1800020 0x4 4 n, 0, 32, .img, 0⟩
/-- TBL.STATUS: GEN. -/
def Reg.tblStatusGen : Fld := ⟨0x1800030, 16, 16, .ro, 0⟩
/-- TBL.STATUS: AGE_NOW. -/
def Reg.tblStatusAgeNow : Fld := ⟨0x1800030, 0, 16, .ro, 0⟩
/-- TBL.LNQ_CTL: RUN. -/
def Reg.tblLnqCtlRun : Fld := ⟨0x1800034, 0, 1, .rw, 0⟩
/-- TBL.LNQ_STATUS: CAM_USED. -/
def Reg.tblLnqStatusCamUsed : Fld := ⟨0x1800038, 16, 9, .ro, 0⟩
/-- TBL.LNQ_STATUS: COUNT. -/
def Reg.tblLnqStatusCount : Fld := ⟨0x1800038, 0, 13, .ro, 0⟩
/-- TBL.NSEQ: NEXT. -/
def Reg.tblNseqNext : Fld := ⟨0x180003c, 0, 32, .ro, 0⟩
/-- TBL.EPOCH: OUTSTANDING. -/
def Reg.tblEpochOutstanding : Fld := ⟨0x1800040, 16, 5, .ro, 0⟩
/-- TBL.EPOCH: COMPLETED. -/
def Reg.tblEpochCompleted : Fld := ⟨0x1800040, 8, 8, .ro, 0⟩
/-- TBL.EPOCH: CURRENT. -/
def Reg.tblEpochCurrent : Fld := ⟨0x1800040, 0, 8, .ro, 0⟩
/-- TBL.FENCE_STATUS: IE. -/
def Reg.tblFenceStatusIe : Fld := ⟨0x1800044, 1, 1, .rw, 0⟩
/-- TBL.FENCE_STATUS: DONE. -/
def Reg.tblFenceStatusDone : Fld := ⟨0x1800044, 0, 1, .w1c, 0⟩
/-- TBL.FDB_USE: TOTAL. -/
def Reg.tblFdbUseTotal : Fld := ⟨0x1800048, 0, 19, .ro, 0⟩
/-- TBL.FDB_STATIC: STATIC. -/
def Reg.tblFdbStaticStatic : Fld := ⟨0x1800054, 0, 14, .ro, 0⟩
/-- TBL.FLOW_USE: STATIC. -/
def Reg.tblFlowUseStatic : Fld := ⟨0x180004c, 18, 14, .ro, 0⟩
/-- TBL.FLOW_USE: TOTAL. -/
def Reg.tblFlowUseTotal : Fld := ⟨0x180004c, 0, 18, .ro, 0⟩
/-- TBL.PARITY_LOC: TABLE. -/
def Reg.tblParityLocTable : Fld := ⟨0x1800050, 30, 2, .ro, 0⟩
/-- TBL.PARITY_LOC: BANK. -/
def Reg.tblParityLocBank : Fld := ⟨0x1800050, 29, 1, .ro, 0⟩
/-- TBL.PARITY_LOC: WAY. -/
def Reg.tblParityLocWay : Fld := ⟨0x1800050, 27, 2, .ro, 0⟩
/-- TBL.PARITY_LOC: INDEX. -/
def Reg.tblParityLocIndex : Fld := ⟨0x1800050, 0, 15, .ro, 0⟩
/-- TBL.CNT_LEARN: . -/
def Reg.tblCntLearn : Fld := ⟨0x1800060, 0, 32, .ro, 0⟩
/-- TBL.CNT_MOVE: . -/
def Reg.tblCntMove : Fld := ⟨0x1800064, 0, 32, .ro, 0⟩
/-- TBL.CNT_CONFLICT: . -/
def Reg.tblCntConflict : Fld := ⟨0x1800068, 0, 32, .ro, 0⟩
/-- TBL.CNT_RETRACT: . -/
def Reg.tblCntRetract : Fld := ⟨0x180006c, 0, 32, .ro, 0⟩
/-- TBL.CNT_AGED: . -/
def Reg.tblCntAged : Fld := ⟨0x1800070, 0, 32, .ro, 0⟩
/-- TBL.CNT_LNQ_FULL: . -/
def Reg.tblCntLnqFull : Fld := ⟨0x1800074, 0, 32, .ro, 0⟩
/-- TBL.CNT_CAM_FULL: . -/
def Reg.tblCntCamFull : Fld := ⟨0x1800078, 0, 32, .ro, 0⟩
/-- TBL.CNT_STATIC_MISMATCH: . -/
def Reg.tblCntStaticMismatch : Fld := ⟨0x180007c, 0, 32, .ro, 0⟩
/-- TBL.CNT_AGE_DEFER: . -/
def Reg.tblCntAgeDefer : Fld := ⟨0x1800080, 0, 32, .ro, 0⟩
/-- TBL.CNT_VLAN_DROP: . -/
def Reg.tblCntVlanDrop : Fld := ⟨0x1800084, 0, 32, .ro, 0⟩
/-- TBL.CNT_FLOODS: . -/
def Reg.tblCntFloods : Fld := ⟨0x1800088, 0, 32, .ro, 0⟩
/-- TBL.CNT_PASS2: . -/
def Reg.tblCntPass2 : Fld := ⟨0x180008c, 0, 32, .ro, 0⟩
/-- TBL.CNT_PASS3: . -/
def Reg.tblCntPass3 : Fld := ⟨0x1800090, 0, 32, .ro, 0⟩
/-- TBL.CNT_PASS4: . -/
def Reg.tblCntPass4 : Fld := ⟨0x1800094, 0, 32, .ro, 0⟩
/-- TBL.CNT_PARITY: . -/
def Reg.tblCntParity : Fld := ⟨0x1800098, 0, 32, .ro, 0⟩
/-- TBL.CNT_REINSTATED: . -/
def Reg.tblCntReinstated : Fld := ⟨0x180009c, 0, 32, .ro, 0⟩
/-- TBL.CNT_TCQ_FULL: . -/
def Reg.tblCntTcqFull : Fld := ⟨0x18000a0, 0, 32, .ro, 0⟩
/-- FAB.ID: BLOCK. -/
def Reg.fabIdBlock : Fld := ⟨0x2000000, 16, 16, .ro, 4011⟩
/-- FAB.ID: VERSION. -/
def Reg.fabIdVersion : Fld := ⟨0x2000000, 0, 16, .ro, 256⟩
/-- FAB.CFG: CT_EN. -/
def Reg.fabCfgCtEn : Fld := ⟨0x2000004, 0, 1, .img, 1⟩
/-- FAB.GUARD: CELLS. -/
def Reg.fabGuardCells : Fld := ⟨0x2000008, 0, 18, .img, 16384⟩
/-- FAB.POOL: SHARED_FREE. -/
def Reg.fabPoolSharedFree : Fld := ⟨0x200000c, 0, 18, .ro, 196608⟩
/-- FAB.HEAD: TOTAL. -/
def Reg.fabHeadTotal : Fld := ⟨0x2000010, 0, 18, .ro, 0⟩
/-- FAB.USED: CELLS. -/
def Reg.fabUsedCells : Fld := ⟨0x2000014, 0, 18, .ro, 0⟩
/-- FAB.CNT_CT_COPIES: . -/
def Reg.fabCntCtCopies : Fld := ⟨0x2000040, 0, 32, .ro, 0⟩
/-- FAB.CNT_STOMPS: . -/
def Reg.fabCntStomps : Fld := ⟨0x2000044, 0, 32, .ro, 0⟩
/-- FAB.CNT_BAD_DISCARD: . -/
def Reg.fabCntBadDiscard : Fld := ⟨0x2000048, 0, 32, .ro, 0⟩
/-- FAB.CNT_OVERRUN: . -/
def Reg.fabCntOverrun : Fld := ⟨0x200004c, 0, 32, .ro, 0⟩
/-- FAB.CNT_TIMEOUTS: . -/
def Reg.fabCntTimeouts : Fld := ⟨0x2000050, 0, 32, .ro, 0⟩
/-- FAB.CNT_WINDOW_FULL: . -/
def Reg.fabCntWindowFull : Fld := ⟨0x2000054, 0, 32, .ro, 0⟩
/-- FAB.CNT_LATE: . -/
def Reg.fabCntLate : Fld := ⟨0x2000058, 0, 32, .ro, 0⟩
/-- FAB.CNT_FENCE_FRAMES: . -/
def Reg.fabCntFenceFrames : Fld := ⟨0x200005c, 0, 32, .ro, 0⟩
/-- FAB.CNT_FENCE_OVF: . -/
def Reg.fabCntFenceOvf : Fld := ⟨0x2000060, 0, 32, .ro, 0⟩
/-- FAB.CNT_FLF_FRAMES: . -/
def Reg.fabCntFlfFrames : Fld := ⟨0x2000064, 0, 32, .ro, 0⟩
/-- FAB.CNT_FLF_MISS: . -/
def Reg.fabCntFlfMiss : Fld := ⟨0x2000068, 0, 32, .ro, 0⟩
/-- FAB.CNT_UNDERRUN: . -/
def Reg.fabCntUnderrun : Fld := ⟨0x200006c, 0, 32, .ro, 0⟩
/-- FAB.CNT_UNDECIDED_FULL: . -/
def Reg.fabCntUndecidedFull : Fld := ⟨0x2000070, 0, 32, .ro, 0⟩
/-- FAB.CNT_LINK_DROP: . -/
def Reg.fabCntLinkDrop : Fld := ⟨0x2000074, 0, 32, .ro, 0⟩
/-- FAB.TC_CFG n: FENCE_ETYPE. -/
def Reg.fabTcCfgFenceEtype (n : Nat) : Fld := ⟨cell 0x2000100 0x10 8 n, 16, 16, .img, 0⟩
/-- FAB.TC_CFG n: WEIGHT. -/
def Reg.fabTcCfgWeight (n : Nat) : Fld := ⟨cell 0x2000100 0x10 8 n, 8, 8, .img, 16⟩
/-- FAB.TC_CFG n: SCHED. -/
def Reg.fabTcCfgSched (n : Nat) : Fld := ⟨cell 0x2000100 0x10 8 n, 4, 1, .img, 0⟩
/-- FAB.TC_CFG n: MODE. -/
def Reg.fabTcCfgMode (n : Nat) : Fld := ⟨cell 0x2000100 0x10 8 n, 0, 2, .img, 0⟩
/-- FAB.TC_XOFF n: XOFF. -/
def Reg.fabTcXoffXoff (n : Nat) : Fld := ⟨cell 0x2000104 0x10 8 n, 0, 18, .img, 4096⟩
/-- FAB.TC_XON n: XON. -/
def Reg.fabTcXonXon (n : Nat) : Fld := ⟨cell 0x2000108 0x10 8 n, 0, 18, .img, 3072⟩
/-- FAB.TC_DROP n: DROP. -/
def Reg.fabTcDropDrop (n : Nat) : Fld := ⟨cell 0x200010c 0x10 8 n, 0, 18, .img, 8192⟩
/-- FAB.DEST_CFG n: FLF_EN. -/
def Reg.fabDestCfgFlfEn (n : Nat) : Fld := ⟨cell 0x2001000 0x40 128 n, 19, 1, .img, 0⟩
/-- FAB.DEST_CFG n: FLF_TC. -/
def Reg.fabDestCfgFlfTc (n : Nat) : Fld := ⟨cell 0x2001000 0x40 128 n, 16, 3, .img, 0⟩
/-- FAB.DEST_CFG n: SHAPE_EN. -/
def Reg.fabDestCfgShapeEn (n : Nat) : Fld := ⟨cell 0x2001000 0x40 128 n, 8, 8, .img, 0⟩
/-- FAB.DEST_CFG n: LOSSLESS. -/
def Reg.fabDestCfgLossless (n : Nat) : Fld := ⟨cell 0x2001000 0x40 128 n, 0, 8, .img, 0⟩
/-- FAB.DEST_RTT n: RTT_NS. -/
def Reg.fabDestRttRttNs (n : Nat) : Fld := ⟨cell 0x2001004 0x40 128 n, 0, 32, .img, 0⟩
/-- FAB.DEST_FLF n: FLF_LAT. -/
def Reg.fabDestFlfFlfLat (n : Nat) : Fld := ⟨cell 0x2001008 0x40 128 n, 0, 16, .img, 0⟩
/-- FAB.DEST_HEAD n: HEADROOM. -/
def Reg.fabDestHeadHeadroom (n : Nat) : Fld := ⟨cell 0x200100c 0x40 128 n, 0, 18, .ro, 0⟩
/-- FAB.DEST_STATUS n: RTT_SHORT. -/
def Reg.fabDestStatusRttShort (n : Nat) : Fld := ⟨cell 0x2001010 0x40 128 n, 26, 1, .w1c, 0⟩
/-- FAB.DEST_STATUS n: HELD. -/
def Reg.fabDestStatusHeld (n : Nat) : Fld := ⟨cell 0x2001010 0x40 128 n, 16, 10, .ro, 0⟩
/-- FAB.DEST_STATUS n: PAUSED. -/
def Reg.fabDestStatusPaused (n : Nat) : Fld := ⟨cell 0x2001010 0x40 128 n, 8, 8, .ro, 0⟩
/-- FAB.DEST_STATUS n: XOFF. -/
def Reg.fabDestStatusXoff (n : Nat) : Fld := ⟨cell 0x2001010 0x40 128 n, 0, 8, .ro, 0⟩
/-- FAB.DEST_GAPS n: GAPS. -/
def Reg.fabDestGapsGaps (n : Nat) : Fld := ⟨cell 0x2001014 0x40 128 n, 0, 32, .ro, 0⟩
/-- FAB.DEST_OVR n: OVERRUN. -/
def Reg.fabDestOvrOverrun (n : Nat) : Fld := ⟨cell 0x2001018 0x40 128 n, 0, 32, .ro, 0⟩
/-- FAB.DEST_LDROP n: LINK_DROP. -/
def Reg.fabDestLdropLinkDrop (n : Nat) : Fld := ⟨cell 0x200101c 0x40 128 n, 0, 32, .ro, 0⟩
/-- FAB.DEST n, class c: BURST. -/
def Reg.fabDestShapeBurst (n c : Nat) : Fld := ⟨cell (0x2001020 + 4 * (c % 8)) 0x40 128 n, 20, 12, .img, 0⟩
/-- FAB.DEST n, class c: RATE. -/
def Reg.fabDestShapeRate (n c : Nat) : Fld := ⟨cell (0x2001020 + 4 * (c % 8)) 0x40 128 n, 0, 20, .img, 0⟩
/-- RED.ID: BLOCK. -/
def Reg.redIdBlock : Fld := ⟨0x2800000, 16, 16, .ro, 2029⟩
/-- RED.ID: VERSION. -/
def Reg.redIdVersion : Fld := ⟨0x2800000, 0, 16, .ro, 256⟩
/-- RED.CFG: HOLDOFF. -/
def Reg.redCfgHoldoff : Fld := ⟨0x2800004, 16, 16, .img, 10⟩
/-- RED.CFG: HB_TIMEOUT. -/
def Reg.redCfgHbTimeout : Fld := ⟨0x2800004, 8, 4, .img, 2⟩
/-- RED.CFG: DENY_UNVERIFIED. -/
def Reg.redCfgDenyUnverified : Fld := ⟨0x2800004, 4, 1, .img, 0⟩
/-- RED.CFG: CONFIRM. -/
def Reg.redCfgConfirm : Fld := ⟨0x2800004, 0, 4, .img, 2⟩
/-- RED.FLAP: FLAP_LIM. -/
def Reg.redFlapFlapLim : Fld := ⟨0x2800008, 24, 8, .img, 3⟩
/-- RED.FLAP: FLAP_WIN_S. -/
def Reg.redFlapFlapWinS : Fld := ⟨0x2800008, 0, 16, .img, 600⟩
/-- RED.LATCH: LATCH_S. -/
def Reg.redLatchLatchS : Fld := ⟨0x280000c, 0, 32, .img, 0⟩
/-- RED.STATUS: DECISIONS. -/
def Reg.redStatusDecisions : Fld := ⟨0x2800010, 16, 16, .ro, 0⟩
/-- RED.STATUS: FO_UNVERIFIED. -/
def Reg.redStatusFoUnverified : Fld := ⟨0x2800010, 2, 1, .w1c, 0⟩
/-- RED.STATUS: TK_LOST. -/
def Reg.redStatusTkLost : Fld := ⟨0x2800010, 1, 1, .ro, 0⟩
/-- RED.STATUS: ROOT_LOST. -/
def Reg.redStatusRootLost : Fld := ⟨0x2800010, 0, 1, .ro, 0⟩
/-- RED.CMD: GEN. -/
def Reg.redCmdGen : Fld := ⟨0x2800014, 16, 16, .wo, 0⟩
/-- RED.CMD: UNIT. -/
def Reg.redCmdUnit : Fld := ⟨0x2800014, 8, 7, .wo, 0⟩
/-- RED.CMD: CMD. -/
def Reg.redCmdCmd : Fld := ⟨0x2800014, 0, 2, .wo, 0⟩
/-- RED.CMD_STATUS: RESULT. -/
def Reg.redCmdStatusResult : Fld := ⟨0x2800018, 0, 3, .ro, 0⟩
/-- RED.LAST: UNIT. -/
def Reg.redLastUnit : Fld := ⟨0x280001c, 24, 7, .ro, 0⟩
/-- RED.LAST: REASON. -/
def Reg.redLastReason : Fld := ⟨0x280001c, 16, 4, .ro, 0⟩
/-- RED.LAST: ACTION. -/
def Reg.redLastAction : Fld := ⟨0x280001c, 0, 3, .ro, 0⟩
/-- RED.UNIT_STATUS n: GEN. -/
def Reg.redUnitStatusGen (n : Nat) : Fld := ⟨cell 0x2800100 0x10 68 n, 16, 16, .ro, 0⟩
/-- RED.UNIT_STATUS n: REASON. -/
def Reg.redUnitStatusReason (n : Nat) : Fld := ⟨cell 0x2800100 0x10 68 n, 12, 4, .ro, 0⟩
/-- RED.UNIT_STATUS n: HB_OK. -/
def Reg.redUnitStatusHbOk (n : Nat) : Fld := ⟨cell 0x2800100 0x10 68 n, 10, 1, .ro, 0⟩
/-- RED.UNIT_STATUS n: HEALTH. -/
def Reg.redUnitStatusHealth (n : Nat) : Fld := ⟨cell 0x2800100 0x10 68 n, 9, 1, .ro, 0⟩
/-- RED.UNIT_STATUS n: UNMONITORED. -/
def Reg.redUnitStatusUnmonitored (n : Nat) : Fld := ⟨cell 0x2800100 0x10 68 n, 8, 1, .ro, 0⟩
/-- RED.UNIT_STATUS n: UNVERIFIED. -/
def Reg.redUnitStatusUnverified (n : Nat) : Fld := ⟨cell 0x2800100 0x10 68 n, 7, 1, .ro, 0⟩
/-- RED.UNIT_STATUS n: STATE. -/
def Reg.redUnitStatusState (n : Nat) : Fld := ⟨cell 0x2800100 0x10 68 n, 0, 3, .ro, 0⟩
/-- RED.UNIT_COUNTS n: FAILS. -/
def Reg.redUnitCountsFails (n : Nat) : Fld := ⟨cell 0x2800104 0x10 68 n, 16, 16, .ro, 0⟩
/-- RED.UNIT_COUNTS n: FLAP_CNT. -/
def Reg.redUnitCountsFlapCnt (n : Nat) : Fld := ⟨cell 0x2800104 0x10 68 n, 8, 8, .ro, 0⟩
/-- RED.UNIT_LAST n: LAST_FAIL_SEC. -/
def Reg.redUnitLastLastFailSec (n : Nat) : Fld := ⟨cell 0x2800108 0x10 68 n, 0, 32, .ro, 0⟩
/-- RED.UNIT_WTR n: WTR_LEFT. -/
def Reg.redUnitWtrWtrLeft (n : Nat) : Fld := ⟨cell 0x280010c 0x10 68 n, 0, 16, .ro, 0⟩
/-- RED.PAIR_CFG n: TK_PAIR. -/
def Reg.redPairCfgTkPair (n : Nat) : Fld := ⟨cell 0x2801000 0x10 32 n, 24, 2, .img, 0⟩
/-- RED.PAIR_CFG n: SECONDARY. -/
def Reg.redPairCfgSecondary (n : Nat) : Fld := ⟨cell 0x2801000 0x10 32 n, 16, 7, .img, 0⟩
/-- RED.PAIR_CFG n: PRIMARY. -/
def Reg.redPairCfgPrimary (n : Nat) : Fld := ⟨cell 0x2801000 0x10 32 n, 8, 7, .img, 0⟩
/-- RED.PAIR_CFG n: KIND. -/
def Reg.redPairCfgKind (n : Nat) : Fld := ⟨cell 0x2801000 0x10 32 n, 0, 2, .img, 0⟩
/-- RED.PAIR_WTR n: WTR_S. -/
def Reg.redPairWtrWtrS (n : Nat) : Fld := ⟨cell 0x2801004 0x10 32 n, 0, 12, .img, 30⟩
/-- RED.PAIR_STATUS n: DATA_LOST. -/
def Reg.redPairStatusDataLost (n : Nat) : Fld := ⟨cell 0x2801008 0x10 32 n, 7, 1, .ro, 0⟩
/-- RED.PAIR_STATUS n: TIME_STATE. -/
def Reg.redPairStatusTimeState (n : Nat) : Fld := ⟨cell 0x2801008 0x10 32 n, 4, 3, .ro, 0⟩
/-- RED.PAIR_STATUS n: TIME_MEMBER. -/
def Reg.redPairStatusTimeMember (n : Nat) : Fld := ⟨cell 0x2801008 0x10 32 n, 2, 2, .ro, 0⟩
/-- RED.PAIR_STATUS n: DATA_ACTIVE. -/
def Reg.redPairStatusDataActive (n : Nat) : Fld := ⟨cell 0x2801008 0x10 32 n, 0, 2, .ro, 0⟩
/-- RED.PAIR_COUNTS n: TIME_SWITCHES. -/
def Reg.redPairCountsTimeSwitches (n : Nat) : Fld := ⟨cell 0x280100c 0x10 32 n, 16, 16, .ro, 0⟩
/-- RED.PAIR_COUNTS n: DATA_SWITCHES. -/
def Reg.redPairCountsDataSwitches (n : Nat) : Fld := ⟨cell 0x280100c 0x10 32 n, 0, 16, .ro, 0⟩
/-- FLT.ID: BLOCK. -/
def Reg.fltIdBlock : Fld := ⟨0x2900000, 16, 16, .ro, 3863⟩
/-- FLT.ID: VERSION. -/
def Reg.fltIdVersion : Fld := ⟨0x2900000, 0, 16, .ro, 256⟩
/-- FLT.CFG: INJ_EN. -/
def Reg.fltCfgInjEn : Fld := ⟨0x2900004, 0, 1, .img, 0⟩
/-- FLT.STATUS: GEN. -/
def Reg.fltStatusGen : Fld := ⟨0x2900008, 16, 16, .ro, 0⟩
/-- FLT.STATUS: HALTED. -/
def Reg.fltStatusHalted : Fld := ⟨0x2900008, 5, 1, .ro, 0⟩
/-- FLT.STATUS: CLR_REFUSED. -/
def Reg.fltStatusClrRefused : Fld := ⟨0x2900008, 4, 1, .w1c, 0⟩
/-- FLT.STATUS: OVF. -/
def Reg.fltStatusOvf : Fld := ⟨0x2900008, 3, 1, .ro, 0⟩
/-- FLT.STATUS: STATE. -/
def Reg.fltStatusState : Fld := ⟨0x2900008, 0, 2, .ro, 0⟩
/-- FLT.REC_SRC: TIME_VALID. -/
def Reg.fltRecSrcTimeValid : Fld := ⟨0x290000c, 19, 1, .ro, 0⟩
/-- FLT.REC_SRC: INJ. -/
def Reg.fltRecSrcInj : Fld := ⟨0x290000c, 18, 1, .ro, 0⟩
/-- FLT.REC_SRC: RAIL. -/
def Reg.fltRecSrcRail : Fld := ⟨0x290000c, 17, 1, .ro, 0⟩
/-- FLT.REC_SRC: REACTION. -/
def Reg.fltRecSrcReaction : Fld := ⟨0x290000c, 14, 3, .ro, 0⟩
/-- FLT.REC_SRC: CLASS. -/
def Reg.fltRecSrcClass : Fld := ⟨0x290000c, 12, 2, .ro, 0⟩
/-- FLT.REC_SRC: SOURCE. -/
def Reg.fltRecSrcSource : Fld := ⟨0x290000c, 0, 9, .ro, 0⟩
/-- FLT.REC_SYND: SYNDROME. -/
def Reg.fltRecSyndSyndrome : Fld := ⟨0x2900010, 0, 32, .ro, 0⟩
/-- FLT.REC_SEC_LO: SEC. -/
def Reg.fltRecSecLoSec : Fld := ⟨0x2900014, 0, 32, .ro, 0⟩
/-- FLT.REC_SEC_HI: SEC. -/
def Reg.fltRecSecHiSec : Fld := ⟨0x2900018, 0, 16, .ro, 0⟩
/-- FLT.REC_NS: NS. -/
def Reg.fltRecNsNs : Fld := ⟨0x290001c, 0, 30, .ro, 0⟩
/-- FLT.REC_FRAC: FRAC. -/
def Reg.fltRecFracFrac : Fld := ⟨0x2900020, 0, 16, .ro, 0⟩
/-- FLT.CLEAR: GEN. -/
def Reg.fltClearGen : Fld := ⟨0x2900024, 16, 16, .wo, 0⟩
/-- FLT.CLEAR_STATUS: RESULT. -/
def Reg.fltClearStatusResult : Fld := ⟨0x2900028, 0, 2, .ro, 0⟩
/-- FLT.INJ_CMD: CYCLES. -/
def Reg.fltInjCmdCycles : Fld := ⟨0x290002c, 16, 16, .wo, 0⟩
/-- FLT.INJ_CMD: MODE. -/
def Reg.fltInjCmdMode : Fld := ⟨0x290002c, 12, 1, .wo, 0⟩
/-- FLT.INJ_CMD: SOURCE. -/
def Reg.fltInjCmdSource : Fld := ⟨0x290002c, 0, 9, .wo, 0⟩
/-- FLT.INJ_STATUS: SOURCE. -/
def Reg.fltInjStatusSource : Fld := ⟨0x2900030, 7, 9, .ro, 0⟩
/-- FLT.INJ_STATUS: BUSY. -/
def Reg.fltInjStatusBusy : Fld := ⟨0x2900030, 6, 1, .ro, 0⟩
/-- FLT.INJ_STATUS: COLLIDED. -/
def Reg.fltInjStatusCollided : Fld := ⟨0x2900030, 5, 1, .w1c, 0⟩
/-- FLT.INJ_STATUS: DONE. -/
def Reg.fltInjStatusDone : Fld := ⟨0x2900030, 4, 1, .w1c, 0⟩
/-- FLT.INJ_STATUS: RESULT. -/
def Reg.fltInjStatusResult : Fld := ⟨0x2900030, 0, 3, .ro, 0⟩
/-- FLT.COUNTS: JRNL_DROP. -/
def Reg.fltCountsJrnlDrop : Fld := ⟨0x2900034, 0, 16, .ro, 0⟩
/-- FLT.QUAR: FULL. -/
def Reg.fltQuarFull : Fld := ⟨0x2900038, 9, 1, .ro, 0⟩
/-- FLT.QUAR: CELLS. -/
def Reg.fltQuarCells : Fld := ⟨0x2900038, 0, 9, .ro, 0⟩
/-- FLT.FAULT n: MAP. -/
def Reg.fltFaultMap (n : Nat) : Fld := ⟨cell 0x2900040 0x4 16 n, 0, 32, .ro, 0⟩
/-- FLT.ACTIVE n: MAP. -/
def Reg.fltActiveMap (n : Nat) : Fld := ⟨cell 0x2900080 0x4 16 n, 0, 32, .ro, 0⟩
/-- FLT.SRC n: COUNT. -/
def Reg.fltSrcCount (n : Nat) : Fld := ⟨cell 0x2901000 0x4 512 n, 16, 16, .ro, 0⟩
/-- FLT.SRC n: RAIL. -/
def Reg.fltSrcRail (n : Nat) : Fld := ⟨cell 0x2901000 0x4 512 n, 12, 1, .ro, 0⟩
/-- FLT.SRC n: ACTIVE. -/
def Reg.fltSrcActive (n : Nat) : Fld := ⟨cell 0x2901000 0x4 512 n, 11, 1, .ro, 0⟩
/-- FLT.SRC n: LEVEL. -/
def Reg.fltSrcLevel (n : Nat) : Fld := ⟨cell 0x2901000 0x4 512 n, 9, 2, .ro, 0⟩
/-- FLT.SRC n: CLR. -/
def Reg.fltSrcClr (n : Nat) : Fld := ⟨cell 0x2901000 0x4 512 n, 8, 1, .wo, 0⟩
/-- FLT.SRC n: REACTION. -/
def Reg.fltSrcReaction (n : Nat) : Fld := ⟨cell 0x2901000 0x4 512 n, 4, 3, .img, fltDefReaction n⟩
/-- FLT.SRC n: CLASS. -/
def Reg.fltSrcClass (n : Nat) : Fld := ⟨cell 0x2901000 0x4 512 n, 0, 2, .ro, fltClass n⟩
/-- PMON.ID: BLOCK. -/
def Reg.pmonIdBlock : Fld := ⟨0x2a00000, 16, 16, .ro, 2880⟩
/-- PMON.ID: VERSION. -/
def Reg.pmonIdVersion : Fld := ⟨0x2a00000, 0, 16, .ro, 256⟩
/-- PMON.FAB_CYC: COUNT. -/
def Reg.pmonFabCycCount : Fld := ⟨0x2a00004, 0, 32, .ro, 0⟩
/-- PMON.GLEAN_CTL: K. -/
def Reg.pmonGleanCtlK : Fld := ⟨0x2a00010, 2, 5, .rw, 16⟩
/-- PMON.GLEAN_CTL: WRAP. -/
def Reg.pmonGleanCtlWrap : Fld := ⟨0x2a00010, 1, 1, .rw, 0⟩
/-- PMON.GLEAN_CTL: RUN. -/
def Reg.pmonGleanCtlRun : Fld := ⟨0x2a00010, 0, 1, .rw, 0⟩
/-- PMON.GLEAN_SEED: SEED. -/
def Reg.pmonGleanSeedSeed : Fld := ⟨0x2a00014, 0, 32, .rw, 1⟩
/-- PMON.TAG_TC: MASK. -/
def Reg.pmonTagTcMask : Fld := ⟨0x2a00018, 0, 8, .rw, 255⟩
/-- PMON.TAG_PORT n: MASK. -/
def Reg.pmonTagPortMask (n : Nat) : Fld := ⟨cell 0x2a00020 0x4 4 n, 0, 32, .rw, 0⟩
/-- PMON.GLEAN_STATUS: INSIDE. -/
def Reg.pmonGleanStatusInside : Fld := ⟨0x2a00030, 20, 7, .ro, 0⟩
/-- PMON.GLEAN_STATUS: FULL. -/
def Reg.pmonGleanStatusFull : Fld := ⟨0x2a00030, 10, 1, .ro, 0⟩
/-- PMON.GLEAN_STATUS: WR_PTR. -/
def Reg.pmonGleanStatusWrPtr : Fld := ⟨0x2a00030, 0, 10, .ro, 0⟩
/-- PMON.GLEAN_RD: RD_PTR. -/
def Reg.pmonGleanRdRdPtr : Fld := ⟨0x2a00034, 0, 10, .rw, 0⟩
/-- PMON.TAGGED: COUNT. -/
def Reg.pmonTaggedCount : Fld := ⟨0x2a00038, 0, 32, .ro, 0⟩
/-- PMON.GLEAN_LOSS: SKIPPED. -/
def Reg.pmonGleanLossSkipped : Fld := ⟨0x2a0003c, 16, 16, .ro, 0⟩
/-- PMON.GLEAN_LOSS: LOST. -/
def Reg.pmonGleanLossLost : Fld := ⟨0x2a0003c, 0, 16, .ro, 0⟩
/-- PMON.BW_CFG: EN. -/
def Reg.pmonBwCfgEn : Fld := ⟨0x2a00040, 31, 1, .rw, 0⟩
/-- PMON.BW_CFG: TB. -/
def Reg.pmonBwCfgTb : Fld := ⟨0x2a00040, 24, 3, .rw, 0⟩
/-- PMON.BW_CFG: WIN_US. -/
def Reg.pmonBwCfgWinUs : Fld := ⟨0x2a00040, 0, 24, .rw, 1000⟩
/-- PMON.BW_STATUS: WIN. -/
def Reg.pmonBwStatusWin : Fld := ⟨0x2a00044, 0, 32, .ro, 0⟩
/-- PMON.BW_LATE: COUNT. -/
def Reg.pmonBwLateCount : Fld := ⟨0x2a00048, 1, 31, .ro, 0⟩
/-- PMON.BW_LATE: VALID. -/
def Reg.pmonBwLateValid : Fld := ⟨0x2a00048, 0, 1, .ro, 0⟩
/-- PMON.CNT_CFG n: SAT. -/
def Reg.pmonCntCfgSat (n : Nat) : Fld := ⟨cell 0x2a00100 0x10 48 n, 13, 1, .ro, 0⟩
/-- PMON.CNT_CFG n: CLEAR. -/
def Reg.pmonCntCfgClear (n : Nat) : Fld := ⟨cell 0x2a00100 0x10 48 n, 12, 1, .wo, 0⟩
/-- PMON.CNT_CFG n: HIGH. -/
def Reg.pmonCntCfgHigh (n : Nat) : Fld := ⟨cell 0x2a00100 0x10 48 n, 11, 1, .rw, 0⟩
/-- PMON.CNT_CFG n: ENABLE. -/
def Reg.pmonCntCfgEnable (n : Nat) : Fld := ⟨cell 0x2a00100 0x10 48 n, 10, 1, .rw, 0⟩
/-- PMON.CNT_CFG n: EVENT. -/
def Reg.pmonCntCfgEvent (n : Nat) : Fld := ⟨cell 0x2a00100 0x10 48 n, 0, 10, .rw, 0⟩
/-- PMON.CNT_LO n: COUNT. -/
def Reg.pmonCntLoCount (n : Nat) : Fld := ⟨cell 0x2a00104 0x10 48 n, 0, 32, .ro, 0⟩
/-- PMON.CNT_HI n: COUNT. -/
def Reg.pmonCntHiCount (n : Nat) : Fld := ⟨cell 0x2a00108 0x10 48 n, 0, 16, .ro, 0⟩
/-- PMON.BW_RX n: RX. -/
def Reg.pmonBwRxRx (n : Nat) : Fld := ⟨cell 0x2a00800 0x10 128 n, 0, 32, .ro, 0⟩
/-- PMON.BW_TX n: TX. -/
def Reg.pmonBwTxTx (n : Nat) : Fld := ⟨cell 0x2a00804 0x10 128 n, 0, 32, .ro, 0⟩
/-- PMON.BW_HI n: TX_HI. -/
def Reg.pmonBwHiTxHi (n : Nat) : Fld := ⟨cell 0x2a00808 0x10 128 n, 16, 16, .ro, 0⟩
/-- PMON.BW_HI n: RX_HI. -/
def Reg.pmonBwHiRxHi (n : Nat) : Fld := ⟨cell 0x2a00808 0x10 128 n, 0, 16, .ro, 0⟩
/-- SEC.ID: BLOCK. -/
def Reg.secIdBlock : Fld := ⟨0x2b00000, 16, 16, .ro, 1516⟩
/-- SEC.ID: VERSION. -/
def Reg.secIdVersion : Fld := ⟨0x2b00000, 0, 16, .ro, 256⟩
/-- SEC.LCS: STATE. -/
def Reg.secLcsState : Fld := ⟨0x2b00004, 0, 3, .ro, 0⟩
/-- SEC.DBG: LEASE_LEFT. -/
def Reg.secDbgLeaseLeft : Fld := ⟨0x2b00008, 16, 16, .ro, 0⟩
/-- SEC.DBG: ARMED_FULL. -/
def Reg.secDbgArmedFull : Fld := ⟨0x2b00008, 2, 1, .ro, 0⟩
/-- SEC.DBG: LEVEL. -/
def Reg.secDbgLevel : Fld := ⟨0x2b00008, 0, 2, .ro, 0⟩
/-- SEC.OTP_STATUS: FLOOR_USED. -/
def Reg.secOtpStatusFloorUsed : Fld := ⟨0x2b0000c, 16, 8, .ro, 0⟩
/-- SEC.OTP_STATUS: OTP_ERR. -/
def Reg.secOtpStatusOtpErr : Fld := ⟨0x2b0000c, 9, 1, .ro, 0⟩
/-- SEC.OTP_STATUS: FLOOR_FULL. -/
def Reg.secOtpStatusFloorFull : Fld := ⟨0x2b0000c, 8, 1, .ro, 0⟩
/-- SEC.OTP_STATUS: REVOKED. -/
def Reg.secOtpStatusRevoked : Fld := ⟨0x2b0000c, 4, 4, .ro, 0⟩
/-- SEC.OTP_STATUS: PROGRAMMED. -/
def Reg.secOtpStatusProgrammed : Fld := ⟨0x2b0000c, 0, 4, .ro, 0⟩
/-- SEC.FLOOR: FLOOR. -/
def Reg.secFloorFloor : Fld := ⟨0x2b00010, 0, 32, .ro, 0⟩
/-- SEC.DIE_ID_LO: DIE_ID. -/
def Reg.secDieIdLoDieId : Fld := ⟨0x2b00014, 0, 32, .ro, 0⟩
/-- SEC.JTAG_ID: IDCODE. -/
def Reg.secJtagIdIdcode : Fld := ⟨0x2b0001c, 0, 32, .ro, 320865679⟩
/-- SEC.CFG: LEASE_S. -/
def Reg.secCfgLeaseS : Fld := ⟨0x2b00020, 16, 16, .img, 3600⟩
/-- SEC.CFG: JTAG_EN. -/
def Reg.secCfgJtagEn : Fld := ⟨0x2b00020, 8, 1, .img, 1⟩
/-- SEC.CFG: DEBUG_SLOT. -/
def Reg.secCfgDebugSlot : Fld := ⟨0x2b00020, 0, 8, .img, 255⟩
/-- SEC.KEYSEL: SLOT. -/
def Reg.secKeyselSlot : Fld := ⟨0x2b00024, 0, 2, .rw, 0⟩
/-- SEC.KEYHASH n: HASH. -/
def Reg.secKeyhashHash (n : Nat) : Fld := ⟨cell 0x2b00028 0x4 8 n, 0, 32, .ro, 0⟩
/-- SEC.REQ_CMD: LEVEL. -/
def Reg.secReqCmdLevel : Fld := ⟨0x2b00050, 4, 2, .wo, 0⟩
/-- SEC.REQ_CMD: CMD. -/
def Reg.secReqCmdCmd : Fld := ⟨0x2b00050, 0, 3, .wo, 0⟩
/-- SEC.REQ_STATUS: CLAIM. -/
def Reg.secReqStatusClaim : Fld := ⟨0x2b00054, 30, 2, .ro, 0⟩
/-- SEC.REQ_STATUS: BUSY. -/
def Reg.secReqStatusBusy : Fld := ⟨0x2b00054, 29, 1, .ro, 0⟩
/-- SEC.REQ_STATUS: NONCE_VALID. -/
def Reg.secReqStatusNonceValid : Fld := ⟨0x2b00054, 28, 1, .ro, 0⟩
/-- SEC.REQ_STATUS: FOREIGN. -/
def Reg.secReqStatusForeign : Fld := ⟨0x2b00054, 4, 16, .ro, 0⟩
/-- SEC.REQ_STATUS: RESULT. -/
def Reg.secReqStatusResult : Fld := ⟨0x2b00054, 0, 4, .ro, 0⟩
/-- SEC.NONCE n: NONCE. -/
def Reg.secNonceNonce (n : Nat) : Fld := ⟨cell 0x2b00060 0x4 8 n, 0, 32, .ro, 0⟩
/-- SEC.REQ_BUF n: DATA. -/
def Reg.secReqBufData (n : Nat) : Fld := ⟨cell 0x2b00100 0x4 52 n, 0, 32, .rw, 0⟩
/-- SEC.DIE_ID_HI: DIE_ID. -/
def Reg.secDieIdHiDieId : Fld := ⟨0x2b00018, 0, 32, .ro, 0⟩
/-- PWR.ID: BLOCK. -/
def Reg.pwrIdBlock : Fld := ⟨0x2c00000, 16, 16, .ro, 2830⟩
/-- PWR.ID: VERSION. -/
def Reg.pwrIdVersion : Fld := ⟨0x2c00000, 0, 16, .ro, 256⟩
/-- PWR.CFG: RELEASE_MS. -/
def Reg.pwrCfgReleaseMs : Fld := ⟨0x2c00004, 16, 16, .img, 100⟩
/-- PWR.CFG: SHED_TARGET. -/
def Reg.pwrCfgShedTarget : Fld := ⟨0x2c00004, 8, 3, .img, 2⟩
/-- PWR.CFG: INIT_REQ. -/
def Reg.pwrCfgInitReq : Fld := ⟨0x2c00004, 4, 3, .img, 0⟩
/-- PWR.CFG: HOST_LOW. -/
def Reg.pwrCfgHostLow : Fld := ⟨0x2c00004, 2, 1, .img, 0⟩
/-- PWR.CFG: HOST_EN. -/
def Reg.pwrCfgHostEn : Fld := ⟨0x2c00004, 1, 1, .img, 1⟩
/-- PWR.CFG: PIN_EN. -/
def Reg.pwrCfgPinEn : Fld := ⟨0x2c00004, 0, 1, .img, 1⟩
/-- PWR.STATUS: GEN. -/
def Reg.pwrStatusGen : Fld := ⟨0x2c00008, 16, 16, .ro, 0⟩
/-- PWR.STATUS: SHED. -/
def Reg.pwrStatusShed : Fld := ⟨0x2c00008, 15, 1, .ro, 0⟩
/-- PWR.STATUS: KEEP_SIDE. -/
def Reg.pwrStatusKeepSide : Fld := ⟨0x2c00008, 14, 1, .ro, 0⟩
/-- PWR.STATUS: SW_REQ. -/
def Reg.pwrStatusSwReq : Fld := ⟨0x2c00008, 11, 3, .ro, 0⟩
/-- PWR.STATUS: PIN_REQ. -/
def Reg.pwrStatusPinReq : Fld := ⟨0x2c00008, 8, 3, .ro, 0⟩
/-- PWR.STATUS: TARGET. -/
def Reg.pwrStatusTarget : Fld := ⟨0x2c00008, 4, 3, .ro, 0⟩
/-- PWR.STATUS: STATE. -/
def Reg.pwrStatusState : Fld := ⟨0x2c00008, 0, 3, .ro, 0⟩
/-- PWR.DOMAINS: RAMPING. -/
def Reg.pwrDomainsRamping : Fld := ⟨0x2c0000c, 16, 11, .ro, 0⟩
/-- PWR.DOMAINS: ON. -/
def Reg.pwrDomainsOn : Fld := ⟨0x2c0000c, 0, 11, .ro, 1⟩
/-- PWR.HOST_REQ: GEN. -/
def Reg.pwrHostReqGen : Fld := ⟨0x2c00010, 16, 16, .wo, 0⟩
/-- PWR.HOST_REQ: REQ. -/
def Reg.pwrHostReqReq : Fld := ⟨0x2c00010, 0, 3, .wo, 0⟩
/-- PWR.CMD_STATUS: RESULT. -/
def Reg.pwrCmdStatusResult : Fld := ⟨0x2c00014, 0, 2, .ro, 0⟩
/-- PWR.COUNTS: SHEDS. -/
def Reg.pwrCountsSheds : Fld := ⟨0x2c00018, 16, 16, .ro, 0⟩
/-- PWR.COUNTS: CHANGES. -/
def Reg.pwrCountsChanges : Fld := ⟨0x2c00018, 0, 16, .ro, 0⟩
/-- PWR.TIMING_LANES n: MASK. -/
def Reg.pwrTimingLanesMask (n : Nat) : Fld := ⟨cell 0x2c00020 0x4 4 n, 0, 32, .img, 0⟩
/-- HIF.ID: BLOCK. -/
def Reg.hifIdBlock : Fld := ⟨0x2d00000, 16, 16, .ro, 1047⟩
/-- HIF.ID: VERSION. -/
def Reg.hifIdVersion : Fld := ⟨0x2d00000, 0, 16, .ro, 256⟩
/-- HIF.CFG: TCQ_FIFO. -/
def Reg.hifCfgTcqFifo : Fld := ⟨0x2d00004, 5, 1, .img, 0⟩
/-- HIF.CFG: LNQ_FIFO. -/
def Reg.hifCfgLnqFifo : Fld := ⟨0x2d00004, 4, 1, .img, 0⟩
/-- HIF.CFG: FRAMES_EN. -/
def Reg.hifCfgFramesEn : Fld := ⟨0x2d00004, 2, 1, .img, 0⟩
/-- HIF.CFG: SMI_EN. -/
def Reg.hifCfgSmiEn : Fld := ⟨0x2d00004, 1, 1, .img, 1⟩
/-- HIF.CFG: PCIE_EN. -/
def Reg.hifCfgPcieEn : Fld := ⟨0x2d00004, 0, 1, .img, 0⟩
/-- HIF.STATUS: LINK_UP. -/
def Reg.hifStatusLinkUp : Fld := ⟨0x2d00008, 9, 1, .ro, 0⟩
/-- HIF.STATUS: SPEED. -/
def Reg.hifStatusSpeed : Fld := ⟨0x2d00008, 6, 3, .ro, 0⟩
/-- HIF.STATUS: WIDTH. -/
def Reg.hifStatusWidth : Fld := ⟨0x2d00008, 3, 3, .ro, 0⟩
/-- HIF.STATUS: BME. -/
def Reg.hifStatusBme : Fld := ⟨0x2d00008, 2, 1, .ro, 0⟩
/-- HIF.STATUS: MSIX_EN. -/
def Reg.hifStatusMsixEn : Fld := ⟨0x2d00008, 1, 1, .ro, 0⟩
/-- HIF.STATUS: SMI_SEEN. -/
def Reg.hifStatusSmiSeen : Fld := ⟨0x2d00008, 0, 1, .ro, 0⟩
/-- HIF.HOSTQ: USED. -/
def Reg.hifHostqUsed : Fld := ⟨0x2d0000c, 16, 16, .ro, 0⟩
/-- HIF.HOSTQ: CELLS. -/
def Reg.hifHostqCells : Fld := ⟨0x2d0000c, 0, 14, .img, 1024⟩
/-- HIF.INT_STATUS: STATUS. -/
def Reg.hifIntStatusStatus : Fld := ⟨0x2d00010, 0, 19, .w1c, 0⟩
/-- HIF.INT_MASK: MASK. -/
def Reg.hifIntMaskMask : Fld := ⟨0x2d00014, 0, 19, .rw, 0⟩
/-- HIF.IRQ_MASK: MASK. -/
def Reg.hifIrqMaskMask : Fld := ⟨0x2d00018, 0, 19, .rw, 0⟩
/-- HIF.ACC_ERR: COUNT. -/
def Reg.hifAccErrCount : Fld := ⟨0x2d00020, 16, 16, .ro, 0⟩
/-- HIF.ACC_ERR: VALID. -/
def Reg.hifAccErrValid : Fld := ⟨0x2d00020, 6, 1, .w1c, 0⟩
/-- HIF.ACC_ERR: PATH. -/
def Reg.hifAccErrPath : Fld := ⟨0x2d00020, 4, 2, .ro, 0⟩
/-- HIF.ACC_ERR: TYPE. -/
def Reg.hifAccErrType : Fld := ⟨0x2d00020, 0, 4, .ro, 0⟩
/-- HIF.ACC_ADDR: BAR2. -/
def Reg.hifAccAddrBar2 : Fld := ⟨0x2d00024, 26, 1, .ro, 0⟩
/-- HIF.ACC_ADDR: ADDR. -/
def Reg.hifAccAddrAddr : Fld := ⟨0x2d00024, 0, 26, .ro, 0⟩
/-- HIF.RX_DROP: COUNT. -/
def Reg.hifRxDropCount : Fld := ⟨0x2d00028, 0, 32, .ro, 0⟩
/-- HIF.TX_BAD: COUNT. -/
def Reg.hifTxBadCount : Fld := ⟨0x2d0002c, 0, 32, .ro, 0⟩
/-- HIF.RING_BASE_LO n: BASE_LO. -/
def Reg.hifRingBaseLoBaseLo (n : Nat) : Fld := ⟨cell 0x2d00100 0x20 6 n, 12, 20, .rw, 0⟩
/-- HIF.RING_BASE_HI n: BASE_HI. -/
def Reg.hifRingBaseHiBaseHi (n : Nat) : Fld := ⟨cell 0x2d00104 0x20 6 n, 0, 32, .rw, 0⟩
/-- HIF.RING_CTL n: EN. -/
def Reg.hifRingCtlEn (n : Nat) : Fld := ⟨cell 0x2d00108 0x20 6 n, 8, 1, .rw, 0⟩
/-- HIF.RING_CTL n: SIZE. -/
def Reg.hifRingCtlSize (n : Nat) : Fld := ⟨cell 0x2d00108 0x20 6 n, 0, 5, .rw, 6⟩
/-- HIF.RING_DEV_IDX n: DEV_IDX. -/
def Reg.hifRingDevIdxDevIdx (n : Nat) : Fld := ⟨cell 0x2d0010c 0x20 6 n, 0, 32, .ro, 0⟩
/-- HIF.RING_HOST_IDX n: HOST_IDX. -/
def Reg.hifRingHostIdxHostIdx (n : Nat) : Fld := ⟨cell 0x2d00110 0x20 6 n, 0, 32, .ro, 0⟩
/-- HIF.RING_WB_LO n: WB_LO. -/
def Reg.hifRingWbLoWbLo (n : Nat) : Fld := ⟨cell 0x2d00114 0x20 6 n, 2, 30, .rw, 0⟩
/-- HIF.RING_WB_HI n: WB_HI. -/
def Reg.hifRingWbHiWbHi (n : Nat) : Fld := ⟨cell 0x2d00118 0x20 6 n, 0, 32, .rw, 0⟩
/-- HIF.LNQ_DATA n: DATA. -/
def Reg.hifLnqDataData (n : Nat) : Fld := ⟨cell 0x2d00200 0x4 8 n, 0, 32, .ro, 0⟩
/-- HIF.TCQ_DATA n: DATA. -/
def Reg.hifTcqDataData (n : Nat) : Fld := ⟨cell 0x2d00240 0x4 8 n, 0, 32, .rw, 0⟩
/-- HIF.TCR_DATA n: DATA. -/
def Reg.hifTcrDataData (n : Nat) : Fld := ⟨cell 0x2d00280 0x4 4 n, 0, 32, .ro, 0⟩
/-- HIF.LNQ_POP: GO. -/
def Reg.hifLnqPopGo : Fld := ⟨0x2d00220, 0, 1, .wo, 0⟩
/-- HIF.TCQ_PUSH: GO. -/
def Reg.hifTcqPushGo : Fld := ⟨0x2d00260, 0, 1, .wo, 0⟩
/-- HIF.TCR_POP: GO. -/
def Reg.hifTcrPopGo : Fld := ⟨0x2d00290, 0, 1, .wo, 0⟩
/-- HIF.FIFO_STATUS: TCR_COUNT. -/
def Reg.hifFifoStatusTcrCount : Fld := ⟨0x2d002a0, 16, 9, .ro, 0⟩
/-- HIF.FIFO_STATUS: TCQ_FREE. -/
def Reg.hifFifoStatusTcqFree : Fld := ⟨0x2d002a0, 0, 9, .ro, 256⟩
/-- PMON fixed counter words (Table PM-2): destination n, class c, counter k, half h (0 _LO, 1 _HI). -/
def Reg.pmonFixed (n c k h : Nat) : Fld := ⟨cell (0x2A10000 + 0x20 * (c % 8) + 8 * (k % 4) + 4 * (h % 2)) 0x100 128 n, 0, if h = 0 then 32 else 16, .ro, 0⟩
/-- PMON tag slot words (Table PM-4): word j of slot s, read from the tag buffer. -/
def Reg.pmonTag (i : Nat) : Fld := ⟨cell 0x2A20000 4 16384 i, 0, 32, .ro, 0⟩

/-! ## Address maps -/

/-- The words of block CLK. -/
def rowsClk : List RegRow :=
  [⟨0x100000, 0, 1, fun _ => [Reg.clkIdBlock, Reg.clkIdVersion]⟩,
   ⟨0x100004, 0, 1, fun _ => [Reg.clkPlanXoCfg, Reg.clkPlanModrate, Reg.clkPlanDepth, Reg.clkPlanProfile]⟩,
   ⟨0x100008, 0, 1, fun _ => [Reg.clkXoStatusCount, Reg.clkXoStatusLoss, Reg.clkXoStatusMismatch, Reg.clkXoStatusState, Reg.clkXoStatusDetected]⟩,
   ⟨0x10000c, 0, 1, fun _ => [Reg.clkShaftStatusSwitches, Reg.clkShaftStatusRootbLock, Reg.clkShaftStatusRootaLock, Reg.clkShaftStatusActiveRoot]⟩,
   ⟨0x100010, 0, 1, fun _ => [Reg.clkDomRunRun]⟩,
   ⟨0x100014, 0, 1, fun _ => [Reg.clkFlagsK5Gated, Reg.clkFlagsFlfDenied]⟩,
   ⟨0x100020, 0, 1, fun _ => [Reg.clkFmeterCtlStart, Reg.clkFmeterCtlWindow, Reg.clkFmeterCtlSel]⟩,
   ⟨0x100024, 0, 1, fun _ => [Reg.clkFmeterResultCount]⟩]

/-- Part 0 of the words of block DEV. -/
def rowsDev0 : List RegRow :=
  [⟨0x0, 0, 1, fun _ => [Reg.devIdPart, Reg.devIdStepping]⟩,
   ⟨0x4, 0, 1, fun _ => [Reg.devBootRootBStart, Reg.devBootFloorRaised, Reg.devBootCalNominal, Reg.devBootSource, Reg.devBootPhase]⟩,
   ⟨0x8, 0, 1, fun _ => [Reg.devBootFailType, Reg.devBootFailReason1, Reg.devBootFailReason0]⟩,
   ⟨0xc, 0, 1, fun _ => [Reg.devImgSeqSeq]⟩,
   ⟨0x10, 0, 1, fun _ => [Reg.devImgBuildBuild]⟩,
   ⟨0x14, 0, 1, fun _ => [Reg.devBootCountCount]⟩,
   ⟨0x18, 0, 1, fun _ => [Reg.devNodeIdLoLo]⟩,
   ⟨0x1c, 0, 1, fun _ => [Reg.devNodeIdHiHi]⟩,
   ⟨0x20, 0, 1, fun _ => [Reg.devResetKeyKey]⟩,
   ⟨0x24, 0, 1, fun _ => [Reg.devResetCmdAction]⟩,
   ⟨0x28, 0, 1, fun _ => [Reg.devResetStatusHvCount, Reg.devResetStatusRefused, Reg.devResetStatusArmed, Reg.devResetStatusHvBusy]⟩,
   ⟨0x30, 0, 1, fun _ => [Reg.devJrnlHeadEmpty, Reg.devJrnlHeadSlot]⟩]
/-- Part 1 of the words of block DEV. -/
def rowsDev1 : List RegRow :=
  [⟨0x34, 0, 1, fun _ => [Reg.devJrnlIdxSlot]⟩,
   ⟨0x40, 0x4, 8, fun n => [Reg.devJrnlDataWord n]⟩,
   ⟨0x60, 0, 1, fun _ => [Reg.devNvmCmdGo, Reg.devNvmCmdCs, Reg.devNvmCmdWrite, Reg.devNvmCmdAddrEn, Reg.devNvmCmdOpcode, Reg.devNvmCmdLen]⟩,
   ⟨0x64, 0, 1, fun _ => [Reg.devNvmAddrAddr]⟩,
   ⟨0x68, 0, 1, fun _ => [Reg.devNvmStatusDenied, Reg.devNvmStatusBusy]⟩,
   ⟨0x100, 0x4, 64, fun n => [Reg.devNvmBufData n]⟩]
/-- The words of block DEV. -/
def rowsDev : List RegRow := rowsDev0 ++ rowsDev1

/-- Part 0 of the words of block REFSEL. -/
def rowsRefsel0 : List RegRow :=
  [⟨0x200000, 0, 1, fun _ => [Reg.refselIdBlock, Reg.refselIdVersion]⟩,
   ⟨0x200004, 0, 1, fun _ => [Reg.refselStateTarget, Reg.refselStateSelected, Reg.refselStatePhase, Reg.refselStateHistValid, Reg.refselStateEverLocked, Reg.refselStateLowbw, Reg.refselStateSelState]⟩,
   ⟨0x200008, 0, 1, fun _ => [Reg.refselCfgQlOption, Reg.refselCfgHoQl, Reg.refselCfgFreerunQl]⟩,
   ⟨0x20000c, 0, 1, fun _ => [Reg.refselTimesDecideMs, Reg.refselTimesSettle10ms]⟩,
   ⟨0x200010, 0, 1, fun _ => [Reg.refselAcqLockWinPs, Reg.refselAcqAcqTimeoutS]⟩,
   ⟨0x200014, 0, 1, fun _ => [Reg.refselHoLimitSeconds]⟩,
   ⟨0x200018, 0, 1, fun _ => [Reg.refselOutQlRank]⟩,
   ⟨0x20001c, 0, 1, fun _ => [Reg.refselHoStatusHoSeconds, Reg.refselHoStatusQualified, Reg.refselHoStatusHistCount]⟩,
   ⟨0x200020, 0, 1, fun _ => [Reg.refselHoFreqFreq]⟩,
   ⟨0x200024, 0, 1, fun _ => [Reg.refselStepLoStep]⟩,
   ⟨0x200028, 0, 1, fun _ => [Reg.refselStepHiStep]⟩,
   ⟨0x20002c, 0, 1, fun _ => [Reg.refselStepInfoStepCount, Reg.refselStepInfoCand]⟩]
/-- Part 1 of the words of block REFSEL. -/
def rowsRefsel1 : List RegRow :=
  [⟨0x200030, 0, 1, fun _ => [Reg.refselSwitchesRetargets, Reg.refselSwitchesCommits]⟩,
   ⟨0x200034, 0, 1, fun _ => [Reg.refselEligibleMask]⟩,
   ⟨0x200040, 0x4, 4, fun n => [Reg.refselRcsMapLane3 n, Reg.refselRcsMapLane2 n, Reg.refselRcsMapLane1 n, Reg.refselRcsMapLane0 n]⟩,
   ⟨0x200100, 0x20, 4, fun n => [Reg.refselLimsetLim1sLim1s n]⟩,
   ⟨0x200104, 0x20, 4, fun n => [Reg.refselLimsetLim64sLim64s n]⟩,
   ⟨0x200108, 0x20, 4, fun n => [Reg.refselLimsetLimDriftLimDrift n]⟩,
   ⟨0x20010c, 0x20, 4, fun n => [Reg.refselLimsetLimRelLimRel n]⟩,
   ⟨0x200110, 0x20, 4, fun n => [Reg.refselLimsetWtrWtr n]⟩,
   ⟨0x200200, 0x40, 24, fun n => [Reg.refselCandCfgQlFixed n, Reg.refselCandCfgPrio n, Reg.refselCandCfgLimset n, Reg.refselCandCfgRelEn n, Reg.refselCandCfgPair n, Reg.refselCandCfgEnable n]⟩,
   ⟨0x200204, 0x40, 24, fun n => [Reg.refselCandFreqLoFreqLo n]⟩,
   ⟨0x200208, 0x40, 24, fun n => [Reg.refselCandFreqHiFreqHi n]⟩,
   ⟨0x20020c, 0x40, 24, fun n => [Reg.refselCandStatusRank n, Reg.refselCandStatusReason n, Reg.refselCandStatusPpsValid n, Reg.refselCandStatusSelected n, Reg.refselCandStatusState n]⟩]
/-- Part 2 of the words of block REFSEL. -/
def rowsRefsel2 : List RegRow :=
  [⟨0x200210, 0x40, 24, fun n => [Reg.refselCandF1sF1s n]⟩,
   ⟨0x200214, 0x40, 24, fun n => [Reg.refselCandF64F64 n]⟩,
   ⟨0x200218, 0x40, 24, fun n => [Reg.refselCandFrelFrel n]⟩,
   ⟨0x20021c, 0x40, 24, fun n => [Reg.refselCandDriftDrift n]⟩,
   ⟨0x200220, 0x40, 24, fun n => [Reg.refselCandSoakSoakLeft n]⟩,
   ⟨0x200224, 0x40, 24, fun n => [Reg.refselCandCountsDisqCount n, Reg.refselCandCountsLosCount n]⟩]
/-- The words of block REFSEL. -/
def rowsRefsel : List RegRow := rowsRefsel0 ++ rowsRefsel1 ++ rowsRefsel2

/-- Part 0 of the words of block SYN. -/
def rowsSyn0 : List RegRow :=
  [⟨0x300000, 0, 1, fun _ => [Reg.synIdBlock, Reg.synIdVersion]⟩,
   ⟨0x300004, 0, 1, fun _ => [Reg.synRootCfgLoopBw]⟩,
   ⟨0x300008, 0, 1, fun _ => [Reg.synRootStatusBand 0, Reg.synRootStatusBand 1, Reg.synRootStatusClamp 0, Reg.synRootStatusClamp 1, Reg.synRootStatusLock 0, Reg.synRootStatusLock 1, Reg.synRootStatusEffBw 0, Reg.synRootStatusEffBw 1, Reg.synRootStatusState 0, Reg.synRootStatusState 1]⟩,
   ⟨0x30000c, 0, 1, fun _ => [Reg.synTrackErr, Reg.synTrackTrackOk]⟩,
   ⟨0x300010, 0, 1, fun _ => [Reg.synSyncCfgPol, Reg.synSyncCfgTb]⟩,
   ⟨0x300014, 0, 1, fun _ => [Reg.synSyncStatusDone, Reg.synSyncStatusIgnored, Reg.synSyncStatusPending]⟩,
   ⟨0x300100, 0x20, 4, fun n => [Reg.synOsCfgP n, Reg.synOsCfgN n, Reg.synOsCfgTb n, Reg.synOsCfgMode n]⟩,
   ⟨0x300104, 0x20, 4, fun n => [Reg.synOsFracLoFracLo n]⟩,
   ⟨0x300108, 0x20, 4, fun n => [Reg.synOsFracHiFracHi n]⟩,
   ⟨0x30010c, 0x20, 4, fun n => [Reg.synOsStatusTlErr n, Reg.synOsStatusLock n, Reg.synOsStatusTlState n]⟩,
   ⟨0x300110, 0x20, 4, fun n => [Reg.synOsFreqLoFreqLo n]⟩,
   ⟨0x300114, 0x20, 4, fun n => [Reg.synOsFreqHiFreqHi n]⟩]
/-- Part 1 of the words of block SYN. -/
def rowsSyn1 : List RegRow :=
  [⟨0x300200, 0x10, 12, fun n => [Reg.synCkoCfgSyncEn n, Reg.synCkoCfgLegN n, Reg.synCkoCfgLegP n, Reg.synCkoCfgFormat n, Reg.synCkoCfgOs n]⟩,
   ⟨0x300204, 0x10, 12, fun n => [Reg.synCkoDivDiv n]⟩,
   ⟨0x300208, 0x10, 12, fun n => [Reg.synCkoPhasePhaseCyc n]⟩,
   ⟨0x30020c, 0x10, 12, fun n => [Reg.synCkoCtlTapSat n, Reg.synCkoCtlDriving n, Reg.synCkoCtlOeHost n, Reg.synCkoCtlCoarse n, Reg.synCkoCtlFine n]⟩,
   ⟨0x301000, 0x10, 64, fun n => [Reg.synBandCfgValid n, Reg.synBandCfgCode n]⟩,
   ⟨0x301004, 0x10, 64, fun n => [Reg.synBandCentreCentreKhz n]⟩,
   ⟨0x301008, 0x10, 64, fun n => [Reg.synBandSlopeSlope n]⟩]
/-- The words of block SYN. -/
def rowsSyn : List RegRow := rowsSyn0 ++ rowsSyn1

/-- Part 0 of the words of block LANE. -/
def rowsLane0 : List RegRow :=
  [⟨0x800000, 0x1000, 128, fun n => [Reg.laneIdBlock n, Reg.laneIdVersion n, Reg.laneIdLane n]⟩,
   ⟨0x800004, 0x1000, 128, fun n => [Reg.laneCfgSelftest n, Reg.laneCfgManualAllow n, Reg.laneCfgIdleEn n, Reg.laneCfgPolRx n, Reg.laneCfgPolTx n, Reg.laneCfgQrate n, Reg.laneCfgMode n]⟩,
   ⟨0x800008, 0x1000, 128, fun n => [Reg.laneTxeqSwing n, Reg.laneTxeqPost n, Reg.laneTxeqPre n]⟩,
   ⟨0x80000c, 0x1000, 128, fun n => [Reg.laneHlthCfgIdleUs n, Reg.laneHlthCfgFillExp n, Reg.laneHlthCfgMarkLim n]⟩,
   ⟨0x800010, 0x1000, 128, fun n => [Reg.laneStateGen n, Reg.laneStateQuietRx n, Reg.laneStateQuietTx n, Reg.laneStateQpllLock n, Reg.laneStateHeld n, Reg.laneStateManual n, Reg.laneStateHealth n, Reg.laneStateSlip n, Reg.laneStateTstate n]⟩,
   ⟨0x800014, 0x1000, 128, fun n => [Reg.laneManCmdGen n, Reg.laneManCmdCmd n]⟩,
   ⟨0x800018, 0x1000, 128, fun n => [Reg.laneManStatusMarkerSeen n, Reg.laneManStatusResult n]⟩,
   ⟨0x80001c, 0x1000, 128, fun n => [Reg.laneRxQlLast n, Reg.laneRxQlStable n]⟩,
   ⟨0x800020, 0x1000, 128, fun n => [Reg.laneErrQpllUnlock n, Reg.laneErrTfCrc n, Reg.laneErrExtChk n, Reg.laneErrStuffViol n, Reg.laneErrMarker n, Reg.laneErrLos n]⟩,
   ⟨0x800024, 0x1000, 128, fun n => [Reg.laneEventsAlignLoss n, Reg.laneEventsRetries n]⟩,
   ⟨0x800028, 0x1000, 128, fun n => [Reg.laneBackoffMs n]⟩,
   ⟨0x80002c, 0x1000, 128, fun n => [Reg.laneLosEvtCount n]⟩]
/-- Part 1 of the words of block LANE. -/
def rowsLane1 : List RegRow :=
  [⟨0x800030, 0x1000, 128, fun n => [Reg.laneMarkErrLoCount n]⟩,
   ⟨0x800038, 0x1000, 128, fun n => [Reg.laneStuffTxLoCount n]⟩,
   ⟨0x800040, 0x1000, 128, fun n => [Reg.laneStuffRxLoCount n]⟩,
   ⟨0x800048, 0x1000, 128, fun n => [Reg.laneStuffViolLoCount n]⟩,
   ⟨0x800050, 0x1000, 128, fun n => [Reg.laneResEmptyLoCount n]⟩,
   ⟨0x800068, 0x1000, 128, fun n => [Reg.lanePrbsBitsLoCount n]⟩,
   ⟨0x800070, 0x1000, 128, fun n => [Reg.lanePrbsErrLoCount n]⟩,
   ⟨0x800034, 0x1000, 128, fun n => [Reg.laneMarkErrHiCount n]⟩,
   ⟨0x80003c, 0x1000, 128, fun n => [Reg.laneStuffTxHiCount n]⟩,
   ⟨0x800044, 0x1000, 128, fun n => [Reg.laneStuffRxHiCount n]⟩,
   ⟨0x80004c, 0x1000, 128, fun n => [Reg.laneStuffViolHiCount n]⟩,
   ⟨0x800054, 0x1000, 128, fun n => [Reg.laneResEmptyHiCount n]⟩]
/-- Part 2 of the words of block LANE. -/
def rowsLane2 : List RegRow :=
  [⟨0x80006c, 0x1000, 128, fun n => [Reg.lanePrbsBitsHiCount n]⟩,
   ⟨0x800074, 0x1000, 128, fun n => [Reg.lanePrbsErrHiCount n]⟩,
   ⟨0x800060, 0x1000, 128, fun n => [Reg.lanePrbsCtlPatRx n, Reg.lanePrbsCtlPatTx n, Reg.lanePrbsCtlClear n, Reg.lanePrbsCtlMode n]⟩,
   ⟨0x800064, 0x1000, 128, fun n => [Reg.lanePrbsStatusActive n, Reg.lanePrbsStatusLock n]⟩]
/-- The words of block LANE. -/
def rowsLane : List RegRow := rowsLane0 ++ rowsLane1 ++ rowsLane2

/-- Part 0 of the words of block PORT. -/
def rowsPort0 : List RegRow :=
  [⟨0x1000000, 0x1000, 128, fun n => [Reg.portIdBlock n, Reg.portIdVersion n, Reg.portIdPort n]⟩,
   ⟨0x1000004, 0x1000, 128, fun n => [Reg.portCfgEsmcExt n, Reg.portCfgEsmcTx n, Reg.portCfgEsmcRx n, Reg.portCfgFec n, Reg.portCfgMode n]⟩,
   ⟨0x1000008, 0x1000, 128, fun n => [Reg.portVlanInFilter n, Reg.portVlanAccept n, Reg.portVlanDefPcp n, Reg.portVlanPvid n]⟩,
   ⟨0x100000c, 0x1000, 128, fun n => [Reg.portPcpMapMap n]⟩,
   ⟨0x1000010, 0x1000, 128, fun n => [Reg.portMaxlenLen n]⟩,
   ⟨0x1000014, 0x1000, 128, fun n => [Reg.portPfcCfgPfcEn n, Reg.portPfcCfgLossless n, Reg.portPfcCfgQuanta n]⟩,
   ⟨0x1000018, 0x1000, 128, fun n => [Reg.portPtpCfgTrailerTc n, Reg.portPtpCfgTsTb n, Reg.portPtpCfgOnestepEn n, Reg.portPtpCfgTcMode n]⟩,
   ⟨0x100001c, 0x1000, 128, fun n => [Reg.portMacLoMac n]⟩,
   ⟨0x1000020, 0x1000, 128, fun n => [Reg.portMacHiMac n]⟩,
   ⟨0x1000024, 0x1000, 128, fun n => [Reg.portLinkTxXoff n, Reg.portLinkRxPaused n, Reg.portLinkState n]⟩,
   ⟨0x1000028, 0x1000, 128, fun n => [Reg.portErrTcSat n, Reg.portErrHiBer n, Reg.portErrLockTimeout n, Reg.portErrLockLoss n]⟩,
   ⟨0x100002c, 0x1000, 128, fun n => [Reg.portEsmcRxAgeS n, Reg.portEsmcRxEnh n, Reg.portEsmcRxSsm n]⟩]
/-- Part 1 of the words of block PORT. -/
def rowsPort1 : List RegRow :=
  [⟨0x1000030, 0x1000, 128, fun n => [Reg.portP2pDelayDelay n]⟩,
   ⟨0x1000040, 0x1000, 128, fun n => [Reg.portRxFramesLoCount n]⟩,
   ⟨0x1000044, 0x1000, 128, fun n => [Reg.portRxFramesHiCount n]⟩,
   ⟨0x1000048, 0x1000, 128, fun n => [Reg.portRxBytesLoCount n]⟩,
   ⟨0x100004c, 0x1000, 128, fun n => [Reg.portRxBytesHiCount n]⟩,
   ⟨0x1000050, 0x1000, 128, fun n => [Reg.portTxFramesLoCount n]⟩,
   ⟨0x1000054, 0x1000, 128, fun n => [Reg.portTxFramesHiCount n]⟩,
   ⟨0x1000058, 0x1000, 128, fun n => [Reg.portTxBytesLoCount n]⟩,
   ⟨0x100005c, 0x1000, 128, fun n => [Reg.portTxBytesHiCount n]⟩,
   ⟨0x1000060, 0x1000, 128, fun n => [Reg.portRxFcsErrLoCount n]⟩,
   ⟨0x1000064, 0x1000, 128, fun n => [Reg.portRxFcsErrHiCount n]⟩,
   ⟨0x1000068, 0x1000, 128, fun n => [Reg.portRxUndersizeLoCount n]⟩]
/-- Part 2 of the words of block PORT. -/
def rowsPort2 : List RegRow :=
  [⟨0x100006c, 0x1000, 128, fun n => [Reg.portRxUndersizeHiCount n]⟩,
   ⟨0x1000070, 0x1000, 128, fun n => [Reg.portRxOversizeLoCount n]⟩,
   ⟨0x1000074, 0x1000, 128, fun n => [Reg.portRxOversizeHiCount n]⟩,
   ⟨0x1000078, 0x1000, 128, fun n => [Reg.portRxVlanDropLoCount n]⟩,
   ⟨0x100007c, 0x1000, 128, fun n => [Reg.portRxVlanDropHiCount n]⟩,
   ⟨0x1000080, 0x1000, 128, fun n => [Reg.portRxCtrlDropLoCount n]⟩,
   ⟨0x1000084, 0x1000, 128, fun n => [Reg.portRxCtrlDropHiCount n]⟩,
   ⟨0x1000088, 0x1000, 128, fun n => [Reg.portRxPfcLoCount n]⟩,
   ⟨0x100008c, 0x1000, 128, fun n => [Reg.portRxPfcHiCount n]⟩,
   ⟨0x1000090, 0x1000, 128, fun n => [Reg.portTxPfcLoCount n]⟩,
   ⟨0x1000094, 0x1000, 128, fun n => [Reg.portTxPfcHiCount n]⟩,
   ⟨0x1000098, 0x1000, 128, fun n => [Reg.portEsmcBadLoCount n]⟩]
/-- Part 3 of the words of block PORT. -/
def rowsPort3 : List RegRow :=
  [⟨0x100009c, 0x1000, 128, fun n => [Reg.portEsmcBadHiCount n]⟩,
   ⟨0x10000a0, 0x1000, 128, fun n => [Reg.portEsmcDiscardLoCount n]⟩,
   ⟨0x10000a4, 0x1000, 128, fun n => [Reg.portEsmcDiscardHiCount n]⟩,
   ⟨0x10000a8, 0x1000, 128, fun n => [Reg.portStompsLoCount n]⟩,
   ⟨0x10000ac, 0x1000, 128, fun n => [Reg.portStompsHiCount n]⟩,
   ⟨0x10000b0, 0x1000, 128, fun n => [Reg.portFecCorrLoCount n]⟩,
   ⟨0x10000b4, 0x1000, 128, fun n => [Reg.portFecCorrHiCount n]⟩,
   ⟨0x10000b8, 0x1000, 128, fun n => [Reg.portFecUncorrLoCount n]⟩,
   ⟨0x10000bc, 0x1000, 128, fun n => [Reg.portFecUncorrHiCount n]⟩,
   ⟨0x10000c0, 0x1000, 128, fun n => [Reg.portTcSatLoCount n]⟩,
   ⟨0x10000c4, 0x1000, 128, fun n => [Reg.portTcSatHiCount n]⟩,
   ⟨0x10000c8, 0x1000, 128, fun n => [Reg.portTxOversizeLoCount n]⟩]
/-- Part 4 of the words of block PORT. -/
def rowsPort4 : List RegRow :=
  [⟨0x10000cc, 0x1000, 128, fun n => [Reg.portTxOversizeHiCount n]⟩]
/-- The words of block PORT. -/
def rowsPort : List RegRow := rowsPort0 ++ rowsPort1 ++ rowsPort2 ++ rowsPort3 ++ rowsPort4

/-- Part 0 of the words of block TK. -/
def rowsTk0 : List RegRow :=
  [⟨0x400000, 0, 1, fun _ => [Reg.tkIdBlock, Reg.tkIdVersion]⟩,
   ⟨0x400004, 0, 1, fun _ => [Reg.tkStatusFailovers, Reg.tkStatusUnverified, Reg.tkStatusXlinkLost, Reg.tkStatusXcOk, Reg.tkStatusStandbyRun, Reg.tkStatusActive]⟩,
   ⟨0x400008, 0, 1, fun _ => [Reg.tkXcCfgXcLim]⟩,
   ⟨0x40000c, 0, 1, fun _ => [Reg.tkXcStatusBadSlots, Reg.tkXcStatusOutOfLim]⟩,
   ⟨0x400010, 0x4, 4, fun n => [Reg.tkPairSwitches n, Reg.tkPairDeferred n, Reg.tkPairRamping n, Reg.tkPairSwapped n, Reg.tkPairEn n, Reg.tkPairShadow n, Reg.tkPairPrimary n]⟩,
   ⟨0x401000, 0x100, 8, fun n => [Reg.tkTbCfgSrcId n, Reg.tkTbCfgSrc n, Reg.tkTbCfgInitValid n, Reg.tkTbCfgFormat n, Reg.tkTbCfgEnable n]⟩,
   ⟨0x401004, 0x100, 8, fun n => [Reg.tkTbGainKi n, Reg.tkTbGainKp n]⟩,
   ⟨0x401008, 0x100, 8, fun n => [Reg.tkTbIlimIlim n]⟩,
   ⟨0x40100c, 0x100, 8, fun n => [Reg.tkTbSlewSlew n]⟩,
   ⟨0x401010, 0x100, 8, fun n => [Reg.tkTbTrackWinTrackWin n]⟩,
   ⟨0x401014, 0x100, 8, fun n => [Reg.tkTbOutlierOutlier n]⟩,
   ⟨0x401018, 0x100, 8, fun n => [Reg.tkTbTimesOutlierCnt n, Reg.tkTbTimesTimeoutMs n]⟩]
/-- Part 1 of the words of block TK. -/
def rowsTk1 : List RegRow :=
  [⟨0x40101c, 0x100, 8, fun n => [Reg.tkTbPpsDelayPpsDelay n]⟩,
   ⟨0x401020, 0x100, 8, fun n => [Reg.tkTbInitSecLoInitSecLo n]⟩,
   ⟨0x401024, 0x100, 8, fun n => [Reg.tkTbInitSecHiInitSecHi n]⟩,
   ⟨0x401028, 0x100, 8, fun n => [Reg.tkTbStatusGen n, Reg.tkTbStatusStateB n, Reg.tkTbStatusStateA n, Reg.tkTbStatusValid n]⟩,
   ⟨0x40102c, 0x100, 8, fun n => [Reg.tkTbNowSecLoNowSecLo n]⟩,
   ⟨0x401030, 0x100, 8, fun n => [Reg.tkTbNowSecHiNowSecHi n]⟩,
   ⟨0x401034, 0x100, 8, fun n => [Reg.tkTbNowNsNowNs n]⟩,
   ⟨0x401038, 0x100, 8, fun n => [Reg.tkTbNowFracNowFrac n]⟩,
   ⟨0x40103c, 0x100, 8, fun n => [Reg.tkTbFreqFreq n]⟩,
   ⟨0x401040, 0x100, 8, fun n => [Reg.tkTbPendPend n]⟩,
   ⟨0x401044, 0x100, 8, fun n => [Reg.tkTbOffLoOffLo n]⟩,
   ⟨0x401048, 0x100, 8, fun n => [Reg.tkTbOffHiOffHi n]⟩]
/-- Part 2 of the words of block TK. -/
def rowsTk2 : List RegRow :=
  [⟨0x40104c, 0x100, 8, fun n => [Reg.tkTbXcDiffXcDiff n]⟩,
   ⟨0x401050, 0x100, 8, fun n => [Reg.tkTbEventsOutliers n, Reg.tkTbEventsHolds n]⟩,
   ⟨0x401054, 0x100, 8, fun n => [Reg.tkTbFeedLoFeedLo n]⟩,
   ⟨0x401058, 0x100, 8, fun n => [Reg.tkTbFeedHiFeedHi n]⟩,
   ⟨0x40105c, 0x100, 8, fun n => [Reg.tkTbSetSecLoSetSecLo n]⟩,
   ⟨0x401060, 0x100, 8, fun n => [Reg.tkTbSetSecHiSetSecHi n]⟩,
   ⟨0x401064, 0x100, 8, fun n => [Reg.tkTbSetNsSetNs n]⟩,
   ⟨0x401068, 0x100, 8, fun n => [Reg.tkTbFeedCmdGen n, Reg.tkTbFeedCmdCmd n]⟩,
   ⟨0x40106c, 0x100, 8, fun n => [Reg.tkTbFeedStatusAccepted n, Reg.tkTbFeedStatusResult n]⟩]
/-- The words of block TK. -/
def rowsTk : List RegRow := rowsTk0 ++ rowsTk1 ++ rowsTk2

/-- Part 0 of the words of block TT. -/
def rowsTt0 : List RegRow :=
  [⟨0x500000, 0, 1, fun _ => [Reg.ttIdBlock, Reg.ttIdVersion]⟩,
   ⟨0x500008, 4, 2, fun k => [Reg.ttHops (4*k), Reg.ttHops (4*k+1), Reg.ttHops (4*k+2), Reg.ttHops (4*k+3)]⟩,
   ⟨0x500010, 0x4, 4, fun n => [Reg.ttRunRun n]⟩,
   ⟨0x500020, 0x4, 4, fun n => [Reg.ttHealthHealth n]⟩,
   ⟨0x501000, 0x80, 128, fun n => [Reg.ttLaneCfgPdAvg n, Reg.ttLaneCfgTb n, Reg.ttLaneCfgTtEn n]⟩,
   ⟨0x501004, 0x80, 128, fun n => [Reg.ttLaneExtTxExtTx n]⟩,
   ⟨0x501008, 0x80, 128, fun n => [Reg.ttLaneExtRxExtRx n]⟩,
   ⟨0x50100c, 0x80, 128, fun n => [Reg.ttLaneAlphaLoAlphaLo n]⟩,
   ⟨0x501010, 0x80, 128, fun n => [Reg.ttLaneAlphaHiAlphaHi n]⟩,
   ⟨0x501014, 0x80, 128, fun n => [Reg.ttLaneRttMaxRttMax n]⟩,
   ⟨0x501018, 0x80, 128, fun n => [Reg.ttLaneRttJumpRttJump n]⟩,
   ⟨0x50101c, 0x80, 128, fun n => [Reg.ttLaneStatusLastDisc n, Reg.ttLaneStatusPHops n, Reg.ttLaneStatusPTbValid n, Reg.ttLaneStatusPSource n, Reg.ttLaneStatusChainLong n, Reg.ttLaneStatusFormatMismatch n, Reg.ttLaneStatusHealth n, Reg.ttLaneStatusCurTb n, Reg.ttLaneStatusRole n, Reg.ttLaneStatusState n]⟩]
/-- Part 1 of the words of block TT. -/
def rowsTt1 : List RegRow :=
  [⟨0x501020, 0x80, 128, fun n => [Reg.ttLanePhasePhase n]⟩,
   ⟨0x501024, 0x80, 128, fun n => [Reg.ttLaneRateRate n]⟩,
   ⟨0x501028, 0x80, 128, fun n => [Reg.ttLaneRttLoRttLo n]⟩,
   ⟨0x50102c, 0x80, 128, fun n => [Reg.ttLaneRttHiRttHi n]⟩,
   ⟨0x501030, 0x80, 128, fun n => [Reg.ttLaneDInLoDInLo n]⟩,
   ⟨0x501034, 0x80, 128, fun n => [Reg.ttLaneDInHiDInHi n]⟩,
   ⟨0x501038, 0x80, 128, fun n => [Reg.ttLaneELoELo n]⟩,
   ⟨0x50103c, 0x80, 128, fun n => [Reg.ttLaneEHiEHi n]⟩,
   ⟨0x501040, 0x80, 128, fun n => [Reg.ttLaneSamplesSamples n]⟩,
   ⟨0x501044, 0x80, 128, fun n => [Reg.ttLaneCountsDiscards n, Reg.ttLaneCountsAnchors n]⟩,
   ⟨0x501048, 0x80, 128, fun n => [Reg.ttLaneErrsAuditErr n, Reg.ttLaneErrsRttRebase n]⟩,
   ⟨0x50104c, 0x80, 128, fun n => [Reg.ttLaneSeqRxSeq n, Reg.ttLaneSeqTxSeq n]⟩]
/-- Part 2 of the words of block TT. -/
def rowsTt2 : List RegRow :=
  [⟨0x501050, 0x80, 128, fun n => [Reg.ttLanePNodeLoPNodeLo n]⟩,
   ⟨0x501054, 0x80, 128, fun n => [Reg.ttLanePNodeHiPNodeHi n]⟩,
   ⟨0x501058, 0x80, 128, fun n => [Reg.ttLanePGmLoPGmLo n]⟩,
   ⟨0x50105c, 0x80, 128, fun n => [Reg.ttLanePGmHiPGmHi n]⟩]
/-- The words of block TT. -/
def rowsTt : List RegRow := rowsTt0 ++ rowsTt1 ++ rowsTt2

/-- Part 0 of the words of block TS. -/
def rowsTs0 : List RegRow :=
  [⟨0x600000, 0, 1, fun _ => [Reg.tsIdBlock, Reg.tsIdVersion]⟩,
   ⟨0x600004, 0, 1, fun _ => [Reg.tsStatusCapOvf, Reg.tsStatusCapNe]⟩,
   ⟨0x600010, 0x4, 4, fun n => [Reg.tsTxqNeNe n]⟩,
   ⟨0x600040, 0x4, 16, fun n => (List.range 8).map fun i => Reg.tsLeatTbTb (8 * n + i)⟩,
   ⟨0x600128, 0, 1, fun _ => [Reg.tsPgCmdGen, Reg.tsPgCmdPg, Reg.tsPgCmdCmd]⟩,
   ⟨0x60012c, 0, 1, fun _ => [Reg.tsPgCmdStatusPg, Reg.tsPgCmdStatusResult]⟩,
   ⟨0x600100, 0, 1, fun _ => [Reg.tsPgStgCfgPol, Reg.tsPgStgCfgTb, Reg.tsPgStgCfgMode]⟩,
   ⟨0x600104, 0, 1, fun _ => [Reg.tsPgStgStartSecLoSec]⟩,
   ⟨0x600108, 0, 1, fun _ => [Reg.tsPgStgStartSecHiSec]⟩,
   ⟨0x60010c, 0, 1, fun _ => [Reg.tsPgStgStartNsNs]⟩,
   ⟨0x600110, 0, 1, fun _ => [Reg.tsPgStgStartFracFrac]⟩,
   ⟨0x600114, 0, 1, fun _ => [Reg.tsPgStgPeriodLoPeriod]⟩]
/-- Part 1 of the words of block TS. -/
def rowsTs1 : List RegRow :=
  [⟨0x600118, 0, 1, fun _ => [Reg.tsPgStgPeriodHiPeriod]⟩,
   ⟨0x60011c, 0, 1, fun _ => [Reg.tsPgStgWidthLoWidth]⟩,
   ⟨0x600120, 0, 1, fun _ => [Reg.tsPgStgWidthHiWidth]⟩,
   ⟨0x600124, 0, 1, fun _ => [Reg.tsPgStgCountCount]⟩,
   ⟨0x601000, 0x40, 16, fun n => [Reg.tsPgCfgOwner n, Reg.tsPgCfgDrive n, Reg.tsPgCfgPol n, Reg.tsPgCfgTb n, Reg.tsPgCfgMode n]⟩,
   ⟨0x601004, 0x40, 16, fun n => [Reg.tsPgStart0StartSecLo n]⟩,
   ⟨0x601008, 0x40, 16, fun n => [Reg.tsPgStart1StartSecHi n]⟩,
   ⟨0x60100c, 0x40, 16, fun n => [Reg.tsPgStart2StartNs n]⟩,
   ⟨0x601010, 0x40, 16, fun n => [Reg.tsPgStart3StartFrac n]⟩,
   ⟨0x601014, 0x40, 16, fun n => [Reg.tsPgPer0PeriodLo n]⟩,
   ⟨0x601018, 0x40, 16, fun n => [Reg.tsPgPer1PeriodHi n]⟩,
   ⟨0x60101c, 0x40, 16, fun n => [Reg.tsPgWid0WidthLo n]⟩]
/-- Part 2 of the words of block TS. -/
def rowsTs2 : List RegRow :=
  [⟨0x601020, 0x40, 16, fun n => [Reg.tsPgWid1WidthHi n]⟩,
   ⟨0x601024, 0x40, 16, fun n => [Reg.tsPgCntCount n]⟩,
   ⟨0x601028, 0x40, 16, fun n => [Reg.tsPgExtExtDelay n]⟩,
   ⟨0x60102c, 0x40, 16, fun n => [Reg.tsPgStatusGen n, Reg.tsPgStatusLate n, Reg.tsPgStatusTapSat n, Reg.tsPgStatusState n]⟩,
   ⟨0x601030, 0x40, 16, fun n => [Reg.tsPgFiredFired n]⟩,
   ⟨0x601034, 0x40, 16, fun n => [Reg.tsPgSkippedSkipped n]⟩,
   ⟨0x602000, 0x40, 16, fun n => [Reg.tsCapCfgGate n, Reg.tsCapCfgWinEn n, Reg.tsCapCfgWinPg n, Reg.tsCapCfgTb n, Reg.tsCapCfgEdge n]⟩,
   ⟨0x602004, 0x40, 16, fun n => [Reg.tsCapExtExtDelay n]⟩,
   ⟨0x602008, 0x40, 16, fun n => [Reg.tsCapStatusDropped n, Reg.tsCapStatusOvf n, Reg.tsCapStatusCount n]⟩,
   ⟨0x60200c, 0x40, 16, fun n => [Reg.tsCapEntry0Window n, Reg.tsCapEntry0Valid n, Reg.tsCapEntry0Wvalid n, Reg.tsCapEntry0Inhigh n, Reg.tsCapEntry0Rising n, Reg.tsCapEntry0Empty n, Reg.tsCapEntry0Tb n]⟩,
   ⟨0x602010, 0x40, 16, fun n => [Reg.tsCapEntry1Sec n]⟩,
   ⟨0x602014, 0x40, 16, fun n => [Reg.tsCapEntry2Ns n]⟩]
/-- Part 3 of the words of block TS. -/
def rowsTs3 : List RegRow :=
  [⟨0x602018, 0x40, 16, fun n => [Reg.tsCapEntry3Frac n]⟩,
   ⟨0x60201c, 0x40, 16, fun n => [Reg.tsCapPopPop n]⟩,
   ⟨0x602020, 0x40, 16, fun n => [Reg.tsCapMissedMissed n]⟩,
   ⟨0x602024, 0x40, 16, fun n => [Reg.tsCapGatedGated n]⟩,
   ⟨0x610000, 0x20, 128, fun n => [Reg.tsTxqStatusDropped n, Reg.tsTxqStatusOvf n, Reg.tsTxqStatusCount n]⟩,
   ⟨0x610004, 0x20, 128, fun n => [Reg.tsTxqEntry0Id n, Reg.tsTxqEntry0Valid n, Reg.tsTxqEntry0Bad n, Reg.tsTxqEntry0Empty n, Reg.tsTxqEntry0Tb n]⟩,
   ⟨0x610008, 0x20, 128, fun n => [Reg.tsTxqEntry1Sec n]⟩,
   ⟨0x61000c, 0x20, 128, fun n => [Reg.tsTxqEntry2Ns n]⟩,
   ⟨0x610010, 0x20, 128, fun n => [Reg.tsTxqEntry3Frac n]⟩,
   ⟨0x610014, 0x20, 128, fun n => [Reg.tsTxqPopPop n]⟩]
/-- The words of block TS. -/
def rowsTs : List RegRow := rowsTs0 ++ rowsTs1 ++ rowsTs2 ++ rowsTs3

/-- Part 0 of the words of block CAL. -/
def rowsCal0 : List RegRow :=
  [⟨0x700000, 0, 1, fun _ => [Reg.calIdBlock, Reg.calIdVersion]⟩,
   ⟨0x700004, 0, 1, fun _ => [Reg.calCfgSensorMask, Reg.calCfgCalTb, Reg.calCfgDeltaT]⟩,
   ⟨0x700008, 0, 1, fun _ => [Reg.calLimitsRetryS, Reg.calLimitsMaxStep]⟩,
   ⟨0x70000c, 0, 1, fun _ => [Reg.calPeriodPeriodS]⟩,
   ⟨0x700010, 0, 1, fun _ => [Reg.calStatusGen, Reg.calStatusLastAbort, Reg.calStatusSource, Reg.calStatusStaleTemp, Reg.calStatusPpsOk, Reg.calStatusClkOk, Reg.calStatusWalking, Reg.calStatusRetryArmed, Reg.calStatusState]⟩,
   ⟨0x700014, 0, 1, fun _ => [Reg.calTriggerSensor, Reg.calTriggerCause]⟩,
   ⟨0x700018, 0, 1, fun _ => [Reg.calCountsAborts, Reg.calCountsCommits]⟩,
   ⟨0x70001c, 0, 1, fun _ => [Reg.calLastSecSec]⟩,
   ⟨0x700020, 0, 1, fun _ => [Reg.calPpsOffLoOff]⟩,
   ⟨0x700024, 0, 1, fun _ => [Reg.calPpsOffHiValid, Reg.calPpsOffHiOff]⟩,
   ⟨0x700028, 0, 1, fun _ => [Reg.calCmdGen, Reg.calCmdCmd]⟩,
   ⟨0x70002c, 0, 1, fun _ => [Reg.calCmdStatusResult]⟩]
/-- Part 1 of the words of block CAL. -/
def rowsCal1 : List RegRow :=
  [⟨0x700030, 0, 1, fun _ => [Reg.calCrcCrc]⟩,
   ⟨0x700034, 0, 1, fun _ => [Reg.calStgCrcCrc]⟩,
   ⟨0x700040, 0x4, 16, fun n => [Reg.calTempTRef n, Reg.calTempNow n]⟩,
   ⟨0x700080, 0x4, 16, fun n => [Reg.calStgTrefTRef n]⟩,
   ⟨0x701000, 0x4, 428, fun n => [Reg.calValValue n]⟩,
   ⟨0x702000, 0x4, 428, fun n => [Reg.calStgValue n]⟩]
/-- The words of block CAL. -/
def rowsCal : List RegRow := rowsCal0 ++ rowsCal1

/-- Part 0 of the words of block TBL. -/
def rowsTbl0 : List RegRow :=
  [⟨0x1800000, 0, 1, fun _ => [Reg.tblIdBlock, Reg.tblIdVersion]⟩,
   ⟨0x1800004, 0, 1, fun _ => [Reg.tblCfgAgeUnit, Reg.tblCfgFlowTc, Reg.tblCfgAgeNotify, Reg.tblCfgRefreshDa, Reg.tblCfgLearnEn]⟩,
   ⟨0x1800008, 0, 1, fun _ => [Reg.tblAgeLimitFlowLimit, Reg.tblAgeLimitFdbLimit]⟩,
   ⟨0x180000c, 0, 1, fun _ => [Reg.tblSeed0Seed]⟩,
   ⟨0x1800010, 0, 1, fun _ => [Reg.tblSeed1Seed]⟩,
   ⟨0x1800014, 0, 1, fun _ => [Reg.tblFseed0Seed]⟩,
   ⟨0x1800018, 0, 1, fun _ => [Reg.tblFseed1Seed]⟩,
   ⟨0x1800020, 0x4, 4, fun n => [Reg.tblLearnPortMask n]⟩,
   ⟨0x1800030, 0, 1, fun _ => [Reg.tblStatusGen, Reg.tblStatusAgeNow]⟩,
   ⟨0x1800034, 0, 1, fun _ => [Reg.tblLnqCtlRun]⟩,
   ⟨0x1800038, 0, 1, fun _ => [Reg.tblLnqStatusCamUsed, Reg.tblLnqStatusCount]⟩,
   ⟨0x180003c, 0, 1, fun _ => [Reg.tblNseqNext]⟩]
/-- Part 1 of the words of block TBL. -/
def rowsTbl1 : List RegRow :=
  [⟨0x1800040, 0, 1, fun _ => [Reg.tblEpochOutstanding, Reg.tblEpochCompleted, Reg.tblEpochCurrent]⟩,
   ⟨0x1800044, 0, 1, fun _ => [Reg.tblFenceStatusIe, Reg.tblFenceStatusDone]⟩,
   ⟨0x1800048, 0, 1, fun _ => [Reg.tblFdbUseTotal]⟩,
   ⟨0x1800054, 0, 1, fun _ => [Reg.tblFdbStaticStatic]⟩,
   ⟨0x180004c, 0, 1, fun _ => [Reg.tblFlowUseStatic, Reg.tblFlowUseTotal]⟩,
   ⟨0x1800050, 0, 1, fun _ => [Reg.tblParityLocTable, Reg.tblParityLocBank, Reg.tblParityLocWay, Reg.tblParityLocIndex]⟩,
   ⟨0x1800060, 0, 1, fun _ => [Reg.tblCntLearn]⟩,
   ⟨0x1800064, 0, 1, fun _ => [Reg.tblCntMove]⟩,
   ⟨0x1800068, 0, 1, fun _ => [Reg.tblCntConflict]⟩,
   ⟨0x180006c, 0, 1, fun _ => [Reg.tblCntRetract]⟩,
   ⟨0x1800070, 0, 1, fun _ => [Reg.tblCntAged]⟩,
   ⟨0x1800074, 0, 1, fun _ => [Reg.tblCntLnqFull]⟩]
/-- Part 2 of the words of block TBL. -/
def rowsTbl2 : List RegRow :=
  [⟨0x1800078, 0, 1, fun _ => [Reg.tblCntCamFull]⟩,
   ⟨0x180007c, 0, 1, fun _ => [Reg.tblCntStaticMismatch]⟩,
   ⟨0x1800080, 0, 1, fun _ => [Reg.tblCntAgeDefer]⟩,
   ⟨0x1800084, 0, 1, fun _ => [Reg.tblCntVlanDrop]⟩,
   ⟨0x1800088, 0, 1, fun _ => [Reg.tblCntFloods]⟩,
   ⟨0x180008c, 0, 1, fun _ => [Reg.tblCntPass2]⟩,
   ⟨0x1800090, 0, 1, fun _ => [Reg.tblCntPass3]⟩,
   ⟨0x1800094, 0, 1, fun _ => [Reg.tblCntPass4]⟩,
   ⟨0x1800098, 0, 1, fun _ => [Reg.tblCntParity]⟩,
   ⟨0x180009c, 0, 1, fun _ => [Reg.tblCntReinstated]⟩,
   ⟨0x18000a0, 0, 1, fun _ => [Reg.tblCntTcqFull]⟩]
/-- The words of block TBL. -/
def rowsTbl : List RegRow := rowsTbl0 ++ rowsTbl1 ++ rowsTbl2

/-- Part 0 of the words of block FAB. -/
def rowsFab0 : List RegRow :=
  [⟨0x2000000, 0, 1, fun _ => [Reg.fabIdBlock, Reg.fabIdVersion]⟩,
   ⟨0x2000004, 0, 1, fun _ => [Reg.fabCfgCtEn]⟩,
   ⟨0x2000008, 0, 1, fun _ => [Reg.fabGuardCells]⟩,
   ⟨0x200000c, 0, 1, fun _ => [Reg.fabPoolSharedFree]⟩,
   ⟨0x2000010, 0, 1, fun _ => [Reg.fabHeadTotal]⟩,
   ⟨0x2000014, 0, 1, fun _ => [Reg.fabUsedCells]⟩,
   ⟨0x2000040, 0, 1, fun _ => [Reg.fabCntCtCopies]⟩,
   ⟨0x2000044, 0, 1, fun _ => [Reg.fabCntStomps]⟩,
   ⟨0x2000048, 0, 1, fun _ => [Reg.fabCntBadDiscard]⟩,
   ⟨0x200004c, 0, 1, fun _ => [Reg.fabCntOverrun]⟩,
   ⟨0x2000050, 0, 1, fun _ => [Reg.fabCntTimeouts]⟩,
   ⟨0x2000054, 0, 1, fun _ => [Reg.fabCntWindowFull]⟩]
/-- Part 1 of the words of block FAB. -/
def rowsFab1 : List RegRow :=
  [⟨0x2000058, 0, 1, fun _ => [Reg.fabCntLate]⟩,
   ⟨0x200005c, 0, 1, fun _ => [Reg.fabCntFenceFrames]⟩,
   ⟨0x2000060, 0, 1, fun _ => [Reg.fabCntFenceOvf]⟩,
   ⟨0x2000064, 0, 1, fun _ => [Reg.fabCntFlfFrames]⟩,
   ⟨0x2000068, 0, 1, fun _ => [Reg.fabCntFlfMiss]⟩,
   ⟨0x200006c, 0, 1, fun _ => [Reg.fabCntUnderrun]⟩,
   ⟨0x2000070, 0, 1, fun _ => [Reg.fabCntUndecidedFull]⟩,
   ⟨0x2000074, 0, 1, fun _ => [Reg.fabCntLinkDrop]⟩,
   ⟨0x2000100, 0x10, 8, fun n => [Reg.fabTcCfgFenceEtype n, Reg.fabTcCfgWeight n, Reg.fabTcCfgSched n, Reg.fabTcCfgMode n]⟩,
   ⟨0x2000104, 0x10, 8, fun n => [Reg.fabTcXoffXoff n]⟩,
   ⟨0x2000108, 0x10, 8, fun n => [Reg.fabTcXonXon n]⟩,
   ⟨0x200010c, 0x10, 8, fun n => [Reg.fabTcDropDrop n]⟩]
/-- Part 2 of the words of block FAB. -/
def rowsFab2 : List RegRow :=
  [⟨0x2001000, 0x40, 128, fun n => [Reg.fabDestCfgFlfEn n, Reg.fabDestCfgFlfTc n, Reg.fabDestCfgShapeEn n, Reg.fabDestCfgLossless n]⟩,
   ⟨0x2001004, 0x40, 128, fun n => [Reg.fabDestRttRttNs n]⟩,
   ⟨0x2001008, 0x40, 128, fun n => [Reg.fabDestFlfFlfLat n]⟩,
   ⟨0x200100c, 0x40, 128, fun n => [Reg.fabDestHeadHeadroom n]⟩,
   ⟨0x2001010, 0x40, 128, fun n => [Reg.fabDestStatusRttShort n, Reg.fabDestStatusHeld n, Reg.fabDestStatusPaused n, Reg.fabDestStatusXoff n]⟩,
   ⟨0x2001014, 0x40, 128, fun n => [Reg.fabDestGapsGaps n]⟩,
   ⟨0x2001018, 0x40, 128, fun n => [Reg.fabDestOvrOverrun n]⟩,
   ⟨0x200101c, 0x40, 128, fun n => [Reg.fabDestLdropLinkDrop n]⟩,
   ⟨0x2001020, 0x40, 128, fun n => [Reg.fabDestShapeBurst n 0, Reg.fabDestShapeRate n 0]⟩,
   ⟨0x2001024, 0x40, 128, fun n => [Reg.fabDestShapeBurst n 1, Reg.fabDestShapeRate n 1]⟩,
   ⟨0x2001028, 0x40, 128, fun n => [Reg.fabDestShapeBurst n 2, Reg.fabDestShapeRate n 2]⟩,
   ⟨0x200102c, 0x40, 128, fun n => [Reg.fabDestShapeBurst n 3, Reg.fabDestShapeRate n 3]⟩]
/-- Part 3 of the words of block FAB. -/
def rowsFab3 : List RegRow :=
  [⟨0x2001030, 0x40, 128, fun n => [Reg.fabDestShapeBurst n 4, Reg.fabDestShapeRate n 4]⟩,
   ⟨0x2001034, 0x40, 128, fun n => [Reg.fabDestShapeBurst n 5, Reg.fabDestShapeRate n 5]⟩,
   ⟨0x2001038, 0x40, 128, fun n => [Reg.fabDestShapeBurst n 6, Reg.fabDestShapeRate n 6]⟩,
   ⟨0x200103c, 0x40, 128, fun n => [Reg.fabDestShapeBurst n 7, Reg.fabDestShapeRate n 7]⟩]
/-- The words of block FAB. -/
def rowsFab : List RegRow := rowsFab0 ++ rowsFab1 ++ rowsFab2 ++ rowsFab3

/-- Part 0 of the words of block RED. -/
def rowsRed0 : List RegRow :=
  [⟨0x2800000, 0, 1, fun _ => [Reg.redIdBlock, Reg.redIdVersion]⟩,
   ⟨0x2800004, 0, 1, fun _ => [Reg.redCfgHoldoff, Reg.redCfgHbTimeout, Reg.redCfgDenyUnverified, Reg.redCfgConfirm]⟩,
   ⟨0x2800008, 0, 1, fun _ => [Reg.redFlapFlapLim, Reg.redFlapFlapWinS]⟩,
   ⟨0x280000c, 0, 1, fun _ => [Reg.redLatchLatchS]⟩,
   ⟨0x2800010, 0, 1, fun _ => [Reg.redStatusDecisions, Reg.redStatusFoUnverified, Reg.redStatusTkLost, Reg.redStatusRootLost]⟩,
   ⟨0x2800014, 0, 1, fun _ => [Reg.redCmdGen, Reg.redCmdUnit, Reg.redCmdCmd]⟩,
   ⟨0x2800018, 0, 1, fun _ => [Reg.redCmdStatusResult]⟩,
   ⟨0x280001c, 0, 1, fun _ => [Reg.redLastUnit, Reg.redLastReason, Reg.redLastAction]⟩,
   ⟨0x2800100, 0x10, 68, fun n => [Reg.redUnitStatusGen n, Reg.redUnitStatusReason n, Reg.redUnitStatusHbOk n, Reg.redUnitStatusHealth n, Reg.redUnitStatusUnmonitored n, Reg.redUnitStatusUnverified n, Reg.redUnitStatusState n]⟩,
   ⟨0x2800104, 0x10, 68, fun n => [Reg.redUnitCountsFails n, Reg.redUnitCountsFlapCnt n]⟩,
   ⟨0x2800108, 0x10, 68, fun n => [Reg.redUnitLastLastFailSec n]⟩,
   ⟨0x280010c, 0x10, 68, fun n => [Reg.redUnitWtrWtrLeft n]⟩]
/-- Part 1 of the words of block RED. -/
def rowsRed1 : List RegRow :=
  [⟨0x2801000, 0x10, 32, fun n => [Reg.redPairCfgTkPair n, Reg.redPairCfgSecondary n, Reg.redPairCfgPrimary n, Reg.redPairCfgKind n]⟩,
   ⟨0x2801004, 0x10, 32, fun n => [Reg.redPairWtrWtrS n]⟩,
   ⟨0x2801008, 0x10, 32, fun n => [Reg.redPairStatusDataLost n, Reg.redPairStatusTimeState n, Reg.redPairStatusTimeMember n, Reg.redPairStatusDataActive n]⟩,
   ⟨0x280100c, 0x10, 32, fun n => [Reg.redPairCountsTimeSwitches n, Reg.redPairCountsDataSwitches n]⟩]
/-- The words of block RED. -/
def rowsRed : List RegRow := rowsRed0 ++ rowsRed1

/-- Part 0 of the words of block FLT. -/
def rowsFlt0 : List RegRow :=
  [⟨0x2900000, 0, 1, fun _ => [Reg.fltIdBlock, Reg.fltIdVersion]⟩,
   ⟨0x2900004, 0, 1, fun _ => [Reg.fltCfgInjEn]⟩,
   ⟨0x2900008, 0, 1, fun _ => [Reg.fltStatusGen, Reg.fltStatusHalted, Reg.fltStatusClrRefused, Reg.fltStatusOvf, Reg.fltStatusState]⟩,
   ⟨0x290000c, 0, 1, fun _ => [Reg.fltRecSrcTimeValid, Reg.fltRecSrcInj, Reg.fltRecSrcRail, Reg.fltRecSrcReaction, Reg.fltRecSrcClass, Reg.fltRecSrcSource]⟩,
   ⟨0x2900010, 0, 1, fun _ => [Reg.fltRecSyndSyndrome]⟩,
   ⟨0x2900014, 0, 1, fun _ => [Reg.fltRecSecLoSec]⟩,
   ⟨0x2900018, 0, 1, fun _ => [Reg.fltRecSecHiSec]⟩,
   ⟨0x290001c, 0, 1, fun _ => [Reg.fltRecNsNs]⟩,
   ⟨0x2900020, 0, 1, fun _ => [Reg.fltRecFracFrac]⟩,
   ⟨0x2900024, 0, 1, fun _ => [Reg.fltClearGen]⟩,
   ⟨0x2900028, 0, 1, fun _ => [Reg.fltClearStatusResult]⟩,
   ⟨0x290002c, 0, 1, fun _ => [Reg.fltInjCmdCycles, Reg.fltInjCmdMode, Reg.fltInjCmdSource]⟩]
/-- Part 1 of the words of block FLT. -/
def rowsFlt1 : List RegRow :=
  [⟨0x2900030, 0, 1, fun _ => [Reg.fltInjStatusSource, Reg.fltInjStatusBusy, Reg.fltInjStatusCollided, Reg.fltInjStatusDone, Reg.fltInjStatusResult]⟩,
   ⟨0x2900034, 0, 1, fun _ => [Reg.fltCountsJrnlDrop]⟩,
   ⟨0x2900038, 0, 1, fun _ => [Reg.fltQuarFull, Reg.fltQuarCells]⟩,
   ⟨0x2900040, 0x4, 16, fun n => [Reg.fltFaultMap n]⟩,
   ⟨0x2900080, 0x4, 16, fun n => [Reg.fltActiveMap n]⟩,
   ⟨0x2901000, 0x4, 512, fun n => [Reg.fltSrcCount n, Reg.fltSrcRail n, Reg.fltSrcActive n, Reg.fltSrcLevel n, Reg.fltSrcClr n, Reg.fltSrcReaction n, Reg.fltSrcClass n]⟩]
/-- The words of block FLT. -/
def rowsFlt : List RegRow := rowsFlt0 ++ rowsFlt1

/-- Part 0 of the words of block PMON. -/
def rowsPmon0 : List RegRow :=
  [⟨0x2a00000, 0, 1, fun _ => [Reg.pmonIdBlock, Reg.pmonIdVersion]⟩,
   ⟨0x2a00004, 0, 1, fun _ => [Reg.pmonFabCycCount]⟩,
   ⟨0x2a00010, 0, 1, fun _ => [Reg.pmonGleanCtlK, Reg.pmonGleanCtlWrap, Reg.pmonGleanCtlRun]⟩,
   ⟨0x2a00014, 0, 1, fun _ => [Reg.pmonGleanSeedSeed]⟩,
   ⟨0x2a00018, 0, 1, fun _ => [Reg.pmonTagTcMask]⟩,
   ⟨0x2a00020, 0x4, 4, fun n => [Reg.pmonTagPortMask n]⟩,
   ⟨0x2a00030, 0, 1, fun _ => [Reg.pmonGleanStatusInside, Reg.pmonGleanStatusFull, Reg.pmonGleanStatusWrPtr]⟩,
   ⟨0x2a00034, 0, 1, fun _ => [Reg.pmonGleanRdRdPtr]⟩,
   ⟨0x2a00038, 0, 1, fun _ => [Reg.pmonTaggedCount]⟩,
   ⟨0x2a0003c, 0, 1, fun _ => [Reg.pmonGleanLossSkipped, Reg.pmonGleanLossLost]⟩,
   ⟨0x2a00040, 0, 1, fun _ => [Reg.pmonBwCfgEn, Reg.pmonBwCfgTb, Reg.pmonBwCfgWinUs]⟩,
   ⟨0x2a00044, 0, 1, fun _ => [Reg.pmonBwStatusWin]⟩]
/-- Part 1 of the words of block PMON. -/
def rowsPmon1 : List RegRow :=
  [⟨0x2a00048, 0, 1, fun _ => [Reg.pmonBwLateCount, Reg.pmonBwLateValid]⟩,
   ⟨0x2a00100, 0x10, 48, fun n => [Reg.pmonCntCfgSat n, Reg.pmonCntCfgClear n, Reg.pmonCntCfgHigh n, Reg.pmonCntCfgEnable n, Reg.pmonCntCfgEvent n]⟩,
   ⟨0x2a00104, 0x10, 48, fun n => [Reg.pmonCntLoCount n]⟩,
   ⟨0x2a00108, 0x10, 48, fun n => [Reg.pmonCntHiCount n]⟩,
   ⟨0x2a00800, 0x10, 128, fun n => [Reg.pmonBwRxRx n]⟩,
   ⟨0x2a00804, 0x10, 128, fun n => [Reg.pmonBwTxTx n]⟩,
   ⟨0x2a00808, 0x10, 128, fun n => [Reg.pmonBwHiTxHi n, Reg.pmonBwHiRxHi n]⟩,
   ⟨0x2A10000, 4, 8192, fun i => [Reg.pmonFixed (i / 64) (i / 8 % 8) (i / 2 % 4) (i % 2)]⟩,
   ⟨0x2A20000, 4, 16384, fun i => [Reg.pmonTag i]⟩]
/-- The words of block PMON. -/
def rowsPmon : List RegRow := rowsPmon0 ++ rowsPmon1

/-- Part 0 of the words of block SEC. -/
def rowsSec0 : List RegRow :=
  [⟨0x2b00000, 0, 1, fun _ => [Reg.secIdBlock, Reg.secIdVersion]⟩,
   ⟨0x2b00004, 0, 1, fun _ => [Reg.secLcsState]⟩,
   ⟨0x2b00008, 0, 1, fun _ => [Reg.secDbgLeaseLeft, Reg.secDbgArmedFull, Reg.secDbgLevel]⟩,
   ⟨0x2b0000c, 0, 1, fun _ => [Reg.secOtpStatusFloorUsed, Reg.secOtpStatusOtpErr, Reg.secOtpStatusFloorFull, Reg.secOtpStatusRevoked, Reg.secOtpStatusProgrammed]⟩,
   ⟨0x2b00010, 0, 1, fun _ => [Reg.secFloorFloor]⟩,
   ⟨0x2b00014, 0, 1, fun _ => [Reg.secDieIdLoDieId]⟩,
   ⟨0x2b0001c, 0, 1, fun _ => [Reg.secJtagIdIdcode]⟩,
   ⟨0x2b00020, 0, 1, fun _ => [Reg.secCfgLeaseS, Reg.secCfgJtagEn, Reg.secCfgDebugSlot]⟩,
   ⟨0x2b00024, 0, 1, fun _ => [Reg.secKeyselSlot]⟩,
   ⟨0x2b00028, 0x4, 8, fun n => [Reg.secKeyhashHash n]⟩,
   ⟨0x2b00050, 0, 1, fun _ => [Reg.secReqCmdLevel, Reg.secReqCmdCmd]⟩,
   ⟨0x2b00054, 0, 1, fun _ => [Reg.secReqStatusClaim, Reg.secReqStatusBusy, Reg.secReqStatusNonceValid, Reg.secReqStatusForeign, Reg.secReqStatusResult]⟩]
/-- Part 1 of the words of block SEC. -/
def rowsSec1 : List RegRow :=
  [⟨0x2b00060, 0x4, 8, fun n => [Reg.secNonceNonce n]⟩,
   ⟨0x2b00100, 0x4, 52, fun n => [Reg.secReqBufData n]⟩,
   ⟨0x2b00018, 0, 1, fun _ => [Reg.secDieIdHiDieId]⟩]
/-- The words of block SEC. -/
def rowsSec : List RegRow := rowsSec0 ++ rowsSec1

/-- The words of block PWR. -/
def rowsPwr : List RegRow :=
  [⟨0x2c00000, 0, 1, fun _ => [Reg.pwrIdBlock, Reg.pwrIdVersion]⟩,
   ⟨0x2c00004, 0, 1, fun _ => [Reg.pwrCfgReleaseMs, Reg.pwrCfgShedTarget, Reg.pwrCfgInitReq, Reg.pwrCfgHostLow, Reg.pwrCfgHostEn, Reg.pwrCfgPinEn]⟩,
   ⟨0x2c00008, 0, 1, fun _ => [Reg.pwrStatusGen, Reg.pwrStatusShed, Reg.pwrStatusKeepSide, Reg.pwrStatusSwReq, Reg.pwrStatusPinReq, Reg.pwrStatusTarget, Reg.pwrStatusState]⟩,
   ⟨0x2c0000c, 0, 1, fun _ => [Reg.pwrDomainsRamping, Reg.pwrDomainsOn]⟩,
   ⟨0x2c00010, 0, 1, fun _ => [Reg.pwrHostReqGen, Reg.pwrHostReqReq]⟩,
   ⟨0x2c00014, 0, 1, fun _ => [Reg.pwrCmdStatusResult]⟩,
   ⟨0x2c00018, 0, 1, fun _ => [Reg.pwrCountsSheds, Reg.pwrCountsChanges]⟩,
   ⟨0x2c00020, 0x4, 4, fun n => [Reg.pwrTimingLanesMask n]⟩]

/-- Part 0 of the words of block HIF. -/
def rowsHif0 : List RegRow :=
  [⟨0x2d00000, 0, 1, fun _ => [Reg.hifIdBlock, Reg.hifIdVersion]⟩,
   ⟨0x2d00004, 0, 1, fun _ => [Reg.hifCfgTcqFifo, Reg.hifCfgLnqFifo, Reg.hifCfgFramesEn, Reg.hifCfgSmiEn, Reg.hifCfgPcieEn]⟩,
   ⟨0x2d00008, 0, 1, fun _ => [Reg.hifStatusLinkUp, Reg.hifStatusSpeed, Reg.hifStatusWidth, Reg.hifStatusBme, Reg.hifStatusMsixEn, Reg.hifStatusSmiSeen]⟩,
   ⟨0x2d0000c, 0, 1, fun _ => [Reg.hifHostqUsed, Reg.hifHostqCells]⟩,
   ⟨0x2d00010, 0, 1, fun _ => [Reg.hifIntStatusStatus]⟩,
   ⟨0x2d00014, 0, 1, fun _ => [Reg.hifIntMaskMask]⟩,
   ⟨0x2d00018, 0, 1, fun _ => [Reg.hifIrqMaskMask]⟩,
   ⟨0x2d00020, 0, 1, fun _ => [Reg.hifAccErrCount, Reg.hifAccErrValid, Reg.hifAccErrPath, Reg.hifAccErrType]⟩,
   ⟨0x2d00024, 0, 1, fun _ => [Reg.hifAccAddrBar2, Reg.hifAccAddrAddr]⟩,
   ⟨0x2d00028, 0, 1, fun _ => [Reg.hifRxDropCount]⟩,
   ⟨0x2d0002c, 0, 1, fun _ => [Reg.hifTxBadCount]⟩,
   ⟨0x2d00100, 0x20, 6, fun n => [Reg.hifRingBaseLoBaseLo n]⟩]
/-- Part 1 of the words of block HIF. -/
def rowsHif1 : List RegRow :=
  [⟨0x2d00104, 0x20, 6, fun n => [Reg.hifRingBaseHiBaseHi n]⟩,
   ⟨0x2d00108, 0x20, 6, fun n => [Reg.hifRingCtlEn n, Reg.hifRingCtlSize n]⟩,
   ⟨0x2d0010c, 0x20, 6, fun n => [Reg.hifRingDevIdxDevIdx n]⟩,
   ⟨0x2d00110, 0x20, 6, fun n => [Reg.hifRingHostIdxHostIdx n]⟩,
   ⟨0x2d00114, 0x20, 6, fun n => [Reg.hifRingWbLoWbLo n]⟩,
   ⟨0x2d00118, 0x20, 6, fun n => [Reg.hifRingWbHiWbHi n]⟩,
   ⟨0x2d00200, 0x4, 8, fun n => [Reg.hifLnqDataData n]⟩,
   ⟨0x2d00240, 0x4, 8, fun n => [Reg.hifTcqDataData n]⟩,
   ⟨0x2d00280, 0x4, 4, fun n => [Reg.hifTcrDataData n]⟩,
   ⟨0x2d00220, 0, 1, fun _ => [Reg.hifLnqPopGo]⟩,
   ⟨0x2d00260, 0, 1, fun _ => [Reg.hifTcqPushGo]⟩,
   ⟨0x2d00290, 0, 1, fun _ => [Reg.hifTcrPopGo]⟩]
/-- Part 2 of the words of block HIF. -/
def rowsHif2 : List RegRow :=
  [⟨0x2d002a0, 0, 1, fun _ => [Reg.hifFifoStatusTcrCount, Reg.hifFifoStatusTcqFree]⟩]
/-- The words of block HIF. -/
def rowsHif : List RegRow := rowsHif0 ++ rowsHif1 ++ rowsHif2

/-- The register block that holds BAR0 offset `a` (Table HI-3). -/
def rowsOf (a : Nat) : List RegRow :=
  if a < 0x100000 then rowsDev else if a < 0x200000 then rowsClk else if a < 0x300000 then rowsRefsel
  else if a < 0x400000 then rowsSyn else if a < 0x500000 then rowsTk else if a < 0x600000 then rowsTt
  else if a < 0x700000 then rowsTs else if a < 0x800000 then rowsCal else if a < 0x880000 then rowsLane
  else if a < 0x1000000 then [] else if a < 0x1080000 then rowsPort else if a < 0x1800000 then []
  else if a < 0x2000000 then rowsTbl else if a < 0x2800000 then rowsFab else if a < 0x2900000 then rowsRed
  else if a < 0x2A00000 then rowsFlt else if a < 0x2B00000 then rowsPmon else if a < 0x2C00000 then rowsSec
  else if a < 0x2D00000 then rowsPwr else if a < 0x2E00000 then rowsHif else []

/-- Index of BAR0 offset `a` in row `r`, none where the row does not hold it. -/
def RegRow.idx? (r : RegRow) (a : Nat) : Option Nat :=
  if r.stride = 0 then (if a = r.base then some 0 else none)
  else if r.base ≤ a ∧ (a - r.base) % r.stride = 0 ∧ (a - r.base) / r.stride < r.count
    then some ((a - r.base) / r.stride) else none

/-- The fields of the word at `a` among `rows`, none where no register is defined there. -/
def findRow : List RegRow → Nat → Option (List Fld)
  | [], _ => none
  | r :: rs, a => match r.idx? a with
    | some n => some (r.flds n)
    | none => findRow rs a

/-- The fields of the register at BAR0 offset `a`, none where no register is defined (R393). -/
def fieldsAt (a : Nat) : Option (List Fld) := findRow (rowsOf a) a

/-- Offset `a` is one of the words `lo` to `hi` of a copy of a register table at `base`, `count` copies `stride` bytes apart. -/
def inCopies (base stride count lo hi a : Nat) : Bool :=
  decide (base ≤ a) && decide (a < base + stride * count) && decide (lo ≤ (a - base) % stride) && decide ((a - base) % stride ≤ hi)

/-- A word that its table defines and calls reserved as a whole: it reads as zero, and is no unmapped offset (R390; Tables FT-10,
FT-11, SY-11, SY-13, TK-9, TT-10, TS-8 to TS-10). -/
def reservedWord (a : Nat) : Bool :=
  a % 4 == 0 && (inCopies 0x200100 0x20 4 0x14 0x1C a || inCopies 0x200200 0x40 24 0x28 0x3C a || inCopies 0x300100 0x20 4 0x18 0x1C a
    || inCopies 0x301000 0x10 64 0x0C 0x0C a || inCopies 0x401000 0x100 8 0x70 0xFC a || inCopies 0x501000 0x80 128 0x60 0x7C a
    || inCopies 0x601000 0x40 16 0x38 0x3C a || inCopies 0x602000 0x40 16 0x28 0x3C a || inCopies 0x610000 0x20 128 0x18 0x1C a)

end Sys2Proof.Machine
end

