-- ==== Sys2Proof/Machine/Tab.lean ====
section
/-! DEFINITION. A sparse table: the entries of a memory or register file that differ from what an
unlisted key reads as, by rising key. Every addressed memory of the device is one of these. -/
namespace Sys2Proof.Machine

/-- Sparse data by key. An unlisted key reads as the default that each reader names. -/
abbrev Tab (α : Type) := List (Nat × α)

/-- The entry of key `k`, `d` where none is listed. -/
def Tab.get {α : Type} : Tab α → Nat → α → α
  | [], _, d => d
  | (k', v) :: t, k, d => if k' = k then v else Tab.get t k d

/-- The table without key `k`. -/
def Tab.del {α : Type} : Tab α → Nat → Tab α
  | [], _ => []
  | (k', v) :: t, k => if k' = k then Tab.del t k else (k', v) :: Tab.del t k

/-- `(k, v)` put before the first larger key. -/
def Tab.ins {α : Type} : Tab α → Nat → α → Tab α
  | [], k, v => [(k, v)]
  | (k', v') :: t, k, v => if k < k' then (k, v) :: (k', v') :: t else (k', v') :: Tab.ins t k v

/-- Key `k` set to `v`; an entry equal to the default is not listed. -/
def Tab.set {α : Type} [DecidableEq α] (t : Tab α) (k : Nat) (v d : α) : Tab α :=
  if v = d then Tab.del t k else Tab.ins (Tab.del t k) k v

/-- The listed keys rise strictly. -/
def Tab.rising {α : Type} : Tab α → Bool
  | [] => true
  | (k, _) :: t => (match t with | [] => true | (k', _) :: _ => decide (k < k')) && Tab.rising t

/-- No listed entry equals the default. -/
def Tab.tight {α : Type} [DecidableEq α] (d : α) (t : Tab α) : Bool := t.all (fun e => e.2 != d)

/-- The canonical form of a table with default `d`: keys strictly rising, no entry equal to `d`. -/
def Tab.wf {α : Type} [DecidableEq α] (d : α) (t : Tab α) : Bool := Tab.rising t && Tab.tight d t

end Sys2Proof.Machine
end

