-- ==== Sys2Proof/Machine/State.lean ====
section
/-! DEFINITION. The state of the device: its register file, its memories, every unit's state that no
register shows, its pins, and the queue of waiting commands. Plain data. -/
namespace Sys2Proof.Machine

/-- Why the machine would stop with a fault. -/
inductive Fault where
  /-- No meaning of this model raises it: the spec gives every command an effect. It stands so that the
  type of stops is not empty. Safe: a stop says nothing about what follows. -/
  | outsideModel
  deriving DecidableEq, Repr

/-- Why a command has no meaning. -/
inductive Refusal where
  /-- Raised by an arm of `exec` for a command whose meaning is not written. Safe. -/
  | notModelled (mnemonic : String)
  deriving DecidableEq, Repr

/-- A journal record before its CRC and SEQ are put in (Table IM-15). -/
structure JRec where
  type  : Nat
  flags : Nat
  boot  : Nat
  secs  : Nat
  nanos : Nat
  frac  : Nat
  data  : List Byte
  deriving DecidableEq, Repr

/-- The XO check's memory between windows (Table CK-3): agreement count and class of the last window
(0 absent, 1 invalid, 2 10 MHz, 3 25 MHz, 4 100 MHz). -/
structure XoCheck where
  released : Bool := false
  agree    : Nat := 0
  prev     : Nat := 0
  deriving DecidableEq, Repr

/-- What start-up holds beside DEV.BOOT: the copy under check, the image store (a region of the packet
buffer), and what the accepted image declared. `shaft`: a root has locked, and K1 and K9 were started. `k14Due`: the 100 ms of R34 are over. `nvmBusy`: the bytes that the flash command under way returns. `revoked`: the REVOKED
fuses as the last full reset found them (R365). -/
structure Boot where
  cs        : Nat := 0
  store     : List Byte := []
  accepted  : Bool := false
  imgFlags  : Nat := 0
  imgSeq    : Nat := 0
  pcieRef   : Bool := false
  xoQual    : Bool := false
  applied   : Bool := false
  wiped     : Bool := false
  shaft     : Bool := false
  k14Due    : Bool := false
  quadsOn   : Nat := 0
  quadsDone : Nat := 0
  floorBusy : Bool := false
  nvmBusy   : Option Nat := none
  revoked   : Nat := 0
  deriving DecidableEq, Repr

/-- The OTP fuse bank (Table SP-3): life-cycle fuses (bit 0 OWNED, 1 FIELD, 2 RETURN, 3 END), the owner
key hashes, the revocation bits, the floor words and the die identity. -/
structure Otp where
  lc      : Nat := 0
  keys    : Tab Nat := []
  revoked : Nat := 0
  floors  : Tab Nat := []
  dieId   : Nat := 0
  deriving DecidableEq, Repr

/-- A request whose signature has verified and whose own step is still to come (R361, R365, R369). -/
structure SecReq where
  type   : Nat
  target : Nat
  slot   : Nat
  arg    : Nat
  deriving DecidableEq, Repr

/-- State of the SEC block that no register field holds alone: the armed-FULL latch of PD0, the verified
request, the life-cycle transition under way (old state, new state, fuse blown), and the JTAG port. -/
structure Sec where
  armedFull : Bool := false
  request   : Option SecReq := none
  trans     : Option (Nat × Nat × Bool) := none
  tapIr     : Nat := 0x01
  scanStop  : Nat := 0
  preload   : List Bool := []
  deriving DecidableEq, Repr

/-- State of the power controller beside PWR: the drain, the direction of the ramp under way, the shed rate in force,
whether a shed waits for its first ramp, the start-up ramps waiting, the domains whose wipe is done and clock gates
open, whether only TIMING_LANES lanes run (Table SP-12), and whether start-up has reached RUN. -/
structure Pwr where
  drain    : Bool := false
  up       : Bool := true
  shedFast : Bool := false
  shedWait : Bool := false
  bootQ    : List (Nat × Bool) := []
  gates    : Nat := 1
  timing   : Bool := false
  seenRun  : Bool := false
  deriving DecidableEq, Repr

/-- The report line of one fault source (R328): whether its cause holds it at error, with which syndrome,
the pair as the collector decodes it (0 legal idle, 1 error, 2 rail fault), and the injection drive. -/
structure FltLine where
  cause : Bool := false
  synd  : Nat := 0
  pair  : Nat := 0
  deriving DecidableEq, Repr

/-- State of the collector beside FLT: the injection drive under way (source; MODE, + 2 once it met a real event), the
sources that drive their unit's fault input at the referee, the lanes and ports its HALT_PORT reactions
hold, and what its CONTAIN reactions took out: cells (and how many of them SHARED_FREE has still to lose), shadow items, pairs. -/
structure Flt where
  inj       : Option (Nat × Nat) := none
  inputs    : List Nat := []
  holds     : List Nat := []
  quarCells : List Nat := []
  owed      : Nat := 0
  auditSkip : List Nat := []
  lostPairs : List Nat := []
  deriving DecidableEq, Repr

/-- What the device sends to the outside: a modelling record of its outputs. -/
inductive Out where
  /-- An MSI-X message of a vector (R404). -/
  | msix (vector : Nat)
  /-- A write of 32-bit words into host memory (R397). -/
  | dmaWrite (addr : Nat) (words : List Word)
  /-- A write of frame bytes into host memory (R400). -/
  | dmaBytes (addr : Nat) (bytes : List Byte)
  /-- A SPI command issued to a flash (R36, R61): chip select, opcode, address if sent, dummy cycles, data written. -/
  | spi (cs op : Nat) (addr : Option Nat) (dummy : Nat) (data : List Byte)
  /-- Words returned to a host read, or shifted out of the JTAG port. -/
  | readData (words : List Word)
  /-- Bits shifted out of the JTAG port. -/
  | tdo (bits : List Bool)
  /-- A frame as it left egress `egress`. -/
  | frame (egress : Nat) (bytes : List Byte)
  /-- The PCS ends the frame that leaves port `egress` with an error control character (R135, R298). -/
  | errEnd (egress : Nat)
  /-- The line bits of a superblock, a burst or a test pattern on a lane (R107 to R113). -/
  | line (lane : Nat) (bits : List Bool)
  /-- An edge handed to the placer of EVT_OUT pg with its taps (R213). -/
  | pulse (pg coarse fine : Nat) (rising : Bool)
  /-- SEL_VALID and SEL_STATE[2:0] change on their pins (R76). -/
  | sel (valid : Bool) (code : Nat)
  deriving DecidableEq, Repr

/-- Input pins whose level later steps use. `aonGood`: the detector of VDD_AON lets the device run (R413); `inRange`: VDD_AON and
VDD_IO are at their operating minimum or above (R409). -/
structure Pins where
  resetN    : Bool := false
  perstN    : Bool := false
  pcieClk   : Bool := true
  pwrReq    : Nat := 0
  powerFail : Bool := false
  aonGood   : Bool := true
  inRange   : Bool := true
  deriving DecidableEq, Repr

/-- One time base of one timekeeper (R158): its state (Table TK-3), time in 2^-16 ns since second 0, the
remainder `r` modulo 165, the accumulator `a` modulo M, the servo terms `f` and `p` in 2^-48, PEND in
2^-16 ns / M, the time of the last sample used, the cycles since it (to 1 024), the sample waiting, the runs
of samples inside TRACK_WIN and beyond OUTLIER, whether the next sample is the first, the last accepted
offset, and the rate and direction of a ramp. -/
structure TBase where
  state   : Nat := 0
  valid   : Bool := false
  t       : Nat := 0
  r       : Nat := 0
  a       : Nat := 0
  f       : Int := 0
  p       : Int := 0
  pend    : Int := 0
  tLast   : Nat := 0
  since   : Nat := 1024
  waiting : Option Int := none
  inRun   : Nat := 0
  outRun  : Nat := 0
  first   : Bool := true
  lastE   : Int := 0
  rampR   : Nat := 0
  rampD   : Int := 0
  deriving DecidableEq, Repr

/-- The cross-link (R174 to R176): the index of the next slot, per base the runs of compares inside and
outside XC_LIM, the slots without a good message, whether a load is under way, whether XC_OK has read 1
since the last load, and the shaft motion still to be cancelled after a reference step with the DCO
frequency it is measured from, and whether such a step is still under way (R169); `swaps`: the pairs whose sources timekeeper k has
exchanged, pair p at 4 k + p (R172). -/
structure Xc where
  next    : Nat := 0
  goodRun : Tab Nat := []
  outRun  : Tab Nat := []
  bad     : Nat := 0
  loading : Bool := false
  ever    : Bool := false
  motion  : Int := 0
  dcoFrom : Int := 0
  moving  : Bool := false
  swaps   : Tab Bool := []
  deriving DecidableEq, Repr

/-- MSI-X state of the endpoint (BAR2, Table HI-2): function mask, vector masks, pending bits,
the 16-byte table entries' address and data words; and the latched words of multi-word values, per path (R394);
the command results waiting in the result FIFO (R403), and the PTP_TRAP mask
of the HOST record (R400); and of the endpoint's configuration space (Table HI-1) the words that host software has written, by their
offset, and whether the function is in D3hot. -/
structure Hif where
  fnMask  : Bool := false
  vecMask : Nat := 0xFFFFFFFFFFFFFFFF
  pba     : Nat := 0
  table   : Tab Nat := []
  latch   : Tab Nat := []
  tcr     : List (List Byte) := []
  ptpTrap : Nat := 0
  cfg     : Tab Nat := []
  d3      : Bool := false
  deriving DecidableEq, Repr

/-- One reference candidate beside its REFSEL.CAND registers: the history of F1S values (newest first, at
most 64, 0.1 ppb), the whole seconds in the present DISQ or SOAK state, whether it was disqualified by
ACQ_FAIL, the rank its last ESMC PDU gives, and the run of good PPS periods of a pair. -/
structure Cand where
  hist     : List Int := []
  secs     : Nat := 0
  acqFail  : Bool := false
  esmcRank : Nat := 0
  ppsRun   : Nat := 0
  deriving DecidableEq, Repr

/-- Fantail beside REFSEL: the candidates, the selector's state before DECIDE, the holdover history (oldest
first, at most 66, 0.01 ppb), the mean of the last second with an input, whether the output rank has
changed since the last event PDU, and whether a power state holds the selector (R76, R77); of the REFMON second under way,
whether it began after APPLY (R62), whether the roots have had an input since it began (R81), whether the selector has been
in HOLDOVER since it began, and which times shown in whole seconds began in it (0 the debug lease, u the WTR of unit u). -/
structure Refsel where
  cands     : Tab Cand := []
  before    : Nat := 0
  hist      : List Int := []
  lastSec   : Option Int := none
  qlChanged : Bool := false
  held      : Bool := false
  began     : Bool := false
  inWhole   : Bool := false
  hoWhole   : Bool := false
  fresh     : List Nat := []
  deriving DecidableEq, Repr

/-- One root synthesizer beside SYN.ROOT_STATUS: the DCO frequency word and the loop's target as offsets from
nominal in 2^-44 of nominal (R85), the bands tried since it entered BAND_SEL (one bit each), and the centre in kHz of the
band it holds (R87). -/
structure Root where
  dco    : Int := 0
  target : Int := 0
  tried  : Nat := 0
  centre : Nat := 20625000
  deriving DecidableEq, Repr

/-- One output synthesizer: the FRAC in use, the second S chosen for its alignment, whether the alignment
instant has passed, the run of comparisons within 10 ps, and whether its outputs wait for their first edge. -/
structure Os where
  frac   : Nat := 0
  second : Nat := 0
  placed : Bool := false
  inRun  : Nat := 0
  start  : Bool := false
  deriving DecidableEq, Repr

/-- One clock output: whether it has had its first aligned edge (R95), and the second its divider last
restarted at. -/
structure Cko where
  edge    : Bool := false
  restart : Option Nat := none
  deriving DecidableEq, Repr

/-- Synthesis: the roots, the state the selector drives them to (2 FREE, 3 REF, 4 HOLD), the holdover
frequency as a DCO word, the standby's trim (0.05 ps) and its run of good measurements, whether the image's
band table is loaded (R87), the output synthesizers, the clock outputs and the second of a pending SYNC_IN
restart. -/
structure Syn where
  roots    : Tab Root := []
  conn     : Nat := 2
  holdWord : Int := 0
  trim     : Int := 0
  goodRun  : Nat := 0
  imgBands : Bool := false
  oss      : Tab Os := []
  ckos     : Tab Cko := []
  sync     : Option Nat := none
  deriving DecidableEq, Repr

/-- One pulse generator beside TS.PGp: the index of its next pulse, whether a pulse's rising edge has been
placed and its falling edge has not, the time of that rising edge, the WIDTH it has and its place in its cycle (2^-16 ns /
100 000), whether it began before HELD, and whether a DISARM waits for the falling edge (Table TS-3). -/
structure PgSt where
  k      : Nat := 0
  high   : Bool := false
  rise   : Nat := 0
  width  : Nat := 0
  rem    : Int := 0
  loose  : Bool := false
  disarm : Bool := false
  deriving DecidableEq, Repr

/-- One entry of a transmit time-stamp queue (R210): its time in 2^-16 ns. -/
structure TxEnt where
  id    : Nat
  tb    : Nat
  t     : Nat
  valid : Bool
  bad   : Bool
  deriving DecidableEq, Repr

/-- One entry of a capture queue (R220, R223): its time in 2^-16 ns, its window if it has one, INHIGH. -/
structure CapEnt where
  tb     : Nat
  t      : Nat
  valid  : Bool
  window : Option Nat
  inHigh : Bool
  rising : Bool
  deriving DecidableEq, Repr

/-- Pulse generators, transmit and capture queues (oldest entry first), and the sampler time of each capture
input's last stamped edge (2^-16 ns / 100 000), and the reading at which each base's PPS latch stamped last (2^-16 ns). -/
structure Pul where
  pgs  : Tab PgSt := []
  txq  : Tab (List TxEnt) := []
  cap  : Tab (List CapEnt) := []
  last : Tab (Option Nat) := []
  lastPps : Tab (Option Nat) := []
  deriving DecidableEq, Repr

/-- A Gleaning record that is due (R352): the K9 cycle and the egress that order it, the frame it describes while that is inside
(0 else), and its bytes once the frame has left, TAG_SEQ apart. -/
structure TagDue where
  k9     : Nat := 0
  egress : Nat := 255
  id     : Nat := 0
  bytes  : List Byte := []
  deriving DecidableEq, Repr

/-- The stuffing reserves of a quad for the level of Table PM-1 (R344): the lanes whose last report had an empty reserve, those that have
reported in this round, and the cycles counted in it. -/
structure Dry where
  lanes   : List Nat := []
  seen    : List Nat := []
  counted : Nat := 0
  deriving DecidableEq, Repr

/-- Performance counting beside PMON: the LFSR, the last TAG_SEQ, the records due (oldest first), the tag buffer, the two banks of byte totals (256 × window parity + 2 × destination, + 1 for TX), the
window whose bank closes next, the level events that are high, the dry reserves by quad, the PMON record in force (R348), and the cycles of
K6 and K7 since the last write of BW_CFG, 1 290 for 2 µs and more (R357). -/
structure Pmon where
  lfsr   : Nat := 1
  tagSeq : Nat := 0
  due    : List TagDue := []
  slots  : Tab (List Byte) := []
  banks  : Tab Nat := []
  next   : Option Nat := none
  high   : List Nat := []
  dry    : Tab Dry := []
  record : List Byte := []
  bwAge  : Nat := 1290
  deriving DecidableEq, Repr

/-- A frame inside the device: its bytes as received so far, from destination address to FCS, and its
descriptor (Tables TB-6, SW-1). `stage`: 0 waiting for its first pass, 1 between its passes, 2 decided.
`counted`: its epoch counts it (R272). `copies`: the egresses it has still to leave by. `note`: the notification its sighting posted. `wire`: bytes of
its copies already handed to a Leat lane. `lost`: an allocation failed, or a cell cannot be read; whether it ends good or bad is apart
from that (R268, R284). `late`: the time from its ingress time-stamp point to its entry, 2^-16 ns (R300). The last fields are those of a tagged frame (Table PM-4): among
them the egresses at which it was released past a gap or held by a fence, and the K2 cycle in which its first copy started. -/
structure Frame where
  ingress : Nat := 0
  iclass  : Nat := 0
  seq     : Nat := 0
  fgen    : Nat := 0
  stamp   : Nat := 0
  time    : Nat := 0
  tb      : Nat := 0
  len     : Nat := 0
  bytes   : List Byte := []
  ended   : Bool := false
  bad     : Bool := false
  badFcs  : Bool := false
  lost    : Bool := false
  host    : Bool := false
  tsReq   : Bool := false
  tsId    : Nat := 0
  onestep : Bool := false
  vid     : Nat := 0
  da      : Nat := 0
  sa      : Nat := 0
  etype   : Nat := 0
  tci     : Option Nat := none
  pri     : Nat := 0
  cycle   : Nat := 0
  late    : Int := 0
  stage   : Nat := 0
  passes  : Nat := 0
  recirc  : Bool := false
  level2  : Bool := false
  epoch   : Nat := 0
  counted : Bool := false
  hash    : Nat := 0
  action  : Nat := 0
  dest    : Nat := 0
  outVid  : Nat := 0
  tc      : Nat := 0
  trailer : Bool := false
  flf     : Bool := false
  copies  : List Nat := []
  left    : Bool := false
  shared  : Nat := 0
  head    : Nat := 0
  cells   : List Nat := []
  trapped : Bool := false
  note    : List Byte := []
  tagged  : Bool := false
  stages  : List Nat := []
  rels    : List (Nat × Nat) := []
  egress  : Nat := 255
  gflags  : Nat := 0
  gapAt   : List Nat := []
  fenceAt : List Nat := []
  startAt : Nat := 0
  stage8  : Int := 0
  deriving DecidableEq, Repr

/-- An entry of the pending-learn CAM (R264). Entries stand in order of creation. -/
structure Cam where
  vid      : Nat
  mac      : Nat
  port     : Nat
  stamp    : Nat
  frame    : Nat
  nseq     : Nat
  conflict : Bool
  second   : Nat
  nseq2    : Nat
  deriving DecidableEq, Repr

/-- A table command in the on-chip queue: its 32 bytes, its CMD_IDX, and whether ring 1 brought it. -/
structure TcqCmd where
  bytes : List Byte
  idx   : Nat
  dma   : Bool
  deriving DecidableEq, Repr

/-- The forwarding tables (entries as numbers, by slot: FDB bank × 131 072 + bucket × 4 + way, flow bank × 32 768
+ bucket × 4 + way, VLAN by VID), the parity bits beside them (4 × slot + table), the static shadow (item number: kind 0 VLAN, 1 FDB, 2 flow; VID; entry), the
learn queue and CAM, the command queue, the frames per epoch, the outstanding fence targets, and the slots (table, slot) that wait to be
cleared where the write is held off (R252). -/
structure Tbl where
  fdb    : Tab Nat := []
  flow   : Tab Nat := []
  vlan   : Tab Nat := []
  par    : Tab Nat := []
  shadow : Tab (Nat × Nat × Nat) := []
  items  : Nat := 0
  audit  : Nat := 0
  bucket : Nat := 0
  lnq    : List (List Byte) := []
  cam    : List Cam := []
  tcq    : List TcqCmd := []
  pushes : Nat := 0
  counts : Tab Nat := []
  fences : List Nat := []
  scrub  : List (Nat × Nat) := []
  deriving DecidableEq, Repr

/-- The switch core: its K2 cycle count since full reset, the frames by number, the frame arriving at each
destination, or where that one is gone before its end the notification it posted, the frames waiting for a first pass per lane and between passes per pipeline, the lane each
pipeline served last, SEQ and fence generation per stream (8 × ingress + class), the frames held per egress and
the frames still to arrive there that a release past a gap overtook, the output queues (8 × egress + class), the frame leaving each egress with its egress stamp on the egress base
and on the base of its ingress stamp, whether the egress base was VALID then, and the bytes charged for it, the egresses whose present copy started before its LEN was known
(R137), what the buffer's cells hold besides the bytes of the frames in them (256 bytes, zero where not listed), the classes whose PFC state is to be sent per port, DWRR
deficits and turn, shaper balances (bytes / 20 625) with the cycle they stand for, the shared and headroom cells
of each stream, the streams in HELD, the fixed-latency frames due per egress, the frames for the host with their
reason, and the pairs whose revert still drains the secondary. -/
structure Fab where
  cyc     : Nat := 0
  next    : Nat := 1
  frames  : Tab Frame := []
  arrive  : Tab Nat := []
  cut     : Tab (Option (List Byte)) := []
  wait    : Tab (List Nat) := []
  later   : Tab (List Nat) := []
  turn    : Tab Nat := []
  seqs    : Tab Nat := []
  fgs     : Tab Nat := []
  held    : Tab (List Nat) := []
  gaps    : Tab (List Nat) := []
  queues  : Tab (List Nat) := []
  sending : Tab Nat := []
  txTime  : Tab Nat := []
  txIn    : Tab Nat := []
  txValid : Tab Bool := []
  charged : Tab Nat := []
  blind   : List Nat := []
  cellMem : Tab (List Byte) := []
  pfc     : Tab Nat := []
  deficit : Tab Int := []
  drr     : Tab Nat := []
  balance : Tab Int := []
  balAt   : Tab Nat := []
  shared  : Tab Nat := []
  head    : Tab Nat := []
  xoff    : List Nat := []
  flf     : Tab (List Nat) := []
  hostq   : List (Nat × Nat) := []
  revert  : List Nat := []
  deriving DecidableEq, Repr

/-- A marker's stamp (R187): its base, its time, whether the base held a valid time, the timing frames sent since, while the
beat period in which the marker arrived has not ended, what completes it (R184): the base's time at the report, the recovered
cycle less the local one, and the bit; the counts of re-anchors and of entries to LOCK at a received marker, and the count of cycles
(`Tt.now`) then. -/
structure Stamp where
  tb    : Nat
  t     : Nat
  valid : Bool
  age   : Nat := 0
  part  : Option (Nat × Int × Nat) := none
  agen  : Nat := 0
  lgen  : Nat := 0
  now   : Nat := 0
  deriving DecidableEq, Repr

/-- An exchange mark of a Tentering engine (R190): its sequence number once known, the TF_COUNT of its timing
frame, the engine's own stamp of it, the partner's stamp of it once
known, what the partner's frame said with that (VALID, SOURCE, HOPS, GM_ID, COMPACT), whether an audit failure or
an entry to LOCK discarded the stamp, whether its exchange is over (a pair used it, or none formed), and the counts of re-anchors and of entries to
LOCK when it was stamped. -/
structure Mark where
  seq     : Option Nat := none
  tf      : Nat
  st      : Stamp
  other   : Option Nat := none
  valid   : Bool := false
  source  : Bool := false
  hops    : Nat := 0
  gm      : List Byte := []
  compact : Bool := false
  audit   : Bool := false
  rate    : Bool := false
  used    : Bool := false
  agen    : Nat
  lgen    : Nat
  deriving DecidableEq, Repr

/-- One Tentering engine beside TT.LANEn: the raw phases of the averaging window in half K8 counts, newest first and
unwrapped against the present cycle map K, the beats of the present window in LOCK, the anchors (K4-rate cycle,
bit) and indexes of both directions, whether an exchange mark is due, the own exchange marks whose exchange is not over with the
newest one used, the partner's exchange marks (both oldest first), the stamp of the last timing marker received, the marks that the TX and RX fields describe, the
first pair after RUN, the last accepted rtt, the run of RTT_JUMP discards, the counts of re-anchors and of entries
to LOCK, the counts of cycles (`Tt.now`) at which the engine last left LOCK and last went from RUN to ANCHOR (R194), and whether a pair was accepted within 250 ms. -/
structure Eng where
  phis   : List Int := []
  k      : Int := 0
  lockN  : Nat := 0
  txA    : Option (Nat × Nat) := none
  txIdx  : Nat := 0
  rxA    : Option (Nat × Nat) := none
  rxIdx  : Nat := 0
  due    : Bool := false
  own    : List Mark := []
  inb    : List Mark := []
  rxLast : Option Stamp := none
  txF    : Option Mark := none
  rxF    : Option Mark := none
  first  : Bool := true
  rtt    : Option Int := none
  jumps  : List Int := []
  agen   : Nat := 0
  lgen   : Nat := 0
  lockAt : Option Nat := none
  ancAt  : Option Nat := none
  fresh  : Bool := false
  deriving DecidableEq, Repr

/-- Time transfer: the engines by lane, the grandmaster identity a base took from its last accepted pair, and the cycles of K6 and K7
counted since reset, to tell how long ago something was (R194). -/
structure Tt where
  eng : Tab Eng := []
  gm  : Tab (List Byte) := []
  now : Nat := 0
  deriving DecidableEq, Repr

/-- The reader of a received frame stream (R112): 0 outside a frame, 1 in the length and class bytes, 2 in the frame, 3 at
the terminator, 4 dropping bytes up to the next START that an FPTR names; the bytes of that part still to come, LEN,
the framing errors, and the places in the superblock's stream of the first bytes of the frames that began in it. -/
structure RxSt where
  phase : Nat := 0
  need  : Nat := 0
  len   : Nat := 0
  err   : Nat := 0
  das   : List Nat := []
  deriving DecidableEq, Repr

/-- One lane beside LANEn: the MSN of the next superblock sent, the scrambler's last 58 bits, the run of the
stuffing procedure (count, value), the stuff bits since the last marker sent, the frame in progress on the frame
stream and the frames behind it, whether the copy leaving is on the stream already, the bytes of it that are there while it is
not whole, the phase of quiet (R124: 0
sending, 1 entry wanted, 2 quiet, 3 exit asked, 4 exit burst under way, 5 timer wake asked, 6 timer burst under way, 7 and 8 the same
behind the superblock boundary that lies inside the burst, so that the next one ends it), the
timing frames sent since DOWN; on receive the descrambler's last 58 bits, the destuffing run, the stuff bits and the
error flag of the superblock before, the last MSN, the runs of good and of bad markers, of good timing frames with
RX_OK 1 and 0, the timing superblocks without a good frame, the positions tried, the partner's FILL_ON, the run of
equal QL fields, the superblocks since a word matched (2 for more), the receive stamps of the frames that have begun on the line
and not yet been taken, none of a frame where no engine locates its superblock's marker (R206), the marker and fill errors of the health window and whether it has been whole in UP; the states
of the PRBS generator and checker; whether a HOLD command holds the lane; the reader of the received frame stream; and the
extensions with a bad CHK (R111). -/
structure LaneSt where
  msn      : Nat := 0
  scr      : Nat := 0
  txRun    : Nat × Bool := (0, false)
  txStuff  : Nat := 0
  cur      : List Byte := []
  queue    : List (List Byte) := []
  early    : Bool := false
  fed      : Nat := 0
  quiet    : Nat := 0
  tfCount  : Nat := 0
  dscr     : Nat := 0
  rxRun    : Nat × Bool := (0, false)
  rxStuff  : Nat := 0
  rxErr    : Bool := false
  rxMsn    : Nat := 0
  good     : Nat := 0
  badRun   : Nat := 0
  okRun    : Nat := 0
  noRun    : Nat := 0
  missed   : Nat := 0
  tried    : Nat := 0
  fillOn   : Bool := false
  qlRun    : Nat × Nat := (0, 0)
  seen     : Nat := 2
  rxDa     : List (Option Nat) := []
  markWin  : Nat := 0
  fillWin  : Nat := 0
  whole    : Bool := false
  gen      : Nat := 0
  chk      : Nat := 0
  hostHeld : Bool := false
  rx       : RxSt := {}
  extBad   : Nat := 0
  deriving DecidableEq, Repr

/-- One port beside PORTn: the pause time of each class in quanta as last received (R141), whether it sends remote fault while it
has no lock (Table EP-3), the deskew of its first lane in UI (R146), and the frames of its own that wait for it to be free (R142). -/
structure PortSt where
  pause  : Tab Nat := []
  rfault : Bool := false
  deskew : Nat := 0
  own    : List (List Byte) := []
  deriving DecidableEq, Repr

/-- Dressing beside CAL: each sensor's reading when the run started and the lowest and highest since, the readings
in a row beyond ΔT (5 where they have triggered), the readings at the last abort, the values measured so far, the domains that were on at
PRECHECK, the triggers held (cause, sensor; oldest first), whether the run is the start-up run and whether the commit is a
RESTORE, the second of CAL_TB chosen for the commit, whether CAL_REF_CLK is lost, whether a CAL_REF_PPS edge fell within 1.5 s,
whether one had when the run began, and whether one was ever seen, the coarse and fine taps now in use
of each clock output, and the nominal values of the CALIBRATION record. -/
structure Dress where
  tStart  : Tab Int := []
  tMin    : Tab Int := []
  tMax    : Tab Int := []
  cross   : Tab Nat := []
  tAbort  : Tab Int := []
  newV    : Tab (Option Int) := []
  domains : Nat := 0
  held    : List (Nat × Nat) := []
  startup : Bool := false
  restore : Bool := false
  second  : Nat := 0
  clkLost : Bool := true
  ppsSeen : Bool := false
  ppsHad  : Bool := false
  ppsEver : Bool := false
  taps    : Tab (Nat × Nat) := []
  nominal : Tab (Option Int) := []
  deriving DecidableEq, Repr

/-- The state of the device. -/
structure State where
  /-- the register file: fields by key 32 × address + low bit; an unlisted field reads its reset value -/
  regs : Tab Nat := []
  /-- the 48-bit counters by the address of their _LO word (R129) -/
  cnt48 : Tab Nat := []
  /-- what the device has sent, newest first -/
  out : List Out := []
  /-- counts the free values drawn so far (the model's own) -/
  free : Nat := 0
  /-- input pins as last seen -/
  pins : Pins := {}
  /-- the XO check -/
  xo : XoCheck := {}
  /-- SEL and WINDOW of the frequency measurement under way -/
  fmeter : Option (Nat × Nat) := none
  /-- start-up -/
  boot : Boot := {}
  /-- the MRAM journal: the 32 bytes of each written slot -/
  journal : Tab (List Byte) := []
  /-- journal records waiting to be written (R340) -/
  jrnlQ : List JRec := []
  /-- the OTP fuses -/
  otp : Otp := {}
  /-- life cycle, mailbox and JTAG -/
  sec : Sec := {}
  /-- the power controller -/
  pwr : Pwr := {}
  /-- the report lines of the fault sources -/
  lines : Tab FltLine := []
  /-- the fault collector -/
  flt : Flt := {}
  /-- the time bases: base n of timekeeper k at 8 k + n -/
  tbs : Tab TBase := []
  /-- the host interface beside HIF -/
  hif : Hif := {}
  /-- Fantail -/
  refsel : Refsel := {}
  /-- the cross-link and the cancelled reference step -/
  xc : Xc := {}
  /-- the root and output synthesizers and the clock outputs -/
  syn : Syn := {}
  /-- the pulse generators and the time-stamp queues -/
  pul : Pul := {}
  /-- performance counters, Gleaning and bandwidth windows -/
  pmon : Pmon := {}
  /-- the forwarding tables and learning -/
  tbl : Tbl := {}
  /-- the switch core -/
  fab : Fab := {}
  /-- the Tentering engines -/
  tt : Tt := {}
  /-- the lanes -/
  lan : Tab LaneSt := []
  /-- the Ethernet ports -/
  prt : Tab PortSt := []
  /-- Dressing -/
  dress : Dress := {}
  /-- the commands waiting, first in first out -/
  pending : List Instr := []
  deriving DecidableEq, Repr

/-- The device right after reset: every register field at the value of its field table, every memory
wiped, nothing waiting (R58). The fuses and the journal are those of a part that has never been started. -/
def State.reset : State := {}

end Sys2Proof.Machine
end

