-- ==== Sys2Proof/Machine/Ops.lean ====
section
/-! DEFINITION. Named operations over the state: reading and writing fields, counters, free values,
outputs, time stamps, journal records, and reporting to the fault collector. -/
namespace Sys2Proof.Machine

/-- The outcome of a command. -/
abbrev Res := Host.Outcome State Fault Refusal

/-! ## Fields -/

/-- The place of a field in the register file. -/
def Fld.key (f : Fld) : Nat := 32 * f.addr + f.lo

/-- The value of field `f`. -/
def State.rd (s : State) (f : Fld) : Nat := Tab.get s.regs f.key f.reset

/-- Field `f` set to `v`, narrowed to its width. -/
def State.wr (s : State) (f : Fld) (v : Nat) : State :=
  { s with regs := Tab.set s.regs f.key (v % 2 ^ f.width) f.reset }

/-- Several fields set, in order. -/
def State.wrs (s : State) : List (Fld × Nat) → State
  | [] => s
  | (f, v) :: l => State.wrs (s.wr f v) l

/-- Field `f` is not zero. -/
def State.on (s : State) (f : Fld) : Bool := s.rd f != 0

/-- A saturating counter field goes up by `k`. -/
def State.bumpBy (s : State) (f : Fld) (k : Nat) : State := s.wr f (satAdd f.width (s.rd f) k)

/-- A saturating counter field goes up by one. -/
def State.bump (s : State) (f : Fld) : State := s.bumpBy f 1

/-- A wrapping counter field goes up by one (generation counters, R8). -/
def State.bumpWrap (s : State) (f : Fld) : State := s.wr f (wrapAdd f.width (s.rd f) 1)

/-- Bit `i` of field `f` set to `b`. -/
def State.wrBit (s : State) (f : Fld) (i : Nat) (b : Bool) : State := s.wr f (setBit (s.rd f) i b)

/-- A time of `v` seconds starts: field `f` shows it, and timer `i` (0 the debug lease, u the WTR of unit u) loses nothing at the end
of the REFMON second under way, at which the time remaining still rounds up to `v` (R318, R370). -/
def State.startSeconds (s : State) (f : Fld) (i v : Nat) : State :=
  { s with refsel := { s.refsel with fresh := i :: s.refsel.fresh.erase i } }.wr f v

/-- Field `f` back at its reset value. -/
def State.clr (s : State) (f : Fld) : State := s.wr f f.reset

/-- Fields back at their reset values. -/
def State.clrs (s : State) : List Fld → State
  | [] => s
  | f :: l => State.clrs (s.clr f) l

/-- The value of the 48-bit counter whose _LO word is field `lo`. -/
def State.c48 (s : State) (lo : Fld) : Nat := Tab.get s.cnt48 lo.addr 0

/-- A 48-bit counter goes up by `k`, saturating at 2^48 - 1 (R129, R347). -/
def State.bump48 (s : State) (lo : Fld) (k : Nat) : State :=
  { s with cnt48 := Tab.set s.cnt48 lo.addr (satAdd 48 (s.c48 lo) k) 0 }

/-- A read of a multi-word value through path `p` (0 PCIe, 1 SMI, 2 JTAG) latches its other words for that
path (R394). -/
def State.latch (s : State) (p : Nat) : List (Fld × Nat) → State
  | [] => s
  | (f, v) :: l =>
    State.latch { s with hif := { s.hif with latch := Tab.set s.hif.latch (4 * f.key + p) (v % 2 ^ f.width) 0 } } p l

/-- A 48-bit counter at zero. -/
def State.zero48 (s : State) (lo : Fld) : State := { s with cnt48 := Tab.set s.cnt48 lo.addr 0 0 }

/-- An update done only where `c` holds. -/
def State.when (s : State) (c : Bool) (f : State → State) : State := if c then f s else s

/-- An update done for each element of a list, in order. -/
def State.each {α : Type} (s : State) (l : List α) (f : State → α → State) : State := l.foldl f s

/-- A signed value of `w` bits read as an integer (two's complement). -/
def sgn (w n : Nat) : Int := if n % 2 ^ w < 2 ^ (w - 1) then (n % 2 ^ w : Nat) else (n % 2 ^ w : Nat) - (2 ^ w : Nat)

/-- An integer as the `w` bits of a signed field (two's complement, wrapping). -/
def enc (w : Nat) (i : Int) : Nat := (i % (2 ^ w : Nat)).toNat

/-- An integer clipped to the range of a signed field of `w` bits, as its bits. -/
def encSat (w : Nat) (i : Int) : Nat :=
  if i ≥ (2 ^ (w - 1) : Nat) then 2 ^ (w - 1) - 1
  else if i < -((2 ^ (w - 1) : Nat) : Int) then 2 ^ (w - 1) else enc w i

/-- The value of a signed field. -/
def State.rdS (s : State) (f : Fld) : Int := sgn f.width (s.rd f)

/-- The quotient of `n` by `d`, rounded to the nearest whole number, halves to even (R423). -/
def roundDiv (n : Int) (d : Nat) : Int :=
  let q := n / (d : Int)
  let r := n % (d : Int)
  if 2 * r < (d : Int) then q else if 2 * r > (d : Int) then q + 1 else if q % 2 = 0 then q else q + 1

/-- One free value is used up: the caller reads it from Config at the counter as it stood. -/
def State.draw (s : State) : State := { s with free := s.free + 1 }

/-! ## Life cycle -/

/-- The life-cycle state that fuses `lc` give: the highest blown fuse (R360). -/
def lcOf (lc : Nat) : Nat :=
  if bit lc 3 then 4 else if bit lc 2 then 3 else if bit lc 1 then 2 else if bit lc 0 then 1 else 0

/-- The life-cycle state now. -/
def State.lcState (s : State) : Nat := lcOf s.otp.lc

/-! ## Outputs, time, journal -/

/-- Something leaves the device; nothing while VDD_AON or VDD_IO is below its operating minimum: the outputs are at high impedance and the
transmitters carry no signal (R409). -/
def State.send (s : State) (o : Out) : State := { s with out := if s.pins.inRange then o :: s.out else s.out }

/-- MSI-X messages go out: MSI-X is enabled, its function mask holds none, the function is in D0, and start-up is not in HALT (R389). -/
def State.msixOn (s : State) : Bool := s.on Reg.hifStatusMsixEn && !s.hif.fnMask && !s.hif.d3 && s.rd Reg.devBootPhase != 10

/-- The MSI-X message of vector `v` (R404): sent where messages go out and no vector mask holds it, else left pending as
the PCIe rules say. -/
def State.msix (s : State) (v : Nat) : State :=
  if s.msixOn && !bit s.hif.vecMask v then s.send (.msix v)
  else { s with hif := { s.hif with pba := setBit s.hif.pba v true } }

/-- Time base `n` of timekeeper `k` (0 TK-A, 1 TK-B). -/
def State.tb (s : State) (k n : Nat) : TBase := Tab.get s.tbs (8 * k + n) {}

/-- Time base `n` of timekeeper `k` set. -/
def State.setTb (s : State) (k n : Nat) (b : TBase) : State := { s with tbs := Tab.set s.tbs (8 * k + n) b {} }

/-- The active timekeeper (R154). -/
def State.activeTk (s : State) : Nat := s.rd Reg.tkStatusActive

/-- Base `n` of the active timekeeper. -/
def State.atb (s : State) (n : Nat) : TBase := s.tb s.activeTk n

/-- Base `n` is VALID (R161), as the active timekeeper holds it. -/
def State.tbValid (s : State) (n : Nat) : Bool := (s.atb n).valid

/-- The whole seconds of a time in 2^-16 ns. -/
def tSec (t : Nat) : Nat := t / 65536000000000
/-- The nanoseconds of a time in 2^-16 ns. -/
def tNs (t : Nat) : Nat := t / 65536 % 1000000000
/-- The fraction of a nanosecond of a time in 2^-16 ns. -/
def tFrac (t : Nat) : Nat := t % 65536
/-- One second in 2^-16 ns. -/
def tSecond : Nat := 65536000000000

/-- TB0 of the active timekeeper counts as a time: start-up has reached RUN and the base is VALID
(R57, R331). -/
def State.stampValid (s : State) : Bool := s.pwr.seenRun && s.tbValid 0

/-- A journal record of type `ty` as R57 gives its common fields now: TIME is zero before RUN, and in a FAULT record while TB0 is
not VALID (R331). BOOT_COUNT is that of DEV.BOOT_COUNT, which reads its reset value 0 in a HALT before WIPE takes the count
(DESIGN CHOICE, log entry 32). -/
def State.jrec (s : State) (ty : Nat) (data : List Byte) : JRec :=
  let v := s.stampValid
  let t := if v || (ty != 2 && s.pwr.seenRun) then (s.atb 0).t else 0
  { type := ty
    flags := b2n v + 2 * s.activeTk + 4 * s.lcState
    boot := s.rd Reg.devBootCountCount
    secs := tSec t, nanos := tNs t, frac := tFrac t, data := data }

/-- A record joins the 8-record queue of journal writes, or is dropped and counted (R340). -/
def State.jwrite (s : State) (r : JRec) : State :=
  if s.jrnlQ.length < 8 then { s with jrnlQ := s.jrnlQ ++ [r] } else s.bump Reg.fltCountsJrnlDrop

/-- `n` as `k` bytes, least significant first (R13). -/
def le (k n : Nat) : List Byte := (List.range k).map fun i => BitVec.ofNat 8 (n / 256 ^ i)

/-- `n` as `k` bytes, most significant first (network order, R13). -/
def be (k n : Nat) : List Byte := (le k n).reverse

/-- Bytes read as a number, least significant first. -/
def unle : List Byte → Nat
  | [] => 0
  | b :: l => b.toNat + 256 * unle l

/-- Bytes read as a number, most significant first. -/
def unbe (l : List Byte) : Nat := l.foldl (fun n b => 256 * n + b.toNat) 0

/-- `k` bytes of `v` from offset `o`, zero past its end. -/
def slice (v : List Byte) (o k : Nat) : List Byte := (List.range k).map fun i => v.getD (o + i) 0

/-- Byte `o` of a value field. -/
def u8 (v : List Byte) (o : Nat) : Nat := (v.getD o 0).toNat
/-- Two bytes, little-endian. -/
def u16 (v : List Byte) (o : Nat) : Nat := unle (slice v o 2)
/-- Four bytes, little-endian. -/
def u32 (v : List Byte) (o : Nat) : Nat := unle (slice v o 4)
/-- Six bytes, little-endian. -/
def u48 (v : List Byte) (o : Nat) : Nat := unle (slice v o 6)
/-- Eight bytes, little-endian. -/
def u64 (v : List Byte) (o : Nat) : Nat := unle (slice v o 8)
/-- The `k` bytes from `o` are all zero. -/
def zeros (v : List Byte) (o k : Nat) : Bool := (slice v o k).all (· == 0)

/-- One bit into a CRC register of `w` bits, not reflected, polynomial `p` (R424). -/
def crcBit (w p : Nat) (c : Nat) (b : Bool) : Nat :=
  let top := bit c (w - 1) != b
  let c' := c * 2 % 2 ^ w
  if top then Nat.xor c' p else c'

/-- The bits of a byte, most significant first. -/
def msbBits (b : Byte) : List Bool := (List.range 8).map fun i => bit b.toNat (7 - i)

/-- The bits of a field of `w` bits, from its highest bit down. -/
def fieldBits (w n : Nat) : List Bool := (List.range w).map fun i => bit n (w - 1 - i)

/-- CRC-16, x^16 + x^12 + x^5 + 1, initial value 0xFFFF, not reflected, no final XOR (R424). -/
def crc16 (l : List Byte) : Nat := (l.flatMap msbBits).foldl (crcBit 16 0x1021) 0xFFFF

/-- CRC-32 of IEEE 802.3 from initial value `init`: bytes least significant bit first, reflected, final
value inverted (R424). -/
def crc32 (init : Nat) (l : List Byte) : Nat :=
  let step (c : Nat) (b : Bool) : Nat :=
    let top := bit c 0 != b
    let c' := c / 2
    if top then Nat.xor c' 0xEDB88320 else c'
  let bits := l.flatMap fun b => (msbBits b).reverse
  Nat.xor (bits.foldl step init) 0xFFFFFFFF

/-! ## Interrupts and fault reports -/

/-- Interrupt source `v` of Table HI-9 occurs: its status bit is set, and the MSI-X message goes out where
the bit was 0 and INT_MASK enables it (R404). -/
def State.intr (s : State) (v : Nat) : State :=
  let was := bit (s.rd Reg.hifIntStatusStatus) v
  let s' := s.wrBit Reg.hifIntStatusStatus v true
  if !was && bit (s.rd Reg.hifIntMaskMask) v then s'.msix v else s'

/-- The report line of source `src`. -/
def State.line (s : State) (src : Nat) : FltLine := Tab.get s.lines src {}

/-- The report line of source `src` set. -/
def State.setLine (s : State) (src : Nat) (l : FltLine) : State := { s with lines := Tab.set s.lines src l {} }

/-- A cause holds the report line of `src` at error with a syndrome (Table FL-1). The collector takes the
event in its own step (FAULT_EVENT, R328). -/
def State.report (s : State) (src synd : Nat) : State :=
  s.setLine src { s.line src with cause := true, synd := synd }

/-- The cause at source `src` ends. -/
def State.unreport (s : State) (src : Nat) : State := s.setLine src { s.line src with cause := false }

/-- RESET_N or the detector of VDD_AON holds the device in full reset (R413, R414): nothing runs that a command could reach. -/
def State.inReset (s : State) : Bool := !(s.pins.resetN && s.pins.aonGood)

/-- A fault stopped the device (R335). -/
def State.halted (s : State) : Bool := s.on Reg.fltStatusHalted

/-- A SCAN instruction has stopped clocks: until a full reset nothing is forwarded and no time output moves (R372). -/
def State.frozen (s : State) : Bool := s.sec.scanStop != 0

/-- Start-up stands in phase `p` (Table IM-11). -/
def State.inPhase (s : State) (p : Nat) : Bool := s.rd Reg.devBootPhase == p

/-- FAULT_N is driven low: a source's LEVEL is U or F, HALT_DEVICE or start-up HALT (R337); it is released while the supply is out
of range (R409). -/
def State.faultLow (s : State) : Bool :=
  s.pins.inRange && (s.halted || s.inPhase 10 || (List.range 512).any fun i => 2 ≤ s.rd (Reg.fltSrcLevel i))

/-- FATAL_N is driven low: a source's LEVEL is F, HALT_DEVICE or start-up HALT (R337, R409). -/
def State.fatalLow (s : State) : Bool :=
  s.pins.inRange && (s.halted || s.inPhase 10 || (List.range 512).any fun i => s.rd (Reg.fltSrcLevel i) == 3)

/-- Bit `i` of a mask kept as 32-bit words of a register array. -/
def State.maskBit (s : State) (f : Nat → Fld) (i : Nat) : Bool := bit (s.rd (f (i / 32))) (i % 32)

/-- Bit `i` of a mask kept as 32-bit words set to `b`. -/
def State.setMaskBit (s : State) (f : Nat → Fld) (i : Nat) (b : Bool) : State := s.wrBit (f (i / 32)) (i % 32) b

/-- LEVEL of a source set, and its bit of FLT.FAULT with it. -/
def State.setLevel (s : State) (src lvl : Nat) : State :=
  (s.wr (Reg.fltSrcLevel src) lvl).setMaskBit Reg.fltFaultMap src (decide (2 ≤ lvl))

/-- ACTIVE of a source set, and its bit of FLT.ACTIVE with it (R328). -/
def State.setActive (s : State) (src : Nat) (b : Bool) : State :=
  (s.wr (Reg.fltSrcActive src) (b2n b)).setMaskBit Reg.fltActiveMap src b

/-! ## Referee units (R313, R322) -/

/-- The state of referee unit `u` (Table RD-3). -/
def State.unit (s : State) (u : Nat) : Nat := s.rd (Reg.redUnitStatusState u)

/-- Unit `u` takes state `st`; GEN counts a change (R322). -/
def State.setUnit (s : State) (u st : Nat) : State :=
  if s.unit u = st then s else (s.wr (Reg.redUnitStatusState u) st).bumpWrap (Reg.redUnitStatusGen u)

/-- Unit `u` is started: OFF to SYNC, its heartbeat running (Table RD-2). -/
def State.unitStart (s : State) (u : Nat) : State :=
  if s.unit u = 0 then (s.wr (Reg.redUnitStatusHbOk u) 1).setUnit u 1 else s

/-- The power domain of unit `u` goes off (Table RD-2). -/
def State.unitOff (s : State) (u : Nat) : State :=
  (s.wrs [(Reg.redUnitStatusHbOk u, 0), (Reg.redUnitWtrWtrLeft u, 0)]).setUnit u 0

end Sys2Proof.Machine
end

