-- ==== Sys2Proof/Machine/Crypto.lean ====
section
/-! DEFINITION. SHA-256 and ECDSA over P-256, which R46 names (PRESUMED: computed as FIPS 180-4, FIPS 186-4 and SEC 1 give
them, outside the spec). -/
namespace Sys2Proof.Machine

/-! ## SHA-256 -/

/-- The eight working words. -/
structure Sha where
  a : Nat
  b : Nat
  c : Nat
  d : Nat
  e : Nat
  f : Nat
  g : Nat
  h : Nat
  deriving DecidableEq, Repr

/-- The round constants. -/
def shaK : List Nat :=
  [0x428a2f98, 0x71374491, 0xb5c0fbcf, 0xe9b5dba5, 0x3956c25b, 0x59f111f1, 0x923f82a4, 0xab1c5ed5] ++
  [0xd807aa98, 0x12835b01, 0x243185be, 0x550c7dc3, 0x72be5d74, 0x80deb1fe, 0x9bdc06a7, 0xc19bf174] ++
  [0xe49b69c1, 0xefbe4786, 0x0fc19dc6, 0x240ca1cc, 0x2de92c6f, 0x4a7484aa, 0x5cb0a9dc, 0x76f988da] ++
  [0x983e5152, 0xa831c66d, 0xb00327c8, 0xbf597fc7, 0xc6e00bf3, 0xd5a79147, 0x06ca6351, 0x14292967] ++
  [0x27b70a85, 0x2e1b2138, 0x4d2c6dfc, 0x53380d13, 0x650a7354, 0x766a0abb, 0x81c2c92e, 0x92722c85] ++
  [0xa2bfe8a1, 0xa81a664b, 0xc24b8b70, 0xc76c51a3, 0xd192e819, 0xd6990624, 0xf40e3585, 0x106aa070] ++
  [0x19a4c116, 0x1e376c08, 0x2748774c, 0x34b0bcb5, 0x391c0cb3, 0x4ed8aa4a, 0x5b9cca4f, 0x682e6ff3] ++
  [0x748f82ee, 0x78a5636f, 0x84c87814, 0x8cc70208, 0x90befffa, 0xa4506ceb, 0xbef9a3f7, 0xc67178f2]

/-- The initial hash value. -/
def shaInit : Sha := ⟨0x6a09e667, 0xbb67ae85, 0x3c6ef372, 0xa54ff53a, 0x510e527f, 0x9b05688c, 0x1f83d9ab, 0x5be0cd19⟩

/-- A 32-bit word rotated right. -/
def rotr (n x : Nat) : Nat := (x / 2 ^ n + x * 2 ^ (32 - n)) % 2 ^ 32

/-- One round with constant `k` and word `w`. -/
def Sha.round (x : Sha) (k w : Nat) : Sha :=
  let s1 := Nat.xor (Nat.xor (rotr 6 x.e) (rotr 11 x.e)) (rotr 25 x.e)
  let ch := Nat.xor (Nat.land x.e x.f) (Nat.land (2 ^ 32 - 1 - x.e) x.g)
  let t1 := x.h + s1 + ch + k + w
  let s0 := Nat.xor (Nat.xor (rotr 2 x.a) (rotr 13 x.a)) (rotr 22 x.a)
  let maj := Nat.xor (Nat.xor (Nat.land x.a x.b) (Nat.land x.a x.c)) (Nat.land x.b x.c)
  ⟨(t1 + s0 + maj) % 2 ^ 32, x.a, x.b, x.c, (x.d + t1) % 2 ^ 32, x.e, x.f, x.g⟩

/-- The next word of the message schedule, from the last sixteen. -/
def shaNext (w : List Nat) : Nat :=
  let p := w.getD 1 0
  let q := w.getD 14 0
  let s0 := Nat.xor (Nat.xor (rotr 7 p) (rotr 18 p)) (p / 2 ^ 3)
  let s1 := Nat.xor (Nat.xor (rotr 17 q) (rotr 19 q)) (q / 2 ^ 10)
  (w.getD 0 0 + s0 + w.getD 9 0 + s1) % 2 ^ 32

/-- One block of sixteen words taken into the hash value. -/
def Sha.block (x : Sha) (w : List Nat) : Sha :=
  let y := (shaK.foldl (fun (s : Sha × List Nat) k =>
    (s.1.round k (s.2.getD 0 0), s.2.drop 1 ++ [shaNext s.2])) (x, w)).1
  let add (p q : Nat) : Nat := (p + q) % 2 ^ 32
  ⟨add x.a y.a, add x.b y.b, add x.c y.c, add x.d y.d, add x.e y.e, add x.f y.f, add x.g y.g, add x.h y.h⟩

/-- The padded message. -/
def shaPad (m : List Byte) : List Byte :=
  m ++ [0x80] ++ List.replicate ((119 - m.length % 64) % 64) 0 ++ be 8 (8 * m.length)

/-- `n` blocks of a padded message. -/
def shaBlocks : Nat → List Byte → Sha → Sha
  | 0, _, x => x
  | n + 1, m, x => shaBlocks n (m.drop 64) (x.block ((List.range 16).map fun i => unbe (slice m (4 * i) 4)))

/-- SHA-256 of a message, as a number of 256 bits. -/
def sha256 (m : List Byte) : Nat :=
  let p := shaPad m
  let x := shaBlocks (p.length / 64) p shaInit
  [x.a, x.b, x.c, x.d, x.e, x.f, x.g, x.h].foldl (fun n w => n * 2 ^ 32 + w) 0

/-! ## ECDSA over P-256 -/

/-- The field prime. -/
def ecP : Nat := 2 ^ 256 - 2 ^ 224 + 2 ^ 192 + 2 ^ 96 - 1
/-- The order of the base point. -/
def ecN : Nat := 0xffffffff00000000ffffffffffffffffbce6faada7179e84f3b9cac2fc632551
/-- The coefficient b of the curve y² = x³ - 3x + b. -/
def ecB : Nat := 0x5ac635d8aa3a93e7b3ebbd55769886bc651d06b0cc53b0f63bce3c3e27d2604b
/-- The base point. -/
def ecGx : Nat := 0x6b17d1f2e12c4247f8bce6e563a440f277037d812deb33a0f4a13945d898c296
/-- The base point's y. -/
def ecGy : Nat := 0x4fe342e2fe1a7f9b8ee7eb4a7c0f9e162bce33576b315ececbb6406837bf51f5

/-- `b ^ e` modulo `m`, for `e` below 2^256. -/
def powMod (m b e : Nat) : Nat :=
  (fieldBits 256 e).foldl (fun r x => let r := r * r % m; if x then r * b % m else r) 1

/-- Subtraction in the field. -/
def fsub (a b : Nat) : Nat := (a + (ecP - b % ecP)) % ecP

/-- A point in Jacobian coordinates; Z = 0 is the point at infinity. -/
structure EcPoint where
  x : Nat
  y : Nat
  z : Nat
  deriving DecidableEq, Repr

/-- A point doubled. -/
def EcPoint.dbl (p : EcPoint) : EcPoint :=
  let d := p.z * p.z % ecP
  let g := p.y * p.y % ecP
  let b := p.x * g % ecP
  let a := 3 * fsub p.x d * (p.x + d) % ecP
  let x := fsub (a * a) (8 * b)
  ⟨x, fsub (a * fsub (4 * b) x) (8 * g * g), 2 * p.y * p.z % ecP⟩

/-- The sum of two points. -/
def EcPoint.add (p q : EcPoint) : EcPoint :=
  if p.z = 0 then q
  else if q.z = 0 then p
  else
    let zp := p.z * p.z % ecP
    let zq := q.z * q.z % ecP
    let u := p.x * zq % ecP
    let s := p.y * q.z * zq % ecP
    let h := fsub (q.x * zp) u
    let r := fsub (q.y * p.z * zp) s
    if h = 0 then (if r = 0 then p.dbl else ⟨1, 1, 0⟩)
    else
      let hh := h * h % ecP
      let v := u * hh % ecP
      let x := fsub (fsub (r * r) (h * hh)) (2 * v)
      ⟨x, fsub (r * fsub v x) (s * h * hh), h * p.z * q.z % ecP⟩

/-- The multiple `k` of a point. -/
def EcPoint.mul (p : EcPoint) (k : Nat) : EcPoint :=
  (fieldBits 256 k).foldl (fun a b => let a := a.dbl; if b then a.add p else a) ⟨1, 1, 0⟩

/-- Signature (r, s) of message hash `h` verifies with public key (x, y). -/
def ecdsaVerify (h x y r s : Nat) : Bool :=
  let onCurve := decide (x < ecP) && decide (y < ecP) && y * y % ecP == fsub (x * x * x + ecB) (3 * x)
  let w := powMod ecN s (ecN - 2)
  let a := ((EcPoint.mk ecGx ecGy 1).mul (h * w % ecN)).add ((EcPoint.mk x y 1).mul (r * w % ecN))
  let i := powMod ecP (a.z * a.z % ecP) (ecP - 2)
  onCurve && decide (0 < r) && decide (r < ecN) && decide (0 < s) && decide (s < ecN) && a.z != 0
    && a.x * i % ecP % ecN == r

end Sys2Proof.Machine
end

