-- ==== Sys2Proof/Machine/Pmon.lean ====
section
/-! DEFINITION. Performance counters, Gleaning and bandwidth windows (15_performance_counters). -/
namespace Sys2Proof.Machine

/-! ## Programmable counters -/

/-- Counter `i` adds `k`, saturating at 2^48 - 1 with SAT (R344). -/
def State.cntAdd (s : State) (i k : Nat) : State :=
  let s := s.bump48 (Reg.pmonCntLoCount i) k
  s.when (s.c48 (Reg.pmonCntLoCount i) == 2 ^ 48 - 1) fun s => s.wr (Reg.pmonCntCfgSat i) 1

/-- Event `id` is defined by Table PM-1 (R345). -/
def evDefined (id : Nat) : Bool :=
  if id < 0x020 then decide (id % 32 ≤ 15)
  else if id < 0x060 then decide ((id - 0x020) % 16 ≤ 12)
  else if id < 0x080 then decide (id - 0x060 ≤ 9)
  else if id < 0x200 then true
  else if id < 0x240 then decide (id % 8 ≤ 5)
  else if id < 0x280 then decide (id % 8 ≤ 5)
  else decide (id ≤ 0x283)

/-- `k` occurrences of event `id`: every enabled counter that counts it adds them. A pulse is one cycle of its
domain, so EDGE and HIGH count it alike. -/
def State.evN (s : State) (id k : Nat) : State :=
  s.each (List.range 48) fun s i =>
    if s.on (Reg.pmonCntCfgEnable i) && s.rd (Reg.pmonCntCfgEvent i) == id && evDefined id then s.cntAdd i k else s

/-- One occurrence of event `id`. -/
def State.ev (s : State) (id : Nat) : State := s.evN id 1

/-- The counters of level event `id`: EDGE counts a `rise`, HIGH the `cycles` of its domain (R344). -/
def State.evHigh (s : State) (id : Nat) (rise : Bool) (cycles : Nat) : State :=
  s.each (List.range 48) fun s i =>
    if s.on (Reg.pmonCntCfgEnable i) && s.rd (Reg.pmonCntCfgEvent i) == id then
      (if s.on (Reg.pmonCntCfgHigh i) then s.cntAdd i cycles else if rise then s.cntAdd i 1 else s)
    else s

/-- A level event `id` over `cycles` of its domain: EDGE counts its rise, HIGH its cycles (R344). -/
def State.evLevel (s : State) (id : Nat) (now : Bool) (cycles : Nat) : State :=
  let was := s.pmon.high.contains id
  let s := if now == was then s
    else { s with pmon := { s.pmon with high := if now then id :: s.pmon.high else s.pmon.high.filter (· != id) } }
  if !now then s else s.evHigh id (!was) cycles

/-- Lane `n` reports `k` word-clock cycles in which its reserve was empty with a frame waiting: the level of its quad is high while that of
one of its lanes is (Table PM-1). The operands do not place the cycles: those of lanes that report in one round are taken as the same
ones as far as they go, and the level stands from a lane's report to its next (DESIGN CHOICE, log entry 71). -/
def State.quadDry (s : State) (n k : Nat) : State :=
  let q := n / 4
  let x := Tab.get s.pmon.dry q {}
  let x := if x.seen.contains n then { x with seen := [], counted := 0 } else x
  let d := if k = 0 then x.lanes.erase n else if x.lanes.contains n then x.lanes else n :: x.lanes
  let t := { s with pmon := { s.pmon with dry := Tab.set s.pmon.dry q { lanes := d, seen := n :: x.seen, counted := max x.counted k } {} } }
  if k = 0 then t else t.evHigh (0x083 + 4 * q) (x.lanes == []) (k - x.counted)

/-- Counter `i` at zero, SAT clear. -/
def State.cntZero (s : State) (i : Nat) : State := (s.zero48 (Reg.pmonCntLoCount i)).wr (Reg.pmonCntCfgSat i) 0

/-- A write of CNTi.CFG: a change of EVENT or HIGH, or CLEAR, zeroes the counter (R346). -/
def execPmonCntCfgWrite (i : Fin 48) (value : Word) (s : State) : Res :=
  let v := value.toNat
  let n := i.val
  let change := v % 1024 != s.rd (Reg.pmonCntCfgEvent n) || b2n (bit v 11) != s.rd (Reg.pmonCntCfgHigh n)
  let s := s.wrs [(Reg.pmonCntCfgEvent n, v), (Reg.pmonCntCfgEnable n, v / 2 ^ 10), (Reg.pmonCntCfgHigh n, v / 2 ^ 11)]
  .next (s.when (change || bit v 12) fun s => s.cntZero n)

/-- A write of CLEAR = 1 zeroes the counter and clears SAT (R346). -/
def execPmonCntClear (i : Fin 48) (s : State) : Res := .next (s.cntZero i.val)

/-! ## Fixed counters (R347) -/

/-- A good frame of `len` bytes from destination `n` with ICLASS `c` ends. -/
def State.fixedRx (s : State) (n c len : Nat) : State :=
  (s.bump48 (Reg.pmonFixed n c 0 0) 1).bump48 (Reg.pmonFixed n c 1 0) len

/-- A copy of `len` bytes completes at egress `n` with decided class `c`. -/
def State.fixedTx (s : State) (n c len : Nat) : State :=
  (s.bump48 (Reg.pmonFixed n c 2 0) 1).bump48 (Reg.pmonFixed n c 3 0) len

/-! ## Gleaning -/

/-- One step of the LFSR (R349). -/
def lfsrStep (x : Nat) : Nat := if bit x 0 then Nat.xor (x / 2) 0x80200003 else x / 2

/-- A frame from ingress `n` with ICLASS `c` is eligible for tagging (R349). -/
def State.gleanEligible (s : State) (n c : Nat) (host : Bool) : Bool :=
  s.on Reg.pmonGleanCtlRun && s.maskBit Reg.pmonTagPortMask n && bit (s.rd Reg.pmonTagTcMask) c && !host

/-- The first pass of a frame: the LFSR steps for an eligible one, which may be tagged (R349, R350). Answers
whether it is. -/
def State.gleanTag (s : State) (n c : Nat) (host : Bool) : Bool × State :=
  if !s.gleanEligible n c host then (false, s)
  else
    let x := lfsrStep s.pmon.lfsr
    let s := { s with pmon := { s.pmon with lfsr := x } }
    if x % 2 ^ s.rd Reg.pmonGleanCtlK ≠ 0 then (false, s)
    else if 64 ≤ s.rd Reg.pmonGleanStatusInside then (false, s.bump Reg.pmonGleanLossSkipped)
    else (true, s.wr Reg.pmonGleanStatusInside (s.rd Reg.pmonGleanStatusInside + 1))

/-- A tagged frame has left the device. -/
def State.gleanOut (s : State) : State := s.wr Reg.pmonGleanStatusInside (s.rd Reg.pmonGleanStatusInside - 1)

/-- The bytes of a tag record without its TAG_SEQ (Table PM-4). -/
structure TagRec where
  ingress : Nat
  egress  : Nat
  iclass  : Nat
  tc      : Nat
  flags   : Nat
  seq     : Nat
  passes  : Nat
  len     : Nat
  stage0  : Nat
  stage8  : Int
  stages  : List Nat
  deriving DecidableEq, Repr

/-- The record from byte 4 on. -/
def TagRec.bytes (r : TagRec) : List Byte :=
  le 1 r.ingress ++ le 1 r.egress ++ le 1 (r.iclass + 8 * r.tc) ++ le 1 r.flags ++ le 2 r.seq ++ le 1 r.passes
    ++ le 1 0 ++ le 2 r.len ++ le 2 0 ++ le 8 r.stage0 ++ le 8 (enc 64 (sgn 48 (enc 48 r.stage8)))
    ++ (List.range 7).flatMap (fun j => le 4 (r.stages.getD j 0)) ++ le 4 0

/-- A record becomes due: behind those due before it, among those of its K9 cycle by egress number (R352). -/
def State.tagDue (s : State) (d : TagDue) : State :=
  let first (x : TagDue) : Bool := !(x.k9 == d.k9 && decide (d.egress < x.egress))
  { s with pmon := { s.pmon with due := s.pmon.due.takeWhile first ++ d :: s.pmon.due.dropWhile first } }

/-- The unread records (R353). -/
def State.tagUnread (s : State) : Nat :=
  if s.on Reg.pmonGleanStatusFull then 1024
  else (s.rd Reg.pmonGleanStatusWrPtr + 1024 - s.rd Reg.pmonGleanRdRdPtr) % 1024

/-- A record goes into slot WR_PTR, which advances; 512 unread records are an interrupt. -/
def State.tagStore (s : State) (r : List Byte) : State :=
  let was := s.tagUnread
  let w := s.rd Reg.pmonGleanStatusWrPtr
  let q := if s.pmon.tagSeq + 1 = 2 ^ 32 then 1 else s.pmon.tagSeq + 1
  let s := { s with pmon := { s.pmon with tagSeq := q, slots := Tab.set s.pmon.slots w (le 4 q ++ r) (zeroBytes 64) } }
  let w' := (w + 1) % 1024
  let s := (s.wr Reg.pmonGleanStatusWrPtr w').bump Reg.pmonTaggedCount
  let s := s.when (was == 1023) fun s => s.wr Reg.pmonGleanStatusFull 1
  let s := s.when (was == 1024) fun s => s.wr Reg.pmonGleanRdRdPtr w'
  s.when (was == 511) fun s => s.intr 16
where
  zeroBytes (k : Nat) : List Byte := List.replicate k 0

/-- GLEAN_CTL takes K, WRAP and RUN; RUN from 0 to 1 loads the LFSR from SEED and restarts TAG_SEQ (R349). -/
def State.gleanCtl (s : State) (k wrap run : Nat) : State :=
  let start := !s.on Reg.pmonGleanCtlRun && run % 2 == 1
  let s := s.wrs [(Reg.pmonGleanCtlK, k), (Reg.pmonGleanCtlWrap, wrap), (Reg.pmonGleanCtlRun, run)]
  s.when start fun s => { s with pmon := { s.pmon with lfsr := s.rd Reg.pmonGleanSeedSeed, tagSeq := 0 } }

/-- A write of GLEAN_CTL: a K outside 4 to 24 takes the nearest limit (Table PM-6). -/
def execGleanCtlWrite (value : Word) (s : State) : Res :=
  let v := value.toNat
  .next (s.gleanCtl (max 4 (min 24 (v / 4 % 32))) (v / 2) v)

/-- RD_PTR is written: FULL clears where the pointers part (R353). -/
def State.gleanRd (s : State) (v : Nat) : State :=
  let change := v % 1024 != s.rd Reg.pmonGleanRdRdPtr
  let s := s.wr Reg.pmonGleanRdRdPtr v
  s.when change fun s => s.wr Reg.pmonGleanStatusFull 0

/-! ## Time compares (R156, R157) -/

/-- The range of a time of base `n` in 2^-16 ns: 2^48 s WIDE, 2^32 s COMPACT (R156). -/
def State.tbRange (s : State) (n : Nat) : Nat :=
  tSecond * 2 ^ (if s.on (Reg.tkTbCfgFormat n) then 32 else 48)

/-- The signed difference of two times of base `n`, 2^-16 ns (R157): the seconds fold, the rest is exact. -/
def State.tbDiff (s : State) (n : Nat) (x y : Nat) : Int :=
  let w := if s.on (Reg.tkTbCfgFormat n) then 32 else 48
  let ds := sgn w (enc w ((tSec x : Int) - tSec y))
  ds * tSecond + ((x % tSecond : Nat) - (y % tSecond : Nat) : Int)

/-! ## Bandwidth windows -/

/-- The window length in 2^-16 ns (R355). -/
def State.bwW (s : State) : Nat := s.rd Reg.pmonBwCfgWinUs * 65536000

/-- Windows are totalled now: BW_EN, and the base is VALID. -/
def State.bwOn (s : State) : Bool := s.on Reg.pmonBwCfgEn && s.tbValid (s.rd Reg.pmonBwCfgTb)

/-- The time of BW_TB now. -/
def State.bwNow (s : State) : Nat := (s.atb (s.rd Reg.pmonBwCfgTb)).t

/-- The number of the window after `k`: the base's time, and with it the count of windows, starts again at 0 at the end of its range
(R156, R355). -/
def State.bwNext (s : State) (k : Nat) : Nat := if (k + 1) * s.bwW < s.tbRange (s.rd Reg.pmonBwCfgTb) then k + 1 else 0

/-- Totalling starts with the first whole window that begins at least 2 µs after the last write of BW_CFG (R357), where the base is
VALID; else no window is open. -/
def State.bwStart (s : State) : State :=
  let t := s.bwNow + (2000 * 65536 - s.pmon.bwAge * 101680)
  let k := (t + s.bwW - 1) / s.bwW
  { s with pmon := { s.pmon with banks := [], next := if !s.bwOn || s.bwW == 0 then none
                                                      else some (if k * s.bwW < s.tbRange (s.rd Reg.pmonBwCfgTb) then k else 0) } }

/-- Both banks are abandoned, as by a write of BW_CFG now (R348, R357). -/
def State.bwRestart (s : State) : State := { s with pmon := { s.pmon with bwAge := 0 } }.bwStart

/-- What the base's time has run past the start of window `k`, by the compare of R157, 2^-16 ns. -/
def State.bwPast (s : State) (k t : Nat) : Int :=
  let n := s.rd Reg.pmonBwCfgTb
  s.tbDiff n t (k * s.bwW % s.tbRange n)

/-- `bytes` of destination `n` (`tx`: sent) stamped `stamp` on base `tb` are totalled (R355, R356): in the
stamp's window on BW_TB, by the compare of R157, or, after its bank has closed, in the window now, as late. Before the first window
begins nothing is totalled. -/
def State.bwAdd (s : State) (n : Nat) (tx : Bool) (tb stamp bytes : Nat) : State :=
  if !s.bwOn || s.bwW == 0 then s
  else
    let s := if s.pmon.next.isNone then s.bwStart else s
    let n' := s.rd Reg.pmonBwCfgTb
    let first := s.pmon.next.getD 0
    let at' := (((s.bwNow : Int) + s.tbDiff tb stamp (s.atb tb).t) % s.tbRange n').toNat
    let late := decide (s.bwPast first at' < 0)
    let w := (if late then s.bwNow else at') / s.bwW
    if s.bwPast first s.bwNow < 0 ∧ late = true then s
    else
      let s := s.when late fun s => s.bump Reg.pmonBwLateCount
      let key := 256 * (w % 2) + 2 * n + b2n tx
      { s with pmon := { s.pmon with banks := Tab.set s.pmon.banks key (Tab.get s.pmon.banks key 0 + bytes) 0 } }

/-- The close of window `k` is due: the base has reached (k + 1) × W + S, S = min(W/2, 20 µs) (R356). -/
def State.bwDue (s : State) (k : Nat) : Bool :=
  decide ((s.bwW + min (s.bwW / 2) (20000 * 65536) : Nat) ≤ s.bwPast k s.bwNow)

/-- A window's bank closes at its time and is copied to the results (R356); before that time nothing happens, and with no window open
the first one opens. -/
def execBwWindowClose (s : State) : Res :=
  if !s.bwOn || s.bwW == 0 then .next { s with pmon := { s.pmon with banks := [], next := none } }
  else if s.pmon.next.isNone then .next s.bwStart
  else if !s.bwDue (s.pmon.next.getD 0) then .next s
  else
    let k := s.pmon.next.getD 0
    let b := 256 * (k % 2)
    let s := s.each (List.range 128) fun s n =>
      let rx := Tab.get s.pmon.banks (b + 2 * n) 0
      let tx := Tab.get s.pmon.banks (b + 2 * n + 1) 0
      s.wrs [(Reg.pmonBwRxRx n, rx), (Reg.pmonBwTxTx n, tx), (Reg.pmonBwHiRxHi n, rx / 2 ^ 32), (Reg.pmonBwHiTxHi n, tx / 2 ^ 32)]
    let banks := s.pmon.banks.filter fun e => e.1 / 256 != k % 2
    .next (({ s with pmon := { s.pmon with banks := banks, next := some (s.bwNext k) } }.wrs
      [(Reg.pmonBwStatusWin, k), (Reg.pmonBwLateValid, 1)]).intr 15)

/-- A write of BW_CFG abandons both banks and restarts totalling (R357). A WIN_US out of range keeps the width. -/
def execBwCfgWrite (value : Word) (s : State) : Res :=
  let v := value.toNat
  let s := s.wrs [(Reg.pmonBwCfgEn, v / 2 ^ 31), (Reg.pmonBwCfgTb, v / 2 ^ 24)]
  let w := v % 2 ^ 24
  let s := s.when (w != 0 && decide (w ≤ 10000000)) fun s => s.wr Reg.pmonBwCfgWinUs w
  .next s.bwRestart

/-! ## Record -/

/-- PMON passes R358, R359. `names`: the number names a destination; `tbOn`: the base is enabled. -/
def checkPmon (names tbOn : Nat → Bool) (v : List Byte) : Bool :=
  v.length == 256 && decide (u8 v 0 < 8) && (u8 v 1 == 0 || (decide (4 ≤ u8 v 1) && decide (u8 v 1 ≤ 24)))
    && decide (u8 v 2 < 8) && decide (u32 v 8 ≤ 10000000) && zeros v 12 4 && zeros v 32 32
    && (List.range 128).all (fun n => !bit (u8 v (16 + n / 8)) (n % 8) || names n)
    && (List.range 48).all (fun i =>
        let o := 64 + 4 * i
        decide (u16 v o < 1024) && decide (u8 v (o + 2) < 4) && zeros v (o + 3) 1
          && (!bit (u8 v (o + 2)) 0 || evDefined (u16 v o)))
    && (!bit (u8 v 0) 2 || tbOn (u8 v 2))

/-- A default for zero. -/
def pmDef (v d : Nat) : Nat := if v = 0 then d else v

/-- PMON's settings are written to the registers (R358). -/
def applyPmon (v : List Byte) (s : State) : State :=
  let s := { s with pmon := { s.pmon with record := v } }
  let s := s.each (List.range 48) fun s i =>
    let o := 64 + 4 * i
    s.wrs [(Reg.pmonCntCfgEvent i, u16 v o), (Reg.pmonCntCfgEnable i, u8 v (o + 2)), (Reg.pmonCntCfgHigh i, u8 v (o + 2) / 2)]
  let s := s.each (List.range 4) fun s k => s.wr (Reg.pmonTagPortMask k) (u32 v (16 + 4 * k))
  let s := s.wrs [(Reg.pmonGleanSeedSeed, pmDef (u32 v 4) 1), (Reg.pmonTagTcMask, pmDef (u8 v 3) 255),
    (Reg.pmonBwCfgEn, u8 v 0 / 4), (Reg.pmonBwCfgTb, u8 v 2), (Reg.pmonBwCfgWinUs, pmDef (u32 v 8) 1000)]
  (s.gleanCtl (pmDef (u8 v 1) 16) (u8 v 0 / 2) (u8 v 0)).bwRestart

/-- A host-view reset returns PMON to the record's settings, zeroes its counts and the tag buffer, and loads the
LFSR from the record's seed; the windows restart under R357 (R348). -/
def State.pmonReset (s : State) : State :=
  let v := s.pmon.record
  let s := s.each (List.range 48) fun s i =>
    (s.cntZero i).clrs [Reg.pmonCntCfgEvent i, Reg.pmonCntCfgEnable i, Reg.pmonCntCfgHigh i]
  let s := s.each (List.range 128) fun s n => s.clrs [Reg.pmonBwRxRx n, Reg.pmonBwTxTx n, Reg.pmonBwHiRxHi n, Reg.pmonBwHiTxHi n]
  let s := s.each (List.range 4) fun s k => s.clr (Reg.pmonTagPortMask k)
  let s := s.clrs [Reg.pmonGleanCtlK, Reg.pmonGleanCtlWrap, Reg.pmonGleanCtlRun, Reg.pmonGleanSeedSeed, Reg.pmonTagTcMask,
    Reg.pmonGleanStatusFull, Reg.pmonGleanStatusWrPtr, Reg.pmonGleanRdRdPtr, Reg.pmonTaggedCount, Reg.pmonGleanLossSkipped,
    Reg.pmonGleanLossLost, Reg.pmonBwCfgEn, Reg.pmonBwCfgTb, Reg.pmonBwCfgWinUs, Reg.pmonBwStatusWin, Reg.pmonBwLateCount, Reg.pmonBwLateValid]
  let s := { s with pmon := { high := s.pmon.high, dry := s.pmon.dry, due := s.pmon.due, record := v } }
  let s := if v.length = 256 then applyPmon v s else s.bwRestart
  { s with pmon := { s.pmon with lfsr := s.rd Reg.pmonGleanSeedSeed } }

end Sys2Proof.Machine
end

