-- ==== Sys2Proof/Machine/TimeBases.lean ====
section
/-! DEFINITION. Timekeepers, time bases and the servo (07_time_bases_and_servo): counting, states, the
servo, pair switches and ramps, the cross-link. -/
namespace Sys2Proof.Machine

/-! ## Helpers for record checks -/

/-- The value, or the default a zero stands for. -/
def orDef (v d : Nat) : Nat := if v = 0 then d else v

/-- `lo ≤ v ≤ hi`. -/
def inRange (lo v hi : Nat) : Bool := decide (lo ≤ v) && decide (v ≤ hi)

/-- `v` is zero or in a range. -/
def zeroOr (lo v hi : Nat) : Bool := v == 0 || inRange lo v hi

/-! ## Counting (R158) -/

/-- M of R158: 165 × 2^24, the units of the second accumulator in one 2^-16 ns. -/
def tbM : Nat := 2768240640

/-- States of a time base (Table TK-3). -/
def tbOff : Nat := 0
/-- UNSET. -/
def tbUnset : Nat := 1
/-- ACQUIRE. -/
def tbAcquire : Nat := 2
/-- TRACK. -/
def tbTrack : Nat := 3
/-- HOLD. -/
def tbHold : Nat := 4
/-- FREE. -/
def tbFree : Nat := 5
/-- RAMP. -/
def tbRamp : Nat := 6

/-- `x / M` units of 2^-16 ns added to a time base whose times wrap at `range`. -/
def TBase.addM (b : TBase) (range : Nat) (x : Int) : TBase :=
  let a := (b.a : Int) + x
  { b with t := (((b.t : Int) + a / tbM) % range).toNat, a := (a % tbM).toNat }

/-- The phase-slew term for a cycle and what it leaves: the whole of `p`, or in the cycle in which PEND
would reach or pass zero the remainder only, and then 0 (R158). -/
def TBase.slewCycle (b : TBase) : Int × TBase :=
  if b.p = 0 then (0, b)
  else if b.pend.natAbs ≤ b.p.natAbs then (b.pend, { b with p := 0, pend := 0 })
  else (b.p, { b with pend := b.pend - b.p })

/-- One cycle of the timekeeper's clock for an enabled base (R158). -/
def TBase.tick (b : TBase) (range : Nat) : TBase :=
  let (pe, b) := b.slewCycle
  let r := b.r + 16
  let carry := if r ≥ 165 then 1 else 0
  let b := { b with t := (b.t + 101680 + carry) % range, r := r % 165, since := min 1024 (b.since + 1) }
  b.addM range (b.f + pe)

/-- The SLEW of base `n` in 2^-48, rounded towards zero (R158). -/
def State.slewTerm (s : State) (n : Nat) : Nat := s.rd (Reg.tkTbSlewSlew n) * 2 ^ 48 / 1000000000

/-- The ILIM of base `n` in 2^-48. -/
def State.ilimTerm (s : State) (n : Nat) : Nat := s.rd (Reg.tkTbIlimIlim n) * 2 ^ 48 / 1000000000000

/-- PEND set to `x` (2^-16 ns / M); the slew term takes its sign and runs at SLEW (R164). -/
def TBase.setPend (b : TBase) (slew : Nat) (x : Int) : TBase :=
  { b with pend := x, p := if x > 0 then slew else if x < 0 then -(slew : Int) else 0 }

/-- A rate in 2^-48 as register FREQ shows it, 0.001 ppb, rounded to nearest. -/
def freqReg (f : Int) : Int := roundDiv (f * 1000000000000) (2 ^ 48)

/-! ## States and sources -/

/-- The pair that holds base `n` as primary (`true`) or shadow (`false`). -/
def State.pairOf (s : State) (n : Nat) : Option (Nat × Bool) :=
  (List.range 4).findSome? fun k =>
    if !s.on (Reg.tkPairEn k) then none
    else if s.rd (Reg.tkPairPrimary k) = n then some (k, true)
    else if s.rd (Reg.tkPairShadow k) = n then some (k, false) else none

/-- Timekeeper `tk` has exchanged the sources of pair `k`: each does so at the end of its own ramp (R172). TK.PAIRk.SWAPPED shows the
active one's. -/
def State.swapped (s : State) (tk k : Nat) : Bool := Tab.get s.xc.swaps (4 * tk + k) false

/-- The exchange of pair `k` in timekeeper `tk` set; SWAPPED follows the active timekeeper. -/
def State.setSwapped (s : State) (tk k : Nat) (b : Bool) : State :=
  let s := { s with xc := { s.xc with swaps := Tab.set s.xc.swaps (4 * tk + k) b false } }
  s.when (tk == s.activeTk) fun s => s.wr (Reg.tkPairSwapped k) (b2n b)

/-- The source of base `n` in timekeeper `tk` (Table TK-4) and its number; a swapped pair has its bases' sources exchanged
(R172). -/
def State.tbSrc (s : State) (tk n : Nat) : Nat × Nat :=
  let m := match s.pairOf n with
    | some (k, prim) => if s.swapped tk k
        then (if prim then s.rd (Reg.tkPairShadow k) else s.rd (Reg.tkPairPrimary k)) else n
    | none => n
  (s.rd (Reg.tkTbCfgSrc m), s.rd (Reg.tkTbCfgSrcId m))

/-- GEN of base `n` counts a change in the active timekeeper `k` (R160). -/
def State.tbGen (s : State) (k n : Nat) : State :=
  s.when (k == s.activeTk) fun s => s.bumpWrap (Reg.tkTbStatusGen n)

/-- Base `n` of timekeeper `k` becomes `b`. A change of state counts in GEN and raises the TK interrupt
where the timekeeper is active, and an entry to HOLD is counted (R160). -/
def State.putTb (s : State) (k n : Nat) (b : TBase) : State :=
  let old := (s.tb k n).state
  let s := s.setTb k n b
  if old = b.state ∨ k ≠ s.activeTk then s
  else
    let s := (s.tbGen k n).intr 3
    s.when (b.state == tbHold) fun s => s.bump (Reg.tkTbEventsHolds n)

/-- The base runs in timekeeper `k`. -/
def State.tbOn (s : State) (k n : Nat) : Bool := (s.tb k n).state != tbOff

/-- Base `n` leaves OFF in timekeeper `k` (Table TK-2, R160): UNSET, or as after a hard set when
INIT_VALID is 1. -/
def State.tbEnable (s : State) (k n : Nat) : State :=
  if !s.on (Reg.tkTbCfgEnable n) then s
  else
    let sec := s.rd (Reg.tkTbInitSecLoInitSecLo n) + 2 ^ 32 * s.rd (Reg.tkTbInitSecHiInitSecHi n)
    let iv := s.on (Reg.tkTbCfgInitValid n)
    let st := if !iv then tbUnset else if s.rd (Reg.tkTbCfgSrc n) = 0 then tbFree else tbAcquire
    let s := s.putTb k n { state := st, valid := iv, t := sec * tSecond }
    s.when (k == s.activeTk) fun s => { s with tt := { s.tt with gm := Tab.set s.tt.gm n [] [] } }.wr (Reg.ttHops n) 0

/-- All enabled bases of timekeeper `k` leave OFF. -/
def State.tkEnable (s : State) (k : Nat) : State := s.each (List.range 8) fun s n => s.tbEnable k n

/-- Timekeeper `k` stops: every base OFF, VALID 0 (Table TK-2). -/
def State.tkStop (s : State) (k : Nat) : State := s.each (List.range 8) fun s n => s.putTb k n {}

/-- Base `n` of timekeeper `k` goes to HOLD from ACQUIRE or TRACK: f kept, PEND drains (R165). -/
def State.tbToHold (s : State) (k n : Nat) : State :=
  let b := s.tb k n
  if b.state = tbAcquire ∨ b.state = tbTrack then
    s.putTb k n { b with state := tbHold, first := true, waiting := none, inRun := 0, outRun := 0 }
  else s

/-- The same in both timekeepers (R155). -/
def State.tbHoldBoth (s : State) (n : Nat) : State := (s.tbToHold 0 n).tbToHold 1 n

/-- A source is lost: the bases it feeds in each timekeeper go to HOLD (Table TK-4). -/
def State.sourceLost (s : State) (src id : Nat) : State :=
  s.each (List.range 16) fun s i => if s.tbSrc (i / 8) (i % 8) = (src, id) then s.tbToHold (i / 8) (i % 8) else s

/-- HALT_DEVICE: no base takes a sample; ACQUIRE and TRACK go to HOLD (R335). -/
def State.tbHalt (s : State) : State := s.each (List.range 8) fun s n => s.tbHoldBoth n

/-! ## Pair switches (R171, R172) -/

/-- One ppb in 2^-48, rounded towards zero. -/
def ppbTerm : Nat := 281474

/-- `r` ppb with sign `d` applied over the next millisecond: `r` ps in all. -/
def TBase.rampRate (b : TBase) (r : Nat) (d : Int) : TBase :=
  { b with rampR := r, rampD := d, p := d * (r * ppbTerm : Nat),
           pend := d * ((r * 65536 * tbM / 1000 : Nat) : Int) }

/-- The primary of pair `k` enters RAMP in timekeeper `tk`: PEND is discarded, the slew rate running becomes
the starting rate, at which the base moves on (R172). -/
def State.rampStart (s : State) (tk k : Nat) : State :=
  let n := s.rd (Reg.tkPairPrimary k)
  let b := s.tb tk n
  if b.state = tbTrack ∨ b.state = tbAcquire ∨ b.state = tbHold then
    let v := (b.p * 1000000000).tdiv (2 ^ 48)
    s.putTb tk n ({ b with state := tbRamp, p := 0, pend := 0, waiting := none }.rampRate v.natAbs
      (if v > 0 then 1 else if v < 0 then -1 else 0))
  else s

/-- The primary of pair `k` is in RAMP (Table TK-8). -/
def State.pairRamping (s : State) (k : Nat) : Bool :=
  s.on (Reg.tkPairEn k) && (s.atb (s.rd (Reg.tkPairPrimary k))).state == tbRamp

/-- The pair switch of pair `k` can take place: the shadow is in TRACK (R171), the primary in a state from which Table TK-2
leads to RAMP. -/
def State.pairReady (s : State) (k : Nat) : Bool :=
  let b := s.atb (s.rd (Reg.tkPairPrimary k))
  (s.atb (s.rd (Reg.tkPairShadow k))).state == tbTrack
    && (b.state == tbTrack || b.state == tbAcquire || b.state == tbHold)

/-- The pair switch of pair `k` takes place in both timekeepers. The shadow's GEN counts the order, unless it has counted the
shadow's entry to TRACK in the same cycle (`counted`, R160). An order that was DEFERRED counts here, when the switch takes place, and not
at the deferral: R160 does not say which (DESIGN CHOICE, log entry 67). -/
def State.pairSwitch (s : State) (k : Nat) (counted : Bool) : State :=
  let s := s.wr (Reg.tkPairDeferred k) 0
  let s := (s.rampStart 0 k).rampStart 1 k
  (s.when (!counted) fun s => s.bumpWrap (Reg.tkTbStatusGen (s.rd (Reg.tkPairShadow k)))).bump (Reg.tkPairSwitches k)

/-- The referee orders the switch of pair `k`: at once where the shadow is in TRACK, else DEFERRED (R171). -/
def State.pairOrder (s : State) (k : Nat) : State :=
  if s.pairRamping k then s
  else if s.pairReady k then s.pairSwitch k false
  else s.wr (Reg.tkPairDeferred k) 1

/-- A deferred switch takes place when the shadow `n`, in state `was` before, first reaches TRACK (R171). -/
def State.deferredCheck (s : State) (n was : Nat) : State :=
  match s.pairOf n with
  | some (k, false) =>
    if s.on (Reg.tkPairDeferred k) && s.pairReady k then s.pairSwitch k (was != tbTrack) else s
  | _ => s

/-- The sources of pair `k` swap in timekeeper `tk` at the end of its ramp (R172): SWAPPED toggles, the primary enters ACQUIRE
(HOLD under HALT_DEVICE), the shadow HOLD until its new source returns. A shadow already in HOLD counts the completion in
GEN all the same (R160). -/
def State.rampDone (s : State) (tk k : Nat) : State :=
  let n := s.rd (Reg.tkPairPrimary k)
  let m := s.rd (Reg.tkPairShadow k)
  let b := s.tb tk n
  let sh := s.tb tk m
  let s := s.putTb tk n { b with state := if s.halted then tbHold else tbAcquire, p := 0, pend := 0,
                                 rampR := 0, rampD := 0, first := b.first || s.halted, inRun := 0, outRun := 0 }
  let s := s.putTb tk m { sh with state := if sh.state = tbOff then tbOff else tbHold, first := true,
                                  waiting := none, inRun := 0, outRun := 0 }
  (s.when (sh.state == tbHold || sh.state == tbOff) fun s => s.tbGen tk m).setSwapped tk k (!s.swapped tk k)

/-- The rate of R172 for a remainder of `m` (2^-16 ns, magnitude) at rate `r`: the first of r + 1, r, r − 1
within SLEW that can still be stepped down in what is left, else r − 1. -/
def rampChoose (m r slew : Nat) : Nat :=
  let ok (r2 : Nat) : Bool := decide (r2 ≤ slew) && decide (65536 * (r2 + r2 * (r2 - 1) / 2) ≤ 1000 * m)
  if ok (r + 1) then r + 1 else if ok r then r
  else if 1 ≤ r ∧ ok (r - 1) then r - 1 else r - 1

/-- One 1 ms tick of a ramp of pair `k` in timekeeper `tk` (R172). A tick that finds rem at zero with the rate at 1 ppb or less
completes the ramp before the test of the sign, as Table TK-6 and the text after the procedure have it (log entry 63). -/
def State.rampTick (s : State) (tk k : Nat) : State :=
  let n := s.rd (Reg.tkPairPrimary k)
  let m := s.rd (Reg.tkPairShadow k)
  let b := s.tb tk n
  let sh := s.tb tk m
  if b.state ≠ tbRamp then s
  else
    let s := s.when (tk == s.activeTk) fun s => s.ev (0x244 + 8 * n)
    let df := sh.f - b.f
    if df ≠ 0 then
      let step := if df > ppbTerm then (ppbTerm : Int) else if df < -(ppbTerm : Int) then -(ppbTerm : Int) else df
      s.setTb tk n ({ b with f := b.f + step }.rampRate b.rampR b.rampD)
    else
      let rem := s.tbDiff n sh.t b.t
      let sg : Int := if rem > 0 then 1 else if rem < 0 then -1 else 0
      if rem = 0 ∧ b.rampR ≤ 1 then s.rampDone tk k
      else if b.rampR > 0 ∧ b.rampD ≠ sg then s.setTb tk n (b.rampRate (b.rampR - 1) b.rampD)
      else if 1000 * rem.natAbs ≤ 65536 ∧ b.rampR ≤ 1 then
        s.setTb tk n { b with p := sg * ((rem.natAbs * 2 ^ 32 + 999999) / 1000000 : Nat), pend := rem * tbM }
      else
        s.setTb tk n (b.rampRate (rampChoose rem.natAbs b.rampR (s.rd (Reg.tkTbSlewSlew n))) sg)

/-! ## The servo (R164) -/

/-- The servo update for a sample `e` used now by a base in ACQUIRE, TRACK or HOLD. R164 names no rounding: KP · e and KI · e / dt are
rounded towards zero (DESIGN CHOICE, log entry 67). -/
def State.servo (s : State) (n : Nat) (b : TBase) (e : Int) : TBase :=
  let kp := s.rd (Reg.tkTbGainKp n)
  let ki := s.rd (Reg.tkTbGainKi n)
  let lim := s.ilimTerm n
  let pend := (-(kp * e)).tdiv 65536 * tbM
  let dt := min (max 1 (s.tbDiff n b.t b.tLast)) tSecond
  let f := if b.first then b.f
    else
      let x := b.f - (ki * e * (2 ^ 32 : Nat)).tdiv dt
      if x > lim then (lim : Int) else if x < -(lim : Int) then -(lim : Int) else x
  let b := { b with f := f, tLast := b.t, since := 0, waiting := none, first := false, lastE := e, outRun := 0 }
  b.setPend (s.slewTerm n) pend

/-- `|e|` in 2^-16 ns is beyond `lim` ps. -/
def beyondPs (e : Int) (lim : Nat) : Bool := decide (65536 * lim < 1000 * e.natAbs)

/-- A hard set of base `n` in timekeeper `k` by a first sample (R162, Table TK-2). -/
def State.hardSetSample (s : State) (k n : Nat) (e : Int) : State :=
  let b := s.tb k n
  s.putTb k n { state := tbAcquire, valid := true, t := (((b.t : Int) - e) % s.tbRange n).toNat, r := b.r,
                a := b.a, tLast := (((b.t : Int) - e) % s.tbRange n).toNat, since := 0, lastE := e }

/-- A sample is used by base `n` of timekeeper `k` (R164, Table TK-2). The one that takes a base from HOLD to ACQUIRE counts among the 8
consecutive ones for TRACK, of which R160 says nothing (DESIGN CHOICE, log entry 67). -/
def State.useSample (s : State) (k n : Nat) (e : Int) : State :=
  let b := s.tb k n
  match b.state with
  | 1 => if s.rd (Reg.tkTbCfgSrc n) = 2 then s
    else (s.hardSetSample k n e).when (k == s.activeTk) fun s => s.ev (0x240 + 8 * n)
  | 2 | 3 | 4 =>
    let wasTrack := b.state == tbTrack
    if wasTrack && beyondPs e (s.rd (Reg.tkTbOutlierOutlier n))
        && decide (b.outRun + 1 < s.rd (Reg.tkTbTimesOutlierCnt n)) then
      let s := s.setTb k n { b with outRun := b.outRun + 1, waiting := none }
      s.when (k == s.activeTk) fun s => (s.bump (Reg.tkTbEventsOutliers n)).ev (0x241 + 8 * n)
    else
      let out := wasTrack && beyondPs e (s.rd (Reg.tkTbOutlierOutlier n))
      let run := if beyondPs e (s.rd (Reg.tkTbTrackWinTrackWin n)) then 0 else min 8 (b.inRun + 1)
      let st := if wasTrack && !out then tbTrack
        else if b.state = tbAcquire ∧ run = 8 then tbTrack else tbAcquire
      let b' := s.servo n b e
      let s := s.when (k == s.activeTk) fun s => s.ev (0x240 + 8 * n)
      s.putTb k n { b' with state := st, inRun := if st = b.state then run else if st = tbAcquire ∧ out then 0 else run }
  | _ => s

/-- A sample arrives at base `n` of timekeeper `k`: used at once, or waiting for 1 024 cycles since the last
one used, a waiting one replaced and counted (R166). No sample is taken under HALT_DEVICE or in RAMP. -/
def State.sampleTk (s : State) (k n : Nat) (e : Int) : State :=
  let b := s.tb k n
  let replaced (s : State) : State := (s.bump (Reg.tkTbEventsOutliers n)).ev (0x241 + 8 * n)
  if s.halted ∨ b.state = tbOff ∨ b.state = tbFree ∨ b.state = tbRamp then s
  else if b.since < 1024 then
    let s' := s.setTb k n { b with waiting := some e }
    s'.when (b.waiting.isSome && k == s.activeTk) replaced
  else (s.when (b.waiting.isSome && k == s.activeTk) replaced).useSample k n e

/-- A sample saturates at the signed 48-bit range of R163. -/
def satE (e : Int) : Int :=
  if e > 140737488355327 then 140737488355327 else if e < -140737488355328 then -140737488355328 else e

/-- The base of the standby timekeeper on the source that base `n` of the active one has: the other base of the pair while only one of
the two has ended its ramp (R155, R172). -/
def State.standbyBase (s : State) (n : Nat) : Nat :=
  match s.pairOf n with
  | some (k, prim) => if s.swapped 0 k == s.swapped 1 k then n else if prim then s.rd (Reg.tkPairShadow k) else s.rd (Reg.tkPairPrimary k)
  | none => n

/-- A sample, measured on base `n` of the active timekeeper, reaches the base of its source in both (R155): where that is the other base
of the pair, as its offset there. A deferred switch follows the shadow into TRACK. -/
def State.sample (s : State) (n : Nat) (e : Int) : State :=
  let k := s.activeTk
  let m := s.standbyBase n
  let e' := if m = n then e else e + s.tbDiff n (s.tb (1 - k) m).t (s.atb n).t
  ((s.sampleTk k n (satE e)).sampleTk (1 - k) m (satE e')).deferredCheck n (s.atb n).state

/-- The waiting sample of base `n` is used when 1 024 cycles have passed (R166). -/
def State.useWaiting (s : State) (k n : Nat) : State :=
  match (s.tb k n).waiting with
  | some e => if s.halted ∨ (s.tb k n).since < 1024 then s else s.useSample k n e
  | none => s

/-! ## Reference steps (R169) -/

/-- A phase step of `step` ps is handed to both timekeepers: they start cancelling the shaft's motion. -/
def State.tbRefStep (s : State) (step : Int) : State :=
  { s with xc := { s.xc with motion := s.xc.motion + (step * 65536 * tbM).tdiv 1000, moving := true } }

/-- `x` (2^-16 ns / M) of shaft motion is cancelled in base `n` of timekeeper `k`, and goes to PEND in FREE,
HOLD and UNSET. -/
def State.cancelMotion (s : State) (k n : Nat) (x : Int) : State :=
  let b := s.tb k n
  if b.state = tbOff then s
  else
    let b' := b.addM (s.tbRange n) (-x)
    s.setTb k n (if b.state = tbFree ∨ b.state = tbHold ∨ b.state = tbUnset
      then b'.setPend (s.slewTerm n) (b.pend + x) else b')

/-- One DCO update moves the shaft: `dco` (2^-44 of nominal) against the frequency at the step for 100 µs. The whole of that
motion, an overshoot and its return with it, is cancelled in every enabled base, until the step is complete: the active root is
locked and no more than 1 ps of it is left (R169, log entry 36). -/
def State.shaftMotion (s : State) (dco : Int) : State :=
  if !s.xc.moving then { s with xc := { s.xc with dcoFrom := dco } }
  else
    let x := ((dco - s.xc.dcoFrom) * 100000 * 65536 * tbM).tdiv (2 ^ 44)
    let left := s.xc.motion - x
    let done := s.on (Reg.synRootStatusLock (s.rd Reg.clkShaftStatusActiveRoot)) && decide (1000 * left.natAbs ≤ 65536 * tbM)
    let s := { s with xc := { s.xc with motion := if done then 0 else left, moving := !done } }
    s.each (List.range 8) fun s n => (s.cancelMotion 0 n x).cancelMotion 1 n x

/-! ## The cross-link (R174 to R176) -/

/-- The standby timekeeper starts: it loads the active one's bases over the cross-link (R176). -/
def State.tkLoadStart (s : State) : State :=
  if s.xc.loading || s.on Reg.tkStatusStandbyRun then s
  else { s with xc := { s.xc with loading := true, ever := false } }.wr Reg.tkStatusXcOk 0

/-- The load of 16 slots completes: the standby holds the active timekeeper's bases and pair swaps, and comparing begins. An OUT_OF_LIM bit stays
until 8 compares of its base lie within XC_LIM (R175). -/
def State.tkLoad (s : State) : State :=
  let k := s.activeTk
  let s := s.each (List.range 8) fun s n =>
    if s.on (Reg.tkTbCfgEnable n) then s.setTb (1 - k) n (s.tb k n) else s
  let s := s.each (List.range 4) fun s p => s.setSwapped (1 - k) p (s.swapped k p)
  { s with xc := { s.xc with loading := false, ever := false, goodRun := [], outRun := [], bad := 0 } }.wrs
    [(Reg.tkStatusStandbyRun, 1), (Reg.tkStatusXcOk, 0)]

/-- The standby runs on its own inputs, without compares, until its unit enters SYNC (R176). -/
def State.tkStandbyEnd (s : State) : State :=
  { s with xc := { s.xc with loading := false, ever := false } }.wrs
    [(Reg.tkStatusStandbyRun, 0), (Reg.tkStatusXcOk, 0)]

/-- What the active timekeeper sends over the cross-link (R174): a base's index, its time, f, PEND and state at one tagged edge. -/
structure XcMsg where
  index : Nat
  time  : Nat
  f     : Int
  pend  : Int
  state : Nat
  deriving DecidableEq, Repr

/-- The message of base `n`. -/
def State.xcMsg (s : State) (n : Nat) : XcMsg :=
  { index := n, time := (s.atb n).t, f := (s.atb n).f, pend := (s.atb n).pend, state := (s.atb n).state }

/-- The message's bytes: index, time, f, PEND and state in R174's order, each most significant byte first (DESIGN CHOICE, log 69: the
spec gives no layout). -/
def XcMsg.bytes (m : XcMsg) : List Byte :=
  be 1 m.index ++ be 12 m.time ++ be 8 (enc 64 m.f) ++ be 16 (enc 128 m.pend) ++ be 1 m.state

/-- The message as sent, with its CRC-16 (R174, R424). -/
def XcMsg.wire (m : XcMsg) : List Byte := m.bytes ++ be 2 (crc16 m.bytes)

/-- Bytes with the bits `l` turned on the way; bit 0 is the first sent. -/
def turned (l : List (Fin 320)) (w : List Byte) : List Byte :=
  l.foldl (fun w b => w.modify (b.val / 8) fun x => x ^^^ BitVec.ofNat 8 (2 ^ (7 - b.val % 8))) w

/-- The message that arrived, if its CRC is good. -/
def xcOf (w : List Byte) : Option XcMsg :=
  if crc16 (w.take 38) = unbe (slice w 38 2) then
    some { index := unbe (slice w 0 1), time := unbe (slice w 1 12), f := sgn 64 (unbe (slice w 13 8))
           pend := sgn 128 (unbe (slice w 21 16)), state := unbe (slice w 37 1) }
  else none

/-- What the standby receives in the slot of base `n`: nothing, or the message with the bits `wire` turned. -/
def State.xcReceived (s : State) (n : Nat) (wire : Option (List (Fin 320))) : Option XcMsg :=
  wire.bind fun l => xcOf (turned l (s.xcMsg n).wire)

/-- The compare of a message (R174): own time minus received time, with SYN.TRACK.ERR, 0.01 ps. -/
def State.xcDiff (s : State) (m : XcMsg) : Int :=
  roundDiv (s.tbDiff m.index (s.tb (1 - s.activeTk) m.index).t m.time * 100000) 65536 + s.rdS Reg.synTrackErr

/-- Every enabled base's last 64 compares lay within XC_LIM (R175). -/
def State.xcAllGood (s : State) : Bool :=
  (List.range 8).all fun n => !s.on (Reg.tkTbCfgEnable n) || Tab.get s.xc.goodRun n 0 == 64

/-- A good message is compared and the standby trimmed, at most 0.1 ps (R175). -/
def State.xcCompare (s : State) (m : XcMsg) : State :=
  let k := 1 - s.activeTk
  let n := m.index
  let d := s.xcDiff m
  let inLim := decide (d.natAbs ≤ s.rd Reg.tkXcCfgXcLim)
  let good := if inLim then min 64 (Tab.get s.xc.goodRun n 0 + 1) else 0
  let out := if inLim then 0 else min 8 (Tab.get s.xc.outRun n 0 + 1)
  let trim := if d > 10 then (10 : Int) else if d < -10 then -10 else d
  let s := { s with xc := { s.xc with goodRun := Tab.set s.xc.goodRun n good 0, outRun := Tab.set s.xc.outRun n out 0 } }
  let s := s.wr (Reg.tkTbXcDiffXcDiff n) (encSat 32 d)
  let s := s.setTb k n ((s.tb k n).addM (s.tbRange n) (-((trim * 65536 * tbM).tdiv 100000)))
  let s := s.when (!inLim) fun s => s.ev (0x245 + 8 * n)
  let s := s.when (out == 8) fun s => s.wrBit Reg.tkXcStatusOutOfLim n true
  s.when (decide (8 ≤ good)) fun s => s.wrBit Reg.tkXcStatusOutOfLim n false

/-- XC_OK is evaluated again, in every slot (R175). -/
def State.xcJudge (s : State) : State :=
  let ok := s.xcAllGood
  let s := s.wr Reg.tkStatusXcOk (b2n ok)
  s.when ok fun s => { s with xc := { s.xc with ever := true } }

/-- One cross-link slot (R174, R175): `got` is the good message that arrived, if any. -/
def State.xcSlot (s : State) (got : Option XcMsg) : State :=
  let n := s.xc.next
  let s := { s with xc := { s.xc with next := (n + 1) % 8 } }
  if !s.on Reg.tkStatusStandbyRun then s
  else match got with
  | some m =>
    let s := { s with xc := { s.xc with bad := 0 } }.wr Reg.tkStatusXlinkLost 0
    let s := s.unreport 0x5B
    (s.when (s.on (Reg.tkTbCfgEnable m.index)) fun s => s.xcCompare m).xcJudge
  | none =>
    let s := { s with xc := { s.xc with bad := min 64 (s.xc.bad + 1) } }.bump Reg.tkXcStatusBadSlots
    if s.xc.bad = 64 ∧ !s.on Reg.tkStatusXlinkLost then
      let s := s.each (List.range 8) fun s n => s.wr (Reg.tkTbXcDiffXcDiff n) 0x80000000
      (s.wr Reg.tkStatusXlinkLost 1).report 0x5B 0
    else s

/-! ## Records -/

/-- TIMEBASES passes R178, R179. `ttLane`: the lane runs time transfer on a LEAT lane; `ppsPair`: the
REFSEL record pairs and enables REFIN(2m). -/
def checkTimebases (ttLane ppsPair : Nat → Bool) (v : List Byte) : Bool :=
  let en (n : Nat) : Bool := u8 v (24 + 24 * n) == 1
  let prim (k : Nat) : Nat := u8 v (8 + 4 * k)
  let shad (k : Nat) : Nat := u8 v (9 + 4 * k)
  let used (k : Nat) : Bool := prim k != 255
  v.length == 216 && zeroOr 50 (u16 v 0) 1000 && zeros v 2 6
    && (List.range 8).all (fun n =>
        let o := 24 + 24 * n
        let src := u8 v (o + 2)
        let id := u8 v (o + 3)
        if u8 v o = 0 then zeros v o 24
        else u8 v o == 1 && decide (u8 v (o + 1) ≤ 1) && decide (src ≤ 3) && decide (u8 v (o + 4) ≤ 1)
          && zeros v (o + 5) 3 && decide (u64 v (o + 8) < 2 ^ 48) && zeros v (o + 20) 4
          && (u8 v (o + 1) == 0 || decide (u64 v (o + 8) < 2 ^ 32))
          && (match src with | 1 => decide (id < 128) && ttLane id | 3 => decide (id < 4) && ppsPair id | _ => id == 0))
    && (List.range 4).all (fun k =>
        zeros v (10 + 4 * k) 2 &&
        (if prim k = 255 ∨ shad k = 255 then prim k == 255 && shad k == 255
         else decide (prim k < 8) && decide (shad k < 8) && prim k != shad k && en (prim k) && en (shad k)
          && u8 v (26 + 24 * prim k) == 1 && u8 v (26 + 24 * shad k) == 1
          && u8 v (25 + 24 * prim k) == u8 v (25 + 24 * shad k)
          && (List.range 4).all (fun j => j == k || !used j ||
              (prim j != prim k && prim j != shad k && shad j != prim k && shad j != shad k))))

/-- SERVO passes R180. -/
def checkServo (v : List Byte) : Bool :=
  v.length == 224 && (List.range 8).all fun n =>
    let o := 28 * n
    zeroOr 1 (u32 v (o + 4)) 100000000 && zeroOr 1 (u32 v (o + 8)) 100000 && zeroOr 1 (u32 v (o + 12)) 1000000
      && zeroOr 1 (u32 v (o + 16)) 2000000000 && zeros v (o + 21) 1 && zeroOr 10 (u16 v (o + 22)) 60000
      && zeros v (o + 24) 4 && decide (orDef (u32 v (o + 12)) 1000 ≤ orDef (u32 v (o + 16)) 100000)

/-- TIMEBASES is applied (R178). -/
def applyTimebases (v : List Byte) (s : State) : State :=
  let s := s.wr Reg.tkXcCfgXcLim (orDef (u16 v 0) 100)
  let s := s.each (List.range 4) fun s k =>
    let used := u8 v (8 + 4 * k) != 255
    if used then s.wrs [(Reg.tkPairEn k, 1), (Reg.tkPairPrimary k, u8 v (8 + 4 * k)), (Reg.tkPairShadow k, u8 v (9 + 4 * k))]
    else s
  s.each (List.range 8) fun s n =>
    let o := 24 + 24 * n
    s.wrs [(Reg.tkTbCfgEnable n, u8 v o), (Reg.tkTbCfgFormat n, u8 v (o + 1)), (Reg.tkTbCfgSrc n, u8 v (o + 2)),
      (Reg.tkTbCfgSrcId n, u8 v (o + 3)), (Reg.tkTbCfgInitValid n, u8 v (o + 4)),
      (Reg.tkTbInitSecLoInitSecLo n, u64 v (o + 8)), (Reg.tkTbInitSecHiInitSecHi n, u64 v (o + 8) / 2 ^ 32),
      (Reg.tkTbPpsDelayPpsDelay n, u32 v (o + 16))]

/-- SERVO is applied (R180). -/
def applyServo (v : List Byte) (s : State) : State :=
  s.each (List.range 8) fun s n =>
    let o := 28 * n
    s.wrs [(Reg.tkTbGainKp n, orDef (u16 v o) 32768), (Reg.tkTbGainKi n, orDef (u16 v (o + 2)) 4096),
      (Reg.tkTbIlimIlim n, orDef (u32 v (o + 4)) 1000000), (Reg.tkTbSlewSlew n, orDef (u32 v (o + 8)) 10),
      (Reg.tkTbTrackWinTrackWin n, orDef (u32 v (o + 12)) 1000), (Reg.tkTbOutlierOutlier n, orDef (u32 v (o + 16)) 100000),
      (Reg.tkTbTimesOutlierCnt n, orDef (u8 v (o + 20)) 4), (Reg.tkTbTimesTimeoutMs n, orDef (u16 v (o + 22)) 500)]

/-! ## Commands of this chapter that no other chapter follows -/

/-- PEND of base `n` would reach or pass zero in this cycle: its remainder is applied and the slew term stops (R158). While more
than a cycle's share is left the slew runs on. -/
def execTbSlewComplete (n : Fin 8) (s : State) : Res :=
  let stop (s : State) (k : Nat) : State :=
    let b := s.tb k n.val
    if b.p = 0 ∨ b.p.natAbs < b.pend.natAbs then s else s.setTb k n.val (({ b with p := 0, pend := 0 }).addM (s.tbRange n.val) b.pend)
  .next (stop (stop s 0) 1)

/-- No sample is accepted for TIMEOUT_MS: the base enters HOLD (Table TK-2). -/
def execTbSampleTimeout (n : Fin 8) (s : State) : Res := .next (s.tbHoldBoth n.val)

/-- FEED_CMD code 0 is not checked, changes nothing and its result is OK (R425). -/
def execTbFeedNop (n : Fin 8) (s : State) : Res := .next (s.wr (Reg.tkTbFeedStatusResult n.val) 0)

/-- The check that every FEED_CMD code meets first (Table TK-5): 1 STALE, 2 OFF, 0 passed. -/
def State.feedCheck (s : State) (n gen : Nat) : Nat :=
  if gen ≠ s.rd (Reg.tkTbStatusGen n) then 1 else if !s.on (Reg.tkTbCfgEnable n) then 2 else 0

/-- FEED_CMD code 3 is answered REFUSED, after the checks before it (Table TK-5). -/
def execTbFeedReserved (n : Fin 8) (gen : Fin 65536) (s : State) : Res :=
  let c := s.feedCheck n.val gen.val
  .next (s.wr (Reg.tkTbFeedStatusResult n.val) (if c = 0 then 4 else c))

/-- A read of NOW_SEC_LO latches the time of one cycle of the active timekeeper for path `p` (R177, R394). -/
def State.tbNowLatch (s : State) (n p : Nat) : State :=
  let t := (s.atb n).t
  s.latch p [(Reg.tkTbNowSecHiNowSecHi n, tSec t / 2 ^ 32), (Reg.tkTbNowNsNowNs n, tNs t), (Reg.tkTbNowFracNowFrac n, tFrac t)]

/-- The last accepted offset of base `n` as its 48 bits. -/
def State.tbOff48 (s : State) (n : Nat) : Nat := enc 48 (s.atb n).lastE

/-- A read of OFF_LO latches OFF_HI (R177). -/
def State.tbOffLatch (s : State) (n p : Nat) : State := s.latch p [(Reg.tkTbOffHiOffHi n, s.tbOff48 n / 2 ^ 32)]

/-- The 16-slot load of the standby timekeeper completes (R176). -/
def execStandbyTkLoadDone (s : State) : Res := if s.xc.loading then .next s.tkLoad else .next s

end Sys2Proof.Machine
end

