-- ==== Sys2Proof/Machine/Synth.lean ====
section
/-! DEFINITION. Root synthesizers, standby tracking, output synthesizers, clock outputs and SYNC_IN
(04_synthesis_and_outputs). -/
namespace Sys2Proof.Machine

/-! ## Roots -/

/-- Root states (Table SY-9). -/
def rootOff : Nat := 0
/-- BAND_SEL. -/
def rootBandSel : Nat := 1
/-- FREE. -/
def rootFree : Nat := 2
/-- REF. -/
def rootRef : Nat := 3
/-- HOLD. -/
def rootHold : Nat := 4
/-- RELOCK. -/
def rootRelock : Nat := 5
/-- FAIL. -/
def rootFail : Nat := 6

/-- What the device holds of root `r` (0 Root A, 1 Root B). -/
def State.root (s : State) (r : Nat) : Root := Tab.get s.syn.roots r {}

/-- What the device holds of root `r`, set. -/
def State.setRoot (s : State) (r : Nat) (x : Root) : State :=
  { s with syn := { s.syn with roots := Tab.set s.syn.roots r x {} } }

/-- The state of root `r`. -/
def State.rootState (s : State) (r : Nat) : Nat := s.rd (Reg.synRootStatusState r)

/-- The active root (R16). -/
def State.activeRoot (s : State) : Nat := s.rd Reg.clkShaftStatusActiveRoot

/-- LOCK of root `r`, in SYN.ROOT_STATUS and CLK.SHAFT_STATUS alike (R88). -/
def State.setRootLock (s : State) (r : Nat) (b : Bool) : State :=
  (s.wr (Reg.synRootStatusLock r) (b2n b)).wr
    (if r = 0 then Reg.clkShaftStatusRootaLock else Reg.clkShaftStatusRootbLock) (b2n b)

/-- A frequency offset in 0.01 ppb as a DCO word in 2^-44 of nominal. -/
def dcoWord (f : Int) : Int := roundDiv (f * 2 ^ 44) 100000000000

/-- A DCO word as a frequency offset in 0.01 ppb. -/
def dcoPpb (w : Int) : Int := roundDiv (w * 100000000000) (2 ^ 44)

/-- Entry `b` of the band table in use: VALID, CODE, CENTRE_KHZ, SLOPE (R87). -/
def State.band (s : State) (b : Nat) : Bool × Nat × Nat × Nat :=
  if s.syn.imgBands then
    (s.on (Reg.synBandCfgValid b), s.rd (Reg.synBandCfgCode b), s.rd (Reg.synBandCentreCentreKhz b),
      s.rd (Reg.synBandSlopeSlope b))
  else
    let f := Config.factoryBand b
    (f.2.2.2, f.1 % 2 ^ 8, f.2.1 % 2 ^ 32, f.2.2.1 % 2 ^ 32)

/-- The band registers take the table in use, which from then on they hold: a REGWRITE entry changes what it names and keeps the
rest (R44, R87). -/
def State.ownBands (s : State) : State :=
  if s.syn.imgBands then s
  else
    let s := s.each (List.range 64) fun s b =>
      let e := s.band b
      s.wrs [(Reg.synBandCfgValid b, b2n e.1), (Reg.synBandCfgCode b, e.2.1), (Reg.synBandCentreCentreKhz b, e.2.2.1), (Reg.synBandSlopeSlope b, e.2.2.2)]
    { s with syn := { s.syn with imgBands := true } }

/-- The distance of a DCO word from a band centre in kHz, times 20 625 000. -/
def centreDist (c : Nat) (w : Int) : Int := w * 20625000 - ((c : Int) - 20625000) * 2 ^ 44

/-- The distance of a DCO word from the centre of band `b` of the table in use. -/
def State.bandDist (s : State) (b : Nat) (w : Int) : Int := centreDist (s.band b).2.2.1 w

/-- Root `r` takes band `b` of the table in use: it keeps that band's centre, whatever table is loaded later (R87). -/
def State.takeBand (s : State) (r b : Nat) : State :=
  (s.setRoot r { s.root r with centre := (s.band b).2.2.1 }).wr (Reg.synRootStatusBand r) b

/-- The untried valid band whose centre is nearest word `w` (Table SY-2, R88). Of two centres equally near, between which the spec
does not choose, the band of the lower index (DESIGN CHOICE, log entry 67). -/
def State.nearestBand (s : State) (tried : Nat) (w : Int) : Option Nat :=
  (List.range 64).foldl (fun best b =>
    if !(s.band b).1 || bit tried b then best
    else match best with
      | none => some b
      | some c => if (s.bandDist b w).natAbs < (s.bandDist c w).natAbs then some b else some c) none

/-- The word the root is to follow when no loop result stands yet: the holdover frequency in HOLD, else what
the loop last asked for. A root that starts while the roots follow a candidate has had no result of its loop: it stands at nominal, in REF as
in FREE, which R88 does not name (DESIGN CHOICE, log entry 72). -/
def State.rootTarget (s : State) (r : Nat) : Int :=
  if s.syn.conn = rootHold then s.syn.holdWord else (s.root r).target

/-- The syndrome of source ROOT_A or ROOT_B (Table FL-1). -/
def State.rootSynd (s : State) (r : Nat) : Nat :=
  s.rd (Reg.synRootStatusClamp r) + 2 * b2n (s.rootState r == rootFail) + 256 * s.rd (Reg.synRootStatusBand r)

/-- Root `r` enters FAIL and reports (Table SY-2). -/
def State.rootFails (s : State) (r : Nat) : State :=
  let s := (s.wr (Reg.synRootStatusState r) rootFail).setRootLock r false
  s.report (0x52 + r) (s.rootSynd r)

/-- Root `r` tries the nearest untried band, or fails when none is left (Table SY-2). -/
def State.rootTryBand (s : State) (r : Nat) : State :=
  match s.nearestBand (s.root r).tried (s.rootTarget r) with
  | some b => s.takeBand r b
  | none => s.rootFails r

/-- Root `r` starts: its domain has ramped (Table SY-2). -/
def State.rootStart (s : State) (r : Nat) : State :=
  if s.rootState r = rootOff then
    ((s.setRoot r {}).wr (Reg.synRootStatusState r) rootBandSel).rootTryBand r
  else s

/-- Root `r` goes OFF with its power domain. -/
def State.rootStop (s : State) (r : Nat) : State :=
  let s := (s.setRoot r {}).wrs [(Reg.synRootStatusState r, rootOff), (Reg.synRootStatusClamp r, 0),
    (Reg.synRootStatusEffBw r, 0), (Reg.synRootStatusBand r, 0), (Reg.synTrackTrackOk, 0)]
  let s := { s with syn := { s.syn with goodRun := 0, trim := 0 } }
  (s.setRootLock r false).unreport (0x52 + r)

/-- The loop bandwidth in effect: 0.1 Hz (code 1) under LOWBW, else LOOP_BW (R78, R84). -/
def State.rootBw (s : State) : Nat := if s.on Reg.refselStateLowbw then 1 else s.rd Reg.synRootCfgLoopBw

/-- Root `r` enters the state the selector drives (R88). LOCK reads 1 in HOLD and starts at 0 in FREE and
REF. -/
def State.rootFollow (s : State) (r : Nat) : State :=
  let c := s.syn.conn
  (s.wrs [(Reg.synRootStatusState r, c), (Reg.synRootStatusEffBw r, s.rootBw)]).setRootLock r (c == rootHold)

/-- A new LOOP_BW reaches a root whose loop runs. -/
def State.rootBwApply (s : State) : State :=
  s.each [0, 1] fun s r =>
    s.when (decide (rootFree ≤ s.rootState r) && decide (s.rootState r ≤ rootRelock)) fun s =>
      s.wr (Reg.synRootStatusEffBw r) s.rootBw

/-- The selector changes what both roots do: each root in FREE, REF or HOLD follows within a K12 cycle
(R88). Under HALT_DEVICE they hold (R335). -/
def State.rootsDrive (s : State) (c : Nat) : State :=
  let c := if s.halted then rootHold else c
  let s := { s with syn := { s.syn with conn := c } }
  s.each [0, 1] fun s r =>
    if s.rootState r = rootFree ∨ s.rootState r = rootRef ∨ s.rootState r = rootHold then s.rootFollow r else s

/-- The roots are connected to a candidate (R78, R84). -/
def State.rootsConnect (s : State) : State := (s.rootsDrive rootRef).rootBwApply

/-- The roots hold at DCO word `w` (R81, R88). -/
def State.rootsHold (s : State) (w : Int) : State :=
  { s with syn := { s.syn with holdWord := w } }.rootsDrive rootHold

/-- Word `w` lies more than 200 ppm of `c` kHz from the band centre `c` (R86). -/
def beyondBand (c : Nat) (w : Int) : Bool := decide (200 * c * 2 ^ 44 < 1000000 * (centreDist c w).natAbs)

/-- Root `r` is the standby root, or start-up has not chosen an active root yet (R86). -/
def State.rootMayMove (s : State) (r : Nat) : Bool := r != s.activeRoot || !s.boot.shaft

/-- The edge of the band with centre `c` kHz nearest word `w` (R86). -/
def bandEdge (c : Nat) (w : Int) : Int :=
  let edge := (c : Int) * (if centreDist c w > 0 then 1000200 else 999800)
  roundDiv ((edge - 20625000 * 1000000) * 2 ^ 44) (20625000 * 1000000)

/-- A DCO change of at most 2 ppm (R85). -/
def dcoStep (dco tgt : Int) : Int :=
  let d := tgt - dco
  if d > 35184372 then dco + 35184372 else if d < -35184372 then dco - 35184372 else tgt

/-- The 10 kHz update of a root (R85, R86). R86 says when CLAMP and its report are set and not when they clear: they stay, through
RELOCK too, until the first update that finds the target within the band (DESIGN CHOICE, log entry 67). `target` is the frequency its loop asks for, in 2^-44 of nominal
(in HOLD the holdover frequency takes its place); `locked` is what the lock detector of Table SY-2 says: two
windows within 1 ppm in FREE, 1 ms within LOCK_WIN in REF. -/
def execRootDcoUpdate (root : Fin 2) (target : Int) (locked : Bool) (s : State) : Res :=
  let r := root.val
  let st := s.rootState r
  if st < rootFree ∨ rootRelock < st then .next s
  else
    let want := if st = rootHold then s.syn.holdWord else target
    let x := { s.root r with target := want }
    let s := s.setRoot r x
    let b := s.rd (Reg.synRootStatusBand r)
    let out := beyondBand x.centre want
    let move (s : State) (tgt : Int) : State :=
      let w := dcoStep x.dco tgt
      let s := s.setRoot r { s.root r with dco := w }
      s.when (r == s.activeRoot) fun s => s.shaftMotion w
    if st = rootRelock then .next (move s want)
    else if out && s.rootMayMove r then
      let nb := (s.nearestBand 0 want).getD b
      let s := ((s.takeBand r nb).wr (Reg.synRootStatusState r) rootRelock).setRootLock r false
      .next (move ({ s with syn := { s.syn with goodRun := 0 } }.wr Reg.synTrackTrackOk 0) want)
    else
      let s := s.setRootLock r (st == rootHold || locked)
      if out then
        let s := move s (bandEdge x.centre want)
        let s := s.wr (Reg.synRootStatusClamp r) 1
        .next (s.report (0x52 + r) (s.rootSynd r))
      else
        let s := move s want
        let s := s.when (s.on (Reg.synRootStatusClamp r)) fun s =>
          (s.wr (Reg.synRootStatusClamp r) 0).unreport (0x52 + r)
        .next s

/-- A root in RELOCK is within 200 ppm of its target and locked: it takes the state the selector drives
(Table SY-2). -/
def execRootRelockDone (root : Fin 2) (s : State) : Res :=
  let r := root.val
  if s.rootState r = rootRelock then .next ((s.rootFollow r).setRootLock r true) else .next s

/-- A 50 µs window of a root in BAND_SEL ends (R88): `offPpb` is the measured frequency minus the target. -/
def execRootBandWindow (root : Fin 2) (offPpb : Int) (s : State) : Res :=
  let r := root.val
  if s.rootState r ≠ rootBandSel then .next s
  else if offPpb.natAbs ≤ 200000 then .next (s.rootFollow r)
  else
    let x := s.root r
    .next ((s.setRoot r { x with tried := setBit x.tried (s.rd (Reg.synRootStatusBand r)) true }).rootTryBand r)

/-! ## Standby tracking (R89) -/

/-- The DCO of root `r` runs. -/
def State.rootRuns (s : State) (r : Nat) : Bool :=
  decide (rootFree ≤ s.rootState r) && decide (s.rootState r ≤ rootRelock)

/-- The standby timekeeper starts when its root reads TRACK_OK, unless its unit has failed (R176). -/
def State.standbyTkStart (s : State) : State :=
  let u := 2 + (1 - s.activeTk)
  if s.rd (Reg.redUnitStatusState u) = 4 ∨ s.rd (Reg.redUnitStatusState u) = 6 ∨ !s.boot.applied then s
  else (s.unitStart u).tkLoadStart

/-- The standby root measures its phase against K1 (`diff` in 0.05 ps), trims it and updates TRACK_OK. -/
def execStandbyTrackMeasure (diff : Int) (s : State) : Res :=
  if !(s.rootRuns 0 && s.rootRuns 1) then .next s
  else
    let t := s.syn.trim - (if diff > 2 then 2 else if diff < -2 then -2 else diff)
    let t := if t > 1000 then 1000 else if t < -1000 then -1000 else t
    let relock := s.rootState (1 - s.activeRoot) == rootRelock
    let run := if diff.natAbs ≤ 20 && !relock then min 1024 (s.syn.goodRun + 1) else 0
    let was := s.on Reg.synTrackTrackOk
    let s := { s with syn := { s.syn with trim := t, goodRun := run } }
    let s := s.wrs [(Reg.synTrackErr, encSat 16 (5 * diff)), (Reg.synTrackTrackOk, b2n (run == 1024))]
    .next (s.when (run == 1024 && !was) State.standbyTkStart)

/-! ## Output synthesizers and clock outputs -/

/-- What the device holds of output synthesizer `o`. -/
def State.os (s : State) (o : Nat) : Os := Tab.get s.syn.oss o {}

/-- What the device holds of output synthesizer `o`, set. -/
def State.setOs (s : State) (o : Nat) (x : Os) : State :=
  { s with syn := { s.syn with oss := Tab.set s.syn.oss o x {} } }

/-- What the device holds of clock output `n`. -/
def State.cko (s : State) (n : Nat) : Cko := Tab.get s.syn.ckos n {}

/-- What the device holds of clock output `n`, set. -/
def State.setCko (s : State) (n : Nat) (x : Cko) : State :=
  { s with syn := { s.syn with ckos := Tab.set s.syn.ckos n x {} } }

/-- The clock outputs on synthesizer `o`. -/
def State.ckosOf (s : State) (o : Nat) : List Nat :=
  (List.range 12).filter fun n => s.rd (Reg.synCkoCfgOs n) == o

/-- Output `n` drives when the four conditions of R95 hold. -/
def State.ckoDrives (s : State) (n : Nat) : Bool :=
  let o := s.rd (Reg.synCkoCfgOs n)
  s.on (Reg.synCkoCfgFormat n) && s.on (Reg.synOsStatusLock o) && s.on (Reg.synCkoCtlOeHost n)
    && (s.rd (Reg.synOsCfgMode o) != 2 || (s.cko n).edge)

/-- DRIVING follows R95. -/
def State.updCko (s : State) (n : Nat) : State := s.wr (Reg.synCkoCtlDriving n) (b2n (s.ckoDrives n))

/-- DRIVING of every output follows R95. -/
def State.updCkos (s : State) : State := s.each (List.range 12) State.updCko

/-- The first whole second at least 2 µs after a time of `t` 2^-16 ns. -/
def secondAfter (t : Nat) : Nat := (t + 2000 * 65536 + tSecond - 1) / tSecond

/-- A time-locked synthesizer in HELD, locked and on a valid base, enters ALIGNING with its second S
(Table SY-5). -/
def State.osAlign (s : State) (o : Nat) : State :=
  let n := s.rd (Reg.synOsCfgTb o)
  if s.rd (Reg.synOsStatusTlState o) = 1 ∧ s.on (Reg.synOsStatusLock o) ∧ s.tbValid n then
    (s.setOs o { s.os o with second := secondAfter (s.atb n).t, placed := false, inRun := 0, start := false }).wr
      (Reg.synOsStatusTlState o) 2
  else s

/-- A timekeeper fail-over restarts a synthesizer in ALIGNING (Table SY-5). Where the new active timekeeper's base of the same index
is not VALID, the restart begins in HELD, the state that waits for it (DEDUCED, log entry 60). -/
def State.osFailover (s : State) (o : Nat) : State :=
  if s.rd (Reg.synOsStatusTlState o) = 2 then (s.wr (Reg.synOsStatusTlState o) 1).osAlign o else s

/-- 1 ms of comparisons every 1 024 K10 cycles, as a whole number of them. -/
def tlRun : Nat := 2518

/-- A comparison of a time-locked synthesizer (R97): its error in 0.1 ps and the FRAC the loop steers to. R97 does not say whether
the loop runs in HELD: there a comparison leaves TL_ERR and FRAC as they were (DESIGN CHOICE, log entry 67). Once a SCAN has reached a domain no output is steered (R372). -/
def execTlCompare (os : Fin 4) (err : Int) (frac : Fin 1099511627776) (s : State) : Res :=
  let o := os.val
  let st := s.rd (Reg.synOsStatusTlState o)
  if s.frozen = true ∨ st = 0 ∨ !s.on (Reg.synOsStatusLock o) then .next s
  else if st = 1 then .next (s.osAlign o)
  else
    let x := s.os o
    let run := if x.placed && decide (err.natAbs ≤ 100) then min tlRun (x.inRun + 1) else 0
    let s := (s.setOs o { x with frac := frac.val, inRun := run }).wr (Reg.synOsStatusTlErr o) (encSat 16 err)
    if st = 2 ∧ run = tlRun then
      .next ((s.setOs o { s.os o with start := true }).wr (Reg.synOsStatusTlState o) 3)
    else if st = 3 ∧ 500 < err.natAbs then
      .next ((s.wr (Reg.synOsStatusTlState o) 4).report (0x54 + o) (encSat 16 err))
    else if st = 4 ∧ run = tlRun then
      .next ((s.wr (Reg.synOsStatusTlState o) 3).unreport (0x54 + o))
    else .next s

/-- The divider of output `n` restarts at second `sec`. -/
def State.ckoRestart (s : State) (n sec : Nat) : State := s.setCko n { s.cko n with restart := some sec }

/-- The alignment instant S of a synthesizer in ALIGNING: its phase is loaded and the dividers of all its
outputs restart (R97); not once a SCAN has stopped the time outputs (R372). -/
def execTlAlignInstant (os : Fin 4) (s : State) : Res :=
  let o := os.val
  let x := s.os o
  if s.frozen = true ∨ s.rd (Reg.synOsStatusTlState o) ≠ 2 ∨ x.placed then .next s
  else
    let s := s.setOs o { x with placed := true, inRun := 0 }
    .next (s.each (s.ckosOf o) fun s n => s.ckoRestart n x.second)

/-- The outputs of an aligned synthesizer start at their first rising edge at or after the next whole second
(Table SY-5); not once a SCAN has stopped the time outputs (R372). -/
def execTlOutputStart (os : Fin 4) (s : State) : Res :=
  let o := os.val
  let x := s.os o
  if s.frozen = true ∨ x.start = false then .next s
  else
    let s := s.setOs o { x with start := false }
    .next ((s.each (s.ckosOf o) fun s n => s.setCko n { s.cko n with edge := true }).updCkos)

/-- Synthesizer `o` loses lock: HELD, outputs static low (Table SY-5, R95). -/
def State.osUnlock (s : State) (o : Nat) : State :=
  let s := s.wr (Reg.synOsStatusLock o) 0
  let s := s.when (s.rd (Reg.synOsCfgMode o) == 2) fun s =>
    (((s.wr (Reg.synOsStatusTlState o) 1).setOs o {}).each (s.ckosOf o) fun s n =>
      s.setCko n { s.cko n with edge := false }).unreport (0x54 + o)
  s.updCkos

/-- A synthesizer loses lock. -/
def execSynthLockLoss (os : Fin 4) (s : State) : Res :=
  if s.on (Reg.synOsStatusLock os.val) then .next (s.osUnlock os.val) else .next s

/-- A synthesizer that is not OFF gains lock: its frequency-plane outputs may drive, and a time-locked one in
HELD may go on to ALIGNING (R95, Table SY-5). -/
def execSynthesizerLocked (os : Fin 4) (s : State) : Res :=
  let o := os.val
  if s.rd (Reg.synOsCfgMode o) = 0 ∨ s.on (Reg.synOsStatusLock o) ∨ !bit (s.rd Reg.pwrDomainsOn) 10 then .next s
  else .next (((s.wr (Reg.synOsStatusLock o) 1).osAlign o).updCkos)

/-- PD10 is on again: TL_STATE of every synthesizer follows its MODE, HELD for a time-locked one and 0 for the others (R91, R97). -/
def State.osStart (s : State) : State :=
  s.each (List.range 4) fun s o => s.wr (Reg.synOsStatusTlState o) (if s.rd (Reg.synOsCfgMode o) = 2 then 1 else 0)

/-- PD10 goes off: every synthesizer stops and every output is at high impedance (R96). -/
def State.synthOff (s : State) : State := s.each (List.range 4) fun s o => s.osUnlock o

/-- What one leg of a clock output shows: high impedance, static low, static high, the output's wave or its complement. -/
inductive Leg where
  | highZ
  | low
  | high
  | wave
  | complement
  deriving DecidableEq, Repr

/-- A leg in LVCMOS with mode `m` of Table SY-4; `drives`: the output drives. -/
def lvcmosLeg (drives : Bool) (m : Nat) : Leg :=
  match m with
  | 0 => .highZ
  | 1 => if drives then .wave else .low
  | 2 => if drives then .complement else .low
  | _ => .low

/-- A leg of output `n`: where a SCAN has stopped the clock of PD10 a wave stands at the level it had, which the spec does not give
(R372, `Config.stoppedLevel`, log entry 72). -/
def State.stoppedLeg (s : State) (n : Nat) (l : Leg) : Leg :=
  if !bit s.sec.scanStop 10 then l
  else match l with
    | .wave => if Config.stoppedLevel n then .high else .low
    | .complement => if Config.stoppedLevel n then .low else .high
    | l => l

/-- The P and N legs of clock output `n`. High impedance: FORMAT OFF, PD10 off, HALT, and for an
LVCMOS output the supply out of range (Table SY-3, R54, R96, R409). An output that does not
drive holds P low and N high in the differential formats, and each leg low in LVCMOS (R95). -/
def State.ckoLegs (s : State) (n : Nat) : Leg × Leg :=
  let f := s.rd (Reg.synCkoCfgFormat n)
  let d := s.ckoDrives n
  if f = 0 ∨ bit (s.rd Reg.pwrDomainsOn) 10 = false ∨ s.inPhase 10 = true ∨ (f = 5 ∧ s.pins.inRange = false) then (.highZ, .highZ)
  else if f = 5 then (s.stoppedLeg n (lvcmosLeg d (s.rd (Reg.synCkoCfgLegP n))), s.stoppedLeg n (lvcmosLeg d (s.rd (Reg.synCkoCfgLegN n))))
  else if d then (s.stoppedLeg n .wave, s.stoppedLeg n .complement)
  else (.low, .high)

/-- OE_HOST silences or restores a clock output (R95). -/
def execCkoOeHostWrite (n : Fin 12) (value : Bool) (s : State) : Res :=
  .next ((s.wr (Reg.synCkoCtlOeHost n.val) (b2n value)).updCko n.val)

/-! ## SYNC_IN (R100, R101) -/

/-- An edge of SYNC_IN: stamped and armed, or ignored and counted. An edge of the other polarity does
nothing. R101 names no power domain: an edge while PD10 is off is taken as any other (DESIGN CHOICE, log entry 60). -/
def execSyncInEdge (rising : Bool) (s : State) : Res :=
  if rising = s.on Reg.synSyncCfgPol then .next s
  else
    let n := s.rd Reg.synSyncCfgTb
    if s.on Reg.synSyncStatusPending || !s.tbValid n then .next (s.bump Reg.synSyncStatusIgnored)
    else .next ({ s with syn := { s.syn with sync := some (secondAfter (s.atb n).t) } }.wr Reg.synSyncStatusPending 1)

/-- At second S the dividers of every output with SYNC_EN restart (R100); not once a SCAN has stopped them (R372). -/
def execSyncRestart (s : State) : Res :=
  match s.syn.sync with
  | none => .next s
  | some sec =>
    if s.frozen then .next s
    else
    let l := (List.range 12).filter fun n => s.on (Reg.synCkoCfgSyncEn n)
    let s := s.each l fun s n => s.ckoRestart n sec
    .next (({ s with syn := { s.syn with sync := none } }.wr Reg.synSyncStatusPending 0).bump Reg.synSyncStatusDone)

/-! ## Records -/

/-- BAND_TABLE passes R103. -/
def checkBandTable (v : List Byte) : Bool :=
  let entry (b : Nat) : Nat := 8 + 12 * b
  let allZero := zeros v 8 768
  let valid (b : Nat) : Bool := u8 v (entry b + 1) == 1
  let c (b : Nat) : Nat := u32 v (entry b + 4)
  v.length == 776 && decide (u8 v 0 ≤ 7) && zeros v 1 7
    && (List.range 64).all (fun b => decide (u8 v (entry b + 1) ≤ 1) && zeros v (entry b + 2) 2
        && (!valid b || (u32 v (entry b + 8) != 0 && inRange 19800000 (c b) 21400000)))
    && (allZero || (List.range 64).any fun b => valid b && inRange (20625000 - 1031) (c b) (20625000 + 1031))

/-- BAND_TABLE is applied: LOOP_BW, and the band table, which both roots use from SHAFT on, unless it is all zero (R87, R103). -/
def applyBandTable (v : List Byte) (s : State) : State :=
  let s := s.wr Reg.synRootCfgLoopBw (orDef (u8 v 0) 5)
  if zeros v 8 768 then s
  else
    let s := { s with syn := { s.syn with imgBands := true } }
    s.each (List.range 64) fun s b =>
      let o := 8 + 12 * b
      s.wrs [(Reg.synBandCfgCode b, u8 v o), (Reg.synBandCfgValid b, u8 v (o + 1)),
        (Reg.synBandCentreCentreKhz b, u32 v (o + 4)), (Reg.synBandSlopeSlope b, u32 v (o + 8))]

/-- The frequency limit of an output format in mHz (Table SY-3). -/
def formatLimit : Nat → Nat
  | 1 => 1600000000000
  | 2 => 700000000000
  | 3 => 3200000000000
  | 4 => 3200000000000
  | 5 => 250000000000
  | _ => 0

/-- OUTPUTS passes R104. The frequency that R93 limits is the record's nominal one on a time-locked synthesizer, and that of R90 on
the frequency plane. `tbOn`: the base is enabled in TIMEBASES; `slew`: its slew limit in ns/s. -/
def checkOutputs (tbOn : Nat → Bool) (slew : Nat → Nat) (v : List Byte) : Bool :=
  let oe (o : Nat) : Nat := 8 + 24 * o
  let ce (n : Nat) : Nat := 104 + 16 * n
  let mode (o : Nat) : Nat := u8 v (oe o)
  let freq (o : Nat) : Nat := u64 v (oe o + 16)
  let vco (o : Nat) : Nat := 2578125 * (u8 v (oe o + 2) * 2 ^ 40 + u64 v (oe o + 8))
  let belowLimit (o lim : Nat) : Bool :=
    if mode o = 2 then decide (freq o ≤ lim) else decide (vco o * 1000000 ≤ lim * (2 ^ 40 * u8 v (oe o + 3)))
  v.length == 296 && decide (u8 v 0 < 8) && decide (u8 v 1 ≤ 1) && zeros v 2 6
    && (List.range 4).all (fun o =>
        let e := oe o
        decide (mode o ≤ 2) && decide (u8 v (e + 1) < 8) && zeros v (e + 4) 4 && decide (u64 v (e + 8) < 2 ^ 40)
          && (mode o == 2 || u8 v (e + 1) == 0)
          && (if mode o = 0 then u8 v (e + 2) == 0 && u8 v (e + 3) == 0
              else inRange 3 (u8 v (e + 2)) 4 && inRange 4 (u8 v (e + 3)) 32
                && inRange (9600000 * 2 ^ 40) (vco o) (12800000 * 2 ^ 40))
          && (mode o != 2 || (decide (freq o % 1000 = 0) && tbOn (u8 v (e + 1))
                && decide (slew (u8 v (e + 1)) ≤ 10000))))
    && (List.range 12).all (fun n =>
        let e := ce n
        let o := u8 v e
        let f := u8 v (e + 1)
        let legs := u8 v (e + 2)
        let div := u32 v (e + 4)
        decide (o < 4) && decide (f ≤ 5) && decide (legs < 16) && decide (u8 v (e + 3) ≤ 1) && inRange 1 div 16777216
          && decide (u32 v (e + 8) < div) && decide (u8 v (e + 12) ≤ 63) && decide (u8 v (e + 13) ≤ 31)
          && zeros v (e + 14) 2
          && (u8 v (e + 3) == 0 || tbOn (u8 v 0))
          && (f == 0 || (mode o != 0 && belowLimit o (formatLimit f * div)))
          && (mode o != 2 || decide (freq o / 1000 % div = 0))
          && (if f = 5 then legs != 0 else legs == 0))

/-- OUTPUTS is applied (R104). N and P of a synthesizer that the record leaves OFF keep their reset value 4, which its zero bytes
are no legal setting for (DEDUCED, log entry 60). -/
def applyOutputs (v : List Byte) (s : State) : State :=
  let s := s.wrs [(Reg.synSyncCfgTb, u8 v 0), (Reg.synSyncCfgPol, u8 v 1)]
  let s := s.each (List.range 4) fun s o =>
    let e := 8 + 24 * o
    let m := u8 v e
    let s := s.wrs [(Reg.synOsCfgMode o, m), (Reg.synOsCfgTb o, u8 v (e + 1)),
      (Reg.synOsFracLoFracLo o, u64 v (e + 8)), (Reg.synOsFracHiFracHi o, u64 v (e + 8) / 2 ^ 32),
      (Reg.synOsFreqLoFreqLo o, u64 v (e + 16)), (Reg.synOsFreqHiFreqHi o, u64 v (e + 16) / 2 ^ 32),
      (Reg.synOsStatusTlState o, if m = 2 then 1 else 0)]
    s.when (m != 0) fun s => s.wrs [(Reg.synOsCfgN o, u8 v (e + 2)), (Reg.synOsCfgP o, u8 v (e + 3))]
  s.each (List.range 12) fun s n =>
    let e := 104 + 16 * n
    s.wrs [(Reg.synCkoCfgOs n, u8 v e), (Reg.synCkoCfgFormat n, u8 v (e + 1)),
      (Reg.synCkoCfgLegP n, u8 v (e + 2) % 4), (Reg.synCkoCfgLegN n, u8 v (e + 2) / 4),
      (Reg.synCkoCfgSyncEn n, u8 v (e + 3)), (Reg.synCkoDivDiv n, u32 v (e + 4)),
      (Reg.synCkoPhasePhaseCyc n, u32 v (e + 8)), (Reg.synCkoCtlCoarse n, u8 v (e + 12)),
      (Reg.synCkoCtlFine n, u8 v (e + 13))]

end Sys2Proof.Machine
end

