-- ==== Sys2Proof/Machine/Refsel.lean ====
section
/-! DEFINITION. Fantail: reference qualification and selection (03_reference_selection). -/
namespace Sys2Proof.Machine

/-! ## Candidates -/

/-- Candidate states (Table FT-3). -/
def candOff : Nat := 0
/-- LOS. -/
def candLos : Nat := 1
/-- DISQ. -/
def candDisq : Nat := 2
/-- SOAK. -/
def candSoak : Nat := 3
/-- ELIGIBLE. -/
def candElig : Nat := 4

/-- What Fantail holds of candidate `c`. -/
def State.cand (s : State) (c : Nat) : Cand := Tab.get s.refsel.cands c {}

/-- What Fantail holds of candidate `c`, set. -/
def State.setCand (s : State) (c : Nat) (x : Cand) : State :=
  { s with refsel := { s.refsel with cands := Tab.set s.refsel.cands c x {} } }

/-- The state of candidate `c`. -/
def State.candState (s : State) (c : Nat) : Nat := s.rd (Reg.refselCandStatusState c)

/-- The lane that RCS candidate `c` (8 to 23) names (R63). -/
def State.rcsLane (s : State) (c : Nat) : Nat :=
  let k := (c - 8) / 4
  match (c - 8) % 4 with
  | 0 => s.rd (Reg.refselRcsMapLane0 k)
  | 1 => s.rd (Reg.refselRcsMapLane1 k)
  | 2 => s.rd (Reg.refselRcsMapLane2 k)
  | _ => s.rd (Reg.refselRcsMapLane3 k)

/-- The number of lanes of a port of mode `m` (Table EP-1). -/
def portLanes (m : Nat) : Nat := if m = 0 then 0 else if m ≤ 2 then 1 else if m = 3 then 2 else 4

/-- The port that lane `l` belongs to (R132), `l` where none is. -/
def State.portOf (s : State) (l : Nat) : Nat :=
  (((List.range 4).map (l - ·)).find? fun p => decide (l < p + portLanes (s.rd (Reg.portCfgMode p)))).getD l

/-- The rank of candidate `c` by R66: 0 in OFF and LOS, the image's for a pin and for a port without ESMC
receive, the marker's stable QL on a Leat lane, the last ESMC PDU's on a port. -/
def State.rankOf (s : State) (c : Nat) : Nat :=
  if s.candState c ≤ candLos then 0
  else if c < 8 then s.rd (Reg.refselCandCfgQlFixed c)
  else
    let l := s.rcsLane c
    if s.rd (Reg.laneCfgMode l) = 1 then s.rd (Reg.laneRxQlStable l)
    else if s.on (Reg.portCfgEsmcRx (s.portOf l)) then (s.cand c).esmcRank
    else s.rd (Reg.refselCandCfgQlFixed c)

/-- CAND_STATUS.RANK follows R66. -/
def State.setRank (s : State) (c : Nat) : State := s.wr (Reg.refselCandStatusRank c) (s.rankOf c)

/-- The ELIGIBLE mask follows a candidate's state. -/
def State.setElig (s : State) (c : Nat) : State :=
  s.wrBit Reg.refselEligibleMask c (s.candState c == candElig)

/-- Candidate `c` enters DISQ with a reason (Table FT-2): the event is counted, the second count restarts. -/
def State.candToDisq (s : State) (c reason : Nat) : State :=
  let x := s.cand c
  (((s.setCand c { x with secs := 0, acqFail := reason == 3 }).wrs
    [(Reg.refselCandStatusState c, candDisq), (Reg.refselCandStatusReason c, reason),
     (Reg.refselCandSoakSoakLeft c, 0)]).bump (Reg.refselCandCountsDisqCount c)).setElig c

/-- Candidate `c` enters SOAK and starts its WTR timer. -/
def State.candToSoak (s : State) (c : Nat) : State :=
  let x := s.cand c
  let w := s.rd (Reg.refselLimsetWtrWtr (s.rd (Reg.refselCandCfgLimset c)))
  (s.setCand c { x with secs := 0, acqFail := false }).wrs
    [(Reg.refselCandStatusState c, candSoak), (Reg.refselCandStatusReason c, 0),
     (Reg.refselCandSoakSoakLeft c, w)]

/-! ## The monitored values (R70) -/

/-- The sum of a list. -/
def sumI (l : List Int) : Int := l.foldl (· + ·) 0

/-- F64 in 0.01 ppb of a history in 0.1 ppb. -/
def f64Of (h : List Int) : Int := if h.length = 0 then 0 else roundDiv (10 * sumI h) h.length

/-- Σ i·x_i of a list, i from 0. -/
def dotIdx (l : List Int) : Int := (l.zipIdx.map fun (v, i) => v * (i : Int)).foldl (· + ·) 0

/-- The least-squares slope in 0.001 ppb/s of a history in 0.1 ppb, newest first. -/
def driftOf (h : List Int) : Int :=
  let l := h.reverse
  let n := l.length
  let sx : Nat := n * (n - 1) / 2
  let sxx : Nat := (n - 1) * n * (2 * n - 1) / 6
  let den : Nat := n * sxx - sx * sx
  if den = 0 then 0 else roundDiv (100 * ((n : Int) * dotIdx l - (sx : Int) * sumI l)) den

/-- FREL in 0.01 ppb of candidate history `h` against the selected candidate's `hs`, none while either is
empty. -/
def frelOf (h hs : List Int) : Option Int :=
  let k := min (min h.length hs.length) 64
  if k = 0 then none else some (roundDiv (10 * (sumI (h.take k) - sumI (hs.take k))) k)

/-- The values of a candidate at a second boundary. -/
structure CandVals where
  f1s   : Int
  f64   : Int
  drift : Option Int
  frel  : Option Int
  deriving DecidableEq, Repr

/-- The selected candidate, 31 none. -/
def State.selected (s : State) : Nat := s.rd Reg.refselStateSelected

/-- The values of candidate `c` from the histories as they stand. -/
def State.candVals (s : State) (c : Nat) : CandVals :=
  let h := (s.cand c).hist
  let sel := s.selected
  { f1s := h.headD 0
    f64 := f64Of h
    drift := if h.length ≥ 8 then some (driftOf h) else none
    frel := if sel = 31 then none else if sel = c then some 0 else frelOf h (s.cand sel).hist }

/-- `|v|` exceeds `num / den` of the limit. -/
def beyond (v lim : Int) (num den : Nat) : Bool := (v.natAbs * den : Int) > lim * num

/-- The reason (Table FT-5) of the first tested value beyond `num/den` of its limit, 0 none (R71, R72). -/
def State.limitReason (s : State) (c num den : Nat) : Nat :=
  let v := s.candVals c
  let l := s.rd (Reg.refselCandCfgLimset c)
  if beyond v.f1s (10 * s.rd (Reg.refselLimsetLim1sLim1s l)) num den then 5
  else if beyond v.f64 (s.rd (Reg.refselLimsetLim64sLim64s l)) num den then 6
  else match v.drift with
    | some d => if beyond d (s.rd (Reg.refselLimsetLimDriftLimDrift l)) num den then 7 else relReason v l
    | none => relReason v l
where
  relReason (v : CandVals) (l : Nat) : Nat :=
    match v.frel with
    | some r => if s.on (Reg.refselCandCfgRelEn c) && s.selected != c
        && beyond r (s.rd (Reg.refselLimsetLimRelLimRel l)) num den then 8 else 0
    | none => 0

/-- The value registers of candidate `c` follow R70, saturating. DRIFT is not computed while the history holds fewer than 8
values; it then keeps what it last read, also across a cleared history (DESIGN CHOICE, log entry 59). -/
def State.writeVals (s : State) (c : Nat) : State :=
  let v := s.candVals c
  let s := s.wrs [(Reg.refselCandF1sF1s c, encSat 32 v.f1s), (Reg.refselCandF64F64 c, encSat 32 v.f64)]
  let s := match v.drift with
    | some d => s.wr (Reg.refselCandDriftDrift c) (encSat 32 d)
    | none => s
  match v.frel with
  | some r => s.wr (Reg.refselCandFrelFrel c) (encSat 32 r)
  | none => s.wr (Reg.refselCandFrelFrel c) 0x80000000

/-! ## Selection and the selector -/

/-- Candidate `c` is better than `b` (R73). -/
def State.better (s : State) (c b : Nat) : Bool :=
  let rc := s.rd (Reg.refselCandStatusRank c)
  let rb := s.rd (Reg.refselCandStatusRank b)
  rc > rb || (rc == rb && s.rd (Reg.refselCandCfgPrio c) < s.rd (Reg.refselCandCfgPrio b))

/-- The choice of R73: the best ELIGIBLE candidate, in index order. -/
def State.choice (s : State) : Option Nat :=
  (List.range 24).foldl (fun best c =>
    if s.candState c != candElig then best
    else match best with
      | none => some c
      | some b => if s.better c b then some c else some b) none

/-- The rank the device sends on lanes and ports other than the selected one (R68); 0 after HALT_DEVICE
(R335). -/
def State.outRank (s : State) : Nat :=
  if s.halted then 0
  else
    let sel := s.selected
    match s.rd Reg.refselStateSelState with
    | 1 | 2 => s.rd (Reg.refselCandStatusRank sel)
    | 3 => if sel = 31 then s.rd Reg.refselCfgHoQl else s.rd (Reg.refselCandStatusRank sel)
    | 4 => s.rd Reg.refselCfgHoQl
    | _ => s.rd Reg.refselCfgFreerunQl

/-- OUT_QL follows R68; a change is due an ESMC event PDU (R69). -/
def State.updQl (s : State) : State :=
  let r := s.outRank
  if s.rd Reg.refselOutQlRank = r then s
  else { s.wr Reg.refselOutQlRank r with refsel := { s.refsel with qlChanged := true } }

/-- SEL_VALID is high: from XO_GOOD on (R76). Around a change of SEL_STATE the pins pass through the levels that `State.setSel`
sends. -/
def State.selValid (s : State) : Bool := decide (2 ≤ s.rd Reg.clkXoStatusState)

/-- SEL_STATE changes to `st`, with its interrupt (R75, Table HI-9): SEL_VALID falls, SEL_STATE[2:0] changes, SEL_VALID rises
(R76). On entry to HOLDOVER its seconds count from 0 (R81). -/
def State.setSel (s : State) (st : Nat) : State :=
  let old := s.rd Reg.refselStateSelState
  if old = st then s
  else
    let s := ((s.send (.sel false old)).send (.sel false st)).send (.sel true st)
    let s := s.when (st == 4) fun s => { s with refsel := { s.refsel with hoWhole := false } }.wr Reg.refselHoStatusHoSeconds 0
    (s.wr Reg.refselStateSelState st).intr 2

/-- SELECTED changes, with the SELECTED bits of the candidates. -/
def State.setSelected (s : State) (c : Nat) : State :=
  let old := s.selected
  let s := s.when (c == 31) fun s => { s with refsel := { s.refsel with inWhole := false } }
  let s := s.when (old != 31) (fun s => s.wr (Reg.refselCandStatusSelected old) 0)
  let s := s.wr Reg.refselStateSelected c
  s.when (c != 31) (fun s => s.wr (Reg.refselCandStatusSelected c) 1)

/-- Candidate `c` is a REFIN below 1 kHz (R78). -/
def State.isSlow (s : State) (c : Nat) : Bool :=
  c < 8 && s.rd (Reg.refselCandFreqLoFreqLo c) + 2 ^ 32 * s.rd (Reg.refselCandFreqHiFreqHi c) < 1000000

/-- Half of the nominal period of candidate `c` in ps: of its frequency for a REFIN, of the lane's word rate for an RCS (R63). -/
def State.halfPeriod (s : State) (c : Nat) : Nat :=
  if c < 8 then
    let f := s.rd (Reg.refselCandFreqLoFreqLo c) + 2 ^ 32 * s.rd (Reg.refselCandFreqHiFreqHi c)
    (roundDiv 1000000000000000 (2 * f)).toNat
  else if s.rd (Reg.laneCfgQrate (s.rcsLane c)) = 2 then 1939 else 776

/-- A phase step measured against candidate `c`, in ps: the measurement ends at half the nominal period (R79). -/
def State.stepRange (s : State) (c : Nat) (step : Int) : Int :=
  let h : Int := s.halfPeriod c
  max (-h) (min h step)

/-- The roots are connected to candidate `c`: the bandwidth of R78, the measured step stored and handed to
both timekeepers (R79, R169); under HALT_DEVICE the roots stay in HOLD, so no motion of the shaft follows (R335). -/
def State.connect (s : State) (c : Nat) (step : Int) : State :=
  let slow := s.isSlow c
  let step := s.stepRange c step
  let s := (s.setSelected c).wr Reg.refselStateLowbw (b2n slow)
  let s := s.rootsConnect
  let e := enc 48 step
  let s := s.wrs [(Reg.refselStepLoStep, e), (Reg.refselStepHiStep, e / 2 ^ 32), (Reg.refselStepInfoCand, c)]
  (s.bump Reg.refselStepInfoStepCount).when (!s.halted) fun s => s.tbRefStep step

/-- The mean that R81 holds at, 0.01 ppb: of the 64 oldest of 66 history values, else of the last complete second with an input;
none where there was none. -/
def State.holdMean (s : State) : Option Int :=
  if s.on Reg.refselStateHistValid then some (roundDiv (sumI (s.refsel.hist.take 64)) 64) else s.refsel.lastSec

/-- The DCO word that both roots hold at (R81). Without a complete second of input it is the DCO's current value, not rounded. R81
speaks of one DCO and one frequency and does not say whose the value is where the two DCOs differ (the standby root's trim, a band
clamp): the active root's, for both (DESIGN CHOICE, log entry 67). -/
def State.holdDco (s : State) : Int :=
  match s.holdMean with
  | some f => dcoWord f
  | none => (s.root s.activeRoot).dco

/-- The holdover frequency of R81 as HO_FREQ shows it, 0.01 ppb. -/
def State.holdFreq (s : State) : Int := s.holdMean.getD (dcoPpb (s.root s.activeRoot).dco)

/-- The roots lose their input and hold (R81). -/
def State.disconnect (s : State) : State :=
  ((s.setSelected 31).wr Reg.refselHoFreqFreq (encSat 32 s.holdFreq)).rootsHold s.holdDco

/-- No reference is left (Table FT-4): HOLDOVER, FREERUN or DISQUALIFIED-ALL. -/
def State.selLost (s : State) : State :=
  let st := if s.on Reg.refselStateHistValid then 4 else if s.on Reg.refselStateEverLocked then 5 else 0
  let s := s.disconnect.wrs [(Reg.refselStateTarget, 31), (Reg.refselStatePhase, 0)]
  s.setSel st

/-- LOCKED is entered. -/
def State.selLocked (s : State) : State := (s.wr Reg.refselStateEverLocked 1).setSel 2

/-- One K12 evaluation (R73, R75) outside SETTLE. `step` is the phase step measured if the roots connect. -/
def State.selEval1 (s : State) (step : Int) : State :=
  let sel := s.selected
  match s.rd Reg.refselStateSelState, s.choice with
  | 0, some c | 4, some c | 5, some c => (s.connect c step).setSel 1
  | 1, none | 2, none => s.selLost
  | 1, some c | 2, some c =>
    if c = sel then s
    else ({ s with refsel := { s.refsel with before := s.rd Reg.refselStateSelState } }.wrs
      [(Reg.refselStateTarget, c), (Reg.refselStatePhase, 1)]).setSel 3
  | 3, none => if s.rd Reg.refselStatePhase = 1 then s.selLost else s
  | 3, some c =>
    if s.rd Reg.refselStatePhase = 1 then
      if c = sel then
        let s' := s.wrs [(Reg.refselStateTarget, 31), (Reg.refselStatePhase, 0)]
        if s.refsel.before = 1 then s'.setSel 1 else s'.selLocked
      else if c = s.rd Reg.refselStateTarget then s
      else (s.wr Reg.refselStateTarget c).bump Reg.refselSwitchesRetargets
    else s
  | _, _ => s

/-- SETTLE ends in LOCKED or ACQUIRE (Table FT-4). -/
def State.settleEnd (s : State) (inWin : Bool) : State :=
  let s := s.wrs [(Reg.refselStateTarget, 31), (Reg.refselStatePhase, 0)]
  if inWin then s.selLocked else s.setSel 1

/-- The evaluation of every K12 cycle: nothing while a power state holds the selector; SETTLE ends at once
where SELECTED has left ELIGIBLE (whether the loop had then stayed in LOCK_WIN is a free value); the output
rank follows. -/
def State.selEval (s : State) (step : Int) : State :=
  if s.refsel.held then s.updQl
  else if s.rd Reg.refselStateSelState = 3 ∧ s.rd Reg.refselStatePhase = 3 then
    if s.selected = 31 ∨ s.candState s.selected ≠ candElig then
      ((s.draw.settleEnd (Config.freeBit s.free)).selEval1 step).updQl
    else s.updQl
  else (s.selEval1 step).updQl

/-- A free phase step, for an evaluation that connects the roots at an instant that gives no measurement. -/
def State.selEvalFree (s : State) : State := s.draw.selEval (Config.freeInt s.free)

/-- Candidate `c` is lost (R65, Table FT-2): rank 0, history cleared, disconnected where it was selected. F1S, F64 and DRIFT,
which R70 does not update in LOS, keep what they last read (DESIGN CHOICE, log entry 59). -/
def State.candLosEnter (s : State) (c reason : Nat) : State :=
  if s.candState c = candOff then s
  else
    let again := s.candState c == candLos
    let s := (s.setCand c { s.cand c with hist := [], secs := 0, acqFail := false }).wrs
      [(Reg.refselCandStatusState c, candLos), (Reg.refselCandStatusReason c, reason),
       (Reg.refselCandStatusRank c, 0), (Reg.refselCandSoakSoakLeft c, 0)]
    let s := if again then s else s.bump (Reg.refselCandCountsLosCount c)
    let s := s.setElig c
    s.when (s.selected == c) State.disconnect

/-- Candidate `c` is lost, and selection follows. -/
def State.candLost (s : State) (c reason : Nat) : State := (s.candLosEnter c reason).selEvalFree

/-- The RCS candidates that name lane `l` and are enabled. -/
def State.rcsOfLane (s : State) (l : Nat) : List Nat :=
  ((List.range 16).map (· + 8)).filter fun c => s.on (Reg.refselCandCfgEnable c) && s.rcsLane c == l

/-- The recovered clock of lane `l` is lost (R65). -/
def State.rcsLost (s : State) (l : Nat) : State := s.each (s.rcsOfLane l) fun s c => s.candLost c 1

/-- The rank of candidate `c` may have changed: at rank 0 it leaves SOAK or ELIGIBLE at once with reason QL,
in DISQ the reason becomes QL unless a higher one stands (R67, Table FT-2). Where the rank returns to 1 or more, QL stands until the
candidate leaves DISQ or another reason takes its place, of which R67 says nothing (DESIGN CHOICE, log entry 72). -/
def State.rankChange (s : State) (c : Nat) : State :=
  let s := s.setRank c
  let z := s.rd (Reg.refselCandStatusRank c) == 0
  let s := if !z then s
    else match s.candState c with
      | 3 | 4 => s.candToDisq c 4
      | 2 => s.when (decide (s.rd (Reg.refselCandStatusReason c) = 0 ∨ 4 < s.rd (Reg.refselCandStatusReason c)))
          fun s => s.wr (Reg.refselCandStatusReason c) 4
      | _ => s
  s.selEvalFree

/-! ## The second boundary -/

/-- The monitored candidates take the F1S of the second that ends. -/
def State.pushF1s (s : State) (f1s : List Int) : State :=
  s.each (List.range 24) fun s c =>
    if s.candState c ≤ candLos then s
    else s.setCand c { s.cand c with hist := ((f1s.getD c 0) :: (s.cand c).hist).take 64 }

/-- The recovered clock of RCS candidate `c` is there (R65, R135): its Leat lane is UP, or its port is UP or in RFAULT, in
a powered quadrant. -/
def State.rcsSignal (s : State) (c : Nat) : Bool :=
  let l := s.rcsLane c
  s.rd (Reg.refselCandStatusReason c) != 2
    && (if s.rd (Reg.laneCfgMode l) = 1 then s.rd (Reg.laneStateTstate l) == 5
        else decide (2 ≤ s.rd (Reg.portLinkState (s.portOf l))))

/-- Candidate `c` at a second boundary (R71, R72, Table FT-2). `act`: its signal was active for the
whole second, which counts where that second began after APPLY (R62). A candidate that leaves LOS here holds no value yet and is
not tested. The wait of ACQ_FAIL began within a second, so it is over at the boundary after its last whole second. -/
def State.candSecond (s : State) (c : Nat) (act : Bool) : State :=
  match s.candState c with
  | 1 => if act && s.refsel.began && (decide (c < 8) || s.rcsSignal c) then ((s.candToDisq c 1).setRank c) else s
  | 2 =>
    let x := { s.cand c with secs := (s.cand c).secs + 1 }
    let s := s.setCand c x
    let w := s.rd (Reg.refselLimsetWtrWtr (s.rd (Reg.refselCandCfgLimset c)))
    let rank := s.rd (Reg.refselCandStatusRank c)
    if 1 ≤ rank ∧ s.limitReason c 4 5 = 0 ∧ (x.acqFail = true → w < x.secs) then s.candToSoak c
    else s
  | 3 =>
    let x := { s.cand c with secs := (s.cand c).secs + 1 }
    let s := s.setCand c x
    let w := s.rd (Reg.refselLimsetWtrWtr (s.rd (Reg.refselCandCfgLimset c)))
    let r := s.limitReason c 4 5
    let s := s.wr (Reg.refselCandSoakSoakLeft c) (w - 10 * x.secs)
    if r ≠ 0 then s.candToDisq c r
    else if w ≤ 10 * x.secs ∧ 8 ≤ x.hist.length then
      (s.wr (Reg.refselCandStatusState c) candElig).setElig c
    else s
  | 4 =>
    let r := s.limitReason c 1 1
    if r ≠ 0 then s.candToDisq c r else s
  | _ => s

/-- The holdover history takes the mean DCO frequency of a LOCKED second (R80): one at whose end the state is LOCKED, be it only for part of
it, of which R80 says nothing (DESIGN CHOICE, log entry 72); a complete second with an input is kept; the
seconds that lie wholly in HOLDOVER count (R81). -/
def State.holdoverSecond (s : State) (dco : Int) : State :=
  let connected := s.selected != 31
  let hold := s.rd Reg.refselStateSelState == 4
  let s := s.when (connected && s.refsel.inWhole) fun s => { s with refsel := { s.refsel with lastSec := some dco } }
  let s := if s.rd Reg.refselStateSelState = 2 then
      let h := (s.refsel.hist ++ [dco])
      let h := h.drop (h.length - 66)
      { s with refsel := { s.refsel with hist := h } }.wrs
        [(Reg.refselHoStatusHistCount, h.length), (Reg.refselStateHistValid, b2n (h.length == 66))]
    else s
  let s := s.when (hold && s.refsel.hoWhole) fun s => s.bump Reg.refselHoStatusHoSeconds
  { s with refsel := { s.refsel with inWhole := connected, hoWhole := hold } }

/-- A field that shows whole seconds still to run, rounded up, loses one, unless its timer `i` began within the second that ends;
the timer's end is its own command. -/
def State.secondLess (s : State) (f : Fld) (i : Nat) : State :=
  s.when (decide (1 < s.rd f) && !s.refsel.fresh.contains i) fun s => s.wr f (s.rd f - 1)

/-- A second of K12 passes for the times still to run: WTR_LEFT (R318) and LEASE_LEFT (R370), each rounded up as the second ends. -/
def State.secondsLeft (s : State) : State :=
  let s := (s.each (List.range 64) fun s i => s.secondLess (Reg.redUnitWtrWtrLeft (4 + i)) (4 + i)).secondLess Reg.secDbgLeaseLeft 0
  { s with refsel := { s.refsel with fresh := [] } }

/-- A REFMON second ends (R70 to R73, R80); it also counts the age of each port's last ESMC PDU (Table EP-8) and the
times that registers show in seconds. -/
def execRefmonSecond (f1s : List Int) (active : List Bool) (dcoMean step : Int) (s : State) : Res :=
  let s := s.holdoverSecond dcoMean
  let s := s.pushF1s f1s
  let s := s.each (List.range 24) fun s c => if s.candState c ≤ candLos then s else s.writeVals c
  let s := s.each (List.range 24) fun s c => s.candSecond c (active.getD c false)
  let s := s.each (List.range 128) fun s n => s.when (s.on (Reg.portCfgEsmcRx n)) fun s => s.bump (Reg.portEsmcRxAgeS n)
  .next ({ s with refsel := { s.refsel with began := true } }.secondsLeft.selEval step)

/-- A REFIN candidate shows no edge for its LOS detection time (R65). -/
def execRefinLosTimeout (cand : Fin 8) (s : State) : Res := .next (s.candLost cand.val 1)

/-- The selected candidate has not been LOCKED since it was selected: ACQUIRE, a DECIDE that began in ACQUIRE, or
SETTLE. -/
def State.selAcquiring (s : State) : Bool :=
  match s.rd Reg.refselStateSelState with
  | 1 => true
  | 3 => s.rd Reg.refselStatePhase == 3 || (s.rd Reg.refselStatePhase == 1 && s.refsel.before == 1)
  | _ => false

/-- A selected candidate not LOCKED within ACQ_TIMEOUT is disqualified with ACQ_FAIL (Table FT-2). -/
def execAcqFailTimeout (s : State) : Res :=
  let c := s.selected
  if c = 31 ∨ s.candState c ≠ candElig ∨ !s.selAcquiring then .next s
  else .next (s.candToDisq c 3).selEvalFree

/-- The DPLL phase error has stayed within LOCK_WIN for 1 s in ACQUIRE (Table FT-4). -/
def execSelAcquireLock (s : State) : Res :=
  if s.rd Reg.refselStateSelState = 1 then .next (s.selLocked.selEvalFree) else .next s

/-- The DECIDE time elapses: COMMIT connects both roots to TARGET, and SETTLE begins (Table FT-4). -/
def execSelDecideExpire (step : Int) (s : State) : Res :=
  if s.rd Reg.refselStateSelState = 3 ∧ s.rd Reg.refselStatePhase = 1 then
    let t := s.rd Reg.refselStateTarget
    .next (((s.connect t step).wr Reg.refselStatePhase 3).bump Reg.refselSwitchesCommits).updQl
  else .next s

/-- SETTLE ends; `inWin`: the phase error was within LOCK_WIN over its last 100 ms (Table FT-4). -/
def execSelSettleEnd (inWin : Bool) (s : State) : Res :=
  if s.rd Reg.refselStateSelState = 3 ∧ s.rd Reg.refselStatePhase = 3 then
    .next (s.settleEnd inWin).selEvalFree
  else .next s

/-- HO_LIMIT seconds of HOLDOVER elapse: DISQUALIFIED-ALL, the holdover frequency kept (Table FT-4). In KEEP the selector is
held in HOLDOVER (R77). -/
def execSelHoldoverLimit (s : State) : Res :=
  if s.rd Reg.refselStateSelState = 4 ∧ s.rd Reg.refselHoLimitSeconds ≠ 0 ∧ s.refsel.held = false then .next (s.setSel 5).updQl
  else .next s

/-! ## The REFSEL record -/

/-- The byte offset of candidate entry `c` of a REFSEL record. -/
def candOff' (c : Nat) : Nat := 112 + 16 * c

/-- One candidate entry of a REFSEL record passes R83. `laneUse`: 0 unconfigured, 1 Leat, 2 port without
ESMC receive, 3 port with it. -/
def checkCand (v : List Byte) (laneUse : Nat → Nat) (c : Nat) : Bool :=
  let o := candOff' c
  let en := u8 v o
  let flags := u8 v (o + 4)
  let freq := u64 v (o + 8)
  let pair := flags % 2
  let lane := u8 v (16 + (c - 8))
  let others := ((List.range 16).map (· + 8)).filter fun d => d != c && u8 v (candOff' d) == 1
  decide (en ≤ 1) && (if en = 1 then inRange 1 (u8 v (o + 1)) 15 else u8 v (o + 1) == 0)
    && decide (u8 v (o + 2) ≤ 3) && decide (u8 v (o + 3) ≤ 15) && decide (flags ≤ 3) && zeros v (o + 5) 3
    && (flags < 2 || u32 v (32 + 20 * u8 v (o + 2) + 12) != 0)
    && (if c < 8 then
          (en = 0 || (inRange 1000 freq 800000000000 && u8 v (o + 3) != 0))
          && (c % 2 = 0 || pair == 0)
          && (c % 2 = 0 || u8 v (candOff' (c - 1) + 4) % 2 = 0 || (en == 0 && freq == 0))
        else
          pair == 0 && freq == 0
          && (en = 0 || (lane < 128 && laneUse lane != 0
              && others.all (fun d => u8 v (16 + (d - 8)) != lane)
              && (laneUse lane != 2 || u8 v (o + 3) != 0))))

/-- The REFSEL record passes R82, R83. LIM_64S is held against 100 × LIM_1S after a 0 has become its default: R83 does not say on which values
the check runs (DESIGN CHOICE, log entry 72). -/
def checkRefsel (laneUse : Nat → Nat) (v : List Byte) : Bool :=
  v.length == 496 && decide (u8 v 0 ≤ 1) && decide (u8 v 1 ≤ 15) && decide (u8 v 2 ≤ 15) && zeros v 3 1
    && zeroOr 10 (u16 v 4) 1000 && zeroOr 10 (u16 v 6) 500 && zeroOr 1 (u16 v 8) 600
    && zeroOr 10 (u16 v 10) 10000
    && (List.range 16).all (fun i => u8 v (16 + i) < 128 || u8 v (16 + i) == 255)
    && (List.range 4).all (fun l =>
        let o := 32 + 20 * l
        zeroOr 1 (u16 v (o + 16)) 6000 && zeros v (o + 18) 2
          && decide (orDef (u32 v (o + 4)) 920000 ≤ 100 * orDef (u32 v o) 60000))
    && (List.range 24).all (checkCand v laneUse)

/-- The REFSEL record is applied (R82). -/
def applyRefsel (v : List Byte) (s : State) : State :=
  let s := s.wrs
    [(Reg.refselCfgQlOption, u8 v 0), (Reg.refselCfgHoQl, orDef (u8 v 1) 5),
     (Reg.refselCfgFreerunQl, orDef (u8 v 2) 5), (Reg.refselTimesDecideMs, orDef (u16 v 4) 100),
     (Reg.refselTimesSettle10ms, orDef (u16 v 6) 50), (Reg.refselAcqAcqTimeoutS, orDef (u16 v 8) 60),
     (Reg.refselAcqLockWinPs, orDef (u16 v 10) 500), (Reg.refselHoLimitSeconds, u32 v 12)]
  let s := s.each (List.range 4) fun s k => s.wrs
    [(Reg.refselRcsMapLane0 k, u8 v (16 + 4 * k)), (Reg.refselRcsMapLane1 k, u8 v (17 + 4 * k)),
     (Reg.refselRcsMapLane2 k, u8 v (18 + 4 * k)), (Reg.refselRcsMapLane3 k, u8 v (19 + 4 * k))]
  let s := s.each (List.range 4) fun s l =>
    let o := 32 + 20 * l
    s.wrs [(Reg.refselLimsetLim1sLim1s l, orDef (u32 v o) 60000),
      (Reg.refselLimsetLim64sLim64s l, orDef (u32 v (o + 4)) 920000),
      (Reg.refselLimsetLimDriftLimDrift l, orDef (u32 v (o + 8)) 1000),
      (Reg.refselLimsetLimRelLimRel l, u32 v (o + 12)), (Reg.refselLimsetWtrWtr l, orDef (u16 v (o + 16)) 100)]
  s.each (List.range 24) fun s c =>
    let o := candOff' c
    s.wrs [(Reg.refselCandCfgEnable c, u8 v o), (Reg.refselCandCfgPrio c, u8 v (o + 1)),
      (Reg.refselCandCfgLimset c, u8 v (o + 2)), (Reg.refselCandCfgQlFixed c, u8 v (o + 3)),
      (Reg.refselCandCfgPair c, u8 v (o + 4) % 2), (Reg.refselCandCfgRelEn c, u8 v (o + 4) / 2),
      (Reg.refselCandFreqLoFreqLo c, u64 v (o + 8)), (Reg.refselCandFreqHiFreqHi c, u64 v (o + 8) / 2 ^ 32)]

/-- At APPLY every enabled candidate enters LOS with an empty history (R62). -/
def State.refselStart (s : State) : State :=
  let s := s.each (List.range 24) fun s c =>
    if s.on (Reg.refselCandCfgEnable c) then
      (s.wrs [(Reg.refselCandStatusState c, candLos), (Reg.refselCandStatusReason c, 1)]).bump
        (Reg.refselCandCountsLosCount c)
    else s
  { s with refsel := { s.refsel with began := false } }.wr Reg.refselHoStatusQualified (b2n s.boot.xoQual)

end Sys2Proof.Machine
end

