-- ==== Sys2Proof/Machine/Pulses.lean ====
section
/-! DEFINITION. Time stamps, transmit queues, pulse generators and edge captures
(09_timestamps_pulses_captures). -/
namespace Sys2Proof.Machine

/-! ## Words and calibrated values -/

/-- The word of fields `l` as it stands in the register file. -/
def State.wordOf (s : State) (l : List Fld) : Nat := l.foldl (fun w f => w + s.rd f * 2 ^ f.lo) 0

/-- The value of calibrated element `i` (Table CA-1), 2^-16 ns. -/
def State.cal (s : State) (i : Nat) : Int := s.rdS (Reg.calValValue i)

/-- A delay in 0.01 ps, times 65 536: in 2^-16 ns / 100 000. -/
def centiPs (x : Int) : Int := x * 65536

/-! ## Descriptor stamps (R208, R209) -/

/-- A descriptor's ingress stamp (Table TS-1). -/
def stampWord (valid : Bool) (tb t : Nat) : Nat :=
  b2n valid * 2 ^ 63 + tb * 2 ^ 60 + tSec t % 2 ^ 14 * 2 ^ 46 + tNs t * 2 ^ 16 + tFrac t

/-- The full time of a descriptor stamp, extended against its base's current time (R209), 2^-16 ns. -/
def State.stampTime (s : State) (w : Nat) : Nat :=
  let n : Nat := w / 2 ^ 60 % 8
  let sec : Nat := w / 2 ^ 46 % 2 ^ 14
  let now : Nat := tSec (s.atb n).t
  let d := sgn 14 (enc 14 ((sec : Int) - now))
  let wd := if s.on (Reg.tkTbCfgFormat n) then 32 else 48
  enc wd ((now : Int) + d) * tSecond + (w / 2 ^ 16 % 2 ^ 30) * 65536 + w % 65536

/-! ## Transmit queues (R210, R211) -/

/-- The entries of transmit queue `n`, oldest first. -/
def State.txq (s : State) (n : Nat) : List TxEnt := Tab.get s.pul.txq n []

/-- The entries of transmit queue `n` set, with COUNT and the NE bit. -/
def State.setTxq (s : State) (n : Nat) (l : List TxEnt) : State :=
  ({ s with pul := { s.pul with txq := Tab.set s.pul.txq n l [] } }.wr (Reg.tsTxqStatusCount n) l.length).setMaskBit
    Reg.tsTxqNeNe n (l != [])

/-- A frame with TS_REQ leaves on queue `n`'s port or lane: its entry joins the queue, or is dropped. -/
def State.txqPush (s : State) (n : Nat) (e : TxEnt) : State :=
  let l := s.txq n
  if 4 ≤ l.length then (s.wr (Reg.tsTxqStatusOvf n) 1).bump (Reg.tsTxqStatusDropped n)
  else (s.setTxq n (l ++ [e])).when (l == []) fun s => s.intr 13

/-- A POP removes the oldest entry; on an empty queue it has no effect (R224). -/
def execTxqPop (n : Fin 128) (s : State) : Res :=
  match s.txq n.val with
  | [] => .next s
  | _ :: l => .next (s.setTxq n.val l)

/-! ## Capture queues -/

/-- The entries of capture queue `c`, oldest first. -/
def State.capq (s : State) (c : Nat) : List CapEnt := Tab.get s.pul.cap c []

/-- The entries of capture queue `c` set, with COUNT and the CAP_NE bit. -/
def State.setCapq (s : State) (c : Nat) (l : List CapEnt) : State :=
  ({ s with pul := { s.pul with cap := Tab.set s.pul.cap c l [] } }.wr (Reg.tsCapStatusCount c) l.length).wrBit
    Reg.tsStatusCapNe c (l != [])

/-- An entry joins capture queue `c`, or is dropped (R221). -/
def State.capPush (s : State) (c : Nat) (e : CapEnt) : State :=
  let l := s.capq c
  if 16 ≤ l.length then
    ((s.wr (Reg.tsCapStatusOvf c) 1).wrBit Reg.tsStatusCapOvf c true).bump (Reg.tsCapStatusDropped c)
  else (s.setCapq c (l ++ [e])).when (l == []) fun s => s.intr 12

/-- The oldest entry leaves capture queue `c`, if there is one (R224). -/
def State.capPop (s : State) (c : Nat) : State :=
  match s.capq c with
  | [] => s
  | _ :: l => s.setCapq c l

/-- A POP of a capture queue. -/
def execCapPop (n : Fin 16) (s : State) : Res := .next (s.capPop n.val)

/-- The fields of a register word given their values, as the word. -/
def wordFrom (l : List (Fld × Nat)) : Nat := l.foldl (fun w x => w + x.2 % 2 ^ x.1.width * 2 ^ x.1.lo) 0

/-- The entry word of transmit queue `n`, and the words a read of it latches (Table TS-10). -/
def State.txqWords (s : State) (n : Nat) : List (Fld × Nat) × List (Fld × Nat) :=
  match s.txq n with
  | [] => ([(Reg.tsTxqEntry0Empty n, 1)], [(Reg.tsTxqEntry1Sec n, 0), (Reg.tsTxqEntry2Ns n, 0), (Reg.tsTxqEntry3Frac n, 0)])
  | e :: _ => ([(Reg.tsTxqEntry0Id n, e.id), (Reg.tsTxqEntry0Valid n, b2n e.valid), (Reg.tsTxqEntry0Bad n, b2n e.bad),
        (Reg.tsTxqEntry0Tb n, e.tb)],
      [(Reg.tsTxqEntry1Sec n, tSec e.t), (Reg.tsTxqEntry2Ns n, tNs e.t), (Reg.tsTxqEntry3Frac n, tFrac e.t)])

/-- The entry word of capture queue `n`, and the words a read of it latches (Table TS-9). -/
def State.capWords (s : State) (n : Nat) : List (Fld × Nat) × List (Fld × Nat) :=
  match s.capq n with
  | [] => ([(Reg.tsCapEntry0Empty n, 1)], [(Reg.tsCapEntry1Sec n, 0), (Reg.tsCapEntry2Ns n, 0), (Reg.tsCapEntry3Frac n, 0)])
  | e :: _ => ([(Reg.tsCapEntry0Window n, e.window.getD 0), (Reg.tsCapEntry0Valid n, b2n e.valid),
        (Reg.tsCapEntry0Wvalid n, b2n e.window.isSome), (Reg.tsCapEntry0Inhigh n, b2n e.inHigh),
        (Reg.tsCapEntry0Rising n, b2n e.rising), (Reg.tsCapEntry0Tb n, e.tb)],
      [(Reg.tsCapEntry1Sec n, tSec e.t), (Reg.tsCapEntry2Ns n, tNs e.t), (Reg.tsCapEntry3Frac n, tFrac e.t)])

/-! ## Pulse generators -/

/-- Pulse-generator states (Table TS-3). -/
def pgOff : Nat := 0
/-- ARMED. -/
def pgArmed : Nat := 1
/-- ACTIVE. -/
def pgActive : Nat := 2
/-- HELD. -/
def pgHeld : Nat := 3
/-- DONE. -/
def pgDone : Nat := 4

/-- What the device holds of generator `p`. -/
def State.pg (s : State) (p : Nat) : PgSt := Tab.get s.pul.pgs p {}

/-- What the device holds of generator `p`, set. -/
def State.setPg (s : State) (p : Nat) (x : PgSt) : State :=
  { s with pul := { s.pul with pgs := Tab.set s.pul.pgs p x {} } }

/-- The state of generator `p`. -/
def State.pgState (s : State) (p : Nat) : Nat := s.rd (Reg.tsPgStatusState p)

/-- Generator `p` takes state `st`; GEN counts it, and DONE of a host-owned one is an interrupt (R216). -/
def State.goPgState (s : State) (p st : Nat) : State :=
  let s := (s.wr (Reg.tsPgStatusState p) st).bumpWrap (Reg.tsPgStatusGen p)
  s.when (st == pgDone && s.on (Reg.tsPgCfgOwner p)) fun s => s.intr 14

/-- Generator `p` is brought to state `st`; being in it already is no change. -/
def State.setPgState (s : State) (p st : Nat) : State := if s.pgState p = st then s else s.goPgState p st

/-- START of generator `p`, 2^-16 ns. -/
def State.pgStart (s : State) (p : Nat) : Nat :=
  (s.rd (Reg.tsPgStart0StartSecLo p) + 2 ^ 32 * s.rd (Reg.tsPgStart1StartSecHi p)) * tSecond
    + s.rd (Reg.tsPgStart2StartNs p) * 65536 + s.rd (Reg.tsPgStart3StartFrac p)

/-- PERIOD of generator `p`, 2^-16 ns. -/
def State.pgPeriod (s : State) (p : Nat) : Nat := s.rd (Reg.tsPgPer0PeriodLo p) + 2 ^ 32 * s.rd (Reg.tsPgPer1PeriodHi p)

/-- WIDTH of generator `p`, 2^-16 ns. -/
def State.pgWidth (s : State) (p : Nat) : Nat := s.rd (Reg.tsPgWid0WidthLo p) + 2 ^ 32 * s.rd (Reg.tsPgWid1WidthHi p)

/-- The number of pulses generator `p` places, none without end (R212). -/
def State.pgPulses (s : State) (p : Nat) : Option Nat :=
  if s.rd (Reg.tsPgCfgMode p) = 1 then some 1
  else if s.rd (Reg.tsPgCntCount p) = 0 then none else some (s.rd (Reg.tsPgCntCount p))

/-- Pulse index `k` lies beyond generator `p`'s last pulse. -/
def State.pgBeyond (s : State) (p k : Nat) : Bool :=
  match s.pgPulses p with
  | some n => decide (n ≤ k)
  | none => false

/-- Generator `p` computes its first edge from `k0` (R217), comparing the time of pulse `k0` itself (R157). A generator that goes to DONE from DONE, through an accepted ARM, has
changed state and counts once in GEN (R216, log entry 64). -/
def State.pgFirst (s : State) (p k0 : Nat) : State :=
  let x := s.pg p
  if s.pgBeyond p k0 then (s.setPg p { x with k := k0 }).goPgState p pgDone
  else
    let n := s.rd (Reg.tsPgCfgTb p)
    let per := s.pgPeriod p
    let single := s.rd (Reg.tsPgCfgMode p) == 1
    let lead := s.tbDiff n ((s.pgStart p + k0 * (if single then 0 else per)) % s.tbRange n) (s.atb n).t
    let need : Int := 2000 * 65536
    if need ≤ lead then (s.setPg p { x with k := k0 }).setPgState p pgArmed
    else if single then
      (((s.setPg p { x with k := k0 + 1 }).wr (Reg.tsPgStatusLate p) 1).bump (Reg.tsPgSkippedSkipped p)).goPgState p pgDone
    else
      let gone := ((need - lead).toNat + per - 1) / per
      let k := k0 + gone
      let s := (s.setPg p { x with k := k }).bumpBy (Reg.tsPgSkippedSkipped p) gone
      if s.pgBeyond p k then s.goPgState p pgDone else s.setPgState p pgArmed

/-- Generator `p` enters ARMED, or HELD where its base holds no valid time (Table TS-3). A pulse still in progress, which began before
HELD, keeps its falling edge. -/
def State.pgEnter (s : State) (p : Nat) : State :=
  let s := s.setPg p { s.pg p with k := 0, disarm := false }
  if s.tbValid (s.rd (Reg.tsPgCfgTb p)) then s.pgFirst p 0 else s.setPgState p pgHeld

/-- Generators follow VALID of their bases: HELD ones are released, ARMED and ACTIVE ones held (Table
TS-3). -/
def State.pgSync (s : State) : State :=
  s.each (List.range 16) fun s p =>
    let v := s.tbValid (s.rd (Reg.tsPgCfgTb p))
    let st := s.pgState p
    if st = pgHeld ∧ v then s.pgFirst p (s.pg p).k
    else if (st = pgArmed ∨ st = pgActive) ∧ !v then (s.setPg p { s.pg p with loose := true }).setPgState p pgHeld
    else s

/-- At RUN every image generator that is not OFF enters ARMED (Table TS-3). -/
def State.pgRun (s : State) : State :=
  s.each (List.range 16) fun s p =>
    if s.pgState p = pgOff ∧ s.rd (Reg.tsPgCfgMode p) ≠ 0 ∧ !s.on (Reg.tsPgCfgOwner p) then s.pgEnter p else s

/-- The result of a pulse command. -/
def State.pgResult (s : State) (p r : Nat) : State :=
  s.wrs [(Reg.tsPgCmdStatusPg, p), (Reg.tsPgCmdStatusResult, r)]

/-- PG_CMD code 0: not checked, OK (R425). -/
def execPgCmdNop (pg : Fin 16) (s : State) : Res := .next (s.pgResult pg.val 0)

/-- The checks every other PG_CMD code meets first (Table TS-4): 1 STALE, 2 NOT_OWNER, 0 passed. -/
def State.pgCheck (s : State) (p gen : Nat) : Nat :=
  if gen ≠ s.rd (Reg.tsPgStatusGen p) then 1 else if !s.on (Reg.tsPgCfgOwner p) then 2 else 0

/-- PG_CMD code 3 is answered BAD_VALUE after the checks before it. -/
def execPgCmdReserved (pg : Fin 16) (gen : Fin 65536) (s : State) : Res :=
  let c := s.pgCheck pg.val gen.val
  .next (s.pgResult pg.val (if c = 0 then 4 else c))

/-- Pulse values meet R212 and their ranges, on an enabled base. -/
def pgValuesOk (mode ns sec width period : Nat) (compact on : Bool) : Bool :=
  (mode == 1 || mode == 2) && decide (ns ≤ 999999999) && decide (4 * 65536 ≤ width) && on
    && (!compact || decide (sec < 2 ^ 32))
    && (mode == 1 || (decide (width + 4 * 65536 ≤ period) && decide (period ≤ 86400 * tSecond)))

/-- The staged values pass the last check of ARM. -/
def State.stgOk (s : State) : Bool :=
  let n := s.rd Reg.tsPgStgCfgTb
  pgValuesOk (s.rd Reg.tsPgStgCfgMode) (s.rd Reg.tsPgStgStartNsNs)
    (s.rd Reg.tsPgStgStartSecLoSec + 2 ^ 32 * s.rd Reg.tsPgStgStartSecHiSec)
    (s.rd Reg.tsPgStgWidthLoWidth + 2 ^ 32 * s.rd Reg.tsPgStgWidthHiWidth)
    (s.rd Reg.tsPgStgPeriodLoPeriod + 2 ^ 32 * s.rd Reg.tsPgStgPeriodHiPeriod)
    (s.on (Reg.tkTbCfgFormat n)) (s.on (Reg.tkTbCfgEnable n))

/-- ARM copies the staging registers into a host-owned generator and arms it (R218). -/
def execPgArm (pg : Fin 16) (gen : Fin 65536) (s : State) : Res :=
  let p := pg.val
  let c := s.pgCheck p gen.val
  let st := s.pgState p
  if c ≠ 0 then .next (s.pgResult p c)
  else if st = pgArmed ∨ st = pgActive ∨ st = pgHeld then .next (s.pgResult p 3)
  else if !s.stgOk then .next (s.pgResult p 4)
  else
    let s := s.wrs [(Reg.tsPgCfgPol p, s.rd Reg.tsPgStgCfgPol), (Reg.tsPgCfgTb p, s.rd Reg.tsPgStgCfgTb),
      (Reg.tsPgCfgMode p, s.rd Reg.tsPgStgCfgMode), (Reg.tsPgStart0StartSecLo p, s.rd Reg.tsPgStgStartSecLoSec),
      (Reg.tsPgStart1StartSecHi p, s.rd Reg.tsPgStgStartSecHiSec), (Reg.tsPgStart2StartNs p, s.rd Reg.tsPgStgStartNsNs),
      (Reg.tsPgStart3StartFrac p, s.rd Reg.tsPgStgStartFracFrac), (Reg.tsPgPer0PeriodLo p, s.rd Reg.tsPgStgPeriodLoPeriod),
      (Reg.tsPgPer1PeriodHi p, s.rd Reg.tsPgStgPeriodHiPeriod), (Reg.tsPgWid0WidthLo p, s.rd Reg.tsPgStgWidthLoWidth),
      (Reg.tsPgWid1WidthHi p, s.rd Reg.tsPgStgWidthHiWidth), (Reg.tsPgCntCount p, s.rd Reg.tsPgStgCountCount),
      (Reg.tsPgStatusLate p, 0), (Reg.tsPgFiredFired p, 0)]
    .next ((s.pgEnter p).pgResult p 0)

/-- DISARM returns a generator to OFF, after the falling edge of a pulse in progress (Table TS-3). -/
def execPgDisarm (pg : Fin 16) (gen : Fin 65536) (s : State) : Res :=
  let p := pg.val
  let c := s.pgCheck p gen.val
  let s' := s.pgResult p c
  if c ≠ 0 then .next s'
  else if (s.pg p).high then .next (s'.setPg p { s.pg p with disarm := true })
  else .next (s'.setPgState p pgOff)

/-- The taps of R213 for `rem`, in 2^-16 ns / 100 000: coarse, fine, and whether a limit acted (R214). -/
def pgTaps (rem tc tf : Int) : Nat × Nat × Bool :=
  let c := rem / (100000 * tc)
  let coarse := min c.toNat 63
  let f := roundDiv (rem - 100000 * (coarse * tc)) (100000 * tf).toNat
  (coarse, min f.toNat 31, decide (63 < c) || decide (31 < f))

/-- Where an edge due at `edge` falls after the reading of its base in the present cycle: t_launch less tau(c) of R213, in 2^-16 ns /
100 000. -/
def State.pgLead (s : State) (p edge : Nat) : Int :=
  let n := s.rd (Reg.tsPgCfgTb p)
  100000 * (s.tbDiff n edge (s.atb n).t - s.cal (0x120 + p)) - centiPs (s.rdS (Reg.tsPgExtExtDelay p))

/-- What the present cycle of base `n` advances it by: tau(c + 1) less tau(c), in the same unit. -/
def State.cycleLen (s : State) (n : Nat) : Int := 100000 * s.tbDiff n ((s.atb n).tick (s.tbRange n)).t (s.atb n).t

/-- The place in its cycle of a falling edge that follows its rising edge, placed `rise` into a cycle, after `width` 2^-16 ns of
nominal K6 cycles of 256/165 ns, without reference to the base (Table TS-3). -/
def looseRem (rise : Int) (width : Nat) : Int :=
  ((rise + 100000 * width) * 165 % (100000 * 65536 * 256 : Nat)) / 165

/-- The launch time of generator `p`'s next edge, `rising` or falling, lies in the present cycle of its base (R213, R215): the edge goes to
the placer in PD10, and the generator moves on (Table TS-3). In another cycle, or if its next edge is the other one, nothing happens. The falling edge of a pulse that began before HELD is
placed from its rising edge alone. -/
def execPgEdge (pg : Fin 16) (rising : Bool) (s : State) : Res :=
  let p := pg.val
  let x := s.pg p
  let st := s.pgState p
  let n := s.rd (Reg.tsPgCfgTb p)
  let rise := (s.pgStart p + x.k * s.pgPeriod p) % s.tbRange n
  let lead := s.pgLead p (if x.high then (x.rise + x.width) % s.tbRange n else rise)
  let free := x.high && x.loose
  if s.frozen = true ∨ x.high = rising ∨ !x.high ∧ st ≠ pgArmed ∧ st ≠ pgActive ∨ !free ∧ (lead < 0 ∨ s.cycleLen n ≤ lead) then .next s
  else
    let rem := if free then looseRem x.rem x.width else lead
    let (coarse, fine, sat) := pgTaps rem (s.cal (0x158 + p)) (s.cal (0x184 + p))
    let s := s.when (bit s.pwr.gates 10) fun s => s.send (.pulse p coarse fine (!x.high))
    let s := s.when sat fun s => (s.wr (Reg.tsPgStatusTapSat p) 1).report 0x58 (0x158 + p)
    if !x.high then
      .next (((s.setPg p { k := x.k + 1, high := true, rise := rise, width := s.pgWidth p, rem := rem }).bump
        (Reg.tsPgFiredFired p)).setPgState p pgActive)
    else
      let s := s.setPg p { k := x.k }
      if x.disarm then .next (s.setPgState p pgOff)
      else if st = pgActive ∧ s.pgBeyond p x.k then .next (s.setPgState p pgDone)
      else .next s

/-- The level of EVT_OUT`p`, none where it is at high impedance: DRIVE 0, PD10 not ramped or off, HALT, and the supply out of range
(R54, R219, R409). Else the pulse
that the placer has put out, inverted by POL (R212). -/
def State.evtOut (s : State) (p : Nat) : Option Bool :=
  if !s.on (Reg.tsPgCfgDrive p) || !bit (s.rd Reg.pwrDomainsOn) 10 || s.inPhase 10 || !s.pins.inRange then none
  else some ((s.pg p).high != s.on (Reg.tsPgCfgPol p))

/-! ## Captures -/

/-- The window of reference generator `p` that a stamp lies in, and INHIGH (R223). -/
def State.capWindow (s : State) (c t : Nat) : Option Nat × Bool :=
  let p := s.rd (Reg.tsCapCfgWinPg c)
  let per := s.pgPeriod p
  if !s.on (Reg.tsCapCfgWinEn c) || s.pgState p == pgOff || s.pgState p == pgHeld
      || s.rd (Reg.tsPgCfgMode p) != 2 || per == 0 then (none, false)
  else
    let n := s.rd (Reg.tsPgCfgTb p)
    let d := s.tbDiff n t (s.pgStart p % s.tbRange n)
    if d < 0 then (none, false)
    else (some (d.toNat / per % 65536), decide (d.toNat % per < s.pgWidth p))

/-- An edge on capture input `c`, sampled coarse and fine taps into the present cycle of base TB of the active timekeeper, while PD10
runs (R220, R221, R223). The dead time of 4 ns is measured around the base's wrap (R157). `pop` says that a POP reaches the queue in the same K9 cycle: it takes effect first (R211, R221). -/
def execEvtInEdge (input : Fin 16) (rising pop : Bool) (coarse : Fin 64) (fine : Fin 32) (s : State) : Res :=
  let c := input.val
  let s := s.when pop fun s => s.capPop c
  let e := s.rd (Reg.tsCapCfgEdge c)
  if e = 0 ∨ (e = 1 ∧ !rising) ∨ (e = 2 ∧ rising) ∨ !bit s.pwr.gates 10 then .next s
  else
    let n := s.rd (Reg.tsCapCfgTb c)
    let raw : Int := 100000 * ((s.atb n).t + coarse.val * s.cal (0x168 + c) + fine.val * s.cal (0x194 + c))
    let at_ := raw.toNat
    let dead := match Tab.get s.pul.last c none with
      | some l => decide ((raw - l) % (s.tbRange n * 100000 : Nat) < 4 * 65536 * 100000)
      | none => false
    if dead then .next (s.bump (Reg.tsCapMissedMissed c))
    else
      let t := (roundDiv (raw - 100000 * s.cal (0x130 + c) - centiPs (s.rdS (Reg.tsCapExtExtDelay c))) 100000)
        % (s.tbRange n : Int)
      let s := { s with pul := { s.pul with last := Tab.set s.pul.last c (some at_) none } }
      let (w, h) := s.capWindow c t.toNat
      if s.on (Reg.tsCapCfgGate c) && !h then .next (s.bump (Reg.tsCapGatedGated c))
      else .next (s.capPush c { tb := n, t := t.toNat, valid := s.tbValid n, window := w, inHigh := h, rising := rising })

/-! ## Record -/

/-- PULSES passes R225, R226. `tbOn`, `compact`: the base is enabled, and COMPACT; `leat`: the lane's mode is
LEAT. -/
def checkPulses (tbOn compact leat : Nat → Bool) (v : List Byte) : Bool :=
  let mode (p : Nat) : Nat := u8 v (128 + 48 * p)
  let owner (p : Nat) : Bool := bit (u8 v (130 + 48 * p)) 0
  v.length == 1152
    && (List.range 128).all (fun n => decide (u8 v n < 8) && (!leat n || tbOn (u8 v n)))
    && (List.range 16).all (fun p =>
        let o := 128 + 48 * p
        let tb := u8 v (o + 1)
        decide (mode p ≤ 2) && decide (tb < 8) && decide (u8 v (o + 2) < 8) && zeros v (o + 3) 1
          && decide (u64 v (o + 8) < 2 ^ 48) && decide (u32 v (o + 16) ≤ 999999999) && zeros v (o + 22) 2
          && decide (u64 v (o + 32) < 2 ^ 48) && zeros v (o + 44) 4
          && (if mode p ≠ 0 then
                !owner p && pgValuesOk (mode p) (u32 v (o + 16)) (u64 v (o + 8)) (u64 v (o + 32)) (u64 v (o + 24))
                  (compact tb) (tbOn tb)
              else owner p || (tb == 0 && zeros v (o + 4) 36)))
    && (List.range 16).all (fun c =>
        let o := 896 + 16 * c
        let win := u8 v (o + 2)
        decide (u8 v o ≤ 3) && decide (u8 v (o + 1) < 8) && (win < 16 || win == 255) && decide (u8 v (o + 3) ≤ 1)
          && zeros v (o + 8) 8
          && (u8 v o == 0 || tbOn (u8 v (o + 1)))
          && (win == 255 || mode win == 2 || owner win)
          && (u8 v (o + 3) == 0 || win != 255))

/-- PULSES is applied (R225). -/
def applyPulses (v : List Byte) (s : State) : State :=
  let s := s.each (List.range 128) fun s n => s.wr (Reg.tsLeatTbTb n) (u8 v n)
  let s := s.each (List.range 16) fun s p =>
    let o := 128 + 48 * p
    let fl := u8 v (o + 2)
    s.wrs [(Reg.tsPgCfgMode p, u8 v o), (Reg.tsPgCfgTb p, u8 v (o + 1)), (Reg.tsPgCfgOwner p, fl),
      (Reg.tsPgCfgDrive p, fl / 2), (Reg.tsPgCfgPol p, fl / 4), (Reg.tsPgCntCount p, u32 v (o + 4)),
      (Reg.tsPgStart0StartSecLo p, u64 v (o + 8)), (Reg.tsPgStart1StartSecHi p, u64 v (o + 8) / 2 ^ 32),
      (Reg.tsPgStart2StartNs p, u32 v (o + 16)), (Reg.tsPgStart3StartFrac p, u16 v (o + 20)),
      (Reg.tsPgPer0PeriodLo p, u64 v (o + 24)), (Reg.tsPgPer1PeriodHi p, u64 v (o + 24) / 2 ^ 32),
      (Reg.tsPgWid0WidthLo p, u64 v (o + 32)), (Reg.tsPgWid1WidthHi p, u64 v (o + 32) / 2 ^ 32),
      (Reg.tsPgExtExtDelay p, u32 v (o + 40))]
  s.each (List.range 16) fun s c =>
    let o := 896 + 16 * c
    let win := u8 v (o + 2)
    s.wrs [(Reg.tsCapCfgEdge c, u8 v o), (Reg.tsCapCfgTb c, u8 v (o + 1)), (Reg.tsCapCfgWinEn c, b2n (win < 16)),
      (Reg.tsCapCfgWinPg c, if win < 16 then win else 0), (Reg.tsCapCfgGate c, u8 v (o + 3)),
      (Reg.tsCapExtExtDelay c, u32 v (o + 4))]

end Sys2Proof.Machine
end

