-- ==== Sys2Proof/Machine/Feed.lean ====
section
/-! DEFINITION. Samples and settings that reach a time base: the host feed, the PPS of a REFIN pair, deferred
samples and the ramp (07_time_bases_and_servo), with the pulse generators that follow VALID. -/
namespace Sys2Proof.Machine

/-- A sample reaches base `n`, and generators follow VALID. -/
def State.sampleTb (s : State) (n : Nat) (e : Int) : State := (s.sample n e).pgSync

/-- The result of a feed command; OK counts in ACCEPTED. -/
def State.feedResult (s : State) (n r : Nat) : State :=
  let s := s.wr (Reg.tkTbFeedStatusResult n) r
  s.when (r == 0) fun s => s.bump (Reg.tkTbFeedStatusAccepted n)

/-- OFFSET delivers a host sample to a HOST base (R168, Table TK-5). -/
def execTbFeedOffset (n : Fin 8) (gen : Fin 65536) (s : State) : Res :=
  let i := n.val
  let c := s.feedCheck i gen.val
  if c ≠ 0 then .next (s.feedResult i c)
  else if s.rd (Reg.tkTbCfgSrc i) ≠ 2 then .next (s.feedResult i 3)
  else if s.halted || (s.atb i).state == tbUnset then .next (s.feedResult i 4)
  else
    let e := sgn 48 (s.rd (Reg.tkTbFeedLoFeedLo i) + 2 ^ 32 * s.rd (Reg.tkTbFeedHiFeedHi i))
    .next ((s.feedResult i 0).sampleTb i e)

/-- Base `n` of timekeeper `k` in UNSET takes a SET to time `t` (Table TK-2). -/
def State.setTime (s : State) (k n t : Nat) : State :=
  let b := s.tb k n
  if b.state ≠ tbUnset then s
  else
    match s.rd (Reg.tkTbCfgSrc n) with
    | 0 => s.putTb k n { state := tbFree, valid := true, t := t }
    | 2 => s.putTb k n { state := tbAcquire, valid := true, t := t, tLast := t }
    | _ => s.setTb k n { b with t := t }

/-- SET hard sets, or loads the time of, a base with VALID = 0 (R162, R168). -/
def execTbFeedSet (n : Fin 8) (gen : Fin 65536) (s : State) : Res :=
  let i := n.val
  let c := s.feedCheck i gen.val
  let ns := s.rd (Reg.tkTbSetNsSetNs i)
  if c ≠ 0 then .next (s.feedResult i c)
  else if s.halted || s.tbValid i || decide (999999999 < ns) then .next (s.feedResult i 4)
  else
    let sec := s.rd (Reg.tkTbSetSecLoSetSecLo i) + 2 ^ 32 * s.rd (Reg.tkTbSetSecHiSetSecHi i)
    let t := (sec * tSecond + ns * 65536) % s.tbRange i
    .next (((s.feedResult i 0).setTime 0 i t).setTime 1 i t).pgSync

/-- A sample that arrived early is used (R166). -/
def execTbSampleDeferred (n : Fin 8) (s : State) : Res :=
  .next (((s.useWaiting 0 n.val).useWaiting 1 n.val).deferredCheck n.val (s.atb n.val).state).pgSync

/-- A 1 ms RAMP tick of pair `k` in both timekeepers (R172). -/
def execTbRampTick (k : Fin 4) (s : State) : Res :=
  if s.on (Reg.tkPairEn k.val) then .next ((s.rampTick (1 - s.activeTk) k.val).rampTick s.activeTk k.val) else .next s

/-- The reading of base `n` at an edge of the latch of REFIN pair `m`, sampled `coarse` and `fine` taps into the base's present
cycle, on the tap scale of EVT_IN(m + 8) (R222), 2^-16 ns. -/
def State.ppsRaw (s : State) (n m coarse fine : Nat) : Int :=
  (s.atb n).t + coarse * s.cal (0x168 + m + 8) + fine * s.cal (0x194 + m + 8)

/-- The offset of a PPS edge on base `n` read `raw`: less the latch delay and PPS_DELAY, folded to half a second (R167, R222). -/
def State.ppsOffset (s : State) (n m : Nat) (raw : Int) : Int :=
  let sub := (raw - s.cal (0x1A5 + m) - s.rdS (Reg.tkTbPpsDelayPpsDelay n)) % (tSecond : Int)
  if 2 * sub < (tSecond : Int) then sub else sub - tSecond

/-- A PPS edge on pair `m` is stamped on base `n` and is its sample, unless the latch's dead time of 4 ns after the edge it stamped
last still runs, around the base's wrap (R157, R167, R221, R222). -/
def State.ppsSample (s : State) (n m coarse fine : Nat) : State :=
  let raw := s.ppsRaw n m coarse fine
  let dead := match Tab.get s.pul.lastPps n none with
    | some l => decide ((raw - l) % (s.tbRange n : Nat) < 4 * 65536)
    | none => false
  if dead then s
  else { s with pul := { s.pul with lastPps := Tab.set s.pul.lastPps n (some raw.toNat) none } }.sampleTb n (s.ppsOffset n m raw)

/-- A rising PPS edge on the odd pin of REFIN pair `m`: `cyclesOk` says that the period it ends held the expected
number of cycles of the paired clock within 100 ns. Three good periods set PPS_VALID, a bad one clears it, and
while it is 1 the edge, at the coarse and fine `taps`, is a sample of every base on the pair (R64, R167). -/
def execRefinPpsEdge (pair : Fin 4) (cyclesOk : Bool) (taps : Fin 64 × Fin 32) (s : State) : Res :=
  let m := pair.val
  let c := 2 * m
  if !s.on (Reg.refselCandCfgPair c) then .next s
  else if !cyclesOk then
    let was := s.on (Reg.refselCandStatusPpsValid c)
    let s := (s.setCand c { s.cand c with ppsRun := 0 }).wr (Reg.refselCandStatusPpsValid c) 0
    .next (s.when was fun s => s.sourceLost 3 m)
  else
    let run := min 3 ((s.cand c).ppsRun + 1)
    let s := s.setCand c { s.cand c with ppsRun := run }
    let s := s.when (run == 3) fun s => s.wr (Reg.refselCandStatusPpsValid c) 1
    if s.on (Reg.refselCandStatusPpsValid c) then
      .next (s.each (List.range 8) fun s n => if s.tbSrc s.activeTk n = (3, m) then s.ppsSample n m taps.1.val taps.2.val else s)
    else .next s

/-- No PPS edge for 1.5 s: PPS_VALID clears and the bases on the pair lose their source (R64, Table TK-4). -/
def execPpsEdgeTimeout (pair : Fin 4) (s : State) : Res :=
  let c := 2 * pair.val
  let was := s.on (Reg.refselCandStatusPpsValid c)
  let s := (s.setCand c { s.cand c with ppsRun := 0 }).wr (Reg.refselCandStatusPpsValid c) 0
  .next (s.when was fun s => s.sourceLost 3 pair.val)

end Sys2Proof.Machine
end

