-- ==== Sys2Proof/Machine/Rings.lean ====
section
/-! DEFINITION. DMA rings in host memory (17_host_interface, R397 to R399), destinations and protected pairs as
the data path sees them (R249, R308), and whether frames flow. -/
namespace Sys2Proof.Machine

/-! ## Rings -/

/-- The entries of ring `r`. -/
def State.ringSize (s : State) (r : Nat) : Nat := 2 ^ s.rd (Reg.hifRingCtlSize r)

/-- Ring `r` is enabled. -/
def State.ringOn (s : State) (r : Nat) : Bool := s.on (Reg.hifRingCtlEn r)

/-- DEV_IDX of ring `r`. -/
def State.devIdx (s : State) (r : Nat) : Nat := s.rd (Reg.hifRingDevIdxDevIdx r)

/-- HOST_IDX of ring `r`. -/
def State.hostIdx (s : State) (r : Nat) : Nat := s.rd (Reg.hifRingHostIdxHostIdx r)

/-- `a - b` of two 32-bit indices. -/
def idxSub (a b : Nat) : Nat := (a + 2 ^ 32 - b) % 2 ^ 32

/-- The entries the device may still write on ring `r` (0, 2, 5), whose consumer is the host. -/
def State.ringRoom (s : State) (r : Nat) : Nat :=
  if s.ringOn r then s.ringSize r - idxSub (s.devIdx r) (s.hostIdx r) else 0

/-- The entries the host has published on ring `r` (1, 3, 4) and the device has not taken. -/
def State.ringReady (s : State) (r : Nat) : Nat := if s.ringOn r then idxSub (s.hostIdx r) (s.devIdx r) else 0

/-- The host address of the entry of index `i` of ring `r`, `size` bytes each. -/
def State.ringAddr (s : State) (r i size : Nat) : Nat :=
  s.rd (Reg.hifRingBaseLoBaseLo r) * 2 ^ 12 + s.rd (Reg.hifRingBaseHiBaseHi r) * 2 ^ 32 + i % s.ringSize r * size

/-- The interrupt of a move of ring `r`'s DEV_IDX (Table HI-9). -/
def ringIntr : Nat → Option Nat
  | 0 => some 8
  | 2 => some 9
  | 3 => some 10
  | 5 => some 11
  | _ => none

/-- DEV_IDX of ring `r` moves by one: the write-back follows, then the interrupt (R398). -/
def State.ringStep (s : State) (r : Nat) : State :=
  let i := (s.devIdx r + 1) % 2 ^ 32
  let s := s.wr (Reg.hifRingDevIdxDevIdx r) i
  let s := s.send (.dmaWrite (s.rd (Reg.hifRingWbLoWbLo r) * 4 + s.rd (Reg.hifRingWbHiWbHi r) * 2 ^ 32) [BitVec.ofNat 32 i])
  match ringIntr r with
  | some v => s.intr v
  | none => s

/-- Bytes as 32-bit words. -/
def wordsOf (b : List Byte) : List Word := (List.range (b.length / 4)).map fun i => BitVec.ofNat 32 (unle (slice b (4 * i) 4))

/-- The device writes its next entry on ring `r`. -/
def State.ringPost (s : State) (r : Nat) (e : List Byte) : State :=
  (s.send (.dmaWrite (s.ringAddr r (s.devIdx r) e.length) (wordsOf e))).ringStep r

/-! ## Destinations -/

/-- The number names a port: its lane is the first of a configured port (R249). -/
def State.isPort (s : State) (n : Nat) : Bool := s.on (Reg.portCfgMode n)

/-- The number names a Leat lane. -/
def State.isLeat (s : State) (n : Nat) : Bool := s.rd (Reg.laneCfgMode n) == 1

/-- The number names a destination (R249). -/
def State.isDest (s : State) (n : Nat) : Bool := decide (n < 128) && (s.isPort n || s.isLeat n)

/-- The protected pair that destination `n` is a member of. -/
def State.pairAt (s : State) (n : Nat) : Option Nat :=
  (List.range 32).find? fun k =>
    s.on (Reg.redPairCfgKind k) && (s.rd (Reg.redPairCfgPrimary k) == n || s.rd (Reg.redPairCfgSecondary k) == n)

/-- The number under which a destination learns and refreshes: the primary member's in a pair (R308). -/
def State.learnNo (s : State) (n : Nat) : Nat :=
  match s.pairAt n with
  | some k => s.rd (Reg.redPairCfgPrimary k)
  | none => n

/-- The referee unit of destination `n`, if it is a member of a pair (Table RD-1). -/
def State.memberUnit (s : State) (n : Nat) : Option Nat :=
  match s.pairAt n with
  | some k => some (if s.rd (Reg.redPairCfgPrimary k) = n then 4 + 2 * k else 5 + 2 * k)
  | none => none

/-- The health line of member `n` shows healthy: a unit still OFF starts (R313). -/
def State.memberStart (s : State) (n : Nat) : State :=
  match s.memberUnit n with
  | some u => s.unitStart u
  | none => s

/-- The member in service of pair `k`, none while there is none or a CONTAIN reaction discards the pair's frames
(R308, R333). -/
def State.inService (s : State) (k : Nat) : Option Nat :=
  if s.flt.lostPairs.contains k && s.on (Reg.redPairStatusDataLost k) then none
  else match s.rd (Reg.redPairStatusDataActive k) with
  | 1 => some (s.rd (Reg.redPairCfgPrimary k))
  | 2 => some (s.rd (Reg.redPairCfgSecondary k))
  | _ => none

/-- The egress of destination `n`: the member in service of its pair, or itself. -/
def State.resolve (s : State) (n : Nat) : Option Nat :=
  match s.pairAt n with
  | some k => s.inService k
  | none => some n

/-- The two numbers are one destination: equal, or of one pair. -/
def State.sameDest (s : State) (a b : Nat) : Bool := a == b || (s.pairAt a).isSome && s.pairAt a == s.pairAt b

/-! ## Whether frames flow -/

/-- Domain PDd is on and its clock gates are open. -/
def State.pdOn (s : State) (d : Nat) : Bool := bit s.pwr.gates d

/-- The data path takes frames: PD3 and PD4 run, no drain is under way, the device has not halted (R335,
R377). -/
def State.framesOn (s : State) : Bool :=
  s.pdOn 3 && s.pdOn 4 && !s.pwr.drain && !s.halted && decide (s.rd Reg.pwrStatusState ≤ 1) && s.boot.applied
    && !s.frozen

/-- The egress is UP: a port in UP, a Leat lane in UP. -/
def State.egressUp (s : State) (n : Nat) : Bool :=
  if s.isPort n then s.rd (Reg.portLinkState n) == 2 else s.isLeat n && s.rd (Reg.laneStateTstate n) == 5

end Sys2Proof.Machine
end

