-- ==== Sys2Proof/Machine/Tables.lean ====
section
/-! DEFINITION. Forwarding tables, learning, ageing, table commands and fences (11_tables_and_learning). -/
namespace Sys2Proof.Machine

/-! ## Entries -/

/-- Bits `[lo + w - 1 : lo]` of an entry. -/
def fieldOf (e lo w : Nat) : Nat := e / 2 ^ lo % 2 ^ w

/-- VALID of an FDB or flow entry. -/
def eValid (e : Nat) : Bool := bit e 127
/-- ORIGIN: 1 static. -/
def eStatic (e : Nat) : Bool := bit e 126
/-- AGE_EN. -/
def eAgeEn (e : Nat) : Bool := bit e 125
/-- DISCARD of an FDB entry, TRAILER of a flow entry. -/
def eBit124 (e : Nat) : Bool := bit e 124
/-- VID of the key. -/
def eVid (e : Nat) : Nat := fieldOf e 112 12
/-- MAC or DA of the key, byte 0 highest. -/
def eMac (e : Nat) : Nat := fieldOf e 64 48
/-- HIT_TS. -/
def eHit (e : Nat) : Nat := fieldOf e 48 16
/-- DEST. -/
def eDest (e : Nat) : Nat := fieldOf e 0 7

/-- Entry `e` with HIT_TS `t`. -/
def setHit (e t : Nat) : Nat := e - eHit e * 2 ^ 48 + t * 2 ^ 48

/-- A group address: the first bit on the wire is 1. -/
def isGroup (mac : Nat) : Bool := bit mac 40

/-- The tables by number: 0 FDB, 1 flow table, 2 VLAN table. -/
def tFdb : Nat := 0
/-- Flow table. -/
def tFlow : Nat := 1
/-- VLAN table. -/
def tVlan : Nat := 2

/-- Entry of `slot` of table `t` (0 FDB, 1 flow, 2 VLAN by VID). -/
def State.ent (s : State) (t slot : Nat) : Nat :=
  match t with
  | 0 => Tab.get s.tbl.fdb slot 0
  | 1 => Tab.get s.tbl.flow slot 0
  | _ => Tab.get s.tbl.vlan slot 0

/-- Valid entries of a table. -/
def useCount (l : Tab Nat) (p : Nat → Bool) : Nat := (l.filter fun e => p e.2).length

/-- The occupancy registers follow the tables. -/
def State.tblUse (s : State) : State :=
  s.wrs [(Reg.tblFdbUseTotal, useCount s.tbl.fdb eValid),
    (Reg.tblFdbStaticStatic, useCount s.tbl.fdb fun e => eValid e && eStatic e),
    (Reg.tblFlowUseTotal, useCount s.tbl.flow eValid),
    (Reg.tblFlowUseStatic, useCount s.tbl.flow fun e => eValid e && eStatic e)]

/-- The parity of a 16-bit number. -/
def par16 (x : Nat) : Nat :=
  let x := Nat.xor x (x / 256)
  let x := Nat.xor x (x / 16)
  let x := Nat.xor x (x / 4)
  Nat.xor x (x / 2) % 2

/-- The parity bits of an entry, one over each 16 bits: 8 of a 16-byte entry, 20 of a VLAN entry (R247, log entry 66). -/
def parityOf (e : Nat) : Nat := (List.range 20).foldl (fun w i => w + par16 (e / 2 ^ (16 * i) % 65536) * 2 ^ i) 0

/-- The parity bits that stand beside the entry of `slot` of table `t`. -/
def State.parity (s : State) (t slot : Nat) : Nat := Tab.get s.tbl.par (4 * slot + t) 0

/-- Those bits set. -/
def State.setParity (s : State) (t slot p : Nat) : State := { s with tbl := { s.tbl with par := Tab.set s.tbl.par (4 * slot + t) p 0 } }

/-- Entry of a slot set, with its parity. -/
def State.setEnt (s : State) (t slot e : Nat) : State :=
  let s := s.setParity t slot (parityOf e)
  match t with
  | 0 => { s with tbl := { s.tbl with fdb := Tab.set s.tbl.fdb slot e 0 } }.tblUse
  | 1 => { s with tbl := { s.tbl with flow := Tab.set s.tbl.flow slot e 0 } }.tblUse
  | _ => { s with tbl := { s.tbl with vlan := Tab.set s.tbl.vlan slot e 0 } }

/-! ## Buckets (R248) -/

/-- The key bytes of FDB key (VID, MAC). -/
def fdbKeyBytes (vid mac : Nat) : List Byte := be 2 vid ++ be 6 mac

/-- The key bytes of a flow key. -/
def flowKeyBytes (ing vid da et : Nat) : List Byte := be 1 ing ++ be 2 vid ++ be 6 da ++ be 2 et

/-- The key bytes of an entry of table `t`. -/
def eKeyBytes (t e : Nat) : List Byte :=
  if t = 0 then fdbKeyBytes (eVid e) (eMac e) else flowKeyBytes (fieldOf e 25 7) (eVid e) (eMac e) (fieldOf e 32 16)

/-- The hash seed of bank `b` of table `t`. -/
def State.seed (s : State) (t b : Nat) : Nat :=
  match t, b with
  | 0, 0 => s.rd Reg.tblSeed0Seed
  | 0, _ => s.rd Reg.tblSeed1Seed
  | _, 0 => s.rd Reg.tblFseed0Seed
  | _, _ => s.rd Reg.tblFseed1Seed

/-- The buckets of a bank of table `t`. -/
def buckets (t : Nat) : Nat := if t = 0 then 32768 else 8192

/-- Way `w` of bucket `k` of bank `b` of table `t`, as a slot. -/
def slotOf (t b k w : Nat) : Nat := (b * buckets t + k) * 4 + w

/-- The bucket of a key in bank `b` (R248). -/
def State.bucketOf (s : State) (t b : Nat) (key : List Byte) : Nat := crc32 (s.seed t b) key % buckets t

/-- The eight slots of a key: bank 0 first, lower way first. -/
def State.keySlots (s : State) (t : Nat) (key : List Byte) : List Nat :=
  (List.range 8).map fun i => slotOf t (i / 4) (s.bucketOf t (i / 4) key) (i % 4)

/-- The slot that holds a key, bank 0 and the lower way first (R270). -/
def State.findKey (s : State) (t : Nat) (key : List Byte) : Option Nat :=
  (s.keySlots t key).find? fun sl => let e := s.ent t sl; eValid e && eKeyBytes t e == key

/-- The entry of a slot fits its parity bits. -/
def State.fits (s : State) (t slot : Nat) : Bool := s.parity t slot == parityOf (s.ent t slot)

/-- The slot in which a lookup finds a key: an entry that fails its parity reads as a miss (R259). -/
def State.hitKey (s : State) (t : Nat) (key : List Byte) : Option Nat :=
  (s.findKey t key).filter fun sl => s.fits t sl

/-! ## Slots held off (R252) -/

/-- The slots that a first pass reads. -/
def State.firstReads (s : State) (f : Frame) : List (Nat × Nat) :=
  (tVlan, f.vid) :: (s.keySlots tFdb (fdbKeyBytes f.vid f.sa)).map (tFdb, ·)
    ++ (s.keySlots tFdb (fdbKeyBytes f.vid f.da)).map (tFdb, ·)
    ++ (if bit (s.rd Reg.tblCfgFlowTc) f.iclass then (s.keySlots tFlow (flowKeyBytes f.ingress f.vid f.da f.etype)).map (tFlow, ·) else [])

/-- The slots that a second-level pass reads in VLAN `v` for address `da`. -/
def State.secondReads (s : State) (v da : Nat) : List (Nat × Nat) :=
  (tVlan, v) :: (s.keySlots tFdb (fdbKeyBytes v da)).map (tFdb, ·)

/-- The slots that the second-level pass still to come of a frame reads, where its flow entry has FDB2 (R250, Table TB-5). -/
def State.laterReads (s : State) (f : Frame) : List (Nat × Nat) :=
  match if bit (s.rd Reg.tblCfgFlowTc) f.iclass then s.hitKey tFlow (flowKeyBytes f.ingress f.vid f.da f.etype) else none with
  | some sl => let e := s.ent tFlow sl; if bit e 24 then s.secondReads (fieldOf e 12 12) f.da else []
  | none => []

/-- The slots that the passes still to come of a frame that has recirculated will read: the write sequencer holds off every write to
their buckets (R252). -/
def State.heldOff (s : State) : List (Nat × Nat) :=
  (List.range 4).flatMap fun p => (Tab.get s.fab.later p []).flatMap fun id =>
    let f := Tab.get s.fab.frames id {}
    if !f.recirc then []
    else if f.level2 then s.secondReads f.outVid f.da
    else s.firstReads f ++ s.laterReads f

/-- A write to one of `slots` of table `t` is held off. -/
def State.holds (s : State) (t : Nat) (slots : List Nat) : Bool := slots.any fun x => s.heldOff.contains (t, x)

/-- Slot `slot` of table `t` is cleared, or will be once the write is no longer held off. -/
def State.clearSlot (s : State) (t slot : Nat) : State :=
  if s.holds t [slot] then { s with tbl := { s.tbl with scrub := (t, slot) :: s.tbl.scrub.erase (t, slot) } } else s.setEnt t slot 0

/-- The clears that waited and are held off no more. -/
def State.scrubDue (s : State) : State :=
  if s.tbl.scrub = [] then s
  else
    let l := s.tbl.scrub
    { s with tbl := { s.tbl with scrub := [] } }.each l fun s x => s.clearSlot x.1 x.2

/-! ## Parity (R259) -/

/-- The entry of a slot fails its parity: reported with its place, counted and scrubbed. -/
def State.parityErr (s : State) (t slot : Nat) : State :=
  let n := buckets t * 4
  let (b, w, k) := if t = 2 then (0, 0, slot) else (slot / n, slot % 4, slot / 4 % buckets t)
  let s := s.wrs [(Reg.tblParityLocTable, t), (Reg.tblParityLocBank, b), (Reg.tblParityLocWay, w), (Reg.tblParityLocIndex, k)]
  (((s.clearSlot t slot).bump Reg.tblCntParity).ev 0x67).report (0x180 + t) (t * 2 ^ 30 + b * 2 ^ 29 + w * 2 ^ 27 + k)

/-- The slots of table `t` (Table TB-1). -/
def tableSlots (t : Nat) : Nat := if t = 2 then 4096 else 8 * buckets t

/-- A bit that stands in a slot's memory has turned over: one of its parity bits no longer fits. -/
def State.upset (s : State) (t slot : Nat) : State :=
  if 2 < t ∨ tableSlots t ≤ slot then s else s.setParity t slot (Nat.xor (s.parity t slot) 1)

/-- Slots are read. `bad` names those in which the memory has turned a bit over since the last read; a slot read whose entry and
parity do not fit fails, an empty one too (R259). -/
def State.parityReads (s : State) (reads bad : List (Nat × Nat)) : State :=
  let s := s.each bad fun s x => s.upset x.1 x.2
  s.each reads fun s x => if s.fits x.1 x.2 then s else s.parityErr x.1 x.2

/-! ## The learn queue -/

/-- A notification record (Table TB-9). -/
def noteBytes (ty flags vid nseq mac a b sa sb : Nat) : List Byte :=
  le 1 ty ++ le 1 flags ++ le 2 vid ++ le 4 nseq ++ be 6 mac ++ le 1 a ++ le 1 b ++ le 8 sa ++ le 8 sb

/-- The LNQ holds `l`. -/
def State.setLnq (s : State) (l : List (List Byte)) : State :=
  { s with tbl := { s.tbl with lnq := l } }.wr Reg.tblLnqStatusCount l.length

/-- A record joins the LNQ; in FIFO mode the first one is an interrupt (Table HI-9). -/
def State.lnqPush (s : State) (r : List Byte) : State :=
  let was := s.tbl.lnq
  (s.setLnq (was ++ [r])).when (was == [] && s.on Reg.hifCfgLnqFifo) fun s => s.intr 8

/-- The LNQ has the room that R263 asks for. -/
def State.lnqRoom (s : State) : Bool := decide (s.tbl.lnq.length + 257 ≤ 4096)

/-- NSEQ of the next notification. -/
def State.nseq (s : State) : Nat := s.rd Reg.tblNseqNext

/-- A LEARN, MOVE, MOVE_CONFLICT or AGED is posted with the next NSEQ and counted. -/
def State.post (s : State) (ty flags vid mac a b sa sb : Nat) : State :=
  let s := s.lnqPush (noteBytes ty flags vid s.nseq mac a b sa sb)
  let s := s.bumpWrap Reg.tblNseqNext
  match ty with
  | 1 => s.bump Reg.tblCntLearn
  | 2 => s.bump Reg.tblCntMove
  | 3 => s.bump Reg.tblCntConflict
  | _ => s.bump Reg.tblCntAged

/-- The CAM holds `l`. -/
def State.setCam (s : State) (l : List Cam) : State :=
  { s with tbl := { s.tbl with cam := l } }.wr Reg.tblLnqStatusCamUsed l.length

/-- The CAM entries of a key are removed (R267). -/
def State.camDrop (s : State) (vid mac : Nat) : State := s.setCam (s.tbl.cam.filter fun c => !(c.vid == vid && c.mac == mac))

/-- Two sightings in order (R265): which of (destination, stamp) is A, which B, with BY_ARRIVAL and TIE. `x`
arrived first. -/
def State.orderSight (s : State) (x y : Nat × Nat) : (Nat × Nat) × (Nat × Nat) × Nat :=
  let n := fieldOf x.2 60 3
  if bit x.2 63 && bit y.2 63 && n == fieldOf y.2 60 3 then
    let d := s.tbDiff n (s.stampTime x.2) (s.stampTime y.2)
    if d < 0 then (x, y, 0) else if d > 0 then (y, x, 0)
    else if x.1 ≤ y.1 then (x, y, 4) else (y, x, 4)
  else (x, y, 2)

/-- A sighting that reaches the learn engine (R264): key (`vid`, `mac`) from destination `port` with `stamp` in
frame `id` of pipeline `p`; `sa` is the entry its SA hit. Answers the record it posted, if any. -/
def State.sighting (s : State) (p vid mac port stamp id : Nat) (sa : Option Nat) : List Byte × State :=
  let missed (s : State) : List Byte × State := ([], (s.bump Reg.tblCntLnqFull).ev (0x029 + 16 * p))
  match s.tbl.cam.find? fun c => c.vid == vid && c.mac == mac with
  | none =>
    if 256 ≤ s.tbl.cam.length then ([], (s.bump Reg.tblCntCamFull).ev (0x029 + 16 * p))
    else if !s.lnqRoom then missed s
    else
      let q := s.nseq
      let (ty, b) := match sa with
        | some e => (2, eDest e)
        | none => (1, 0)
      let s := ((s.post ty 0 vid mac port b stamp 0).ev (0x028 + 16 * p))
      let c : Cam := { vid := vid, mac := mac, port := port, stamp := stamp, frame := id, nseq := q, conflict := false, second := 0, nseq2 := 0 }
      (noteBytes ty 0 vid q mac port b stamp 0, s.setCam (s.tbl.cam ++ [c]))
  | some c =>
    if c.conflict || port == c.port then ([], s)
    else if !s.lnqRoom then missed s
    else
      let q := s.nseq
      let (a, b, fl) := s.orderSight (c.port, c.stamp) (port, stamp)
      let s := ((s.post 3 fl vid mac a.1 b.1 a.2 b.2).ev (0x028 + 16 * p))
      (noteBytes 3 fl vid q mac a.1 b.1 a.2 b.2,
        s.setCam (s.tbl.cam.map fun d => if d.vid == vid && d.mac == mac then { d with conflict := true, second := id, nseq2 := q } else d))

/-- A frame whose sighting posted `note` ends bad: the RETRACT, and the CAM entry it made goes (R268). With PD3 off queue and CAM are gone. -/
def State.retract (s : State) (note : List Byte) : State :=
  if note.isEmpty || !s.pdOn 3 then s
  else
    let q := u32 note 4
    let s := (s.lnqPush (le 1 4 ++ note.drop 1)).bump Reg.tblCntRetract
    let s := s.ev 0x69
    s.setCam (s.tbl.cam.filter fun c => !(c.nseq == q || (c.conflict && c.nseq2 == q)))

/-- A conflict is pending for (VID, MAC) (R266). -/
def State.conflicted (s : State) (vid mac : Nat) : Bool :=
  s.tbl.cam.any fun c => c.conflict && c.vid == vid && c.mac == mac

/-! ## Lookup (R250) -/

/-- AGE_NOW. -/
def State.ageNow (s : State) : Nat := s.rd Reg.tblStatusAgeNow

/-- A refresh of a hit entry (R256). -/
def State.refresh (s : State) (t slot : Nat) : State :=
  let e := s.ent t slot
  if t = 2 then s.setEnt t slot (e - fieldOf e 288 16 * 2 ^ 288 + s.ageNow * 2 ^ 288) else s.setEnt t slot (setHit e s.ageNow)

/-- The VLAN entry of `vid`, refreshed where it hits; one that fails its parity is a miss (R259). -/
def State.vlanLookup (s : State) (vid : Nat) : Option Nat × State :=
  let e := s.ent tVlan vid
  if bit e 319 && s.fits tVlan vid then (some e, s.refresh tVlan vid) else (none, s)

/-- Bit `n` of MEMBER of a VLAN entry, either member's for a pair (R308). -/
def State.vMember (s : State) (v n : Nat) : Bool :=
  match s.pairAt n with
  | some k => bit v (s.rd (Reg.redPairCfgPrimary k)) || bit v (s.rd (Reg.redPairCfgSecondary k))
  | none => bit v n

/-- The destinations of a flood in VLAN entry `v` without the ingress: one for a pair (R250, R308). -/
def State.floodSet (s : State) (v ing : Nat) : List Nat :=
  ((List.range 128).filter fun n => bit v n && s.isDest n && !s.sameDest n ing).foldl
    (fun l n => if l.any (fun m => s.sameDest m n) then l else l ++ [n]) []

/-- The decision of a lookup: ACTION (0 unicast, 1 flood, 2 discard), the destinations before pairs resolve. -/
structure Decision where
  action : Nat
  dests  : List Nat
  deriving DecidableEq, Repr

/-- A unicast to `n` from `ing` under VLAN entry `v`; a refusal counts in VLAN_DROP (R250). -/
def State.unicast (s : State) (p v ing n : Nat) : Decision × State :=
  if s.sameDest n ing || !s.vMember v n then (⟨2, []⟩, (s.bump Reg.tblCntVlanDrop).ev (0x026 + 16 * p))
  else (⟨0, [n]⟩, s)

/-- The part of R250 after the flow lookup: the DA's fate in VLAN entry `v`. -/
def State.daDecide (s : State) (p v ing vid da : Nat) (d : Option Nat) (tc : Nat) : Decision × Nat × State :=
  let flood (s : State) : Decision × Nat × State :=
    (⟨1, s.floodSet v ing⟩, tc, (s.bump Reg.tblCntFloods).ev (0x027 + 16 * p))
  if isGroup da then flood s
  else
    match d with
    | none => flood (s.ev (0x02B + 16 * p))
    | some e =>
      let s := s.ev (0x02A + 16 * p)
      if s.conflicted vid da then flood s
      else if eBit124 e then (⟨2, []⟩, tc, s)
      else
        let tc := if bit e 35 then fieldOf e 32 3 else tc
        let (a, s) := s.unicast p v ing (eDest e)
        (a, tc, s)

/-- An FDB lookup of a DA, which refreshes where REFRESH_DA = 1 (R256). -/
def State.daLookup (s : State) (vid da : Nat) : Option Nat × State :=
  match s.hitKey tFdb (fdbKeyBytes vid da) with
  | some sl => (some (s.ent tFdb sl), s.when (s.on Reg.tblCfgRefreshDa) fun s => s.refresh tFdb sl)
  | none => (none, s)

/-- The frame's SA lookup, as a sighting where R261 makes it one: one of a frame known to be bad posts nothing (R268). Answers the record
posted. -/
def State.saStep (s : State) (p id : Nat) (f : Frame) (v : Nat) : List Byte × State :=
  let port := s.learnNo f.ingress
  let hit := s.hitKey tFdb (fdbKeyBytes f.vid f.sa)
  let e := hit.map (s.ent tFdb)
  let own := match e with
    | some x => eDest x == port
    | none => false
  let s := match hit with
    | some sl => s.when own fun s => s.refresh tFdb sl
    | none => s
  if !(s.on Reg.tblCfgLearnEn && s.on Reg.tblLnqCtlRun && s.maskBit Reg.tblLearnPortMask port && bit v 318
      && !isGroup f.sa && f.sa != 0) || own then ([], s)
  else if (e.map eStatic).getD false then ([], s.bump Reg.tblCntStaticMismatch)
  else if f.bad then ([], s)
  else s.sighting p f.vid f.sa port f.stamp id e

/-- What a pass answers: a decision, or the second-level lookup to come (its VID, class, trailer). -/
inductive Look where
  | done (d : Decision) (outVid tc : Nat) (trailer flow : Bool)
  | again (outVid tc : Nat) (trailer : Bool)
  deriving DecidableEq, Repr

/-- Whether a frame that the flow entry `e` decides takes the TRAILER mark (R150, R254). -/
def State.flowTrailer (s : State) (f : Frame) (e : Nat) : Bool := f.trailer || (eBit124 e && s.isPort f.ingress)

/-- The class that the flow entry `e` gives a frame. -/
def flowTc (f : Frame) (e : Nat) : Nat := if bit e 11 then fieldOf e 8 3 else f.iclass

/-- What the flow entry `e` decides of a frame of VLAN entry `v` (R250, R254). -/
def State.flowLook (s : State) (p : Nat) (f : Frame) (v e : Nat) : Look × State :=
  if bit e 24 then (.again (fieldOf e 12 12) (flowTc f e) (s.flowTrailer f e), s)
  else (.done (s.unicast p v f.ingress (eDest e)).1 f.vid (flowTc f e) (s.flowTrailer f e) true, (s.unicast p v f.ingress (eDest e)).2)

/-- The flow entry `e` in `sl` decides a frame of VLAN entry `v` (R250, R254). -/
def State.lookupFlow (s : State) (p id : Nat) (f : Frame) (v sl e : Nat) : Look × List Byte × State :=
  let x := ((s.refresh tFlow sl).ev (0x02C + 16 * p)).saStep p id f v
  let y := x.2.flowLook p f v e
  (y.1, x.1, y.2)

/-- The destination address, found in `d` or not, decides a frame of VLAN entry `v` (R250). -/
def State.lookupDa (s : State) (p id : Nat) (f : Frame) (v : Nat) (d : Option Nat) : Look × List Byte × State :=
  let (note, s) := s.saStep p id f v
  let (a, tc, s) := s.daDecide p v f.ingress f.vid f.da d f.iclass
  (.done a f.vid tc f.trailer false, note, s)

/-- The lookups of a frame's first completed pass (R250). -/
def State.lookup1 (s : State) (p id : Nat) (f : Frame) : Look × List Byte × State :=
  match s.vlanLookup f.vid with
  | (none, s) => (.done ⟨2, []⟩ f.vid f.iclass f.trailer false, [], (s.bump Reg.tblCntVlanDrop).ev (0x026 + 16 * p))
  | (some v, s) =>
    let (d, s') := s.daLookup f.vid f.da
    match if bit (s.rd Reg.tblCfgFlowTc) f.iclass then s.hitKey tFlow (flowKeyBytes f.ingress f.vid f.da f.etype) else none with
    | some sl => s'.lookupFlow p id f v sl (s'.ent tFlow sl)
    | none => s'.lookupDa p id f v d

/-- The second-level lookup in OUT_VID (R250, Table TB-5). -/
def State.lookup2 (s : State) (p : Nat) (f : Frame) : Look × State :=
  let (v?, s) := s.vlanLookup f.outVid
  match v? with
  | none => (.done ⟨2, []⟩ f.outVid f.tc f.trailer false, (s.bump Reg.tblCntVlanDrop).ev (0x026 + 16 * p))
  | some v =>
    let (d, s) := s.daLookup f.outVid f.da
    let (a, tc, s) := s.daDecide p v f.ingress f.outVid f.da d f.tc
    (.done a f.outVid tc f.trailer false, s)

/-- FLOW_HASH (R254). -/
def flowHash (f : Frame) : Nat := crc32 0xFFFFFFFF (be 6 f.da ++ be 6 f.sa ++ be 2 f.vid ++ be 2 f.etype) % 4096

/-! ## Ageing (R255 to R258) -/

/-- AGE_UNIT milliseconds pass: the counter in PD3 advances (R255). -/
def execAgeClockTick (s : State) : Res := if s.pdOn 3 then .next (s.bumpWrap Reg.tblStatusAgeNow) else .next s

/-- An entry is removed with an AGED notification of `reason`. -/
def State.agedPost (s : State) (t e reason : Nat) : State :=
  let et := if t = 1 then fieldOf e 32 16 + fieldOf e 25 7 * 2 ^ 16 else 0
  s.post 5 (t + 8 * reason) (eVid e) (eMac e) (eDest e) 0 et 0

/-- The ager decides the age of the entry in `slot` of table `t` (R257). A removal held off is decided again at the next visit (R252). -/
def State.ageSlot (s : State) (t slot : Nat) : State :=
  let e := s.ent t slot
  let lim := s.rd (if t = 0 then Reg.tblAgeLimitFdbLimit else Reg.tblAgeLimitFlowLimit)
  if !eValid e || !eAgeEn e || s.holds t [slot] || decide ((s.ageNow + 65536 - eHit e) % 65536 < lim) then s
  else if s.on Reg.tblCfgAgeNotify then
    if s.lnqRoom then ((s.setEnt t slot 0).agedPost t e 0).ev 0x65 else (s.bump Reg.tblCntAgeDefer).ev 0x66
  else (s.setEnt t slot 0).ev 0x65

/-- The ager visits one bucket of each bank (R257). -/
def execAgerVisit (parity : List (Nat × Nat)) (s : State) : Res :=
  if !s.pdOn 3 then .next s
  else
    let k := s.tbl.bucket
    let slots := (List.range 16).map fun i =>
      let t := i / 8
      (t, slotOf t (i / 4 % 2) (k % buckets t) (i % 4))
    let s := (s.ev 0x64).parityReads slots parity
    let s := s.each slots fun s x => s.ageSlot x.1 x.2
    .next { s with tbl := { s.tbl with bucket := (k + 1) % 32768 } }

/-! ## Placement (R270) -/

/-- The bank and bucket of a slot of table `t`. -/
def bankOf (t slot : Nat) : Nat := slot / (buckets t * 4)

/-- The lowest free way of a bucket, as a slot. -/
def State.freeWay (s : State) (t b k : Nat) : Option Nat :=
  (List.range 4).findSome? fun w => let sl := slotOf t b k w; if eValid (s.ent t sl) then none else some sl

/-- The breadth-first search of R270, at most `fuel` buckets: a bucket of the queue with the slots vacated on the
way to it, latest first. Answers the free slot and the slots whose entries move, nearest to it first. -/
def State.cuckoo (s : State) (t : Nat) : Nat → List (Nat × Nat × List Nat) → List (Nat × Nat) → Option (List Nat)
  | 0, _, _ => none
  | _, [], _ => none
  | n + 1, (b, k, path) :: q, seen =>
    match s.freeWay t b k with
    | some sl => some (sl :: path)
    | none =>
      if 8 ≤ path.length then State.cuckoo s t n q seen
      else
        let nxt := (List.range 4).map fun w =>
          let sl := slotOf t b k w
          (1 - b, s.bucketOf t (1 - b) (eKeyBytes t (s.ent t sl)), sl :: path)
        let nxt := nxt.filter fun x => !seen.contains (x.1, x.2.1)
        State.cuckoo s t n (q ++ nxt) (seen ++ nxt.map fun x => (x.1, x.2.1))

/-- The path that an INSERT of `e` into table `t` takes. -/
def State.insertPath (s : State) (t e : Nat) : Option (List Nat) :=
  let key := eKeyBytes t e
  let b0 := s.bucketOf t 0 key
  let b1 := s.bucketOf t 1 key
  s.cuckoo t 256 [(0, b0, []), (1, b1, [])] [(0, b0), (1, b1)]

/-- The entry of slot `src` moves to slot `sl` (R252). -/
def State.moveEnt (s : State) (t sl src : Nat) : State := (s.setEnt t sl (s.ent t src)).ev 0x61

/-- The moves of a path from its free end backwards, then `e` in the last slot. -/
def State.runPath (s : State) (t e : Nat) : List Nat → State
  | [] => s
  | sl :: l =>
    match l.head? with
    | none => s.setEnt t sl e
    | some src => State.runPath (s.moveEnt t sl src) t e l

/-- Entry `e` placed in table `t`; whether it found a place. -/
def State.place (s : State) (t e : Nat) : Bool × State :=
  match s.insertPath t e with
  | some l => (true, s.runPath t e l)
  | none => (false, s)

/-! ## The static shadow (R260) -/

/-- An entry without its HIT_TS. -/
def eCore (kind e : Nat) : Nat := if kind = 0 then e - fieldOf e 288 16 * 2 ^ 288 else setHit e 0

/-- Reinstating a missing FDB or flow entry: a free way of a candidate bucket, else the lowest host entry of the
bank-0 bucket is evicted. -/
def State.reinstateKey (s : State) (t e : Nat) : Bool × State :=
  let key := eKeyBytes t e
  let b0 := s.bucketOf t 0 key
  match (s.freeWay t 0 b0).orElse fun _ => s.freeWay t 1 (s.bucketOf t 1 key) with
  | some sl => (true, s.setEnt t sl e)
  | none =>
    match (List.range 4).findSome? fun w => let sl := slotOf t 0 b0 w; if eStatic (s.ent t sl) then none else some sl with
    | some sl =>
      let old := s.ent t sl
      (true, (if s.lnqRoom then s.agedPost t old 1 else s).setEnt t sl e)
    | none => (false, s)

/-- An item put back by the audit is counted (R260). -/
def State.auditCount (s : State) : State := (s.bump Reg.tblCntReinstated).ev 0x68

/-- The slots that reinstating an item may write. -/
def State.auditSlots (s : State) (kind vid e : Nat) : List Nat :=
  if kind = 0 then [vid] else s.keySlots (kind - 1) (eKeyBytes (kind - 1) e)

/-- One item of the shadow is checked against its table and reinstated if missing or different. -/
def State.auditItem (s : State) (x : Nat × Nat × Nat) : State :=
  let (kind, vid, e) := x
  if kind = 0 then
    if eCore 0 (s.ent tVlan vid) == e then s else State.auditCount (s.setEnt tVlan vid e)
  else
    let t := kind - 1
    match s.findKey t (eKeyBytes t e) with
    | some sl => if eCore 1 (s.ent t sl) == e then s else State.auditCount (s.setEnt t sl e)
    | none =>
      let (ok, s) := s.reinstateKey t e
      s.when ok State.auditCount

/-- The audit checks the next static item (R260). `ecc`: 0 the shadow reads clean, 1 a corrected error, 2 an
uncorrectable one. An item that a CONTAIN has taken out is passed over; where the writes to its buckets are held off (R252), the
audit waits. -/
def execShadowAuditStep (ecc : Fin 3) (parity : List (Nat × Nat)) (s : State) : Res :=
  if !s.pdOn 3 || s.tbl.items == 0 then .next s
  else
    let i := s.tbl.audit % s.tbl.items
    let (kind, vid, e) := Tab.get s.tbl.shadow i (0, 0, 0)
    if s.holds (if kind = 0 then tVlan else kind - 1) (s.auditSlots kind vid e) then .next s else
    let s := { s with tbl := { s.tbl with audit := (i + 1) % s.tbl.items } }
    if s.flt.auditSkip.contains i then .next s
    else if ecc = 2 then .next (s.report 0x184 i)
    else
      let s := s.when (ecc == 1) fun s => s.report 0x183 i
      let reads := (s.auditSlots kind vid e).map fun x => (if kind = 0 then tVlan else kind - 1, x)
      .next ((s.parityReads reads parity).auditItem (kind, vid, e))

/-- The oldest CAM entry is 2 ms old and removed (R267). -/
def execCamEntryExpire (s : State) : Res := .next (s.setCam (s.tbl.cam.drop 1))

/-! ## Table commands (R269 to R273) -/

/-- The command at the front of the queue, where its result has room (R399, R403). -/
def State.tcqFront (s : State) : Option TcqCmd :=
  match s.tbl.tcq with
  | [] => none
  | c :: _ => if c.dma || decide (s.hif.tcr.length < 256) then some c else none

/-- TCQ_FREE and TCR_COUNT follow the queues. -/
def State.fifoStatus (s : State) : State :=
  s.wrs [(Reg.hifFifoStatusTcqFree, 256 - s.tbl.tcq.length), (Reg.hifFifoStatusTcrCount, s.hif.tcr.length)]

/-- The front command completes with result `r`: it leaves the queue, and its result goes to ring 2 or to the
result FIFO (Table HI-6). Event 0x060, a command executed, is raised for every command that finishes, OP 0 and a refused one among them: Table PM-1
does not say which count (DESIGN CHOICE, log entry 72). -/
def State.tcqDone (s : State) (c : TcqCmd) (r : Nat) : State :=
  let s := { s with tbl := { s.tbl with tcq := s.tbl.tcq.drop 1 } }
  let e := slice c.bytes 4 4 ++ le 1 r ++ slice c.bytes 0 2 ++ le 1 (s.rd Reg.tblEpochCurrent) ++ le 4 c.idx ++ le 4 0
  let s := s.ev 0x60
  if c.dma then (s.when (s.ringOn 2) fun s => s.ringPost 2 e).fifoStatus
  else
    let was := s.hif.tcr
    ({ s with hif := { s.hif with tcr := was ++ [e] } }.fifoStatus).when (was == []) fun s => s.intr 9

/-- The entry field of a command with HIT_TS = AGE_NOW, VALID 1, ORIGIN 0. -/
def State.cmdEntry (s : State) (c : TcqCmd) : Nat :=
  let e := unle (slice c.bytes 8 16)
  setHit (e % 2 ^ 126) s.ageNow + 2 ^ 127

/-- The value checks of Table TB-13 on an INSERT, MODIFY or DELETE. -/
def State.cmdBad (s : State) (c : TcqCmd) (e : Nat) : Bool :=
  let t := u8 c.bytes 1
  let raw := unle (slice c.bytes 8 16)
  decide (2 ≤ t) || !zeros c.bytes 24 8 || eVid e == 0 || eVid e == 4095
    || (if t = 0 then fieldOf raw 36 12 != 0 || fieldOf raw 7 25 != 0 || eMac e == 0 || isGroup (eMac e) || !s.isDest (eDest e)
        else bit raw 7 || !s.isDest (fieldOf e 25 7)
          || (if bit e 24 then !bit (s.ent tVlan (fieldOf e 12 12)) 319 else !s.isDest (eDest e)))

/-- INSERT, MODIFY or DELETE (`op` 1 to 3) of the front command, checked in the order of Table TB-13. A write that is held off waits
(R252). -/
def State.tableCmd (s : State) (c : TcqCmd) (op : Nat) : State :=
  let t := u8 c.bytes 1
  let e := s.cmdEntry c
  if u16 c.bytes 2 ≠ s.rd Reg.tblStatusGen then s.tcqDone c 1
  else if s.cmdBad c e then s.tcqDone c 2
  else
    let drop (s : State) : State := s.when (t == 0) fun s => s.camDrop (eVid e) (eMac e)
    match s.findKey t (eKeyBytes t e) with
    | some sl =>
      if eStatic (s.ent t sl) then s.tcqDone c 3
      else if op = 1 then s.tcqDone c 4
      else if s.holds t [sl] then s
      else if op = 2 then (drop (s.setEnt t sl e)).tcqDone c 0
      else (drop (s.setEnt t sl 0)).tcqDone c 0
    | none =>
      if op ≠ 1 then s.tcqDone c 5
      else if s.holds t ((s.insertPath t e).getD []) then s
      else
        let (ok, s) := s.place t e
        if ok then (drop s).tcqDone c 0 else (s.bump Reg.tblCntTcqFull).tcqDone c 6

/-- A command of OP `op` at the front of the queue is executed by `f`. -/
def State.tcqRun (s : State) (op : Nat → Bool) (f : State → TcqCmd → State) : Res :=
  if !s.pdOn 3 then .next s
  else
    match s.tcqFront with
    | some c => if op (u8 c.bytes 0) then .next (f s c) else .next s
    | none => .next s

/-- OP 0 returns its TAG with OK, unchecked (R425). -/
def execTcqNop (s : State) : Res := s.tcqRun (· == 0) fun s c => s.tcqDone c 0

/-- INSERT (R270). -/
def execTcqInsert (s : State) : Res := s.tcqRun (· == 1) fun s c => s.tableCmd c 1

/-- MODIFY replaces every non-key field of an existing host entry. -/
def execTcqModify (s : State) : Res := s.tcqRun (· == 2) fun s c => s.tableCmd c 2

/-- DELETE removes a host entry. -/
def execTcqDelete (s : State) : Res := s.tcqRun (· == 3) fun s c => s.tableCmd c 3

/-- FENCE advances the epoch; it waits while 16 fences are outstanding (R273). -/
def execTcqFence (s : State) : Res :=
  s.tcqRun (· == 4) fun s c =>
    if u16 c.bytes 2 ≠ s.rd Reg.tblStatusGen then s.tcqDone c 1
    else if !zeros c.bytes 24 8 || decide (2 ≤ u8 c.bytes 1) then s.tcqDone c 2
    else if 16 ≤ s.tbl.fences.length then s
    else
      let n := (s.rd Reg.tblEpochCurrent + 1) % 256
      let s := { s with tbl := { s.tbl with fences := s.tbl.fences ++ [n] } }.wrs
        [(Reg.tblEpochCurrent, n), (Reg.tblEpochOutstanding, s.tbl.fences.length + 1)]
      (s.ev 0x62).tcqDone c 0

/-- A reserved OP is answered BAD_VALUE, after the GEN check. -/
def execTcqReserved (s : State) : Res :=
  s.tcqRun (decide <| 5 ≤ ·) fun s c => s.tcqDone c (if u16 c.bytes 2 ≠ s.rd Reg.tblStatusGen then 1 else 2)

/-- The frames counted under epoch `e`. -/
def State.epochCount (s : State) (e : Nat) : Nat := Tab.get s.tbl.counts e 0

/-- The count of epoch `e` moves by one. -/
def State.epochAdd (s : State) (e : Nat) (up : Bool) : State :=
  let n := s.epochCount e
  { s with tbl := { s.tbl with counts := Tab.set s.tbl.counts e (if up then n + 1 else n - 1) 0 } }

/-- No frame holds a fence to epoch `n` (R273). -/
def State.fenceClear (s : State) (n : Nat) : Bool :=
  (List.range 128).all fun i => s.epochCount ((n + 255 - i) % 256) == 0

/-- The oldest outstanding fence completes once no older frame remains (R273). -/
def execFenceComplete (s : State) : Res :=
  match s.tbl.fences with
  | [] => .next s
  | n :: l =>
    if !s.fenceClear n then .next s
    else
      let s := { s with tbl := { s.tbl with fences := l } }.wrs
        [(Reg.tblEpochCompleted, n), (Reg.tblEpochOutstanding, l.length), (Reg.tblFenceStatusDone, 1)]
      .next ((s.ev 0x63).when (s.on Reg.tblFenceStatusIe) fun s => s.intr 7)

/-- A write of LNQ_CTL.RUN that changes it increments STATUS.GEN (R261, R275). -/
def execLnqCtlWrite (run : Bool) (s : State) : Res :=
  if s.rd Reg.tblLnqCtlRun = b2n run then .next s
  else .next ((s.wr Reg.tblLnqCtlRun (b2n run)).bumpWrap Reg.tblStatusGen)

/-! ## Host-view reset (R275) -/

/-- The slots of table `t`, kept in `l`, that hold a host entry. -/
def hostSlots (t : Nat) (l : Tab Nat) : List (Nat × Nat) := (l.filter fun e => !eStatic e.2).map fun e => (t, e.1)

/-- The sweep of a host-view reset: every host entry leaves the FDB and the flow table, and the slot it leaves has the parity of an empty
one. A slot whose write is held off is cleared later (R252). -/
def State.sweep (s : State) : State :=
  let held := s.heldOff
  let all := hostSlots tFdb s.tbl.fdb ++ hostSlots tFlow s.tbl.flow
  let gone := all.filter fun x => !held.contains x
  { s with tbl := { s.tbl with
      fdb := s.tbl.fdb.filter fun e => !gone.contains (tFdb, e.1)
      flow := s.tbl.flow.filter fun e => !gone.contains (tFlow, e.1)
      par := s.tbl.par.filter fun x => !gone.contains (x.1 % 4, x.1 / 4)
      scrub := (all.filter fun x => held.contains x) ++ s.tbl.scrub } }

/-- The tables' part of a host-view reset. -/
def State.tblReset (s : State) : State :=
  let s := s.wrs [(Reg.tblLnqCtlRun, 0), (Reg.tblFenceStatusIe, 0)]
  let s := ((s.bumpWrap Reg.tblStatusGen).setLnq []).setCam []
  { s.sweep with tbl := { s.sweep.tbl with tcq := [], pushes := 0 } }.tblUse

/-! ## Record (R276, R277) -/

/-- Byte offset of VLAN item `i`. -/
def vlanOff (i : Nat) : Nat := 64 + 40 * i

/-- The VLAN entry of item `i`. -/
def vlanItem (v : List Byte) (i : Nat) : Nat :=
  let o := vlanOff i
  2 ^ 319 + u8 v (o + 2) % 2 * 2 ^ 318 + unle (slice v (o + 24) 16) * 2 ^ 128 + unle (slice v (o + 8) 16)

/-- The FDB entries and flow entries of the record. -/
def fdbItems (v : List Byte) : List Nat :=
  (List.range (u16 v 42)).map fun j => unle (slice v (64 + 40 * u16 v 40 + 16 * j) 16)
/-- The flow entries. -/
def flowItems (v : List Byte) : List Nat :=
  (List.range (u16 v 44)).map fun j => unle (slice v (64 + 40 * u16 v 40 + 16 * u16 v 42 + 16 * j) 16)

/-- The record's header fields are written. -/
def State.tblHeader (s : State) (v : List Byte) : State :=
  let d (x y : Nat) : Nat := if x = 0 then y else x
  let s := s.wrs [(Reg.tblCfgLearnEn, u8 v 0), (Reg.tblCfgRefreshDa, u8 v 0 / 2), (Reg.tblCfgAgeNotify, u8 v 0 / 4),
    (Reg.tblCfgFlowTc, u8 v 1), (Reg.tblCfgAgeUnit, d (u16 v 2) 1000), (Reg.tblAgeLimitFdbLimit, d (u16 v 4) 300),
    (Reg.tblAgeLimitFlowLimit, d (u16 v 6) 300), (Reg.tblSeed0Seed, u32 v 8), (Reg.tblSeed1Seed, u32 v 12),
    (Reg.tblFseed0Seed, u32 v 16), (Reg.tblFseed1Seed, u32 v 20)]
  s.each (List.range 4) fun s k => s.wr (Reg.tblLearnPortMask k) (u32 v (24 + 4 * k))

/-- Static entries placed in order; whether all found a place. -/
def State.placeAll (s : State) (t : Nat) : List Nat → Bool × State
  | [] => (true, s)
  | e :: l =>
    let (ok, s) := s.place t e
    if ok then State.placeAll s t l else (false, s)

/-- The keys of a list of entries repeat. -/
def keysRepeat (t : Nat) : List Nat → Bool
  | [] => false
  | e :: l => l.any (fun x => eKeyBytes t x == eKeyBytes t e) || keysRepeat t l

/-- The numbers of a 128-bit mask are destinations. -/
def maskOk (names : Nat → Bool) (m : Nat) : Bool := (List.range 128).all fun n => !bit m n || names n

/-- A static entry passes R277 in table `t`. -/
def staticOk (names vids : Nat → Bool) (t e : Nat) : Bool :=
  eValid e && eStatic e && !eAgeEn e && eHit e == 0 && vids (eVid e)
    && (if t = 0 then fieldOf e 36 12 == 0 && fieldOf e 7 25 == 0 && eMac e != 0 && !isGroup (eMac e) && names (eDest e)
        else !bit e 7 && names (fieldOf e 25 7) && (if bit e 24 then vids (fieldOf e 12 12) else names (eDest e)))

/-- TABLES_STATIC passes R277. `names`: the number is a destination; `leat`: it is a Leat lane. -/
def checkTables (names leat : Nat → Bool) (v : List Byte) : Bool :=
  let nv := u16 v 40
  let nf := u16 v 42
  let nw := u16 v 44
  let vid (i : Nat) : Nat := u16 v (vlanOff i)
  let vids (x : Nat) : Bool := (List.range nv).any fun i => vid i == x
  let seeds : State := ({} : State).tblHeader v
  decide (64 ≤ v.length) && inRange 1 nv 4094 && decide (nf ≤ 8192) && decide (nw ≤ 8192)
    && v.length == 64 + 40 * nv + 16 * (nf + nw) && decide (u8 v 0 < 8) && zeroOr 1 (u16 v 2) 1000
    && zeroOr 1 (u16 v 4) 32767 && zeroOr 1 (u16 v 6) 32767 && zeros v 46 18
    && u32 v 8 != u32 v 12 && u32 v 16 != u32 v 20 && maskOk names (unle (slice v 24 16))
    && (List.range nv).all (fun i =>
        let o := vlanOff i
        let m := unle (slice v (o + 8) 16)
        let ut := unle (slice v (o + 24) 16)
        inRange 1 (vid i) 4094 && (i == 0 || decide (vid (i - 1) < vid i)) && decide (u8 v (o + 2) < 2) && zeros v (o + 3) 5
          && maskOk names m && (List.range 128).all (fun n => !bit ut n || (bit m n && !leat n)))
    && (fdbItems v).all (staticOk names vids tFdb) && (flowItems v).all (staticOk names vids tFlow)
    && !keysRepeat tFdb (fdbItems v) && !keysRepeat tFlow (flowItems v)
    && (seeds.placeAll tFdb (fdbItems v)).1 && (seeds.placeAll tFlow (flowItems v)).1

/-- The shadow takes an item. -/
def State.shadowAdd (s : State) (kind vid e : Nat) : State :=
  let i := s.tbl.items
  { s with tbl := { s.tbl with shadow := Tab.set s.tbl.shadow i (kind, vid, e) (0, 0, 0), items := i + 1 } }

/-- An item of the shadow is written into its table. -/
def State.loadItem (s : State) (x : Nat × Nat × Nat) : State :=
  let (kind, vid, e) := x
  if kind = 0 then s.setEnt tVlan vid e else (s.place (kind - 1) e).2

/-- The memories of the tables and queues in PD3 hold zeros (Table IM-14): nothing but the shadow is left. -/
def State.tablesWipe (s : State) : State :=
  let s := (s.setLnq []).setCam []
  { s with tbl := { shadow := s.tbl.shadow, items := s.tbl.items, pushes := s.tbl.pushes }, hif := { s.hif with tcr := [] } }.fifoStatus

/-- PD3 ramps on: its memories are wiped and the image's static entries reloaded, in their order (R55, R377). -/
def State.tablesLoad (s : State) : State :=
  (s.tablesWipe.each (List.range s.tbl.items) fun s i => s.loadItem (Tab.get s.tbl.shadow i (0, 0, 0))).tblUse

/-- TABLES_STATIC is applied: header, tables and shadow. -/
def applyTables (v : List Byte) (s : State) : State :=
  let s := s.tblHeader v
  let s := s.each (List.range (u16 v 40)) fun s i =>
    (s.setEnt tVlan (u16 v (vlanOff i)) (vlanItem v i)).shadowAdd 0 (u16 v (vlanOff i)) (vlanItem v i)
  let s := s.each (fdbItems v) fun s e => (s.place tFdb e).2.shadowAdd 1 0 e
  s.each (flowItems v) fun s e => (s.place tFlow e).2.shadowAdd 2 0 e

/-- The tables of an image without a TABLES_STATIC record: VID 1 with every destination, untagged on ports. -/
def applyTablesDefault (s : State) : State :=
  let m := (List.range 128).foldl (fun m n => if s.isDest n then m + 2 ^ n else m) 0
  let u := (List.range 128).foldl (fun m n => if s.isPort n then m + 2 ^ n else m) 0
  let e := 2 ^ 319 + 2 ^ 318 + u * 2 ^ 128 + m
  (s.setEnt tVlan 1 e).shadowAdd 0 1 e

end Sys2Proof.Machine
end

