-- ==== Sys2Proof/Machine/FrameEdit.lean ====
section
/-! DEFINITION. The bytes of a frame: its header, its FCS, the ingress trailer (R150), egress tagging (R250),
PTP messages and their correction (R147 to R149), and stamps at the balls (R146, R206). -/
namespace Sys2Proof.Machine

/-! ## Header and FCS -/

/-- The FCS of bytes, as sent (IEEE 802.3). -/
def fcsOf (l : List Byte) : List Byte := le 4 (crc32 0xFFFFFFFF l)

/-- A frame without its last four bytes. -/
def bodyOf (l : List Byte) : List Byte := l.take (l.length - 4)

/-- The frame's FCS is good. -/
def fcsGood (l : List Byte) : Bool := decide (4 ≤ l.length) && l.drop (l.length - 4) == fcsOf (bodyOf l)

/-- Bytes most significant first, from offset `o`. -/
def beAt (l : List Byte) (o k : Nat) : Nat := unbe (slice l o k)

/-- The tag control field of an 802.1Q tag, which only TPID 0x8100 marks (R139). -/
def tciOf (l : List Byte) : Option Nat := if beAt l 12 2 = 0x8100 then some (beAt l 14 2) else none

/-- The EtherType after at most one 802.1Q tag. -/
def etypeOf (l : List Byte) : Nat := if beAt l 12 2 = 0x8100 then beAt l 16 2 else beAt l 12 2

/-- The offset of what follows the EtherType. -/
def payloadOff (l : List Byte) : Nat := if beAt l 12 2 = 0x8100 then 18 else 14

/-- Bytes `x` written over `l` from offset `o`. -/
def overwrite (l : List Byte) (o : Nat) (x : List Byte) : List Byte := l.take o ++ x ++ l.drop (o + x.length)

/-! ## PTP messages (R147) -/

/-- Where a PTP message starts and how it is framed: 0 Ethernet, 1 UDP over IPv4, 2 UDP over IPv6; with the
offset of its UDP header. -/
def ptpAt (l : List Byte) : Option (Nat × Nat × Nat) :=
  let o := payloadOff l
  let port (u : Nat) : Bool := beAt l (u + 2) 2 == 319 || beAt l (u + 2) 2 == 320
  match etypeOf l with
  | 0x88F7 => some (o, 0, 0)
  | 0x0800 =>
    let u := o + 4 * (u8 l o % 16)
    if u8 l (o + 9) = 17 ∧ port u then some (u + 8, 1, u) else none
  | 0x86DD =>
    let u := o + 40
    if u8 l (o + 6) = 17 ∧ port u then some (u + 8, 2, u) else none
  | _ => none

/-- The PTP messageType. -/
def ptpType (l : List Byte) (o : Nat) : Nat := u8 l o % 16

/-- The ones' complement sum of 16-bit words. -/
def onesSum (l : List Byte) : Nat :=
  let n := (List.range ((l.length + 1) / 2)).foldl (fun n i => n + beAt l (2 * i) 2) 0
  let n := n / 65536 + n % 65536
  n / 65536 + n % 65536

/-- The UDP checksum after bytes at `o` change from `old` to `new`: zero on IPv4, adjusted on IPv6 (R148). -/
def udpFix (l : List Byte) (kind u : Nat) (old new : List Byte) : List Byte :=
  match kind with
  | 1 => overwrite l (u + 6) (be 2 0)
  | 2 =>
    let c := 65535 - beAt l (u + 6) 2
    let n := c + (65535 - onesSum old) + onesSum new
    let n := n / 65536 + n % 65536
    let n := 65535 - (n / 65536 + n % 65536)
    overwrite l (u + 6) (be 2 (if n = 0 then 65535 else n))
  | _ => l

/-- Bytes of the message at `o` replaced, with the checksum. -/
def ptpPatch (l : List Byte) (kind u o : Nat) (x : List Byte) : List Byte :=
  udpFix (overwrite l o x) kind u (slice l o x.length) x

/-- The sum of a correctionField and a residence, saturated, and whether it saturated (R148). -/
def corrSum (c : Nat) (r : Int) : Nat × Bool :=
  let x := sgn 64 c + r
  if x ≥ 2 ^ 63 then (2 ^ 63 - 1, true) else if x < -2 ^ 63 then (2 ^ 63, true) else (enc 64 x, false)

/-! ## Stamps at the balls (R146, R206) -/

/-- The deskew of a port's first lane, 2^-16 ns: UI of 32/825 ns (Table LE-1); 0 on a port of one lane (R146). -/
def State.deskew (s : State) (n : Nat) : Int :=
  if 2 < s.rd (Reg.portCfgMode n) then roundDiv ((Tab.get s.prt n {}).deskew * 65536 * 32) 825 else 0

/-- What a port adds to a receive stamp for its PCS and FEC, and on more than one lane for the deskew (R146); 0 on a Leat lane. -/
def State.pcsRx (s : State) (n : Nat) : Int :=
  if s.isPort n then Config.pcsRx (s.rd (Reg.portCfgMode n)) (s.rd (Reg.portCfgFec n)) + s.deskew n else 0

/-- What a port adds to a transmit stamp for its PCS and FEC (R146); 0 on a Leat lane. -/
def State.pcsTx (s : State) (n : Nat) : Int :=
  if s.isPort n then Config.pcsTx (s.rd (Reg.portCfgMode n)) (s.rd (Reg.portCfgFec n)) else 0

/-- The time between the present cycle and a frame's first bit, 2^-16 ns. On a Leat lane that bit is located by its line-bit position,
stuff bits included (R116, R206): `raw` counts the line bits between, of 1 280/33 ps or 3 200/33 ps each. On a port it is that time. -/
def State.lineSpan (s : State) (lane raw : Nat) : Int :=
  if s.isLeat lane then roundDiv (raw * 65536 * (if s.rd (Reg.laneCfgQrate lane) = 2 then 3200 else 1280)) 33000 else raw

/-- A receive stamp on base `tb` of the active timekeeper: its present reading less the time since the frame's first bit crossed the
internal reference point and the lane's receive delay, with the skew of the quad and a port's own terms (R146, R206, R207). -/
def State.rxTime (s : State) (lane tb raw : Nat) : Nat :=
  ((((s.atb tb).t : Int) - s.lineSpan lane raw - s.cal (0x080 + lane) + s.cal (0x100 + lane / 4) + s.pcsRx lane) % s.tbRange tb).toNat

/-- A transmit stamp on base `tb`: its present reading, the time until the frame's first bit leaves the reference point, and the lane's
transmit delay, with a port's own term. -/
def State.txTimeOf (s : State) (lane tb raw : Nat) : Nat :=
  ((((s.atb tb).t : Int) + s.lineSpan lane raw + s.cal lane + s.cal (0x100 + lane / 4) + s.pcsTx lane) % s.tbRange tb).toNat

/-- The stamping base of destination `n` (R207). -/
def State.destTb (s : State) (n : Nat) : Nat :=
  if s.isPort n then s.rd (Reg.portPtpCfgTsTb n) else s.rd (Reg.tsLeatTbTb n)

/-- A time on base `a` as base `b` reads it now, by the difference of R157 on `a`. -/
def State.onBase (s : State) (a b t : Nat) : Nat :=
  if a = b then t else ((s.tbDiff a t (s.atb a).t + (s.atb b).t) % s.tbRange b).toNat

/-! ## What leaves (R148 to R150, R250) -/

/-- The trailer's 12 bytes (Table EP-6). -/
def State.trailerBytes (s : State) (f : Frame) : List Byte :=
  let t := s.stampTime f.stamp
  let n := fieldOf f.stamp 60 3
  let w := b2n (bit f.stamp 63) * 2 ^ 31 + s.rd (Reg.tkTbCfgFormat n) * 2 ^ 30 + tNs t
  be 6 (tSec t) ++ be 4 w ++ be 2 (tFrac t)

/-- LEN of a frame, its trailer included (Table SW-1). -/
def frameLen (f : Frame) : Nat := f.len + (if f.trailer then 12 else 0)

/-- The length of a frame as known now. -/
def knownLen (f : Frame) : Nat := if f.ended || f.len != 0 then frameLen f else f.bytes.length

/-- The bytes of a frame that are there and are data, from DA to the last byte before the FCS: of a frame that has not ended all that
have come, up to the FCS where LEN is known. -/
def dataOf (f : Frame) : List Byte :=
  if f.ended then bodyOf f.bytes else if f.len != 0 then f.bytes.take (f.len - 4) else f.bytes

/-- A frame leaves egress `e` untagged: its UNTAG bit in OUT_VID's entry (R250). -/
def State.untags (s : State) (f : Frame) (e : Nat) : Bool := bit (s.ent tVlan f.outVid) (128 + e)

/-- The frame's data (DA to the last data byte) as its VLAN membership at `e` has it: a host frame stands as the
host wrote it. -/
def State.tagEdit (s : State) (f : Frame) (e : Nat) : List Byte :=
  let b := dataOf f
  if f.host then b
  else
    let rest := b.drop (if f.tci.isSome then 16 else 12)
    let addr := b.take 12
    if s.untags f e then addr ++ rest
    else
      let tci := (match f.tci with
        | some t => t / 4096
        | none => f.pri * 2) * 4096 + f.outVid
      addr ++ be 2 0x8100 ++ be 2 tci ++ rest

/-- The bytes that go before the FCS at egress `e`, PTP apart; the trailer follows a frame's last byte. -/
def State.wireBody (s : State) (f : Frame) (e : Nat) : List Byte :=
  s.tagEdit f e ++ (if f.trailer && f.ended then s.trailerBytes f else [])

/-- The length at egress `e` of a copy of a frame of LEN `t`, FCS included, without padding. -/
def State.wireLenOf (s : State) (f : Frame) (e t : Nat) : Nat :=
  if f.host then t
  else match f.tci.isSome, s.untags f e with
    | true, true => t - 4
    | false, false => t + 4
    | _, _ => t

/-- The length of a copy at egress `e` as sent, FCS included, without padding. -/
def State.wireLen (s : State) (f : Frame) (e : Nat) : Nat := s.wireLenOf f e (frameLen f)

/-- Transparent-clock correction and one-step stamping at egress `e` (R148, R149). The TC_MODE of the port that the message leaves by
governs the correction, as the spec does not say whose does (DESIGN CHOICE, log entry 68). A one-step frame takes its whole
nanoseconds into originTimestamp and adds the fraction of a nanosecond to its correction (DEDUCED, log entry 68). `tx` is the egress
stamp on the egress base and `txn` the same instant on the base that the ingress stamp names (R207), 2^-16 ns. Answers the bytes before the FCS, whether they changed, whether a correction saturated. -/
def State.ptpEdit (s : State) (f : Frame) (e tx txn : Nat) (b : List Byte) : List Byte × Bool × Bool :=
  match ptpAt b with
  | none => (b, false, false)
  | some (o, kind, u) =>
    let mode := if s.isPort e then s.rd (Reg.portPtpCfgTcMode e) else 0
    let event := decide (ptpType b o < 4)
    if f.host then
      if !(f.onestep && s.isPort e && s.on (Reg.portPtpCfgOnestepEn e)) then (b, false, false)
      else
        let b := ptpPatch b kind u (o + 34) (be 6 (tSec tx) ++ be 4 (tNs tx))
        if mode = 0 then (b, true, false)
        else
          let (c, sat) := corrSum (beAt b (o + 8) 8) (tFrac tx)
          (ptpPatch b kind u (o + 8) (be 8 c), true, sat)
    else if mode = 0 || !event || !bit f.stamp 63 then (b, false, false)
    else
      let n := fieldOf f.stamp 60 3
      let r := s.tbDiff n txn (s.stampTime f.stamp)
      let r := if mode = 2 ∧ ptpType b o = 0 ∧ s.isPort f.ingress then r + s.rd (Reg.portP2pDelayDelay f.ingress) else r
      let (c, sat) := corrSum (beAt b (o + 8) 8) r
      (ptpPatch b kind u (o + 8) (be 8 c), true, sat)

/-- The bytes of a copy at egress `e`: edited, padded to 64 bytes on a port (R136), with its FCS; a stomped copy carries
the complement of the FCS of what was sent, a frame that was bad on entry an inverted new FCS (R150, R298). -/
def State.wireBytes (s : State) (f : Frame) (e tx txn : Nat) (stomp : Bool) (limit : Nat) : List Byte × Bool :=
  let (b, _, sat) := s.ptpEdit f e tx txn (s.wireBody f e)
  let b := b.take limit
  let b := if s.isPort e then b ++ List.replicate (60 - b.length) 0 else b
  let c := crc32 0xFFFFFFFF b
  let inv := stomp || (f.trailer && f.badFcs)
  (b ++ le 4 (if inv then 2 ^ 32 - 1 - c else c), sat)

end Sys2Proof.Machine
end

