-- ==== Sys2Proof/Machine/Fabric.lean ====
section
/-! DEFINITION. The switch core: buffer, admission, back-pressure, lookup passes, resequencing, scheduling,
cut-through and fixed-latency forwarding (12_switch_core). -/
namespace Sys2Proof.Machine

/-! ## Frames and cells -/

/-- Frame `id`. -/
def State.frame (s : State) (id : Nat) : Frame := Tab.get s.fab.frames id {}

/-- Frame `id` set. -/
def State.setFrame (s : State) (id : Nat) (f : Frame) : State :=
  { s with fab := { s.fab with frames := Tab.set s.fab.frames id f {} } }

/-- The stream (ingress, class) as a key. -/
def streamOf (i c : Nat) : Nat := 8 * i + c

/-- Free shared cells. -/
def State.sharedFree (s : State) : Nat := s.rd Reg.fabPoolSharedFree

/-- Class `c` is lossless at destination `i` (R284). -/
def State.lossless (s : State) (i c : Nat) : Bool := bit (s.rd (Reg.fabDestCfgLossless i)) c

/-- The bytes a frame's cells hold. -/
def cellsOf (n : Nat) : Nat := (n + 255) / 256

/-! ## Back-pressure (R285) -/

/-- The ingress and class `k` enters HELD or returns to OPEN: the signal to its partner is BP on a Leat lane (the
XOFF bit), PFC on a port for a class in LOSSLESS. -/
def State.setHeld (s : State) (k : Nat) (b : Bool) : State :=
  let i := k / 8
  let c := k % 8
  let s := { s with fab := { s.fab with xoff := if b then k :: s.fab.xoff else s.fab.xoff.filter (· != k) } }
  let s := s.wrBit (Reg.fabDestStatusXoff i) c b
  let s := s.when b fun s => s.ev (0x201 + 8 * c)
  if s.isPort i && s.on (Reg.portPfcCfgPfcEn i) && bit (s.rd (Reg.portPfcCfgLossless i)) c then
    { s with fab := { s.fab with pfc := Tab.set s.fab.pfc i (setBit (Tab.get s.fab.pfc i 0) c true) 0 } }.wrBit
      (Reg.portLinkTxXoff i) c b
  else s

/-- Table SW-3 for stream `k`. -/
def State.bpStep (s : State) (k : Nat) : State :=
  let c := k % 8
  let u := Tab.get s.fab.shared k 0
  let guard := s.rd Reg.fabGuardCells
  if s.fab.xoff.contains k then
    if u ≤ s.rd (Reg.fabTcXonXon c) ∧ guard + 4096 ≤ s.sharedFree then s.setHeld k false else s
  else if s.rd (Reg.fabTcXoffXoff c) ≤ u ∨ (s.sharedFree < guard ∧ (0 < u ∨ s.lossless (k / 8) c = true)) then s.setHeld k true
  else s

/-- Table SW-3 after a change of the cell counts: for the streams that hold cells or are HELD, and for every
lossless one below the guard. -/
def State.bpUpdate (s : State) : State :=
  let ks := s.fab.shared.map (·.1) ++ s.fab.xoff
  let ks := if s.sharedFree < s.rd Reg.fabGuardCells then
      ks ++ (List.range 1024).filter fun k => s.lossless (k / 8) (k % 8) else ks
  s.each ks State.bpStep

/-- The ingress leaves UP: its streams return to OPEN, with no signal (Table SW-3). -/
def State.bpOpen (s : State) (i : Nat) : State :=
  let s := { s with fab := { s.fab with xoff := s.fab.xoff.filter fun k => k / 8 != i, pfc := Tab.set s.fab.pfc i 0 0 } }
  let s := s.wr (Reg.fabDestStatusXoff i) 0
  s.when (s.isPort i) fun s => s.wr (Reg.portLinkTxXoff i) 0

/-! ## Cells (R284) -/

/-- Counts of stream `k` and the pool registers. -/
def State.setCells (s : State) (k sh hd free used : Nat) : State :=
  { s with fab := { s.fab with shared := Tab.set s.fab.shared k sh 0, head := Tab.set s.fab.head k hd 0 } }.wrs
    [(Reg.fabPoolSharedFree, free), (Reg.fabUsedCells, used)]

/-- The cell that the allocator takes next for a frame that holds `held` cells (R282): one that no frame holds and that is not
quarantined. The accesses pending in each bank are no state of this model: where the search starts is a free value. The first
of a frame's cells is HEAD of its descriptor (Table SW-1). -/
def State.freeCell (s : State) (id held : Nat) : Nat :=
  let used := s.fab.frames.flatMap (·.2.cells) ++ s.flt.quarCells
  let a := Config.cellStart id held
  (((List.range (used.length + 1)).map fun i => (a + i) % 196608).find? fun c => !used.contains c).getD 0

/-- One cell for frame `id`; whether it was had. A host frame takes shared cells under no stream. -/
def State.allocCell (s : State) (id : Nat) : Bool × State :=
  let f := s.frame id
  let k := streamOf f.ingress f.iclass
  let u := Tab.get s.fab.shared k 0
  let h := Tab.get s.fab.head k 0
  let free := s.sharedFree
  let used := s.rd Reg.fabUsedCells
  let g := { f with cells := f.cells ++ [s.freeCell id f.cells.length] }
  if f.host then
    if free = 0 then (false, s)
    else (true, (((s.wrs [(Reg.fabPoolSharedFree, free - 1), (Reg.fabUsedCells, used + 1)]).setFrame id { g with shared := f.shared + 1 }).ev 0x00))
  else
    let shared (s : State) : State :=
      ((s.setCells k (u + 1) h (free - 1) (used + 1)).setFrame id { g with shared := f.shared + 1 }).ev 0x00
    if s.lossless f.ingress f.iclass then
      if !s.fab.xoff.contains k && free != 0 then (true, shared s)
      else if h < s.rd (Reg.fabDestHeadHeadroom f.ingress) then
        (true, ((s.setCells k u (h + 1) free (used + 1)).setFrame id { g with head := f.head + 1 }).ev 0x00)
      else (false, s)
    else if u < s.rd (Reg.fabTcDropDrop f.iclass) ∧ free ≠ 0 then (true, shared s)
    else (false, s)

/-- `n` more cells for frame `id`, each followed by Table SW-3; whether all were had. -/
def State.allocCells (s : State) (id : Nat) : Nat → Bool × State
  | 0 => (true, s)
  | n + 1 =>
    match s.allocCell id with
    | (true, s) => State.allocCells s.bpUpdate id n
    | (false, s) => (false, s)

/-- What a cell holds that nothing has written since its wipe (R55). -/
def cellZero : List Byte := List.replicate 256 0

/-- What cell `c` holds behind the first bytes of a frame, or by itself where no frame holds it. -/
def State.cellRest (s : State) (c : Nat) : List Byte := Tab.get s.fab.cellMem c cellZero

/-- Bytes `b` stand in cell `c` from its start; the rest of it stays. -/
def State.cellPut (s : State) (c : Nat) (b : List Byte) : State :=
  let x := b.take 256
  { s with fab := { s.fab with cellMem := Tab.set s.fab.cellMem c (x ++ (s.cellRest c).drop x.length) cellZero } }

/-- The bytes of frame `f` stay in its cells when they are free: until a later frame, or a wipe, writes them. -/
def State.cellsLeft (s : State) (f : Frame) : State :=
  s.each (List.range f.cells.length) fun s i => s.cellPut (f.cells.getD i 0) (slice f.bytes (256 * i) 256)

/-- The cells of frame `id` return to the pools (R282). SHARED_FREE does not count the quarantined ones among them (R334): where fewer
shared cells are free than it has to lose, it loses the rest as cells return. -/
def State.freeCells (s : State) (id : Nat) : State :=
  let f := s.frame id
  let n := f.shared + f.head
  if n = 0 then s
  else
    let k := streamOf f.ingress f.iclass
    let owed := s.flt.owed + (f.cells.filter s.flt.quarCells.contains).length
    let free := s.sharedFree + f.shared
    let s := s.cellsLeft f
    let s := { s.setFrame id { f with shared := 0, head := 0, cells := [] } with flt := { s.flt with owed := owed - free } }
    let free := free - owed
    let used := s.rd Reg.fabUsedCells - n
    let s := if f.host then s.wrs [(Reg.fabPoolSharedFree, free), (Reg.fabUsedCells, used)]
      else s.setCells k (Tab.get s.fab.shared k 0 - f.shared) (Tab.get s.fab.head k 0 - f.head) free used
    (s.evN 0x01 n).bpUpdate

/-! ## A frame's end in the device -/

/-- The Gleaning record of a tagged frame as it stands (Table PM-4): GAP and FENCE_WAIT are those of its first copy's egress, of any
egress where no copy has started. -/
def tagRecord (f : Frame) : TagRec :=
  let none_ := f.egress == 255
  let has (l : List Nat) : Bool := if none_ then l != [] else l.contains f.egress
  { ingress := f.ingress, egress := f.egress, iclass := f.iclass, tc := f.tc
    flags := f.gflags + (if f.action = 1 then 4 else 0) + b2n f.flf * 8 + b2n (has f.gapAt) * 16 + b2n (has f.fenceAt) * 32 + b2n none_ * 64
    seq := f.seq, passes := f.passes - 1, len := knownLen f, stage0 := f.stamp, stage8 := f.stage8
    stages := if none_ then f.stages ++ (f.rels.take 1).map (·.2 % 2 ^ 32) else f.stages }

/-- Frame `id` leaves for good (R350, R352): a record that is due keeps its content; of a tagged frame no copy of which started the
record becomes due now. -/
def State.gleanEnd (s : State) (id : Nat) : State :=
  let f := s.frame id
  if !f.tagged then s
  else
    let r := (tagRecord f).bytes
    (if f.egress = 255 then s.tagDue { k9 := s.fab.cyc / 4, bytes := r }
     else { s with pmon := { s.pmon with due := s.pmon.due.map fun d => if d.id = id then { d with id := 0, bytes := r } else d } }).gleanOut

/-- The oldest record due is written into the tag buffer, or lost while it is full and WRAP is 0 (R353). Of a frame still inside, which
R352 lets be written before it ends, LEN and STOMPED are what they are now (DESIGN CHOICE, log entry 68). -/
def execGleanRecordWrite (s : State) : Res :=
  match s.pmon.due with
  | [] => .next s
  | d :: l =>
    let s := { s with pmon := { s.pmon with due := l } }
    if s.on Reg.pmonGleanStatusFull && !s.on Reg.pmonGleanCtlWrap then .next (s.bump Reg.pmonGleanLossLost)
    else .next (s.tagStore (if d.id = 0 then d.bytes else (tagRecord (s.frame d.id)).bytes))

/-- The frame is no longer counted under its epoch (R272). -/
def State.epochOut (s : State) (id : Nat) : State :=
  let f := s.frame id
  s.when f.counted fun s => (s.setFrame id { f with counted := false }).epochAdd f.epoch false

/-- The frame arriving at `n` is gone before its end: of the rest only a bad end is heeded, for the notification `note` (R268). -/
def State.cutOff (s : State) (n : Nat) (note : List Byte) : State :=
  { s with fab := { s.fab with arrive := Tab.set s.fab.arrive n 0 0, cut := Tab.set s.fab.cut n (some note) none } }

/-- A decided frame with no copy left is gone: cells, epoch count, record (R272, R282), though it be still arriving. -/
def State.reap (s : State) (id : Nat) : State :=
  let f := s.frame id
  if f.copies ≠ [] ∨ (f.stage ≠ 2 ∧ !f.host) then s
  else
    let s := ((s.freeCells id).epochOut id).gleanEnd id
    (s.when (!f.ended) fun s => s.cutOff f.ingress f.note).setFrame id {}

/-- Copy `e` of frame `id` leaves the device. -/
def State.dropCopy (s : State) (id e : Nat) : State :=
  let f := s.frame id
  (s.setFrame id { f with copies := f.copies.erase e }).reap id

/-- A copy is discarded under R302. -/
def State.linkDrop (s : State) (id e : Nat) : State :=
  ((s.bump Reg.fabCntLinkDrop).bump (Reg.fabDestLdropLinkDrop e)).dropCopy id e

/-! ## Order (R290 to R293) -/

/-- SEQ `a` is before `b`. -/
def seqBefore (a b : Nat) : Bool := let d := (b + 65536 - a) % 65536; decide (1 ≤ d) && decide (d ≤ 32767)

/-- The numbers of the frames held at egress `e`, in order of arrival. -/
def State.held (s : State) (e : Nat) : List Nat := Tab.get s.fab.held e []

/-- The frames held at egress `e` set. -/
def State.setHeldAt (s : State) (e : Nat) (l : List Nat) : State :=
  { s with fab := { s.fab with held := Tab.set s.fab.held e l [] } }.wr (Reg.fabDestStatusHeld e) l.length

/-- The frames held anywhere. -/
def State.allHeld (s : State) : List Nat := s.fab.held.flatMap (·.2)

/-- The undecided frames. -/
def State.undecided (s : State) : List Nat := s.fab.later.flatMap (·.2)

/-- The order mode of a class. -/
def State.modeOf (s : State) (c : Nat) : Nat := s.rd (Reg.fabTcCfgMode c)

/-- The two frames share a key (R291). -/
def State.sameKey (s : State) (f g : Frame) : Bool :=
  !g.host && f.ingress == g.ingress && f.iclass == g.iclass && (s.modeOf f.iclass != 1 || f.hash == g.hash)

/-- The key of a frame as a number. -/
def State.keyNo (s : State) (f : Frame) : Nat :=
  streamOf f.ingress f.iclass * 4096 + (if s.modeOf f.iclass = 1 then f.hash else 0)

/-- A frame of the stream with fence generation `g` is undecided or held (R293). -/
def State.genInside (s : State) (i c g : Nat) : Bool :=
  (s.undecided ++ s.allHeld).any fun j => let y := s.frame j; !y.host && y.ingress == i && y.iclass == c && y.fgen == g

/-- The frame is fence-blocked (R293). -/
def State.fenceBlocked (s : State) (f : Frame) : Bool := !f.host && s.genInside f.ingress f.iclass ((f.fgen + 3) % 4)

/-- Some older frame of the key is undecided or held at `e`. -/
def State.olderWaits (s : State) (e id : Nat) : Bool :=
  let f := s.frame id
  (s.undecided ++ s.held e).any fun j => j != id && s.sameKey f (s.frame j) && seqBefore (s.frame j).seq f.seq

/-- A held frame may be released now (R292). -/
def State.mayRelease (s : State) (e id : Nat) : Bool :=
  let f := s.frame id
  !s.fenceBlocked f && (s.modeOf f.iclass == 2 || f.host || !s.olderWaits e id)

/-- The output queue of class `c` at egress `e`. -/
def State.queue (s : State) (e c : Nat) : List Nat := Tab.get s.fab.queues (streamOf e c) []

/-- An output queue set. -/
def State.setQueue (s : State) (e c : Nat) (l : List Nat) : State :=
  { s with fab := { s.fab with queues := Tab.set s.fab.queues (streamOf e c) l [] } }

/-- Egress `e` takes frames: it is UP or, in a pair, it is the member in service (R302). -/
def State.inUse (s : State) (e : Nat) : Bool := if (s.pairAt e).isSome then s.resolve e == some e else s.egressUp e

/-- A frame joins the output queue of its class at `e`, or is discarded there (R283, R302). -/
def State.enqueue (s : State) (e id : Nat) : State :=
  let f := s.frame id
  if !s.inUse e || s.halted then s.linkDrop id e
  else
    let s := s.setFrame id { f with rels := f.rels ++ [(e, s.fab.cyc)] }
    (s.setQueue e f.tc (s.queue e f.tc ++ [id])).ev (0x200 + 8 * f.tc)

/-- A held frame is released into its queue; `gap`: past a gap: the egress remembers the older frames of the key still to come, which
are late there (R292). -/
def State.release (s : State) (e id : Nat) (gap : Bool) : State :=
  let f := s.frame id
  let s := s.setHeldAt e ((s.held e).erase id)
  let s := if gap then
      let l := s.undecided.filter fun j => s.sameKey f (s.frame j) && seqBefore (s.frame j).seq f.seq
      { s with fab := { s.fab with gaps := Tab.set s.fab.gaps e (l ++ Tab.get s.fab.gaps e []) [] } }.bump (Reg.fabDestGapsGaps e)
    else s
  let s := s.when gap fun s => s.setFrame id { s.frame id with gapAt := e :: (s.frame id).gapAt }
  s.enqueue e id

/-- Releases at egress `e` until none more may go, at most `n`. -/
def State.reseqAt (s : State) (e : Nat) : Nat → State
  | 0 => s
  | n + 1 =>
    match (s.held e).find? fun id => s.mayRelease e id with
    | some id => State.reseqAt (s.release e id false) e n
    | none => s

/-- Releases at every egress, until a sweep over all of them releases nothing more: at most `n` sweeps. -/
def State.reseqN (s : State) : Nat → State
  | 0 => s
  | n + 1 =>
    let t := s.each (s.fab.held.map (·.1)) fun s e => s.reseqAt e 512
    if t.allHeld.length = s.allHeld.length then t else State.reseqN t n

/-- Releases everywhere. -/
def State.reseq (s : State) : State := s.reseqN (s.allHeld.length + 1)

/-- A descriptor reaches the resequencer of egress `e` (R292): a late one goes at once. -/
def State.reseqArrive (s : State) (e id : Nat) : State :=
  let f := s.frame id
  let s := s.setHeldAt e (s.held e ++ [id])
  if (Tab.get s.fab.gaps e []).contains id && s.modeOf f.iclass != 2 then ((s.bump Reg.fabCntLate).ev 0x08).release e id false
  else s.when (s.fenceBlocked f) fun s =>
    (s.setFrame id { f with fenceAt := e :: f.fenceAt }).ev (0x205 + 8 * f.tc)

/-- After the ordinary releases the oldest of 512 held frames is released (R292). -/
def State.windowFull (s : State) (e : Nat) : State :=
  match s.held e with
  | [] => s
  | old :: l => if l.length < 511 then s else (((s.bump Reg.fabCntWindowFull).ev 0x07).release e old true).reseq

/-- No egress waits for frame `id` any more. -/
def State.gapsForget (s : State) (id : Nat) : State :=
  s.each (s.fab.gaps.map (·.1)) fun s e =>
    { s with fab := { s.fab with gaps := Tab.set s.fab.gaps e ((Tab.get s.fab.gaps e []).erase id) [] } }

/-- A frame held 5 157 cycles at `egress` is released past a gap (R292): the oldest that no fence blocks. -/
def execReseqTimeoutRelease (egress : Fin 128) (s : State) : Res :=
  let e := egress.val
  match (s.held e).find? fun id => !s.fenceBlocked (s.frame id) with
  | some id => .next (((s.bump Reg.fabCntTimeouts).ev 0x06).release e id true).reseq
  | none => .next s

/-! ## Arrival (R279, R290) -/

/-- The fence generation of a new frame of stream `k` with EtherType `et` (R293). -/
def State.fenceGen (s : State) (k et : Nat) : Nat × State :=
  let g := Tab.get s.fab.fgs k 0
  let fe := s.rd (Reg.fabTcCfgFenceEtype (k % 8))
  if fe ≠ 0 ∧ fe = et then
    let g' := (g + 1) % 4
    if s.genInside (k / 8) (k % 8) g' then (g, (s.bump Reg.fabCntFenceOvf).ev 0x0A)
    else (g', ({ s with fab := { s.fab with fgs := Tab.set s.fab.fgs k g' 0 } }.bump Reg.fabCntFenceFrames).ev 0x09)
  else (g, s)

/-- The frames of lane `l` waiting for their first pass. -/
def State.waiting (s : State) (l : Nat) : List Nat := Tab.get s.fab.wait l []

/-- The frames of lane `l` waiting for their first pass, set. -/
def State.setWaiting (s : State) (l : Nat) (x : List Nat) : State :=
  { s with fab := { s.fab with wait := Tab.set s.fab.wait l x [] } }

/-- The next SEQ of stream `k`, which a dropped frame uses too (R290). -/
def State.takeSeq (s : State) (k : Nat) : Nat × State :=
  let q := Tab.get s.fab.seqs k 0
  (q, { s with fab := { s.fab with seqs := Tab.set s.fab.seqs k ((q + 1) % 65536) 0 } })

/-- A frame with EtherType `et` of stream `k` that is dropped on entry, or taken for the host: it uses its SEQ, and where it is a fence frame it
advances the stream's fence generation (R290, R293). -/
def State.seqUse (s : State) (k et : Nat) : State := ((s.takeSeq k).2.fenceGen k et).2

/-- A frame enters at destination `f.ingress`: it takes SEQ and FGEN at its first word and waits for its first
pass. Answers its number. -/
def State.enter (s : State) (f : Frame) : Nat × State :=
  let k := streamOf f.ingress f.iclass
  let (q, s) := s.takeSeq k
  let (g, s) := s.fenceGen k f.etype
  let id := s.fab.next
  let s := { s with fab := { s.fab with next := id + 1 } }
  let s := s.setFrame id { f with seq := q, fgen := g, cycle := s.fab.cyc, late := s.tbDiff f.tb (s.atb f.tb).t f.time, stages := [s.fab.cyc % 2 ^ 32] }
  (id, s.setWaiting f.ingress (s.waiting f.ingress ++ [id]))

/-- The copies of frame `id` that have not started go, each counted by `count`. -/
def State.dropUnstarted (s : State) (id : Nat) (count : State → State) : State :=
  s.each (s.frame id).copies fun s e =>
    if Tab.get s.fab.sending e 0 = id then s
    else
      let s := { s with fab := { s.fab with flf := Tab.set s.fab.flf e ((Tab.get s.fab.flf e []).erase id) [] } }
      let s := s.setHeldAt e ((s.held e).erase id)
      let c := (s.frame id).tc
      (count (s.setQueue e c ((s.queue e c).erase id))).dropCopy id e

/-- A frame that failed an allocation is dropped (R284): its cells return, its epoch counts it no more (R272), and a tagged one has its record
(R352) at once. One between its passes makes those still to come, for its sighting (R261) and its place in the order, and leaves by no
egress; the rest of one still arriving is heeded for a bad end alone (R268). -/
def State.overrun (s : State) (id : Nat) : State :=
  let f := s.frame id
  let s := ((s.bump Reg.fabCntOverrun).bump (Reg.fabDestOvrOverrun f.ingress)).ev 0x05
  let s := ((s.setFrame id { f with lost := true }).freeCells id).epochOut id
  if f.stage = 0 then
    ((s.setWaiting f.ingress ((s.waiting f.ingress).erase id)).when (!f.ended) fun s => s.cutOff f.ingress f.note).setFrame id {}
  else if f.stage = 1 then
    let s := s.gleanEnd id
    s.setFrame id { s.frame id with tagged := false }
  else ((s.dropUnstarted id fun s => s).reap id).reseq

/-- Frame `id` has `bytes` so far: its cells grow. Answers whether it is still there. -/
def State.grow (s : State) (id : Nat) (bytes : List Byte) : Bool × State :=
  let f := s.frame id
  let want := cellsOf (bytes.length + (if f.trailer then 12 else 0))
  let s := s.setFrame id { f with bytes := bytes }
  match s.allocCells id (want - (f.shared + f.head)) with
  | (true, s) => (true, s)
  | (false, s) => (false, s.overrun id)

/-- Frame `id` ends, good or bad (R268, R298). LEN of a frame from a Leat lane is the one of its header, whatever has come (R112). -/
def State.endFrame (s : State) (id : Nat) (bad badFcs : Bool) : State :=
  let f := s.frame id
  let s := s.setFrame id { f with ended := true, len := if f.len = 0 then f.bytes.length else f.len, bad := bad, badFcs := badFcs }
  if !bad then s.reap id
  else
    let s := (s.setFrame id { s.frame id with note := [] }).retract f.note
    if f.stage = 2 then ((s.dropUnstarted id fun s => s.bump Reg.fabCntBadDiscard).reap id).reseq else s

/-- The frame arriving at `n` is cut off: it ends bad. -/
def State.cutArrival (s : State) (n : Nat) : State :=
  let id := Tab.get s.fab.arrive n 0
  let note := Tab.get s.fab.cut n none
  let s := { s with fab := { s.fab with arrive := Tab.set s.fab.arrive n 0 0, cut := Tab.set s.fab.cut n none none } }
  match note with
  | some x => s.retract x
  | none => s.when (id != 0) fun s => s.endFrame id true false

/-- Cells that frames for the host hold. -/
def State.setHostq (s : State) (l : List (Nat × Nat)) : State :=
  let s := { s with fab := { s.fab with hostq := l } }
  s.wr Reg.hifHostqUsed ((l.map fun x => (s.frame x.1).shared).foldl (· + ·) 0)

/-- A frame for the host is queued, or discarded and counted (R400). -/
def State.hostTrap (s : State) (f : Frame) (reason : Nat) : State :=
  if !s.on Reg.hifCfgFramesEn then s.when (s.isPort f.ingress) fun s => s.bump48 (Reg.portRxCtrlDropLoCount f.ingress) 1
  else
    let c := cellsOf f.bytes.length
    if s.rd Reg.hifHostqCells < s.rd Reg.hifHostqUsed + c ∨ s.sharedFree < c then s.bump Reg.hifRxDropCount
    else
      let id := s.fab.next
      let s := { s with fab := { s.fab with next := id + 1 } }
      let s := s.setFrame id { f with host := true, ended := true, len := f.bytes.length }
      let (_, s) := s.allocCells id c
      s.setHostq (s.fab.hostq ++ [(id, reason)])

/-! ## Lookup passes (R252, R280) -/

/-- A decided frame goes to the resequencers of its egresses (R292), a fixed-latency one past them (R300, R351), each to the member in
service of a pair (R308). A bad one is discarded and counted in BAD_DISCARD; one that is lost already has no copies. -/
def State.deliver (s : State) (id : Nat) (d : Decision) (flowHit : Bool) : State :=
  let f := s.frame id
  let dests := if f.lost then [] else d.dests
  let es := dests.filterMap s.resolve
  let flf := flowHit && d.action == 0 && es != [] && s.on (Reg.fabDestCfgFlfEn f.ingress)
    && s.rd (Reg.fabDestCfgFlfTc f.ingress) == f.iclass && s.rd Reg.clkPlanProfile == 0
  let s := s.bumpBy Reg.fabCntLinkDrop (dests.length - es.length)
  let s := s.setFrame id { f with stage := 2, action := d.action, dest := d.dests.headD 0, copies := es, flf := flf,
                                  stages := if es = [] ∨ flf = true then f.stages else f.stages ++ [s.fab.cyc % 2 ^ 32] }
  let s := if flf then s.each es fun s e => { s with fab := { s.fab with flf := Tab.set s.fab.flf e (Tab.get s.fab.flf e [] ++ [id]) [] } }
    else s.each es fun s e => s.reseqArrive e id
  let s := s.when f.bad fun s => s.dropUnstarted id fun s => s.bump Reg.fabCntBadDiscard
  (((s.gapsForget id).reap id).reseq).each es State.windowFull

/-- The frames between passes of pipeline `p`. -/
def State.laterOf (s : State) (p : Nat) : List Nat := Tab.get s.fab.later p []

/-- The frames between passes of pipeline `p`, set. -/
def State.setLater (s : State) (p : Nat) (l : List Nat) : State := { s with fab := { s.fab with later := Tab.set s.fab.later p l [] } }

/-- Frame `id` completes its passes: counted by their number, recorded, delivered; a trailer that its flow entry sets may take one
more cell (R282). One that is lost takes none (R284). -/
def State.decided (s : State) (p id : Nat) (d : Decision) (outVid tc : Nat) (trailer flow : Bool) : State :=
  let f := s.frame id
  let s := match f.passes with
    | 2 => s.bump Reg.tblCntPass2
    | 3 => s.bump Reg.tblCntPass3
    | 4 => s.bump Reg.tblCntPass4
    | _ => s
  let s := s.setLater p ((s.laterOf p).erase id)
  let s := s.setFrame id { f with outVid := outVid, tc := tc, trailer := trailer, stages := f.stages ++ [s.fab.cyc % 2 ^ 32] }
  (if f.lost then s else (s.grow id f.bytes).2).deliver id d flow

/-- The lookups of a pass of frame `id`; `recirc`: a read met a write, and the frame makes the pass again. -/
def State.pass (s : State) (p id : Nat) (recirc : Bool) (parity : List (Nat × Nat)) : State :=
  let f := s.frame id
  if recirc && !f.recirc then (s.setFrame id { f with recirc := true }).ev (0x023 + 16 * p)
  else if f.level2 then
    let s := s.parityReads (s.secondReads f.outVid f.da) parity
    match s.lookup2 p f with
    | (.done d v tc tr fl, s) => s.decided p id d v tc tr fl
    | (.again _ _ _, s) => s
  else
    let s := s.parityReads (s.firstReads f) parity
    match s.lookup1 p id f with
    | (.done d v tc tr fl, note, s) => (s.setFrame id { s.frame id with note := note }).decided p id d v tc tr fl
    | (.again v tc tr, note, s) =>
      s.setFrame id { s.frame id with note := note, level2 := true, outVid := v, tc := tc, trailer := tr }

/-- The next lane of quadrant `p` with a frame waiting, in round-robin order after the one served last. -/
def State.nextLane (s : State) (p : Nat) : Option Nat :=
  let t := Tab.get s.fab.turn p 0
  (List.range 32).findSome? fun i =>
    let l := 32 * p + (t + 1 + i) % 32
    if s.waiting l = [] then none else some l

/-- A pipeline issues a frame's first pass (R280). `collide`: its reads do not all fit, and a later pass makes
them; `recirc`: a read meets a write. -/
def execLookupFirstPass (pipe : Fin 4) (collide recirc : Bool) (parity : List (Nat × Nat)) (s : State) : Res :=
  let p := pipe.val
  if !s.pdOn 3 || !s.pdOn 4 then .next s
  else if 32 ≤ (s.laterOf p).length then .next ((s.bump Reg.fabCntUndecidedFull).ev (0x025 + 16 * p))
  else
    match s.nextLane p with
    | none => .next s
    | some l =>
      match s.waiting l with
      | [] => .next s
      | id :: rest =>
        let f := s.frame id
        let s := { s.setWaiting l rest with fab := { (s.setWaiting l rest).fab with turn := Tab.set s.fab.turn p (l % 32) 0 } }
        let s := (s.ev (0x020 + 16 * p)).epochAdd (s.rd Reg.tblEpochCurrent) true
        let (tag, s) := s.gleanTag f.ingress f.iclass f.host
        let s := s.setFrame id { f with stage := 1, passes := 1, epoch := s.rd Reg.tblEpochCurrent, counted := true, hash := flowHash f,
                                        tagged := tag, stages := f.stages ++ [s.fab.cyc % 2 ^ 32] }
        let s := s.setLater p (s.laterOf p ++ [id])
        if collide then .next (s.ev (0x022 + 16 * p)) else .next (s.pass p id recirc parity).scrubDue

/-- A frame between passes makes its next one (R252). -/
def execLookupLaterPass (pipe : Fin 4) (recirc : Bool) (parity : List (Nat × Nat)) (s : State) : Res :=
  let p := pipe.val
  match s.laterOf p with
  | [] => .next s
  | id :: _ =>
    let f := s.frame id
    let s := (s.setFrame id { f with passes := min 4 (f.passes + 1) }).ev (0x021 + 16 * p)
    let s := s.when f.level2 fun s => s.ev (0x024 + 16 * p)
    .next (s.pass p id recirc parity).scrubDue

/-! ## Scheduling (R294 to R297) -/

/-- The MAC rate of a destination in Mb/s (Tables EP-1, SW-4), a Leat lane at its nominal rate. -/
def State.rateOf (s : State) (n : Nat) : Nat :=
  if s.isPort n then
    match s.rd (Reg.portCfgMode n) with
    | 1 => 10000
    | 2 => 25000
    | 3 => 50000
    | _ => 100000
  else if s.rd (Reg.laneCfgQrate n) = 2 then 10000 else 25000

/-- R_MIN of an ingress and R_MAX of an egress in Mb/s (Table SW-4). -/
def State.rMin (s : State) (n : Nat) : Nat :=
  if s.isPort n then s.rateOf n else if s.rateOf n = 10000 then 9265 else 23162
/-- R_MAX. -/
def State.rMax (s : State) (n : Nat) : Nat :=
  if s.isPort n then s.rateOf n else if s.rateOf n = 10000 then 9766 else 24414

/-- T of R297. -/
def State.threshold (s : State) (f : Frame) (e : Nat) : Nat :=
  if s.isPort f.ingress then 64
  else
    let lo := s.rMin f.ingress
    let hi := s.rMax e
    64 + 125 + (if hi ≤ lo then 0 else (frameLen f * (hi - lo) + hi - 1) / hi)

/-- The frame is a Pdelay message at an egress port in TC_MODE P2P, which passes it to the host (R148). R148 does not say whose TC_MODE
counts: that of the port it entered by or of one that it would leave by (DESIGN CHOICE, log entry 68). -/
def State.pdelayAt (s : State) (f : Frame) (e : Nat) : Bool :=
  s.isPort e && s.rd (Reg.portPtpCfgTcMode e) == 2 && !f.host && (match ptpAt f.bytes with
    | some (o, _, _) => ptpType f.bytes o == 2 || ptpType f.bytes o == 3
    | none => false)

/-- A copy of an unended frame may start at `e` (R296). -/
def State.ctOk (s : State) (f : Frame) (e : Nat) : Bool :=
  s.on Reg.fabCfgCtEn && decide (s.rateOf e ≤ s.rateOf f.ingress) && (s.isPort e || s.isLeat f.ingress)
    && !f.bad && !f.lost && !s.pdelayAt f e && decide (s.threshold f e ≤ f.bytes.length)

/-- The shaper balance of class `c` at `e` now, in bytes / 20 625 (R295). -/
def State.balanceNow (s : State) (e c : Nat) : Int :=
  let k := streamOf e c
  let cap : Nat := s.rd (Reg.fabDestShapeBurst e c) * 256 * 20625
  min cap (Tab.get s.fab.balance k 0 + (2 * s.rd (Reg.fabDestShapeRate e c) * (s.fab.cyc - Tab.get s.fab.balAt k 0) : Nat))

/-- The primary of a reverted pair still waits for class `c` at the secondary (R318). -/
def State.revertHolds (s : State) (e c : Nat) : Bool :=
  match s.pairAt e with
  | none => false
  | some k =>
    let m := s.rd (Reg.redPairCfgSecondary k)
    s.fab.revert.contains k && e == s.rd (Reg.redPairCfgPrimary k)
      && (s.queue m c != [] || (Tab.get s.fab.sending m 0 != 0 && (s.frame (Tab.get s.fab.sending m 0)).tc == c))

/-- LEN of a frame, or the longest that it may turn out to have (R112, R136). -/
def State.lenBound (s : State) (f : Frame) : Nat :=
  if f.ended || f.len != 0 then frameLen f
  else s.rd (Reg.portMaxlenLen f.ingress) + (if f.trailer then 12 else 0)

/-- The line bytes that a copy takes at most at `e`, tag, padding and framing with it: preamble and start-frame delimiter on a port
(R136, R137), encapsulation on a Leat lane (R112). -/
def State.lineLen (s : State) (f : Frame) (e : Nat) : Nat :=
  let n := s.wireLenOf f e (s.lenBound f)
  if s.isPort e then min (max 64 n) (s.rd (Reg.portMaxlenLen e)) + 8 else n + 5

/-- The bytes that the fabric has handed to a lane or holds in hand for it: of these the reserve holds the first 512, and the
fabric waits with the rest for credit (R115). -/
def LaneSt.backlog (x : LaneSt) : Nat := x.cur.length + (x.queue.map List.length).foldl (· + ·) 0

/-- The K2 cycles until `n` line bytes that start now at `e` have left, rounded up: on a Leat lane behind those that its stream holds, at the
rate of the stream under the worst stuffing, and past two superblocks that carry none of it (R112, R114). -/
def State.lineCycles (s : State) (e n : Nat) : Nat :=
  let d := (if s.isPort e then s.rateOf e else s.rMin e) * 10000
  let n := if s.isPort e then n else n + (Tab.get s.lan e {}).backlog + 250
  (n * 8 * 12890625 + d - 1) / d

/-- The K2 cycles a copy takes at `e`, rounded up. -/
def State.cyclesOf (s : State) (f : Frame) (e : Nat) : Nat := s.lineCycles e (s.lineLen f e)

/-- The time from the present cycle to the egress time-stamp point of a fixed-latency frame, in 1/330 of 2^-16 ns: FLF_LAT K2 cycles lie
between its ingress time-stamp point and that one (R300). -/
def State.flfAhead (s : State) (f : Frame) : Int :=
  ((s.rd (Reg.fabDestFlfFlfLat f.ingress) : Int) + f.cycle - s.fab.cyc) * 2 ^ 24 - 330 * f.late

/-- The cycle at which a fixed-latency frame is due to leave: the one in which its egress time-stamp point falls. -/
def State.flfDue (s : State) (f : Frame) : Nat := (s.fab.cyc + s.flfAhead f / 2 ^ 24).toNat

/-- What starts now at `e` and takes `k` cycles would break the guard of a pending fixed-latency frame (R301). -/
def State.flfClash (s : State) (e k : Nat) : Bool :=
  (Tab.get s.fab.flf e []).any fun j => decide (s.flfDue (s.frame j) < s.fab.cyc + k + 2)

/-- A start of frame `f` now at `e` would break the guard of a pending fixed-latency frame (R301). -/
def State.flfGuard (s : State) (f : Frame) (e : Nat) : Bool := s.flfClash e (s.cyclesOf f e)

/-- Class `c` at egress `e` is eligible as R294 has it, shaper apart: it holds a frame and is not paused. -/
def State.classOpen (s : State) (e c : Nat) : Bool := s.queue e c != [] && !bit (s.rd (Reg.fabDestStatusPaused e)) c

/-- Class `c` at egress `e` is eligible, shaper apart (R294), and its first copy may start. -/
def State.classReady (s : State) (e c : Nat) : Bool :=
  s.classOpen e c && match s.queue e c with
  | [] => false
  | id :: _ =>
    let f := s.frame id
    (f.ended || s.ctOk f e) && !s.revertHolds e c && !s.flfGuard f e

/-- Class `c` at `e` is shaped and holds no positive balance. -/
def State.shapeBlocks (s : State) (e c : Nat) : Bool := bit (s.rd (Reg.fabDestCfgShapeEn e)) c && decide (s.balanceNow e c ≤ 0)

/-- Class `c` at `e` is eligible. -/
def State.eligible (s : State) (e c : Nat) : Bool := s.classReady e c && !s.shapeBlocks e c

/-- The length of the first frame of class `c` at `e`. -/
def State.headLen (s : State) (e c : Nat) : Nat :=
  match s.queue e c with
  | [] => 0
  | id :: _ => knownLen (s.frame id)

/-- The round robin of egress `e` passes to the next class: an empty queue loses its deficit, an eligible one earns its
quantum (R294). -/
def State.drrNext (s : State) (e : Nat) : State :=
  let c := (Tab.get s.fab.drr e 0 + 1) % 8
  let k := streamOf e c
  let s := { s with fab := { s.fab with drr := Tab.set s.fab.drr e c 0 } }
  if s.queue e c = [] then { s with fab := { s.fab with deficit := Tab.set s.fab.deficit k 0 0 } }
  else if s.rd (Reg.fabTcCfgSched c) = 0 ∧ s.eligible e c = true then
    let d : Int := Tab.get s.fab.deficit k 0 + (s.rd (Reg.fabTcCfgWeight c) * 256 : Nat)
    { s with fab := { s.fab with deficit := Tab.set s.fab.deficit k d 0 } }.ev (0x204 + 8 * c)
  else s

/-- Deficit round robin from the class whose turn it is: at most `n` visits. -/
def State.drrPick (s : State) (e : Nat) : Nat → Option Nat × State
  | 0 => (none, s)
  | n + 1 =>
    let c := Tab.get s.fab.drr e 0
    let d := Tab.get s.fab.deficit (streamOf e c) 0
    if s.rd (Reg.fabTcCfgSched c) = 0 ∧ s.eligible e c = true ∧ (s.headLen e c : Int) ≤ d then
      (some c, { s with fab := { s.fab with deficit := Tab.set s.fab.deficit (streamOf e c) (d - s.headLen e c) 0 } })
    else State.drrPick (s.drrNext e) e n

/-- The class that egress `e` starts: the highest eligible STRICT one, else by deficit round robin (R294). -/
def State.pickClass (s : State) (e : Nat) : Option Nat × State :=
  let s := s.each (List.range 8) fun s c => s.when (s.classReady e c && s.shapeBlocks e c) fun s => s.ev (0x203 + 8 * c)
  match (List.range 8).reverse.find? fun c => s.rd (Reg.fabTcCfgSched c) == 1 && s.eligible e c with
  | some c => (some c, s)
  | none =>
    if (List.range 8).any fun c => s.rd (Reg.fabTcCfgSched c) == 0 && s.eligible e c then s.drrPick e 1024 else (none, s)

/-- A copy that is not to leave by `e` at all, and the state without it: a host frame that carries ESMC (R69), a frame whose LEN is
known to exceed the port's MAXLEN (R137), a Pdelay message for the host (R148). R69 names the Ethertype, and the model looks at bytes 12 and 13
alone, not behind an 802.1Q tag (DESIGN CHOICE, log entry 72). -/
def State.refuseCopy (s : State) (e id : Nat) : Option State :=
  let f := s.frame id
  let port := s.isPort e
  if f.host && beAt f.bytes 12 2 == 0x8809 && u8 f.bytes 14 == 0x0A then
    some ((s.dropCopy id e).when port fun s => s.bump48 (Reg.portEsmcDiscardLoCount e) 1)
  else if port && (f.ended || f.len != 0) && decide (s.rd (Reg.portMaxlenLen e) < frameLen f) then
    some ((s.dropCopy id e).bump48 (Reg.portTxOversizeLoCount e) 1)
  else if f.ended && s.pdelayAt f e then
    let t := s.when (!f.trapped) fun s => s.hostTrap { f with copies := [], shared := 0, head := 0, cells := [], tagged := false } 1
    some ((t.setFrame id { f with trapped := true }).dropCopy id e)
  else none

/-- The copies at the heads of the queues of `e` that are not to leave by it go. -/
def State.purgeHeads (s : State) (e : Nat) : State :=
  s.each (List.range 8) fun s c =>
    s.each (s.queue e c) fun s id =>
      if (s.queue e c).head? ≠ some id then s
      else ((s.setQueue e c ((s.queue e c).erase id)).refuseCopy e id).getD s

/-- The bytes of a frame on a Leat lane's stream (R112). -/
def leatBytes (tc len : Nat) (b : List Byte) (good : Bool) : List Byte :=
  be 1 0xFB ++ be 2 len ++ be 1 (tc * 32) ++ b ++ be 1 (if good then 0xFD else 0xFE)

/-- A copy with stamp `tx` as lane `e` sends it. A stomped one has zeros from the bytes that were there up to LEN, and the bad
terminator (R112, R298). -/
def State.leatCopy (s : State) (f : Frame) (e tx txn : Nat) (stomp : Bool) : List Byte :=
  let b := (s.wireBytes f e tx txn false 16384).1
  let n := s.wireLen f e
  if stomp then leatBytes f.tc n (b.take (min n b.length - 4) ++ List.replicate (n - (min n b.length - 4)) 0) false
  else leatBytes f.tc n b true

/-- What the stuffing reserve holds (R115). -/
def LaneSt.reserve (x : LaneSt) : Nat := min 512 x.backlog

/-- The fabric has credit to send lane `e` a byte: its reserve is not full (R115). -/
def State.credit (s : State) (e : Nat) : Bool := s.isPort e || decide ((Tab.get s.lan e {}).reserve < 512)

/-- A PFC frame waits to be port `e`'s next frame (R142). -/
def State.pfcWaits (s : State) (e : Nat) : Bool := s.isPort e && Tab.get s.fab.pfc e 0 != 0

/-- A frame joins the frame stream of lane `e`; `early` says that its copy is still leaving. -/
def State.streamPush (s : State) (e : Nat) (l : List Byte) (early : Bool) : State :=
  let x := Tab.get s.lan e {}
  { s with lan := Tab.set s.lan e { x with queue := x.queue ++ [l], early := early } {} }

/-- Bytes `l` follow in the frame that is last on the frame stream. -/
def LaneSt.extend (x : LaneSt) (l : List Byte) : LaneSt :=
  match x.queue.reverse with
  | [] => { x with cur := x.cur ++ l }
  | y :: r => { x with queue := r.reverse ++ [y ++ l] }

/-- The copy leaving lane `e` has `b` on its frame stream so far (R115): the bytes that are not there yet follow. -/
def State.streamTo (s : State) (e : Nat) (b : List Byte) : State :=
  let x := Tab.get s.lan e {}
  let x := if x.fed = 0 then { x with queue := x.queue ++ [b] } else x.extend (b.drop x.fed)
  { s with lan := Tab.set s.lan e { x with fed := max x.fed b.length } {} }

/-- What a copy of a frame still arriving has given to the stream of lane `e`: its encapsulation and its bytes, edited (R112, R298). -/
def State.leatSoFar (s : State) (f : Frame) (e : Nat) : List Byte :=
  be 1 0xFB ++ be 2 (s.wireLen f e) ++ be 1 (f.tc * 32) ++ s.tagEdit f e

/-- The copies of frame `id` that leave lanes while it arrives hand on the bytes that have come (R115). -/
def State.feed (s : State) (id : Nat) : State :=
  s.each (s.frame id).copies fun s e =>
    if Tab.get s.fab.sending e 0 = id ∧ s.isPort e = false ∧ (Tab.get s.lan e {}).early = false then s.streamTo e (s.leatSoFar (s.frame id) e)
    else s

/-- Copy of frame `id` starts at `e` now with egress stamp `txn` on its ingress base, its first word at the MAC after `fill` cycles. A tagged
frame's record becomes due with the first copy, of two that start in one K2 cycle with that of
the lower destination, unless the record has been written by then (R352); a frame that was queued nowhere has no stage 5, one that no
resequencer saw no stage 4 (R351). -/
def State.recordCopy (s : State) (e id txn fill : Nat) : State :=
  let f := s.frame id
  let again := f.egress != 255 && f.startAt == s.fab.cyc && decide (e < f.egress) && s.pmon.due.any (·.id == id)
  let first := f.tagged && (f.egress == 255 || again)
  let r := (f.rels.find? fun x => x.1 == e).map (·.2)
  let f' := if !first then f
    else { f with egress := e, gflags := setBit f.gflags 0 (!f.ended), startAt := s.fab.cyc,
                  stages := (List.range 4).map (f.stages.getD · 0) ++ [r.getD 0 % 2 ^ 32, s.fab.cyc % 2 ^ 32, (s.fab.cyc + fill) % 2 ^ 32],
                  stage8 := s.tbDiff (fieldOf f.stamp 60 3) txn (s.stampTime f.stamp) }
  let s := s.setFrame id { f' with left := true }
  s.when first fun s =>
    { s with pmon := { s.pmon with due := s.pmon.due.filter (·.id != id) } }.tagDue { k9 := s.fab.cyc / 4, egress := e, id := id }

/-- Frame `id`, described by `f`, leaves by `e` from now on: its shaper is charged (R295), and its stamps and length are kept for its end. -/
def State.chargeCopy (s : State) (e id : Nat) (f : Frame) (tx txn : Nat) : State :=
  let len := knownLen f
  let k := streamOf e f.tc
  let s := s.when (bit (s.rd (Reg.fabDestCfgShapeEn e)) f.tc) fun s =>
    { s with fab := { s.fab with balance := Tab.set s.fab.balance k (s.balanceNow e f.tc - (len * 20625 : Nat)) 0,
                                 balAt := Tab.set s.fab.balAt k s.fab.cyc 0 } }
  { s with fab := { s.fab with sending := Tab.set s.fab.sending e id 0, txTime := Tab.set s.fab.txTime e tx 0, txIn := Tab.set s.fab.txIn e txn 0,
                               txValid := Tab.set s.fab.txValid e (s.tbValid (s.destTb e)) false,
                               charged := Tab.set s.fab.charged e len 0
                               blind := if f.ended || f.len != 0 then s.fab.blind.erase e else e :: s.fab.blind.erase e } }

/-- Copy of frame `id` starts at `e` now with egress stamp `tx`, its first word at the MAC after `fill` cycles. A copy to a lane goes onto its
frame stream, whole or as it arrives (R115). -/
def State.startCopy (s : State) (e id tx fill : Nat) : State :=
  let f := s.frame id
  let txn := s.onBase (s.destTb e) (fieldOf f.stamp 60 3) tx
  let s := (s.recordCopy e id txn fill).chargeCopy e id f tx txn
  let s := s.when (!f.ended) fun s => (s.bump Reg.fabCntCtCopies).ev 0x03
  let s := if s.isPort e then s
    else if !f.ended then s.streamTo e (s.leatSoFar f e) else s.streamPush e (s.leatCopy f e tx txn (f.bad || f.lost)) true
  s.ev (0x100 + 2 * e)

/-- Nothing leaves egress `e`, it is UP and not stopped, no shed is under way (R383), and its lane has credit (R115). -/
def State.egressOpen (s : State) (e : Nat) : Bool :=
  Tab.get s.fab.sending e 0 == 0 && s.egressUp e && !s.halted && !s.frozen && !s.on Reg.pwrStatusShed && !s.pwr.shedFast && s.credit e

/-- Egress `e` is free to start a frame of its queues: no PFC frame goes first either (R142). -/
def State.egressFree (s : State) (e : Nat) : Bool := s.egressOpen e && !s.pfcWaits e

/-! ## Destinations out of service (R302) -/

/-- The copy that leaves lane `e` and is not whole on its stream ends there: zeros up to LEN, and the bad terminator (R298). -/
def State.streamCut (s : State) (e : Nat) : State :=
  let x := Tab.get s.lan e {}
  if x.fed = 0 then { s with lan := Tab.set s.lan e { x with early := false } {} }
  else
    let f := s.frame (Tab.get s.fab.sending e 0)
    let x := x.extend (List.replicate (4 + s.wireLen f e - x.fed) 0 ++ be 1 0xFE)
    { s with lan := Tab.set s.lan e { x with fed := 0 } {} }

/-- A copy leaving egress `e` is cut off: a port ends it with an error control character (Table EP-3), a lane with the bad terminator
(R118). -/
def State.cutCopy (s : State) (e : Nat) : State :=
  let id := Tab.get s.fab.sending e 0
  if id = 0 then s
  else
    let s := if s.isPort e then s.send (.errEnd e) else s.streamCut e
    { s with fab := { s.fab with sending := Tab.set s.fab.sending e 0 0 } }.linkDrop id e

/-- The frames queued, held or due at egress `e` are discarded; a copy leaving there is cut off. -/
def State.flushEgress (s : State) (e : Nat) : State :=
  let s := s.cutCopy e
  let s := s.each (List.range 8) fun s c => (s.setQueue e c []).each (s.queue e c) fun s id => s.linkDrop id e
  let s := s.each (Tab.get s.fab.flf e []) fun s id => s.linkDrop id e
  { s with fab := { s.fab with flf := Tab.set s.fab.flf e [] [] } }

/-- Destination `n` leaves UP (R302, Table SW-3): its queues are discarded, its streams return to OPEN, a pause of
its partner ends. -/
def State.destDown (s : State) (n : Nat) : State :=
  let s := (s.flushEgress n).bpOpen n
  let s := s.wr (Reg.fabDestStatusPaused n) 0
  s.when (s.isPort n) fun s => s.wr (Reg.portLinkRxPaused n) 0

/-- Frames of a pair that are decided and not yet released move from member `a` to member `b` (R302, R318). -/
def State.moveCopies (s : State) (a b : Nat) : State :=
  let move (s : State) (id : Nat) : State :=
    let f := s.frame id
    s.setFrame id { f with copies := b :: f.copies.erase a }
  let l := s.held a
  let d := Tab.get s.fab.flf a []
  let s := ((s.each (l ++ d) move).setHeldAt b (s.held b ++ l)).setHeldAt a []
  let fb := { s.fab with flf := Tab.set (Tab.set s.fab.flf b (Tab.get s.fab.flf b [] ++ d) []) a [] [] }
  { s with fab := fb }

/-- Every frame inside is discarded (R377, R335), and with them what held off a clear (R252). Of one still arriving the rest is heeded for
its bad end alone (R268). -/
def State.flushAll (s : State) : State :=
  let s := s.each (List.range 128) State.flushEgress
  let s := s.each s.fab.arrive fun s p => s.cutOff p.1 (s.frame p.2).note
  let s := s.each (s.fab.frames.map (·.1)) fun s id =>
    let f := s.frame id
    let s := s.bumpBy Reg.fabCntLinkDrop (if f.stage = 2 then f.copies.length else 1)
    (((s.freeCells id).epochOut id).gleanEnd id).setFrame id {}
  ((({ s with fab := { s.fab with gaps := [], arrive := [], wait := [], later := [], held := [], queues := [], sending := [], flf := [] } }.setHostq [])).each
    (List.range 128) fun s e => s.wr (Reg.fabDestStatusHeld e) 0).scrubDue

/-! ## Record (R287, R288, R304, R305) -/

/-- CR of a destination kind in cells per millisecond (Table SW-4), by rate and whether it is a Leat lane. -/
def cellRate (leat : Bool) (mbps : Nat) : Nat :=
  if leat then (if mbps = 10000 then 17513 else 43784)
  else match mbps with
    | 10000 => 14881
    | 25000 => 37202
    | 50000 => 74405
    | _ => 148810

/-- H(n) of R287. -/
def headroomOf (leat : Bool) (mbps rtt ml : Nat) : Nat :=
  (cellRate leat mbps * (rtt + 2000) + 999999) / 1000000 + 2 * ((ml + 255) / 256)

/-- The FABRIC record's fields of destination `n`. -/
def fabOff (n : Nat) : Nat := 256 + 48 * n

/-- A bit count. -/
def popcount (m : Nat) : Nat := ((List.range 8).filter fun i => bit m i).length

/-- The headroom of all lossless classes fits (R288, R305): H of each destination and their sum, and the guard in what they leave.
`loss`: the lossless mask of a destination, `rtt` its round trip in ns. -/
def headroomFits (kind mbps ml loss rtt : Nat → Nat) (guard : Nat) : Bool :=
  let h (n : Nat) : Nat := headroomOf (kind n == 2) (mbps n) (rtt n) (ml n)
  let total := (List.range 128).foldl (fun t n => t + popcount (loss n) * (if loss n = 0 then 0 else h n)) 0
  decide (total ≤ 131072) && decide (guard < 196608 - total) && (List.range 128).all fun n => loss n == 0 || decide (h n ≤ 16384)

/-- FABRIC passes R305. `kind n`: 0 nothing, 1 port, 2 Leat lane; `mbps`, `ml` its rate and longest frame;
`loss n`: the lossless mask a port's record gives; `flowTc`: FLOW_TC of TABLES_STATIC. -/
def checkFabric (kind mbps ml loss : Nat → Nat) (flowTc : Nat) (v : List Byte) : Bool :=
  let mode (c : Nat) : Nat := u8 v (64 + 24 * c)
  let guard := orDef (u32 v 4) 16384
  let lossOf (n : Nat) : Nat := if kind n = 2 then u8 v (fabOff n) else loss n
  let h (n : Nat) : Nat := headroomOf (kind n == 2) (mbps n) (u32 v (fabOff n + 4)) (ml n)
  v.length == 6400 && decide (u8 v 0 < 2) && zeros v 1 3 && inRange 1024 guard 65536 && zeros v 8 56
    && (List.range 8).all (fun c =>
        let o := 64 + 24 * c
        let sched := u8 v (o + 1)
        let xoff := orDef (u32 v (o + 8)) 4096
        let xon := orDef (u32 v (o + 12)) 3072
        let drop := orDef (u32 v (o + 16)) 8192
        decide (mode c ≤ 2) && decide (sched ≤ 1) && (sched == 0 || u8 v (o + 2) == 0) && zeros v (o + 3) 1
          && (u16 v (o + 4) == 0 || decide (0x0600 ≤ u16 v (o + 4))) && zeros v (o + 6) 2 && zeros v (o + 20) 4
          && decide (xon < xoff) && decide (xoff ≤ drop) && decide (drop < 2 ^ 18))
    && headroomFits kind mbps ml lossOf (fun n => u32 v (fabOff n + 4)) guard
    && (List.range 128).all (fun n =>
        let o := fabOff n
        let fl := u8 v (o + 1)
        let en := bit fl 0
        if kind n = 0 then zeros v o 48
        else
          (kind n == 2 || u8 v o == 0) && decide (fl < 16) && (!en || decide (76 ≤ u16 v (o + 2)))
            && decide (u32 v (o + 4) ≤ 2000000) && zeros v (o + 9) 7
            && (kind n != 2 || decide (h n ≤ 16384) || (u8 v o == 0 && u8 v (o + 8) == 255))
            && (!en || (mode (fl / 2) == 2 && bit flowTc (fl / 2)))
            && (List.range 8).all (fun c =>
                let x := u32 v (o + 16 + 4 * c)
                if bit (u8 v (o + 8)) c then
                  decide ((ml n + 255) / 256 ≤ x / 2 ^ 20) && decide (x % 2 ^ 20 ≤ mbps n)
                else x == 0))

/-- The headroom reservations are made (R287): H of each destination, the shared pool what they and the quarantined cells leave
(R334). -/
def State.reserve (s : State) : State :=
  let s := s.each (List.range 128) fun s n =>
    if !s.isDest n then s
    else
      let leat := !s.isPort n
      let ml := if leat then 16383 else s.rd (Reg.portMaxlenLen n)
      let m := if leat then s.rd (Reg.fabDestCfgLossless n) else s.rd (Reg.portPfcCfgLossless n)
      s.wrs [(Reg.fabDestCfgLossless n, m),
        (Reg.fabDestHeadHeadroom n, headroomOf leat (s.rateOf n) (s.rd (Reg.fabDestRttRttNs n)) ml)]
  let total := (List.range 128).foldl (fun t n => t + popcount (s.rd (Reg.fabDestCfgLossless n)) * s.rd (Reg.fabDestHeadHeadroom n)) 0
  { s with flt := { s.flt with owed := 0 } }.wrs
    [(Reg.fabHeadTotal, total), (Reg.fabPoolSharedFree, 196608 - total - s.flt.quarCells.length)]

/-- FABRIC is applied (R304). -/
def applyFabric (v : List Byte) (s : State) : State :=
  let s := s.wrs [(Reg.fabCfgCtEn, 1 - u8 v 0 % 2), (Reg.fabGuardCells, orDef (u32 v 4) 16384)]
  let s := s.each (List.range 8) fun s c =>
    let o := 64 + 24 * c
    s.wrs [(Reg.fabTcCfgMode c, u8 v o), (Reg.fabTcCfgSched c, u8 v (o + 1)),
      (Reg.fabTcCfgWeight c, if u8 v (o + 1) = 1 then 0 else orDef (u8 v (o + 2)) 16), (Reg.fabTcCfgFenceEtype c, u16 v (o + 4)),
      (Reg.fabTcXoffXoff c, orDef (u32 v (o + 8)) 4096), (Reg.fabTcXonXon c, orDef (u32 v (o + 12)) 3072),
      (Reg.fabTcDropDrop c, orDef (u32 v (o + 16)) 8192)]
  s.each (List.range 128) fun s n =>
    let o := fabOff n
    let fl := u8 v (o + 1)
    let spread := s.rd Reg.clkPlanProfile != 0
    let s := s.when (spread && bit fl 0) fun s => s.wr Reg.clkFlagsFlfDenied 1
    let s := s.wrs [(Reg.fabDestCfgLossless n, u8 v o), (Reg.fabDestCfgFlfEn n, fl), (Reg.fabDestCfgFlfTc n, fl / 2),
      (Reg.fabDestFlfFlfLat n, u16 v (o + 2)), (Reg.fabDestRttRttNs n, u32 v (o + 4)), (Reg.fabDestCfgShapeEn n, u8 v (o + 8))]
    s.each (List.range 8) fun s c =>
      s.wrs [(Reg.fabDestShapeRate n c, u32 v (o + 16 + 4 * c)), (Reg.fabDestShapeBurst n c, u32 v (o + 16 + 4 * c) / 2 ^ 20)]

end Sys2Proof.Machine
end

