-- ==== Sys2Proof/Machine/Engine.lean ====
section
/-! DEFINITION. The Tentering engines (08_time_transfer): phase detector, marker stamps, exchanges, offsets. -/
namespace Sys2Proof.Machine

/-! ## State -/

/-- OFF (Table TT-1). -/
def ttOff : Nat := 0
/-- WAIT. -/
def ttWait : Nat := 1
/-- LOCK. -/
def ttLock : Nat := 2
/-- ANCHOR. -/
def ttAnchor : Nat := 3
/-- RUN. -/
def ttRun : Nat := 4

/-- Engine of lane `n`. -/
def State.eng (s : State) (n : Nat) : Eng := Tab.get s.tt.eng n {}

/-- Engine of lane `n` set. -/
def State.setEng (s : State) (n : Nat) (e : Eng) : State :=
  { s with tt := { s.tt with eng := Tab.set s.tt.eng n e {} } }

/-- State of the engine of lane `n` (Table TT-1). -/
def State.ttState (s : State) (n : Nat) : Nat := s.rd (Reg.ttLaneStatusState n)

/-- That state set. -/
def State.setTt (s : State) (n st : Nat) : State := s.wr (Reg.ttLaneStatusState n) st

/-- The base of the active timekeeper on which the engine of lane `n` stamps, and whether its role is SOURCE (R181, R182). -/
def State.ttBase (s : State) (n : Nat) : Nat × Bool :=
  match (List.range 8).find? fun b => s.on (Reg.tkTbCfgEnable b) && s.tbSrc s.activeTk b == (1, n) with
  | some b => (b, true)
  | none => (s.rd (Reg.ttLaneCfgTb n), false)

/-- The engine's health line (R199). -/
def State.ttHealthy (s : State) (n : Nat) : Bool :=
  s.ttState n == ttRun && (!(s.ttBase n).2 || (s.eng n).fresh)

/-- The node's NODE_ID, byte 0 first. -/
def State.nodeId (s : State) : List Byte := le 4 (s.rd Reg.devNodeIdLoLo) ++ le 4 (s.rd Reg.devNodeIdHiHi)

/-- The GM_ID that base `b` carries (R197). -/
def State.gmOf (s : State) (b : Nat) : List Byte :=
  let g := Tab.get s.tt.gm b []
  if g = [] then s.nodeId else g

/-- The line bits per K4-rate cycle (Table TT-1a). -/
def State.ttBeta (s : State) (n : Nat) : Nat := if s.rd (Reg.laneCfgQrate n) = 2 then 16 else 40

/-- The half K8 counts in one K4 period (R183): 16 383 counts. -/
def phiFull : Nat := 32766

/-- A beat edge in half counts: the mean of the first and the last transition within 64 K8 cycles of the first. The transitions of
the 4 096 cycles after those are ignored (R183). -/
def beatEdge : List Nat → Option Nat
  | [] => none
  | t :: l => some (t + ((t :: l.takeWhile fun x => decide (x ≤ t + 64)).getLast (by simp)))

/-- The raw phase of a beat period: from the recovered clock's rising beat edge to the local clock's next one. -/
def rawPhase (recov local_ : List Nat) : Option Nat :=
  match beatEdge recov, beatEdge local_ with
  | some a, some b => some (((b : Int) - a) % phiFull).toNat
  | _, _ => none

/-! ## Phase (R183 to R185) -/

/-- The length of the averaging window (R184). -/
def State.ttWindow (s : State) (n : Nat) : Nat := 2 ^ s.rd (Reg.ttLaneCfgPdAvg n)

/-- A raw phase joins the window: a change of more than half a period against the last value steps K, and the
values kept move with it (R184). -/
def Eng.push (e : Eng) (win count : Nat) : Eng :=
  let c : Int := count
  let add (d dk : Int) : Eng := { e with phis := (c :: e.phis.map (· + d)).take win, k := e.k + dk }
  match e.phis with
  | [] => { e with phis := [c] }
  | p :: _ =>
    if 2 * (p - c) > phiFull then add (-phiFull) (-1) else if 2 * (c - p) > phiFull then add phiFull 1 else add 0 0

/-- The rate of the recovered clock from the slope over the window, 0.001 ppm (R184). -/
def Eng.rate (e : Eng) : Int :=
  match e.phis with
  | a :: b :: l => roundDiv ((a - (b :: l).getLast (by simp)) * 1000000000) ((l.length + 1) * phiFull * 16384)
  | _ => 0

/-- The mean phase as TT.LANEn.PHASE shows it: 2^-16 ns, within one period, rounded down: R423 names no rounding here (DESIGN CHOICE, log
entry 72). -/
def Eng.phase (e : Eng) : Nat :=
  let n := e.phis.length
  if n = 0 then 0 else ((sumI e.phis % (phiFull * n : Nat)).toNat * 2 ^ 24) / (165 * phiFull * n)

/-! ## Stamps (R184, R187) -/

/-- The time of a marker `cyc` K4-rate cycles from the local cycle at which the base read `tau`, at bit `b`, less the mean of the
phases `phis`, with the board delay `ext` (0.01 ps) and the fixed delay `d` (2^-16 ns), rounded to nearest. -/
def State.ttStamp (s : State) (n tb tau : Nat) (cyc : Int) (b : Nat) (phis : List Int) (ext d : Int) : Nat :=
  let beta := s.ttBeta n
  let m := max 1 phis.length
  let den := 165 * beta * phiFull * m * 100000
  let x := cyc * (2 ^ 24 * (den / 165) : Nat) + (b * (2 ^ 24 * (den / (165 * beta))) : Nat)
    - sumI phis * (2 ^ 24 * (den / (165 * phiFull * m)) : Nat) + ext * (65536 * (den / 100000) : Nat)
  ((tau + d + s.cal (0x100 + n / 4) + roundDiv x den) % (s.tbRange tb : Int)).toNat

/-- The receive stamp of `st`, from the engine's phases and cycle map as they stand now. -/
def State.ttRxTime (s : State) (n : Nat) (e : Eng) (st : Stamp) : Nat :=
  match st.part with
  | none => st.t
  | some (tau, cyc, b) => s.ttStamp n st.tb tau (cyc + e.k) b e.phis (-(s.rdS (Reg.ttLaneExtRxExtRx n))) (-(s.cal (0x080 + n)))

/-- A beat period has ended: the receive stamps of the markers that arrived in it are complete, over the window that ends with it
(R184). -/
def State.ttComplete (s : State) (n : Nat) (e : Eng) : Eng :=
  let fin (st : Stamp) : Stamp := { st with t := s.ttRxTime n e st, part := none }
  { e with rxLast := e.rxLast.map fin, inb := e.inb.map fun m => { m with st := fin m.st } }

/-- A beat period ends (R183): `beats` holds the K8 cycles of the transitions of the recovered beat and of the local one, from a rising
edge of each on.
Phase and RATE are updated and stamps completed; beyond 20 ppm the engine returns to LOCK, and every stamp that depends on the
cycle map is discarded (R185). -/
def execTtBeatPeriod (lane : Fin 128) (beats : List Nat × List Nat) (s : State) : Res :=
  let n := lane.val
  let st := s.ttState n
  match rawPhase beats.1 beats.2 with
  | none => .next s
  | some count =>
    if st < ttLock then .next s
    else
      let e := s.ttComplete n ((s.eng n).push (s.ttWindow n) count)
      let r := e.rate
      let s := (s.wr (Reg.ttLanePhasePhase n) e.phase).wr (Reg.ttLaneRateRate n) (encSat 32 r)
      if st = ttLock then
        .next (s.setEng n { e with lockN := if r.natAbs ≤ 15000 then e.lockN + 1 else 0 })
      else if 20000 < r.natAbs then
        .next ((s.setEng n { e with
          phis := [], lockN := 0, txA := none, rxA := none, rxLast := none, rxF := none, lgen := e.lgen + 1,
          inb := e.inb.map fun m => { m with rate := true } }).setTt n ttLock)
      else .next (s.setEng n e)

/-- The engine enters ANCHOR (Table TT-1). -/
def State.ttToAnchor (s : State) (n : Nat) : State :=
  let e := s.eng n
  ((s.setEng n { e with txA := none, rxA := none, txIdx := 0, rxIdx := 0 }).setTt n ttAnchor).bump
    (Reg.ttLaneCountsAnchors n)

/-- A whole averaging window within 15 ppm takes the engine to ANCHOR (R185); when it left LOCK is kept for the RATE check of R194. -/
def execTtLockWindowDone (lane : Fin 128) (s : State) : Res :=
  let n := lane.val
  if s.ttState n = ttLock ∧ s.ttWindow n ≤ (s.eng n).lockN then
    .next ((s.setEng n { s.eng n with lockAt := some s.tt.now }).ttToAnchor n)
  else .next s

/-- The lane enters UP: WAIT to LOCK, with averaging started and the exchange history cleared. -/
def State.ttUp (s : State) (n : Nat) : State :=
  if s.ttState n = ttWait then
    let e := s.eng n
    (s.setEng n { agen := e.agen, lgen := e.lgen + 1, fresh := e.fresh }).setTt n ttLock
  else s

/-- The lane leaves UP: the engine waits, and the source is lost to its base (Table TT-1). -/
def State.ttDown (s : State) (n : Nat) : State :=
  if ttLock ≤ s.ttState n then
    let e := s.eng n
    ((s.setEng n { agen := e.agen, lgen := e.lgen, fresh := e.fresh }).setTt n ttWait).sourceLost 1 n
  else s

/-! ## Marker stamps (R186 to R188) -/

/-- The newest own exchange mark whose stamp is complete and not discarded, once two timing-frame periods old (R191). -/
def Eng.txMark (e : Eng) : Option Mark := e.own.reverse.find? fun m => decide (2 ≤ m.st.age) && !m.audit

/-- The exchange of own mark `m` is over. Of the marks whose exchange is over only the newest with a stamp is kept: the TX fields fall
back to it when an audit failure discards those not yet used (R188, R191). A mark for which no pair formed counts as used here
(DESIGN CHOICE, log 69). -/
def Eng.closeOwn (e : Eng) (m : Mark) : Eng :=
  let l := e.own.map fun x => if x = m then { x with used := true } else x
  let last := l.reverse.find? fun x => x.used && !x.audit
  { e with own := l.filter fun x => !x.used || some x == last }

/-- A marker fails the audit of R188 in the transmit (`tx`) or receive direction. -/
def State.ttAudit (s : State) (n : Nat) (tx : Bool) : State :=
  let e := s.eng n
  let drop (l : List Mark) : List Mark := l.map fun m => if m.used then m else { m with audit := true }
  let e := { e with agen := if s.ttState n = ttRun then e.agen + 1 else e.agen
                    ancAt := if s.ttState n = ttRun then some s.tt.now else e.ancAt, own := if tx then drop e.own else e.own, inb := if tx then e.inb else drop e.inb
                    rxF := if tx then e.rxF else none, rxLast := if tx then e.rxLast else none }
  let s := (s.setEng n { e with txF := if tx then e.txMark else e.txF }).bump (Reg.ttLaneErrsAuditErr n)
  (s.ttToAnchor n).report (0x100 + n) (s.rd (Reg.ttLaneErrsAuditErr n))

/-- Both directions anchored: the engine enters RUN (R186). -/
def State.ttAnchored (s : State) (n : Nat) : State :=
  let e := s.eng n
  if e.txA.isSome && e.rxA.isSome then
    (s.setEng n { e with first := true, jumps := [], due := false }).setTt n ttRun
  else s

/-- The lane reports a marker it sent (R116): K4-rate cycle, bit, stuff bits since the previous one. The answer is its stamp, once
the direction is anchored (R187). -/
def State.ttTxMark (s : State) (n cycle bitPos stuff : Nat) : Option Stamp × State :=
  let e := s.eng n
  if s.ttState n < ttAnchor then (none, s)
  else match e.txA with
    | none => (none, (s.setEng n { e with txA := some (cycle, bitPos), txIdx := 0 }).ttAnchored n)
    | some (c, b) =>
      let idx := e.txIdx + 1056 + stuff
      let q := idx + b
      let s := s.setEng n { e with txIdx := idx }
      if c + q / s.ttBeta n ≠ cycle ∨ q % s.ttBeta n ≠ bitPos then (none, s.ttAudit n true)
      else
        let tb := (s.ttBase n).1
        (some { tb := tb, t := s.ttStamp n tb (s.atb tb).t 0 bitPos [] (s.rdS (Reg.ttLaneExtTxExtTx n)) (s.cal n), valid := s.tbValid tb }, s)

/-- The local cycle whose edge first follows the recovered edge of a receive anchor, less the periods that the mean phase is unwrapped
by (R186). The sampler of K4's rising edge saw the boundary in local cycle `rise`, that of its falling edge in local cycle `fall`:
the one whose sampling edge lies a quarter of a period or more from the recovered edge, as φ shows, is used. -/
def Eng.anchorCycle (e : Eng) (rise fall : Nat) : Int :=
  let m := max 1 e.phis.length
  let full : Int := (phiFull * m : Nat)
  let p := sumI e.phis % full
  let c : Int := if full ≤ 4 * p ∧ 4 * p ≤ 3 * full then rise else if 4 * p < full then fall else fall + 1
  c + sumI e.phis / full

/-- The lane reports a marker it received: recovered K4-rate cycle, bit, stuff bits, STUFF_ERR, and the local K4 cycles in which the
samplers of K4's rising and falling edge saw the cycle boundary, the first being the present one. The answer is its stamp, once the
direction is anchored (R187): it is completed when the beat period ends (R184). -/
def State.ttRxMark (s : State) (n cycle bitPos stuff : Nat) (bad : Bool) (rise fall : Nat) : Option Stamp × State :=
  let e := s.eng n
  if s.ttState n < ttAnchor then (none, s)
  else match e.rxA with
    | none => if bad then (none, s.ttAudit n false)
      else (none, (s.setEng n { e with rxA := some (cycle, bitPos), rxIdx := 0, k := e.anchorCycle rise fall - cycle }).ttAnchored n)
    | some (c, b) =>
      let idx := e.rxIdx + 1056 + stuff
      let q := idx + b
      let s := s.setEng n { e with rxIdx := idx }
      if bad || c + q / s.ttBeta n != cycle || q % s.ttBeta n != bitPos then (none, s.ttAudit n false)
      else
        let tb := (s.ttBase n).1
        let part := some ((s.atb tb).t, (cycle : Int) - rise, bitPos)
        let st : Stamp := { tb := tb, t := 0, valid := s.tbValid tb, part := part, agen := e.agen, lgen := e.lgen, now := s.tt.now }
        (some { st with t := s.ttRxTime n e st }, s)

/-! ## Exchanges (R190, R191) -/

/-- An exchange interval starts (R190): the next timing superblock carries the mark. -/
def execTtExchangeInterval (lane : Fin 128) (s : State) : Res :=
  let n := lane.val
  if s.ttState n = ttRun then .next (s.setEng n { s.eng n with due := true }) else .next s

/-- A stamp in the trailer layout (Table EP-6), network order; VALID is the base's when it was taken. -/
def State.ttTime (s : State) (st : Stamp) : List Byte :=
  be 6 (tSec st.t) ++ be 4 (b2n st.valid * 2 ^ 31 + s.rd (Reg.tkTbCfgFormat st.tb) * 2 ^ 30 + tNs st.t) ++ be 2 (tFrac st.t)

/-- A time read from the trailer layout, and its COMPACT bit. -/
def ttTimeOf (l : List Byte) : Nat × Bool :=
  (beAt l 0 6 * tSecond + beAt l 6 4 % 2 ^ 30 * 65536 + beAt l 10 2, bit (beAt l 6 4) 30)

/-- The timing-channel message of lane `n` (Table TT-2), in every state of its engine. -/
def State.ttMessage (s : State) (n : Nat) (exch : Bool) : List Byte :=
  let e := s.eng n
  let (tb, src) := s.ttBase n
  let run := s.ttState n == ttRun
  let txF := if run then e.txF else none
  let rxF := if run then e.rxF else none
  let mark (m : Option Mark) : List Byte := match m with
    | some m => be 2 (m.seq.getD 0) ++ be 2 m.tf ++ s.ttTime m.st
    | none => zeroBytes 16
  be 1 (16 + 8 * b2n exch + 4 * b2n (s.tbValid tb && !s.halted) + 2 * b2n src) ++ be 1 (s.atb tb).state
    ++ be 1 (s.rd (Reg.ttHops tb)) ++ be 1 (2 * b2n rxF.isSome + b2n txF.isSome)
    ++ s.nodeId ++ s.gmOf tb ++ mark txF ++ mark rxF ++ zeroBytes 68
where
  /-- `k` zero bytes. -/
  zeroBytes (k : Nat) : List Byte := List.replicate k 0

/-- A timing superblock leaves with marker stamp `st`: the marks grow older, the TX and RX fields take their new
values, and a due exchange mark is made. The answer is the TT field of its frame. -/
def State.ttSend (s : State) (n tf : Nat) (st : Option Stamp) : List Byte × State :=
  if s.ttState n = ttOff then (s.ttMessage n false, s)
  else
    let e := s.eng n
    let old (st : Stamp) : Stamp := { st with age := st.age + 1 }
    let older (l : List Mark) : List Mark := l.map fun m => { m with st := old m.st }
    let own := older e.own
    let inb := older e.inb
    let newest (l : List Mark) (p : Mark → Bool) (f : Option Mark) : Option Mark :=
      match l.reverse.find? p with | some m => some m | none => f
    let e := { e with own := own, inb := inb, rxLast := e.rxLast.map old }
    let e := { e with
      txF := e.txMark
      rxF := newest inb (fun m => decide (3 ≤ m.st.age) && m.st.part.isNone && m.seq.isSome && !m.audit && !m.rate) e.rxF }
    match st with
    | some st =>
      if e.due ∧ s.ttState n = ttRun then
        let s := s.bumpWrap (Reg.ttLaneSeqTxSeq n)
        let m : Mark := { seq := some (s.rd (Reg.ttLaneSeqTxSeq n)), tf := tf, st := st, agen := e.agen, lgen := e.lgen }
        let s := s.setEng n { e with due := false, own := e.own ++ [m] }
        (s.ttMessage n true, s)
      else let s := s.setEng n e
           (s.ttMessage n false, s)
    | none => let s := s.setEng n e
              (s.ttMessage n false, s)

/-- The stamp of a timing marker received is kept until its frame has been seen (R190). -/
def State.ttKeep (s : State) (n : Nat) (st : Option Stamp) : State :=
  if s.ttState n < ttAnchor then s else s.setEng n { s.eng n with rxLast := st }

/-- The partner's status of a good timing frame (R197, Table TT-10). -/
def State.ttPartner (s : State) (n : Nat) (tt : List Byte) : State :=
  let f := u8 tt 0
  s.wrs [(Reg.ttLaneStatusPHops n, u8 tt 2), (Reg.ttLaneStatusPTbValid n, b2n (bit f 2)),
    (Reg.ttLaneStatusPSource n, b2n (bit f 1)), (Reg.ttLanePNodeLoPNodeLo n, u32 tt 4), (Reg.ttLanePNodeHiPNodeHi n, u32 tt 8),
    (Reg.ttLanePGmLoPGmLo n, u32 tt 12), (Reg.ttLanePGmHiPGmHi n, u32 tt 16)]

/-- A timing frame with a good CRC brings TT field `tt` and TF_COUNT `tf` (R190, R191). -/
def State.ttRecv (s : State) (n tf : Nat) (tt : List Byte) : State :=
  if s.ttState n = ttOff then s
  else
    let s := s.ttPartner n tt
    let e := s.eng n
    let f := u8 tt 0
    let v := u8 tt 3
    let inb := match e.rxLast with
      | some st => if bit f 3 then
          (e.inb ++ [{ tf := tf, st := st, agen := st.agen, lgen := st.lgen : Mark }]).drop (e.inb.length - 15) else e.inb
      | none => e.inb
    let (t1, cp) := ttTimeOf (slice tt 24 12)
    let inb := if bit v 0 then inb.map fun m => if m.tf = beAt tt 22 2 ∧ m.other = none then
        { m with seq := some (beAt tt 20 2), other := some t1, valid := bit f 2, source := bit f 1, hops := u8 tt 2
                 gm := slice tt 12 8, compact := cp } else m
      else inb
    let own := if bit v 1 then e.own.map fun m => if m.seq = some (beAt tt 36 2) ∧ m.tf = beAt tt 38 2 ∧ m.other = none then
        { m with other := some (ttTimeOf (slice tt 40 12)).1 } else m
      else e.own
    let s := s.when (bit v 0) fun s => s.wr (Reg.ttLaneSeqRxSeq n) (beAt tt 20 2)
    s.setEng n { e with inb := inb, own := own, rxLast := none }

/-! ## Pairs (R192 to R195) -/

/-- The partner mark that pairs with own mark `m` (R192): the nearest in the window, the earlier on a tie. -/
def State.ttPartnerMark (s : State) (e : Eng) (m : Mark) : Option Mark :=
  let half : Int := 31250000 * 65536
  let l := e.inb.map fun p => (s.tbDiff m.st.tb (s.onBase p.st.tb m.st.tb p.st.t) m.st.t, p)
  let l := l.filter fun x => decide (-half ≤ x.1 ∧ x.1 < half)
  let best := l.foldl (fun (b : Option (Int × Mark)) x => match b with
    | none => some x
    | some y => if x.1.natAbs < y.1.natAbs ∨ (x.1.natAbs = y.1.natAbs ∧ x.1 < y.1) then some x else some y) none
  best.map (·.2)

/-- The oldest own mark whose four stamps are known, with its partner mark. -/
def State.ttReady (s : State) (n : Nat) : Option (Mark × Mark) :=
  let e := s.eng n
  e.own.findSome? fun m => if m.used || m.other.isNone then none
    else match s.ttPartnerMark e m with
      | some p => if p.other.isSome && p.st.part.isNone then some (m, p) else none
      | none => none

/-- An exchange is discarded with a reason (Table TT-3). -/
def State.ttDiscard (s : State) (n reason : Nat) : State :=
  (s.bump (Reg.ttLaneCountsDiscards n)).wr (Reg.ttLaneStatusLastDisc n) reason

/-- The difference `x − y` of two times, folded modulo 2^32 s where `compact` (R157, R193). -/
def State.ttDiff (s : State) (tb : Nat) (compact : Bool) (x y : Nat) : Int :=
  let w := if compact || s.on (Reg.tkTbCfgFormat tb) then 32 else 48
  sgn w (enc w ((tSec x : Int) - tSec y)) * tSecond + ((x % tSecond : Nat) - (y % tSecond : Nat) : Int)

/-- A value held as a saturating 48-bit unsigned register pair. -/
def sat48 (x : Int) : Nat := if x < 0 then 0 else min (2 ^ 48 - 1) x.toNat

/-- Base `tb` takes e (R195): in UNSET the full difference as a hard set, else a sample. A partner that is COMPACT
leaves seconds bits [47:32] at zero. -/
def State.ttDeliver (s : State) (tb : Nat) (e : Int) (partnerCompact : Bool) : State :=
  if (s.atb tb).state = tbUnset then
    if s.halted then s
    else
      let fix (s : State) (k : Nat) : State :=
        if (s.tb k tb).state ≠ tbUnset then s
        else
          let s := (s.hardSetSample k tb e).when (k == s.activeTk) fun s => s.ev (0x240 + 8 * tb)
          let b := s.tb k tb
          let lim := tSecond * 2 ^ 32
          if partnerCompact then s.setTb k tb { b with t := b.t % lim, tLast := b.tLast % lim } else s
      ((fix (fix s 0) 1).deferredCheck tb (s.atb tb).state).pgSync
  else s.sampleTb tb e

/-- An accepted pair (R194, R195, R197): registers, chain fields, and delivery in role SOURCE. -/
def State.ttAccept (s : State) (n tb : Nat) (src : Bool) (p : Mark) (rtt dIn e : Int) : State :=
  let eng := s.eng n
  let s := s.setEng n { eng with rtt := some rtt, jumps := [], fresh := true }
  let e48 := encSat 48 e
  let s := (s.bump (Reg.ttLaneSamplesSamples n)).wrs
    [(Reg.ttLaneRttLoRttLo n, sat48 rtt), (Reg.ttLaneRttHiRttHi n, sat48 rtt / 2 ^ 32),
     (Reg.ttLaneDInLoDInLo n, sat48 dIn), (Reg.ttLaneDInHiDInHi n, sat48 dIn / 2 ^ 32),
     (Reg.ttLaneELoELo n, e48), (Reg.ttLaneEHiEHi n, e48 / 2 ^ 32)]
  let s := s.when (decide (16 ≤ p.hops)) fun s => s.wr (Reg.ttLaneStatusChainLong n) 1
  let mism := p.compact && !s.on (Reg.tkTbCfgFormat tb)
  let s := s.when mism fun s => s.wr (Reg.ttLaneStatusFormatMismatch n) 1
  let s := s.when (decide (rtt > (s.rd (Reg.fabDestRttRttNs n) * 65536 : Nat))) fun s =>
    (s.wr (Reg.fabDestStatusRttShort n) 1).report 0x5F n
  if src then
    let s := s.wr (Reg.ttHops tb) (min 255 (p.hops + 1))
    let s := { s with tt := { s.tt with gm := Tab.set s.tt.gm tb p.gm [] } }
    s.ttDeliver tb e mism
  else s

/-- What happened at count `l` of K6 and K7 cycles came after partner mark `p` was sent, `dIn` before its receive stamp: the first stamp of
a pair may be the partner's own (R194). -/
def Mark.sentBefore (p : Mark) (dIn : Int) (l : Option Nat) : Bool :=
  match l with
  | some l => decide ((((p.st.now - l) * 2 ^ 24 / 165 : Nat) : Int) < dIn)
  | none => false

/-- The RTT_JUMP check (R194): `none` passes, `some true` is the fourth of a run and is accepted. -/
def State.ttJump (s : State) (n : Nat) (e : Eng) (rtt : Int) : Option Bool :=
  let lim := s.rd (Reg.ttLaneRttJumpRttJump n) * 65536
  let far (x y : Int) : Bool := decide (lim < 1000 * (x - y).natAbs)
  match e.rtt with
  | none => none
  | some last =>
    if e.first || !far rtt last then none
    else
      let run := (rtt :: e.jumps).take 4
      some (run.length == 4 && run.all fun x => run.all fun y => !far x y)

/-- An exchange pair completes (R193): the checks of Table TT-3 in their order, then use. -/
def execTtPairFormed (lane : Fin 128) (s : State) : Res :=
  let n := lane.val
  match s.ttReady n with
  | none => .next s
  | some (m, p) =>
    let e := s.eng n
    let e := { e.closeOwn m with inb := e.inb.map fun x => if x = p then { x with used := true } else x }
    let first := e.first
    let s := s.setEng n { e with first := false }
    let (tb, src) := s.ttBase n
    let cp := p.compact
    let ms := s.ttDiff m.st.tb cp p.st.t (p.other.getD 0)
    let sm := s.ttDiff m.st.tb cp (m.other.getD 0) m.st.t
    let rtt := ms + sm
    let alpha := sgn 64 (s.rd (Reg.ttLaneAlphaLoAlphaLo n) + 2 ^ 32 * s.rd (Reg.ttLaneAlphaHiAlphaHi n))
    let dIn := roundDiv (rtt * (2 ^ 48 + alpha)) (2 ^ 49 + alpha).toNat
    let off := ms - dIn
    if m.audit || p.audit || m.agen != p.agen || p.sentBefore dIn e.ancAt then .next (s.ttDiscard n 1)
    else if p.rate || m.lgen != p.lgen || p.sentBefore dIn e.lockAt then .next (s.ttDiscard n 2)
    else if m.st.tb ≠ p.st.tb then .next (s.ttDiscard n 3)
    else if src && !p.valid then .next (s.ttDiscard n 5)
    else if src && (p.source || p.gm == s.nodeId) then .next (s.ttDiscard n 6)
    else if rtt < 0 ∨ rtt > (s.rd (Reg.ttLaneRttMaxRttMax n) * 65536 : Nat) then .next (s.ttDiscard n 7)
    else match s.ttJump n { e with first := first } rtt with
      | some false =>
        .next ((s.setEng n { s.eng n with jumps := (rtt :: e.jumps).take 3 }).ttDiscard n 8)
      | some true => .next ((s.bump (Reg.ttLaneErrsRttRebase n)).ttAccept n tb src p rtt dIn off)
      | none => .next (s.ttAccept n tb src p rtt dIn off)

/-- No pair forms within 250 ms of the oldest own mark still without one: NO_PAIR (R192). -/
def execTtPairTimeout (lane : Fin 128) (s : State) : Res :=
  let n := lane.val
  match (s.eng n).own.find? fun m => !m.used with
  | none => .next s
  | some m => .next ((s.setEng n ((s.eng n).closeOwn m)).ttDiscard n 4)

/-! ## The TRANSFER record (R204, R205) -/

/-- TRANSFER passes R205. `mode`: the LANES mode of a lane; `tbOn`: TIMEBASES enables a base; `names b n`: base `b`
has SRC = TT with SRC_ID `n`. -/
def checkTransfer (mode : Nat → Nat) (tbOn : Nat → Bool) (names : Nat → Nat → Bool) (v : List Byte) : Bool :=
  v.length == 4096 && (List.range 128).all fun n =>
    let o := 32 * n
    let en := u8 v o == 1
    let named := (List.range 8).filter fun b => names b n
    (if en then
      mode n == 1 && decide (u8 v (o + 1) < 8) && tbOn (u8 v (o + 1)) && zeroOr 1 (u8 v (o + 2)) 10 && decide (u8 v (o + 3) ≤ 4)
        && decide ((sgn 64 (u64 v (o + 8))).natAbs < 2 ^ 44) && zeroOr 1000 (u32 v (o + 24)) 2000000 && zeros v (o + 30) 2
     else zeros v o 32)
    && named.all fun b => en && u8 v (o + 1) == b

/-- TRANSFER is applied (R204). -/
def applyTransfer (v : List Byte) (s : State) : State :=
  s.each (List.range 128) fun s n =>
    let o := 32 * n
    if u8 v o = 0 then s
    else s.wrs [(Reg.ttLaneCfgTtEn n, 1), (Reg.ttLaneCfgTb n, u8 v (o + 1)), (Reg.ttLaneCfgPdAvg n, orDef (u8 v (o + 2)) 6),
      (Reg.ttLaneAlphaLoAlphaLo n, u64 v (o + 8)), (Reg.ttLaneAlphaHiAlphaHi n, u64 v (o + 8) / 2 ^ 32),
      (Reg.ttLaneExtTxExtTx n, u32 v (o + 16)), (Reg.ttLaneExtRxExtRx n, u32 v (o + 20)),
      (Reg.ttLaneRttMaxRttMax n, orDef (u32 v (o + 24)) 1200000), (Reg.ttLaneRttJumpRttJump n, orDef (u16 v (o + 28)) 1000)]

/-- At APPLY every enabled engine of a LEAT lane leaves OFF (Table TT-1). -/
def State.ttStart (s : State) : State :=
  s.each (List.range 128) fun s n =>
    if s.on (Reg.ttLaneCfgTtEn n) && s.isLeat n && s.ttState n == ttOff then s.setTt n ttWait else s

end Sys2Proof.Machine
end

