-- ==== Sys2Proof/Machine/Lanes.lean ====
section
/-! DEFINITION. The Leat trunk lanes (05_leat_lanes): line coding, superblocks, training, quiet, tests, health. -/
namespace Sys2Proof.Machine

/-! ## State -/

/-- DOWN (Table LE-9). -/
def laneDown : Nat := 0
/-- DETECT. -/
def laneDetect : Nat := 1
/-- TRAIN. -/
def laneTrain : Nat := 2
/-- ALIGN. -/
def laneAlign : Nat := 3
/-- VERIFY. -/
def laneVerify : Nat := 4
/-- UP. -/
def laneUp : Nat := 5
/-- RETRY. -/
def laneRetry : Nat := 6

/-- Training state of lane `n`. -/
def State.tstate (s : State) (n : Nat) : Nat := s.rd (Reg.laneStateTstate n)

/-- Lane `n` on the line. -/
def State.ln (s : State) (n : Nat) : LaneSt := Tab.get s.lan n {}

/-- Lane `n` on the line, set. -/
def State.setLn (s : State) (n : Nat) (x : LaneSt) : State := { s with lan := Tab.set s.lan n x {} }

/-- The training state changes: GEN counts it (R118). -/
def State.laneTo (s : State) (n st : Nat) : State :=
  if s.tstate n = st then s else (s.wr (Reg.laneStateTstate n) st).bumpWrap (Reg.laneStateGen n)

/-- The bits of LANE.ERR of lane `n`. -/
def State.laneErr (s : State) (n : Nat) : Nat :=
  s.wordOf [Reg.laneErrLos n, Reg.laneErrMarker n, Reg.laneErrStuffViol n, Reg.laneErrExtChk n, Reg.laneErrTfCrc n,
    Reg.laneErrQpllUnlock n]

/-- A bit of LANE.ERR becomes set and is reported (Table FL-1). -/
def State.laneFlag (s : State) (n : Nat) (f : Fld) : State :=
  if s.on f then s
  else let s := s.wr f 1
       s.report (0x80 + n) (s.laneErr n)

/-- Lane `n` may run: its quadrant is on, and no power state keeps the lane down (Table SP-12). -/
def State.laneOn (s : State) (n : Nat) : Bool :=
  s.pdOn (5 + n / 32) && (!s.pwr.timing || s.maskBit Reg.pwrTimingLanesMask n)

/-- A HOLD command or a HALT_PORT reaction holds lane `n` (R121, R333); a reaction that names a port holds no lane. -/
def State.laneHeld (s : State) (n : Nat) : Bool := (s.ln n).hostHeld || (s.flt.holds.contains n && !s.isPort n)

/-- STATE.HELD follows the holds and manual alignment (Table LE-12); on an ETH lane a change counts in GEN (R122). -/
def State.updHeld (s : State) (n : Nat) : State :=
  let b := b2n (s.laneHeld n || s.on (Reg.laneStateManual n))
  if s.rd (Reg.laneStateHeld n) = b then s
  else (s.wr (Reg.laneStateHeld n) b).when (s.rd (Reg.laneCfgMode n) == 2) fun s => s.bumpWrap (Reg.laneStateGen n)

/-- LINE mode runs (R125): the lane is held by HOLD and PRBS_CTL.MODE is LINE. -/
def State.prbsActive (s : State) (n : Nat) : Bool :=
  (s.ln n).hostHeld && s.rd (Reg.lanePrbsCtlMode n) == 1

/-- A held lane outside LINE mode: generator and checker are idle, and the checker holds no lock (R125). -/
def State.prbsIdle (s : State) (n : Nat) : State :=
  s.when ((s.ln n).hostHeld && !s.prbsActive n) fun s => s.wr (Reg.lanePrbsStatusLock n) 0

/-! ## Line coding (R107 to R109) -/

/-- One bit through the self-synchronising scrambler: the line bit and the new history. -/
def scrBit (h : Nat) (d : Bool) : Bool × Nat :=
  let x := d != (bit h 38 != bit h 57)
  (x, (2 * h + b2n x) % 2 ^ 58)

/-- Bits scrambled in order. -/
def scramble : Nat → List Bool → List Bool × Nat
  | h, [] => ([], h)
  | h, d :: l =>
    let (x, h) := scrBit h d
    let (r, h) := scramble h l
    (x :: r, h)

/-- Received bits descrambled in order. -/
def descramble : Nat → List Bool → List Bool × Nat
  | h, [] => ([], h)
  | h, x :: l =>
    let (r, h') := descramble ((2 * h + b2n x) % 2 ^ 58) l
    ((x != (bit h 38 != bit h 57)) :: r, h')

/-- Stuffing (R108): the line bits, the stuff bits inserted, the run at the end. -/
def stuff : Nat × Bool → List Bool → List Bool × Nat × (Nat × Bool)
  | run, [] => ([], 0, run)
  | (c, v), b :: l =>
    let c' := if 0 < c ∧ b = v then c + 1 else 1
    if c' = 23 then
      let (r, n, run) := stuff (0, b) l
      (b :: (!b) :: r, n + 1, run)
    else
      let (r, n, run) := stuff (c', b) l
      (b :: r, n, run)

/-- Destuffing (R109): the bits kept, the stuff bits removed, the violations, the run at the end. -/
def destuff : Nat × Bool → List Bool → List Bool × Nat × Nat × (Nat × Bool)
  | run, [] => ([], 0, 0, run)
  | (c, v), b :: l =>
    if c = 23 then
      let (r, n, viol, run) := destuff (0, v) l
      (r, n + 1, (if b = v then viol + 1 else viol), run)
    else
      let c' := if 0 < c ∧ b = v then c + 1 else 1
      let (r, n, viol, run) := destuff (c', b) l
      (b :: r, n, viol, run)

/-- The next `k` bits of a PRBS generator of `w` stages with taps `w` and `t`, and its state. -/
def prbs (w t : Nat) : Nat → Nat → List Bool × Nat
  | 0, h => ([], h)
  | k + 1, h =>
    let x := bit h (w - 1) != bit h (t - 1)
    let (r, h) := prbs w t k ((2 * h + b2n x) % 2 ^ w)
    (x :: r, h)

/-- Stages and taps of PRBS pattern `p` (R125, Table LE-13). -/
def prbsTaps (p : Nat) : Nat × Nat := if p = 0 then (7, 6) else if p = 1 then (15, 14) else (31, 28)

/-- The PRBS31 fill of the data superblock with sequence number `msn` (R126). -/
def fillBits (msn : Nat) : List Bool := (prbs 31 28 1000 (prbs 31 28 (1000 * (msn - 1)) (2 ^ 31 - 1)).2).1

/-- Bits read most significant first. -/
def ofBits (l : List Bool) : Nat := l.foldl (fun n b => 2 * n + b2n b) 0

/-- CRC-4 of the marker extension over its bits [23:4] (Table LE-3, R424). -/
def crc4 (l : List Bool) : Nat := l.foldl (crcBit 4 3) 0

/-- The marker extension of Table LE-3, 24 bits. -/
def extBits (ql bp : Nat) (fill : Bool) (fptr : Nat) : List Bool :=
  let d := fieldBits 4 ql ++ fieldBits 8 bp ++ [fill] ++ fieldBits 7 fptr
  d ++ fieldBits 4 (crc4 d)

/-! ## The frame stream on transmit (R112) -/

/-- The bytes from the frame in progress and, where `up`, the frames behind it: the bytes of one superblock, the
offset of the first START, what is left. -/
def takeStream (up : Bool) : Nat → Nat → List Byte → List (List Byte) → List Byte × Option Nat × List Byte × List (List Byte)
  | 0, _, cur, q => ([], none, cur, q)
  | k + 1, o, b :: cur, q =>
    let (r, p, c, q) := takeStream up k (o + 1) cur q
    (b :: r, p, c, q)
  | k + 1, o, [], q =>
    match up, q with
    | true, (b :: f) :: q =>
      let (r, _, c, q) := takeStream up k (o + 1) f q
      (b :: r, some o, c, q)
    | _, _ =>
      let (r, p, c, q) := takeStream up k (o + 1) [] q
      (7 :: r, p, c, q)

/-- The frame stream closes: a frame in progress ends with the bad terminator (R118). -/
def LaneSt.close (x : LaneSt) : LaneSt := { x with cur := if x.cur = [] then [] else [0xFE], queue := [], early := false, fed := 0 }

/-- The fabric holds a frame for lane `n` (R115, R124): a copy that is not whole on its stream, one queued, held by the resequencer, or due
at a fixed latency. -/
def State.fabricHolds (s : State) (n : Nat) : Bool :=
  (Tab.get s.fab.sending n 0 != 0 && !(s.ln n).early) || s.held n != [] || Tab.get s.fab.flf n [] != []
    || (List.range 8).any fun c => s.queue n c != []

/-- No frame is in progress, in the reserve or waiting in the fabric for lane `n` (R124, R126). -/
def State.nothingToSend (s : State) (n : Nat) : Bool :=
  let x := s.ln n
  x.cur == [] && x.queue == [] && Tab.get s.fab.sending n 0 == 0 && !s.fabricHolds n

/-! ## The frame stream on receive (R112) -/

/-- Byte `b` at offset `o` of a superblock's stream, whose extension names START at `p`. -/
def rxByte (p : Option Nat) (o : Nat) (x : RxSt) (b : Byte) : RxSt :=
  let v := b.toNat
  let start : RxSt := { x with phase := 1, need := 3, len := 0 }
  let lost : RxSt := { x with phase := 4, err := x.err + 1, das := [] }
  if p = some o ∧ v ≠ 0xFB then lost
  else match x.phase with
    | 0 => if v = 0xFB then start else x
    | 1 =>
      let len := if 1 < x.need then (256 * x.len + v) % 16384 else x.len
      if x.need = 1 then { x with phase := 2, need := len, len := len } else { x with need := x.need - 1, len := len }
    | 2 => { x with phase := if x.need ≤ 1 then 3 else 2, need := x.need - 1, das := if x.need = x.len then x.das ++ [o] else x.das }
    | 3 => if v = 0xFD ∨ v = 0xFE then { x with phase := 0 } else lost
    | _ => if p = some o then start else x

/-- The bytes of a superblock's stream, from offset `o` on. -/
def rxStream (p : Option Nat) : Nat → RxSt → List Byte → RxSt
  | _, x, [] => x
  | o, x, b :: l => rxStream p (o + 1) (rxByte p o x b) l

/-! ## Training transitions (Table LE-6) -/

/-- Destination `n` leaves UP (R302): its queues go unless it belongs to a protected pair, the copy that is leaving in any case; its
streams open. -/
def State.linkLeft (s : State) (n : Nat) : State :=
  if (s.pairAt n).isSome then
    (((s.cutCopy n).bpOpen n).wr (Reg.fabDestStatusPaused n) 0).when (s.isPort n) fun s => s.wr (Reg.portLinkRxPaused n) 0
  else s.destDown n

/-- The lane leaves UP: the stream closes, health shows an error, the engine, Fantail and the fabric are told. -/
def State.laneLeaveUp (s : State) (n : Nat) : State :=
  let s := (s.setLn n { (s.ln n).close with rx := { err := (s.ln n).rx.err }, rxDa := [] }).quadDry n 0
  let s := ((s.wr (Reg.laneStateHealth n) 0).intr 6).wr (Reg.lanePrbsStatusLock n) 0
  (((s.cutArrival n).ttDown n).rcsLost n).linkLeft n

/-- The lane goes to `st`, leaving UP where it stood there. -/
def State.laneGo (s : State) (n st : Nat) : State :=
  let up := s.tstate n == laneUp
  let s := s.laneTo n st
  s.when (up && st != laneUp) fun s => s.laneLeaveUp n

/-- DOWN: electrical idle, backoff 1 ms. -/
def State.laneToDown (s : State) (n : Nat) : State :=
  let s := s.laneGo n laneDown
  let x := s.ln n
  (s.setLn n { gen := x.gen, chk := x.chk, hostHeld := x.hostHeld, rx := { err := x.rx.err }, extBad := x.extBad }).wrs
    [(Reg.laneBackoffMs n, 1), (Reg.laneStateQuietTx n, 0), (Reg.laneStateQuietRx n, 0), (Reg.laneManStatusMarkerSeen n, 0)]

/-- RETRY: electrical idle, a retry counted. -/
def State.laneToRetry (s : State) (n : Nat) : State :=
  let s := (s.laneGo n laneRetry).bump (Reg.laneEventsRetries n)
  let x := s.ln n
  (s.setLn n { tfCount := x.tfCount, gen := x.gen, chk := x.chk, hostHeld := x.hostHeld, rx := { err := x.rx.err },
               extBad := x.extBad }).wrs
    [(Reg.laneStateQuietTx n, 0), (Reg.laneStateQuietRx n, 0), (Reg.laneManStatusMarkerSeen n, 0)]

/-- Line bits leave with the lane's polarity (Table LE-12). -/
def State.sendLine (s : State) (n : Nat) (l : List Bool) : State :=
  s.send (.line n (if s.on (Reg.laneCfgPolTx n) then l.map (!·) else l))

/-- One burst (R123): 1 984 UI of alternating ones and zeros, then 64 UI of scrambled IDLE. R108 stuffs the bits of superblocks: the
tail is not stuffed, and the run counter starts at c = 0 with the superblock after it (DEDUCED, log entry 61). -/
def State.burst (s : State) (n : Nat) : State :=
  let x := s.ln n
  let (tail, h) := scramble x.scr ((List.replicate 8 (7 : Byte)).flatMap msbBits)
  (s.setLn n { x with scr := h, txRun := (0, false) }).sendLine n ((List.range 1984).map (· % 2 == 0) ++ tail)

/-- DETECT, with its first burst at once. -/
def State.laneToDetect (s : State) (n : Nat) : State := (s.laneGo n laneDetect).burst n

/-- ALIGN: RX_OK goes to 0. MARKER_SEEN stays: a word may have matched at this slip in the last 2 superblock times (Table LE-12). A transmitter of the lane's own that is quiet stays quiet, and RX_OK = 0 goes
out in its wakes (DESIGN CHOICE, log entry 61). -/
def State.laneToAlign (s : State) (n : Nat) : State :=
  let s := s.laneGo n laneAlign
  s.setLn n { s.ln n with good := 0, badRun := 0, okRun := 0, noRun := 0, missed := 0, tried := 0 }

/-- VERIFY, with `msn` the last marker's sequence number. -/
def State.laneToVerify (s : State) (n msn : Nat) : State :=
  let found := s.tstate n == laneAlign
  let s := s.laneGo n laneVerify
  (s.setLn n { s.ln n with
    good := 0, badRun := 0, okRun := 0, noRun := 0, missed := 0, rxMsn := msn, rxErr := false, rxStuff := 0
    seen := if found then 0 else (s.ln n).seen }).when found fun s => s.wr (Reg.laneManStatusMarkerSeen n) 1

/-- VERIFY with 64 good markers and two good timing frames with RX_OK enters UP and opens the frame stream. -/
def State.laneUpCheck (s : State) (n : Nat) : State :=
  let x := s.ln n
  if s.tstate n = laneVerify ∧ 64 ≤ x.good ∧ 2 ≤ x.okRun then
    let s := (s.laneTo n laneUp).intr 6
    (s.setLn n { x with badRun := 0, noRun := 0, missed := 0, whole := false, markWin := 0, fillWin := 0, qlRun := (0, 0) }).ttUp n
  else s

/-- The lane declares LOS (R119). -/
def State.laneLos (s : State) (n : Nat) : State :=
  ((s.bump (Reg.laneLosEvtCount n)).laneFlag n (Reg.laneErrLos n)).laneToDown n

/-- 100 µs in DOWN with the quad locked and no hold: DETECT. -/
def execLaneDownWait (lane : Fin 128) (s : State) : Res :=
  let n := lane.val
  if s.isLeat n && s.tstate n == laneDown && s.on (Reg.laneStateQpllLock n) && !s.laneHeld n && s.laneOn n
    && !s.inPhase 10 then .next (s.laneToDetect n)
  else .next s

/-- 1 ms since the last burst with no energy: another burst. -/
def execDetectBurstTimer (lane : Fin 128) (s : State) : Res :=
  if s.isLeat lane.val && s.tstate lane.val == laneDetect then .next (s.burst lane.val) else .next s

/-- Energy for 16 ns takes DETECT to TRAIN. -/
def execLaneEnergyDetect (lane : Fin 128) (s : State) : Res :=
  if s.tstate lane.val = laneDetect then .next (s.laneTo lane.val laneTrain) else .next s

/-- CDR lock held for 100 µs takes TRAIN to ALIGN. -/
def execLaneCdrLocked (lane : Fin 128) (s : State) : Res :=
  if s.tstate lane.val = laneTrain then .next (s.laneToAlign lane.val) else .next s

/-- 20 ms in TRAIN: RETRY. -/
def execLaneTrainTimeout (lane : Fin 128) (s : State) : Res :=
  if s.tstate lane.val = laneTrain then .next (s.laneToRetry lane.val) else .next s

/-- A slip position has been watched for 2 superblock times (R117): `matched` says that a word matched, `next3` that
the next 3 markers did, `msn` being the last one's number. Manual alignment only reports (R121). -/
def execAlignPositionWatch (lane : Fin 128) (matched next3 : Bool) (msn : Fin 100) (s : State) : Res :=
  let n := lane.val
  if s.tstate n ≠ laneAlign then .next s
  else if s.on (Reg.laneStateManual n) then
    .next ((s.wr (Reg.laneManStatusMarkerSeen n) (b2n matched)).setLn n { s.ln n with rxMsn := msn.val })
  else if matched && next3 then .next (s.laneToVerify n msn.val)
  else
    let x := s.ln n
    let s := s.wrs [(Reg.laneStateSlip n, (s.rd (Reg.laneStateSlip n) + 1) % 32), (Reg.laneManStatusMarkerSeen n, 0)]
    if x.tried + 1 = 128 then .next (s.laneToRetry n) else .next (s.setLn n { x with tried := x.tried + 1 })

/-- 1 ms in VERIFY: RETRY. -/
def execLaneVerifyTimeout (lane : Fin 128) (s : State) : Res :=
  if s.tstate lane.val = laneVerify then .next (s.laneToRetry lane.val) else .next s

/-- The backoff elapses: DETECT, the backoff doubled to at most 1 000 ms. -/
def execLaneBackoffExpire (lane : Fin 128) (s : State) : Res :=
  let n := lane.val
  if s.tstate n = laneRetry then
    .next ((s.wr (Reg.laneBackoffMs n) (min (2 * s.rd (Reg.laneBackoffMs n)) 1000)).laneToDetect n)
  else .next s

/-- UP for 1 s: the backoff returns to 1 ms. -/
def execLaneUpStable (lane : Fin 128) (s : State) : Res :=
  if s.tstate lane.val = laneUp then .next (s.wr (Reg.laneBackoffMs lane.val) 1) else .next s

/-- No transition for 1 024 UI or CDR loss, a loss beyond ±100 ppm among them (Table LE-7, R128). Masked while the partner is quiet
(R124), in ALIGN and VERIFY as in UP (DESIGN CHOICE, log entry 61). -/
def execLaneLosSignal (lane : Fin 128) (s : State) : Res :=
  let n := lane.val
  let st := s.tstate n
  if laneAlign ≤ st ∧ st ≤ laneUp ∧ ¬ s.on (Reg.laneStateQuietRx n) then .next (s.laneLos n) else .next s

/-- No energy for 2 ms in TRAIN, or no wake for 2 ms from a quiet partner (Table LE-7). -/
def execLaneLosTimeout (lane : Fin 128) (s : State) : Res :=
  let n := lane.val
  if s.tstate n = laneTrain ∨ (s.tstate n = laneUp ∧ s.on (Reg.laneStateQuietRx n)) then .next (s.laneLos n) else .next s

/-! ## Sending a superblock (R110 to R113, R116, R124, R126) -/

/-- The rank that lane or port `n` sends (R68): 0 on the one that carries the selected candidate, a port by any of its lanes. -/
def State.qlSent (s : State) (n : Nat) : Nat :=
  let c := s.selected
  if 8 ≤ c ∧ c < 24 ∧ (if s.isPort n then s.portOf (s.rcsLane c) else s.rcsLane c) = n ∧ s.rd Reg.refselStateSelState ≠ 0 then 0 else s.outRank

/-- The timing frame of lane `n` (Table LE-4) with TT field `tt`. -/
def State.timingFrame (s : State) (n count : Nat) (quiet : Bool) (tt : List Byte) : List Byte :=
  let st := s.tstate n
  let rxOk := st == laneVerify || st == laneUp
  let b := be 1 (32 * st + 16 * b2n rxOk + 8 * b2n quiet + 4 * b2n (s.on (Reg.laneCfgSelftest n) && st == laneUp)) ++ be 2 count ++ tt
  b ++ be 2 (crc16 b)

/-- The 1 024 payload bits and the state after a timing superblock's content is formed. TF_COUNT counts the timing frames sent before
this one: the first after DOWN carries 0 (DEDUCED, log entry 61). -/
def State.timingPayload (s : State) (n : Nat) (st : Option Stamp) : List Bool × State :=
  let x := s.ln n
  let quiet := x.quiet == 1 || x.quiet == 8
  let (tt, s) := s.ttSend n x.tfCount st
  let f := s.timingFrame n x.tfCount quiet tt
  (extBits (s.qlSent n) (s.rd (Reg.fabDestStatusXoff n)) false 127 ++ f.flatMap msbBits,
   s.setLn n { s.ln n with tfCount := (x.tfCount + 1) % 65536 })

/-- The 1 024 payload bits of a data superblock and the state after it. -/
def State.dataPayload (s : State) (n : Nat) : List Bool × State :=
  let x := s.ln n
  let up := s.tstate n == laneUp
  if up && s.on (Reg.laneCfgSelftest n) && s.nothingToSend n then
    (extBits (s.qlSent n) (s.rd (Reg.fabDestStatusXoff n)) true 127 ++ fillBits x.msn, s)
  else
    let (b, p, cur, q) := takeStream up 125 0 x.cur x.queue
    (extBits (s.qlSent n) (s.rd (Reg.fabDestStatusXoff n)) false (p.getD 127) ++ b.flatMap msbBits,
     s.setLn n { x with cur := cur, queue := q })

/-- The line bits of the superblock that carries `payload`, the stuff bits among them, the run at their end and the scrambler's state
(R107, R108, R110). -/
def LaneSt.encode (x : LaneSt) (payload : List Bool) : List Bool × Nat × (Nat × Bool) × Nat :=
  let (bits, h) := scramble x.scr (fieldBits 24 0xB5C2E9 ++ fieldBits 8 x.msn ++ payload)
  let (line, k, run) := stuff x.txRun bits
  (line, k, run, h)

/-- The line bits from the next marker that lane `n` sends to the first bit behind byte `ahead` of its frame stream, stuff bits included
(R116, R206): the superblocks are formed as the lane will form them, at most `k` of them. -/
def State.lineAhead (s : State) (n ahead : Nat) : Nat → Nat
  | 0 => 0
  | k + 1 =>
    let x := s.ln n
    let timing := x.msn == 0
    let mark := (s.eng n).txA.map fun _ => ({ tb := 0, t := 0, valid := false } : Stamp)
    let (payload, t) := if timing then s.timingPayload n mark else s.dataPayload n
    if timing = false ∧ ahead < 125 then
      let d := 56 + 8 * ahead
      d + (stuff x.txRun (scramble x.scr ((fieldBits 24 0xB5C2E9 ++ fieldBits 8 x.msn ++ payload).take d)).1).2.1
    else
      let (line, m, run, h) := x.encode payload
      let t := t.setLn n { t.ln n with scr := h, txRun := run, txStuff := m, msn := (x.msn + 1) % 100 }
      line.length + State.lineAhead t n (if timing then ahead else ahead - 125) k

/-- Where the first bit of a frame falls that joins the stream of lane `n` now and begins with the 5 bytes `b`, its first byte the last of
them: line bits from the next marker (R206). -/
def State.daOffset (s : State) (n : Nat) (b : List Byte) : Nat :=
  let x := s.ln n
  (s.setLn n { x with queue := x.queue ++ [b] }).lineAhead n (x.backlog + 4) 8

/-- The stream would run dry in the next superblock while a frame waits in the fabric that may leave, or while the rest of the copy that is
leaving has not come (R115). -/
def State.streamWaits (s : State) (n : Nat) : Bool :=
  let x := s.ln n
  s.tstate n == laneUp && x.msn != 0 && decide (x.backlog < 125)
    && (x.fed != 0 || (!s.halted && !s.on Reg.pwrStatusShed && !s.pwr.shedFast && (List.range 8).any fun c => s.eligible n c))

/-- The next superblock goes out whole. Superblocks follow one another with no rate-compensation symbol (R128). -/
def State.sendSuperblock (s : State) (n cycle bitPos : Nat) : State :=
  let x := s.ln n
  let (st, s) := s.ttTxMark n cycle bitPos x.txStuff
  let (payload, s) := if x.msn = 0 then s.timingPayload n st else s.dataPayload n
  let x := s.ln n
  let (line, k, run, h) := x.encode payload
  let s := s.setLn n { x with scr := h, txRun := run, txStuff := k, msn := (x.msn + 1) % 100 }
  ((s.bump48 (Reg.laneStuffTxLoCount n) k).evN (0x081 + 4 * (n / 4)) k).sendLine n line

/-- The word-clock cycles that the superblock sent last took, rounded up (R106, R110). -/
def LaneSt.wordCycles (x : LaneSt) : Nat := (1056 + x.txStuff + 39) / 40

/-- A lane forms and sends its next superblock (R110). A quiet lane only counts, also at the boundary inside its burst, but for the
superblock behind the burst (R124). No IDLE leaves while a frame waits: a superblock that would need one is formed once the frame has
started, or its copy has ended (R115). `resEmpty`: the word-clock cycles since the last superblock, at most those that it took, in
which the reserve was empty while the fabric held a frame; none where the reserve holds a byte or the fabric holds no frame. Nothing
leaves once a SCAN has stopped clocks (R372). -/
def execSuperblockTransmit (lane : Fin 128) (cycle bitPos resEmpty : Nat) (s : State) : Res :=
  let n := lane.val
  let st := s.tstate n
  let x := s.ln n
  if !s.isLeat n || decide (st < laneTrain) || decide (laneUp < st) || s.frozen
      || (decide (x.quiet ≤ 1 ∨ x.quiet = 7) && s.streamWaits n) then .next s
  else
    let empty := if x.backlog = 0 ∧ s.fabricHolds n = true then min resEmpty x.wordCycles else 0
    let s := (s.bump48 (Reg.laneResEmptyLoCount n) empty).quadDry n empty
    match x.quiet with
    | 1 =>
      let s := s.sendSuperblock n cycle bitPos
      if x.msn = 0 then .next ((s.setLn n { s.ln n with quiet := 2 }).wr (Reg.laneStateQuietTx n) 1) else .next s
    | 4 => .next (s.setLn n { x with quiet := 7, msn := (x.msn + 1) % 100 })
    | 6 => .next (s.setLn n { x with quiet := 8, msn := (x.msn + 1) % 100 })
    | 7 =>
      .next (((s.setLn n { x with quiet := 0 }).wr (Reg.laneStateQuietTx n) 0).sendSuperblock n cycle bitPos)
    | 8 =>
      if x.msn = 0 then
        let s := s.sendSuperblock n cycle bitPos
        .next (s.setLn n { s.ln n with quiet := 2 })
      else .next (s.setLn n { x with msn := (x.msn + 1) % 100 })
    | 0 => .next (s.sendSuperblock n cycle bitPos)
    | _ => .next (s.setLn n { x with msn := (x.msn + 1) % 100 })

/-! ## Receiving a superblock (R111, R116, R118) -/

/-- A QL field with a good CHK (R66): 8 that agree put it in effect. -/
def State.qlReceived (s : State) (n ql : Nat) : State :=
  let x := s.ln n
  let k := if x.qlRun.1 = ql then min 8 (x.qlRun.2 + 1) else 1
  let s := (s.wr (Reg.laneRxQlLast n) ql).setLn n { x with qlRun := (ql, k) }
  if k = 8 ∧ s.rd (Reg.laneRxQlStable n) ≠ ql then
    (s.wr (Reg.laneRxQlStable n) ql).each (s.rcsOfLane n) State.rankChange
  else s

/-- The partner's pause state of destination `n` becomes `m` (R286, R141): a pause that begins is an event. -/
def State.setPaused (s : State) (n m : Nat) : State :=
  let was := s.rd (Reg.fabDestStatusPaused n)
  let s := s.wr (Reg.fabDestStatusPaused n) m
  s.each (List.range 8) fun s c => if bit m c && !bit was c then s.ev (0x202 + 8 * c) else s

/-- CHK of the extension that `payload` begins with is good (Table LE-3). -/
def extGood (payload : List Bool) : Bool := crc4 (payload.take 20) == ofBits ((payload.drop 20).take 4)

/-- The offset of the first START that a payload's extension names, where its CHK is good (Table LE-3). -/
def extFptr (payload : List Bool) : Option Nat :=
  let p := ofBits ((payload.drop 13).take 7)
  if extGood payload && decide (p ≤ 124) then some p else none

/-- The stream bytes of a data superblock (R112): a framing error discards the frame in progress, or stomps it where its head has
left, and the stamps kept with it. A FILL superblock carries none. -/
def State.streamReceived (s : State) (n : Nat) (payload : List Bool) : State :=
  if (payload.drop 12).headD false then s
  else
    let x := s.ln n
    let l := (List.range 125).map fun i => BitVec.ofNat 8 (ofBits ((payload.drop (24 + 8 * i)).take 8))
    let r := rxStream (extFptr payload) 0 x.rx l
    (s.setLn n { x with rx := r, rxDa := if r.err = x.rx.err then x.rxDa else [] }).when (r.err != x.rx.err) fun s => s.cutArrival n

/-- The extension and, of a data superblock, the fill (R111, R126): compared while the receiver is UP, before LOCK reads 1 too (DESIGN
CHOICE, log entry 72). -/
def State.extReceived (s : State) (n : Nat) (payload : List Bool) (timing : Bool) : State :=
  let d := payload.take 20
  if !extGood payload then (s.setLn n { s.ln n with extBad := (s.ln n).extBad + 1 }).laneFlag n (Reg.laneErrExtChk n)
  else
    let s := s.qlReceived n (ofBits (d.take 4))
    let s := s.setPaused n (ofBits ((d.drop 4).take 8))
    let fill := (d.drop 12).headD false
    if fill && !timing && s.tstate n == laneUp then
      let got := payload.drop 24
      let errs := ((got.zip (fillBits (s.ln n).rxMsn)).filter fun p => p.1 != p.2).length
      let s := (s.bump48 (Reg.lanePrbsBitsLoCount n) 1000).bump48 (Reg.lanePrbsErrLoCount n) errs
      s.setLn n { s.ln n with fillWin := (s.ln n).fillWin + errs }
    else s

/-- A marker error (R118): counted, against MARK_LIM too; VERIFY falls to ALIGN, UP on the fourth in a row. -/
def State.markerError (s : State) (n : Nat) : State :=
  let x := s.ln n
  let s := (((s.bump48 (Reg.laneMarkErrLoCount n) 1).laneFlag n (Reg.laneErrMarker n)).ev (0x080 + 4 * (n / 4))).setLn n
    { x with good := 0, badRun := x.badRun + 1, markWin := x.markWin + 1 }
  if s.tstate n = laneVerify then s.laneToAlign n
  else if 4 ≤ x.badRun + 1 then (s.bump (Reg.laneEventsAlignLoss n)).laneToAlign n
  else s

/-- A timing superblock brought no good timing frame (R113, Table LE-6). -/
def State.noTimingFrame (s : State) (n : Nat) : State :=
  let x := s.ln n
  let s := (s.setLn n { x with okRun := 0, noRun := 0, missed := x.missed + 1 }).ttKeep n none
  if s.tstate n = laneUp ∧ 16 ≤ x.missed + 1 then s.laneToVerify n x.rxMsn else s

/-- The bits of a superblock without stuffing and scrambling, the number of stuff bits taken out, the number of violations, and the
state that counts them (R107, R108). From a quiet partner the bits begin with the 64 scrambled UI that end the wake burst (R123), which
set the descrambler. -/
def State.lineBits (s : State) (n : Nat) (bits : List Bool) : List Bool × Nat × Nat × State :=
  let x := s.ln n
  let bits := if s.on (Reg.laneCfgPolRx n) then bits.map (!·) else bits
  let wake := if s.on (Reg.laneStateQuietRx n) && decide (1120 ≤ bits.length) then 64 else 0
  let (kept, removed, viol, run) := destuff (if wake = 0 then x.rxRun else (0, false)) (bits.drop wake)
  let (data, h) := descramble (descramble x.dscr (bits.take wake)).2 kept
  let s := s.setLn n { x with rxRun := run, dscr := h }
  let s := (s.bump48 (Reg.laneStuffRxLoCount n) removed).evN (0x082 + 4 * (n / 4)) removed
  (data, removed, viol, s.when (viol != 0) fun s => (s.bump48 (Reg.laneStuffViolLoCount n) viol).laneFlag n (Reg.laneErrStuffViol n))

/-- CRC-16 over bits in order. -/
def crc16bits (l : List Bool) : Nat := l.foldl (crcBit 16 0x1021) 0xFFFF

/-- A superblock whose SYNC or MSN is not the one due (R118): extension and stream count where the lane stays UP (R111, R126). By the count
of superblocks a timing superblock, it brings no good timing frame, whatever its CRC (DESIGN CHOICE, log entry 72). -/
def State.superblockBad (s : State) (n want : Nat) (payload : List Bool) : State :=
  let s := s.markerError n
  let s := s.when (s.tstate n == laneUp) fun s => s.extReceived n payload (want == 0)
  let s := s.when (s.tstate n == laneUp && want != 0) fun s => s.streamReceived n payload
  s.when (want == 0 && decide (laneVerify ≤ s.tstate n)) fun s => s.noTimingFrame n

/-- A superblock whose SYNC and MSN are the ones due: its extension, its data or its timing frame (R111–R113). -/
def State.superblockGood (s : State) (n msn : Nat) (payload : List Bool) : State :=
  let s := s.extReceived n payload (msn == 0)
  let s := s.when (s.tstate n == laneUp && msn != 0) fun s => s.streamReceived n payload
  let bad := msn = 0 ∧ crc16bits ((payload.drop 24).take 984) ≠ ofBits ((payload.drop 1008).take 16)
  (s.when (decide bad) fun s => (s.laneFlag n (Reg.laneErrTfCrc n)).noTimingFrame n).laneUpCheck n

/-- The place on the line, from the first of `bits` on, of the bit that destuffing keeps as number `i` (R109). -/
def linePlace : Nat × Bool → Nat → List Bool → Nat
  | _, _, [] => 0
  | (c, v), i, b :: l =>
    if c = 23 then 1 + linePlace (0, v) i l
    else if i = 0 then 0
    else 1 + linePlace (if 0 < c ∧ b = v then c + 1 else 1, b) (i - 1) l

/-- The stamps of the frames whose first bit the superblock brought (R206): each bit is located by its line-bit position from the marker,
whose place is known as an engine knows it (R186, R187): `place` gives that position, `edges` the cycles in which the samplers saw the
recovered cycle's boundary. Where no engine has measured the phase of the recovered clock, the frame keeps no stamp. -/
def State.daStamps (s : State) (n bitPos : Nat) (edges : Nat × Nat) (place : Nat → Nat) : State :=
  let x := s.ln n
  let e := s.eng n
  let tb := s.destTb n
  let stamp (o : Nat) : Option Nat := if e.phis = [] then none else
    some <| s.ttStamp n tb (s.atb tb).t (e.anchorCycle edges.1 edges.2 - edges.1) (bitPos + place (56 + 8 * o)) e.phis 0 (-(s.cal (0x080 + n)))
  s.setLn n { x with rxDa := x.rxDa ++ x.rx.das.map stamp, rx := { x.rx with das := [] } }

/-- The frame whose stamp lane `n` has kept longest is taken. -/
def State.daTaken (s : State) (n : Nat) : State := s.setLn n { s.ln n with rxDa := (s.ln n).rxDa.drop 1 }

/-- A lane in VERIFY or UP receives a superblock, from its marker's first line bit to its last stuff bit, its marker
at K4-rate cycle `cycle` of the recovered clock and bit `bitPos`; the samplers of K4's rising and falling edge saw that cycle's
boundary in the two local cycles `edges`, the first being the present one (R186). Every marker at the place where one is due is passed to
the engine, one with another MSN or SYNC too (R116; DEDUCED, log entry 39). The MSN due is one above the last that was due: a marker error
does not move the count (DESIGN CHOICE, log entry 72). -/
def execSuperblockReceived (lane : Fin 128) (bits : List Bool) (cycle bitPos : Nat) (edges : Nat × Nat) (s : State) : Res :=
  let n := lane.val
  let st := s.tstate n
  if !s.isLeat n || decide (st < laneTrain) || decide (laneUp < st) then .next s
  else
    let x := s.ln n
    let resumed := s.on (Reg.laneStateQuietRx n)
    let (data, removed, viol, s) := s.lineBits n bits
    if st < laneVerify then .next s
    else
      let sync := ofBits (data.take 24)
      let msn := ofBits ((data.drop 24).take 8)
      let want := if resumed then msn else (x.rxMsn + 1) % 100
      let s := s.setLn n { s.ln n with rxMsn := want }
      let seen := if sync = 0xB5C2E9 ∧ msn ≤ 99 then 0 else min 2 (x.seen + 1)
      let s := (s.setLn n { s.ln n with seen := seen }).wr (Reg.laneManStatusMarkerSeen n) (b2n (decide (seen ≤ 1)))
      let wake := if resumed && decide (1120 ≤ bits.length) then 64 else 0
      let raw := if s.on (Reg.laneCfgPolRx n) then bits.map (!·) else bits
      let place := fun i => linePlace (if wake = 0 then x.rxRun else (0, false)) i (raw.drop wake)
      let (mk, s) := s.ttRxMark n cycle bitPos x.rxStuff x.rxErr edges.1 edges.2
      let s := s.setLn n { s.ln n with rxStuff := removed, rxErr := viol != 0 || data.length != 1056 }
      if sync ≠ 0xB5C2E9 ∨ 99 < msn ∨ msn ≠ want then .next ((s.superblockBad n want (data.drop 32)).daStamps n bitPos edges place)
      else
        let s := s.setLn n { s.ln n with good := min 64 (x.good + 1), badRun := 0 }
        let s := s.when (resumed && msn != 0) fun s => s.wr (Reg.laneStateQuietRx n) 0
        .next ((s.when (msn == 0) fun s => s.ttKeep n mk).superblockGood n msn (data.drop 32) |>.daStamps n bitPos edges place)

/-- A timing frame with a good CRC is taken (R113): training, quiet and fill flags, and the timing channel. -/
def execTimingFrameReceived (lane : Fin 128) (frame : List Byte) (s : State) : Res :=
  let n := lane.val
  let st := s.tstate n
  if !s.isLeat n || st != laneVerify && st != laneUp || frame.length != 125
      || crc16 (frame.take 123) != beAt frame 123 2 then .next s
  else
    let x := s.ln n
    let ok := bit (u8 frame 0) 4
    let fillOn := bit (u8 frame 0) 2
    let s := s.setLn n { x with missed := 0, okRun := if ok then min 2 (x.okRun + 1) else 0
                                noRun := if ok then 0 else x.noRun + 1, fillOn := fillOn }
    let s := s.wr (Reg.laneStateQuietRx n) (b2n (bit (u8 frame 0) 3))
    let s := s.ttRecv n (beAt frame 1 2) (slice frame 3 120)
    let s := if st = laneUp ∧ ¬ ok ∧ 2 ≤ x.noRun + 1 then s.laneToVerify n x.rxMsn else s.laneUpCheck n
    .next (s.wr (Reg.lanePrbsStatusLock n) (b2n (s.tstate n == laneUp && fillOn)))

/-! ## Quiet (R124) -/

/-- IDLE_US without anything to carry: the next timing frame says QUIET_NEXT. -/
def execQuietEntry (lane : Fin 128) (s : State) : Res :=
  let n := lane.val
  let x := s.ln n
  if s.isLeat n && s.tstate n == laneUp && s.on (Reg.laneCfgIdleEn n) && x.quiet == 0 && s.nothingToSend n then
    .next (s.setLn n { x with quiet := 1 })
  else .next s

/-- A frame arrives for a quiet transmitter: the entry is cancelled, or an exit is scheduled. -/
def execQuietExitRequest (lane : Fin 128) (s : State) : Res :=
  let n := lane.val
  let x := s.ln n
  match x.quiet with
  | 1 => .next (s.setLn n { x with quiet := 0 })
  | 2 | 5 => .next (s.setLn n { x with quiet := 3 })
  | 6 => .next (s.setLn n { x with quiet := 4 })
  | 8 => .next (s.setLn n { x with quiet := 7 })
  | _ => .next s

/-- The wake burst starts so that it ends at a superblock boundary (R124): one boundary lies inside its 2 048 UI. The burst of a wake by the
timer ends where a timing superblock begins: it starts while the superblock with MSN 98 is counted. -/
def execQuietBurstStart (lane : Fin 128) (s : State) : Res :=
  let n := lane.val
  let x := s.ln n
  match x.quiet with
  | 3 => .next ((s.setLn n { x with quiet := 4 }).burst n)
  | 5 => if x.msn = 99 then .next ((s.setLn n { x with quiet := 6 }).burst n) else .next s
  | _ => .next s

/-- Every 1 ms a quiet transmitter wakes for one burst and one timing superblock. -/
def execQuietWakeTimer (lane : Fin 128) (s : State) : Res :=
  let x := s.ln lane.val
  if x.quiet = 2 then .next (s.setLn lane.val { x with quiet := 5 }) else .next s

/-! ## Health and PRBS (R125 to R127) -/

/-- A 100 ms window ends (R127). -/
def execLaneHealthWindow (lane : Fin 128) (s : State) : Res :=
  let n := lane.val
  let x := s.ln n
  if !s.isLeat n then .next s
  else
    let up := s.tstate n == laneUp
    let bad := decide (s.rd (Reg.laneHlthCfgMarkLim n) < x.markWin) || decide (2 ^ s.rd (Reg.laneHlthCfgFillExp n) < x.fillWin)
    let h := if bad || !up then 0 else if x.whole then 1 else s.rd (Reg.laneStateHealth n)
    let s := (s.wr (Reg.laneStateHealth n) h).setLn n { x with markWin := 0, fillWin := 0, whole := up }
    .next (s.when (h == 1) fun s => s.memberStart n)

/-- CLEAR zeroes PRBS_BITS and PRBS_ERR (R125). -/
def execPrbsClear (lane : Fin 128) (s : State) : Res :=
  .next ((s.zero48 (Reg.lanePrbsBitsLoCount lane.val)).zero48 (Reg.lanePrbsErrLoCount lane.val))

/-- In LINE mode a block of 1 024 bits ends (R125): the generator sends as many, and the checker, seeded by the 31
bits before the block where it is not locked, counts the block's errors. -/
def execPrbsCheckerBlock (lane : Fin 128) (seed : Fin 2147483648) (bits : List Bool) (s : State) : Res :=
  let n := lane.val
  if !s.prbsActive n then .next s
  else
    let x := s.ln n
    let (w, t) := prbsTaps (s.rd (Reg.lanePrbsCtlPatTx n))
    let (sent, g) := prbs w t 1024 (if x.gen = 0 then 2 ^ w - 1 else x.gen)
    let locked := s.on (Reg.lanePrbsStatusLock n)
    let (w, t) := prbsTaps (s.rd (Reg.lanePrbsCtlPatRx n))
    let seed := if s.on (Reg.laneCfgPolRx n) then 2 ^ 31 - 1 - seed.val else seed.val
    let (want, c) := prbs w t 1024 (if locked then x.chk else seed % 2 ^ w)
    let got := if s.on (Reg.laneCfgPolRx n) then bits.map (!·) else bits
    let errs := ((got.zip want).filter fun p => p.1 != p.2).length
    let s := (s.setLn n { x with gen := g, chk := c }).sendLine n sent
    let s := s.when locked fun s =>
      (s.bump48 (Reg.lanePrbsBitsLoCount n) 1024).bump48 (Reg.lanePrbsErrLoCount n) errs
    .next (s.wr (Reg.lanePrbsStatusLock n) (b2n (if locked then decide (errs < 256) else errs == 0)))

/-! ## Manual commands (R121, R122)

MANUAL_TRAIN and RELEASE of a lane that is not held are answered WRONG_STATE, and HOLD ends manual mode (DESIGN CHOICE, log entry 72). -/

/-- The result of a manual command. -/
def State.manResult (s : State) (n r : Nat) : State := s.wr (Reg.laneManStatusResult n) r

/-- The checks every MAN_CMD meets, in order: 1 STALE, 2 NOT_ALLOWED, 0 passed. -/
def State.manCheck (s : State) (n gen : Nat) : Nat :=
  if gen ≠ s.rd (Reg.laneStateGen n) then 1 else if !s.on (Reg.laneCfgManualAllow n) then 2 else 0

/-- A LEAT lane leaves its hold for DETECT, where its quad allows it. -/
def State.laneRelease (s : State) (n : Nat) : State :=
  if s.isLeat n && s.tstate n == laneDown && s.on (Reg.laneStateQpllLock n) && s.laneOn n && !s.laneHeld n then
    s.laneToDetect n
  else s

/-- Code 0 is not checked, changes nothing and its result is OK (R425). -/
def execLaneManNop (lane : Fin 128) (s : State) : Res := .next (s.manResult lane.val 0)

/-- MANUAL_TRAIN leaves the hold with manual alignment. -/
def execLaneManualTrain (lane : Fin 128) (gen : Fin 65536) (s : State) : Res :=
  let n := lane.val
  let c := s.manCheck n gen.val
  if c ≠ 0 then .next (s.manResult n c)
  else if !s.isLeat n || !(s.ln n).hostHeld || s.rd (Reg.lanePrbsCtlMode n) == 1 then .next (s.manResult n 3)
  else
    let s := (s.setLn n { s.ln n with hostHeld := false }).wr (Reg.laneStateManual n) 1
    .next (((s.updHeld n).laneRelease n).manResult n 0)

/-- SLIP moves the word boundary by one bit in manual ALIGN. -/
def execLaneSlip (lane : Fin 128) (gen : Fin 65536) (s : State) : Res :=
  let n := lane.val
  let c := s.manCheck n gen.val
  if c ≠ 0 then .next (s.manResult n c)
  else if !s.isLeat n || !s.on (Reg.laneStateManual n) || s.tstate n != laneAlign then .next (s.manResult n 3)
  else .next ((s.wrs [(Reg.laneStateSlip n, (s.rd (Reg.laneStateSlip n) + 1) % 32), (Reg.laneManStatusMarkerSeen n, 0)]).manResult n 0)

/-- ACCEPT with MARKER_SEEN = 1 takes manual ALIGN to VERIFY. -/
def execLaneAccept (lane : Fin 128) (gen : Fin 65536) (s : State) : Res :=
  let n := lane.val
  let c := s.manCheck n gen.val
  if c ≠ 0 then .next (s.manResult n c)
  else if !s.isLeat n || !s.on (Reg.laneStateManual n) || s.tstate n != laneAlign || !s.on (Reg.laneManStatusMarkerSeen n) then
    .next (s.manResult n 3)
  else .next ((s.laneToVerify n (s.ln n).rxMsn).manResult n 0)

/-- A reserved code is answered WRONG_STATE (Table LE-11). -/
def execLaneManReserved (lane : Fin 128) (gen : Fin 65536) (s : State) : Res :=
  let c := s.manCheck lane.val gen.val
  .next (s.manResult lane.val (if c = 0 then 3 else c))

/-! ## The LANES record (R130, R131) -/

/-- LANES passes R131. `rcs`: an enabled RCS names the lane; `timing`: TRANSFER or TIMEBASES uses it; `portRcs`: a
lane of its port is named by an enabled RCS. -/
def checkLanes (rcs timing portRcs : Nat → Bool) (v : List Byte) : Bool :=
  v.length == 1152
    && (List.range 32).all (fun q => decide (u8 v (4 * q) ≤ 2) && zeros v (4 * q + 1) 3)
    && (List.range 128).all fun n =>
      let o := 128 + 8 * n
      let mode := u8 v o
      let fl := u8 v (o + 1)
      let idle := bit fl 2
      let man := bit fl 3
      let self := bit fl 4
      decide (mode ≤ 2) && decide (fl < 32) && decide (u8 v (o + 2) ≤ 15) && decide (u8 v (o + 3) ≤ 31)
        && decide (u8 v (o + 4) ≤ 7) && decide (u8 v (o + 6) ≤ 40)
        && (mode == 0 || u8 v (4 * (n / 4)) != 0)
        && (mode == 1 || (!idle && !self)) && !(idle && self)
        && !((idle || man) && (rcs n || timing n)) && !(man && portRcs n)

/-- LANES is applied (R130). -/
def applyLanes (v : List Byte) (s : State) : State :=
  s.each (List.range 128) fun s n =>
    let o := 128 + 8 * n
    let fl := u8 v (o + 1)
    s.wrs [(Reg.laneCfgMode n, u8 v o), (Reg.laneCfgQrate n, u8 v (4 * (n / 4))), (Reg.laneCfgPolTx n, fl), (Reg.laneCfgPolRx n, fl / 2),
      (Reg.laneCfgIdleEn n, fl / 4), (Reg.laneCfgManualAllow n, fl / 8), (Reg.laneCfgSelftest n, fl / 16),
      (Reg.laneTxeqPre n, u8 v (o + 2)), (Reg.laneTxeqPost n, u8 v (o + 3)), (Reg.laneTxeqSwing n, orDef (u8 v (o + 4)) 4),
      (Reg.laneHlthCfgMarkLim n, orDef (u8 v (o + 5)) 4), (Reg.laneHlthCfgFillExp n, orDef (u8 v (o + 6)) 10),
      (Reg.laneHlthCfgIdleUs n, orDef (u8 v (o + 7)) 10)]

end Sys2Proof.Machine
end

