-- ==== Sys2Proof/Machine/Ports.lean ====
section
/-! DEFINITION. Standard Ethernet ports (06_ethernet_ports): link state, receive checks, classification, PFC, ESMC,
and the frames that enter on ports and Leat lanes. -/
namespace Sys2Proof.Machine

/-! ## Link state (R135) -/

/-- OFF (Table EP-4). -/
def portOff : Nat := 0
/-- LOCK. -/
def portLock : Nat := 1
/-- UP. -/
def portUp : Nat := 2
/-- RFAULT. -/
def portRfault : Nat := 3

/-- Link state of port `n`. -/
def State.portState (s : State) (n : Nat) : Nat := s.rd (Reg.portLinkState n)

/-- The lanes of port `n` (Table EP-1). -/
def State.lanesOf (s : State) (n : Nat) : List Nat := (List.range (portLanes (s.rd (Reg.portCfgMode n)))).map (n + ·)

/-- The bits of PORT.ERR. -/
def State.portErr (s : State) (n : Nat) : Nat :=
  s.wordOf [Reg.portErrLockLoss n, Reg.portErrLockTimeout n, Reg.portErrHiBer n, Reg.portErrTcSat n]

/-- A bit of PORT.ERR becomes set and is reported (Table FL-1). -/
def State.portFlag (s : State) (n : Nat) (f : Fld) : State :=
  if s.on f then s
  else let s := s.wr f 1
       s.report (0x80 + n) (s.portErr n)

/-- The link state changes: leaving UP ends frames and tells the fabric; leaving UP and RFAULT loses the recovered
clocks. -/
def State.portGo (s : State) (n st : Nat) : State :=
  let old := s.portState n
  let s := s.wr (Reg.portLinkState n) st
  let s := s.when ((old == portUp) != (st == portUp)) fun s => s.intr 6
  let s := s.when (st == portUp) fun s => s.memberStart n
  let s := s.when (old == portUp && st != portUp) fun s => (({ s with prt := Tab.set s.prt n { Tab.get s.prt n {} with own := [] } {} }).cutArrival n).linkLeft n
  s.when (decide (2 ≤ old) && decide (st < 2)) fun s => s.each (s.lanesOf n) State.rcsLost

/-- What a port's transmitter sends (Table EP-3). -/
inductive PortTx where
  | electricalIdle
  | idle
  | remoteFault
  | frames
  deriving DecidableEq, Repr

/-- What port `n` sends: electrical idle in OFF, idle blocks in LOCK (remote fault after a lost lock or a lock timeout) and in RFAULT,
frames in UP; with the supply out of range its lanes carry no signal (R409). -/
def State.portTx (s : State) (n : Nat) : PortTx :=
  if !s.pins.inRange then .electricalIdle else match s.portState n with
  | 0 => .electricalIdle
  | 1 => if (Tab.get s.prt n {}).rfault then .remoteFault else .idle
  | 2 => .frames
  | _ => .idle

/-- Port `n` sends remote fault while in LOCK, or stops. -/
def State.setRfault (s : State) (n : Nat) (b : Bool) : State :=
  { s with prt := Tab.set s.prt n { Tab.get s.prt n {} with rfault := b } {} }

/-- The receiver of port `n` measures the deskew of its lanes as it locks (R146): a free value. -/
def State.deskewMeasure (s : State) (n : Nat) : State :=
  if s.rd (Reg.portCfgMode n) ≤ 2 then s
  else { s with prt := Tab.set s.prt n { Tab.get s.prt n {} with deskew := Config.freeNat s.free } {} }.draw

/-- The port may leave OFF (Table EP-3). -/
def State.portMay (s : State) (n : Nat) : Bool :=
  s.isPort n && s.on (Reg.laneStateQpllLock n) && s.laneOn n && !s.pwr.timing && !s.inPhase 10 && !s.flt.holds.contains n
    && (s.lanesOf n).all fun l => !s.laneHeld l

/-- OFF to LOCK where the port may. -/
def State.portTry (s : State) (n : Nat) : State :=
  if s.portState n = portOff && s.portMay n then (s.setRfault n false).portGo n portLock else s

/-- The port goes to OFF: electrical idle. -/
def State.portToOff (s : State) (n : Nat) : State := if s.isPort n then s.portGo n portOff else s

/-- 1 ms of lock: LOCK to UP. -/
def execPortLockAchieved (port : Fin 128) (s : State) : Res :=
  if s.portState port.val = portLock then .next ((s.deskewMeasure port.val).portGo port.val portUp) else .next s

/-- 10 ms in LOCK: counted, and the far end is told by remote fault. -/
def execPortLockTimeout (port : Fin 128) (s : State) : Res :=
  if s.portState port.val = portLock then .next ((s.setRfault port.val true).portFlag port.val (Reg.portErrLockTimeout port.val)) else .next s

/-- Remote fault ordered sets: UP to RFAULT. -/
def execPortRemoteFaultRx (port : Fin 128) (s : State) : Res :=
  if s.portState port.val = portUp then .next (s.portGo port.val portRfault) else .next s

/-- 128 columns without remote fault: RFAULT to UP. -/
def execPortRemoteFaultClear (port : Fin 128) (s : State) : Res :=
  if s.portState port.val = portRfault then .next (s.portGo port.val portUp) else .next s

/-- Lock lost in UP or RFAULT: LOCK (Table EP-3). -/
def execPortLockLoss (port : Fin 128) (hiBer : Bool) (s : State) : Res :=
  let n := port.val
  if s.portState n < 2 then .next s
  else
    let s := ((s.setRfault n true).portGo n portLock).when hiBer fun s => s.portFlag n (Reg.portErrHiBer n)
    .next (s.portFlag n (Reg.portErrLockLoss n))

/-! ## Quads and holds (R105, R118, R122) -/

/-- A quad PLL locks: its lanes and ports may leave DOWN and OFF. -/
def execQuadPllLock (quad : Fin 32) (s : State) : Res :=
  let q := quad.val
  if !bit s.boot.quadsOn q || !s.pdOn (5 + q / 8) then .next s
  else
    let s := { s with boot := { s.boot with quadsDone := setBit s.boot.quadsDone q true } }.unreport (0x60 + q)
    .next (s.each ((List.range 4).map (4 * q + ·)) fun s n => (s.wr (Reg.laneStateQpllLock n) 1).portTry n)

/-- The lanes and ports of quad `q` stop: DOWN and OFF. -/
def State.quadStop (s : State) (q : Nat) : State :=
  s.each ((List.range 4).map (4 * q + ·)) fun s n =>
    let s := (s.wr (Reg.laneStateQpllLock n) 0).when (s.isLeat n) fun s => s.laneToDown n
    s.portToOff n

/-- A quad PLL unlocks: every lane goes to DOWN, every port to OFF, and it is reported. -/
def execQuadPllUnlock (quad : Fin 32) (s : State) : Res :=
  let q := quad.val
  if !s.on (Reg.laneStateQpllLock (4 * q)) then .next s
  else
    let s := s.each ((List.range 4).map (4 * q + ·)) fun s n =>
      s.when (s.on (Reg.laneCfgMode n)) fun s => s.laneFlag n (Reg.laneErrQpllUnlock n)
    .next ((s.quadStop q).report (0x60 + q) q)

/-- HOLD takes a LEAT lane to DOWN and holds it, or takes an ETH lane's port to OFF. -/
def execLaneHold (lane : Fin 128) (gen : Fin 65536) (s : State) : Res :=
  let n := lane.val
  let c := s.manCheck n gen.val
  if c ≠ 0 then .next (s.manResult n c)
  else if !s.on (Reg.laneCfgMode n) then .next (s.manResult n 3)
  else
    let s := (s.setLn n { s.ln n with hostHeld := true }).wr (Reg.laneStateManual n) 0
    let s := if s.isLeat n then s.laneToDown n else s.portToOff (s.portOf n)
    .next ((s.updHeld n).manResult n 0)

/-- RELEASE ends the hold and manual alignment. -/
def execLaneRelease (lane : Fin 128) (gen : Fin 65536) (s : State) : Res :=
  let n := lane.val
  let c := s.manCheck n gen.val
  if c ≠ 0 then .next (s.manResult n c)
  else if s.rd (Reg.lanePrbsCtlMode n) == 1 || !((s.ln n).hostHeld || s.on (Reg.laneStateManual n)) then .next (s.manResult n 3)
  else
    let held := (s.ln n).hostHeld
    let s := (s.setLn n { s.ln n with hostHeld := false, tried := 0 }).wr (Reg.laneStateManual n) 0
    let s := s.updHeld n
    let s := if s.isLeat n then s.when held fun s => s.laneRelease n else s.portTry (s.portOf n)
    .next (s.manResult n 0)

/-- A HALT_PORT reaction holds lane or port `n` (R333): a port goes to OFF, a lane is held as under HOLD, which takes the port of an ETH
lane to OFF (R122). -/
def State.haltHold (s : State) (n : Nat) : State :=
  let s := { s with flt := { s.flt with holds := if s.flt.holds.contains n then s.flt.holds else n :: s.flt.holds } }
  if s.isPort n then s.portToOff n else (if s.isLeat n then s.laneToDown n else s.portToOff (s.portOf n)).updHeld n

/-- The hold of a HALT_PORT reaction ends, as after RELEASE. -/
def State.haltRelease (s : State) (n : Nat) : State :=
  if !s.flt.holds.contains n then s
  else
    let s := { s with flt := { s.flt with holds := s.flt.holds.erase n } }
    if s.isPort n then s.portTry n
    else
      let s := s.updHeld n
      if s.isLeat n then s.laneRelease n else s.portTry (s.portOf n)

/-! ## Frames for the host (R400) -/

/-- The address of port `n`. -/
def State.portMac (s : State) (n : Nat) : Nat := s.rd (Reg.portMacHiMac n) * 2 ^ 32 + s.rd (Reg.portMacLoMac n)

/-- The reason with which a frame entering at `n` goes to the host, if it does. -/
def State.hostReason (s : State) (n : Nat) (b : List Byte) : Option Nat :=
  let da := beAt b 0 6
  let port := s.isPort n
  let ptp := ptpAt b
  let pd := match ptp with
    | some (o, _, _) => ptpType b o == 2 || ptpType b o == 3
    | none => false
  if port && (da / 16 == 0x0180C200000 || beAt b 12 2 == 0x8809) then some 0
  else if port && s.rd (Reg.portPtpCfgTcMode n) == 2 && pd then some 1
  else if bit s.hif.ptpTrap n && ptp.isSome then some 2
  else if port && da == s.portMac n then some 3
  else none

/-! ## Control frames (R138, R141, R144) -/

/-- The VID, PCP and whether the frame counts as tagged (R139, R140). -/
def State.classify (s : State) (n : Nat) (b : List Byte) : Nat × Nat × Bool :=
  match tciOf b with
  | some t => if t % 4096 = 0 then (s.rd (Reg.portVlanPvid n), t / 8192, false) else (t % 4096, t / 8192, true)
  | none => (s.rd (Reg.portVlanPvid n), s.rd (Reg.portVlanDefPcp n), false)

/-- The class of a frame received at port `n` (R140). -/
def State.portClass (s : State) (n : Nat) (b : List Byte) : Nat := s.rd (Reg.portPcpMapMap n) / 8 ^ (s.classify n b).2.1 % 8

/-- A good frame of port `n` with receive stamp `t` is counted: at the port, in its class, and in its window (R347, R355). -/
def State.rxGood (s : State) (n : Nat) (b : List Byte) (t : Nat) : State :=
  let s' := (s.bump48 (Reg.portRxFramesLoCount n) 1).bump48 (Reg.portRxBytesLoCount n) b.length
  (s'.fixedRx n (s.portClass n b) b.length).bwAdd n false (s.destTb n) t b.length

/-- The time that `len` bytes take on the line of port `n`, 2^-16 ns. -/
def State.byteTime (s : State) (n len : Nat) : Nat := (roundDiv (len * 8 * 1000 * 65536) (s.rateOf n)).toNat

/-- The receive stamp of a frame of `len` bytes whose last bit arrives now at port `n` (R146). -/
def State.endStamp (s : State) (n len : Nat) : Nat := s.rxTime n (s.destTb n) (s.byteTime n len)

/-- A PFC frame (R141): the enabled classes are paused, or released by a time of 0. -/
def State.pfcReceived (s : State) (n : Nat) (b : List Byte) : State :=
  if !s.on (Reg.portPfcCfgPfcEn n) then s.bump48 (Reg.portRxCtrlDropLoCount n) 1
  else
    let s := s.bump48 (Reg.portRxPfcLoCount n) 1
    let en := beAt b 16 2
    let t (c : Nat) : Nat := beAt b (18 + 2 * c) 2
    let mask := (List.range 8).foldl (fun m c => if bit en c then setBit m c (t c != 0) else m) (s.rd (Reg.fabDestStatusPaused n))
    let p := Tab.get s.prt n {}
    let pause := (List.range 8).foldl (fun l c => if bit en c then Tab.set l c (t c) 0 else l) p.pause
    let s := { s with prt := Tab.set s.prt n { p with pause := pause } {} }
    (s.setPaused n mask).wr (Reg.portLinkRxPaused n) mask

/-- The rank that an SSM code and an enhanced code give (Table FT-1). -/
def esmcRank (option2 : Bool) (ssm enh : Nat) : Nat :=
  let top := if enh = 0x21 then 15 else if enh = 0x20 then 14 else if enh = 0x23 then 13 else if enh = 0xFF then 12 else 0
  let plain (r : Nat) : Nat := if enh = 0xFF then r else 0
  if option2 then
    match ssm with
    | 1 => top
    | 0 => plain 11
    | 7 => plain 10
    | 4 => plain 9
    | 13 => plain 7
    | 10 => if enh = 0x22 then 6 else plain 5
    | 12 => plain 4
    | 14 => plain 3
    | _ => 0
  else
    match ssm with
    | 2 => top
    | 4 => plain 10
    | 8 => plain 8
    | 11 => if enh = 0x22 then 6 else plain 5
    | _ => 0

/-- The codes sent for rank `r` (R68, R145): the nearest lower rank of the option that has one, else DNU or DUS. -/
def esmcCodes (option2 : Bool) (r : Nat) : Nat × Nat :=
  if option2 then
    if r = 15 then (1, 0x21) else if r = 14 then (1, 0x20) else if r = 13 then (1, 0x23) else if r = 12 then (1, 0xFF)
    else if r = 11 then (0, 0xFF) else if r = 10 then (7, 0xFF) else if r = 9 then (4, 0xFF) else if 7 ≤ r then (13, 0xFF)
    else if r = 6 then (10, 0x22) else if r = 5 then (10, 0xFF) else if r = 4 then (12, 0xFF) else if r = 3 then (14, 0xFF)
    else (15, 0xFF)
  else
    if r = 15 then (2, 0x21) else if r = 14 then (2, 0x20) else if r = 13 then (2, 0x23) else if r = 12 then (2, 0xFF)
    else if 10 ≤ r then (4, 0xFF) else if 8 ≤ r then (8, 0xFF) else if 6 ≤ r then (11, 0x22) else if r = 5 then (11, 0xFF)
    else (15, 0xFF)

/-- The QL TLV's code and the enhanced TLV's code of the TLVs `l` of an ESMC PDU. -/
def esmcTlvs : Nat → List Byte → Option Nat × Nat
  | 0, _ => (none, 0xFF)
  | k + 1, l =>
    let ty := u8 l 0
    let n := beAt l 1 2
    if l.length < 4 ∨ n < 4 then (none, 0xFF)
    else
      let (ql, enh) := esmcTlvs k (l.drop n)
      if ty = 1 ∧ n = 4 then (some (u8 l 3 % 16), enh)
      else if ty = 2 ∧ n = 20 then (ql, u8 l 3)
      else (ql, enh)

/-- The frame is an ESMC PDU (R144). -/
def isEsmc (b : List Byte) : Bool :=
  beAt b 0 6 == 0x0180C2000002 && beAt b 12 2 == 0x8809 && beAt b 14 1 == 0x0A && beAt b 15 3 == 0x0019A7

/-- An ESMC PDU (R144): its codes are latched and its rank taken, or it is dropped and counted. -/
def State.esmcReceived (s : State) (n : Nat) (b : List Byte) : State :=
  let (ql, enh) := esmcTlvs 4 ((bodyOf b).drop 24)
  match ql with
  | some ssm =>
    if !s.on (Reg.portCfgEsmcRx n) || !fcsGood b || u8 b 20 / 16 != 1 then s.bump48 (Reg.portEsmcBadLoCount n) 1
    else
      let s := s.wrs [(Reg.portEsmcRxAgeS n, 0), (Reg.portEsmcRxEnh n, enh), (Reg.portEsmcRxSsm n, ssm)]
      let r := esmcRank (s.on Reg.refselCfgQlOption) ssm enh
      s.each ((s.lanesOf n).flatMap s.rcsOfLane) fun s c =>
        if (s.cand c).esmcRank = r then s else (s.setCand c { s.cand c with esmcRank := r }).rankChange c
  | none => s.bump48 (Reg.portEsmcBadLoCount n) 1

/-- A good frame that the port consumes (R138), if it is one. -/
def State.consume (s : State) (n : Nat) (b : List Byte) : Option State :=
  if beAt b 12 2 = 0x8808 then
    if beAt b 14 2 = 0x0101 then some (s.pfcReceived n b) else some (s.bump48 (Reg.portRxCtrlDropLoCount n) 1)
  else if isEsmc b then some (s.esmcReceived n b)
  else none

/-- What the MAC counts of a frame that it drops (R136): an undersize or oversize one, or a bad FCS (`fcs`); of several faults the first in
this order alone (DESIGN CHOICE, log entry 72). -/
def State.macBad (s : State) (n len : Nat) (fcs : Bool) : Option State :=
  if len < 64 then some (s.bump48 (Reg.portRxUndersizeLoCount n) 1)
  else if s.rd (Reg.portMaxlenLen n) < len then some (s.bump48 (Reg.portRxOversizeLoCount n) 1)
  else if fcs then some (s.bump48 (Reg.portRxFcsErrLoCount n) 1)
  else none

/-- A PFC frame arrives at an open port (R141). -/
def execPfcFrameReceived (port : Fin 128) (bytes : List Byte) (s : State) : Res :=
  let n := port.val
  if s.portState n ≠ portUp ∨ beAt bytes 12 2 ≠ 0x8808 ∨ beAt bytes 14 2 ≠ 0x0101 then .next s
  else match s.macBad n bytes.length (!fcsGood bytes) with
    | some t => .next t
    | none => .next ((s.rxGood n bytes (s.endStamp n bytes.length)).pfcReceived n bytes)

/-- A class's pause timer runs out (R141). -/
def execPfcPauseExpire (port : Fin 128) (tc : Fin 8) (s : State) : Res :=
  let n := port.val
  if !s.isPort n then .next s
  else
    let m := setBit (s.rd (Reg.fabDestStatusPaused n)) tc.val false
    let p := Tab.get s.prt n {}
    let s := { s with prt := Tab.set s.prt n { p with pause := Tab.set p.pause tc.val 0 0 } {} }
    .next ((s.wr (Reg.fabDestStatusPaused n) m).wr (Reg.portLinkRxPaused n) m)

/-- A frame of the port's own leaves. -/
def State.portSend (s : State) (n : Nat) (body : List Byte) : State :=
  let b := body ++ List.replicate (60 - body.length) 0
  let b := b ++ fcsOf b
  ((s.send (.frame n b)).bump48 (Reg.portTxFramesLoCount n) 1).bump48 (Reg.portTxBytesLoCount n) b.length

/-- The line bytes of port frames with these bodies: padding, FCS, preamble and start-frame delimiter, and the gap between two (R137). -/
def ownBytes (l : List (List Byte)) : Nat := (l.map fun b => max 64 (b.length + 4) + 20).foldl (· + ·) 0

/-- The frames of the port's own that wait go out, once no frame is leaving and no PFC frame is due, which goes first (R142), and no guard of
a fixed-latency frame forbids it (R301). -/
def State.ownSend (s : State) (n : Nat) : State :=
  let p := Tab.get s.prt n {}
  if p.own = [] ∨ Tab.get s.fab.sending n 0 ≠ 0 ∨ Tab.get s.fab.pfc n 0 ≠ 0 ∨ s.flfClash n (s.lineCycles n (ownBytes p.own)) = true then s
  else
    { s with prt := Tab.set s.prt n { p with own := [] } {} }.each p.own fun s b => s.portSend n b

/-- A frame of the port's own is to go out. -/
def State.ownPush (s : State) (n : Nat) (b : List Byte) : State :=
  let p := Tab.get s.prt n {}
  { s with prt := Tab.set s.prt n { p with own := p.own ++ [b] } {} }.ownSend n

/-- The classes whose state is to be sent go out in one PFC frame (R142), where no guard of a fixed-latency frame forbids it (R301); nothing
leaves once a SCAN has stopped clocks (R372). -/
def execPfcFrameSend (port : Fin 128) (s : State) : Res :=
  let n := port.val
  let m := Tab.get s.fab.pfc n 0
  if s.portState n ≠ portUp ∨ m = 0 ∨ Tab.get s.fab.sending n 0 ≠ 0 ∨ s.frozen = true
      ∨ s.flfClash n (s.lineCycles n (ownBytes [[]])) = true then .next s
  else
    let q := s.rd (Reg.portPfcCfgQuanta n)
    let x := s.rd (Reg.fabDestStatusXoff n)
    let body := be 6 0x0180C2000001 ++ be 6 (s.portMac n) ++ be 2 0x8808 ++ be 2 0x0101 ++ be 2 m
      ++ (List.range 8).flatMap fun c => be 2 (if bit m c && bit x c then q else 0)
    let s := { s with fab := { s.fab with pfc := Tab.set s.fab.pfc n 0 0 } }
    .next (((s.portSend n body).bump48 (Reg.portTxPfcLoCount n) 1).ownSend n)

/-- Half of PFC_QUANTA has passed while XOFF holds: the classes held are due again (R142). -/
def execPfcRepeatTimer (port : Fin 128) (s : State) : Res :=
  let n := port.val
  if s.portState n ≠ portUp ∨ ¬ s.on (Reg.portPfcCfgPfcEn n) then .next s
  else
    let x := s.rd (Reg.fabDestStatusXoff n)
    let l := s.rd (Reg.portPfcCfgLossless n)
    let m := (List.range 8).foldl (fun m c => if bit x c && bit l c then setBit m c true else m) (Tab.get s.fab.pfc n 0)
    .next { s with fab := { s.fab with pfc := Tab.set s.fab.pfc n m 0 } }

/-- An ESMC PDU arrives at an open port (R144); one with a bad FCS counts in ESMC_BAD too. -/
def execEsmcPduReceived (port : Fin 128) (bytes : List Byte) (s : State) : Res :=
  let n := port.val
  if s.portState n ≠ portUp ∨ isEsmc bytes = false then .next s
  else match s.macBad n bytes.length (!fcsGood bytes) with
    | some t => .next (t.when (!fcsGood bytes) fun s => s.bump48 (Reg.portEsmcBadLoCount n) 1)
    | none => .next ((s.rxGood n bytes (s.endStamp n bytes.length)).esmcReceived n bytes)

/-- No valid PDU for 5 s: the rank becomes 0 (R66). -/
def execEsmcAgeTimeout (port : Fin 128) (s : State) : Res :=
  let n := port.val
  .next (s.each ((s.lanesOf n).flatMap s.rcsOfLane) fun s c =>
    if (s.cand c).esmcRank = 0 then s else (s.setCand c { s.cand c with esmcRank := 0 }).rankChange c)

/-- The device's ESMC PDU from port `n` (R145). -/
def State.esmcPdu (s : State) (n : Nat) (event : Bool) : List Byte :=
  let (ssm, enh) := esmcCodes (s.on Reg.refselCfgQlOption) (s.qlSent n)
  be 6 0x0180C2000002 ++ be 6 (s.portMac n) ++ be 2 0x8809 ++ be 1 0x0A ++ be 3 0x0019A7 ++ be 2 1
    ++ be 4 (2 ^ 28 + b2n event * 2 ^ 27) ++ be 1 1 ++ be 2 4 ++ be 1 ssm
    ++ (if s.on (Reg.portCfgEsmcExt n) then be 1 2 ++ be 2 20 ++ be 1 enh ++ s.nodeId ++ be 1 0 ++ be 7 0 else [])

/-- Every open port with ESMC_TX sends a PDU, behind a frame that is leaving and a PFC frame that is due (R142); not once a SCAN has
stopped clocks (R372). -/
def State.esmcSend (s : State) (event : Bool) : State :=
  if s.frozen then s
  else s.each (List.range 128) fun s n =>
    if s.on (Reg.portCfgEsmcTx n) && s.portState n == portUp then s.ownPush n (s.esmcPdu n event) else s

/-- One information PDU per second (R69). -/
def execEsmcInfoTick (s : State) : Res := .next (s.esmcSend false)

/-- An event PDU after a change of output rank (R69). -/
def execEsmcEventPdu (s : State) : Res :=
  if s.refsel.qlChanged then
    .next ({ s with refsel := { s.refsel with qlChanged := false } }.esmcSend true)
  else .next s

/-! ## Frames that enter (R136 to R140, R150, R112) -/

/-- The port's VLAN rules drop the frame (R139). -/
def State.vlanDrops (s : State) (n : Nat) (b : List Byte) : Bool :=
  let (vid, _, tagged) := s.classify n b
  let a := s.rd (Reg.portVlanAccept n)
  (a == 1 && !tagged) || (a == 2 && tagged)
    || (s.on (Reg.portVlanInFilter n) && !(match (s.vlanLookup vid).1 with | some v => s.vMember v n | none => false))

/-- The descriptor of a frame that enters at `n` (Tables TB-6, SW-1) with stamp time `t` on base `tb`. -/
def State.newFrame (s : State) (n : Nat) (b : List Byte) (tb t : Nat) : Frame :=
  { ingress := n, stamp := stampWord (s.tbValid tb) tb t, time := t, tb := tb, bytes := b, da := beAt b 0 6, sa := beAt b 6 6,
    etype := etypeOf b, tci := tciOf b }

/-- A frame from port `n` that the fabric takes: VID, class, trailer mark (R139, R140, R150). -/
def State.portFrame (s : State) (n : Nat) (b : List Byte) (tb t : Nat) : Frame :=
  let (vid, pri, _) := s.classify n b
  let c := s.portClass n b
  { s.newFrame n b tb t with vid := vid, pri := pri, iclass := c, trailer := bit (s.rd (Reg.portPtpCfgTrailerTc n)) c }

/-- The fabric takes the frame's first word and the bytes so far. -/
def State.arrive (s : State) (f : Frame) : State :=
  let (id, s) := s.enter { f with bytes := [] }
  let (ok, s) := s.grow id f.bytes
  if ok then { s with fab := { s.fab with arrive := Tab.set s.fab.arrive f.ingress id 0 } } else s

/-- More of the frame arriving at `n` is there (R296): its cells grow, and its copies that have started hand it on. -/
def State.arriveMore (s : State) (n : Nat) (b : List Byte) : State :=
  let id := Tab.get s.fab.arrive n 0
  if id = 0 ∨ (s.frame id).lost = true ∨ b.length ≤ (s.frame id).bytes.length then s
  else
    let (ok, s) := s.grow id b
    s.when ok fun s => s.feed id

/-- A frame has begun to arrive at `n` and has not ended. -/
def State.began (s : State) (n : Nat) : Bool := Tab.get s.fab.arrive n 0 != 0 || (Tab.get s.fab.cut n none).isSome

/-- The frame arriving at `n` ends with `b`, good or bad. Of one that is gone already only a bad end counts, for its RETRACT (R268); one that
is lost takes no more cells (R284). -/
def State.arrived (s : State) (n : Nat) (b : List Byte) (bad badFcs : Bool) : State :=
  let id := Tab.get s.fab.arrive n 0
  let note := Tab.get s.fab.cut n none
  let s := { s with fab := { s.fab with arrive := Tab.set s.fab.arrive n 0 0, cut := Tab.set s.fab.cut n none none } }
  match note with
  | some x => s.when bad fun s => s.retract x
  | none =>
    if id = 0 then s
    else
      let f := s.frame id
      let (ok, s) := if f.lost then (true, s) else (s.setFrame id { f with ended := true }).grow id b
      if ok || (s.frame id).lost then s.endFrame id bad badFcs else s.when bad fun s => s.retract f.note

/-- The bytes that are there show whether the frame is for the host: the header that the parser reads (Table SW-7), and of a UDP datagram
all up to the messageType (R147, R400; DEDUCED, log entry 62). -/
def headKnown (b : List Byte) : Bool :=
  let o := payloadOff b
  decide (24 ≤ b.length) && match etypeOf b with
    | 0x0800 => decide (o + 10 ≤ b.length) && (u8 b (o + 9) != 17 || decide (o + 4 * (u8 b o % 16) + 9 ≤ b.length))
    | 0x86DD => decide (o + 7 ≤ b.length) && (u8 b (o + 6) != 17 || decide (o + 49 ≤ b.length))
    | _ => true

/-- A frame arrives at port `port` (R136): as much of it as is there, which may be looked up and cut through before the end (R296) once its
header is known, or the frame whole. A frame for the host uses a SEQ of its stream too (R290). The port's VLAN rules come before the host's frames, but for those that R138 consumes (R139, DEDUCED, log
entry 62). `err`: the PCS found it broken. `fecCorr`, `fecBad`: FEC blocks corrected and not correctable since the
last frame (Table EP-9). -/
def execEthFrameReceived (port : Fin 128) (bytes : List Byte) (err : Bool) (raw : Nat) (head : Bool) (fecCorr fecBad : Nat)
    (s : State) : Res :=
  let n := port.val
  if s.portState n ≠ portUp ∨ s.isPort n = false then .next s
  else
    let s := (s.bump48 (Reg.portFecCorrLoCount n) fecCorr).bump48 (Reg.portFecUncorrLoCount n) fecBad
    let len := bytes.length
    let tb := s.destTb n
    let t := s.rxTime n tb raw
    let consumed := beAt bytes 12 2 == 0x8808 || isEsmc bytes
    let host := s.hostReason n bytes
    let k := streamOf n (s.portClass n bytes)
    let use (s : State) : State := s.seqUse k (etypeOf bytes)
    let began := s.began n
    if head then
      if began then .next (s.arriveMore n bytes)
      else if !s.framesOn || !headKnown bytes || consumed || host.isSome || s.vlanDrops n bytes then .next s
      else .next (s.arrive (s.portFrame n bytes tb t))
    else
      let fcs := err || !fcsGood bytes
      match s.macBad n len fcs with
      | some s =>
        let s := s.when (fcs && isEsmc bytes) fun s => s.bump48 (Reg.portEsmcBadLoCount n) 1
        let s := s.when (!began && s.framesOn && !consumed) fun s =>
          if host.isSome || s.vlanDrops n bytes then use s else s.arrive (s.portFrame n bytes tb t)
        .next (s.arrived n bytes true fcs)
      | none =>
        let s := s.rxGood n bytes t
        if began then .next (s.arrived n bytes false false)
        else match s.consume n bytes with
          | some s => .next s
          | none =>
            if !s.framesOn then .next s
            else if host != some 0 && s.vlanDrops n bytes then .next ((use s).bump48 (Reg.portRxVlanDropLoCount n) 1)
            else match host with
              | some r => .next ((use s).hostTrap (s.newFrame n bytes tb t) r)
              | none => .next ((s.arrive (s.portFrame n bytes tb t)).arrived n bytes false false)

/-- An encapsulated frame of length `flen` arrives on a Leat lane in UP (R112), as much as is there or whole, in class `tc`; `good` says
that it ended with the good terminator. Its stamp is the one that the lane counted from the superblock's marker (R206); `raw` locates
its first bit where the lane holds no such count. While the fabric takes no frames it is only counted (R347). Where the lane's stream reader drops bytes after a framing error, none arrives. -/
def execLeatFrameReceived (lane : Fin 128) (tc : Fin 8) (flen : Fin 16384) (bytes : List Byte) (good : Bool) (raw : Nat) (head : Bool)
    (s : State) : Res :=
  let n := lane.val
  let began := s.began n
  if s.tstate n ≠ laneUp ∨ s.isLeat n = false ∨ (s.framesOn = false ∧ head = true) ∨ (s.ln n).rx.phase = 4 then .next s
  else
    let len := bytes.length
    let tb := s.destTb n
    let t := ((s.ln n).rxDa.headD none).getD (s.rxTime n tb raw)
    let tci := (tciOf bytes).getD 0
    let f := { s.newFrame n bytes tb t with vid := tci % 4096, pri := tci / 8192, iclass := tc.val, len := flen.val }
    let host := s.hostReason n bytes
    if head then
      if began then .next (s.arriveMore n bytes) else if !headKnown bytes || host.isSome then .next s else .next ((s.daTaken n).arrive f)
    else
      let bad := !good || !fcsGood bytes || decide (len < 64) || len != flen.val
      let s := s.when (!began) fun s => s.daTaken n
      let s := s.when (!bad) fun s => (s.fixedRx n tc.val len).bwAdd n false tb t len
      if began then .next (s.arrived n bytes bad (!fcsGood bytes))
      else if !s.framesOn then .next s
      else match host with
        | some r => .next (let s := s.seqUse (streamOf n tc.val) f.etype; if bad then s else s.hostTrap f r)
        | none => .next ((s.arrive f).arrived n bytes bad (!fcsGood bytes))

/-! ## The PORTS record (R152, R153) -/

/-- FEC is allowed with the mode (Table EP-2). -/
def fecOk (mode fec : Nat) : Bool :=
  fec == 0 || (fec == 1 && decide (mode ≤ 3)) || (fec == 2 && decide (2 ≤ mode))

/-- PORTS passes R153. `laneMode`, `rate`: LANES mode of a lane and rate of its quad; `tbOn`: TIMEBASES enables a base;
`vids`: the image has that VLAN. -/
def checkPorts (laneMode rate : Nat → Nat) (tbOn vids : Nat → Bool) (v : List Byte) : Bool :=
  let mode (n : Nat) : Nat := u8 v (32 * n)
  let owner (l : Nat) : List Nat := (List.range 128).filter fun n => decide (n ≤ l) && decide (l < n + portLanes (mode n))
  v.length == 4096
    && (List.range 128).all (fun n =>
        let o := 32 * n
        let m := mode n
        let fl := u8 v (o + 2)
        let pvid := u16 v (o + 4)
        let mac := unbe (slice v (o + 16) 6)
        if m = 0 then zeros v o 32
        else decide (m ≤ 4) && fecOk m (u8 v (o + 1)) && decide (fl < 64) && decide (u8 v (o + 3) ≤ 2) && decide (pvid ≤ 4094)
          && zeroOr 1518 (u16 v (o + 6)) 16371 && decide (u32 v (o + 8) < 2 ^ 24) && decide (u8 v (o + 13) ≤ 7)
          && decide (u8 v (o + 22) ≤ 2) && decide (u8 v (o + 23) ≤ 7) && zeros v (o + 25) 7
          && (m ≤ 2 || (m == 3 && n % 2 == 0) || (m == 4 && n % 4 == 0))
          && (List.range (portLanes m)).all (fun i => laneMode (n + i) == 2 && rate (n + i) == (if m = 1 then 2 else 1))
          && (u8 v (o + 12) == 0 || bit fl 3)
          && (!(bit fl 1 || bit fl 3) || (mac != 0 && !isGroup mac))
          && tbOn (u8 v (o + 23)) && vids (orDef pvid 1))
    && (List.range 128).all fun l => if laneMode l = 2 then (owner l).length == 1 else owner l == []

/-- PORTS is applied (R152). -/
def applyPorts (v : List Byte) (s : State) : State :=
  s.each (List.range 128) fun s n =>
    let o := 32 * n
    let fl := u8 v (o + 2)
    let mac := unbe (slice v (o + 16) 6)
    if u8 v o = 0 then s
    else s.wrs [(Reg.portCfgMode n, u8 v o), (Reg.portCfgFec n, u8 v (o + 1)), (Reg.portCfgEsmcRx n, fl), (Reg.portCfgEsmcTx n, fl / 2),
      (Reg.portCfgEsmcExt n, fl / 4), (Reg.portPfcCfgPfcEn n, fl / 8), (Reg.portVlanInFilter n, fl / 16),
      (Reg.portPtpCfgOnestepEn n, fl / 32), (Reg.portVlanAccept n, u8 v (o + 3)), (Reg.portVlanPvid n, orDef (u16 v (o + 4)) 1),
      (Reg.portVlanDefPcp n, u8 v (o + 13)), (Reg.portMaxlenLen n, orDef (u16 v (o + 6)) 1522),
      (Reg.portPcpMapMap n, orDef (u32 v (o + 8)) 0xFAC688), (Reg.portPfcCfgLossless n, u8 v (o + 12)),
      (Reg.portPfcCfgQuanta n, orDef (u16 v (o + 14)) 65535), (Reg.portMacLoMac n, mac), (Reg.portMacHiMac n, mac / 2 ^ 32),
      (Reg.portPtpCfgTcMode n, u8 v (o + 22)), (Reg.portPtpCfgTsTb n, u8 v (o + 23)), (Reg.portPtpCfgTrailerTc n, u8 v (o + 24))]

end Sys2Proof.Machine
end

