-- ==== Sys2Proof/Machine/Calib.lean ====
section
/-! DEFINITION. Dressing (10_calibration): triggers, runs, aborts, commits, the tap walk and the CALIBRATION record.
The commands themselves stand in CalRun, behind the start-up that a first run ends. -/
namespace Sys2Proof.Machine

/-! ## State and sensors -/

/-- State of the sequencer (Table CA-5). -/
def State.calState (s : State) : Nat := s.rd Reg.calStatusState

/-- A run stands between PRECHECK and COMPUTE. -/
def State.calRunning (s : State) : Bool := decide (1 ≤ s.calState) && decide (s.calState ≤ 6)

/-- The domain of temperature sensor `i` (Table CA-3). -/
def sensorDomain (i : Nat) : Nat :=
  if i < 8 then 5 + i / 2 else if i = 8 then 1 else if i = 9 then 2 else if i ≤ 11 then 10 else if i = 12 then 3
  else if i ≤ 14 then 4 else 0

/-- Sensor `i` takes part (R231). -/
def State.sensorOn (s : State) (i : Nat) : Bool := bit (s.rd Reg.calCfgSensorMask) i && s.pdOn (sensorDomain i)

/-- The reading of sensor `i`, 1/16 °C. -/
def State.temp (s : State) (i : Nat) : Int := s.rdS (Reg.calTempNow i)

/-- The reference value of sensor `i`. -/
def State.tref (s : State) (i : Nat) : Int := s.rdS (Reg.calTempTRef i)

/-- The readings of all sensors. -/
def State.temps (s : State) : Tab Int := (List.range 16).foldl (fun l i => Tab.set l i (s.temp i) 0) []

/-- A reading `x` is more than `k` × ΔT from `r`. -/
def State.hot (s : State) (x r : Int) (k : Nat) : Bool := decide (k * s.rd Reg.calCfgDeltaT < (x - r).natAbs)

/-! ## Element values (Table CA-1, Table CA-11) -/

/-- The domain that element `i` is measured in. -/
def elementDomain (i : Nat) : Nat :=
  if i < 0x100 then 5 + i % 0x80 / 32 else if i < 0x120 then 5 + (i - 0x100) / 8 else 10

/-- `lo ≤ v ≤ hi` with the bounds in fs and `v` in 2^-16 ns. -/
def inFs (lo hi : Int) (v : Int) : Bool := decide (lo * 65536 ≤ v * 1000000) && decide (v * 1000000 ≤ hi * 65536)

/-- Value `v` of element `i` lies in its range (Table CA-11). -/
def elementOk (i : Nat) (v : Int) : Bool :=
  if i < 0x100 then inFs 0 20000000 v
  else if i < 0x120 then inFs (-2000000) 2000000 v
  else if i < 0x130 then inFs 0 20000000 v
  else if i < 0x140 then inFs 0 10000000 v
  else if i < 0x14C then inFs 0 1552000 v
  else if i < 0x178 then inFs 20000 28000 v
  else if i < 0x1A4 then inFs 600 1000 v
  else if i < 0x1A9 then inFs 0 10000000 v
  else v == 0

/-- CRC-32 over values `val` and reference temperatures `tref` (R242). -/
def calCrc (val tref : Nat → Nat) : Nat :=
  crc32 0xFFFFFFFF ((List.range 428).flatMap (fun i => le 4 (val i)) ++ (List.range 16).flatMap fun i => le 2 (tref i))

/-- CAL.CRC follows the set held. -/
def State.calCrcSet (s : State) : State :=
  s.wr Reg.calCrcCrc (calCrc (fun i => s.rd (Reg.calValValue i)) fun i => s.rd (Reg.calTempTRef i))

/-! ## Taps (R240) -/

/-- The delay `d` programmed for clock output `n`, in 2^-16 ns / 10^6. -/
def State.ckoDelay (s : State) (n : Nat) : Int :=
  ((s.rd (Reg.synCkoCtlCoarse n) * 24242 + s.rd (Reg.synCkoCtlFine n) * 800) * 65536 : Nat) + s.cal (0x140 + n) * 1000000

/-- The taps that place `d` (2^-16 ns / 10^6) most nearly, and whether a limit acted. -/
def tapsFor (d tc tf : Int) : (Nat × Nat) × Bool :=
  let c := d / (1000000 * tc)
  let coarse := min c.toNat 63
  let f := roundDiv (d - 1000000 * (coarse * tc)) (1000000 * tf).toNat
  ((coarse, min f.toNat 31), decide (63 < c) || decide (31 < f))

/-- The target taps of clock output `n` (R94, R240). Before the first values take effect there is no correction and no measured
scale: the image's COARSE and FINE themselves. -/
def State.ckoTarget (s : State) (n : Nat) : (Nat × Nat) × Bool :=
  if s.rd Reg.calStatusSource = 0 then ((s.rd (Reg.synCkoCtlCoarse n), s.rd (Reg.synCkoCtlFine n)), false)
  else tapsFor (s.ckoDelay n) (s.cal (0x14C + n)) (s.cal (0x178 + n))

/-- The taps that clock output `n` has now. -/
def State.ckoTaps (s : State) (n : Nat) : Nat × Nat := Tab.get s.dress.taps n (0, 0)

/-- Those taps set. -/
def State.setCkoTaps (s : State) (n : Nat) (x : Nat × Nat) : State :=
  { s with dress := { s.dress with taps := Tab.set s.dress.taps n x (0, 0) } }

/-- TAP_SAT of the outputs follows the targets of new values; a setting is reported (R94). -/
def State.ckoSat (s : State) : State :=
  s.each (List.range 12) fun s n =>
    let sat := (s.ckoTarget n).2
    let s := s.wr (Reg.synCkoCtlTapSat n) (b2n sat)
    s.when sat fun s => s.report 0x58 (0x14C + n)

/-- Every clock output at its target taps at once; once a SCAN has reached a domain no time output moves (R372). -/
def State.tapsDirect (s : State) : State := if s.frozen then s else s.each (List.range 12) fun s n => s.setCkoTaps n (s.ckoTarget n).1

/-- The next taps above `x` by at most one fine step: past the last fine tap they go on at the next coarse setting. -/
def tapUp (tc tf : Int) (x : Nat × Nat) : Nat × Nat :=
  if x.2 < 31 then (x.1, x.2 + 1) else (x.1 + 1, min 31 ((32 * tf - tc) / tf).toNat)

/-- The next taps below `x` by at most one fine step. -/
def tapDown (tc tf : Int) (x : Nat × Nat) : Nat × Nat :=
  if 0 < x.2 then (x.1, x.2 - 1) else (x.1 - 1, min 31 (-((tf - tc) / tf)).toNat)

/-- One step of clock output `n` towards its target: no more than one fine tap (R238), save where the fine taps do not span a coarse
one. -/
def State.tapStep (s : State) (n : Nat) : State :=
  let tc := s.cal (0x14C + n)
  let tf := s.cal (0x178 + n)
  let at_ (x : Nat × Nat) : Int := x.1 * tc + x.2 * tf
  let t := (s.ckoTarget n).1
  let now := s.ckoTaps n
  let d := at_ t - at_ now
  if now = t then s
  else if (d.natAbs : Int) ≤ tf ∨ tf ≤ 0 then s.setCkoTaps n t
  else s.setCkoTaps n (if 0 < d then tapUp tc tf now else tapDown tc tf now)

/-- Every clock output stands at its target. -/
def State.walked (s : State) : Bool := (List.range 12).all fun n => s.ckoTaps n == (s.ckoTarget n).1

/-! ## Triggers (R232) -/

/-- What no sensor reads: stands for the extremes of a sensor that has given no reading since T_START. -/
def noReading : Int := 65536

/-- What TEMP_NOW shows of a sensor that has given no reading (R231). -/
def unread : Int := -32768

/-- A run starts (Table CA-4); the one that START triggers is the run of start-up. -/
def State.calStart (s : State) (cause sensor : Nat) : State :=
  let on (d : Int) : Tab Int := ((List.range 16).filter s.sensorOn).foldl (fun l i => Tab.set l i (if s.temp i = unread then d else s.temp i) d) []
  { s with dress := { s.dress with
      tStart := s.temps, tMin := on noReading, tMax := on (-noReading), newV := [], domains := s.pwr.gates, held := [], restore := false
      startup := cause == 1, ppsHad := s.dress.ppsSeen } }.wrs
    [(Reg.calStatusState, 1), (Reg.calStatusRetryArmed, 0), (Reg.calTriggerCause, cause), (Reg.calTriggerSensor, sensor)]

/-- A trigger starts a run, or is held while a run, commit or walk is in progress. -/
def State.calTrigger (s : State) (cause sensor : Nat) : State :=
  if s.calState = 0 then s.calStart cause sensor
  else if s.dress.held.any fun x => x.1 == cause then s
  else { s with dress := { s.dress with held := s.dress.held ++ [(cause, sensor)] } }

/-- The cause of the run that held triggers start: START where it is among them, for the run is then that of start-up (R236), else the
oldest. -/
def heldCause (l : List (Nat × Nat)) : Option (Nat × Nat) := (l.find? fun x => x.1 == 1).orElse fun _ => l.head?

/-- Dressing returns to IDLE: held triggers start one run. -/
def State.calIdle (s : State) : State :=
  let s := s.wrs [(Reg.calStatusState, 0), (Reg.calStatusWalking, 0)]
  match heldCause s.dress.held with
  | some (c, i) => s.calStart c i
  | none => s

/-! ## Aborts, nominal values and commits (R236 to R239) -/

/-- The nominal values are loaded (R236, R245). -/
def State.calNominal (s : State) : State :=
  let s := s.each (List.range 0x1A9) fun s i =>
    s.wr (Reg.calValValue i) (enc 32 ((Tab.get s.dress.nominal i none).getD (Config.factoryNominal i)))
  ((s.wrs [(Reg.calStatusSource, 1), (Reg.devBootCalNominal, 1)]).calCrcSet.ckoSat).tapsDirect

/-- A run aborts with a reason of Table CA-7; the start-up run's abort loads the nominal values. A DELTA_T
trigger held in the run is suppressed by the retry that the abort arms (R239). -/
def State.calAbort (s : State) (reason : Nat) : State :=
  if !s.calRunning then s
  else
    let s := { s with dress := { s.dress with tAbort := s.temps, held := s.dress.held.filter fun x => x.1 != 2 } }
    let s := ((s.wrs [(Reg.calStatusLastAbort, reason), (Reg.calStatusRetryArmed, 1)]).bump Reg.calCountsAborts).report 0x5C reason
    let s := s.intr 4
    let s := s.when s.dress.startup State.calNominal
    s.calIdle

/-- The values in hand take effect (R238): `sec` is CAL_TB's second, 0 for a commit at once. DELTA_T is measured anew. -/
def State.calValues (s : State) (sec : Nat) : State :=
  let s := s.each s.dress.newV fun s e => match e.2 with
    | some v => s.wr (Reg.calValValue e.1) (enc 32 v)
    | none => s
  let s := s.each (List.range 16) fun s i => s.wr (Reg.calTempTRef i) (enc 16 (Tab.get s.dress.tStart i 0))
  let s := { s with dress := { s.dress with cross := [] } }
  let s := (s.wrs [(Reg.calStatusSource, if s.dress.restore then 3 else 2), (Reg.calStatusStaleTemp, 0), (Reg.calLastSecSec, sec)]).bumpWrap
    Reg.calStatusGen
  ((((s.bump Reg.calCountsCommits).calCrcSet.ckoSat).unreport 0x5D).intr 4).ev 0x282

/-- A commit at once, the taps set directly. -/
def State.commitNow (s : State) : State := ((s.calValues 0).tapsDirect).calIdle

/-- A commit does not wait for a second: in the CALIBRATE phase, and while CAL_TB is not VALID (Table CA-4, R238). -/
def State.commitsAtOnce (s : State) : Bool := s.inPhase 8 || !s.tbValid (s.rd Reg.calCfgCalTb)

/-- COMMIT_WAIT is entered: a commit at once in CALIBRATE or while CAL_TB is not VALID, else at the first whole second of CAL_TB at
least 2 µs ahead (Table CA-4). -/
def State.commitWait (s : State) : State :=
  let tb := s.rd Reg.calCfgCalTb
  if s.commitsAtOnce then s.commitNow
  else { s with dress := { s.dress with second := ((s.atb tb).t + 2000 * 65536 + tSecond - 1) / tSecond } }.wr Reg.calStatusState 7

/-- A commit that waits happens at once where CALIBRATE has begun or CAL_TB is no longer VALID (Table CA-4). -/
def State.calTbSync (s : State) : State := if s.calState == 7 && s.commitsAtOnce then s.commitNow else s

/-- The chosen second of CAL_TB: the values change and the walk starts. -/
def State.commitSecond (s : State) : State :=
  let s := s.calValues s.dress.second
  if s.walked then s.calIdle else s.wrs [(Reg.calStatusState, 8), (Reg.calStatusWalking, 1)]

/-- Measured values join the run: those of its phase, in domains that were on (Table CA-4). A clock output's element
is D_NOM less the delay measured (R227). -/
def State.measured (s : State) (phase : Nat → Bool) (l : List (Nat × Int)) : State :=
  let keep := l.filter fun e => phase e.1 && bit s.dress.domains (elementDomain e.1)
  { s with dress := { s.dress with newV := keep.foldl (fun t e =>
      Tab.set t e.1 (some (if 0x140 ≤ e.1 ∧ e.1 < 0x14C then 98304 - e.2 else e.2)) none) s.dress.newV } }

/-- The sensors that serve now. -/
def State.sensorsOn (s : State) : List Nat := (List.range 16).filter s.sensorOn

/-- TEMP_NOW of every sensor, 0x8000 where its domain is down (R231). -/
def State.tempsRead (s : State) (readings : List Int) : State :=
  s.each (List.range 16) fun s i =>
    s.wr (Reg.calTempNow i) (if s.pdOn (sensorDomain i) then enc 16 (readings.getD i 0) else 0x8000)

/-- The extremes of a running calibration widen to sensor `i` (R235); of a sensor that had given none when the run began, its first
reading is T_START. -/
def State.tempSpan (s : State) (i : Nat) : State :=
  let x := s.temp i
  let d := s.dress
  let st := if Tab.get d.tStart i 0 = unread then Tab.set d.tStart i x 0 else d.tStart
  { s with dress := { d with tStart := st
                             tMin := Tab.set d.tMin i (min x (Tab.get d.tMin i noReading)) noReading
                             tMax := Tab.set d.tMax i (max x (Tab.get d.tMax i (-noReading))) (-noReading) } }

/-- A running calibration follows the temperatures and aborts where a sensor has moved by more than 0.25 °C (R235). -/
def State.tempTrack (s : State) : State :=
  let s := s.each s.sensorsOn State.tempSpan
  if s.sensorsOn.any fun i => decide (4 < Tab.get s.dress.tMax i (-noReading) - Tab.get s.dress.tMin i noReading) then s.calAbort 5 else s

/-- STALE_TEMP at the first sensor more than 2 × ΔT from its reference (R233). -/
def State.staleMark (s : State) : State :=
  match s.sensorsOn.find? fun i => s.hot (s.temp i) (s.tref i) 2 with
  | some i => if s.on Reg.calStatusStaleTemp then s else (s.wr Reg.calStatusStaleTemp 1).report 0x5D i
  | none => s

/-- For how many readings in a row sensor `i` has stood more than ΔT from its reference (R232). The count stands at 5 once its fourth
has been judged: a crossing triggers once until the next commit (DEDUCED, log entry 65). -/
def State.crossCount (s : State) (i : Nat) : State :=
  let k := if s.sensorOn i && s.hot (s.temp i) (s.tref i) 1 then min 5 (Tab.get s.dress.cross i 0 + 1) else 0
  { s with dress := { s.dress with cross := Tab.set s.dress.cross i k 0 } }

/-- A retry that waits for a drift, or a drift of four readings, triggers (R232, R239). -/
def State.driftTrigger (s : State) : State :=
  if s.on Reg.calStatusRetryArmed then
    let r := s.rd Reg.calStatusLastAbort
    if r ≠ 6 ∧ r ≠ 7 ∧ s.sensorsOn.any (fun i => s.hot (s.temp i) (Tab.get s.dress.tAbort i 0) 1) = true then s.calTrigger 3 0 else s
  else
    match s.sensorsOn.find? fun i => Tab.get s.dress.cross i 0 == 4 with
    | some i => s.calTrigger 2 i
    | none => s

/-- The readings of the sensors are taken (R231 to R233, R235, R239). -/
def State.sensorsRead (s : State) (readings : List Int) : State :=
  let s := s.tempsRead readings
  let s := s.when s.calRunning State.tempTrack
  (s.staleMark.each (List.range 16) State.crossCount).driftTrigger

/-! ## The CALIBRATION record (R244 to R246) -/

/-- CALIBRATION passes R246. `tbOn`: TIMEBASES enables a base; `laneUsed`: LANES gives a lane a mode. -/
def checkCalibration (tbOn laneUsed : Nat → Bool) (v : List Byte) : Bool :=
  let n := (v.length - 32) / 8
  let el (k : Nat) : Nat := u16 v (32 + 8 * k)
  let tb := u8 v 1
  let mask := orDef (u16 v 2) 0xFFFF
  decide (32 ≤ v.length) && (v.length - 32) % 8 == 0 && decide (n ≤ 425)
    && zeroOr 8 (u8 v 0) 160 && decide (tb < 8) && decide (u16 v 4 ≤ 1000) && decide (u16 v 6 ≤ 3600) && decide (u32 v 8 ≤ 86400)
    && zeros v 12 20
    && (List.range n).all (fun k => decide (el k ≤ 0x1A8) && zeros v (34 + 8 * k) 2 && elementOk (el k) (sgn 32 (u32 v (36 + 8 * k)))
        && (k == 0 || decide (el (k - 1) < el k)))
    && (if (List.range 8).any tbOn then tbOn tb else tb == 0)
    && (List.range 4).all fun q => bit mask (2 * q) || bit mask (2 * q + 1) || !(List.range 32).any fun i => laneUsed (32 * q + i)

/-- CALIBRATION is applied (R244). -/
def applyCalibration (v : List Byte) (s : State) : State :=
  let s := s.wrs [(Reg.calCfgDeltaT, orDef (u8 v 0) 24), (Reg.calCfgCalTb, u8 v 1), (Reg.calCfgSensorMask, orDef (u16 v 2) 0xFFFF),
    (Reg.calLimitsMaxStep, orDef (u16 v 4) 20), (Reg.calLimitsRetryS, orDef (u16 v 6) 30), (Reg.calPeriodPeriodS, u32 v 8)]
  s.each (List.range ((v.length - 32) / 8)) fun s k =>
    { s with dress := { s.dress with nominal := Tab.set s.dress.nominal (u16 v (32 + 8 * k)) (some (sgn 32 (u32 v (36 + 8 * k)))) none } }

end Sys2Proof.Machine
end

