-- ==== Sys2Proof/Machine/Redund.lean ====
section
/-! DEFINITION. The referee: units, decisions, fail-over, the timing role of trunk pairs, the RED commands and the
PROTECTION record (13_redundancy_and_referee). UNIT_FAIL_OVER itself stands in CalRun, behind start-up. -/
namespace Sys2Proof.Machine

/-! ## Units (Tables RD-1 to RD-3) -/

/-- Unit states (Table RD-3). -/
def unitSync : Nat := 1
/-- STANDBY. -/
def unitStandby : Nat := 2
/-- ACTIVE. -/
def unitActive : Nat := 3
/-- FAILED. -/
def unitFailed : Nat := 4
/-- WTR. -/
def unitWtr : Nat := 5
/-- LATCHED. -/
def unitLatched : Nat := 6

/-- The other unit of the pair. -/
def unitOther (u : Nat) : Nat := if u % 2 = 0 then u + 1 else u - 1

/-- The destination that member unit `u` stands for. -/
def State.unitDest (s : State) (u : Nat) : Nat :=
  if u % 2 = 0 then s.rd (Reg.redPairCfgPrimary ((u - 4) / 2)) else s.rd (Reg.redPairCfgSecondary ((u - 4) / 2))

/-- The health line of a lane or port (R127, R135). -/
def State.destHealthy (s : State) (n : Nat) : Bool :=
  if s.isPort n then s.portState n == portUp else s.on (Reg.laneStateHealth n)

/-- OWN of root `r` is healthy (R312). -/
def State.rootOwn (s : State) (r : Nat) : Bool :=
  decide (rootFree ≤ s.rootState r) && decide (s.rootState r ≤ rootHold) && !s.on (Reg.synRootStatusClamp r)

/-- Timekeeper `k`'s line apart from the fault input: the residue check passes (R307). As standby, XC_OK counts too once it
has read 1 since the last load (R176); while the cross-link carries no messages it does not (Table RD-1), but an OUT_OF_LIM
bit still does (R175). -/
def State.tkLine (s : State) (k : Nat) : Bool :=
  !(s.line (0x59 + k)).cause
    && (k == s.activeTk || !s.xc.ever || s.on Reg.tkStatusXcOk || (s.on Reg.tkStatusXlinkLost && !s.on Reg.tkXcStatusOutOfLim))

/-- The referee unit that source `src` names (Table FL-1). -/
def State.sourceUnit (s : State) (src : Nat) : Option Nat :=
  if src ≤ 0x43 then some src
  else if src = 0x52 ∨ src = 0x53 then some (src - 0x52)
  else if src = 0x59 ∨ src = 0x5A then some (src - 0x57)
  else if 0x80 ≤ src ∧ src ≤ 0xFF then s.memberUnit (src - 0x80)
  else none

/-- A FAILOVER reaction or an injection drives the fault input of unit `u` (R333, R338). -/
def State.faultInput (s : State) (u : Nat) : Bool := s.flt.inputs.any fun x => s.sourceUnit x == some u

/-- The health line of unit `u` as the unit drives it (Table RD-1). -/
def State.unitLine (s : State) (u : Nat) : Bool :=
  if u < 2 then s.rootOwn u && (u == s.activeRoot || s.on Reg.synTrackTrackOk)
  else if u < 4 then s.tkLine (u - 2)
  else s.destHealthy (s.unitDest u)

/-- The health line of unit `u` stands at healthy; a FAILOVER reaction holds it at error (R333). -/
def State.unitHealthy (s : State) (u : Nat) : Bool := !s.faultInput u && s.unitLine u

/-- The last sample of the line showed healthy: its rails do not while they are at fault, and the unit UNMONITORED (R309, R310, R322). -/
def State.lineShown (s : State) (u : Nat) : Bool := s.unitHealthy u && !s.on (Reg.redUnitStatusUnmonitored u)

/-- The unit's own line or heartbeat is bad as they stand now: a line whose rails are at fault is not judged (R310). -/
def State.ownBad (s : State) (u : Nat) : Bool :=
  (!s.unitHealthy u && !s.on (Reg.redUnitStatusUnmonitored u)) || !s.on (Reg.redUnitStatusHbOk u)

/-- Unit `u` is a timekeeper whose root is bad: it is bad with it, reason SIDE (R311). -/
def State.sideBad (s : State) (u : Nat) : Bool := decide (2 ≤ u) && decide (u < 4) && s.unit (u - 2) != 0 && s.ownBad (u - 2)

/-- The unit is bad as its line and heartbeat, and those of its side's root, stand now (R311). -/
def State.unitBad (s : State) (u : Nat) : Bool := s.ownBad u || s.sideBad u

/-- The referee judges unit `u` at all: a member only in a pair in use. -/
def State.unitUsed (s : State) (u : Nat) : Bool := decide (u < 4) || s.on (Reg.redPairCfgKind ((u - 4) / 2))

/-- UNVERIFIED of unit `u` set; GEN counts a change (R322). -/
def State.setUnverified (s : State) (u : Nat) (b : Bool) : State :=
  if s.rd (Reg.redUnitStatusUnverified u) = b2n b then s
  else (s.wr (Reg.redUnitStatusUnverified u) (b2n b)).bumpWrap (Reg.redUnitStatusGen u)

/-- UNMONITORED of unit `u` set; GEN counts a change (R310, R322). -/
def State.setUnmonitored (s : State) (u : Nat) (b : Bool) : State :=
  if s.rd (Reg.redUnitStatusUnmonitored u) = b2n b then s
  else (s.wr (Reg.redUnitStatusUnmonitored u) (b2n b)).bumpWrap (Reg.redUnitStatusGen u)

/-- Unit `u` carries UNVERIFIED or UNMONITORED. -/
def State.unitDoubt (s : State) (u : Nat) : Bool := s.on (Reg.redUnitStatusUnverified u) || s.on (Reg.redUnitStatusUnmonitored u)

/-- Unit `u` may take the role over: a standby that policy allows (R311, R321), or a healthy primary in WTR (R318). -/
def State.unitEligible (s : State) (u : Nat) : Bool :=
  (s.unit u == unitStandby && (!s.unitDoubt u || !s.on Reg.redCfgDenyUnverified))
    || (decide (4 ≤ u) && s.unit u == unitWtr && !s.unitBad u)

/-! ## Decisions (R311, R315) -/

/-- A decision is reported: RED.LAST, and unless it is LOST the count, the interrupt and source FAILOVER. -/
def State.decision (s : State) (u action reason : Nat) : State :=
  let s := s.wrs [(Reg.redLastUnit, u), (Reg.redLastReason, reason), (Reg.redLastAction, action)]
  if action = 5 then s
  else (((s.bump Reg.redStatusDecisions).report 0x44 (u + reason * 2 ^ 8 + action * 2 ^ 12)).intr 1).ev 0x281

/-- The pair of unit `u` is lost, or is so no more. -/
def State.setLost (s : State) (u : Nat) (b : Bool) : State :=
  if u < 2 then (s.wr Reg.redStatusRootLost (b2n b)).setLine 0x46 { s.line 0x46 with cause := b, synd := u }
  else if u < 4 then (s.wr Reg.redStatusTkLost (b2n b)).setLine 0x47 { s.line 0x47 with cause := b, synd := u }
  else
    let k := (u - 4) / 2
    let s := s.wr (Reg.redPairStatusDataLost k) (b2n b)
    if b then s.report 0x48 k
    else
      let s := { s with flt := { s.flt with lostPairs := s.flt.lostPairs.erase k } }
      if (List.range 32).any fun j => s.on (Reg.redPairStatusDataLost j) then s else s.unreport 0x48

/-- The pair of unit `u` reads as lost. -/
def State.isLost (s : State) (u : Nat) : Bool :=
  if u < 2 then s.on Reg.redStatusRootLost else if u < 4 then s.on Reg.redStatusTkLost
  else s.on (Reg.redPairStatusDataLost ((u - 4) / 2))

/-- Unit `u` fails (Table RD-2): FAILED or LATCHED, with its counts, reason and second. -/
def State.unitFail (s : State) (u reason : Nat) : State :=
  let n := s.rd (Reg.redUnitCountsFlapCnt u) + 1
  let sec := if s.tbValid 0 then tSec (s.atb 0).t else 0
  let s := ((s.bump (Reg.redUnitCountsFlapCnt u)).bump (Reg.redUnitCountsFails u)).wrs
    [(Reg.redUnitStatusReason u, reason), (Reg.redUnitLastLastFailSec u, sec), (Reg.redUnitWtrWtrLeft u, 0)]
  let s := s.setUnit u (if s.rd Reg.redFlapFlapLim ≤ n then unitLatched else unitFailed)
  s.when (u == 2 || u == 3) State.tkStandbyEnd

/-- The shaft takes root `r` (R16, R17, R315). The measurement of the other root against it starts anew: TRACK_OK, the run of 1 024
measurements and the trim are back at 0, of which R89 says nothing at a change of root (DESIGN CHOICE, log entry 67). The motion of a
reference step under way goes on against the frequency at which it was handed over (R169). -/
def State.rootTake (s : State) (r : Nat) : State :=
  let s := { s with syn := { s.syn with goodRun := 0, trim := 0 }, xc := { s.xc with dcoFrom := if s.xc.moving then s.xc.dcoFrom else (s.root r).dco } }
  (((s.wr Reg.clkShaftStatusActiveRoot r).bump Reg.clkShaftStatusSwitches).wr Reg.synTrackTrackOk 0).calAbort 6

/-- Timekeeper `k` becomes active, and SWAPPED shows its pairs (R155, R160, R172, R315). -/
def State.tkTake (s : State) (k : Nat) : State :=
  let was := s.activeTk
  let s := ((s.wr Reg.tkStatusActive k).bump Reg.tkStatusFailovers).intr 3
  let s := s.each (List.range 8) fun s n => if (s.tb was n).state = (s.tb k n).state then s else s.bumpWrap (Reg.tkTbStatusGen n)
  let s := s.each (List.range 4) fun s p => s.setSwapped k p (s.swapped k p)
  let s := (s.setUnverified (2 + k) false).wr Reg.tkStatusUnverified 0
  ((s.each (List.range 4) State.osFailover).calAbort 6).pgSync.calTbSync

/-- Member unit `u` takes the data role of pair `k` (R302, R308). `drop`: the other member's queues are discarded. -/
def State.dataTake (s : State) (u : Nat) (drop : Bool) : State :=
  let k := (u - 4) / 2
  let b := s.unitDest u
  let a := s.unitDest (unitOther u)
  let s := (s.wr (Reg.redPairStatusDataActive k) (1 + u % 2)).bump (Reg.redPairCountsDataSwitches k)
  let s := { s with fab := { s.fab with revert := if drop then s.fab.revert.erase k else k :: s.fab.revert.erase k } }
  let s := s.moveCopies a b
  (s.when drop fun s => s.destDown a).reseq

/-- Unit `v` takes its pair's role from its partner, for `reason` (Table RD-5). -/
def State.takeOver (s : State) (v reason : Nat) : State :=
  let doubt := s.unitDoubt v
  let s := (s.setUnit v unitActive).wr (Reg.redUnitWtrWtrLeft v) 0
  let s := if v < 2 then s.rootTake v else if v < 4 then s.tkTake (v - 2) else s.dataTake v true
  let s := s.when (s.isLost v) fun s => s.setLost v false
  let s := s.when doubt fun s => (s.wr Reg.redStatusFoUnverified 1).report 0x45 v
  s.decision (unitOther v) 1 reason

/-- Unit `u` is judged bad (the body of R311's procedure). -/
def State.unitJudge (s : State) (u reason : Nat) : State :=
  let v := unitOther u
  let st := s.unit u
  if st = unitActive then
    if s.unitEligible v then (s.takeOver v reason).unitFail u reason
    else if s.isLost u then s
    else (s.setLost u true).decision u 5 reason
  else if st = unitSync ∨ st = unitStandby ∨ st = unitWtr then s.unitFail u reason
  else s

/-- Unit `u` is bad: a root takes the timekeeper of its side with it, reason SIDE (R311). -/
def State.unitDown (s : State) (u reason : Nat) : State :=
  let s := s.unitJudge u reason
  s.when (decide (u < 2)) fun s => s.unitJudge (u + 2) 3

/-- A pair without an eligible standby has one again: its bad active unit fails over, a good one is lost no more. -/
def State.lostAgain (s : State) (u : Nat) : State :=
  if !s.isLost u then s
  else
    let a := if s.unit u = unitActive then u else unitOther u
    if !s.unitBad a then s.setLost a false
    else if s.unitEligible (unitOther a) then
      s.unitDown a (if !s.ownBad a then 3 else if s.on (Reg.redUnitStatusHbOk a) then 1 else 2)
    else s

/-- A LATCHED unit moves to FAILED with FLAP_CNT 0 (Table RD-2). -/
def State.unitRelease (s : State) (u : Nat) : State := (s.wr (Reg.redUnitCountsFlapCnt u) 0).setUnit u unitFailed

/-! ## The timing role (R316, R317) -/

/-- The unit that holds the timing role of trunk pair `k`. -/
def State.timeUnit (s : State) (k : Nat) : Nat := if s.on (Reg.tkPairSwapped (s.rd (Reg.redPairCfgTkPair k))) then 5 + 2 * k else 4 + 2 * k

/-- The timing health of member unit `u` (R316). -/
def State.timeHealthy (s : State) (u : Nat) : Bool := s.ttHealthy (s.unitDest u) && s.on (Reg.laneStateHealth (s.unitDest u))

/-- The timing role of trunk pair `k` is judged: a failed one orders the pair switch (R316). -/
def State.judgeTiming (s : State) (k : Nat) : State :=
  let p := s.rd (Reg.redPairCfgTkPair k)
  let u := s.timeUnit k
  if s.rd (Reg.redPairCfgKind k) ≠ 2 ∨ s.unit u = 0 ∨ s.on (Reg.tkPairDeferred p) ∨ s.pairRamping p ∨ s.timeHealthy u then s
  else
    let s := (s.pairOrder p).bump (Reg.redPairCountsTimeSwitches k)
    s.decision u (if s.on (Reg.tkPairDeferred p) then 4 else 3) 1

/-- The timing role of every trunk pair is judged. -/
def State.judgeTimings (s : State) : State := s.each (List.range 32) State.judgeTiming

/-! ## Events -/

/-- A health line has a rail fault (R310). -/
def execHealthRailFault (unit : Fin 68) (s : State) : Res :=
  if s.unitUsed unit.val then .next (s.setUnmonitored unit.val true) else .next s

/-- Every enabled base's last XC_DIFF lies within 1 ps (R313). -/
def State.xcTight (s : State) : Bool :=
  (List.range 8).all fun n => !s.on (Reg.tkTbCfgEnable n) || decide ((s.rdS (Reg.tkTbXcDiffXcDiff n)).natAbs ≤ 100)

/-- Some enabled base's last compare lies beyond 1 ps; a register that shows the loss of the cross-link is no compare
(R175). -/
def State.xcWide (s : State) : Bool :=
  (List.range 8).any fun n => s.on (Reg.tkTbCfgEnable n) && s.rd (Reg.tkTbXcDiffXcDiff n) != 0x80000000
    && decide (100 < (s.rdS (Reg.tkTbXcDiffXcDiff n)).natAbs)

/-- Unit `u` holds its pair's role as R16 and R154 set it at start-up. -/
def State.roleHeld (s : State) (u : Nat) : Bool := if u < 2 then u == s.activeRoot else u - 2 == s.activeTk

/-- Unit `u` in SYNC is verified (R313). -/
def State.unitVerified (s : State) (u : Nat) : Bool :=
  let alone := s.unit (unitOther u) != unitActive
  if u < 2 then s.on Reg.synTrackTrackOk || (alone && u == s.activeRoot)
  else if u < 4 then
    (alone && u - 2 == s.activeTk)
      || (s.on Reg.tkStatusStandbyRun && (s.on Reg.tkStatusXlinkLost || (s.on Reg.tkStatusXcOk && s.xcTight)))
  else
    let n := s.unitDest u
    s.unitUsed u && s.destHealthy n && (s.rd (Reg.redPairCfgKind ((u - 4) / 2)) != 2 || s.ttState n == ttRun)

/-- A FAILED unit has been healthy for HOLDOFF (Table RD-2): SYNC; a timekeeper starts its load (R176). -/
def execUnitHoldoffExpire (unit : Fin 68) (s : State) : Res :=
  let u := unit.val
  let side := (u == 2 || u == 3) && s.rd (Reg.redUnitStatusReason u) == 3
    && s.unit (u - 2) != unitStandby && s.unit (u - 2) != unitActive
  if s.unit u ≠ unitFailed ∨ !s.lineShown u ∨ side then .next s
  else
    let s := (s.wr (Reg.redUnitStatusHbOk u) 1).setUnit u unitSync
    .next (s.when (u == 2 || u == 3) State.tkLoadStart)

/-- LATCH_S has elapsed (Table RD-2). -/
def execUnitLatchExpire (unit : Fin 68) (s : State) : Res :=
  if s.unit unit.val = unitLatched ∧ s.on Reg.redLatchLatchS = true then .next (s.unitRelease unit.val) else .next s

/-- WTR_S has elapsed: the data role reverts to the primary and the secondary stands by (R318). -/
def execUnitWtrExpire (unit : Fin 68) (s : State) : Res :=
  let u := unit.val
  if s.unit u ≠ unitWtr then .next s
  else
    let s := (s.setUnit (unitOther u) unitStandby).setUnit u unitActive
    .next (((s.wr (Reg.redUnitWtrWtrLeft u) 0).dataTake u false).decision u 2 4)

/-- A failure leaves the flap window (Table RD-2). -/
def execFlapWindowExpire (unit : Fin 68) (s : State) : Res :=
  .next (s.wr (Reg.redUnitCountsFlapCnt unit.val) (s.rd (Reg.redUnitCountsFlapCnt unit.val) - 1))

/-- A deferred order is withdrawn: the failed member's timing health has returned for HOLDOFF (R316). -/
def execDeferredOrderWithdraw (pair : Fin 32) (s : State) : Res :=
  let k := pair.val
  let p := s.rd (Reg.redPairCfgTkPair k)
  if s.rd (Reg.redPairCfgKind k) = 2 ∧ s.on (Reg.tkPairDeferred p) = true ∧ s.timeHealthy (s.timeUnit k) = true then
    .next (s.wr (Reg.tkPairDeferred p) 0).judgeTimings
  else .next s

/-- No pair was accepted for 250 ms: the engine's line shows an error (R199), and a trunk pair whose timing role rests
on it is judged (R316). -/
def execTtHealthTimeout (lane : Fin 128) (s : State) : Res :=
  .next (s.setEng lane.val { s.eng lane.val with fresh := false }).judgeTimings

/-! ## The cross-link and the standby (R174, R175, R320) -/

/-- A cross-link slot: the standby compares and trims; a standby beyond 1 ps goes back to SYNC (Table RD-2), and the
UNVERIFIED mark follows the loss and the return of the link (R320). `wire`: nothing arrives, or the active timekeeper's message
with the bits listed turned on the way. -/
def execXcSlot (wire : Option (List (Fin 320))) (s : State) : Res :=
  let got := s.xcReceived s.xc.next wire
  let good := got.isSome
  let s := s.xcSlot got
  let u := 3 - s.activeTk
  let s := s.when (s.unit u == unitStandby && good && !s.on Reg.tkStatusXlinkLost && s.xcWide) fun s => s.setUnit u unitSync
  let mark := s.on Reg.tkStatusXlinkLost && s.on Reg.tkStatusStandbyRun && s.unitHealthy 2 && s.unitHealthy 3
  let clear := !s.on Reg.tkStatusXlinkLost && s.on Reg.tkStatusXcOk
  let s := s.when mark fun s => (s.setUnverified u true).wr Reg.tkStatusUnverified 1
  .next (s.when clear fun s => ((s.setUnverified u false).wr Reg.tkStatusUnverified 0).lostAgain u)

/-! ## Commands (R323, Table RD-13) -/

/-- RED.CMD code 0 changes nothing and its result is OK (R425). -/
def execRedCmdNop (s : State) : Res := .next (s.wr Reg.redCmdStatusResult 0)

/-- RELEASE of a LATCHED unit. -/
def execRedRelease (unit : Fin 128) (gen : Fin 65536) (s : State) : Res :=
  let u := unit.val
  let r := if 67 < u ∨ !s.unitUsed u then 2 else if gen.val ≠ s.rd (Reg.redUnitStatusGen u) then 3
    else if s.unit u ≠ unitLatched then 4 else 0
  .next ((s.wr Reg.redCmdStatusResult r).when (r == 0) fun s => s.unitRelease u)

/-- Codes 2 and 3 are answered REFUSED. -/
def execRedCmdReserved (s : State) : Res := .next (s.wr Reg.redCmdStatusResult 1)

/-! ## Record (R325, R326) -/

/-- PROTECTION passes R326. `kind n`: 1 a port, 2 a Leat lane, 0 nothing; `same a b`: the same mode and FEC, or the same
quad rate; `idle n`, `man n`: IDLE_EN on the lane, MANUAL_ALLOW on a lane of the member; `tt n`: TT_EN; `fed k a b`:
time-base pair `k` is fed by lanes `a` and `b`. -/
def checkProtection (kind : Nat → Nat) (same : Nat → Nat → Bool) (idle man tt : Nat → Bool) (fed : Nat → Nat → Nat → Bool)
    (v : List Byte) : Bool :=
  let kd (k : Nat) : Nat := u8 v (32 + 16 * k)
  let a (k : Nat) : Nat := u8 v (33 + 16 * k)
  let b (k : Nat) : Nat := u8 v (34 + 16 * k)
  let tp (k : Nat) : Nat := u8 v (35 + 16 * k)
  let used : List Nat := (List.range 32).filter fun k => kd k != 0
  v.length == 544 && decide (u8 v 0 ≤ 1) && decide (u8 v 1 ≤ 8) && zeroOr 2 (u8 v 2) 8 && decide (u16 v 4 ≤ 600) && zeros v 12 20
    && (List.range 32).all (fun k => (kd k != 0 || zeros v (32 + 16 * k) 16))
    && used.all fun k =>
        decide (kd k ≤ 2) && decide (tp k ≤ 3) && decide (u16 v (36 + 16 * k) ≤ 3600) && zeros v (38 + 16 * k) 10
          && decide (a k < 128) && decide (b k < 128) && a k != b k && kind (a k) != 0 && kind (a k) == kind (b k) && same (a k) (b k)
          && !idle (a k) && !idle (b k) && !man (a k) && !man (b k)
          && used.all (fun j => j == k || (a j != a k && a j != b k && b j != a k && b j != b k && (kd j != 2 || kd k != 2 || tp j != tp k)))
          && (if kd k = 1 then tp k == 0
              else kind (a k) == 2 && tt (a k) && tt (b k) && fed (tp k) (a k) (b k))

/-- PROTECTION is applied (R325). -/
def applyProtection (v : List Byte) (s : State) : State :=
  let s := s.wrs [(Reg.redCfgDenyUnverified, u8 v 0), (Reg.redCfgConfirm, orDef (u8 v 1) 2), (Reg.redCfgHbTimeout, orDef (u8 v 2) 2),
    (Reg.redFlapFlapLim, orDef (u8 v 3) 3), (Reg.redCfgHoldoff, orDef (u16 v 4) 10), (Reg.redFlapFlapWinS, orDef (u16 v 6) 600),
    (Reg.redLatchLatchS, u32 v 8)]
  s.each (List.range 32) fun s k =>
    let o := 32 + 16 * k
    if u8 v o = 0 then s
    else s.wrs [(Reg.redPairCfgKind k, u8 v o), (Reg.redPairCfgPrimary k, u8 v (o + 1)), (Reg.redPairCfgSecondary k, u8 v (o + 2)),
      (Reg.redPairCfgTkPair k, u8 v (o + 3)), (Reg.redPairWtrWtrS k, orDef (u16 v (o + 4)) 30)]

end Sys2Proof.Machine
end

