-- ==== Sys2Proof/Machine/Faults.lean ====
section
/-! DEFINITION. Sluice: the fault collector, its reactions, injection, clearing and the FAULT_POLICY record
(14_fault_collection). -/
namespace Sys2Proof.Machine

/-! ## Sources (Table FL-1) -/

/-- Collector states (Table FL-4). -/
def colIdle : Nat := 0
/-- REACT. -/
def colReact : Nat := 1
/-- HOLD. -/
def colHold : Nat := 2

/-- Source `src` names a port or lane. -/
def sourcePort (src : Nat) : Option Nat := if 0x80 ≤ src ∧ src ≤ 0xFF then some (src - 0x80) else none

/-- The collector's clock K9 runs: whenever a root runs. Without it the collector keeps its state, and a pair that goes to
error waits until it resumes. -/
def State.collectorOn (s : State) : Bool := s.rootRuns 0 || s.rootRuns 1

/-- The state of the collector. -/
def State.colState (s : State) : Nat := s.rd Reg.fltStatusState

/-- The collector changes state; entries to REACT and IDLE count in GEN (R329). -/
def State.setCol (s : State) (st : Nat) : State :=
  let s := s.wr Reg.fltStatusState st
  if st = colHold then s else s.bumpWrap Reg.fltStatusGen

/-! ## Reactions (R333 to R335) -/

/-- HALT_DEVICE (R335): frames stop, the roots and the bases hold; the output rank becomes 0, which is due an event PDU (R69). -/
def State.haltDevice (s : State) : State :=
  if s.halted then s else ((s.wr Reg.fltStatusHalted 1).rootsHold s.holdDco).tbHalt.updQl

/-- Cell `cell` is quarantined, unless 256 are (R334). SHARED_FREE counts a cell that a frame holds no more as it is, and loses it when
the frame's cells return. -/
def State.quarantine (s : State) (cell : Nat) : State :=
  if s.on Reg.fltQuarFull || s.flt.quarCells.contains cell then s
  else
    let l := cell :: s.flt.quarCells
    let free := s.sharedFree
    let held := s.fab.frames.any fun x => x.2.cells.contains cell
    ({ s with flt := { s.flt with quarCells := l, owed := if !held && free == 0 then s.flt.owed + 1 else s.flt.owed } }.wrs
      [(Reg.fltQuarCells, l.length), (Reg.fltQuarFull, b2n (l.length == 256)),
        (Reg.fabPoolSharedFree, if held then free else free - 1)]).bpUpdate

/-- The CONTAIN effect of source `src` (Table FL-1). An item of the shadow is taken whole: there are up to 20 478, and the table's 13 bits
do not hold all their numbers (DESIGN CHOICE, log entry 72). -/
def State.contain (s : State) (src synd : Nat) : State :=
  if src = 0x48 then { s with flt := { s.flt with lostPairs := synd % 32 :: s.flt.lostPairs.erase (synd % 32) } }
  else if src = 0x184 then { s with flt := { s.flt with auditSkip := synd % 32768 :: s.flt.auditSkip.erase (synd % 32768) } }
  else if 0x1B0 ≤ src ∧ src ≤ 0x1CF then s.quarantine (synd % 2 ^ 18)
  else s

/-- What reaction code `r` does for source `src`, beyond counting (R333). -/
def State.react (s : State) (r src synd : Nat) : State :=
  match r with
  | 1 => s.contain src synd
  | 2 => match s.sourceUnit src with
    | some _ => { s with flt := { s.flt with inputs := src :: s.flt.inputs.erase src } }
    | none => s
  | 3 => match sourcePort src with
    | some n => s.haltHold n
    | none => s
  | 4 => s.haltDevice
  | _ => s

/-- One event as the collector takes it: source, class, RAIL, INJ, syndrome. -/
structure ColEv where
  src   : Nat
  cls   : Nat
  rail  : Bool
  inj   : Bool
  synd  : Nat
  deriving DecidableEq, Repr

/-- The reaction applied to an event: COUNT for a rail fault (R328, R332). -/
def State.reactionOf (s : State) (e : ColEv) : Nat := if e.rail then 0 else s.rd (Reg.fltSrcReaction e.src)

/-- The FAULT journal record of an event (Table FL-6). -/
def State.faultRec (s : State) (e : ColEv) (first : Bool) : JRec :=
  s.jrec 2 (le 2 (e.src + e.cls * 2 ^ 9 + b2n e.rail * 2 ^ 11 + b2n e.inj * 2 ^ 12 + b2n first * 2 ^ 13)
    ++ le 1 (s.reactionOf e) ++ [0] ++ le 4 e.synd)

/-- An event is counted, its LEVEL raised, journaled where R340 says so, and its reaction starts (R333). -/
def State.colTake (s : State) (e : ColEv) (first : Bool) : State :=
  let r := s.reactionOf e
  let rec_ := s.faultRec e first
  let s := s.bump (Reg.fltSrcCount e.src)
  let s := s.when (decide (s.rd (Reg.fltSrcLevel e.src) < e.cls)) fun s => s.setLevel e.src e.cls
  let s := s.when (first || e.cls == 3 || r == 4) fun s => s.jwrite rec_
  (s.react r e.src e.synd).ev 0x280

/-- The record of the first error (R331). -/
def State.colRecord (s : State) (e : ColEv) : State :=
  let v := s.tbValid 0
  let t := if v then (s.atb 0).t else 0
  s.wrs [(Reg.fltRecSrcTimeValid, b2n v), (Reg.fltRecSrcInj, b2n e.inj), (Reg.fltRecSrcRail, b2n e.rail),
    (Reg.fltRecSrcReaction, s.reactionOf e), (Reg.fltRecSrcClass, e.cls), (Reg.fltRecSrcSource, e.src), (Reg.fltRecSyndSyndrome, e.synd),
    (Reg.fltRecSecLoSec, tSec t), (Reg.fltRecSecHiSec, tSec t / 2 ^ 32), (Reg.fltRecNsNs, tNs t), (Reg.fltRecFracFrac, tFrac t)]

/-- The event that takes the record: the highest class, then the lowest source (R330). -/
def colFirst : List ColEv → Option ColEv
  | [] => none
  | e :: l => match colFirst l with
    | none => some e
    | some f => if e.cls > f.cls ∨ (e.cls = f.cls ∧ e.src ≤ f.src) then some e else some f

/-- An event that arrives in HOLD sets OVF and is counted (Table FL-2). -/
def State.colLater (s : State) (e : ColEv) : State := ((s.wr Reg.fltStatusOvf 1).intr 0).colTake e false

/-- The error events of one K9 cycle (Table FL-2). -/
def State.colEvents (s : State) (l : List ColEv) : State :=
  match colFirst l with
  | none => s
  | some f =>
    if s.colState = colIdle then
      let s := ((s.colRecord f).setCol colReact).intr 0
      ((s.colTake f true)).each (l.erase f) State.colLater
    else if s.colState = colHold then s.each l State.colLater
    else s

/-! ## Rail pairs (R328) -/

/-- The pair of source `src` as the collector decodes it, with ACTIVE and RAIL. -/
def State.setPair (s : State) (src pair : Nat) : State :=
  ((s.setLine src { s.line src with pair := pair }).setActive src (pair != 0)).wr (Reg.fltSrcRail src) (b2n (pair == 2))

/-- The switched domain in which source `src` lies, 0 where it lies in PD0: its pair is held at 01 while that is off (R328). -/
def State.sourceDomain (s : State) (src : Nat) : Nat :=
  if src < 4 then 1 + src % 2
  else if src ≤ 0x43 then 5 + s.unitDest src / 32
  else if src = 0x52 ∨ src = 0x59 then 1
  else if src = 0x53 ∨ src = 0x5A then 2
  else if 0x54 ≤ src ∧ src ≤ 0x57 then 10
  else if src = 0x5E ∨ src = 0x5F then 4
  else if 0x60 ≤ src ∧ src ≤ 0x7F then 5 + (src - 0x60) / 8
  else if 0x80 ≤ src ∧ src ≤ 0x17F then 5 + src % 128 / 32
  else if 0x180 ≤ src ∧ src ≤ 0x184 then 3
  else if 0x190 ≤ src ∧ src ≤ 0x1D1 then 4
  else if src = 0x1D2 then 3
  else 0

/-- The source is powered: its domain is on. -/
def State.sourceOn (s : State) (src : Nat) : Bool := s.pdOn (s.sourceDomain src)

/-- Domain `d` is switched off: the pairs of its sources are held at 01 at the PD0 boundary (R328). -/
def State.sourcesOff (s : State) (d : Nat) : State :=
  s.each (s.lines.map (·.1)) fun s src => s.when (d != 0 && s.sourceDomain src == d) fun s => (s.unreport src).setPair src 0

/-- The injector drives source `src`, in MODE ERROR or RAIL. -/
def State.injected (s : State) (src : Nat) (rail : Bool) : Bool :=
  match s.flt.inj with
  | some (x, m) => x == src && (m % 2 == 1) == rail
  | none => false

/-- A source's pair goes to error in this cycle: it stood at 01, the source exists, is powered and is no RAIL source, and a cause or the
injector drives it. -/
def State.errorValid (s : State) (e : FaultEv) : Bool :=
  let src := e.source.val
  decide (0x44 ≤ src) && (s.line src).pair == 0 && ((s.line src).cause || e.real || s.injected src false)

/-- A source's rail fault makes its event in this cycle: none lasted, and the wiring or the injector makes it. -/
def State.railValid (s : State) (e : FaultEv) : Bool :=
  (s.line e.source.val).pair != 2 && (e.real || s.injected e.source.val true)

/-- The collector samples an event of the source (R328). -/
def State.evValid (s : State) (e : FaultEv) : Bool :=
  s.collectorOn && fltClass e.source.val != 0 && s.sourceOn e.source.val && (if e.rail.isSome then s.railValid e else s.errorValid e)

/-- The event as the collector takes it: a real cause beside an injection makes it the real one (R339); a rail fault counts as class U
(R330). -/
def State.evOf (s : State) (e : FaultEv) : ColEv :=
  let src := e.source.val
  let l := s.line src
  match e.rail with
  | some c => { src := src, cls := 2, rail := true, inj := !e.real, synd := if src ≤ 0x43 then c.val else if l.cause then l.synd else 0 }
  | none => { src := src, cls := fltClass src, rail := false, inj := !(l.cause || e.real)
              synd := if l.cause then l.synd else if e.real then e.syndrome.toNat else 0 }

/-- The frame of a double-bit buffer error is lost: stomped where it leaves already, discarded elsewhere, the one that waits for the host
too. -/
def State.bufError (s : State) (id : Nat) : State :=
  let f := s.frame id
  if f = {} then s
  else if s.fab.hostq.any (·.1 == id) then ((s.freeCells id).setFrame id {}).setHostq (s.fab.hostq.filter (·.1 != id))
  else (((s.setFrame id { f with lost := true }).dropUnstarted id fun s => s.bump Reg.fabCntBadDiscard).reap id).reseq

/-- A record of the learn or of the command queue that cannot be corrected is dropped (Table FL-1): the slot is its place in the
queue. -/
def State.queueError (s : State) (synd : Nat) : State :=
  let k := synd / 2 % 4096
  if synd % 2 = 0 then s.setLnq (s.tbl.lnq.eraseIdx k)
  else { s with tbl := { s.tbl with tcq := s.tbl.tcq.eraseIdx k } }.fifoStatus

/-- What a real error does where it arises, whatever the collector makes of it (Table FL-1): a frame read with a double-bit error, a
queue's record that cannot be read, a residue mismatch, which the timekeeper's health line shows too (R307). -/
def State.errorHere (s : State) (e : FaultEv) : State :=
  let src := e.source.val
  if !e.real || e.rail.isSome || !s.sourceOn src then s
  else if 0x1B0 ≤ src ∧ src ≤ 0x1CF then s.bufError e.frame
  else if src = 0x1D2 then s.queueError e.syndrome.toNat
  else if src = 0x59 ∨ src = 0x5A then s.report src e.syndrome.toNat
  else s

/-- The real and the injected drive meet in one cycle (R339): the event that the injector makes is there with a real cause. It makes it once,
as its pair leaves 01, so a real event of the other kind meets none. -/
def State.collide (s : State) (l : List ColEv) : State :=
  match s.flt.inj with
  | some (x, m) => if l.any fun e => e.src == x && !e.inj && e.rail == (m % 2 == 1) then { s with flt := { s.flt with inj := some (x, m % 2 + 2) } } else s
  | none => s

/-- The pair of an event's source as the collector decodes it; a rail fault leaves the source's unit UNMONITORED (R310, R328). -/
def State.evPair (s : State) (e : ColEv) : State :=
  let s := s.setPair e.src (if e.rail then 2 else 1)
  match if e.rail then s.sourceUnit e.src else none with
  | some u => s.setUnmonitored u true
  | none => s

/-- What the sources show in one K9 cycle (R328 to R330, R339). -/
def State.faultCycle (s : State) (events : List FaultEv) : State :=
  let es := ((events.filter s.evValid).map s.evOf).foldl (fun a e => if a.any (·.src == e.src) then a else a ++ [e]) []
  let s := s.each es State.evPair
  let s := s.each events State.errorHere
  (s.collide es).colEvents es

/-- Sources go from 01 to 10, or into a rail fault, in one K9 cycle (R328 to R330, R339). In reset nothing is sampled (R413). -/
def execFaultEvent (events : List FaultEv) (s : State) : Res := .next (if s.inReset then s else s.faultCycle events)

/-- A pair shows 00 or 11 for 2 K9 cycles (R328, R310): the code it shows, and whether the wiring makes it or only an injection does
(R339). -/
def execFaultRailFault (source : Fin 512) (code : Fin 4 × Bool) (s : State) : Res :=
  .next (if s.inReset then s else s.faultCycle [{ source := source, rail := some code.1, syndrome := 0, real := code.2, frame := 0 }])

/-- The cause at a source that holds its line only while its condition lasts. -/
def lastingSource (src : Nat) : Bool :=
  (decide (0x46 ≤ src) && decide (src ≤ 0x48)) || (decide (0x50 ≤ src) && decide (src ≤ 0x57)) || src == 0x5B || src == 0x5D
    || (decide (0x60 ≤ src) && decide (src ≤ 0x7F))

/-- The referee looks again at a pair reported lost before its line may return to idle. -/
def State.lostReview (s : State) (src : Nat) : State :=
  if src = 0x46 then s.lostAgain 0
  else if src = 0x47 then s.lostAgain 2
  else if src = 0x48 then s.each (List.range 32) fun s k => s.lostAgain (4 + 2 * k)
  else s

/-- A source's pair returns to 01: its cause has ended, or its rail fault. A rail fault ends at the legal code that the pair
then shows: 10, and no event, while a cause or the injector drives it (R328). -/
def execFaultSourceIdle (source : Fin 512) (s : State) : Res :=
  let src := source.val
  let drive := match s.flt.inj with | some (x, m) => if x = src then 1 + m % 2 else 0 | none => 0
  let s := s.lostReview src
  let bad := drive == 1 || (lastingSource src && (s.line src).cause)
  if !s.collectorOn ∨ (s.line src).pair = 0 ∨ drive = 2 then .next s
  else if bad then .next (s.setPair src 1)
  else .next ((s.unreport src).setPair src 0)

/-- REACT ends (Table FL-2). -/
def execCollectorReactEnd (s : State) : Res :=
  if s.collectorOn ∧ s.colState = colReact then .next (s.setCol colHold) else .next s

/-- 1 µs after ACTIVE returned to 0 the FAILOVER reaction lets go of the unit's fault input (R333). -/
def execFailoverInputRelease (source : Fin 512) (s : State) : Res :=
  match s.sourceUnit source.val with
  | some u =>
    if s.on (Reg.fltSrcActive source.val) then .next s
    else .next ({ s with flt := { s.flt with inputs := s.flt.inputs.erase source.val } }.lostAgain u)
  | none => .next s

/-! ## Clearing (R336) -/

/-- The pair of RAIL source `u` stands at 10: the unit's line is at error, whatever the referee makes of it, or the injector drives it, be the
pair in use or not (R328, R338); while its domain is off it is held at 01. -/
def State.lineBad (s : State) (u : Nat) : Bool :=
  decide (u < 68) && s.sourceOn u && ((s.unitUsed u && !s.unitLine u) || s.injected u false)

/-- ACTIVE of source `src`: its pair shows 10 or a rail fault (R328). -/
def State.srcActive (s : State) (src : Nat) : Bool := s.on (Reg.fltSrcActive src) || s.lineBad src

/-- LEVEL of source `src` returns to 0, and a HALT_PORT hold ends with it (R333). -/
def State.levelClear (s : State) (src : Nat) : State :=
  let s := s.setLevel src 0
  match sourcePort src with
  | some n => s.haltRelease n
  | none => s

/-- FLT.CLEAR (Table FL-5). -/
def execFltClear (value : Word) (s : State) : Res :=
  let src := s.rd Reg.fltRecSrcSource
  let r := if value.toNat / 2 ^ 16 ≠ s.rd Reg.fltStatusGen then 1 else if s.colState ≠ colHold then 2
    else if s.srcActive src then 3 else 0
  let s := s.wr Reg.fltClearStatusResult r
  if r ≠ 0 then .next s
  else
    let s := (s.setCol colIdle).clrs [Reg.fltStatusOvf, Reg.fltRecSrcTimeValid, Reg.fltRecSrcInj, Reg.fltRecSrcRail, Reg.fltRecSrcReaction,
      Reg.fltRecSrcClass, Reg.fltRecSrcSource, Reg.fltRecSyndSyndrome, Reg.fltRecSecLoSec, Reg.fltRecSecHiSec, Reg.fltRecNsNs, Reg.fltRecFracFrac]
    .next (s.levelClear src)

/-- A write of CLR of a source (R336). -/
def execFltSrcClr (source : Fin 512) (value : Word) (s : State) : Res :=
  let src := source.val
  if !bit value.toNat 8 || fltClass src == 0 then .next s
  else if s.srcActive src || (s.colState != colIdle && s.rd Reg.fltRecSrcSource == src) then
    .next (s.wr Reg.fltStatusClrRefused 1)
  else .next (s.levelClear src)

/-! ## Injection (R338, R339) -/

/-- FLT.INJ_CMD (Table FL-5). MODE ERROR at a RAIL source drives the unit's health line. -/
def execFltInject (value : Word) (s : State) : Res :=
  let v := value.toNat
  let src := v % 512
  let mode := v / 2 ^ 12 % 2
  let r := if !s.on Reg.fltCfgInjEn then 1 else if fltClass src = 0 then 2 else if s.on Reg.fltInjStatusBusy then 3
    else if v / 2 ^ 16 = 0 then 4 else 0
  let s := s.wr Reg.fltInjStatusResult r
  if r ≠ 0 then .next s
  else
    let s := s.wrs [(Reg.fltInjStatusSource, src), (Reg.fltInjStatusBusy, 1)]
    let l := if src ≤ 0x43 ∧ mode = 0 then src :: s.flt.inputs.erase src else s.flt.inputs
    .next { s with flt := { s.flt with inj := some (src, mode), inputs := l } }

/-- The injection drive ends (R338, R339). -/
def execFltInjectEnd (s : State) : Res :=
  match s.flt.inj with
  | none => .next s
  | some (src, m) =>
    let l := if src ≤ 0x43 ∧ m = 0 then s.flt.inputs.erase src else s.flt.inputs
    let s := { s with flt := { s.flt with inj := none, inputs := l } }
    .next ((s.wrs [(Reg.fltInjStatusBusy, 0), (Reg.fltInjStatusDone, 1)]).when (decide (2 ≤ m)) fun s => s.wr Reg.fltInjStatusCollided 1)

/-! ## Record (R342, R343) -/

/-- FAULT_POLICY passes R343. `member n`: lane or port `n` is a member of a protected pair. -/
def checkFaultPolicy (member : Nat → Bool) (v : List Byte) : Bool :=
  let re (i : Nat) : Nat := u8 v (16 + i)
  let unit_ (i : Nat) : Bool := decide (i ≤ 0x43) || i == 0x52 || i == 0x53 || i == 0x59 || i == 0x5A
  let port (i : Nat) : Bool := decide (0x80 ≤ i) && decide (i ≤ 0xFF)
  v.length == 528 && decide (u8 v 0 ≤ 1) && zeros v 1 15
    && (List.range 512).all fun i =>
      re i == 0 || (decide (re i ≤ 5) && (match fltClass i with
          | 1 => re i == 1
          | 2 => true
          | 3 => re i != 1
          | _ => false)
        && (re i != 3 || unit_ i || (port i && member (i - 0x80))) && (re i != 4 || port i))

/-- FAULT_POLICY is applied (R342). -/
def applyFaultPolicy (v : List Byte) (s : State) : State :=
  (s.wr Reg.fltCfgInjEn (u8 v 0)).each (List.range 512) fun s i =>
    if u8 v (16 + i) = 0 then s else s.wr (Reg.fltSrcReaction i) (u8 v (16 + i) - 1)

end Sys2Proof.Machine
end

