-- ==== Sys2Proof/Machine/HostReset.lean ====
section
/-! DEFINITION. The host-view reset and the reset of the PCIe endpoint (R59, R389, R405, Table IM-17). -/
namespace Sys2Proof.Machine

/-- The fields of ring `r` (Table HI-12). -/
def ringFlds (r : Nat) : List Fld :=
  [Reg.hifRingBaseLoBaseLo r, Reg.hifRingBaseHiBaseHi r, Reg.hifRingCtlEn r, Reg.hifRingCtlSize r, Reg.hifRingDevIdxDevIdx r,
   Reg.hifRingHostIdxHostIdx r, Reg.hifRingWbLoWbLo r, Reg.hifRingWbHiWbHi r]

/-- The configuration space and the MSI-X state of the endpoint reset (R389). -/
def State.endpointReset (s : State) : State :=
  { s with hif := { s.hif with fnMask := false, vecMask := 0xFFFFFFFFFFFFFFFF, pba := 0, table := [], cfg := [], d3 := false } }.wrs
    [(Reg.hifStatusBme, 0), (Reg.hifStatusMsixEn, 0)]

/-- Host frames that wait for a receive buffer are discarded (Table HI-10). -/
def State.hostqDrop (s : State) : State :=
  (s.each s.fab.hostq fun s x => (s.freeCells x.1).setFrame x.1 {}).setHostq []

/-- The HIF block at the end of a host-view reset (R405). -/
def State.hifReset (s : State) : State :=
  let s := s.each (List.range 6) fun s r => s.clrs (ringFlds r)
  let s := s.each (List.range 8) fun s k => s.clrs [Reg.hifTcqDataData k, Reg.hifLnqDataData k, Reg.hifTcrDataData (k % 4)]
  let s := s.clrs [Reg.hifIntStatusStatus, Reg.hifIntMaskMask, Reg.hifIrqMaskMask, Reg.hifAccErrCount, Reg.hifAccErrValid, Reg.hifAccErrPath,
    Reg.hifAccErrType, Reg.hifAccAddrBar2, Reg.hifAccAddrAddr]
  let s := s.wr Reg.hifStatusMsixEn 0
  ({ s with hif := { s.hif with fnMask := false, vecMask := 0xFFFFFFFFFFFFFFFF, pba := 0, table := [], tcr := [] } }.hostqDrop).fifoStatus

/-- The items of the other blocks that a host-view reset restores (Table IM-17 and the chapters' own words). -/
def State.hostViewBlocks (s : State) : State :=
  let s := s.clrs ([Reg.redCmdStatusResult, Reg.fltClearStatusResult, Reg.fltInjStatusResult, Reg.tsPgCmdStatusPg, Reg.tsPgCmdStatusResult,
    Reg.tsPgStgCfgPol, Reg.tsPgStgCfgTb, Reg.tsPgStgCfgMode, Reg.tsPgStgStartSecLoSec, Reg.tsPgStgStartSecHiSec, Reg.tsPgStgStartNsNs,
    Reg.tsPgStgStartFracFrac, Reg.tsPgStgPeriodLoPeriod, Reg.tsPgStgPeriodHiPeriod, Reg.tsPgStgWidthLoWidth, Reg.tsPgStgWidthHiWidth,
    Reg.tsPgStgCountCount] ++ (List.range 8).map Reg.tkTbFeedStatusResult)
  let s := s.when (s.rd Reg.secReqStatusClaim == 1) fun s => s.wr Reg.secReqStatusClaim 0
  (s.tblReset).pmonReset

/-- APPLY has completed and the device is not in HALT: BAR0 is open, and a host-view reset may start (R59). -/
def State.hostOpen (s : State) : Bool := decide (6 ≤ s.rd Reg.devBootPhase) && decide (s.rd Reg.devBootPhase ≤ 9)

/-- A host-view reset starts, or joins the one in progress (R59, R405). -/
def State.hostViewStart (s : State) : State :=
  if s.on Reg.devResetStatusHvBusy then s
  else
    let s := (s.wr Reg.devResetStatusHvBusy 1).bump Reg.devResetStatusHvCount
    let s := s.jwrite (s.jrec 5 [2, 0, 0, 0, 0, 0, 0, 0])
    s.hostViewBlocks.hostqDrop

/-- A PCIe hot reset: the endpoint resets, and a host-view reset starts where one may (R59, R389). -/
def State.pcieReset (s : State) : State :=
  let s := s.endpointReset
  if s.hostOpen then s.hostViewStart else s

/-- A PCIe Function Level Reset (R59). -/
def execPcieFlr (s : State) : Res := .next s.pcieReset

/-- The host-view reset ends (R405). -/
def execHvResetDone (s : State) : Res :=
  if s.on Reg.devResetStatusHvBusy then .next (s.hifReset.wr Reg.devResetStatusHvBusy 0) else .next s

end Sys2Proof.Machine
end

