-- ==== Sys2Proof/Machine/Power.lean ====
section
/-! DEFINITION. Power states, domain ramps, drains, sheds and the POWER record (16_security_debug_power). -/
namespace Sys2Proof.Machine

/-! ## Power states and requests (Tables SP-8 to SP-11) -/

/-- START. -/
def pwrStart : Nat := 0
/-- RUN. -/
def pwrRun : Nat := 1
/-- TIMING. -/
def pwrTiming : Nat := 2
/-- KEEP. -/
def pwrKeep : Nat := 3
/-- DORMANT. -/
def pwrDormant : Nat := 4
/-- OFF. -/
def pwrOff : Nat := 5
/-- HALT. -/
def pwrHalt : Nat := 6
/-- CHANGING. -/
def pwrChanging : Nat := 7

/-- PWR.STATUS.STATE. -/
def State.pwrState (s : State) : Nat := s.rd Reg.pwrStatusState

/-- The power state changes; the PWR interrupt follows (Table HI-9). -/
def State.setPwr (s : State) (st : Nat) : State :=
  if s.pwrState = st then s else (s.wr Reg.pwrStatusState st).intr 5

/-- The effective request (R375). -/
def State.pwrEffective (s : State) : Nat :=
  let pin := if s.on Reg.pwrCfgPinEn then s.rd Reg.pwrStatusPinReq else 0
  let sw := if s.on Reg.pwrCfgHostEn then s.rd Reg.pwrStatusSwReq else s.rd Reg.pwrCfgInitReq
  let shed := if s.on Reg.pwrStatusShed then s.rd Reg.pwrCfgShedTarget else 0
  max pin (max sw shed)

/-- The side that KEEP keeps (R377): the active timekeeper's where its root is ACTIVE or STANDBY, else the active
root's. -/
def State.keepSide (s : State) : Nat :=
  let k := s.activeTk
  if s.unit k = unitActive ∨ s.unit k = unitStandby then k else s.activeRoot

/-- Quadrant `q` holds a TIMING_LANES lane. -/
def State.timingQuadrant (s : State) (q : Nat) : Bool := s.rd (Reg.pwrTimingLanesMask q) != 0

/-- Domain `d` is on in the state that request `t` asks for (Table SP-8). -/
def State.pwrWants (s : State) (t d : Nat) : Bool :=
  let host := s.boot.pcieRef && (t == 0 || s.on Reg.pwrCfgHostLow)
  if d = 0 then true
  else if 3 ≤ t then false
  else if d = 1 ∨ d = 2 then t ≤ 1 || s.keepSide == d - 1
  else if d = 9 then host
  else if d = 10 then true
  else if t = 0 then true
  else if t = 1 then decide (5 ≤ d) && s.timingQuadrant (d - 5)
  else false

/-- Ramp-up order (R376): the active side first. -/
def State.rampOrder (s : State) : List Nat :=
  let a := s.activeRoot
  [1 + a, 2 - a, 10, 9, 5, 6, 7, 8, 3, 4]

/-! ## A domain goes down, comes up (Table SP-12) -/

/-- The domain that a register's word lies in (R392, R427): the lane, port and engine pages and the transmit queues with
their quadrant, the tables and the tag buffer with PD3, the switch core with PD4, the outputs and captures with PD10, the rings with
PD9; every other register stays reachable. -/
def domainOf (a : Nat) : Nat :=
  if 0x800000 ≤ a ∧ a < 0x880000 then 5 + (a - 0x800000) / 0x1000 / 32
  else if 0x1000000 ≤ a ∧ a < 0x1080000 then 5 + (a - 0x1000000) / 0x1000 / 32
  else if 0x501000 ≤ a ∧ a < 0x505000 then 5 + (a - 0x501000) / 0x80 / 32
  else if 0x610000 ≤ a ∧ a < 0x611000 then 5 + (a - 0x610000) / 0x20 / 32
  else if 0x1800000 ≤ a ∧ a < 0x2000000 then 3
  else if 0x2000000 ≤ a ∧ a < 0x2800000 then 4
  else if 0x2A20000 ≤ a ∧ a < 0x2A30000 then 3
  else if (0x300010 ≤ a ∧ a < 0x301000) ∨ (0x602000 ≤ a ∧ a < 0x610000) then 10
  else if 0x2D00100 ≤ a ∧ a < 0x2D001C0 then 9
  else if 0x2D00200 ≤ a ∧ a < 0x2D002A0 then 3
  else 0

/-- The key of LANE.CFG.QRATE of a lane, a read-only field that shows what the image set (Table LE-13). -/
def isQrate (k : Nat) : Bool := decide (0x800000 ≤ k / 32) && decide (k / 32 < 0x880000) && k / 32 % 0x1000 == 4 && k % 32 == 3

/-- The field at a key of the register file is kept in the configuration shadow: IMG or RW, or the quad rate of the image (R377,
R381). -/
def keptField (k : Nat) : Bool :=
  match fieldsAt (k / 32) with
  | none => true
  | some l => match l.find? fun f => f.lo == k % 32 with
    | some f => f.acc == .img || f.acc == .rw || isQrate k
    | none => true

/-- Status fields and counters of domain `d` are at their reset values. -/
def State.clearDomain (s : State) (d : Nat) : State :=
  { s with regs := s.regs.filter fun e => domainOf (e.1 / 32) != d || keptField e.1
           cnt48 := s.cnt48.filter fun e => domainOf e.1 != d }

/-- A unit whose power a power state takes counts as OFF; an active one first hands its role to an eligible standby,
reason POWER (R311, Table SP-12). -/
def State.unitPowerOff (s : State) (u : Nat) : State :=
  let s := s.when (s.unit u == unitActive && s.unitEligible (unitOther u)) fun s => s.takeOver (unitOther u) 5
  let s := s.when (decide (4 ≤ u) && s.unit u == unitActive) fun s => s.wr (Reg.redPairStatusDataActive ((u - 4) / 2)) 0
  let s := s.when (s.isLost u && s.unit u == unitActive) fun s => s.setLost u false
  s.unitOff u

/-- The member unit of destination `n` goes OFF with its lane or port. -/
def State.memberOff (s : State) (n : Nat) : State :=
  match s.memberUnit n with
  | some u => s.unitPowerOff u
  | none => s

/-- A power state takes lane or port `n` down: its unit is OFF, and its recovered clock is lost with it. -/
def State.destPowerOff (s : State) (n : Nat) : State :=
  let s := if s.isDest n then s.memberOff n else s
  if s.isPort n then s.portToOff n else s.when (s.isLeat n) fun s => s.laneToDown n

/-- The recovered clocks of quadrant `q` are lost with reason POWER (R65). -/
def State.rcsPowerOff (s : State) (q : Nat) : State :=
  s.each ((List.range 32).flatMap fun i => s.rcsOfLane (32 * q + i)) fun s c => s.candLost c 2

/-- The quadrant is powered again: its recovered clocks stay in LOS, for want of signal (Table FT-5). -/
def State.rcsPowerOn (s : State) (q : Nat) : State :=
  s.each ((List.range 32).flatMap fun i => s.rcsOfLane (32 * q + i)) fun s c =>
    s.when (s.candState c == candLos && s.rd (Reg.refselCandStatusReason c) == 2) fun s => s.wr (Reg.refselCandStatusReason c) 1

/-- The units of the lanes and ports that one move takes down and that do not serve go OFF first: none of them is a standby that the
move's active units could hand their role to (R311, R377). -/
def State.idleMembersOff (s : State) (l : List Nat) : State :=
  s.each l fun s n => match s.memberUnit n with
    | some u => s.when (s.isDest n && s.unit u != unitActive) fun s => s.unitPowerOff u
    | none => s

/-- A power state takes the lanes and ports of a list down in one move. -/
def State.destsPowerOff (s : State) (l : List Nat) : State := (s.idleMembersOff l).each l State.destPowerOff

/-- Quadrant `q` stops: its lanes, ports, engines and quads, and their buffers. -/
def State.quadrantStop (s : State) (q : Nat) : State :=
  let lanes := (List.range 32).map (32 * q + ·)
  let s := (s.destsPowerOff lanes).rcsPowerOff q
  let s := s.each ((List.range 8).map (8 * q + ·)) fun s i =>
    { s.quadStop i with boot := { s.boot with quadsOn := setBit s.boot.quadsOn i false, quadsDone := setBit s.boot.quadsDone i false } }.unreport
      (0x60 + i)
  s.each lanes fun s n =>
    { s with tt := { s.tt with eng := Tab.set s.tt.eng n {} {} }, lan := Tab.set s.lan n {} {}, prt := Tab.set s.prt n {} {} }.setTxq n []

/-- Side `r` (root and timekeeper) stops: the referee moves the roles first. -/
def State.sideStop (s : State) (r : Nat) : State :=
  let s := (s.unitPowerOff r).unitPowerOff (2 + r)
  let s := ((s.rootStop r).tkStop r).tkStandbyEnd
  s.pgSync.calTbSync

/-- PD10 stops: outputs and pulse pins at high impedance, capture queues wiped (R55, R96, R219). The pulse generators compare in
K6 or K7 cycles (R213), outside PD10: only their placers stop. -/
def State.outputsStop (s : State) : State :=
  let s := { s.synthOff with syn := { s.syn with oss := [], ckos := [], sync := none }
                             pul := { s.pul with cap := [], last := [] } }
  s.wrs [(Reg.tsStatusCapNe, 0), (Reg.tsStatusCapOvf, 0)]

/-- The Gleaning tag buffer is wiped with PD3 or PD4 (Table IM-14). -/
def State.tagBufferWipe (s : State) : State := { s with pmon := { s.pmon with slots := [] } }

/-- Domain `d` starts to ramp down: its clock gates close and what it holds stops. A run of Dressing that measured in it aborts; one
that follows the abort finds the domain off (R234, R239). -/
def State.domainDown (s : State) (d : Nat) : State :=
  let s := match d with
    | 1 => s.sideStop 0
    | 2 => s.sideStop 1
    | 3 => s.tablesWipe.tagBufferWipe
    | 4 => s.flushAll.tagBufferWipe
    | 9 => (s.wrs [(Reg.hifStatusLinkUp, 0), (Reg.hifStatusSpeed, 0), (Reg.hifStatusWidth, 0)]).pcieReset
    | 10 => s.outputsStop
    | d => s.quadrantStop (d - 5)
  let s := { s with pwr := { s.pwr with gates := setBit s.pwr.gates d false } }
  let s := s.when (bit s.dress.domains d && decide (5 ≤ d) && d != 9) fun s => s.calAbort 7
  let s := (s.clearDomain d).sourcesOff d
  if d = 3 then s.fifoStatus else if d = 4 then s.reserve else s

/-- The PCIe link trains where R389 lets it: PERST_N released, PD9 on, K14 running, PCIE_EN or HALT, and the supplies in range, without
which its transmitters carry no signal (R409). The speed and
width that the partner reaches are free values. -/
def State.linkTrain (s : State) : State :=
  let k14 := s.pins.pcieClk && s.pdOn 9
  if !k14 || !s.pins.inRange || !s.pins.perstN || s.on Reg.hifStatusLinkUp || !(s.on Reg.hifCfgPcieEn || s.inPhase 10) then s
  else
    let i := s.free
    (s.draw.draw).wrs [(Reg.hifStatusLinkUp, 1), (Reg.hifStatusSpeed, 1 + Config.freeNat i % 4),
      (Reg.hifStatusWidth, 2 ^ (Config.freeNat (i + 1) % 3))]

/-- The PCIe link goes down. -/
def State.linkDown (s : State) : State := s.wrs [(Reg.hifStatusLinkUp, 0), (Reg.hifStatusSpeed, 0), (Reg.hifStatusWidth, 0)]

/-- An event that acts as a PCIe hot reset (R389): PERST_N asserted (`perst`), a return from D3hot or a link-down. Unless
PERST_N holds it, the link trains again. -/
def execPcieHotReset (perst : Bool) (s : State) : Res :=
  let s := { s with pins := { s.pins with perstN := s.pins.perstN && !perst } }
  .next s.linkDown.pcieReset.linkTrain

/-- PERST_N goes high: the link trains once PD9 and K14 run (R415). -/
def execPerstNRelease (s : State) : Res := .next { s with pins := { s.pins with perstN := true } }.linkTrain

/-- The PCIe reference clock stops (`present` false) or returns: K14 follows it (R21), and the link goes down without K14. -/
def execPcieRefclkLoss (present : Bool) (s : State) : Res :=
  let s := { s with pins := { s.pins with pcieClk := present } }
  .next (if present then s.linkTrain else if s.on Reg.hifStatusLinkUp then s.linkDown.pcieReset else s)

/-- The wipe of the packet buffer leaves every cell zero (R55, R282). -/
def State.bufferWipe (s : State) : State := { s with fab := { s.fab with cellMem := [] } }

/-- The clock gates of domain `d` open, its wipe done and its configuration reloaded (R55, R377). Only then can Dressing measure in it:
the trigger POWER_ON of its ramp follows (R232, R234). -/
def State.domainUp (s : State) (d : Nat) : State :=
  let s := { s with pwr := { s.pwr with gates := setBit s.pwr.gates d true } }
  let s := s.when (decide (5 ≤ d) && d != 9 && s.inPhase 9) fun s => s.calTrigger 6 0
  match d with
  | 3 => s.tablesLoad.tagBufferWipe
  | 4 => s.bufferWipe.tagBufferWipe
  | 1 | 2 =>
    let r := d - 1
    let s := (s.rootStart r).unitStart r
    s.when (s.boot.applied && (List.range 8).all fun n => !s.tbOn r n) fun s =>
      ((s.tkEnable r).when (r == s.activeTk) fun s => s.unitStart (2 + r)).pgSync.calTbSync
  | 9 => s.linkTrain
  | 10 => (s.osStart.ckoSat.tapsDirect).when (s.inPhase 9) State.pgRun
  | d => if 5 ≤ d then (s.rcsPowerOn (d - 5)).ttStart else s

/-! ## Ramps (R376, R379) -/

/-- A ramp of domain `d` starts. -/
def State.ramp (s : State) (d : Nat) (up : Bool) : State :=
  let s := { s with pwr := { s.pwr with up := up } }.wr Reg.pwrDomainsRamping (2 ^ d)
  if up then s else s.domainDown d

/-- The selector follows the power state (R76, R77): held in HOLDOVER in KEEP, FREERUN in DORMANT, free otherwise; the output rank follows (R68). Without a REFSEL
record too it is held in HOLDOVER in KEEP, as R77 says, where R82 says FREERUN for the whole reset cycle: the two rules differ and the
spec does not say which prevails (DESIGN CHOICE, log entry 67). -/
def State.selPower (s : State) (t : Nat) : State :=
  if t = 2 then
    let s := if s.syn.conn = rootHold then s else s.disconnect
    ({ s with refsel := { s.refsel with held := true } }.wrs [(Reg.refselStateTarget, 31), (Reg.refselStatePhase, 0)]).setSel 4 |>.updQl
  else if 3 ≤ t then
    let s := { s with refsel := { s.refsel with held := true } }.wrs [(Reg.refselStateTarget, 31), (Reg.refselStatePhase, 0)]
    (((s.setSelected 31).setSel 0).rootsDrive rootFree).updQl
  else if s.refsel.held then { s with refsel := { s.refsel with held := false } }.selEvalFree
  else s

/-- TIMING takes down every port and every lane that it does not keep; RUN lets all of them go again (Table SP-12). -/
def State.lanesPower (s : State) (t : Nat) : State :=
  if t = 1 then
    let s := { s with pwr := { s.pwr with timing := true } }
    s.destsPowerOff ((List.range 128).filter fun n => s.isPort n || (s.isLeat n && !s.maskBit Reg.pwrTimingLanesMask n))
  else
    let s := { s with pwr := { s.pwr with timing := false } }
    s.each (List.range 128) fun s n => if s.isPort n then s.portTry n else s.laneRelease n

/-- The change is complete: the requested state (Table SP-11). OFF waits for the journal. -/
def State.pwrDone (s : State) (t : Nat) : State :=
  if t = 4 ∧ s.jrnlQ ≠ [] then s
  else
    let s := { s with pwr := { s.pwr with shedFast := false } }
    let s := (s.setPwr (t + 1)).bumpWrap Reg.pwrStatusGen
    let s := s.selPower t
    if t = 0 then s.lanesPower 0 else s

/-- The next ramp of a change, or its end (R376). Nothing while a ramp, a drain or the start of a shed is under way. TIMING takes
its lanes and ports down once the frames have left (Table SP-12). -/
def State.pwrAdvance (s : State) : State :=
  if s.pwrState ≠ pwrChanging ∨ s.on Reg.pwrDomainsRamping ∨ s.pwr.drain ∨ s.pwr.shedWait then s
  else
    let t := s.rd Reg.pwrStatusTarget
    let s := s.wr Reg.pwrStatusKeepSide s.keepSide
    let s := s.when (t == 1 && !s.pwr.timing) fun s => s.lanesPower 1
    let on_ := s.rd Reg.pwrDomainsOn
    match s.rampOrder.reverse.find? fun d => bit on_ d && !s.pwrWants t d with
    | some d => s.ramp d false
    | none => match s.rampOrder.find? fun d => !bit on_ d && s.pwrWants t d with
      | some d => s.ramp d true
      | none => s.pwrDone t

/-- The last frame inside has left before the drain's 1 ms are over: the ramps begin (R377). -/
def State.drained (s : State) : State :=
  if s.pwr.drain && s.fab.frames == [] then { s with pwr := { s.pwr with drain := false } }.pwrAdvance else s

/-- The effective request differs from the state: CHANGING (Table SP-11). Leaving RUN drains first, except for OFF, which
is a shed. -/
def State.pwrChange (s : State) (t : Nat) : State :=
  let leaving := s.pwrState == pwrRun
  let s := (s.setPwr pwrChanging).bump Reg.pwrCountsChanges
  let busy := leaving && t != 4 && s.fab.frames != []
  let s := { s with pwr := { s.pwr with drain := busy, shedFast := t == 4 } }
  s.pwrAdvance

/-- The effective request may have changed (R375). In START and HALT it is recorded only. -/
def State.pwrUpdate (s : State) : State :=
  let t := s.pwrEffective
  let s := s.wr Reg.pwrStatusTarget t
  let st := s.pwrState
  if pwrRun ≤ st ∧ st ≤ pwrDormant then (if t + 1 = st then s else s.pwrChange t)
  else if st = pwrChanging then s.pwrAdvance
  else s

/-- The first ramp of a list that changes a domain starts; the rest waits. -/
def State.bootRampOf (s : State) : List (Nat × Bool) → State
  | [] => { s with pwr := { s.pwr with bootQ := [] } }
  | (d, up) :: l =>
    if bit (s.rd Reg.pwrDomainsOn) d = up then State.bootRampOf s l
    else { s with pwr := { s.pwr with bootQ := l } }.ramp d up

/-- The next ramp that start-up or HALT asked for. -/
def State.bootRamp (s : State) : State := if s.on Reg.pwrDomainsRamping then s else s.bootRampOf s.pwr.bootQ

/-- Start-up asks for ramps, one after the other. -/
def State.bootRamps (s : State) (l : List (Nat × Bool)) : State :=
  { s with pwr := { s.pwr with bootQ := s.pwr.bootQ ++ l } }.bootRamp

/-- The domain that ramps. -/
def State.rampingDomain (s : State) : Option Nat := (List.range 11).find? fun d => bit (s.rd Reg.pwrDomainsRamping) d

/-- A ramp completes: the domain is on or off, and the next ramp or the new state follows (R376, R379). -/
def State.domainRamped (s : State) : State :=
  match s.rampingDomain with
  | none => s
  | some d =>
    let up := s.pwr.up
    let s := (s.wrBit Reg.pwrDomainsOn d up).wr Reg.pwrDomainsRamping 0
    let s := s.when (up && decide (d ≤ 2) && !bit s.sec.scanStop d) fun s => s.domainUp d
    if s.pwrState = pwrChanging then s.pwrAdvance
    else s.bootRamp

/-- A switched domain completes its ramp. -/
def execDomainRampDone (s : State) : Res := .next s.drained.domainRamped

/-- A ramped domain's wipe and reload are done: its clock gates open (R55). -/
def execDomainWipeDone (domain : Fin 11) (s : State) : Res :=
  let d := domain.val
  if bit (s.rd Reg.pwrDomainsOn) d && !s.pdOn d && !bit s.sec.scanStop d then .next (s.domainUp d) else .next s

/-! ## Requests (R375) -/

/-- A PWR_REQ value stable for 1 ms is the pin request. -/
def execPwrReqPinStable (req : Fin 4) (s : State) : Res :=
  if s.inReset then .next s
  else .next ({ s with pins := { s.pins with pwrReq := req.val } }.wr Reg.pwrStatusPinReq req.val).pwrUpdate

/-- K1 runs: a root has locked, which started the shaft and K9 (Table IM-10), and the active root's DCO runs (R85). In a HALT
before that a root that runs unlocked clocks nothing: R54 keeps K9 running and starts none (DEDUCED, log entry 56). -/
def State.k1On (s : State) : Bool := s.boot.shaft && s.rootRuns s.activeRoot

/-- A host request: STALE, NOT_ALLOWED, or accepted. The host path runs on K14 and K9: where K9 stands still, as in DORMANT and OFF, none
arrives (R375). -/
def State.hostPwr (s : State) (gen req : Nat) : State :=
  if !s.k1On then s
  else if gen ≠ s.rd Reg.pwrStatusGen then s.wr Reg.pwrCmdStatusResult 1
  else if !s.on Reg.pwrCfgHostEn || decide (5 ≤ req) then s.wr Reg.pwrCmdStatusResult 2
  else ((s.wr Reg.pwrCmdStatusResult 0).wr Reg.pwrStatusSwReq req).pwrUpdate

/-- A request for RUN. -/
def execPwrHostReqRun (gen : Fin 65536) (s : State) : Res := .next (s.hostPwr gen.val 0)

/-- A request for TIMING. -/
def execPwrHostReqTiming (gen : Fin 65536) (s : State) : Res := .next (s.hostPwr gen.val 1)

/-- A request for KEEP. -/
def execPwrHostReqKeep (gen : Fin 65536) (s : State) : Res := .next (s.hostPwr gen.val 2)

/-- A request for DORMANT. -/
def execPwrHostReqDormant (gen : Fin 65536) (s : State) : Res := .next (s.hostPwr gen.val 3)

/-- A request for OFF. -/
def execPwrHostReqOff (gen : Fin 65536) (s : State) : Res := .next (s.hostPwr gen.val 4)

/-- REQ 5 to 7 is answered NOT_ALLOWED, after STALE. -/
def execPwrHostReqReserved (gen : Fin 65536) (s : State) : Res := .next (s.hostPwr gen.val 7)

/-- 1 ms after RUN was left, frames still inside are discarded, and the ramps begin (R377). -/
def execPwrDrainTimeout (s : State) : Res :=
  if s.pwr.drain then .next { s.flushAll with pwr := { s.pwr with drain := false } }.pwrAdvance else .next s

/-! ## Power failure (R383) -/

/-- POWER_FAIL_N is asserted for `widthNs` so far: frames stop and a shed begins, without a drain. A pulse shorter than
100 ns is filtered out. It has no effect in START, HALT, DORMANT and OFF (R383). -/
def execPowerFailAssert (widthNs : Nat) (s : State) : Res :=
  if widthNs < 100 then .next s else
  let s := { s with pins := { s.pins with powerFail := true } }
  let st := s.pwrState
  if st = pwrStart ∨ st = pwrHalt ∨ st = pwrDormant ∨ st = pwrOff ∨ s.on Reg.pwrStatusShed = true then .next s
  else
    let s := (s.wr Reg.pwrStatusShed 1).bump Reg.pwrCountsSheds
    let s := s.when (st != pwrChanging) fun s => (s.setPwr pwrChanging).bump Reg.pwrCountsChanges
    let s := { s with pwr := { s.pwr with drain := false, shedFast := true, shedWait := true } }
    .next (s.wr Reg.pwrStatusTarget s.pwrEffective)

/-- 1 µs after the assertion the ramps towards SHED_TARGET start; a domain ramping up reverses. -/
def execShedRampStart (s : State) : Res :=
  if !s.pwr.shedWait then .next s
  else
    let s := { s with pwr := { s.pwr with shedWait := false } }
    if s.on Reg.pwrDomainsRamping then .next { s with pwr := { s.pwr with up := false } }
    else .next s.pwrAdvance

/-- The shed in force ends: the device returns to the effective request, from OFF too where a shallower one stands (R375, R383). -/
def State.shedEnd (s : State) : State :=
  let s := { s with pwr := { s.pwr with shedFast := false, shedWait := false } }.wr Reg.pwrStatusShed 0
  let t := s.pwrEffective
  if s.pwrState = pwrOff ∧ t < 4 then (s.wr Reg.pwrStatusTarget t).pwrChange t else s.pwrUpdate

/-- POWER_FAIL_N has been deasserted for RELEASE_MS: the shed ends. -/
def execShedRelease (s : State) : Res :=
  let s := { s with pins := { s.pins with powerFail := false } }
  .next (if s.on Reg.pwrStatusShed then s.shedEnd else s)

/-! ## Record (R386, R387) -/

/-- POWER passes R387. `tt n`: lane `n` is LEAT with TT_EN; `pcieRef`: CLOCK_PLAN's PCIE_REF. -/
def checkPower (tt : Nat → Bool) (pcieRef : Bool) (v : List Byte) : Bool :=
  let lanes := unle (slice v 16 16)
  v.length == 32 && decide (u8 v 0 ≤ 3) && decide (u8 v 1 < 8) && decide (u8 v 2 ≤ 4) && zeros v 3 1 && decide (u16 v 4 ≤ 10000)
    && zeros v 6 10 && (List.range 128).all (fun n => !bit lanes n || tt n)
    && (u8 v 0 != 1 || lanes != 0) && (!bit (u8 v 1) 2 || pcieRef)

/-- POWER is applied (R386). -/
def applyPower (v : List Byte) (s : State) : State :=
  let f := u8 v 1
  let s := s.wrs [(Reg.pwrCfgInitReq, u8 v 0), (Reg.pwrStatusSwReq, u8 v 0), (Reg.pwrCfgPinEn, 1 - f % 2), (Reg.pwrCfgHostEn, 1 - f / 2 % 2),
    (Reg.pwrCfgHostLow, f / 4), (Reg.pwrCfgShedTarget, orDef (u8 v 2) 2), (Reg.pwrCfgReleaseMs, orDef (u16 v 4) 100)]
  s.each (List.range 4) fun s k => s.wr (Reg.pwrTimingLanesMask k) (u32 v (16 + 4 * k))

end Sys2Proof.Machine
end

