-- ==== Sys2Proof/Machine/Journal.lean ====
section
/-! DEFINITION. The MRAM journal and the full reset (R56 to R58, R340). -/
namespace Sys2Proof.Machine

/-- The 32 bytes of journal slot `i`. A slot that nothing has written, or a clear, holds a record that fails its CRC
(R56). -/
def State.slotBytes (s : State) (i : Nat) : List Byte := Tab.get s.journal i (List.replicate 32 0)

/-- The CRC of a journal record is good: CRC-16 over bytes 0, 1 and 4 to 31 (R57). -/
def recGood (r : List Byte) : Bool := u16 r 2 == crc16 (slice r 0 2 ++ slice r 4 28)

/-- The record with the highest SEQ whose CRC is good, with its slot (R56). -/
def State.newest (s : State) : Option (Nat × List Byte) :=
  s.journal.foldl (fun b e => if !recGood e.2 then b else match b with
    | some (_, r) => if u32 r 4 < u32 e.2 4 then some e else b
    | none => some e) none

/-- The 32 bytes of a record with sequence number `seq` (Table IM-15). -/
def JRec.bytes (r : JRec) (seq : Nat) : List Byte :=
  let head := le 1 r.type ++ le 1 r.flags
  let tail := le 4 seq ++ le 4 r.boot ++ le 6 r.secs ++ le 4 r.nanos ++ le 2 r.frac ++ slice r.data 0 8
  head ++ le 2 (crc16 (head ++ tail)) ++ tail

/-- DEV.JRNL_HEAD names the newest slot. -/
def State.jrnlHead (s : State) : State :=
  match s.newest with
  | some (i, _) => s.wrs [(Reg.devJrnlHeadEmpty, 0), (Reg.devJrnlHeadSlot, i)]
  | none => s.wrs [(Reg.devJrnlHeadEmpty, 1), (Reg.devJrnlHeadSlot, 0)]

/-- The slot and SEQ of the next record: after the newest, or slot 0 and SEQ 1 in an empty journal (R56, R57). -/
def State.nextSlot (s : State) : Nat × Nat :=
  match s.newest with
  | some (i, r) => ((i + 1) % 8192, wrapAdd 32 (u32 r 4) 1)
  | none => (0, 1)

/-- The 32 bytes of slot `i` set. -/
def State.setSlot (s : State) (i : Nat) (b : List Byte) : State :=
  { s with journal := Tab.set s.journal i b (List.replicate 32 0) }

/-- A record is written into the slot after the newest. -/
def State.jput (s : State) (r : JRec) : State :=
  let (i, seq) := s.nextSlot
  ((s.setSlot i (r.bytes seq)).jrnlHead).ev 0x283

/-- What a slot holds after a write that did not verify: 32 bytes that are a free value (DESIGN CHOICE, log entry 25). -/
def State.jbad (s : State) : State := ((s.setSlot s.nextSlot.1 (le 32 (Config.freeNat s.free))).draw).jrnlHead

/-- Bytes `b` made into a record that fails its CRC. -/
def tornBytes (b : List Byte) : List Byte := if recGood b then b.set 2 (b.getD 2 0 ^^^ 1) else b

/-- The supply is lost while a record is being written: the slot holds a torn record, which fails its CRC (R56, R414); its bytes are
a free value otherwise. -/
def State.jtear (s : State) : State :=
  if s.jrnlQ = [] then s else (s.setSlot s.nextSlot.1 (tornBytes (le 32 (Config.freeNat s.free)))).draw

/-- The journal is cleared (R56, R362). -/
def State.jclear (s : State) : State := { s with journal := [], jrnlQ := [] }

/-- The oldest waiting record is written, or its write does not verify, and its slot is reported. -/
def execJournalWriteDone (verified : Bool) (s : State) : Res :=
  match s.jrnlQ with
  | [] => .next s
  | r :: l =>
    let i := s.nextSlot.1
    let s := { s with jrnlQ := l }
    let s := if verified then s.jput r else s.jbad.report 0x1E0 i
    .next (if l = [] && s.pwrState == pwrChanging then s.pwrAdvance else s)

/-- A write of JRNL_IDX: the slot it names is copied into JRNL_DATA0 to 7 (Table IM-21). -/
def execJrnlIdxWrite (value : Word) (s : State) : Res :=
  let i := value.toNat % 8192
  let r := s.slotBytes i
  .next ((s.wr Reg.devJrnlIdxSlot i).wrs ((List.range 8).map fun k => (Reg.devJrnlDataWord k, u32 r (4 * k))))

/-- A full reset: every register at its reset value, every memory wiped, everything stopped, start-up from XO_CHECK (R58).
It leaves the fuses, the journal and the records waiting for it, and an armed FULL (R371). The revocations it finds are those that bind
the images of this start-up (R365). The XO check begins where
nothing holds the device in reset. -/
def State.fullReset (s : State) : State :=
  { xo := { released := s.pins.resetN && s.pins.aonGood }, out := s.out, free := s.free, pins := s.pins, journal := s.journal, jrnlQ := s.jrnlQ, otp := s.otp
    sec := { armedFull := s.sec.armedFull }, boot := { revoked := s.otp.revoked }, pending := s.pending }

end Sys2Proof.Machine
end

