-- ==== Sys2Proof/Machine/Security.lean ====
section
/-! DEFINITION. Fuses, the request mailbox, life-cycle transitions and debug levels, and the SECURITY record
(16_security_debug_power). -/
namespace Sys2Proof.Machine

/-! ## Fuses (R360, R363, R364) -/

/-- The hash in key slot `k`; 0 is an empty slot. -/
def State.keyHash (s : State) (k : Nat) : Nat := Tab.get s.otp.keys k 0

/-- Slot `k` is programmed. -/
def State.keyProgrammed (s : State) (k : Nat) : Bool := decide (k < 4) && s.keyHash k != 0

/-- Slot `k` is programmed and not revoked. -/
def State.keyOk (s : State) (k : Nat) : Bool := s.keyProgrammed k && !bit s.otp.revoked k

/-- Slot `k` is programmed and was not revoked at the last full reset, from which on a revocation binds images (R365). -/
def State.imageKeyOk (s : State) (k : Nat) : Bool := s.keyProgrammed k && !bit s.boot.revoked k

/-- Floor word `i`: its value in the low half, its one's complement in the high half. -/
def State.floorWord (s : State) (i : Nat) : Nat := Tab.get s.otp.floors i 0

/-- A used floor word checks. -/
def floorGood (w : Nat) : Bool := w % 2 ^ 32 + w / 2 ^ 32 % 2 ^ 32 == 2 ^ 32 - 1

/-- The anti-rollback floor. -/
def State.floorValue (s : State) : Nat :=
  (List.range 64).foldl (fun m i => let w := s.floorWord i; if floorGood w then max m (w % 2 ^ 32) else m) 0

/-- The lowest unused floor word. -/
def State.floorFree (s : State) : Option Nat := (List.range 64).find? fun i => s.floorWord i == 0

/-- Floor words used. -/
def State.floorUsed (s : State) : Nat := ((List.range 64).filter fun i => s.floorWord i != 0).length

/-! ## The mailbox (R366, R367) -/

/-- The number of the port that writes: 1 host, 2 JTAG. -/
def mboxPort (viaJtag : Bool) : Nat := if viaJtag then 2 else 1

/-- The port that holds the mailbox. -/
def State.mboxClaim (s : State) : Nat := s.rd Reg.secReqStatusClaim

/-- The JTAG port reaches the mailbox where JTAG_EN is 1 (R368); no port does in reset (R413). -/
def State.mboxReach (s : State) (viaJtag : Bool) : Bool := (!viaJtag || s.on Reg.secCfgJtagEn) && !s.inReset

/-- A write to REQ_BUF or REQ_CMD through a port: the first claims the mailbox, one from the other port is discarded and
counted, and any other has the effect `f`. -/
def State.mboxWrite (s : State) (viaJtag : Bool) (f : State → State) : State :=
  let p := mboxPort viaJtag
  if !s.mboxReach viaJtag then s
  else if s.mboxClaim ≠ 0 ∧ s.mboxClaim ≠ p then s.bump Reg.secReqStatusForeign
  else f (s.wr Reg.secReqStatusClaim p)

/-- A mailbox command: not executed while a transition is under way (R362) or in OFF (R378). -/
def State.mboxCmd (s : State) (viaJtag : Bool) (f : State → State) : State :=
  s.mboxWrite viaJtag fun s => if s.sec.trans.isSome || s.pwrState == pwrOff then s else f s

/-- RESULT of the last command. -/
def State.secResult (s : State) (r : Nat) : State := s.wr Reg.secReqStatusResult r

/-- A SUBMIT completes with result `r`: the claim ends. -/
def State.secFinish (s : State) (r : Nat) : State :=
  ({ s with sec := { s.sec with request := none } }.wrs
    [(Reg.secReqStatusResult, r), (Reg.secReqStatusBusy, 0), (Reg.secReqStatusClaim, 0)]).intr 17

/-- The 208 bytes of the request record. -/
def State.reqBytes (s : State) : List Byte := (List.range 52).flatMap fun k => le 4 (s.rd (Reg.secReqBufData k))

/-- The nonce, byte 0 lowest. -/
def State.nonce (s : State) : Nat := unle ((List.range 8).flatMap fun k => le 4 (s.rd (Reg.secNonceNonce k)))

/-- Format check (Table SP-5, code 2). -/
def reqFormat (r : List Byte) : Bool :=
  let ty := u16 r 0
  let t := u8 r 2
  decide (1 ≤ ty) && decide (ty ≤ 4) && decide (t ≤ (if ty = 1 then 4 else if ty = 2 then 2 else 3)) && zeros r 4 4 &&
    (ty == 3 || zeros r 48 32)

/-- Table SP-2 has a transition from `a` to `b`. -/
def lcMove (a b : Nat) : Bool :=
  match a with
  | 0 => b == 1 || b == 4
  | 1 => b == 2 || b == 3 || b == 4
  | 2 => b == 3 || b == 4
  | 3 => b == 4
  | _ => false

/-- Debug level `l` can be reached in life-cycle state `lc` (Table SP-7). -/
def dbgReach (lc l : Nat) : Bool :=
  match lc with
  | 2 => decide (l ≤ 1)
  | 4 => l == 0
  | _ => decide (l ≤ 2)

/-- SET alone raises the level to `l` in life-cycle state `lc` (Table SP-7). -/
def dbgSet (lc l : Nat) : Bool :=
  match lc with
  | 0 => decide (l ≤ 2)
  | 1 => decide (l ≤ 1)
  | 3 => decide (l ≤ 1)
  | _ => l == 0

/-- The request is one that Table SP-2, R365, Table SP-7 and Table SP-13 allow (code 5). -/
def State.reqAllowed (s : State) (ty t : Nat) : Bool :=
  let lc := s.lcState
  match ty with
  | 1 => lcMove lc t
  | 2 => lc != 4 && dbgReach lc t
  | 3 => decide (lc ≤ 2) && !s.keyProgrammed t
  | _ => decide (lc ≤ 2) && (List.range 4).any fun k => k != t && s.keyOk k

/-- The unsigned first KEY_ADD: FACTORY, all four slots empty, zero signature fields (R365). -/
def State.reqUnsigned (s : State) (r : List Byte) : Bool :=
  u16 r 0 == 3 && u8 r 3 == 0xFE && s.lcState == 0 && (List.range 4).all (fun k => !s.keyProgrammed k) && zeros r 80 128

/-- The signing slot may sign the request (code 6). -/
def State.reqSigner (s : State) (r : List Byte) : Bool :=
  let ty := u16 r 0
  let t := u8 r 2
  let k := u8 r 3
  let lc := s.lcState
  let hash := sha256 (slice r 80 64)
  if k = 0xFF then
    (if ty = 1 then t == 4 && (lc == 0 || lc == 3) else ty == 2 && lc == 3 && t == 2) && hash == Config.factoryKeyHash
  else
    s.keyOk k && hash == s.keyHash k && (match ty with
      | 1 => !(lc == 0 && t == 4)
      | 2 => k == s.rd Reg.secCfgDebugSlot
      | 3 => true
      | _ => k != t)

/-- The signature of a record verifies (code 7). -/
def reqSigned (r : List Byte) : Bool :=
  ecdsaVerify (sha256 (slice r 0 80)) (unbe (slice r 80 32)) (unbe (slice r 112 32)) (unbe (slice r 144 32))
    (unbe (slice r 176 32))

/-- The checks of a SUBMIT in the order of Table SP-5, from FORMAT on; 0 is a request that passes. -/
def State.reqCheck (s : State) (r : List Byte) : Nat :=
  if !reqFormat r then 2
  else if u64 r 8 ≠ s.otp.dieId then 3
  else if !s.on Reg.secReqStatusNonceValid || unle (slice r 16 32) != s.nonce then 4
  else if !s.reqAllowed (u16 r 0) (u8 r 2) then 5
  else if s.reqUnsigned r then 0
  else if !s.reqSigner r then 6
  else if !reqSigned r then 7
  else 0

/-- Code 0 does nothing beyond the write it is. -/
def execSecCmdNone (viaJtag : Bool) (s : State) : Res := .next (s.mboxWrite viaJtag fun s => s)

/-- Codes 6 and 7 are ignored; the write counts as one. -/
def execSecCmdReserved (viaJtag : Bool) (_ : Nat) (s : State) : Res := .next (s.mboxWrite viaJtag fun s => s)

/-- GET_NONCE: NONCE0 to 7 take `random`, from the on-die random source, and the nonce is valid. -/
def execSecGetNonce (viaJtag : Bool) (random : BitVec 256) (s : State) : Res :=
  .next (s.mboxCmd viaJtag fun s =>
    (s.wrs ((List.range 8).map fun k => (Reg.secNonceNonce k, random.toNat / 2 ^ (32 * k)))).wr Reg.secReqStatusNonceValid 1)

/-- SUBMIT: the checks of Table SP-5. A request that passes is BUSY until its own step; any other completes with its
result. Every SUBMIT uses up the nonce. -/
def execSecSubmit (viaJtag : Bool) (s : State) : Res :=
  .next (s.mboxWrite viaJtag fun s =>
    if s.pwrState = pwrOff then s
    else if s.on Reg.secReqStatusBusy then (s.secResult 1).wr Reg.secReqStatusNonceValid 0
    else
      let r := s.reqBytes
      let c := s.reqCheck r
      let s := s.wr Reg.secReqStatusNonceValid 0
      if c ≠ 0 then s.secFinish c
      else { s with sec := { s.sec with request := some ⟨u16 r 0, u8 r 2, u8 r 3, unbe (slice r 48 32)⟩ } }.wr Reg.secReqStatusBusy 1)

/-- The debug level becomes `l`, at once or, for a raise to FULL, armed (R370, R371). -/
def State.dbgTo (s : State) (l : Nat) (lease : Nat) : State :=
  if l = 2 ∧ s.rd Reg.secDbgLevel ≠ 2 then { s with sec := { s.sec with armedFull := true } }
  else (s.wr Reg.secDbgLevel l).startSeconds Reg.secDbgLeaseLeft 0 lease

/-- SET: it always succeeds at or below the present level, and for a raise where Table SP-7 shows SET (R369). -/
def execSecSet (viaJtag : Bool) (level : Fin 4) (s : State) : Res :=
  .next (s.mboxCmd viaJtag fun s =>
    let l := level.val
    let now := s.rd Reg.secDbgLevel
    if l = 3 then s.secResult 2
    else if l = now then s.secResult 0
    else if l < now then (s.dbgTo l 0).secResult 0
    else if dbgSet s.lcState l then (s.dbgTo l 0).secResult 0
    else s.secResult 5)

/-- DISARM clears an armed FULL. -/
def execSecDisarm (viaJtag : Bool) (s : State) : Res :=
  .next (s.mboxCmd viaJtag fun s => { s with sec := { s.sec with armedFull := false } }.secResult 0)

/-- RELEASE ends the claim. -/
def execSecRelease (viaJtag : Bool) (s : State) : Res :=
  .next (s.mboxCmd viaJtag fun s => s.wr Reg.secReqStatusClaim 0)

/-- A write to the mailbox from the port that does not hold the claim is discarded and counted. -/
def execMailboxForeignWrite (viaJtag : Bool) (_ : Nat) (_ : Word) (s : State) : Res :=
  .next (if s.mboxReach viaJtag && s.mboxClaim != 0 && s.mboxClaim != mboxPort viaJtag then s.bump Reg.secReqStatusForeign else s)

/-- 10 s without a write from the claiming port end the claim. -/
def execMailboxClaimTimeout (s : State) : Res := .next (s.wr Reg.secReqStatusClaim 0)

/-- A nonce not used within 60 s is no longer valid. -/
def execNonceExpire (s : State) : Res := .next (s.wr Reg.secReqStatusNonceValid 0)

/-! ## Verified requests -/

/-- The step of a verified request of type `ty`. -/
def State.secRequest (s : State) (ty : Nat) (f : State → SecReq → State) : State :=
  match s.sec.request with
  | some q => if q.type = ty then f s q else s
  | none => s

/-- A fuse read-back failed. -/
def State.otpFail (s : State) : State := (s.wr Reg.secOtpStatusOtpErr 1).secFinish 8

/-- A verified LIFECYCLE request starts the transition procedure (R361, R362). -/
def execReqLifecycle (s : State) : Res :=
  .next (s.secRequest 1 fun s q => { s with sec := { s.sec with request := none, trans := some (s.lcState, q.target, false) } })

/-- A verified DEBUG request (R369, R370): in FIELD, OBSERVE lasts LEASE_S. -/
def execReqDebug (s : State) : Res :=
  .next (s.secRequest 2 fun s q =>
    (s.dbgTo q.target (if s.lcState = 2 ∧ q.target = 1 then s.rd Reg.secCfgLeaseS else 0)).secFinish 0)

/-- A verified KEY_ADD request programs the empty slot. Where the read-back fails, what the slot then holds is a free
value. -/
def execReqKeyAdd (readBack : Bool) (s : State) : Res :=
  .next (s.secRequest 3 fun s q =>
    if readBack then { s with otp := { s.otp with keys := Tab.set s.otp.keys q.target q.arg 0 } }.secFinish 0
    else
      let k := Config.freeNat s.free % 2 ^ 256
      ({ s with otp := { s.otp with keys := Tab.set s.otp.keys q.target k 0 } }.draw).otpFail)

/-- A verified KEY_REVOKE request blows REVOKED for the slot. Where the read-back fails, whether it is blown is a free
value. -/
def execReqKeyRevoke (readBack : Bool) (s : State) : Res :=
  .next (s.secRequest 4 fun s q =>
    if readBack then { s with otp := { s.otp with revoked := setBit s.otp.revoked q.target true } }.secFinish 0
    else
      let b := bit s.otp.revoked q.target || Config.freeBit s.free
      ({ s with otp := { s.otp with revoked := setBit s.otp.revoked q.target b } }.draw).otpFail)

/-- The fuse of the target state is blown and read back; a failed read-back leaves the state unchanged (R362, step 2). -/
def execLcFuseBlowDone (readBack : Bool) (s : State) : Res :=
  match s.sec.trans with
  | some (a, b, false) =>
    if readBack then
      .next { s with otp := { s.otp with lc := setBit s.otp.lc (b - 1) true }
                     sec := { s.sec with trans := some (a, b, true), armedFull := false } }
    else .next ({ s with sec := { s.sec with trans := none } }.otpFail)
  | _ => .next s

/-- The journal is cleared, the LIFECYCLE record is its first, and a full reset starts (R362, steps 3 and 4). -/
def execLcJournalClearDone (s : State) : Res :=
  match s.sec.trans with
  | some (a, b, true) =>
    let r := s.jrec 3 (le 1 a ++ le 1 b ++ le 6 0)
    .next (s.jclear.jput r).fullReset
  | _ => .next s

/-- In FIELD, the lease of OBSERVE ends (R370). -/
def execDebugLeaseExpire (s : State) : Res :=
  .next (if s.lcState = 2 ∧ s.rd Reg.secDbgLevel = 1 then s.wrs [(Reg.secDbgLevel, 0), (Reg.secDbgLeaseLeft, 0)] else s)

/-! ## The SECURITY record (R384, R385) -/

/-- The SECURITY record passes its checks; `keyOk` says which slots are programmed and not revoked. -/
def checkSecurity (keyOk : Nat → Bool) (v : List Byte) : Bool :=
  let slot := u8 v 0
  v.length == 16 && zeros v 4 12 && decide (u8 v 1 ≤ 1) && (u16 v 2 == 0 || decide (60 ≤ u16 v 2)) &&
    (slot == 0xFF || keyOk slot)

/-- The SECURITY record applied. -/
def applySecurity (v : List Byte) (s : State) : State :=
  s.wrs [(Reg.secCfgDebugSlot, u8 v 0), (Reg.secCfgJtagEn, 1 - u8 v 1 % 2), (Reg.secCfgLeaseS, if u16 v 2 = 0 then 3600 else u16 v 2)]

end Sys2Proof.Machine
end

