-- ==== Sys2Proof/Machine/Start.lean ====
section
/-! DEFINITION. The ends of start-up: RUN and HALT (R51, R52, R54). -/
namespace Sys2Proof.Machine

/-- A BOOT journal record (Table IM-16) with the image's SEQ, zero in HALT. -/
def State.bootRecord (s : State) (seq : Nat) : State :=
  s.jwrite (s.jrec 1 (le 1 (s.rd Reg.devBootSource) ++ le 1 (s.rd Reg.devBootFailReason0) ++ le 1 (s.rd Reg.devBootFailReason1) ++ [0]
    ++ le 4 seq))

/-- Start-up enters HALT (R54): PD3 and PD4 ramp down, and PD9 ramps on unless the accepted image has PCIE_REF = 0. -/
def State.haltEnter (s : State) : State :=
  let s := (s.wr Reg.devBootPhase 10).setPwr pwrHalt
  let s := s.bootRecord 0
  let host := s.pins.pcieClk && !(s.boot.accepted && !s.boot.pcieRef)
  (s.bootRamps ([(4, false), (3, false)] ++ (if host then [(9, true)] else []))).linkTrain

/-- At RUN, an image with RAISE_FLOOR and a SEQ above the floor starts the programming of a floor word, where one is unused
(R51, R364). -/
def State.floorStart (s : State) : State :=
  if !bit s.boot.imgFlags 0 || decide (s.boot.imgSeq ≤ s.floorValue) then s
  else match s.floorFree with
    | some _ => { s with boot := { s.boot with floorBusy := true } }
    | none => s.wr Reg.secOtpStatusFloorFull 1

/-- Start-up reaches RUN (Table IM-10): pulse generators run, and the effective power request applies. -/
def State.enterRun (s : State) : State :=
  let s := (s.wr Reg.devBootPhase 9).setPwr pwrRun
  let s := { s with pwr := { s.pwr with seenRun := true } }
  (s.floorStart.pgRun).pwrUpdate

/-- Once the run of start-up has ended, start-up reaches RUN (Table IM-10). -/
def State.calSettle (s : State) : State :=
  if s.inPhase 8 && !(s.calState != 0 && (s.dress.startup || s.dress.held.any fun x => x.1 == 1)) then s.enterRun else s

/-- Floor word `i` holds `w`. -/
def State.putFloor (s : State) (i w : Nat) : State := { s with otp := { s.otp with floors := Tab.set s.otp.floors i w 0 } }

/-- A floor word is programmed (R51, R364). Where the read-back fails, what the word then holds is a free value. -/
def execFloorRaiseDone (readBack : Bool) (s : State) : Res :=
  if !s.boot.floorBusy then .next s
  else
    let s := { s with boot := { s.boot with floorBusy := false } }
    match s.floorFree with
    | none => .next s
    | some i =>
      let q := s.boot.imgSeq
      if readBack then
        .next (((s.putFloor i (q + (2 ^ 32 - 1 - q) * 2 ^ 32)).wr Reg.devBootFloorRaised 1).jwrite (s.jrec 4 (le 4 0 ++ le 4 q)))
      else .next (((s.putFloor i (Config.freeNat s.free % 2 ^ 64)).draw).wr Reg.secOtpStatusOtpErr 1)

end Sys2Proof.Machine
end

