-- ==== Sys2Proof/Machine/CalRun.lean ====
section
/-! DEFINITION. The commands of Dressing and the referee's judgement of a bad unit (10_calibration, R309 to R313). -/
namespace Sys2Proof.Machine

/-! ## Runs -/

/-- The controller reads each sensor (R231). -/
def execTempSensorRead (readings : List Int) (s : State) : Res := .next (s.sensorsRead readings).calSettle

/-- PERIOD_S seconds after the last commit: trigger PERIOD (R232). -/
def execCalPeriodTimer (s : State) : Res :=
  if s.on Reg.calPeriodPeriodS && s.inPhase 9 then .next (s.calTrigger 4 0) else .next s

/-- An armed retry falls due (R239). -/
def execCalRetryDue (s : State) : Res :=
  if s.on Reg.calStatusRetryArmed then .next ((s.wr Reg.calStatusRetryArmed 0).calTrigger 3 0) else .next s

/-- The preconditions of Table CA-6 are judged at the end of PRECHECK. -/
def execCalPrecheckDone (s : State) : Res :=
  if s.calState ≠ 1 then .next s
  else if s.dress.clkLost then .next (s.calAbort 1).calSettle
  else if !s.dress.startup && !s.on Reg.calStatusClkOk then .next (s.calAbort 2)
  else if !s.dress.startup && !s.dress.ppsHad then .next (s.calAbort 4)
  else .next (s.wr Reg.calStatusState 2)

/-- A phase of the run ends with its values. -/
def State.calPhase (s : State) (st : Nat) (phase : Nat → Bool) (l : List (Nat × Int)) : Res :=
  if s.calState = st then .next ((s.measured phase l).wr Reg.calStatusState (st + 1)) else .next s

/-- The tap scale is measured (R228). -/
def execCalScaleDone (values : List (Nat × Int)) (s : State) : Res :=
  s.calPhase 2 (fun i => decide (0x14C ≤ i) && decide (i < 0x1A4)) values

/-- The lane loopbacks are measured (R229). -/
def execCalLoopDone (values : List (Nat × Int)) (s : State) : Res := s.calPhase 3 (fun i => decide (i < 0x100)) values

/-- d_ts, d_pps and d_rpps are measured (R229). -/
def execCalPointsDone (values : List (Nat × Int)) (s : State) : Res :=
  s.calPhase 4 (fun i => (decide (0x100 ≤ i) && decide (i < 0x120)) || (decide (0x1A4 ≤ i) && decide (i < 0x1A9))) values

/-- d_pg, d_cap and the output skews are measured. -/
def execCalOutputsDone (values : List (Nat × Int)) (s : State) : Res :=
  s.calPhase 5 (fun i => decide (0x120 ≤ i) && decide (i < 0x14C)) values

/-- The new values are checked against their ranges and MAX_STEP, and commit or wait (R237). -/
def execCalComputeDone (s : State) : Res :=
  if s.calState ≠ 6 then .next s
  else
    let l := s.dress.newV
    let ok (e : Nat × Option Int) : Bool := match e.2 with | some v => elementOk e.1 v | none => true
    let far (e : Nat × Option Int) : Bool := match e.2 with
      | some v => decide (s.rd Reg.calLimitsMaxStep * 65536 < 1000 * (v - s.cal e.1).natAbs)
      | none => false
    if !l.all ok then .next (s.calAbort 8).calSettle
    else if 2 ≤ s.rd Reg.calStatusSource ∧ l.any far = true then .next (s.calAbort 9).calSettle
    else .next s.commitWait.calSettle

/-- CAL_TB has reached the chosen second, by the compare of R157 (R238). In CALIBRATE, and where CAL_TB is not VALID, the commit is at once. -/
def execCalCommit (s : State) : Res :=
  let tb := s.rd Reg.calCfgCalTb
  if s.calState ≠ 7 then .next s
  else if s.commitsAtOnce = true then .next s.commitNow
  else if s.tbDiff tb (s.atb tb).t (s.dress.second * tSecond % s.tbRange tb) < 0 then .next s
  else .next s.commitSecond

/-- Every 80 µs each tap element moves one fine step (R238); not once a SCAN has reached a domain (R372). -/
def execCalTapWalkStep (s : State) : Res :=
  if s.calState ≠ 8 ∨ s.frozen = true then .next s
  else
    let s := s.each (List.range 12) State.tapStep
    .next (s.when s.walked State.calIdle)

/-! ## CAL_REF -/

/-- CAL_REF_CLK shows no edge in 1 µs (R235). -/
def execCalRefClkLoss (s : State) : Res :=
  let s := { s with dress := { s.dress with clkLost := true } }.wr Reg.calStatusClkOk 0
  .next (s.calAbort 1).calSettle

/-- The tolerance of the ruler in ppb (R235). -/
def State.rulerTol (s : State) : Nat := if s.rd Reg.refselStateSelState = 2 then 0 else if s.boot.xoQual then 500 else 50000

/-- A 100 ms window of CAL_REF_CLK ends with offset `offPpb` against the ruler (R235). -/
def execCalClkFreqWindow (offPpb : Int) (s : State) : Res :=
  let ok := decide (offPpb.natAbs ≤ 1000 + s.rulerTol)
  let s := { s with dress := { s.dress with clkLost := false } }.wr Reg.calStatusClkOk (b2n ok)
  .next (s.when (!ok) fun s => s.calAbort 2).calSettle

/-- A CAL_REF_PPS edge (R235, R241): `devPs` is its period's deviation from 10 000 000 CAL_REF_CLK periods, `offset`
(2^-16 ns) its place after the present reading of base CAL_TB of the active timekeeper. -/
def execCalRefPpsEdge (devPs : Int) (offset : Nat) (s : State) : Res :=
  let had := s.dress.ppsEver
  let ok := had && decide (devPs.natAbs ≤ 100000)
  let s := { s with dress := { s.dress with ppsSeen := true, ppsEver := true } }.wr Reg.calStatusPpsOk (b2n ok)
  let s := s.when ok fun s =>
    let x := (((s.atb (s.rd Reg.calCfgCalTb)).t : Int) + offset - s.cal 0x1A4) % tSecond
    let e := enc 48 (if 2 * x < tSecond then x else x - tSecond)
    s.wrs [(Reg.calPpsOffLoOff, e), (Reg.calPpsOffHiOff, e / 2 ^ 32), (Reg.calPpsOffHiValid, 1)]
  .next (s.when (had && !ok) fun s => s.calAbort 3).calSettle

/-- A gap above 1.5 s in CAL_REF_PPS (R235). -/
def execCalPpsMissing (s : State) : Res :=
  let s := { s with dress := { s.dress with ppsSeen := false } }.wr Reg.calStatusPpsOk 0
  .next (if s.dress.startup then s else s.calAbort 4)

/-! ## Commands (R243) -/

/-- Code 0 does nothing and returns OK (R425). -/
def execCalCmdNop (s : State) : Res := .next (s.wr Reg.calCmdStatusResult 0)

/-- The checks every CAL.CMD meets: 1 STALE, 2 BUSY, 0 passed (Table CA-8). -/
def State.calCheck (s : State) (gen : Nat) : Nat :=
  if gen ≠ s.rd Reg.calStatusGen then 1 else if s.calState ≠ 0 then 2 else 0

/-- RUN is a HOST trigger. -/
def execCalRun (gen : Fin 65536) (s : State) : Res :=
  let c := s.calCheck gen.val
  .next ((s.wr Reg.calCmdStatusResult c).when (c == 0) fun s => s.calTrigger 5 0)

/-- RESTORE copies the staged values and reference temperatures into a commit. -/
def execCalRestore (gen : Fin 65536) (s : State) : Res :=
  let c := s.calCheck gen.val
  let val (i : Nat) : Nat := s.rd (Reg.calStgValue i)
  let c := if c ≠ 0 then c
    else if calCrc val (fun i => s.rd (Reg.calStgTrefTRef i)) ≠ s.rd Reg.calStgCrcCrc then 3
    else if !(List.range 428).all (fun i => elementOk i (sgn 32 (val i))) then 4 else 0
  let s := s.wr Reg.calCmdStatusResult c
  let copy (s : State) : State :=
    { s with dress := { s.dress with
        restore := true, newV := (List.range 428).map fun i => (i, some (sgn 32 (val i)))
        tStart := (List.range 16).foldl (fun l i => Tab.set l i (s.rdS (Reg.calStgTrefTRef i)) 0) [] } }
  .next (s.when (c == 0) fun s => (copy s).commitWait)

/-- Code 3 is answered REFUSED after the checks before it. -/
def execCalCmdReserved (gen : Fin 65536) (s : State) : Res :=
  let c := s.calCheck gen.val
  .next (s.wr Reg.calCmdStatusResult (if c = 0 then 5 else c))

/-! ## The referee's judgement -/

/-- A heartbeat is lost: an error without confirmation (R309). Once it toggles again the unit's HB_OK reads 1, and a pair that was lost for
want of it alone is lost no more (R311, R322). -/
def execHeartbeatLost (beat : HbEvent) (s : State) : Res :=
  let u := beat.unit.val
  if s.unit u = 0 ∨ !s.unitUsed u then .next s
  else if beat.back then .next ((s.wr (Reg.redUnitStatusHbOk u) 1).lostAgain u).calSettle
  else .next ((s.wr (Reg.redUnitStatusHbOk u) 0).unitDown u 2).judgeTimings.calSettle

/-- The rails show a legal code again (R310). -/
def execUnmonitoredClear (unit : Fin 68) (s : State) : Res := .next ((s.setUnmonitored unit.val false).lostAgain unit.val).calSettle

/-- A unit in SYNC is verified: STANDBY, WTR or ACTIVE (Table RD-2, R318). A timekeeper whose root is bad fails with it (R311). -/
def execUnitVerified (unit : Fin 68) (s : State) : Res :=
  let u := unit.val
  if s.unit u ≠ unitSync ∨ !s.unitVerified u then .next s
  else if s.sideBad u then .next (s.unitJudge u 3).calSettle
  else if s.unit (unitOther u) = unitActive then
    if 4 ≤ u ∧ u % 2 = 0 then
      .next (((s.setUnit u unitWtr).startSeconds (Reg.redUnitWtrWtrLeft u) u (s.rd (Reg.redPairWtrWtrS ((u - 4) / 2)))).lostAgain u).calSettle
    else
      let s := s.when ((u == 2 || u == 3) && s.on Reg.tkStatusXlinkLost) fun s =>
        (s.setUnverified u true).wr Reg.tkStatusUnverified 1
      .next ((s.setUnit u unitStandby).lostAgain u).calSettle
  else if u < 4 then .next (s.when (s.roleHeld u) fun s => s.setUnit u unitActive)
  else .next ((s.setUnit u unitActive).wr (Reg.redPairStatusDataActive ((u - 4) / 2)) (1 + u % 2))

/-- The standby root `u` shows an error only through TRACK_OK (R312). -/
def State.trackOnly (s : State) (u : Nat) : Bool :=
  decide (u < 2) && u != s.activeRoot && !s.on Reg.synTrackTrackOk && s.rootOwn u && s.on (Reg.redUnitStatusHbOk u)
    && !s.faultInput u

/-- The referee confirms unit `unit` bad on its line (R309, R311). `activeOut` and `standbyOut` are what the REF_OK lines of
the two roots show: an own loop phase error beyond LOCK_WIN (R312). On the lane of a trunk pair the timing role is judged beside the data
role, whose line may be healthy: an engine that leaves RUN shows on its own line alone (R316). -/
def execUnitFailOver (unit : Fin 68) (activeOut standbyOut : Bool) (s : State) : Res :=
  let u := unit.val
  if s.unit u = 0 ∨ !s.unitUsed u then .next s
  else if s.unitHealthy u = true ∨ s.on (Reg.redUnitStatusUnmonitored u) = true then
    .next (if 4 ≤ u then s.judgeTiming ((u - 4) / 2) else s)
  else
    let blame := if s.trackOnly u && s.selected != 31 && activeOut && !standbyOut then s.activeRoot else u
    .next (s.unitDown blame 1).judgeTimings.calSettle

end Sys2Proof.Machine
end

