-- ==== Sys2Proof/Machine/Dev.lean ====
section
/-! DEFINITION. The reset pins, the keyed reset, flash commands and the frequency meter (R58 to R61, R413, R414, Table
CK-16). -/
namespace Sys2Proof.Machine

/-! ## Reset (R58, R60, R413, R414) -/

/-- RESET_N is low for `widthNs`: below 100 ns it is ignored, from 1 µs it starts a full reset, and in between it does one or
the other. -/
def execResetNAssert (widthNs : Nat) (s : State) : Res :=
  let go (s : State) : Res := .next { s with pins := { s.pins with resetN := false } }.fullReset
  if widthNs < 100 then .next s
  else if 1000 ≤ widthNs then go s
  else if Config.freeBit s.free then go s.draw else .next s.draw

/-- RESET_N is released: full reset ends, and the XO check begins (R24, R52). -/
def execResetNRelease (s : State) : Res :=
  if s.pins.resetN then .next s
  else
    .next { s with pins := { s.pins with resetN := true } }.fullReset

/-- VDD_AON and VDD_IO stand at these tenths of a millivolt. VDD_AON below 0.68 V holds the device in full reset, above 0.70 V no
more (R413); PD0 and its armed FULL are lost with it (R371), and a record being written is torn (R414). Where one of the two is
below its operating minimum of 0.776 V or 1.71 V, the pins carry nothing, and a PCIe link is lost until the supplies are back (R409,
Table EL-6; the link: DEDUCED, log entry 72). -/
def execVddAonDetect (supplies : Nat × Nat) (s : State) : Res :=
  let s := { s with pins := { s.pins with inRange := decide (7760 ≤ supplies.1) && decide (17100 ≤ supplies.2) } }
  if supplies.1 < 6800 then
    let s := { s.jtear with pins := { s.pins with aonGood := false }, sec := { s.sec with armedFull := false } }
    .next { s.fullReset with jrnlQ := [] }
  else if 7000 < supplies.1 ∧ !s.pins.aonGood then .next { s with pins := { s.pins with aonGood := true } }.fullReset
  else if s.pins.inRange = false ∧ s.on Reg.hifStatusLinkUp = true then .next s.linkDown.pcieReset
  else .next s.linkTrain

/-- A write of RESET_KEY arms or disarms the keyed reset; none arrives in reset (R413). -/
def execResetKeyWrite (value : Word) (s : State) : Res :=
  .next (if s.inReset then s else s.wr Reg.devResetStatusArmed (b2n (value.toNat % 65536 == 0x4B59)))

/-- The arm expires. -/
def execResetArmExpire (s : State) : Res := .next (s.wr Reg.devResetStatusArmed 0)

/-- A write of RESET_CMD (Table IM-20); a full reset leaves a RESET record (Table IM-16). -/
def State.resetCmd (s : State) (action : Nat) : State :=
  let armed := s.on Reg.devResetStatusArmed
  let s := s.wr Reg.devResetStatusArmed 0
  if armed && action == 1 then (s.jwrite (s.jrec 5 [1, 0, 0, 0, 0, 0, 0, 0])).fullReset
  else if armed && action == 2 && s.hostOpen then s.hostViewStart
  else s.wr Reg.devResetStatusRefused 1

/-- RESET_CMD with ACTION 1. -/
def execResetCmdFull (s : State) : Res := .next (s.resetCmd 1)

/-- RESET_CMD with ACTION 2. -/
def execResetCmdHostView (s : State) : Res := .next (s.resetCmd 2)

/-- RESET_CMD with an ACTION, or without an arm, that is refused. -/
def execResetCmdRefused (action : Fin 4) (s : State) : Res := .next (s.resetCmd action.val)

/-! ## Flash commands from the host (R61, Table IM-21) -/

/-- The device carries out a flash command of the host: in HALT, or in RUN under an image with NVM_HOST. -/
def State.nvmMay (s : State) : Bool := s.inPhase 10 || (s.inPhase 9 && bit s.boot.imgFlags 1)

/-- A write of NVM_CMD. GO issues the command, or is refused with DENIED. -/
def execNvmCmdGo (value : Word) (s : State) : Res :=
  let v := value.toNat
  let busy := s.boot.nvmBusy.isSome
  let s := s.wrs [(Reg.devNvmCmdCs, v / 2 ^ 30), (Reg.devNvmCmdWrite, v / 2 ^ 29), (Reg.devNvmCmdAddrEn, v / 2 ^ 28),
    (Reg.devNvmCmdOpcode, v / 2 ^ 16), (Reg.devNvmCmdLen, v)]
  let len := s.rd Reg.devNvmCmdLen
  if !bit v 31 then .next s
  else if busy || !s.nvmMay || decide (256 < len) then .next (s.wr Reg.devNvmStatusDenied 1)
  else
    let w := bit v 29
    let data := ((List.range 64).flatMap fun k => le 4 (s.rd (Reg.devNvmBufData k))).take len
    let addr := if bit v 28 then some (s.rd Reg.devNvmAddrAddr) else none
    let s := { s with boot := { s.boot with nvmBusy := some (if w then 0 else len) } }.wr Reg.devNvmStatusBusy 1
    .next (s.send (.spi (s.rd Reg.devNvmCmdCs) (s.rd Reg.devNvmCmdOpcode) addr 0 (if w then data else [])))

/-- A flash command completes: what it read is in NVM_BUF. -/
def execNvmCmdDone (data : List Byte) (s : State) : Res :=
  match s.boot.nvmBusy with
  | none => .next s
  | some n =>
    let s := { s with boot := { s.boot with nvmBusy := none } }.wr Reg.devNvmStatusBusy 0
    let old := (List.range 64).flatMap fun k => le 4 (s.rd (Reg.devNvmBufData k))
    let buf := slice data 0 n ++ old.drop n
    .next (s.wrs ((List.range 64).map fun k => (Reg.devNvmBufData k, u32 buf (4 * k))))

/-! ## The frequency meter (Table CK-16) -/

/-- A write of FMETER_CTL. START begins a measurement and abandons one in progress. -/
def execFmeterStart (value : Word) (s : State) : Res :=
  let v := value.toNat
  let s := s.wrs [(Reg.clkFmeterCtlWindow, v / 2 ^ 8), (Reg.clkFmeterCtlSel, v)]
  .next (if bit v 31 then { s with fmeter := some (s.rd Reg.clkFmeterCtlSel, s.rd Reg.clkFmeterCtlWindow) } else s)

/-- The window ends with `count` edges of the chosen domain, prescaled by 4; codes 0 and 15 count nothing. -/
def execFmeterWindowEnd (count : Nat) (s : State) : Res :=
  match s.fmeter with
  | none => .next s
  | some (sel, _) => .next ({ s with fmeter := none }.wr Reg.clkFmeterResultCount (if sel = 0 ∨ sel = 15 then 0 else count))

end Sys2Proof.Machine
end

