-- ==== Sys2Proof/Machine/View.lean ====
section
/-! DEFINITION. What a read of a register returns: fields that show what the device holds elsewhere, and the words that a
read of a multi-word value latches (R129, R177, R203, R394, R402, R403). -/
namespace Sys2Proof.Machine

/-! ## Running clock domains (Table CK-1, R19 to R22) -/

/-- The class of a window's edge count: 0 absent, 1 invalid, 2 10 MHz, 3 25 MHz, 4 100 MHz (Table CK-2). -/
def xoClass (n : Nat) : Nat :=
  if n < 400 then 0
  else if 640 ≤ n ∧ n < 1600 then 2
  else if 1600 ≤ n ∧ n < 4000 then 3
  else if 6400 ≤ n ∧ n < 16000 then 4
  else 1

/-- XO_IN is good: the XO has been detected, and the last window holds its class (R22, R23). -/
def State.xoGoodNow (s : State) : Bool :=
  decide (2 ≤ s.rd Reg.clkXoStatusState) && xoClass (s.rd Reg.clkXoStatusCount) == s.rd Reg.clkXoStatusDetected + 2

/-- A lane runs at 10.3125 GBd. A lane of MODE OFF in a 10.3125 GBd quad is not counted (DEDUCED, log entry 57). -/
def State.lowRate (s : State) : Bool :=
  (List.range 128).any fun n => s.on (Reg.laneCfgMode n) && s.rd (Reg.laneCfgQrate n) == 2

/-- A lane of quadrant `q` runs Leat. -/
def State.leatQuadrant (s : State) (q : Nat) : Bool := (List.range 32).any fun i => s.isLeat (32 * q + i)

/-- Domain K`k` runs (Table CK-1, R18 to R22). K4, K5 and K8 have one bit for four quadrants: it reads 1 while the domain runs in
any of them (DESIGN CHOICE, log entry 57). -/
def State.domRun (s : State) (k : Nat) : Bool :=
  let quads := (List.range 4).any fun q => s.pdOn (5 + q)
  match k with
  | 1 => s.k1On
  | 2 => s.k1On && s.pdOn 4
  | 3 => s.k1On && s.pdOn 3
  | 4 => s.k1On && quads
  | 5 => s.k1On && quads && s.lowRate
  | 6 => s.pdOn 1 && s.rootRuns 0
  | 7 => s.pdOn 2 && s.rootRuns 1
  | 8 => s.k1On && (List.range 4).any fun q => s.pdOn (5 + q) && s.leatQuadrant q
  | 9 => s.k1On
  | 10 => s.k1On && s.pdOn 10
  | 14 => s.pins.pcieClk && s.pdOn 9
  | _ => decide (11 ≤ k) && decide (k ≤ 13) && s.xoGoodNow

/-- K9 runs, on which the host path stands. -/
def State.k9On (s : State) : Bool := s.domRun 9

/-- CLK.DOM_RUN bits 14 to 1. -/
def State.domRuns (s : State) : Nat := (List.range 14).foldl (fun w i => w + b2n (s.domRun (i + 1)) * 2 ^ i) 0

/-! ## Status pins (Table EL-4) -/

/-- The device asks for IRQ_N low (R404). -/
def State.irqLow (s : State) : Bool := Nat.land (s.rd Reg.hifIntStatusStatus) (s.rd Reg.hifIrqMaskMask) != 0

/-- PWR_STATE[2:0]: START before XO_GOOD, then the state (R374); nothing, high impedance, while the supply is out of range
(R409). -/
def State.pwrPins (s : State) : Option Nat :=
  if s.pins.inRange then some (if 2 ≤ s.rd Reg.clkXoStatusState then s.rd Reg.pwrStatusState else 0) else none

/-- SEL_STATE[2:0] and SEL_VALID (R76); nothing, high impedance, while the supply is out of range (R409). -/
def State.selPins (s : State) : Option (Nat × Bool) :=
  if s.pins.inRange then some (s.rd Reg.refselStateSelState, s.selValid) else none

/-- The output pins of Table EL-4 that carry a level. -/
inductive OutPin where
  | selState (i : Fin 3)
  | selValid
  | pwrState (i : Fin 3)
  | evtOut (p : Fin 16)
  | faultN
  | fatalN
  | irqN
  | nvmSck
  | nvmCs (c : Fin 2)
  | nvmIo (i : Fin 4)
  | smiMiso
  | tdo
  deriving DecidableEq, Repr

/-- The pin's place in a list of the output pins; TDO, a pin of the TAP itself, has no cell of the boundary register. -/
def OutPin.number : OutPin → Option Nat
  | .selState i => some i.val
  | .selValid => some 3
  | .pwrState i => some (4 + i.val)
  | .evtOut p => some (7 + p.val)
  | .faultN => some 23
  | .fatalN => some 24
  | .irqN => some 25
  | .nvmSck => some 26
  | .nvmCs c => some (27 + c.val)
  | .nvmIo i => some (29 + i.val)
  | .smiMiso => some 33
  | .tdo => none

/-- What the device itself puts on a pin: `none` is high impedance, and on an open-drain pin released (Table EL-4, R337, R374, R404, R409).
The flash pins and the outputs of SMI and JTAG are shown between their transactions: what a transaction carries is in the record of
what left. -/
def State.ownPin (s : State) (p : OutPin) : Option Bool :=
  let level (b : Bool) : Option Bool := if s.pins.inRange then some b else none
  let drain (b : Bool) : Option Bool := if b && s.pins.inRange then some false else none
  match p with
  | .selState i => s.selPins.map fun x => bit x.1 i.val
  | .selValid => s.selPins.map (·.2)
  | .pwrState i => s.pwrPins.map fun x => bit x i.val
  | .evtOut p => s.evtOut p.val
  | .faultN => drain s.faultLow
  | .fatalN => drain s.fatalLow
  | .irqN => drain s.irqLow
  | .nvmSck => level false
  | .nvmCs _ => level true
  | .nvmIo _ | .smiMiso | .tdo => none

/-- EXTEST drives the pins: it is in the TAP, and the level is FULL (R368, Table SP-6). -/
def State.extest (s : State) : Bool := s.sec.tapIr == 0 && s.on Reg.secCfgJtagEn && decide (2 ≤ s.rd Reg.secDbgLevel) && !s.inReset

/-- The level at an output pin: the boundary register's under EXTEST (IEEE 1149.1), else the device's own. Which cell of the boundary
register drives a pin, the spec does not say (`Config.boundaryCell`, log entry 24). -/
def State.pin (s : State) (p : OutPin) : Option Bool :=
  match p.number with
  | some k => if s.extest && s.pins.inRange then some (s.sec.preload.getD (Config.boundaryCell k) false) else s.ownPin p
  | none => s.ownPin p

/-- The level that EXTEST puts on the pin of number `k`. -/
def State.extestLeg (s : State) (k : Nat) : Leg := if s.sec.preload.getD (Config.boundaryCell k) false then .high else .low

/-- What the two pins of clock output `n` show: the boundary register's levels under EXTEST (R368), save for an LVCMOS output whose supply is
out of range (R409), else the output's own. The cells follow those of the other pins (`Config.boundaryCell`, log entry 24). -/
def State.ckoPins (s : State) (n : Nat) : Leg × Leg :=
  if s.extest && (s.pins.inRange || s.rd (Reg.synCkoCfgFormat n) != 5) then (s.extestLeg (34 + 2 * n), s.extestLeg (35 + 2 * n))
  else s.ckoLegs n

/-! ## Multi-word values -/

/-- The word at `a` is the _LO word of a 48-bit counter (R129, R347). -/
def isLo48 (a : Nat) : Bool :=
  if 0x800000 ≤ a ∧ a < 0x880000 then [0x30, 0x38, 0x40, 0x48, 0x50, 0x68, 0x70].contains (a % 0x1000)
  else if 0x1000000 ≤ a ∧ a < 0x1080000 then decide (0x40 ≤ a % 0x1000) && decide (a % 0x1000 ≤ 0xC8) && a % 8 == 0
  else if 0x2A00100 ≤ a ∧ a < 0x2A00400 then a % 16 == 4
  else decide (0x2A10000 ≤ a) && decide (a < 0x2A18000) && a % 8 == 0

/-- The word at `a` is the _LO word of a 48-bit value of a Tentering engine (R203). -/
def isLoTt (a : Nat) : Bool := decide (0x501000 ≤ a) && decide (a < 0x505000) && [0x28, 0x30, 0x38].contains (a % 0x80)

/-- The words of the LNQ and TCR windows. -/
def isWindow (a : Nat) : Bool := (decide (0x2D00200 ≤ a) && decide (a < 0x2D00220)) || (decide (0x2D00280 ≤ a) && decide (a < 0x2D00290))

/-- A field whose value is the one last latched for the path that reads. -/
def latchedFld (f : Fld) : Bool :=
  let a := f.addr
  isLo48 (a - 4) || isLoTt (a - 4) || isWindow a || f == Reg.calPpsOffHiOff
    || (decide (0x401000 ≤ a) && decide (a < 0x401800) && [0x30, 0x34, 0x38, 0x48].contains (a % 0x100))
    || (decide (0x610000 ≤ a) && decide (a < 0x611000) && [0x08, 0x0C, 0x10].contains (a % 0x20))
    || (decide (0x602000 ≤ a) && decide (a < 0x602400) && [0x10, 0x14, 0x18].contains (a % 0x40))

/-- The record at the head of the learn queue, 32 bytes, zero when it is empty. -/
def State.lnqHead (s : State) : List Byte := slice (s.tbl.lnq.headD []) 0 32

/-- The result at the head of the result FIFO, 16 bytes, zero when it is empty. -/
def State.tcrHead (s : State) : List Byte := slice (s.hif.tcr.headD []) 0 16

/-- LNQ notifications are read through the window: LNQ_FIFO = 1, or over SMI (R402). -/
def State.lnqFifo (s : State) (p : Nat) : Bool := s.on Reg.hifCfgLnqFifo || p == 1

/-- Table commands are issued through the window: TCQ_FIFO = 1, or over SMI (R403). -/
def State.tcqFifo (s : State) (p : Nat) : Bool := s.on Reg.hifCfgTcqFifo || p == 1

/-- What a read of the word at `a` through path `p` latches. -/
def State.readLatches (s : State) (p a : Nat) : State :=
  if isLo48 a then s.latch p [(⟨a + 4, 0, 16, .ro, 0⟩, Tab.get s.cnt48 a 0 / 2 ^ 32)]
  else if isLoTt a then s.latch p [(⟨a + 4, 0, 16, .ro, 0⟩, s.rd ⟨a + 4, 0, 16, .ro, 0⟩)]
  else if a = 0x700020 then s.latch p [(Reg.calPpsOffHiOff, s.rd Reg.calPpsOffHiOff)]
  else if 0x401000 ≤ a ∧ a < 0x401800 ∧ a % 0x100 = 0x2C then s.tbNowLatch ((a - 0x401000) / 0x100) p
  else if 0x401000 ≤ a ∧ a < 0x401800 ∧ a % 0x100 = 0x44 then s.tbOffLatch ((a - 0x401000) / 0x100) p
  else if 0x610000 ≤ a ∧ a < 0x611000 ∧ a % 0x20 = 0x04 then s.latch p (s.txqWords ((a - 0x610000) / 0x20)).2
  else if 0x602000 ≤ a ∧ a < 0x602400 ∧ a % 0x40 = 0x0C then s.latch p (s.capWords ((a - 0x602000) / 0x40)).2
  else if a = 0x2D00200 then
    let r := if s.lnqFifo p then s.lnqHead else []
    s.latch p ((List.range 8).map fun k => (Reg.hifLnqDataData k, u32 r (4 * k)))
  else if a = 0x2D00280 then
    let r := if s.tcqFifo p then s.tcrHead else []
    s.latch p ((List.range 4).map fun k => (Reg.hifTcrDataData k, u32 r (4 * k)))
  else s

/-! ## Fields that show state held elsewhere -/

/-- A member of a field list by its place. -/
def pick (l : List (Fld × Nat)) (f : Fld) (d : Nat) : Nat := ((l.find? fun x => x.1.lo == f.lo).map (·.2)).getD d

/-- SYN: while the image's band table is not loaded, the factory table shows (Table SY-13). -/
def State.viewBand (s : State) (f : Fld) : Nat :=
  let (v, code, centre, slope) := s.band ((f.addr - 0x301000) / 0x10)
  match f.addr % 0x10 with
  | 0 => if f.lo = 8 then b2n v else code
  | 4 => centre
  | _ => slope

/-- REFSEL: FREL reads 0x8000_0000 while no candidate is selected or a history is empty, and 0 for the selected candidate; else
what the last second boundary gave (R70). -/
def State.viewFrel (s : State) (c : Nat) : Nat :=
  let sel := s.selected
  if sel = 31 then 0x80000000
  else if sel = c then 0
  else if (s.cand c).hist = [] ∨ (s.cand sel).hist = [] then 0x80000000
  else s.rd (Reg.refselCandFrelFrel c)

/-- TK.TBn: states, the time, FREQ, PEND and OFF of the base. -/
def State.viewTb (s : State) (f : Fld) : Nat :=
  let n := (f.addr - 0x401000) / 0x100
  let b := s.atb n
  match f.addr % 0x100 with
  | 0x28 => if f.lo = 8 then (s.tb 1 n).state else if f.lo = 4 then (s.tb 0 n).state else if f.lo = 0 then b2n b.valid else s.rd f
  | 0x2C => tSec b.t
  | 0x3C => encSat 32 (roundDiv (b.f * 1000000000000) (2 ^ 48))
  | 0x40 => if b.state = tbRamp then 0 else encSat 32 (roundDiv b.pend tbM)
  | 0x44 => s.tbOff48 n
  | _ => s.rd f

/-- TT: the base and role of an engine, its health, and the summaries by lane. -/
def State.viewTt (s : State) (f : Fld) : Nat :=
  let a := f.addr
  let mask (p : Nat → Bool) (k : Nat) : Nat := (List.range 32).foldl (fun w i => w + b2n (p (32 * k + i)) * 2 ^ i) 0
  if 0x500010 ≤ a ∧ a < 0x500020 then mask (fun n => s.ttState n == ttRun) ((a - 0x500010) / 4)
  else if 0x500020 ≤ a ∧ a < 0x500030 then mask s.ttHealthy ((a - 0x500020) / 4)
  else if 0x501000 ≤ a ∧ a < 0x505000 ∧ a % 0x80 = 0x1C then
    let n := (a - 0x501000) / 0x80
    if f.lo = 11 then b2n (s.ttHealthy n) else if f.lo = 8 then (s.ttBase n).1 else if f.lo = 4 then b2n (s.ttBase n).2 else s.rd f
  else s.rd f

/-- RED: the sample of a unit's health line, and the timing state of a pair (Table RD-12). -/
def State.viewRed (s : State) (f : Fld) : Nat :=
  let a := f.addr
  if 0x2800100 ≤ a ∧ a < 0x2800540 ∧ a % 0x10 = 0 ∧ f.lo = 9 then b2n (s.unit ((a - 0x2800100) / 0x10) != 0 && s.lineShown ((a - 0x2800100) / 0x10))
  else if 0x2801000 ≤ a ∧ a < 0x2801200 ∧ a % 0x10 = 8 ∧ (f.lo = 4 ∨ f.lo = 2) then
    let k := (a - 0x2801000) / 0x10
    if s.rd (Reg.redPairCfgKind k) ≠ 2 then 0
    else
      let p := s.rd (Reg.redPairCfgTkPair k)
      let u := s.timeUnit k
      if f.lo = 2 then 1 + u % 2
      else if s.on (Reg.tkPairDeferred p) then 3
      else if s.pairRamping p then 4
      else if s.timeHealthy u && s.timeHealthy (unitOther u) then 1 else 2
  else s.rd f

/-- SEC: the fuses, the life-cycle state and the armed FULL. -/
def State.viewSec (s : State) (f : Fld) : Nat :=
  let a := f.addr
  let mask (p : Nat → Bool) : Nat := (List.range 4).foldl (fun w i => w + b2n (p i) * 2 ^ i) 0
  if a = 0x2B00004 then s.lcState
  else if f = Reg.secDbgArmedFull then b2n s.sec.armedFull
  else if f = Reg.secOtpStatusFloorUsed then s.floorUsed
  else if f = Reg.secOtpStatusRevoked then s.otp.revoked
  else if f = Reg.secOtpStatusProgrammed then mask s.keyProgrammed
  else if a = 0x2B00010 then s.floorValue
  else if a = 0x2B00014 then s.otp.dieId
  else if a = 0x2B00018 then s.otp.dieId / 2 ^ 32
  else if 0x2B00028 ≤ a ∧ a < 0x2B00048 then u32 (be 32 (s.keyHash (s.rd Reg.secKeyselSlot))) (a - 0x2B00028)
  else s.rd f

/-- PMON: the cycle count, the low words of counters, the tag slots, and whether the results hold a window. -/
def State.viewPmon (s : State) (f : Fld) : Nat :=
  let a := f.addr
  if a = 0x2A00004 then s.fab.cyc
  else if f = Reg.pmonBwLateValid then b2n (s.on f && s.tbValid (s.rd Reg.pmonBwCfgTb))
  else if 0x2A20000 ≤ a then
    let i := (a - 0x2A20000) / 4
    u32 (Tab.get s.pmon.slots (i / 16) []) (4 * (i % 16))
  else s.rd f

/-- FLT: the register of an unused ID reads zero (R327); a health line at error shows on the ACTIVE of its RAIL source, whose pair it is
(R328). -/
def State.viewFlt (s : State) (f : Fld) : Nat :=
  let a := f.addr
  if 0x2901000 ≤ a ∧ fltClass ((a - 0x2901000) / 4) = 0 then 0
  else if 0x2901000 ≤ a ∧ f.lo = 11 then b2n (s.on f || s.lineBad ((a - 0x2901000) / 4))
  else if 0x2900080 ≤ a ∧ a < 0x29000C0 then
    let k := (a - 0x2900080) / 4
    (List.range 32).foldl (fun w i => w + b2n (bit (s.rd f) i || s.lineBad (32 * k + i)) * 2 ^ i) 0
  else s.rd f

/-- The value a read through path `p` sees in field `f`. -/
def State.viewFld (s : State) (p : Nat) (f : Fld) : Nat :=
  let a := f.addr
  if f.acc = .wo then 0
  else if latchedFld f then Tab.get s.hif.latch (4 * f.key + p) 0
  else if isLo48 a then Tab.get s.cnt48 a 0
  else if a = 0x100010 then s.domRuns
  else if f = Reg.clkFlagsK5Gated then b2n (!s.lowRate)
  else if 0x200200 ≤ a ∧ a < 0x200800 ∧ a % 0x40 = 0x18 then s.viewFrel ((a - 0x200200) / 0x40)
  else if 0x301000 ≤ a ∧ a < 0x301400 then s.viewBand f
  else if 0x400010 ≤ a ∧ a < 0x400020 ∧ f.lo = 17 then b2n (s.pairRamping ((a - 0x400010) / 4))
  else if 0x401000 ≤ a ∧ a < 0x401800 then s.viewTb f
  else if 0x500000 ≤ a ∧ a < 0x600000 then s.viewTt f
  else if 0x610000 ≤ a ∧ a < 0x611000 ∧ a % 0x20 = 4 then pick (s.txqWords ((a - 0x610000) / 0x20)).1 f 0
  else if 0x602000 ≤ a ∧ a < 0x602400 ∧ a % 0x40 = 0x0C then pick (s.capWords ((a - 0x602000) / 0x40)).1 f 0
  else if 0x800000 ≤ a ∧ a < 0x880000 ∧ a % 0x1000 = 0x64 ∧ f.lo = 1 then b2n (s.prbsActive ((a - 0x800000) / 0x1000))
  else if 0x1000000 ≤ a ∧ a < 0x1080000 ∧ s.isPort ((a - 0x1000000) / 0x1000) = false then 0
  else if 0x2800000 ≤ a ∧ a < 0x2900000 then s.viewRed f
  else if 0x2900000 ≤ a ∧ a < 0x2A00000 then s.viewFlt f
  else if 0x2A00000 ≤ a ∧ a < 0x2B00000 then s.viewPmon f
  else if 0x2B00000 ≤ a ∧ a < 0x2C00000 then s.viewSec f
  else s.rd f

/-- A read of the register at `a` through path `p`: its word, and what it latches. -/
def State.readReg (s : State) (p a : Nat) : Nat × State :=
  match fieldsAt a with
  | none => (0, s)
  | some l =>
    let s := s.readLatches p a
    (l.foldl (fun w f => w + s.viewFld p f % 2 ^ f.width * 2 ^ f.lo) 0, s)

end Sys2Proof.Machine
end

