-- ==== Sys2Proof/Machine/HostRegs.lean ====
section
/-! DEFINITION. Register accesses from the host: their order of checks, their reports, and the effect of a write
(R391 to R393, R396, R427). -/
namespace Sys2Proof.Machine

/-- The state after a meaning. -/
def State.after (s : State) (m : State → Res) : State :=
  match m s with
  | .next s' => s'
  | _ => s

/-! ## Reports (R393) -/

/-- IMG_WRITE and the other codes of Table HI-13. -/
def accImgWrite : Nat := 1
/-- UNMAPPED. -/
def accUnmapped : Nat := 2
/-- BYTE_EN. -/
def accByteEn : Nat := 3
/-- NO_DOMAIN. -/
def accNoDomain : Nat := 4
/-- RESET_BUSY. -/
def accResetBusy : Nat := 5
/-- BAD_INDEX. -/
def accBadIndex : Nat := 6
/-- RING_BUSY. -/
def accRingBusy : Nat := 7
/-- FIFO_FULL. -/
def accFifoFull : Nat := 8
/-- PARTIAL. -/
def accPartial : Nat := 9

/-- An access through path `p` (0 PCIe, 1 SMI) is reported: the first since the last clear is latched, each later one only
counts. JTAG has its own status and reports nothing here. -/
def State.accReport (s : State) (p bar2 a type : Nat) : State :=
  if 2 ≤ p then s
  else
    let s := s.bump Reg.hifAccErrCount
    if s.on Reg.hifAccErrValid then s
    else (s.wrs [(Reg.hifAccErrValid, 1), (Reg.hifAccErrPath, p), (Reg.hifAccErrType, type), (Reg.hifAccAddrBar2, bar2),
      (Reg.hifAccAddrAddr, a)]).intr 18

/-- A write of 1 to ACC_ERR.VALID. -/
def execAccErrClear (s : State) : Res :=
  .next (s.wrs [(Reg.hifAccErrCount, 0), (Reg.hifAccErrValid, 0), (Reg.hifAccErrPath, 0), (Reg.hifAccErrType, 0),
    (Reg.hifAccAddrBar2, 0), (Reg.hifAccAddrAddr, 0)])

/-! ## Interrupt masks (R404) -/

/-- A write of INT_MASK: a bit that goes from 0 to 1 while its status is set sends its message. -/
def execIntMaskWrite (value : Word) (s : State) : Res :=
  let was := s.rd Reg.hifIntMaskMask
  let v := value.toNat % 2 ^ 19
  let st := s.rd Reg.hifIntStatusStatus
  .next ((s.wr Reg.hifIntMaskMask v).each ((List.range 19).filter fun i => bit v i && !bit was i && bit st i) State.msix)

/-! ## Ring set-up and FIFO windows (R398, R402, R403) -/

/-- A write of ring `r`'s CTL through path `p`: EN from 0 to 1 zeroes both indices; SIZE is fixed while EN = 1. -/
def State.ringCtl (s : State) (p r v : Nat) : State :=
  let size := if 6 ≤ v % 32 ∧ v % 32 ≤ 16 then v % 32 else 6
  let was := s.ringOn r
  let s := if !was then s.wr (Reg.hifRingCtlSize r) size
    else if s.rd (Reg.hifRingCtlSize r) = size then s
    else s.accReport p 0 (Reg.hifRingCtlSize r).addr accRingBusy
  let s := s.wr (Reg.hifRingCtlEn r) (v / 2 ^ 8)
  s.when (!was && bit v 8) fun s => s.wrs [(Reg.hifRingDevIdxDevIdx r, 0), (Reg.hifRingHostIdxHostIdx r, 0)]

/-- A write of a ring's CTL. -/
def execRingCtlWrite (ring : Fin 6) (path : Fin 2) (value : Word) (s : State) : Res :=
  .next (s.ringCtl path.val ring.val value.toNat)

/-- An offset inside a block of Table HI-3 other than DEV, CLK and SEC. -/
def lateBlock (a : Nat) : Bool :=
  decide (0x200000 ≤ a) && decide (a < 0x2E00000) && !(decide (0x880000 ≤ a) && decide (a < 0x1000000))
    && !(decide (0x1080000 ≤ a) && decide (a < 0x1800000)) && !(decide (0x2B00000 ≤ a) && decide (a < 0x2C00000))

/-- An access before APPLY completes, or in HALT, to a block that is not reached then. -/
def State.blockShut (s : State) (a : Nat) : Bool := !s.hostOpen && lateBlock a

/-- The path is there at all: the PCIe link is up and the function in D0, or SMI is served; and K9 runs. -/
def State.pathOn (s : State) (p : Nat) : Bool :=
  s.k9On && (if p = 0 then s.on Reg.hifStatusLinkUp && !s.hif.d3 else s.on Reg.hifCfgSmiEn)

/-- An access through path `p` to the word at `a` reaches its block: the path is there, and before APPLY and in HALT the block is one of those
reached then (R392); JTAG needs K9 alone (R427). -/
def State.reached (s : State) (p a : Nat) : Bool := if p < 2 then s.pathOn p && !s.blockShut a else s.k9On

/-- A read through path `p` of the word at `a`, which lies in domain `d`, has the answer and the effect `f`: zero where it does not reach its
block, and zero with a report NO_DOMAIN where the domain is off (R392). -/
def State.gatedRead (s : State) (p a d : Nat) (f : State → Nat × State) : Nat × State :=
  if !s.reached p a then (0, s) else if s.pdOn d then f s else (0, s.accReport p 0 a accNoDomain)

/-- What a read through path `p` returns: one that has no path returns nothing. -/
def State.answer (s : State) (p : Nat) (r : Nat × State) : State :=
  if p < 2 ∧ s.pathOn p = false then s else r.2.send (.readData [BitVec.ofNat 32 r.1])

/-- A read of the window word at `a`: the queues lie in PD3, and with it off the read returns zero and is reported NO_DOMAIN (R392,
R427). -/
def State.windowRead (s : State) (p a : Nat) : Nat × State := s.gatedRead p a 3 fun s => s.readReg p a

/-- A write of POP or PUSH to the window word at `a` has the effect `f`: none during a host-view reset or with PD3 off but a report, and none
at all where it does not reach its block (R392, R427). -/
def State.windowWrite (s : State) (p a : Nat) (f : State → State) : State :=
  if p < 2 ∧ s.pathOn p = true ∧ s.on Reg.devResetStatusHvBusy = true then s.accReport p 0 a accResetBusy
  else if !s.reached p a then s
  else if s.pdOn 3 then f s else s.accReport p 0 a accNoDomain

/-- A read of LNQ_DATA0 latches the oldest record for the path that reads. -/
def execLnqFifoRead (path : Fin 3) (s : State) : Res := .next (s.answer path.val (s.windowRead path.val 0x2D00200))

/-- The record latched for path `p`, as bytes. -/
def State.windowRec (s : State) (p n : Nat) (f : Nat → Fld) : List Byte :=
  (List.range n).flatMap fun k => le 4 (Tab.get s.hif.latch (4 * (f k).key + p) 0)

/-- POP removes the record that this path has latched. -/
def execLnqPop (path : Fin 3) (s : State) : Res :=
  .next (s.windowWrite path.val 0x2D00220 fun s => match s.tbl.lnq with
    | [] => s
    | r :: l => if s.lnqFifo path.val && slice r 0 32 == s.windowRec path.val 8 Reg.hifLnqDataData then s.setLnq l else s)

/-- A read of TCR_DATA0 latches the oldest result. -/
def execTcrFifoRead (path : Fin 3) (s : State) : Res := .next (s.answer path.val (s.windowRead path.val 0x2D00280))

/-- POP removes the result that this path has latched. -/
def execTcrPop (path : Fin 3) (s : State) : Res :=
  .next (s.windowWrite path.val 0x2D00290 fun s => match s.hif.tcr with
    | [] => s
    | r :: l => if s.tcqFifo path.val && slice r 0 16 == s.windowRec path.val 4 Reg.hifTcrDataData
      then { s with hif := { s.hif with tcr := l } }.fifoStatus else s)

/-- A word is read and the words behind it are latched for path `p` (R394). -/
def State.readLatch (s : State) (p : Nat) (w : List (Fld × Nat) × List (Fld × Nat)) : Nat × State := (wordFrom w.1, s.latch p w.2)

/-- A read of a queue's ENTRY word: transmit queue `n`, which lies in its lane's quadrant, or capture queue `n` where there is one, in PD10
(R392, R394). -/
def execQueueEntryRead (capture : Bool) (n : Fin 128) (path : Fin 3) (s : State) : Res :=
  let p := path.val
  if capture then
    if n.val < 16 then .next (s.answer p (s.gatedRead p (0x60200C + 0x40 * n.val) 10 fun s => s.readLatch p (s.capWords n.val))) else .next s
  else .next (s.answer p (s.gatedRead p (0x610004 + 0x20 * n.val) (5 + n.val / 32) fun s => s.readLatch p (s.txqWords n.val)))

/-- A read of NOW_SEC_LO latches the rest of the time for the path that reads (R177, R392, R394). -/
def execTbNowRead (n : Fin 8) (path : Fin 3) (s : State) : Res :=
  .next (s.answer path.val (s.gatedRead path.val (Reg.tkTbNowSecLoNowSecLo n.val).addr 0 fun s => (tSec (s.atb n.val).t, s.tbNowLatch n.val path.val)))

/-- A read of OFF_LO latches OFF_HI (R177, R392, R394). -/
def execTbOffRead (n : Fin 8) (path : Fin 3) (s : State) : Res :=
  .next (s.answer path.val (s.gatedRead path.val (Reg.tkTbOffLoOffLo n.val).addr 0 fun s => (s.tbOff48 n.val, s.tbOffLatch n.val path.val)))

/-- PUSH queues the command in TCQ_DATA0 to 7, with the count of pushes as its CMD_IDX (Table HI-6). -/
def execTcqPush (path : Fin 3) (s : State) : Res :=
  .next (s.windowWrite path.val 0x2D00260 fun s =>
    if !s.tcqFifo path.val then s
    else if 256 ≤ s.tbl.tcq.length then s.accReport path.val 0 0x2D00260 accFifoFull
    else
      let b := (List.range 8).flatMap fun k => le 4 (s.rd (Reg.hifTcqDataData k))
      let c : TcqCmd := { bytes := b, idx := s.tbl.pushes, dma := false }
      { s with tbl := { s.tbl with tcq := s.tbl.tcq ++ [c], pushes := (s.tbl.pushes + 1) % 2 ^ 32 } }.fifoStatus)

/-! ## The effect of a write (R11, R12, R392) -/

/-- A write of `v` to one field of its register: RW takes it, W1C clears. -/
def State.wrFld (s : State) (v : Nat) (f : Fld) : State :=
  let x := v / 2 ^ f.lo % 2 ^ f.width
  match f.acc with
  | .rw => s.wr f x
  | .w1c => s.wr f ((List.range f.width).foldl (fun w i => setBit w i (bit w i && !bit x i)) (s.rd f))
  | _ => s

/-- `v` as a generation number. -/
def genOf (v : Nat) : Fin 65536 := Fin.ofNat 65536 (v / 2 ^ 16)

/-- Table LE-11. -/
def State.writeMan (s : State) (n v : Nat) : State :=
  let l : Fin 128 := Fin.ofNat 128 n
  s.after (fun s => match v % 8 with
    | 0 => execLaneManNop l s
    | 1 => execLaneHold l (genOf v) s
    | 2 => execLaneRelease l (genOf v) s
    | 3 => execLaneManualTrain l (genOf v) s
    | 4 => execLaneSlip l (genOf v) s
    | 5 => execLaneAccept l (genOf v) s
    | _ => execLaneManReserved l (genOf v) s)

/-- Table TK-5. -/
def State.writeFeed (s : State) (n v : Nat) : State :=
  let b : Fin 8 := Fin.ofNat 8 n
  s.after (fun s => match v % 4 with
    | 0 => execTbFeedNop b s
    | 1 => execTbFeedOffset b (genOf v) s
    | 2 => execTbFeedSet b (genOf v) s
    | _ => execTbFeedReserved b (genOf v) s)

/-- Table TS-4. -/
def State.writePg (s : State) (v : Nat) : State :=
  let p : Fin 16 := Fin.ofNat 16 (v / 16)
  s.after (fun s => match v % 4 with
    | 0 => execPgCmdNop p s
    | 1 => execPgArm p (genOf v) s
    | 2 => execPgDisarm p (genOf v) s
    | _ => execPgCmdReserved p (genOf v) s)

/-- Table CA-8. -/
def State.writeCal (s : State) (v : Nat) : State :=
  s.after (fun s => match v % 4 with
    | 0 => execCalCmdNop s
    | 1 => execCalRun (genOf v) s
    | 2 => execCalRestore (genOf v) s
    | _ => execCalCmdReserved (genOf v) s)

/-- Table RD-13. -/
def State.writeRed (s : State) (v : Nat) : State :=
  s.after (fun s => match v % 4 with
    | 0 => execRedCmdNop s
    | 1 => execRedRelease (Fin.ofNat 128 (v / 2 ^ 8)) (genOf v) s
    | _ => execRedCmdReserved s)

/-- SEC.REQ_CMD: code [2:0], LEVEL [5:4]. A nonce comes from the random source: a free value. -/
def State.writeSec (s : State) (jtag : Bool) (v : Nat) : State :=
  match v % 8 with
  | 0 => s.after (execSecCmdNone jtag)
  | 1 => (s.after (execSecGetNonce jtag (BitVec.ofNat 256 (Config.freeNat s.free)))).draw
  | 2 => s.after (execSecSubmit jtag)
  | 3 => s.after (execSecSet jtag (Fin.ofNat 4 (v / 16)))
  | 4 => s.after (execSecDisarm jtag)
  | 5 => s.after (execSecRelease jtag)
  | c => s.after (execSecCmdReserved jtag c)

/-- PWR.HOST_REQ (Table SP-9). -/
def State.writePwr (s : State) (v : Nat) : State := s.hostPwr (v / 2 ^ 16) (v % 8)

/-- A write of `v` takes each field of `l` as its kind says. -/
def State.plain (s : State) (v : Nat) (l : List Fld) : State := s.each l fun s f => s.wrFld v f

/-- Registers from the first block on: the effect of a write of `v` to the register at `a`, whose fields are `l`. -/
def State.writeDev (s : State) (a v : Nat) (l : List Fld) : State :=
  let w := BitVec.ofNat 32 v
  if a = 0x20 then s.after (execResetKeyWrite w)
  else if a = 0x24 then s.resetCmd (v % 4)
  else if a = 0x34 then s.after (execJrnlIdxWrite w)
  else if a = 0x60 then s.after (execNvmCmdGo w)
  else if a = 0x100020 then s.after (execFmeterStart w)
  else s.plain v l

/-- Registers from offset 0x200000 on: the effect of a write of `v` to the register at `a`, whose fields are `l`. -/
def State.writeClk (s : State) (a v : Nat) (l : List Fld) : State :=
  if 0x30020C ≤ a ∧ a < 0x3002CC ∧ a % 0x10 = 0x0C then s.after (execCkoOeHostWrite (Fin.ofNat 12 ((a - 0x30020C) / 0x10)) (bit v 16))
  else s.plain v l

/-- Registers from offset 0x400000 on: the effect of a write of `v` to the register at `a`, whose fields are `l`. -/
def State.writeTime (s : State) (a v : Nat) (l : List Fld) : State :=
  if 0x401000 ≤ a ∧ a < 0x401800 ∧ a % 0x100 = 0x68 then s.writeFeed ((a - 0x401000) / 0x100) v
  else if a = 0x600128 then s.writePg v
  else if 0x602000 ≤ a ∧ a < 0x602400 ∧ a % 0x40 = 0x1C then (if bit v 0 then s.after (execCapPop (Fin.ofNat 16 ((a - 0x602000) / 0x40))) else s)
  else if 0x610000 ≤ a ∧ a < 0x611000 ∧ a % 0x20 = 0x14 then (if bit v 0 then s.after (execTxqPop (Fin.ofNat 128 ((a - 0x610000) / 0x20))) else s)
  else if a = 0x700028 then s.writeCal v
  else if 0x602000 ≤ a ∧ a < 0x602400 ∧ a % 0x40 = 0x08 then
    let c := (a - 0x602000) / 0x40
    let s := s.plain v l
    s.wrBit Reg.tsStatusCapOvf c (s.on (Reg.tsCapStatusOvf c))
  else s.plain v l

/-- Registers from offset 0x800000 on: the effect of a write of `v` to the register at `a`, whose fields are `l`. -/
def State.writeLane (s : State) (a v : Nat) (l : List Fld) : State :=
  let n := (a - 0x800000) / 0x1000
  if a % 0x1000 = 0x14 then s.writeMan n v
  else if a % 0x1000 = 0x60 then ((s.plain v l).prbsIdle n).when (bit v 4) fun s => s.after (execPrbsClear (Fin.ofNat 128 n))
  else s.plain v l

/-- Registers from offset 0x1000000 on: the effect of a write of `v` to the register at `a`, whose fields are `l`. -/
def State.writeTable (s : State) (a v : Nat) (l : List Fld) : State :=
  let w := BitVec.ofNat 32 v
  if a = 0x1800034 then s.after (execLnqCtlWrite (bit v 0))
  else if a = 0x2800014 then s.writeRed v
  else if a = 0x2900024 then s.after (execFltClear w)
  else if a = 0x290002C then s.after (execFltInject w)
  else if 0x2901000 ≤ a ∧ a < 0x2901800 then s.after (execFltSrcClr (Fin.ofNat 512 ((a - 0x2901000) / 4)) w)
  else s.plain v l

/-- Registers from offset 0x2A00000 on: the effect of a write of `v` to the register at `a`, whose fields are `l`. -/
def State.writePmon (s : State) (a v : Nat) (l : List Fld) : State :=
  let w := BitVec.ofNat 32 v
  if a = 0x2A00010 then s.after (execGleanCtlWrite w)
  else if a = 0x2A00014 then (if v = 0 then s else s.plain v l)
  else if a = 0x2A00034 then s.gleanRd v
  else if a = 0x2A00040 then s.after (execBwCfgWrite w)
  else if 0x2A00100 ≤ a ∧ a < 0x2A00400 ∧ a % 0x10 = 0 then s.after (execPmonCntCfgWrite (Fin.ofNat 48 ((a - 0x2A00100) / 0x10)) w)
  else s.plain v l

/-- Registers from offset 0x2B00000 on: the effect of a write of `v` to the register at `a`, whose fields are `l`. -/
def State.writeSecReg (s : State) (p a v : Nat) (l : List Fld) : State :=
  if a = 0x2B00050 then s.writeSec (p == 2) v
  else if 0x2B00100 ≤ a ∧ a < 0x2B001D0 then s.mboxWrite (p == 2) fun s => s.plain v l
  else s.plain v l

/-- Registers from offset 0x2C00000 on: the effect of a write of `v` to the register at `a`, whose fields are `l`. -/
def State.writePwrReg (s : State) (a v : Nat) (l : List Fld) : State :=
  (if a = 0x2C00010 then s.writePwr v else s.plain v l)

/-- Registers from offset 0x2D00000 on: the effect of a write of `v` to the register at `a`, whose fields are `l`. -/
def State.writeHif (s : State) (p a v : Nat) (l : List Fld) : State :=
  let w := BitVec.ofNat 32 v
  if a = 0x2D00014 then s.after (execIntMaskWrite w)
  else if a = 0x2D00020 then (if bit v 6 then s.after execAccErrClear else s)
  else if 0x2D00100 ≤ a ∧ a < 0x2D001C0 then
    let r := (a - 0x2D00100) / 0x20
    if a % 0x20 = 0x08 then s.ringCtl p r v
    else if a % 0x20 = 0x0C ∨ a % 0x20 = 0x10 then s
    else if s.ringOn r then s.accReport p 0 a accRingBusy
    else s.plain v l
  else if a = 0x2D00220 then (if bit v 0 then s.after (execLnqPop (Fin.ofNat 3 p)) else s)
  else if a = 0x2D00260 then (if bit v 0 then s.after (execTcqPush (Fin.ofNat 3 p)) else s)
  else if a = 0x2D00290 then (if bit v 0 then s.after (execTcrPop (Fin.ofNat 3 p)) else s)
  else s.plain v l

/-- The effect of a write of `v` to the defined register at `a`, whose fields are `l`, through path `p`. -/
def State.writeReg (s : State) (p a v : Nat) (l : List Fld) : State :=
  if a < 0x200000 then s.writeDev a v l
  else if a < 0x400000 then s.writeClk a v l
  else if a < 0x800000 then s.writeTime a v l
  else if a < 0x1000000 then s.writeLane a v l
  else if a < 0x2A00000 then s.writeTable a v l
  else if a < 0x2B00000 then s.writePmon a v l
  else if a < 0x2C00000 then s.writeSecReg p a v l
  else if a < 0x2D00000 then s.writePwrReg a v l
  else s.writeHif p a v l

/-! ## The order of the checks (R391, R392) -/

/-- The offset is not a register: unmapped, or not a multiple of 4, or above BAR0. -/
def unmapped (a : Nat) : Bool := a % 4 != 0 || decide (2 ^ 26 ≤ a) || ((fieldsAt a).isNone && !reservedWord a)

/-- A host read of the word at `a` through path `p`: its value and what the read does. -/
def State.hostRead (s : State) (p a : Nat) : Nat × State :=
  if !s.pathOn p || s.blockShut a then (0, s)
  else if unmapped a then (0, s.accReport p 0 a accUnmapped)
  else if !s.pdOn (domainOf a) then (0, s.accReport p 0 a accNoDomain)
  else s.readReg p a

/-- A field of access IMG that a write of `v` would change. -/
def State.imgWrite (s : State) (v : Nat) (f : Fld) : Bool := f.acc == .img && v / 2 ^ f.lo % 2 ^ f.width != s.viewFld 0 f % 2 ^ f.width

/-- A host write of `v` to the word at `a` through path `p`, with all byte enables set (`full`) or not. -/
def State.hostWrite (s : State) (p a v : Nat) (full : Bool) : State :=
  if !s.pathOn p then s
  else if s.on Reg.devResetStatusHvBusy then s.accReport p 0 a accResetBusy
  else if s.blockShut a then s
  else if unmapped a then s.accReport p 0 a accUnmapped
  else if !s.pdOn (domainOf a) then s.accReport p 0 a accNoDomain
  else if !full then s.accReport p 0 a accByteEn
  else match fieldsAt a with
    | none => s
    | some l =>
      let s := s.when (l.any (s.imgWrite v)) fun s => s.accReport p 0 a accImgWrite
      s.writeReg p a v l

/-! ## SMI (R396) -/

/-- The status byte of an SMI transaction. -/
def State.smiStatus (s : State) : Nat :=
  b2n s.k9On * 128 + b2n s.irqLow * 64 + b2n (s.on Reg.hifAccErrValid) * 32
    + b2n (s.on Reg.devResetStatusHvBusy) * 16

/-- SMI is served while SMI_EN = 1 and nothing holds the device in reset (R413); its first transaction sets SMI_SEEN. -/
def State.smi (s : State) (f : State → State) : State :=
  if !s.on Reg.hifCfgSmiEn || s.inReset then s else f (s.wr Reg.hifStatusSmiSeen 1)

/-- `n` words read through path `p` from offset `a` on, in ascending order: what they return, last first, and the state (R391). -/
def State.hostReads (s : State) (p a : Nat) : Nat → List Word × State
  | 0 => ([], s)
  | n + 1 =>
    let (l, s) := State.hostReads s p a n
    let r := s.hostRead p (a + 4 * n)
    (BitVec.ofNat 32 r.1 :: l, r.2)

/-- An SMI READ of `words` words from `addr`: the status byte, then the words. -/
def execSmiRead (addr words : Nat) (s : State) : Res :=
  .next (s.smi fun s =>
    let st := s.smiStatus
    let r := s.hostReads 1 addr words
    r.2.send (.readData (BitVec.ofNat 32 st :: r.1.reverse)))

/-- Words written from offset `a` on. -/
def State.smiWrites (s : State) : Nat → List Word → State
  | _, [] => s
  | a, w :: l => State.smiWrites (s.hostWrite 1 a w.toNat true) (a + 4) l

/-- An SMI WRITE of `data` from `addr`. -/
def execSmiWrite (addr : Nat) (data : List Word) (s : State) : Res :=
  .next (s.smi fun s =>
    let st := s.smiStatus
    (s.smiWrites addr data).send (.readData [BitVec.ofNat 32 st]))

/-- Another command code ends the transaction. -/
def execSmiBadCommand (_ : Fin 256) (s : State) : Res :=
  .next (s.smi fun s => s.send (.readData [BitVec.ofNat 32 s.smiStatus]))

/-- A transaction that ends in the middle of the word at `addr`: the word is discarded and reported. -/
def execSmiPartial (addr : Nat) (s : State) : Res :=
  .next (s.smi fun s => if s.k9On then s.accReport 1 0 addr accPartial else s)

end Sys2Proof.Machine
end

