-- ==== Sys2Proof/Machine/Pcie.lean ====
section
/-! DEFINITION. The PCIe endpoint as host software sees it: BAR2, configuration space (Tables HI-1, HI-2), and register accesses
over PCIe (R388 to R391). -/
namespace Sys2Proof.Machine

/-! ## BAR2 (Table HI-2) -/

/-- A doorbell write moves ring `r`'s host index within the limits of R398. -/
def State.doorbell (s : State) (r v : Nat) : State :=
  let step := idxSub v (s.hostIdx r)
  let used := idxSub (s.hostIdx r) (s.devIdx r)
  let room := if r = 1 ∨ r = 3 ∨ r = 4 then s.ringSize r - used else idxSub (s.devIdx r) (s.hostIdx r)
  if step ≤ room then s.wr (Reg.hifRingHostIdxHostIdx r) v else s.accReport 0 1 (8 * r) accBadIndex

/-- BAR2 is served: PD9 is on, the link up, APPLY complete and no HALT (R389, R427). -/
def State.bar2On (s : State) : Bool := s.pathOn 0 && s.pdOn 9 && s.hostOpen

/-- A write of DOORBELLr in BAR2. -/
def execRingDoorbell (ring : Fin 6) (value : Word) (s : State) : Res :=
  if !s.bar2On then .next s
  else if s.on Reg.devResetStatusHvBusy then .next (s.accReport 0 1 (8 * ring.val) accResetBusy)
  else .next (s.doorbell ring.val value.toNat)

/-- Vectors whose message is due: pending, and held by no mask. -/
def State.msixFlush (s : State) : State :=
  if !s.msixOn then s
  else s.each ((List.range 64).filter fun v => bit s.hif.pba v && !bit s.hif.vecMask v) fun s v =>
    { s with hif := { s.hif with pba := setBit s.hif.pba v false } }.send (.msix v)

/-- A write of `v` at BAR2 offset `a`: a doorbell, or a word of the MSI-X table, whose vector control word masks its vector
(Table HI-2). -/
def State.bar2Write (s : State) (a v : Nat) : State :=
  if a % 8 = 0 ∧ a < 0x30 then s.doorbell (a / 8) v
  else if 0x8000 ≤ a ∧ a < 0x8400 ∧ a % 4 = 0 then
    let i := (a - 0x8000) / 4
    if i % 4 = 3 then { s with hif := { s.hif with vecMask := setBit s.hif.vecMask (i / 4) (bit v 0) } }.msixFlush
    else { s with hif := { s.hif with table := Tab.set s.hif.table i v 0 } }
  else s

/-- The word at BAR2 offset `a`: a ring's host index, the MSI-X table with its vector control words, the pending bits; zero elsewhere
(Table HI-2). -/
def State.bar2Read (s : State) (a : Nat) : Nat :=
  if !s.bar2On || a % 4 != 0 then 0
  else if a % 8 = 0 ∧ a < 0x30 then s.hostIdx (a / 8)
  else if 0x8000 ≤ a ∧ a < 0x8400 then
    let i := (a - 0x8000) / 4
    if i % 4 = 3 then b2n (bit s.hif.vecMask (i / 4)) else Tab.get s.hif.table i 0
  else if a = 0xC000 then s.hif.pba
  else if a = 0xC004 then s.hif.pba / 2 ^ 32
  else 0

/-! ## Configuration space (Table HI-1)

The header and each capability's own words are those of PCI Express Base Specification 4.0, which Table HI-1 names (PRESUMED, log entry
70); the offsets of the capabilities and the fields that Table HI-1 leaves open are the model's choice. -/

/-- Configuration space is reached: the link is up and K9 runs. -/
def State.configOn (s : State) : Bool := s.k9On && s.on Reg.hifStatusLinkUp

/-- The value at reset of the words that host software may write. -/
def cfgInit (a : Nat) : Nat :=
  match a with
  | 0x68 => 0x2000
  | 0x10C => 0x00462030
  | 0x114 => 0x2000
  | _ => 0

/-- The bits of the word at `a` that host software may write and that nothing else shows: the command word's enables beside Bus Master
Enable, the base addresses above the size of their BARs, the interrupt line, the device and link control words without relaxed ordering
and no snoop, and the masks and severities of AER. -/
def cfgMask (a : Nat) : Nat :=
  match a with
  | 0x04 => 0x542
  | 0x0C => 0xFF
  | 0x10 => 0xFC000000
  | 0x14 => 0xFFFFFFFF
  | 0x18 => 0xFFFF0000
  | 0x1C => 0xFFFFFFFF
  | 0x3C => 0xFF
  | 0x68 => 0x70EF
  | 0x70 => 0xC8
  | 0x108 => 0x07FFF030
  | 0x10C => 0x07FFF030
  | 0x114 => 0xF1C1
  | _ => 0

/-- What host software has set in the word at `a`. -/
def State.cfgSet (s : State) (a : Nat) : Nat := Tab.get s.hif.cfg a (cfgInit a)

/-- The rest of the word at `a`: the header with identity, class code and BARs, Power Management at 0x40 without No_Soft_Reset, MSI-X at
0x50 with 64 vectors in BAR2, PCI Express at 0x60 with a payload of 512 bytes, FLR and no ASPM, AER at 0x100 with nothing recorded. -/
def State.cfgFixed (s : State) (a : Nat) : Nat :=
  match a with
  | 0x00 => 0x32001F4B
  | 0x04 => 0x00100000 + 4 * s.rd Reg.hifStatusBme
  | 0x08 => 0x02800000 + s.rd Reg.devIdStepping
  | 0x10 => 4
  | 0x18 => 4
  | 0x34 => 0x40
  | 0x40 => 0x00035001
  | 0x44 => 3 * b2n s.hif.d3
  | 0x50 => 0x003F6011 + 2 ^ 30 * b2n s.hif.fnMask + 2 ^ 31 * s.rd Reg.hifStatusMsixEn
  | 0x54 => 0x8002
  | 0x58 => 0xC002
  | 0x60 => 0x00020010
  | 0x64 => 0x10008002
  | 0x6C => 0x44
  | 0x70 => (s.rd Reg.hifStatusSpeed + 16 * s.rd Reg.hifStatusWidth) * 2 ^ 16
  | 0x100 => 0x00020001
  | _ => 0

/-- The configuration word at `a`. -/
def State.cfgRead (s : State) (a : Nat) : Nat := s.cfgFixed a + Nat.land (s.cfgSet a) (cfgMask a)

/-- The bits of a word that the byte enables `be` name. -/
def beMask (be : Nat) : Nat := (List.range 4).foldl (fun m i => if bit be i then m + 0xFF * 2 ^ (8 * i) else m) 0

/-- `old` with the bits of `v` where `m` has ones. -/
def mix (m old v : Nat) : Nat := Nat.land old (0xFFFFFFFF - m) + Nat.land v m

/-- The function enters D3hot, or returns from it to D0, which acts as a hot reset (R389); the other two states are not there. -/
def State.pmState (s : State) (v : Nat) : State :=
  if v % 4 = 3 then { s with hif := { s.hif with d3 := true } }
  else if v % 4 = 0 ∧ s.hif.d3 = true then (s.linkDown.pcieReset).linkTrain
  else s

/-- A write of `v` to the configuration word at `a`, with byte enables `be`: Bus Master Enable, the power state, MSI-X Enable and its
function mask, a Function Level Reset (R59), or words that are only kept. -/
def State.configWrite (s : State) (a v be : Nat) : State :=
  let m := beMask be
  let w := mix m (s.cfgRead a) v
  let s := if cfgMask a = 0 then s
    else { s with hif := { s.hif with cfg := Tab.set s.hif.cfg a (Nat.land w (cfgMask a)) (cfgInit a) } }
  if a = 0x04 then s.wr Reg.hifStatusBme (w / 4)
  else if a = 0x44 then (if bit be 0 then s.pmState w else s)
  else if a = 0x50 then { s.wr Reg.hifStatusMsixEn (w / 2 ^ 31) with hif := { s.hif with fnMask := bit w 30 } }.msixFlush
  else if a = 0x68 ∧ bit be 1 = true ∧ bit v 15 = true then s.pcieReset
  else s

/-! ## Register accesses (R391, R392) -/

/-- A host write over PCIe or SMI (`path`) to a register, or over PCIe to BAR2 or to the configuration space (`space` 0
BAR0, 1 BAR2, 2 configuration). `be`: the byte enables. -/
def execRegisterWrite (path : Fin 2) (space : Fin 3) (addr : Nat) (value : Word) (be : Fin 16) (s : State) : Res :=
  match space.val with
  | 0 => .next (s.hostWrite path.val addr value.toNat (path.val == 1 || be.val == 15))
  | 1 =>
    if path.val = 1 ∨ !s.bar2On then .next s
    else if s.on Reg.devResetStatusHvBusy then .next (s.accReport 0 1 addr accResetBusy)
    else if be.val ≠ 15 then .next (s.accReport 0 1 addr accByteEn)
    else .next (s.bar2Write addr value.toNat)
  | _ => if path.val = 1 ∨ !s.configOn then .next s else .next (s.configWrite addr value.toNat be.val)

/-- What a host read returns: the words, last first. -/
def State.readWords (s : State) (p : Nat) (r : HostRead) : List Word × State :=
  match p, r.space.val with
  | 2, _ =>
    let x := if s.k9On && s.pdOn (domainOf r.addr) then s.readReg 2 r.addr else (0, s)
    ([BitVec.ofNat 32 x.1], x.2)
  | 0, 1 => ((((List.range r.words).map fun i => BitVec.ofNat 32 (s.bar2Read (r.addr + 4 * i)))).reverse, s)
  | 0, 2 => ([BitVec.ofNat 32 (if s.configOn then s.cfgRead r.addr else 0xFFFFFFFF)], s)
  | _, _ => s.hostReads p r.addr r.words

/-- A host read through path `path` (0 PCIe, 1 SMI, 2 JTAG): of up to 16 words of BAR0, in ascending order, over PCIe of BAR2 or
configuration space too (R389 to R391). A read of a _LO word of a 48-bit value returns the low word and latches the high one for the path
that reads (R129, R203, R241). A read that has no path returns nothing; one of configuration space without a link returns ones. -/
def execCounterLoRead (read : HostRead) (path : Fin 3) (s : State) : Res :=
  if path.val < 2 ∧ read.space.val < 2 ∧ s.pathOn path.val = false then .next s
  else
    let x := s.readWords path.val read
    .next (x.2.send (.readData x.1.reverse))

end Sys2Proof.Machine
end

