-- ==== Sys2Proof/Machine/Dma.lean ====
section
/-! DEFINITION. DMA: notifications, table commands and host frames through the rings in host memory (R397 to R401), and the
HOST record (R406, R407). -/
namespace Sys2Proof.Machine

/-- DMA runs: BAR2 is served, the endpoint is bus master, and no host-view reset is in progress (R389, R405). -/
def State.dmaOn (s : State) : Bool := s.bar2On && s.on Reg.hifStatusBme && !s.on Reg.devResetStatusHvBusy

/-- The oldest LNQ record is written to ring 0 where the ring has room (R399). -/
def execLnqDmaWrite (s : State) : Res :=
  match s.tbl.lnq with
  | [] => .next s
  | r :: l =>
    .next (if s.dmaOn && !s.on Reg.hifCfgLnqFifo && decide (0 < s.ringRoom 0) then (s.setLnq l).ringPost 0 (slice r 0 32) else s)

/-- The next command of ring 1, whose entry reads `entry`, is fetched where PD3 is on and the queue in it has a place and ring 2 has room for its
result (R399). -/
def execTcqFetch (entry : List Byte) (s : State) : Res :=
  let due := (s.tbl.tcq.filter (·.dma)).length
  .next (if s.dmaOn && s.pdOn 3 && !s.on Reg.hifCfgTcqFifo && decide (0 < s.ringReady 1) && decide (s.tbl.tcq.length < 256) && decide (due < s.ringRoom 2)
    then
      let c : TcqCmd := { bytes := slice entry 0 32, idx := s.devIdx 1, dma := true }
      ({ s with tbl := { s.tbl with tcq := s.tbl.tcq ++ [c] } }.ringStep 1).fifoStatus
    else s)

/-- A TXF entry keeps Table HI-7. -/
def State.txfOk (s : State) (e : List Byte) : Bool :=
  let d := u8 e 10
  let len := u16 e 8 + 4
  s.isDest d && decide (64 ≤ len) && decide (len ≤ (if s.isLeat d then 16383 else s.rd (Reg.portMaxlenLen d)))
    && decide (u8 e 11 < 32) && zeros e 14 18

/-- The next entry of ring 3 reads `entry`, and its frame `frame` (R401): the frame with its FCS enters the output queue of
class TC at its destination, or is discarded there (R302, R308). An entry waits while the buffer is off (PD4) or has no cells for it. -/
def execTxfFetch (entry frame : List Byte) (s : State) : Res :=
  let e := slice entry 0 32
  if !s.dmaOn || s.ringReady 3 == 0 || !s.pdOn 4 then .next s
  else if !s.txfOk e then .next ((s.bump Reg.hifTxBadCount).ringStep 3)
  else
    let data := slice frame 0 (u16 e 8)
    let b := data ++ fcsOf data
    let d := u8 e 10
    let fl := u8 e 11
    let egress := s.resolve d
    if s.sharedFree < cellsOf b.length then .next s
    else
      let id := s.fab.next
      let f : Frame := {
        bytes := b, len := b.length, ended := true, host := true, stage := 2, da := beAt b 0 6, sa := beAt b 6 6, etype := beAt b 12 2
        tsReq := bit fl 0, onestep := bit fl 1, tsId := u16 e 12, tc := fl / 4 % 8, dest := d, cycle := s.fab.cyc, copies := egress.toList }
      let s := { s with fab := { s.fab with next := id + 1 } }.setFrame id f
      let (_, s) := s.allocCells id (cellsOf b.length)
      let s := (s.ringStep 3).ev 0x0E
      .next (match egress with
        | some x => s.enqueue x id
        | none => (s.bump Reg.fabCntLinkDrop).reap id)

/-- The frame at the head of the host queue meets the next receive buffer, whose RXB entry reads `rxb` (R400): it is written
there with its RXC entry, or discarded where it is too long, and the buffer stays free. Once a SCAN has reached a domain the device
forwards nothing (R372). -/
def execHostRxDeliver (rxb : List Byte) (s : State) : Res :=
  match s.fab.hostq with
  | [] => .next s
  | (id, reason) :: l =>
    if s.frozen || !s.dmaOn || !s.on Reg.hifCfgFramesEn || s.ringReady 4 == 0 || s.ringRoom 5 == 0 then .next s
    else
      let f := s.frame id
      let done (s : State) : State := ((s.freeCells id).setFrame id {}).setHostq l
      if u16 rxb 8 < f.bytes.length then .next ((done s).bump Reg.hifRxDropCount)
      else
        let i := s.devIdx 4
        let s := s.send (.dmaBytes (u64 rxb 0) f.bytes)
        let s := (done s).ringStep 4
        .next (s.ringPost 5 (le 8 f.stamp ++ le 2 f.bytes.length ++ le 1 f.ingress ++ le 1 reason ++ le 4 i ++ le 8 0 ++ le 8 0))

/-! ## The HOST record -/

/-- HOST passes R407. `names`: the number names a destination; `pcieRef`: CLOCK_PLAN's PCIE_REF. -/
def checkHost (names : Nat → Bool) (pcieRef : Bool) (v : List Byte) : Bool :=
  let p := u8 v 0
  let q := u8 v 1
  let trap := u64 v 16 + u64 v 24 * 2 ^ 64
  v.length == 48 && decide (p < 8) && decide (q < 4) && (u16 v 2 == 0 || (decide (64 ≤ u16 v 2) && decide (u16 v 2 ≤ 8192)))
    && zeros v 4 12 && zeros v 32 16 && (!bit p 0 || pcieRef) && (bit p 0 || (!bit p 2 && q == 3))
    && (List.range 128).all (fun n => !bit trap n || names n) && (trap == 0 || bit p 2)

/-- HOST is applied (R406). -/
def applyHost (v : List Byte) (s : State) : State :=
  let p := u8 v 0
  let q := u8 v 1
  let s := s.wrs [(Reg.hifCfgPcieEn, p), (Reg.hifCfgSmiEn, p / 2), (Reg.hifCfgFramesEn, p / 4), (Reg.hifCfgLnqFifo, q), (Reg.hifCfgTcqFifo, q / 2),
    (Reg.hifHostqCells, if u16 v 2 = 0 then 1024 else u16 v 2)]
  { s with hif := { s.hif with ptpTrap := u64 v 16 + u64 v 24 * 2 ^ 64 } }

/-- An image without a HOST record (R406). -/
def applyHostDefault (pcieRef : Bool) (s : State) : State :=
  let e := b2n pcieRef
  s.wrs [(Reg.hifCfgPcieEn, e), (Reg.hifCfgFramesEn, e), (Reg.hifCfgSmiEn, 1), (Reg.hifCfgLnqFifo, 1 - e), (Reg.hifCfgTcqFifo, 1 - e)]

end Sys2Proof.Machine
end

