-- ==== Sys2Proof/Machine/Jtag.lean ====
section
/-! DEFINITION. The JTAG access port (R368, R372, Tables SP-6 and SP-14). -/
namespace Sys2Proof.Machine

/-- The instruction in the TAP. -/
def State.tap (s : State) (code : Nat) : State := { s with sec := { s.sec with tapIr := code } }

/-- The debug level grants instructions of level `l`. -/
def State.dbgGrants (s : State) (l : Nat) : Bool := s.on Reg.secCfgJtagEn && !s.inReset && decide (l ≤ s.rd Reg.secDbgLevel)

/-- The port answers to more than BYPASS and IDCODE: JTAG_EN is 1 (R368), and the device is not held in reset (R413). -/
def State.jtagOn (s : State) : Bool := s.on Reg.secCfgJtagEn && !s.inReset

/-- BYPASS: the bits shifted in come out one bit later, behind a zero. -/
def State.bypass (s : State) (tdi : List Bool) : State := (s.tap 0xFF).send (.tdo ((false :: tdi).take tdi.length))

/-- The BYPASS instruction; in reset TDO stays at high impedance (Table EL-4, R413). -/
def execJtagBypass (tdi : List Bool) (s : State) : Res := .next (if s.inReset then s else s.bypass tdi)

/-- IDCODE shifts the identity out, least significant bit first. -/
def execJtagIdcode (s : State) : Res :=
  .next (if s.inReset then s
    else (s.tap 0x01).send (.tdo ((List.range 32).map fun i => bit (s.rd Reg.secJtagIdIdcode) i)))

/-- The mailbox words: REQ_CMD, REQ_STATUS, NONCE0 to 7 and REQ_BUF0 to 51. -/
def inMailbox (a : Nat) : Bool := decide (0x2B00050 ≤ a) && decide (a < 0x2B001D0) && a % 4 == 0

/-- SEC_ACCESS reads or writes a word of the mailbox. -/
def execJtagSecAccess (write : Bool) (addr : Nat) (value : Word) (s : State) : Res :=
  if !s.jtagOn then .next s
  else
    let s := s.tap 0x10
    if !inMailbox addr then .next s
    else if write then .next (match fieldsAt addr with
      | some l => s.writeReg 2 addr value.toNat l
      | none => s)
    else
      let r := s.readReg 2 addr
      .next (r.2.send (.readData [BitVec.ofNat 32 r.1]))

/-- Domain `d` is powered: its gates are open, or only a SCAN has stopped its clocks (R372, Table SP-14). -/
def State.powered (s : State) (d : Nat) : Bool := s.pdOn d || (bit s.sec.scanStop d && bit (s.rd Reg.pwrDomainsOn) d)

/-- The status a JTAG access to domain `d` returns: 0 done, 1 NO_CLOCK, 2 NO_DOMAIN (Table SP-14). -/
def State.domStatus (s : State) (d : Nat) : Nat := if !s.k9On then 1 else if !s.powered d then 2 else 0

/-- The status a JTAG register access returns. -/
def State.jtagStatus (s : State) (a : Nat) : Nat := s.domStatus (domainOf a)

/-- REG_READ returns the word and the status; zero where it cannot be read. -/
def execJtagRegRead (addr : Nat) (s : State) : Res :=
  if !s.dbgGrants 1 then .next (if s.jtagOn then s.tap 0xFF else s)
  else
    let s := s.tap 0x11
    let st := s.jtagStatus addr
    let r := if st = 0 then s.readReg 2 addr else (0, s)
    .next (r.2.send (.readData [BitVec.ofNat 32 r.1, BitVec.ofNat 32 st]))

/-- REG_WRITE writes a register of a powered domain; any other write is discarded. -/
def execJtagRegWrite (addr : Nat) (value : Word) (s : State) : Res :=
  if !s.dbgGrants 2 then .next (if s.jtagOn then s.tap 0xFF else s)
  else
    let s := s.tap 0x12
    let st := s.jtagStatus addr
    let s := if st = 0 ∧ addr % 4 = 0 then match fieldsAt addr with
        | some l => s.writeReg 2 addr value.toNat l
        | none => s
      else s
    .next (s.send (.readData [BitVec.ofNat 32 st]))

/-- The domain of entry `i` of a memory: a transmit queue lies in its lane's quadrant (Table IM-14). -/
def memDomain (m : MemKind) (i : Nat) : Nat :=
  match m with
  | .buffer | .outQueue | .hostQueue => 4
  | .journal => 0
  | .txQueue => 5 + i / 65536 / 32 % 4
  | .capture => 10
  | .fdb | .flow | .vlan | .lnq | .tcq | .tcr | .tagBuffer => 3

/-- The bytes of an entry. -/
def memSize : MemKind → Nat
  | .buffer => 256
  | .fdb | .flow | .txQueue | .capture | .tcr => 16
  | .vlan => 40
  | .lnq | .tcq | .journal => 32
  | .tagBuffer => 64
  | .outQueue => 4
  | .hostQueue => 8

/-- The frame that holds cell `c` of the buffer, and the place of the cell in it (R282). -/
def State.cellOwner (s : State) (c : Nat) : Option (Nat × Nat) :=
  s.fab.frames.findSome? fun e => (e.2.cells.findIdx? (· == c)).map fun i => (e.1, i)

/-- An entry word of a queue and the words behind it, as bytes. -/
def entryBytes (w : List (Fld × Nat) × List (Fld × Nat)) : List Byte := le 4 (wordFrom w.1) ++ w.2.flatMap fun x => le 4 x.2

/-- The time that the three words behind an entry word give. -/
def entryTime (b : List Byte) : Nat := u32 b 4 * tSecond + u32 b 8 * 65536 + u32 b 12

/-- The value of field `f` in an entry word. -/
def entryFld (b : List Byte) (f : Fld) : Nat := u32 b 0 / 2 ^ f.lo % 2 ^ f.width

/-- Entry `i` of a memory, as bytes: a cell of the buffer, an entry of a table by its slot, a record of a queue by its place (for an
output, transmit or capture queue 65 536 × its number + its place), a tag slot, a journal slot. A cell of the buffer holds what was last
written to it, zero since the last wipe (R55). -/
def State.memRead (s : State) (m : MemKind) (i : Nat) : List Byte :=
  let q := i / 65536
  let k := i % 65536
  match m with
  | .buffer => match s.cellOwner i with
    | some (id, k) => let b := slice (s.frame id).bytes (256 * k) 256; b ++ (s.cellRest i).drop b.length
    | none => s.cellRest i
  | .fdb => le 16 (Tab.get s.tbl.fdb i 0)
  | .flow => le 16 (Tab.get s.tbl.flow i 0)
  | .vlan => le 40 (Tab.get s.tbl.vlan i 0)
  | .lnq => slice (s.tbl.lnq.getD i []) 0 32
  | .tcq => slice ((s.tbl.tcq[i]?.map (·.bytes)).getD []) 0 32
  | .tcr => slice (s.hif.tcr.getD i []) 0 16
  | .tagBuffer => slice (Tab.get s.pmon.slots i []) 0 64
  | .journal => s.slotBytes (i % 8192)
  | .outQueue => le 4 ((Tab.get s.fab.queues q []).getD k 0)
  | .hostQueue => match s.fab.hostq[i]? with
    | some (id, r) => le 4 id ++ le 4 r
    | none => le 8 0
  | .txQueue => entryBytes ((s.setTxq q ((s.txq q).drop k)).txqWords q)
  | .capture => entryBytes ((s.setCapq q ((s.capq q).drop k)).capWords q)

/-- Entry `i` of a memory written; an entry of a queue that is not there is none. -/
def State.memWrite (s : State) (m : MemKind) (i : Nat) (b : List Byte) : State :=
  let q := i / 65536
  let k := i % 65536
  match m with
  | .buffer => match s.cellOwner i with
    | some (id, k) =>
      let x := (s.frame id).bytes
      (s.setFrame id { s.frame id with bytes := x.take (256 * k) ++ slice b 0 (min 256 (x.length - 256 * k)) ++ x.drop (256 * k + 256) }).cellPut
        i (slice b 0 256)
    | none => if i < 196608 then s.cellPut i (slice b 0 256) else s
  | .fdb => if i < 262144 then s.setEnt tFdb i (unle (slice b 0 16)) else s
  | .flow => if i < 65536 then s.setEnt tFlow i (unle (slice b 0 16)) else s
  | .vlan => if i < 4096 then s.setEnt tVlan i (unle (slice b 0 40)) else s
  | .lnq => { s with tbl := { s.tbl with lnq := s.tbl.lnq.set i (slice b 0 32) } }
  | .tcq => { s with tbl := { s.tbl with tcq := s.tbl.tcq.modify i fun c => { c with bytes := slice b 0 32 } } }
  | .tcr => { s with hif := { s.hif with tcr := s.hif.tcr.set i (slice b 0 16) } }
  | .tagBuffer => if i < 1024 then { s with pmon := { s.pmon with slots := Tab.set s.pmon.slots i (slice b 0 64) (List.replicate 64 0) } } else s
  | .journal => if i < 8192 then { s with journal := Tab.set s.journal i (slice b 0 32) (List.replicate 32 0) } else s
  | .outQueue => { s with fab := { s.fab with queues := Tab.set s.fab.queues q ((Tab.get s.fab.queues q []).set k (u32 b 0)) [] } }
  | .hostQueue => { s with fab := { s.fab with hostq := s.fab.hostq.set i (u32 b 0, u32 b 4) } }
  | .txQueue => { s with pul := { s.pul with txq := Tab.set s.pul.txq q ((s.txq q).set k
      { id := entryFld b (Reg.tsTxqEntry0Id q), tb := entryFld b (Reg.tsTxqEntry0Tb q), t := entryTime b
        valid := entryFld b (Reg.tsTxqEntry0Valid q) == 1, bad := entryFld b (Reg.tsTxqEntry0Bad q) == 1 }) [] } }
  | .capture => { s with pul := { s.pul with cap := Tab.set s.pul.cap q ((s.capq q).set k
      { tb := entryFld b (Reg.tsCapEntry0Tb q), t := entryTime b, valid := entryFld b (Reg.tsCapEntry0Valid q) == 1
        window := if entryFld b (Reg.tsCapEntry0Wvalid q) = 1 then some (entryFld b (Reg.tsCapEntry0Window q)) else none
        inHigh := entryFld b (Reg.tsCapEntry0Inhigh q) == 1, rising := entryFld b (Reg.tsCapEntry0Rising q) == 1 }) [] } }

/-- The bytes as 32-bit words, the last one filled with zeros. -/
def wordsUp (b : List Byte) : List Word := (List.range ((b.length + 3) / 4)).map fun i => BitVec.ofNat 32 (u32 b (4 * i))

/-- MEM_ACCESS reads or writes entry `addr` of a memory in a powered domain, with the status of a register access; in a domain that is off
it reads zero, and a write is discarded. -/
def execJtagMemAccess (mem : MemKind) (addr : Nat) (write : Option (List Byte)) (s : State) : Res :=
  if !s.dbgGrants 2 then .next (if s.jtagOn then s.tap 0xFF else s)
  else
    let s := s.tap 0x13
    let st := s.domStatus (memDomain mem addr)
    let w := BitVec.ofNat 32 st
    match write with
    | some b => .next ((if st = 0 then s.memWrite mem addr b else s).send (.readData [w]))
    | none =>
      let b := if st = 0 then s.memRead mem addr else le (memSize mem) 0
      .next (s.send (.readData (wordsUp b ++ [w])))

/-- SAMPLE/PRELOAD at FULL samples the pins and loads the boundary register; below FULL it acts as BYPASS. -/
def execJtagSamplePreload (pins preload : List Bool) (s : State) : Res :=
  if s.dbgGrants 2 then
    let s := s.tap 0x02
    .next ({ s with sec := { s.sec with preload := preload } }.send (.tdo pins))
  else .next (if s.jtagOn then s.bypass preload else s)

/-- EXTEST at FULL captures the pins and drives them from the boundary register (`State.pin`); below FULL it acts as BYPASS. -/
def execJtagExtest (pins drive : List Bool) (s : State) : Res :=
  if s.dbgGrants 2 then
    let s := s.tap 0x00
    .next ({ s with sec := { s.sec with preload := drive } }.send (.tdo pins))
  else .next (if s.jtagOn then s.bypass drive else s)

/-- SCAN stops the clocks of the powered domains that bit n of `domains` names, until a full reset (R372). -/
def execJtagScan (domains : Nat) (s : State) : Res :=
  if !s.dbgGrants 2 then .next (if s.jtagOn then s.tap 0xFF else s)
  else
    let s := s.tap 0x20
    let l := (List.range 11).filter fun d => bit domains d && s.pdOn d && s.k9On
    .next (s.each l fun s d =>
      { s with sec := { s.sec with scanStop := setBit s.sec.scanStop d true }, pwr := { s.pwr with gates := setBit s.pwr.gates d false } })

/-- TRST_N resets the TAP: IDCODE is its instruction; the debug level stays. -/
def execJtagTrst (s : State) : Res := .next (if s.inReset then s else s.tap 0x01)

end Sys2Proof.Machine
end

