-- ==== Sys2Proof/Machine/Image.lean ====
section
/-! DEFINITION. The configuration image: its header, its records and their checks (R39 to R46, R48, R32, R33). -/
namespace Sys2Proof.Machine

/-! ## Header (Table IM-2) -/

/-- LENGTH of the header. -/
def imgLen (b : List Byte) : Nat := u32 b 8
/-- SEQ of the header. -/
def imgSeqOf (b : List Byte) : Nat := u32 b 12
/-- KEY_SLOT of the header. -/
def imgSlot (b : List Byte) : Nat := u8 b 17
/-- FLAGS of the header. -/
def imgFlagsOf (b : List Byte) : Nat := u16 b 18

/-- The header check with reason HEADER passes (R39). -/
def headerOk (b : List Byte) : Bool :=
  u32 b 0 == 0x57454143 && u16 b 6 == 64 && zeros b 20 44 && decide (u8 b 16 < 16) && decide (imgFlagsOf b < 4)
    && (decide (imgSlot b ≤ 3) || imgSlot b == 0xFF)

/-- LENGTH is one that the flash can hold (R39). -/
def lengthOk (density : Nat) (b : List Byte) : Bool :=
  imgLen b % 4 == 0 && inRange 200 (imgLen b) 8388608 && decide (imgLen b ≤ density)

/-- KEY_SLOT names a programmed slot that was not revoked at the last full reset (R365), or the factory key in FACTORY or RETURN (R46). -/
def State.slotOk (s : State) (slot : Nat) : Bool :=
  if slot = 0xFF then s.lcState == 0 || s.lcState == 3 else s.imageKeyOk slot

/-! ## Records (R40, R41) -/

/-- A record: its type, the offset of its header, its value field. -/
abbrev Rec := Nat × Nat × List Byte

/-- A record type of Table IM-4. -/
def typeKnown (t : Nat) : Bool :=
  [0x0001, 0x0010, 0x0011, 0x0020, 0x0030, 0x0040, 0x0050, 0x0060, 0x0061, 0x0070, 0x0080, 0x0090, 0x00A0, 0x00B0, 0x00C0, 0x00D0,
    0x00E0, 0x00F0, 0x0100, 0x0110, 0x0FFF, 0xFFFF].contains t

/-- The records from offset `o` on, after a record of type `prev` (0 at the start) and `run` REGWRITE records in a row; none where
R40 or R41 is broken. `fuel` bounds the number of records. -/
def walkRecs (b : List Byte) (n : Nat) : (fuel o prev run : Nat) → Option (List Rec)
  | 0, _, _, _ => none
  | fuel + 1, o, prev, run =>
    let t := u16 b o
    let l := u32 b (o + 4)
    let e := o + 8 + l
    let e4 := (e + 3) / 4 * 4
    let run := if t = 0x0FFF then run + 1 else 0
    if n < o + 8 ∨ !typeKnown t ∨ u16 b (o + 2) ≠ 0 ∨ n < e4 ∨ !zeros b e (e4 - e) then none
    else if (prev = 0 ∧ t ≠ 1) ∨ t < prev ∨ (t = prev ∧ t ≠ 0x0FFF) ∨ 64 < run then none
    else if t = 0xFFFF then (if e = n ∧ l = 128 then some [(t, o, slice b (o + 8) l)] else none)
    else (walkRecs b n fuel e4 t run).map fun r => (t, o, slice b (o + 8) l) :: r

/-- The records of an image of `LENGTH` bytes. At most 85 fit R41: IDENTITY, 19 other types, 64 REGWRITE, SIGNATURE. -/
def imgRecs (b : List Byte) : Option (List Rec) := walkRecs b (imgLen b) 86 64 0 0

/-- The value field of record type `t`, empty where the image has none. -/
def recOf (l : List Rec) (t : Nat) : List Byte := ((l.find? fun r => r.1 == t).map (·.2.2)).getD []

/-- The image has a record of type `t`. -/
def hasRec (l : List Rec) (t : Nat) : Bool := l.any fun r => r.1 == t

/-! ## What one record's check reads of another -/

/-- LANES mode of lane `n`. -/
def laneModeOf (l : List Rec) (n : Nat) : Nat := u8 (recOf l 0x40) (128 + 8 * n)
/-- Rate code of the quad of lane `n`. -/
def quadRateOf (l : List Rec) (n : Nat) : Nat := u8 (recOf l 0x40) (4 * (n / 4))
/-- FLAGS of lane `n`. -/
def laneFlagsOf (l : List Rec) (n : Nat) : Nat := u8 (recOf l 0x40) (129 + 8 * n)
/-- PORTS mode of port `n`. -/
def portModeOf (l : List Rec) (n : Nat) : Nat := u8 (recOf l 0x50) (32 * n)
/-- The port that lane `n` belongs to. -/
def ownerOf (l : List Rec) (n : Nat) : Option Nat :=
  (List.range 128).find? fun p => decide (p ≤ n) && decide (n < p + portLanes (portModeOf l p))
/-- TT_EN of lane `n`. -/
def ttEnOf (l : List Rec) (n : Nat) : Bool := u8 (recOf l 0x70) (32 * n) == 1
/-- TIMEBASES enables base `n`. -/
def tbOnOf (l : List Rec) (n : Nat) : Bool := decide (n < 8) && u8 (recOf l 0x60) (24 + 24 * n) == 1
/-- Base `b` takes its time from lane `n`. -/
def tbNames (l : List Rec) (b n : Nat) : Bool :=
  tbOnOf l b && u8 (recOf l 0x60) (26 + 24 * b) == 1 && u8 (recOf l 0x60) (27 + 24 * b) == n
/-- An enabled RCS candidate names lane `n`. -/
def rcsOf (l : List Rec) (n : Nat) : Bool :=
  (List.range 16).any fun i => u8 (recOf l 0x20) (candOff' (8 + i)) == 1 && u8 (recOf l 0x20) (16 + i) == n
/-- What destination `n` is: 0 nothing, 1 a port, 2 a Leat lane (R249). -/
def kindOf (l : List Rec) (n : Nat) : Nat := if portModeOf l n ≠ 0 then 1 else if laneModeOf l n = 1 then 2 else 0
/-- The lanes of member or destination `n`. -/
def lanesIn (l : List Rec) (n : Nat) : List Nat := (List.range (max 1 (portLanes (portModeOf l n)))).map (n + ·)
/-- The rate of destination `n` in Mb/s. -/
def mbpsOf (l : List Rec) (n : Nat) : Nat :=
  match portModeOf l n with
  | 1 => 10000
  | 2 => 25000
  | 3 => 50000
  | 4 => 100000
  | _ => if quadRateOf l n = 2 then 10000 else 25000

/-- ML of destination `n` (R287). -/
def maxlenOf (l : List Rec) (n : Nat) : Nat := if kindOf l n = 1 then orDef (u16 (recOf l 0x50) (32 * n + 6)) 1522 else 16383
/-- LOSSLESS of port `n`. -/
def lossOf (l : List Rec) (n : Nat) : Nat := u8 (recOf l 0x50) (32 * n + 12)

/-- How an RCS may use lane `n` (R83). -/
def laneUseOf (l : List Rec) (n : Nat) : Nat :=
  if laneModeOf l n = 1 then 1
  else match ownerOf l n with
    | some p => if bit (u8 (recOf l 0x50) (32 * p + 2)) 0 then 3 else 2
    | none => 0

/-- VLAN `x` is an item of TABLES_STATIC, or 1 in an image without that record (R153). -/
def vidsOf (l : List Rec) (x : Nat) : Bool :=
  let t := recOf l 0xA0
  if hasRec l 0xA0 then (List.range (u16 t 40)).any fun i => u16 t (vlanOff i) == x else x == 1

/-- Lane or port `n` is a member of a protected pair. -/
def memberOf (l : List Rec) (n : Nat) : Bool :=
  (List.range 32).any fun k =>
    let p := recOf l 0xC0
    u8 p (32 + 16 * k) != 0 && (u8 p (33 + 16 * k) == n || u8 p (34 + 16 * k) == n)

/-- Time-base pair `k` is enabled with its primary base on lane `a` and its shadow base on lane `b` (R326). -/
def fedOf (l : List Rec) (k a b : Nat) : Bool :=
  let t := recOf l 0x60
  tbNames l (u8 t (8 + 4 * k)) a && tbNames l (u8 t (9 + 4 * k)) b

/-! ## The records of this chapter and of the clock plan -/

/-- IDENTITY passes R43. -/
def checkIdentity (stepping : Nat) (v : List Byte) : Bool :=
  v.length == 32 && u16 v 0 == 0x3200 && decide (u8 v 2 ≤ stepping) && zeros v 3 1 && u64 v 4 != 0 && u64 v 4 != 2 ^ 64 - 1

/-- CLOCK_PLAN passes R32, R33. -/
def checkClockPlan (v : List Byte) : Bool :=
  v.length == 12 && decide (u8 v 0 ≤ 2) && (if u8 v 0 = 0 then u8 v 1 == 0 else inRange 1 (u8 v 1) 5) && decide (u8 v 2 ≤ 1)
    && decide (u8 v 3 ≤ 2) && decide (u8 v 4 ≤ 1) && decide (u8 v 5 ≤ 1) && zeros v 6 6

/-- PCIE_REF of an image, 0 without CLOCK_PLAN (R32). -/
def pcieRefOf (l : List Rec) : Bool := bit (u8 (recOf l 0x10) 5) 0

/-- The bits of a register's fields that a REGWRITE may write (R45). -/
def imgBits (l : List Fld) : Nat :=
  l.foldl (fun m f => if f.acc = .img ∨ f.acc = .rw then Nat.lor m ((2 ^ f.width - 1) * 2 ^ f.lo) else m) 0

/-- One REGWRITE entry passes R44, R45. -/
def entryOk (a m x : Nat) : Bool :=
  a % 4 == 0 && decide (0x200000 ≤ a) && !(decide (0x2B00000 ≤ a) && decide (a < 0x2C00000)) && m != 0
    && Nat.land x m == x && (match fieldsAt a with
      | some l => Nat.land m (imgBits l) == m
      | none => false)

/-- A REGWRITE record passes R44, R45. -/
def checkRegwrite (v : List Byte) : Bool :=
  v.length != 0 && v.length % 12 == 0 && (List.range (v.length / 12)).all fun k =>
    entryOk (u32 v (12 * k)) (u32 v (12 * k + 4)) (u32 v (12 * k + 8))

/-- The check of one record against its chapter (R42, R48). `st` is DEV.ID.STEPPING, `keyOk` says which slots are programmed and
not revoked. -/
def recordOk (st : Nat) (keyOk : Nat → Bool) (l : List Rec) (r : Rec) : Bool :=
  let v := r.2.2
  let tbOn := tbOnOf l
  let kind := kindOf l
  let names (n : Nat) : Bool := kind n != 0
  let leat (n : Nat) : Bool := laneModeOf l n == 1
  let tt (n : Nat) : Bool := leat n && ttEnOf l n
  let flag (k n : Nat) : Bool := (lanesIn l n).any fun i => bit (laneFlagsOf l i) k
  match r.1 with
  | 0x01 => checkIdentity st v
  | 0x10 => checkClockPlan v
  | 0x11 => checkBandTable v
  | 0x20 => checkRefsel (laneUseOf l) v
  | 0x30 => checkOutputs tbOn (fun b => orDef (u32 (recOf l 0x61) (28 * b + 8)) 10) v
  | 0x40 => checkLanes (rcsOf l) (fun n => ttEnOf l n || (List.range 8).any fun b => tbNames l b n)
      (fun n => match ownerOf l n with
        | some p => (lanesIn l p).any (rcsOf l)
        | none => false) v
  | 0x50 => checkPorts (laneModeOf l) (quadRateOf l) tbOn (vidsOf l) v
  | 0x60 => checkTimebases tt (fun m => u8 (recOf l 0x20) (candOff' (2 * m)) == 1 && bit (u8 (recOf l 0x20) (candOff' (2 * m) + 4)) 0) v
  | 0x61 => checkServo v
  | 0x70 => checkTransfer (laneModeOf l) tbOn (tbNames l) v
  | 0x80 => checkPulses tbOn (fun b => tbOn b && u8 (recOf l 0x60) (25 + 24 * b) == 1) leat v
  | 0x90 => checkCalibration tbOn (fun n => laneModeOf l n != 0) v
  | 0xA0 => checkTables names leat v
  | 0xB0 => checkFabric kind (mbpsOf l) (maxlenOf l) (lossOf l) (u8 (recOf l 0xA0) 1) v
  | 0xC0 => checkProtection kind (fun a b => if kind a = 1
        then portModeOf l a == portModeOf l b && u8 (recOf l 0x50) (32 * a + 1) == u8 (recOf l 0x50) (32 * b + 1)
        else quadRateOf l a == quadRateOf l b) (flag 2) (flag 3) (ttEnOf l) (fedOf l) v
  | 0xD0 => checkFaultPolicy (memberOf l) v
  | 0xE0 => checkPmon names tbOn v
  | 0xF0 => checkSecurity keyOk v
  | 0x100 => checkPower tt (pcieRefOf l) v
  | 0x110 => checkHost names (pcieRefOf l) v
  | 0xFFF => checkRegwrite v
  | _ => true

/-- The first failing record check, as reason and TYPE (R48, R50). An ETH lane of an image without PORTS belongs to no port
(R153). Without FABRIC the lossless masks of PORTS must fit with the default round trip and guard (R288); the record named is then
PORTS (DEDUCED, log entry 62). -/
def contentFail (st : Nat) (keyOk : Nat → Bool) (l : List Rec) : Option (Nat × Nat) :=
  match l.find? fun r => !recordOk st keyOk l r with
  | some r => if r.1 = 0xFFF then some (11, 0) else some (10, r.1)
  | none =>
    if !hasRec l 0x50 && (List.range 128).any fun n => laneModeOf l n == 2 then some (10, 0x50)
    else if !hasRec l 0xB0 && !headroomFits (kindOf l) (mbpsOf l) (maxlenOf l) (lossOf l) (fun _ => 0) 16384 then some (10, 0x50)
    else none

end Sys2Proof.Machine
end

