-- ==== Sys2Proof/Machine/Boot.lean ====
section
/-! DEFINITION. The XO check and the start-up sequencer (R24, R52 and Table IM-10). -/
namespace Sys2Proof.Machine

/-! ## XO check (Tables CK-2, CK-3) -/

/-- The XO check enters STATE `st`. -/
def State.setXo (s : State) (st : Nat) : State := s.wr Reg.clkXoStatusState st

/-- Three windows agree on class `c`: XO_GOOD; SEL_VALID rises (R76), and ROOT_START begins with the ramp of PD1 (Tables CK-3,
IM-10). -/
def State.xoGood (s : State) (c : Nat) : State :=
  let s := (s.setXo 2).wr Reg.clkXoStatusDetected (c - 2)
  ((s.send (.sel true 0)).bootRamps [(1, true)]).wr Reg.devBootPhase 1

/-- A window of the start oscillator ends with `count` edges (R23, R24, R426). -/
def execXoWindowEnd (count : Nat) (s : State) : Res :=
  let c := xoClass count
  let s' := s.wr Reg.clkXoStatusCount (min count 65535)
  let again (n : Nat) : XoCheck := { s.xo with agree := n, prev := c }
  if !s.xo.released then .next s
  else match s.rd Reg.clkXoStatusState with
    | 0 => .next (if 2 ≤ c then { s' with xo := again 1 }.setXo 1 else { s' with xo := again 0 })
    | 1 =>
      if c = s.xo.prev then .next (if s.xo.agree = 2 then { s' with xo := again 3 }.xoGood c else { s' with xo := again (s.xo.agree + 1) })
      else .next ({ s' with xo := again 0 }.setXo 0)
    | 2 =>
      if c = s.rd Reg.clkXoStatusDetected + 2 then .next s'
      else .next (((s'.setXo 3).wr Reg.clkXoStatusLoss 1).report 0x50 (min count 65535))
    | _ => .next s'

/-! ## ROOT_START -/

/-- Root `root` locks in ROOT_START: it is the active root, PD4 and PD3 ramp, and WIPE begins (R16, R52). -/
def execStartupRootLocked (root : Fin 2) (s : State) : Res :=
  let r := root.val
  if !s.inPhase 1 || !s.rootRuns r then .next s
  else
    let s := { s with boot := { s.boot with shaft := true } }
    let s := ((s.setRootLock r true).wr Reg.clkShaftStatusActiveRoot r).setUnit r unitActive
    .next ((s.bootRamps [(4, true), (3, true)]).wr Reg.devBootPhase 2)

/-- Root A has not locked 10 ms after its ramp: PD2 ramps and Root B starts. -/
def execRootALockTimeout (s : State) : Res :=
  if s.inPhase 1 && s.pdOn 1 && !s.on Reg.devBootRootBStart then .next ((s.bootRamps [(2, true)]).wr Reg.devBootRootBStart 1)
  else .next s

/-- No root has locked 10 ms after the ramp of PD2: HALT with reason ROOT (R50). -/
def execRootBLockTimeout (s : State) : Res :=
  if s.inPhase 1 && s.pdOn 2 && s.on Reg.devBootRootBStart then .next (s.wr Reg.devBootFailReason0 13).haltEnter else .next s

/-! ## WIPE -/

/-- R362: a journal whose newest record was not written in the present state, or that is empty, is cleared, and a LIFECYCLE record
with old state 255 follows. In FACTORY nothing is done. -/
def State.lifecycleRecovery (s : State) : State :=
  let lc := s.lcState
  let current := match s.newest with
    | some (_, r) => u8 r 1 / 4 % 8 == lc
    | none => false
  if lc = 0 ∨ current = true then s
  else s.jclear.jput (s.jrec 3 [255, BitVec.ofNat 8 lc])

/-- The wipes and the journal scan end (R55 to R57, R362, R371): BOOT_COUNT, an interrupted journal clear, an armed FULL, and READ
begins with the primary copy. -/
def execWipeDone (s : State) : Res :=
  if !s.inPhase 2 || !bit (s.rd Reg.pwrDomainsOn) 3 || !bit (s.rd Reg.pwrDomainsOn) 4 then .next s
  else
    let s := (s.domainUp 3).domainUp 4
    let count := match s.newest with
      | some (_, r) => wrapAdd 32 (u32 r 8) 1
      | none => 1
    let s := ((s.wr Reg.devBootCountCount count).lifecycleRecovery).jrnlHead
    let s := if s.sec.armedFull then { s with sec := { s.sec with armedFull := false } }.wr Reg.secDbgLevel 2 else s
    .next ({ s with boot := { s.boot with wiped := true, cs := 0, store := [] } }.wr Reg.devBootPhase 3)

/-! ## READ and AUTH -/

/-- The copy under check fails with a reason: the fallback is tried, or start-up enters HALT (R47, R52). -/
def State.copyFails (s : State) (reason : Nat) : State :=
  if s.boot.cs = 0 then
    ({ s with boot := { s.boot with cs := 1, store := [] } }.wr Reg.devBootFailReason0 reason).wr Reg.devBootPhase 3
  else ({ s with boot := { s.boot with store := [] } }.wr Reg.devBootFailReason1 reason).haltEnter

/-- The first failure of the checks that READ runs, in the order of R48; 0 where all pass. -/
def State.readFail (s : State) (p : FlashProbe) (b : List Byte) : Nat :=
  if p.signature ≠ 0x50444653 then 1
  else if !headerOk b then 2
  else if u16 b 4 ≠ 0x0100 then 3
  else if !lengthOk p.density b then 4
  else if !s.slotOk (imgSlot b) then 5
  else if imgSeqOf b < s.floorValue then 6
  else if 4 ≤ s.lcState ∨ bit (u8 b 16) s.lcState = false then 7
  else if (imgRecs b).isNone then 8
  else 0

/-- What start-up sends to the flash on chip select `cs` (R35, R36): release from power-down, the read of the SFDP header, and, where
the flash is there, the read of its parameter table and the image from address 0: by the 1-1-4 read with its wait states, after
the volatile status write that it needs, or by 0x0B. -/
def State.spiRead (s : State) (cs : Nat) (p : FlashProbe) : State :=
  let s := (s.send (.spi cs 0xAB none 0 [])).send (.spi cs 0x5A (some 0) 8 [])
  s.when (p.signature == 0x50444653) fun s =>
    let s := s.send (.spi cs 0x5A (some p.tableAt) 8 [])
    match p.quad with
    | some (r, w) => (s.each w fun s c => s.send (.spi cs c.1.val none 0 c.2)).send (.spi cs r.1.val (some 0) r.2.val [])
    | none => s.send (.spi cs 0x0B (some 0) 8 [])

/-- The flash on the selected chip select has been probed and its image read to LENGTH (R36, R48). -/
def execImageReadDone (probe : FlashProbe) (bytes : List Byte) (s : State) : Res :=
  if !s.inPhase 3 then .next s
  else
    let t := s.spiRead s.boot.cs probe
    match s.readFail probe bytes with
    | 0 => .next ({ t with boot := { t.boot with store := slice bytes 0 (imgLen bytes) } }.wr Reg.devBootPhase 4)
    | r => .next (t.copyFails r)

/-- Key hash and signature (R46): 5 for a key hash mismatch, 9 for a signature that does not verify, 0 where both pass. -/
def State.sigFail (s : State) (b : List Byte) : Nat :=
  let o := imgLen b - 128
  let want := if imgSlot b = 0xFF then Config.factoryKeyHash else s.keyHash (imgSlot b)
  let x := slice b o 64
  let part (k : Nat) : Nat := unbe (slice b (o + 32 * k) 32)
  if sha256 x ≠ want then 5
  else if !ecdsaVerify (sha256 (slice b 0 (o - 8))) (part 0) (part 1) (part 2) (part 3) then 9
  else 0

/-- A copy is accepted. Where it asks for K14 and the 100 ms of R34 are over already, K14 is reported late. An XO_CFG other than DETECTED ends start-up (R49, R50, Table CK-3). -/
def State.accept (s : State) (l : List Rec) : State :=
  let cs := s.boot.cs
  let s := { s with boot := { s.boot with accepted := true, pcieRef := pcieRefOf l, xoQual := bit (u8 (recOf l 0x10) 4) 0 } }
  let s := (s.wr Reg.devBootSource (cs + 1)).wr Reg.devBootPhase 5
  let s := s.when (s.boot.pcieRef && s.boot.k14Due) fun s => s.report 0x51 0
  if hasRec l 0x10 && u8 (recOf l 0x10) 3 != s.rd Reg.clkXoStatusDetected then
    let s := (s.wr Reg.clkXoStatusMismatch 1).setXo 3
    { s.wr (if cs = 0 then Reg.devBootFailReason0 else Reg.devBootFailReason1) 12 with boot := { s.boot with store := [] } }.haltEnter
  else s

/-- The records of a signed image: accepted, or the copy fails with the first reason (R46, R47). -/
def State.contentVerdict (s : State) (l : List Rec) : State :=
  match contentFail (s.rd Reg.devIdStepping) s.imageKeyOk l with
  | some (reason, ty) => (s.when (reason == 10) fun s => s.wr Reg.devBootFailType ty).copyFails reason
  | none => s.accept l

/-- Verification of a copy completes and its records are checked (R46, R48). -/
def execSignatureVerifyDone (s : State) : Res :=
  if !s.inPhase 4 then .next s
  else if s.sigFail s.boot.store = 0 then .next (s.contentVerdict ((imgRecs s.boot.store).getD []))
  else .next (s.copyFails (s.sigFail s.boot.store))

/-! ## APPLY -/

/-- IDENTITY and CLOCK_PLAN are applied (R43, R28, R32). -/
def applyPlan (l : List Rec) (s : State) : State :=
  let i := recOf l 0x01
  let c := recOf l 0x10
  s.wrs [(Reg.devNodeIdLoLo, u32 i 4), (Reg.devNodeIdHiHi, u32 i 8), (Reg.devImgBuildBuild, u32 i 12),
    (Reg.clkPlanProfile, u8 c 0), (Reg.clkPlanDepth, u8 c 1), (Reg.clkPlanModrate, u8 c 2),
    (Reg.clkPlanXoCfg, if hasRec l 0x10 then u8 c 3 else s.rd Reg.clkXoStatusDetected)]

/-- One typed record is applied (R42). -/
def applyRecord (s : State) (r : Rec) : State :=
  let v := r.2.2
  match r.1 with
  | 0x11 => applyBandTable v s
  | 0x20 => applyRefsel v s
  | 0x30 => applyOutputs v s
  | 0x40 => applyLanes v s
  | 0x50 => applyPorts v s
  | 0x60 => applyTimebases v s
  | 0x61 => applyServo v s
  | 0x70 => applyTransfer v s
  | 0x80 => applyPulses v s
  | 0x90 => applyCalibration v s
  | 0xA0 => applyTables v s
  | 0xB0 => applyFabric v s
  | 0xC0 => applyProtection v s
  | 0xD0 => applyFaultPolicy v s
  | 0xE0 => applyPmon v s
  | 0xF0 => applySecurity v s
  | 0x100 => applyPower v s
  | 0x110 => applyHost v s
  | _ => s

/-- One REGWRITE entry: new = (old AND NOT MASK) OR (VALUE AND MASK) (R44). A field of access RW takes its new value as a write of
its register gives it. -/
def State.regwrite (s : State) (a m x : Nat) : State :=
  match fieldsAt a with
  | none => s
  | some l =>
    let s := s.when (decide (0x301000 ≤ a) && decide (a < 0x301400)) State.ownBands
    let new (f : Fld) : Nat :=
      let old := s.rd f
      let m := m / 2 ^ f.lo % 2 ^ f.width
      Nat.lor (Nat.land old (2 ^ f.width - 1 - m)) (Nat.land (x / 2 ^ f.lo) m)
    let touched (f : Fld) : Bool := m / 2 ^ f.lo % 2 ^ f.width != 0
    let word := l.foldl (fun w f => if f.acc = .rw then w + new f * 2 ^ f.lo else w) 0
    let s := s.each (l.filter fun f => f.acc == .img && touched f) fun s f => s.wr f (new f)
    if l.any fun f => f.acc == .rw && touched f then s.writeReg 1 a word l else s

/-- The entries of one REGWRITE record, in order. -/
def applyRegwrite (v : List Byte) (s : State) : State :=
  s.each (List.range (v.length / 12)) fun s k => s.regwrite (u32 v (12 * k)) (u32 v (12 * k + 4)) (u32 v (12 * k + 8))

/-- All records of an accepted image take effect: typed records, the defaults of TABLES_STATIC and HOST where absent, then
REGWRITE (R42, R44). -/
def State.applyImage (s : State) (l : List Rec) : State :=
  let s := applyPlan l s
  let s := s.each l applyRecord
  let s := if hasRec l 0xA0 then s else applyTablesDefault s
  let s := if hasRec l 0x110 then s else applyHostDefault s.boot.pcieRef s
  s.each (l.filter fun r => r.1 == 0xFFF) fun s r => applyRegwrite r.2.2 s

/-- What the applied settings start: the reservations, candidates, engines, and the timekeeper beside the active root
(R287, R62, R160, R154), the software request, which is INIT_REQ until the host makes one (R375), and the output rank of the image
(R68). -/
def State.applyStart (s : State) : State :=
  let s := (s.rootBwApply.reserve).refselStart.ttStart.wr Reg.pwrStatusSwReq (s.rd Reg.pwrCfgInitReq)
  let k := s.activeRoot
  let s := (s.wr Reg.tkStatusActive k).tkEnable k
  let s := s.when (s.pdOn (2 - k)) fun s => s.tkEnable (1 - k)
  let s := (s.unitStart (2 + k)).setUnit (2 + k) unitActive
  s.wr Reg.refselOutQlRank s.outRank

/-- APPLY completes: BOOT is journalled, the image store is wiped, PD9 and the standby root ramp, and SHAFT begins (R52). A standby root
that tracks already, because ROOT_START brought both up, starts its timekeeper here (R176). The
band table stands in the roots from its record on, before the REGWRITE entries (R44, R87). -/
def execApplyDone (s : State) : Res :=
  if !s.inPhase 5 then .next s
  else
    let b := s.boot.store
    let l := (imgRecs b).getD []
    let s := { s with boot := { s.boot with imgFlags := imgFlagsOf b, imgSeq := imgSeqOf b } }.wr Reg.devImgSeqSeq (imgSeqOf b)
    let s := (s.applyImage l).applyStart
    let s := s.bootRecord (imgSeqOf b)
    let s := (s.bootRamps ((if s.boot.pcieRef then [(9, true)] else []) ++ [(2 - s.activeRoot, true)])).wr Reg.devBootPhase 6
    .next ({ s with boot := { s.boot with applied := true, store := [] } }.when (s.on Reg.synTrackTrackOk) State.standbyTkStart)

/-! ## SHAFT, LANES, CALIBRATE -/

/-- LANES begins: PD10 ramps, then PD5 to PD8. -/
def State.lanesPhase (s : State) : State :=
  (s.bootRamps [(10, true), (5, true), (6, true), (7, true), (8, true)]).wr Reg.devBootPhase 7

/-- The standby root's TRACK_OK reads 1. -/
def execShaftTrackDone (s : State) : Res :=
  if s.inPhase 6 && s.on Reg.synTrackTrackOk then .next s.lanesPhase else .next s

/-- SHAFT has lasted 100 ms. -/
def execShaftTimeout (s : State) : Res := if s.inPhase 6 then .next s.lanesPhase else .next s

/-- Quad `q` is configured. -/
def State.quadUsed (s : State) (q : Nat) : Bool := s.on (Reg.laneCfgQrate (4 * q))

/-- The next configured quad of a powered quadrant is enabled (R381). -/
def execQuadEnableTick (s : State) : Res :=
  match (List.range 32).find? fun q => s.quadUsed q && s.pdOn (5 + q / 8) && !bit s.boot.quadsOn q with
  | some q => .next { s with boot := { s.boot with quadsOn := setBit s.boot.quadsOn q true } }
  | none => .next s

/-- A quad's lane PLL has not locked 10 ms after it was enabled: it is reported, and start-up goes on without it. -/
def execQuadLockTimeout (quad : Fin 32) (s : State) : Res :=
  let q := quad.val
  if bit s.boot.quadsOn q && !bit s.boot.quadsDone q then
    .next ({ s with boot := { s.boot with quadsDone := setBit s.boot.quadsDone q true } }.report (0x60 + q) q)
  else .next s

/-- Every configured quad has locked or timed out. -/
def State.quadsSettled (s : State) : Bool := (List.range 32).all fun q => !s.quadUsed q || bit s.boot.quadsDone q

/-- CALIBRATE begins; a commit that waits happens at once (Table CA-4). CAL_REF is present where its clock showed an edge in every 1 µs of the last 10 ms (`calActive`) and its offset
in ppb lies within 1 ppm and the ruler's tolerance (R236). -/
def execLanesDone (calActive : Bool) (offPpb : Int) (s : State) : Res :=
  if !s.inPhase 7 || !s.quadsSettled then .next s
  else
    let s := (s.wr Reg.devBootPhase 8).calTbSync
    let s := { s with dress := { s.dress with clkLost := !calActive } }
    if calActive && decide (offPpb.natAbs ≤ 1000 + s.rulerTol) then .next (s.calTrigger 1 0) else .next s.calNominal.calSettle

/-- 100 ms after RESET_N release, with PCIE_REF = 1, K14 must run (R34). Where no image is accepted yet, the report waits for
one. -/
def execK14LateCheck (s : State) : Res :=
  let s := { s with boot := { s.boot with k14Due := true } }
  if s.boot.accepted && s.boot.pcieRef && !(s.pins.pcieClk && s.pdOn 9) then .next (s.report 0x51 0) else .next s

end Sys2Proof.Machine
end

