-- ==== Sys2Proof/Machine/Egress.lean ====
section
/-! DEFINITION. The egresses: the choice of a copy, where its first bit falls on the line, and its end (R206, R294 to R301). -/
namespace Sys2Proof.Machine

/-- The egress stamp of a copy of frame `id` that starts now at `e` (R146, R206). Its first bit is located on a lane by the line bits up to
the next marker (`raw`) and those from it on that the lane counts, stuff bits included; on a port by `raw` as it is. -/
def State.copyTx (s : State) (e id raw : Nat) : Nat :=
  s.txTimeOf e (s.destTb e) (if s.isPort e then raw else raw + s.daOffset e ((s.leatSoFar (s.frame id) e).take 5))

/-- The egress stamp of fixed-latency frame `f` at `e`: FLF_LAT K2 cycles behind its ingress time-stamp point (R300), on the egress base. -/
def State.flfTx (s : State) (e : Nat) (f : Frame) : Nat :=
  let tb := s.destTb e
  ((((s.atb tb).t : Int) + roundDiv (s.flfAhead f) 330) % s.tbRange tb).toNat

/-- The first copy queued in class `c` of egress `e` starts to leave. -/
def State.startHead (s : State) (e c raw fill : Nat) : State :=
  match s.queue e c with
  | [] => s
  | id :: l => (s.setQueue e c l).startCopy e id (s.copyTx e id raw) fill

/-- A free egress chooses and starts a frame (R294). `raw`: on a port the time until its first bit leaves, on a lane the line bits until
its next marker; `fill`: the cycles to its first word at the MAC. Frames of the port's own that wait go first (R142). -/
def execEgressFrameStart (egress : Fin 128) (raw fill : Nat) (s : State) : Res :=
  let e := egress.val
  if !s.egressFree e then .next s
  else
    let x := ((s.ownSend e).purgeHeads e).pickClass e
    match x.1 with
    | none => .next x.2
    | some c => .next (x.2.startHead e c raw fill)

/-- The fixed-latency frame at `e` that is due first. -/
def State.flfNext (s : State) (e : Nat) : Option Nat :=
  (Tab.get s.fab.flf e []).foldl (fun b id => match b with
    | none => some id
    | some j => if s.flfDue (s.frame id) < s.flfDue (s.frame j) then some id else some j) none

/-- The egress reaches the fixed-latency frame that is due first (R300, R301): in the frame's cycle it leaves, or misses and is
queued as its class is (R351: it reaches the resequencer then); before that cycle, and once a SCAN has stopped clocks (R372), nothing happens. A PFC frame that waits is no reason to
miss. A frame of a class that the secondary of a reverted pair still drains does
not start either (R318). Its time-stamp point is where R300 puts it, so the place of its first bit that the row gives says nothing more. -/
def execFlfDeparture (egress : Fin 128) (_raw fill : Nat) (s : State) : Res :=
  let e := egress.val
  match s.flfNext e with
  | none => .next s
  | some id =>
    let f := s.frame id
    if s.frozen = true ∨ s.fab.cyc + 2 ≤ s.flfDue f then .next s
    else
    let s := { s with fab := { s.fab with flf := Tab.set s.fab.flf e ((Tab.get s.fab.flf e []).erase id) [] } }
    let ready := s.egressOpen e && !bit (s.rd (Reg.fabDestStatusPaused e)) f.tc && (f.ended || s.ctOk f e)
      && decide (s.fab.cyc ≤ s.flfDue f) && !s.revertHolds e f.tc
    match s.refuseCopy e id with
    | some t => .next (t.ownSend e)
    | none =>
      if ready then .next (((s.bump Reg.fabCntFlfFrames).ev 0x0B).startCopy e id (s.flfTx e f) fill)
      else .next ((((((s.bump Reg.fabCntFlfMiss).ev 0x0C).setFrame id
        { f with flf := false, stages := f.stages ++ [s.fab.cyc % 2 ^ 32] }).reseqArrive e id).reseq.windowFull e).ownSend e)

/-! ## A copy's end (R298) -/

/-- The copy leaving port `e` started before its LEN was known, and reaches MAXLEN - 4 bytes without ending (R137): `body` bytes without
FCS are there. -/
def State.copyTooLong (s : State) (e : Nat) (f : Frame) (body : Nat) : Bool :=
  let lim := s.rd (Reg.portMaxlenLen e) - 4
  s.isPort e && s.fab.blind.contains e && (if f.ended then decide (lim < body) else decide (lim ≤ body))

/-- A copy finishes leaving egress `e` (R282, R298, R347): whole, or stomped because its frame is bad or lost, reaches MAXLEN, or runs out of
bytes, each copy by itself. A stored copy ends on a lane only once the reserve holds what is left of it (R115). A port then sends what waits of its own. Nothing leaves once a SCAN has stopped clocks (R372). -/
def execEgressFrameEnd (egress : Fin 128) (s : State) : Res :=
  let e := egress.val
  let id := Tab.get s.fab.sending e 0
  let lane := Tab.get s.lan e {}
  if id = 0 ∨ s.frozen = true ∨ (lane.early = true ∧ 512 < lane.backlog) then .next s
  else
    let f := s.frame id
    let port := s.isPort e
    let max := s.rd (Reg.portMaxlenLen e)
    let tooLong := s.copyTooLong e f (s.wireBody f e).length
    let broken := f.bad || f.lost
    let under := !f.ended && !broken && !tooLong
    let stomp := broken || under || tooLong
    let tb := s.destTb e
    let tx := Tab.get s.fab.txTime e 0
    let txn := Tab.get s.fab.txIn e 0
    let valid := Tab.get s.fab.txValid e false
    let (b, sat) := s.wireBytes f e tx txn (stomp && port) (if tooLong then max - 4 else 16384)
    let out := if port then b else s.leatCopy f e tx txn stomp
    let n := if port then b.length else s.wireLen f e
    let s := (s.send (.frame e out)).when (stomp && port) fun s => s.send (.errEnd e)
    let s := if port then s
      else
        let t := if lane.early then s else s.streamTo e out
        { t with lan := Tab.set t.lan e { Tab.get t.lan e {} with early := false, fed := 0 } {} }
    let k := streamOf e f.tc
    let more : Int := (knownLen f : Int) - Tab.get s.fab.charged e 0
    let d := Tab.get s.fab.deficit k 0 - (if s.rd (Reg.fabTcCfgSched f.tc) = 0 then more else 0)
    let bal := Tab.get s.fab.balance k 0 - (if bit (s.rd (Reg.fabDestCfgShapeEn e)) f.tc then more * 20625 else 0)
    let fb := { s.fab with sending := Tab.set s.fab.sending e 0 0, txTime := Tab.set s.fab.txTime e 0 0,
                           txIn := Tab.set s.fab.txIn e 0 0, txValid := Tab.set s.fab.txValid e false false }
    let fb := { fb with deficit := Tab.set fb.deficit k d 0, balance := Tab.set fb.balance k bal 0 }
    let s := { s with fab := { fb with charged := Tab.set fb.charged e 0 0 } }
    let s := (s.fixedTx e f.tc n).bwAdd e true tb tx n
    let s := s.when port fun s => (s.bump48 (Reg.portTxFramesLoCount e) 1).bump48 (Reg.portTxBytesLoCount e) n
    let s := s.when stomp fun s => ((s.bump Reg.fabCntStomps).ev 0x04).when port fun s => s.bump48 (Reg.portStompsLoCount e) 1
    let s := s.when tooLong fun s => s.bump48 (Reg.portTxOversizeLoCount e) 1
    let s := s.when under fun s => ((s.bump Reg.fabCntUnderrun).ev 0x0D).report 0x5E e
    let s := s.when sat fun s =>
      ((s.bump48 (Reg.portTcSatLoCount e) 1).wr (Reg.portErrTcSat e) 1).report (0x80 + e) (s.rd (Reg.portErrLockLoss e)
        + 2 * s.rd (Reg.portErrLockTimeout e) + 4 * s.rd (Reg.portErrHiBer e) + 8)
    let s := s.when f.tsReq fun s => s.txqPush e { id := f.tsId, tb := tb, t := tx, valid := valid, bad := stomp }
    let s := s.when (f.tagged && f.egress == e) fun s => s.setFrame id { s.frame id with gflags := setBit (s.frame id).gflags 1 stomp }
    .next ((s.dropCopy id e).when port fun s => s.ownSend e)

end Sys2Proof.Machine
end

