-- ==== Sys2Proof/Machine/Dispatch.lean ====
section
/-! DEFINITION. One arm per command: a direct call of its meaning. -/
namespace Sys2Proof.Machine

/-- The effect of command `i` on everything but the queue. -/
def exec (i : Instr) (s : State) : Host.Outcome State Fault Refusal :=
  match i with
  | .resetNAssert widthNs => Sys2Proof.Machine.execResetNAssert widthNs s
  | .vddAonDetect supplies => Sys2Proof.Machine.execVddAonDetect supplies s
  | .resetNRelease => Sys2Proof.Machine.execResetNRelease s
  | .xoWindowEnd count => Sys2Proof.Machine.execXoWindowEnd count s
  | .startupRootLocked root => Sys2Proof.Machine.execStartupRootLocked root s
  | .rootALockTimeout => Sys2Proof.Machine.execRootALockTimeout s
  | .rootBLockTimeout => Sys2Proof.Machine.execRootBLockTimeout s
  | .wipeDone => Sys2Proof.Machine.execWipeDone s
  | .imageReadDone probe bytes => Sys2Proof.Machine.execImageReadDone probe bytes s
  | .signatureVerifyDone => Sys2Proof.Machine.execSignatureVerifyDone s
  | .applyDone => Sys2Proof.Machine.execApplyDone s
  | .shaftTrackDone => Sys2Proof.Machine.execShaftTrackDone s
  | .shaftTimeout => Sys2Proof.Machine.execShaftTimeout s
  | .quadEnableTick => Sys2Proof.Machine.execQuadEnableTick s
  | .quadLockTimeout quad => Sys2Proof.Machine.execQuadLockTimeout quad s
  | .lanesDone calActive offPpb => Sys2Proof.Machine.execLanesDone calActive offPpb s
  | .floorRaiseDone readBack => Sys2Proof.Machine.execFloorRaiseDone readBack s
  | .k14LateCheck => Sys2Proof.Machine.execK14LateCheck s
  | .journalWriteDone verified => Sys2Proof.Machine.execJournalWriteDone verified s
  | .jrnlIdxWrite value => Sys2Proof.Machine.execJrnlIdxWrite value s
  | .nvmCmdGo value => Sys2Proof.Machine.execNvmCmdGo value s
  | .nvmCmdDone data => Sys2Proof.Machine.execNvmCmdDone data s
  | .resetKeyWrite value => Sys2Proof.Machine.execResetKeyWrite value s
  | .resetArmExpire => Sys2Proof.Machine.execResetArmExpire s
  | .resetCmdFull => Sys2Proof.Machine.execResetCmdFull s
  | .resetCmdHostView => Sys2Proof.Machine.execResetCmdHostView s
  | .resetCmdRefused action => Sys2Proof.Machine.execResetCmdRefused action s
  | .pcieFlr => Sys2Proof.Machine.execPcieFlr s
  | .pcieHotReset perst => Sys2Proof.Machine.execPcieHotReset perst s
  | .hvResetDone => Sys2Proof.Machine.execHvResetDone s
  | .perstNRelease => Sys2Proof.Machine.execPerstNRelease s
  | .fmeterStart value => Sys2Proof.Machine.execFmeterStart value s
  | .fmeterWindowEnd count => Sys2Proof.Machine.execFmeterWindowEnd count s
  | .refmonSecond f1s active dcoMean step => Sys2Proof.Machine.execRefmonSecond f1s active dcoMean step s
  | .refinLosTimeout cand => Sys2Proof.Machine.execRefinLosTimeout cand s
  | .refinPpsEdge pair cyclesOk taps => Sys2Proof.Machine.execRefinPpsEdge pair cyclesOk taps s
  | .ppsEdgeTimeout pair => Sys2Proof.Machine.execPpsEdgeTimeout pair s
  | .esmcAgeTimeout port => Sys2Proof.Machine.execEsmcAgeTimeout port s
  | .acqFailTimeout => Sys2Proof.Machine.execAcqFailTimeout s
  | .selAcquireLock => Sys2Proof.Machine.execSelAcquireLock s
  | .selDecideExpire step => Sys2Proof.Machine.execSelDecideExpire step s
  | .selSettleEnd inWin => Sys2Proof.Machine.execSelSettleEnd inWin s
  | .selHoldoverLimit => Sys2Proof.Machine.execSelHoldoverLimit s
  | .esmcInfoTick => Sys2Proof.Machine.execEsmcInfoTick s
  | .esmcEventPdu => Sys2Proof.Machine.execEsmcEventPdu s
  | .rootDcoUpdate root target locked => Sys2Proof.Machine.execRootDcoUpdate root target locked s
  | .rootRelockDone root => Sys2Proof.Machine.execRootRelockDone root s
  | .rootBandWindow root offPpb => Sys2Proof.Machine.execRootBandWindow root offPpb s
  | .standbyTrackMeasure diff => Sys2Proof.Machine.execStandbyTrackMeasure diff s
  | .tlCompare os err frac => Sys2Proof.Machine.execTlCompare os err frac s
  | .tlAlignInstant os => Sys2Proof.Machine.execTlAlignInstant os s
  | .tlOutputStart os => Sys2Proof.Machine.execTlOutputStart os s
  | .synthLockLoss os => Sys2Proof.Machine.execSynthLockLoss os s
  | .ckoOeHostWrite n value => Sys2Proof.Machine.execCkoOeHostWrite n value s
  | .syncInEdge rising => Sys2Proof.Machine.execSyncInEdge rising s
  | .syncRestart => Sys2Proof.Machine.execSyncRestart s
  | .superblockTransmit lane cycle bitPos resEmpty => Sys2Proof.Machine.execSuperblockTransmit lane cycle bitPos resEmpty s
  | .superblockReceived lane bits cycle bitPos edges => Sys2Proof.Machine.execSuperblockReceived lane bits cycle bitPos edges s
  | .timingFrameReceived lane frame => Sys2Proof.Machine.execTimingFrameReceived lane frame s
  | .leatFrameReceived lane tc flen bytes good raw head => Sys2Proof.Machine.execLeatFrameReceived lane tc flen bytes good raw head s
  | .laneDownWait lane => Sys2Proof.Machine.execLaneDownWait lane s
  | .detectBurstTimer lane => Sys2Proof.Machine.execDetectBurstTimer lane s
  | .laneEnergyDetect lane => Sys2Proof.Machine.execLaneEnergyDetect lane s
  | .laneCdrLocked lane => Sys2Proof.Machine.execLaneCdrLocked lane s
  | .laneTrainTimeout lane => Sys2Proof.Machine.execLaneTrainTimeout lane s
  | .alignPositionWatch lane matched next3 msn => Sys2Proof.Machine.execAlignPositionWatch lane matched next3 msn s
  | .laneVerifyTimeout lane => Sys2Proof.Machine.execLaneVerifyTimeout lane s
  | .laneBackoffExpire lane => Sys2Proof.Machine.execLaneBackoffExpire lane s
  | .laneUpStable lane => Sys2Proof.Machine.execLaneUpStable lane s
  | .laneLosSignal lane => Sys2Proof.Machine.execLaneLosSignal lane s
  | .laneLosTimeout lane => Sys2Proof.Machine.execLaneLosTimeout lane s
  | .quadPllUnlock quad => Sys2Proof.Machine.execQuadPllUnlock quad s
  | .quadPllLock quad => Sys2Proof.Machine.execQuadPllLock quad s
  | .laneManNop lane => Sys2Proof.Machine.execLaneManNop lane s
  | .laneHold lane gen => Sys2Proof.Machine.execLaneHold lane gen s
  | .laneRelease lane gen => Sys2Proof.Machine.execLaneRelease lane gen s
  | .laneManualTrain lane gen => Sys2Proof.Machine.execLaneManualTrain lane gen s
  | .laneSlip lane gen => Sys2Proof.Machine.execLaneSlip lane gen s
  | .laneAccept lane gen => Sys2Proof.Machine.execLaneAccept lane gen s
  | .laneManReserved lane gen => Sys2Proof.Machine.execLaneManReserved lane gen s
  | .quietEntry lane => Sys2Proof.Machine.execQuietEntry lane s
  | .quietExitRequest lane => Sys2Proof.Machine.execQuietExitRequest lane s
  | .quietBurstStart lane => Sys2Proof.Machine.execQuietBurstStart lane s
  | .quietWakeTimer lane => Sys2Proof.Machine.execQuietWakeTimer lane s
  | .laneHealthWindow lane => Sys2Proof.Machine.execLaneHealthWindow lane s
  | .prbsClear lane => Sys2Proof.Machine.execPrbsClear lane s
  | .ethFrameReceived port bytes err raw head fecCorr fecBad => Sys2Proof.Machine.execEthFrameReceived port bytes err raw head fecCorr fecBad s
  | .pfcFrameReceived port bytes => Sys2Proof.Machine.execPfcFrameReceived port bytes s
  | .pfcPauseExpire port tc => Sys2Proof.Machine.execPfcPauseExpire port tc s
  | .pfcFrameSend port => Sys2Proof.Machine.execPfcFrameSend port s
  | .pfcRepeatTimer port => Sys2Proof.Machine.execPfcRepeatTimer port s
  | .esmcPduReceived port bytes => Sys2Proof.Machine.execEsmcPduReceived port bytes s
  | .portLockAchieved port => Sys2Proof.Machine.execPortLockAchieved port s
  | .portLockTimeout port => Sys2Proof.Machine.execPortLockTimeout port s
  | .portRemoteFaultRx port => Sys2Proof.Machine.execPortRemoteFaultRx port s
  | .portRemoteFaultClear port => Sys2Proof.Machine.execPortRemoteFaultClear port s
  | .portLockLoss port hiBer => Sys2Proof.Machine.execPortLockLoss port hiBer s
  | .tbSampleDeferred n => Sys2Proof.Machine.execTbSampleDeferred n s
  | .tbSampleTimeout n => Sys2Proof.Machine.execTbSampleTimeout n s
  | .tbSlewComplete n => Sys2Proof.Machine.execTbSlewComplete n s
  | .tbFeedNop n => Sys2Proof.Machine.execTbFeedNop n s
  | .tbFeedOffset n gen => Sys2Proof.Machine.execTbFeedOffset n gen s
  | .tbFeedSet n gen => Sys2Proof.Machine.execTbFeedSet n gen s
  | .tbFeedReserved n gen => Sys2Proof.Machine.execTbFeedReserved n gen s
  | .tbRampTick k => Sys2Proof.Machine.execTbRampTick k s
  | .xcSlot wire => Sys2Proof.Machine.execXcSlot wire s
  | .standbyTkLoadDone => Sys2Proof.Machine.execStandbyTkLoadDone s
  | .tbNowRead n path => Sys2Proof.Machine.execTbNowRead n path s
  | .tbOffRead n path => Sys2Proof.Machine.execTbOffRead n path s
  | .counterLoRead read path => Sys2Proof.Machine.execCounterLoRead read path s
  | .ttBeatPeriod lane beats => Sys2Proof.Machine.execTtBeatPeriod lane beats s
  | .ttLockWindowDone lane => Sys2Proof.Machine.execTtLockWindowDone lane s
  | .ttExchangeInterval lane => Sys2Proof.Machine.execTtExchangeInterval lane s
  | .ttPairFormed lane => Sys2Proof.Machine.execTtPairFormed lane s
  | .ttPairTimeout lane => Sys2Proof.Machine.execTtPairTimeout lane s
  | .ttHealthTimeout lane => Sys2Proof.Machine.execTtHealthTimeout lane s
  | .pgCmdNop pg => Sys2Proof.Machine.execPgCmdNop pg s
  | .pgArm pg gen => Sys2Proof.Machine.execPgArm pg gen s
  | .pgDisarm pg gen => Sys2Proof.Machine.execPgDisarm pg gen s
  | .pgCmdReserved pg gen => Sys2Proof.Machine.execPgCmdReserved pg gen s
  | .pgEdge pg rising => Sys2Proof.Machine.execPgEdge pg rising s
  | .evtInEdge input rising pop coarse fine => Sys2Proof.Machine.execEvtInEdge input rising pop coarse fine s
  | .queueEntryRead capture n path => Sys2Proof.Machine.execQueueEntryRead capture n path s
  | .txqPop n => Sys2Proof.Machine.execTxqPop n s
  | .capPop n => Sys2Proof.Machine.execCapPop n s
  | .tempSensorRead readings => Sys2Proof.Machine.execTempSensorRead readings s
  | .calPeriodTimer => Sys2Proof.Machine.execCalPeriodTimer s
  | .calRetryDue => Sys2Proof.Machine.execCalRetryDue s
  | .calPrecheckDone => Sys2Proof.Machine.execCalPrecheckDone s
  | .calScaleDone values => Sys2Proof.Machine.execCalScaleDone values s
  | .calLoopDone values => Sys2Proof.Machine.execCalLoopDone values s
  | .calPointsDone values => Sys2Proof.Machine.execCalPointsDone values s
  | .calOutputsDone values => Sys2Proof.Machine.execCalOutputsDone values s
  | .calComputeDone => Sys2Proof.Machine.execCalComputeDone s
  | .calCommit => Sys2Proof.Machine.execCalCommit s
  | .calTapWalkStep => Sys2Proof.Machine.execCalTapWalkStep s
  | .calRefClkLoss => Sys2Proof.Machine.execCalRefClkLoss s
  | .calClkFreqWindow offPpb => Sys2Proof.Machine.execCalClkFreqWindow offPpb s
  | .calRefPpsEdge devPs offset => Sys2Proof.Machine.execCalRefPpsEdge devPs offset s
  | .calPpsMissing => Sys2Proof.Machine.execCalPpsMissing s
  | .calCmdNop => Sys2Proof.Machine.execCalCmdNop s
  | .calRun gen => Sys2Proof.Machine.execCalRun gen s
  | .calRestore gen => Sys2Proof.Machine.execCalRestore gen s
  | .calCmdReserved gen => Sys2Proof.Machine.execCalCmdReserved gen s
  | .lookupFirstPass pipe collide recirc parity => Sys2Proof.Machine.execLookupFirstPass pipe collide recirc parity s
  | .lookupLaterPass pipe recirc parity => Sys2Proof.Machine.execLookupLaterPass pipe recirc parity s
  | .ageClockTick => Sys2Proof.Machine.execAgeClockTick s
  | .agerVisit parity => Sys2Proof.Machine.execAgerVisit parity s
  | .shadowAuditStep ecc parity => Sys2Proof.Machine.execShadowAuditStep ecc parity s
  | .camEntryExpire => Sys2Proof.Machine.execCamEntryExpire s
  | .tcqNop => Sys2Proof.Machine.execTcqNop s
  | .tcqInsert => Sys2Proof.Machine.execTcqInsert s
  | .tcqModify => Sys2Proof.Machine.execTcqModify s
  | .tcqDelete => Sys2Proof.Machine.execTcqDelete s
  | .tcqFence => Sys2Proof.Machine.execTcqFence s
  | .tcqReserved => Sys2Proof.Machine.execTcqReserved s
  | .fenceComplete => Sys2Proof.Machine.execFenceComplete s
  | .lnqCtlWrite run => Sys2Proof.Machine.execLnqCtlWrite run s
  | .reseqTimeoutRelease egress => Sys2Proof.Machine.execReseqTimeoutRelease egress s
  | .egressFrameStart egress raw fill => Sys2Proof.Machine.execEgressFrameStart egress raw fill s
  | .egressFrameEnd egress => Sys2Proof.Machine.execEgressFrameEnd egress s
  | .flfDeparture egress raw fill => Sys2Proof.Machine.execFlfDeparture egress raw fill s
  | .unitFailOver unit activeOut standbyOut => Sys2Proof.Machine.execUnitFailOver unit activeOut standbyOut s
  | .heartbeatLost beat => Sys2Proof.Machine.execHeartbeatLost beat s
  | .healthRailFault unit => Sys2Proof.Machine.execHealthRailFault unit s
  | .unitVerified unit => Sys2Proof.Machine.execUnitVerified unit s
  | .unitHoldoffExpire unit => Sys2Proof.Machine.execUnitHoldoffExpire unit s
  | .unitLatchExpire unit => Sys2Proof.Machine.execUnitLatchExpire unit s
  | .unitWtrExpire unit => Sys2Proof.Machine.execUnitWtrExpire unit s
  | .flapWindowExpire unit => Sys2Proof.Machine.execFlapWindowExpire unit s
  | .deferredOrderWithdraw pair => Sys2Proof.Machine.execDeferredOrderWithdraw pair s
  | .redCmdNop => Sys2Proof.Machine.execRedCmdNop s
  | .redRelease unit gen => Sys2Proof.Machine.execRedRelease unit gen s
  | .redCmdReserved => Sys2Proof.Machine.execRedCmdReserved s
  | .faultEvent events => Sys2Proof.Machine.execFaultEvent events s
  | .faultRailFault source code => Sys2Proof.Machine.execFaultRailFault source code s
  | .collectorReactEnd => Sys2Proof.Machine.execCollectorReactEnd s
  | .failoverInputRelease source => Sys2Proof.Machine.execFailoverInputRelease source s
  | .fltClear value => Sys2Proof.Machine.execFltClear value s
  | .fltSrcClr source value => Sys2Proof.Machine.execFltSrcClr source value s
  | .fltInject value => Sys2Proof.Machine.execFltInject value s
  | .fltInjectEnd => Sys2Proof.Machine.execFltInjectEnd s
  | .pmonCntCfgWrite counter value => Sys2Proof.Machine.execPmonCntCfgWrite counter value s
  | .pmonCntClear counter => Sys2Proof.Machine.execPmonCntClear counter s
  | .gleanCtlWrite value => Sys2Proof.Machine.execGleanCtlWrite value s
  | .gleanRecordWrite => Sys2Proof.Machine.execGleanRecordWrite s
  | .bwWindowClose => Sys2Proof.Machine.execBwWindowClose s
  | .bwCfgWrite value => Sys2Proof.Machine.execBwCfgWrite value s
  | .secCmdNone viaJtag => Sys2Proof.Machine.execSecCmdNone viaJtag s
  | .secGetNonce viaJtag random => Sys2Proof.Machine.execSecGetNonce viaJtag random s
  | .secSubmit viaJtag => Sys2Proof.Machine.execSecSubmit viaJtag s
  | .secSet viaJtag level => Sys2Proof.Machine.execSecSet viaJtag level s
  | .secDisarm viaJtag => Sys2Proof.Machine.execSecDisarm viaJtag s
  | .secRelease viaJtag => Sys2Proof.Machine.execSecRelease viaJtag s
  | .secCmdReserved viaJtag code => Sys2Proof.Machine.execSecCmdReserved viaJtag code s
  | .mailboxForeignWrite viaJtag addr value => Sys2Proof.Machine.execMailboxForeignWrite viaJtag addr value s
  | .reqLifecycle => Sys2Proof.Machine.execReqLifecycle s
  | .reqDebug => Sys2Proof.Machine.execReqDebug s
  | .reqKeyAdd readBack => Sys2Proof.Machine.execReqKeyAdd readBack s
  | .reqKeyRevoke readBack => Sys2Proof.Machine.execReqKeyRevoke readBack s
  | .lcFuseBlowDone readBack => Sys2Proof.Machine.execLcFuseBlowDone readBack s
  | .jtagBypass tdi => Sys2Proof.Machine.execJtagBypass tdi s
  | .jtagSecAccess write addr value => Sys2Proof.Machine.execJtagSecAccess write addr value s
  | .jtagRegRead addr => Sys2Proof.Machine.execJtagRegRead addr s
  | .jtagRegWrite addr value => Sys2Proof.Machine.execJtagRegWrite addr value s
  | .jtagMemAccess mem addr write => Sys2Proof.Machine.execJtagMemAccess mem addr write s
  | .jtagSamplePreload pins preload => Sys2Proof.Machine.execJtagSamplePreload pins preload s
  | .jtagExtest pins drive => Sys2Proof.Machine.execJtagExtest pins drive s
  | .jtagScan domains => Sys2Proof.Machine.execJtagScan domains s
  | .pwrReqPinStable req => Sys2Proof.Machine.execPwrReqPinStable req s
  | .pwrHostReqRun gen => Sys2Proof.Machine.execPwrHostReqRun gen s
  | .pwrHostReqTiming gen => Sys2Proof.Machine.execPwrHostReqTiming gen s
  | .pwrHostReqKeep gen => Sys2Proof.Machine.execPwrHostReqKeep gen s
  | .pwrHostReqDormant gen => Sys2Proof.Machine.execPwrHostReqDormant gen s
  | .pwrHostReqOff gen => Sys2Proof.Machine.execPwrHostReqOff gen s
  | .pwrHostReqReserved gen => Sys2Proof.Machine.execPwrHostReqReserved gen s
  | .domainWipeDone domain => Sys2Proof.Machine.execDomainWipeDone domain s
  | .powerFailAssert widthNs => Sys2Proof.Machine.execPowerFailAssert widthNs s
  | .registerWrite path space addr value be => Sys2Proof.Machine.execRegisterWrite path space addr value be s
  | .smiRead addr words => Sys2Proof.Machine.execSmiRead addr words s
  | .smiWrite addr data => Sys2Proof.Machine.execSmiWrite addr data s
  | .smiBadCommand code => Sys2Proof.Machine.execSmiBadCommand code s
  | .smiPartial addr => Sys2Proof.Machine.execSmiPartial addr s
  | .ringDoorbell ring value => Sys2Proof.Machine.execRingDoorbell ring value s
  | .ringCtlWrite ring path value => Sys2Proof.Machine.execRingCtlWrite ring path value s
  | .tcqFetch entry => Sys2Proof.Machine.execTcqFetch entry s
  | .txfFetch entry frame => Sys2Proof.Machine.execTxfFetch entry frame s
  | .hostRxDeliver rxb => Sys2Proof.Machine.execHostRxDeliver rxb s
  | .lnqFifoRead path => Sys2Proof.Machine.execLnqFifoRead path s
  | .lnqPop path => Sys2Proof.Machine.execLnqPop path s
  | .tcqPush path => Sys2Proof.Machine.execTcqPush path s
  | .tcrFifoRead path => Sys2Proof.Machine.execTcrFifoRead path s
  | .tcrPop path => Sys2Proof.Machine.execTcrPop path s
  | .intMaskWrite value => Sys2Proof.Machine.execIntMaskWrite value s
  | .synthesizerLocked os => Sys2Proof.Machine.execSynthesizerLocked os s
  | .prbsCheckerBlock lane seed bits => Sys2Proof.Machine.execPrbsCheckerBlock lane seed bits s
  | .faultSourceIdle source => Sys2Proof.Machine.execFaultSourceIdle source s
  | .unmonitoredClear unit => Sys2Proof.Machine.execUnmonitoredClear unit s
  | .pcieRefclkLoss present => Sys2Proof.Machine.execPcieRefclkLoss present s
  | .lcJournalClearDone => Sys2Proof.Machine.execLcJournalClearDone s
  | .mailboxClaimTimeout => Sys2Proof.Machine.execMailboxClaimTimeout s
  | .nonceExpire => Sys2Proof.Machine.execNonceExpire s
  | .debugLeaseExpire => Sys2Proof.Machine.execDebugLeaseExpire s
  | .jtagIdcode => Sys2Proof.Machine.execJtagIdcode s
  | .jtagTrst => Sys2Proof.Machine.execJtagTrst s
  | .pwrDrainTimeout => Sys2Proof.Machine.execPwrDrainTimeout s
  | .domainRampDone => Sys2Proof.Machine.execDomainRampDone s
  | .shedRampStart => Sys2Proof.Machine.execShedRampStart s
  | .shedRelease => Sys2Proof.Machine.execShedRelease s
  | .lnqDmaWrite => Sys2Proof.Machine.execLnqDmaWrite s
  | .accErrClear => Sys2Proof.Machine.execAccErrClear s

end Sys2Proof.Machine
end

