-- ==== Sys2Proof/Machine/Tick.lean ====
section
/-! DEFINITION. What happens at a tick whatever is commanded: one cycle of K6 and K7, and the two of K2 that fall in it
(R158, R344, R351). -/
namespace Sys2Proof.Machine

/-- The timekeepers count one cycle, each where its clock runs (R18, R158). -/
def State.tkCycle (s : State) : State :=
  s.each (List.range 16) fun s i =>
    if s.domRun (6 + i / 8) && s.tbOn (i / 8) (i % 8) then s.setTb (i / 8) (i % 8) ((s.tb (i / 8) (i % 8)).tick (s.tbRange (i % 8))) else s

/-- The level events of the time bases of the active timekeeper, over one cycle of it (Table PM-1). -/
def State.tbLevels (s : State) : State :=
  let k := s.activeTk
  if !s.domRun (6 + k) then s
  else (List.range 8).foldl (fun s b =>
    if !s.tbOn k b then s
    else
      let x := s.tb k b
      let id := 0x240 + 8 * b
      (s.evLevel (id + 2) (x.p != 0) 1).evLevel (id + 3) (x.state == tbHold) 1) s

/-- The egresses that are free with frames queued and no class eligible (R294), as levels of two cycles of K2 (R344, Table PM-1). -/
def State.egressLevels (s : State) : State :=
  let l := s.fab.queues.map (·.1 / 8) ++ s.pmon.high.map fun id => if 0x100 ≤ id ∧ id < 0x200 then (id - 0x100) / 2 else 128
  s.each ((List.range 128).filter l.contains) fun s e =>
    let queued := (List.range 8).any fun c => s.queue e c != []
    s.evLevel (0x101 + 2 * e) (queued && s.egressFree e && !(List.range 8).any fun c => s.classOpen e c && !s.shapeBlocks e c) 2

/-- FAB_CYC and the level events of K2, over two cycles of it (Table PM-1, R351). -/
def State.fabCycles (s : State) : State :=
  if !s.domRun 2 then s
  else
    let s := (s.evLevel 0x02 (decide (s.sharedFree < s.rd Reg.fabGuardCells)) 2).evLevel 0x0F (s.fab.xoff != []) 2
    let s := s.egressLevels
    { s with fab := { s.fab with cyc := s.fab.cyc + 2 } }

/-- The cycles since the last write of BW_CFG (R357). -/
def State.bwAges (s : State) : State := { s with pmon := { s.pmon with bwAge := min 1290 (s.pmon.bwAge + 1) } }

/-- The cycle by whose number the pairs of the Tentering engines are told in their order (R194). -/
def State.ttCycle (s : State) : State := { s with tt := { s.tt with now := s.tt.now + 1 } }

/-- One tick. Each clock stops where a SCAN has reached its domain (R372): the time bases of a timekeeper with PD1 or PD2, FAB_CYC and
the level events of K2 with PD4. A drain whose last frame has left ends (R377). -/
def State.tick (s : State) : State := s.bwAges.ttCycle.tbLevels.tkCycle.fabCycles.drained

end Sys2Proof.Machine
end

