-- ==== Sys2Proof/Safety.lean ====
section
/-! DEFINITION. What counts as a sound state of the device, in the terms claims use. -/
namespace Sys2Proof

open Machine

/-- The command runs to a next state, of which `p` holds. -/
def Runs (c : Instr) (s : State) (p : State → Prop) : Prop := ∃ t, exec c s = .next t ∧ p t

/-- Every register field reads in `t` as in `s`, but for the fields of `l`. -/
def RegsBut (l : List Fld) (s t : State) : Prop := ∀ f : Fld, (∀ g ∈ l, g.key ≠ f.key) → t.rd f = s.rd f

/-- Nothing differs between `s` and `t` but register fields of `l`. -/
def SameBut (l : List Fld) (s t : State) : Prop := t = { s with regs := t.regs } ∧ RegsBut l s t

/-- The register file and the 48-bit counters are in canonical form: each field or counter listed once, by rising key, and
no counter listed at zero or above 2^48 - 1 (R347). -/
def Canonical (s : State) : Prop :=
  Tab.rising s.regs = true ∧ Tab.wf 0 s.cnt48 = true ∧ ∀ e ∈ s.cnt48, e.2 < 2 ^ 48

/-- The journal holds records of 32 bytes in slots 0 to 8191, each slot once (R56). -/
def JournalOk (s : State) : Prop :=
  Tab.rising s.journal = true ∧ ∀ e ∈ s.journal, e.1 < 8192 ∧ e.2.length = 32

/-- No life-cycle fuse that is blown in `s` is whole in `t` (R360). -/
def FusesKept (s t : State) : Prop := ∀ i, bit s.otp.lc i = true → bit t.otp.lc i = true

/-! ## What a command may touch -/

/-- The parts of the state: the registers and 48-bit counters of a block of Table HI-3 (`regAny`: of every block; INT_STATUS of HIF
stands for itself), and the other
fields of `State`. The queue of commands is none of them. -/
inductive Part where
  | intStatus | regDev | regClk | regRefsel | regSyn | regTk | regTt | regTs | regCal | regLane | regPort | regTbl | regFab | regRed | regFlt | regPmon | regSec | regPwr | regHif | regAny
  | out | free | pins | xo | fmeter | boot | journal | jrnlQ | otp | sec | pwr | lines | flt | tbs | hif | refsel | xc | syn | pul | pmon | tbl | fab | tt | lan | prt | dress
  deriving DecidableEq, Repr

/-- The bits of a part: for the registers of a block the number of its MiB of BAR0, for those of every block all 64. -/
def Part.mask : Part → Nat
  | .intStatus => 2 ^ 63
  | .regDev => 2 ^ 0
  | .regClk => 2 ^ 1
  | .regRefsel => 2 ^ 2
  | .regSyn => 2 ^ 3
  | .regTk => 2 ^ 4
  | .regTt => 2 ^ 5
  | .regTs => 2 ^ 6
  | .regCal => 2 ^ 7
  | .regLane => 2 ^ 8
  | .regPort => 2 ^ 16
  | .regTbl => 2 ^ 24
  | .regFab => 2 ^ 32
  | .regRed => 2 ^ 40
  | .regFlt => 2 ^ 41
  | .regPmon => 2 ^ 42
  | .regSec => 2 ^ 43
  | .regPwr => 2 ^ 44
  | .regHif => 2 ^ 45
  | .out => 2 ^ 65
  | .free => 2 ^ 66
  | .pins => 2 ^ 67
  | .xo => 2 ^ 68
  | .fmeter => 2 ^ 69
  | .boot => 2 ^ 70
  | .journal => 2 ^ 71
  | .jrnlQ => 2 ^ 72
  | .otp => 2 ^ 73
  | .sec => 2 ^ 74
  | .pwr => 2 ^ 75
  | .lines => 2 ^ 76
  | .flt => 2 ^ 77
  | .tbs => 2 ^ 78
  | .hif => 2 ^ 79
  | .refsel => 2 ^ 80
  | .xc => 2 ^ 81
  | .syn => 2 ^ 82
  | .pul => 2 ^ 83
  | .pmon => 2 ^ 84
  | .tbl => 2 ^ 85
  | .fab => 2 ^ 86
  | .tt => 2 ^ 87
  | .lan => 2 ^ 88
  | .prt => 2 ^ 89
  | .dress => 2 ^ 90
  | .regAny => 2 ^ 64 - 1

/-- A list of parts as a bit mask. -/
def maskOf (l : List Part) : Nat := l.foldr (fun p m => p.mask ||| m) 0

/-- The part that holds the register field of key `k`: 63 for INT_STATUS of HIF, else its block. -/
def unitOf (k : Nat) : Nat := if k / 32 = 0x2D00010 then 63 else k / 2 ^ 25

/-- The mask lets the register field of key `k` (32 × address + low bit) change. Above BAR0 there is no register. -/
def may (w k : Nat) : Bool := decide (64 ≤ k / 2 ^ 25) || bit w (unitOf k)

/-- From `a` to `b` nothing changes outside the parts of mask `w`: no register field and no 48-bit counter of another block, and no
other part of the state. -/
structure Within (w : Nat) (a b : State) : Prop where
  regs : ∀ k d, may w k = false → Tab.get b.regs k d = Tab.get a.regs k d
  cnts : ∀ k d, may w (32 * k) = false → Tab.get b.cnt48 k d = Tab.get a.cnt48 k d
  out : bit w 65 = false → b.out = a.out
  free : bit w 66 = false → b.free = a.free
  pins : bit w 67 = false → b.pins = a.pins
  xo : bit w 68 = false → b.xo = a.xo
  fmeter : bit w 69 = false → b.fmeter = a.fmeter
  boot : bit w 70 = false → b.boot = a.boot
  journal : bit w 71 = false → b.journal = a.journal
  jrnlQ : bit w 72 = false → b.jrnlQ = a.jrnlQ
  otp : bit w 73 = false → b.otp = a.otp
  sec : bit w 74 = false → b.sec = a.sec
  pwr : bit w 75 = false → b.pwr = a.pwr
  lines : bit w 76 = false → b.lines = a.lines
  flt : bit w 77 = false → b.flt = a.flt
  tbs : bit w 78 = false → b.tbs = a.tbs
  hif : bit w 79 = false → b.hif = a.hif
  refsel : bit w 80 = false → b.refsel = a.refsel
  xc : bit w 81 = false → b.xc = a.xc
  syn : bit w 82 = false → b.syn = a.syn
  pul : bit w 83 = false → b.pul = a.pul
  pmon : bit w 84 = false → b.pmon = a.pmon
  tbl : bit w 85 = false → b.tbl = a.tbl
  fab : bit w 86 = false → b.fab = a.fab
  tt : bit w 87 = false → b.tt = a.tt
  lan : bit w 88 = false → b.lan = a.lan
  prt : bit w 89 = false → b.prt = a.prt
  dress : bit w 90 = false → b.dress = a.dress

/-- The parts of the state that a command may change, through everything its effect sets off. -/
def touches : Instr → List Part
  | .resetNAssert _ => [.regAny, .free, .pins, .xo, .fmeter, .boot, .sec, .pwr, .lines, .flt, .tbs, .hif, .refsel, .xc, .syn, .pul, .pmon, .tbl, .fab, .tt, .lan, .prt, .dress]
  | .vddAonDetect _ => [.regAny, .free, .pins, .xo, .fmeter, .boot, .journal, .jrnlQ, .sec, .pwr, .lines, .flt, .tbs, .hif, .refsel, .xc, .syn, .pul, .pmon, .tbl, .fab, .tt, .lan, .prt, .dress]
  | .resetNRelease => [.regAny, .pins, .xo, .fmeter, .boot, .sec, .pwr, .lines, .flt, .tbs, .hif, .refsel, .xc, .syn, .pul, .pmon, .tbl, .fab, .tt, .lan, .prt, .dress]
  | .xoWindowEnd _ => [.regAny, .out, .free, .xo, .boot, .jrnlQ, .pwr, .lines, .flt, .tbs, .hif, .refsel, .xc, .syn, .pul, .pmon, .tbl, .fab, .tt, .lan, .prt, .dress]
  | .startupRootLocked _ => [.regAny, .out, .free, .boot, .jrnlQ, .pwr, .lines, .flt, .tbs, .hif, .refsel, .xc, .syn, .pul, .pmon, .tbl, .fab, .tt, .lan, .prt, .dress]
  | .rootALockTimeout => [.regAny, .out, .free, .boot, .jrnlQ, .pwr, .lines, .flt, .tbs, .hif, .refsel, .xc, .syn, .pul, .pmon, .tbl, .fab, .tt, .lan, .prt, .dress]
  | .rootBLockTimeout => [.regAny, .out, .free, .boot, .jrnlQ, .pwr, .lines, .flt, .tbs, .hif, .refsel, .xc, .syn, .pul, .pmon, .tbl, .fab, .tt, .lan, .prt, .dress]
  | .wipeDone => [.intStatus, .regDev, .regClk, .regRefsel, .regSyn, .regTk, .regTt, .regTs, .regCal, .regTbl, .regRed, .regPmon, .regSec, .regHif, .out, .free, .boot, .journal, .jrnlQ, .sec, .pwr, .lines, .tbs, .hif, .syn, .pul, .pmon, .tbl, .fab, .tt, .dress]
  | .imageReadDone _ _ => [.regAny, .out, .free, .boot, .jrnlQ, .pwr, .lines, .flt, .tbs, .hif, .refsel, .xc, .syn, .pul, .pmon, .tbl, .fab, .tt, .lan, .prt, .dress]
  | .signatureVerifyDone => [.regAny, .out, .free, .boot, .jrnlQ, .pwr, .lines, .flt, .tbs, .hif, .refsel, .xc, .syn, .pul, .pmon, .tbl, .fab, .tt, .lan, .prt, .dress]
  | .applyDone => [.regAny, .out, .free, .xo, .fmeter, .boot, .jrnlQ, .sec, .pwr, .lines, .flt, .tbs, .hif, .refsel, .xc, .syn, .pul, .pmon, .tbl, .fab, .tt, .lan, .prt, .dress]
  | .shaftTrackDone => [.regAny, .out, .free, .boot, .jrnlQ, .pwr, .lines, .flt, .tbs, .hif, .refsel, .xc, .syn, .pul, .pmon, .tbl, .fab, .tt, .lan, .prt, .dress]
  | .shaftTimeout => [.regAny, .out, .free, .boot, .jrnlQ, .pwr, .lines, .flt, .tbs, .hif, .refsel, .xc, .syn, .pul, .pmon, .tbl, .fab, .tt, .lan, .prt, .dress]
  | .quadEnableTick => [.boot]
  | .quadLockTimeout _ => [.boot, .lines]
  | .lanesDone _ _ => [.regAny, .out, .free, .boot, .jrnlQ, .pwr, .lines, .flt, .tbs, .hif, .refsel, .xc, .syn, .pul, .pmon, .tbl, .fab, .tt, .lan, .prt, .dress]
  | .floorRaiseDone _ => [.regDev, .regFlt, .regSec, .free, .boot, .jrnlQ, .otp]
  | .k14LateCheck => [.boot, .lines]
  | .journalWriteDone _ => [.regAny, .out, .free, .boot, .journal, .jrnlQ, .pwr, .lines, .flt, .tbs, .hif, .refsel, .xc, .syn, .pul, .pmon, .tbl, .fab, .tt, .lan, .prt, .dress]
  | .jrnlIdxWrite _ => [.regDev]
  | .nvmCmdGo _ => [.regDev, .out, .boot]
  | .nvmCmdDone _ => [.regDev, .boot]
  | .resetKeyWrite _ => [.regDev]
  | .resetArmExpire => [.regDev]
  | .resetCmdFull => [.regAny, .xo, .fmeter, .boot, .jrnlQ, .sec, .pwr, .lines, .flt, .tbs, .hif, .refsel, .xc, .syn, .pul, .pmon, .tbl, .fab, .tt, .lan, .prt, .dress]
  | .resetCmdHostView => [.regAny, .xo, .fmeter, .boot, .jrnlQ, .sec, .pwr, .lines, .flt, .tbs, .hif, .refsel, .xc, .syn, .pul, .pmon, .tbl, .fab, .tt, .lan, .prt, .dress]
  | .resetCmdRefused _ => [.regAny, .xo, .fmeter, .boot, .jrnlQ, .sec, .pwr, .lines, .flt, .tbs, .hif, .refsel, .xc, .syn, .pul, .pmon, .tbl, .fab, .tt, .lan, .prt, .dress]
  | .pcieFlr => [.regDev, .regTk, .regTs, .regPort, .regTbl, .regFab, .regRed, .regFlt, .regPmon, .regSec, .regHif, .jrnlQ, .flt, .hif, .pmon, .tbl, .fab]
  | .pcieHotReset _ => [.regDev, .regTk, .regTs, .regPort, .regTbl, .regFab, .regRed, .regFlt, .regPmon, .regSec, .regHif, .free, .pins, .jrnlQ, .flt, .hif, .pmon, .tbl, .fab]
  | .hvResetDone => [.intStatus, .regDev, .regPort, .regFab, .regPmon, .regHif, .flt, .hif, .fab]
  | .perstNRelease => [.regHif, .free, .pins]
  | .fmeterStart _ => [.regClk, .fmeter]
  | .fmeterWindowEnd _ => [.regClk, .fmeter]
  | .refmonSecond _ _ _ _ => [.intStatus, .regClk, .regRefsel, .regSyn, .regPort, .regRed, .regSec, .out, .free, .hif, .refsel, .xc, .syn]
  | .refinLosTimeout _ => [.intStatus, .regClk, .regRefsel, .regSyn, .out, .free, .hif, .refsel, .xc, .syn]
  | .refinPpsEdge _ _ _ => [.intStatus, .regRefsel, .regTk, .regTs, .regPmon, .out, .tbs, .hif, .refsel, .pul]
  | .ppsEdgeTimeout _ => [.intStatus, .regRefsel, .regTk, .out, .tbs, .hif, .refsel]
  | .esmcAgeTimeout _ => [.intStatus, .regClk, .regRefsel, .regSyn, .out, .free, .hif, .refsel, .xc, .syn]
  | .acqFailTimeout => [.intStatus, .regClk, .regRefsel, .regSyn, .out, .free, .hif, .refsel, .xc, .syn]
  | .selAcquireLock => [.intStatus, .regClk, .regRefsel, .regSyn, .out, .free, .hif, .refsel, .xc, .syn]
  | .selDecideExpire _ => [.regClk, .regRefsel, .regSyn, .refsel, .xc, .syn]
  | .selSettleEnd _ => [.intStatus, .regClk, .regRefsel, .regSyn, .out, .free, .hif, .refsel, .xc, .syn]
  | .selHoldoverLimit => [.intStatus, .regRefsel, .out, .hif, .refsel]
  | .esmcInfoTick => [.regPort, .out, .prt]
  | .esmcEventPdu => [.regPort, .out, .refsel, .prt]
  | .rootDcoUpdate _ _ _ => [.regClk, .regSyn, .lines, .tbs, .xc, .syn]
  | .rootRelockDone _ => [.regClk, .regSyn]
  | .rootBandWindow _ _ => [.regClk, .regSyn, .lines, .syn]
  | .standbyTrackMeasure _ => [.regSyn, .regTk, .regRed, .xc, .syn]
  | .tlCompare _ _ _ => [.regSyn, .lines, .syn]
  | .tlAlignInstant _ => [.syn]
  | .tlOutputStart _ => [.regSyn, .syn]
  | .synthLockLoss _ => [.regSyn, .lines, .syn]
  | .ckoOeHostWrite _ _ => [.regSyn]
  | .syncInEdge _ => [.regSyn, .syn]
  | .syncRestart => [.regSyn, .syn]
  | .superblockTransmit _ _ _ _ => [.regTt, .regLane, .regPmon, .out, .lines, .pmon, .tt, .lan]
  | .superblockReceived _ _ _ _ _ => [.intStatus, .regClk, .regRefsel, .regSyn, .regTk, .regTt, .regLane, .regPort, .regTbl, .regFab, .regPmon, .out, .free, .lines, .flt, .tbs, .hif, .refsel, .xc, .syn, .pmon, .tbl, .fab, .tt, .lan]
  | .timingFrameReceived _ _ => [.intStatus, .regClk, .regRefsel, .regSyn, .regTk, .regTt, .regLane, .regPort, .regTbl, .regFab, .regPmon, .out, .free, .flt, .tbs, .hif, .refsel, .xc, .syn, .pmon, .tbl, .fab, .tt, .lan]
  | .leatFrameReceived _ _ _ _ _ _ _ => [.intStatus, .regPort, .regTbl, .regFab, .regPmon, .regHif, .out, .flt, .hif, .pmon, .tbl, .fab, .lan]
  | .laneDownWait _ => [.intStatus, .regClk, .regRefsel, .regSyn, .regTk, .regTt, .regLane, .regPort, .regTbl, .regFab, .regPmon, .out, .free, .flt, .tbs, .hif, .refsel, .xc, .syn, .pmon, .tbl, .fab, .tt, .lan]
  | .detectBurstTimer _ => [.out, .lan]
  | .laneEnergyDetect _ => [.regLane]
  | .laneCdrLocked _ => [.intStatus, .regClk, .regRefsel, .regSyn, .regTk, .regTt, .regLane, .regPort, .regTbl, .regFab, .regPmon, .out, .free, .flt, .tbs, .hif, .refsel, .xc, .syn, .pmon, .tbl, .fab, .tt, .lan]
  | .laneTrainTimeout _ => [.intStatus, .regClk, .regRefsel, .regSyn, .regTk, .regTt, .regLane, .regPort, .regTbl, .regFab, .regPmon, .out, .free, .flt, .tbs, .hif, .refsel, .xc, .syn, .pmon, .tbl, .fab, .tt, .lan]
  | .alignPositionWatch _ _ _ _ => [.intStatus, .regClk, .regRefsel, .regSyn, .regTk, .regTt, .regLane, .regPort, .regTbl, .regFab, .regPmon, .out, .free, .flt, .tbs, .hif, .refsel, .xc, .syn, .pmon, .tbl, .fab, .tt, .lan]
  | .laneVerifyTimeout _ => [.intStatus, .regClk, .regRefsel, .regSyn, .regTk, .regTt, .regLane, .regPort, .regTbl, .regFab, .regPmon, .out, .free, .flt, .tbs, .hif, .refsel, .xc, .syn, .pmon, .tbl, .fab, .tt, .lan]
  | .laneBackoffExpire _ => [.intStatus, .regClk, .regRefsel, .regSyn, .regTk, .regTt, .regLane, .regPort, .regTbl, .regFab, .regPmon, .out, .free, .flt, .tbs, .hif, .refsel, .xc, .syn, .pmon, .tbl, .fab, .tt, .lan]
  | .laneUpStable _ => [.regLane]
  | .laneLosSignal _ => [.intStatus, .regClk, .regRefsel, .regSyn, .regTk, .regTt, .regLane, .regPort, .regTbl, .regFab, .regPmon, .out, .free, .lines, .flt, .tbs, .hif, .refsel, .xc, .syn, .pmon, .tbl, .fab, .tt, .lan]
  | .laneLosTimeout _ => [.intStatus, .regClk, .regRefsel, .regSyn, .regTk, .regTt, .regLane, .regPort, .regTbl, .regFab, .regPmon, .out, .free, .lines, .flt, .tbs, .hif, .refsel, .xc, .syn, .pmon, .tbl, .fab, .tt, .lan]
  | .quadPllUnlock _ => [.intStatus, .regClk, .regRefsel, .regSyn, .regTk, .regTt, .regLane, .regPort, .regTbl, .regFab, .regRed, .regPmon, .out, .free, .lines, .flt, .tbs, .hif, .refsel, .xc, .syn, .pmon, .tbl, .fab, .tt, .lan, .prt]
  | .quadPllLock _ => [.intStatus, .regClk, .regRefsel, .regSyn, .regLane, .regPort, .regTbl, .regFab, .regRed, .regPmon, .out, .free, .boot, .lines, .flt, .hif, .refsel, .xc, .syn, .pmon, .tbl, .fab, .lan, .prt]
  | .laneManNop _ => [.regLane]
  | .laneHold _ _ => [.intStatus, .regClk, .regRefsel, .regSyn, .regTk, .regTt, .regLane, .regPort, .regTbl, .regFab, .regRed, .regPmon, .out, .free, .flt, .tbs, .hif, .refsel, .xc, .syn, .pmon, .tbl, .fab, .tt, .lan, .prt]
  | .laneRelease _ _ => [.intStatus, .regClk, .regRefsel, .regSyn, .regTk, .regTt, .regLane, .regPort, .regTbl, .regFab, .regRed, .regPmon, .out, .free, .flt, .tbs, .hif, .refsel, .xc, .syn, .pmon, .tbl, .fab, .tt, .lan, .prt]
  | .laneManualTrain _ _ => [.intStatus, .regClk, .regRefsel, .regSyn, .regTk, .regTt, .regLane, .regPort, .regTbl, .regFab, .regPmon, .out, .free, .flt, .tbs, .hif, .refsel, .xc, .syn, .pmon, .tbl, .fab, .tt, .lan]
  | .laneSlip _ _ => [.regLane]
  | .laneAccept _ _ => [.intStatus, .regClk, .regRefsel, .regSyn, .regTk, .regTt, .regLane, .regPort, .regTbl, .regFab, .regPmon, .out, .free, .flt, .tbs, .hif, .refsel, .xc, .syn, .pmon, .tbl, .fab, .tt, .lan]
  | .laneManReserved _ _ => [.regLane]
  | .quietEntry _ => [.lan]
  | .quietExitRequest _ => [.lan]
  | .quietBurstStart _ => [.out, .lan]
  | .quietWakeTimer _ => [.lan]
  | .laneHealthWindow _ => [.regLane, .regRed, .lan]
  | .prbsClear _ => [.regLane]
  | .ethFrameReceived _ _ _ _ _ _ _ => [.intStatus, .regClk, .regRefsel, .regSyn, .regPort, .regTbl, .regFab, .regPmon, .regHif, .out, .free, .flt, .hif, .refsel, .xc, .syn, .pmon, .tbl, .fab, .lan, .prt]
  | .pfcFrameReceived _ _ => [.regPort, .regFab, .regPmon, .pmon, .prt]
  | .pfcPauseExpire _ _ => [.regPort, .regFab, .prt]
  | .pfcFrameSend _ => [.regPort, .out, .fab, .prt]
  | .pfcRepeatTimer _ => [.fab]
  | .esmcPduReceived _ _ => [.intStatus, .regClk, .regRefsel, .regSyn, .regPort, .regPmon, .out, .free, .hif, .refsel, .xc, .syn, .pmon]
  | .portLockAchieved _ => [.intStatus, .regClk, .regRefsel, .regSyn, .regPort, .regTbl, .regFab, .regRed, .regPmon, .out, .free, .flt, .hif, .refsel, .xc, .syn, .pmon, .tbl, .fab, .lan, .prt]
  | .portLockTimeout _ => [.regPort, .lines, .prt]
  | .portRemoteFaultRx _ => [.intStatus, .regClk, .regRefsel, .regSyn, .regPort, .regTbl, .regFab, .regRed, .regPmon, .out, .free, .flt, .hif, .refsel, .xc, .syn, .pmon, .tbl, .fab, .lan, .prt]
  | .portRemoteFaultClear _ => [.intStatus, .regClk, .regRefsel, .regSyn, .regPort, .regTbl, .regFab, .regRed, .regPmon, .out, .free, .flt, .hif, .refsel, .xc, .syn, .pmon, .tbl, .fab, .lan, .prt]
  | .portLockLoss _ _ => [.intStatus, .regClk, .regRefsel, .regSyn, .regPort, .regTbl, .regFab, .regRed, .regPmon, .out, .free, .lines, .flt, .hif, .refsel, .xc, .syn, .pmon, .tbl, .fab, .lan, .prt]
  | .tbSampleDeferred _ => [.intStatus, .regTk, .regTs, .regPmon, .out, .tbs, .hif, .pul]
  | .tbSampleTimeout _ => [.intStatus, .regTk, .out, .tbs, .hif]
  | .tbSlewComplete _ => [.tbs]
  | .tbFeedNop _ => [.regTk]
  | .tbFeedOffset _ _ => [.intStatus, .regTk, .regTs, .regPmon, .out, .tbs, .hif, .pul]
  | .tbFeedSet _ _ => [.intStatus, .regTk, .regTs, .out, .tbs, .hif, .pul]
  | .tbFeedReserved _ _ => [.regTk]
  | .tbRampTick _ => [.intStatus, .regTk, .regPmon, .out, .tbs, .hif, .xc]
  | .xcSlot _ => [.intStatus, .regDev, .regClk, .regSyn, .regTk, .regTs, .regCal, .regPort, .regFab, .regRed, .regPmon, .out, .lines, .flt, .tbs, .hif, .xc, .syn, .pul, .pmon, .tbl, .fab, .lan, .dress]
  | .standbyTkLoadDone => [.regTk, .tbs, .xc]
  | .tbNowRead _ _ => [.intStatus, .regTk, .regHif, .out, .hif]
  | .tbOffRead _ _ => [.intStatus, .regTk, .regHif, .out, .hif]
  | .counterLoRead _ _ => [.intStatus, .regTk, .regCal, .regHif, .out, .hif]
  | .ttBeatPeriod _ _ => [.regTt, .tt]
  | .ttLockWindowDone _ => [.regTt, .tt]
  | .ttExchangeInterval _ => [.tt]
  | .ttPairFormed _ => [.intStatus, .regTk, .regTt, .regTs, .regFab, .regPmon, .out, .lines, .tbs, .hif, .pul, .tt]
  | .ttPairTimeout _ => [.regTt, .tt]
  | .ttHealthTimeout _ => [.intStatus, .regTk, .regRed, .regPmon, .out, .lines, .tbs, .hif, .tt]
  | .pgCmdNop _ => [.regTs]
  | .pgArm _ _ => [.intStatus, .regTs, .out, .hif, .pul]
  | .pgDisarm _ _ => [.intStatus, .regTs, .out, .hif, .pul]
  | .pgCmdReserved _ _ => [.regTs]
  | .pgEdge _ _ => [.intStatus, .regTs, .out, .lines, .hif, .pul]
  | .evtInEdge _ _ _ _ _ => [.intStatus, .regTs, .out, .hif, .pul]
  | .queueEntryRead _ _ _ => [.intStatus, .regHif, .out, .hif]
  | .txqPop _ => [.regTs, .pul]
  | .capPop _ => [.regTs, .pul]
  | .tempSensorRead _ => [.regAny, .out, .free, .boot, .jrnlQ, .pwr, .lines, .flt, .tbs, .hif, .refsel, .xc, .syn, .pul, .pmon, .tbl, .fab, .tt, .lan, .prt, .dress]
  | .calPeriodTimer => [.regCal, .dress]
  | .calRetryDue => [.regCal, .dress]
  | .calPrecheckDone => [.regAny, .out, .free, .boot, .jrnlQ, .pwr, .lines, .flt, .tbs, .hif, .refsel, .xc, .syn, .pul, .pmon, .tbl, .fab, .tt, .lan, .prt, .dress]
  | .calScaleDone _ => [.regCal, .dress]
  | .calLoopDone _ => [.regCal, .dress]
  | .calPointsDone _ => [.regCal, .dress]
  | .calOutputsDone _ => [.regCal, .dress]
  | .calComputeDone => [.regAny, .out, .free, .boot, .jrnlQ, .pwr, .lines, .flt, .tbs, .hif, .refsel, .xc, .syn, .pul, .pmon, .tbl, .fab, .tt, .lan, .prt, .dress]
  | .calCommit => [.intStatus, .regSyn, .regCal, .regPmon, .out, .lines, .hif, .dress]
  | .calTapWalkStep => [.regCal, .dress]
  | .calRefClkLoss => [.regAny, .out, .free, .boot, .jrnlQ, .pwr, .lines, .flt, .tbs, .hif, .refsel, .xc, .syn, .pul, .pmon, .tbl, .fab, .tt, .lan, .prt, .dress]
  | .calClkFreqWindow _ => [.regAny, .out, .free, .boot, .jrnlQ, .pwr, .lines, .flt, .tbs, .hif, .refsel, .xc, .syn, .pul, .pmon, .tbl, .fab, .tt, .lan, .prt, .dress]
  | .calRefPpsEdge _ _ => [.regAny, .out, .free, .boot, .jrnlQ, .pwr, .lines, .flt, .tbs, .hif, .refsel, .xc, .syn, .pul, .pmon, .tbl, .fab, .tt, .lan, .prt, .dress]
  | .calPpsMissing => [.intStatus, .regDev, .regSyn, .regCal, .out, .lines, .hif, .dress]
  | .calCmdNop => [.regCal]
  | .calRun _ => [.regCal, .dress]
  | .calRestore _ => [.intStatus, .regSyn, .regCal, .regPmon, .out, .lines, .hif, .dress]
  | .calCmdReserved _ => [.regCal]
  | .lookupFirstPass _ _ _ _ => [.intStatus, .regPort, .regTbl, .regFab, .regPmon, .out, .lines, .flt, .hif, .pmon, .tbl, .fab]
  | .lookupLaterPass _ _ _ => [.intStatus, .regPort, .regTbl, .regFab, .regPmon, .out, .lines, .flt, .hif, .pmon, .tbl, .fab]
  | .ageClockTick => [.regTbl]
  | .agerVisit _ => [.intStatus, .regTbl, .regPmon, .out, .lines, .hif, .tbl]
  | .shadowAuditStep _ _ => [.intStatus, .regTbl, .regPmon, .out, .lines, .hif, .tbl]
  | .camEntryExpire => [.regTbl, .tbl]
  | .tcqNop => [.intStatus, .regPmon, .regHif, .out, .hif, .tbl]
  | .tcqInsert => [.intStatus, .regTbl, .regPmon, .regHif, .out, .hif, .tbl]
  | .tcqModify => [.intStatus, .regTbl, .regPmon, .regHif, .out, .hif, .tbl]
  | .tcqDelete => [.intStatus, .regTbl, .regPmon, .regHif, .out, .hif, .tbl]
  | .tcqFence => [.intStatus, .regTbl, .regPmon, .regHif, .out, .hif, .tbl]
  | .tcqReserved => [.intStatus, .regPmon, .regHif, .out, .hif, .tbl]
  | .fenceComplete => [.intStatus, .regTbl, .regPmon, .out, .hif, .tbl]
  | .lnqCtlWrite _ => [.regTbl]
  | .reseqTimeoutRelease _ => [.regPort, .regFab, .regPmon, .flt, .pmon, .tbl, .fab]
  | .egressFrameStart _ _ _ => [.regPort, .regFab, .regPmon, .regHif, .out, .flt, .pmon, .tbl, .fab, .lan, .prt]
  | .egressFrameEnd _ => [.intStatus, .regTs, .regPort, .regFab, .regPmon, .out, .lines, .flt, .hif, .pul, .pmon, .tbl, .fab, .lan, .prt]
  | .flfDeparture _ _ _ => [.regPort, .regFab, .regPmon, .regHif, .out, .flt, .pmon, .tbl, .fab, .lan, .prt]
  | .unitFailOver _ _ _ => [.regAny, .out, .free, .boot, .jrnlQ, .pwr, .lines, .flt, .tbs, .hif, .refsel, .xc, .syn, .pul, .pmon, .tbl, .fab, .tt, .lan, .prt, .dress]
  | .heartbeatLost _ => [.regAny, .out, .free, .boot, .jrnlQ, .pwr, .lines, .flt, .tbs, .hif, .refsel, .xc, .syn, .pul, .pmon, .tbl, .fab, .tt, .lan, .prt, .dress]
  | .healthRailFault _ => [.regRed]
  | .unitVerified _ => [.regAny, .out, .free, .boot, .jrnlQ, .pwr, .lines, .flt, .tbs, .hif, .refsel, .xc, .syn, .pul, .pmon, .tbl, .fab, .tt, .lan, .prt, .dress]
  | .unitHoldoffExpire _ => [.regTk, .regRed, .xc]
  | .unitLatchExpire _ => [.regRed]
  | .unitWtrExpire _ => [.intStatus, .regPort, .regFab, .regRed, .regPmon, .out, .lines, .flt, .hif, .pmon, .tbl, .fab, .lan]
  | .flapWindowExpire _ => [.regRed]
  | .deferredOrderWithdraw _ => [.intStatus, .regTk, .regRed, .regPmon, .out, .lines, .tbs, .hif]
  | .redCmdNop => [.regRed]
  | .redRelease _ _ => [.regRed]
  | .redCmdReserved => [.regRed]
  | .faultEvent _ => [.intStatus, .regClk, .regRefsel, .regSyn, .regTk, .regTt, .regLane, .regPort, .regTbl, .regFab, .regRed, .regFlt, .regPmon, .regHif, .out, .free, .jrnlQ, .lines, .flt, .tbs, .hif, .refsel, .xc, .syn, .pmon, .tbl, .fab, .tt, .lan, .prt]
  | .faultRailFault _ _ => [.intStatus, .regClk, .regRefsel, .regSyn, .regTk, .regTt, .regLane, .regPort, .regTbl, .regFab, .regRed, .regFlt, .regPmon, .regHif, .out, .free, .jrnlQ, .lines, .flt, .tbs, .hif, .refsel, .xc, .syn, .pmon, .tbl, .fab, .tt, .lan, .prt]
  | .collectorReactEnd => [.regFlt]
  | .failoverInputRelease _ => [.intStatus, .regDev, .regClk, .regSyn, .regTk, .regTs, .regCal, .regPort, .regFab, .regRed, .regPmon, .out, .lines, .flt, .hif, .xc, .syn, .pul, .pmon, .tbl, .fab, .lan, .dress]
  | .fltClear _ => [.intStatus, .regClk, .regRefsel, .regSyn, .regTk, .regTt, .regLane, .regPort, .regTbl, .regFab, .regRed, .regFlt, .regPmon, .out, .free, .flt, .tbs, .hif, .refsel, .xc, .syn, .pmon, .tbl, .fab, .tt, .lan, .prt]
  | .fltSrcClr _ _ => [.intStatus, .regClk, .regRefsel, .regSyn, .regTk, .regTt, .regLane, .regPort, .regTbl, .regFab, .regRed, .regFlt, .regPmon, .out, .free, .flt, .tbs, .hif, .refsel, .xc, .syn, .pmon, .tbl, .fab, .tt, .lan, .prt]
  | .fltInject _ => [.regFlt, .flt]
  | .fltInjectEnd => [.regFlt, .flt]
  | .pmonCntCfgWrite _ _ => [.regPmon]
  | .pmonCntClear _ => [.regPmon]
  | .gleanCtlWrite _ => [.regPmon, .pmon]
  | .gleanRecordWrite => [.intStatus, .regPmon, .out, .hif, .pmon]
  | .bwWindowClose => [.intStatus, .regPmon, .out, .hif, .pmon]
  | .bwCfgWrite _ => [.regPmon, .pmon]
  | .secCmdNone _ => [.regSec]
  | .secGetNonce _ _ => [.regSec]
  | .secSubmit _ => [.intStatus, .regSec, .out, .sec, .hif]
  | .secSet _ _ => [.regSec, .sec, .refsel]
  | .secDisarm _ => [.regSec, .sec]
  | .secRelease _ => [.regSec]
  | .secCmdReserved _ _ => [.regSec]
  | .mailboxForeignWrite _ _ _ => [.regSec]
  | .reqLifecycle => [.sec]
  | .reqDebug => [.intStatus, .regSec, .out, .sec, .hif, .refsel]
  | .reqKeyAdd _ => [.intStatus, .regSec, .out, .free, .otp, .sec, .hif]
  | .reqKeyRevoke _ => [.intStatus, .regSec, .out, .free, .otp, .sec, .hif]
  | .lcFuseBlowDone _ => [.intStatus, .regSec, .out, .otp, .sec, .hif]
  | .jtagBypass _ => [.out, .sec]
  | .jtagSecAccess _ _ _ => [.regAny, .out, .free, .xo, .fmeter, .boot, .jrnlQ, .sec, .pwr, .lines, .flt, .tbs, .hif, .refsel, .xc, .syn, .pul, .pmon, .tbl, .fab, .tt, .lan, .prt, .dress]
  | .jtagRegRead _ => [.regTk, .regCal, .regHif, .out, .sec, .hif]
  | .jtagRegWrite _ _ => [.regAny, .out, .free, .xo, .fmeter, .boot, .jrnlQ, .sec, .pwr, .lines, .flt, .tbs, .hif, .refsel, .xc, .syn, .pul, .pmon, .tbl, .fab, .tt, .lan, .prt, .dress]
  | .jtagMemAccess _ _ _ => [.regTs, .regTbl, .out, .journal, .sec, .hif, .pul, .pmon, .tbl, .fab]
  | .jtagSamplePreload _ _ => [.out, .sec]
  | .jtagExtest _ _ => [.out, .sec]
  | .jtagScan _ => [.sec, .pwr]
  | .pwrReqPinStable _ => [.regAny, .out, .free, .pins, .boot, .jrnlQ, .pwr, .lines, .flt, .tbs, .hif, .refsel, .xc, .syn, .pul, .pmon, .tbl, .fab, .tt, .lan, .prt, .dress]
  | .pwrHostReqRun _ => [.regAny, .out, .free, .boot, .jrnlQ, .pwr, .lines, .flt, .tbs, .hif, .refsel, .xc, .syn, .pul, .pmon, .tbl, .fab, .tt, .lan, .prt, .dress]
  | .pwrHostReqTiming _ => [.regAny, .out, .free, .boot, .jrnlQ, .pwr, .lines, .flt, .tbs, .hif, .refsel, .xc, .syn, .pul, .pmon, .tbl, .fab, .tt, .lan, .prt, .dress]
  | .pwrHostReqKeep _ => [.regAny, .out, .free, .boot, .jrnlQ, .pwr, .lines, .flt, .tbs, .hif, .refsel, .xc, .syn, .pul, .pmon, .tbl, .fab, .tt, .lan, .prt, .dress]
  | .pwrHostReqDormant _ => [.regAny, .out, .free, .boot, .jrnlQ, .pwr, .lines, .flt, .tbs, .hif, .refsel, .xc, .syn, .pul, .pmon, .tbl, .fab, .tt, .lan, .prt, .dress]
  | .pwrHostReqOff _ => [.regAny, .out, .free, .boot, .jrnlQ, .pwr, .lines, .flt, .tbs, .hif, .refsel, .xc, .syn, .pul, .pmon, .tbl, .fab, .tt, .lan, .prt, .dress]
  | .pwrHostReqReserved _ => [.regAny, .out, .free, .boot, .jrnlQ, .pwr, .lines, .flt, .tbs, .hif, .refsel, .xc, .syn, .pul, .pmon, .tbl, .fab, .tt, .lan, .prt, .dress]
  | .domainWipeDone _ => [.intStatus, .regClk, .regRefsel, .regSyn, .regTk, .regTt, .regTs, .regCal, .regTbl, .regRed, .regPmon, .regHif, .out, .free, .pwr, .lines, .tbs, .hif, .syn, .pul, .pmon, .tbl, .fab, .tt, .dress]
  | .powerFailAssert _ => [.intStatus, .regPwr, .out, .pins, .pwr, .hif]
  | .registerWrite _ _ _ _ _ => [.regAny, .out, .free, .xo, .fmeter, .boot, .jrnlQ, .sec, .pwr, .lines, .flt, .tbs, .hif, .refsel, .xc, .syn, .pul, .pmon, .tbl, .fab, .tt, .lan, .prt, .dress]
  | .smiRead _ _ => [.intStatus, .regTk, .regCal, .regHif, .out, .hif]
  | .smiWrite _ _ => [.regAny, .out, .free, .xo, .fmeter, .boot, .jrnlQ, .sec, .pwr, .lines, .flt, .tbs, .hif, .refsel, .xc, .syn, .pul, .pmon, .tbl, .fab, .tt, .lan, .prt, .dress]
  | .smiBadCommand _ => [.regHif, .out]
  | .smiPartial _ => [.intStatus, .regHif, .out, .hif]
  | .ringDoorbell _ _ => [.intStatus, .regHif, .out, .hif]
  | .ringCtlWrite _ _ _ => [.intStatus, .regHif, .out, .hif]
  | .tcqFetch _ => [.intStatus, .regHif, .out, .hif, .tbl]
  | .txfFetch _ _ => [.intStatus, .regPort, .regFab, .regPmon, .regHif, .out, .flt, .hif, .pmon, .tbl, .fab]
  | .hostRxDeliver _ => [.intStatus, .regPort, .regFab, .regPmon, .regHif, .out, .flt, .hif, .fab]
  | .lnqFifoRead _ => [.intStatus, .regTk, .regCal, .regHif, .out, .hif]
  | .lnqPop _ => [.intStatus, .regTbl, .regHif, .out, .hif, .tbl]
  | .tcqPush _ => [.intStatus, .regHif, .out, .hif, .tbl]
  | .tcrFifoRead _ => [.intStatus, .regTk, .regCal, .regHif, .out, .hif]
  | .tcrPop _ => [.intStatus, .regHif, .out, .hif]
  | .intMaskWrite _ => [.regHif, .out, .hif]
  | .synthesizerLocked _ => [.regSyn, .syn]
  | .prbsCheckerBlock _ _ _ => [.regLane, .out, .lan]
  | .faultSourceIdle _ => [.intStatus, .regDev, .regClk, .regSyn, .regTk, .regTs, .regCal, .regPort, .regFab, .regRed, .regFlt, .regPmon, .out, .lines, .flt, .hif, .xc, .syn, .pul, .pmon, .tbl, .fab, .lan, .dress]
  | .unmonitoredClear _ => [.regAny, .out, .free, .boot, .jrnlQ, .pwr, .lines, .flt, .tbs, .hif, .refsel, .xc, .syn, .pul, .pmon, .tbl, .fab, .tt, .lan, .prt, .dress]
  | .pcieRefclkLoss _ => [.regDev, .regTk, .regTs, .regPort, .regTbl, .regFab, .regRed, .regFlt, .regPmon, .regSec, .regHif, .free, .pins, .jrnlQ, .flt, .hif, .pmon, .tbl, .fab]
  | .lcJournalClearDone => [.regAny, .xo, .fmeter, .boot, .journal, .jrnlQ, .sec, .pwr, .lines, .flt, .tbs, .hif, .refsel, .xc, .syn, .pul, .pmon, .tbl, .fab, .tt, .lan, .prt, .dress]
  | .mailboxClaimTimeout => [.regSec]
  | .nonceExpire => [.regSec]
  | .debugLeaseExpire => [.regSec]
  | .jtagIdcode => [.out, .sec]
  | .jtagTrst => [.sec]
  | .pwrDrainTimeout => [.regAny, .out, .free, .boot, .jrnlQ, .pwr, .lines, .flt, .tbs, .hif, .refsel, .xc, .syn, .pul, .pmon, .tbl, .fab, .tt, .lan, .prt, .dress]
  | .domainRampDone => [.regAny, .out, .free, .boot, .jrnlQ, .pwr, .lines, .flt, .tbs, .hif, .refsel, .xc, .syn, .pul, .pmon, .tbl, .fab, .tt, .lan, .prt, .dress]
  | .shedRampStart => [.regAny, .out, .free, .boot, .jrnlQ, .pwr, .lines, .flt, .tbs, .hif, .refsel, .xc, .syn, .pul, .pmon, .tbl, .fab, .tt, .lan, .prt, .dress]
  | .shedRelease => [.regAny, .out, .free, .pins, .boot, .jrnlQ, .pwr, .lines, .flt, .tbs, .hif, .refsel, .xc, .syn, .pul, .pmon, .tbl, .fab, .tt, .lan, .prt, .dress]
  | .lnqDmaWrite => [.intStatus, .regTbl, .regHif, .out, .hif, .tbl]
  | .accErrClear => [.regHif]

end Sys2Proof
end

