-- ==== Sys2Proof/Certificates/Slice0/Obligations.lean ====
section
/-! DEFINITION. The statements for the provers. -/

open Sys2Proof Sys2Proof.Machine

/-- The queue is the model's way to hand commands to the block (log entry 4) (95_what_each_step_holds.md). -/
def Obligations.StepFront : Prop :=
  ∀ (c : Instr) (l : List Instr) (s : State), step { s with pending := c :: l } = exec c { s with pending := l }

/-- What an idle step is, a tick of one K6 and K7 cycle and two of K2, is the model's choice (log entry 4); that a SCAN stops the
clocks of the domains it reaches is R372 (R18, R158, R372). -/
def Obligations.StepIdle : Prop :=
  (∀ s : State, s.pending = [] → step s = .next s.tick) ∧
  (∀ s : State, s.pwr.drain = false → bit s.sec.scanStop 4 = true → s.pdOn 4 = false → s.tick.fab.cyc = s.fab.cyc) ∧
  (∀ s : State, s.pwr.drain = false → s.domRun 2 = true → s.tick.fab.cyc = s.fab.cyc + 2) ∧
  (∀ (k : Fin 2) (n : Fin 8) (s : State), s.pwr.drain = false → bit s.sec.scanStop (1 + k.val) = true → s.pdOn (1 + k.val) = false →
    s.tick.tb k n = s.tb k n) ∧
  ∀ (k : Fin 2) (n : Fin 8) (s : State), s.pwr.drain = false → s.domRun (6 + k.val) = true → s.tbOn k n = true →
    s.tick.tb k n = (s.tb k n).tick (s.tbRange n)

/-- In State.reset every register field reads the reset value of its register table, every 48-bit counter reads 0, nothing waits,
nothing has been sent, and the canonical form and the form of the journal hold (R58, R11). -/
def Obligations.ResetValues : Prop :=
  (∀ f : Fld, State.reset.rd f = f.reset ∧ State.reset.c48 f = 0) ∧ State.reset.pending = [] ∧ State.reset.out = [] ∧
    Canonical State.reset ∧ JournalOk State.reset

/-- A low pulse of 1 us or more on RESET_N, VDD_AON below 0.68 V and an armed RESET_CMD with ACTION 1 leave every register field
at its reset value and every counter at 0, and keep the fuses and the journal; the first leaves RESET_N low and an armed FULL as
it was, the second clears the armed FULL, loses the records waiting for the journal and, where one waits, the oldest of them
counting as the one being written, leaves its slot failing its CRC and every other slot as it was, the third queues a RESET record
where the queue has room. A pulse below 100 ns changes nothing. The release of RESET_N, and VDD_AON above 0.70 V after a loss,
leave every register at its reset value too and start the XO check where the other of the two does not hold the device; a VDD_AON
from 0.68 V to 0.70 V changes no register while the PCIe link is down, and a link that is up goes down where a supply above 0.68 V
leaves its range. That the records waiting for the journal are lost with VDD_AON, that the oldest of them counts as the one being
written, and what the bytes of the torn record are beside failing the CRC (a free value), are the model's choice (log entry 25),
and so is that a link whose transmitters carry no signal goes down (log entry 72) (R56, R58, R60, R371, R409, R413, R414). -/
def Obligations.FullResets : Prop :=
  (∀ (n : Nat) (s : State), 1000 ≤ n → Runs (.resetNAssert n) s fun t =>
    (∀ f : Fld, t.rd f = f.reset ∧ t.c48 f = 0) ∧ t.otp = s.otp ∧ t.journal = s.journal ∧ t.jrnlQ = s.jrnlQ ∧ t.pins.resetN = false ∧
      t.sec = { armedFull := s.sec.armedFull }) ∧
  (∀ (n : Nat) (s : State), n < 100 → exec (.resetNAssert n) s = .next s) ∧
  (∀ (n m : Nat) (s : State), n < 6800 → Runs (.vddAonDetect (n, m)) s fun t =>
    (∀ f : Fld, t.rd f = f.reset ∧ t.c48 f = 0) ∧ t.otp = s.otp ∧ t.pins.aonGood = false ∧ t.sec = {} ∧ t.jrnlQ = [] ∧
      (s.jrnlQ = [] → t.journal = s.journal) ∧ (s.jrnlQ ≠ [] → recGood (t.slotBytes s.nextSlot.1) = false) ∧
      ∀ i, i ≠ s.nextSlot.1 → t.slotBytes i = s.slotBytes i) ∧
  (∀ (n m : Nat) (s : State), 7000 < n → s.pins.aonGood = false → Runs (.vddAonDetect (n, m)) s fun t =>
    (∀ f : Fld, t.rd f = f.reset ∧ t.c48 f = 0) ∧ t.otp = s.otp ∧ t.journal = s.journal ∧ t.pins.aonGood = true ∧
      t.xo.released = s.pins.resetN) ∧
  (∀ (n m : Nat) (s : State), 6800 ≤ n → n ≤ 7000 → s.on Reg.hifStatusLinkUp = false → Runs (.vddAonDetect (n, m)) s fun t =>
    t = { s with pins := { s.pins with inRange := false } }) ∧
  (∀ (n m : Nat) (s : State), 6800 ≤ n → n < 7760 ∨ m < 17100 → s.pins.aonGood = true → s.on Reg.hifStatusLinkUp = true →
    Runs (.vddAonDetect (n, m)) s fun t => t.on Reg.hifStatusLinkUp = false ∧ t.pins = { s.pins with inRange := false } ∧ t.otp = s.otp ∧
      t.journal = s.journal ∧ t.boot = s.boot) ∧
  (∀ s : State, s.pins.resetN = false → Runs .resetNRelease s fun t => (∀ f : Fld, t.rd f = f.reset ∧ t.c48 f = 0) ∧ t.otp = s.otp ∧
    t.journal = s.journal ∧ t.jrnlQ = s.jrnlQ ∧ t.pins = { s.pins with resetN := true } ∧ t.xo.released = s.pins.aonGood) ∧
  ∀ s : State, s.on Reg.devResetStatusArmed = true → s.jrnlQ.length < 8 → Runs .resetCmdFull s fun t =>
    (∀ f : Fld, t.rd f = f.reset ∧ t.c48 f = 0) ∧ t.otp = s.otp ∧ t.journal = s.journal ∧
      ∃ r : JRec, t.jrnlQ = s.jrnlQ ++ [r] ∧ r.type = 5 ∧ r.data.getD 0 0 = 1

/-- Out of reset, in XO_GOOD a window of the detected class records its edge count and changes no other register; in XO_WAIT a
window of a frequency class goes on to state 1; in XO_MEASURE the third window of one class leads to XO_GOOD with that class as
DETECTED, to ROOT_START and to the ramp of PD1; in XO_GOOD a window of another class leads to XO_FAIL with LOSS set and source
0x50 at error. In ROOT_START with no ramp of start-up waiting: a running root that locks becomes the active root and start-up goes
on to WIPE; Root A that has not locked leads to ROOTB_START and the ramp of PD2, where none is under way; no lock of Root B either
leads, with PD3 and PD4 off, to HALT with reason ROOT in FAIL_REASON0 (R16, R23, R24, R50, R52). -/
def Obligations.XoAndRootStart : Prop :=
  (∀ (n : Nat) (s : State), s.xo.released = true → s.rd Reg.clkXoStatusState = 2 → xoClass n = s.rd Reg.clkXoStatusDetected + 2 →
    Runs (.xoWindowEnd n) s fun t => t.rd Reg.clkXoStatusCount = min n 65535 ∧ SameBut [Reg.clkXoStatusCount] s t) ∧
  (∀ (n : Nat) (s : State), s.xo.released = true → s.rd Reg.clkXoStatusState = 0 → 2 ≤ xoClass n →
    Runs (.xoWindowEnd n) s fun t => t.rd Reg.clkXoStatusState = 1 ∧ t.rd Reg.clkXoStatusCount = min n 65535 ∧
      RegsBut [Reg.clkXoStatusCount, Reg.clkXoStatusState] s t) ∧
  (∀ (n : Nat) (s : State), s.xo.released = true → s.rd Reg.clkXoStatusState = 1 → s.xo.agree = 2 → s.xo.prev = xoClass n → 2 ≤ xoClass n →
    s.pwr.bootQ = [] → s.rd Reg.pwrDomainsRamping = 0 → bit (s.rd Reg.pwrDomainsOn) 1 = false → Runs (.xoWindowEnd n) s fun t =>
      t.rd Reg.clkXoStatusState = 2 ∧ t.rd Reg.clkXoStatusDetected = xoClass n - 2 ∧ t.rd Reg.devBootPhase = 1 ∧
      t.rd Reg.clkXoStatusCount = min n 65535 ∧ t.rd Reg.pwrDomainsRamping = 2 ∧
      RegsBut [Reg.clkXoStatusState, Reg.clkXoStatusDetected, Reg.clkXoStatusCount, Reg.devBootPhase, Reg.pwrDomainsRamping] s t) ∧
  (∀ (n : Nat) (s : State), s.xo.released = true → s.rd Reg.clkXoStatusState = 2 → xoClass n ≠ s.rd Reg.clkXoStatusDetected + 2 →
    Runs (.xoWindowEnd n) s fun t => t.rd Reg.clkXoStatusState = 3 ∧ t.rd Reg.clkXoStatusLoss = 1 ∧ (t.line 0x50).cause = true ∧
      t.rd Reg.clkXoStatusCount = min n 65535 ∧
      SameBut [Reg.clkXoStatusState, Reg.clkXoStatusLoss, Reg.clkXoStatusCount] { s with lines := t.lines } t) ∧
  (∀ (r : Fin 2) (s : State), s.rd Reg.devBootPhase = 1 → s.rootRuns r = true → s.pwr.bootQ = [] →
    Runs (.startupRootLocked r) s fun t => t.rd Reg.clkShaftStatusActiveRoot = r.val ∧ t.rd Reg.devBootPhase = 2) ∧
  (∀ s : State, s.rd Reg.devBootPhase = 1 → s.pdOn 1 = true → s.rd Reg.devBootRootBStart = 0 → s.pwr.bootQ = [] →
    s.rd Reg.pwrDomainsRamping = 0 → bit (s.rd Reg.pwrDomainsOn) 2 = false →
    Runs .rootALockTimeout s fun t => t.rd Reg.devBootRootBStart = 1 ∧ t.rd Reg.pwrDomainsRamping = 4) ∧
  ∀ s : State, s.rd Reg.devBootPhase = 1 → s.pdOn 2 = true → s.on Reg.devBootRootBStart = true → s.pwr.bootQ = [] →
    bit (s.rd Reg.pwrDomainsOn) 3 = false → bit (s.rd Reg.pwrDomainsOn) 4 = false →
    Runs .rootBLockTimeout s fun t => t.rd Reg.devBootPhase = 10 ∧ t.rd Reg.devBootFailReason0 = 13

/-- At the end of WIPE with PD3 and PD4 on, READ begins with the primary copy and BOOT_COUNT reads one more than the newest
record's count, or 1 in an empty journal. A copy whose read checks pass goes to AUTH with its bytes up to LENGTH in the image
store; a primary copy that fails one of them, or whose key hash or signature fails in AUTH, leaves its reason in FAIL_REASON0 and
READ goes on with the fallback copy and an empty image store. In SHAFT, TRACK_OK or the timeout begins LANES. At the end of LANES
with every configured quad settled and the controller of the calibration idle, CALIBRATE begins with a start-up run where the
clock was active and its offset lies within 1 ppm and the ruler's tolerance (R35, R36, R46, R47, R48, R52, R56, R57, R232, R236).
-/
def Obligations.StartUpPhases : Prop :=
  (∀ s : State, s.rd Reg.devBootPhase = 2 → bit (s.rd Reg.pwrDomainsOn) 3 = true → bit (s.rd Reg.pwrDomainsOn) 4 = true →
    Runs .wipeDone s fun t => t.rd Reg.devBootPhase = 3 ∧ t.boot.cs = 0 ∧ t.boot.wiped = true ∧ t.boot.store = [] ∧
      t.rd Reg.devBootCountCount = match s.newest with | some (_, r) => wrapAdd 32 (u32 r 8) 1 | none => 1) ∧
  (∀ (p : FlashProbe) (b : List Byte) (s : State), s.rd Reg.devBootPhase = 3 → s.readFail p b = 0 →
    Runs (.imageReadDone p b) s fun t => t.rd Reg.devBootPhase = 4 ∧ t.boot.store = slice b 0 (imgLen b) ∧
      t = { s with regs := t.regs, boot := t.boot, out := t.out } ∧ RegsBut [Reg.devBootPhase] s t) ∧
  (∀ (p : FlashProbe) (b : List Byte) (s : State), s.rd Reg.devBootPhase = 3 → s.readFail p b ≠ 0 → s.boot.cs = 0 →
    Runs (.imageReadDone p b) s fun t => t.rd Reg.devBootPhase = 3 ∧ t.boot.cs = 1 ∧ t.boot.store = [] ∧
      t.rd Reg.devBootFailReason0 = s.readFail p b ∧ RegsBut [Reg.devBootPhase, Reg.devBootFailReason0] s t) ∧
  (∀ s : State, s.rd Reg.devBootPhase = 4 → s.sigFail s.boot.store ≠ 0 → s.boot.cs = 0 → Runs .signatureVerifyDone s fun t =>
      t.rd Reg.devBootPhase = 3 ∧ t.boot.cs = 1 ∧ t.boot.store = [] ∧ t.rd Reg.devBootFailReason0 = s.sigFail s.boot.store ∧
      RegsBut [Reg.devBootPhase, Reg.devBootFailReason0] s t) ∧
  (∀ s : State, s.rd Reg.devBootPhase = 6 → s.on Reg.synTrackTrackOk = true →
    Runs .shaftTrackDone s fun t => t.rd Reg.devBootPhase = 7) ∧
  (∀ s : State, s.rd Reg.devBootPhase = 6 → Runs .shaftTimeout s fun t => t.rd Reg.devBootPhase = 7) ∧
  ∀ (x : Int) (s : State), s.rd Reg.devBootPhase = 7 → s.quadsSettled = true → s.calState = 0 → x.natAbs ≤ 1000 + s.rulerTol →
    Runs (.lanesDone true x) s fun t => t.rd Reg.devBootPhase = 8 ∧ t.dress.clkLost = false ∧ t.dress.startup = true ∧ t.calState = 1 ∧
      t.rd Reg.calTriggerCause = 1

/-- In AUTH, where the key hash and the signature of the stored copy pass and its records hold no failure, as the REVOKED fuses
stood at the last full reset, and where it has a CLOCK_PLAN that names the detected XO frequency, SOURCE names the copy, start-up
goes on to APPLY, and no register outside DEV.BOOT differs (R46, R47, R48, R49, R52, R365). -/
def Obligations.SignedImageAccepted : Prop :=
  ∀ (s : State) (l : List Rec), s.rd Reg.devBootPhase = 4 → s.sigFail s.boot.store = 0 → imgRecs s.boot.store = some l →
    contentFail (s.rd Reg.devIdStepping) s.imageKeyOk l = none → (hasRec l 0x10 = true → u8 (recOf l 0x10) 3 = s.rd Reg.clkXoStatusDetected) →
    s.boot.cs ≤ 1 → Runs .signatureVerifyDone s fun t =>
      t.rd Reg.devBootSource = s.boot.cs + 1 ∧ t.rd Reg.devBootPhase = 5 ∧ t.boot.accepted = true ∧ t.boot.store = s.boot.store ∧
      t = { s with regs := t.regs, boot := t.boot } ∧ RegsBut [Reg.devBootSource, Reg.devBootPhase] s t

/-- In APPLY, APPLY_DONE leads to SHAFT: the image is applied, IMG_SEQ shows its SEQ, the image store is empty, and the fuses, the
journal and the input pins are as before. With no ramp of start-up waiting, the registers of every block but those of the parts
that now start (DEV, REFSEL, SYN, TK, TT, FAB, RED, FLT, PWR and the interrupt status) read as the application of the records, in
their order and REGWRITE last, leaves them; the active timekeeper is the active root's and its unit is ACTIVE; SW_REQ is INIT_REQ.
Where no record is a REGWRITE, NODE_ID and IMG_BUILD are those of IDENTITY (R42, R44, R51, R52, R154, R375). -/
def Obligations.ApplyRuns : Prop :=
  ∀ s : State, s.rd Reg.devBootPhase = 5 → Runs .applyDone s fun t => t.rd Reg.devBootPhase = 6 ∧
    t.boot.applied = true ∧ t.boot.store = [] ∧ t.otp = s.otp ∧ t.journal = s.journal ∧ t.pins = s.pins ∧ t.boot.imgSeq = imgSeqOf s.boot.store ∧
    let l := (imgRecs s.boot.store).getD []
    let a := ({ s with boot := { s.boot with imgFlags := imgFlagsOf s.boot.store, imgSeq := imgSeqOf s.boot.store } }.wr Reg.devImgSeqSeq
      (imgSeqOf s.boot.store)).applyImage l
    ((∀ r ∈ l, r.1 ≠ 0xFFF) → t.rd Reg.devNodeIdLoLo = u32 (recOf l 0x01) 4 ∧ t.rd Reg.devNodeIdHiHi = u32 (recOf l 0x01) 8 ∧
      t.rd Reg.devImgBuildBuild = u32 (recOf l 0x01) 12 ∧ t.rd Reg.devImgSeqSeq = imgSeqOf s.boot.store) ∧
    (a.pwr.bootQ = [] → t.rd Reg.tkStatusActive = a.activeRoot ∧ t.unit (2 + a.activeRoot) = unitActive ∧
      t.rd Reg.pwrStatusSwReq = a.rd Reg.pwrCfgInitReq ∧ ∀ f : Fld, f.lo < 32 →
        may (maskOf [.regDev, .regRefsel, .regSyn, .regTk, .regTt, .regFab, .regRed, .regFlt, .regPwr, .intStatus]) f.key = false →
          t.rd f = a.rd f)

/-- A quad tick enables the lowest configured quad of a powered quadrant that is not yet enabled, and changes nothing else; a quad
that has not locked in 10 ms is reported and settled; a verified floor word holds SEQ and its complement and FLOOR_RAISED reads 1;
where the accepted image has PCIE_REF and no clock is present on K14 at 100 ms, it is reported as source 0x51; outside a change of
power state, a verified journal write takes the oldest waiting record into the slot after the newest; JRNL_IDX copies a slot into
JRNL_DATA. That the quad enabled is the lowest of them is the model's choice (log entry 26) (R34, R51, R56, R57, R340, R364,
R381). -/
def Obligations.QuadsFloorAndJournal : Prop :=
  (∀ (q : Nat) (s : State), (List.range 32).find? (fun q => s.quadUsed q && s.pdOn (5 + q / 8) && !bit s.boot.quadsOn q) = some q →
    Runs .quadEnableTick s fun t => bit t.boot.quadsOn q = true ∧ t = { s with boot := t.boot }) ∧
  (∀ (q : Fin 32) (s : State), bit s.boot.quadsOn q = true → bit s.boot.quadsDone q = false →
    Runs (.quadLockTimeout q) s fun t => bit t.boot.quadsDone q = true ∧ (t.line (0x60 + q)).cause = true ∧
      t = { s with boot := t.boot, lines := t.lines }) ∧
  (∀ (i : Nat) (s : State), s.boot.floorBusy = true → s.floorFree = some i → s.boot.imgSeq < 2 ^ 32 →
    Runs (.floorRaiseDone true) s fun t => t.floorWord i = s.boot.imgSeq + (2 ^ 32 - 1 - s.boot.imgSeq) * 2 ^ 32 ∧
      t.rd Reg.devBootFloorRaised = 1 ∧ t.boot.floorBusy = false ∧ t.otp.lc = s.otp.lc ∧ t.otp.keys = s.otp.keys) ∧
  (∀ s : State, s.boot.accepted = true → s.boot.pcieRef = true → s.pins.pcieClk = false →
    Runs .k14LateCheck s fun t => (t.line 0x51).cause = true ∧ t = { s with boot := t.boot, lines := t.lines }) ∧
  (∀ (r : JRec) (l : List JRec) (s : State), s.jrnlQ = r :: l → s.pwrState ≠ pwrChanging →
    Runs (.journalWriteDone true) s fun t => t.jrnlQ = l ∧ t.slotBytes s.nextSlot.1 = r.bytes s.nextSlot.2 ∧
      (∀ i, i ≠ s.nextSlot.1 → t.slotBytes i = s.slotBytes i) ∧ t.otp = s.otp) ∧
  ∀ (v : Word) (s : State), Runs (.jrnlIdxWrite v) s fun t => t.rd Reg.devJrnlIdxSlot = v.toNat % 8192 ∧
    (∀ k, k < 8 → t.rd (Reg.devJrnlDataWord k) = u32 (s.slotBytes (v.toNat % 8192)) (4 * k)) ∧
    SameBut (Reg.devJrnlIdxSlot :: (List.range 8).map Reg.devJrnlDataWord) s t

/-- Out of reset, RESET_KEY 0x4B59 arms the keyed reset, another value disarms it, and the arm expires; a RESET_CMD with another
ACTION or without the arm sets REFUSED and disarms. With none in progress, in HALT, and in RUN under an image with NVM_HOST, a
flash command of at most 256 bytes goes out on SPI with BUSY 1, and its completion clears BUSY; in RUN under another image it is
refused with DENIED. A write of FMETER_CTL with START starts a measurement of the chosen domain, whose count, at the end of the
window, arrives in RESULT. The frequency meter is Table CK-16 of chapter 01 (R60, R61, 01_clock_plan.md, 02_image_and_startup.md).
-/
def Obligations.FlashMeterAndKeys : Prop :=
  (∀ (v : Word) (s : State), s.inReset = false → Runs (.resetKeyWrite v) s fun t =>
    t.rd Reg.devResetStatusArmed = (if v.toNat % 65536 = 0x4B59 then 1 else 0) ∧ SameBut [Reg.devResetStatusArmed] s t) ∧
  (∀ s : State, Runs .resetArmExpire s fun t => t.rd Reg.devResetStatusArmed = 0 ∧ SameBut [Reg.devResetStatusArmed] s t) ∧
  (∀ (a : Fin 4) (s : State), (a.val ≠ 1 ∧ a.val ≠ 2) ∨ s.on Reg.devResetStatusArmed = false → Runs (.resetCmdRefused a) s fun t =>
    t.rd Reg.devResetStatusRefused = 1 ∧ t.rd Reg.devResetStatusArmed = 0 ∧
      SameBut [Reg.devResetStatusRefused, Reg.devResetStatusArmed] s t) ∧
  (∀ (v : Word) (s : State), bit v.toNat 31 = true → s.boot.nvmBusy = none → v.toNat % 512 ≤ 256 →
    (s.rd Reg.devBootPhase = 10 ∨ (s.rd Reg.devBootPhase = 9 ∧ bit s.boot.imgFlags 1 = true) →
      Runs (.nvmCmdGo v) s fun t => t.rd Reg.devNvmStatusBusy = 1 ∧ t.boot.nvmBusy.isSome = true ∧
        ∃ a d, t.out = (s.send (.spi (v.toNat / 2 ^ 30 % 2) (v.toNat / 2 ^ 16 % 256) a 0 d)).out) ∧
    (s.rd Reg.devBootPhase = 9 → bit s.boot.imgFlags 1 = false → Runs (.nvmCmdGo v) s fun t => t.rd Reg.devNvmStatusDenied = 1 ∧
      t = { s with regs := t.regs })) ∧
  (∀ (d : List Byte) (n : Nat) (s : State), s.boot.nvmBusy = some n → Runs (.nvmCmdDone d) s fun t =>
    t.rd Reg.devNvmStatusBusy = 0 ∧ t.boot.nvmBusy = none ∧ t.out = s.out ∧
      RegsBut (Reg.devNvmStatusBusy :: (List.range 64).map Reg.devNvmBufData) s t) ∧
  (∀ (v : Word) (s : State), bit v.toNat 31 = true → Runs (.fmeterStart v) s fun t =>
    t.fmeter = some (v.toNat % 16, v.toNat / 256 % 4) ∧ RegsBut [Reg.clkFmeterCtlSel, Reg.clkFmeterCtlWindow] s t ∧
      t = { s with regs := t.regs, fmeter := t.fmeter }) ∧
  ∀ (n k w : Nat) (s : State), s.fmeter = some (k, w) → k ≠ 0 → k ≠ 15 → Runs (.fmeterWindowEnd n) s fun t =>
    t.rd Reg.clkFmeterResultCount = n % 2 ^ 32 ∧ t.fmeter = none ∧ RegsBut [Reg.clkFmeterResultCount] s t

/-- After APPLY, outside HALT and with no host-view reset in progress, RESET_CMD with ACTION 2 while armed, a PCIe FLR and a hot
reset each set HV_BUSY and count in HV_COUNT; the two of the link also leave the bus-master enable and the MSI-X enable 0. The end
of the reset clears HV_BUSY, the ring enables and the interrupt mask. PERST_N released and the reference clock present or lost
change that input pin. In all of them the fuses and the journal stand (R59, R60, R389, R405). -/
def Obligations.HostViewReset : Prop :=
  (∀ s : State, s.hostOpen = true → s.on Reg.devResetStatusHvBusy = false →
    (s.on Reg.devResetStatusArmed = true → Runs .resetCmdHostView s fun t => t.rd Reg.devResetStatusHvBusy = 1 ∧
      t.rd Reg.devResetStatusHvCount = satAdd Reg.devResetStatusHvCount.width (s.rd Reg.devResetStatusHvCount) 1 ∧
      t.rd Reg.devResetStatusArmed = 0 ∧ t.otp = s.otp ∧ t.journal = s.journal ∧ t.pwr = s.pwr) ∧
    ∀ p : Bool, ∀ c ∈ [Instr.pcieFlr, .pcieHotReset p], Runs c s fun t => t.rd Reg.devResetStatusHvBusy = 1 ∧
      t.rd Reg.devResetStatusHvCount = satAdd Reg.devResetStatusHvCount.width (s.rd Reg.devResetStatusHvCount) 1 ∧
      t.on Reg.hifStatusBme = false ∧ t.on Reg.hifStatusMsixEn = false ∧ t.otp = s.otp ∧ t.journal = s.journal ∧ t.pwr = s.pwr) ∧
  (∀ s : State, s.on Reg.devResetStatusHvBusy = true → Runs .hvResetDone s fun t => t.rd Reg.devResetStatusHvBusy = 0 ∧
    (∀ r < 6, t.ringOn r = false) ∧ t.rd Reg.hifIntMaskMask = Reg.hifIntMaskMask.reset ∧ t.otp = s.otp ∧ t.journal = s.journal ∧ t.boot = s.boot) ∧
  (∀ s : State, Runs .perstNRelease s fun t => t.pins = { s.pins with perstN := true } ∧ t.otp = s.otp ∧ t.journal = s.journal ∧ t.boot = s.boot) ∧
  ∀ (present : Bool) (s : State), Runs (.pcieRefclkLoss present) s fun t => t.pins = { s.pins with pcieClk := present } ∧ t.otp = s.otp ∧
    t.journal = s.journal ∧ t.boot = s.boot

/-- A command of PWR.HOST_REQ while K9 stands still has no effect; the rest is of one while K9 runs. A request of host software
for RUN, TIMING, KEEP, DORMANT or OFF with the current GEN and HOST_EN = 1 is answered OK, SW_REQ holds it and, in START, HALT and
CHANGING with a ramp under way, TARGET takes the effective request and nothing else differs. Each of them with another GEN is
answered STALE, and with the current GEN but HOST_EN = 0 NOT_ALLOWED, as is REQ 5 to 7 with the current GEN; nothing else differs.
From RUN with a frame in the buffer, PIN_EN = 0 and no shed, a request for TIMING, KEEP or DORMANT goes to CHANGING with a drain.
In reset a PWR_REQ value changes nothing; out of it, one stable for 1 ms is the pin request, and in START, HALT and CHANGING with
a ramp under way nothing but TARGET follows (R374, R375, R376, R377, R413). -/
def Obligations.PowerRequests : Prop :=
  (∀ (g : Fin 65536) (s : State), ∀ p ∈ [(Instr.pwrHostReqRun g, 0), (Instr.pwrHostReqTiming g, 1), (Instr.pwrHostReqKeep g, 2),
      (Instr.pwrHostReqDormant g, 3), (Instr.pwrHostReqOff g, 4)],
    (s.k1On = false → exec p.1 s = .next s) ∧
    (s.k1On = true → g.val = s.rd Reg.pwrStatusGen → s.on Reg.pwrCfgHostEn = true →
      Runs p.1 s (fun t => t.rd Reg.pwrStatusSwReq = p.2 ∧ t.rd Reg.pwrCmdStatusResult = 0) ∧
      (s.pwrState = pwrStart ∨ s.pwrState = pwrHalt ∨ (s.pwrState = pwrChanging ∧ s.on Reg.pwrDomainsRamping = true) → Runs p.1 s fun t =>
        t.rd Reg.pwrStatusTarget = t.pwrEffective % 2 ^ Reg.pwrStatusTarget.width ∧
        SameBut [Reg.pwrStatusSwReq, Reg.pwrCmdStatusResult, Reg.pwrStatusTarget] s t)) ∧
    (s.k1On = true → g.val ≠ s.rd Reg.pwrStatusGen → Runs p.1 s fun t => t.rd Reg.pwrCmdStatusResult = 1 ∧ SameBut [Reg.pwrCmdStatusResult] s t) ∧
    (s.k1On = true → g.val = s.rd Reg.pwrStatusGen → s.on Reg.pwrCfgHostEn = false → Runs p.1 s fun t =>
      t.rd Reg.pwrCmdStatusResult = 2 ∧ SameBut [Reg.pwrCmdStatusResult] s t)) ∧
  (∀ (g : Fin 65536) (s : State), s.k1On = true → g.val = s.rd Reg.pwrStatusGen → Runs (.pwrHostReqReserved g) s fun t =>
    t.rd Reg.pwrCmdStatusResult = 2 ∧ SameBut [Reg.pwrCmdStatusResult] s t) ∧
  (∀ (g : Fin 65536) (s : State), s.k1On = true → g.val = s.rd Reg.pwrStatusGen → s.on Reg.pwrCfgHostEn = true → s.pwrState = pwrRun →
    s.on Reg.pwrCfgPinEn = false → s.on Reg.pwrStatusShed = false → s.fab.frames ≠ [] →
    ∀ p ∈ [(Instr.pwrHostReqTiming g, 1), (Instr.pwrHostReqKeep g, 2), (Instr.pwrHostReqDormant g, 3)], Runs p.1 s fun t =>
      t.pwrState = pwrChanging ∧ t.pwr.drain = true ∧ t.rd Reg.pwrStatusTarget = p.2 ∧ t.fab = s.fab) ∧
  ∀ (r : Fin 4) (s : State), (s.inReset = true → exec (.pwrReqPinStable r) s = .next s) ∧
   (s.inReset = false → Runs (.pwrReqPinStable r) s (fun t => t.rd Reg.pwrStatusPinReq = r.val ∧ t.pins.pwrReq = r.val) ∧
    (s.pwrState = pwrStart ∨ s.pwrState = pwrHalt ∨ (s.pwrState = pwrChanging ∧ s.on Reg.pwrDomainsRamping = true) →
      Runs (.pwrReqPinStable r) s fun t => RegsBut [Reg.pwrStatusPinReq, Reg.pwrStatusTarget] s t))

/-- In START with no further ramp waiting, a ramp upwards that completes turns its domain on and ends the ramp, and for PD3 to
PD10 no other register differs. The end of the wipe of a domain that is on opens its clock gates, and leaves every cell of the
packet buffer that no frame holds zero where the domain is PD4. With a ramp under way, the drain timeout ends the drain and leaves
no frame waiting, held, queued or leaving. POWER_FAIL_N for 100 ns or more in RUN, TIMING and KEEP, with no shed in progress, sets
SHED, counts it and goes to CHANGING without a drain; below 100 ns it changes nothing. 1 us later the shed no longer waits, and a
ramp under way goes downwards. The release of POWER_FAIL_N clears SHED, and in CHANGING with a ramp under way nothing but TARGET
follows (R55, R377, R379, R383). -/
def Obligations.RampsAndShed : Prop :=
  (∀ (d : Nat) (s : State), s.rampingDomain = some d → s.pwr.up = true → s.pwrState = pwrStart → s.pwr.bootQ = [] →
    Runs .domainRampDone s fun t => bit (t.rd Reg.pwrDomainsOn) d = true ∧ t.rd Reg.pwrDomainsRamping = 0 ∧
      (3 ≤ d → RegsBut [Reg.pwrDomainsOn, Reg.pwrDomainsRamping] s t)) ∧
  (∀ (d : Fin 11) (s : State), bit (s.rd Reg.pwrDomainsOn) d = true → s.pdOn d = false → bit s.sec.scanStop d = false →
    Runs (.domainWipeDone d) s fun t => t.pdOn d = true ∧
      (d.val = 4 → ∀ i, t.cellOwner i = none → t.memRead .buffer i = List.replicate 256 0)) ∧
  (∀ s : State, s.pwr.drain = true → s.on Reg.pwrDomainsRamping = true → Runs .pwrDrainTimeout s fun t => t.pwr.drain = false ∧
    t.fab.wait = [] ∧ t.fab.later = [] ∧ t.fab.held = [] ∧ t.fab.queues = [] ∧ t.fab.sending = [] ∧ t.fab.flf = [] ∧ t.fab.hostq = []) ∧
  (∀ (n : Nat) (s : State), 100 ≤ n → s.pwrState = pwrRun ∨ s.pwrState = pwrTiming ∨ s.pwrState = pwrKeep →
    s.on Reg.pwrStatusShed = false → Runs (.powerFailAssert n) s fun t =>
    t.on Reg.pwrStatusShed = true ∧ t.rd Reg.pwrCountsSheds = satAdd Reg.pwrCountsSheds.width (s.rd Reg.pwrCountsSheds) 1 ∧
    t.pwrState = pwrChanging ∧ t.pwr.drain = false ∧ t.pwr.shedWait = true ∧ t.pins.powerFail = true ∧ t.fab = s.fab) ∧
  (∀ (n : Nat) (s : State), n < 100 → exec (.powerFailAssert n) s = .next s) ∧
  (∀ s : State, s.pwr.shedWait = true → s.on Reg.pwrDomainsRamping = true → Runs .shedRampStart s fun t =>
    t.pwr.shedWait = false ∧ t.pwr.up = false ∧ t = { s with pwr := t.pwr }) ∧
  ∀ s : State, s.on Reg.pwrStatusShed = true → Runs .shedRelease s (fun t => t.on Reg.pwrStatusShed = false ∧ t.pins.powerFail = false) ∧
    (s.pwrState = pwrChanging → s.on Reg.pwrDomainsRamping = true → Runs .shedRelease s fun t =>
      RegsBut [Reg.pwrStatusShed, Reg.pwrStatusTarget] s t)

/-- From a port that may reach the mailbox and that the other port has not claimed, code 0 and the reserved codes only claim it.
There, outside a life-cycle transition and OFF: GET_NONCE makes the nonce the random number and valid; SET of the present level
succeeds and leaves it, SET of a lower one takes effect at once, SET of a higher one where Table SP-7 shows SET takes effect at
once for OBSERVE and arms FULL, one where it does not is refused with 5, and code 3 with 2; DISARM clears an armed FULL; RELEASE
ends the claim. SUBMIT there, outside OFF, uses up the nonce; during another request it is answered BUSY, else it completes with
the result of the first check that fails, and the claim with it, or goes on as the request in progress. A write from the other
port than the claim's is only counted. That SET with code 3 is answered 2, FORMAT, is the model's choice (log entry 22): R369 and
Table SP-7 give that code no result (R366, R367, R369, R371, R425). -/
def Obligations.Mailbox : Prop :=
  (∀ (j : Bool) (c : Nat) (s : State), s.mboxReach j = true → (s.mboxClaim = 0 ∨ s.mboxClaim = mboxPort j) →
    Runs (.secCmdNone j) s (fun t => t.mboxClaim = mboxPort j ∧ SameBut [Reg.secReqStatusClaim] s t) ∧
    Runs (.secCmdReserved j c) s (fun t => t.mboxClaim = mboxPort j ∧ SameBut [Reg.secReqStatusClaim] s t)) ∧
  (∀ (j : Bool) (x : BitVec 256) (s : State), s.mboxReach j = true → (s.mboxClaim = 0 ∨ s.mboxClaim = mboxPort j) →
    s.sec.trans = none → s.pwrState ≠ pwrOff →
    Runs (.secGetNonce j x) s (fun t => t.nonce = x.toNat ∧ t.on Reg.secReqStatusNonceValid = true ∧
      SameBut (Reg.secReqStatusClaim :: Reg.secReqStatusNonceValid :: (List.range 8).map Reg.secNonceNonce) s t) ∧
    Runs (.secDisarm j) s (fun t => t.sec.armedFull = false ∧ t.rd Reg.secReqStatusResult = 0 ∧
      RegsBut [Reg.secReqStatusClaim, Reg.secReqStatusResult] s t) ∧
    Runs (.secRelease j) s (fun t => t.mboxClaim = 0 ∧ SameBut [Reg.secReqStatusClaim] s t)) ∧
  (∀ (j : Bool) (l : Fin 4) (s : State), s.mboxReach j = true → (s.mboxClaim = 0 ∨ s.mboxClaim = mboxPort j) →
    s.sec.trans = none → s.pwrState ≠ pwrOff → let now := s.rd Reg.secDbgLevel
    (l.val = now → l.val < 3 → Runs (.secSet j l) s fun t => t.rd Reg.secReqStatusResult = 0 ∧
      SameBut [Reg.secReqStatusClaim, Reg.secReqStatusResult] s t) ∧
    (l.val < now → now < 3 → Runs (.secSet j l) s fun t => t.rd Reg.secDbgLevel = l.val ∧ t.rd Reg.secReqStatusResult = 0 ∧
      t.rd Reg.secDbgLeaseLeft = 0 ∧ t.sec.armedFull = s.sec.armedFull) ∧
    (now < l.val → l.val < 3 → dbgSet s.lcState l = true → Runs (.secSet j l) s fun t => t.rd Reg.secReqStatusResult = 0 ∧
      (l.val = 1 → t.rd Reg.secDbgLevel = 1) ∧ (l.val = 2 → t.rd Reg.secDbgLevel = now ∧ t.sec.armedFull = true)) ∧
    (now < l.val → l.val < 3 → dbgSet s.lcState l = false → Runs (.secSet j l) s fun t => t.rd Reg.secReqStatusResult = 5 ∧
      SameBut [Reg.secReqStatusClaim, Reg.secReqStatusResult] s t) ∧
    (l.val = 3 → Runs (.secSet j l) s fun t => t.rd Reg.secReqStatusResult = 2 ∧
      SameBut [Reg.secReqStatusClaim, Reg.secReqStatusResult] s t)) ∧
  (∀ (j : Bool) (s : State), s.mboxReach j = true → (s.mboxClaim = 0 ∨ s.mboxClaim = mboxPort j) → s.pwrState ≠ pwrOff →
    (s.on Reg.secReqStatusBusy = true → Runs (.secSubmit j) s fun t => t.rd Reg.secReqStatusResult = 1 ∧
      t.on Reg.secReqStatusNonceValid = false ∧ t.sec = s.sec) ∧
    (s.on Reg.secReqStatusBusy = false → Runs (.secSubmit j) s fun t => t.on Reg.secReqStatusNonceValid = false ∧ t.otp = s.otp ∧
      ((s.reqCheck s.reqBytes ≠ 0 ∧ t.rd Reg.secReqStatusResult = s.reqCheck s.reqBytes ∧ t.mboxClaim = 0 ∧ t.sec.request = none) ∨
       (s.reqCheck s.reqBytes = 0 ∧ t.rd Reg.secReqStatusBusy = 1 ∧ t.sec.request.isSome = true)))) ∧
  ∀ (j : Bool) (a : Nat) (v : Word) (s : State), s.mboxReach j = true → s.mboxClaim ≠ 0 → s.mboxClaim ≠ mboxPort j →
    Runs (.mailboxForeignWrite j a v) s fun t => t.rd Reg.secReqStatusForeign = satAdd Reg.secReqStatusForeign.width (s.rd Reg.secReqStatusForeign) 1 ∧
      SameBut [Reg.secReqStatusForeign] s t

/-- A verified LIFECYCLE request starts the transition. A verified KEY_ADD puts the hash into its slot, KEY_REVOKE blows REVOKED
of its slot, and DEBUG sets a level other than FULL at once and arms FULL, each with result 0 and the claim ended; where the
read-back of KEY_ADD or KEY_REVOKE fails the result is 8, OTP_ERR is set, no other slot changes and no revoked key is good again.
A good read-back of the life-cycle fuse blows the fuse of the new state and no other, and clears an armed FULL; a bad one ends the
transition with result 8 and leaves the fuses. The journal clear leaves one record, of type 3 with the old and the new state, at
the end of a full reset. The timeouts end a claim, a nonce and, in FIELD, the lease of OBSERVE (R361, R362, R363, R365, R367,
R369, R370, R371). -/
def Obligations.VerifiedRequests : Prop :=
  (∀ (q : SecReq) (s : State), s.sec.request = some q → q.type = 1 → Runs .reqLifecycle s fun t =>
    t.sec.request = none ∧ t.sec.trans = some (s.lcState, q.target, false) ∧ t = { s with sec := t.sec }) ∧
  (∀ (q : SecReq) (s : State), s.sec.request = some q → q.type = 2 → Runs .reqDebug s fun t =>
    t.rd Reg.secReqStatusResult = 0 ∧ t.mboxClaim = 0 ∧ t.otp = s.otp ∧ (q.target < 2 → t.rd Reg.secDbgLevel = q.target) ∧
    (q.target = 2 → s.rd Reg.secDbgLevel ≠ 2 → t.rd Reg.secDbgLevel = s.rd Reg.secDbgLevel ∧ t.sec.armedFull = true)) ∧
  (∀ (q : SecReq) (b : Bool) (s : State), s.sec.request = some q → q.type = 3 → Runs (.reqKeyAdd b) s fun t =>
    (∀ k, k ≠ q.target → t.keyHash k = s.keyHash k) ∧ t.otp.lc = s.otp.lc ∧ t.otp.revoked = s.otp.revoked ∧ t.mboxClaim = 0 ∧
    (b = true → t.keyHash q.target = q.arg ∧ t.rd Reg.secReqStatusResult = 0) ∧
    (b = false → t.rd Reg.secReqStatusResult = 8 ∧ t.on Reg.secOtpStatusOtpErr = true)) ∧
  (∀ (q : SecReq) (b : Bool) (s : State), s.sec.request = some q → q.type = 4 → Runs (.reqKeyRevoke b) s fun t =>
    t.otp.keys = s.otp.keys ∧ t.otp.lc = s.otp.lc ∧ t.mboxClaim = 0 ∧ (∀ k, bit s.otp.revoked k = true → bit t.otp.revoked k = true) ∧
    (b = true → bit t.otp.revoked q.target = true ∧ t.rd Reg.secReqStatusResult = 0) ∧
    (b = false → t.rd Reg.secReqStatusResult = 8 ∧ t.on Reg.secOtpStatusOtpErr = true)) ∧
  (∀ (x y : Nat) (s : State), s.sec.trans = some (x, y, false) →
    Runs (.lcFuseBlowDone true) s (fun t =>
      t.otp = { s.otp with lc := setBit s.otp.lc (y - 1) true } ∧ t.sec.trans = some (x, y, true) ∧ t.sec.armedFull = false ∧
      t = { s with otp := t.otp, sec := t.sec }) ∧
    Runs (.lcFuseBlowDone false) s (fun t => t.otp = s.otp ∧ t.sec.trans = none ∧ t.rd Reg.secReqStatusResult = 8 ∧
      t.on Reg.secOtpStatusOtpErr = true)) ∧
  (∀ (x y : Nat) (s : State), s.sec.trans = some (x, y, true) → x < 256 → y < 256 → Runs .lcJournalClearDone s fun t =>
    t.journal.length = 1 ∧ t.otp = s.otp ∧ (∃ r, t.newest = some (0, r) ∧ u8 r 0 = 3 ∧ u8 r 24 = x ∧ u8 r 25 = y) ∧
      ∀ f : Fld, t.rd f = f.reset) ∧
  (∀ s : State, Runs .mailboxClaimTimeout s fun t => t.mboxClaim = 0 ∧ SameBut [Reg.secReqStatusClaim] s t) ∧
  (∀ s : State, Runs .nonceExpire s fun t => t.on Reg.secReqStatusNonceValid = false ∧ SameBut [Reg.secReqStatusNonceValid] s t) ∧
  ∀ s : State, s.lcState = 2 → s.rd Reg.secDbgLevel = 1 → Runs .debugLeaseExpire s fun t => t.rd Reg.secDbgLevel = 0 ∧
    t.rd Reg.secDbgLeaseLeft = 0 ∧ SameBut [Reg.secDbgLevel, Reg.secDbgLeaseLeft] s t

/-- In full reset BYPASS, IDCODE and TRST_N have no effect; else BYPASS and IDCODE answer at every level, and TRST_N makes IDCODE
the instruction. With JTAG_EN = 1, SEC_ACCESS returns a word of the mailbox that it reads and writes one as a register write
through the TAP does. At OBSERVE and above REG_READ returns the word with its status, or zero with the status where there is no
clock or no domain. At FULL: REG_WRITE writes the fields of a word in a powered domain and returns its status, and with a bad
status writes nothing; MEM_ACCESS returns an entry it reads with its status, or zero with the status where there is no clock or no
domain, and an entry it writes in the tables, the tag buffer or the journal, a learn record, a result or a cell of the buffer that
no frame holds, holds the bytes, the others theirs; SAMPLE/PRELOAD and EXTEST return the pins and load the boundary register; SCAN
stops the clocks of the powered domains it names. Below FULL none of the last five changes anything but the TAP and what it shifts
out. IDCODE as the instruction that TRST_N leaves, the numbers of the status and the addressing of MEM_ACCESS are the model's
choice (log entry 24) (R368, R372, R378, R413, 16_security_debug_power.md). -/
def Obligations.JtagPort : Prop :=
  (∀ (l : List Bool) (s : State), s.inReset = false → Runs (.jtagBypass l) s fun t =>
    t.out = (s.send (.tdo ((false :: l).take l.length))).out ∧ t = { s with out := t.out, sec := t.sec } ∧
    t.sec = { s.sec with tapIr := t.sec.tapIr }) ∧
  (∀ s : State, s.inReset = false → Runs .jtagIdcode s fun t =>
    t.out = (s.send (.tdo ((List.range 32).map fun i => bit (s.rd Reg.secJtagIdIdcode) i))).out ∧
    t = { s with out := t.out, sec := t.sec } ∧ t.sec = { s.sec with tapIr := t.sec.tapIr }) ∧
  (∀ s : State, s.inReset = false → Runs .jtagTrst s fun t => t = { s with sec := { s.sec with tapIr := 1 } }) ∧
  (∀ (l : List Bool) (s : State), s.inReset = true → ∀ c ∈ [Instr.jtagBypass l, .jtagIdcode, .jtagTrst], exec c s = .next s) ∧
  (∀ (a : Nat) (v : Word) (l : List Fld) (s : State), s.on Reg.secCfgJtagEn = true → s.inReset = false → inMailbox a = true →
    Runs (.jtagSecAccess false a v) s (fun t => t.out = (s.send (.readData [BitVec.ofNat 32 ((s.tap 0x10).readReg 2 a).1])).out ∧
      t = { s with out := t.out, sec := t.sec, hif := t.hif }) ∧
    (fieldsAt a = some l → Runs (.jtagSecAccess true a v) s fun t => t = (s.tap 0x10).writeReg 2 a v.toNat l)) ∧
  (∀ (a : Nat) (s : State), s.dbgGrants 1 = true →
    (s.jtagStatus a = 0 → Runs (.jtagRegRead a) s fun t => t.otp = s.otp ∧ t.journal = s.journal ∧
      t.out = (s.send (.readData [BitVec.ofNat 32 ((s.tap 0x11).readReg 2 a).1, 0])).out) ∧
    (s.jtagStatus a ≠ 0 → Runs (.jtagRegRead a) s fun t => t.regs = s.regs ∧
      t.out = (s.send (.readData [0, BitVec.ofNat 32 (s.jtagStatus a)])).out)) ∧
  (∀ (a : Nat) (v : Word) (l : List Fld) (s : State), s.dbgGrants 2 = true → a % 4 = 0 → fieldsAt a = some l →
    (s.jtagStatus a = 0 → Runs (.jtagRegWrite a v) s fun t => t = ((s.tap 0x12).writeReg 2 a v.toNat l).send (.readData [0])) ∧
    (s.jtagStatus a ≠ 0 → Runs (.jtagRegWrite a v) s fun t =>
      t = (s.tap 0x12).send (.readData [BitVec.ofNat 32 (s.jtagStatus a)]))) ∧
  (∀ (v : Word) (s : State), s.dbgGrants 2 = true → s.jtagStatus 0x2D00018 = 0 → Runs (.jtagRegWrite 0x2D00018 v) s fun t =>
    t.rd Reg.hifIrqMaskMask = v.toNat % 2 ^ 19 ∧ t.out = (s.send (.readData [0])).out ∧ RegsBut [Reg.hifIrqMaskMask] s t) ∧
  (∀ (m : MemKind) (i : Nat) (s : State), s.dbgGrants 2 = true →
    (s.domStatus (memDomain m i) = 0 → Runs (.jtagMemAccess m i none) s fun t =>
      t.out = (s.send (.readData (wordsUp (s.memRead m i) ++ [0]))).out ∧ t = { s with out := t.out, sec := t.sec, free := t.free }) ∧
    (s.domStatus (memDomain m i) ≠ 0 → Runs (.jtagMemAccess m i none) s fun t =>
      t.out = (s.send (.readData (wordsUp (le (memSize m) 0) ++ [BitVec.ofNat 32 (s.domStatus (memDomain m i))]))).out ∧
      t = { s with out := t.out, sec := t.sec })) ∧
  (∀ (b : List Byte) (s : State), s.dbgGrants 2 = true →
    ∀ x ∈ [(MemKind.fdb, 262144, 16), (.flow, 65536, 16), (.vlan, 4096, 40), (.tagBuffer, 1024, 64), (.journal, 8192, 32),
      (.lnq, s.tbl.lnq.length, 32), (.tcr, s.hif.tcr.length, 16)], s.domStatus (memDomain x.1 0) = 0 → b.length = x.2.2 → ∀ i, i < x.2.1 →
      Runs (.jtagMemAccess x.1 i (some b)) s fun t =>
        t.memRead x.1 i = b ∧ (∀ j, j < x.2.1 → j ≠ i → t.memRead x.1 j = s.memRead x.1 j) ∧ t.regs = s.regs ∧
        t.out = (s.send (.readData [0])).out) ∧
  (∀ (b : List Byte) (i : Nat) (s : State), s.dbgGrants 2 = true → s.domStatus 4 = 0 → b.length = 256 → i < 196608 → s.cellOwner i = none →
    Runs (.jtagMemAccess .buffer i (some b)) s fun t => t.memRead .buffer i = b ∧ (∀ j, j ≠ i → t.memRead .buffer j = s.memRead .buffer j) ∧
      t.regs = s.regs) ∧
  (∀ (p d : List Bool) (s : State), s.dbgGrants 2 = true → ∀ c ∈ [Instr.jtagSamplePreload p d, .jtagExtest p d],
    Runs c s fun t => t.sec.preload = d ∧ t.out = (s.send (.tdo p)).out ∧ t = { s with out := t.out, sec := t.sec }) ∧
  (∀ (m d : Nat) (s : State), s.dbgGrants 2 = true → s.k9On = true → d < 11 → bit m d = true → s.pdOn d = true →
    Runs (.jtagScan m) s fun t => bit t.sec.scanStop d = true ∧ t.pdOn d = false ∧ t.frozen = true ∧ t.regs = s.regs) ∧
  ∀ (a : Nat) (v : Word) (m : MemKind) (w : Option (List Byte)) (p d : List Bool) (k : Nat) (s : State), s.dbgGrants 2 = false →
    ∀ c ∈ [Instr.jtagRegWrite a v, .jtagMemAccess m a w, .jtagSamplePreload p d, .jtagExtest p d, .jtagScan k], Runs c s fun t =>
      t = { s with out := t.out, sec := t.sec } ∧ t.sec = { s.sec with tapIr := t.sec.tapIr }

/-- On a path that is up, after APPLY, outside HALT and a host-view reset, a full-word write to a register whose domain is on and
that holds no image field which the write would change has the effect of the write, so a write of IRQ_MASK changes IRQ_MASK alone;
one to an offset that no register has is reported as UNMAPPED. In BAR2 while it is served and no host-view reset is in progress, a
doorbell within the limit of its ring moves the host index and one beyond it is reported as BAD_INDEX, by the doorbell's own
command and by a full-word write to its offset alike; a write to configuration space over a link that is up sets the bus-master
enable, the MSI-X enable with the function mask, the power state D3hot, or the base address of BAR0 above its 64 MiB. INT_MASK
takes the value written. A write of a ring's CTL that enables it takes the size, 2^6 for a size out of range, and zeroes both
indices, and one that disables a ring leaves its size where the write names the same. A write of VALID clears ACC_ERR. The offsets
of the capabilities in configuration space, and that a write of CTL which disables a ring and names its SIZE is no RING_BUSY
error, are the model's choice (log entries 23 and 70) (R388, R391, R392, R393, R397, R398, R404). -/
def Obligations.HostRegisters : Prop :=
  (∀ (p : Fin 2) (a : Nat) (v : Word) (l : List Fld) (s : State), s.pathOn p = true → s.on Reg.devResetStatusHvBusy = false → s.hostOpen = true →
    unmapped a = false → s.pdOn (domainOf a) = true → fieldsAt a = some l → l.any (s.imgWrite v.toNat) = false →
      Runs (.registerWrite p 0 a v 15) s fun t => t = s.writeReg p a v.toNat l) ∧
  (∀ (p : Fin 2) (v : Word) (s : State), s.pathOn p = true → s.on Reg.devResetStatusHvBusy = false → s.hostOpen = true →
    s.pdOn (domainOf 0x2D00018) = true → Runs (.registerWrite p 0 0x2D00018 v 15) s fun t =>
      t.rd Reg.hifIrqMaskMask = v.toNat % 2 ^ 19 ∧ SameBut [Reg.hifIrqMaskMask] s t) ∧
  (∀ (p : Fin 2) (a : Nat) (v : Word) (s : State), s.pathOn p = true → s.on Reg.devResetStatusHvBusy = false → s.hostOpen = true →
    unmapped a = true → s.on Reg.hifAccErrValid = false → Runs (.registerWrite p 0 a v 15) s fun t =>
      t.rd Reg.hifAccErrType = 2 ∧ t.rd Reg.hifAccErrValid = 1 ∧ t.rd Reg.hifAccAddrAddr = a % 2 ^ Reg.hifAccAddrAddr.width ∧
      t.tbl = s.tbl ∧ t.otp = s.otp ∧ t.tbs = s.tbs) ∧
  (∀ (v : Word) (s : State), s.configOn = true →
    Runs (.registerWrite 0 2 0x04 v 15) s (fun t => t.rd Reg.hifStatusBme = v.toNat / 4 % 2 ∧
      SameBut [Reg.hifStatusBme] { s with hif := { s.hif with cfg := t.hif.cfg } } t) ∧
    (s.hif.pba = 0 → Runs (.registerWrite 0 2 0x50 v 15) s fun t => t.rd Reg.hifStatusMsixEn = v.toNat / 2 ^ 31 ∧
      SameBut [Reg.hifStatusMsixEn] { s with hif := { s.hif with fnMask := bit v.toNat 30 } } t) ∧
    (v.toNat % 4 = 3 → Runs (.registerWrite 0 2 0x44 v 15) s fun t => t = { s with hif := { s.hif with d3 := true } }) ∧
    Runs (.registerWrite 0 2 0x10 v 15) s fun t => t.cfgRead 0x10 = v.toNat / 2 ^ 26 * 2 ^ 26 + 4 ∧
      t = { s with hif := { s.hif with cfg := t.hif.cfg } }) ∧
  (∀ (r : Fin 6) (v : Word) (s : State), s.bar2On = true → s.on Reg.devResetStatusHvBusy = false →
    let room := if r.val = 1 ∨ r.val = 3 ∨ r.val = 4 then s.ringSize r - idxSub (s.hostIdx r) (s.devIdx r) else idxSub (s.devIdx r) (s.hostIdx r)
    ∀ c ∈ [Instr.ringDoorbell r v, .registerWrite 0 1 (8 * r.val) v 15],
      (idxSub v.toNat (s.hostIdx r) ≤ room → Runs c s fun t => t.hostIdx r = v.toNat ∧ SameBut [Reg.hifRingHostIdxHostIdx r] s t) ∧
      (room < idxSub v.toNat (s.hostIdx r) → s.on Reg.hifAccErrValid = false → Runs c s fun t => t.hostIdx r = s.hostIdx r ∧
        t.rd Reg.hifAccErrType = accBadIndex ∧ t.rd Reg.hifAccErrValid = 1)) ∧
  (∀ (v : Word) (s : State), Runs (.intMaskWrite v) s fun t => t.rd Reg.hifIntMaskMask = v.toNat % 2 ^ 19 ∧ RegsBut [Reg.hifIntMaskMask] s t) ∧
  (∀ s : State, Runs .accErrClear s fun t => t.rd Reg.hifAccErrValid = 0 ∧ t.rd Reg.hifAccErrCount = 0 ∧ t.rd Reg.hifAccErrType = 0 ∧
    SameBut [Reg.hifAccErrCount, Reg.hifAccErrValid, Reg.hifAccErrPath, Reg.hifAccErrType, Reg.hifAccAddrBar2, Reg.hifAccAddrAddr] s t) ∧
  ∀ (r : Fin 6) (p : Fin 2) (v : Word) (s : State), let size := if 6 ≤ v.toNat % 32 ∧ v.toNat % 32 ≤ 16 then v.toNat % 32 else 6
    (s.ringOn r = false → bit v.toNat 8 = true → Runs (.ringCtlWrite r p v) s fun t => t.ringOn r = true ∧
      t.rd (Reg.hifRingCtlSize r) = size ∧ t.hostIdx r = 0 ∧ t.devIdx r = 0 ∧
      SameBut [Reg.hifRingCtlSize r, Reg.hifRingCtlEn r, Reg.hifRingDevIdxDevIdx r, Reg.hifRingHostIdxHostIdx r] s t) ∧
    (s.ringOn r = true → bit v.toNat 8 = false → s.rd (Reg.hifRingCtlSize r) = size → Runs (.ringCtlWrite r p v) s fun t =>
      t.ringOn r = false ∧ SameBut [Reg.hifRingCtlEn r] s t)

/-- Over a link that is up, a read of BAR0 returns as many words as it asks for. Where access is not shut and the register's
domain is on, a read of one word returns the register's word, and one of two words from INT_MASK returns INT_MASK, then IRQ_MASK;
a word that no register has reads zero and, with no error held, is reported as UNMAPPED with PATH 0. While BAR2 is served a read
returns at a doorbell's offset the host index of its ring, in the MSI-X table the words kept and the vector's mask bit, at 0xC000
the low pending bits and from 0x30 up to the table zero. In configuration space the first word returns Device 0x3200 and Vendor
0x1F4B, the third class code 0x028000 with the stepping, and the power state reads D3hot where the function is in it; with no link
every word there reads ones. The offset of the power state in configuration space, ones for a word that nothing answers, and the
command that stands for a read over PCIe are the model's choice (log entries 23 and 70) (R388, R389, R390, R391). -/
def Obligations.HostReads : Prop :=
  (∀ (a n : Nat) (s : State), s.pathOn 0 = true → Runs (.counterLoRead ⟨0, a, n⟩ 0) s fun t => ∃ w : List Word, w.length = n ∧
    ∃ u : State, t = u.send (.readData w) ∧ u.otp = s.otp ∧ u.journal = s.journal ∧ u.tbl = s.tbl) ∧
  (∀ (a : Nat) (s : State), s.pathOn 0 = true → s.blockShut a = false →
    (unmapped a = false → s.pdOn (domainOf a) = true → Runs (.counterLoRead ⟨0, a, 1⟩ 0) s fun t =>
      t.out = (s.send (.readData [BitVec.ofNat 32 (s.readReg 0 a).1])).out) ∧
    (unmapped a = true → s.on Reg.hifAccErrValid = false → Runs (.counterLoRead ⟨0, a, 1⟩ 0) s fun t =>
      (s.pins.inRange = true → t.out.head? = some (.readData [0])) ∧ t.rd Reg.hifAccErrType = accUnmapped ∧ t.rd Reg.hifAccErrPath = 0 ∧
      t.rd Reg.hifAccErrValid = 1 ∧ t.rd Reg.hifAccAddrAddr = a % 2 ^ Reg.hifAccAddrAddr.width)) ∧
  (∀ s : State, s.pathOn 0 = true → s.hostOpen = true → s.pdOn (domainOf 0x2D00014) = true →
    s.on Reg.devResetStatusHvBusy = false → Runs (.counterLoRead ⟨0, 0x2D00014, 2⟩ 0) s fun t =>
      t.out = (s.send (.readData [BitVec.ofNat 32 (s.rd Reg.hifIntMaskMask), BitVec.ofNat 32 (s.rd Reg.hifIrqMaskMask)])).out) ∧
  (∀ s : State, s.bar2On = true →
    (∀ r : Fin 6, Runs (.counterLoRead ⟨1, 8 * r.val, 1⟩ 0) s fun t => t = s.send (.readData [BitVec.ofNat 32 (s.hostIdx r)])) ∧
    (∀ v : Fin 64, Runs (.counterLoRead ⟨1, 0x8000 + 16 * v.val, 4⟩ 0) s fun t =>
      t = s.send (.readData (((List.range 3).map fun k => BitVec.ofNat 32 (Tab.get s.hif.table (4 * v.val + k) 0)) ++
        [BitVec.ofNat 32 (b2n (bit s.hif.vecMask v))]))) ∧
    Runs (.counterLoRead ⟨1, 0xC000, 1⟩ 0) s (fun t => t = s.send (.readData [BitVec.ofNat 32 s.hif.pba])) ∧
    ∀ a, 0x30 ≤ a → a < 0x8000 → Runs (.counterLoRead ⟨1, a, 1⟩ 0) s fun t => t = s.send (.readData [0])) ∧
  (∀ s : State, s.configOn = true →
    Runs (.counterLoRead ⟨2, 0, 1⟩ 0) s (fun t => t = s.send (.readData [0x32001F4B])) ∧
    Runs (.counterLoRead ⟨2, 8, 1⟩ 0) s (fun t => t = s.send (.readData [BitVec.ofNat 32 (0x02800000 + s.rd Reg.devIdStepping)])) ∧
    Runs (.counterLoRead ⟨2, 0x44, 1⟩ 0) s fun t => t = s.send (.readData [if s.hif.d3 then 3 else 0])) ∧
  ∀ (a n : Nat) (s : State), s.configOn = false → Runs (.counterLoRead ⟨2, a, n⟩ 0) s fun t => t = s.send (.readData [0xFFFFFFFF])

/-- Whatever words of the REFSEL block the host writes, by a register write over PCIe or SMI with any value and byte enables or by
an SMI transaction of any length, every field of the REFSEL block reads as before and Fantail keeps its state (R5, R6). -/
def Obligations.NoHostWriteMovesReferences : Prop :=
  ∀ (p : Fin 2) (a : Nat) (v : Word) (w : List Word) (be : Fin 16) (i : Instr) (s t : State), 0x200000 ≤ a →
    (i = .registerWrite p 0 a v be ∧ a < 0x300000) ∨ (i = .smiWrite a w ∧ a + 4 * w.length ≤ 0x300000) → exec i s = .next t →
    t.refsel = s.refsel ∧ t.syn = s.syn ∧ ∀ f : Fld, 0x200000 ≤ f.addr → f.addr < 0x300000 → f.lo < 32 → t.rd f = s.rd f

/-- With SMI_EN = 1 and the device not held in reset: a READ returns the status byte and the words that so many register reads
from its offset on return, in order, and sets SMI_SEEN; a WRITE returns the status byte, and a WRITE of one word to IRQ_MASK in
RUN, outside a host-view reset and with its domain on, sets IRQ_MASK and SMI_SEEN and no other register; another command code
returns the status byte and sets SMI_SEEN alone; a transaction that ends inside a word while K9 runs and no error is held is
reported as PARTIAL and sets SMI_SEEN (R393, R396, R413). -/
def Obligations.SmiTransactions : Prop :=
  (∀ s : State, s.inReset = true → ∀ (a n : Nat) (l : List Word) (c : Fin 256),
    ∀ i ∈ [Instr.smiRead a n, .smiWrite a l, .smiBadCommand c, .smiPartial a], exec i s = .next s) ∧
  (∀ (a n : Nat) (s : State), s.on Reg.hifCfgSmiEn = true → s.inReset = false → Runs (.smiRead a n) s fun t =>
    let u := s.wr Reg.hifStatusSmiSeen 1
    let r := u.hostReads 1 a n
    t.out = (r.2.send (.readData (BitVec.ofNat 32 u.smiStatus :: r.1.reverse))).out ∧ r.1.length = n ∧
    t.rd Reg.hifStatusSmiSeen = 1 ∧ t.otp = s.otp ∧ t.journal = s.journal) ∧
  (∀ (a : Nat) (l : List Word) (s : State), s.on Reg.hifCfgSmiEn = true → s.inReset = false → Runs (.smiWrite a l) s fun t =>
    (s.pins.inRange = true → t.out.head? = some (.readData [BitVec.ofNat 32 (s.wr Reg.hifStatusSmiSeen 1).smiStatus])) ∧ t.otp = s.otp) ∧
  (∀ (v : Word) (s : State), s.on Reg.hifCfgSmiEn = true → s.inReset = false → s.pathOn 1 = true → s.on Reg.devResetStatusHvBusy = false → s.inPhase 9 = true →
    s.pdOn (domainOf 0x2D00018) = true → Runs (.smiWrite 0x2D00018 [v]) s fun t => t.rd Reg.hifIrqMaskMask = v.toNat % 2 ^ 19 ∧
      t.rd Reg.hifStatusSmiSeen = 1 ∧ RegsBut [Reg.hifIrqMaskMask, Reg.hifStatusSmiSeen] s t) ∧
  (∀ (c : Fin 256) (s : State), s.on Reg.hifCfgSmiEn = true → s.inReset = false → Runs (.smiBadCommand c) s fun t =>
    t.out = (s.send (.readData [BitVec.ofNat 32 (s.wr Reg.hifStatusSmiSeen 1).smiStatus])).out ∧ t.rd Reg.hifStatusSmiSeen = 1 ∧
    RegsBut [Reg.hifStatusSmiSeen] s t) ∧
  ∀ (a : Nat) (s : State), s.on Reg.hifCfgSmiEn = true → s.inReset = false → s.k9On = true → s.on Reg.hifAccErrValid = false → Runs (.smiPartial a) s fun t =>
    t.rd Reg.hifAccErrType = 9 ∧ t.rd Reg.hifAccErrPath = 1 ∧ t.rd Reg.hifAccErrValid = 1 ∧ t.rd Reg.hifStatusSmiSeen = 1

/-- With PD3 running: in DMA mode the oldest LNQ record leaves for ring 0; an entry of ring 1, with room in the command queue and
in ring 2, joins the command queue. A window is reached over JTAG while K9 runs, and over PCIe or SMI where that path is up, APPLY
has completed and the device is not in HALT. With PD3 running, through a path that reaches it and outside a host-view reset (which
does not bind JTAG): in FIFO mode a POP of the record that the path latched removes it, and a PUSH with room queues the command in
the window; in any mode a read of a window returns its first word and changes no table and no queue. Over PCIe or SMI where the
window is reached and PD3 is off, a read of it returns zero, and it and, outside a host-view reset, a POP and a PUSH are reported
as NO_DOMAIN where no error is held; a POP and a PUSH during a host-view reset are reported as RESET_BUSY where the path is up.
Before APPLY completes, and in HALT, over a path that is up a read returns zero, a POP and a PUSH outside a host-view reset have
no effect, and nothing is reported. That a write during a host-view reset is reported as RESET_BUSY before APPLY and in HALT too,
where two cases of R392 meet, is the model's choice (log entry 23) (R392, R399, R402, R403, R427). -/
def Obligations.HostQueues : Prop :=
  (∀ (r : List Byte) (l : List (List Byte)) (s : State), s.tbl.lnq = r :: l → s.dmaOn = true → s.on Reg.hifCfgLnqFifo = false →
    0 < s.ringRoom 0 → Runs .lnqDmaWrite s fun t => t.tbl.lnq = l ∧ t.rd Reg.tblLnqStatusCount = l.length % 2 ^ Reg.tblLnqStatusCount.width ∧
      t.devIdx 0 = (s.devIdx 0 + 1) % 2 ^ 32) ∧
  (∀ (e : List Byte) (s : State), s.dmaOn = true → s.pdOn 3 = true → s.on Reg.hifCfgTcqFifo = false → 0 < s.ringReady 1 → s.tbl.tcq.length < 256 →
    (s.tbl.tcq.filter (·.dma)).length < s.ringRoom 2 → Runs (.tcqFetch e) s fun t =>
      t.tbl.tcq = s.tbl.tcq ++ [{ bytes := slice e 0 32, idx := s.devIdx 1, dma := true }] ∧ t.devIdx 1 = (s.devIdx 1 + 1) % 2 ^ 32) ∧
  (∀ (p : Fin 3) (s : State), s.k9On = true → (p.val < 2 → s.pathOn p = true ∧ s.hostOpen = true) → s.pdOn 3 = true →
    (p.val < 2 → s.on Reg.devResetStatusHvBusy = false) →
    (∀ (r : List Byte) (l : List (List Byte)), s.tbl.lnq = r :: l → s.lnqFifo p = true →
      slice r 0 32 = s.windowRec p 8 Reg.hifLnqDataData → Runs (.lnqPop p) s fun t => t.tbl = { s.tbl with lnq := l } ∧ RegsBut [Reg.tblLnqStatusCount] s t) ∧
    (s.tcqFifo p = true → s.tbl.tcq.length < 256 → Runs (.tcqPush p) s fun t =>
      ∃ c : TcqCmd, t.tbl.tcq = s.tbl.tcq ++ [c] ∧ c.idx = s.tbl.pushes ∧ c.dma = false ∧
        c.bytes = (List.range 8).flatMap fun k => le 4 (s.rd (Reg.hifTcqDataData k))) ∧
    ∀ (r : List Byte) (l : List (List Byte)), s.hif.tcr = r :: l → s.tcqFifo p = true →
      slice r 0 16 = s.windowRec p 4 Reg.hifTcrDataData → Runs (.tcrPop p) s fun t => t.hif.tcr = l ∧ t.tbl = s.tbl) ∧
  (∀ (p : Fin 3) (s : State), s.k9On = true → (p.val < 2 → s.pathOn p = true ∧ s.hostOpen = true) → s.pdOn 3 = true →
    Runs (.lnqFifoRead p) s (fun t => t.out = (s.send (.readData [BitVec.ofNat 32 (s.readReg p 0x2D00200).1])).out ∧ t.tbl = s.tbl) ∧
    Runs (.tcrFifoRead p) s (fun t => t.out = (s.send (.readData [BitVec.ofNat 32 (s.readReg p 0x2D00280).1])).out ∧ t.tbl = s.tbl)) ∧
  (∀ (p : Fin 2) (s : State), s.pathOn p = true → s.hostOpen = true → s.pdOn 3 = false → s.on Reg.hifAccErrValid = false →
    let q : Fin 3 := ⟨p.val, by omega⟩
    (∀ c ∈ [Instr.lnqFifoRead q, .tcrFifoRead q], Runs c s fun t => t.rd Reg.hifAccErrType = accNoDomain ∧
      t.rd Reg.hifAccErrPath = p ∧ t.rd Reg.hifAccErrValid = 1 ∧ t.tbl = s.tbl ∧ t.hif.tcr = s.hif.tcr ∧
      (s.pins.inRange = true → t.out.head? = some (.readData [0]))) ∧
    (s.on Reg.devResetStatusHvBusy = false → ∀ c ∈ [Instr.lnqPop q, .tcrPop q, .tcqPush q], Runs c s fun t =>
      t.rd Reg.hifAccErrType = accNoDomain ∧ t.rd Reg.hifAccErrPath = p ∧ t.rd Reg.hifAccErrValid = 1 ∧ t.tbl = s.tbl ∧ t.hif.tcr = s.hif.tcr)) ∧
  ∀ (p : Fin 2) (s : State), s.pathOn p = true →
    let q : Fin 3 := ⟨p.val, by omega⟩
    (s.on Reg.devResetStatusHvBusy = true → s.on Reg.hifAccErrValid = false → ∀ c ∈ [Instr.lnqPop q, .tcrPop q, .tcqPush q], Runs c s fun t =>
      t.rd Reg.hifAccErrType = accResetBusy ∧ t.rd Reg.hifAccErrPath = p ∧ t.rd Reg.hifAccErrValid = 1 ∧ t.tbl = s.tbl ∧ t.hif.tcr = s.hif.tcr) ∧
    (s.hostOpen = false → (∀ c ∈ [Instr.lnqFifoRead q, .tcrFifoRead q], Runs c s fun t => t = s.send (.readData [0])) ∧
      (s.on Reg.devResetStatusHvBusy = false → ∀ c ∈ [Instr.lnqPop q, .tcrPop q, .tcqPush q], exec c s = .next s))

/-- With PD4 running, a good TXF entry whose frame finds room gives it the next frame number and advances the index of ring 3. A
frame at the head of the host queue that fits the next receive buffer is written to it, leaves the queue, and takes an entry of
ring 4 and one of ring 5; one that does not fit leaves the queue, is counted, and takes none; once a SCAN has stopped clocks none
is delivered (R372, R400, R401). -/
def Obligations.HostFrames : Prop :=
  (∀ (e b : List Byte) (s : State), s.dmaOn = true → s.pdOn 4 = true → s.ringReady 3 ≠ 0 → s.txfOk (slice e 0 32) = true →
    cellsOf ((slice b 0 (u16 (slice e 0 32) 8)).length + 4) ≤ s.sharedFree → Runs (.txfFetch e b) s fun t =>
      t.devIdx 3 = (s.devIdx 3 + 1) % 2 ^ 32 ∧ t.fab.next = s.fab.next + 1 ∧ t.tbs = s.tbs ∧ t.otp = s.otp) ∧
  (∀ (rxb : List Byte) (s : State), s.frozen = true → exec (.hostRxDeliver rxb) s = .next s) ∧
  ∀ (rxb : List Byte) (id reason : Nat) (l : List (Nat × Nat)) (s : State), s.fab.hostq = (id, reason) :: l → s.dmaOn = true → s.frozen = false →
    s.on Reg.hifCfgFramesEn = true → s.ringReady 4 ≠ 0 → s.ringRoom 5 ≠ 0 →
    ((s.frame id).bytes.length ≤ u16 rxb 8 → Runs (.hostRxDeliver rxb) s fun t => t.fab.hostq = l ∧ t.devIdx 4 = (s.devIdx 4 + 1) % 2 ^ 32 ∧
      t.devIdx 5 = (s.devIdx 5 + 1) % 2 ^ 32 ∧ (s.pins.inRange = true → .dmaBytes (u64 rxb 0) (s.frame id).bytes ∈ t.out)) ∧
    (u16 rxb 8 < (s.frame id).bytes.length → Runs (.hostRxDeliver rxb) s fun t => t.fab.hostq = l ∧ t.devIdx 4 = s.devIdx 4 ∧
      t.rd Reg.hifRxDropCount = satAdd Reg.hifRxDropCount.width (s.rd Reg.hifRxDropCount) 1 ∧ t.out = s.out)

/-- The sample timeout takes a base of either timekeeper from ACQUIRE or TRACK to HOLD with its time and frequency kept. Where
what is pending is no more than one cycle's slew term, the end of the slew leaves the slew term and PEND zero and the frequency as
it was. A sample that waits in ACQUIRE, TRACK or HOLD is taken up, outside HALT_DEVICE, once 1 024 cycles have passed since the
last one used, and none waits; the count of cycles starts again unless it is an outlier in TRACK. In RAMP a tick raises the
frequency of a primary of the active timekeeper that lies a ppb or more below that of its shadow by one ppb. When the load of the
standby timekeeper completes, its enabled bases and its pair swaps are those of the active one and it runs. A cross-link slot with
no good message is counted, and short of 64 of them nothing is lost. A good message of an enabled base, in a slot of a running
standby, ends the run of bad slots and the loss of the link, shows its compare in XC_DIFF and, where the standby's unit does not
stand by, changes no base but by at most 0.1 ps of trim on the standby's own; a message that arrives as sent is good and is the
base's. The bytes of a cross-link message are the model's choice (log entry 69) (R158, R165, R166, R172, R174, R175, R176, R424).
-/
def Obligations.SamplesOfABase : Prop :=
  (∀ (n : Fin 8) (k : Fin 2) (s : State), (s.tb k n).state = tbAcquire ∨ (s.tb k n).state = tbTrack → Runs (.tbSampleTimeout n) s fun t =>
    t.tb k n = { s.tb k n with state := tbHold, first := true, waiting := none, inRun := 0, outRun := 0 }) ∧
  (∀ (n : Fin 8) (k : Fin 2) (s : State), (s.tb k n).p ≠ 0 → (s.tb k n).pend.natAbs ≤ (s.tb k n).p.natAbs →
    Runs (.tbSlewComplete n) s fun t => (t.tb k n).p = 0 ∧ (t.tb k n).pend = 0 ∧ (t.tb k n).f = (s.tb k n).f ∧ t = { s with tbs := t.tbs }) ∧
  (∀ (n : Fin 8) (k : Fin 2) (e : Int) (s : State), (s.tb k n).waiting = some e → s.halted = false → 1024 ≤ (s.tb k n).since →
    (s.tb k n).state = tbAcquire ∨ (s.tb k n).state = tbTrack ∨ (s.tb k n).state = tbHold → Runs (.tbSampleDeferred n) s fun t =>
      (t.tb k n).waiting = none ∧
        ((s.tb k n).state ≠ tbTrack ∨ beyondPs e (s.rd (Reg.tkTbOutlierOutlier n)) = false → (t.tb k n).since = 0)) ∧
  (∀ (p : Fin 4) (k : Fin 2) (s : State), s.activeTk = k → s.on (Reg.tkPairEn p) = true →
    let n := s.rd (Reg.tkPairPrimary p)
    let m := s.rd (Reg.tkPairShadow p)
    n < 8 → m < 8 → (s.tb k n).state = tbRamp → (s.tb k n).f + ppbTerm ≤ (s.tb k m).f → Runs (.tbRampTick p) s fun t =>
      (t.tb k n).f = (s.tb k n).f + ppbTerm ∧ (t.tb k n).state = tbRamp) ∧
  (∀ (k : Fin 2) (s : State), s.xc.loading = true → s.activeTk = k → Runs .standbyTkLoadDone s fun t =>
    (∀ n < 8, s.on (Reg.tkTbCfgEnable n) = true → t.tb (1 - k.val) n = s.tb k n) ∧ (∀ p < 4, t.swapped (1 - k.val) p = s.swapped k p) ∧ t.on Reg.tkStatusStandbyRun = true ∧ t.xc.loading = false ∧
      SameBut [Reg.tkStatusStandbyRun, Reg.tkStatusXcOk, Reg.tkXcStatusOutOfLim] { s with tbs := t.tbs, xc := t.xc } t) ∧
  (∀ (w : Option (List (Fin 320))) (m : XcMsg) (s : State), s.on Reg.tkStatusStandbyRun = true → s.xcReceived s.xc.next w = some m → m.index < 8 →
    s.on (Reg.tkTbCfgEnable m.index) = true → s.unit (3 - s.activeTk) ≠ unitStandby → Runs (.xcSlot w) s fun t =>
      t.rd (Reg.tkTbXcDiffXcDiff m.index) = encSat 32 (s.xcDiff m) ∧ t.xc.bad = 0 ∧ t.xc.next = (s.xc.next + 1) % 8 ∧
      t.on Reg.tkStatusXlinkLost = false ∧ t.rd Reg.tkXcStatusBadSlots = s.rd Reg.tkXcStatusBadSlots ∧
      (∀ n < 8, t.tb s.activeTk n = s.tb s.activeTk n ∧ (n ≠ m.index → t.tb (1 - s.activeTk) n = s.tb (1 - s.activeTk) n)) ∧
      ∃ d : Int, d.natAbs ≤ 10 ∧ (t.tb (1 - s.activeTk) m.index).f = (s.tb (1 - s.activeTk) m.index).f ∧
        t.tb (1 - s.activeTk) m.index = (s.tb (1 - s.activeTk) m.index).addM (s.tbRange m.index) ((d * 65536 * tbM).tdiv 100000)) ∧
  (∀ (n : Fin 8) (s : State), (s.atb n).t < 2 ^ 96 → -(2 ^ 63) ≤ (s.atb n).f → (s.atb n).f < 2 ^ 63 → -(2 ^ 127) ≤ (s.atb n).pend →
    (s.atb n).pend < 2 ^ 127 → (s.atb n).state < 256 → s.xcReceived n (some []) = some (s.xcMsg n)) ∧
  ∀ (w : Option (List (Fin 320))) (s : State), s.on Reg.tkStatusStandbyRun = true → s.xcReceived s.xc.next w = none → s.xc.bad < 63 →
    s.on Reg.tkStatusXlinkLost = false → s.on Reg.tkStatusXcOk = false → Runs (.xcSlot w) s fun t => t.rd Reg.tkXcStatusBadSlots = satAdd Reg.tkXcStatusBadSlots.width (s.rd Reg.tkXcStatusBadSlots) 1 ∧
      t.xc = { s.xc with next := (s.xc.next + 1) % 8, bad := s.xc.bad + 1 } ∧ RegsBut [Reg.tkXcStatusBadSlots] s t

/-- FEED_CMD code 0 is answered OK and changes nothing else; a command with another GEN is answered STALE; code 3 with the current
GEN on an enabled base is answered REFUSED. OFFSET on an unpaired HOST base that tracks in both timekeepers is answered OK, counts
in ACCEPTED, and its value waits where a sample was used less than 1 024 cycles ago. SET with legal nanoseconds gives a HOST base
in UNSET its time and takes it to ACQUIRE. On a pair that no base follows, the third good PPS period sets PPS_VALID; a bad period
or none for 1.5 s clears it. Over a path by which TK is reached (JTAG while K9 runs; PCIe or SMI where that path is up, APPLY has
completed and the device is not in HALT), reads of NOW_SEC_LO and OFF_LO return the low word and latch the rest; on a path that is
up and to a register that is reached, a read of the low word of a counter returns it (R162, R166, R167, R168, R177, R392, R394,
R425). -/
def Obligations.FeedAndTimes : Prop :=
  (∀ (n : Fin 8) (s : State), Runs (.tbFeedNop n) s fun t => t.rd (Reg.tkTbFeedStatusResult n) = 0 ∧ SameBut [Reg.tkTbFeedStatusResult n] s t) ∧
  (∀ (n : Fin 8) (g : Fin 65536) (s : State), g.val ≠ s.rd (Reg.tkTbStatusGen n) →
    ∀ c ∈ [Instr.tbFeedOffset n g, .tbFeedSet n g, .tbFeedReserved n g], Runs c s fun t =>
      t.rd (Reg.tkTbFeedStatusResult n) = 1 ∧ SameBut [Reg.tkTbFeedStatusResult n] s t) ∧
  (∀ (n : Fin 8) (g : Fin 65536) (s : State), g.val = s.rd (Reg.tkTbStatusGen n) → s.on (Reg.tkTbCfgEnable n) = true →
    Runs (.tbFeedReserved n g) s fun t => t.rd (Reg.tkTbFeedStatusResult n) = 4 ∧ SameBut [Reg.tkTbFeedStatusResult n] s t) ∧
  (∀ (n : Fin 8) (g : Fin 65536) (k : Fin 2) (s : State), g.val = s.rd (Reg.tkTbStatusGen n) → s.on (Reg.tkTbCfgEnable n) = true →
    s.rd (Reg.tkTbCfgSrc n) = 2 → s.halted = false → (s.atb n).state ≠ tbUnset → s.pairOf n = none →
    (∀ j < 2, (s.tb j n).state = tbTrack ∧ (s.tb j n).since < 1024 ∧ (s.tb j n).waiting = none) → Runs (.tbFeedOffset n g) s fun t =>
      t.rd (Reg.tkTbFeedStatusResult n) = 0 ∧
      t.rd (Reg.tkTbFeedStatusAccepted n) = satAdd (Reg.tkTbFeedStatusAccepted n).width (s.rd (Reg.tkTbFeedStatusAccepted n)) 1 ∧
      (t.tb k n).waiting = some (satE (sgn 48 (s.rd (Reg.tkTbFeedLoFeedLo n) + 2 ^ 32 * s.rd (Reg.tkTbFeedHiFeedHi n))))) ∧
  (∀ (n : Fin 8) (g : Fin 65536) (k : Fin 2) (s : State), g.val = s.rd (Reg.tkTbStatusGen n) → s.on (Reg.tkTbCfgEnable n) = true →
    s.rd (Reg.tkTbCfgSrc n) = 2 → s.halted = false → s.tbValid n = false → s.rd (Reg.tkTbSetNsSetNs n) ≤ 999999999 →
    (s.tb k n).state = tbUnset → Runs (.tbFeedSet n g) s fun t => (t.tb k n).state = tbAcquire ∧ (t.tb k n).valid = true ∧
      (t.tb k n).t = ((s.rd (Reg.tkTbSetSecLoSetSecLo n) + 2 ^ 32 * s.rd (Reg.tkTbSetSecHiSetSecHi n)) * tSecond +
        s.rd (Reg.tkTbSetNsSetNs n) * 65536) % s.tbRange n) ∧
  (∀ (m : Fin 4) (x : Fin 64) (y : Fin 32) (s : State), s.on (Reg.refselCandCfgPair (2 * m.val)) = true → (s.cand (2 * m.val)).ppsRun = 2 →
    (∀ n < 8, s.tbSrc s.activeTk n ≠ (3, m.val)) → Runs (.refinPpsEdge m true (x, y)) s fun t => t.on (Reg.refselCandStatusPpsValid (2 * m.val)) = true ∧
      SameBut [Reg.refselCandStatusPpsValid (2 * m.val)] { s with refsel := t.refsel } t) ∧
  (∀ (m : Fin 4) (x : Fin 64) (y : Fin 32) (s : State), s.on (Reg.refselCandCfgPair (2 * m.val)) = true → Runs (.refinPpsEdge m false (x, y)) s fun t =>
    t.on (Reg.refselCandStatusPpsValid (2 * m.val)) = false) ∧
  (∀ (m : Fin 4) (s : State), Runs (.ppsEdgeTimeout m) s fun t => t.on (Reg.refselCandStatusPpsValid (2 * m.val)) = false) ∧
  (∀ (n : Fin 8) (p : Fin 3) (s : State), s.reached p (Reg.tkTbNowSecLoNowSecLo n).addr = true → s.pdOn 0 = true → Runs (.tbNowRead n p) s fun t =>
    t.out = (s.send (.readData [BitVec.ofNat 32 (tSec (s.atb n).t)])).out ∧ t = { s with out := t.out, hif := t.hif } ∧
      Tab.get t.hif.latch (4 * (Reg.tkTbNowSecHiNowSecHi n).key + p.val) 0 = tSec (s.atb n).t / 2 ^ 32 % 2 ^ (Reg.tkTbNowSecHiNowSecHi n).width ∧
      Tab.get t.hif.latch (4 * (Reg.tkTbNowNsNowNs n).key + p.val) 0 = tNs (s.atb n).t ∧
      Tab.get t.hif.latch (4 * (Reg.tkTbNowFracNowFrac n).key + p.val) 0 = tFrac (s.atb n).t) ∧
  (∀ (n : Fin 8) (p : Fin 3) (s : State), s.reached p (Reg.tkTbOffLoOffLo n).addr = true → s.pdOn 0 = true → Runs (.tbOffRead n p) s fun t =>
    t.out = (s.send (.readData [BitVec.ofNat 32 (enc 48 (s.atb n).lastE)])).out ∧ t = { s with out := t.out, hif := t.hif } ∧
      Tab.get t.hif.latch (4 * (Reg.tkTbOffHiOffHi n).key + p.val) 0 = enc 48 (s.atb n).lastE / 2 ^ 32) ∧
  ∀ (a : Nat) (p : Fin 3) (s : State), isLo48 a = true → s.pdOn (domainOf a) = true → s.k9On = true →
    (p.val < 2 → s.pathOn p = true ∧ s.blockShut a = false ∧ unmapped a = false) → Runs (.counterLoRead ⟨0, a, 1⟩ p) s fun t =>
      t.out = (s.send (.readData [BitVec.ofNat 32 (s.readReg p a).1])).out ∧ t = { s with out := t.out, hif := t.hif }

/-- For every base whose last sample is not its first, and for every sample, the servo leaves the frequency within plus and minus
ILIM, the pending correction opposite in sign to the sample or zero, and the slew term with the sign of what is pending (R164). -/
def Obligations.ServoBounds : Prop :=
  ∀ (n : Nat) (b : TBase) (e : Int) (s : State),
    (b.first = false → -(s.ilimTerm n : Int) ≤ (s.servo n b e).f ∧ (s.servo n b e).f ≤ s.ilimTerm n) ∧
    (b.first = true → (s.servo n b e).f = b.f) ∧ (s.servo n b e).pend * e ≤ 0 ∧ 0 ≤ (s.servo n b e).pend * (s.servo n b e).p ∧
    (s.servo n b e).p.natAbs ≤ s.slewTerm n ∧ (s.servo n b e).waiting = none ∧ (s.servo n b e).t = b.t

/-- A base with f = 0 and no slew, after 165 cycles of its clock, holds its time plus 256 ns exactly, modulo the range, with its
remainder as it was (R158). -/
def Obligations.CountingIsExact : Prop :=
  ∀ (b : TBase) (range : Nat), b.f = 0 → b.p = 0 → b.r < 165 → b.a < tbM → b.t < range →
    let c := (List.range 165).foldl (fun (x : TBase) _ => x.tick range) b
    c.t = (b.t + 256 * 65536) % range ∧ c.r = b.r ∧ c.a = b.a ∧ c.f = 0 ∧ c.p = 0

/-- PG_CMD code 0 is answered OK, a command with another GEN STALE, ARM of a generator that is armed, active or held BUSY, and
code 3 BAD_VALUE. ARM of one that is OFF or DONE, with staged values that pass, copies them, clears FIRED and takes the generator
to HELD where its base holds no valid time, all as of an owned generator with the current GEN. DISARM with no pulse in progress
takes it to OFF. With PD10 running, a rising edge due in the present cycle of its base leaves an armed generator's output, counts
in FIRED and takes it to ACTIVE; a falling edge due in that cycle ends the pulse of an active generator that is not to stop (R213,
R214, R216, R218, R425). -/
def Obligations.PulseGenerators : Prop :=
  (∀ (p : Fin 16) (s : State), Runs (.pgCmdNop p) s fun t => t.rd Reg.tsPgCmdStatusResult = 0 ∧
    SameBut [Reg.tsPgCmdStatusPg, Reg.tsPgCmdStatusResult] s t) ∧
  (∀ (p : Fin 16) (g : Fin 65536) (s : State), g.val ≠ s.rd (Reg.tsPgStatusGen p) →
    ∀ c ∈ [Instr.pgArm p g, .pgDisarm p g, .pgCmdReserved p g], Runs c s fun t => t.rd Reg.tsPgCmdStatusResult = 1 ∧
      SameBut [Reg.tsPgCmdStatusPg, Reg.tsPgCmdStatusResult] s t) ∧
  (∀ (p : Fin 16) (g : Fin 65536) (s : State), g.val = s.rd (Reg.tsPgStatusGen p) → s.on (Reg.tsPgCfgOwner p) = true →
    Runs (.pgCmdReserved p g) s (fun t => t.rd Reg.tsPgCmdStatusResult = 4 ∧ SameBut [Reg.tsPgCmdStatusPg, Reg.tsPgCmdStatusResult] s t) ∧
    (s.pgState p = pgArmed ∨ s.pgState p = pgActive ∨ s.pgState p = pgHeld → Runs (.pgArm p g) s fun t =>
      t.rd Reg.tsPgCmdStatusResult = 3 ∧ SameBut [Reg.tsPgCmdStatusPg, Reg.tsPgCmdStatusResult] s t) ∧
    (s.pgState p = pgOff ∨ s.pgState p = pgDone → s.stgOk = true → s.rd Reg.tsPgStgCfgTb < 8 →
      s.tbValid (s.rd Reg.tsPgStgCfgTb) = false → Runs (.pgArm p g) s fun t =>
        t.rd Reg.tsPgCmdStatusResult = 0 ∧ t.pgState p = pgHeld ∧ t.rd (Reg.tsPgFiredFired p) = 0 ∧
        (∀ x ∈ [(Reg.tsPgCfgPol p, Reg.tsPgStgCfgPol), (Reg.tsPgCfgTb p, Reg.tsPgStgCfgTb), (Reg.tsPgCfgMode p, Reg.tsPgStgCfgMode),
          (Reg.tsPgStart0StartSecLo p, Reg.tsPgStgStartSecLoSec), (Reg.tsPgStart1StartSecHi p, Reg.tsPgStgStartSecHiSec),
          (Reg.tsPgStart2StartNs p, Reg.tsPgStgStartNsNs), (Reg.tsPgStart3StartFrac p, Reg.tsPgStgStartFracFrac),
          (Reg.tsPgPer0PeriodLo p, Reg.tsPgStgPeriodLoPeriod), (Reg.tsPgPer1PeriodHi p, Reg.tsPgStgPeriodHiPeriod),
          (Reg.tsPgWid0WidthLo p, Reg.tsPgStgWidthLoWidth), (Reg.tsPgWid1WidthHi p, Reg.tsPgStgWidthHiWidth),
          (Reg.tsPgCntCount p, Reg.tsPgStgCountCount)], t.rd x.1 = s.rd x.2 % 2 ^ x.1.width) ∧
        t = { s with regs := t.regs, pul := t.pul }) ∧
    ((s.pg p).high = false → Runs (.pgDisarm p g) s fun t => t.rd Reg.tsPgCmdStatusResult = 0 ∧ t.pgState p = pgOff ∧
      SameBut [Reg.tsPgCmdStatusPg, Reg.tsPgCmdStatusResult, Reg.tsPgStatusState p, Reg.tsPgStatusGen p] s t)) ∧
  (∀ (p : Fin 16) (s : State), s.frozen = false → s.pdOn 10 = true → (s.pg p).high = false → s.pgState p = pgArmed →
    let n := s.rd (Reg.tsPgCfgTb p)
    let lead := s.pgLead p ((s.pgStart p + (s.pg p).k * s.pgPeriod p) % s.tbRange n)
    0 ≤ lead → lead < s.cycleLen n → Runs (.pgEdge p true) s fun t =>
    (∃ c f, t.out = (s.send (.pulse p c f true)).out) ∧ t.pgState p = pgActive ∧ (t.pg p).high = true ∧
      t.rd (Reg.tsPgFiredFired p) = satAdd (Reg.tsPgFiredFired p).width (s.rd (Reg.tsPgFiredFired p)) 1 ∧
      RegsBut [Reg.tsPgFiredFired p, Reg.tsPgStatusState p, Reg.tsPgStatusGen p, Reg.tsPgStatusTapSat p] s t) ∧
  ∀ (p : Fin 16) (s : State), s.frozen = false → s.pdOn 10 = true → (s.pg p).high = true → (s.pg p).loose = false → s.pgState p = pgActive →
    (s.pg p).disarm = false → s.pgBeyond p (s.pg p).k = false →
    let n := s.rd (Reg.tsPgCfgTb p)
    let lead := s.pgLead p (((s.pg p).rise + (s.pg p).width) % s.tbRange n)
    0 ≤ lead → lead < s.cycleLen n → Runs (.pgEdge p false) s fun t => (∃ c f, t.out = (s.send (.pulse p c f false)).out) ∧
      t.pg p = { k := (s.pg p).k } ∧ RegsBut [Reg.tsPgStatusTapSat p] s t

/-- A capture input that takes both edges and is not gated, with PD10 running and no edge before, adds an entry with the edge, the
base and its validity where its queue has room; with 16 entries there the edge is counted in DROPPED and OVF is set; an input that
is off takes nothing. A POP in the same K9 cycle takes effect first. A POP removes the oldest entry of a queue, and on an empty
queue has no effect. Where the register is reached and its domain is on, PD10 for a capture queue and the lane's quadrant for a
transmit queue, a read of an ENTRY register returns its first word and removes nothing; where it is reached over PCIe or SMI, no
error is held and the domain is off, the read returns zero, removes nothing and is reported as NO_DOMAIN (R210, R220, R221, R224,
R392, R394). -/
def Obligations.CapturesAndQueues : Prop :=
  (∀ (c : Fin 16) (r pop : Bool) (k : Fin 64) (f : Fin 32) (s : State), s.rd (Reg.tsCapCfgEdge c) = 3 →
    s.on (Reg.tsCapCfgGate c) = false → s.pdOn 10 = true → Tab.get s.pul.last c none = none →
    let q := if pop then (s.capq c).tail else s.capq c
    (q.length < 16 → Runs (.evtInEdge c r pop k f) s fun t => ∃ e : CapEnt, t.capq c = q ++ [e] ∧ e.rising = r ∧
      e.tb = s.rd (Reg.tsCapCfgTb c) ∧ e.valid = s.tbValid e.tb ∧ t.rd (Reg.tsCapStatusCount c) = (q.length + 1) % 2 ^ (Reg.tsCapStatusCount c).width) ∧
    (16 ≤ q.length → Runs (.evtInEdge c r pop k f) s fun t => t.capq c = q ∧ t.rd (Reg.tsCapStatusOvf c) = 1 ∧
      t.rd (Reg.tsCapStatusDropped c) = satAdd (Reg.tsCapStatusDropped c).width (s.rd (Reg.tsCapStatusDropped c)) 1)) ∧
  (∀ (c : Fin 16) (r : Bool) (k : Fin 64) (f : Fin 32) (s : State), s.rd (Reg.tsCapCfgEdge c) = 0 →
    exec (.evtInEdge c r false k f) s = .next s ∧ exec (.evtInEdge c r true k f) s = exec (.capPop c) s) ∧
  (∀ (n : Fin 128) (e : TxEnt) (l : List TxEnt) (s : State), s.txq n = e :: l → Runs (.txqPop n) s fun t => t.txq n = l ∧
    (∀ m, m ≠ n.val → t.txq m = s.txq m) ∧ RegsBut [Reg.tsTxqStatusCount n, Reg.tsTxqNeNe (n.val / 32)] s t) ∧
  (∀ (n : Fin 16) (e : CapEnt) (l : List CapEnt) (s : State), s.capq n = e :: l → Runs (.capPop n) s fun t => t.capq n = l ∧
    (∀ m, m ≠ n.val → t.capq m = s.capq m) ∧ RegsBut [Reg.tsCapStatusCount n, Reg.tsStatusCapNe] s t) ∧
  (∀ (n : Fin 128) (s : State), s.txq n = [] → exec (.txqPop n) s = .next s) ∧
  (∀ (n : Fin 16) (s : State), s.capq n = [] → exec (.capPop n) s = .next s) ∧
  ∀ (n : Fin 128) (p : Fin 3) (s : State),
    (n.val < 16 → s.reached p (Reg.tsCapEntry0Tb n).addr = true → s.pdOn 10 = true → Runs (.queueEntryRead true n p) s fun t =>
      t.out = (s.send (.readData [BitVec.ofNat 32 (wordFrom (s.capWords n).1)])).out ∧ t = { s with out := t.out, hif := t.hif }) ∧
    (s.reached p (Reg.tsTxqEntry0Tb n).addr = true → s.pdOn (5 + n.val / 32) = true → Runs (.queueEntryRead false n p) s fun t =>
      t.out = (s.send (.readData [BitVec.ofNat 32 (wordFrom (s.txqWords n).1)])).out ∧ t = { s with out := t.out, hif := t.hif }) ∧
    (p.val < 2 → s.on Reg.hifAccErrValid = false → s.reached p (Reg.tsTxqEntry0Tb n).addr = true → s.pdOn (5 + n.val / 32) = false →
      Runs (.queueEntryRead false n p) s fun t => t.txq n = s.txq n ∧ t.rd Reg.hifAccErrType = accNoDomain ∧ t.rd Reg.hifAccErrValid = 1 ∧
        (s.pins.inRange = true → t.out.head? = some (.readData [0])))

/-- A write of a counter configuration that changes EVENT or HIGH, or has CLEAR, zeroes the counter and clears SAT, and one that
changes neither EVENT nor HIGH and does not CLEAR leaves its value; CLEAR zeroes it and clears SAT, and no other counter changes.
GLEAN_CTL keeps K within 4 to 24. A record due is lost, and counted, while the buffer is full and WRAP is 0; while it is not full
it is written at WR_PTR, which moves on, and counted. The close of a bandwidth window that is due copies the totals of its bank,
and one that is not due does nothing. A write of BW_CFG empties both banks. That LEN and STOMPED of the record of a frame still
inside are those of the write is the model's choice (log entry 68) (R346, R349, R353, R356, R357). -/
def Obligations.Monitors : Prop :=
  (∀ (i : Fin 48) (v : Word) (s : State), Runs (.pmonCntCfgWrite i v) s fun t =>
    t.rd (Reg.pmonCntCfgEvent i) = v.toNat % 1024 ∧ t.rd (Reg.pmonCntCfgEnable i) = v.toNat / 1024 % 2 ∧
    t.rd (Reg.pmonCntCfgHigh i) = v.toNat / 2048 % 2 ∧
    (v.toNat % 1024 ≠ s.rd (Reg.pmonCntCfgEvent i) ∨ v.toNat / 2048 % 2 ≠ s.rd (Reg.pmonCntCfgHigh i) ∨ bit v.toNat 12 = true →
      t.c48 (Reg.pmonCntLoCount i) = 0 ∧ t.rd (Reg.pmonCntCfgSat i) = 0) ∧
    (v.toNat % 1024 = s.rd (Reg.pmonCntCfgEvent i) → v.toNat / 2048 % 2 = s.rd (Reg.pmonCntCfgHigh i) → bit v.toNat 12 = false →
      t.cnt48 = s.cnt48)) ∧
  (∀ (i : Fin 48) (s : State), Runs (.pmonCntClear i) s fun t => t.c48 (Reg.pmonCntLoCount i) = 0 ∧ t.rd (Reg.pmonCntCfgSat i) = 0 ∧
    (∀ g : Fld, g.addr ≠ (Reg.pmonCntLoCount i).addr → t.c48 g = s.c48 g) ∧ SameBut [Reg.pmonCntCfgSat i] { s with cnt48 := t.cnt48 } t) ∧
  (∀ (v : Word) (s : State), Runs (.gleanCtlWrite v) s fun t => 4 ≤ t.rd Reg.pmonGleanCtlK ∧ t.rd Reg.pmonGleanCtlK ≤ 24 ∧
    t.rd Reg.pmonGleanCtlRun = v.toNat % 2 ∧ t.rd Reg.pmonGleanCtlWrap = v.toNat / 2 % 2 ∧
    (s.on Reg.pmonGleanCtlRun = false → v.toNat % 2 = 1 → t.pmon.lfsr = s.rd Reg.pmonGleanSeedSeed ∧ t.pmon.tagSeq = 0) ∧
    SameBut [Reg.pmonGleanCtlK, Reg.pmonGleanCtlWrap, Reg.pmonGleanCtlRun] { s with pmon := t.pmon } t) ∧
  (∀ (d : TagDue) (l : List TagDue) (s : State), s.pmon.due = d :: l →
    (s.on Reg.pmonGleanStatusFull = true → s.on Reg.pmonGleanCtlWrap = false → Runs .gleanRecordWrite s fun t =>
      t.rd Reg.pmonGleanLossLost = satAdd Reg.pmonGleanLossLost.width (s.rd Reg.pmonGleanLossLost) 1 ∧
      SameBut [Reg.pmonGleanLossLost] { s with pmon := { s.pmon with due := l } } t) ∧
    (s.on Reg.pmonGleanStatusFull = false → Runs .gleanRecordWrite s fun t => t.pmon.due = l ∧
      Tab.get t.pmon.slots (s.rd Reg.pmonGleanStatusWrPtr) [] = le 4 (if s.pmon.tagSeq + 1 = 2 ^ 32 then 1 else s.pmon.tagSeq + 1) ++
        (if d.id = 0 then d.bytes else (tagRecord (s.frame d.id)).bytes) ∧
      t.rd Reg.pmonGleanStatusWrPtr = (s.rd Reg.pmonGleanStatusWrPtr + 1) % 1024 ∧
      t.rd Reg.pmonTaggedCount = satAdd Reg.pmonTaggedCount.width (s.rd Reg.pmonTaggedCount) 1 ∧
      RegsBut [Reg.pmonGleanStatusWrPtr, Reg.pmonTaggedCount, Reg.pmonGleanStatusFull, Reg.hifIntStatusStatus] s t)) ∧
  (∀ (k : Nat) (s : State), s.bwOn = true → s.bwW ≠ 0 → s.pmon.next = some k → (s.bwDue k = false → exec .bwWindowClose s = .next s) ∧ (s.bwDue k = true →
    Runs .bwWindowClose s fun t =>
    t.rd Reg.pmonBwStatusWin = k % 2 ^ Reg.pmonBwStatusWin.width ∧ t.rd Reg.pmonBwLateValid = 1 ∧ t.pmon.next = some (s.bwNext k) ∧
    ∀ n < 128, t.rd (Reg.pmonBwRxRx n) = Tab.get s.pmon.banks (256 * (k % 2) + 2 * n) 0 % 2 ^ (Reg.pmonBwRxRx n).width ∧
      t.rd (Reg.pmonBwTxTx n) = Tab.get s.pmon.banks (256 * (k % 2) + 2 * n + 1) 0 % 2 ^ (Reg.pmonBwTxTx n).width)) ∧
  ∀ (v : Word) (s : State), Runs (.bwCfgWrite v) s fun t => t.pmon.banks = [] ∧ t.rd Reg.pmonBwCfgEn = v.toNat / 2 ^ 31 ∧
    t.rd Reg.pmonBwCfgTb = v.toNat / 2 ^ 24 % 2 ^ Reg.pmonBwCfgTb.width ∧
    SameBut [Reg.pmonBwCfgEn, Reg.pmonBwCfgTb, Reg.pmonBwCfgWinUs] { s with pmon := t.pmon } t

/-- A beat period that gives a raw phase updates PHASE and RATE of an engine in LOCK or beyond, and takes one in ANCHOR or RUN
back to LOCK, without its averages, where the rate is beyond 20 ppm. A whole averaging window of values within 15 ppm takes LOCK
to ANCHOR and counts it. An exchange interval of a running engine makes the mark due. A completed pair whose marks come from
before an audit is discarded with reason 1. One that passes the checks of Table TT-3, with no earlier round trip to compare it to
or near it, is counted, shows its round trip, its inbound delay and its difference, makes the source fresh and is discarded in no
count. The oldest own mark without a pair for 250 ms is discarded with reason 4. A source with no accepted pair for 250 ms is no
longer fresh. That an own mark with no pair counts as one whose exchange is over, and how its times are told to lie before a
return to ANCHOR or LOCK, are the model's choice (log entry 69), and so is the rounding of PHASE to its unit (log entry 72) (R183,
R184, R185, R190, R192, R193, R194, R195, R197, R199). -/
def Obligations.Engines : Prop :=
  (∀ (n : Fin 128) (x y : List Nat) (c : Nat) (s : State), ttLock ≤ s.ttState n → rawPhase x y = some c → Runs (.ttBeatPeriod n (x, y)) s fun t =>
    let e := s.ttComplete n ((s.eng n).push (s.ttWindow n) c)
    t.rd (Reg.ttLanePhasePhase n) = e.phase % 2 ^ (Reg.ttLanePhasePhase n).width ∧
    t.rd (Reg.ttLaneRateRate n) = encSat 32 e.rate % 2 ^ (Reg.ttLaneRateRate n).width ∧
    (s.ttState n ≠ ttLock → 20000 < e.rate.natAbs → t.ttState n = ttLock ∧ (t.eng n).phis = [] ∧ (t.eng n).lgen = e.lgen + 1) ∧
    (s.ttState n = ttLock ∨ e.rate.natAbs ≤ 20000 → t.ttState n = s.ttState n) ∧
    SameBut [Reg.ttLanePhasePhase n, Reg.ttLaneRateRate n, Reg.ttLaneStatusState n] { s with tt := t.tt } t) ∧
  (∀ (n : Fin 128) (s : State), s.ttState n = ttLock → s.ttWindow n ≤ (s.eng n).lockN → Runs (.ttLockWindowDone n) s fun t =>
    t.ttState n = ttAnchor ∧
    t.rd (Reg.ttLaneCountsAnchors n) = satAdd (Reg.ttLaneCountsAnchors n).width (s.rd (Reg.ttLaneCountsAnchors n)) 1 ∧
    SameBut [Reg.ttLaneStatusState n, Reg.ttLaneCountsAnchors n] { s with tt := t.tt } t) ∧
  (∀ (n : Fin 128) (s : State), s.ttState n = ttRun → Runs (.ttExchangeInterval n) s fun t =>
    t.eng n = { s.eng n with due := true } ∧ t = { s with tt := t.tt }) ∧
  (∀ (n : Fin 128) (m p : Mark) (s : State), s.ttReady n = some (m, p) → m.audit = true ∨ p.audit = true → Runs (.ttPairFormed n) s fun t =>
    t.rd (Reg.ttLaneStatusLastDisc n) = 1 ∧ (t.eng n).own = ((s.eng n).closeOwn m).own ∧
    t.rd (Reg.ttLaneCountsDiscards n) = satAdd (Reg.ttLaneCountsDiscards n).width (s.rd (Reg.ttLaneCountsDiscards n)) 1 ∧
    SameBut [Reg.ttLaneStatusLastDisc n, Reg.ttLaneCountsDiscards n] { s with tt := t.tt } t) ∧
  (∀ (n : Fin 128) (m p : Mark) (s : State), s.ttReady n = some (m, p) → m.audit = false → p.audit = false → m.agen = p.agen →
    p.rate = false → m.lgen = p.lgen → m.st.tb = p.st.tb →
    let tb := (s.ttBase n).1
    let ms := s.ttDiff m.st.tb p.compact p.st.t (p.other.getD 0)
    let rtt := ms + s.ttDiff m.st.tb p.compact (m.other.getD 0) m.st.t
    let alpha := sgn 64 (s.rd (Reg.ttLaneAlphaLoAlphaLo n) + 2 ^ 32 * s.rd (Reg.ttLaneAlphaHiAlphaHi n))
    let dIn := roundDiv (rtt * (2 ^ 48 + alpha)) (2 ^ 49 + alpha).toNat
    p.sentBefore dIn (s.eng n).ancAt = false → p.sentBefore dIn (s.eng n).lockAt = false → ((s.ttBase n).2 = true → p.valid = true ∧ p.source = false ∧ p.gm ≠ s.nodeId) → 0 ≤ rtt →
    rtt ≤ (s.rd (Reg.ttLaneRttMaxRttMax n) * 65536 : Nat) → s.ttJump n (s.eng n) rtt = none → Runs (.ttPairFormed n) s fun t =>
      t.rd (Reg.ttLaneSamplesSamples n) = satAdd (Reg.ttLaneSamplesSamples n).width (s.rd (Reg.ttLaneSamplesSamples n)) 1 ∧
      t.rd (Reg.ttLaneRttLoRttLo n) = sat48 rtt % 2 ^ 32 ∧ t.rd (Reg.ttLaneDInLoDInLo n) = sat48 dIn % 2 ^ 32 ∧
      t.rd (Reg.ttLaneELoELo n) = encSat 48 (ms - dIn) % 2 ^ 32 ∧ t.rd (Reg.ttLaneCountsDiscards n) = s.rd (Reg.ttLaneCountsDiscards n) ∧
      (t.eng n).fresh = true ∧ (t.eng n).rtt = some rtt ∧ (t.eng n).jumps = [] ∧ (t.eng n).own = ((s.eng n).closeOwn m).own ∧
      ((s.ttBase n).2 = true → t.rd (Reg.ttHops tb) = min 255 (p.hops + 1) % 2 ^ (Reg.ttHops tb).width)) ∧
  (∀ (n : Fin 128) (m : Mark) (s : State), (s.eng n).own.find? (fun m => !m.used) = some m → Runs (.ttPairTimeout n) s fun t =>
    t.rd (Reg.ttLaneStatusLastDisc n) = 4 ∧ (t.eng n).own = ((s.eng n).closeOwn m).own ∧
    SameBut [Reg.ttLaneStatusLastDisc n, Reg.ttLaneCountsDiscards n] { s with tt := t.tt } t) ∧
  ∀ (n : Fin 128) (s : State), Runs (.ttHealthTimeout n) s fun t => (t.eng n).fresh = false

/-- A REFMON second puts the second's value at the head of the history of each candidate beyond LOS and counts the ESMC age of
each port that receives it. A REFIN candidate that is not OFF and shows no edges goes to LOS with rank 0, reason 1 and an empty
history, counted where it was not in LOS. A selected candidate that is not LOCKED in time in ACQUIRE is disqualified with reason 3
and counted. With no valid ESMC PDU for 5 s no candidate on a lane of the port keeps the rank of its last one. That AGE_S counts
at the REFMON second is the model's choice (log entry 16); the disqualification after ACQUIRE is R72's and Table FT-2's (R65, R66,
R70, R72, 03_reference_selection.md). -/
def Obligations.Candidates : Prop :=
  (∀ (l : List Int) (a : List Bool) (d e : Int) (s : State), Runs (.refmonSecond l a d e) s fun t =>
    (∀ c < 24, candLos < s.candState c → (t.cand c).hist = (l.getD c 0 :: (s.cand c).hist).take 64) ∧
    (∀ n < 128, s.on (Reg.portCfgEsmcRx n) = true →
      t.rd (Reg.portEsmcRxAgeS n) = satAdd (Reg.portEsmcRxAgeS n).width (s.rd (Reg.portEsmcRxAgeS n)) 1)) ∧
  (∀ (c : Fin 8) (s : State), s.candState c ≠ candOff → Runs (.refinLosTimeout c) s fun t => t.candState c = candLos ∧
    t.rd (Reg.refselCandStatusReason c) = 1 ∧ t.rd (Reg.refselCandStatusRank c) = 0 ∧ (t.cand c).hist = [] ∧
    (s.candState c ≠ candLos → t.rd (Reg.refselCandCountsLosCount c) =
      satAdd (Reg.refselCandCountsLosCount c).width (s.rd (Reg.refselCandCountsLosCount c)) 1)) ∧
  (∀ s : State, s.selected < 24 → s.candState s.selected = candElig → s.rd Reg.refselStateSelState = 1 → Runs .acqFailTimeout s fun t =>
    t.candState s.selected = candDisq ∧ t.rd (Reg.refselCandStatusReason s.selected) = 3 ∧
    t.rd (Reg.refselCandCountsDisqCount s.selected) =
      satAdd (Reg.refselCandCountsDisqCount s.selected).width (s.rd (Reg.refselCandCountsDisqCount s.selected)) 1) ∧
  ∀ (n : Fin 128) (s : State), Runs (.esmcAgeTimeout n) s fun t =>
    ∀ l ∈ s.lanesOf n, ∀ c ∈ s.rcsOfLane l, (t.cand c).esmcRank = 0

/-- From ACQUIRE, a lock leads to LOCKED while the selected candidate stays the choice. The end of DECIDE connects TARGET, begins
SETTLE, counts in COMMITS and shows the measured step, held within half a nominal period. SETTLE ends in LOCKED where the phase
error was in the window and else in ACQUIRE, with no TARGET, while the selected candidate stays the choice. HO_LIMIT takes
HOLDOVER to DISQUALIFIED-ALL where no power state holds the selector. Once for a change of the output rank every open port with
ESMC_TX has an event PDU to send, and at every second an information PDU: it leaves at once where no frame is leaving and no PFC
frame is due, and else waits; after a SCAN none is sent (R69, R73, R75, R79, R142, R372). -/
def Obligations.Selector : Prop :=
  (∀ s : State, s.rd Reg.refselStateSelState = 1 → s.choice = some s.selected → Runs .selAcquireLock s fun t =>
    t.rd Reg.refselStateSelState = 2 ∧ t.on Reg.refselStateEverLocked = true ∧ t.selected = s.selected) ∧
  (∀ (e : Int) (s : State), s.rd Reg.refselStateSelState = 3 → s.rd Reg.refselStatePhase = 1 → s.rd Reg.refselStateTarget < 24 →
    Runs (.selDecideExpire e) s fun t => t.selected = s.rd Reg.refselStateTarget ∧ t.rd Reg.refselStatePhase = 3 ∧
      t.rd Reg.refselStateSelState = 3 ∧ t.rd Reg.refselStepLoStep = enc 48 (s.stepRange (s.rd Reg.refselStateTarget) e) % 2 ^ 32 ∧
      t.rd Reg.refselSwitchesCommits = satAdd Reg.refselSwitchesCommits.width (s.rd Reg.refselSwitchesCommits) 1) ∧
  (∀ (b : Bool) (s : State), s.rd Reg.refselStateSelState = 3 → s.rd Reg.refselStatePhase = 3 → s.choice = some s.selected →
    Runs (.selSettleEnd b) s fun t => t.rd Reg.refselStateSelState = (if b then 2 else 1) ∧ t.rd Reg.refselStateTarget = 31 ∧
      t.rd Reg.refselStatePhase = 0 ∧ t.selected = s.selected) ∧
  (∀ s : State, s.rd Reg.refselStateSelState = 4 → s.on Reg.refselHoLimitSeconds = true → s.refsel.held = false → Runs .selHoldoverLimit s fun t =>
    t.rd Reg.refselStateSelState = 5 ∧ RegsBut [Reg.refselStateSelState, Reg.refselOutQlRank, Reg.hifIntStatusStatus] s t) ∧
  (∀ s : State, s.refsel.qlChanged = true → Runs .esmcEventPdu s fun t => t.refsel = { s.refsel with qlChanged := false } ∧
    t.regs = s.regs ∧ (s.frozen = false → ∀ n < 128, s.on (Reg.portCfgEsmcTx n) = true → s.portState n = portUp → Tab.get s.fab.flf n [] = [] → ∃ b,
      (s.pins.inRange = true → Tab.get s.fab.sending n 0 = 0 → Tab.get s.fab.pfc n 0 = 0 → Out.frame n b ∈ t.out) ∧
      (Tab.get s.fab.sending n 0 ≠ 0 ∨ Tab.get s.fab.pfc n 0 ≠ 0 → b ∈ (Tab.get t.prt n {}).own))) ∧
  (∀ s : State, s.refsel.qlChanged = false → exec .esmcEventPdu s = .next s) ∧
  ∀ s : State, Runs .esmcInfoTick s fun t => t.regs = s.regs ∧ (s.frozen = true → t = s) ∧
    (s.frozen = false → ∀ n < 128, s.on (Reg.portCfgEsmcTx n) = true → s.portState n = portUp → Tab.get s.fab.flf n [] = [] → ∃ b,
      (s.pins.inRange = true → Tab.get s.fab.sending n 0 = 0 → Tab.get s.fab.pfc n 0 = 0 → Out.frame n b ∈ t.out) ∧
      (Tab.get s.fab.sending n 0 ≠ 0 ∨ Tab.get s.fab.pfc n 0 ≠ 0 → b ∈ (Tab.get t.prt n {}).own))

/-- Within its band a root in FREE or REF moves its DCO by at most 2 ppm towards the target and shows LOCK as its detector says,
with no clamp. A root in RELOCK that is done, and one in BAND_SEL within 200 ppm, take the state the selector drives. With both
roots running the standby root shows the measured phase difference. That CLAMP clears with the first update that finds the target
within the band is the model's choice (log entry 67) (R85, R86, R88, R89). -/
def Obligations.Roots : Prop :=
  (∀ (r : Fin 2) (w : Int) (b : Bool) (s : State), s.rootState r = rootFree ∨ s.rootState r = rootRef →
    beyondBand (s.root r).centre w = false → Runs (.rootDcoUpdate r w b) s fun t =>
      t.root r = { s.root r with target := w, dco := dcoStep (s.root r).dco w } ∧ t.on (Reg.synRootStatusLock r) = b ∧
      t.on (Reg.synRootStatusClamp r) = false ∧ t.rootState r = s.rootState r) ∧
  (∀ (r : Fin 2) (s : State), s.rootState r = rootRelock → Runs (.rootRelockDone r) s fun t =>
    t.rootState r = s.syn.conn % 8 ∧ t.on (Reg.synRootStatusLock r) = true ∧ t = { s with regs := t.regs }) ∧
  (∀ (r : Fin 2) (d : Int) (s : State), s.rootState r = rootBandSel → d.natAbs ≤ 200000 → Runs (.rootBandWindow r d) s fun t =>
    t.rootState r = s.syn.conn % 8 ∧ t = { s with regs := t.regs }) ∧
  ∀ (d : Int) (s : State), s.rootRuns 0 = true → s.rootRuns 1 = true → Runs (.standbyTrackMeasure d) s fun t =>
    t.rd Reg.synTrackErr = encSat 16 (5 * d) ∧ -1000 ≤ t.syn.trim ∧ t.syn.trim ≤ 1000 ∧
      t.syn.goodRun ≤ 1024 ∧ (20 < d.natAbs → t.on Reg.synTrackTrackOk = false ∧ t.syn.goodRun = 0)

/-- A locked synthesizer beyond 50 ps in ALIGNED reports to the fault collector, goes to LOST and shows the error. In ALIGNING,
the alignment instant that has not come yet loads the phase and sets the restart of the dividers of its outputs to the whole
second. At the start of the outputs that ALIGNED waits for, its outputs have had their first edge. A loss of lock leaves each of
its outputs not driving; the lock of a synthesizer in use with PD10 on is shown. A write of OE_HOST is shown, and 0 silences the
output. An edge of SYNC_IN on a valid base arms the restart and one while armed is counted; the restart at the second ends it and
is counted. Once a SCAN has stopped clocks, a compare, an alignment instant, a start of outputs and a restart change nothing. That
SYNC_IN works in every power state is the model's choice (log entry 60) (R95, R96, R97, R100, R101, R372). -/
def Obligations.OutputSynthesizers : Prop :=
  (∀ (o : Fin 4) (e : Int) (f : Fin 1099511627776) (s : State), s.rd (Reg.synOsStatusTlState o) = 3 →
    s.on (Reg.synOsStatusLock o) = true → s.frozen = false → 500 < e.natAbs → Runs (.tlCompare o e f) s fun t =>
      t.rd (Reg.synOsStatusTlState o) = 4 ∧ (t.line (0x54 + o.val)).cause = true ∧ t.rd (Reg.synOsStatusTlErr o) = encSat 16 e ∧
      (t.os o).frac = f.val) ∧
  (∀ (o : Fin 4) (s : State), s.rd (Reg.synOsStatusTlState o) = 2 → (s.os o).placed = false → s.frozen = false →
    Runs (.tlAlignInstant o) s fun t => (t.os o).placed = true ∧ t = { s with syn := t.syn } ∧
    ∀ n < 12, s.rd (Reg.synCkoCfgOs n) = o → (t.cko n).restart = some (s.os o).second) ∧
  (∀ (o : Fin 4) (s : State), (s.os o).start = true → s.frozen = false → Runs (.tlOutputStart o) s fun t => (t.os o).start = false ∧
    ∀ n < 12, s.rd (Reg.synCkoCfgOs n) = o → (t.cko n).edge = true) ∧
  (∀ (o : Fin 4) (s : State), s.on (Reg.synOsStatusLock o) = true → Runs (.synthLockLoss o) s fun t =>
    t.on (Reg.synOsStatusLock o) = false ∧ ∀ n < 12, s.rd (Reg.synCkoCfgOs n) = o → t.on (Reg.synCkoCtlDriving n) = false) ∧
  (∀ (o : Fin 4) (s : State), s.on (Reg.synOsCfgMode o) = true → s.on (Reg.synOsStatusLock o) = false →
    bit (s.rd Reg.pwrDomainsOn) 10 = true → Runs (.synthesizerLocked o) s fun t => t.on (Reg.synOsStatusLock o) = true) ∧
  (∀ (n : Fin 12) (b : Bool) (s : State), Runs (.ckoOeHostWrite n b) s fun t => t.on (Reg.synCkoCtlOeHost n) = b ∧
    t.on (Reg.synCkoCtlDriving n) = t.ckoDrives n ∧ (b = false → t.on (Reg.synCkoCtlDriving n) = false) ∧
    SameBut [Reg.synCkoCtlOeHost n, Reg.synCkoCtlDriving n] s t) ∧
  (∀ (b : Bool) (s : State), b ≠ s.on Reg.synSyncCfgPol → 
    (s.on Reg.synSyncStatusPending = false → s.tbValid (s.rd Reg.synSyncCfgTb) = true → Runs (.syncInEdge b) s fun t =>
      t.syn = { s.syn with sync := some (secondAfter (s.atb (s.rd Reg.synSyncCfgTb)).t) } ∧ t.on Reg.synSyncStatusPending = true ∧
      RegsBut [Reg.synSyncStatusPending] s t) ∧
    (s.on Reg.synSyncStatusPending = true → Runs (.syncInEdge b) s fun t => SameBut [Reg.synSyncStatusIgnored] s t ∧
      t.rd Reg.synSyncStatusIgnored = satAdd Reg.synSyncStatusIgnored.width (s.rd Reg.synSyncStatusIgnored) 1)) ∧
  (∀ (o : Fin 4) (e : Int) (f : Fin 1099511627776) (s : State), s.frozen = true →
    ∀ c ∈ [Instr.tlCompare o e f, .tlAlignInstant o, .tlOutputStart o, .syncRestart], exec c s = .next s) ∧
  ∀ (k : Nat) (s : State), s.syn.sync = some k → s.frozen = false → Runs .syncRestart s fun t => t.syn.sync = none ∧
    t.on Reg.synSyncStatusPending = false ∧
    t.rd Reg.synSyncStatusDone = satAdd Reg.synSyncStatusDone.width (s.rd Reg.synSyncStatusDone) 1 ∧
    (∀ n < 12, s.on (Reg.synCkoCfgSyncEn n) = true → (t.cko n).restart = some k) ∧
    RegsBut [Reg.synSyncStatusPending, Reg.synSyncStatusDone] s t

/-- DOWN with its quad locked and nothing holding it leads to DETECT; in DETECT a burst of 2 048 bits leaves the lane; energy
leads to TRAIN, CDR lock to ALIGN, in automatic mode a matched position with three good markers to VERIFY, a position without them
to the next slip, and the last of 128 to RETRY; the timeouts of TRAIN and VERIFY lead to RETRY, which is counted; after the
backoff, which doubles up to 1 000 ms, DETECT; UP for 1 s sets the backoff to 1 ms. A loss of signal in TRAIN, or from ALIGN to UP
with a partner that is not quiet, leads to DOWN and is counted and flagged, and the latter changes the state of no other lane
(R117, R118, R119, R120, 05_leat_lanes.md). -/
def Obligations.LaneTraining : Prop :=
  (∀ (n : Fin 128) (s : State), s.isLeat n = true → s.tstate n = laneDown → s.on (Reg.laneStateQpllLock n) = true →
    s.laneHeld n = false → s.laneOn n = true → s.inPhase 10 = false → Runs (.laneDownWait n) s fun t => t.tstate n = laneDetect ∧
      t.rd (Reg.laneStateGen n) = wrapAdd (Reg.laneStateGen n).width (s.rd (Reg.laneStateGen n)) 1 ∧
      RegsBut [Reg.laneStateTstate n, Reg.laneStateGen n] s t ∧ ∃ l, t.out = (s.send (.line n l)).out) ∧
  (∀ (n : Fin 128) (s : State), s.isLeat n = true → s.tstate n = laneDetect → Runs (.detectBurstTimer n) s fun t =>
    t.regs = s.regs ∧ ∃ l, t.out = (s.send (.line n l)).out ∧ l.length = 2048) ∧
  (∀ (n : Fin 128) (s : State), s.tstate n = laneDetect → Runs (.laneEnergyDetect n) s fun t => t.tstate n = laneTrain ∧
    SameBut [Reg.laneStateTstate n, Reg.laneStateGen n] s t) ∧
  (∀ (n : Fin 128) (s : State), s.tstate n = laneTrain →
    Runs (.laneCdrLocked n) s (fun t => t.tstate n = laneAlign ∧ SameBut [Reg.laneStateTstate n, Reg.laneStateGen n, Reg.laneManStatusMarkerSeen n] { s with lan := t.lan } t) ∧
    Runs (.laneTrainTimeout n) s (fun t => t.tstate n = laneRetry ∧
      t.rd (Reg.laneEventsRetries n) = satAdd (Reg.laneEventsRetries n).width (s.rd (Reg.laneEventsRetries n)) 1) ∧
    Runs (.laneLosTimeout n) s fun t => t.tstate n = laneDown ∧ t.on (Reg.laneErrLos n) = true ∧
      t.rd (Reg.laneLosEvtCount n) = satAdd (Reg.laneLosEvtCount n).width (s.rd (Reg.laneLosEvtCount n)) 1) ∧
  (∀ (n : Fin 128) (m : Fin 100) (b d : Bool) (s : State), s.tstate n = laneAlign → s.on (Reg.laneStateManual n) = false →
    (b = true → d = true → Runs (.alignPositionWatch n b d m) s fun t => t.tstate n = laneVerify ∧ (t.ln n).rxMsn = m.val) ∧
    ((b && d) = false → (s.ln n).tried < 127 → Runs (.alignPositionWatch n b d m) s fun t => t.tstate n = laneAlign ∧
      t.rd (Reg.laneStateSlip n) = (s.rd (Reg.laneStateSlip n) + 1) % 32 ∧ (t.ln n).tried = (s.ln n).tried + 1 ∧
      RegsBut [Reg.laneStateSlip n, Reg.laneManStatusMarkerSeen n] s t) ∧
    ((b && d) = false → (s.ln n).tried = 127 → Runs (.alignPositionWatch n b d m) s fun t => t.tstate n = laneRetry)) ∧
  (∀ (n : Fin 128) (s : State), s.tstate n = laneVerify → Runs (.laneVerifyTimeout n) s fun t => t.tstate n = laneRetry ∧
    t.rd (Reg.laneEventsRetries n) = satAdd (Reg.laneEventsRetries n).width (s.rd (Reg.laneEventsRetries n)) 1) ∧
  (∀ (n : Fin 128) (s : State), s.tstate n = laneRetry → Runs (.laneBackoffExpire n) s fun t => t.tstate n = laneDetect ∧
    t.rd (Reg.laneBackoffMs n) = min (2 * s.rd (Reg.laneBackoffMs n)) 1000 % 2 ^ (Reg.laneBackoffMs n).width) ∧
  (∀ (n : Fin 128) (s : State), s.tstate n = laneUp → Runs (.laneUpStable n) s fun t => t.rd (Reg.laneBackoffMs n) = 1 ∧
    SameBut [Reg.laneBackoffMs n] s t) ∧
  ∀ (n : Fin 128) (s : State), laneAlign ≤ s.tstate n → s.tstate n ≤ laneUp → s.on (Reg.laneStateQuietRx n) = false →
    Runs (.laneLosSignal n) s fun t => t.tstate n = laneDown ∧ t.on (Reg.laneErrLos n) = true ∧
      t.rd (Reg.laneLosEvtCount n) = satAdd (Reg.laneLosEvtCount n).width (s.rd (Reg.laneLosEvtCount n)) 1 ∧
      ∀ m, m ≠ n.val → t.tstate m = s.tstate m

/-- A lane from TRAIN to UP that is not quiet, with no frame waiting that has not started, sends its next superblock and steps its
number, with the reserve's empty cycles counted, up to the word-clock cycles of the superblock sent last, where the reserve is
empty and the fabric holds a frame for the lane; while one waits that has not started the superblock waits with it. A superblock
received in TRAIN or ALIGN counts its stuff bits and leaves the state. In VERIFY a wrong SYNC is counted as a marker error and
leads back to ALIGN; in VERIFY and UP, from a partner that is not quiet, a data superblock with SYNC and the MSN due extends the
run of good ones. A timing frame with a good CRC in VERIFY sets the quiet flag and the fill flag that it carries and ends the run
of missed ones. That a superblock waits for the frame whose words it is to carry, and an operand of empty cycles beyond a
superblock's, are the model's choice (log entry 71) (R107, R108, R110, R113, R115, R119, R372). -/
def Obligations.Superblocks : Prop :=
  (∀ (n : Fin 128) (c b e : Nat) (s : State), s.isLeat n = true → laneTrain ≤ s.tstate n → s.tstate n ≤ laneUp → (s.ln n).quiet = 0 →
    (s.frozen = false → s.streamWaits n = false → Runs (.superblockTransmit n c b e) s fun t => (t.ln n).msn = ((s.ln n).msn + 1) % 100 ∧
      (s.pins.inRange = true → ∃ l, t.out.head? = some (.line n l)) ∧ t.c48 (Reg.laneResEmptyLoCount n) =
        satAdd 48 (s.c48 (Reg.laneResEmptyLoCount n)) (if (s.ln n).backlog = 0 ∧ s.fabricHolds n = true then min e (s.ln n).wordCycles else 0)) ∧
    (s.frozen = true ∨ s.streamWaits n = true → exec (.superblockTransmit n c b e) s = .next s)) ∧
  (∀ (n : Fin 128) (l : List Bool) (c b k q : Nat) (s : State), s.isLeat n = true →
    let d := (s.lineBits n l).1
    let m := ofBits ((d.drop 24).take 8)
    (s.tstate n = laneTrain ∨ s.tstate n = laneAlign → Runs (.superblockReceived n l c b (k, q)) s fun t => t.tstate n = s.tstate n ∧
      t.c48 (Reg.laneStuffRxLoCount n) = satAdd 48 (s.c48 (Reg.laneStuffRxLoCount n)) (s.lineBits n l).2.1) ∧
    (s.tstate n = laneVerify → ofBits (d.take 24) ≠ 0xB5C2E9 → Runs (.superblockReceived n l c b (k, q)) s fun t => t.tstate n = laneAlign ∧
      t.c48 (Reg.laneMarkErrLoCount n) = satAdd 48 (s.c48 (Reg.laneMarkErrLoCount n)) 1) ∧
    (s.tstate n = laneVerify ∨ s.tstate n = laneUp → ofBits (d.take 24) = 0xB5C2E9 → m ≤ 99 → m = ((s.ln n).rxMsn + 1) % 100 → m ≠ 0 →
      s.on (Reg.laneStateQuietRx n) = false → Runs (.superblockReceived n l c b (k, q)) s fun t =>
        (t.ln n).good = min 64 ((s.ln n).good + 1) ∧ (t.ln n).rxMsn = m)) ∧
  ∀ (n : Fin 128) (f : List Byte) (s : State), s.isLeat n = true → s.tstate n = laneVerify → f.length = 125 →
    crc16 (f.take 123) = beAt f 123 2 → Runs (.timingFrameReceived n f) s fun t =>
      t.on (Reg.laneStateQuietRx n) = bit (u8 f 0) 3 ∧ (t.ln n).missed = 0 ∧ (t.ln n).fillOn = bit (u8 f 0) 2

/-- A lane in UP with IDLE_EN and nothing to send schedules its quiet entry; a quiet transmitter schedules its exit at the request
and its wake at the wake timer; the burst that is scheduled leaves the lane. A health window ends with its counts at zero, and
with too many marker errors or out of UP gives health 0. CLEAR zeroes the PRBS counters and a locked checker counts 1 024 bits in
a block. MAN_CMD code 0 is answered OK, a command with another GEN STALE, one with the right GEN but without MANUAL_ALLOW
NOT_ALLOWED, a reserved code with both WRONG_STATE. With both, on a Leat lane: HOLD takes the lane to DOWN and moves no other; of
a lane in hold and not in the PRBS mode LINE, RELEASE ends the hold in automatic and MANUAL_TRAIN in manual mode; in manual mode
and ALIGN, SLIP moves on by one position and forgets a seen marker, and ACCEPT of a seen marker leads to VERIFY. The order of
STALE, NOT_ALLOWED and WRONG_STATE is the model's choice (log entry 46) (R121, R122, R124, R125, R127, R425). -/
def Obligations.LaneService : Prop :=
  (∀ (n : Fin 128) (s : State), s.isLeat n = true → s.tstate n = laneUp → s.on (Reg.laneCfgIdleEn n) = true → (s.ln n).quiet = 0 →
    s.nothingToSend n = true → Runs (.quietEntry n) s fun t => t.ln n = { s.ln n with quiet := 1 } ∧ t = { s with lan := t.lan }) ∧
  (∀ (n : Fin 128) (s : State), (s.ln n).quiet = 2 →
    Runs (.quietExitRequest n) s (fun t => t.ln n = { s.ln n with quiet := 3 } ∧ t = { s with lan := t.lan }) ∧
    Runs (.quietWakeTimer n) s (fun t => t.ln n = { s.ln n with quiet := 5 } ∧ t = { s with lan := t.lan })) ∧
  (∀ (n : Fin 128) (s : State), (s.ln n).quiet = 3 → Runs (.quietBurstStart n) s fun t => (t.ln n).quiet = 4 ∧ t.regs = s.regs ∧
    ∃ l, t.out = (s.send (.line n l)).out) ∧
  (∀ (n : Fin 128) (s : State), s.isLeat n = true → Runs (.laneHealthWindow n) s fun t => (t.ln n).markWin = 0 ∧ (t.ln n).fillWin = 0 ∧
    (s.rd (Reg.laneHlthCfgMarkLim n) < (s.ln n).markWin ∨ s.tstate n ≠ laneUp → t.on (Reg.laneStateHealth n) = false)) ∧
  (∀ (n : Fin 128) (s : State), Runs (.prbsClear n) s fun t => t.c48 (Reg.lanePrbsBitsLoCount n) = 0 ∧ t.c48 (Reg.lanePrbsErrLoCount n) = 0 ∧
    t = { s with cnt48 := t.cnt48 }) ∧
  (∀ (n : Fin 128) (x : Fin 2147483648) (l : List Bool) (s : State), s.prbsActive n = true → s.on (Reg.lanePrbsStatusLock n) = true →
    Runs (.prbsCheckerBlock n x l) s fun t => t.c48 (Reg.lanePrbsBitsLoCount n) = satAdd 48 (s.c48 (Reg.lanePrbsBitsLoCount n)) 1024 ∧
      RegsBut [Reg.lanePrbsStatusLock n] s t) ∧
  (∀ (n : Fin 128) (s : State), Runs (.laneManNop n) s fun t => t.rd (Reg.laneManStatusResult n) = 0 ∧ SameBut [Reg.laneManStatusResult n] s t) ∧
  (∀ (n : Fin 128) (g : Fin 65536) (s : State),
    ∀ c ∈ [Instr.laneHold n g, .laneRelease n g, .laneManualTrain n g, .laneSlip n g, .laneAccept n g, .laneManReserved n g],
      (s.on (Reg.laneCfgManualAllow n) = false → g.val = s.rd (Reg.laneStateGen n) → Runs c s fun t =>
        t.rd (Reg.laneManStatusResult n) = 2 ∧ SameBut [Reg.laneManStatusResult n] s t) ∧
      (g.val ≠ s.rd (Reg.laneStateGen n) → Runs c s fun t =>
        t.rd (Reg.laneManStatusResult n) = 1 ∧ SameBut [Reg.laneManStatusResult n] s t)) ∧
  ∀ (n : Fin 128) (g : Fin 65536) (s : State), s.on (Reg.laneCfgManualAllow n) = true → g.val = s.rd (Reg.laneStateGen n) →
    Runs (.laneManReserved n g) s (fun t => t.rd (Reg.laneManStatusResult n) = 3 ∧ SameBut [Reg.laneManStatusResult n] s t) ∧
    (s.isLeat n = true → Runs (.laneHold n g) s fun t => t.rd (Reg.laneManStatusResult n) = 0 ∧ t.tstate n = laneDown ∧
      (t.ln n).hostHeld = true ∧ t.on (Reg.laneStateHeld n) = true ∧ ∀ m, m ≠ n.val → t.tstate m = s.tstate m) ∧
    (s.isLeat n = true → s.rd (Reg.lanePrbsCtlMode n) ≠ 1 → (s.ln n).hostHeld = true → Runs (.laneRelease n g) s fun t =>
      t.rd (Reg.laneManStatusResult n) = 0 ∧ (t.ln n).hostHeld = false ∧ t.on (Reg.laneStateManual n) = false) ∧
    (s.isLeat n = true → s.rd (Reg.lanePrbsCtlMode n) ≠ 1 → (s.ln n).hostHeld = true → Runs (.laneManualTrain n g) s fun t =>
      t.rd (Reg.laneManStatusResult n) = 0 ∧ (t.ln n).hostHeld = false ∧ t.on (Reg.laneStateManual n) = true) ∧
    (s.isLeat n = true → s.on (Reg.laneStateManual n) = true → s.tstate n = laneAlign →
      Runs (.laneSlip n g) s (fun t => t.rd (Reg.laneManStatusResult n) = 0 ∧
        t.rd (Reg.laneStateSlip n) = (s.rd (Reg.laneStateSlip n) + 1) % 32 ∧ t.on (Reg.laneManStatusMarkerSeen n) = false ∧
        SameBut [Reg.laneManStatusResult n, Reg.laneStateSlip n, Reg.laneManStatusMarkerSeen n] s t) ∧
      (s.on (Reg.laneManStatusMarkerSeen n) = true → Runs (.laneAccept n g) s fun t => t.rd (Reg.laneManStatusResult n) = 0 ∧
        t.tstate n = laneVerify))

/-- A quad PLL in a powered quadrant that locks shows LOCK on its four lanes and ends its report; one that unlocks clears them,
takes its Leat lanes to DOWN and is reported. A port in LOCK goes to UP after 1 ms of lock, and no other with it, or flags the
timeout. Where no frame is arriving, remote fault takes UP to RFAULT and a lost lock leads to LOCK with its flags; the end of the
remote fault leads back to UP (R105, R118, R134, R135). -/
def Obligations.QuadsAndPorts : Prop :=
  (∀ (q : Fin 32) (s : State), bit s.boot.quadsOn q = true → s.pdOn (5 + q.val / 8) = true → Runs (.quadPllLock q) s fun t =>
    (t.line (0x60 + q.val)).cause = false ∧ bit t.boot.quadsDone q = true ∧ ∀ i < 4, t.on (Reg.laneStateQpllLock (4 * q.val + i)) = true) ∧
  (∀ (q : Fin 32) (s : State), s.on (Reg.laneStateQpllLock (4 * q.val)) = true → Runs (.quadPllUnlock q) s fun t =>
    (t.line (0x60 + q.val)).cause = true ∧ ∀ i < 4, t.on (Reg.laneStateQpllLock (4 * q.val + i)) = false ∧
      (s.isLeat (4 * q.val + i) = true → t.tstate (4 * q.val + i) = laneDown)) ∧
  (∀ (n : Fin 128) (s : State), s.portState n = portLock →
    Runs (.portLockAchieved n) s (fun t => t.portState n = portUp ∧ ∀ m, m ≠ n.val → t.portState m = s.portState m) ∧
    Runs (.portLockTimeout n) s fun t => t.on (Reg.portErrLockTimeout n) = true ∧ RegsBut [Reg.portErrLockTimeout n] s t) ∧
  (∀ (n : Fin 128) (s : State), s.portState n = portUp → Tab.get s.fab.arrive n 0 = 0 → Runs (.portRemoteFaultRx n) s fun t =>
    t.portState n = portRfault) ∧
  (∀ (n : Fin 128) (s : State), s.portState n = portRfault → Runs (.portRemoteFaultClear n) s fun t => t.portState n = portUp) ∧
  ∀ (n : Fin 128) (b : Bool) (s : State), s.portState n = portUp ∨ s.portState n = portRfault → Tab.get s.fab.arrive n 0 = 0 →
    Runs (.portLockLoss n b) s fun t => t.portState n = portLock ∧ t.on (Reg.portErrLockLoss n) = true ∧
      (b = true → t.on (Reg.portErrHiBer n) = true)

/-- On a port in UP: a PFC frame of a legal length with a good FCS, with PFC enabled, is counted and shows for each class it names
whether its quanta are not zero, and leaves the others; one with a bad FCS is counted and does nothing else. A pause that runs out
clears its bit. Due classes go out in one PFC frame between frames, where no fixed-latency frame is to leave; half of the quanta
makes the held-off lossless classes due again. A valid ESMC PDU on a port that takes them sets the port's SSM and enhanced code
and its age to 0, and one with a bad FCS is counted and does nothing else. With no frame under way, a whole frame of a legal
length with a good FCS that is not for the host and that the VLAN rules drop is counted as received and as dropped and enters no
buffer; it uses its sequence number and, where it is a fence frame, a fence generation. The head of a frame that is not for the
host and that they do not drop takes the next frame number once its header is there, and so does the head of one from a Leat lane
in UP whose stream reader drops no bytes. The byte layouts of PFC frames and ESMC PDUs (log entry 16), and when the head of a
frame shows whether it is for the host (log entry 62), are the model's choice (R112, R136, R139, R141, R142, R144). -/
def Obligations.PortFrames : Prop :=
  (∀ (n : Fin 128) (b : List Byte) (s : State), s.portState n = portUp → beAt b 12 2 = 0x8808 → beAt b 14 2 = 0x0101 →
    (64 ≤ b.length → b.length ≤ s.rd (Reg.portMaxlenLen n) → fcsGood b = true → s.on (Reg.portPfcCfgPfcEn n) = true → Runs (.pfcFrameReceived n b) s fun t =>
      t.c48 (Reg.portRxPfcLoCount n) = satAdd 48 (s.c48 (Reg.portRxPfcLoCount n)) 1 ∧
      t.c48 (Reg.portRxBytesLoCount n) = satAdd 48 (s.c48 (Reg.portRxBytesLoCount n)) b.length ∧
      t.rd (Reg.portLinkRxPaused n) = t.rd (Reg.fabDestStatusPaused n) ∧ ∀ c < 8, bit (t.rd (Reg.fabDestStatusPaused n)) c =
        if bit (beAt b 16 2) c then decide (beAt b (18 + 2 * c) 2 ≠ 0) else bit (s.rd (Reg.fabDestStatusPaused n)) c) ∧
    (64 ≤ b.length → b.length ≤ s.rd (Reg.portMaxlenLen n) → fcsGood b = false → Runs (.pfcFrameReceived n b) s fun t =>
      t.c48 (Reg.portRxFcsErrLoCount n) = satAdd 48 (s.c48 (Reg.portRxFcsErrLoCount n)) 1 ∧ t = { s with cnt48 := t.cnt48 })) ∧
  (∀ (n : Fin 128) (c : Fin 8) (s : State), s.isPort n = true → Runs (.pfcPauseExpire n c) s fun t =>
    bit (t.rd (Reg.fabDestStatusPaused n)) c = false ∧ bit (t.rd (Reg.portLinkRxPaused n)) c = false ∧
    SameBut [Reg.fabDestStatusPaused n, Reg.portLinkRxPaused n] { s with prt := t.prt } t) ∧
  (∀ (n : Fin 128) (s : State), s.portState n = portUp → Tab.get s.fab.pfc n 0 ≠ 0 → Tab.get s.fab.sending n 0 = 0 →
    s.frozen = false → Tab.get s.fab.flf n [] = [] →
    Runs (.pfcFrameSend n) s fun t => (∃ b, (s.pins.inRange = true → .frame n b ∈ t.out) ∧ ((Tab.get s.prt n {}).own = [] → t.out = (s.send (.frame n b)).out)) ∧
      Tab.get t.fab.pfc n 0 = 0 ∧ t.regs = s.regs ∧
      t.c48 (Reg.portTxPfcLoCount n) = satAdd 48 (s.c48 (Reg.portTxPfcLoCount n)) 1) ∧
  (∀ (n : Fin 128) (s : State), s.portState n = portUp → s.on (Reg.portPfcCfgPfcEn n) = true → Runs (.pfcRepeatTimer n) s fun t =>
    t = { s with fab := t.fab } ∧ ∀ c < 8, bit (Tab.get t.fab.pfc n 0) c = (bit (Tab.get s.fab.pfc n 0) c ||
      (bit (s.rd (Reg.fabDestStatusXoff n)) c && bit (s.rd (Reg.portPfcCfgLossless n)) c))) ∧
  (∀ (n : Fin 128) (b : List Byte) (s : State), s.portState n = portUp → isEsmc b = true →
    (64 ≤ b.length → b.length ≤ s.rd (Reg.portMaxlenLen n) → fcsGood b = false → Runs (.esmcPduReceived n b) s fun t =>
      t.c48 (Reg.portEsmcBadLoCount n) = satAdd 48 (s.c48 (Reg.portEsmcBadLoCount n)) 1 ∧ t = { s with cnt48 := t.cnt48 }) ∧
    (∀ q e : Nat, esmcTlvs 4 ((bodyOf b).drop 24) = (some q, e) → 64 ≤ b.length → b.length ≤ s.rd (Reg.portMaxlenLen n) → fcsGood b = true →
      u8 b 20 / 16 = 1 → s.on (Reg.portCfgEsmcRx n) = true →
      Runs (.esmcPduReceived n b) s fun t => t.rd (Reg.portEsmcRxAgeS n) = 0 ∧
        t.rd (Reg.portEsmcRxSsm n) = q % 2 ^ (Reg.portEsmcRxSsm n).width ∧ t.rd (Reg.portEsmcRxEnh n) = e % 2 ^ (Reg.portEsmcRxEnh n).width)) ∧
  (∀ (n : Fin 128) (b : List Byte) (r f g : Nat) (s : State), s.portState n = portUp → s.isPort n = true → s.framesOn = true →
    s.began n = false → s.hostReason n b = none → beAt b 12 2 ≠ 0x8808 → isEsmc b = false →
    (64 ≤ b.length → b.length ≤ s.rd (Reg.portMaxlenLen n) → fcsGood b = true → s.vlanDrops n b = true →
      Runs (.ethFrameReceived n b false r false f g) s fun t =>
        t.c48 (Reg.portRxVlanDropLoCount n) = satAdd 48 (s.c48 (Reg.portRxVlanDropLoCount n)) 1 ∧
        t.c48 (Reg.portRxFramesLoCount n) = satAdd 48 (s.c48 (Reg.portRxFramesLoCount n)) 1 ∧ t.fab = { s.fab with seqs := t.fab.seqs, fgs := t.fab.fgs }) ∧
    (headKnown b = true → s.vlanDrops n b = false → Runs (.ethFrameReceived n b false r true f g) s fun t => t.fab.next = s.fab.next + 1)) ∧
  ∀ (n : Fin 128) (c : Fin 8) (l : Fin 16384) (b : List Byte) (k : Bool) (r : Nat) (s : State), s.tstate n = laneUp → s.isLeat n = true →
    s.framesOn = true → s.began n = false → (s.ln n).rx.phase ≠ 4 → headKnown b = true → s.hostReason n b = none → Runs (.leatFrameReceived n c l b k r true) s fun t =>
      t.fab.next = s.fab.next + 1

/-- With PD3 and PD4 running and room for later passes, a first pass that is to be made again, because a read collides or meets a
write, takes the frame at the front of its lane as pass 1, stamps it with the epoch and puts it among the later passes, marked
where a read met a write. A later pass that meets a write counts the passes, up to 4, marks the frame and keeps it. With nothing
held for order and cells enough: a first pass that meets no write and whose VLAN entry is not there discards the frame, counted in
VLAN_DROP; a later pass at the second level that decides for one egress, which takes frames, ends the frame's passes with it as
the only copy, in that VLAN and class. A free egress that picks a class sends the first copy of its queue; under HALT_DEVICE and
under a SCAN stop none starts. The end of a copy leaves the egress free and a frame on its line, but on a lane whose reserve does
not yet hold what is left of a copy, which waits. In its cycle, of the two that fab.cyc stands for, the fixed-latency frame of a
free egress that is due first leaves it and is counted, where it has ended or may be cut through, is not refused, its class is not
paused and no secondary of a reverted pair still drains it. A timeout with a held frame that no fence blocks is counted, and with
none held nothing happens. That fab.cyc stands for two K2 cycles, so that the frame leaves in either (log entry 4), and that a
stored copy ends on a lane once the reserve holds what is left of it (log entry 71), are the model's choice (R250, R252, R280,
R292, R294, R300, R301, R318, R372). -/
def Obligations.Forwarding : Prop :=
  (∀ (p : Fin 4) (l id : Nat) (r b : Bool) (w : List Nat) (k : List (Nat × Nat)) (s : State), s.pdOn 3 = true → s.pdOn 4 = true →
    (s.laterOf p).length < 32 → s.nextLane p = some l → s.waiting l = id :: w → b = true ∨ (r = true ∧ (s.frame id).recirc = false) →
      Runs (.lookupFirstPass p b r k) s fun t => t.waiting l = w ∧ t.laterOf p = s.laterOf p ++ [id] ∧ (t.frame id).stage = 1 ∧
        (t.frame id).passes = 1 ∧ (t.frame id).epoch = s.rd Reg.tblEpochCurrent ∧ (b = false → (t.frame id).recirc = true)) ∧
  (∀ (p : Fin 4) (id : Nat) (w : List Nat) (k : List (Nat × Nat)) (s : State), s.laterOf p = id :: w → (s.frame id).recirc = false → (s.frame id).lost = false →
    Runs (.lookupLaterPass p true k) s fun t => (t.frame id).passes = min 4 ((s.frame id).passes + 1) ∧ (t.frame id).recirc = true ∧
      t.laterOf p = s.laterOf p) ∧
  (∀ (p : Fin 4) (l id : Nat) (w : List Nat) (s : State), s.pdOn 3 = true → s.pdOn 4 = true → (s.laterOf p).length < 32 →
    s.nextLane p = some l → s.waiting l = id :: w → s.fab.held = [] → (s.frame id).level2 = false → id ∉ s.laterOf p →
    (s.vlanLookup (s.frame id).vid).1 = none →
    cellsOf ((s.frame id).bytes.length + (if (s.frame id).trailer then 12 else 0)) ≤ (s.frame id).shared + (s.frame id).head →
      Runs (.lookupFirstPass p false false []) s fun t => t.waiting l = w ∧ t.laterOf p = s.laterOf p ∧ t.frame id = {} ∧
        t.rd Reg.tblCntVlanDrop = satAdd Reg.tblCntVlanDrop.width (s.rd Reg.tblCntVlanDrop) 1 ∧ t.fab.queues = s.fab.queues) ∧
  (∀ (p : Fin 4) (e id v c : Nat) (r : Bool) (w : List Nat) (s : State), s.laterOf p = id :: w → s.fab.held = [] → s.halted = false →
    (s.frame id).level2 = true → (s.frame id).bad = false → (s.frame id).lost = false → (s.lookup2 p (s.frame id)).1 = .done ⟨0, [e]⟩ v c r false → s.resolve e = some e →
    s.inUse e = true → cellsOf ((s.frame id).bytes.length + (if r then 12 else 0)) ≤ (s.frame id).shared + (s.frame id).head →
      Runs (.lookupLaterPass p false []) s fun t => t.laterOf p = w ∧ (t.frame id).stage = 2 ∧ (t.frame id).action = 0 ∧
        (t.frame id).copies = [e] ∧ (t.frame id).outVid = v ∧ (t.frame id).tc = c ∧ (t.frame id).passes = min 4 ((s.frame id).passes + 1) ∧
        ((s.frame id).passes = 1 → t.rd Reg.tblCntPass2 = satAdd Reg.tblCntPass2.width (s.rd Reg.tblCntPass2) 1)) ∧
  (∀ (e : Fin 128) (c id r f : Nat) (w : List Nat) (s : State), s.egressFree e = true → (((s.ownSend e).purgeHeads e).pickClass e).1 = some c →
    (((s.ownSend e).purgeHeads e).pickClass e).2.queue e c = id :: w → Runs (.egressFrameStart e r f) s fun t =>
      Tab.get t.fab.sending e 0 = id ∧ (t.frame id).left = true ∧ t.queue e c = w) ∧
  (∀ (e : Fin 128) (r f : Nat) (s : State), s.halted = true ∨ s.frozen = true → exec (.egressFrameStart e r f) s = .next s) ∧
  (∀ (e : Fin 128) (s : State), Tab.get s.fab.sending e 0 ≠ 0 → s.frozen = false →
    ((Tab.get s.lan e {}).early = false ∨ (Tab.get s.lan e {}).backlog ≤ 512 → Runs (.egressFrameEnd e) s fun t =>
      Tab.get t.fab.sending e 0 = 0 ∧ (s.pins.inRange = true → ∃ b, .frame e b ∈ t.out)) ∧
    ((Tab.get s.lan e {}).early = true → 512 < (Tab.get s.lan e {}).backlog → exec (.egressFrameEnd e) s = .next s)) ∧
  (∀ (e : Fin 128) (s : State), s.frozen = true → exec (.egressFrameEnd e) s = .next s) ∧
  (∀ (e : Fin 128) (id r f : Nat) (s : State), s.flfNext e = some id → s.egressFree e = true → s.revertHolds e (s.frame id).tc = false →
    s.refuseCopy e id = none → bit (s.rd (Reg.fabDestStatusPaused e)) (s.frame id).tc = false → (s.frame id).ended = true ∨ s.ctOk (s.frame id) e = true → s.fab.cyc ≤ s.flfDue (s.frame id) →
    s.flfDue (s.frame id) < s.fab.cyc + 2 →
    Runs (.flfDeparture e r f) s fun t => Tab.get t.fab.sending e 0 = id ∧ Tab.get t.fab.flf e [] = (Tab.get s.fab.flf e []).erase id ∧
      t.rd Reg.fabCntFlfFrames = satAdd Reg.fabCntFlfFrames.width (s.rd Reg.fabCntFlfFrames) 1) ∧
  (∀ (e : Fin 128) (id : Nat) (s : State), (s.held e).find? (fun id => !s.fenceBlocked (s.frame id)) = some id →
    Runs (.reseqTimeoutRelease e) s fun t => t.rd Reg.fabCntTimeouts = satAdd Reg.fabCntTimeouts.width (s.rd Reg.fabCntTimeouts) 1) ∧
  ∀ (e : Fin 128) (s : State), s.held e = [] → exec (.reseqTimeoutRelease e) s = .next s

/-- With PD3 running: the age clock counts; the ager moves on to the next bucket; the audit, with items to check, moves on to the
next item, and one that is not skipped and does not read is reported with its number. The oldest CAM entry goes; the oldest fence,
where it is clear, completes and is shown; a change of LNQ_CTL.RUN is shown and counts in GEN (R255, R257, R260, R261, R267,
R273). -/
def Obligations.TablesAtWork : Prop :=
  (∀ s : State, s.pdOn 3 = true → Runs .ageClockTick s fun t => t.rd Reg.tblStatusAgeNow = wrapAdd Reg.tblStatusAgeNow.width (s.rd Reg.tblStatusAgeNow) 1 ∧
    SameBut [Reg.tblStatusAgeNow] s t) ∧
  (∀ (l : List (Nat × Nat)) (s : State), s.pdOn 3 = true → Runs (.agerVisit l) s fun t => t.tbl.bucket = (s.tbl.bucket + 1) % 32768) ∧
  (∀ (l : List (Nat × Nat)) (s : State), s.pdOn 3 = true → s.tbl.items ≠ 0 → s.flt.auditSkip.contains (s.tbl.audit % s.tbl.items) = false →
    Runs (.shadowAuditStep 2 l) s fun t => (t.line 0x184).cause = true ∧ (t.line 0x184).synd = s.tbl.audit % s.tbl.items ∧
      t = { s with tbl := { s.tbl with audit := (s.tbl.audit % s.tbl.items + 1) % s.tbl.items }, lines := t.lines }) ∧
  (∀ (e : Fin 3) (l : List (Nat × Nat)) (s : State), s.pdOn 3 = true → s.tbl.items ≠ 0 → Runs (.shadowAuditStep e l) s fun t =>
    t.tbl.audit = (s.tbl.audit % s.tbl.items + 1) % s.tbl.items) ∧
  (∀ s : State, Runs .camEntryExpire s fun t => t.tbl = { s.tbl with cam := s.tbl.cam.drop 1 } ∧ RegsBut [Reg.tblLnqStatusCamUsed] s t) ∧
  (∀ (n : Nat) (w : List Nat) (s : State), s.tbl.fences = n :: w → s.fenceClear n = true → Runs .fenceComplete s fun t =>
    t.tbl.fences = w ∧ t.rd Reg.tblEpochCompleted = n % 2 ^ Reg.tblEpochCompleted.width ∧ t.on Reg.tblFenceStatusDone = true ∧
    t.rd Reg.tblEpochOutstanding = w.length % 2 ^ Reg.tblEpochOutstanding.width ∧ t.rd Reg.tblEpochCurrent = s.rd Reg.tblEpochCurrent) ∧
  ∀ (b : Bool) (s : State), s.rd Reg.tblLnqCtlRun ≠ b2n b → Runs (.lnqCtlWrite b) s fun t => t.on Reg.tblLnqCtlRun = b ∧
    t.rd Reg.tblStatusGen = wrapAdd Reg.tblStatusGen.width (s.rd Reg.tblStatusGen) 1 ∧ SameBut [Reg.tblLnqCtlRun, Reg.tblStatusGen] s t

/-- With PD3 running and the result FIFO not full, the command at the front of the queue that came through the registers completes
with one result, with its TAG, at the end of that FIFO. OP 0: OK. Any other with another GEN: STALE. With the present GEN, a
reserved OP: BAD_VALUE; INSERT, MODIFY and DELETE with a value that fails the checks: BAD_VALUE; of values that pass, for a static
entry that is present PROTECTED, for a host entry that is present INSERT EXISTS, for an absent key MODIFY and DELETE NOT_FOUND
and, with no place in the table, INSERT FULL; FENCE with a bad value BAD_VALUE. In all these cases nothing of the tables, the
fences and the learning changes but that the command has left the queue. Of values that pass, where no write to the bucket is held
off: INSERT of an absent key with a place is answered OK and the entry is in a slot; MODIFY of a host entry replaces it, DELETE
removes it, both with OK and with every other slot as it was; none of them changes a VLAN entry, a fence or the other table. A
write that is held off and a FENCE beyond 16 outstanding wait. FENCE with fewer advances the epoch and adds it to the fences, with
OK (R252, R269, R270, R271, R272, R273, R425). -/
def Obligations.TableCommands : Prop :=
  ∀ (c : TcqCmd) (w : List TcqCmd) (s : State), s.pdOn 3 = true → s.tbl.tcq = c :: w → c.dma = false → s.hif.tcr.length < 256 →
    let op := u8 c.bytes 0
    let k := u8 c.bytes 1
    let e := s.cmdEntry c
    let ends (i : Instr) (r : Nat) (p : State → Prop) := Runs i s fun t => t.tbl.tcq = w ∧
      t.hif.tcr = s.hif.tcr ++ [t.hif.tcr.getLastD []] ∧ (t.hif.tcr.getLastD []).take 4 = slice c.bytes 4 4 ∧
      u8 (t.hif.tcr.getLastD []) 4 = r ∧ p t
    let rest (t : State) := t.tbl.vlan = s.tbl.vlan ∧ t.tbl.fences = s.tbl.fences ∧ (k = 0 → t.tbl.flow = s.tbl.flow) ∧
      (k = 1 → t.tbl.fdb = s.tbl.fdb)
    (op = 0 → ends .tcqNop 0 fun t => t.tbl = { s.tbl with tcq := w }) ∧
    (u16 c.bytes 2 ≠ s.rd Reg.tblStatusGen →
      (op = 1 → ends .tcqInsert 1 fun t => t.tbl = { s.tbl with tcq := w }) ∧
      (op = 2 → ends .tcqModify 1 fun t => t.tbl = { s.tbl with tcq := w }) ∧
      (op = 3 → ends .tcqDelete 1 fun t => t.tbl = { s.tbl with tcq := w }) ∧
      (op = 4 → ends .tcqFence 1 fun t => t.tbl = { s.tbl with tcq := w }) ∧
      (5 ≤ op → ends .tcqReserved 1 fun t => t.tbl = { s.tbl with tcq := w })) ∧
    (u16 c.bytes 2 = s.rd Reg.tblStatusGen →
      (5 ≤ op → ends .tcqReserved 2 fun t => t.tbl = { s.tbl with tcq := w }) ∧
      (s.cmdBad c e = true →
        (op = 1 → ends .tcqInsert 2 fun t => t.tbl = { s.tbl with tcq := w }) ∧
        (op = 2 → ends .tcqModify 2 fun t => t.tbl = { s.tbl with tcq := w }) ∧
        (op = 3 → ends .tcqDelete 2 fun t => t.tbl = { s.tbl with tcq := w })) ∧
      (s.cmdBad c e = false → s.findKey k (eKeyBytes k e) = none →
        (op = 2 → ends .tcqModify 5 fun t => t.tbl = { s.tbl with tcq := w }) ∧
        (op = 3 → ends .tcqDelete 5 fun t => t.tbl = { s.tbl with tcq := w }) ∧
        (op = 1 → s.insertPath k e = none → ends .tcqInsert 6 fun t => t.tbl = { s.tbl with tcq := w }) ∧
        ∀ l, op = 1 → s.insertPath k e = some l →
          (s.holds k l = true → exec .tcqInsert s = .next s) ∧
          (s.holds k l = false → ends .tcqInsert 0 fun t => (∃ sl ∈ l, t.ent k sl = e) ∧ rest t)) ∧
      (∀ sl, s.cmdBad c e = false → s.findKey k (eKeyBytes k e) = some sl → eStatic (s.ent k sl) = true →
        (op = 1 → ends .tcqInsert 3 fun t => t.tbl = { s.tbl with tcq := w }) ∧
        (op = 2 → ends .tcqModify 3 fun t => t.tbl = { s.tbl with tcq := w }) ∧
        (op = 3 → ends .tcqDelete 3 fun t => t.tbl = { s.tbl with tcq := w })) ∧
      (∀ sl, s.cmdBad c e = false → s.findKey k (eKeyBytes k e) = some sl → eStatic (s.ent k sl) = false →
        (op = 1 → ends .tcqInsert 4 fun t => t.tbl = { s.tbl with tcq := w }) ∧
        (s.holds k [sl] = true → (op = 2 → exec .tcqModify s = .next s) ∧ (op = 3 → exec .tcqDelete s = .next s)) ∧
        (s.holds k [sl] = false →
          (op = 2 → ends .tcqModify 0 fun t => t.ent k sl = e ∧ (∀ j, j ≠ sl → t.ent k j = s.ent k j) ∧ rest t) ∧
          (op = 3 → ends .tcqDelete 0 fun t => t.ent k sl = 0 ∧ (∀ j, j ≠ sl → t.ent k j = s.ent k j) ∧ rest t))) ∧
      (op = 4 → zeros c.bytes 24 8 = false ∨ 2 ≤ k → ends .tcqFence 2 fun t => t.tbl = { s.tbl with tcq := w }) ∧
      (op = 4 → zeros c.bytes 24 8 = true → k < 2 →
        (16 ≤ s.tbl.fences.length → exec .tcqFence s = .next s) ∧
        (s.tbl.fences.length < 16 → ends .tcqFence 0 fun t => t.rd Reg.tblEpochCurrent = (s.rd Reg.tblEpochCurrent + 1) % 256 ∧
          t.tbl = { s.tbl with tcq := w, fences := s.tbl.fences ++ [(s.rd Reg.tblEpochCurrent + 1) % 256] })))

/-- With the controller idle, the period timer in RUN with a period other than 0, an armed retry that falls due and RUN of the
host with the current GEN each start a run with their cause. PRECHECK of the start-up run with its clock goes on to the tap scale;
each measuring phase goes on to the next. Outside CALIBRATE, with values that are all in their ranges and none calibrated before,
COMPUTE waits for the commit where CAL_TB is valid. Once CAL_TB has reached the chosen second, or holds no valid time, or in
CALIBRATE, the commit counts in GEN and COMMITS. The walk sets a tap that lies within a fine step of its target; once a SCAN has
stopped clocks it moves none (R228, R229, R232, R237, R238, R239, R372). -/
def Obligations.CalibrationRuns : Prop :=
  (∀ s : State, s.calState = 0 → 
    (s.on Reg.calPeriodPeriodS = true → s.inPhase 9 = true → Runs .calPeriodTimer s fun t => t.calState = 1 ∧ t.rd Reg.calTriggerCause = 4 ∧
      SameBut [Reg.calStatusState, Reg.calStatusRetryArmed, Reg.calTriggerCause, Reg.calTriggerSensor] { s with dress := t.dress } t) ∧
    (s.on Reg.calStatusRetryArmed = true → Runs .calRetryDue s fun t => t.calState = 1 ∧ t.rd Reg.calTriggerCause = 3 ∧
      t.on Reg.calStatusRetryArmed = false ∧
      SameBut [Reg.calStatusState, Reg.calStatusRetryArmed, Reg.calTriggerCause, Reg.calTriggerSensor] { s with dress := t.dress } t) ∧
    (∀ g : Fin 65536, g.val = s.rd Reg.calStatusGen → Runs (.calRun g) s fun t => t.calState = 1 ∧ t.rd Reg.calTriggerCause = 5 ∧
      t.rd Reg.calCmdStatusResult = 0)) ∧
  (∀ s : State, s.calState = 1 → s.dress.clkLost = false → s.dress.startup = true → Runs .calPrecheckDone s fun t => t.calState = 2 ∧
    SameBut [Reg.calStatusState] s t) ∧
  (∀ (l : List (Nat × Int)) (s : State),
    (s.calState = 2 → Runs (.calScaleDone l) s fun t => t.calState = 3 ∧ SameBut [Reg.calStatusState] { s with dress := t.dress } t) ∧
    (s.calState = 3 → Runs (.calLoopDone l) s fun t => t.calState = 4 ∧ SameBut [Reg.calStatusState] { s with dress := t.dress } t) ∧
    (s.calState = 4 → Runs (.calPointsDone l) s fun t => t.calState = 5 ∧ SameBut [Reg.calStatusState] { s with dress := t.dress } t) ∧
    (s.calState = 5 → Runs (.calOutputsDone l) s fun t => t.calState = 6 ∧ SameBut [Reg.calStatusState] { s with dress := t.dress } t)) ∧
  (∀ s : State, s.calState = 6 → s.rd Reg.calStatusSource < 2 → s.inPhase 8 = false → s.tbValid (s.rd Reg.calCfgCalTb) = true →
    (∀ e ∈ s.dress.newV, ∀ v, e.2 = some v → elementOk e.1 v = true) → Runs .calComputeDone s fun t => t.calState = 7 ∧
      SameBut [Reg.calStatusState] { s with dress := { s.dress with second := t.dress.second } } t) ∧
  (∀ s : State, s.calState = 7 → (s.inPhase 8 = false → s.tbValid (s.rd Reg.calCfgCalTb) = true → 0 ≤ s.tbDiff (s.rd Reg.calCfgCalTb)
      (s.atb (s.rd Reg.calCfgCalTb)).t (s.dress.second * tSecond % s.tbRange (s.rd Reg.calCfgCalTb))) → Runs .calCommit s fun t =>
    t.rd Reg.calStatusGen = wrapAdd Reg.calStatusGen.width (s.rd Reg.calStatusGen) 1 ∧
    t.rd Reg.calCountsCommits = satAdd Reg.calCountsCommits.width (s.rd Reg.calCountsCommits) 1) ∧
  (∀ s : State, s.frozen = true → exec .calTapWalkStep s = .next s) ∧
  ∀ (n : Fin 12) (s : State), s.calState = 8 → s.frozen = false →
    let x := (s.ckoTarget n).1
    let y := s.ckoTaps n
    let a := (x.1 * s.cal (0x14C + n.val) + x.2 * s.cal (0x178 + n.val)) - (y.1 * s.cal (0x14C + n.val) + y.2 * s.cal (0x178 + n.val))
    a.natAbs ≤ (s.cal (0x178 + n.val)).natAbs → Runs .calTapWalkStep s fun t => t.ckoTaps n = x

/-- Outside CALIBRATE and outside a run: with SOURCE 0 every sensor of a powered domain shows its reading and the others 0x8000; a
lost CAL_REF_CLK clears CLK_OK; a frequency window sets CLK_OK as the offset lies within its limit; the first PPS edge leaves
PPS_OK 0 and a later one within 100 us of its second sets it with the offset valid; a missing PPS clears it. CAL_CMD code 0 is
answered OK, a command with another GEN STALE, one with the present GEN during a run BUSY; with the controller idle a reserved
code is answered REFUSED, and RESTORE of a staged set with a wrong CRC changes nothing but the result; outside CALIBRATE and with
CAL_TB valid, one with the right CRC and every value in its range is copied and waits for the commit (R231, R235, R241, R242,
R425). -/
def Obligations.CalibrationInputs : Prop :=
  (∀ (l : List Int) (s : State), s.calRunning = false → s.on Reg.calStatusSource = false → s.inPhase 8 = false →
    Runs (.tempSensorRead l) s fun t => ∀ i < 16, t.rd (Reg.calTempNow i) = if s.pdOn (sensorDomain i) then enc 16 (l.getD i 0) else 0x8000) ∧
  (∀ s : State, s.calRunning = false → s.inPhase 8 = false →
    Runs .calRefClkLoss s (fun t => t.on Reg.calStatusClkOk = false ∧ t.dress = { s.dress with clkLost := true } ∧ RegsBut [Reg.calStatusClkOk] s t) ∧
    (∀ d : Int, Runs (.calClkFreqWindow d) s fun t => t.on Reg.calStatusClkOk = decide (d.natAbs ≤ 1000 + s.rulerTol) ∧
      t.dress = { s.dress with clkLost := false } ∧ RegsBut [Reg.calStatusClkOk] s t) ∧
    (∀ (d : Int) (r : Nat), s.dress.ppsEver = false → Runs (.calRefPpsEdge d r) s fun t => t.on Reg.calStatusPpsOk = false ∧
      t.dress = { s.dress with ppsSeen := true, ppsEver := true } ∧ RegsBut [Reg.calStatusPpsOk] s t) ∧
    (∀ (d : Int) (r : Nat), s.dress.ppsEver = true → d.natAbs ≤ 100000 → Runs (.calRefPpsEdge d r) s fun t =>
      t.on Reg.calStatusPpsOk = true ∧ t.on Reg.calPpsOffHiValid = true ∧
      RegsBut [Reg.calStatusPpsOk, Reg.calPpsOffLoOff, Reg.calPpsOffHiOff, Reg.calPpsOffHiValid] s t) ∧
    Runs .calPpsMissing s fun t => t.on Reg.calStatusPpsOk = false ∧ t.dress = { s.dress with ppsSeen := false } ∧
      RegsBut [Reg.calStatusPpsOk] s t) ∧
  (∀ s : State, Runs .calCmdNop s fun t => t.rd Reg.calCmdStatusResult = 0 ∧ SameBut [Reg.calCmdStatusResult] s t) ∧
  (∀ (g : Fin 65536) (s : State), ∀ c ∈ [Instr.calRun g, .calRestore g, .calCmdReserved g],
    (g.val ≠ s.rd Reg.calStatusGen → Runs c s fun t => t.rd Reg.calCmdStatusResult = 1 ∧ SameBut [Reg.calCmdStatusResult] s t) ∧
    (g.val = s.rd Reg.calStatusGen → s.calState ≠ 0 → Runs c s fun t => t.rd Reg.calCmdStatusResult = 2 ∧ SameBut [Reg.calCmdStatusResult] s t)) ∧
  ∀ (g : Fin 65536) (s : State), g.val = s.rd Reg.calStatusGen → s.calState = 0 →
    Runs (.calCmdReserved g) s (fun t => t.rd Reg.calCmdStatusResult = 5 ∧ SameBut [Reg.calCmdStatusResult] s t) ∧
    (calCrc (fun i => s.rd (Reg.calStgValue i)) (fun i => s.rd (Reg.calStgTrefTRef i)) ≠ s.rd Reg.calStgCrcCrc → Runs (.calRestore g) s fun t =>
      t.rd Reg.calCmdStatusResult = 3 ∧ SameBut [Reg.calCmdStatusResult] s t) ∧
    (calCrc (fun i => s.rd (Reg.calStgValue i)) (fun i => s.rd (Reg.calStgTrefTRef i)) = s.rd Reg.calStgCrcCrc →
      (∀ i < 428, elementOk i (sgn 32 (s.rd (Reg.calStgValue i))) = true) → s.inPhase 8 = false → s.tbValid (s.rd Reg.calCfgCalTb) = true →
      Runs (.calRestore g) s fun t => t.rd Reg.calCmdStatusResult = 0 ∧ t.calState = 7 ∧ t.dress.restore = true ∧
        (∀ i < 428, Tab.get t.dress.newV i none = some (sgn 32 (s.rd (Reg.calStgValue i)))) ∧ (∀ i < 16, Tab.get t.dress.tStart i 0 = sgn 16 (s.rd (Reg.calStgTrefTRef i))) ∧
        RegsBut [Reg.calCmdStatusResult, Reg.calStatusState] s t)

/-- Outside CALIBRATE and with no trunk pair, where the active timekeeper's line is bad and monitored and its partner stands by
without doubt, the fail-over makes the partner active, FAILED or LATCHED the other, and counts (R155, R311, R315). -/
def Obligations.TimekeeperFailOver : Prop :=
  ∀ (k : Fin 2) (a b : Bool) (u : Fin 68) (s : State), u.val = 2 + k.val → s.unit u = unitActive → s.unitHealthy u = false →
    s.on (Reg.redUnitStatusUnmonitored u) = false → s.unit (3 - k.val) = unitStandby → s.unitDoubt (3 - k.val) = false →
    s.inPhase 8 = false → (∀ j < 32, s.rd (Reg.redPairCfgKind j) ≠ 2) → Runs (.unitFailOver u a b) s fun t =>
      t.activeTk = 1 - k.val ∧ t.unit (3 - k.val) = unitActive ∧ (t.unit u = unitFailed ∨ t.unit u = unitLatched) ∧
      t.rd Reg.tkStatusFailovers = satAdd Reg.tkStatusFailovers.width (s.rd Reg.tkStatusFailovers) 1 ∧ t.tbs = s.tbs

/-- Outside CALIBRATE and with no trunk pair, a standing-by unit in use, other than a root, that is bad on a line that is
monitored, or that loses its heartbeat, goes to FAILED or LATCHED with its reason. A heartbeat that toggles again shows in HB_OK,
and a pair lost for want of it alone is lost no more. A rail fault marks a unit that is in use UNMONITORED, and outside CALIBRATE
a legal code again clears the mark of one that is not lost. A verified unit in SYNC whose partner is active stands by, or as the
primary of a pair waits to restore, where it is not lost, outside CALIBRATE; one whose partner is not active takes its role, where
it may; a timekeeper whose root is bad fails with it, reason SIDE. HOLDOFF takes a healthy FAILED member of a pair to SYNC,
LATCH_S other than 0 a LATCHED unit to FAILED, WTR_S the waiting primary of a pair to ACTIVE and its partner to STANDBY; a failure
leaves the flap window; the order of the only trunk pair is no longer deferred once its timekeeper unit is healthy. RED.CMD
answers code 0 OK and the reserved codes REFUSED; RELEASE is answered BAD_UNIT for a unit above 67 or not in use, STALE with
another GEN, and takes a LATCHED unit in use with the current GEN to FAILED (R309, R310, R311, R313, R316, R318, R322, R425). -/
def Obligations.Referee : Prop :=
  (∀ (u : Fin 68) (a b : Bool) (s : State), 2 ≤ u.val → s.unitUsed u = true → s.unit u = unitStandby →
    (∀ j < 32, s.rd (Reg.redPairCfgKind j) ≠ 2) → s.inPhase 8 = false →
    (s.unitHealthy u = false → s.on (Reg.redUnitStatusUnmonitored u) = false → Runs (.unitFailOver u a b) s fun t =>
      (t.unit u = unitFailed ∨ t.unit u = unitLatched) ∧ t.rd (Reg.redUnitStatusReason u) = 1) ∧
    Runs (.heartbeatLost ⟨u, false⟩) s fun t => (t.unit u = unitFailed ∨ t.unit u = unitLatched) ∧ t.on (Reg.redUnitStatusHbOk u) = false ∧
      t.rd (Reg.redUnitStatusReason u) = 2) ∧
  (∀ (u : Fin 68) (s : State), s.unit u ≠ 0 → s.unitUsed u = true → s.inPhase 8 = false →
    (s.isLost u = false → Runs (.heartbeatLost ⟨u, true⟩) s fun t => t.on (Reg.redUnitStatusHbOk u) = true ∧
      SameBut [Reg.redUnitStatusHbOk u] s t) ∧
    (s.isLost u = true → s.unit u = unitActive → s.unitHealthy u = true → s.sideBad u = false → Runs (.heartbeatLost ⟨u, true⟩) s fun t =>
      t.on (Reg.redUnitStatusHbOk u) = true ∧ t.isLost u = false ∧ t.unit u = unitActive)) ∧
  (∀ (u : Fin 68) (s : State),
    (s.unitUsed u = true → Runs (.healthRailFault u) s fun t => t.rd (Reg.redUnitStatusUnmonitored u) = 1 ∧
      SameBut [Reg.redUnitStatusUnmonitored u, Reg.redUnitStatusGen u] s t) ∧
    (s.isLost u = false → s.inPhase 8 = false → Runs (.unmonitoredClear u) s fun t => t.rd (Reg.redUnitStatusUnmonitored u) = 0 ∧
      SameBut [Reg.redUnitStatusUnmonitored u, Reg.redUnitStatusGen u] s t)) ∧
  (∀ (u : Fin 68) (s : State), s.unit u = unitSync → s.unitVerified u = true →
    (s.unit (unitOther u) = unitActive → s.isLost u = false → s.sideBad u = false → s.inPhase 8 = false → Runs (.unitVerified u) s fun t =>
      t.unit u = if 4 ≤ u.val ∧ u.val % 2 = 0 then unitWtr else unitStandby) ∧
    (s.sideBad u = true → s.inPhase 8 = false → Runs (.unitVerified u) s fun t => (t.unit u = unitFailed ∨ t.unit u = unitLatched) ∧
      t.rd (Reg.redUnitStatusReason u) = 3) ∧
    (s.unit (unitOther u) ≠ unitActive → s.sideBad u = false → (4 ≤ u.val ∨ s.roleHeld u = true) → Runs (.unitVerified u) s fun t => t.unit u = unitActive ∧ t.unit (unitOther u) = s.unit (unitOther u))) ∧
  (∀ (u : Fin 68) (s : State), s.unit u = unitFailed → s.lineShown u = true → 4 ≤ u.val → Runs (.unitHoldoffExpire u) s fun t =>
    t.unit u = unitSync ∧ t.on (Reg.redUnitStatusHbOk u) = true ∧
    SameBut [Reg.redUnitStatusState u, Reg.redUnitStatusGen u, Reg.redUnitStatusHbOk u] s t) ∧
  (∀ (u : Fin 68) (s : State), s.unit u = unitLatched → s.on Reg.redLatchLatchS = true → Runs (.unitLatchExpire u) s fun t =>
    t.unit u = unitFailed ∧ t.rd (Reg.redUnitCountsFlapCnt u) = 0 ∧
    SameBut [Reg.redUnitStatusState u, Reg.redUnitStatusGen u, Reg.redUnitCountsFlapCnt u] s t) ∧
  (∀ (u : Fin 68) (s : State), s.unit u = unitWtr → 4 ≤ u.val → u.val % 2 = 0 → Runs (.unitWtrExpire u) s fun t =>
    t.unit u = unitActive ∧ t.unit (u.val + 1) = unitStandby ∧ t.rd (Reg.redPairStatusDataActive ((u.val - 4) / 2)) = 1) ∧
  (∀ (u : Fin 68) (s : State), Runs (.flapWindowExpire u) s fun t => SameBut [Reg.redUnitCountsFlapCnt u] s t ∧
    t.rd (Reg.redUnitCountsFlapCnt u) = (s.rd (Reg.redUnitCountsFlapCnt u) - 1) % 2 ^ (Reg.redUnitCountsFlapCnt u).width) ∧
  (∀ (k : Fin 32) (s : State), s.rd (Reg.redPairCfgKind k) = 2 → (∀ j < 32, j ≠ k.val → s.rd (Reg.redPairCfgKind j) ≠ 2) →
    s.on (Reg.tkPairDeferred (s.rd (Reg.redPairCfgTkPair k))) = true → s.timeHealthy (s.timeUnit k) = true →
    Runs (.deferredOrderWithdraw k) s fun t => t.on (Reg.tkPairDeferred (s.rd (Reg.redPairCfgTkPair k))) = false ∧
      SameBut [Reg.tkPairDeferred (s.rd (Reg.redPairCfgTkPair k))] s t) ∧
  (∀ s : State, Runs .redCmdNop s (fun t => t.rd Reg.redCmdStatusResult = 0 ∧ SameBut [Reg.redCmdStatusResult] s t) ∧
    Runs .redCmdReserved s fun t => t.rd Reg.redCmdStatusResult = 1 ∧ SameBut [Reg.redCmdStatusResult] s t) ∧
  ∀ (u : Fin 128) (g : Fin 65536) (s : State),
    (67 < u.val ∨ s.unitUsed u = false → Runs (.redRelease u g) s fun t => t.rd Reg.redCmdStatusResult = 2 ∧ SameBut [Reg.redCmdStatusResult] s t) ∧
    (u.val ≤ 67 → s.unitUsed u = true → g.val ≠ s.rd (Reg.redUnitStatusGen u) → Runs (.redRelease u g) s fun t =>
      t.rd Reg.redCmdStatusResult = 3 ∧ SameBut [Reg.redCmdStatusResult] s t) ∧
    (u.val ≤ 67 → s.unitUsed u = true → g.val = s.rd (Reg.redUnitStatusGen u) → s.unit u = unitLatched → Runs (.redRelease u g) s fun t =>
      t.rd Reg.redCmdStatusResult = 0 ∧ t.unit u = unitFailed ∧ t.rd (Reg.redUnitCountsFlapCnt u) = 0)

/-- Out of reset and while a root runs, of a source whose domain is on: an error event of a lasting or momentary cause or of an
injection, with the collector in IDLE and reaction COUNT, takes the record with its syndrome, with INJ where an injection alone
makes it, counts, shows ACTIVE and leads to REACT; the end of REACT leads to HOLD; a rail fault shows RAIL and ACTIVE; a source
whose cause ends goes idle; FLT.CLEAR with another GEN is answered STALE, with the current GEN outside HOLD WRONG_STATE, in HOLD
while the recorded source is active CAUSE_PRESENT, and else clears the record and leads to IDLE; CLR of a source clears its LEVEL,
or is refused while it is active or while it is the recorded one in REACT or HOLD; the input of a unit that FAILOVER held is let
go. That an injected event carries the syndrome 0 is the model's reading (log entry 19) (R328, R329, R330, R331, R332, R333, R336,
R339). -/
def Obligations.FaultCollector : Prop :=
  (∀ (e : FaultEv) (s : State), s.inReset = false → s.collectorOn = true → s.sourceOn e.source = true → 0x44 ≤ e.source.val → fltClass e.source ≠ 0 →
    e.rail = none → (s.line e.source).pair = 0 → (s.line e.source).cause = true ∨ e.real = true ∨ s.injected e.source false = true →
    s.colState = colIdle → s.rd (Reg.fltSrcReaction e.source) = 0 → Runs (.faultEvent [e]) s fun t =>
      t.rd Reg.fltRecSrcSource = e.source.val ∧ t.rd Reg.fltRecSrcClass = fltClass e.source ∧
      t.on Reg.fltRecSrcInj = (!(s.line e.source).cause && !e.real) ∧ t.rd Reg.fltRecSyndSyndrome =
        (if (s.line e.source).cause then (s.line e.source).synd % 2 ^ 32 else if e.real then e.syndrome.toNat else 0) ∧ t.colState = colReact ∧
      t.on (Reg.fltSrcActive e.source) = true ∧ (t.line e.source).pair = 1 ∧
      t.rd (Reg.fltSrcCount e.source) = satAdd (Reg.fltSrcCount e.source).width (s.rd (Reg.fltSrcCount e.source)) 1) ∧
  (∀ s : State, s.collectorOn = true → s.colState = colReact → Runs .collectorReactEnd s fun t => t.colState = colHold ∧ SameBut [Reg.fltStatusState] s t) ∧
  (∀ (i : Fin 512) (c : Fin 4) (b : Bool) (s : State), s.inReset = false → s.collectorOn = true → s.sourceOn i = true → fltClass i ≠ 0 →
    (s.line i).pair ≠ 2 → b = true ∨ s.injected i true = true → Runs (.faultRailFault i (c, b)) s fun t =>
    (t.line i).pair = 2 ∧ t.on (Reg.fltSrcRail i) = true ∧ t.on (Reg.fltSrcActive i) = true) ∧
  (∀ (i : Fin 512) (s : State), s.collectorOn = true → lastingSource i = false → (s.line i).pair ≠ 0 → s.flt.inj = none → Runs (.faultSourceIdle i) s fun t =>
    (t.line i).pair = 0 ∧ (t.line i).cause = false ∧ t.on (Reg.fltSrcActive i) = false ∧ t.on (Reg.fltSrcRail i) = false) ∧
  (∀ (i : Fin 512) (u : Nat) (s : State), s.sourceUnit i = some u → s.on (Reg.fltSrcActive i) = false → s.isLost u = false →
    Runs (.failoverInputRelease i) s fun t => t = { s with flt := { s.flt with inputs := s.flt.inputs.erase i.val } }) ∧
  (∀ (v : Word) (s : State),
    (v.toNat / 2 ^ 16 ≠ s.rd Reg.fltStatusGen → Runs (.fltClear v) s fun t => t.rd Reg.fltClearStatusResult = 1 ∧
      SameBut [Reg.fltClearStatusResult] s t) ∧
    (v.toNat / 2 ^ 16 = s.rd Reg.fltStatusGen → s.colState ≠ colHold → Runs (.fltClear v) s fun t => t.rd Reg.fltClearStatusResult = 2 ∧
      SameBut [Reg.fltClearStatusResult] s t) ∧
    (v.toNat / 2 ^ 16 = s.rd Reg.fltStatusGen → s.colState = colHold → s.srcActive (s.rd Reg.fltRecSrcSource) = true →
      Runs (.fltClear v) s fun t => t.rd Reg.fltClearStatusResult = 3 ∧ SameBut [Reg.fltClearStatusResult] s t) ∧
    (v.toNat / 2 ^ 16 = s.rd Reg.fltStatusGen → s.colState = colHold → s.srcActive (s.rd Reg.fltRecSrcSource) = false →
      sourcePort (s.rd Reg.fltRecSrcSource) = none → Runs (.fltClear v) s fun t => t.rd Reg.fltClearStatusResult = 0 ∧
        t.colState = colIdle ∧ t.rd Reg.fltRecSyndSyndrome = 0 ∧ t.rd (Reg.fltSrcLevel (s.rd Reg.fltRecSrcSource)) = 0)) ∧
  ∀ (i : Fin 512) (v : Word) (s : State), bit v.toNat 8 = true → fltClass i ≠ 0 →
    (s.srcActive i = true ∨ (s.colState ≠ colIdle ∧ s.rd Reg.fltRecSrcSource = i) → Runs (.fltSrcClr i v) s fun t => t.rd Reg.fltStatusClrRefused = 1 ∧
      SameBut [Reg.fltStatusClrRefused] s t) ∧
    (s.srcActive i = false → s.colState = colIdle ∨ s.rd Reg.fltRecSrcSource ≠ i → sourcePort i = none → Runs (.fltSrcClr i v) s fun t =>
      t.rd (Reg.fltSrcLevel i) = 0 ∧ bit (t.rd (Reg.fltFaultMap (i.val / 32))) (i.val % 32) = false ∧
      SameBut [Reg.fltSrcLevel i, Reg.fltFaultMap (i.val / 32)] s t)

/-- FLT.INJ_CMD with injection enabled, an existing source, no injection under way and CYCLES other than 0 starts the drive;
otherwise it is refused, by the first that applies of NOT_ENABLED, BAD_SOURCE, BUSY and BAD_VALUE, and changes nothing else. The
end of the drive shows DONE and no drive (R338, R339). -/
def Obligations.FaultInjection : Prop :=
  (∀ (v : Word) (s : State),
    (s.on Reg.fltCfgInjEn = false → Runs (.fltInject v) s fun t => t.rd Reg.fltInjStatusResult = 1 ∧ SameBut [Reg.fltInjStatusResult] s t) ∧
    (s.on Reg.fltCfgInjEn = true → fltClass (v.toNat % 512) = 0 → Runs (.fltInject v) s fun t => t.rd Reg.fltInjStatusResult = 2 ∧
      SameBut [Reg.fltInjStatusResult] s t) ∧
    (s.on Reg.fltCfgInjEn = true → fltClass (v.toNat % 512) ≠ 0 → s.on Reg.fltInjStatusBusy = true → Runs (.fltInject v) s fun t =>
      t.rd Reg.fltInjStatusResult = 3 ∧ SameBut [Reg.fltInjStatusResult] s t) ∧
    (s.on Reg.fltCfgInjEn = true → fltClass (v.toNat % 512) ≠ 0 → s.on Reg.fltInjStatusBusy = false → v.toNat / 2 ^ 16 = 0 →
      Runs (.fltInject v) s fun t => t.rd Reg.fltInjStatusResult = 4 ∧ SameBut [Reg.fltInjStatusResult] s t) ∧
    (s.on Reg.fltCfgInjEn = true → fltClass (v.toNat % 512) ≠ 0 → s.on Reg.fltInjStatusBusy = false → v.toNat / 2 ^ 16 ≠ 0 →
      Runs (.fltInject v) s fun t => t.rd Reg.fltInjStatusResult = 0 ∧ t.rd Reg.fltInjStatusBusy = 1 ∧
        t.rd Reg.fltInjStatusSource = v.toNat % 512 ∧ t.flt.inj = some (v.toNat % 512, v.toNat / 2 ^ 12 % 2) ∧
        SameBut [Reg.fltInjStatusResult, Reg.fltInjStatusBusy, Reg.fltInjStatusSource] { s with flt := t.flt } t)) ∧
  ∀ (x m : Nat) (s : State), s.flt.inj = some (x, m) → Runs .fltInjectEnd s fun t => t.flt.inj = none ∧ t.rd Reg.fltInjStatusBusy = 0 ∧
    t.rd Reg.fltInjStatusDone = 1 ∧
    SameBut [Reg.fltInjStatusBusy, Reg.fltInjStatusDone, Reg.fltInjStatusCollided] { s with flt := t.flt } t

/-- A window of n edges is absent for n of at most 399, 10 MHz from 640 to 1 599, 25 MHz from 1 600 to 3 999, 100 MHz from 6 400
to 15 999, and invalid everywhere else; in XO_WAIT a window of an absent or invalid class keeps the state, and one of a frequency
class leads to the next. The XO_WAIT clause is Table CK-3 (R23, R24, 01_clock_plan.md). -/
def Obligations.XoClasses : Prop :=
  (∀ n : Nat, (xoClass n = 0 ↔ n ≤ 399) ∧ (xoClass n = 2 ↔ 640 ≤ n ∧ n ≤ 1599) ∧ (xoClass n = 3 ↔ 1600 ≤ n ∧ n ≤ 3999) ∧
    (xoClass n = 4 ↔ 6400 ≤ n ∧ n ≤ 15999) ∧ (xoClass n = 1 ↔ (400 ≤ n ∧ n ≤ 639) ∨ (4000 ≤ n ∧ n ≤ 6399) ∨ 16000 ≤ n) ∧ xoClass n < 5) ∧
  ∀ (n : Nat) (s : State), s.xo.released = true → s.rd Reg.clkXoStatusState = 0 →
    (xoClass n < 2 → Runs (.xoWindowEnd n) s fun t => t.rd Reg.clkXoStatusState = 0) ∧
    (2 ≤ xoClass n → Runs (.xoWindowEnd n) s fun t => t.rd Reg.clkXoStatusState = 1)

/-- Over the 64 floor words: every used word whose halves are complements is at most the floor; the floor is 0 or the value of
such a word; a word of 64 zero bits is unused, and every other word counts as used (R364). -/
def Obligations.FloorValue : Prop :=
  ∀ s : State,
    (∀ i < 64, s.floorWord i ≠ 0 → s.floorWord i % 2 ^ 32 + s.floorWord i / 2 ^ 32 % 2 ^ 32 = 2 ^ 32 - 1 → s.floorWord i % 2 ^ 32 ≤ s.floorValue) ∧
    (s.floorValue = 0 ∨ ∃ i < 64, s.floorWord i ≠ 0 ∧ s.floorWord i % 2 ^ 32 + s.floorWord i / 2 ^ 32 % 2 ^ 32 = 2 ^ 32 - 1 ∧
      s.floorValue = s.floorWord i % 2 ^ 32) ∧
    ((∀ i < 64, s.floorWord i = 0) → s.floorValue = 0 ∧ s.floorUsed = 0) ∧
    s.floorUsed = ((List.range 64).map fun i => if s.floorWord i = 0 then 0 else 1).sum

/-- MAN_CMD, FEED_CMD, PG_CMD, CAL_CMD and RED.CMD with code 0, whatever GEN they carry, show the result OK and change nothing but
the result field (with PG_CMD, the generator it names); no command is counted as accepted. A table command of OP 0, whatever GEN
it carries, completes with its TAG and the result OK. PWR.HOST_REQ with code 0 is a request: with K1 running and an old GEN it is
answered STALE and changes nothing else (R425). -/
def Obligations.NopCommands : Prop :=
  ∀ s : State,
    (∀ n : Fin 128, Runs (.laneManNop n) s fun t => t.rd (Reg.laneManStatusResult n) = 0 ∧ SameBut [Reg.laneManStatusResult n] s t) ∧
    (∀ n : Fin 8, Runs (.tbFeedNop n) s fun t => t.rd (Reg.tkTbFeedStatusResult n) = 0 ∧ SameBut [Reg.tkTbFeedStatusResult n] s t ∧
      t.rd (Reg.tkTbFeedStatusAccepted n) = s.rd (Reg.tkTbFeedStatusAccepted n)) ∧
    (∀ p : Fin 16, Runs (.pgCmdNop p) s fun t => t.rd Reg.tsPgCmdStatusResult = 0 ∧ t.rd Reg.tsPgCmdStatusPg = p ∧
      SameBut [Reg.tsPgCmdStatusPg, Reg.tsPgCmdStatusResult] s t) ∧
    Runs .calCmdNop s (fun t => t.rd Reg.calCmdStatusResult = 0 ∧ SameBut [Reg.calCmdStatusResult] s t) ∧
    Runs .redCmdNop s (fun t => t.rd Reg.redCmdStatusResult = 0 ∧ SameBut [Reg.redCmdStatusResult] s t) ∧
    (∀ c w, s.pdOn 3 = true → s.tbl.tcq = c :: w → c.dma = false → s.hif.tcr.length < 256 → u8 c.bytes 0 = 0 → Runs .tcqNop s fun t =>
      t.tbl = { s.tbl with tcq := w } ∧ ∃ e, t.hif.tcr = s.hif.tcr ++ [e] ∧ e.take 4 = slice c.bytes 4 4 ∧ u8 e 4 = 0) ∧
    ∀ g : Fin 65536, s.k1On = true → g.val ≠ s.rd Reg.pwrStatusGen → Runs (.pwrHostReqRun g) s fun t => t.rd Reg.pwrCmdStatusResult = 1 ∧
      SameBut [Reg.pwrCmdStatusResult] s t

/-- The state is the place of the highest blown fuse of the four, FACTORY with none; SEC.LCS.STATE reads it; the LIFECYCLE record
of a transition carries the old and the new state in the same codes; and after every step each fuse that was blown is blown, and
the state is at least what it was (R360). -/
def Obligations.LifeCycleForward : Prop :=
  (∀ w : Nat, lcOf w < 5 ∧ (lcOf w = 0 ↔ ∀ i < 4, bit w i = false) ∧
    ∀ i < 4, lcOf w = i + 1 ↔ bit w i = true ∧ ∀ j < 4, i < j → bit w j = false) ∧
  (∀ (s : State) (p : Nat), s.viewFld p Reg.secLcsState = lcOf s.otp.lc) ∧
  (∀ (a b : Nat) (s : State), s.sec.trans = some (a, b, true) → a < 5 → b < 5 → Runs .lcJournalClearDone s fun t =>
    ∃ r, t.newest = some (0, r) ∧ u8 r 0 = 3 ∧ u8 r 24 = a ∧ u8 r 25 = b) ∧
  ∀ s t : State, Sys2Proof.Machine.step s = .next t → FusesKept s t ∧ lcOf s.otp.lc ≤ lcOf t.otp.lc

/-- For every command and every two states: where the command leads from one to the other, no register and no 48-bit counter of a
block outside the command's list of parts, and no other part of the state outside it, differs (17_host_interface.md,
95_what_each_step_holds.md). -/
def Obligations.ExecWithin : Prop :=
  ∀ (i : Instr) (s t : State), exec i s = .next t → Within (maskOf (touches i)) s t

/-- No command ends in a fault or a refusal in any state, and no step does; a command leaves the queue of commands as it is. The
queue, and that every command runs in every state with no effect where the spec gives it none, are the model's choice (log entries
3 and 44) (95_what_each_step_holds.md). -/
def Obligations.NoCommandStops : Prop :=
  (∀ (i : Instr) (s : State), ∃ t, exec i s = .next t ∧ t.pending = s.pending) ∧
  ∀ s : State, ∃ t, Sys2Proof.Machine.step s = .next t

/-- From a state whose register file and counters are in canonical form, with every counter at most 2^48 - 1, every step leads to
such a state (R129, R347). -/
def Obligations.CanonicalKept : Prop :=
  ∀ s t : State, Canonical s → Sys2Proof.Machine.step s = .next t → Canonical t

/-- From a state whose journal holds records of 32 bytes in slots 0 to 8191, each once, every step leads to such a state; no step
changes the die identity (R56, 16_security_debug_power.md). -/
def Obligations.JournalKept : Prop :=
  (∀ s t : State, JournalOk s → Sys2Proof.Machine.step s = .next t → JournalOk t) ∧
  ∀ s t : State, Sys2Proof.Machine.step s = .next t → t.otp.dieId = s.otp.dieId

/-- Starting and ending an injection, whatever its source, changes no register outside the FLT block and nothing else but the
collector's own state. The event and the rail fault that an injection makes at source 0x49 of Fantail, whatever its reaction,
leave the state, rank and values of every candidate as they were, and so do its start and its end (R74, R338). -/
def Obligations.InjectionIsContained : Prop :=
  ∀ (i : Instr) (s t : State), (∃ v, i = .fltInject v) ∨ i = .fltInjectEnd ∨ (∃ e : FaultEv, e.source = 0x49 ∧ e.real = false ∧ i = .faultEvent [e]) ∨
    (∃ c, i = .faultRailFault 0x49 (c, false)) → exec i s = .next t →
    ((∃ v, i = .fltInject v) ∨ i = .fltInjectEnd → Within (maskOf [.regFlt, .flt]) s t) ∧ ∀ c < 24, t.candState c = s.candState c ∧
      t.rd (Reg.refselCandStatusRank c) = s.rd (Reg.refselCandStatusRank c) ∧ t.cand c = s.cand c ∧
      t.rd (Reg.refselCandF1sF1s c) = s.rd (Reg.refselCandF1sF1s c) ∧ t.rd (Reg.refselCandF64F64 c) = s.rd (Reg.refselCandF64F64 c) ∧
      t.rd (Reg.refselCandDriftDrift c) = s.rd (Reg.refselCandDriftDrift c) ∧ t.rd (Reg.refselCandFrelFrel c) = s.rd (Reg.refselCandFrelFrel c)

/-- Every record the device forms with any sequence number is 32 bytes long and passes the CRC check; a 48-bit counter after any
number of occurrences reads the sum, held at 2^48 - 1 (R56, R57, R129). -/
def Obligations.JournalRecordsAndCounters : Prop :=
  (∀ (r : JRec) (q : Nat), (r.bytes q).length = 32 ∧ recGood (r.bytes q) = true) ∧
  ∀ (f : Fld) (l : List Nat) (s : State), s.c48 f < 2 ^ 48 → (s.each l fun s k => s.bump48 f k).c48 f = min (2 ^ 48 - 1) (s.c48 f + l.sum)
end

