-- ==== Sys2Proof/Laws/Tab.lean ====
section
/-! SUPPORT. Laws of sparse tables: read after write, and the canonical form. -/
namespace Sys2Proof.Machine

variable {α : Type}

@[simp] theorem Tab.get_nil (k : Nat) (d : α) : Tab.get [] k d = d := rfl

theorem Tab.get_del_ne (t : Tab α) {k j : Nat} (d : α) (h : j ≠ k) : Tab.get (Tab.del t k) j d = Tab.get t j d := by
  induction t with
  | nil => rfl
  | cons e t ih =>
    obtain ⟨i, v⟩ := e
    simp only [Tab.del]
    split
    · subst_vars; rw [ih]; simp [Tab.get, Ne.symm h]
    · simp only [Tab.get]; split <;> simp_all

theorem Tab.get_del_same (t : Tab α) (k : Nat) (d : α) : Tab.get (Tab.del t k) k d = d := by
  induction t with
  | nil => rfl
  | cons e t ih =>
    obtain ⟨i, v⟩ := e
    simp only [Tab.del]
    split
    · exact ih
    · simp_all [Tab.get]

/-- Key `k` is not listed. -/
def Tab.free (t : Tab α) (k : Nat) : Prop := ∀ e ∈ t, e.1 ≠ k

theorem Tab.free_del (t : Tab α) (k : Nat) : Tab.free (Tab.del t k) k := by
  induction t with
  | nil => simp [Tab.del, Tab.free]
  | cons e t ih =>
    obtain ⟨i, v⟩ := e
    simp only [Tab.del]
    split
    · exact ih
    · intro e he
      rcases List.mem_cons.1 he with rfl | he
      · assumption
      · exact ih e he

theorem Tab.get_ins_same (t : Tab α) (k : Nat) (v d : α) (h : Tab.free t k) : Tab.get (Tab.ins t k v) k d = v := by
  induction t with
  | nil => simp [Tab.ins, Tab.get]
  | cons e t ih =>
    obtain ⟨i, w⟩ := e
    have hi : i ≠ k := h (i, w) (by simp)
    simp only [Tab.ins]
    split
    · simp [Tab.get]
    · simp only [Tab.get, if_neg hi]
      exact ih fun e he => h e (by simp [he])

theorem Tab.get_ins_ne (t : Tab α) {k j : Nat} (v d : α) (h : j ≠ k) : Tab.get (Tab.ins t k v) j d = Tab.get t j d := by
  induction t with
  | nil => simp [Tab.ins, Tab.get, Ne.symm h]
  | cons e t ih =>
    obtain ⟨i, w⟩ := e
    simp only [Tab.ins]
    split
    · simp [Tab.get, Ne.symm h]
    · simp only [Tab.get]; split <;> simp_all

variable [DecidableEq α]

/-- A read after a write of the same key gives the value written. -/
@[simp] theorem Tab.get_set_same (t : Tab α) (k : Nat) (v d : α) : Tab.get (Tab.set t k v d) k d = v := by
  simp only [Tab.set]
  split
  · next h => rw [h]; exact Tab.get_del_same t k d
  · exact Tab.get_ins_same _ k v d (Tab.free_del t k)

/-- A write leaves every other key alone. -/
theorem Tab.get_set_ne (t : Tab α) {k j : Nat} (v d c : α) (h : j ≠ k) : Tab.get (Tab.set t k v d) j c = Tab.get t j c := by
  simp only [Tab.set]
  split
  · exact Tab.get_del_ne t c h
  · rw [Tab.get_ins_ne _ v c h, Tab.get_del_ne t c h]

theorem Tab.get_set (t : Tab α) (k j : Nat) (v d : α) :
    Tab.get (Tab.set t k v d) j d = if j = k then v else Tab.get t j d := by
  split
  · subst_vars; simp
  · exact Tab.get_set_ne t v d d (by assumption)

omit [DecidableEq α] in
theorem Tab.rising_iff (t : Tab α) : Tab.rising t = true ↔ t.Pairwise fun x y => x.1 < y.1 := by
  induction t with
  | nil => simp [Tab.rising]
  | cons e t ih =>
    obtain ⟨i, v⟩ := e
    simp only [Tab.rising, Bool.and_eq_true, ih, List.pairwise_cons]
    constructor
    · rintro ⟨h1, h2⟩
      refine ⟨?_, h2⟩
      cases t with
      | nil => simp
      | cons f t =>
        have hf : i < f.1 := by simpa using h1
        intro x hx
        rcases List.mem_cons.1 hx with rfl | hx
        · exact hf
        · exact Nat.lt_trans hf ((List.pairwise_cons.1 h2).1 x hx)
    · rintro ⟨h1, h2⟩
      refine ⟨?_, h2⟩
      cases t with
      | nil => rfl
      | cons f t => simpa using h1 f (by simp)

omit [DecidableEq α] in
theorem Tab.mem_del {t : Tab α} {k : Nat} {e : Nat × α} (h : e ∈ Tab.del t k) : e ∈ t := by
  induction t with
  | nil => simp [Tab.del] at h
  | cons f t ih =>
    obtain ⟨i, v⟩ := f
    simp only [Tab.del] at h
    split at h
    · exact List.mem_cons_of_mem _ (ih h)
    · rcases List.mem_cons.1 h with rfl | h
      · simp
      · exact List.mem_cons_of_mem _ (ih h)

omit [DecidableEq α] in
theorem Tab.mem_ins {t : Tab α} {k : Nat} {v : α} {e : Nat × α} (h : e ∈ Tab.ins t k v) : e = (k, v) ∨ e ∈ t := by
  induction t with
  | nil => simpa [Tab.ins] using h
  | cons f t ih =>
    obtain ⟨i, w⟩ := f
    simp only [Tab.ins] at h
    split at h
    · simpa using h
    · rcases List.mem_cons.1 h with rfl | h
      · simp
      · rcases ih h with h | h
        · exact .inl h
        · exact .inr (List.mem_cons_of_mem _ h)

theorem Tab.mem_set {t : Tab α} {k : Nat} {v d : α} {e : Nat × α} (h : e ∈ Tab.set t k v d) : (e = (k, v) ∧ v ≠ d) ∨ e ∈ t := by
  simp only [Tab.set] at h
  split at h
  · exact .inr (Tab.mem_del h)
  · rcases Tab.mem_ins h with h | h
    · exact .inl ⟨h, by assumption⟩
    · exact .inr (Tab.mem_del h)

omit [DecidableEq α] in
theorem Tab.rising_del {t : Tab α} (k : Nat) (h : Tab.rising t = true) : Tab.rising (Tab.del t k) = true := by
  rw [Tab.rising_iff] at *
  induction t with
  | nil => simp [Tab.del]
  | cons f t ih =>
    obtain ⟨i, v⟩ := f
    have h' := List.pairwise_cons.1 h
    simp only [Tab.del]
    split
    · exact ih h'.2
    · exact List.pairwise_cons.2 ⟨fun e he => h'.1 e (Tab.mem_del he), ih h'.2⟩

omit [DecidableEq α] in
theorem Tab.rising_ins {t : Tab α} {k : Nat} (v : α) (h : Tab.rising t = true) (hf : Tab.free t k) : Tab.rising (Tab.ins t k v) = true := by
  rw [Tab.rising_iff] at *
  induction t with
  | nil => simp [Tab.ins]
  | cons f t ih =>
    obtain ⟨i, w⟩ := f
    have h' := List.pairwise_cons.1 h
    have hik : i ≠ k := hf (i, w) (by simp)
    simp only [Tab.ins]
    split
    · refine List.pairwise_cons.2 ⟨?_, h⟩
      intro e he
      rcases List.mem_cons.1 he with rfl | he
      · assumption
      · exact Nat.lt_trans (by assumption) (h'.1 e he)
    · refine List.pairwise_cons.2 ⟨?_, ih h'.2 fun e he => hf e (by simp [he])⟩
      intro e he
      rcases Tab.mem_ins he with rfl | he
      · simp only; omega
      · exact h'.1 e he

/-- A write keeps the keys rising. -/
theorem Tab.rising_set {t : Tab α} (k : Nat) (v d : α) (h : Tab.rising t = true) : Tab.rising (Tab.set t k v d) = true := by
  simp only [Tab.set]
  split
  · exact Tab.rising_del k h
  · exact Tab.rising_ins v (Tab.rising_del k h) (Tab.free_del t k)

/-- A write of the table's own default keeps the canonical form. -/
theorem Tab.wf_set {t : Tab α} {d : α} (k : Nat) (v : α) (h : Tab.wf d t = true) : Tab.wf d (Tab.set t k v d) = true := by
  simp only [Tab.wf, Bool.and_eq_true] at *
  refine ⟨Tab.rising_set k v d h.1, ?_⟩
  simp only [Tab.tight, List.all_eq_true] at *
  intro e he
  rcases Tab.mem_set he with ⟨rfl, hv⟩ | he
  · simpa using hv
  · exact h.2 e he

omit [DecidableEq α] in
theorem Tab.rising_filter {t : Tab α} (p : Nat × α → Bool) (h : Tab.rising t = true) : Tab.rising (t.filter p) = true := by
  rw [Tab.rising_iff] at *
  exact h.filter p

theorem Tab.wf_filter {t : Tab α} {d : α} (p : Nat × α → Bool) (h : Tab.wf d t = true) : Tab.wf d (t.filter p) = true := by
  simp only [Tab.wf, Bool.and_eq_true] at *
  refine ⟨Tab.rising_filter p h.1, ?_⟩
  simp only [Tab.tight, List.all_eq_true] at *
  exact fun e he => h.2 e (List.mem_filter.1 he).1

end Sys2Proof.Machine
end

