-- ==== Sys2Proof/Laws/Keep.lean ====
section
/-! SUPPORT. What an operation keeps, in one relation: the canonical form of registers and counters, the form of the journal, blown
life-cycle fuses, the die identity, the queue of commands, and every part of the state outside the operation's mask. -/

set_option linter.all false
set_option Elab.async false

namespace Sys2Proof.Machine

/-- Every part of mask `m` is in mask `w`. -/
def Sub (m w : Nat) : Prop := ∀ i, bit m i = true → bit w i = true

theorem bit_eq_testBit (n i : Nat) : bit n i = n.testBit i := by
  rw [Nat.testBit_eq_decide_div_mod_eq]; rfl

theorem Sub.refl (w : Nat) : Sub w w := fun _ => id

theorem Sub.le {m n w : Nat} (h : Sub n w) (e : m &&& n = m) : Sub m w := fun i hi => by
  refine h i ?_
  rw [← e, bit_eq_testBit, Nat.testBit_and, Bool.and_eq_true] at hi
  rw [bit_eq_testBit]; exact hi.2

theorem Sub.bit {m w i : Nat} (h : Sub m w) (e : bit m i = true) : bit w i = true := h i e

/-- A mask lets a key of its block change. -/
theorem may_of {m w k u : Nat} (h : Sub m w) (e : bit m u = true) (hk : unitOf k = u) : may w k = true := by
  simp [may, hk, h.bit e]

/-- A mask lets a key of a repeated register of its block change. -/
theorem may_cell {m w u : Nat} (h : Sub m w) (e : bit m u = true) (b s c lo n : Nat)
    (h1 : u * 2 ^ 25 ≤ 32 * b + lo) (h2 : 32 * (b + s * (c - 1)) + lo < (u + 1) * 2 ^ 25)
    (h3 : 32 * 0x2D00011 ≤ 32 * b + lo ∨ 32 * (b + s * (c - 1)) + lo < 32 * 0x2D00010) : may w (32 * cell b s c n + lo) = true := by
  unfold cell
  split
  next hn =>
    refine may_of h e ?_
    have h4 : s * n ≤ s * (c - 1) := Nat.mul_le_mul_left _ (by omega)
    unfold unitOf
    split
    · omega
    · omega
  · have : 64 ≤ (32 * 0x4000000 + lo) / 2 ^ 25 := by omega
    unfold may; rw [decide_eq_true this]; rfl

theorem may_any {w : Nat} (h : Sub 0xffffffffffffffff w) (k : Nat) : may w k = true := by
  by_cases l : 64 ≤ k / 2 ^ 25
  · unfold may; rw [decide_eq_true l]; rfl
  · refine may_of h ?_ rfl
    have : ∀ i < 64, bit 0xffffffffffffffff i = true := by decide
    refine this _ ?_
    unfold unitOf
    split <;> omega

theorem may_ne {w j k : Nat} (hj : may w j = false) (hk : may w k = true) : j ≠ k := by
  rintro rfl; rw [hj] at hk; cases hk

/-- From `a` to `b` the canonical form and the journal's form are kept, no life-cycle fuse is mended, the die identity and the queue
stand, and nothing changes outside `w`. -/
structure Keeps (w : Nat) (a b : State) : Prop where
  canon : Canonical a → Canonical b
  jrnl  : JournalOk a → JournalOk b
  fuses : FusesKept a b
  die   : b.otp.dieId = a.otp.dieId
  queue : b.pending = a.pending
  inn   : Within w a b

theorem Within.refl (w : Nat) (s : State) : Within w s s := by constructor <;> intros <;> rfl

theorem Keeps.refl (w : Nat) (s : State) : Keeps w s s := ⟨id, id, fun _ => id, rfl, rfl, Within.refl w s⟩

/-- A part written at most where the mask has it. -/
theorem part_of {b : Bool} {α : Type} {x y z : α} (h : b = true ∨ x = y) (k : b = false → y = z) (o : b = false) : x = z :=
  (h.resolve_left (by rw [o]; exact Bool.false_ne_true)).trans (k o)

/-- A part the mask has. -/
theorem part_in {b : Bool} {p : Prop} (h : b = true) (o : b = false) : p := by rw [h] at o; cases o

/-- An update that leaves registers, counters, journal, fuses and queue alone and keeps to the mask elsewhere. -/
theorem Keeps.upd {w : Nat} {a s : State} (h : Keeps w a s)
    {x_out x_free x_pins x_xo x_fmeter x_boot x_jrnlQ x_sec x_pwr x_lines x_flt x_tbs x_hif x_refsel x_xc x_syn x_pul x_pmon x_tbl x_fab x_tt x_lan x_prt x_dress}
    (h_out : bit w 65 = true ∨ x_out = s.out)
    (h_free : bit w 66 = true ∨ x_free = s.free)
    (h_pins : bit w 67 = true ∨ x_pins = s.pins)
    (h_xo : bit w 68 = true ∨ x_xo = s.xo)
    (h_fmeter : bit w 69 = true ∨ x_fmeter = s.fmeter)
    (h_boot : bit w 70 = true ∨ x_boot = s.boot)
    (h_jrnlQ : bit w 72 = true ∨ x_jrnlQ = s.jrnlQ)
    (h_sec : bit w 74 = true ∨ x_sec = s.sec)
    (h_pwr : bit w 75 = true ∨ x_pwr = s.pwr)
    (h_lines : bit w 76 = true ∨ x_lines = s.lines)
    (h_flt : bit w 77 = true ∨ x_flt = s.flt)
    (h_tbs : bit w 78 = true ∨ x_tbs = s.tbs)
    (h_hif : bit w 79 = true ∨ x_hif = s.hif)
    (h_refsel : bit w 80 = true ∨ x_refsel = s.refsel)
    (h_xc : bit w 81 = true ∨ x_xc = s.xc)
    (h_syn : bit w 82 = true ∨ x_syn = s.syn)
    (h_pul : bit w 83 = true ∨ x_pul = s.pul)
    (h_pmon : bit w 84 = true ∨ x_pmon = s.pmon)
    (h_tbl : bit w 85 = true ∨ x_tbl = s.tbl)
    (h_fab : bit w 86 = true ∨ x_fab = s.fab)
    (h_tt : bit w 87 = true ∨ x_tt = s.tt)
    (h_lan : bit w 88 = true ∨ x_lan = s.lan)
    (h_prt : bit w 89 = true ∨ x_prt = s.prt)
    (h_dress : bit w 90 = true ∨ x_dress = s.dress)
    : Keeps w a (State.mk s.regs s.cnt48 x_out x_free x_pins x_xo x_fmeter x_boot s.journal x_jrnlQ s.otp x_sec x_pwr x_lines x_flt x_tbs x_hif x_refsel x_xc x_syn x_pul x_pmon x_tbl x_fab x_tt x_lan x_prt x_dress s.pending) := by
  refine ⟨h.canon, h.jrnl, h.fuses, h.die, h.queue,
    { regs := h.inn.regs
      cnts := h.inn.cnts
      out := part_of h_out h.inn.out
      free := part_of h_free h.inn.free
      pins := part_of h_pins h.inn.pins
      xo := part_of h_xo h.inn.xo
      fmeter := part_of h_fmeter h.inn.fmeter
      boot := part_of h_boot h.inn.boot
      journal := h.inn.journal
      jrnlQ := part_of h_jrnlQ h.inn.jrnlQ
      otp := h.inn.otp
      sec := part_of h_sec h.inn.sec
      pwr := part_of h_pwr h.inn.pwr
      lines := part_of h_lines h.inn.lines
      flt := part_of h_flt h.inn.flt
      tbs := part_of h_tbs h.inn.tbs
      hif := part_of h_hif h.inn.hif
      refsel := part_of h_refsel h.inn.refsel
      xc := part_of h_xc h.inn.xc
      syn := part_of h_syn h.inn.syn
      pul := part_of h_pul h.inn.pul
      pmon := part_of h_pmon h.inn.pmon
      tbl := part_of h_tbl h.inn.tbl
      fab := part_of h_fab h.inn.fab
      tt := part_of h_tt h.inn.tt
      lan := part_of h_lan h.inn.lan
      prt := part_of h_prt h.inn.prt
      dress := part_of h_dress h.inn.dress }⟩

/-- `Keeps` of a state written out field by field: a name for the rewriting rule below. -/
def KeepsMk (w : Nat) (a : State) (x_regs : Tab Nat) (x_cnt48 : Tab Nat) (x_out : List Out) (x_free : Nat) (x_pins : Pins) (x_xo : XoCheck) (x_fmeter : Option (Nat × Nat)) (x_boot : Boot) (x_journal : Tab (List Byte)) (x_jrnlQ : List JRec) (x_otp : Otp) (x_sec : Sec) (x_pwr : Pwr) (x_lines : Tab FltLine) (x_flt : Flt) (x_tbs : Tab TBase) (x_hif : Hif) (x_refsel : Refsel) (x_xc : Xc) (x_syn : Syn) (x_pul : Pul) (x_pmon : Pmon) (x_tbl : Tbl) (x_fab : Fab) (x_tt : Tt) (x_lan : Tab LaneSt) (x_prt : Tab PortSt) (x_dress : Dress) (x_pending : List Instr) : Prop :=
  Keeps w a (State.mk x_regs x_cnt48 x_out x_free x_pins x_xo x_fmeter x_boot x_journal x_jrnlQ x_otp x_sec x_pwr x_lines x_flt x_tbs x_hif x_refsel x_xc x_syn x_pul x_pmon x_tbl x_fab x_tt x_lan x_prt x_dress x_pending)

theorem Keeps.mk_eq {w : Nat} {a : State} {x_regs x_cnt48 x_out x_free x_pins x_xo x_fmeter x_boot x_journal x_jrnlQ x_otp x_sec x_pwr x_lines x_flt x_tbs x_hif x_refsel x_xc x_syn x_pul x_pmon x_tbl x_fab x_tt x_lan x_prt x_dress x_pending} :
    Keeps w a (State.mk x_regs x_cnt48 x_out x_free x_pins x_xo x_fmeter x_boot x_journal x_jrnlQ x_otp x_sec x_pwr x_lines x_flt x_tbs x_hif x_refsel x_xc x_syn x_pul x_pmon x_tbl x_fab x_tt x_lan x_prt x_dress x_pending) = KeepsMk w a x_regs x_cnt48 x_out x_free x_pins x_xo x_fmeter x_boot x_journal x_jrnlQ x_otp x_sec x_pwr x_lines x_flt x_tbs x_hif x_refsel x_xc x_syn x_pul x_pmon x_tbl x_fab x_tt x_lan x_prt x_dress x_pending := rfl

/-- The update rule in that form. -/
theorem KeepsMk.upd {w : Nat} {a s : State} {x_out x_free x_pins x_xo x_fmeter x_boot x_jrnlQ x_sec x_pwr x_lines x_flt x_tbs x_hif x_refsel x_xc x_syn x_pul x_pmon x_tbl x_fab x_tt x_lan x_prt x_dress} (h : Keeps w a s)
    (h_out : bit w 65 = true ∨ x_out = s.out)
    (h_free : bit w 66 = true ∨ x_free = s.free)
    (h_pins : bit w 67 = true ∨ x_pins = s.pins)
    (h_xo : bit w 68 = true ∨ x_xo = s.xo)
    (h_fmeter : bit w 69 = true ∨ x_fmeter = s.fmeter)
    (h_boot : bit w 70 = true ∨ x_boot = s.boot)
    (h_jrnlQ : bit w 72 = true ∨ x_jrnlQ = s.jrnlQ)
    (h_sec : bit w 74 = true ∨ x_sec = s.sec)
    (h_pwr : bit w 75 = true ∨ x_pwr = s.pwr)
    (h_lines : bit w 76 = true ∨ x_lines = s.lines)
    (h_flt : bit w 77 = true ∨ x_flt = s.flt)
    (h_tbs : bit w 78 = true ∨ x_tbs = s.tbs)
    (h_hif : bit w 79 = true ∨ x_hif = s.hif)
    (h_refsel : bit w 80 = true ∨ x_refsel = s.refsel)
    (h_xc : bit w 81 = true ∨ x_xc = s.xc)
    (h_syn : bit w 82 = true ∨ x_syn = s.syn)
    (h_pul : bit w 83 = true ∨ x_pul = s.pul)
    (h_pmon : bit w 84 = true ∨ x_pmon = s.pmon)
    (h_tbl : bit w 85 = true ∨ x_tbl = s.tbl)
    (h_fab : bit w 86 = true ∨ x_fab = s.fab)
    (h_tt : bit w 87 = true ∨ x_tt = s.tt)
    (h_lan : bit w 88 = true ∨ x_lan = s.lan)
    (h_prt : bit w 89 = true ∨ x_prt = s.prt)
    (h_dress : bit w 90 = true ∨ x_dress = s.dress)
    : KeepsMk w a s.regs s.cnt48 x_out x_free x_pins x_xo x_fmeter x_boot s.journal x_jrnlQ s.otp x_sec x_pwr x_lines x_flt x_tbs x_hif x_refsel x_xc x_syn x_pul x_pmon x_tbl x_fab x_tt x_lan x_prt x_dress s.pending := Keeps.upd h h_out h_free h_pins h_xo h_fmeter h_boot h_jrnlQ h_sec h_pwr h_lines h_flt h_tbs h_hif h_refsel h_xc h_syn h_pul h_pmon h_tbl h_fab h_tt h_lan h_prt h_dress

/-- A pair's state. -/
theorem Keeps.of_pair {w : Nat} {α : Type} {a t : State} {x : α} {p : α × State} (e : p = (x, t)) (h : Keeps w a p.2) : Keeps w a t := by
  rw [e] at h; exact h

/-- A triple's state. -/
theorem Keeps.of_triple {w : Nat} {α β : Type} {a t : State} {x : α} {y : β} {p : α × β × State} (e : p = (x, y, t))
    (h : Keeps w a p.2.2) : Keeps w a t := by
  rw [e] at h; exact h

/-- A fold whose steps keep. -/
theorem Keeps.foldl {w : Nat} {α : Type} {a s : State} {f : State → α → State} (hf : ∀ t x, Keeps w a t → Keeps w a (f t x))
    (h : Keeps w a s) (l : List α) : Keeps w a (l.foldl f s) := by
  induction l generalizing s with
  | nil => exact h
  | cons x l ih => exact ih (hf s x h)

/-- A fold over pairs whose steps keep. -/
theorem Keeps.foldl_pair {w : Nat} {α β : Type} {a : State} {f : β × State → α → β × State}
    (hf : ∀ t x, Keeps w a t.2 → Keeps w a (f t x).2) {p : β × State} (h : Keeps w a p.2) (l : List α) : Keeps w a (l.foldl f p).2 := by
  induction l generalizing p with
  | nil => exact h
  | cons x l ih => exact ih (hf p x h)

theorem Keeps.each {w : Nat} {α : Type} {a s : State} {f : State → α → State} (hf : ∀ t x, Keeps w a t → Keeps w a (f t x))
    (h : Keeps w a s) (l : List α) : Keeps w a (s.each l f) := Keeps.foldl hf h l

theorem Keeps.when {w : Nat} {a s : State} {f : State → State} {c : Bool} (hf : ∀ t, Keeps w a t → Keeps w a (f t))
    (h : Keeps w a s) : Keeps w a (s.when c f) := by
  unfold State.when; split
  · exact hf s h
  · exact h

/-- A register write keeps to its block. -/
theorem Keeps.wr {w : Nat} {a s : State} (f : Fld) (v : Nat) (hf : may w f.key = true) (h : Keeps w a s) : Keeps w a (s.wr f v) :=
  ⟨fun k => ⟨Tab.rising_set _ _ _ (h.canon k).1, (h.canon k).2⟩, h.jrnl, h.fuses, h.die, h.queue,
    fun k d hk => (Tab.get_set_ne s.regs (v % 2 ^ f.width) f.reset d (may_ne hk hf)).trans (h.inn.regs k d hk), h.inn.cnts, h.inn.out, h.inn.free, h.inn.pins, h.inn.xo, h.inn.fmeter, h.inn.boot, h.inn.journal, h.inn.jrnlQ, h.inn.otp, h.inn.sec, h.inn.pwr, h.inn.lines, h.inn.flt, h.inn.tbs, h.inn.hif, h.inn.refsel, h.inn.xc, h.inn.syn, h.inn.pul, h.inn.pmon, h.inn.tbl, h.inn.fab, h.inn.tt, h.inn.lan, h.inn.prt, h.inn.dress⟩

/-- A 48-bit counter takes a value of 48 bits. -/
theorem Keeps.cnt {w : Nat} {a s : State} (h : Keeps w a s) (k v : Nat) (hk : may w (32 * k) = true) (hv : v < 2 ^ 48) :
    Keeps w a { s with cnt48 := Tab.set s.cnt48 k v 0 } := by
  refine ⟨fun c => ⟨(h.canon c).1, Tab.wf_set _ _ (h.canon c).2.1, fun e he => ?_⟩, h.jrnl, h.fuses, h.die, h.queue,
    h.inn.regs, fun j d hj => ?_, h.inn.out, h.inn.free, h.inn.pins, h.inn.xo, h.inn.fmeter, h.inn.boot, h.inn.journal, h.inn.jrnlQ, h.inn.otp, h.inn.sec, h.inn.pwr, h.inn.lines, h.inn.flt, h.inn.tbs, h.inn.hif, h.inn.refsel, h.inn.xc, h.inn.syn, h.inn.pul, h.inn.pmon, h.inn.tbl, h.inn.fab, h.inn.tt, h.inn.lan, h.inn.prt, h.inn.dress⟩
  · rcases Tab.mem_set he with ⟨rfl, _⟩ | he
    · exact hv
    · exact (h.canon c).2.2 e he
  · refine (Tab.get_set_ne s.cnt48 v 0 d ?_).trans (h.inn.cnts j d hj)
    rintro rfl; rw [hj] at hk; cases hk

theorem Keeps.bump48 {w : Nat} {a s : State} (lo : Fld) (k : Nat) (hf : may w (32 * lo.addr) = true) (h : Keeps w a s) :
    Keeps w a (s.bump48 lo k) := by
  refine h.cnt _ _ hf ?_
  unfold satAdd; split
  · assumption
  · decide

theorem Keeps.zero48 {w : Nat} {a s : State} (lo : Fld) (hf : may w (32 * lo.addr) = true) (h : Keeps w a s) : Keeps w a (s.zero48 lo) :=
  h.cnt _ _ hf (by decide)

/-- A record of 32 bytes enters a slot of the journal. -/
theorem Keeps.jset {w : Nat} {a s : State} (h : Keeps w a s) (hw : bit w 71 = true) {k : Nat} {v : List Byte} (hk : k < 8192)
    (hv : v.length = 32) (d : List Byte) : Keeps w a { s with journal := Tab.set s.journal k v d } := by
  refine ⟨h.canon, fun c => ⟨Tab.rising_set _ _ _ (h.jrnl c).1, fun e he => ?_⟩, h.fuses, h.die, h.queue,
    h.inn.regs, h.inn.cnts, h.inn.out, h.inn.free, h.inn.pins, h.inn.xo, h.inn.fmeter, h.inn.boot, (fun k => by rw [hw] at k; cases k), h.inn.jrnlQ, h.inn.otp, h.inn.sec, h.inn.pwr, h.inn.lines, h.inn.flt, h.inn.tbs, h.inn.hif, h.inn.refsel, h.inn.xc, h.inn.syn, h.inn.pul, h.inn.pmon, h.inn.tbl, h.inn.fab, h.inn.tt, h.inn.lan, h.inn.prt, h.inn.dress⟩
  rcases Tab.mem_set he with ⟨rfl, _⟩ | he
  · exact ⟨hk, hv⟩
  · exact (h.jrnl c).2 e he

/-- Other fuses than the life cycle's and the die identity's change. -/
theorem Keeps.fuse {w : Nat} {a s : State} (hw : bit w 73 = true) (h : Keeps w a s) {o : Otp} (hl : o.lc = s.otp.lc)
    (hd : o.dieId = s.otp.dieId) : Keeps w a { s with otp := o } :=
  ⟨h.canon, h.jrnl, fun i hi => by show bit o.lc i = true; rw [hl]; exact h.fuses i hi, hd.trans h.die, h.queue,
    h.inn.regs, h.inn.cnts, h.inn.out, h.inn.free, h.inn.pins, h.inn.xo, h.inn.fmeter, h.inn.boot, h.inn.journal, h.inn.jrnlQ, (fun k => by rw [hw] at k; cases k), h.inn.sec, h.inn.pwr, h.inn.lines, h.inn.flt, h.inn.tbs, h.inn.hif, h.inn.refsel, h.inn.xc, h.inn.syn, h.inn.pul, h.inn.pmon, h.inn.tbl, h.inn.fab, h.inn.tt, h.inn.lan, h.inn.prt, h.inn.dress⟩

/-- The mask lets each field of a list change. -/
def AllMay (w : Nat) (l : List (Fld × Nat)) : Prop := ∀ e ∈ l, may w e.1.key = true

theorem AllMay.nil (w : Nat) : AllMay w [] := fun _ h => by cases h

theorem AllMay.cons {w : Nat} {f : Fld} {v : Nat} {l : List (Fld × Nat)} (h : may w f.key = true) (k : AllMay w l) :
    AllMay w ((f, v) :: l) := fun e he => by
  rcases List.mem_cons.mp he with rfl | he
  · exact h
  · exact k e he

theorem AllMay.append {w : Nat} {l m : List (Fld × Nat)} (h : AllMay w l) (k : AllMay w m) : AllMay w (l ++ m) := fun e he =>
  (List.mem_append.mp he).elim (h e) (k e)

theorem AllMay.map {w : Nat} {α : Type} {g : α → Fld × Nat} {l : List α} (h : ∀ x, may w (g x).1.key = true) : AllMay w (l.map g) :=
  fun e he => by
    obtain ⟨x, _, rfl⟩ := List.mem_map.mp he
    exact h x

/-- The mask lets each field of a list of fields change. -/
def AllIn (w : Nat) (l : List Fld) : Prop := ∀ f ∈ l, may w f.key = true

theorem AllIn.nil (w : Nat) : AllIn w [] := fun _ h => by cases h

theorem AllIn.cons {w : Nat} {f : Fld} {l : List Fld} (h : may w f.key = true) (k : AllIn w l) : AllIn w (f :: l) := fun e he => by
  rcases List.mem_cons.mp he with rfl | he
  · exact h
  · exact k e he

theorem AllIn.append {w : Nat} {l m : List Fld} (h : AllIn w l) (k : AllIn w m) : AllIn w (l ++ m) := fun e he =>
  (List.mem_append.mp he).elim (h e) (k e)

theorem AllIn.map {w : Nat} {α : Type} {g : α → Fld} {l : List α} (h : ∀ x, may w (g x).key = true) : AllIn w (l.map g) :=
  fun e he => by
    obtain ⟨x, _, rfl⟩ := List.mem_map.mp he
    exact h x

/-- A result whose state, where it has one, keeps. -/
structure ResKeeps (w : Nat) (a : State) (r : Res) : Prop where
  next_keeps : ∀ t, r = .next t → Keeps w a t

theorem ResKeeps.next {w : Nat} {a t : State} (h : Keeps w a t) : ResKeeps w a (.next t) := ⟨fun _ e => by cases e; exact h⟩

end Sys2Proof.Machine
end

