-- ==== Sys2Proof/Laws/RegMay.lean ====
section
/-! SUPPORT. Every written register field lies in its block: a mask that holds the block lets the field change. -/
set_option Elab.async false
namespace Sys2Proof.Machine

theorem Reg.calCfgCalTb_may {m w : Nat} (hs : Sub m w) (e : bit m 7 = true) : may w Reg.calCfgCalTb.key = true :=
  may_of hs e rfl

theorem Reg.calCfgDeltaT_may {m w : Nat} (hs : Sub m w) (e : bit m 7 = true) : may w Reg.calCfgDeltaT.key = true :=
  may_of hs e rfl

theorem Reg.calCfgSensorMask_may {m w : Nat} (hs : Sub m w) (e : bit m 7 = true) : may w Reg.calCfgSensorMask.key = true :=
  may_of hs e rfl

theorem Reg.calCmdStatusResult_may {m w : Nat} (hs : Sub m w) (e : bit m 7 = true) : may w Reg.calCmdStatusResult.key = true :=
  may_of hs e rfl

theorem Reg.calCountsAborts_may {m w : Nat} (hs : Sub m w) (e : bit m 7 = true) : may w Reg.calCountsAborts.key = true :=
  may_of hs e rfl

theorem Reg.calCountsCommits_may {m w : Nat} (hs : Sub m w) (e : bit m 7 = true) : may w Reg.calCountsCommits.key = true :=
  may_of hs e rfl

theorem Reg.calCrcCrc_may {m w : Nat} (hs : Sub m w) (e : bit m 7 = true) : may w Reg.calCrcCrc.key = true :=
  may_of hs e rfl

theorem Reg.calLastSecSec_may {m w : Nat} (hs : Sub m w) (e : bit m 7 = true) : may w Reg.calLastSecSec.key = true :=
  may_of hs e rfl

theorem Reg.calLimitsMaxStep_may {m w : Nat} (hs : Sub m w) (e : bit m 7 = true) : may w Reg.calLimitsMaxStep.key = true :=
  may_of hs e rfl

theorem Reg.calLimitsRetryS_may {m w : Nat} (hs : Sub m w) (e : bit m 7 = true) : may w Reg.calLimitsRetryS.key = true :=
  may_of hs e rfl

theorem Reg.calPeriodPeriodS_may {m w : Nat} (hs : Sub m w) (e : bit m 7 = true) : may w Reg.calPeriodPeriodS.key = true :=
  may_of hs e rfl

theorem Reg.calPpsOffHiOff_may {m w : Nat} (hs : Sub m w) (e : bit m 7 = true) : may w Reg.calPpsOffHiOff.key = true :=
  may_of hs e rfl

theorem Reg.calPpsOffHiValid_may {m w : Nat} (hs : Sub m w) (e : bit m 7 = true) : may w Reg.calPpsOffHiValid.key = true :=
  may_of hs e rfl

theorem Reg.calPpsOffLoOff_may {m w : Nat} (hs : Sub m w) (e : bit m 7 = true) : may w Reg.calPpsOffLoOff.key = true :=
  may_of hs e rfl

theorem Reg.calStatusClkOk_may {m w : Nat} (hs : Sub m w) (e : bit m 7 = true) : may w Reg.calStatusClkOk.key = true :=
  may_of hs e rfl

theorem Reg.calStatusGen_may {m w : Nat} (hs : Sub m w) (e : bit m 7 = true) : may w Reg.calStatusGen.key = true :=
  may_of hs e rfl

theorem Reg.calStatusLastAbort_may {m w : Nat} (hs : Sub m w) (e : bit m 7 = true) : may w Reg.calStatusLastAbort.key = true :=
  may_of hs e rfl

theorem Reg.calStatusPpsOk_may {m w : Nat} (hs : Sub m w) (e : bit m 7 = true) : may w Reg.calStatusPpsOk.key = true :=
  may_of hs e rfl

theorem Reg.calStatusRetryArmed_may {m w : Nat} (hs : Sub m w) (e : bit m 7 = true) : may w Reg.calStatusRetryArmed.key = true :=
  may_of hs e rfl

theorem Reg.calStatusSource_may {m w : Nat} (hs : Sub m w) (e : bit m 7 = true) : may w Reg.calStatusSource.key = true :=
  may_of hs e rfl

theorem Reg.calStatusStaleTemp_may {m w : Nat} (hs : Sub m w) (e : bit m 7 = true) : may w Reg.calStatusStaleTemp.key = true :=
  may_of hs e rfl

theorem Reg.calStatusState_may {m w : Nat} (hs : Sub m w) (e : bit m 7 = true) : may w Reg.calStatusState.key = true :=
  may_of hs e rfl

theorem Reg.calStatusWalking_may {m w : Nat} (hs : Sub m w) (e : bit m 7 = true) : may w Reg.calStatusWalking.key = true :=
  may_of hs e rfl

theorem Reg.calTempNow_may {m w : Nat} {n : Nat} (hs : Sub m w) (e : bit m 7 = true) : may w (Reg.calTempNow n).key = true :=
  may_cell hs e 0x700040 0x4 16 (0) n (by decide) (by decide) (by decide)

theorem Reg.calTempTRef_may {m w : Nat} {n : Nat} (hs : Sub m w) (e : bit m 7 = true) : may w (Reg.calTempTRef n).key = true :=
  may_cell hs e 0x700040 0x4 16 (16) n (by decide) (by decide) (by decide)

theorem Reg.calTriggerCause_may {m w : Nat} (hs : Sub m w) (e : bit m 7 = true) : may w Reg.calTriggerCause.key = true :=
  may_of hs e rfl

theorem Reg.calTriggerSensor_may {m w : Nat} (hs : Sub m w) (e : bit m 7 = true) : may w Reg.calTriggerSensor.key = true :=
  may_of hs e rfl

theorem Reg.calValValue_may {m w : Nat} {n : Nat} (hs : Sub m w) (e : bit m 7 = true) : may w (Reg.calValValue n).key = true :=
  may_cell hs e 0x701000 0x4 428 (0) n (by decide) (by decide) (by decide)

theorem Reg.clkFlagsFlfDenied_may {m w : Nat} (hs : Sub m w) (e : bit m 1 = true) : may w Reg.clkFlagsFlfDenied.key = true :=
  may_of hs e rfl

theorem Reg.clkFmeterCtlSel_may {m w : Nat} (hs : Sub m w) (e : bit m 1 = true) : may w Reg.clkFmeterCtlSel.key = true :=
  may_of hs e rfl

theorem Reg.clkFmeterCtlWindow_may {m w : Nat} (hs : Sub m w) (e : bit m 1 = true) : may w Reg.clkFmeterCtlWindow.key = true :=
  may_of hs e rfl

theorem Reg.clkFmeterResultCount_may {m w : Nat} (hs : Sub m w) (e : bit m 1 = true) : may w Reg.clkFmeterResultCount.key = true :=
  may_of hs e rfl

theorem Reg.clkPlanDepth_may {m w : Nat} (hs : Sub m w) (e : bit m 1 = true) : may w Reg.clkPlanDepth.key = true :=
  may_of hs e rfl

theorem Reg.clkPlanModrate_may {m w : Nat} (hs : Sub m w) (e : bit m 1 = true) : may w Reg.clkPlanModrate.key = true :=
  may_of hs e rfl

theorem Reg.clkPlanProfile_may {m w : Nat} (hs : Sub m w) (e : bit m 1 = true) : may w Reg.clkPlanProfile.key = true :=
  may_of hs e rfl

theorem Reg.clkPlanXoCfg_may {m w : Nat} (hs : Sub m w) (e : bit m 1 = true) : may w Reg.clkPlanXoCfg.key = true :=
  may_of hs e rfl

theorem Reg.clkShaftStatusActiveRoot_may {m w : Nat} (hs : Sub m w) (e : bit m 1 = true) : may w Reg.clkShaftStatusActiveRoot.key = true :=
  may_of hs e rfl

theorem Reg.clkShaftStatusRootaLock_may {m w : Nat} (hs : Sub m w) (e : bit m 1 = true) : may w Reg.clkShaftStatusRootaLock.key = true :=
  may_of hs e rfl

theorem Reg.clkShaftStatusRootbLock_may {m w : Nat} (hs : Sub m w) (e : bit m 1 = true) : may w Reg.clkShaftStatusRootbLock.key = true :=
  may_of hs e rfl

theorem Reg.clkShaftStatusSwitches_may {m w : Nat} (hs : Sub m w) (e : bit m 1 = true) : may w Reg.clkShaftStatusSwitches.key = true :=
  may_of hs e rfl

theorem Reg.clkXoStatusCount_may {m w : Nat} (hs : Sub m w) (e : bit m 1 = true) : may w Reg.clkXoStatusCount.key = true :=
  may_of hs e rfl

theorem Reg.clkXoStatusDetected_may {m w : Nat} (hs : Sub m w) (e : bit m 1 = true) : may w Reg.clkXoStatusDetected.key = true :=
  may_of hs e rfl

theorem Reg.clkXoStatusLoss_may {m w : Nat} (hs : Sub m w) (e : bit m 1 = true) : may w Reg.clkXoStatusLoss.key = true :=
  may_of hs e rfl

theorem Reg.clkXoStatusMismatch_may {m w : Nat} (hs : Sub m w) (e : bit m 1 = true) : may w Reg.clkXoStatusMismatch.key = true :=
  may_of hs e rfl

theorem Reg.clkXoStatusState_may {m w : Nat} (hs : Sub m w) (e : bit m 1 = true) : may w Reg.clkXoStatusState.key = true :=
  may_of hs e rfl

theorem Reg.devBootCalNominal_may {m w : Nat} (hs : Sub m w) (e : bit m 0 = true) : may w Reg.devBootCalNominal.key = true :=
  may_of hs e rfl

theorem Reg.devBootCountCount_may {m w : Nat} (hs : Sub m w) (e : bit m 0 = true) : may w Reg.devBootCountCount.key = true :=
  may_of hs e rfl

theorem Reg.devBootFailReason0_may {m w : Nat} (hs : Sub m w) (e : bit m 0 = true) : may w Reg.devBootFailReason0.key = true :=
  may_of hs e rfl

theorem Reg.devBootFailReason1_may {m w : Nat} (hs : Sub m w) (e : bit m 0 = true) : may w Reg.devBootFailReason1.key = true :=
  may_of hs e rfl

theorem Reg.devBootFailType_may {m w : Nat} (hs : Sub m w) (e : bit m 0 = true) : may w Reg.devBootFailType.key = true :=
  may_of hs e rfl

theorem Reg.devBootFloorRaised_may {m w : Nat} (hs : Sub m w) (e : bit m 0 = true) : may w Reg.devBootFloorRaised.key = true :=
  may_of hs e rfl

theorem Reg.devBootPhase_may {m w : Nat} (hs : Sub m w) (e : bit m 0 = true) : may w Reg.devBootPhase.key = true :=
  may_of hs e rfl

theorem Reg.devBootRootBStart_may {m w : Nat} (hs : Sub m w) (e : bit m 0 = true) : may w Reg.devBootRootBStart.key = true :=
  may_of hs e rfl

theorem Reg.devBootSource_may {m w : Nat} (hs : Sub m w) (e : bit m 0 = true) : may w Reg.devBootSource.key = true :=
  may_of hs e rfl

theorem Reg.devImgBuildBuild_may {m w : Nat} (hs : Sub m w) (e : bit m 0 = true) : may w Reg.devImgBuildBuild.key = true :=
  may_of hs e rfl

theorem Reg.devImgSeqSeq_may {m w : Nat} (hs : Sub m w) (e : bit m 0 = true) : may w Reg.devImgSeqSeq.key = true :=
  may_of hs e rfl

theorem Reg.devJrnlDataWord_may {m w : Nat} {n : Nat} (hs : Sub m w) (e : bit m 0 = true) : may w (Reg.devJrnlDataWord n).key = true :=
  may_cell hs e 0x40 0x4 8 (0) n (by decide) (by decide) (by decide)

theorem Reg.devJrnlHeadEmpty_may {m w : Nat} (hs : Sub m w) (e : bit m 0 = true) : may w Reg.devJrnlHeadEmpty.key = true :=
  may_of hs e rfl

theorem Reg.devJrnlHeadSlot_may {m w : Nat} (hs : Sub m w) (e : bit m 0 = true) : may w Reg.devJrnlHeadSlot.key = true :=
  may_of hs e rfl

theorem Reg.devJrnlIdxSlot_may {m w : Nat} (hs : Sub m w) (e : bit m 0 = true) : may w Reg.devJrnlIdxSlot.key = true :=
  may_of hs e rfl

theorem Reg.devNodeIdHiHi_may {m w : Nat} (hs : Sub m w) (e : bit m 0 = true) : may w Reg.devNodeIdHiHi.key = true :=
  may_of hs e rfl

theorem Reg.devNodeIdLoLo_may {m w : Nat} (hs : Sub m w) (e : bit m 0 = true) : may w Reg.devNodeIdLoLo.key = true :=
  may_of hs e rfl

theorem Reg.devNvmBufData_may {m w : Nat} {n : Nat} (hs : Sub m w) (e : bit m 0 = true) : may w (Reg.devNvmBufData n).key = true :=
  may_cell hs e 0x100 0x4 64 (0) n (by decide) (by decide) (by decide)

theorem Reg.devNvmCmdAddrEn_may {m w : Nat} (hs : Sub m w) (e : bit m 0 = true) : may w Reg.devNvmCmdAddrEn.key = true :=
  may_of hs e rfl

theorem Reg.devNvmCmdCs_may {m w : Nat} (hs : Sub m w) (e : bit m 0 = true) : may w Reg.devNvmCmdCs.key = true :=
  may_of hs e rfl

theorem Reg.devNvmCmdLen_may {m w : Nat} (hs : Sub m w) (e : bit m 0 = true) : may w Reg.devNvmCmdLen.key = true :=
  may_of hs e rfl

theorem Reg.devNvmCmdOpcode_may {m w : Nat} (hs : Sub m w) (e : bit m 0 = true) : may w Reg.devNvmCmdOpcode.key = true :=
  may_of hs e rfl

theorem Reg.devNvmCmdWrite_may {m w : Nat} (hs : Sub m w) (e : bit m 0 = true) : may w Reg.devNvmCmdWrite.key = true :=
  may_of hs e rfl

theorem Reg.devNvmStatusBusy_may {m w : Nat} (hs : Sub m w) (e : bit m 0 = true) : may w Reg.devNvmStatusBusy.key = true :=
  may_of hs e rfl

theorem Reg.devNvmStatusDenied_may {m w : Nat} (hs : Sub m w) (e : bit m 0 = true) : may w Reg.devNvmStatusDenied.key = true :=
  may_of hs e rfl

theorem Reg.devResetStatusArmed_may {m w : Nat} (hs : Sub m w) (e : bit m 0 = true) : may w Reg.devResetStatusArmed.key = true :=
  may_of hs e rfl

theorem Reg.devResetStatusHvBusy_may {m w : Nat} (hs : Sub m w) (e : bit m 0 = true) : may w Reg.devResetStatusHvBusy.key = true :=
  may_of hs e rfl

theorem Reg.devResetStatusHvCount_may {m w : Nat} (hs : Sub m w) (e : bit m 0 = true) : may w Reg.devResetStatusHvCount.key = true :=
  may_of hs e rfl

theorem Reg.devResetStatusRefused_may {m w : Nat} (hs : Sub m w) (e : bit m 0 = true) : may w Reg.devResetStatusRefused.key = true :=
  may_of hs e rfl

theorem Reg.fabCfgCtEn_may {m w : Nat} (hs : Sub m w) (e : bit m 32 = true) : may w Reg.fabCfgCtEn.key = true :=
  may_of hs e rfl

theorem Reg.fabCntBadDiscard_may {m w : Nat} (hs : Sub m w) (e : bit m 32 = true) : may w Reg.fabCntBadDiscard.key = true :=
  may_of hs e rfl

theorem Reg.fabCntCtCopies_may {m w : Nat} (hs : Sub m w) (e : bit m 32 = true) : may w Reg.fabCntCtCopies.key = true :=
  may_of hs e rfl

theorem Reg.fabCntFenceFrames_may {m w : Nat} (hs : Sub m w) (e : bit m 32 = true) : may w Reg.fabCntFenceFrames.key = true :=
  may_of hs e rfl

theorem Reg.fabCntFenceOvf_may {m w : Nat} (hs : Sub m w) (e : bit m 32 = true) : may w Reg.fabCntFenceOvf.key = true :=
  may_of hs e rfl

theorem Reg.fabCntFlfFrames_may {m w : Nat} (hs : Sub m w) (e : bit m 32 = true) : may w Reg.fabCntFlfFrames.key = true :=
  may_of hs e rfl

theorem Reg.fabCntFlfMiss_may {m w : Nat} (hs : Sub m w) (e : bit m 32 = true) : may w Reg.fabCntFlfMiss.key = true :=
  may_of hs e rfl

theorem Reg.fabCntLate_may {m w : Nat} (hs : Sub m w) (e : bit m 32 = true) : may w Reg.fabCntLate.key = true :=
  may_of hs e rfl

theorem Reg.fabCntLinkDrop_may {m w : Nat} (hs : Sub m w) (e : bit m 32 = true) : may w Reg.fabCntLinkDrop.key = true :=
  may_of hs e rfl

theorem Reg.fabCntOverrun_may {m w : Nat} (hs : Sub m w) (e : bit m 32 = true) : may w Reg.fabCntOverrun.key = true :=
  may_of hs e rfl

theorem Reg.fabCntStomps_may {m w : Nat} (hs : Sub m w) (e : bit m 32 = true) : may w Reg.fabCntStomps.key = true :=
  may_of hs e rfl

theorem Reg.fabCntTimeouts_may {m w : Nat} (hs : Sub m w) (e : bit m 32 = true) : may w Reg.fabCntTimeouts.key = true :=
  may_of hs e rfl

theorem Reg.fabCntUndecidedFull_may {m w : Nat} (hs : Sub m w) (e : bit m 32 = true) : may w Reg.fabCntUndecidedFull.key = true :=
  may_of hs e rfl

theorem Reg.fabCntUnderrun_may {m w : Nat} (hs : Sub m w) (e : bit m 32 = true) : may w Reg.fabCntUnderrun.key = true :=
  may_of hs e rfl

theorem Reg.fabCntWindowFull_may {m w : Nat} (hs : Sub m w) (e : bit m 32 = true) : may w Reg.fabCntWindowFull.key = true :=
  may_of hs e rfl

theorem Reg.fabDestCfgFlfEn_may {m w : Nat} {n : Nat} (hs : Sub m w) (e : bit m 32 = true) : may w (Reg.fabDestCfgFlfEn n).key = true :=
  may_cell hs e 0x2001000 0x40 128 (19) n (by decide) (by decide) (by decide)

theorem Reg.fabDestCfgFlfTc_may {m w : Nat} {n : Nat} (hs : Sub m w) (e : bit m 32 = true) : may w (Reg.fabDestCfgFlfTc n).key = true :=
  may_cell hs e 0x2001000 0x40 128 (16) n (by decide) (by decide) (by decide)

theorem Reg.fabDestCfgLossless_may {m w : Nat} {n : Nat} (hs : Sub m w) (e : bit m 32 = true) : may w (Reg.fabDestCfgLossless n).key = true :=
  may_cell hs e 0x2001000 0x40 128 (0) n (by decide) (by decide) (by decide)

theorem Reg.fabDestCfgShapeEn_may {m w : Nat} {n : Nat} (hs : Sub m w) (e : bit m 32 = true) : may w (Reg.fabDestCfgShapeEn n).key = true :=
  may_cell hs e 0x2001000 0x40 128 (8) n (by decide) (by decide) (by decide)

theorem Reg.fabDestFlfFlfLat_may {m w : Nat} {n : Nat} (hs : Sub m w) (e : bit m 32 = true) : may w (Reg.fabDestFlfFlfLat n).key = true :=
  may_cell hs e 0x2001008 0x40 128 (0) n (by decide) (by decide) (by decide)

theorem Reg.fabDestGapsGaps_may {m w : Nat} {n : Nat} (hs : Sub m w) (e : bit m 32 = true) : may w (Reg.fabDestGapsGaps n).key = true :=
  may_cell hs e 0x2001014 0x40 128 (0) n (by decide) (by decide) (by decide)

theorem Reg.fabDestHeadHeadroom_may {m w : Nat} {n : Nat} (hs : Sub m w) (e : bit m 32 = true) : may w (Reg.fabDestHeadHeadroom n).key = true :=
  may_cell hs e 0x200100c 0x40 128 (0) n (by decide) (by decide) (by decide)

theorem Reg.fabDestLdropLinkDrop_may {m w : Nat} {n : Nat} (hs : Sub m w) (e : bit m 32 = true) : may w (Reg.fabDestLdropLinkDrop n).key = true :=
  may_cell hs e 0x200101c 0x40 128 (0) n (by decide) (by decide) (by decide)

theorem Reg.fabDestOvrOverrun_may {m w : Nat} {n : Nat} (hs : Sub m w) (e : bit m 32 = true) : may w (Reg.fabDestOvrOverrun n).key = true :=
  may_cell hs e 0x2001018 0x40 128 (0) n (by decide) (by decide) (by decide)

theorem Reg.fabDestRttRttNs_may {m w : Nat} {n : Nat} (hs : Sub m w) (e : bit m 32 = true) : may w (Reg.fabDestRttRttNs n).key = true :=
  may_cell hs e 0x2001004 0x40 128 (0) n (by decide) (by decide) (by decide)

theorem Reg.fabDestShapeBurst_may {m w : Nat} {n c : Nat} (hs : Sub m w) (e : bit m 32 = true) : may w (Reg.fabDestShapeBurst n c).key = true :=
  may_cell hs e (0x2001020 + 4 * (c % 8)) 0x40 128 (20) n (by omega) (by omega) (by omega)

theorem Reg.fabDestShapeRate_may {m w : Nat} {n c : Nat} (hs : Sub m w) (e : bit m 32 = true) : may w (Reg.fabDestShapeRate n c).key = true :=
  may_cell hs e (0x2001020 + 4 * (c % 8)) 0x40 128 (0) n (by omega) (by omega) (by omega)

theorem Reg.fabDestStatusHeld_may {m w : Nat} {n : Nat} (hs : Sub m w) (e : bit m 32 = true) : may w (Reg.fabDestStatusHeld n).key = true :=
  may_cell hs e 0x2001010 0x40 128 (16) n (by decide) (by decide) (by decide)

theorem Reg.fabDestStatusPaused_may {m w : Nat} {n : Nat} (hs : Sub m w) (e : bit m 32 = true) : may w (Reg.fabDestStatusPaused n).key = true :=
  may_cell hs e 0x2001010 0x40 128 (8) n (by decide) (by decide) (by decide)

theorem Reg.fabDestStatusRttShort_may {m w : Nat} {n : Nat} (hs : Sub m w) (e : bit m 32 = true) : may w (Reg.fabDestStatusRttShort n).key = true :=
  may_cell hs e 0x2001010 0x40 128 (26) n (by decide) (by decide) (by decide)

theorem Reg.fabDestStatusXoff_may {m w : Nat} {n : Nat} (hs : Sub m w) (e : bit m 32 = true) : may w (Reg.fabDestStatusXoff n).key = true :=
  may_cell hs e 0x2001010 0x40 128 (0) n (by decide) (by decide) (by decide)

theorem Reg.fabGuardCells_may {m w : Nat} (hs : Sub m w) (e : bit m 32 = true) : may w Reg.fabGuardCells.key = true :=
  may_of hs e rfl

theorem Reg.fabHeadTotal_may {m w : Nat} (hs : Sub m w) (e : bit m 32 = true) : may w Reg.fabHeadTotal.key = true :=
  may_of hs e rfl

theorem Reg.fabPoolSharedFree_may {m w : Nat} (hs : Sub m w) (e : bit m 32 = true) : may w Reg.fabPoolSharedFree.key = true :=
  may_of hs e rfl

theorem Reg.fabTcCfgFenceEtype_may {m w : Nat} {n : Nat} (hs : Sub m w) (e : bit m 32 = true) : may w (Reg.fabTcCfgFenceEtype n).key = true :=
  may_cell hs e 0x2000100 0x10 8 (16) n (by decide) (by decide) (by decide)

theorem Reg.fabTcCfgMode_may {m w : Nat} {n : Nat} (hs : Sub m w) (e : bit m 32 = true) : may w (Reg.fabTcCfgMode n).key = true :=
  may_cell hs e 0x2000100 0x10 8 (0) n (by decide) (by decide) (by decide)

theorem Reg.fabTcCfgSched_may {m w : Nat} {n : Nat} (hs : Sub m w) (e : bit m 32 = true) : may w (Reg.fabTcCfgSched n).key = true :=
  may_cell hs e 0x2000100 0x10 8 (4) n (by decide) (by decide) (by decide)

theorem Reg.fabTcCfgWeight_may {m w : Nat} {n : Nat} (hs : Sub m w) (e : bit m 32 = true) : may w (Reg.fabTcCfgWeight n).key = true :=
  may_cell hs e 0x2000100 0x10 8 (8) n (by decide) (by decide) (by decide)

theorem Reg.fabTcDropDrop_may {m w : Nat} {n : Nat} (hs : Sub m w) (e : bit m 32 = true) : may w (Reg.fabTcDropDrop n).key = true :=
  may_cell hs e 0x200010c 0x10 8 (0) n (by decide) (by decide) (by decide)

theorem Reg.fabTcXoffXoff_may {m w : Nat} {n : Nat} (hs : Sub m w) (e : bit m 32 = true) : may w (Reg.fabTcXoffXoff n).key = true :=
  may_cell hs e 0x2000104 0x10 8 (0) n (by decide) (by decide) (by decide)

theorem Reg.fabTcXonXon_may {m w : Nat} {n : Nat} (hs : Sub m w) (e : bit m 32 = true) : may w (Reg.fabTcXonXon n).key = true :=
  may_cell hs e 0x2000108 0x10 8 (0) n (by decide) (by decide) (by decide)

theorem Reg.fabUsedCells_may {m w : Nat} (hs : Sub m w) (e : bit m 32 = true) : may w Reg.fabUsedCells.key = true :=
  may_of hs e rfl

theorem Reg.fltActiveMap_may {m w : Nat} {n : Nat} (hs : Sub m w) (e : bit m 41 = true) : may w (Reg.fltActiveMap n).key = true :=
  may_cell hs e 0x2900080 0x4 16 (0) n (by decide) (by decide) (by decide)

theorem Reg.fltCfgInjEn_may {m w : Nat} (hs : Sub m w) (e : bit m 41 = true) : may w Reg.fltCfgInjEn.key = true :=
  may_of hs e rfl

theorem Reg.fltClearStatusResult_may {m w : Nat} (hs : Sub m w) (e : bit m 41 = true) : may w Reg.fltClearStatusResult.key = true :=
  may_of hs e rfl

theorem Reg.fltCountsJrnlDrop_may {m w : Nat} (hs : Sub m w) (e : bit m 41 = true) : may w Reg.fltCountsJrnlDrop.key = true :=
  may_of hs e rfl

theorem Reg.fltFaultMap_may {m w : Nat} {n : Nat} (hs : Sub m w) (e : bit m 41 = true) : may w (Reg.fltFaultMap n).key = true :=
  may_cell hs e 0x2900040 0x4 16 (0) n (by decide) (by decide) (by decide)

theorem Reg.fltInjStatusBusy_may {m w : Nat} (hs : Sub m w) (e : bit m 41 = true) : may w Reg.fltInjStatusBusy.key = true :=
  may_of hs e rfl

theorem Reg.fltInjStatusCollided_may {m w : Nat} (hs : Sub m w) (e : bit m 41 = true) : may w Reg.fltInjStatusCollided.key = true :=
  may_of hs e rfl

theorem Reg.fltInjStatusDone_may {m w : Nat} (hs : Sub m w) (e : bit m 41 = true) : may w Reg.fltInjStatusDone.key = true :=
  may_of hs e rfl

theorem Reg.fltInjStatusResult_may {m w : Nat} (hs : Sub m w) (e : bit m 41 = true) : may w Reg.fltInjStatusResult.key = true :=
  may_of hs e rfl

theorem Reg.fltInjStatusSource_may {m w : Nat} (hs : Sub m w) (e : bit m 41 = true) : may w Reg.fltInjStatusSource.key = true :=
  may_of hs e rfl

theorem Reg.fltQuarCells_may {m w : Nat} (hs : Sub m w) (e : bit m 41 = true) : may w Reg.fltQuarCells.key = true :=
  may_of hs e rfl

theorem Reg.fltQuarFull_may {m w : Nat} (hs : Sub m w) (e : bit m 41 = true) : may w Reg.fltQuarFull.key = true :=
  may_of hs e rfl

theorem Reg.fltRecFracFrac_may {m w : Nat} (hs : Sub m w) (e : bit m 41 = true) : may w Reg.fltRecFracFrac.key = true :=
  may_of hs e rfl

theorem Reg.fltRecNsNs_may {m w : Nat} (hs : Sub m w) (e : bit m 41 = true) : may w Reg.fltRecNsNs.key = true :=
  may_of hs e rfl

theorem Reg.fltRecSecHiSec_may {m w : Nat} (hs : Sub m w) (e : bit m 41 = true) : may w Reg.fltRecSecHiSec.key = true :=
  may_of hs e rfl

theorem Reg.fltRecSecLoSec_may {m w : Nat} (hs : Sub m w) (e : bit m 41 = true) : may w Reg.fltRecSecLoSec.key = true :=
  may_of hs e rfl

theorem Reg.fltRecSrcClass_may {m w : Nat} (hs : Sub m w) (e : bit m 41 = true) : may w Reg.fltRecSrcClass.key = true :=
  may_of hs e rfl

theorem Reg.fltRecSrcInj_may {m w : Nat} (hs : Sub m w) (e : bit m 41 = true) : may w Reg.fltRecSrcInj.key = true :=
  may_of hs e rfl

theorem Reg.fltRecSrcRail_may {m w : Nat} (hs : Sub m w) (e : bit m 41 = true) : may w Reg.fltRecSrcRail.key = true :=
  may_of hs e rfl

theorem Reg.fltRecSrcReaction_may {m w : Nat} (hs : Sub m w) (e : bit m 41 = true) : may w Reg.fltRecSrcReaction.key = true :=
  may_of hs e rfl

theorem Reg.fltRecSrcSource_may {m w : Nat} (hs : Sub m w) (e : bit m 41 = true) : may w Reg.fltRecSrcSource.key = true :=
  may_of hs e rfl

theorem Reg.fltRecSrcTimeValid_may {m w : Nat} (hs : Sub m w) (e : bit m 41 = true) : may w Reg.fltRecSrcTimeValid.key = true :=
  may_of hs e rfl

theorem Reg.fltRecSyndSyndrome_may {m w : Nat} (hs : Sub m w) (e : bit m 41 = true) : may w Reg.fltRecSyndSyndrome.key = true :=
  may_of hs e rfl

theorem Reg.fltSrcActive_may {m w : Nat} {n : Nat} (hs : Sub m w) (e : bit m 41 = true) : may w (Reg.fltSrcActive n).key = true :=
  may_cell hs e 0x2901000 0x4 512 (11) n (by decide) (by decide) (by decide)

theorem Reg.fltSrcCount_may {m w : Nat} {n : Nat} (hs : Sub m w) (e : bit m 41 = true) : may w (Reg.fltSrcCount n).key = true :=
  may_cell hs e 0x2901000 0x4 512 (16) n (by decide) (by decide) (by decide)

theorem Reg.fltSrcLevel_may {m w : Nat} {n : Nat} (hs : Sub m w) (e : bit m 41 = true) : may w (Reg.fltSrcLevel n).key = true :=
  may_cell hs e 0x2901000 0x4 512 (9) n (by decide) (by decide) (by decide)

theorem Reg.fltSrcRail_may {m w : Nat} {n : Nat} (hs : Sub m w) (e : bit m 41 = true) : may w (Reg.fltSrcRail n).key = true :=
  may_cell hs e 0x2901000 0x4 512 (12) n (by decide) (by decide) (by decide)

theorem Reg.fltSrcReaction_may {m w : Nat} {n : Nat} (hs : Sub m w) (e : bit m 41 = true) : may w (Reg.fltSrcReaction n).key = true :=
  may_cell hs e 0x2901000 0x4 512 (4) n (by decide) (by decide) (by decide)

theorem Reg.fltStatusClrRefused_may {m w : Nat} (hs : Sub m w) (e : bit m 41 = true) : may w Reg.fltStatusClrRefused.key = true :=
  may_of hs e rfl

theorem Reg.fltStatusGen_may {m w : Nat} (hs : Sub m w) (e : bit m 41 = true) : may w Reg.fltStatusGen.key = true :=
  may_of hs e rfl

theorem Reg.fltStatusHalted_may {m w : Nat} (hs : Sub m w) (e : bit m 41 = true) : may w Reg.fltStatusHalted.key = true :=
  may_of hs e rfl

theorem Reg.fltStatusOvf_may {m w : Nat} (hs : Sub m w) (e : bit m 41 = true) : may w Reg.fltStatusOvf.key = true :=
  may_of hs e rfl

theorem Reg.fltStatusState_may {m w : Nat} (hs : Sub m w) (e : bit m 41 = true) : may w Reg.fltStatusState.key = true :=
  may_of hs e rfl

theorem Reg.hifAccAddrAddr_may {m w : Nat} (hs : Sub m w) (e : bit m 45 = true) : may w Reg.hifAccAddrAddr.key = true :=
  may_of hs e rfl

theorem Reg.hifAccAddrBar2_may {m w : Nat} (hs : Sub m w) (e : bit m 45 = true) : may w Reg.hifAccAddrBar2.key = true :=
  may_of hs e rfl

theorem Reg.hifAccErrCount_may {m w : Nat} (hs : Sub m w) (e : bit m 45 = true) : may w Reg.hifAccErrCount.key = true :=
  may_of hs e rfl

theorem Reg.hifAccErrPath_may {m w : Nat} (hs : Sub m w) (e : bit m 45 = true) : may w Reg.hifAccErrPath.key = true :=
  may_of hs e rfl

theorem Reg.hifAccErrType_may {m w : Nat} (hs : Sub m w) (e : bit m 45 = true) : may w Reg.hifAccErrType.key = true :=
  may_of hs e rfl

theorem Reg.hifAccErrValid_may {m w : Nat} (hs : Sub m w) (e : bit m 45 = true) : may w Reg.hifAccErrValid.key = true :=
  may_of hs e rfl

theorem Reg.hifCfgFramesEn_may {m w : Nat} (hs : Sub m w) (e : bit m 45 = true) : may w Reg.hifCfgFramesEn.key = true :=
  may_of hs e rfl

theorem Reg.hifCfgLnqFifo_may {m w : Nat} (hs : Sub m w) (e : bit m 45 = true) : may w Reg.hifCfgLnqFifo.key = true :=
  may_of hs e rfl

theorem Reg.hifCfgPcieEn_may {m w : Nat} (hs : Sub m w) (e : bit m 45 = true) : may w Reg.hifCfgPcieEn.key = true :=
  may_of hs e rfl

theorem Reg.hifCfgSmiEn_may {m w : Nat} (hs : Sub m w) (e : bit m 45 = true) : may w Reg.hifCfgSmiEn.key = true :=
  may_of hs e rfl

theorem Reg.hifCfgTcqFifo_may {m w : Nat} (hs : Sub m w) (e : bit m 45 = true) : may w Reg.hifCfgTcqFifo.key = true :=
  may_of hs e rfl

theorem Reg.hifFifoStatusTcqFree_may {m w : Nat} (hs : Sub m w) (e : bit m 45 = true) : may w Reg.hifFifoStatusTcqFree.key = true :=
  may_of hs e rfl

theorem Reg.hifFifoStatusTcrCount_may {m w : Nat} (hs : Sub m w) (e : bit m 45 = true) : may w Reg.hifFifoStatusTcrCount.key = true :=
  may_of hs e rfl

theorem Reg.hifHostqCells_may {m w : Nat} (hs : Sub m w) (e : bit m 45 = true) : may w Reg.hifHostqCells.key = true :=
  may_of hs e rfl

theorem Reg.hifHostqUsed_may {m w : Nat} (hs : Sub m w) (e : bit m 45 = true) : may w Reg.hifHostqUsed.key = true :=
  may_of hs e rfl

theorem Reg.hifIntMaskMask_may {m w : Nat} (hs : Sub m w) (e : bit m 45 = true) : may w Reg.hifIntMaskMask.key = true :=
  may_of hs e rfl

theorem Reg.hifIntStatusStatus_may {m w : Nat} (hs : Sub m w) (e : bit m 63 = true) : may w Reg.hifIntStatusStatus.key = true :=
  may_of hs e rfl

theorem Reg.hifIrqMaskMask_may {m w : Nat} (hs : Sub m w) (e : bit m 45 = true) : may w Reg.hifIrqMaskMask.key = true :=
  may_of hs e rfl

theorem Reg.hifLnqDataData_may {m w : Nat} {n : Nat} (hs : Sub m w) (e : bit m 45 = true) : may w (Reg.hifLnqDataData n).key = true :=
  may_cell hs e 0x2d00200 0x4 8 (0) n (by decide) (by decide) (by decide)

theorem Reg.hifRingBaseHiBaseHi_may {m w : Nat} {n : Nat} (hs : Sub m w) (e : bit m 45 = true) : may w (Reg.hifRingBaseHiBaseHi n).key = true :=
  may_cell hs e 0x2d00104 0x20 6 (0) n (by decide) (by decide) (by decide)

theorem Reg.hifRingBaseLoBaseLo_may {m w : Nat} {n : Nat} (hs : Sub m w) (e : bit m 45 = true) : may w (Reg.hifRingBaseLoBaseLo n).key = true :=
  may_cell hs e 0x2d00100 0x20 6 (12) n (by decide) (by decide) (by decide)

theorem Reg.hifRingCtlEn_may {m w : Nat} {n : Nat} (hs : Sub m w) (e : bit m 45 = true) : may w (Reg.hifRingCtlEn n).key = true :=
  may_cell hs e 0x2d00108 0x20 6 (8) n (by decide) (by decide) (by decide)

theorem Reg.hifRingCtlSize_may {m w : Nat} {n : Nat} (hs : Sub m w) (e : bit m 45 = true) : may w (Reg.hifRingCtlSize n).key = true :=
  may_cell hs e 0x2d00108 0x20 6 (0) n (by decide) (by decide) (by decide)

theorem Reg.hifRingDevIdxDevIdx_may {m w : Nat} {n : Nat} (hs : Sub m w) (e : bit m 45 = true) : may w (Reg.hifRingDevIdxDevIdx n).key = true :=
  may_cell hs e 0x2d0010c 0x20 6 (0) n (by decide) (by decide) (by decide)

theorem Reg.hifRingHostIdxHostIdx_may {m w : Nat} {n : Nat} (hs : Sub m w) (e : bit m 45 = true) : may w (Reg.hifRingHostIdxHostIdx n).key = true :=
  may_cell hs e 0x2d00110 0x20 6 (0) n (by decide) (by decide) (by decide)

theorem Reg.hifRingWbHiWbHi_may {m w : Nat} {n : Nat} (hs : Sub m w) (e : bit m 45 = true) : may w (Reg.hifRingWbHiWbHi n).key = true :=
  may_cell hs e 0x2d00118 0x20 6 (0) n (by decide) (by decide) (by decide)

theorem Reg.hifRingWbLoWbLo_may {m w : Nat} {n : Nat} (hs : Sub m w) (e : bit m 45 = true) : may w (Reg.hifRingWbLoWbLo n).key = true :=
  may_cell hs e 0x2d00114 0x20 6 (2) n (by decide) (by decide) (by decide)

theorem Reg.hifRxDropCount_may {m w : Nat} (hs : Sub m w) (e : bit m 45 = true) : may w Reg.hifRxDropCount.key = true :=
  may_of hs e rfl

theorem Reg.hifStatusBme_may {m w : Nat} (hs : Sub m w) (e : bit m 45 = true) : may w Reg.hifStatusBme.key = true :=
  may_of hs e rfl

theorem Reg.hifStatusLinkUp_may {m w : Nat} (hs : Sub m w) (e : bit m 45 = true) : may w Reg.hifStatusLinkUp.key = true :=
  may_of hs e rfl

theorem Reg.hifStatusMsixEn_may {m w : Nat} (hs : Sub m w) (e : bit m 45 = true) : may w Reg.hifStatusMsixEn.key = true :=
  may_of hs e rfl

theorem Reg.hifStatusSmiSeen_may {m w : Nat} (hs : Sub m w) (e : bit m 45 = true) : may w Reg.hifStatusSmiSeen.key = true :=
  may_of hs e rfl

theorem Reg.hifStatusSpeed_may {m w : Nat} (hs : Sub m w) (e : bit m 45 = true) : may w Reg.hifStatusSpeed.key = true :=
  may_of hs e rfl

theorem Reg.hifStatusWidth_may {m w : Nat} (hs : Sub m w) (e : bit m 45 = true) : may w Reg.hifStatusWidth.key = true :=
  may_of hs e rfl

theorem Reg.hifTcqDataData_may {m w : Nat} {n : Nat} (hs : Sub m w) (e : bit m 45 = true) : may w (Reg.hifTcqDataData n).key = true :=
  may_cell hs e 0x2d00240 0x4 8 (0) n (by decide) (by decide) (by decide)

theorem Reg.hifTcrDataData_may {m w : Nat} {n : Nat} (hs : Sub m w) (e : bit m 45 = true) : may w (Reg.hifTcrDataData n).key = true :=
  may_cell hs e 0x2d00280 0x4 4 (0) n (by decide) (by decide) (by decide)

theorem Reg.hifTxBadCount_may {m w : Nat} (hs : Sub m w) (e : bit m 45 = true) : may w Reg.hifTxBadCount.key = true :=
  may_of hs e rfl

theorem Reg.laneBackoffMs_may {m w : Nat} {n : Nat} (hs : Sub m w) (e : bit m 8 = true) : may w (Reg.laneBackoffMs n).key = true :=
  may_cell hs e 0x800028 0x1000 128 (0) n (by decide) (by decide) (by decide)

theorem Reg.laneCfgIdleEn_may {m w : Nat} {n : Nat} (hs : Sub m w) (e : bit m 8 = true) : may w (Reg.laneCfgIdleEn n).key = true :=
  may_cell hs e 0x800004 0x1000 128 (9) n (by decide) (by decide) (by decide)

theorem Reg.laneCfgManualAllow_may {m w : Nat} {n : Nat} (hs : Sub m w) (e : bit m 8 = true) : may w (Reg.laneCfgManualAllow n).key = true :=
  may_cell hs e 0x800004 0x1000 128 (10) n (by decide) (by decide) (by decide)

theorem Reg.laneCfgMode_may {m w : Nat} {n : Nat} (hs : Sub m w) (e : bit m 8 = true) : may w (Reg.laneCfgMode n).key = true :=
  may_cell hs e 0x800004 0x1000 128 (0) n (by decide) (by decide) (by decide)

theorem Reg.laneCfgPolRx_may {m w : Nat} {n : Nat} (hs : Sub m w) (e : bit m 8 = true) : may w (Reg.laneCfgPolRx n).key = true :=
  may_cell hs e 0x800004 0x1000 128 (8) n (by decide) (by decide) (by decide)

theorem Reg.laneCfgPolTx_may {m w : Nat} {n : Nat} (hs : Sub m w) (e : bit m 8 = true) : may w (Reg.laneCfgPolTx n).key = true :=
  may_cell hs e 0x800004 0x1000 128 (7) n (by decide) (by decide) (by decide)

theorem Reg.laneCfgQrate_may {m w : Nat} {n : Nat} (hs : Sub m w) (e : bit m 8 = true) : may w (Reg.laneCfgQrate n).key = true :=
  may_cell hs e 0x800004 0x1000 128 (3) n (by decide) (by decide) (by decide)

theorem Reg.laneCfgSelftest_may {m w : Nat} {n : Nat} (hs : Sub m w) (e : bit m 8 = true) : may w (Reg.laneCfgSelftest n).key = true :=
  may_cell hs e 0x800004 0x1000 128 (11) n (by decide) (by decide) (by decide)

theorem Reg.laneErrExtChk_may {m w : Nat} {n : Nat} (hs : Sub m w) (e : bit m 8 = true) : may w (Reg.laneErrExtChk n).key = true :=
  may_cell hs e 0x800020 0x1000 128 (3) n (by decide) (by decide) (by decide)

theorem Reg.laneErrLos_may {m w : Nat} {n : Nat} (hs : Sub m w) (e : bit m 8 = true) : may w (Reg.laneErrLos n).key = true :=
  may_cell hs e 0x800020 0x1000 128 (0) n (by decide) (by decide) (by decide)

theorem Reg.laneErrMarker_may {m w : Nat} {n : Nat} (hs : Sub m w) (e : bit m 8 = true) : may w (Reg.laneErrMarker n).key = true :=
  may_cell hs e 0x800020 0x1000 128 (1) n (by decide) (by decide) (by decide)

theorem Reg.laneErrQpllUnlock_may {m w : Nat} {n : Nat} (hs : Sub m w) (e : bit m 8 = true) : may w (Reg.laneErrQpllUnlock n).key = true :=
  may_cell hs e 0x800020 0x1000 128 (5) n (by decide) (by decide) (by decide)

theorem Reg.laneErrStuffViol_may {m w : Nat} {n : Nat} (hs : Sub m w) (e : bit m 8 = true) : may w (Reg.laneErrStuffViol n).key = true :=
  may_cell hs e 0x800020 0x1000 128 (2) n (by decide) (by decide) (by decide)

theorem Reg.laneErrTfCrc_may {m w : Nat} {n : Nat} (hs : Sub m w) (e : bit m 8 = true) : may w (Reg.laneErrTfCrc n).key = true :=
  may_cell hs e 0x800020 0x1000 128 (4) n (by decide) (by decide) (by decide)

theorem Reg.laneEventsAlignLoss_may {m w : Nat} {n : Nat} (hs : Sub m w) (e : bit m 8 = true) : may w (Reg.laneEventsAlignLoss n).key = true :=
  may_cell hs e 0x800024 0x1000 128 (16) n (by decide) (by decide) (by decide)

theorem Reg.laneEventsRetries_may {m w : Nat} {n : Nat} (hs : Sub m w) (e : bit m 8 = true) : may w (Reg.laneEventsRetries n).key = true :=
  may_cell hs e 0x800024 0x1000 128 (0) n (by decide) (by decide) (by decide)

theorem Reg.laneHlthCfgFillExp_may {m w : Nat} {n : Nat} (hs : Sub m w) (e : bit m 8 = true) : may w (Reg.laneHlthCfgFillExp n).key = true :=
  may_cell hs e 0x80000c 0x1000 128 (8) n (by decide) (by decide) (by decide)

theorem Reg.laneHlthCfgIdleUs_may {m w : Nat} {n : Nat} (hs : Sub m w) (e : bit m 8 = true) : may w (Reg.laneHlthCfgIdleUs n).key = true :=
  may_cell hs e 0x80000c 0x1000 128 (24) n (by decide) (by decide) (by decide)

theorem Reg.laneHlthCfgMarkLim_may {m w : Nat} {n : Nat} (hs : Sub m w) (e : bit m 8 = true) : may w (Reg.laneHlthCfgMarkLim n).key = true :=
  may_cell hs e 0x80000c 0x1000 128 (0) n (by decide) (by decide) (by decide)

theorem Reg.laneLosEvtCount_may {m w : Nat} {n : Nat} (hs : Sub m w) (e : bit m 8 = true) : may w (Reg.laneLosEvtCount n).key = true :=
  may_cell hs e 0x80002c 0x1000 128 (0) n (by decide) (by decide) (by decide)

theorem Reg.laneManStatusMarkerSeen_may {m w : Nat} {n : Nat} (hs : Sub m w) (e : bit m 8 = true) : may w (Reg.laneManStatusMarkerSeen n).key = true :=
  may_cell hs e 0x800018 0x1000 128 (3) n (by decide) (by decide) (by decide)

theorem Reg.laneManStatusResult_may {m w : Nat} {n : Nat} (hs : Sub m w) (e : bit m 8 = true) : may w (Reg.laneManStatusResult n).key = true :=
  may_cell hs e 0x800018 0x1000 128 (0) n (by decide) (by decide) (by decide)

theorem Reg.laneMarkErrLoCount_mayc {m w : Nat} {n : Nat} (hs : Sub m w) (e : bit m 8 = true) : may w (32 * (Reg.laneMarkErrLoCount n).addr) = true :=
  may_cell hs e 0x800030 0x1000 128 (0) n (by decide) (by decide) (by decide)

theorem Reg.lanePrbsBitsLoCount_mayc {m w : Nat} {n : Nat} (hs : Sub m w) (e : bit m 8 = true) : may w (32 * (Reg.lanePrbsBitsLoCount n).addr) = true :=
  may_cell hs e 0x800068 0x1000 128 (0) n (by decide) (by decide) (by decide)

theorem Reg.lanePrbsErrLoCount_mayc {m w : Nat} {n : Nat} (hs : Sub m w) (e : bit m 8 = true) : may w (32 * (Reg.lanePrbsErrLoCount n).addr) = true :=
  may_cell hs e 0x800070 0x1000 128 (0) n (by decide) (by decide) (by decide)

theorem Reg.lanePrbsStatusLock_may {m w : Nat} {n : Nat} (hs : Sub m w) (e : bit m 8 = true) : may w (Reg.lanePrbsStatusLock n).key = true :=
  may_cell hs e 0x800064 0x1000 128 (0) n (by decide) (by decide) (by decide)

theorem Reg.laneResEmptyLoCount_mayc {m w : Nat} {n : Nat} (hs : Sub m w) (e : bit m 8 = true) : may w (32 * (Reg.laneResEmptyLoCount n).addr) = true :=
  may_cell hs e 0x800050 0x1000 128 (0) n (by decide) (by decide) (by decide)

theorem Reg.laneRxQlLast_may {m w : Nat} {n : Nat} (hs : Sub m w) (e : bit m 8 = true) : may w (Reg.laneRxQlLast n).key = true :=
  may_cell hs e 0x80001c 0x1000 128 (4) n (by decide) (by decide) (by decide)

theorem Reg.laneRxQlStable_may {m w : Nat} {n : Nat} (hs : Sub m w) (e : bit m 8 = true) : may w (Reg.laneRxQlStable n).key = true :=
  may_cell hs e 0x80001c 0x1000 128 (0) n (by decide) (by decide) (by decide)

theorem Reg.laneStateGen_may {m w : Nat} {n : Nat} (hs : Sub m w) (e : bit m 8 = true) : may w (Reg.laneStateGen n).key = true :=
  may_cell hs e 0x800010 0x1000 128 (16) n (by decide) (by decide) (by decide)

theorem Reg.laneStateHealth_may {m w : Nat} {n : Nat} (hs : Sub m w) (e : bit m 8 = true) : may w (Reg.laneStateHealth n).key = true :=
  may_cell hs e 0x800010 0x1000 128 (10) n (by decide) (by decide) (by decide)

theorem Reg.laneStateHeld_may {m w : Nat} {n : Nat} (hs : Sub m w) (e : bit m 8 = true) : may w (Reg.laneStateHeld n).key = true :=
  may_cell hs e 0x800010 0x1000 128 (12) n (by decide) (by decide) (by decide)

theorem Reg.laneStateManual_may {m w : Nat} {n : Nat} (hs : Sub m w) (e : bit m 8 = true) : may w (Reg.laneStateManual n).key = true :=
  may_cell hs e 0x800010 0x1000 128 (11) n (by decide) (by decide) (by decide)

theorem Reg.laneStateQpllLock_may {m w : Nat} {n : Nat} (hs : Sub m w) (e : bit m 8 = true) : may w (Reg.laneStateQpllLock n).key = true :=
  may_cell hs e 0x800010 0x1000 128 (13) n (by decide) (by decide) (by decide)

theorem Reg.laneStateQuietRx_may {m w : Nat} {n : Nat} (hs : Sub m w) (e : bit m 8 = true) : may w (Reg.laneStateQuietRx n).key = true :=
  may_cell hs e 0x800010 0x1000 128 (15) n (by decide) (by decide) (by decide)

theorem Reg.laneStateQuietTx_may {m w : Nat} {n : Nat} (hs : Sub m w) (e : bit m 8 = true) : may w (Reg.laneStateQuietTx n).key = true :=
  may_cell hs e 0x800010 0x1000 128 (14) n (by decide) (by decide) (by decide)

theorem Reg.laneStateSlip_may {m w : Nat} {n : Nat} (hs : Sub m w) (e : bit m 8 = true) : may w (Reg.laneStateSlip n).key = true :=
  may_cell hs e 0x800010 0x1000 128 (5) n (by decide) (by decide) (by decide)

theorem Reg.laneStateTstate_may {m w : Nat} {n : Nat} (hs : Sub m w) (e : bit m 8 = true) : may w (Reg.laneStateTstate n).key = true :=
  may_cell hs e 0x800010 0x1000 128 (0) n (by decide) (by decide) (by decide)

theorem Reg.laneStuffRxLoCount_mayc {m w : Nat} {n : Nat} (hs : Sub m w) (e : bit m 8 = true) : may w (32 * (Reg.laneStuffRxLoCount n).addr) = true :=
  may_cell hs e 0x800040 0x1000 128 (0) n (by decide) (by decide) (by decide)

theorem Reg.laneStuffTxLoCount_mayc {m w : Nat} {n : Nat} (hs : Sub m w) (e : bit m 8 = true) : may w (32 * (Reg.laneStuffTxLoCount n).addr) = true :=
  may_cell hs e 0x800038 0x1000 128 (0) n (by decide) (by decide) (by decide)

theorem Reg.laneStuffViolLoCount_mayc {m w : Nat} {n : Nat} (hs : Sub m w) (e : bit m 8 = true) : may w (32 * (Reg.laneStuffViolLoCount n).addr) = true :=
  may_cell hs e 0x800048 0x1000 128 (0) n (by decide) (by decide) (by decide)

theorem Reg.laneTxeqPost_may {m w : Nat} {n : Nat} (hs : Sub m w) (e : bit m 8 = true) : may w (Reg.laneTxeqPost n).key = true :=
  may_cell hs e 0x800008 0x1000 128 (5) n (by decide) (by decide) (by decide)

theorem Reg.laneTxeqPre_may {m w : Nat} {n : Nat} (hs : Sub m w) (e : bit m 8 = true) : may w (Reg.laneTxeqPre n).key = true :=
  may_cell hs e 0x800008 0x1000 128 (0) n (by decide) (by decide) (by decide)

theorem Reg.laneTxeqSwing_may {m w : Nat} {n : Nat} (hs : Sub m w) (e : bit m 8 = true) : may w (Reg.laneTxeqSwing n).key = true :=
  may_cell hs e 0x800008 0x1000 128 (12) n (by decide) (by decide) (by decide)

theorem Reg.pmonBwCfgEn_may {m w : Nat} (hs : Sub m w) (e : bit m 42 = true) : may w Reg.pmonBwCfgEn.key = true :=
  may_of hs e rfl

theorem Reg.pmonBwCfgTb_may {m w : Nat} (hs : Sub m w) (e : bit m 42 = true) : may w Reg.pmonBwCfgTb.key = true :=
  may_of hs e rfl

theorem Reg.pmonBwCfgWinUs_may {m w : Nat} (hs : Sub m w) (e : bit m 42 = true) : may w Reg.pmonBwCfgWinUs.key = true :=
  may_of hs e rfl

theorem Reg.pmonBwHiRxHi_may {m w : Nat} {n : Nat} (hs : Sub m w) (e : bit m 42 = true) : may w (Reg.pmonBwHiRxHi n).key = true :=
  may_cell hs e 0x2a00808 0x10 128 (0) n (by decide) (by decide) (by decide)

theorem Reg.pmonBwHiTxHi_may {m w : Nat} {n : Nat} (hs : Sub m w) (e : bit m 42 = true) : may w (Reg.pmonBwHiTxHi n).key = true :=
  may_cell hs e 0x2a00808 0x10 128 (16) n (by decide) (by decide) (by decide)

theorem Reg.pmonBwLateCount_may {m w : Nat} (hs : Sub m w) (e : bit m 42 = true) : may w Reg.pmonBwLateCount.key = true :=
  may_of hs e rfl

theorem Reg.pmonBwLateValid_may {m w : Nat} (hs : Sub m w) (e : bit m 42 = true) : may w Reg.pmonBwLateValid.key = true :=
  may_of hs e rfl

theorem Reg.pmonBwRxRx_may {m w : Nat} {n : Nat} (hs : Sub m w) (e : bit m 42 = true) : may w (Reg.pmonBwRxRx n).key = true :=
  may_cell hs e 0x2a00800 0x10 128 (0) n (by decide) (by decide) (by decide)

theorem Reg.pmonBwStatusWin_may {m w : Nat} (hs : Sub m w) (e : bit m 42 = true) : may w Reg.pmonBwStatusWin.key = true :=
  may_of hs e rfl

theorem Reg.pmonBwTxTx_may {m w : Nat} {n : Nat} (hs : Sub m w) (e : bit m 42 = true) : may w (Reg.pmonBwTxTx n).key = true :=
  may_cell hs e 0x2a00804 0x10 128 (0) n (by decide) (by decide) (by decide)

theorem Reg.pmonCntCfgEnable_may {m w : Nat} {n : Nat} (hs : Sub m w) (e : bit m 42 = true) : may w (Reg.pmonCntCfgEnable n).key = true :=
  may_cell hs e 0x2a00100 0x10 48 (10) n (by decide) (by decide) (by decide)

theorem Reg.pmonCntCfgEvent_may {m w : Nat} {n : Nat} (hs : Sub m w) (e : bit m 42 = true) : may w (Reg.pmonCntCfgEvent n).key = true :=
  may_cell hs e 0x2a00100 0x10 48 (0) n (by decide) (by decide) (by decide)

theorem Reg.pmonCntCfgHigh_may {m w : Nat} {n : Nat} (hs : Sub m w) (e : bit m 42 = true) : may w (Reg.pmonCntCfgHigh n).key = true :=
  may_cell hs e 0x2a00100 0x10 48 (11) n (by decide) (by decide) (by decide)

theorem Reg.pmonCntCfgSat_may {m w : Nat} {n : Nat} (hs : Sub m w) (e : bit m 42 = true) : may w (Reg.pmonCntCfgSat n).key = true :=
  may_cell hs e 0x2a00100 0x10 48 (13) n (by decide) (by decide) (by decide)

theorem Reg.pmonCntLoCount_mayc {m w : Nat} {n : Nat} (hs : Sub m w) (e : bit m 42 = true) : may w (32 * (Reg.pmonCntLoCount n).addr) = true :=
  may_cell hs e 0x2a00104 0x10 48 (0) n (by decide) (by decide) (by decide)

theorem Reg.pmonFixed_mayc {m w : Nat} {n c k h : Nat} (hs : Sub m w) (e : bit m 42 = true) : may w (32 * (Reg.pmonFixed n c k h).addr) = true :=
  may_cell hs e (0x2A10000 + 0x20 * (c % 8) + 8 * (k % 4) + 4 * (h % 2)) 0x100 128 (0) n (by omega) (by omega) (by omega)

theorem Reg.pmonGleanCtlK_may {m w : Nat} (hs : Sub m w) (e : bit m 42 = true) : may w Reg.pmonGleanCtlK.key = true :=
  may_of hs e rfl

theorem Reg.pmonGleanCtlRun_may {m w : Nat} (hs : Sub m w) (e : bit m 42 = true) : may w Reg.pmonGleanCtlRun.key = true :=
  may_of hs e rfl

theorem Reg.pmonGleanCtlWrap_may {m w : Nat} (hs : Sub m w) (e : bit m 42 = true) : may w Reg.pmonGleanCtlWrap.key = true :=
  may_of hs e rfl

theorem Reg.pmonGleanLossLost_may {m w : Nat} (hs : Sub m w) (e : bit m 42 = true) : may w Reg.pmonGleanLossLost.key = true :=
  may_of hs e rfl

theorem Reg.pmonGleanLossSkipped_may {m w : Nat} (hs : Sub m w) (e : bit m 42 = true) : may w Reg.pmonGleanLossSkipped.key = true :=
  may_of hs e rfl

theorem Reg.pmonGleanRdRdPtr_may {m w : Nat} (hs : Sub m w) (e : bit m 42 = true) : may w Reg.pmonGleanRdRdPtr.key = true :=
  may_of hs e rfl

theorem Reg.pmonGleanSeedSeed_may {m w : Nat} (hs : Sub m w) (e : bit m 42 = true) : may w Reg.pmonGleanSeedSeed.key = true :=
  may_of hs e rfl

theorem Reg.pmonGleanStatusFull_may {m w : Nat} (hs : Sub m w) (e : bit m 42 = true) : may w Reg.pmonGleanStatusFull.key = true :=
  may_of hs e rfl

theorem Reg.pmonGleanStatusInside_may {m w : Nat} (hs : Sub m w) (e : bit m 42 = true) : may w Reg.pmonGleanStatusInside.key = true :=
  may_of hs e rfl

theorem Reg.pmonGleanStatusWrPtr_may {m w : Nat} (hs : Sub m w) (e : bit m 42 = true) : may w Reg.pmonGleanStatusWrPtr.key = true :=
  may_of hs e rfl

theorem Reg.pmonTagPortMask_may {m w : Nat} {n : Nat} (hs : Sub m w) (e : bit m 42 = true) : may w (Reg.pmonTagPortMask n).key = true :=
  may_cell hs e 0x2a00020 0x4 4 (0) n (by decide) (by decide) (by decide)

theorem Reg.pmonTagTcMask_may {m w : Nat} (hs : Sub m w) (e : bit m 42 = true) : may w Reg.pmonTagTcMask.key = true :=
  may_of hs e rfl

theorem Reg.pmonTaggedCount_may {m w : Nat} (hs : Sub m w) (e : bit m 42 = true) : may w Reg.pmonTaggedCount.key = true :=
  may_of hs e rfl

theorem Reg.portCfgEsmcExt_may {m w : Nat} {n : Nat} (hs : Sub m w) (e : bit m 16 = true) : may w (Reg.portCfgEsmcExt n).key = true :=
  may_cell hs e 0x1000004 0x1000 128 (7) n (by decide) (by decide) (by decide)

theorem Reg.portCfgEsmcRx_may {m w : Nat} {n : Nat} (hs : Sub m w) (e : bit m 16 = true) : may w (Reg.portCfgEsmcRx n).key = true :=
  may_cell hs e 0x1000004 0x1000 128 (5) n (by decide) (by decide) (by decide)

theorem Reg.portCfgEsmcTx_may {m w : Nat} {n : Nat} (hs : Sub m w) (e : bit m 16 = true) : may w (Reg.portCfgEsmcTx n).key = true :=
  may_cell hs e 0x1000004 0x1000 128 (6) n (by decide) (by decide) (by decide)

theorem Reg.portCfgFec_may {m w : Nat} {n : Nat} (hs : Sub m w) (e : bit m 16 = true) : may w (Reg.portCfgFec n).key = true :=
  may_cell hs e 0x1000004 0x1000 128 (3) n (by decide) (by decide) (by decide)

theorem Reg.portCfgMode_may {m w : Nat} {n : Nat} (hs : Sub m w) (e : bit m 16 = true) : may w (Reg.portCfgMode n).key = true :=
  may_cell hs e 0x1000004 0x1000 128 (0) n (by decide) (by decide) (by decide)

theorem Reg.portErrHiBer_may {m w : Nat} {n : Nat} (hs : Sub m w) (e : bit m 16 = true) : may w (Reg.portErrHiBer n).key = true :=
  may_cell hs e 0x1000028 0x1000 128 (2) n (by decide) (by decide) (by decide)

theorem Reg.portErrLockLoss_may {m w : Nat} {n : Nat} (hs : Sub m w) (e : bit m 16 = true) : may w (Reg.portErrLockLoss n).key = true :=
  may_cell hs e 0x1000028 0x1000 128 (0) n (by decide) (by decide) (by decide)

theorem Reg.portErrLockTimeout_may {m w : Nat} {n : Nat} (hs : Sub m w) (e : bit m 16 = true) : may w (Reg.portErrLockTimeout n).key = true :=
  may_cell hs e 0x1000028 0x1000 128 (1) n (by decide) (by decide) (by decide)

theorem Reg.portErrTcSat_may {m w : Nat} {n : Nat} (hs : Sub m w) (e : bit m 16 = true) : may w (Reg.portErrTcSat n).key = true :=
  may_cell hs e 0x1000028 0x1000 128 (3) n (by decide) (by decide) (by decide)

theorem Reg.portEsmcBadLoCount_mayc {m w : Nat} {n : Nat} (hs : Sub m w) (e : bit m 16 = true) : may w (32 * (Reg.portEsmcBadLoCount n).addr) = true :=
  may_cell hs e 0x1000098 0x1000 128 (0) n (by decide) (by decide) (by decide)

theorem Reg.portEsmcDiscardLoCount_mayc {m w : Nat} {n : Nat} (hs : Sub m w) (e : bit m 16 = true) : may w (32 * (Reg.portEsmcDiscardLoCount n).addr) = true :=
  may_cell hs e 0x10000a0 0x1000 128 (0) n (by decide) (by decide) (by decide)

theorem Reg.portEsmcRxAgeS_may {m w : Nat} {n : Nat} (hs : Sub m w) (e : bit m 16 = true) : may w (Reg.portEsmcRxAgeS n).key = true :=
  may_cell hs e 0x100002c 0x1000 128 (24) n (by decide) (by decide) (by decide)

theorem Reg.portEsmcRxEnh_may {m w : Nat} {n : Nat} (hs : Sub m w) (e : bit m 16 = true) : may w (Reg.portEsmcRxEnh n).key = true :=
  may_cell hs e 0x100002c 0x1000 128 (8) n (by decide) (by decide) (by decide)

theorem Reg.portEsmcRxSsm_may {m w : Nat} {n : Nat} (hs : Sub m w) (e : bit m 16 = true) : may w (Reg.portEsmcRxSsm n).key = true :=
  may_cell hs e 0x100002c 0x1000 128 (0) n (by decide) (by decide) (by decide)

theorem Reg.portFecCorrLoCount_mayc {m w : Nat} {n : Nat} (hs : Sub m w) (e : bit m 16 = true) : may w (32 * (Reg.portFecCorrLoCount n).addr) = true :=
  may_cell hs e 0x10000b0 0x1000 128 (0) n (by decide) (by decide) (by decide)

theorem Reg.portFecUncorrLoCount_mayc {m w : Nat} {n : Nat} (hs : Sub m w) (e : bit m 16 = true) : may w (32 * (Reg.portFecUncorrLoCount n).addr) = true :=
  may_cell hs e 0x10000b8 0x1000 128 (0) n (by decide) (by decide) (by decide)

theorem Reg.portLinkRxPaused_may {m w : Nat} {n : Nat} (hs : Sub m w) (e : bit m 16 = true) : may w (Reg.portLinkRxPaused n).key = true :=
  may_cell hs e 0x1000024 0x1000 128 (16) n (by decide) (by decide) (by decide)

theorem Reg.portLinkState_may {m w : Nat} {n : Nat} (hs : Sub m w) (e : bit m 16 = true) : may w (Reg.portLinkState n).key = true :=
  may_cell hs e 0x1000024 0x1000 128 (0) n (by decide) (by decide) (by decide)

theorem Reg.portLinkTxXoff_may {m w : Nat} {n : Nat} (hs : Sub m w) (e : bit m 16 = true) : may w (Reg.portLinkTxXoff n).key = true :=
  may_cell hs e 0x1000024 0x1000 128 (24) n (by decide) (by decide) (by decide)

theorem Reg.portMacHiMac_may {m w : Nat} {n : Nat} (hs : Sub m w) (e : bit m 16 = true) : may w (Reg.portMacHiMac n).key = true :=
  may_cell hs e 0x1000020 0x1000 128 (0) n (by decide) (by decide) (by decide)

theorem Reg.portMacLoMac_may {m w : Nat} {n : Nat} (hs : Sub m w) (e : bit m 16 = true) : may w (Reg.portMacLoMac n).key = true :=
  may_cell hs e 0x100001c 0x1000 128 (0) n (by decide) (by decide) (by decide)

theorem Reg.portMaxlenLen_may {m w : Nat} {n : Nat} (hs : Sub m w) (e : bit m 16 = true) : may w (Reg.portMaxlenLen n).key = true :=
  may_cell hs e 0x1000010 0x1000 128 (0) n (by decide) (by decide) (by decide)

theorem Reg.portPcpMapMap_may {m w : Nat} {n : Nat} (hs : Sub m w) (e : bit m 16 = true) : may w (Reg.portPcpMapMap n).key = true :=
  may_cell hs e 0x100000c 0x1000 128 (0) n (by decide) (by decide) (by decide)

theorem Reg.portPfcCfgLossless_may {m w : Nat} {n : Nat} (hs : Sub m w) (e : bit m 16 = true) : may w (Reg.portPfcCfgLossless n).key = true :=
  may_cell hs e 0x1000014 0x1000 128 (16) n (by decide) (by decide) (by decide)

theorem Reg.portPfcCfgPfcEn_may {m w : Nat} {n : Nat} (hs : Sub m w) (e : bit m 16 = true) : may w (Reg.portPfcCfgPfcEn n).key = true :=
  may_cell hs e 0x1000014 0x1000 128 (24) n (by decide) (by decide) (by decide)

theorem Reg.portPfcCfgQuanta_may {m w : Nat} {n : Nat} (hs : Sub m w) (e : bit m 16 = true) : may w (Reg.portPfcCfgQuanta n).key = true :=
  may_cell hs e 0x1000014 0x1000 128 (0) n (by decide) (by decide) (by decide)

theorem Reg.portPtpCfgOnestepEn_may {m w : Nat} {n : Nat} (hs : Sub m w) (e : bit m 16 = true) : may w (Reg.portPtpCfgOnestepEn n).key = true :=
  may_cell hs e 0x1000018 0x1000 128 (2) n (by decide) (by decide) (by decide)

theorem Reg.portPtpCfgTcMode_may {m w : Nat} {n : Nat} (hs : Sub m w) (e : bit m 16 = true) : may w (Reg.portPtpCfgTcMode n).key = true :=
  may_cell hs e 0x1000018 0x1000 128 (0) n (by decide) (by decide) (by decide)

theorem Reg.portPtpCfgTrailerTc_may {m w : Nat} {n : Nat} (hs : Sub m w) (e : bit m 16 = true) : may w (Reg.portPtpCfgTrailerTc n).key = true :=
  may_cell hs e 0x1000018 0x1000 128 (8) n (by decide) (by decide) (by decide)

theorem Reg.portPtpCfgTsTb_may {m w : Nat} {n : Nat} (hs : Sub m w) (e : bit m 16 = true) : may w (Reg.portPtpCfgTsTb n).key = true :=
  may_cell hs e 0x1000018 0x1000 128 (4) n (by decide) (by decide) (by decide)

theorem Reg.portRxBytesLoCount_mayc {m w : Nat} {n : Nat} (hs : Sub m w) (e : bit m 16 = true) : may w (32 * (Reg.portRxBytesLoCount n).addr) = true :=
  may_cell hs e 0x1000048 0x1000 128 (0) n (by decide) (by decide) (by decide)

theorem Reg.portRxCtrlDropLoCount_mayc {m w : Nat} {n : Nat} (hs : Sub m w) (e : bit m 16 = true) : may w (32 * (Reg.portRxCtrlDropLoCount n).addr) = true :=
  may_cell hs e 0x1000080 0x1000 128 (0) n (by decide) (by decide) (by decide)

theorem Reg.portRxFcsErrLoCount_mayc {m w : Nat} {n : Nat} (hs : Sub m w) (e : bit m 16 = true) : may w (32 * (Reg.portRxFcsErrLoCount n).addr) = true :=
  may_cell hs e 0x1000060 0x1000 128 (0) n (by decide) (by decide) (by decide)

theorem Reg.portRxFramesLoCount_mayc {m w : Nat} {n : Nat} (hs : Sub m w) (e : bit m 16 = true) : may w (32 * (Reg.portRxFramesLoCount n).addr) = true :=
  may_cell hs e 0x1000040 0x1000 128 (0) n (by decide) (by decide) (by decide)

theorem Reg.portRxOversizeLoCount_mayc {m w : Nat} {n : Nat} (hs : Sub m w) (e : bit m 16 = true) : may w (32 * (Reg.portRxOversizeLoCount n).addr) = true :=
  may_cell hs e 0x1000070 0x1000 128 (0) n (by decide) (by decide) (by decide)

theorem Reg.portRxPfcLoCount_mayc {m w : Nat} {n : Nat} (hs : Sub m w) (e : bit m 16 = true) : may w (32 * (Reg.portRxPfcLoCount n).addr) = true :=
  may_cell hs e 0x1000088 0x1000 128 (0) n (by decide) (by decide) (by decide)

theorem Reg.portRxUndersizeLoCount_mayc {m w : Nat} {n : Nat} (hs : Sub m w) (e : bit m 16 = true) : may w (32 * (Reg.portRxUndersizeLoCount n).addr) = true :=
  may_cell hs e 0x1000068 0x1000 128 (0) n (by decide) (by decide) (by decide)

theorem Reg.portRxVlanDropLoCount_mayc {m w : Nat} {n : Nat} (hs : Sub m w) (e : bit m 16 = true) : may w (32 * (Reg.portRxVlanDropLoCount n).addr) = true :=
  may_cell hs e 0x1000078 0x1000 128 (0) n (by decide) (by decide) (by decide)

theorem Reg.portStompsLoCount_mayc {m w : Nat} {n : Nat} (hs : Sub m w) (e : bit m 16 = true) : may w (32 * (Reg.portStompsLoCount n).addr) = true :=
  may_cell hs e 0x10000a8 0x1000 128 (0) n (by decide) (by decide) (by decide)

theorem Reg.portTcSatLoCount_mayc {m w : Nat} {n : Nat} (hs : Sub m w) (e : bit m 16 = true) : may w (32 * (Reg.portTcSatLoCount n).addr) = true :=
  may_cell hs e 0x10000c0 0x1000 128 (0) n (by decide) (by decide) (by decide)

theorem Reg.portTxBytesLoCount_mayc {m w : Nat} {n : Nat} (hs : Sub m w) (e : bit m 16 = true) : may w (32 * (Reg.portTxBytesLoCount n).addr) = true :=
  may_cell hs e 0x1000058 0x1000 128 (0) n (by decide) (by decide) (by decide)

theorem Reg.portTxFramesLoCount_mayc {m w : Nat} {n : Nat} (hs : Sub m w) (e : bit m 16 = true) : may w (32 * (Reg.portTxFramesLoCount n).addr) = true :=
  may_cell hs e 0x1000050 0x1000 128 (0) n (by decide) (by decide) (by decide)

theorem Reg.portTxOversizeLoCount_mayc {m w : Nat} {n : Nat} (hs : Sub m w) (e : bit m 16 = true) : may w (32 * (Reg.portTxOversizeLoCount n).addr) = true :=
  may_cell hs e 0x10000c8 0x1000 128 (0) n (by decide) (by decide) (by decide)

theorem Reg.portTxPfcLoCount_mayc {m w : Nat} {n : Nat} (hs : Sub m w) (e : bit m 16 = true) : may w (32 * (Reg.portTxPfcLoCount n).addr) = true :=
  may_cell hs e 0x1000090 0x1000 128 (0) n (by decide) (by decide) (by decide)

theorem Reg.portVlanAccept_may {m w : Nat} {n : Nat} (hs : Sub m w) (e : bit m 16 = true) : may w (Reg.portVlanAccept n).key = true :=
  may_cell hs e 0x1000008 0x1000 128 (19) n (by decide) (by decide) (by decide)

theorem Reg.portVlanDefPcp_may {m w : Nat} {n : Nat} (hs : Sub m w) (e : bit m 16 = true) : may w (Reg.portVlanDefPcp n).key = true :=
  may_cell hs e 0x1000008 0x1000 128 (16) n (by decide) (by decide) (by decide)

theorem Reg.portVlanInFilter_may {m w : Nat} {n : Nat} (hs : Sub m w) (e : bit m 16 = true) : may w (Reg.portVlanInFilter n).key = true :=
  may_cell hs e 0x1000008 0x1000 128 (21) n (by decide) (by decide) (by decide)

theorem Reg.portVlanPvid_may {m w : Nat} {n : Nat} (hs : Sub m w) (e : bit m 16 = true) : may w (Reg.portVlanPvid n).key = true :=
  may_cell hs e 0x1000008 0x1000 128 (0) n (by decide) (by decide) (by decide)

theorem Reg.pwrCfgHostEn_may {m w : Nat} (hs : Sub m w) (e : bit m 44 = true) : may w Reg.pwrCfgHostEn.key = true :=
  may_of hs e rfl

theorem Reg.pwrCfgHostLow_may {m w : Nat} (hs : Sub m w) (e : bit m 44 = true) : may w Reg.pwrCfgHostLow.key = true :=
  may_of hs e rfl

theorem Reg.pwrCfgInitReq_may {m w : Nat} (hs : Sub m w) (e : bit m 44 = true) : may w Reg.pwrCfgInitReq.key = true :=
  may_of hs e rfl

theorem Reg.pwrCfgPinEn_may {m w : Nat} (hs : Sub m w) (e : bit m 44 = true) : may w Reg.pwrCfgPinEn.key = true :=
  may_of hs e rfl

theorem Reg.pwrCfgReleaseMs_may {m w : Nat} (hs : Sub m w) (e : bit m 44 = true) : may w Reg.pwrCfgReleaseMs.key = true :=
  may_of hs e rfl

theorem Reg.pwrCfgShedTarget_may {m w : Nat} (hs : Sub m w) (e : bit m 44 = true) : may w Reg.pwrCfgShedTarget.key = true :=
  may_of hs e rfl

theorem Reg.pwrCmdStatusResult_may {m w : Nat} (hs : Sub m w) (e : bit m 44 = true) : may w Reg.pwrCmdStatusResult.key = true :=
  may_of hs e rfl

theorem Reg.pwrCountsChanges_may {m w : Nat} (hs : Sub m w) (e : bit m 44 = true) : may w Reg.pwrCountsChanges.key = true :=
  may_of hs e rfl

theorem Reg.pwrCountsSheds_may {m w : Nat} (hs : Sub m w) (e : bit m 44 = true) : may w Reg.pwrCountsSheds.key = true :=
  may_of hs e rfl

theorem Reg.pwrDomainsOn_may {m w : Nat} (hs : Sub m w) (e : bit m 44 = true) : may w Reg.pwrDomainsOn.key = true :=
  may_of hs e rfl

theorem Reg.pwrDomainsRamping_may {m w : Nat} (hs : Sub m w) (e : bit m 44 = true) : may w Reg.pwrDomainsRamping.key = true :=
  may_of hs e rfl

theorem Reg.pwrStatusGen_may {m w : Nat} (hs : Sub m w) (e : bit m 44 = true) : may w Reg.pwrStatusGen.key = true :=
  may_of hs e rfl

theorem Reg.pwrStatusKeepSide_may {m w : Nat} (hs : Sub m w) (e : bit m 44 = true) : may w Reg.pwrStatusKeepSide.key = true :=
  may_of hs e rfl

theorem Reg.pwrStatusPinReq_may {m w : Nat} (hs : Sub m w) (e : bit m 44 = true) : may w Reg.pwrStatusPinReq.key = true :=
  may_of hs e rfl

theorem Reg.pwrStatusShed_may {m w : Nat} (hs : Sub m w) (e : bit m 44 = true) : may w Reg.pwrStatusShed.key = true :=
  may_of hs e rfl

theorem Reg.pwrStatusState_may {m w : Nat} (hs : Sub m w) (e : bit m 44 = true) : may w Reg.pwrStatusState.key = true :=
  may_of hs e rfl

theorem Reg.pwrStatusSwReq_may {m w : Nat} (hs : Sub m w) (e : bit m 44 = true) : may w Reg.pwrStatusSwReq.key = true :=
  may_of hs e rfl

theorem Reg.pwrStatusTarget_may {m w : Nat} (hs : Sub m w) (e : bit m 44 = true) : may w Reg.pwrStatusTarget.key = true :=
  may_of hs e rfl

theorem Reg.pwrTimingLanesMask_may {m w : Nat} {n : Nat} (hs : Sub m w) (e : bit m 44 = true) : may w (Reg.pwrTimingLanesMask n).key = true :=
  may_cell hs e 0x2c00020 0x4 4 (0) n (by decide) (by decide) (by decide)

theorem Reg.redCfgConfirm_may {m w : Nat} (hs : Sub m w) (e : bit m 40 = true) : may w Reg.redCfgConfirm.key = true :=
  may_of hs e rfl

theorem Reg.redCfgDenyUnverified_may {m w : Nat} (hs : Sub m w) (e : bit m 40 = true) : may w Reg.redCfgDenyUnverified.key = true :=
  may_of hs e rfl

theorem Reg.redCfgHbTimeout_may {m w : Nat} (hs : Sub m w) (e : bit m 40 = true) : may w Reg.redCfgHbTimeout.key = true :=
  may_of hs e rfl

theorem Reg.redCfgHoldoff_may {m w : Nat} (hs : Sub m w) (e : bit m 40 = true) : may w Reg.redCfgHoldoff.key = true :=
  may_of hs e rfl

theorem Reg.redCmdStatusResult_may {m w : Nat} (hs : Sub m w) (e : bit m 40 = true) : may w Reg.redCmdStatusResult.key = true :=
  may_of hs e rfl

theorem Reg.redFlapFlapLim_may {m w : Nat} (hs : Sub m w) (e : bit m 40 = true) : may w Reg.redFlapFlapLim.key = true :=
  may_of hs e rfl

theorem Reg.redFlapFlapWinS_may {m w : Nat} (hs : Sub m w) (e : bit m 40 = true) : may w Reg.redFlapFlapWinS.key = true :=
  may_of hs e rfl

theorem Reg.redLastAction_may {m w : Nat} (hs : Sub m w) (e : bit m 40 = true) : may w Reg.redLastAction.key = true :=
  may_of hs e rfl

theorem Reg.redLastReason_may {m w : Nat} (hs : Sub m w) (e : bit m 40 = true) : may w Reg.redLastReason.key = true :=
  may_of hs e rfl

theorem Reg.redLastUnit_may {m w : Nat} (hs : Sub m w) (e : bit m 40 = true) : may w Reg.redLastUnit.key = true :=
  may_of hs e rfl

theorem Reg.redLatchLatchS_may {m w : Nat} (hs : Sub m w) (e : bit m 40 = true) : may w Reg.redLatchLatchS.key = true :=
  may_of hs e rfl

theorem Reg.redPairCfgKind_may {m w : Nat} {n : Nat} (hs : Sub m w) (e : bit m 40 = true) : may w (Reg.redPairCfgKind n).key = true :=
  may_cell hs e 0x2801000 0x10 32 (0) n (by decide) (by decide) (by decide)

theorem Reg.redPairCfgPrimary_may {m w : Nat} {n : Nat} (hs : Sub m w) (e : bit m 40 = true) : may w (Reg.redPairCfgPrimary n).key = true :=
  may_cell hs e 0x2801000 0x10 32 (8) n (by decide) (by decide) (by decide)

theorem Reg.redPairCfgSecondary_may {m w : Nat} {n : Nat} (hs : Sub m w) (e : bit m 40 = true) : may w (Reg.redPairCfgSecondary n).key = true :=
  may_cell hs e 0x2801000 0x10 32 (16) n (by decide) (by decide) (by decide)

theorem Reg.redPairCfgTkPair_may {m w : Nat} {n : Nat} (hs : Sub m w) (e : bit m 40 = true) : may w (Reg.redPairCfgTkPair n).key = true :=
  may_cell hs e 0x2801000 0x10 32 (24) n (by decide) (by decide) (by decide)

theorem Reg.redPairCountsDataSwitches_may {m w : Nat} {n : Nat} (hs : Sub m w) (e : bit m 40 = true) : may w (Reg.redPairCountsDataSwitches n).key = true :=
  may_cell hs e 0x280100c 0x10 32 (0) n (by decide) (by decide) (by decide)

theorem Reg.redPairCountsTimeSwitches_may {m w : Nat} {n : Nat} (hs : Sub m w) (e : bit m 40 = true) : may w (Reg.redPairCountsTimeSwitches n).key = true :=
  may_cell hs e 0x280100c 0x10 32 (16) n (by decide) (by decide) (by decide)

theorem Reg.redPairStatusDataActive_may {m w : Nat} {n : Nat} (hs : Sub m w) (e : bit m 40 = true) : may w (Reg.redPairStatusDataActive n).key = true :=
  may_cell hs e 0x2801008 0x10 32 (0) n (by decide) (by decide) (by decide)

theorem Reg.redPairStatusDataLost_may {m w : Nat} {n : Nat} (hs : Sub m w) (e : bit m 40 = true) : may w (Reg.redPairStatusDataLost n).key = true :=
  may_cell hs e 0x2801008 0x10 32 (7) n (by decide) (by decide) (by decide)

theorem Reg.redPairWtrWtrS_may {m w : Nat} {n : Nat} (hs : Sub m w) (e : bit m 40 = true) : may w (Reg.redPairWtrWtrS n).key = true :=
  may_cell hs e 0x2801004 0x10 32 (0) n (by decide) (by decide) (by decide)

theorem Reg.redStatusDecisions_may {m w : Nat} (hs : Sub m w) (e : bit m 40 = true) : may w Reg.redStatusDecisions.key = true :=
  may_of hs e rfl

theorem Reg.redStatusFoUnverified_may {m w : Nat} (hs : Sub m w) (e : bit m 40 = true) : may w Reg.redStatusFoUnverified.key = true :=
  may_of hs e rfl

theorem Reg.redStatusRootLost_may {m w : Nat} (hs : Sub m w) (e : bit m 40 = true) : may w Reg.redStatusRootLost.key = true :=
  may_of hs e rfl

theorem Reg.redStatusTkLost_may {m w : Nat} (hs : Sub m w) (e : bit m 40 = true) : may w Reg.redStatusTkLost.key = true :=
  may_of hs e rfl

theorem Reg.redUnitCountsFails_may {m w : Nat} {n : Nat} (hs : Sub m w) (e : bit m 40 = true) : may w (Reg.redUnitCountsFails n).key = true :=
  may_cell hs e 0x2800104 0x10 68 (16) n (by decide) (by decide) (by decide)

theorem Reg.redUnitCountsFlapCnt_may {m w : Nat} {n : Nat} (hs : Sub m w) (e : bit m 40 = true) : may w (Reg.redUnitCountsFlapCnt n).key = true :=
  may_cell hs e 0x2800104 0x10 68 (8) n (by decide) (by decide) (by decide)

theorem Reg.redUnitLastLastFailSec_may {m w : Nat} {n : Nat} (hs : Sub m w) (e : bit m 40 = true) : may w (Reg.redUnitLastLastFailSec n).key = true :=
  may_cell hs e 0x2800108 0x10 68 (0) n (by decide) (by decide) (by decide)

theorem Reg.redUnitStatusGen_may {m w : Nat} {n : Nat} (hs : Sub m w) (e : bit m 40 = true) : may w (Reg.redUnitStatusGen n).key = true :=
  may_cell hs e 0x2800100 0x10 68 (16) n (by decide) (by decide) (by decide)

theorem Reg.redUnitStatusHbOk_may {m w : Nat} {n : Nat} (hs : Sub m w) (e : bit m 40 = true) : may w (Reg.redUnitStatusHbOk n).key = true :=
  may_cell hs e 0x2800100 0x10 68 (10) n (by decide) (by decide) (by decide)

theorem Reg.redUnitStatusReason_may {m w : Nat} {n : Nat} (hs : Sub m w) (e : bit m 40 = true) : may w (Reg.redUnitStatusReason n).key = true :=
  may_cell hs e 0x2800100 0x10 68 (12) n (by decide) (by decide) (by decide)

theorem Reg.redUnitStatusState_may {m w : Nat} {n : Nat} (hs : Sub m w) (e : bit m 40 = true) : may w (Reg.redUnitStatusState n).key = true :=
  may_cell hs e 0x2800100 0x10 68 (0) n (by decide) (by decide) (by decide)

theorem Reg.redUnitStatusUnmonitored_may {m w : Nat} {n : Nat} (hs : Sub m w) (e : bit m 40 = true) : may w (Reg.redUnitStatusUnmonitored n).key = true :=
  may_cell hs e 0x2800100 0x10 68 (8) n (by decide) (by decide) (by decide)

theorem Reg.redUnitStatusUnverified_may {m w : Nat} {n : Nat} (hs : Sub m w) (e : bit m 40 = true) : may w (Reg.redUnitStatusUnverified n).key = true :=
  may_cell hs e 0x2800100 0x10 68 (7) n (by decide) (by decide) (by decide)

theorem Reg.redUnitWtrWtrLeft_may {m w : Nat} {n : Nat} (hs : Sub m w) (e : bit m 40 = true) : may w (Reg.redUnitWtrWtrLeft n).key = true :=
  may_cell hs e 0x280010c 0x10 68 (0) n (by decide) (by decide) (by decide)

theorem Reg.refselAcqAcqTimeoutS_may {m w : Nat} (hs : Sub m w) (e : bit m 2 = true) : may w Reg.refselAcqAcqTimeoutS.key = true :=
  may_of hs e rfl

theorem Reg.refselAcqLockWinPs_may {m w : Nat} (hs : Sub m w) (e : bit m 2 = true) : may w Reg.refselAcqLockWinPs.key = true :=
  may_of hs e rfl

theorem Reg.refselCandCfgEnable_may {m w : Nat} {n : Nat} (hs : Sub m w) (e : bit m 2 = true) : may w (Reg.refselCandCfgEnable n).key = true :=
  may_cell hs e 0x200200 0x40 24 (0) n (by decide) (by decide) (by decide)

theorem Reg.refselCandCfgLimset_may {m w : Nat} {n : Nat} (hs : Sub m w) (e : bit m 2 = true) : may w (Reg.refselCandCfgLimset n).key = true :=
  may_cell hs e 0x200200 0x40 24 (4) n (by decide) (by decide) (by decide)

theorem Reg.refselCandCfgPair_may {m w : Nat} {n : Nat} (hs : Sub m w) (e : bit m 2 = true) : may w (Reg.refselCandCfgPair n).key = true :=
  may_cell hs e 0x200200 0x40 24 (1) n (by decide) (by decide) (by decide)

theorem Reg.refselCandCfgPrio_may {m w : Nat} {n : Nat} (hs : Sub m w) (e : bit m 2 = true) : may w (Reg.refselCandCfgPrio n).key = true :=
  may_cell hs e 0x200200 0x40 24 (8) n (by decide) (by decide) (by decide)

theorem Reg.refselCandCfgQlFixed_may {m w : Nat} {n : Nat} (hs : Sub m w) (e : bit m 2 = true) : may w (Reg.refselCandCfgQlFixed n).key = true :=
  may_cell hs e 0x200200 0x40 24 (12) n (by decide) (by decide) (by decide)

theorem Reg.refselCandCfgRelEn_may {m w : Nat} {n : Nat} (hs : Sub m w) (e : bit m 2 = true) : may w (Reg.refselCandCfgRelEn n).key = true :=
  may_cell hs e 0x200200 0x40 24 (2) n (by decide) (by decide) (by decide)

theorem Reg.refselCandCountsDisqCount_may {m w : Nat} {n : Nat} (hs : Sub m w) (e : bit m 2 = true) : may w (Reg.refselCandCountsDisqCount n).key = true :=
  may_cell hs e 0x200224 0x40 24 (16) n (by decide) (by decide) (by decide)

theorem Reg.refselCandCountsLosCount_may {m w : Nat} {n : Nat} (hs : Sub m w) (e : bit m 2 = true) : may w (Reg.refselCandCountsLosCount n).key = true :=
  may_cell hs e 0x200224 0x40 24 (0) n (by decide) (by decide) (by decide)

theorem Reg.refselCandDriftDrift_may {m w : Nat} {n : Nat} (hs : Sub m w) (e : bit m 2 = true) : may w (Reg.refselCandDriftDrift n).key = true :=
  may_cell hs e 0x20021c 0x40 24 (0) n (by decide) (by decide) (by decide)

theorem Reg.refselCandF1sF1s_may {m w : Nat} {n : Nat} (hs : Sub m w) (e : bit m 2 = true) : may w (Reg.refselCandF1sF1s n).key = true :=
  may_cell hs e 0x200210 0x40 24 (0) n (by decide) (by decide) (by decide)

theorem Reg.refselCandF64F64_may {m w : Nat} {n : Nat} (hs : Sub m w) (e : bit m 2 = true) : may w (Reg.refselCandF64F64 n).key = true :=
  may_cell hs e 0x200214 0x40 24 (0) n (by decide) (by decide) (by decide)

theorem Reg.refselCandFrelFrel_may {m w : Nat} {n : Nat} (hs : Sub m w) (e : bit m 2 = true) : may w (Reg.refselCandFrelFrel n).key = true :=
  may_cell hs e 0x200218 0x40 24 (0) n (by decide) (by decide) (by decide)

theorem Reg.refselCandFreqHiFreqHi_may {m w : Nat} {n : Nat} (hs : Sub m w) (e : bit m 2 = true) : may w (Reg.refselCandFreqHiFreqHi n).key = true :=
  may_cell hs e 0x200208 0x40 24 (0) n (by decide) (by decide) (by decide)

theorem Reg.refselCandFreqLoFreqLo_may {m w : Nat} {n : Nat} (hs : Sub m w) (e : bit m 2 = true) : may w (Reg.refselCandFreqLoFreqLo n).key = true :=
  may_cell hs e 0x200204 0x40 24 (0) n (by decide) (by decide) (by decide)

theorem Reg.refselCandSoakSoakLeft_may {m w : Nat} {n : Nat} (hs : Sub m w) (e : bit m 2 = true) : may w (Reg.refselCandSoakSoakLeft n).key = true :=
  may_cell hs e 0x200220 0x40 24 (0) n (by decide) (by decide) (by decide)

theorem Reg.refselCandStatusPpsValid_may {m w : Nat} {n : Nat} (hs : Sub m w) (e : bit m 2 = true) : may w (Reg.refselCandStatusPpsValid n).key = true :=
  may_cell hs e 0x20020c 0x40 24 (7) n (by decide) (by decide) (by decide)

theorem Reg.refselCandStatusRank_may {m w : Nat} {n : Nat} (hs : Sub m w) (e : bit m 2 = true) : may w (Reg.refselCandStatusRank n).key = true :=
  may_cell hs e 0x20020c 0x40 24 (28) n (by decide) (by decide) (by decide)

theorem Reg.refselCandStatusReason_may {m w : Nat} {n : Nat} (hs : Sub m w) (e : bit m 2 = true) : may w (Reg.refselCandStatusReason n).key = true :=
  may_cell hs e 0x20020c 0x40 24 (24) n (by decide) (by decide) (by decide)

theorem Reg.refselCandStatusSelected_may {m w : Nat} {n : Nat} (hs : Sub m w) (e : bit m 2 = true) : may w (Reg.refselCandStatusSelected n).key = true :=
  may_cell hs e 0x20020c 0x40 24 (6) n (by decide) (by decide) (by decide)

theorem Reg.refselCandStatusState_may {m w : Nat} {n : Nat} (hs : Sub m w) (e : bit m 2 = true) : may w (Reg.refselCandStatusState n).key = true :=
  may_cell hs e 0x20020c 0x40 24 (0) n (by decide) (by decide) (by decide)

theorem Reg.refselCfgFreerunQl_may {m w : Nat} (hs : Sub m w) (e : bit m 2 = true) : may w Reg.refselCfgFreerunQl.key = true :=
  may_of hs e rfl

theorem Reg.refselCfgHoQl_may {m w : Nat} (hs : Sub m w) (e : bit m 2 = true) : may w Reg.refselCfgHoQl.key = true :=
  may_of hs e rfl

theorem Reg.refselCfgQlOption_may {m w : Nat} (hs : Sub m w) (e : bit m 2 = true) : may w Reg.refselCfgQlOption.key = true :=
  may_of hs e rfl

theorem Reg.refselEligibleMask_may {m w : Nat} (hs : Sub m w) (e : bit m 2 = true) : may w Reg.refselEligibleMask.key = true :=
  may_of hs e rfl

theorem Reg.refselHoFreqFreq_may {m w : Nat} (hs : Sub m w) (e : bit m 2 = true) : may w Reg.refselHoFreqFreq.key = true :=
  may_of hs e rfl

theorem Reg.refselHoLimitSeconds_may {m w : Nat} (hs : Sub m w) (e : bit m 2 = true) : may w Reg.refselHoLimitSeconds.key = true :=
  may_of hs e rfl

theorem Reg.refselHoStatusHistCount_may {m w : Nat} (hs : Sub m w) (e : bit m 2 = true) : may w Reg.refselHoStatusHistCount.key = true :=
  may_of hs e rfl

theorem Reg.refselHoStatusHoSeconds_may {m w : Nat} (hs : Sub m w) (e : bit m 2 = true) : may w Reg.refselHoStatusHoSeconds.key = true :=
  may_of hs e rfl

theorem Reg.refselHoStatusQualified_may {m w : Nat} (hs : Sub m w) (e : bit m 2 = true) : may w Reg.refselHoStatusQualified.key = true :=
  may_of hs e rfl

theorem Reg.refselLimsetLim1sLim1s_may {m w : Nat} {n : Nat} (hs : Sub m w) (e : bit m 2 = true) : may w (Reg.refselLimsetLim1sLim1s n).key = true :=
  may_cell hs e 0x200100 0x20 4 (0) n (by decide) (by decide) (by decide)

theorem Reg.refselLimsetLim64sLim64s_may {m w : Nat} {n : Nat} (hs : Sub m w) (e : bit m 2 = true) : may w (Reg.refselLimsetLim64sLim64s n).key = true :=
  may_cell hs e 0x200104 0x20 4 (0) n (by decide) (by decide) (by decide)

theorem Reg.refselLimsetLimDriftLimDrift_may {m w : Nat} {n : Nat} (hs : Sub m w) (e : bit m 2 = true) : may w (Reg.refselLimsetLimDriftLimDrift n).key = true :=
  may_cell hs e 0x200108 0x20 4 (0) n (by decide) (by decide) (by decide)

theorem Reg.refselLimsetLimRelLimRel_may {m w : Nat} {n : Nat} (hs : Sub m w) (e : bit m 2 = true) : may w (Reg.refselLimsetLimRelLimRel n).key = true :=
  may_cell hs e 0x20010c 0x20 4 (0) n (by decide) (by decide) (by decide)

theorem Reg.refselLimsetWtrWtr_may {m w : Nat} {n : Nat} (hs : Sub m w) (e : bit m 2 = true) : may w (Reg.refselLimsetWtrWtr n).key = true :=
  may_cell hs e 0x200110 0x20 4 (0) n (by decide) (by decide) (by decide)

theorem Reg.refselOutQlRank_may {m w : Nat} (hs : Sub m w) (e : bit m 2 = true) : may w Reg.refselOutQlRank.key = true :=
  may_of hs e rfl

theorem Reg.refselRcsMapLane0_may {m w : Nat} {n : Nat} (hs : Sub m w) (e : bit m 2 = true) : may w (Reg.refselRcsMapLane0 n).key = true :=
  may_cell hs e 0x200040 0x4 4 (0) n (by decide) (by decide) (by decide)

theorem Reg.refselRcsMapLane1_may {m w : Nat} {n : Nat} (hs : Sub m w) (e : bit m 2 = true) : may w (Reg.refselRcsMapLane1 n).key = true :=
  may_cell hs e 0x200040 0x4 4 (8) n (by decide) (by decide) (by decide)

theorem Reg.refselRcsMapLane2_may {m w : Nat} {n : Nat} (hs : Sub m w) (e : bit m 2 = true) : may w (Reg.refselRcsMapLane2 n).key = true :=
  may_cell hs e 0x200040 0x4 4 (16) n (by decide) (by decide) (by decide)

theorem Reg.refselRcsMapLane3_may {m w : Nat} {n : Nat} (hs : Sub m w) (e : bit m 2 = true) : may w (Reg.refselRcsMapLane3 n).key = true :=
  may_cell hs e 0x200040 0x4 4 (24) n (by decide) (by decide) (by decide)

theorem Reg.refselStateEverLocked_may {m w : Nat} (hs : Sub m w) (e : bit m 2 = true) : may w Reg.refselStateEverLocked.key = true :=
  may_of hs e rfl

theorem Reg.refselStateHistValid_may {m w : Nat} (hs : Sub m w) (e : bit m 2 = true) : may w Reg.refselStateHistValid.key = true :=
  may_of hs e rfl

theorem Reg.refselStateLowbw_may {m w : Nat} (hs : Sub m w) (e : bit m 2 = true) : may w Reg.refselStateLowbw.key = true :=
  may_of hs e rfl

theorem Reg.refselStatePhase_may {m w : Nat} (hs : Sub m w) (e : bit m 2 = true) : may w Reg.refselStatePhase.key = true :=
  may_of hs e rfl

theorem Reg.refselStateSelState_may {m w : Nat} (hs : Sub m w) (e : bit m 2 = true) : may w Reg.refselStateSelState.key = true :=
  may_of hs e rfl

theorem Reg.refselStateSelected_may {m w : Nat} (hs : Sub m w) (e : bit m 2 = true) : may w Reg.refselStateSelected.key = true :=
  may_of hs e rfl

theorem Reg.refselStateTarget_may {m w : Nat} (hs : Sub m w) (e : bit m 2 = true) : may w Reg.refselStateTarget.key = true :=
  may_of hs e rfl

theorem Reg.refselStepHiStep_may {m w : Nat} (hs : Sub m w) (e : bit m 2 = true) : may w Reg.refselStepHiStep.key = true :=
  may_of hs e rfl

theorem Reg.refselStepInfoCand_may {m w : Nat} (hs : Sub m w) (e : bit m 2 = true) : may w Reg.refselStepInfoCand.key = true :=
  may_of hs e rfl

theorem Reg.refselStepInfoStepCount_may {m w : Nat} (hs : Sub m w) (e : bit m 2 = true) : may w Reg.refselStepInfoStepCount.key = true :=
  may_of hs e rfl

theorem Reg.refselStepLoStep_may {m w : Nat} (hs : Sub m w) (e : bit m 2 = true) : may w Reg.refselStepLoStep.key = true :=
  may_of hs e rfl

theorem Reg.refselSwitchesCommits_may {m w : Nat} (hs : Sub m w) (e : bit m 2 = true) : may w Reg.refselSwitchesCommits.key = true :=
  may_of hs e rfl

theorem Reg.refselSwitchesRetargets_may {m w : Nat} (hs : Sub m w) (e : bit m 2 = true) : may w Reg.refselSwitchesRetargets.key = true :=
  may_of hs e rfl

theorem Reg.refselTimesDecideMs_may {m w : Nat} (hs : Sub m w) (e : bit m 2 = true) : may w Reg.refselTimesDecideMs.key = true :=
  may_of hs e rfl

theorem Reg.refselTimesSettle10ms_may {m w : Nat} (hs : Sub m w) (e : bit m 2 = true) : may w Reg.refselTimesSettle10ms.key = true :=
  may_of hs e rfl

theorem Reg.secCfgDebugSlot_may {m w : Nat} (hs : Sub m w) (e : bit m 43 = true) : may w Reg.secCfgDebugSlot.key = true :=
  may_of hs e rfl

theorem Reg.secCfgJtagEn_may {m w : Nat} (hs : Sub m w) (e : bit m 43 = true) : may w Reg.secCfgJtagEn.key = true :=
  may_of hs e rfl

theorem Reg.secCfgLeaseS_may {m w : Nat} (hs : Sub m w) (e : bit m 43 = true) : may w Reg.secCfgLeaseS.key = true :=
  may_of hs e rfl

theorem Reg.secDbgLeaseLeft_may {m w : Nat} (hs : Sub m w) (e : bit m 43 = true) : may w Reg.secDbgLeaseLeft.key = true :=
  may_of hs e rfl

theorem Reg.secDbgLevel_may {m w : Nat} (hs : Sub m w) (e : bit m 43 = true) : may w Reg.secDbgLevel.key = true :=
  may_of hs e rfl

theorem Reg.secNonceNonce_may {m w : Nat} {n : Nat} (hs : Sub m w) (e : bit m 43 = true) : may w (Reg.secNonceNonce n).key = true :=
  may_cell hs e 0x2b00060 0x4 8 (0) n (by decide) (by decide) (by decide)

theorem Reg.secOtpStatusFloorFull_may {m w : Nat} (hs : Sub m w) (e : bit m 43 = true) : may w Reg.secOtpStatusFloorFull.key = true :=
  may_of hs e rfl

theorem Reg.secOtpStatusOtpErr_may {m w : Nat} (hs : Sub m w) (e : bit m 43 = true) : may w Reg.secOtpStatusOtpErr.key = true :=
  may_of hs e rfl

theorem Reg.secReqStatusBusy_may {m w : Nat} (hs : Sub m w) (e : bit m 43 = true) : may w Reg.secReqStatusBusy.key = true :=
  may_of hs e rfl

theorem Reg.secReqStatusClaim_may {m w : Nat} (hs : Sub m w) (e : bit m 43 = true) : may w Reg.secReqStatusClaim.key = true :=
  may_of hs e rfl

theorem Reg.secReqStatusForeign_may {m w : Nat} (hs : Sub m w) (e : bit m 43 = true) : may w Reg.secReqStatusForeign.key = true :=
  may_of hs e rfl

theorem Reg.secReqStatusNonceValid_may {m w : Nat} (hs : Sub m w) (e : bit m 43 = true) : may w Reg.secReqStatusNonceValid.key = true :=
  may_of hs e rfl

theorem Reg.secReqStatusResult_may {m w : Nat} (hs : Sub m w) (e : bit m 43 = true) : may w Reg.secReqStatusResult.key = true :=
  may_of hs e rfl

theorem Reg.synBandCentreCentreKhz_may {m w : Nat} {n : Nat} (hs : Sub m w) (e : bit m 3 = true) : may w (Reg.synBandCentreCentreKhz n).key = true :=
  may_cell hs e 0x301004 0x10 64 (0) n (by decide) (by decide) (by decide)

theorem Reg.synBandCfgCode_may {m w : Nat} {n : Nat} (hs : Sub m w) (e : bit m 3 = true) : may w (Reg.synBandCfgCode n).key = true :=
  may_cell hs e 0x301000 0x10 64 (0) n (by decide) (by decide) (by decide)

theorem Reg.synBandCfgValid_may {m w : Nat} {n : Nat} (hs : Sub m w) (e : bit m 3 = true) : may w (Reg.synBandCfgValid n).key = true :=
  may_cell hs e 0x301000 0x10 64 (8) n (by decide) (by decide) (by decide)

theorem Reg.synBandSlopeSlope_may {m w : Nat} {n : Nat} (hs : Sub m w) (e : bit m 3 = true) : may w (Reg.synBandSlopeSlope n).key = true :=
  may_cell hs e 0x301008 0x10 64 (0) n (by decide) (by decide) (by decide)

theorem Reg.synCkoCfgFormat_may {m w : Nat} {n : Nat} (hs : Sub m w) (e : bit m 3 = true) : may w (Reg.synCkoCfgFormat n).key = true :=
  may_cell hs e 0x300200 0x10 12 (4) n (by decide) (by decide) (by decide)

theorem Reg.synCkoCfgLegN_may {m w : Nat} {n : Nat} (hs : Sub m w) (e : bit m 3 = true) : may w (Reg.synCkoCfgLegN n).key = true :=
  may_cell hs e 0x300200 0x10 12 (10) n (by decide) (by decide) (by decide)

theorem Reg.synCkoCfgLegP_may {m w : Nat} {n : Nat} (hs : Sub m w) (e : bit m 3 = true) : may w (Reg.synCkoCfgLegP n).key = true :=
  may_cell hs e 0x300200 0x10 12 (8) n (by decide) (by decide) (by decide)

theorem Reg.synCkoCfgOs_may {m w : Nat} {n : Nat} (hs : Sub m w) (e : bit m 3 = true) : may w (Reg.synCkoCfgOs n).key = true :=
  may_cell hs e 0x300200 0x10 12 (0) n (by decide) (by decide) (by decide)

theorem Reg.synCkoCfgSyncEn_may {m w : Nat} {n : Nat} (hs : Sub m w) (e : bit m 3 = true) : may w (Reg.synCkoCfgSyncEn n).key = true :=
  may_cell hs e 0x300200 0x10 12 (12) n (by decide) (by decide) (by decide)

theorem Reg.synCkoCtlCoarse_may {m w : Nat} {n : Nat} (hs : Sub m w) (e : bit m 3 = true) : may w (Reg.synCkoCtlCoarse n).key = true :=
  may_cell hs e 0x30020c 0x10 12 (8) n (by decide) (by decide) (by decide)

theorem Reg.synCkoCtlDriving_may {m w : Nat} {n : Nat} (hs : Sub m w) (e : bit m 3 = true) : may w (Reg.synCkoCtlDriving n).key = true :=
  may_cell hs e 0x30020c 0x10 12 (17) n (by decide) (by decide) (by decide)

theorem Reg.synCkoCtlFine_may {m w : Nat} {n : Nat} (hs : Sub m w) (e : bit m 3 = true) : may w (Reg.synCkoCtlFine n).key = true :=
  may_cell hs e 0x30020c 0x10 12 (0) n (by decide) (by decide) (by decide)

theorem Reg.synCkoCtlOeHost_may {m w : Nat} {n : Nat} (hs : Sub m w) (e : bit m 3 = true) : may w (Reg.synCkoCtlOeHost n).key = true :=
  may_cell hs e 0x30020c 0x10 12 (16) n (by decide) (by decide) (by decide)

theorem Reg.synCkoCtlTapSat_may {m w : Nat} {n : Nat} (hs : Sub m w) (e : bit m 3 = true) : may w (Reg.synCkoCtlTapSat n).key = true :=
  may_cell hs e 0x30020c 0x10 12 (18) n (by decide) (by decide) (by decide)

theorem Reg.synCkoDivDiv_may {m w : Nat} {n : Nat} (hs : Sub m w) (e : bit m 3 = true) : may w (Reg.synCkoDivDiv n).key = true :=
  may_cell hs e 0x300204 0x10 12 (0) n (by decide) (by decide) (by decide)

theorem Reg.synCkoPhasePhaseCyc_may {m w : Nat} {n : Nat} (hs : Sub m w) (e : bit m 3 = true) : may w (Reg.synCkoPhasePhaseCyc n).key = true :=
  may_cell hs e 0x300208 0x10 12 (0) n (by decide) (by decide) (by decide)

theorem Reg.synOsCfgMode_may {m w : Nat} {n : Nat} (hs : Sub m w) (e : bit m 3 = true) : may w (Reg.synOsCfgMode n).key = true :=
  may_cell hs e 0x300100 0x20 4 (0) n (by decide) (by decide) (by decide)

theorem Reg.synOsCfgN_may {m w : Nat} {n : Nat} (hs : Sub m w) (e : bit m 3 = true) : may w (Reg.synOsCfgN n).key = true :=
  may_cell hs e 0x300100 0x20 4 (8) n (by decide) (by decide) (by decide)

theorem Reg.synOsCfgP_may {m w : Nat} {n : Nat} (hs : Sub m w) (e : bit m 3 = true) : may w (Reg.synOsCfgP n).key = true :=
  may_cell hs e 0x300100 0x20 4 (16) n (by decide) (by decide) (by decide)

theorem Reg.synOsCfgTb_may {m w : Nat} {n : Nat} (hs : Sub m w) (e : bit m 3 = true) : may w (Reg.synOsCfgTb n).key = true :=
  may_cell hs e 0x300100 0x20 4 (4) n (by decide) (by decide) (by decide)

theorem Reg.synOsFracHiFracHi_may {m w : Nat} {n : Nat} (hs : Sub m w) (e : bit m 3 = true) : may w (Reg.synOsFracHiFracHi n).key = true :=
  may_cell hs e 0x300108 0x20 4 (0) n (by decide) (by decide) (by decide)

theorem Reg.synOsFracLoFracLo_may {m w : Nat} {n : Nat} (hs : Sub m w) (e : bit m 3 = true) : may w (Reg.synOsFracLoFracLo n).key = true :=
  may_cell hs e 0x300104 0x20 4 (0) n (by decide) (by decide) (by decide)

theorem Reg.synOsFreqHiFreqHi_may {m w : Nat} {n : Nat} (hs : Sub m w) (e : bit m 3 = true) : may w (Reg.synOsFreqHiFreqHi n).key = true :=
  may_cell hs e 0x300114 0x20 4 (0) n (by decide) (by decide) (by decide)

theorem Reg.synOsFreqLoFreqLo_may {m w : Nat} {n : Nat} (hs : Sub m w) (e : bit m 3 = true) : may w (Reg.synOsFreqLoFreqLo n).key = true :=
  may_cell hs e 0x300110 0x20 4 (0) n (by decide) (by decide) (by decide)

theorem Reg.synOsStatusLock_may {m w : Nat} {n : Nat} (hs : Sub m w) (e : bit m 3 = true) : may w (Reg.synOsStatusLock n).key = true :=
  may_cell hs e 0x30010c 0x20 4 (3) n (by decide) (by decide) (by decide)

theorem Reg.synOsStatusTlErr_may {m w : Nat} {n : Nat} (hs : Sub m w) (e : bit m 3 = true) : may w (Reg.synOsStatusTlErr n).key = true :=
  may_cell hs e 0x30010c 0x20 4 (16) n (by decide) (by decide) (by decide)

theorem Reg.synOsStatusTlState_may {m w : Nat} {n : Nat} (hs : Sub m w) (e : bit m 3 = true) : may w (Reg.synOsStatusTlState n).key = true :=
  may_cell hs e 0x30010c 0x20 4 (0) n (by decide) (by decide) (by decide)

theorem Reg.synRootCfgLoopBw_may {m w : Nat} (hs : Sub m w) (e : bit m 3 = true) : may w Reg.synRootCfgLoopBw.key = true :=
  may_of hs e rfl

theorem Reg.synRootStatusBand_may {m w : Nat} {n : Nat} (hs : Sub m w) (e : bit m 3 = true) : may w (Reg.synRootStatusBand n).key = true :=
  may_of hs e (by simp only [Fld.key, Reg.synRootStatusBand]; unfold unitOf; split <;> omega)

theorem Reg.synRootStatusClamp_may {m w : Nat} {n : Nat} (hs : Sub m w) (e : bit m 3 = true) : may w (Reg.synRootStatusClamp n).key = true :=
  may_of hs e (by simp only [Fld.key, Reg.synRootStatusClamp]; unfold unitOf; split <;> omega)

theorem Reg.synRootStatusEffBw_may {m w : Nat} {n : Nat} (hs : Sub m w) (e : bit m 3 = true) : may w (Reg.synRootStatusEffBw n).key = true :=
  may_of hs e (by simp only [Fld.key, Reg.synRootStatusEffBw]; unfold unitOf; split <;> omega)

theorem Reg.synRootStatusLock_may {m w : Nat} {n : Nat} (hs : Sub m w) (e : bit m 3 = true) : may w (Reg.synRootStatusLock n).key = true :=
  may_of hs e (by simp only [Fld.key, Reg.synRootStatusLock]; unfold unitOf; split <;> omega)

theorem Reg.synRootStatusState_may {m w : Nat} {n : Nat} (hs : Sub m w) (e : bit m 3 = true) : may w (Reg.synRootStatusState n).key = true :=
  may_of hs e (by simp only [Fld.key, Reg.synRootStatusState]; unfold unitOf; split <;> omega)

theorem Reg.synSyncCfgPol_may {m w : Nat} (hs : Sub m w) (e : bit m 3 = true) : may w Reg.synSyncCfgPol.key = true :=
  may_of hs e rfl

theorem Reg.synSyncCfgTb_may {m w : Nat} (hs : Sub m w) (e : bit m 3 = true) : may w Reg.synSyncCfgTb.key = true :=
  may_of hs e rfl

theorem Reg.synSyncStatusDone_may {m w : Nat} (hs : Sub m w) (e : bit m 3 = true) : may w Reg.synSyncStatusDone.key = true :=
  may_of hs e rfl

theorem Reg.synSyncStatusIgnored_may {m w : Nat} (hs : Sub m w) (e : bit m 3 = true) : may w Reg.synSyncStatusIgnored.key = true :=
  may_of hs e rfl

theorem Reg.synSyncStatusPending_may {m w : Nat} (hs : Sub m w) (e : bit m 3 = true) : may w Reg.synSyncStatusPending.key = true :=
  may_of hs e rfl

theorem Reg.synTrackErr_may {m w : Nat} (hs : Sub m w) (e : bit m 3 = true) : may w Reg.synTrackErr.key = true :=
  may_of hs e rfl

theorem Reg.synTrackTrackOk_may {m w : Nat} (hs : Sub m w) (e : bit m 3 = true) : may w Reg.synTrackTrackOk.key = true :=
  may_of hs e rfl

theorem Reg.tblAgeLimitFdbLimit_may {m w : Nat} (hs : Sub m w) (e : bit m 24 = true) : may w Reg.tblAgeLimitFdbLimit.key = true :=
  may_of hs e rfl

theorem Reg.tblAgeLimitFlowLimit_may {m w : Nat} (hs : Sub m w) (e : bit m 24 = true) : may w Reg.tblAgeLimitFlowLimit.key = true :=
  may_of hs e rfl

theorem Reg.tblCfgAgeNotify_may {m w : Nat} (hs : Sub m w) (e : bit m 24 = true) : may w Reg.tblCfgAgeNotify.key = true :=
  may_of hs e rfl

theorem Reg.tblCfgAgeUnit_may {m w : Nat} (hs : Sub m w) (e : bit m 24 = true) : may w Reg.tblCfgAgeUnit.key = true :=
  may_of hs e rfl

theorem Reg.tblCfgFlowTc_may {m w : Nat} (hs : Sub m w) (e : bit m 24 = true) : may w Reg.tblCfgFlowTc.key = true :=
  may_of hs e rfl

theorem Reg.tblCfgLearnEn_may {m w : Nat} (hs : Sub m w) (e : bit m 24 = true) : may w Reg.tblCfgLearnEn.key = true :=
  may_of hs e rfl

theorem Reg.tblCfgRefreshDa_may {m w : Nat} (hs : Sub m w) (e : bit m 24 = true) : may w Reg.tblCfgRefreshDa.key = true :=
  may_of hs e rfl

theorem Reg.tblCntAgeDefer_may {m w : Nat} (hs : Sub m w) (e : bit m 24 = true) : may w Reg.tblCntAgeDefer.key = true :=
  may_of hs e rfl

theorem Reg.tblCntAged_may {m w : Nat} (hs : Sub m w) (e : bit m 24 = true) : may w Reg.tblCntAged.key = true :=
  may_of hs e rfl

theorem Reg.tblCntCamFull_may {m w : Nat} (hs : Sub m w) (e : bit m 24 = true) : may w Reg.tblCntCamFull.key = true :=
  may_of hs e rfl

theorem Reg.tblCntConflict_may {m w : Nat} (hs : Sub m w) (e : bit m 24 = true) : may w Reg.tblCntConflict.key = true :=
  may_of hs e rfl

theorem Reg.tblCntFloods_may {m w : Nat} (hs : Sub m w) (e : bit m 24 = true) : may w Reg.tblCntFloods.key = true :=
  may_of hs e rfl

theorem Reg.tblCntLearn_may {m w : Nat} (hs : Sub m w) (e : bit m 24 = true) : may w Reg.tblCntLearn.key = true :=
  may_of hs e rfl

theorem Reg.tblCntLnqFull_may {m w : Nat} (hs : Sub m w) (e : bit m 24 = true) : may w Reg.tblCntLnqFull.key = true :=
  may_of hs e rfl

theorem Reg.tblCntMove_may {m w : Nat} (hs : Sub m w) (e : bit m 24 = true) : may w Reg.tblCntMove.key = true :=
  may_of hs e rfl

theorem Reg.tblCntParity_may {m w : Nat} (hs : Sub m w) (e : bit m 24 = true) : may w Reg.tblCntParity.key = true :=
  may_of hs e rfl

theorem Reg.tblCntPass2_may {m w : Nat} (hs : Sub m w) (e : bit m 24 = true) : may w Reg.tblCntPass2.key = true :=
  may_of hs e rfl

theorem Reg.tblCntPass3_may {m w : Nat} (hs : Sub m w) (e : bit m 24 = true) : may w Reg.tblCntPass3.key = true :=
  may_of hs e rfl

theorem Reg.tblCntPass4_may {m w : Nat} (hs : Sub m w) (e : bit m 24 = true) : may w Reg.tblCntPass4.key = true :=
  may_of hs e rfl

theorem Reg.tblCntReinstated_may {m w : Nat} (hs : Sub m w) (e : bit m 24 = true) : may w Reg.tblCntReinstated.key = true :=
  may_of hs e rfl

theorem Reg.tblCntRetract_may {m w : Nat} (hs : Sub m w) (e : bit m 24 = true) : may w Reg.tblCntRetract.key = true :=
  may_of hs e rfl

theorem Reg.tblCntStaticMismatch_may {m w : Nat} (hs : Sub m w) (e : bit m 24 = true) : may w Reg.tblCntStaticMismatch.key = true :=
  may_of hs e rfl

theorem Reg.tblCntTcqFull_may {m w : Nat} (hs : Sub m w) (e : bit m 24 = true) : may w Reg.tblCntTcqFull.key = true :=
  may_of hs e rfl

theorem Reg.tblCntVlanDrop_may {m w : Nat} (hs : Sub m w) (e : bit m 24 = true) : may w Reg.tblCntVlanDrop.key = true :=
  may_of hs e rfl

theorem Reg.tblEpochCompleted_may {m w : Nat} (hs : Sub m w) (e : bit m 24 = true) : may w Reg.tblEpochCompleted.key = true :=
  may_of hs e rfl

theorem Reg.tblEpochCurrent_may {m w : Nat} (hs : Sub m w) (e : bit m 24 = true) : may w Reg.tblEpochCurrent.key = true :=
  may_of hs e rfl

theorem Reg.tblEpochOutstanding_may {m w : Nat} (hs : Sub m w) (e : bit m 24 = true) : may w Reg.tblEpochOutstanding.key = true :=
  may_of hs e rfl

theorem Reg.tblFdbStaticStatic_may {m w : Nat} (hs : Sub m w) (e : bit m 24 = true) : may w Reg.tblFdbStaticStatic.key = true :=
  may_of hs e rfl

theorem Reg.tblFdbUseTotal_may {m w : Nat} (hs : Sub m w) (e : bit m 24 = true) : may w Reg.tblFdbUseTotal.key = true :=
  may_of hs e rfl

theorem Reg.tblFenceStatusDone_may {m w : Nat} (hs : Sub m w) (e : bit m 24 = true) : may w Reg.tblFenceStatusDone.key = true :=
  may_of hs e rfl

theorem Reg.tblFenceStatusIe_may {m w : Nat} (hs : Sub m w) (e : bit m 24 = true) : may w Reg.tblFenceStatusIe.key = true :=
  may_of hs e rfl

theorem Reg.tblFlowUseStatic_may {m w : Nat} (hs : Sub m w) (e : bit m 24 = true) : may w Reg.tblFlowUseStatic.key = true :=
  may_of hs e rfl

theorem Reg.tblFlowUseTotal_may {m w : Nat} (hs : Sub m w) (e : bit m 24 = true) : may w Reg.tblFlowUseTotal.key = true :=
  may_of hs e rfl

theorem Reg.tblFseed0Seed_may {m w : Nat} (hs : Sub m w) (e : bit m 24 = true) : may w Reg.tblFseed0Seed.key = true :=
  may_of hs e rfl

theorem Reg.tblFseed1Seed_may {m w : Nat} (hs : Sub m w) (e : bit m 24 = true) : may w Reg.tblFseed1Seed.key = true :=
  may_of hs e rfl

theorem Reg.tblLearnPortMask_may {m w : Nat} {n : Nat} (hs : Sub m w) (e : bit m 24 = true) : may w (Reg.tblLearnPortMask n).key = true :=
  may_cell hs e 0x1800020 0x4 4 (0) n (by decide) (by decide) (by decide)

theorem Reg.tblLnqCtlRun_may {m w : Nat} (hs : Sub m w) (e : bit m 24 = true) : may w Reg.tblLnqCtlRun.key = true :=
  may_of hs e rfl

theorem Reg.tblLnqStatusCamUsed_may {m w : Nat} (hs : Sub m w) (e : bit m 24 = true) : may w Reg.tblLnqStatusCamUsed.key = true :=
  may_of hs e rfl

theorem Reg.tblLnqStatusCount_may {m w : Nat} (hs : Sub m w) (e : bit m 24 = true) : may w Reg.tblLnqStatusCount.key = true :=
  may_of hs e rfl

theorem Reg.tblNseqNext_may {m w : Nat} (hs : Sub m w) (e : bit m 24 = true) : may w Reg.tblNseqNext.key = true :=
  may_of hs e rfl

theorem Reg.tblParityLocBank_may {m w : Nat} (hs : Sub m w) (e : bit m 24 = true) : may w Reg.tblParityLocBank.key = true :=
  may_of hs e rfl

theorem Reg.tblParityLocIndex_may {m w : Nat} (hs : Sub m w) (e : bit m 24 = true) : may w Reg.tblParityLocIndex.key = true :=
  may_of hs e rfl

theorem Reg.tblParityLocTable_may {m w : Nat} (hs : Sub m w) (e : bit m 24 = true) : may w Reg.tblParityLocTable.key = true :=
  may_of hs e rfl

theorem Reg.tblParityLocWay_may {m w : Nat} (hs : Sub m w) (e : bit m 24 = true) : may w Reg.tblParityLocWay.key = true :=
  may_of hs e rfl

theorem Reg.tblSeed0Seed_may {m w : Nat} (hs : Sub m w) (e : bit m 24 = true) : may w Reg.tblSeed0Seed.key = true :=
  may_of hs e rfl

theorem Reg.tblSeed1Seed_may {m w : Nat} (hs : Sub m w) (e : bit m 24 = true) : may w Reg.tblSeed1Seed.key = true :=
  may_of hs e rfl

theorem Reg.tblStatusAgeNow_may {m w : Nat} (hs : Sub m w) (e : bit m 24 = true) : may w Reg.tblStatusAgeNow.key = true :=
  may_of hs e rfl

theorem Reg.tblStatusGen_may {m w : Nat} (hs : Sub m w) (e : bit m 24 = true) : may w Reg.tblStatusGen.key = true :=
  may_of hs e rfl

theorem Reg.tkPairDeferred_may {m w : Nat} {n : Nat} (hs : Sub m w) (e : bit m 4 = true) : may w (Reg.tkPairDeferred n).key = true :=
  may_cell hs e 0x400010 0x4 4 (18) n (by decide) (by decide) (by decide)

theorem Reg.tkPairEn_may {m w : Nat} {n : Nat} (hs : Sub m w) (e : bit m 4 = true) : may w (Reg.tkPairEn n).key = true :=
  may_cell hs e 0x400010 0x4 4 (11) n (by decide) (by decide) (by decide)

theorem Reg.tkPairPrimary_may {m w : Nat} {n : Nat} (hs : Sub m w) (e : bit m 4 = true) : may w (Reg.tkPairPrimary n).key = true :=
  may_cell hs e 0x400010 0x4 4 (0) n (by decide) (by decide) (by decide)

theorem Reg.tkPairShadow_may {m w : Nat} {n : Nat} (hs : Sub m w) (e : bit m 4 = true) : may w (Reg.tkPairShadow n).key = true :=
  may_cell hs e 0x400010 0x4 4 (8) n (by decide) (by decide) (by decide)

theorem Reg.tkPairSwapped_may {m w : Nat} {n : Nat} (hs : Sub m w) (e : bit m 4 = true) : may w (Reg.tkPairSwapped n).key = true :=
  may_cell hs e 0x400010 0x4 4 (16) n (by decide) (by decide) (by decide)

theorem Reg.tkPairSwitches_may {m w : Nat} {n : Nat} (hs : Sub m w) (e : bit m 4 = true) : may w (Reg.tkPairSwitches n).key = true :=
  may_cell hs e 0x400010 0x4 4 (24) n (by decide) (by decide) (by decide)

theorem Reg.tkStatusActive_may {m w : Nat} (hs : Sub m w) (e : bit m 4 = true) : may w Reg.tkStatusActive.key = true :=
  may_of hs e rfl

theorem Reg.tkStatusFailovers_may {m w : Nat} (hs : Sub m w) (e : bit m 4 = true) : may w Reg.tkStatusFailovers.key = true :=
  may_of hs e rfl

theorem Reg.tkStatusStandbyRun_may {m w : Nat} (hs : Sub m w) (e : bit m 4 = true) : may w Reg.tkStatusStandbyRun.key = true :=
  may_of hs e rfl

theorem Reg.tkStatusUnverified_may {m w : Nat} (hs : Sub m w) (e : bit m 4 = true) : may w Reg.tkStatusUnverified.key = true :=
  may_of hs e rfl

theorem Reg.tkStatusXcOk_may {m w : Nat} (hs : Sub m w) (e : bit m 4 = true) : may w Reg.tkStatusXcOk.key = true :=
  may_of hs e rfl

theorem Reg.tkStatusXlinkLost_may {m w : Nat} (hs : Sub m w) (e : bit m 4 = true) : may w Reg.tkStatusXlinkLost.key = true :=
  may_of hs e rfl

theorem Reg.tkTbCfgEnable_may {m w : Nat} {n : Nat} (hs : Sub m w) (e : bit m 4 = true) : may w (Reg.tkTbCfgEnable n).key = true :=
  may_cell hs e 0x401000 0x100 8 (0) n (by decide) (by decide) (by decide)

theorem Reg.tkTbCfgFormat_may {m w : Nat} {n : Nat} (hs : Sub m w) (e : bit m 4 = true) : may w (Reg.tkTbCfgFormat n).key = true :=
  may_cell hs e 0x401000 0x100 8 (1) n (by decide) (by decide) (by decide)

theorem Reg.tkTbCfgInitValid_may {m w : Nat} {n : Nat} (hs : Sub m w) (e : bit m 4 = true) : may w (Reg.tkTbCfgInitValid n).key = true :=
  may_cell hs e 0x401000 0x100 8 (3) n (by decide) (by decide) (by decide)

theorem Reg.tkTbCfgSrc_may {m w : Nat} {n : Nat} (hs : Sub m w) (e : bit m 4 = true) : may w (Reg.tkTbCfgSrc n).key = true :=
  may_cell hs e 0x401000 0x100 8 (4) n (by decide) (by decide) (by decide)

theorem Reg.tkTbCfgSrcId_may {m w : Nat} {n : Nat} (hs : Sub m w) (e : bit m 4 = true) : may w (Reg.tkTbCfgSrcId n).key = true :=
  may_cell hs e 0x401000 0x100 8 (8) n (by decide) (by decide) (by decide)

theorem Reg.tkTbEventsHolds_may {m w : Nat} {n : Nat} (hs : Sub m w) (e : bit m 4 = true) : may w (Reg.tkTbEventsHolds n).key = true :=
  may_cell hs e 0x401050 0x100 8 (0) n (by decide) (by decide) (by decide)

theorem Reg.tkTbEventsOutliers_may {m w : Nat} {n : Nat} (hs : Sub m w) (e : bit m 4 = true) : may w (Reg.tkTbEventsOutliers n).key = true :=
  may_cell hs e 0x401050 0x100 8 (16) n (by decide) (by decide) (by decide)

theorem Reg.tkTbFeedStatusAccepted_may {m w : Nat} {n : Nat} (hs : Sub m w) (e : bit m 4 = true) : may w (Reg.tkTbFeedStatusAccepted n).key = true :=
  may_cell hs e 0x40106c 0x100 8 (16) n (by decide) (by decide) (by decide)

theorem Reg.tkTbFeedStatusResult_may {m w : Nat} {n : Nat} (hs : Sub m w) (e : bit m 4 = true) : may w (Reg.tkTbFeedStatusResult n).key = true :=
  may_cell hs e 0x40106c 0x100 8 (0) n (by decide) (by decide) (by decide)

theorem Reg.tkTbGainKi_may {m w : Nat} {n : Nat} (hs : Sub m w) (e : bit m 4 = true) : may w (Reg.tkTbGainKi n).key = true :=
  may_cell hs e 0x401004 0x100 8 (16) n (by decide) (by decide) (by decide)

theorem Reg.tkTbGainKp_may {m w : Nat} {n : Nat} (hs : Sub m w) (e : bit m 4 = true) : may w (Reg.tkTbGainKp n).key = true :=
  may_cell hs e 0x401004 0x100 8 (0) n (by decide) (by decide) (by decide)

theorem Reg.tkTbIlimIlim_may {m w : Nat} {n : Nat} (hs : Sub m w) (e : bit m 4 = true) : may w (Reg.tkTbIlimIlim n).key = true :=
  may_cell hs e 0x401008 0x100 8 (0) n (by decide) (by decide) (by decide)

theorem Reg.tkTbInitSecHiInitSecHi_may {m w : Nat} {n : Nat} (hs : Sub m w) (e : bit m 4 = true) : may w (Reg.tkTbInitSecHiInitSecHi n).key = true :=
  may_cell hs e 0x401024 0x100 8 (0) n (by decide) (by decide) (by decide)

theorem Reg.tkTbInitSecLoInitSecLo_may {m w : Nat} {n : Nat} (hs : Sub m w) (e : bit m 4 = true) : may w (Reg.tkTbInitSecLoInitSecLo n).key = true :=
  may_cell hs e 0x401020 0x100 8 (0) n (by decide) (by decide) (by decide)

theorem Reg.tkTbNowFracNowFrac_may {m w : Nat} {n : Nat} (hs : Sub m w) (e : bit m 4 = true) : may w (Reg.tkTbNowFracNowFrac n).key = true :=
  may_cell hs e 0x401038 0x100 8 (0) n (by decide) (by decide) (by decide)

theorem Reg.tkTbNowNsNowNs_may {m w : Nat} {n : Nat} (hs : Sub m w) (e : bit m 4 = true) : may w (Reg.tkTbNowNsNowNs n).key = true :=
  may_cell hs e 0x401034 0x100 8 (0) n (by decide) (by decide) (by decide)

theorem Reg.tkTbNowSecHiNowSecHi_may {m w : Nat} {n : Nat} (hs : Sub m w) (e : bit m 4 = true) : may w (Reg.tkTbNowSecHiNowSecHi n).key = true :=
  may_cell hs e 0x401030 0x100 8 (0) n (by decide) (by decide) (by decide)

theorem Reg.tkTbNowSecLoNowSecLo_may {m w : Nat} {n : Nat} (hs : Sub m w) (e : bit m 4 = true) : may w (Reg.tkTbNowSecLoNowSecLo n).key = true :=
  may_cell hs e 0x40102c 0x100 8 (0) n (by decide) (by decide) (by decide)

theorem Reg.tkTbOffHiOffHi_may {m w : Nat} {n : Nat} (hs : Sub m w) (e : bit m 4 = true) : may w (Reg.tkTbOffHiOffHi n).key = true :=
  may_cell hs e 0x401048 0x100 8 (0) n (by decide) (by decide) (by decide)

theorem Reg.tkTbOffLoOffLo_may {m w : Nat} {n : Nat} (hs : Sub m w) (e : bit m 4 = true) : may w (Reg.tkTbOffLoOffLo n).key = true :=
  may_cell hs e 0x401044 0x100 8 (0) n (by decide) (by decide) (by decide)

theorem Reg.tkTbOutlierOutlier_may {m w : Nat} {n : Nat} (hs : Sub m w) (e : bit m 4 = true) : may w (Reg.tkTbOutlierOutlier n).key = true :=
  may_cell hs e 0x401014 0x100 8 (0) n (by decide) (by decide) (by decide)

theorem Reg.tkTbPpsDelayPpsDelay_may {m w : Nat} {n : Nat} (hs : Sub m w) (e : bit m 4 = true) : may w (Reg.tkTbPpsDelayPpsDelay n).key = true :=
  may_cell hs e 0x40101c 0x100 8 (0) n (by decide) (by decide) (by decide)

theorem Reg.tkTbSlewSlew_may {m w : Nat} {n : Nat} (hs : Sub m w) (e : bit m 4 = true) : may w (Reg.tkTbSlewSlew n).key = true :=
  may_cell hs e 0x40100c 0x100 8 (0) n (by decide) (by decide) (by decide)

theorem Reg.tkTbStatusGen_may {m w : Nat} {n : Nat} (hs : Sub m w) (e : bit m 4 = true) : may w (Reg.tkTbStatusGen n).key = true :=
  may_cell hs e 0x401028 0x100 8 (16) n (by decide) (by decide) (by decide)

theorem Reg.tkTbTimesOutlierCnt_may {m w : Nat} {n : Nat} (hs : Sub m w) (e : bit m 4 = true) : may w (Reg.tkTbTimesOutlierCnt n).key = true :=
  may_cell hs e 0x401018 0x100 8 (16) n (by decide) (by decide) (by decide)

theorem Reg.tkTbTimesTimeoutMs_may {m w : Nat} {n : Nat} (hs : Sub m w) (e : bit m 4 = true) : may w (Reg.tkTbTimesTimeoutMs n).key = true :=
  may_cell hs e 0x401018 0x100 8 (0) n (by decide) (by decide) (by decide)

theorem Reg.tkTbTrackWinTrackWin_may {m w : Nat} {n : Nat} (hs : Sub m w) (e : bit m 4 = true) : may w (Reg.tkTbTrackWinTrackWin n).key = true :=
  may_cell hs e 0x401010 0x100 8 (0) n (by decide) (by decide) (by decide)

theorem Reg.tkTbXcDiffXcDiff_may {m w : Nat} {n : Nat} (hs : Sub m w) (e : bit m 4 = true) : may w (Reg.tkTbXcDiffXcDiff n).key = true :=
  may_cell hs e 0x40104c 0x100 8 (0) n (by decide) (by decide) (by decide)

theorem Reg.tkXcCfgXcLim_may {m w : Nat} (hs : Sub m w) (e : bit m 4 = true) : may w Reg.tkXcCfgXcLim.key = true :=
  may_of hs e rfl

theorem Reg.tkXcStatusBadSlots_may {m w : Nat} (hs : Sub m w) (e : bit m 4 = true) : may w Reg.tkXcStatusBadSlots.key = true :=
  may_of hs e rfl

theorem Reg.tkXcStatusOutOfLim_may {m w : Nat} (hs : Sub m w) (e : bit m 4 = true) : may w Reg.tkXcStatusOutOfLim.key = true :=
  may_of hs e rfl

theorem Reg.tsCapCfgEdge_may {m w : Nat} {n : Nat} (hs : Sub m w) (e : bit m 6 = true) : may w (Reg.tsCapCfgEdge n).key = true :=
  may_cell hs e 0x602000 0x40 16 (0) n (by decide) (by decide) (by decide)

theorem Reg.tsCapCfgGate_may {m w : Nat} {n : Nat} (hs : Sub m w) (e : bit m 6 = true) : may w (Reg.tsCapCfgGate n).key = true :=
  may_cell hs e 0x602000 0x40 16 (13) n (by decide) (by decide) (by decide)

theorem Reg.tsCapCfgTb_may {m w : Nat} {n : Nat} (hs : Sub m w) (e : bit m 6 = true) : may w (Reg.tsCapCfgTb n).key = true :=
  may_cell hs e 0x602000 0x40 16 (4) n (by decide) (by decide) (by decide)

theorem Reg.tsCapCfgWinEn_may {m w : Nat} {n : Nat} (hs : Sub m w) (e : bit m 6 = true) : may w (Reg.tsCapCfgWinEn n).key = true :=
  may_cell hs e 0x602000 0x40 16 (12) n (by decide) (by decide) (by decide)

theorem Reg.tsCapCfgWinPg_may {m w : Nat} {n : Nat} (hs : Sub m w) (e : bit m 6 = true) : may w (Reg.tsCapCfgWinPg n).key = true :=
  may_cell hs e 0x602000 0x40 16 (8) n (by decide) (by decide) (by decide)

theorem Reg.tsCapEntry0Empty_may {m w : Nat} {n : Nat} (hs : Sub m w) (e : bit m 6 = true) : may w (Reg.tsCapEntry0Empty n).key = true :=
  may_cell hs e 0x60200c 0x40 16 (3) n (by decide) (by decide) (by decide)

theorem Reg.tsCapEntry0Inhigh_may {m w : Nat} {n : Nat} (hs : Sub m w) (e : bit m 6 = true) : may w (Reg.tsCapEntry0Inhigh n).key = true :=
  may_cell hs e 0x60200c 0x40 16 (5) n (by decide) (by decide) (by decide)

theorem Reg.tsCapEntry0Rising_may {m w : Nat} {n : Nat} (hs : Sub m w) (e : bit m 6 = true) : may w (Reg.tsCapEntry0Rising n).key = true :=
  may_cell hs e 0x60200c 0x40 16 (4) n (by decide) (by decide) (by decide)

theorem Reg.tsCapEntry0Tb_may {m w : Nat} {n : Nat} (hs : Sub m w) (e : bit m 6 = true) : may w (Reg.tsCapEntry0Tb n).key = true :=
  may_cell hs e 0x60200c 0x40 16 (0) n (by decide) (by decide) (by decide)

theorem Reg.tsCapEntry0Valid_may {m w : Nat} {n : Nat} (hs : Sub m w) (e : bit m 6 = true) : may w (Reg.tsCapEntry0Valid n).key = true :=
  may_cell hs e 0x60200c 0x40 16 (7) n (by decide) (by decide) (by decide)

theorem Reg.tsCapEntry0Window_may {m w : Nat} {n : Nat} (hs : Sub m w) (e : bit m 6 = true) : may w (Reg.tsCapEntry0Window n).key = true :=
  may_cell hs e 0x60200c 0x40 16 (16) n (by decide) (by decide) (by decide)

theorem Reg.tsCapEntry0Wvalid_may {m w : Nat} {n : Nat} (hs : Sub m w) (e : bit m 6 = true) : may w (Reg.tsCapEntry0Wvalid n).key = true :=
  may_cell hs e 0x60200c 0x40 16 (6) n (by decide) (by decide) (by decide)

theorem Reg.tsCapEntry1Sec_may {m w : Nat} {n : Nat} (hs : Sub m w) (e : bit m 6 = true) : may w (Reg.tsCapEntry1Sec n).key = true :=
  may_cell hs e 0x602010 0x40 16 (0) n (by decide) (by decide) (by decide)

theorem Reg.tsCapEntry2Ns_may {m w : Nat} {n : Nat} (hs : Sub m w) (e : bit m 6 = true) : may w (Reg.tsCapEntry2Ns n).key = true :=
  may_cell hs e 0x602014 0x40 16 (0) n (by decide) (by decide) (by decide)

theorem Reg.tsCapEntry3Frac_may {m w : Nat} {n : Nat} (hs : Sub m w) (e : bit m 6 = true) : may w (Reg.tsCapEntry3Frac n).key = true :=
  may_cell hs e 0x602018 0x40 16 (0) n (by decide) (by decide) (by decide)

theorem Reg.tsCapExtExtDelay_may {m w : Nat} {n : Nat} (hs : Sub m w) (e : bit m 6 = true) : may w (Reg.tsCapExtExtDelay n).key = true :=
  may_cell hs e 0x602004 0x40 16 (0) n (by decide) (by decide) (by decide)

theorem Reg.tsCapGatedGated_may {m w : Nat} {n : Nat} (hs : Sub m w) (e : bit m 6 = true) : may w (Reg.tsCapGatedGated n).key = true :=
  may_cell hs e 0x602024 0x40 16 (0) n (by decide) (by decide) (by decide)

theorem Reg.tsCapMissedMissed_may {m w : Nat} {n : Nat} (hs : Sub m w) (e : bit m 6 = true) : may w (Reg.tsCapMissedMissed n).key = true :=
  may_cell hs e 0x602020 0x40 16 (0) n (by decide) (by decide) (by decide)

theorem Reg.tsCapStatusCount_may {m w : Nat} {n : Nat} (hs : Sub m w) (e : bit m 6 = true) : may w (Reg.tsCapStatusCount n).key = true :=
  may_cell hs e 0x602008 0x40 16 (0) n (by decide) (by decide) (by decide)

theorem Reg.tsCapStatusDropped_may {m w : Nat} {n : Nat} (hs : Sub m w) (e : bit m 6 = true) : may w (Reg.tsCapStatusDropped n).key = true :=
  may_cell hs e 0x602008 0x40 16 (16) n (by decide) (by decide) (by decide)

theorem Reg.tsCapStatusOvf_may {m w : Nat} {n : Nat} (hs : Sub m w) (e : bit m 6 = true) : may w (Reg.tsCapStatusOvf n).key = true :=
  may_cell hs e 0x602008 0x40 16 (8) n (by decide) (by decide) (by decide)

theorem Reg.tsLeatTbTb_may {m w : Nat} {n : Nat} (hs : Sub m w) (e : bit m 6 = true) : may w (Reg.tsLeatTbTb n).key = true :=
  may_cell hs e 0x600040 0x4 16 (4 * (n % 8)) (n / 8) (by omega) (by omega) (by omega)

theorem Reg.tsPgCfgDrive_may {m w : Nat} {n : Nat} (hs : Sub m w) (e : bit m 6 = true) : may w (Reg.tsPgCfgDrive n).key = true :=
  may_cell hs e 0x601000 0x40 16 (11) n (by decide) (by decide) (by decide)

theorem Reg.tsPgCfgMode_may {m w : Nat} {n : Nat} (hs : Sub m w) (e : bit m 6 = true) : may w (Reg.tsPgCfgMode n).key = true :=
  may_cell hs e 0x601000 0x40 16 (0) n (by decide) (by decide) (by decide)

theorem Reg.tsPgCfgOwner_may {m w : Nat} {n : Nat} (hs : Sub m w) (e : bit m 6 = true) : may w (Reg.tsPgCfgOwner n).key = true :=
  may_cell hs e 0x601000 0x40 16 (12) n (by decide) (by decide) (by decide)

theorem Reg.tsPgCfgPol_may {m w : Nat} {n : Nat} (hs : Sub m w) (e : bit m 6 = true) : may w (Reg.tsPgCfgPol n).key = true :=
  may_cell hs e 0x601000 0x40 16 (8) n (by decide) (by decide) (by decide)

theorem Reg.tsPgCfgTb_may {m w : Nat} {n : Nat} (hs : Sub m w) (e : bit m 6 = true) : may w (Reg.tsPgCfgTb n).key = true :=
  may_cell hs e 0x601000 0x40 16 (4) n (by decide) (by decide) (by decide)

theorem Reg.tsPgCmdStatusPg_may {m w : Nat} (hs : Sub m w) (e : bit m 6 = true) : may w Reg.tsPgCmdStatusPg.key = true :=
  may_of hs e rfl

theorem Reg.tsPgCmdStatusResult_may {m w : Nat} (hs : Sub m w) (e : bit m 6 = true) : may w Reg.tsPgCmdStatusResult.key = true :=
  may_of hs e rfl

theorem Reg.tsPgCntCount_may {m w : Nat} {n : Nat} (hs : Sub m w) (e : bit m 6 = true) : may w (Reg.tsPgCntCount n).key = true :=
  may_cell hs e 0x601024 0x40 16 (0) n (by decide) (by decide) (by decide)

theorem Reg.tsPgExtExtDelay_may {m w : Nat} {n : Nat} (hs : Sub m w) (e : bit m 6 = true) : may w (Reg.tsPgExtExtDelay n).key = true :=
  may_cell hs e 0x601028 0x40 16 (0) n (by decide) (by decide) (by decide)

theorem Reg.tsPgFiredFired_may {m w : Nat} {n : Nat} (hs : Sub m w) (e : bit m 6 = true) : may w (Reg.tsPgFiredFired n).key = true :=
  may_cell hs e 0x601030 0x40 16 (0) n (by decide) (by decide) (by decide)

theorem Reg.tsPgPer0PeriodLo_may {m w : Nat} {n : Nat} (hs : Sub m w) (e : bit m 6 = true) : may w (Reg.tsPgPer0PeriodLo n).key = true :=
  may_cell hs e 0x601014 0x40 16 (0) n (by decide) (by decide) (by decide)

theorem Reg.tsPgPer1PeriodHi_may {m w : Nat} {n : Nat} (hs : Sub m w) (e : bit m 6 = true) : may w (Reg.tsPgPer1PeriodHi n).key = true :=
  may_cell hs e 0x601018 0x40 16 (0) n (by decide) (by decide) (by decide)

theorem Reg.tsPgSkippedSkipped_may {m w : Nat} {n : Nat} (hs : Sub m w) (e : bit m 6 = true) : may w (Reg.tsPgSkippedSkipped n).key = true :=
  may_cell hs e 0x601034 0x40 16 (0) n (by decide) (by decide) (by decide)

theorem Reg.tsPgStart0StartSecLo_may {m w : Nat} {n : Nat} (hs : Sub m w) (e : bit m 6 = true) : may w (Reg.tsPgStart0StartSecLo n).key = true :=
  may_cell hs e 0x601004 0x40 16 (0) n (by decide) (by decide) (by decide)

theorem Reg.tsPgStart1StartSecHi_may {m w : Nat} {n : Nat} (hs : Sub m w) (e : bit m 6 = true) : may w (Reg.tsPgStart1StartSecHi n).key = true :=
  may_cell hs e 0x601008 0x40 16 (0) n (by decide) (by decide) (by decide)

theorem Reg.tsPgStart2StartNs_may {m w : Nat} {n : Nat} (hs : Sub m w) (e : bit m 6 = true) : may w (Reg.tsPgStart2StartNs n).key = true :=
  may_cell hs e 0x60100c 0x40 16 (0) n (by decide) (by decide) (by decide)

theorem Reg.tsPgStart3StartFrac_may {m w : Nat} {n : Nat} (hs : Sub m w) (e : bit m 6 = true) : may w (Reg.tsPgStart3StartFrac n).key = true :=
  may_cell hs e 0x601010 0x40 16 (0) n (by decide) (by decide) (by decide)

theorem Reg.tsPgStatusGen_may {m w : Nat} {n : Nat} (hs : Sub m w) (e : bit m 6 = true) : may w (Reg.tsPgStatusGen n).key = true :=
  may_cell hs e 0x60102c 0x40 16 (16) n (by decide) (by decide) (by decide)

theorem Reg.tsPgStatusLate_may {m w : Nat} {n : Nat} (hs : Sub m w) (e : bit m 6 = true) : may w (Reg.tsPgStatusLate n).key = true :=
  may_cell hs e 0x60102c 0x40 16 (7) n (by decide) (by decide) (by decide)

theorem Reg.tsPgStatusState_may {m w : Nat} {n : Nat} (hs : Sub m w) (e : bit m 6 = true) : may w (Reg.tsPgStatusState n).key = true :=
  may_cell hs e 0x60102c 0x40 16 (0) n (by decide) (by decide) (by decide)

theorem Reg.tsPgStatusTapSat_may {m w : Nat} {n : Nat} (hs : Sub m w) (e : bit m 6 = true) : may w (Reg.tsPgStatusTapSat n).key = true :=
  may_cell hs e 0x60102c 0x40 16 (6) n (by decide) (by decide) (by decide)

theorem Reg.tsPgStgCfgMode_may {m w : Nat} (hs : Sub m w) (e : bit m 6 = true) : may w Reg.tsPgStgCfgMode.key = true :=
  may_of hs e rfl

theorem Reg.tsPgStgCfgPol_may {m w : Nat} (hs : Sub m w) (e : bit m 6 = true) : may w Reg.tsPgStgCfgPol.key = true :=
  may_of hs e rfl

theorem Reg.tsPgStgCfgTb_may {m w : Nat} (hs : Sub m w) (e : bit m 6 = true) : may w Reg.tsPgStgCfgTb.key = true :=
  may_of hs e rfl

theorem Reg.tsPgStgCountCount_may {m w : Nat} (hs : Sub m w) (e : bit m 6 = true) : may w Reg.tsPgStgCountCount.key = true :=
  may_of hs e rfl

theorem Reg.tsPgStgPeriodHiPeriod_may {m w : Nat} (hs : Sub m w) (e : bit m 6 = true) : may w Reg.tsPgStgPeriodHiPeriod.key = true :=
  may_of hs e rfl

theorem Reg.tsPgStgPeriodLoPeriod_may {m w : Nat} (hs : Sub m w) (e : bit m 6 = true) : may w Reg.tsPgStgPeriodLoPeriod.key = true :=
  may_of hs e rfl

theorem Reg.tsPgStgStartFracFrac_may {m w : Nat} (hs : Sub m w) (e : bit m 6 = true) : may w Reg.tsPgStgStartFracFrac.key = true :=
  may_of hs e rfl

theorem Reg.tsPgStgStartNsNs_may {m w : Nat} (hs : Sub m w) (e : bit m 6 = true) : may w Reg.tsPgStgStartNsNs.key = true :=
  may_of hs e rfl

theorem Reg.tsPgStgStartSecHiSec_may {m w : Nat} (hs : Sub m w) (e : bit m 6 = true) : may w Reg.tsPgStgStartSecHiSec.key = true :=
  may_of hs e rfl

theorem Reg.tsPgStgStartSecLoSec_may {m w : Nat} (hs : Sub m w) (e : bit m 6 = true) : may w Reg.tsPgStgStartSecLoSec.key = true :=
  may_of hs e rfl

theorem Reg.tsPgStgWidthHiWidth_may {m w : Nat} (hs : Sub m w) (e : bit m 6 = true) : may w Reg.tsPgStgWidthHiWidth.key = true :=
  may_of hs e rfl

theorem Reg.tsPgStgWidthLoWidth_may {m w : Nat} (hs : Sub m w) (e : bit m 6 = true) : may w Reg.tsPgStgWidthLoWidth.key = true :=
  may_of hs e rfl

theorem Reg.tsPgWid0WidthLo_may {m w : Nat} {n : Nat} (hs : Sub m w) (e : bit m 6 = true) : may w (Reg.tsPgWid0WidthLo n).key = true :=
  may_cell hs e 0x60101c 0x40 16 (0) n (by decide) (by decide) (by decide)

theorem Reg.tsPgWid1WidthHi_may {m w : Nat} {n : Nat} (hs : Sub m w) (e : bit m 6 = true) : may w (Reg.tsPgWid1WidthHi n).key = true :=
  may_cell hs e 0x601020 0x40 16 (0) n (by decide) (by decide) (by decide)

theorem Reg.tsStatusCapNe_may {m w : Nat} (hs : Sub m w) (e : bit m 6 = true) : may w Reg.tsStatusCapNe.key = true :=
  may_of hs e rfl

theorem Reg.tsStatusCapOvf_may {m w : Nat} (hs : Sub m w) (e : bit m 6 = true) : may w Reg.tsStatusCapOvf.key = true :=
  may_of hs e rfl

theorem Reg.tsTxqEntry0Bad_may {m w : Nat} {n : Nat} (hs : Sub m w) (e : bit m 6 = true) : may w (Reg.tsTxqEntry0Bad n).key = true :=
  may_cell hs e 0x610004 0x20 128 (6) n (by decide) (by decide) (by decide)

theorem Reg.tsTxqEntry0Empty_may {m w : Nat} {n : Nat} (hs : Sub m w) (e : bit m 6 = true) : may w (Reg.tsTxqEntry0Empty n).key = true :=
  may_cell hs e 0x610004 0x20 128 (3) n (by decide) (by decide) (by decide)

theorem Reg.tsTxqEntry0Id_may {m w : Nat} {n : Nat} (hs : Sub m w) (e : bit m 6 = true) : may w (Reg.tsTxqEntry0Id n).key = true :=
  may_cell hs e 0x610004 0x20 128 (16) n (by decide) (by decide) (by decide)

theorem Reg.tsTxqEntry0Tb_may {m w : Nat} {n : Nat} (hs : Sub m w) (e : bit m 6 = true) : may w (Reg.tsTxqEntry0Tb n).key = true :=
  may_cell hs e 0x610004 0x20 128 (0) n (by decide) (by decide) (by decide)

theorem Reg.tsTxqEntry0Valid_may {m w : Nat} {n : Nat} (hs : Sub m w) (e : bit m 6 = true) : may w (Reg.tsTxqEntry0Valid n).key = true :=
  may_cell hs e 0x610004 0x20 128 (7) n (by decide) (by decide) (by decide)

theorem Reg.tsTxqEntry1Sec_may {m w : Nat} {n : Nat} (hs : Sub m w) (e : bit m 6 = true) : may w (Reg.tsTxqEntry1Sec n).key = true :=
  may_cell hs e 0x610008 0x20 128 (0) n (by decide) (by decide) (by decide)

theorem Reg.tsTxqEntry2Ns_may {m w : Nat} {n : Nat} (hs : Sub m w) (e : bit m 6 = true) : may w (Reg.tsTxqEntry2Ns n).key = true :=
  may_cell hs e 0x61000c 0x20 128 (0) n (by decide) (by decide) (by decide)

theorem Reg.tsTxqEntry3Frac_may {m w : Nat} {n : Nat} (hs : Sub m w) (e : bit m 6 = true) : may w (Reg.tsTxqEntry3Frac n).key = true :=
  may_cell hs e 0x610010 0x20 128 (0) n (by decide) (by decide) (by decide)

theorem Reg.tsTxqNeNe_may {m w : Nat} {n : Nat} (hs : Sub m w) (e : bit m 6 = true) : may w (Reg.tsTxqNeNe n).key = true :=
  may_cell hs e 0x600010 0x4 4 (0) n (by decide) (by decide) (by decide)

theorem Reg.tsTxqStatusCount_may {m w : Nat} {n : Nat} (hs : Sub m w) (e : bit m 6 = true) : may w (Reg.tsTxqStatusCount n).key = true :=
  may_cell hs e 0x610000 0x20 128 (0) n (by decide) (by decide) (by decide)

theorem Reg.tsTxqStatusDropped_may {m w : Nat} {n : Nat} (hs : Sub m w) (e : bit m 6 = true) : may w (Reg.tsTxqStatusDropped n).key = true :=
  may_cell hs e 0x610000 0x20 128 (16) n (by decide) (by decide) (by decide)

theorem Reg.tsTxqStatusOvf_may {m w : Nat} {n : Nat} (hs : Sub m w) (e : bit m 6 = true) : may w (Reg.tsTxqStatusOvf n).key = true :=
  may_cell hs e 0x610000 0x20 128 (8) n (by decide) (by decide) (by decide)

theorem Reg.ttHops_may {m w : Nat} {n : Nat} (hs : Sub m w) (e : bit m 5 = true) : may w (Reg.ttHops n).key = true :=
  may_cell hs e 0x500008 4 2 (8 * (n % 4)) (n / 4) (by omega) (by omega) (by omega)

theorem Reg.ttLaneAlphaHiAlphaHi_may {m w : Nat} {n : Nat} (hs : Sub m w) (e : bit m 5 = true) : may w (Reg.ttLaneAlphaHiAlphaHi n).key = true :=
  may_cell hs e 0x501010 0x80 128 (0) n (by decide) (by decide) (by decide)

theorem Reg.ttLaneAlphaLoAlphaLo_may {m w : Nat} {n : Nat} (hs : Sub m w) (e : bit m 5 = true) : may w (Reg.ttLaneAlphaLoAlphaLo n).key = true :=
  may_cell hs e 0x50100c 0x80 128 (0) n (by decide) (by decide) (by decide)

theorem Reg.ttLaneCfgPdAvg_may {m w : Nat} {n : Nat} (hs : Sub m w) (e : bit m 5 = true) : may w (Reg.ttLaneCfgPdAvg n).key = true :=
  may_cell hs e 0x501000 0x80 128 (8) n (by decide) (by decide) (by decide)

theorem Reg.ttLaneCfgTb_may {m w : Nat} {n : Nat} (hs : Sub m w) (e : bit m 5 = true) : may w (Reg.ttLaneCfgTb n).key = true :=
  may_cell hs e 0x501000 0x80 128 (4) n (by decide) (by decide) (by decide)

theorem Reg.ttLaneCfgTtEn_may {m w : Nat} {n : Nat} (hs : Sub m w) (e : bit m 5 = true) : may w (Reg.ttLaneCfgTtEn n).key = true :=
  may_cell hs e 0x501000 0x80 128 (0) n (by decide) (by decide) (by decide)

theorem Reg.ttLaneCountsAnchors_may {m w : Nat} {n : Nat} (hs : Sub m w) (e : bit m 5 = true) : may w (Reg.ttLaneCountsAnchors n).key = true :=
  may_cell hs e 0x501044 0x80 128 (0) n (by decide) (by decide) (by decide)

theorem Reg.ttLaneCountsDiscards_may {m w : Nat} {n : Nat} (hs : Sub m w) (e : bit m 5 = true) : may w (Reg.ttLaneCountsDiscards n).key = true :=
  may_cell hs e 0x501044 0x80 128 (16) n (by decide) (by decide) (by decide)

theorem Reg.ttLaneDInHiDInHi_may {m w : Nat} {n : Nat} (hs : Sub m w) (e : bit m 5 = true) : may w (Reg.ttLaneDInHiDInHi n).key = true :=
  may_cell hs e 0x501034 0x80 128 (0) n (by decide) (by decide) (by decide)

theorem Reg.ttLaneDInLoDInLo_may {m w : Nat} {n : Nat} (hs : Sub m w) (e : bit m 5 = true) : may w (Reg.ttLaneDInLoDInLo n).key = true :=
  may_cell hs e 0x501030 0x80 128 (0) n (by decide) (by decide) (by decide)

theorem Reg.ttLaneEHiEHi_may {m w : Nat} {n : Nat} (hs : Sub m w) (e : bit m 5 = true) : may w (Reg.ttLaneEHiEHi n).key = true :=
  may_cell hs e 0x50103c 0x80 128 (0) n (by decide) (by decide) (by decide)

theorem Reg.ttLaneELoELo_may {m w : Nat} {n : Nat} (hs : Sub m w) (e : bit m 5 = true) : may w (Reg.ttLaneELoELo n).key = true :=
  may_cell hs e 0x501038 0x80 128 (0) n (by decide) (by decide) (by decide)

theorem Reg.ttLaneErrsAuditErr_may {m w : Nat} {n : Nat} (hs : Sub m w) (e : bit m 5 = true) : may w (Reg.ttLaneErrsAuditErr n).key = true :=
  may_cell hs e 0x501048 0x80 128 (16) n (by decide) (by decide) (by decide)

theorem Reg.ttLaneErrsRttRebase_may {m w : Nat} {n : Nat} (hs : Sub m w) (e : bit m 5 = true) : may w (Reg.ttLaneErrsRttRebase n).key = true :=
  may_cell hs e 0x501048 0x80 128 (0) n (by decide) (by decide) (by decide)

theorem Reg.ttLaneExtRxExtRx_may {m w : Nat} {n : Nat} (hs : Sub m w) (e : bit m 5 = true) : may w (Reg.ttLaneExtRxExtRx n).key = true :=
  may_cell hs e 0x501008 0x80 128 (0) n (by decide) (by decide) (by decide)

theorem Reg.ttLaneExtTxExtTx_may {m w : Nat} {n : Nat} (hs : Sub m w) (e : bit m 5 = true) : may w (Reg.ttLaneExtTxExtTx n).key = true :=
  may_cell hs e 0x501004 0x80 128 (0) n (by decide) (by decide) (by decide)

theorem Reg.ttLanePGmHiPGmHi_may {m w : Nat} {n : Nat} (hs : Sub m w) (e : bit m 5 = true) : may w (Reg.ttLanePGmHiPGmHi n).key = true :=
  may_cell hs e 0x50105c 0x80 128 (0) n (by decide) (by decide) (by decide)

theorem Reg.ttLanePGmLoPGmLo_may {m w : Nat} {n : Nat} (hs : Sub m w) (e : bit m 5 = true) : may w (Reg.ttLanePGmLoPGmLo n).key = true :=
  may_cell hs e 0x501058 0x80 128 (0) n (by decide) (by decide) (by decide)

theorem Reg.ttLanePNodeHiPNodeHi_may {m w : Nat} {n : Nat} (hs : Sub m w) (e : bit m 5 = true) : may w (Reg.ttLanePNodeHiPNodeHi n).key = true :=
  may_cell hs e 0x501054 0x80 128 (0) n (by decide) (by decide) (by decide)

theorem Reg.ttLanePNodeLoPNodeLo_may {m w : Nat} {n : Nat} (hs : Sub m w) (e : bit m 5 = true) : may w (Reg.ttLanePNodeLoPNodeLo n).key = true :=
  may_cell hs e 0x501050 0x80 128 (0) n (by decide) (by decide) (by decide)

theorem Reg.ttLanePhasePhase_may {m w : Nat} {n : Nat} (hs : Sub m w) (e : bit m 5 = true) : may w (Reg.ttLanePhasePhase n).key = true :=
  may_cell hs e 0x501020 0x80 128 (0) n (by decide) (by decide) (by decide)

theorem Reg.ttLaneRateRate_may {m w : Nat} {n : Nat} (hs : Sub m w) (e : bit m 5 = true) : may w (Reg.ttLaneRateRate n).key = true :=
  may_cell hs e 0x501024 0x80 128 (0) n (by decide) (by decide) (by decide)

theorem Reg.ttLaneRttHiRttHi_may {m w : Nat} {n : Nat} (hs : Sub m w) (e : bit m 5 = true) : may w (Reg.ttLaneRttHiRttHi n).key = true :=
  may_cell hs e 0x50102c 0x80 128 (0) n (by decide) (by decide) (by decide)

theorem Reg.ttLaneRttJumpRttJump_may {m w : Nat} {n : Nat} (hs : Sub m w) (e : bit m 5 = true) : may w (Reg.ttLaneRttJumpRttJump n).key = true :=
  may_cell hs e 0x501018 0x80 128 (0) n (by decide) (by decide) (by decide)

theorem Reg.ttLaneRttLoRttLo_may {m w : Nat} {n : Nat} (hs : Sub m w) (e : bit m 5 = true) : may w (Reg.ttLaneRttLoRttLo n).key = true :=
  may_cell hs e 0x501028 0x80 128 (0) n (by decide) (by decide) (by decide)

theorem Reg.ttLaneRttMaxRttMax_may {m w : Nat} {n : Nat} (hs : Sub m w) (e : bit m 5 = true) : may w (Reg.ttLaneRttMaxRttMax n).key = true :=
  may_cell hs e 0x501014 0x80 128 (0) n (by decide) (by decide) (by decide)

theorem Reg.ttLaneSamplesSamples_may {m w : Nat} {n : Nat} (hs : Sub m w) (e : bit m 5 = true) : may w (Reg.ttLaneSamplesSamples n).key = true :=
  may_cell hs e 0x501040 0x80 128 (0) n (by decide) (by decide) (by decide)

theorem Reg.ttLaneSeqRxSeq_may {m w : Nat} {n : Nat} (hs : Sub m w) (e : bit m 5 = true) : may w (Reg.ttLaneSeqRxSeq n).key = true :=
  may_cell hs e 0x50104c 0x80 128 (16) n (by decide) (by decide) (by decide)

theorem Reg.ttLaneSeqTxSeq_may {m w : Nat} {n : Nat} (hs : Sub m w) (e : bit m 5 = true) : may w (Reg.ttLaneSeqTxSeq n).key = true :=
  may_cell hs e 0x50104c 0x80 128 (0) n (by decide) (by decide) (by decide)

theorem Reg.ttLaneStatusChainLong_may {m w : Nat} {n : Nat} (hs : Sub m w) (e : bit m 5 = true) : may w (Reg.ttLaneStatusChainLong n).key = true :=
  may_cell hs e 0x50101c 0x80 128 (13) n (by decide) (by decide) (by decide)

theorem Reg.ttLaneStatusFormatMismatch_may {m w : Nat} {n : Nat} (hs : Sub m w) (e : bit m 5 = true) : may w (Reg.ttLaneStatusFormatMismatch n).key = true :=
  may_cell hs e 0x50101c 0x80 128 (12) n (by decide) (by decide) (by decide)

theorem Reg.ttLaneStatusLastDisc_may {m w : Nat} {n : Nat} (hs : Sub m w) (e : bit m 5 = true) : may w (Reg.ttLaneStatusLastDisc n).key = true :=
  may_cell hs e 0x50101c 0x80 128 (28) n (by decide) (by decide) (by decide)

theorem Reg.ttLaneStatusPHops_may {m w : Nat} {n : Nat} (hs : Sub m w) (e : bit m 5 = true) : may w (Reg.ttLaneStatusPHops n).key = true :=
  may_cell hs e 0x50101c 0x80 128 (16) n (by decide) (by decide) (by decide)

theorem Reg.ttLaneStatusPSource_may {m w : Nat} {n : Nat} (hs : Sub m w) (e : bit m 5 = true) : may w (Reg.ttLaneStatusPSource n).key = true :=
  may_cell hs e 0x50101c 0x80 128 (14) n (by decide) (by decide) (by decide)

theorem Reg.ttLaneStatusPTbValid_may {m w : Nat} {n : Nat} (hs : Sub m w) (e : bit m 5 = true) : may w (Reg.ttLaneStatusPTbValid n).key = true :=
  may_cell hs e 0x50101c 0x80 128 (15) n (by decide) (by decide) (by decide)

theorem Reg.ttLaneStatusState_may {m w : Nat} {n : Nat} (hs : Sub m w) (e : bit m 5 = true) : may w (Reg.ttLaneStatusState n).key = true :=
  may_cell hs e 0x50101c 0x80 128 (0) n (by decide) (by decide) (by decide)

end Sys2Proof.Machine
end

