-- ==== Sys2Proof/Laws/KeepOps.lean ====
section
/-! SUPPORT. What the operations of Machine/Ops.lean keep. -/

set_option linter.all false
set_option Elab.async false

namespace Sys2Proof.Machine

theorem State.wrs_keeps {w₀ : Nat} {a s : State} (l : List (Fld × Nat)) (hl : AllMay w₀ l) (h : Keeps w₀ a s) :
    Keeps w₀ a (State.wrs s l) := by
  induction l generalizing s with
  | nil => exact h
  | cons e l ih => exact ih (fun x hx => hl x (List.mem_cons_of_mem _ hx)) (Keeps.wr _ _ (hl e List.mem_cons_self) h)

theorem State.bumpBy_keeps {w₀ : Nat} {s₀ s : State} (hw : Sub 0x0 w₀) (f : Fld) (k : Nat) (hf_f : may w₀ f.key = true) (h₀ : Keeps w₀ s₀ s) :
    Keeps w₀ s₀ (State.bumpBy s f k) := by
  unfold State.bumpBy
  repeat' (first
    | with_reducible assumption
    | with_reducible apply Keeps.wr
    | exact hw.le rfl
    | with_reducible apply ResKeeps.next
    | with_reducible apply Keeps.each
    | with_reducible apply Keeps.when
    | with_reducible apply Keeps.foldl
    | split
    | intro _ _ _
    | intro _ _
    | intro _
    | with_reducible refine Keeps.of_pair (by with_reducible assumption) ?_
    | with_reducible refine Keeps.of_triple (by with_reducible assumption) ?_
    | dsimp only)

theorem State.bump_keeps {w₀ : Nat} {s₀ s : State} (hw : Sub 0x0 w₀) (f : Fld) (hf_f : may w₀ f.key = true) (h₀ : Keeps w₀ s₀ s) :
    Keeps w₀ s₀ (State.bump s f) := by
  unfold State.bump
  repeat' (first
    | with_reducible assumption
    | with_reducible apply State.bumpBy_keeps
    | exact hw.le rfl
    | with_reducible apply ResKeeps.next
    | with_reducible apply Keeps.each
    | with_reducible apply Keeps.when
    | with_reducible apply Keeps.foldl
    | split
    | intro _ _ _
    | intro _ _
    | intro _
    | with_reducible refine Keeps.of_pair (by with_reducible assumption) ?_
    | with_reducible refine Keeps.of_triple (by with_reducible assumption) ?_
    | dsimp only)

theorem State.bumpWrap_keeps {w₀ : Nat} {s₀ s : State} (hw : Sub 0x0 w₀) (f : Fld) (hf_f : may w₀ f.key = true) (h₀ : Keeps w₀ s₀ s) :
    Keeps w₀ s₀ (State.bumpWrap s f) := by
  unfold State.bumpWrap
  repeat' (first
    | with_reducible assumption
    | with_reducible apply Keeps.wr
    | exact hw.le rfl
    | with_reducible apply ResKeeps.next
    | with_reducible apply Keeps.each
    | with_reducible apply Keeps.when
    | with_reducible apply Keeps.foldl
    | split
    | intro _ _ _
    | intro _ _
    | intro _
    | with_reducible refine Keeps.of_pair (by with_reducible assumption) ?_
    | with_reducible refine Keeps.of_triple (by with_reducible assumption) ?_
    | dsimp only)

theorem State.wrBit_keeps {w₀ : Nat} {s₀ s : State} (hw : Sub 0x0 w₀) (f : Fld) (i : Nat) (b : Bool) (hf_f : may w₀ f.key = true) (h₀ : Keeps w₀ s₀ s) :
    Keeps w₀ s₀ (State.wrBit s f i b) := by
  unfold State.wrBit
  repeat' (first
    | with_reducible assumption
    | with_reducible apply Keeps.wr
    | exact hw.le rfl
    | with_reducible apply ResKeeps.next
    | with_reducible apply Keeps.each
    | with_reducible apply Keeps.when
    | with_reducible apply Keeps.foldl
    | split
    | intro _ _ _
    | intro _ _
    | intro _
    | with_reducible refine Keeps.of_pair (by with_reducible assumption) ?_
    | with_reducible refine Keeps.of_triple (by with_reducible assumption) ?_
    | dsimp only)

theorem State.startSeconds_keeps {w₀ : Nat} {s₀ s : State} (hw : Sub 0x100000000000000000000 w₀) (f : Fld) (i : Nat) (v : Nat) (hf_f : may w₀ f.key = true) (h₀ : Keeps w₀ s₀ s) :
    Keeps w₀ s₀ (State.startSeconds s f i v) := by
  unfold State.startSeconds
  repeat' (first
    | with_reducible assumption
    | with_reducible apply Keeps.wr
    | (simp only [Keeps.mk_eq]; with_reducible apply KeepsMk.upd)
    | exact hw.le rfl
    | exact Or.inl (hw.bit rfl)
    | with_reducible exact Or.inr rfl
    | with_reducible apply ResKeeps.next
    | with_reducible apply Keeps.each
    | with_reducible apply Keeps.when
    | with_reducible apply Keeps.foldl
    | split
    | intro _ _ _
    | intro _ _
    | intro _
    | with_reducible refine Keeps.of_pair (by with_reducible assumption) ?_
    | with_reducible refine Keeps.of_triple (by with_reducible assumption) ?_
    | dsimp only)

theorem State.clr_keeps {w₀ : Nat} {s₀ s : State} (hw : Sub 0x0 w₀) (f : Fld) (hf_f : may w₀ f.key = true) (h₀ : Keeps w₀ s₀ s) :
    Keeps w₀ s₀ (State.clr s f) := by
  unfold State.clr
  repeat' (first
    | with_reducible assumption
    | with_reducible apply Keeps.wr
    | exact hw.le rfl
    | with_reducible apply ResKeeps.next
    | with_reducible apply Keeps.each
    | with_reducible apply Keeps.when
    | with_reducible apply Keeps.foldl
    | split
    | intro _ _ _
    | intro _ _
    | intro _
    | with_reducible refine Keeps.of_pair (by with_reducible assumption) ?_
    | with_reducible refine Keeps.of_triple (by with_reducible assumption) ?_
    | dsimp only)

theorem State.clrs_keeps {w₀ : Nat} {a s : State} (l : List Fld) (hl : AllIn w₀ l) (h : Keeps w₀ a s) :
    Keeps w₀ a (State.clrs s l) := by
  induction l generalizing s with
  | nil => exact h
  | cons e l ih => exact ih (fun x hx => hl x (List.mem_cons_of_mem _ hx)) (Keeps.wr _ _ (hl e List.mem_cons_self) h)

theorem State.latch_keeps {w₀ : Nat} {a s : State} (hw : Sub 0x80000000000000000000 w₀) (p : Nat) (l : List (Fld × Nat)) (h : Keeps w₀ a s) :
    Keeps w₀ a (State.latch s p l) := by
  induction l generalizing s with
  | nil => exact h
  | cons e l ih =>
    refine ih (KeepsMk.upd h ?_ ?_ ?_ ?_ ?_ ?_ ?_ ?_ ?_ ?_ ?_ ?_ ?_ ?_ ?_ ?_ ?_ ?_ ?_ ?_ ?_ ?_ ?_ ?_)
    all_goals first | exact Or.inl (hw.bit rfl) | exact Or.inr rfl

theorem State.draw_keeps {w₀ : Nat} {s₀ s : State} (hw : Sub 0x40000000000000000 w₀) (h₀ : Keeps w₀ s₀ s) :
    Keeps w₀ s₀ (State.draw s) := by
  unfold State.draw
  repeat' (first
    | with_reducible assumption
    | (simp only [Keeps.mk_eq]; with_reducible apply KeepsMk.upd)
    | exact hw.le rfl
    | exact Or.inl (hw.bit rfl)
    | with_reducible exact Or.inr rfl
    | with_reducible apply ResKeeps.next
    | with_reducible apply Keeps.each
    | with_reducible apply Keeps.when
    | with_reducible apply Keeps.foldl
    | split
    | intro _ _ _
    | intro _ _
    | intro _
    | with_reducible refine Keeps.of_pair (by with_reducible assumption) ?_
    | with_reducible refine Keeps.of_triple (by with_reducible assumption) ?_
    | dsimp only)

theorem State.send_keeps {w₀ : Nat} {s₀ s : State} (hw : Sub 0x20000000000000000 w₀) (o : Out) (h₀ : Keeps w₀ s₀ s) :
    Keeps w₀ s₀ (State.send s o) := by
  unfold State.send
  repeat' (first
    | with_reducible assumption
    | (simp only [Keeps.mk_eq]; with_reducible apply KeepsMk.upd)
    | exact hw.le rfl
    | exact Or.inl (hw.bit rfl)
    | with_reducible exact Or.inr rfl
    | with_reducible apply ResKeeps.next
    | with_reducible apply Keeps.each
    | with_reducible apply Keeps.when
    | with_reducible apply Keeps.foldl
    | split
    | intro _ _ _
    | intro _ _
    | intro _
    | with_reducible refine Keeps.of_pair (by with_reducible assumption) ?_
    | with_reducible refine Keeps.of_triple (by with_reducible assumption) ?_
    | dsimp only)

theorem State.msix_keeps {w₀ : Nat} {s₀ s : State} (hw : Sub 0x80020000000000000000 w₀) (v : Nat) (h₀ : Keeps w₀ s₀ s) :
    Keeps w₀ s₀ (State.msix s v) := by
  unfold State.msix
  repeat' (first
    | with_reducible assumption
    | with_reducible apply State.send_keeps
    | (simp only [Keeps.mk_eq]; with_reducible apply KeepsMk.upd)
    | exact hw.le rfl
    | exact Or.inl (hw.bit rfl)
    | with_reducible exact Or.inr rfl
    | with_reducible apply ResKeeps.next
    | with_reducible apply Keeps.each
    | with_reducible apply Keeps.when
    | with_reducible apply Keeps.foldl
    | split
    | intro _ _ _
    | intro _ _
    | intro _
    | with_reducible refine Keeps.of_pair (by with_reducible assumption) ?_
    | with_reducible refine Keeps.of_triple (by with_reducible assumption) ?_
    | dsimp only)

theorem State.setTb_keeps {w₀ : Nat} {s₀ s : State} (hw : Sub 0x40000000000000000000 w₀) (k : Nat) (n : Nat) (b : TBase) (h₀ : Keeps w₀ s₀ s) :
    Keeps w₀ s₀ (State.setTb s k n b) := by
  unfold State.setTb
  repeat' (first
    | with_reducible assumption
    | (simp only [Keeps.mk_eq]; with_reducible apply KeepsMk.upd)
    | exact hw.le rfl
    | exact Or.inl (hw.bit rfl)
    | with_reducible exact Or.inr rfl
    | with_reducible apply ResKeeps.next
    | with_reducible apply Keeps.each
    | with_reducible apply Keeps.when
    | with_reducible apply Keeps.foldl
    | split
    | intro _ _ _
    | intro _ _
    | intro _
    | with_reducible refine Keeps.of_pair (by with_reducible assumption) ?_
    | with_reducible refine Keeps.of_triple (by with_reducible assumption) ?_
    | dsimp only)

theorem State.jwrite_keeps {w₀ : Nat} {s₀ s : State} (hw : Sub 0x1000000020000000000 w₀) (r : JRec) (h₀ : Keeps w₀ s₀ s) :
    Keeps w₀ s₀ (State.jwrite s r) := by
  unfold State.jwrite
  repeat' (first
    | with_reducible assumption
    | with_reducible apply State.bump_keeps
    | with_reducible exact Reg.fltCountsJrnlDrop_may hw rfl
    | (simp only [Keeps.mk_eq]; with_reducible apply KeepsMk.upd)
    | exact hw.le rfl
    | exact Or.inl (hw.bit rfl)
    | with_reducible exact Or.inr rfl
    | with_reducible apply ResKeeps.next
    | with_reducible apply Keeps.each
    | with_reducible apply Keeps.when
    | with_reducible apply Keeps.foldl
    | split
    | intro _ _ _
    | intro _ _
    | intro _
    | with_reducible refine Keeps.of_pair (by with_reducible assumption) ?_
    | with_reducible refine Keeps.of_triple (by with_reducible assumption) ?_
    | dsimp only)

theorem State.intr_keeps {w₀ : Nat} {s₀ s : State} (hw : Sub 0x80028000000000000000 w₀) (v : Nat) (h₀ : Keeps w₀ s₀ s) :
    Keeps w₀ s₀ (State.intr s v) := by
  unfold State.intr
  repeat' (first
    | with_reducible assumption
    | with_reducible apply State.wrBit_keeps
    | with_reducible apply State.msix_keeps
    | with_reducible exact Reg.hifIntStatusStatus_may hw rfl
    | exact hw.le rfl
    | with_reducible apply ResKeeps.next
    | with_reducible apply Keeps.each
    | with_reducible apply Keeps.when
    | with_reducible apply Keeps.foldl
    | split
    | intro _ _ _
    | intro _ _
    | intro _
    | with_reducible refine Keeps.of_pair (by with_reducible assumption) ?_
    | with_reducible refine Keeps.of_triple (by with_reducible assumption) ?_
    | dsimp only)

theorem State.setLine_keeps {w₀ : Nat} {s₀ s : State} (hw : Sub 0x10000000000000000000 w₀) (src : Nat) (l : FltLine) (h₀ : Keeps w₀ s₀ s) :
    Keeps w₀ s₀ (State.setLine s src l) := by
  unfold State.setLine
  repeat' (first
    | with_reducible assumption
    | (simp only [Keeps.mk_eq]; with_reducible apply KeepsMk.upd)
    | exact hw.le rfl
    | exact Or.inl (hw.bit rfl)
    | with_reducible exact Or.inr rfl
    | with_reducible apply ResKeeps.next
    | with_reducible apply Keeps.each
    | with_reducible apply Keeps.when
    | with_reducible apply Keeps.foldl
    | split
    | intro _ _ _
    | intro _ _
    | intro _
    | with_reducible refine Keeps.of_pair (by with_reducible assumption) ?_
    | with_reducible refine Keeps.of_triple (by with_reducible assumption) ?_
    | dsimp only)

theorem State.report_keeps {w₀ : Nat} {s₀ s : State} (hw : Sub 0x10000000000000000000 w₀) (src : Nat) (synd : Nat) (h₀ : Keeps w₀ s₀ s) :
    Keeps w₀ s₀ (State.report s src synd) := by
  unfold State.report
  repeat' (first
    | with_reducible assumption
    | with_reducible apply State.setLine_keeps
    | (simp only [Keeps.mk_eq]; with_reducible apply KeepsMk.upd)
    | exact hw.le rfl
    | exact Or.inl (hw.bit rfl)
    | with_reducible exact Or.inr rfl
    | with_reducible apply ResKeeps.next
    | with_reducible apply Keeps.each
    | with_reducible apply Keeps.when
    | with_reducible apply Keeps.foldl
    | split
    | intro _ _ _
    | intro _ _
    | intro _
    | with_reducible refine Keeps.of_pair (by with_reducible assumption) ?_
    | with_reducible refine Keeps.of_triple (by with_reducible assumption) ?_
    | dsimp only)

theorem State.unreport_keeps {w₀ : Nat} {s₀ s : State} (hw : Sub 0x10000000000000000000 w₀) (src : Nat) (h₀ : Keeps w₀ s₀ s) :
    Keeps w₀ s₀ (State.unreport s src) := by
  unfold State.unreport
  repeat' (first
    | with_reducible assumption
    | with_reducible apply State.setLine_keeps
    | (simp only [Keeps.mk_eq]; with_reducible apply KeepsMk.upd)
    | exact hw.le rfl
    | exact Or.inl (hw.bit rfl)
    | with_reducible exact Or.inr rfl
    | with_reducible apply ResKeeps.next
    | with_reducible apply Keeps.each
    | with_reducible apply Keeps.when
    | with_reducible apply Keeps.foldl
    | split
    | intro _ _ _
    | intro _ _
    | intro _
    | with_reducible refine Keeps.of_pair (by with_reducible assumption) ?_
    | with_reducible refine Keeps.of_triple (by with_reducible assumption) ?_
    | dsimp only)

theorem State.setMaskBit_keeps {w₀ : Nat} {s₀ s : State} (hw : Sub 0x0 w₀) (f : Nat → Fld) (i : Nat) (b : Bool) (hf_f : ∀ i, may w₀ (f i).key = true) (h₀ : Keeps w₀ s₀ s) :
    Keeps w₀ s₀ (State.setMaskBit s f i b) := by
  unfold State.setMaskBit
  repeat' (first
    | with_reducible assumption
    | with_reducible apply hf_f
    | with_reducible apply State.wrBit_keeps
    | exact hw.le rfl
    | with_reducible apply ResKeeps.next
    | with_reducible apply Keeps.each
    | with_reducible apply Keeps.when
    | with_reducible apply Keeps.foldl
    | split
    | intro _ _ _
    | intro _ _
    | intro _
    | with_reducible refine Keeps.of_pair (by with_reducible assumption) ?_
    | with_reducible refine Keeps.of_triple (by with_reducible assumption) ?_
    | dsimp only)

theorem State.setLevel_keeps {w₀ : Nat} {s₀ s : State} (hw : Sub 0x20000000000 w₀) (src : Nat) (lvl : Nat) (h₀ : Keeps w₀ s₀ s) :
    Keeps w₀ s₀ (State.setLevel s src lvl) := by
  unfold State.setLevel
  repeat' (first
    | with_reducible assumption
    | with_reducible apply Keeps.wr
    | with_reducible apply State.setMaskBit_keeps
    | with_reducible exact Reg.fltFaultMap_may hw rfl
    | with_reducible exact Reg.fltSrcLevel_may hw rfl
    | exact hw.le rfl
    | with_reducible apply ResKeeps.next
    | with_reducible apply Keeps.each
    | with_reducible apply Keeps.when
    | with_reducible apply Keeps.foldl
    | split
    | intro _ _ _
    | intro _ _
    | intro _
    | with_reducible refine Keeps.of_pair (by with_reducible assumption) ?_
    | with_reducible refine Keeps.of_triple (by with_reducible assumption) ?_
    | dsimp only)

theorem State.setActive_keeps {w₀ : Nat} {s₀ s : State} (hw : Sub 0x20000000000 w₀) (src : Nat) (b : Bool) (h₀ : Keeps w₀ s₀ s) :
    Keeps w₀ s₀ (State.setActive s src b) := by
  unfold State.setActive
  repeat' (first
    | with_reducible assumption
    | with_reducible apply Keeps.wr
    | with_reducible apply State.setMaskBit_keeps
    | with_reducible exact Reg.fltActiveMap_may hw rfl
    | with_reducible exact Reg.fltSrcActive_may hw rfl
    | exact hw.le rfl
    | with_reducible apply ResKeeps.next
    | with_reducible apply Keeps.each
    | with_reducible apply Keeps.when
    | with_reducible apply Keeps.foldl
    | split
    | intro _ _ _
    | intro _ _
    | intro _
    | with_reducible refine Keeps.of_pair (by with_reducible assumption) ?_
    | with_reducible refine Keeps.of_triple (by with_reducible assumption) ?_
    | dsimp only)

theorem State.setUnit_keeps {w₀ : Nat} {s₀ s : State} (hw : Sub 0x10000000000 w₀) (u : Nat) (st : Nat) (h₀ : Keeps w₀ s₀ s) :
    Keeps w₀ s₀ (State.setUnit s u st) := by
  unfold State.setUnit
  repeat' (first
    | with_reducible assumption
    | with_reducible apply Keeps.wr
    | with_reducible apply State.bumpWrap_keeps
    | with_reducible exact Reg.redUnitStatusGen_may hw rfl
    | with_reducible exact Reg.redUnitStatusState_may hw rfl
    | exact hw.le rfl
    | with_reducible apply ResKeeps.next
    | with_reducible apply Keeps.each
    | with_reducible apply Keeps.when
    | with_reducible apply Keeps.foldl
    | split
    | intro _ _ _
    | intro _ _
    | intro _
    | with_reducible refine Keeps.of_pair (by with_reducible assumption) ?_
    | with_reducible refine Keeps.of_triple (by with_reducible assumption) ?_
    | dsimp only)

theorem State.unitStart_keeps {w₀ : Nat} {s₀ s : State} (hw : Sub 0x10000000000 w₀) (u : Nat) (h₀ : Keeps w₀ s₀ s) :
    Keeps w₀ s₀ (State.unitStart s u) := by
  unfold State.unitStart
  repeat' (first
    | with_reducible assumption
    | with_reducible apply Keeps.wr
    | with_reducible apply State.setUnit_keeps
    | with_reducible exact Reg.redUnitStatusHbOk_may hw rfl
    | exact hw.le rfl
    | with_reducible apply ResKeeps.next
    | with_reducible apply Keeps.each
    | with_reducible apply Keeps.when
    | with_reducible apply Keeps.foldl
    | split
    | intro _ _ _
    | intro _ _
    | intro _
    | with_reducible refine Keeps.of_pair (by with_reducible assumption) ?_
    | with_reducible refine Keeps.of_triple (by with_reducible assumption) ?_
    | dsimp only)

theorem State.unitOff_keeps {w₀ : Nat} {s₀ s : State} (hw : Sub 0x10000000000 w₀) (u : Nat) (h₀ : Keeps w₀ s₀ s) :
    Keeps w₀ s₀ (State.unitOff s u) := by
  unfold State.unitOff
  repeat' (first
    | with_reducible assumption
    | with_reducible apply State.wrs_keeps
    | with_reducible apply State.setUnit_keeps
    | with_reducible exact Reg.redUnitStatusHbOk_may hw rfl
    | with_reducible exact Reg.redUnitWtrWtrLeft_may hw rfl
    | with_reducible exact AllMay.nil _
    | with_reducible apply AllMay.cons
    | with_reducible apply AllMay.append
    | with_reducible apply AllMay.map
    | exact hw.le rfl
    | with_reducible apply ResKeeps.next
    | with_reducible apply Keeps.each
    | with_reducible apply Keeps.when
    | with_reducible apply Keeps.foldl
    | split
    | intro _ _ _
    | intro _ _
    | intro _
    | with_reducible refine Keeps.of_pair (by with_reducible assumption) ?_
    | with_reducible refine Keeps.of_triple (by with_reducible assumption) ?_
    | dsimp only)

end Sys2Proof.Machine
end

