-- ==== Sys2Proof/Laws/KeepPmon.lean ====
section
/-! SUPPORT. What the operations of Machine/Pmon.lean keep. -/

set_option linter.all false
set_option Elab.async false

namespace Sys2Proof.Machine

theorem State.cntAdd_keeps {w₀ : Nat} {s₀ s : State} (hw : Sub 0x40000000000 w₀) (i : Nat) (k : Nat) (h₀ : Keeps w₀ s₀ s) :
    Keeps w₀ s₀ (State.cntAdd s i k) := by
  unfold State.cntAdd
  repeat' (first
    | with_reducible assumption
    | with_reducible apply Keeps.wr
    | with_reducible apply Keeps.bump48
    | with_reducible exact Reg.pmonCntCfgSat_may hw rfl
    | with_reducible exact Reg.pmonCntLoCount_mayc hw rfl
    | exact hw.le rfl
    | with_reducible apply ResKeeps.next
    | with_reducible apply Keeps.each
    | with_reducible apply Keeps.when
    | with_reducible apply Keeps.foldl
    | split
    | intro _ _ _
    | intro _ _
    | intro _
    | with_reducible refine Keeps.of_pair (by with_reducible assumption) ?_
    | with_reducible refine Keeps.of_triple (by with_reducible assumption) ?_
    | dsimp only)

theorem State.evN_keeps {w₀ : Nat} {s₀ s : State} (hw : Sub 0x40000000000 w₀) (id : Nat) (k : Nat) (h₀ : Keeps w₀ s₀ s) :
    Keeps w₀ s₀ (State.evN s id k) := by
  unfold State.evN
  repeat' (first
    | with_reducible assumption
    | with_reducible apply State.cntAdd_keeps
    | exact hw.le rfl
    | with_reducible apply ResKeeps.next
    | with_reducible apply Keeps.each
    | with_reducible apply Keeps.when
    | with_reducible apply Keeps.foldl
    | split
    | intro _ _ _
    | intro _ _
    | intro _
    | with_reducible refine Keeps.of_pair (by with_reducible assumption) ?_
    | with_reducible refine Keeps.of_triple (by with_reducible assumption) ?_
    | dsimp only)

theorem State.ev_keeps {w₀ : Nat} {s₀ s : State} (hw : Sub 0x40000000000 w₀) (id : Nat) (h₀ : Keeps w₀ s₀ s) :
    Keeps w₀ s₀ (State.ev s id) := by
  unfold State.ev
  repeat' (first
    | with_reducible assumption
    | with_reducible apply State.evN_keeps
    | exact hw.le rfl
    | with_reducible apply ResKeeps.next
    | with_reducible apply Keeps.each
    | with_reducible apply Keeps.when
    | with_reducible apply Keeps.foldl
    | split
    | intro _ _ _
    | intro _ _
    | intro _
    | with_reducible refine Keeps.of_pair (by with_reducible assumption) ?_
    | with_reducible refine Keeps.of_triple (by with_reducible assumption) ?_
    | dsimp only)

theorem State.evHigh_keeps {w₀ : Nat} {s₀ s : State} (hw : Sub 0x40000000000 w₀) (id : Nat) (rise : Bool) (cycles : Nat) (h₀ : Keeps w₀ s₀ s) :
    Keeps w₀ s₀ (State.evHigh s id rise cycles) := by
  unfold State.evHigh
  repeat' (first
    | with_reducible assumption
    | with_reducible apply State.cntAdd_keeps
    | exact hw.le rfl
    | with_reducible apply ResKeeps.next
    | with_reducible apply Keeps.each
    | with_reducible apply Keeps.when
    | with_reducible apply Keeps.foldl
    | split
    | intro _ _ _
    | intro _ _
    | intro _
    | with_reducible refine Keeps.of_pair (by with_reducible assumption) ?_
    | with_reducible refine Keeps.of_triple (by with_reducible assumption) ?_
    | dsimp only)

theorem State.evLevel_keeps {w₀ : Nat} {s₀ s : State} (hw : Sub 0x1000000000040000000000 w₀) (id : Nat) (now : Bool) (cycles : Nat) (h₀ : Keeps w₀ s₀ s) :
    Keeps w₀ s₀ (State.evLevel s id now cycles) := by
  unfold State.evLevel
  repeat' (first
    | with_reducible assumption
    | with_reducible apply State.evHigh_keeps
    | (simp only [Keeps.mk_eq]; with_reducible apply KeepsMk.upd)
    | exact hw.le rfl
    | exact Or.inl (hw.bit rfl)
    | with_reducible exact Or.inr rfl
    | with_reducible apply ResKeeps.next
    | with_reducible apply Keeps.each
    | with_reducible apply Keeps.when
    | with_reducible apply Keeps.foldl
    | split
    | intro _ _ _
    | intro _ _
    | intro _
    | with_reducible refine Keeps.of_pair (by with_reducible assumption) ?_
    | with_reducible refine Keeps.of_triple (by with_reducible assumption) ?_
    | dsimp only)

theorem State.quadDry_keeps {w₀ : Nat} {s₀ s : State} (hw : Sub 0x1000000000040000000000 w₀) (n : Nat) (k : Nat) (h₀ : Keeps w₀ s₀ s) :
    Keeps w₀ s₀ (State.quadDry s n k) := by
  unfold State.quadDry
  repeat' (first
    | with_reducible assumption
    | with_reducible apply State.evHigh_keeps
    | (simp only [Keeps.mk_eq]; with_reducible apply KeepsMk.upd)
    | exact hw.le rfl
    | exact Or.inl (hw.bit rfl)
    | with_reducible exact Or.inr rfl
    | with_reducible apply ResKeeps.next
    | with_reducible apply Keeps.each
    | with_reducible apply Keeps.when
    | with_reducible apply Keeps.foldl
    | split
    | intro _ _ _
    | intro _ _
    | intro _
    | with_reducible refine Keeps.of_pair (by with_reducible assumption) ?_
    | with_reducible refine Keeps.of_triple (by with_reducible assumption) ?_
    | dsimp only)

theorem State.cntZero_keeps {w₀ : Nat} {s₀ s : State} (hw : Sub 0x40000000000 w₀) (i : Nat) (h₀ : Keeps w₀ s₀ s) :
    Keeps w₀ s₀ (State.cntZero s i) := by
  unfold State.cntZero
  repeat' (first
    | with_reducible assumption
    | with_reducible apply Keeps.wr
    | with_reducible apply Keeps.zero48
    | with_reducible exact Reg.pmonCntCfgSat_may hw rfl
    | with_reducible exact Reg.pmonCntLoCount_mayc hw rfl
    | exact hw.le rfl
    | with_reducible apply ResKeeps.next
    | with_reducible apply Keeps.each
    | with_reducible apply Keeps.when
    | with_reducible apply Keeps.foldl
    | split
    | intro _ _ _
    | intro _ _
    | intro _
    | with_reducible refine Keeps.of_pair (by with_reducible assumption) ?_
    | with_reducible refine Keeps.of_triple (by with_reducible assumption) ?_
    | dsimp only)

theorem execPmonCntCfgWrite_keeps {w₀ : Nat} {s₀ s : State} (hw : Sub 0x40000000000 w₀) (i : Fin 48) (value : Word) (h₀ : Keeps w₀ s₀ s) :
    ResKeeps w₀ s₀ (execPmonCntCfgWrite i value s) := by
  unfold execPmonCntCfgWrite
  repeat' (first
    | with_reducible assumption
    | with_reducible apply State.wrs_keeps
    | with_reducible apply State.cntZero_keeps
    | with_reducible exact Reg.pmonCntCfgEnable_may hw rfl
    | with_reducible exact Reg.pmonCntCfgEvent_may hw rfl
    | with_reducible exact Reg.pmonCntCfgHigh_may hw rfl
    | with_reducible exact AllMay.nil _
    | with_reducible apply AllMay.cons
    | with_reducible apply AllMay.append
    | with_reducible apply AllMay.map
    | exact hw.le rfl
    | with_reducible apply ResKeeps.next
    | with_reducible apply Keeps.each
    | with_reducible apply Keeps.when
    | with_reducible apply Keeps.foldl
    | split
    | intro _ _ _
    | intro _ _
    | intro _
    | with_reducible refine Keeps.of_pair (by with_reducible assumption) ?_
    | with_reducible refine Keeps.of_triple (by with_reducible assumption) ?_
    | dsimp only)

theorem execPmonCntClear_keeps {w₀ : Nat} {s₀ s : State} (hw : Sub 0x40000000000 w₀) (i : Fin 48) (h₀ : Keeps w₀ s₀ s) :
    ResKeeps w₀ s₀ (execPmonCntClear i s) := by
  unfold execPmonCntClear
  repeat' (first
    | with_reducible assumption
    | with_reducible apply State.cntZero_keeps
    | exact hw.le rfl
    | with_reducible apply ResKeeps.next
    | with_reducible apply Keeps.each
    | with_reducible apply Keeps.when
    | with_reducible apply Keeps.foldl
    | split
    | intro _ _ _
    | intro _ _
    | intro _
    | with_reducible refine Keeps.of_pair (by with_reducible assumption) ?_
    | with_reducible refine Keeps.of_triple (by with_reducible assumption) ?_
    | dsimp only)

theorem State.fixedRx_keeps {w₀ : Nat} {s₀ s : State} (hw : Sub 0x40000000000 w₀) (n : Nat) (c : Nat) (len : Nat) (h₀ : Keeps w₀ s₀ s) :
    Keeps w₀ s₀ (State.fixedRx s n c len) := by
  unfold State.fixedRx
  repeat' (first
    | with_reducible assumption
    | with_reducible apply Keeps.bump48
    | with_reducible exact Reg.pmonFixed_mayc hw rfl
    | exact hw.le rfl
    | with_reducible apply ResKeeps.next
    | with_reducible apply Keeps.each
    | with_reducible apply Keeps.when
    | with_reducible apply Keeps.foldl
    | split
    | intro _ _ _
    | intro _ _
    | intro _
    | with_reducible refine Keeps.of_pair (by with_reducible assumption) ?_
    | with_reducible refine Keeps.of_triple (by with_reducible assumption) ?_
    | dsimp only)

theorem State.fixedTx_keeps {w₀ : Nat} {s₀ s : State} (hw : Sub 0x40000000000 w₀) (n : Nat) (c : Nat) (len : Nat) (h₀ : Keeps w₀ s₀ s) :
    Keeps w₀ s₀ (State.fixedTx s n c len) := by
  unfold State.fixedTx
  repeat' (first
    | with_reducible assumption
    | with_reducible apply Keeps.bump48
    | with_reducible exact Reg.pmonFixed_mayc hw rfl
    | exact hw.le rfl
    | with_reducible apply ResKeeps.next
    | with_reducible apply Keeps.each
    | with_reducible apply Keeps.when
    | with_reducible apply Keeps.foldl
    | split
    | intro _ _ _
    | intro _ _
    | intro _
    | with_reducible refine Keeps.of_pair (by with_reducible assumption) ?_
    | with_reducible refine Keeps.of_triple (by with_reducible assumption) ?_
    | dsimp only)

theorem State.gleanTag_keeps {w₀ : Nat} {s₀ s : State} (hw : Sub 0x1000000000040000000000 w₀) (n : Nat) (c : Nat) (host : Bool) (h₀ : Keeps w₀ s₀ s) :
    Keeps w₀ s₀ (State.gleanTag s n c host).2 := by
  unfold State.gleanTag
  repeat' (first
    | with_reducible assumption
    | with_reducible apply Keeps.wr
    | with_reducible apply State.bump_keeps
    | with_reducible exact Reg.pmonGleanLossSkipped_may hw rfl
    | with_reducible exact Reg.pmonGleanStatusInside_may hw rfl
    | (simp only [Keeps.mk_eq]; with_reducible apply KeepsMk.upd)
    | exact hw.le rfl
    | exact Or.inl (hw.bit rfl)
    | with_reducible exact Or.inr rfl
    | with_reducible apply ResKeeps.next
    | with_reducible apply Keeps.each
    | with_reducible apply Keeps.when
    | with_reducible apply Keeps.foldl
    | split
    | intro _ _ _
    | intro _ _
    | intro _
    | with_reducible refine Keeps.of_pair (by with_reducible assumption) ?_
    | with_reducible refine Keeps.of_triple (by with_reducible assumption) ?_
    | dsimp only)

theorem State.gleanOut_keeps {w₀ : Nat} {s₀ s : State} (hw : Sub 0x40000000000 w₀) (h₀ : Keeps w₀ s₀ s) :
    Keeps w₀ s₀ (State.gleanOut s) := by
  unfold State.gleanOut
  repeat' (first
    | with_reducible assumption
    | with_reducible apply Keeps.wr
    | with_reducible exact Reg.pmonGleanStatusInside_may hw rfl
    | exact hw.le rfl
    | with_reducible apply ResKeeps.next
    | with_reducible apply Keeps.each
    | with_reducible apply Keeps.when
    | with_reducible apply Keeps.foldl
    | split
    | intro _ _ _
    | intro _ _
    | intro _
    | with_reducible refine Keeps.of_pair (by with_reducible assumption) ?_
    | with_reducible refine Keeps.of_triple (by with_reducible assumption) ?_
    | dsimp only)

theorem State.tagDue_keeps {w₀ : Nat} {s₀ s : State} (hw : Sub 0x1000000000000000000000 w₀) (d : TagDue) (h₀ : Keeps w₀ s₀ s) :
    Keeps w₀ s₀ (State.tagDue s d) := by
  unfold State.tagDue
  repeat' (first
    | with_reducible assumption
    | (simp only [Keeps.mk_eq]; with_reducible apply KeepsMk.upd)
    | exact hw.le rfl
    | exact Or.inl (hw.bit rfl)
    | with_reducible exact Or.inr rfl
    | with_reducible apply ResKeeps.next
    | with_reducible apply Keeps.each
    | with_reducible apply Keeps.when
    | with_reducible apply Keeps.foldl
    | split
    | intro _ _ _
    | intro _ _
    | intro _
    | with_reducible refine Keeps.of_pair (by with_reducible assumption) ?_
    | with_reducible refine Keeps.of_triple (by with_reducible assumption) ?_
    | dsimp only)

theorem State.tagStore_keeps {w₀ : Nat} {s₀ s : State} (hw : Sub 0x1080028000040000000000 w₀) (r : List Byte) (h₀ : Keeps w₀ s₀ s) :
    Keeps w₀ s₀ (State.tagStore s r) := by
  unfold State.tagStore
  repeat' (first
    | with_reducible assumption
    | with_reducible apply Keeps.wr
    | with_reducible apply State.bump_keeps
    | with_reducible apply State.intr_keeps
    | with_reducible exact Reg.pmonGleanRdRdPtr_may hw rfl
    | with_reducible exact Reg.pmonGleanStatusFull_may hw rfl
    | with_reducible exact Reg.pmonGleanStatusWrPtr_may hw rfl
    | with_reducible exact Reg.pmonTaggedCount_may hw rfl
    | (simp only [Keeps.mk_eq]; with_reducible apply KeepsMk.upd)
    | exact hw.le rfl
    | exact Or.inl (hw.bit rfl)
    | with_reducible exact Or.inr rfl
    | with_reducible apply ResKeeps.next
    | with_reducible apply Keeps.each
    | with_reducible apply Keeps.when
    | with_reducible apply Keeps.foldl
    | split
    | intro _ _ _
    | intro _ _
    | intro _
    | with_reducible refine Keeps.of_pair (by with_reducible assumption) ?_
    | with_reducible refine Keeps.of_triple (by with_reducible assumption) ?_
    | dsimp only)

theorem State.gleanCtl_keeps {w₀ : Nat} {s₀ s : State} (hw : Sub 0x1000000000040000000000 w₀) (k : Nat) (wrap : Nat) (run : Nat) (h₀ : Keeps w₀ s₀ s) :
    Keeps w₀ s₀ (State.gleanCtl s k wrap run) := by
  unfold State.gleanCtl
  repeat' (first
    | with_reducible assumption
    | with_reducible apply State.wrs_keeps
    | with_reducible exact Reg.pmonGleanCtlK_may hw rfl
    | with_reducible exact Reg.pmonGleanCtlRun_may hw rfl
    | with_reducible exact Reg.pmonGleanCtlWrap_may hw rfl
    | with_reducible exact AllMay.nil _
    | with_reducible apply AllMay.cons
    | with_reducible apply AllMay.append
    | with_reducible apply AllMay.map
    | (simp only [Keeps.mk_eq]; with_reducible apply KeepsMk.upd)
    | exact hw.le rfl
    | exact Or.inl (hw.bit rfl)
    | with_reducible exact Or.inr rfl
    | with_reducible apply ResKeeps.next
    | with_reducible apply Keeps.each
    | with_reducible apply Keeps.when
    | with_reducible apply Keeps.foldl
    | split
    | intro _ _ _
    | intro _ _
    | intro _
    | with_reducible refine Keeps.of_pair (by with_reducible assumption) ?_
    | with_reducible refine Keeps.of_triple (by with_reducible assumption) ?_
    | dsimp only)

theorem execGleanCtlWrite_keeps {w₀ : Nat} {s₀ s : State} (hw : Sub 0x1000000000040000000000 w₀) (value : Word) (h₀ : Keeps w₀ s₀ s) :
    ResKeeps w₀ s₀ (execGleanCtlWrite value s) := by
  unfold execGleanCtlWrite
  repeat' (first
    | with_reducible assumption
    | with_reducible apply State.gleanCtl_keeps
    | exact hw.le rfl
    | with_reducible apply ResKeeps.next
    | with_reducible apply Keeps.each
    | with_reducible apply Keeps.when
    | with_reducible apply Keeps.foldl
    | split
    | intro _ _ _
    | intro _ _
    | intro _
    | with_reducible refine Keeps.of_pair (by with_reducible assumption) ?_
    | with_reducible refine Keeps.of_triple (by with_reducible assumption) ?_
    | dsimp only)

theorem State.gleanRd_keeps {w₀ : Nat} {s₀ s : State} (hw : Sub 0x40000000000 w₀) (v : Nat) (h₀ : Keeps w₀ s₀ s) :
    Keeps w₀ s₀ (State.gleanRd s v) := by
  unfold State.gleanRd
  repeat' (first
    | with_reducible assumption
    | with_reducible apply Keeps.wr
    | with_reducible exact Reg.pmonGleanRdRdPtr_may hw rfl
    | with_reducible exact Reg.pmonGleanStatusFull_may hw rfl
    | exact hw.le rfl
    | with_reducible apply ResKeeps.next
    | with_reducible apply Keeps.each
    | with_reducible apply Keeps.when
    | with_reducible apply Keeps.foldl
    | split
    | intro _ _ _
    | intro _ _
    | intro _
    | with_reducible refine Keeps.of_pair (by with_reducible assumption) ?_
    | with_reducible refine Keeps.of_triple (by with_reducible assumption) ?_
    | dsimp only)

theorem State.bwStart_keeps {w₀ : Nat} {s₀ s : State} (hw : Sub 0x1000000000000000000000 w₀) (h₀ : Keeps w₀ s₀ s) :
    Keeps w₀ s₀ (State.bwStart s) := by
  unfold State.bwStart
  repeat' (first
    | with_reducible assumption
    | (simp only [Keeps.mk_eq]; with_reducible apply KeepsMk.upd)
    | exact hw.le rfl
    | exact Or.inl (hw.bit rfl)
    | with_reducible exact Or.inr rfl
    | with_reducible apply ResKeeps.next
    | with_reducible apply Keeps.each
    | with_reducible apply Keeps.when
    | with_reducible apply Keeps.foldl
    | split
    | intro _ _ _
    | intro _ _
    | intro _
    | with_reducible refine Keeps.of_pair (by with_reducible assumption) ?_
    | with_reducible refine Keeps.of_triple (by with_reducible assumption) ?_
    | dsimp only)

theorem State.bwRestart_keeps {w₀ : Nat} {s₀ s : State} (hw : Sub 0x1000000000000000000000 w₀) (h₀ : Keeps w₀ s₀ s) :
    Keeps w₀ s₀ (State.bwRestart s) := by
  unfold State.bwRestart
  repeat' (first
    | with_reducible assumption
    | with_reducible apply State.bwStart_keeps
    | (simp only [Keeps.mk_eq]; with_reducible apply KeepsMk.upd)
    | exact hw.le rfl
    | exact Or.inl (hw.bit rfl)
    | with_reducible exact Or.inr rfl
    | with_reducible apply ResKeeps.next
    | with_reducible apply Keeps.each
    | with_reducible apply Keeps.when
    | with_reducible apply Keeps.foldl
    | split
    | intro _ _ _
    | intro _ _
    | intro _
    | with_reducible refine Keeps.of_pair (by with_reducible assumption) ?_
    | with_reducible refine Keeps.of_triple (by with_reducible assumption) ?_
    | dsimp only)

theorem State.bwAdd_keeps {w₀ : Nat} {s₀ s : State} (hw : Sub 0x1000000000040000000000 w₀) (n : Nat) (tx : Bool) (tb : Nat) (stamp : Nat) (bytes : Nat) (h₀ : Keeps w₀ s₀ s) :
    Keeps w₀ s₀ (State.bwAdd s n tx tb stamp bytes) := by
  unfold State.bwAdd
  repeat' (first
    | with_reducible assumption
    | with_reducible apply State.bump_keeps
    | with_reducible apply State.bwStart_keeps
    | with_reducible exact Reg.pmonBwLateCount_may hw rfl
    | (simp only [Keeps.mk_eq]; with_reducible apply KeepsMk.upd)
    | exact hw.le rfl
    | exact Or.inl (hw.bit rfl)
    | with_reducible exact Or.inr rfl
    | with_reducible apply ResKeeps.next
    | with_reducible apply Keeps.each
    | with_reducible apply Keeps.when
    | with_reducible apply Keeps.foldl
    | split
    | intro _ _ _
    | intro _ _
    | intro _
    | with_reducible refine Keeps.of_pair (by with_reducible assumption) ?_
    | with_reducible refine Keeps.of_triple (by with_reducible assumption) ?_
    | dsimp only)

theorem execBwWindowClose_keeps {w₀ : Nat} {s₀ s : State} (hw : Sub 0x1080028000040000000000 w₀) (h₀ : Keeps w₀ s₀ s) :
    ResKeeps w₀ s₀ (execBwWindowClose s) := by
  unfold execBwWindowClose
  repeat' (first
    | with_reducible assumption
    | with_reducible apply State.wrs_keeps
    | with_reducible apply State.intr_keeps
    | with_reducible apply State.bwStart_keeps
    | with_reducible exact Reg.pmonBwHiRxHi_may hw rfl
    | with_reducible exact Reg.pmonBwHiTxHi_may hw rfl
    | with_reducible exact Reg.pmonBwLateValid_may hw rfl
    | with_reducible exact Reg.pmonBwRxRx_may hw rfl
    | with_reducible exact Reg.pmonBwStatusWin_may hw rfl
    | with_reducible exact Reg.pmonBwTxTx_may hw rfl
    | with_reducible exact AllMay.nil _
    | with_reducible apply AllMay.cons
    | with_reducible apply AllMay.append
    | with_reducible apply AllMay.map
    | (simp only [Keeps.mk_eq]; with_reducible apply KeepsMk.upd)
    | exact hw.le rfl
    | exact Or.inl (hw.bit rfl)
    | with_reducible exact Or.inr rfl
    | with_reducible apply ResKeeps.next
    | with_reducible apply Keeps.each
    | with_reducible apply Keeps.when
    | with_reducible apply Keeps.foldl
    | split
    | intro _ _ _
    | intro _ _
    | intro _
    | with_reducible refine Keeps.of_pair (by with_reducible assumption) ?_
    | with_reducible refine Keeps.of_triple (by with_reducible assumption) ?_
    | dsimp only)

theorem execBwCfgWrite_keeps {w₀ : Nat} {s₀ s : State} (hw : Sub 0x1000000000040000000000 w₀) (value : Word) (h₀ : Keeps w₀ s₀ s) :
    ResKeeps w₀ s₀ (execBwCfgWrite value s) := by
  unfold execBwCfgWrite
  repeat' (first
    | with_reducible assumption
    | with_reducible apply Keeps.wr
    | with_reducible apply State.wrs_keeps
    | with_reducible apply State.bwRestart_keeps
    | with_reducible exact Reg.pmonBwCfgEn_may hw rfl
    | with_reducible exact Reg.pmonBwCfgTb_may hw rfl
    | with_reducible exact Reg.pmonBwCfgWinUs_may hw rfl
    | with_reducible exact AllMay.nil _
    | with_reducible apply AllMay.cons
    | with_reducible apply AllMay.append
    | with_reducible apply AllMay.map
    | exact hw.le rfl
    | with_reducible apply ResKeeps.next
    | with_reducible apply Keeps.each
    | with_reducible apply Keeps.when
    | with_reducible apply Keeps.foldl
    | split
    | intro _ _ _
    | intro _ _
    | intro _
    | with_reducible refine Keeps.of_pair (by with_reducible assumption) ?_
    | with_reducible refine Keeps.of_triple (by with_reducible assumption) ?_
    | dsimp only)

theorem applyPmon_keeps {w₀ : Nat} {s₀ s : State} (hw : Sub 0x1000000000040000000000 w₀) (v : List Byte) (h₀ : Keeps w₀ s₀ s) :
    Keeps w₀ s₀ (applyPmon v s) := by
  unfold applyPmon
  repeat' (first
    | with_reducible assumption
    | with_reducible apply Keeps.wr
    | with_reducible apply State.wrs_keeps
    | with_reducible apply State.gleanCtl_keeps
    | with_reducible apply State.bwRestart_keeps
    | with_reducible exact Reg.pmonBwCfgEn_may hw rfl
    | with_reducible exact Reg.pmonBwCfgTb_may hw rfl
    | with_reducible exact Reg.pmonBwCfgWinUs_may hw rfl
    | with_reducible exact Reg.pmonCntCfgEnable_may hw rfl
    | with_reducible exact Reg.pmonCntCfgEvent_may hw rfl
    | with_reducible exact Reg.pmonCntCfgHigh_may hw rfl
    | with_reducible exact Reg.pmonGleanSeedSeed_may hw rfl
    | with_reducible exact Reg.pmonTagPortMask_may hw rfl
    | with_reducible exact Reg.pmonTagTcMask_may hw rfl
    | with_reducible exact AllMay.nil _
    | with_reducible apply AllMay.cons
    | with_reducible apply AllMay.append
    | with_reducible apply AllMay.map
    | (simp only [Keeps.mk_eq]; with_reducible apply KeepsMk.upd)
    | exact hw.le rfl
    | exact Or.inl (hw.bit rfl)
    | with_reducible exact Or.inr rfl
    | with_reducible apply ResKeeps.next
    | with_reducible apply Keeps.each
    | with_reducible apply Keeps.when
    | with_reducible apply Keeps.foldl
    | split
    | intro _ _ _
    | intro _ _
    | intro _
    | with_reducible refine Keeps.of_pair (by with_reducible assumption) ?_
    | with_reducible refine Keeps.of_triple (by with_reducible assumption) ?_
    | dsimp only)

theorem State.pmonReset_keeps {w₀ : Nat} {s₀ s : State} (hw : Sub 0x1000000000040000000000 w₀) (h₀ : Keeps w₀ s₀ s) :
    Keeps w₀ s₀ (State.pmonReset s) := by
  unfold State.pmonReset
  repeat' (first
    | with_reducible assumption
    | with_reducible apply State.clr_keeps
    | with_reducible apply State.clrs_keeps
    | with_reducible apply State.cntZero_keeps
    | with_reducible apply State.bwRestart_keeps
    | with_reducible apply applyPmon_keeps
    | with_reducible exact Reg.pmonBwCfgEn_may hw rfl
    | with_reducible exact Reg.pmonBwCfgTb_may hw rfl
    | with_reducible exact Reg.pmonBwCfgWinUs_may hw rfl
    | with_reducible exact Reg.pmonBwHiRxHi_may hw rfl
    | with_reducible exact Reg.pmonBwHiTxHi_may hw rfl
    | with_reducible exact Reg.pmonBwLateCount_may hw rfl
    | with_reducible exact Reg.pmonBwLateValid_may hw rfl
    | with_reducible exact Reg.pmonBwRxRx_may hw rfl
    | with_reducible exact Reg.pmonBwStatusWin_may hw rfl
    | with_reducible exact Reg.pmonBwTxTx_may hw rfl
    | with_reducible exact Reg.pmonCntCfgEnable_may hw rfl
    | with_reducible exact Reg.pmonCntCfgEvent_may hw rfl
    | with_reducible exact Reg.pmonCntCfgHigh_may hw rfl
    | with_reducible exact Reg.pmonGleanCtlK_may hw rfl
    | with_reducible exact Reg.pmonGleanCtlRun_may hw rfl
    | with_reducible exact Reg.pmonGleanCtlWrap_may hw rfl
    | with_reducible exact Reg.pmonGleanLossLost_may hw rfl
    | with_reducible exact Reg.pmonGleanLossSkipped_may hw rfl
    | with_reducible exact Reg.pmonGleanRdRdPtr_may hw rfl
    | with_reducible exact Reg.pmonGleanSeedSeed_may hw rfl
    | with_reducible exact Reg.pmonGleanStatusFull_may hw rfl
    | with_reducible exact Reg.pmonGleanStatusWrPtr_may hw rfl
    | with_reducible exact Reg.pmonTagPortMask_may hw rfl
    | with_reducible exact Reg.pmonTagTcMask_may hw rfl
    | with_reducible exact Reg.pmonTaggedCount_may hw rfl
    | with_reducible exact AllIn.nil _
    | with_reducible apply AllIn.cons
    | with_reducible apply AllIn.append
    | with_reducible apply AllIn.map
    | (simp only [Keeps.mk_eq]; with_reducible apply KeepsMk.upd)
    | exact hw.le rfl
    | exact Or.inl (hw.bit rfl)
    | with_reducible exact Or.inr rfl
    | with_reducible apply ResKeeps.next
    | with_reducible apply Keeps.each
    | with_reducible apply Keeps.when
    | with_reducible apply Keeps.foldl
    | split
    | intro _ _ _
    | intro _ _
    | intro _
    | with_reducible refine Keeps.of_pair (by with_reducible assumption) ?_
    | with_reducible refine Keeps.of_triple (by with_reducible assumption) ?_
    | dsimp only)

end Sys2Proof.Machine
end

