-- ==== Sys2Proof/Laws/KeepTimeBases.lean ====
section
/-! SUPPORT. What the operations of Machine/TimeBases.lean keep. -/

set_option linter.all false
set_option Elab.async false

namespace Sys2Proof.Machine

theorem State.setSwapped_keeps {w₀ : Nat} {s₀ s : State} (hw : Sub 0x200000000000000000010 w₀) (tk : Nat) (k : Nat) (b : Bool) (h₀ : Keeps w₀ s₀ s) :
    Keeps w₀ s₀ (State.setSwapped s tk k b) := by
  unfold State.setSwapped
  repeat' (first
    | with_reducible assumption
    | with_reducible apply Keeps.wr
    | with_reducible exact Reg.tkPairSwapped_may hw rfl
    | (simp only [Keeps.mk_eq]; with_reducible apply KeepsMk.upd)
    | exact hw.le rfl
    | exact Or.inl (hw.bit rfl)
    | with_reducible exact Or.inr rfl
    | with_reducible apply ResKeeps.next
    | with_reducible apply Keeps.each
    | with_reducible apply Keeps.when
    | with_reducible apply Keeps.foldl
    | split
    | intro _ _ _
    | intro _ _
    | intro _
    | with_reducible refine Keeps.of_pair (by with_reducible assumption) ?_
    | with_reducible refine Keeps.of_triple (by with_reducible assumption) ?_
    | dsimp only)

theorem State.tbGen_keeps {w₀ : Nat} {s₀ s : State} (hw : Sub 0x10 w₀) (k : Nat) (n : Nat) (h₀ : Keeps w₀ s₀ s) :
    Keeps w₀ s₀ (State.tbGen s k n) := by
  unfold State.tbGen
  repeat' (first
    | with_reducible assumption
    | with_reducible apply State.bumpWrap_keeps
    | with_reducible exact Reg.tkTbStatusGen_may hw rfl
    | exact hw.le rfl
    | with_reducible apply ResKeeps.next
    | with_reducible apply Keeps.each
    | with_reducible apply Keeps.when
    | with_reducible apply Keeps.foldl
    | split
    | intro _ _ _
    | intro _ _
    | intro _
    | with_reducible refine Keeps.of_pair (by with_reducible assumption) ?_
    | with_reducible refine Keeps.of_triple (by with_reducible assumption) ?_
    | dsimp only)

theorem State.putTb_keeps {w₀ : Nat} {s₀ s : State} (hw : Sub 0xc0028000000000000010 w₀) (k : Nat) (n : Nat) (b : TBase) (h₀ : Keeps w₀ s₀ s) :
    Keeps w₀ s₀ (State.putTb s k n b) := by
  unfold State.putTb
  repeat' (first
    | with_reducible assumption
    | with_reducible apply State.bump_keeps
    | with_reducible apply State.setTb_keeps
    | with_reducible apply State.intr_keeps
    | with_reducible apply State.tbGen_keeps
    | with_reducible exact Reg.tkTbEventsHolds_may hw rfl
    | exact hw.le rfl
    | with_reducible apply ResKeeps.next
    | with_reducible apply Keeps.each
    | with_reducible apply Keeps.when
    | with_reducible apply Keeps.foldl
    | split
    | intro _ _ _
    | intro _ _
    | intro _
    | with_reducible refine Keeps.of_pair (by with_reducible assumption) ?_
    | with_reducible refine Keeps.of_triple (by with_reducible assumption) ?_
    | dsimp only)

theorem State.tbEnable_keeps {w₀ : Nat} {s₀ s : State} (hw : Sub 0x80c0028000000000000030 w₀) (k : Nat) (n : Nat) (h₀ : Keeps w₀ s₀ s) :
    Keeps w₀ s₀ (State.tbEnable s k n) := by
  unfold State.tbEnable
  repeat' (first
    | with_reducible assumption
    | with_reducible apply Keeps.wr
    | with_reducible apply State.putTb_keeps
    | with_reducible exact Reg.ttHops_may hw rfl
    | (simp only [Keeps.mk_eq]; with_reducible apply KeepsMk.upd)
    | exact hw.le rfl
    | exact Or.inl (hw.bit rfl)
    | with_reducible exact Or.inr rfl
    | with_reducible apply ResKeeps.next
    | with_reducible apply Keeps.each
    | with_reducible apply Keeps.when
    | with_reducible apply Keeps.foldl
    | split
    | intro _ _ _
    | intro _ _
    | intro _
    | with_reducible refine Keeps.of_pair (by with_reducible assumption) ?_
    | with_reducible refine Keeps.of_triple (by with_reducible assumption) ?_
    | dsimp only)

theorem State.tkEnable_keeps {w₀ : Nat} {s₀ s : State} (hw : Sub 0x80c0028000000000000030 w₀) (k : Nat) (h₀ : Keeps w₀ s₀ s) :
    Keeps w₀ s₀ (State.tkEnable s k) := by
  unfold State.tkEnable
  repeat' (first
    | with_reducible assumption
    | with_reducible apply State.tbEnable_keeps
    | exact hw.le rfl
    | with_reducible apply ResKeeps.next
    | with_reducible apply Keeps.each
    | with_reducible apply Keeps.when
    | with_reducible apply Keeps.foldl
    | split
    | intro _ _ _
    | intro _ _
    | intro _
    | with_reducible refine Keeps.of_pair (by with_reducible assumption) ?_
    | with_reducible refine Keeps.of_triple (by with_reducible assumption) ?_
    | dsimp only)

theorem State.tkStop_keeps {w₀ : Nat} {s₀ s : State} (hw : Sub 0xc0028000000000000010 w₀) (k : Nat) (h₀ : Keeps w₀ s₀ s) :
    Keeps w₀ s₀ (State.tkStop s k) := by
  unfold State.tkStop
  repeat' (first
    | with_reducible assumption
    | with_reducible apply State.putTb_keeps
    | exact hw.le rfl
    | with_reducible apply ResKeeps.next
    | with_reducible apply Keeps.each
    | with_reducible apply Keeps.when
    | with_reducible apply Keeps.foldl
    | split
    | intro _ _ _
    | intro _ _
    | intro _
    | with_reducible refine Keeps.of_pair (by with_reducible assumption) ?_
    | with_reducible refine Keeps.of_triple (by with_reducible assumption) ?_
    | dsimp only)

theorem State.tbToHold_keeps {w₀ : Nat} {s₀ s : State} (hw : Sub 0xc0028000000000000010 w₀) (k : Nat) (n : Nat) (h₀ : Keeps w₀ s₀ s) :
    Keeps w₀ s₀ (State.tbToHold s k n) := by
  unfold State.tbToHold
  repeat' (first
    | with_reducible assumption
    | with_reducible apply State.putTb_keeps
    | (simp only [Keeps.mk_eq]; with_reducible apply KeepsMk.upd)
    | exact hw.le rfl
    | exact Or.inl (hw.bit rfl)
    | with_reducible exact Or.inr rfl
    | with_reducible apply ResKeeps.next
    | with_reducible apply Keeps.each
    | with_reducible apply Keeps.when
    | with_reducible apply Keeps.foldl
    | split
    | intro _ _ _
    | intro _ _
    | intro _
    | with_reducible refine Keeps.of_pair (by with_reducible assumption) ?_
    | with_reducible refine Keeps.of_triple (by with_reducible assumption) ?_
    | dsimp only)

theorem State.tbHoldBoth_keeps {w₀ : Nat} {s₀ s : State} (hw : Sub 0xc0028000000000000010 w₀) (n : Nat) (h₀ : Keeps w₀ s₀ s) :
    Keeps w₀ s₀ (State.tbHoldBoth s n) := by
  unfold State.tbHoldBoth
  repeat' (first
    | with_reducible assumption
    | with_reducible apply State.tbToHold_keeps
    | exact hw.le rfl
    | with_reducible apply ResKeeps.next
    | with_reducible apply Keeps.each
    | with_reducible apply Keeps.when
    | with_reducible apply Keeps.foldl
    | split
    | intro _ _ _
    | intro _ _
    | intro _
    | with_reducible refine Keeps.of_pair (by with_reducible assumption) ?_
    | with_reducible refine Keeps.of_triple (by with_reducible assumption) ?_
    | dsimp only)

theorem State.sourceLost_keeps {w₀ : Nat} {s₀ s : State} (hw : Sub 0xc0028000000000000010 w₀) (src : Nat) (id : Nat) (h₀ : Keeps w₀ s₀ s) :
    Keeps w₀ s₀ (State.sourceLost s src id) := by
  unfold State.sourceLost
  repeat' (first
    | with_reducible assumption
    | with_reducible apply State.tbToHold_keeps
    | exact hw.le rfl
    | with_reducible apply ResKeeps.next
    | with_reducible apply Keeps.each
    | with_reducible apply Keeps.when
    | with_reducible apply Keeps.foldl
    | split
    | intro _ _ _
    | intro _ _
    | intro _
    | with_reducible refine Keeps.of_pair (by with_reducible assumption) ?_
    | with_reducible refine Keeps.of_triple (by with_reducible assumption) ?_
    | dsimp only)

theorem State.tbHalt_keeps {w₀ : Nat} {s₀ s : State} (hw : Sub 0xc0028000000000000010 w₀) (h₀ : Keeps w₀ s₀ s) :
    Keeps w₀ s₀ (State.tbHalt s) := by
  unfold State.tbHalt
  repeat' (first
    | with_reducible assumption
    | with_reducible apply State.tbHoldBoth_keeps
    | exact hw.le rfl
    | with_reducible apply ResKeeps.next
    | with_reducible apply Keeps.each
    | with_reducible apply Keeps.when
    | with_reducible apply Keeps.foldl
    | split
    | intro _ _ _
    | intro _ _
    | intro _
    | with_reducible refine Keeps.of_pair (by with_reducible assumption) ?_
    | with_reducible refine Keeps.of_triple (by with_reducible assumption) ?_
    | dsimp only)

theorem State.rampStart_keeps {w₀ : Nat} {s₀ s : State} (hw : Sub 0xc0028000000000000010 w₀) (tk : Nat) (k : Nat) (h₀ : Keeps w₀ s₀ s) :
    Keeps w₀ s₀ (State.rampStart s tk k) := by
  unfold State.rampStart
  repeat' (first
    | with_reducible assumption
    | with_reducible apply State.putTb_keeps
    | (simp only [Keeps.mk_eq]; with_reducible apply KeepsMk.upd)
    | exact hw.le rfl
    | exact Or.inl (hw.bit rfl)
    | with_reducible exact Or.inr rfl
    | with_reducible apply ResKeeps.next
    | with_reducible apply Keeps.each
    | with_reducible apply Keeps.when
    | with_reducible apply Keeps.foldl
    | split
    | intro _ _ _
    | intro _ _
    | intro _
    | with_reducible refine Keeps.of_pair (by with_reducible assumption) ?_
    | with_reducible refine Keeps.of_triple (by with_reducible assumption) ?_
    | dsimp only)

theorem State.pairSwitch_keeps {w₀ : Nat} {s₀ s : State} (hw : Sub 0xc0028000000000000010 w₀) (k : Nat) (counted : Bool) (h₀ : Keeps w₀ s₀ s) :
    Keeps w₀ s₀ (State.pairSwitch s k counted) := by
  unfold State.pairSwitch
  repeat' (first
    | with_reducible assumption
    | with_reducible apply Keeps.wr
    | with_reducible apply State.bump_keeps
    | with_reducible apply State.bumpWrap_keeps
    | with_reducible apply State.rampStart_keeps
    | with_reducible exact Reg.tkPairDeferred_may hw rfl
    | with_reducible exact Reg.tkPairSwitches_may hw rfl
    | with_reducible exact Reg.tkTbStatusGen_may hw rfl
    | exact hw.le rfl
    | with_reducible apply ResKeeps.next
    | with_reducible apply Keeps.each
    | with_reducible apply Keeps.when
    | with_reducible apply Keeps.foldl
    | split
    | intro _ _ _
    | intro _ _
    | intro _
    | with_reducible refine Keeps.of_pair (by with_reducible assumption) ?_
    | with_reducible refine Keeps.of_triple (by with_reducible assumption) ?_
    | dsimp only)

theorem State.pairOrder_keeps {w₀ : Nat} {s₀ s : State} (hw : Sub 0xc0028000000000000010 w₀) (k : Nat) (h₀ : Keeps w₀ s₀ s) :
    Keeps w₀ s₀ (State.pairOrder s k) := by
  unfold State.pairOrder
  repeat' (first
    | with_reducible assumption
    | with_reducible apply Keeps.wr
    | with_reducible apply State.pairSwitch_keeps
    | with_reducible exact Reg.tkPairDeferred_may hw rfl
    | exact hw.le rfl
    | with_reducible apply ResKeeps.next
    | with_reducible apply Keeps.each
    | with_reducible apply Keeps.when
    | with_reducible apply Keeps.foldl
    | split
    | intro _ _ _
    | intro _ _
    | intro _
    | with_reducible refine Keeps.of_pair (by with_reducible assumption) ?_
    | with_reducible refine Keeps.of_triple (by with_reducible assumption) ?_
    | dsimp only)

theorem State.deferredCheck_keeps {w₀ : Nat} {s₀ s : State} (hw : Sub 0xc0028000000000000010 w₀) (n : Nat) (was : Nat) (h₀ : Keeps w₀ s₀ s) :
    Keeps w₀ s₀ (State.deferredCheck s n was) := by
  unfold State.deferredCheck
  repeat' (first
    | with_reducible assumption
    | with_reducible apply State.pairSwitch_keeps
    | exact hw.le rfl
    | with_reducible apply ResKeeps.next
    | with_reducible apply Keeps.each
    | with_reducible apply Keeps.when
    | with_reducible apply Keeps.foldl
    | split
    | intro _ _ _
    | intro _ _
    | intro _
    | with_reducible refine Keeps.of_pair (by with_reducible assumption) ?_
    | with_reducible refine Keeps.of_triple (by with_reducible assumption) ?_
    | dsimp only)

theorem State.rampDone_keeps {w₀ : Nat} {s₀ s : State} (hw : Sub 0x2c0028000000000000010 w₀) (tk : Nat) (k : Nat) (h₀ : Keeps w₀ s₀ s) :
    Keeps w₀ s₀ (State.rampDone s tk k) := by
  unfold State.rampDone
  repeat' (first
    | with_reducible assumption
    | with_reducible apply State.setSwapped_keeps
    | with_reducible apply State.tbGen_keeps
    | with_reducible apply State.putTb_keeps
    | (simp only [Keeps.mk_eq]; with_reducible apply KeepsMk.upd)
    | exact hw.le rfl
    | exact Or.inl (hw.bit rfl)
    | with_reducible exact Or.inr rfl
    | with_reducible apply ResKeeps.next
    | with_reducible apply Keeps.each
    | with_reducible apply Keeps.when
    | with_reducible apply Keeps.foldl
    | split
    | intro _ _ _
    | intro _ _
    | intro _
    | with_reducible refine Keeps.of_pair (by with_reducible assumption) ?_
    | with_reducible refine Keeps.of_triple (by with_reducible assumption) ?_
    | dsimp only)

theorem State.rampTick_keeps {w₀ : Nat} {s₀ s : State} (hw : Sub 0x2c0028000040000000010 w₀) (tk : Nat) (k : Nat) (h₀ : Keeps w₀ s₀ s) :
    Keeps w₀ s₀ (State.rampTick s tk k) := by
  unfold State.rampTick
  repeat' (first
    | with_reducible assumption
    | with_reducible apply State.setTb_keeps
    | with_reducible apply State.ev_keeps
    | with_reducible apply State.rampDone_keeps
    | (simp only [Keeps.mk_eq]; with_reducible apply KeepsMk.upd)
    | exact hw.le rfl
    | exact Or.inl (hw.bit rfl)
    | with_reducible exact Or.inr rfl
    | with_reducible apply ResKeeps.next
    | with_reducible apply Keeps.each
    | with_reducible apply Keeps.when
    | with_reducible apply Keeps.foldl
    | split
    | intro _ _ _
    | intro _ _
    | intro _
    | with_reducible refine Keeps.of_pair (by with_reducible assumption) ?_
    | with_reducible refine Keeps.of_triple (by with_reducible assumption) ?_
    | dsimp only)

theorem State.hardSetSample_keeps {w₀ : Nat} {s₀ s : State} (hw : Sub 0xc0028000000000000010 w₀) (k : Nat) (n : Nat) (e : Int) (h₀ : Keeps w₀ s₀ s) :
    Keeps w₀ s₀ (State.hardSetSample s k n e) := by
  unfold State.hardSetSample
  repeat' (first
    | with_reducible assumption
    | with_reducible apply State.putTb_keeps
    | exact hw.le rfl
    | with_reducible apply ResKeeps.next
    | with_reducible apply Keeps.each
    | with_reducible apply Keeps.when
    | with_reducible apply Keeps.foldl
    | split
    | intro _ _ _
    | intro _ _
    | intro _
    | with_reducible refine Keeps.of_pair (by with_reducible assumption) ?_
    | with_reducible refine Keeps.of_triple (by with_reducible assumption) ?_
    | dsimp only)

theorem State.useSample_keeps {w₀ : Nat} {s₀ s : State} (hw : Sub 0xc0028000040000000010 w₀) (k : Nat) (n : Nat) (e : Int) (h₀ : Keeps w₀ s₀ s) :
    Keeps w₀ s₀ (State.useSample s k n e) := by
  unfold State.useSample
  repeat' (first
    | with_reducible assumption
    | with_reducible apply State.bump_keeps
    | with_reducible apply State.setTb_keeps
    | with_reducible apply State.ev_keeps
    | with_reducible apply State.putTb_keeps
    | with_reducible apply State.hardSetSample_keeps
    | with_reducible exact Reg.tkTbEventsOutliers_may hw rfl
    | (simp only [Keeps.mk_eq]; with_reducible apply KeepsMk.upd)
    | exact hw.le rfl
    | exact Or.inl (hw.bit rfl)
    | with_reducible exact Or.inr rfl
    | with_reducible apply ResKeeps.next
    | with_reducible apply Keeps.each
    | with_reducible apply Keeps.when
    | with_reducible apply Keeps.foldl
    | split
    | intro _ _ _
    | intro _ _
    | intro _
    | with_reducible refine Keeps.of_pair (by with_reducible assumption) ?_
    | with_reducible refine Keeps.of_triple (by with_reducible assumption) ?_
    | dsimp only)

theorem State.sampleTk_keeps {w₀ : Nat} {s₀ s : State} (hw : Sub 0xc0028000040000000010 w₀) (k : Nat) (n : Nat) (e : Int) (h₀ : Keeps w₀ s₀ s) :
    Keeps w₀ s₀ (State.sampleTk s k n e) := by
  unfold State.sampleTk
  repeat' (first
    | with_reducible assumption
    | with_reducible apply State.bump_keeps
    | with_reducible apply State.setTb_keeps
    | with_reducible apply State.ev_keeps
    | with_reducible apply State.useSample_keeps
    | with_reducible exact Reg.tkTbEventsOutliers_may hw rfl
    | (simp only [Keeps.mk_eq]; with_reducible apply KeepsMk.upd)
    | exact hw.le rfl
    | exact Or.inl (hw.bit rfl)
    | with_reducible exact Or.inr rfl
    | with_reducible apply ResKeeps.next
    | with_reducible apply Keeps.each
    | with_reducible apply Keeps.when
    | with_reducible apply Keeps.foldl
    | split
    | intro _ _ _
    | intro _ _
    | intro _
    | with_reducible refine Keeps.of_pair (by with_reducible assumption) ?_
    | with_reducible refine Keeps.of_triple (by with_reducible assumption) ?_
    | dsimp only)

theorem State.sample_keeps {w₀ : Nat} {s₀ s : State} (hw : Sub 0xc0028000040000000010 w₀) (n : Nat) (e : Int) (h₀ : Keeps w₀ s₀ s) :
    Keeps w₀ s₀ (State.sample s n e) := by
  unfold State.sample
  repeat' (first
    | with_reducible assumption
    | with_reducible apply State.deferredCheck_keeps
    | with_reducible apply State.sampleTk_keeps
    | exact hw.le rfl
    | with_reducible apply ResKeeps.next
    | with_reducible apply Keeps.each
    | with_reducible apply Keeps.when
    | with_reducible apply Keeps.foldl
    | split
    | intro _ _ _
    | intro _ _
    | intro _
    | with_reducible refine Keeps.of_pair (by with_reducible assumption) ?_
    | with_reducible refine Keeps.of_triple (by with_reducible assumption) ?_
    | dsimp only)

theorem State.useWaiting_keeps {w₀ : Nat} {s₀ s : State} (hw : Sub 0xc0028000040000000010 w₀) (k : Nat) (n : Nat) (h₀ : Keeps w₀ s₀ s) :
    Keeps w₀ s₀ (State.useWaiting s k n) := by
  unfold State.useWaiting
  repeat' (first
    | with_reducible assumption
    | with_reducible apply State.useSample_keeps
    | exact hw.le rfl
    | with_reducible apply ResKeeps.next
    | with_reducible apply Keeps.each
    | with_reducible apply Keeps.when
    | with_reducible apply Keeps.foldl
    | split
    | intro _ _ _
    | intro _ _
    | intro _
    | with_reducible refine Keeps.of_pair (by with_reducible assumption) ?_
    | with_reducible refine Keeps.of_triple (by with_reducible assumption) ?_
    | dsimp only)

theorem State.tbRefStep_keeps {w₀ : Nat} {s₀ s : State} (hw : Sub 0x200000000000000000000 w₀) (step : Int) (h₀ : Keeps w₀ s₀ s) :
    Keeps w₀ s₀ (State.tbRefStep s step) := by
  unfold State.tbRefStep
  repeat' (first
    | with_reducible assumption
    | (simp only [Keeps.mk_eq]; with_reducible apply KeepsMk.upd)
    | exact hw.le rfl
    | exact Or.inl (hw.bit rfl)
    | with_reducible exact Or.inr rfl
    | with_reducible apply ResKeeps.next
    | with_reducible apply Keeps.each
    | with_reducible apply Keeps.when
    | with_reducible apply Keeps.foldl
    | split
    | intro _ _ _
    | intro _ _
    | intro _
    | with_reducible refine Keeps.of_pair (by with_reducible assumption) ?_
    | with_reducible refine Keeps.of_triple (by with_reducible assumption) ?_
    | dsimp only)

theorem State.cancelMotion_keeps {w₀ : Nat} {s₀ s : State} (hw : Sub 0x40000000000000000000 w₀) (k : Nat) (n : Nat) (x : Int) (h₀ : Keeps w₀ s₀ s) :
    Keeps w₀ s₀ (State.cancelMotion s k n x) := by
  unfold State.cancelMotion
  repeat' (first
    | with_reducible assumption
    | with_reducible apply State.setTb_keeps
    | exact hw.le rfl
    | with_reducible apply ResKeeps.next
    | with_reducible apply Keeps.each
    | with_reducible apply Keeps.when
    | with_reducible apply Keeps.foldl
    | split
    | intro _ _ _
    | intro _ _
    | intro _
    | with_reducible refine Keeps.of_pair (by with_reducible assumption) ?_
    | with_reducible refine Keeps.of_triple (by with_reducible assumption) ?_
    | dsimp only)

theorem State.shaftMotion_keeps {w₀ : Nat} {s₀ s : State} (hw : Sub 0x240000000000000000000 w₀) (dco : Int) (h₀ : Keeps w₀ s₀ s) :
    Keeps w₀ s₀ (State.shaftMotion s dco) := by
  unfold State.shaftMotion
  repeat' (first
    | with_reducible assumption
    | with_reducible apply State.cancelMotion_keeps
    | (simp only [Keeps.mk_eq]; with_reducible apply KeepsMk.upd)
    | exact hw.le rfl
    | exact Or.inl (hw.bit rfl)
    | with_reducible exact Or.inr rfl
    | with_reducible apply ResKeeps.next
    | with_reducible apply Keeps.each
    | with_reducible apply Keeps.when
    | with_reducible apply Keeps.foldl
    | split
    | intro _ _ _
    | intro _ _
    | intro _
    | with_reducible refine Keeps.of_pair (by with_reducible assumption) ?_
    | with_reducible refine Keeps.of_triple (by with_reducible assumption) ?_
    | dsimp only)

theorem State.tkLoadStart_keeps {w₀ : Nat} {s₀ s : State} (hw : Sub 0x200000000000000000010 w₀) (h₀ : Keeps w₀ s₀ s) :
    Keeps w₀ s₀ (State.tkLoadStart s) := by
  unfold State.tkLoadStart
  repeat' (first
    | with_reducible assumption
    | with_reducible apply Keeps.wr
    | with_reducible exact Reg.tkStatusXcOk_may hw rfl
    | (simp only [Keeps.mk_eq]; with_reducible apply KeepsMk.upd)
    | exact hw.le rfl
    | exact Or.inl (hw.bit rfl)
    | with_reducible exact Or.inr rfl
    | with_reducible apply ResKeeps.next
    | with_reducible apply Keeps.each
    | with_reducible apply Keeps.when
    | with_reducible apply Keeps.foldl
    | split
    | intro _ _ _
    | intro _ _
    | intro _
    | with_reducible refine Keeps.of_pair (by with_reducible assumption) ?_
    | with_reducible refine Keeps.of_triple (by with_reducible assumption) ?_
    | dsimp only)

theorem State.tkLoad_keeps {w₀ : Nat} {s₀ s : State} (hw : Sub 0x240000000000000000010 w₀) (h₀ : Keeps w₀ s₀ s) :
    Keeps w₀ s₀ (State.tkLoad s) := by
  unfold State.tkLoad
  repeat' (first
    | with_reducible assumption
    | with_reducible apply State.wrs_keeps
    | with_reducible apply State.setTb_keeps
    | with_reducible apply State.setSwapped_keeps
    | with_reducible exact Reg.tkStatusStandbyRun_may hw rfl
    | with_reducible exact Reg.tkStatusXcOk_may hw rfl
    | with_reducible exact AllMay.nil _
    | with_reducible apply AllMay.cons
    | with_reducible apply AllMay.append
    | with_reducible apply AllMay.map
    | (simp only [Keeps.mk_eq]; with_reducible apply KeepsMk.upd)
    | exact hw.le rfl
    | exact Or.inl (hw.bit rfl)
    | with_reducible exact Or.inr rfl
    | with_reducible apply ResKeeps.next
    | with_reducible apply Keeps.each
    | with_reducible apply Keeps.when
    | with_reducible apply Keeps.foldl
    | split
    | intro _ _ _
    | intro _ _
    | intro _
    | with_reducible refine Keeps.of_pair (by with_reducible assumption) ?_
    | with_reducible refine Keeps.of_triple (by with_reducible assumption) ?_
    | dsimp only)

theorem State.tkStandbyEnd_keeps {w₀ : Nat} {s₀ s : State} (hw : Sub 0x200000000000000000010 w₀) (h₀ : Keeps w₀ s₀ s) :
    Keeps w₀ s₀ (State.tkStandbyEnd s) := by
  unfold State.tkStandbyEnd
  repeat' (first
    | with_reducible assumption
    | with_reducible apply State.wrs_keeps
    | with_reducible exact Reg.tkStatusStandbyRun_may hw rfl
    | with_reducible exact Reg.tkStatusXcOk_may hw rfl
    | with_reducible exact AllMay.nil _
    | with_reducible apply AllMay.cons
    | with_reducible apply AllMay.append
    | with_reducible apply AllMay.map
    | (simp only [Keeps.mk_eq]; with_reducible apply KeepsMk.upd)
    | exact hw.le rfl
    | exact Or.inl (hw.bit rfl)
    | with_reducible exact Or.inr rfl
    | with_reducible apply ResKeeps.next
    | with_reducible apply Keeps.each
    | with_reducible apply Keeps.when
    | with_reducible apply Keeps.foldl
    | split
    | intro _ _ _
    | intro _ _
    | intro _
    | with_reducible refine Keeps.of_pair (by with_reducible assumption) ?_
    | with_reducible refine Keeps.of_triple (by with_reducible assumption) ?_
    | dsimp only)

theorem State.xcCompare_keeps {w₀ : Nat} {s₀ s : State} (hw : Sub 0x240000000040000000010 w₀) (m : XcMsg) (h₀ : Keeps w₀ s₀ s) :
    Keeps w₀ s₀ (State.xcCompare s m) := by
  unfold State.xcCompare
  repeat' (first
    | with_reducible assumption
    | with_reducible apply Keeps.wr
    | with_reducible apply State.wrBit_keeps
    | with_reducible apply State.setTb_keeps
    | with_reducible apply State.ev_keeps
    | with_reducible exact Reg.tkTbXcDiffXcDiff_may hw rfl
    | with_reducible exact Reg.tkXcStatusOutOfLim_may hw rfl
    | (simp only [Keeps.mk_eq]; with_reducible apply KeepsMk.upd)
    | exact hw.le rfl
    | exact Or.inl (hw.bit rfl)
    | with_reducible exact Or.inr rfl
    | with_reducible apply ResKeeps.next
    | with_reducible apply Keeps.each
    | with_reducible apply Keeps.when
    | with_reducible apply Keeps.foldl
    | split
    | intro _ _ _
    | intro _ _
    | intro _
    | with_reducible refine Keeps.of_pair (by with_reducible assumption) ?_
    | with_reducible refine Keeps.of_triple (by with_reducible assumption) ?_
    | dsimp only)

theorem State.xcJudge_keeps {w₀ : Nat} {s₀ s : State} (hw : Sub 0x200000000000000000010 w₀) (h₀ : Keeps w₀ s₀ s) :
    Keeps w₀ s₀ (State.xcJudge s) := by
  unfold State.xcJudge
  repeat' (first
    | with_reducible assumption
    | with_reducible apply Keeps.wr
    | with_reducible exact Reg.tkStatusXcOk_may hw rfl
    | (simp only [Keeps.mk_eq]; with_reducible apply KeepsMk.upd)
    | exact hw.le rfl
    | exact Or.inl (hw.bit rfl)
    | with_reducible exact Or.inr rfl
    | with_reducible apply ResKeeps.next
    | with_reducible apply Keeps.each
    | with_reducible apply Keeps.when
    | with_reducible apply Keeps.foldl
    | split
    | intro _ _ _
    | intro _ _
    | intro _
    | with_reducible refine Keeps.of_pair (by with_reducible assumption) ?_
    | with_reducible refine Keeps.of_triple (by with_reducible assumption) ?_
    | dsimp only)

theorem State.xcSlot_keeps {w₀ : Nat} {s₀ s : State} (hw : Sub 0x250000000040000000010 w₀) (got : Option XcMsg) (h₀ : Keeps w₀ s₀ s) :
    Keeps w₀ s₀ (State.xcSlot s got) := by
  unfold State.xcSlot
  repeat' (first
    | with_reducible assumption
    | with_reducible apply Keeps.wr
    | with_reducible apply State.bump_keeps
    | with_reducible apply State.report_keeps
    | with_reducible apply State.unreport_keeps
    | with_reducible apply State.xcCompare_keeps
    | with_reducible apply State.xcJudge_keeps
    | with_reducible exact Reg.tkStatusXlinkLost_may hw rfl
    | with_reducible exact Reg.tkTbXcDiffXcDiff_may hw rfl
    | with_reducible exact Reg.tkXcStatusBadSlots_may hw rfl
    | (simp only [Keeps.mk_eq]; with_reducible apply KeepsMk.upd)
    | exact hw.le rfl
    | exact Or.inl (hw.bit rfl)
    | with_reducible exact Or.inr rfl
    | with_reducible apply ResKeeps.next
    | with_reducible apply Keeps.each
    | with_reducible apply Keeps.when
    | with_reducible apply Keeps.foldl
    | split
    | intro _ _ _
    | intro _ _
    | intro _
    | with_reducible refine Keeps.of_pair (by with_reducible assumption) ?_
    | with_reducible refine Keeps.of_triple (by with_reducible assumption) ?_
    | dsimp only)

theorem applyTimebases_keeps {w₀ : Nat} {s₀ s : State} (hw : Sub 0x10 w₀) (v : List Byte) (h₀ : Keeps w₀ s₀ s) :
    Keeps w₀ s₀ (applyTimebases v s) := by
  unfold applyTimebases
  repeat' (first
    | with_reducible assumption
    | with_reducible apply Keeps.wr
    | with_reducible apply State.wrs_keeps
    | with_reducible exact Reg.tkPairEn_may hw rfl
    | with_reducible exact Reg.tkPairPrimary_may hw rfl
    | with_reducible exact Reg.tkPairShadow_may hw rfl
    | with_reducible exact Reg.tkTbCfgEnable_may hw rfl
    | with_reducible exact Reg.tkTbCfgFormat_may hw rfl
    | with_reducible exact Reg.tkTbCfgInitValid_may hw rfl
    | with_reducible exact Reg.tkTbCfgSrc_may hw rfl
    | with_reducible exact Reg.tkTbCfgSrcId_may hw rfl
    | with_reducible exact Reg.tkTbInitSecHiInitSecHi_may hw rfl
    | with_reducible exact Reg.tkTbInitSecLoInitSecLo_may hw rfl
    | with_reducible exact Reg.tkTbPpsDelayPpsDelay_may hw rfl
    | with_reducible exact Reg.tkXcCfgXcLim_may hw rfl
    | with_reducible exact AllMay.nil _
    | with_reducible apply AllMay.cons
    | with_reducible apply AllMay.append
    | with_reducible apply AllMay.map
    | exact hw.le rfl
    | with_reducible apply ResKeeps.next
    | with_reducible apply Keeps.each
    | with_reducible apply Keeps.when
    | with_reducible apply Keeps.foldl
    | split
    | intro _ _ _
    | intro _ _
    | intro _
    | with_reducible refine Keeps.of_pair (by with_reducible assumption) ?_
    | with_reducible refine Keeps.of_triple (by with_reducible assumption) ?_
    | dsimp only)

theorem applyServo_keeps {w₀ : Nat} {s₀ s : State} (hw : Sub 0x10 w₀) (v : List Byte) (h₀ : Keeps w₀ s₀ s) :
    Keeps w₀ s₀ (applyServo v s) := by
  unfold applyServo
  repeat' (first
    | with_reducible assumption
    | with_reducible apply State.wrs_keeps
    | with_reducible exact Reg.tkTbGainKi_may hw rfl
    | with_reducible exact Reg.tkTbGainKp_may hw rfl
    | with_reducible exact Reg.tkTbIlimIlim_may hw rfl
    | with_reducible exact Reg.tkTbOutlierOutlier_may hw rfl
    | with_reducible exact Reg.tkTbSlewSlew_may hw rfl
    | with_reducible exact Reg.tkTbTimesOutlierCnt_may hw rfl
    | with_reducible exact Reg.tkTbTimesTimeoutMs_may hw rfl
    | with_reducible exact Reg.tkTbTrackWinTrackWin_may hw rfl
    | with_reducible exact AllMay.nil _
    | with_reducible apply AllMay.cons
    | with_reducible apply AllMay.append
    | with_reducible apply AllMay.map
    | exact hw.le rfl
    | with_reducible apply ResKeeps.next
    | with_reducible apply Keeps.each
    | with_reducible apply Keeps.when
    | with_reducible apply Keeps.foldl
    | split
    | intro _ _ _
    | intro _ _
    | intro _
    | with_reducible refine Keeps.of_pair (by with_reducible assumption) ?_
    | with_reducible refine Keeps.of_triple (by with_reducible assumption) ?_
    | dsimp only)

theorem execTbSlewComplete_keeps {w₀ : Nat} {s₀ s : State} (hw : Sub 0x40000000000000000000 w₀) (n : Fin 8) (h₀ : Keeps w₀ s₀ s) :
    ResKeeps w₀ s₀ (execTbSlewComplete n s) := by
  unfold execTbSlewComplete
  repeat' (first
    | with_reducible assumption
    | with_reducible apply State.setTb_keeps
    | (simp only [Keeps.mk_eq]; with_reducible apply KeepsMk.upd)
    | exact hw.le rfl
    | exact Or.inl (hw.bit rfl)
    | with_reducible exact Or.inr rfl
    | with_reducible apply ResKeeps.next
    | with_reducible apply Keeps.each
    | with_reducible apply Keeps.when
    | with_reducible apply Keeps.foldl
    | split
    | intro _ _ _
    | intro _ _
    | intro _
    | with_reducible refine Keeps.of_pair (by with_reducible assumption) ?_
    | with_reducible refine Keeps.of_triple (by with_reducible assumption) ?_
    | dsimp only)

theorem execTbSampleTimeout_keeps {w₀ : Nat} {s₀ s : State} (hw : Sub 0xc0028000000000000010 w₀) (n : Fin 8) (h₀ : Keeps w₀ s₀ s) :
    ResKeeps w₀ s₀ (execTbSampleTimeout n s) := by
  unfold execTbSampleTimeout
  repeat' (first
    | with_reducible assumption
    | with_reducible apply State.tbHoldBoth_keeps
    | exact hw.le rfl
    | with_reducible apply ResKeeps.next
    | with_reducible apply Keeps.each
    | with_reducible apply Keeps.when
    | with_reducible apply Keeps.foldl
    | split
    | intro _ _ _
    | intro _ _
    | intro _
    | with_reducible refine Keeps.of_pair (by with_reducible assumption) ?_
    | with_reducible refine Keeps.of_triple (by with_reducible assumption) ?_
    | dsimp only)

theorem execTbFeedNop_keeps {w₀ : Nat} {s₀ s : State} (hw : Sub 0x10 w₀) (n : Fin 8) (h₀ : Keeps w₀ s₀ s) :
    ResKeeps w₀ s₀ (execTbFeedNop n s) := by
  unfold execTbFeedNop
  repeat' (first
    | with_reducible assumption
    | with_reducible apply Keeps.wr
    | with_reducible exact Reg.tkTbFeedStatusResult_may hw rfl
    | exact hw.le rfl
    | with_reducible apply ResKeeps.next
    | with_reducible apply Keeps.each
    | with_reducible apply Keeps.when
    | with_reducible apply Keeps.foldl
    | split
    | intro _ _ _
    | intro _ _
    | intro _
    | with_reducible refine Keeps.of_pair (by with_reducible assumption) ?_
    | with_reducible refine Keeps.of_triple (by with_reducible assumption) ?_
    | dsimp only)

theorem execTbFeedReserved_keeps {w₀ : Nat} {s₀ s : State} (hw : Sub 0x10 w₀) (n : Fin 8) (gen : Fin 65536) (h₀ : Keeps w₀ s₀ s) :
    ResKeeps w₀ s₀ (execTbFeedReserved n gen s) := by
  unfold execTbFeedReserved
  repeat' (first
    | with_reducible assumption
    | with_reducible apply Keeps.wr
    | with_reducible exact Reg.tkTbFeedStatusResult_may hw rfl
    | exact hw.le rfl
    | with_reducible apply ResKeeps.next
    | with_reducible apply Keeps.each
    | with_reducible apply Keeps.when
    | with_reducible apply Keeps.foldl
    | split
    | intro _ _ _
    | intro _ _
    | intro _
    | with_reducible refine Keeps.of_pair (by with_reducible assumption) ?_
    | with_reducible refine Keeps.of_triple (by with_reducible assumption) ?_
    | dsimp only)

theorem State.tbNowLatch_keeps {w₀ : Nat} {s₀ s : State} (hw : Sub 0x80000000000000000010 w₀) (n : Nat) (p : Nat) (h₀ : Keeps w₀ s₀ s) :
    Keeps w₀ s₀ (State.tbNowLatch s n p) := by
  unfold State.tbNowLatch
  repeat' (first
    | with_reducible assumption
    | with_reducible apply State.latch_keeps
    | with_reducible exact Reg.tkTbNowFracNowFrac_may hw rfl
    | with_reducible exact Reg.tkTbNowNsNowNs_may hw rfl
    | with_reducible exact Reg.tkTbNowSecHiNowSecHi_may hw rfl
    | exact hw.le rfl
    | with_reducible apply ResKeeps.next
    | with_reducible apply Keeps.each
    | with_reducible apply Keeps.when
    | with_reducible apply Keeps.foldl
    | split
    | intro _ _ _
    | intro _ _
    | intro _
    | with_reducible refine Keeps.of_pair (by with_reducible assumption) ?_
    | with_reducible refine Keeps.of_triple (by with_reducible assumption) ?_
    | dsimp only)

theorem State.tbOffLatch_keeps {w₀ : Nat} {s₀ s : State} (hw : Sub 0x80000000000000000010 w₀) (n : Nat) (p : Nat) (h₀ : Keeps w₀ s₀ s) :
    Keeps w₀ s₀ (State.tbOffLatch s n p) := by
  unfold State.tbOffLatch
  repeat' (first
    | with_reducible assumption
    | with_reducible apply State.latch_keeps
    | with_reducible exact Reg.tkTbOffHiOffHi_may hw rfl
    | exact hw.le rfl
    | with_reducible apply ResKeeps.next
    | with_reducible apply Keeps.each
    | with_reducible apply Keeps.when
    | with_reducible apply Keeps.foldl
    | split
    | intro _ _ _
    | intro _ _
    | intro _
    | with_reducible refine Keeps.of_pair (by with_reducible assumption) ?_
    | with_reducible refine Keeps.of_triple (by with_reducible assumption) ?_
    | dsimp only)

theorem execStandbyTkLoadDone_keeps {w₀ : Nat} {s₀ s : State} (hw : Sub 0x240000000000000000010 w₀) (h₀ : Keeps w₀ s₀ s) :
    ResKeeps w₀ s₀ (execStandbyTkLoadDone s) := by
  unfold execStandbyTkLoadDone
  repeat' (first
    | with_reducible assumption
    | with_reducible apply State.tkLoad_keeps
    | exact hw.le rfl
    | with_reducible apply ResKeeps.next
    | with_reducible apply Keeps.each
    | with_reducible apply Keeps.when
    | with_reducible apply Keeps.foldl
    | split
    | intro _ _ _
    | intro _ _
    | intro _
    | with_reducible refine Keeps.of_pair (by with_reducible assumption) ?_
    | with_reducible refine Keeps.of_triple (by with_reducible assumption) ?_
    | dsimp only)

end Sys2Proof.Machine
end

