-- ==== Sys2Proof/Laws/KeepSynth.lean ====
section
/-! SUPPORT. What the operations of Machine/Synth.lean keep. -/

set_option linter.all false
set_option Elab.async false

namespace Sys2Proof.Machine

theorem State.setRoot_keeps {w₀ : Nat} {s₀ s : State} (hw : Sub 0x400000000000000000000 w₀) (r : Nat) (x : Root) (h₀ : Keeps w₀ s₀ s) :
    Keeps w₀ s₀ (State.setRoot s r x) := by
  unfold State.setRoot
  repeat' (first
    | with_reducible assumption
    | (simp only [Keeps.mk_eq]; with_reducible apply KeepsMk.upd)
    | exact hw.le rfl
    | exact Or.inl (hw.bit rfl)
    | with_reducible exact Or.inr rfl
    | with_reducible apply ResKeeps.next
    | with_reducible apply Keeps.each
    | with_reducible apply Keeps.when
    | with_reducible apply Keeps.foldl
    | split
    | intro _ _ _
    | intro _ _
    | intro _
    | with_reducible refine Keeps.of_pair (by with_reducible assumption) ?_
    | with_reducible refine Keeps.of_triple (by with_reducible assumption) ?_
    | dsimp only)

theorem State.setRootLock_keeps {w₀ : Nat} {s₀ s : State} (hw : Sub 0xa w₀) (r : Nat) (b : Bool) (h₀ : Keeps w₀ s₀ s) :
    Keeps w₀ s₀ (State.setRootLock s r b) := by
  unfold State.setRootLock
  repeat' (first
    | with_reducible assumption
    | with_reducible apply Keeps.wr
    | with_reducible exact Reg.clkShaftStatusRootaLock_may hw rfl
    | with_reducible exact Reg.clkShaftStatusRootbLock_may hw rfl
    | with_reducible exact Reg.synRootStatusLock_may hw rfl
    | exact hw.le rfl
    | with_reducible apply ResKeeps.next
    | with_reducible apply Keeps.each
    | with_reducible apply Keeps.when
    | with_reducible apply Keeps.foldl
    | split
    | intro _ _ _
    | intro _ _
    | intro _
    | with_reducible refine Keeps.of_pair (by with_reducible assumption) ?_
    | with_reducible refine Keeps.of_triple (by with_reducible assumption) ?_
    | dsimp only)

theorem State.ownBands_keeps {w₀ : Nat} {s₀ s : State} (hw : Sub 0x400000000000000000008 w₀) (h₀ : Keeps w₀ s₀ s) :
    Keeps w₀ s₀ (State.ownBands s) := by
  unfold State.ownBands
  repeat' (first
    | with_reducible assumption
    | with_reducible apply State.wrs_keeps
    | with_reducible exact Reg.synBandCentreCentreKhz_may hw rfl
    | with_reducible exact Reg.synBandCfgCode_may hw rfl
    | with_reducible exact Reg.synBandCfgValid_may hw rfl
    | with_reducible exact Reg.synBandSlopeSlope_may hw rfl
    | with_reducible exact AllMay.nil _
    | with_reducible apply AllMay.cons
    | with_reducible apply AllMay.append
    | with_reducible apply AllMay.map
    | (simp only [Keeps.mk_eq]; with_reducible apply KeepsMk.upd)
    | exact hw.le rfl
    | exact Or.inl (hw.bit rfl)
    | with_reducible exact Or.inr rfl
    | with_reducible apply ResKeeps.next
    | with_reducible apply Keeps.each
    | with_reducible apply Keeps.when
    | with_reducible apply Keeps.foldl
    | split
    | intro _ _ _
    | intro _ _
    | intro _
    | with_reducible refine Keeps.of_pair (by with_reducible assumption) ?_
    | with_reducible refine Keeps.of_triple (by with_reducible assumption) ?_
    | dsimp only)

theorem State.takeBand_keeps {w₀ : Nat} {s₀ s : State} (hw : Sub 0x400000000000000000008 w₀) (r : Nat) (b : Nat) (h₀ : Keeps w₀ s₀ s) :
    Keeps w₀ s₀ (State.takeBand s r b) := by
  unfold State.takeBand
  repeat' (first
    | with_reducible assumption
    | with_reducible apply Keeps.wr
    | with_reducible apply State.setRoot_keeps
    | with_reducible exact Reg.synRootStatusBand_may hw rfl
    | (simp only [Keeps.mk_eq]; with_reducible apply KeepsMk.upd)
    | exact hw.le rfl
    | exact Or.inl (hw.bit rfl)
    | with_reducible exact Or.inr rfl
    | with_reducible apply ResKeeps.next
    | with_reducible apply Keeps.each
    | with_reducible apply Keeps.when
    | with_reducible apply Keeps.foldl
    | split
    | intro _ _ _
    | intro _ _
    | intro _
    | with_reducible refine Keeps.of_pair (by with_reducible assumption) ?_
    | with_reducible refine Keeps.of_triple (by with_reducible assumption) ?_
    | dsimp only)

theorem State.rootFails_keeps {w₀ : Nat} {s₀ s : State} (hw : Sub 0x1000000000000000000a w₀) (r : Nat) (h₀ : Keeps w₀ s₀ s) :
    Keeps w₀ s₀ (State.rootFails s r) := by
  unfold State.rootFails
  repeat' (first
    | with_reducible assumption
    | with_reducible apply Keeps.wr
    | with_reducible apply State.report_keeps
    | with_reducible apply State.setRootLock_keeps
    | with_reducible exact Reg.synRootStatusState_may hw rfl
    | exact hw.le rfl
    | with_reducible apply ResKeeps.next
    | with_reducible apply Keeps.each
    | with_reducible apply Keeps.when
    | with_reducible apply Keeps.foldl
    | split
    | intro _ _ _
    | intro _ _
    | intro _
    | with_reducible refine Keeps.of_pair (by with_reducible assumption) ?_
    | with_reducible refine Keeps.of_triple (by with_reducible assumption) ?_
    | dsimp only)

theorem State.rootTryBand_keeps {w₀ : Nat} {s₀ s : State} (hw : Sub 0x41000000000000000000a w₀) (r : Nat) (h₀ : Keeps w₀ s₀ s) :
    Keeps w₀ s₀ (State.rootTryBand s r) := by
  unfold State.rootTryBand
  repeat' (first
    | with_reducible assumption
    | with_reducible apply State.takeBand_keeps
    | with_reducible apply State.rootFails_keeps
    | exact hw.le rfl
    | with_reducible apply ResKeeps.next
    | with_reducible apply Keeps.each
    | with_reducible apply Keeps.when
    | with_reducible apply Keeps.foldl
    | split
    | intro _ _ _
    | intro _ _
    | intro _
    | with_reducible refine Keeps.of_pair (by with_reducible assumption) ?_
    | with_reducible refine Keeps.of_triple (by with_reducible assumption) ?_
    | dsimp only)

theorem State.rootStart_keeps {w₀ : Nat} {s₀ s : State} (hw : Sub 0x41000000000000000000a w₀) (r : Nat) (h₀ : Keeps w₀ s₀ s) :
    Keeps w₀ s₀ (State.rootStart s r) := by
  unfold State.rootStart
  repeat' (first
    | with_reducible assumption
    | with_reducible apply Keeps.wr
    | with_reducible apply State.setRoot_keeps
    | with_reducible apply State.rootTryBand_keeps
    | with_reducible exact Reg.synRootStatusState_may hw rfl
    | exact hw.le rfl
    | with_reducible apply ResKeeps.next
    | with_reducible apply Keeps.each
    | with_reducible apply Keeps.when
    | with_reducible apply Keeps.foldl
    | split
    | intro _ _ _
    | intro _ _
    | intro _
    | with_reducible refine Keeps.of_pair (by with_reducible assumption) ?_
    | with_reducible refine Keeps.of_triple (by with_reducible assumption) ?_
    | dsimp only)

theorem State.rootStop_keeps {w₀ : Nat} {s₀ s : State} (hw : Sub 0x41000000000000000000a w₀) (r : Nat) (h₀ : Keeps w₀ s₀ s) :
    Keeps w₀ s₀ (State.rootStop s r) := by
  unfold State.rootStop
  repeat' (first
    | with_reducible assumption
    | with_reducible apply State.wrs_keeps
    | with_reducible apply State.unreport_keeps
    | with_reducible apply State.setRoot_keeps
    | with_reducible apply State.setRootLock_keeps
    | with_reducible exact Reg.synRootStatusBand_may hw rfl
    | with_reducible exact Reg.synRootStatusClamp_may hw rfl
    | with_reducible exact Reg.synRootStatusEffBw_may hw rfl
    | with_reducible exact Reg.synRootStatusState_may hw rfl
    | with_reducible exact Reg.synTrackTrackOk_may hw rfl
    | with_reducible exact AllMay.nil _
    | with_reducible apply AllMay.cons
    | with_reducible apply AllMay.append
    | with_reducible apply AllMay.map
    | (simp only [Keeps.mk_eq]; with_reducible apply KeepsMk.upd)
    | exact hw.le rfl
    | exact Or.inl (hw.bit rfl)
    | with_reducible exact Or.inr rfl
    | with_reducible apply ResKeeps.next
    | with_reducible apply Keeps.each
    | with_reducible apply Keeps.when
    | with_reducible apply Keeps.foldl
    | split
    | intro _ _ _
    | intro _ _
    | intro _
    | with_reducible refine Keeps.of_pair (by with_reducible assumption) ?_
    | with_reducible refine Keeps.of_triple (by with_reducible assumption) ?_
    | dsimp only)

theorem State.rootFollow_keeps {w₀ : Nat} {s₀ s : State} (hw : Sub 0xa w₀) (r : Nat) (h₀ : Keeps w₀ s₀ s) :
    Keeps w₀ s₀ (State.rootFollow s r) := by
  unfold State.rootFollow
  repeat' (first
    | with_reducible assumption
    | with_reducible apply State.wrs_keeps
    | with_reducible apply State.setRootLock_keeps
    | with_reducible exact Reg.synRootStatusEffBw_may hw rfl
    | with_reducible exact Reg.synRootStatusState_may hw rfl
    | with_reducible exact AllMay.nil _
    | with_reducible apply AllMay.cons
    | with_reducible apply AllMay.append
    | with_reducible apply AllMay.map
    | exact hw.le rfl
    | with_reducible apply ResKeeps.next
    | with_reducible apply Keeps.each
    | with_reducible apply Keeps.when
    | with_reducible apply Keeps.foldl
    | split
    | intro _ _ _
    | intro _ _
    | intro _
    | with_reducible refine Keeps.of_pair (by with_reducible assumption) ?_
    | with_reducible refine Keeps.of_triple (by with_reducible assumption) ?_
    | dsimp only)

theorem State.rootBwApply_keeps {w₀ : Nat} {s₀ s : State} (hw : Sub 0x8 w₀) (h₀ : Keeps w₀ s₀ s) :
    Keeps w₀ s₀ (State.rootBwApply s) := by
  unfold State.rootBwApply
  repeat' (first
    | with_reducible assumption
    | with_reducible apply Keeps.wr
    | with_reducible exact Reg.synRootStatusEffBw_may hw rfl
    | exact hw.le rfl
    | with_reducible apply ResKeeps.next
    | with_reducible apply Keeps.each
    | with_reducible apply Keeps.when
    | with_reducible apply Keeps.foldl
    | split
    | intro _ _ _
    | intro _ _
    | intro _
    | with_reducible refine Keeps.of_pair (by with_reducible assumption) ?_
    | with_reducible refine Keeps.of_triple (by with_reducible assumption) ?_
    | dsimp only)

theorem State.rootsDrive_keeps {w₀ : Nat} {s₀ s : State} (hw : Sub 0x40000000000000000000a w₀) (c : Nat) (h₀ : Keeps w₀ s₀ s) :
    Keeps w₀ s₀ (State.rootsDrive s c) := by
  unfold State.rootsDrive
  repeat' (first
    | with_reducible assumption
    | with_reducible apply State.rootFollow_keeps
    | (simp only [Keeps.mk_eq]; with_reducible apply KeepsMk.upd)
    | exact hw.le rfl
    | exact Or.inl (hw.bit rfl)
    | with_reducible exact Or.inr rfl
    | with_reducible apply ResKeeps.next
    | with_reducible apply Keeps.each
    | with_reducible apply Keeps.when
    | with_reducible apply Keeps.foldl
    | split
    | intro _ _ _
    | intro _ _
    | intro _
    | with_reducible refine Keeps.of_pair (by with_reducible assumption) ?_
    | with_reducible refine Keeps.of_triple (by with_reducible assumption) ?_
    | dsimp only)

theorem State.rootsConnect_keeps {w₀ : Nat} {s₀ s : State} (hw : Sub 0x40000000000000000000a w₀) (h₀ : Keeps w₀ s₀ s) :
    Keeps w₀ s₀ (State.rootsConnect s) := by
  unfold State.rootsConnect
  repeat' (first
    | with_reducible assumption
    | with_reducible apply State.rootBwApply_keeps
    | with_reducible apply State.rootsDrive_keeps
    | exact hw.le rfl
    | with_reducible apply ResKeeps.next
    | with_reducible apply Keeps.each
    | with_reducible apply Keeps.when
    | with_reducible apply Keeps.foldl
    | split
    | intro _ _ _
    | intro _ _
    | intro _
    | with_reducible refine Keeps.of_pair (by with_reducible assumption) ?_
    | with_reducible refine Keeps.of_triple (by with_reducible assumption) ?_
    | dsimp only)

theorem State.rootsHold_keeps {w₀ : Nat} {s₀ s : State} (hw : Sub 0x40000000000000000000a w₀) (w : Int) (h₀ : Keeps w₀ s₀ s) :
    Keeps w₀ s₀ (State.rootsHold s w) := by
  unfold State.rootsHold
  repeat' (first
    | with_reducible assumption
    | with_reducible apply State.rootsDrive_keeps
    | (simp only [Keeps.mk_eq]; with_reducible apply KeepsMk.upd)
    | exact hw.le rfl
    | exact Or.inl (hw.bit rfl)
    | with_reducible exact Or.inr rfl
    | with_reducible apply ResKeeps.next
    | with_reducible apply Keeps.each
    | with_reducible apply Keeps.when
    | with_reducible apply Keeps.foldl
    | split
    | intro _ _ _
    | intro _ _
    | intro _
    | with_reducible refine Keeps.of_pair (by with_reducible assumption) ?_
    | with_reducible refine Keeps.of_triple (by with_reducible assumption) ?_
    | dsimp only)

theorem execRootDcoUpdate_keeps {w₀ : Nat} {s₀ s : State} (hw : Sub 0x65000000000000000000a w₀) (root : Fin 2) (target : Int) (locked : Bool) (h₀ : Keeps w₀ s₀ s) :
    ResKeeps w₀ s₀ (execRootDcoUpdate root target locked s) := by
  unfold execRootDcoUpdate
  repeat' (first
    | with_reducible assumption
    | with_reducible apply Keeps.wr
    | with_reducible apply State.report_keeps
    | with_reducible apply State.unreport_keeps
    | with_reducible apply State.shaftMotion_keeps
    | with_reducible apply State.setRoot_keeps
    | with_reducible apply State.setRootLock_keeps
    | with_reducible apply State.takeBand_keeps
    | with_reducible exact Reg.synRootStatusClamp_may hw rfl
    | with_reducible exact Reg.synRootStatusState_may hw rfl
    | with_reducible exact Reg.synTrackTrackOk_may hw rfl
    | (simp only [Keeps.mk_eq]; with_reducible apply KeepsMk.upd)
    | exact hw.le rfl
    | exact Or.inl (hw.bit rfl)
    | with_reducible exact Or.inr rfl
    | with_reducible apply ResKeeps.next
    | with_reducible apply Keeps.each
    | with_reducible apply Keeps.when
    | with_reducible apply Keeps.foldl
    | split
    | intro _ _ _
    | intro _ _
    | intro _
    | with_reducible refine Keeps.of_pair (by with_reducible assumption) ?_
    | with_reducible refine Keeps.of_triple (by with_reducible assumption) ?_
    | dsimp only)

theorem execRootRelockDone_keeps {w₀ : Nat} {s₀ s : State} (hw : Sub 0xa w₀) (root : Fin 2) (h₀ : Keeps w₀ s₀ s) :
    ResKeeps w₀ s₀ (execRootRelockDone root s) := by
  unfold execRootRelockDone
  repeat' (first
    | with_reducible assumption
    | with_reducible apply State.setRootLock_keeps
    | with_reducible apply State.rootFollow_keeps
    | exact hw.le rfl
    | with_reducible apply ResKeeps.next
    | with_reducible apply Keeps.each
    | with_reducible apply Keeps.when
    | with_reducible apply Keeps.foldl
    | split
    | intro _ _ _
    | intro _ _
    | intro _
    | with_reducible refine Keeps.of_pair (by with_reducible assumption) ?_
    | with_reducible refine Keeps.of_triple (by with_reducible assumption) ?_
    | dsimp only)

theorem execRootBandWindow_keeps {w₀ : Nat} {s₀ s : State} (hw : Sub 0x41000000000000000000a w₀) (root : Fin 2) (offPpb : Int) (h₀ : Keeps w₀ s₀ s) :
    ResKeeps w₀ s₀ (execRootBandWindow root offPpb s) := by
  unfold execRootBandWindow
  repeat' (first
    | with_reducible assumption
    | with_reducible apply State.setRoot_keeps
    | with_reducible apply State.rootTryBand_keeps
    | with_reducible apply State.rootFollow_keeps
    | (simp only [Keeps.mk_eq]; with_reducible apply KeepsMk.upd)
    | exact hw.le rfl
    | exact Or.inl (hw.bit rfl)
    | with_reducible exact Or.inr rfl
    | with_reducible apply ResKeeps.next
    | with_reducible apply Keeps.each
    | with_reducible apply Keeps.when
    | with_reducible apply Keeps.foldl
    | split
    | intro _ _ _
    | intro _ _
    | intro _
    | with_reducible refine Keeps.of_pair (by with_reducible assumption) ?_
    | with_reducible refine Keeps.of_triple (by with_reducible assumption) ?_
    | dsimp only)

theorem State.standbyTkStart_keeps {w₀ : Nat} {s₀ s : State} (hw : Sub 0x200000000010000000010 w₀) (h₀ : Keeps w₀ s₀ s) :
    Keeps w₀ s₀ (State.standbyTkStart s) := by
  unfold State.standbyTkStart
  repeat' (first
    | with_reducible assumption
    | with_reducible apply State.unitStart_keeps
    | with_reducible apply State.tkLoadStart_keeps
    | exact hw.le rfl
    | with_reducible apply ResKeeps.next
    | with_reducible apply Keeps.each
    | with_reducible apply Keeps.when
    | with_reducible apply Keeps.foldl
    | split
    | intro _ _ _
    | intro _ _
    | intro _
    | with_reducible refine Keeps.of_pair (by with_reducible assumption) ?_
    | with_reducible refine Keeps.of_triple (by with_reducible assumption) ?_
    | dsimp only)

theorem execStandbyTrackMeasure_keeps {w₀ : Nat} {s₀ s : State} (hw : Sub 0x600000000010000000018 w₀) (diff : Int) (h₀ : Keeps w₀ s₀ s) :
    ResKeeps w₀ s₀ (execStandbyTrackMeasure diff s) := by
  unfold execStandbyTrackMeasure
  repeat' (first
    | with_reducible assumption
    | with_reducible apply State.wrs_keeps
    | with_reducible apply State.standbyTkStart_keeps
    | with_reducible exact Reg.synTrackErr_may hw rfl
    | with_reducible exact Reg.synTrackTrackOk_may hw rfl
    | with_reducible exact AllMay.nil _
    | with_reducible apply AllMay.cons
    | with_reducible apply AllMay.append
    | with_reducible apply AllMay.map
    | (simp only [Keeps.mk_eq]; with_reducible apply KeepsMk.upd)
    | exact hw.le rfl
    | exact Or.inl (hw.bit rfl)
    | with_reducible exact Or.inr rfl
    | with_reducible apply ResKeeps.next
    | with_reducible apply Keeps.each
    | with_reducible apply Keeps.when
    | with_reducible apply Keeps.foldl
    | split
    | intro _ _ _
    | intro _ _
    | intro _
    | with_reducible refine Keeps.of_pair (by with_reducible assumption) ?_
    | with_reducible refine Keeps.of_triple (by with_reducible assumption) ?_
    | dsimp only)

theorem State.setOs_keeps {w₀ : Nat} {s₀ s : State} (hw : Sub 0x400000000000000000000 w₀) (o : Nat) (x : Os) (h₀ : Keeps w₀ s₀ s) :
    Keeps w₀ s₀ (State.setOs s o x) := by
  unfold State.setOs
  repeat' (first
    | with_reducible assumption
    | (simp only [Keeps.mk_eq]; with_reducible apply KeepsMk.upd)
    | exact hw.le rfl
    | exact Or.inl (hw.bit rfl)
    | with_reducible exact Or.inr rfl
    | with_reducible apply ResKeeps.next
    | with_reducible apply Keeps.each
    | with_reducible apply Keeps.when
    | with_reducible apply Keeps.foldl
    | split
    | intro _ _ _
    | intro _ _
    | intro _
    | with_reducible refine Keeps.of_pair (by with_reducible assumption) ?_
    | with_reducible refine Keeps.of_triple (by with_reducible assumption) ?_
    | dsimp only)

theorem State.setCko_keeps {w₀ : Nat} {s₀ s : State} (hw : Sub 0x400000000000000000000 w₀) (n : Nat) (x : Cko) (h₀ : Keeps w₀ s₀ s) :
    Keeps w₀ s₀ (State.setCko s n x) := by
  unfold State.setCko
  repeat' (first
    | with_reducible assumption
    | (simp only [Keeps.mk_eq]; with_reducible apply KeepsMk.upd)
    | exact hw.le rfl
    | exact Or.inl (hw.bit rfl)
    | with_reducible exact Or.inr rfl
    | with_reducible apply ResKeeps.next
    | with_reducible apply Keeps.each
    | with_reducible apply Keeps.when
    | with_reducible apply Keeps.foldl
    | split
    | intro _ _ _
    | intro _ _
    | intro _
    | with_reducible refine Keeps.of_pair (by with_reducible assumption) ?_
    | with_reducible refine Keeps.of_triple (by with_reducible assumption) ?_
    | dsimp only)

theorem State.updCko_keeps {w₀ : Nat} {s₀ s : State} (hw : Sub 0x8 w₀) (n : Nat) (h₀ : Keeps w₀ s₀ s) :
    Keeps w₀ s₀ (State.updCko s n) := by
  unfold State.updCko
  repeat' (first
    | with_reducible assumption
    | with_reducible apply Keeps.wr
    | with_reducible exact Reg.synCkoCtlDriving_may hw rfl
    | exact hw.le rfl
    | with_reducible apply ResKeeps.next
    | with_reducible apply Keeps.each
    | with_reducible apply Keeps.when
    | with_reducible apply Keeps.foldl
    | split
    | intro _ _ _
    | intro _ _
    | intro _
    | with_reducible refine Keeps.of_pair (by with_reducible assumption) ?_
    | with_reducible refine Keeps.of_triple (by with_reducible assumption) ?_
    | dsimp only)

theorem State.updCkos_keeps {w₀ : Nat} {s₀ s : State} (hw : Sub 0x8 w₀) (h₀ : Keeps w₀ s₀ s) :
    Keeps w₀ s₀ (State.updCkos s) := by
  unfold State.updCkos
  repeat' (first
    | with_reducible assumption
    | with_reducible apply State.updCko_keeps
    | exact hw.le rfl
    | with_reducible apply ResKeeps.next
    | with_reducible apply Keeps.each
    | with_reducible apply Keeps.when
    | with_reducible apply Keeps.foldl
    | split
    | intro _ _ _
    | intro _ _
    | intro _
    | with_reducible refine Keeps.of_pair (by with_reducible assumption) ?_
    | with_reducible refine Keeps.of_triple (by with_reducible assumption) ?_
    | dsimp only)

theorem State.osAlign_keeps {w₀ : Nat} {s₀ s : State} (hw : Sub 0x400000000000000000008 w₀) (o : Nat) (h₀ : Keeps w₀ s₀ s) :
    Keeps w₀ s₀ (State.osAlign s o) := by
  unfold State.osAlign
  repeat' (first
    | with_reducible assumption
    | with_reducible apply Keeps.wr
    | with_reducible apply State.setOs_keeps
    | with_reducible exact Reg.synOsStatusTlState_may hw rfl
    | (simp only [Keeps.mk_eq]; with_reducible apply KeepsMk.upd)
    | exact hw.le rfl
    | exact Or.inl (hw.bit rfl)
    | with_reducible exact Or.inr rfl
    | with_reducible apply ResKeeps.next
    | with_reducible apply Keeps.each
    | with_reducible apply Keeps.when
    | with_reducible apply Keeps.foldl
    | split
    | intro _ _ _
    | intro _ _
    | intro _
    | with_reducible refine Keeps.of_pair (by with_reducible assumption) ?_
    | with_reducible refine Keeps.of_triple (by with_reducible assumption) ?_
    | dsimp only)

theorem State.osFailover_keeps {w₀ : Nat} {s₀ s : State} (hw : Sub 0x400000000000000000008 w₀) (o : Nat) (h₀ : Keeps w₀ s₀ s) :
    Keeps w₀ s₀ (State.osFailover s o) := by
  unfold State.osFailover
  repeat' (first
    | with_reducible assumption
    | with_reducible apply Keeps.wr
    | with_reducible apply State.osAlign_keeps
    | with_reducible exact Reg.synOsStatusTlState_may hw rfl
    | exact hw.le rfl
    | with_reducible apply ResKeeps.next
    | with_reducible apply Keeps.each
    | with_reducible apply Keeps.when
    | with_reducible apply Keeps.foldl
    | split
    | intro _ _ _
    | intro _ _
    | intro _
    | with_reducible refine Keeps.of_pair (by with_reducible assumption) ?_
    | with_reducible refine Keeps.of_triple (by with_reducible assumption) ?_
    | dsimp only)

theorem execTlCompare_keeps {w₀ : Nat} {s₀ s : State} (hw : Sub 0x410000000000000000008 w₀) (os : Fin 4) (err : Int) (frac : Fin 1099511627776) (h₀ : Keeps w₀ s₀ s) :
    ResKeeps w₀ s₀ (execTlCompare os err frac s) := by
  unfold execTlCompare
  repeat' (first
    | with_reducible assumption
    | with_reducible apply Keeps.wr
    | with_reducible apply State.report_keeps
    | with_reducible apply State.unreport_keeps
    | with_reducible apply State.setOs_keeps
    | with_reducible apply State.osAlign_keeps
    | with_reducible exact Reg.synOsStatusTlErr_may hw rfl
    | with_reducible exact Reg.synOsStatusTlState_may hw rfl
    | (simp only [Keeps.mk_eq]; with_reducible apply KeepsMk.upd)
    | exact hw.le rfl
    | exact Or.inl (hw.bit rfl)
    | with_reducible exact Or.inr rfl
    | with_reducible apply ResKeeps.next
    | with_reducible apply Keeps.each
    | with_reducible apply Keeps.when
    | with_reducible apply Keeps.foldl
    | split
    | intro _ _ _
    | intro _ _
    | intro _
    | with_reducible refine Keeps.of_pair (by with_reducible assumption) ?_
    | with_reducible refine Keeps.of_triple (by with_reducible assumption) ?_
    | dsimp only)

theorem State.ckoRestart_keeps {w₀ : Nat} {s₀ s : State} (hw : Sub 0x400000000000000000000 w₀) (n : Nat) (sec : Nat) (h₀ : Keeps w₀ s₀ s) :
    Keeps w₀ s₀ (State.ckoRestart s n sec) := by
  unfold State.ckoRestart
  repeat' (first
    | with_reducible assumption
    | with_reducible apply State.setCko_keeps
    | (simp only [Keeps.mk_eq]; with_reducible apply KeepsMk.upd)
    | exact hw.le rfl
    | exact Or.inl (hw.bit rfl)
    | with_reducible exact Or.inr rfl
    | with_reducible apply ResKeeps.next
    | with_reducible apply Keeps.each
    | with_reducible apply Keeps.when
    | with_reducible apply Keeps.foldl
    | split
    | intro _ _ _
    | intro _ _
    | intro _
    | with_reducible refine Keeps.of_pair (by with_reducible assumption) ?_
    | with_reducible refine Keeps.of_triple (by with_reducible assumption) ?_
    | dsimp only)

theorem execTlAlignInstant_keeps {w₀ : Nat} {s₀ s : State} (hw : Sub 0x400000000000000000000 w₀) (os : Fin 4) (h₀ : Keeps w₀ s₀ s) :
    ResKeeps w₀ s₀ (execTlAlignInstant os s) := by
  unfold execTlAlignInstant
  repeat' (first
    | with_reducible assumption
    | with_reducible apply State.setOs_keeps
    | with_reducible apply State.ckoRestart_keeps
    | (simp only [Keeps.mk_eq]; with_reducible apply KeepsMk.upd)
    | exact hw.le rfl
    | exact Or.inl (hw.bit rfl)
    | with_reducible exact Or.inr rfl
    | with_reducible apply ResKeeps.next
    | with_reducible apply Keeps.each
    | with_reducible apply Keeps.when
    | with_reducible apply Keeps.foldl
    | split
    | intro _ _ _
    | intro _ _
    | intro _
    | with_reducible refine Keeps.of_pair (by with_reducible assumption) ?_
    | with_reducible refine Keeps.of_triple (by with_reducible assumption) ?_
    | dsimp only)

theorem execTlOutputStart_keeps {w₀ : Nat} {s₀ s : State} (hw : Sub 0x400000000000000000008 w₀) (os : Fin 4) (h₀ : Keeps w₀ s₀ s) :
    ResKeeps w₀ s₀ (execTlOutputStart os s) := by
  unfold execTlOutputStart
  repeat' (first
    | with_reducible assumption
    | with_reducible apply State.setOs_keeps
    | with_reducible apply State.setCko_keeps
    | with_reducible apply State.updCkos_keeps
    | (simp only [Keeps.mk_eq]; with_reducible apply KeepsMk.upd)
    | exact hw.le rfl
    | exact Or.inl (hw.bit rfl)
    | with_reducible exact Or.inr rfl
    | with_reducible apply ResKeeps.next
    | with_reducible apply Keeps.each
    | with_reducible apply Keeps.when
    | with_reducible apply Keeps.foldl
    | split
    | intro _ _ _
    | intro _ _
    | intro _
    | with_reducible refine Keeps.of_pair (by with_reducible assumption) ?_
    | with_reducible refine Keeps.of_triple (by with_reducible assumption) ?_
    | dsimp only)

theorem State.osUnlock_keeps {w₀ : Nat} {s₀ s : State} (hw : Sub 0x410000000000000000008 w₀) (o : Nat) (h₀ : Keeps w₀ s₀ s) :
    Keeps w₀ s₀ (State.osUnlock s o) := by
  unfold State.osUnlock
  repeat' (first
    | with_reducible assumption
    | with_reducible apply Keeps.wr
    | with_reducible apply State.unreport_keeps
    | with_reducible apply State.setOs_keeps
    | with_reducible apply State.setCko_keeps
    | with_reducible apply State.updCkos_keeps
    | with_reducible exact Reg.synOsStatusLock_may hw rfl
    | with_reducible exact Reg.synOsStatusTlState_may hw rfl
    | (simp only [Keeps.mk_eq]; with_reducible apply KeepsMk.upd)
    | exact hw.le rfl
    | exact Or.inl (hw.bit rfl)
    | with_reducible exact Or.inr rfl
    | with_reducible apply ResKeeps.next
    | with_reducible apply Keeps.each
    | with_reducible apply Keeps.when
    | with_reducible apply Keeps.foldl
    | split
    | intro _ _ _
    | intro _ _
    | intro _
    | with_reducible refine Keeps.of_pair (by with_reducible assumption) ?_
    | with_reducible refine Keeps.of_triple (by with_reducible assumption) ?_
    | dsimp only)

theorem execSynthLockLoss_keeps {w₀ : Nat} {s₀ s : State} (hw : Sub 0x410000000000000000008 w₀) (os : Fin 4) (h₀ : Keeps w₀ s₀ s) :
    ResKeeps w₀ s₀ (execSynthLockLoss os s) := by
  unfold execSynthLockLoss
  repeat' (first
    | with_reducible assumption
    | with_reducible apply State.osUnlock_keeps
    | exact hw.le rfl
    | with_reducible apply ResKeeps.next
    | with_reducible apply Keeps.each
    | with_reducible apply Keeps.when
    | with_reducible apply Keeps.foldl
    | split
    | intro _ _ _
    | intro _ _
    | intro _
    | with_reducible refine Keeps.of_pair (by with_reducible assumption) ?_
    | with_reducible refine Keeps.of_triple (by with_reducible assumption) ?_
    | dsimp only)

theorem execSynthesizerLocked_keeps {w₀ : Nat} {s₀ s : State} (hw : Sub 0x400000000000000000008 w₀) (os : Fin 4) (h₀ : Keeps w₀ s₀ s) :
    ResKeeps w₀ s₀ (execSynthesizerLocked os s) := by
  unfold execSynthesizerLocked
  repeat' (first
    | with_reducible assumption
    | with_reducible apply Keeps.wr
    | with_reducible apply State.updCkos_keeps
    | with_reducible apply State.osAlign_keeps
    | with_reducible exact Reg.synOsStatusLock_may hw rfl
    | exact hw.le rfl
    | with_reducible apply ResKeeps.next
    | with_reducible apply Keeps.each
    | with_reducible apply Keeps.when
    | with_reducible apply Keeps.foldl
    | split
    | intro _ _ _
    | intro _ _
    | intro _
    | with_reducible refine Keeps.of_pair (by with_reducible assumption) ?_
    | with_reducible refine Keeps.of_triple (by with_reducible assumption) ?_
    | dsimp only)

theorem State.osStart_keeps {w₀ : Nat} {s₀ s : State} (hw : Sub 0x8 w₀) (h₀ : Keeps w₀ s₀ s) :
    Keeps w₀ s₀ (State.osStart s) := by
  unfold State.osStart
  repeat' (first
    | with_reducible assumption
    | with_reducible apply Keeps.wr
    | with_reducible exact Reg.synOsStatusTlState_may hw rfl
    | exact hw.le rfl
    | with_reducible apply ResKeeps.next
    | with_reducible apply Keeps.each
    | with_reducible apply Keeps.when
    | with_reducible apply Keeps.foldl
    | split
    | intro _ _ _
    | intro _ _
    | intro _
    | with_reducible refine Keeps.of_pair (by with_reducible assumption) ?_
    | with_reducible refine Keeps.of_triple (by with_reducible assumption) ?_
    | dsimp only)

theorem State.synthOff_keeps {w₀ : Nat} {s₀ s : State} (hw : Sub 0x410000000000000000008 w₀) (h₀ : Keeps w₀ s₀ s) :
    Keeps w₀ s₀ (State.synthOff s) := by
  unfold State.synthOff
  repeat' (first
    | with_reducible assumption
    | with_reducible apply State.osUnlock_keeps
    | exact hw.le rfl
    | with_reducible apply ResKeeps.next
    | with_reducible apply Keeps.each
    | with_reducible apply Keeps.when
    | with_reducible apply Keeps.foldl
    | split
    | intro _ _ _
    | intro _ _
    | intro _
    | with_reducible refine Keeps.of_pair (by with_reducible assumption) ?_
    | with_reducible refine Keeps.of_triple (by with_reducible assumption) ?_
    | dsimp only)

theorem execCkoOeHostWrite_keeps {w₀ : Nat} {s₀ s : State} (hw : Sub 0x8 w₀) (n : Fin 12) (value : Bool) (h₀ : Keeps w₀ s₀ s) :
    ResKeeps w₀ s₀ (execCkoOeHostWrite n value s) := by
  unfold execCkoOeHostWrite
  repeat' (first
    | with_reducible assumption
    | with_reducible apply Keeps.wr
    | with_reducible apply State.updCko_keeps
    | with_reducible exact Reg.synCkoCtlOeHost_may hw rfl
    | exact hw.le rfl
    | with_reducible apply ResKeeps.next
    | with_reducible apply Keeps.each
    | with_reducible apply Keeps.when
    | with_reducible apply Keeps.foldl
    | split
    | intro _ _ _
    | intro _ _
    | intro _
    | with_reducible refine Keeps.of_pair (by with_reducible assumption) ?_
    | with_reducible refine Keeps.of_triple (by with_reducible assumption) ?_
    | dsimp only)

theorem execSyncInEdge_keeps {w₀ : Nat} {s₀ s : State} (hw : Sub 0x400000000000000000008 w₀) (rising : Bool) (h₀ : Keeps w₀ s₀ s) :
    ResKeeps w₀ s₀ (execSyncInEdge rising s) := by
  unfold execSyncInEdge
  repeat' (first
    | with_reducible assumption
    | with_reducible apply Keeps.wr
    | with_reducible apply State.bump_keeps
    | with_reducible exact Reg.synSyncStatusIgnored_may hw rfl
    | with_reducible exact Reg.synSyncStatusPending_may hw rfl
    | (simp only [Keeps.mk_eq]; with_reducible apply KeepsMk.upd)
    | exact hw.le rfl
    | exact Or.inl (hw.bit rfl)
    | with_reducible exact Or.inr rfl
    | with_reducible apply ResKeeps.next
    | with_reducible apply Keeps.each
    | with_reducible apply Keeps.when
    | with_reducible apply Keeps.foldl
    | split
    | intro _ _ _
    | intro _ _
    | intro _
    | with_reducible refine Keeps.of_pair (by with_reducible assumption) ?_
    | with_reducible refine Keeps.of_triple (by with_reducible assumption) ?_
    | dsimp only)

theorem execSyncRestart_keeps {w₀ : Nat} {s₀ s : State} (hw : Sub 0x400000000000000000008 w₀) (h₀ : Keeps w₀ s₀ s) :
    ResKeeps w₀ s₀ (execSyncRestart s) := by
  unfold execSyncRestart
  repeat' (first
    | with_reducible assumption
    | with_reducible apply Keeps.wr
    | with_reducible apply State.bump_keeps
    | with_reducible apply State.ckoRestart_keeps
    | with_reducible exact Reg.synSyncStatusDone_may hw rfl
    | with_reducible exact Reg.synSyncStatusPending_may hw rfl
    | (simp only [Keeps.mk_eq]; with_reducible apply KeepsMk.upd)
    | exact hw.le rfl
    | exact Or.inl (hw.bit rfl)
    | with_reducible exact Or.inr rfl
    | with_reducible apply ResKeeps.next
    | with_reducible apply Keeps.each
    | with_reducible apply Keeps.when
    | with_reducible apply Keeps.foldl
    | split
    | intro _ _ _
    | intro _ _
    | intro _
    | with_reducible refine Keeps.of_pair (by with_reducible assumption) ?_
    | with_reducible refine Keeps.of_triple (by with_reducible assumption) ?_
    | dsimp only)

theorem applyBandTable_keeps {w₀ : Nat} {s₀ s : State} (hw : Sub 0x400000000000000000008 w₀) (v : List Byte) (h₀ : Keeps w₀ s₀ s) :
    Keeps w₀ s₀ (applyBandTable v s) := by
  unfold applyBandTable
  repeat' (first
    | with_reducible assumption
    | with_reducible apply Keeps.wr
    | with_reducible apply State.wrs_keeps
    | with_reducible exact Reg.synBandCentreCentreKhz_may hw rfl
    | with_reducible exact Reg.synBandCfgCode_may hw rfl
    | with_reducible exact Reg.synBandCfgValid_may hw rfl
    | with_reducible exact Reg.synBandSlopeSlope_may hw rfl
    | with_reducible exact Reg.synRootCfgLoopBw_may hw rfl
    | with_reducible exact AllMay.nil _
    | with_reducible apply AllMay.cons
    | with_reducible apply AllMay.append
    | with_reducible apply AllMay.map
    | (simp only [Keeps.mk_eq]; with_reducible apply KeepsMk.upd)
    | exact hw.le rfl
    | exact Or.inl (hw.bit rfl)
    | with_reducible exact Or.inr rfl
    | with_reducible apply ResKeeps.next
    | with_reducible apply Keeps.each
    | with_reducible apply Keeps.when
    | with_reducible apply Keeps.foldl
    | split
    | intro _ _ _
    | intro _ _
    | intro _
    | with_reducible refine Keeps.of_pair (by with_reducible assumption) ?_
    | with_reducible refine Keeps.of_triple (by with_reducible assumption) ?_
    | dsimp only)

theorem applyOutputs_keeps {w₀ : Nat} {s₀ s : State} (hw : Sub 0x8 w₀) (v : List Byte) (h₀ : Keeps w₀ s₀ s) :
    Keeps w₀ s₀ (applyOutputs v s) := by
  unfold applyOutputs
  repeat' (first
    | with_reducible assumption
    | with_reducible apply State.wrs_keeps
    | with_reducible exact Reg.synCkoCfgFormat_may hw rfl
    | with_reducible exact Reg.synCkoCfgLegN_may hw rfl
    | with_reducible exact Reg.synCkoCfgLegP_may hw rfl
    | with_reducible exact Reg.synCkoCfgOs_may hw rfl
    | with_reducible exact Reg.synCkoCfgSyncEn_may hw rfl
    | with_reducible exact Reg.synCkoCtlCoarse_may hw rfl
    | with_reducible exact Reg.synCkoCtlFine_may hw rfl
    | with_reducible exact Reg.synCkoDivDiv_may hw rfl
    | with_reducible exact Reg.synCkoPhasePhaseCyc_may hw rfl
    | with_reducible exact Reg.synOsCfgMode_may hw rfl
    | with_reducible exact Reg.synOsCfgN_may hw rfl
    | with_reducible exact Reg.synOsCfgP_may hw rfl
    | with_reducible exact Reg.synOsCfgTb_may hw rfl
    | with_reducible exact Reg.synOsFracHiFracHi_may hw rfl
    | with_reducible exact Reg.synOsFracLoFracLo_may hw rfl
    | with_reducible exact Reg.synOsFreqHiFreqHi_may hw rfl
    | with_reducible exact Reg.synOsFreqLoFreqLo_may hw rfl
    | with_reducible exact Reg.synOsStatusTlState_may hw rfl
    | with_reducible exact Reg.synSyncCfgPol_may hw rfl
    | with_reducible exact Reg.synSyncCfgTb_may hw rfl
    | with_reducible exact AllMay.nil _
    | with_reducible apply AllMay.cons
    | with_reducible apply AllMay.append
    | with_reducible apply AllMay.map
    | exact hw.le rfl
    | with_reducible apply ResKeeps.next
    | with_reducible apply Keeps.each
    | with_reducible apply Keeps.when
    | with_reducible apply Keeps.foldl
    | split
    | intro _ _ _
    | intro _ _
    | intro _
    | with_reducible refine Keeps.of_pair (by with_reducible assumption) ?_
    | with_reducible refine Keeps.of_triple (by with_reducible assumption) ?_
    | dsimp only)

end Sys2Proof.Machine
end

