-- ==== Sys2Proof/Laws/KeepRefsel.lean ====
section
/-! SUPPORT. What the operations of Machine/Refsel.lean keep. -/

set_option linter.all false
set_option Elab.async false

namespace Sys2Proof.Machine

theorem State.setCand_keeps {w₀ : Nat} {s₀ s : State} (hw : Sub 0x100000000000000000000 w₀) (c : Nat) (x : Cand) (h₀ : Keeps w₀ s₀ s) :
    Keeps w₀ s₀ (State.setCand s c x) := by
  unfold State.setCand
  repeat' (first
    | with_reducible assumption
    | (simp only [Keeps.mk_eq]; with_reducible apply KeepsMk.upd)
    | exact hw.le rfl
    | exact Or.inl (hw.bit rfl)
    | with_reducible exact Or.inr rfl
    | with_reducible apply ResKeeps.next
    | with_reducible apply Keeps.each
    | with_reducible apply Keeps.when
    | with_reducible apply Keeps.foldl
    | split
    | intro _ _ _
    | intro _ _
    | intro _
    | with_reducible refine Keeps.of_pair (by with_reducible assumption) ?_
    | with_reducible refine Keeps.of_triple (by with_reducible assumption) ?_
    | dsimp only)

theorem State.setRank_keeps {w₀ : Nat} {s₀ s : State} (hw : Sub 0x4 w₀) (c : Nat) (h₀ : Keeps w₀ s₀ s) :
    Keeps w₀ s₀ (State.setRank s c) := by
  unfold State.setRank
  repeat' (first
    | with_reducible assumption
    | with_reducible apply Keeps.wr
    | with_reducible exact Reg.refselCandStatusRank_may hw rfl
    | exact hw.le rfl
    | with_reducible apply ResKeeps.next
    | with_reducible apply Keeps.each
    | with_reducible apply Keeps.when
    | with_reducible apply Keeps.foldl
    | split
    | intro _ _ _
    | intro _ _
    | intro _
    | with_reducible refine Keeps.of_pair (by with_reducible assumption) ?_
    | with_reducible refine Keeps.of_triple (by with_reducible assumption) ?_
    | dsimp only)

theorem State.setElig_keeps {w₀ : Nat} {s₀ s : State} (hw : Sub 0x4 w₀) (c : Nat) (h₀ : Keeps w₀ s₀ s) :
    Keeps w₀ s₀ (State.setElig s c) := by
  unfold State.setElig
  repeat' (first
    | with_reducible assumption
    | with_reducible apply State.wrBit_keeps
    | with_reducible exact Reg.refselEligibleMask_may hw rfl
    | exact hw.le rfl
    | with_reducible apply ResKeeps.next
    | with_reducible apply Keeps.each
    | with_reducible apply Keeps.when
    | with_reducible apply Keeps.foldl
    | split
    | intro _ _ _
    | intro _ _
    | intro _
    | with_reducible refine Keeps.of_pair (by with_reducible assumption) ?_
    | with_reducible refine Keeps.of_triple (by with_reducible assumption) ?_
    | dsimp only)

theorem State.candToDisq_keeps {w₀ : Nat} {s₀ s : State} (hw : Sub 0x100000000000000000004 w₀) (c : Nat) (reason : Nat) (h₀ : Keeps w₀ s₀ s) :
    Keeps w₀ s₀ (State.candToDisq s c reason) := by
  unfold State.candToDisq
  repeat' (first
    | with_reducible assumption
    | with_reducible apply State.wrs_keeps
    | with_reducible apply State.bump_keeps
    | with_reducible apply State.setCand_keeps
    | with_reducible apply State.setElig_keeps
    | with_reducible exact Reg.refselCandCountsDisqCount_may hw rfl
    | with_reducible exact Reg.refselCandSoakSoakLeft_may hw rfl
    | with_reducible exact Reg.refselCandStatusReason_may hw rfl
    | with_reducible exact Reg.refselCandStatusState_may hw rfl
    | with_reducible exact AllMay.nil _
    | with_reducible apply AllMay.cons
    | with_reducible apply AllMay.append
    | with_reducible apply AllMay.map
    | (simp only [Keeps.mk_eq]; with_reducible apply KeepsMk.upd)
    | exact hw.le rfl
    | exact Or.inl (hw.bit rfl)
    | with_reducible exact Or.inr rfl
    | with_reducible apply ResKeeps.next
    | with_reducible apply Keeps.each
    | with_reducible apply Keeps.when
    | with_reducible apply Keeps.foldl
    | split
    | intro _ _ _
    | intro _ _
    | intro _
    | with_reducible refine Keeps.of_pair (by with_reducible assumption) ?_
    | with_reducible refine Keeps.of_triple (by with_reducible assumption) ?_
    | dsimp only)

theorem State.candToSoak_keeps {w₀ : Nat} {s₀ s : State} (hw : Sub 0x100000000000000000004 w₀) (c : Nat) (h₀ : Keeps w₀ s₀ s) :
    Keeps w₀ s₀ (State.candToSoak s c) := by
  unfold State.candToSoak
  repeat' (first
    | with_reducible assumption
    | with_reducible apply State.wrs_keeps
    | with_reducible apply State.setCand_keeps
    | with_reducible exact Reg.refselCandSoakSoakLeft_may hw rfl
    | with_reducible exact Reg.refselCandStatusReason_may hw rfl
    | with_reducible exact Reg.refselCandStatusState_may hw rfl
    | with_reducible exact AllMay.nil _
    | with_reducible apply AllMay.cons
    | with_reducible apply AllMay.append
    | with_reducible apply AllMay.map
    | (simp only [Keeps.mk_eq]; with_reducible apply KeepsMk.upd)
    | exact hw.le rfl
    | exact Or.inl (hw.bit rfl)
    | with_reducible exact Or.inr rfl
    | with_reducible apply ResKeeps.next
    | with_reducible apply Keeps.each
    | with_reducible apply Keeps.when
    | with_reducible apply Keeps.foldl
    | split
    | intro _ _ _
    | intro _ _
    | intro _
    | with_reducible refine Keeps.of_pair (by with_reducible assumption) ?_
    | with_reducible refine Keeps.of_triple (by with_reducible assumption) ?_
    | dsimp only)

theorem State.writeVals_keeps {w₀ : Nat} {s₀ s : State} (hw : Sub 0x4 w₀) (c : Nat) (h₀ : Keeps w₀ s₀ s) :
    Keeps w₀ s₀ (State.writeVals s c) := by
  unfold State.writeVals
  repeat' (first
    | with_reducible assumption
    | with_reducible apply Keeps.wr
    | with_reducible apply State.wrs_keeps
    | with_reducible exact Reg.refselCandDriftDrift_may hw rfl
    | with_reducible exact Reg.refselCandF1sF1s_may hw rfl
    | with_reducible exact Reg.refselCandF64F64_may hw rfl
    | with_reducible exact Reg.refselCandFrelFrel_may hw rfl
    | with_reducible exact AllMay.nil _
    | with_reducible apply AllMay.cons
    | with_reducible apply AllMay.append
    | with_reducible apply AllMay.map
    | exact hw.le rfl
    | with_reducible apply ResKeeps.next
    | with_reducible apply Keeps.each
    | with_reducible apply Keeps.when
    | with_reducible apply Keeps.foldl
    | split
    | intro _ _ _
    | intro _ _
    | intro _
    | with_reducible refine Keeps.of_pair (by with_reducible assumption) ?_
    | with_reducible refine Keeps.of_triple (by with_reducible assumption) ?_
    | dsimp only)

theorem State.updQl_keeps {w₀ : Nat} {s₀ s : State} (hw : Sub 0x100000000000000000004 w₀) (h₀ : Keeps w₀ s₀ s) :
    Keeps w₀ s₀ (State.updQl s) := by
  unfold State.updQl
  repeat' (first
    | with_reducible assumption
    | with_reducible apply Keeps.wr
    | with_reducible exact Reg.refselOutQlRank_may hw rfl
    | (simp only [Keeps.mk_eq]; with_reducible apply KeepsMk.upd)
    | exact hw.le rfl
    | exact Or.inl (hw.bit rfl)
    | with_reducible exact Or.inr rfl
    | with_reducible apply ResKeeps.next
    | with_reducible apply Keeps.each
    | with_reducible apply Keeps.when
    | with_reducible apply Keeps.foldl
    | split
    | intro _ _ _
    | intro _ _
    | intro _
    | with_reducible refine Keeps.of_pair (by with_reducible assumption) ?_
    | with_reducible refine Keeps.of_triple (by with_reducible assumption) ?_
    | dsimp only)

theorem State.setSel_keeps {w₀ : Nat} {s₀ s : State} (hw : Sub 0x180028000000000000004 w₀) (st : Nat) (h₀ : Keeps w₀ s₀ s) :
    Keeps w₀ s₀ (State.setSel s st) := by
  unfold State.setSel
  repeat' (first
    | with_reducible assumption
    | with_reducible apply Keeps.wr
    | with_reducible apply State.send_keeps
    | with_reducible apply State.intr_keeps
    | with_reducible exact Reg.refselHoStatusHoSeconds_may hw rfl
    | with_reducible exact Reg.refselStateSelState_may hw rfl
    | (simp only [Keeps.mk_eq]; with_reducible apply KeepsMk.upd)
    | exact hw.le rfl
    | exact Or.inl (hw.bit rfl)
    | with_reducible exact Or.inr rfl
    | with_reducible apply ResKeeps.next
    | with_reducible apply Keeps.each
    | with_reducible apply Keeps.when
    | with_reducible apply Keeps.foldl
    | split
    | intro _ _ _
    | intro _ _
    | intro _
    | with_reducible refine Keeps.of_pair (by with_reducible assumption) ?_
    | with_reducible refine Keeps.of_triple (by with_reducible assumption) ?_
    | dsimp only)

theorem State.setSelected_keeps {w₀ : Nat} {s₀ s : State} (hw : Sub 0x100000000000000000004 w₀) (c : Nat) (h₀ : Keeps w₀ s₀ s) :
    Keeps w₀ s₀ (State.setSelected s c) := by
  unfold State.setSelected
  repeat' (first
    | with_reducible assumption
    | with_reducible apply Keeps.wr
    | with_reducible exact Reg.refselCandStatusSelected_may hw rfl
    | with_reducible exact Reg.refselStateSelected_may hw rfl
    | (simp only [Keeps.mk_eq]; with_reducible apply KeepsMk.upd)
    | exact hw.le rfl
    | exact Or.inl (hw.bit rfl)
    | with_reducible exact Or.inr rfl
    | with_reducible apply ResKeeps.next
    | with_reducible apply Keeps.each
    | with_reducible apply Keeps.when
    | with_reducible apply Keeps.foldl
    | split
    | intro _ _ _
    | intro _ _
    | intro _
    | with_reducible refine Keeps.of_pair (by with_reducible assumption) ?_
    | with_reducible refine Keeps.of_triple (by with_reducible assumption) ?_
    | dsimp only)

theorem State.connect_keeps {w₀ : Nat} {s₀ s : State} (hw : Sub 0x70000000000000000000e w₀) (c : Nat) (step : Int) (h₀ : Keeps w₀ s₀ s) :
    Keeps w₀ s₀ (State.connect s c step) := by
  unfold State.connect
  repeat' (first
    | with_reducible assumption
    | with_reducible apply Keeps.wr
    | with_reducible apply State.wrs_keeps
    | with_reducible apply State.bump_keeps
    | with_reducible apply State.tbRefStep_keeps
    | with_reducible apply State.rootsConnect_keeps
    | with_reducible apply State.setSelected_keeps
    | with_reducible exact Reg.refselStateLowbw_may hw rfl
    | with_reducible exact Reg.refselStepHiStep_may hw rfl
    | with_reducible exact Reg.refselStepInfoCand_may hw rfl
    | with_reducible exact Reg.refselStepInfoStepCount_may hw rfl
    | with_reducible exact Reg.refselStepLoStep_may hw rfl
    | with_reducible exact AllMay.nil _
    | with_reducible apply AllMay.cons
    | with_reducible apply AllMay.append
    | with_reducible apply AllMay.map
    | exact hw.le rfl
    | with_reducible apply ResKeeps.next
    | with_reducible apply Keeps.each
    | with_reducible apply Keeps.when
    | with_reducible apply Keeps.foldl
    | split
    | intro _ _ _
    | intro _ _
    | intro _
    | with_reducible refine Keeps.of_pair (by with_reducible assumption) ?_
    | with_reducible refine Keeps.of_triple (by with_reducible assumption) ?_
    | dsimp only)

theorem State.disconnect_keeps {w₀ : Nat} {s₀ s : State} (hw : Sub 0x50000000000000000000e w₀) (h₀ : Keeps w₀ s₀ s) :
    Keeps w₀ s₀ (State.disconnect s) := by
  unfold State.disconnect
  repeat' (first
    | with_reducible assumption
    | with_reducible apply Keeps.wr
    | with_reducible apply State.rootsHold_keeps
    | with_reducible apply State.setSelected_keeps
    | with_reducible exact Reg.refselHoFreqFreq_may hw rfl
    | exact hw.le rfl
    | with_reducible apply ResKeeps.next
    | with_reducible apply Keeps.each
    | with_reducible apply Keeps.when
    | with_reducible apply Keeps.foldl
    | split
    | intro _ _ _
    | intro _ _
    | intro _
    | with_reducible refine Keeps.of_pair (by with_reducible assumption) ?_
    | with_reducible refine Keeps.of_triple (by with_reducible assumption) ?_
    | dsimp only)

theorem State.selLost_keeps {w₀ : Nat} {s₀ s : State} (hw : Sub 0x58002800000000000000e w₀) (h₀ : Keeps w₀ s₀ s) :
    Keeps w₀ s₀ (State.selLost s) := by
  unfold State.selLost
  repeat' (first
    | with_reducible assumption
    | with_reducible apply State.wrs_keeps
    | with_reducible apply State.setSel_keeps
    | with_reducible apply State.disconnect_keeps
    | with_reducible exact Reg.refselStatePhase_may hw rfl
    | with_reducible exact Reg.refselStateTarget_may hw rfl
    | with_reducible exact AllMay.nil _
    | with_reducible apply AllMay.cons
    | with_reducible apply AllMay.append
    | with_reducible apply AllMay.map
    | exact hw.le rfl
    | with_reducible apply ResKeeps.next
    | with_reducible apply Keeps.each
    | with_reducible apply Keeps.when
    | with_reducible apply Keeps.foldl
    | split
    | intro _ _ _
    | intro _ _
    | intro _
    | with_reducible refine Keeps.of_pair (by with_reducible assumption) ?_
    | with_reducible refine Keeps.of_triple (by with_reducible assumption) ?_
    | dsimp only)

theorem State.selLocked_keeps {w₀ : Nat} {s₀ s : State} (hw : Sub 0x180028000000000000004 w₀) (h₀ : Keeps w₀ s₀ s) :
    Keeps w₀ s₀ (State.selLocked s) := by
  unfold State.selLocked
  repeat' (first
    | with_reducible assumption
    | with_reducible apply Keeps.wr
    | with_reducible apply State.setSel_keeps
    | with_reducible exact Reg.refselStateEverLocked_may hw rfl
    | exact hw.le rfl
    | with_reducible apply ResKeeps.next
    | with_reducible apply Keeps.each
    | with_reducible apply Keeps.when
    | with_reducible apply Keeps.foldl
    | split
    | intro _ _ _
    | intro _ _
    | intro _
    | with_reducible refine Keeps.of_pair (by with_reducible assumption) ?_
    | with_reducible refine Keeps.of_triple (by with_reducible assumption) ?_
    | dsimp only)

theorem State.selEval1_keeps {w₀ : Nat} {s₀ s : State} (hw : Sub 0x78002800000000000000e w₀) (step : Int) (h₀ : Keeps w₀ s₀ s) :
    Keeps w₀ s₀ (State.selEval1 s step) := by
  unfold State.selEval1
  repeat' (first
    | with_reducible assumption
    | with_reducible apply Keeps.wr
    | with_reducible apply State.wrs_keeps
    | with_reducible apply State.bump_keeps
    | with_reducible apply State.setSel_keeps
    | with_reducible apply State.connect_keeps
    | with_reducible apply State.selLost_keeps
    | with_reducible apply State.selLocked_keeps
    | with_reducible exact Reg.refselStatePhase_may hw rfl
    | with_reducible exact Reg.refselStateTarget_may hw rfl
    | with_reducible exact Reg.refselSwitchesRetargets_may hw rfl
    | with_reducible exact AllMay.nil _
    | with_reducible apply AllMay.cons
    | with_reducible apply AllMay.append
    | with_reducible apply AllMay.map
    | (simp only [Keeps.mk_eq]; with_reducible apply KeepsMk.upd)
    | exact hw.le rfl
    | exact Or.inl (hw.bit rfl)
    | with_reducible exact Or.inr rfl
    | with_reducible apply ResKeeps.next
    | with_reducible apply Keeps.each
    | with_reducible apply Keeps.when
    | with_reducible apply Keeps.foldl
    | split
    | intro _ _ _
    | intro _ _
    | intro _
    | with_reducible refine Keeps.of_pair (by with_reducible assumption) ?_
    | with_reducible refine Keeps.of_triple (by with_reducible assumption) ?_
    | dsimp only)

theorem State.settleEnd_keeps {w₀ : Nat} {s₀ s : State} (hw : Sub 0x180028000000000000004 w₀) (inWin : Bool) (h₀ : Keeps w₀ s₀ s) :
    Keeps w₀ s₀ (State.settleEnd s inWin) := by
  unfold State.settleEnd
  repeat' (first
    | with_reducible assumption
    | with_reducible apply State.wrs_keeps
    | with_reducible apply State.setSel_keeps
    | with_reducible apply State.selLocked_keeps
    | with_reducible exact Reg.refselStatePhase_may hw rfl
    | with_reducible exact Reg.refselStateTarget_may hw rfl
    | with_reducible exact AllMay.nil _
    | with_reducible apply AllMay.cons
    | with_reducible apply AllMay.append
    | with_reducible apply AllMay.map
    | exact hw.le rfl
    | with_reducible apply ResKeeps.next
    | with_reducible apply Keeps.each
    | with_reducible apply Keeps.when
    | with_reducible apply Keeps.foldl
    | split
    | intro _ _ _
    | intro _ _
    | intro _
    | with_reducible refine Keeps.of_pair (by with_reducible assumption) ?_
    | with_reducible refine Keeps.of_triple (by with_reducible assumption) ?_
    | dsimp only)

theorem State.selEval_keeps {w₀ : Nat} {s₀ s : State} (hw : Sub 0x78006800000000000000e w₀) (step : Int) (h₀ : Keeps w₀ s₀ s) :
    Keeps w₀ s₀ (State.selEval s step) := by
  unfold State.selEval
  repeat' (first
    | with_reducible assumption
    | with_reducible apply State.draw_keeps
    | with_reducible apply State.updQl_keeps
    | with_reducible apply State.selEval1_keeps
    | with_reducible apply State.settleEnd_keeps
    | exact hw.le rfl
    | with_reducible apply ResKeeps.next
    | with_reducible apply Keeps.each
    | with_reducible apply Keeps.when
    | with_reducible apply Keeps.foldl
    | split
    | intro _ _ _
    | intro _ _
    | intro _
    | with_reducible refine Keeps.of_pair (by with_reducible assumption) ?_
    | with_reducible refine Keeps.of_triple (by with_reducible assumption) ?_
    | dsimp only)

theorem State.selEvalFree_keeps {w₀ : Nat} {s₀ s : State} (hw : Sub 0x78006800000000000000e w₀) (h₀ : Keeps w₀ s₀ s) :
    Keeps w₀ s₀ (State.selEvalFree s) := by
  unfold State.selEvalFree
  repeat' (first
    | with_reducible assumption
    | with_reducible apply State.draw_keeps
    | with_reducible apply State.selEval_keeps
    | exact hw.le rfl
    | with_reducible apply ResKeeps.next
    | with_reducible apply Keeps.each
    | with_reducible apply Keeps.when
    | with_reducible apply Keeps.foldl
    | split
    | intro _ _ _
    | intro _ _
    | intro _
    | with_reducible refine Keeps.of_pair (by with_reducible assumption) ?_
    | with_reducible refine Keeps.of_triple (by with_reducible assumption) ?_
    | dsimp only)

theorem State.candLosEnter_keeps {w₀ : Nat} {s₀ s : State} (hw : Sub 0x50000000000000000000e w₀) (c : Nat) (reason : Nat) (h₀ : Keeps w₀ s₀ s) :
    Keeps w₀ s₀ (State.candLosEnter s c reason) := by
  unfold State.candLosEnter
  repeat' (first
    | with_reducible assumption
    | with_reducible apply State.wrs_keeps
    | with_reducible apply State.bump_keeps
    | with_reducible apply State.setCand_keeps
    | with_reducible apply State.setElig_keeps
    | with_reducible apply State.disconnect_keeps
    | with_reducible exact Reg.refselCandCountsLosCount_may hw rfl
    | with_reducible exact Reg.refselCandSoakSoakLeft_may hw rfl
    | with_reducible exact Reg.refselCandStatusRank_may hw rfl
    | with_reducible exact Reg.refselCandStatusReason_may hw rfl
    | with_reducible exact Reg.refselCandStatusState_may hw rfl
    | with_reducible exact AllMay.nil _
    | with_reducible apply AllMay.cons
    | with_reducible apply AllMay.append
    | with_reducible apply AllMay.map
    | (simp only [Keeps.mk_eq]; with_reducible apply KeepsMk.upd)
    | exact hw.le rfl
    | exact Or.inl (hw.bit rfl)
    | with_reducible exact Or.inr rfl
    | with_reducible apply ResKeeps.next
    | with_reducible apply Keeps.each
    | with_reducible apply Keeps.when
    | with_reducible apply Keeps.foldl
    | split
    | intro _ _ _
    | intro _ _
    | intro _
    | with_reducible refine Keeps.of_pair (by with_reducible assumption) ?_
    | with_reducible refine Keeps.of_triple (by with_reducible assumption) ?_
    | dsimp only)

theorem State.candLost_keeps {w₀ : Nat} {s₀ s : State} (hw : Sub 0x78006800000000000000e w₀) (c : Nat) (reason : Nat) (h₀ : Keeps w₀ s₀ s) :
    Keeps w₀ s₀ (State.candLost s c reason) := by
  unfold State.candLost
  repeat' (first
    | with_reducible assumption
    | with_reducible apply State.selEvalFree_keeps
    | with_reducible apply State.candLosEnter_keeps
    | exact hw.le rfl
    | with_reducible apply ResKeeps.next
    | with_reducible apply Keeps.each
    | with_reducible apply Keeps.when
    | with_reducible apply Keeps.foldl
    | split
    | intro _ _ _
    | intro _ _
    | intro _
    | with_reducible refine Keeps.of_pair (by with_reducible assumption) ?_
    | with_reducible refine Keeps.of_triple (by with_reducible assumption) ?_
    | dsimp only)

theorem State.rcsLost_keeps {w₀ : Nat} {s₀ s : State} (hw : Sub 0x78006800000000000000e w₀) (l : Nat) (h₀ : Keeps w₀ s₀ s) :
    Keeps w₀ s₀ (State.rcsLost s l) := by
  unfold State.rcsLost
  repeat' (first
    | with_reducible assumption
    | with_reducible apply State.candLost_keeps
    | exact hw.le rfl
    | with_reducible apply ResKeeps.next
    | with_reducible apply Keeps.each
    | with_reducible apply Keeps.when
    | with_reducible apply Keeps.foldl
    | split
    | intro _ _ _
    | intro _ _
    | intro _
    | with_reducible refine Keeps.of_pair (by with_reducible assumption) ?_
    | with_reducible refine Keeps.of_triple (by with_reducible assumption) ?_
    | dsimp only)

theorem State.rankChange_keeps {w₀ : Nat} {s₀ s : State} (hw : Sub 0x78006800000000000000e w₀) (c : Nat) (h₀ : Keeps w₀ s₀ s) :
    Keeps w₀ s₀ (State.rankChange s c) := by
  unfold State.rankChange
  repeat' (first
    | with_reducible assumption
    | with_reducible apply Keeps.wr
    | with_reducible apply State.setRank_keeps
    | with_reducible apply State.candToDisq_keeps
    | with_reducible apply State.selEvalFree_keeps
    | with_reducible exact Reg.refselCandStatusReason_may hw rfl
    | exact hw.le rfl
    | with_reducible apply ResKeeps.next
    | with_reducible apply Keeps.each
    | with_reducible apply Keeps.when
    | with_reducible apply Keeps.foldl
    | split
    | intro _ _ _
    | intro _ _
    | intro _
    | with_reducible refine Keeps.of_pair (by with_reducible assumption) ?_
    | with_reducible refine Keeps.of_triple (by with_reducible assumption) ?_
    | dsimp only)

theorem State.pushF1s_keeps {w₀ : Nat} {s₀ s : State} (hw : Sub 0x100000000000000000000 w₀) (f1s : List Int) (h₀ : Keeps w₀ s₀ s) :
    Keeps w₀ s₀ (State.pushF1s s f1s) := by
  unfold State.pushF1s
  repeat' (first
    | with_reducible assumption
    | with_reducible apply State.setCand_keeps
    | (simp only [Keeps.mk_eq]; with_reducible apply KeepsMk.upd)
    | exact hw.le rfl
    | exact Or.inl (hw.bit rfl)
    | with_reducible exact Or.inr rfl
    | with_reducible apply ResKeeps.next
    | with_reducible apply Keeps.each
    | with_reducible apply Keeps.when
    | with_reducible apply Keeps.foldl
    | split
    | intro _ _ _
    | intro _ _
    | intro _
    | with_reducible refine Keeps.of_pair (by with_reducible assumption) ?_
    | with_reducible refine Keeps.of_triple (by with_reducible assumption) ?_
    | dsimp only)

theorem State.candSecond_keeps {w₀ : Nat} {s₀ s : State} (hw : Sub 0x100000000000000000004 w₀) (c : Nat) (act : Bool) (h₀ : Keeps w₀ s₀ s) :
    Keeps w₀ s₀ (State.candSecond s c act) := by
  unfold State.candSecond
  repeat' (first
    | with_reducible assumption
    | with_reducible apply Keeps.wr
    | with_reducible apply State.setCand_keeps
    | with_reducible apply State.setRank_keeps
    | with_reducible apply State.setElig_keeps
    | with_reducible apply State.candToDisq_keeps
    | with_reducible apply State.candToSoak_keeps
    | with_reducible exact Reg.refselCandSoakSoakLeft_may hw rfl
    | with_reducible exact Reg.refselCandStatusState_may hw rfl
    | (simp only [Keeps.mk_eq]; with_reducible apply KeepsMk.upd)
    | exact hw.le rfl
    | exact Or.inl (hw.bit rfl)
    | with_reducible exact Or.inr rfl
    | with_reducible apply ResKeeps.next
    | with_reducible apply Keeps.each
    | with_reducible apply Keeps.when
    | with_reducible apply Keeps.foldl
    | split
    | intro _ _ _
    | intro _ _
    | intro _
    | with_reducible refine Keeps.of_pair (by with_reducible assumption) ?_
    | with_reducible refine Keeps.of_triple (by with_reducible assumption) ?_
    | dsimp only)

theorem State.holdoverSecond_keeps {w₀ : Nat} {s₀ s : State} (hw : Sub 0x100000000000000000004 w₀) (dco : Int) (h₀ : Keeps w₀ s₀ s) :
    Keeps w₀ s₀ (State.holdoverSecond s dco) := by
  unfold State.holdoverSecond
  repeat' (first
    | with_reducible assumption
    | with_reducible apply State.wrs_keeps
    | with_reducible apply State.bump_keeps
    | with_reducible exact Reg.refselHoStatusHistCount_may hw rfl
    | with_reducible exact Reg.refselHoStatusHoSeconds_may hw rfl
    | with_reducible exact Reg.refselStateHistValid_may hw rfl
    | with_reducible exact AllMay.nil _
    | with_reducible apply AllMay.cons
    | with_reducible apply AllMay.append
    | with_reducible apply AllMay.map
    | (simp only [Keeps.mk_eq]; with_reducible apply KeepsMk.upd)
    | exact hw.le rfl
    | exact Or.inl (hw.bit rfl)
    | with_reducible exact Or.inr rfl
    | with_reducible apply ResKeeps.next
    | with_reducible apply Keeps.each
    | with_reducible apply Keeps.when
    | with_reducible apply Keeps.foldl
    | split
    | intro _ _ _
    | intro _ _
    | intro _
    | with_reducible refine Keeps.of_pair (by with_reducible assumption) ?_
    | with_reducible refine Keeps.of_triple (by with_reducible assumption) ?_
    | dsimp only)

theorem State.secondLess_keeps {w₀ : Nat} {s₀ s : State} (hw : Sub 0x0 w₀) (f : Fld) (i : Nat) (hf_f : may w₀ f.key = true) (h₀ : Keeps w₀ s₀ s) :
    Keeps w₀ s₀ (State.secondLess s f i) := by
  unfold State.secondLess
  repeat' (first
    | with_reducible assumption
    | with_reducible apply Keeps.wr
    | exact hw.le rfl
    | with_reducible apply ResKeeps.next
    | with_reducible apply Keeps.each
    | with_reducible apply Keeps.when
    | with_reducible apply Keeps.foldl
    | split
    | intro _ _ _
    | intro _ _
    | intro _
    | with_reducible refine Keeps.of_pair (by with_reducible assumption) ?_
    | with_reducible refine Keeps.of_triple (by with_reducible assumption) ?_
    | dsimp only)

theorem State.secondsLeft_keeps {w₀ : Nat} {s₀ s : State} (hw : Sub 0x100000000090000000000 w₀) (h₀ : Keeps w₀ s₀ s) :
    Keeps w₀ s₀ (State.secondsLeft s) := by
  unfold State.secondsLeft
  repeat' (first
    | with_reducible assumption
    | with_reducible apply State.secondLess_keeps
    | with_reducible exact Reg.redUnitWtrWtrLeft_may hw rfl
    | with_reducible exact Reg.secDbgLeaseLeft_may hw rfl
    | (simp only [Keeps.mk_eq]; with_reducible apply KeepsMk.upd)
    | exact hw.le rfl
    | exact Or.inl (hw.bit rfl)
    | with_reducible exact Or.inr rfl
    | with_reducible apply ResKeeps.next
    | with_reducible apply Keeps.each
    | with_reducible apply Keeps.when
    | with_reducible apply Keeps.foldl
    | split
    | intro _ _ _
    | intro _ _
    | intro _
    | with_reducible refine Keeps.of_pair (by with_reducible assumption) ?_
    | with_reducible refine Keeps.of_triple (by with_reducible assumption) ?_
    | dsimp only)

theorem execRefmonSecond_keeps {w₀ : Nat} {s₀ s : State} (hw : Sub 0x78006800009000001000e w₀) (f1s : List Int) (active : List Bool) (dcoMean : Int) (step : Int) (h₀ : Keeps w₀ s₀ s) :
    ResKeeps w₀ s₀ (execRefmonSecond f1s active dcoMean step s) := by
  unfold execRefmonSecond
  repeat' (first
    | with_reducible assumption
    | with_reducible apply State.bump_keeps
    | with_reducible apply State.writeVals_keeps
    | with_reducible apply State.selEval_keeps
    | with_reducible apply State.pushF1s_keeps
    | with_reducible apply State.candSecond_keeps
    | with_reducible apply State.holdoverSecond_keeps
    | with_reducible apply State.secondsLeft_keeps
    | with_reducible exact Reg.portEsmcRxAgeS_may hw rfl
    | (simp only [Keeps.mk_eq]; with_reducible apply KeepsMk.upd)
    | exact hw.le rfl
    | exact Or.inl (hw.bit rfl)
    | with_reducible exact Or.inr rfl
    | with_reducible apply ResKeeps.next
    | with_reducible apply Keeps.each
    | with_reducible apply Keeps.when
    | with_reducible apply Keeps.foldl
    | split
    | intro _ _ _
    | intro _ _
    | intro _
    | with_reducible refine Keeps.of_pair (by with_reducible assumption) ?_
    | with_reducible refine Keeps.of_triple (by with_reducible assumption) ?_
    | dsimp only)

theorem execRefinLosTimeout_keeps {w₀ : Nat} {s₀ s : State} (hw : Sub 0x78006800000000000000e w₀) (cand : Fin 8) (h₀ : Keeps w₀ s₀ s) :
    ResKeeps w₀ s₀ (execRefinLosTimeout cand s) := by
  unfold execRefinLosTimeout
  repeat' (first
    | with_reducible assumption
    | with_reducible apply State.candLost_keeps
    | exact hw.le rfl
    | with_reducible apply ResKeeps.next
    | with_reducible apply Keeps.each
    | with_reducible apply Keeps.when
    | with_reducible apply Keeps.foldl
    | split
    | intro _ _ _
    | intro _ _
    | intro _
    | with_reducible refine Keeps.of_pair (by with_reducible assumption) ?_
    | with_reducible refine Keeps.of_triple (by with_reducible assumption) ?_
    | dsimp only)

theorem execAcqFailTimeout_keeps {w₀ : Nat} {s₀ s : State} (hw : Sub 0x78006800000000000000e w₀) (h₀ : Keeps w₀ s₀ s) :
    ResKeeps w₀ s₀ (execAcqFailTimeout s) := by
  unfold execAcqFailTimeout
  repeat' (first
    | with_reducible assumption
    | with_reducible apply State.candToDisq_keeps
    | with_reducible apply State.selEvalFree_keeps
    | exact hw.le rfl
    | with_reducible apply ResKeeps.next
    | with_reducible apply Keeps.each
    | with_reducible apply Keeps.when
    | with_reducible apply Keeps.foldl
    | split
    | intro _ _ _
    | intro _ _
    | intro _
    | with_reducible refine Keeps.of_pair (by with_reducible assumption) ?_
    | with_reducible refine Keeps.of_triple (by with_reducible assumption) ?_
    | dsimp only)

theorem execSelAcquireLock_keeps {w₀ : Nat} {s₀ s : State} (hw : Sub 0x78006800000000000000e w₀) (h₀ : Keeps w₀ s₀ s) :
    ResKeeps w₀ s₀ (execSelAcquireLock s) := by
  unfold execSelAcquireLock
  repeat' (first
    | with_reducible assumption
    | with_reducible apply State.selLocked_keeps
    | with_reducible apply State.selEvalFree_keeps
    | exact hw.le rfl
    | with_reducible apply ResKeeps.next
    | with_reducible apply Keeps.each
    | with_reducible apply Keeps.when
    | with_reducible apply Keeps.foldl
    | split
    | intro _ _ _
    | intro _ _
    | intro _
    | with_reducible refine Keeps.of_pair (by with_reducible assumption) ?_
    | with_reducible refine Keeps.of_triple (by with_reducible assumption) ?_
    | dsimp only)

theorem execSelDecideExpire_keeps {w₀ : Nat} {s₀ s : State} (hw : Sub 0x70000000000000000000e w₀) (step : Int) (h₀ : Keeps w₀ s₀ s) :
    ResKeeps w₀ s₀ (execSelDecideExpire step s) := by
  unfold execSelDecideExpire
  repeat' (first
    | with_reducible assumption
    | with_reducible apply Keeps.wr
    | with_reducible apply State.bump_keeps
    | with_reducible apply State.updQl_keeps
    | with_reducible apply State.connect_keeps
    | with_reducible exact Reg.refselStatePhase_may hw rfl
    | with_reducible exact Reg.refselSwitchesCommits_may hw rfl
    | exact hw.le rfl
    | with_reducible apply ResKeeps.next
    | with_reducible apply Keeps.each
    | with_reducible apply Keeps.when
    | with_reducible apply Keeps.foldl
    | split
    | intro _ _ _
    | intro _ _
    | intro _
    | with_reducible refine Keeps.of_pair (by with_reducible assumption) ?_
    | with_reducible refine Keeps.of_triple (by with_reducible assumption) ?_
    | dsimp only)

theorem execSelSettleEnd_keeps {w₀ : Nat} {s₀ s : State} (hw : Sub 0x78006800000000000000e w₀) (inWin : Bool) (h₀ : Keeps w₀ s₀ s) :
    ResKeeps w₀ s₀ (execSelSettleEnd inWin s) := by
  unfold execSelSettleEnd
  repeat' (first
    | with_reducible assumption
    | with_reducible apply State.settleEnd_keeps
    | with_reducible apply State.selEvalFree_keeps
    | exact hw.le rfl
    | with_reducible apply ResKeeps.next
    | with_reducible apply Keeps.each
    | with_reducible apply Keeps.when
    | with_reducible apply Keeps.foldl
    | split
    | intro _ _ _
    | intro _ _
    | intro _
    | with_reducible refine Keeps.of_pair (by with_reducible assumption) ?_
    | with_reducible refine Keeps.of_triple (by with_reducible assumption) ?_
    | dsimp only)

theorem execSelHoldoverLimit_keeps {w₀ : Nat} {s₀ s : State} (hw : Sub 0x180028000000000000004 w₀) (h₀ : Keeps w₀ s₀ s) :
    ResKeeps w₀ s₀ (execSelHoldoverLimit s) := by
  unfold execSelHoldoverLimit
  repeat' (first
    | with_reducible assumption
    | with_reducible apply State.updQl_keeps
    | with_reducible apply State.setSel_keeps
    | exact hw.le rfl
    | with_reducible apply ResKeeps.next
    | with_reducible apply Keeps.each
    | with_reducible apply Keeps.when
    | with_reducible apply Keeps.foldl
    | split
    | intro _ _ _
    | intro _ _
    | intro _
    | with_reducible refine Keeps.of_pair (by with_reducible assumption) ?_
    | with_reducible refine Keeps.of_triple (by with_reducible assumption) ?_
    | dsimp only)

theorem applyRefsel_keeps {w₀ : Nat} {s₀ s : State} (hw : Sub 0x4 w₀) (v : List Byte) (h₀ : Keeps w₀ s₀ s) :
    Keeps w₀ s₀ (applyRefsel v s) := by
  unfold applyRefsel
  repeat' (first
    | with_reducible assumption
    | with_reducible apply State.wrs_keeps
    | with_reducible exact Reg.refselAcqAcqTimeoutS_may hw rfl
    | with_reducible exact Reg.refselAcqLockWinPs_may hw rfl
    | with_reducible exact Reg.refselCandCfgEnable_may hw rfl
    | with_reducible exact Reg.refselCandCfgLimset_may hw rfl
    | with_reducible exact Reg.refselCandCfgPair_may hw rfl
    | with_reducible exact Reg.refselCandCfgPrio_may hw rfl
    | with_reducible exact Reg.refselCandCfgQlFixed_may hw rfl
    | with_reducible exact Reg.refselCandCfgRelEn_may hw rfl
    | with_reducible exact Reg.refselCandFreqHiFreqHi_may hw rfl
    | with_reducible exact Reg.refselCandFreqLoFreqLo_may hw rfl
    | with_reducible exact Reg.refselCfgFreerunQl_may hw rfl
    | with_reducible exact Reg.refselCfgHoQl_may hw rfl
    | with_reducible exact Reg.refselCfgQlOption_may hw rfl
    | with_reducible exact Reg.refselHoLimitSeconds_may hw rfl
    | with_reducible exact Reg.refselLimsetLim1sLim1s_may hw rfl
    | with_reducible exact Reg.refselLimsetLim64sLim64s_may hw rfl
    | with_reducible exact Reg.refselLimsetLimDriftLimDrift_may hw rfl
    | with_reducible exact Reg.refselLimsetLimRelLimRel_may hw rfl
    | with_reducible exact Reg.refselLimsetWtrWtr_may hw rfl
    | with_reducible exact Reg.refselRcsMapLane0_may hw rfl
    | with_reducible exact Reg.refselRcsMapLane1_may hw rfl
    | with_reducible exact Reg.refselRcsMapLane2_may hw rfl
    | with_reducible exact Reg.refselRcsMapLane3_may hw rfl
    | with_reducible exact Reg.refselTimesDecideMs_may hw rfl
    | with_reducible exact Reg.refselTimesSettle10ms_may hw rfl
    | with_reducible exact AllMay.nil _
    | with_reducible apply AllMay.cons
    | with_reducible apply AllMay.append
    | with_reducible apply AllMay.map
    | exact hw.le rfl
    | with_reducible apply ResKeeps.next
    | with_reducible apply Keeps.each
    | with_reducible apply Keeps.when
    | with_reducible apply Keeps.foldl
    | split
    | intro _ _ _
    | intro _ _
    | intro _
    | with_reducible refine Keeps.of_pair (by with_reducible assumption) ?_
    | with_reducible refine Keeps.of_triple (by with_reducible assumption) ?_
    | dsimp only)

theorem State.refselStart_keeps {w₀ : Nat} {s₀ s : State} (hw : Sub 0x100000000000000000004 w₀) (h₀ : Keeps w₀ s₀ s) :
    Keeps w₀ s₀ (State.refselStart s) := by
  unfold State.refselStart
  repeat' (first
    | with_reducible assumption
    | with_reducible apply Keeps.wr
    | with_reducible apply State.wrs_keeps
    | with_reducible apply State.bump_keeps
    | with_reducible exact Reg.refselCandCountsLosCount_may hw rfl
    | with_reducible exact Reg.refselCandStatusReason_may hw rfl
    | with_reducible exact Reg.refselCandStatusState_may hw rfl
    | with_reducible exact Reg.refselHoStatusQualified_may hw rfl
    | with_reducible exact AllMay.nil _
    | with_reducible apply AllMay.cons
    | with_reducible apply AllMay.append
    | with_reducible apply AllMay.map
    | (simp only [Keeps.mk_eq]; with_reducible apply KeepsMk.upd)
    | exact hw.le rfl
    | exact Or.inl (hw.bit rfl)
    | with_reducible exact Or.inr rfl
    | with_reducible apply ResKeeps.next
    | with_reducible apply Keeps.each
    | with_reducible apply Keeps.when
    | with_reducible apply Keeps.foldl
    | split
    | intro _ _ _
    | intro _ _
    | intro _
    | with_reducible refine Keeps.of_pair (by with_reducible assumption) ?_
    | with_reducible refine Keeps.of_triple (by with_reducible assumption) ?_
    | dsimp only)

end Sys2Proof.Machine
end

