-- ==== Sys2Proof/Laws/KeepPulses.lean ====
section
/-! SUPPORT. What the operations of Machine/Pulses.lean keep. -/

set_option linter.all false
set_option Elab.async false

namespace Sys2Proof.Machine

theorem State.setTxq_keeps {w₀ : Nat} {s₀ s : State} (hw : Sub 0x800000000000000000040 w₀) (n : Nat) (l : List TxEnt) (h₀ : Keeps w₀ s₀ s) :
    Keeps w₀ s₀ (State.setTxq s n l) := by
  unfold State.setTxq
  repeat' (first
    | with_reducible assumption
    | with_reducible apply Keeps.wr
    | with_reducible apply State.setMaskBit_keeps
    | with_reducible exact Reg.tsTxqNeNe_may hw rfl
    | with_reducible exact Reg.tsTxqStatusCount_may hw rfl
    | (simp only [Keeps.mk_eq]; with_reducible apply KeepsMk.upd)
    | exact hw.le rfl
    | exact Or.inl (hw.bit rfl)
    | with_reducible exact Or.inr rfl
    | with_reducible apply ResKeeps.next
    | with_reducible apply Keeps.each
    | with_reducible apply Keeps.when
    | with_reducible apply Keeps.foldl
    | split
    | intro _ _ _
    | intro _ _
    | intro _
    | with_reducible refine Keeps.of_pair (by with_reducible assumption) ?_
    | with_reducible refine Keeps.of_triple (by with_reducible assumption) ?_
    | dsimp only)

theorem State.txqPush_keeps {w₀ : Nat} {s₀ s : State} (hw : Sub 0x880028000000000000040 w₀) (n : Nat) (e : TxEnt) (h₀ : Keeps w₀ s₀ s) :
    Keeps w₀ s₀ (State.txqPush s n e) := by
  unfold State.txqPush
  repeat' (first
    | with_reducible assumption
    | with_reducible apply Keeps.wr
    | with_reducible apply State.bump_keeps
    | with_reducible apply State.intr_keeps
    | with_reducible apply State.setTxq_keeps
    | with_reducible exact Reg.tsTxqStatusDropped_may hw rfl
    | with_reducible exact Reg.tsTxqStatusOvf_may hw rfl
    | exact hw.le rfl
    | with_reducible apply ResKeeps.next
    | with_reducible apply Keeps.each
    | with_reducible apply Keeps.when
    | with_reducible apply Keeps.foldl
    | split
    | intro _ _ _
    | intro _ _
    | intro _
    | with_reducible refine Keeps.of_pair (by with_reducible assumption) ?_
    | with_reducible refine Keeps.of_triple (by with_reducible assumption) ?_
    | dsimp only)

theorem execTxqPop_keeps {w₀ : Nat} {s₀ s : State} (hw : Sub 0x800000000000000000040 w₀) (n : Fin 128) (h₀ : Keeps w₀ s₀ s) :
    ResKeeps w₀ s₀ (execTxqPop n s) := by
  unfold execTxqPop
  repeat' (first
    | with_reducible assumption
    | with_reducible apply State.setTxq_keeps
    | exact hw.le rfl
    | with_reducible apply ResKeeps.next
    | with_reducible apply Keeps.each
    | with_reducible apply Keeps.when
    | with_reducible apply Keeps.foldl
    | split
    | intro _ _ _
    | intro _ _
    | intro _
    | with_reducible refine Keeps.of_pair (by with_reducible assumption) ?_
    | with_reducible refine Keeps.of_triple (by with_reducible assumption) ?_
    | dsimp only)

theorem State.setCapq_keeps {w₀ : Nat} {s₀ s : State} (hw : Sub 0x800000000000000000040 w₀) (c : Nat) (l : List CapEnt) (h₀ : Keeps w₀ s₀ s) :
    Keeps w₀ s₀ (State.setCapq s c l) := by
  unfold State.setCapq
  repeat' (first
    | with_reducible assumption
    | with_reducible apply Keeps.wr
    | with_reducible apply State.wrBit_keeps
    | with_reducible exact Reg.tsCapStatusCount_may hw rfl
    | with_reducible exact Reg.tsStatusCapNe_may hw rfl
    | (simp only [Keeps.mk_eq]; with_reducible apply KeepsMk.upd)
    | exact hw.le rfl
    | exact Or.inl (hw.bit rfl)
    | with_reducible exact Or.inr rfl
    | with_reducible apply ResKeeps.next
    | with_reducible apply Keeps.each
    | with_reducible apply Keeps.when
    | with_reducible apply Keeps.foldl
    | split
    | intro _ _ _
    | intro _ _
    | intro _
    | with_reducible refine Keeps.of_pair (by with_reducible assumption) ?_
    | with_reducible refine Keeps.of_triple (by with_reducible assumption) ?_
    | dsimp only)

theorem State.capPush_keeps {w₀ : Nat} {s₀ s : State} (hw : Sub 0x880028000000000000040 w₀) (c : Nat) (e : CapEnt) (h₀ : Keeps w₀ s₀ s) :
    Keeps w₀ s₀ (State.capPush s c e) := by
  unfold State.capPush
  repeat' (first
    | with_reducible assumption
    | with_reducible apply Keeps.wr
    | with_reducible apply State.bump_keeps
    | with_reducible apply State.wrBit_keeps
    | with_reducible apply State.intr_keeps
    | with_reducible apply State.setCapq_keeps
    | with_reducible exact Reg.tsCapStatusDropped_may hw rfl
    | with_reducible exact Reg.tsCapStatusOvf_may hw rfl
    | with_reducible exact Reg.tsStatusCapOvf_may hw rfl
    | exact hw.le rfl
    | with_reducible apply ResKeeps.next
    | with_reducible apply Keeps.each
    | with_reducible apply Keeps.when
    | with_reducible apply Keeps.foldl
    | split
    | intro _ _ _
    | intro _ _
    | intro _
    | with_reducible refine Keeps.of_pair (by with_reducible assumption) ?_
    | with_reducible refine Keeps.of_triple (by with_reducible assumption) ?_
    | dsimp only)

theorem State.capPop_keeps {w₀ : Nat} {s₀ s : State} (hw : Sub 0x800000000000000000040 w₀) (c : Nat) (h₀ : Keeps w₀ s₀ s) :
    Keeps w₀ s₀ (State.capPop s c) := by
  unfold State.capPop
  repeat' (first
    | with_reducible assumption
    | with_reducible apply State.setCapq_keeps
    | exact hw.le rfl
    | with_reducible apply ResKeeps.next
    | with_reducible apply Keeps.each
    | with_reducible apply Keeps.when
    | with_reducible apply Keeps.foldl
    | split
    | intro _ _ _
    | intro _ _
    | intro _
    | with_reducible refine Keeps.of_pair (by with_reducible assumption) ?_
    | with_reducible refine Keeps.of_triple (by with_reducible assumption) ?_
    | dsimp only)

theorem execCapPop_keeps {w₀ : Nat} {s₀ s : State} (hw : Sub 0x800000000000000000040 w₀) (n : Fin 16) (h₀ : Keeps w₀ s₀ s) :
    ResKeeps w₀ s₀ (execCapPop n s) := by
  unfold execCapPop
  repeat' (first
    | with_reducible assumption
    | with_reducible apply State.capPop_keeps
    | exact hw.le rfl
    | with_reducible apply ResKeeps.next
    | with_reducible apply Keeps.each
    | with_reducible apply Keeps.when
    | with_reducible apply Keeps.foldl
    | split
    | intro _ _ _
    | intro _ _
    | intro _
    | with_reducible refine Keeps.of_pair (by with_reducible assumption) ?_
    | with_reducible refine Keeps.of_triple (by with_reducible assumption) ?_
    | dsimp only)

theorem State.setPg_keeps {w₀ : Nat} {s₀ s : State} (hw : Sub 0x800000000000000000000 w₀) (p : Nat) (x : PgSt) (h₀ : Keeps w₀ s₀ s) :
    Keeps w₀ s₀ (State.setPg s p x) := by
  unfold State.setPg
  repeat' (first
    | with_reducible assumption
    | (simp only [Keeps.mk_eq]; with_reducible apply KeepsMk.upd)
    | exact hw.le rfl
    | exact Or.inl (hw.bit rfl)
    | with_reducible exact Or.inr rfl
    | with_reducible apply ResKeeps.next
    | with_reducible apply Keeps.each
    | with_reducible apply Keeps.when
    | with_reducible apply Keeps.foldl
    | split
    | intro _ _ _
    | intro _ _
    | intro _
    | with_reducible refine Keeps.of_pair (by with_reducible assumption) ?_
    | with_reducible refine Keeps.of_triple (by with_reducible assumption) ?_
    | dsimp only)

theorem State.goPgState_keeps {w₀ : Nat} {s₀ s : State} (hw : Sub 0x80028000000000000040 w₀) (p : Nat) (st : Nat) (h₀ : Keeps w₀ s₀ s) :
    Keeps w₀ s₀ (State.goPgState s p st) := by
  unfold State.goPgState
  repeat' (first
    | with_reducible assumption
    | with_reducible apply Keeps.wr
    | with_reducible apply State.bumpWrap_keeps
    | with_reducible apply State.intr_keeps
    | with_reducible exact Reg.tsPgStatusGen_may hw rfl
    | with_reducible exact Reg.tsPgStatusState_may hw rfl
    | exact hw.le rfl
    | with_reducible apply ResKeeps.next
    | with_reducible apply Keeps.each
    | with_reducible apply Keeps.when
    | with_reducible apply Keeps.foldl
    | split
    | intro _ _ _
    | intro _ _
    | intro _
    | with_reducible refine Keeps.of_pair (by with_reducible assumption) ?_
    | with_reducible refine Keeps.of_triple (by with_reducible assumption) ?_
    | dsimp only)

theorem State.setPgState_keeps {w₀ : Nat} {s₀ s : State} (hw : Sub 0x80028000000000000040 w₀) (p : Nat) (st : Nat) (h₀ : Keeps w₀ s₀ s) :
    Keeps w₀ s₀ (State.setPgState s p st) := by
  unfold State.setPgState
  repeat' (first
    | with_reducible assumption
    | with_reducible apply State.goPgState_keeps
    | exact hw.le rfl
    | with_reducible apply ResKeeps.next
    | with_reducible apply Keeps.each
    | with_reducible apply Keeps.when
    | with_reducible apply Keeps.foldl
    | split
    | intro _ _ _
    | intro _ _
    | intro _
    | with_reducible refine Keeps.of_pair (by with_reducible assumption) ?_
    | with_reducible refine Keeps.of_triple (by with_reducible assumption) ?_
    | dsimp only)

theorem State.pgFirst_keeps {w₀ : Nat} {s₀ s : State} (hw : Sub 0x880028000000000000040 w₀) (p : Nat) (k0 : Nat) (h₀ : Keeps w₀ s₀ s) :
    Keeps w₀ s₀ (State.pgFirst s p k0) := by
  unfold State.pgFirst
  repeat' (first
    | with_reducible assumption
    | with_reducible apply Keeps.wr
    | with_reducible apply State.bumpBy_keeps
    | with_reducible apply State.bump_keeps
    | with_reducible apply State.setPg_keeps
    | with_reducible apply State.goPgState_keeps
    | with_reducible apply State.setPgState_keeps
    | with_reducible exact Reg.tsPgSkippedSkipped_may hw rfl
    | with_reducible exact Reg.tsPgStatusLate_may hw rfl
    | (simp only [Keeps.mk_eq]; with_reducible apply KeepsMk.upd)
    | exact hw.le rfl
    | exact Or.inl (hw.bit rfl)
    | with_reducible exact Or.inr rfl
    | with_reducible apply ResKeeps.next
    | with_reducible apply Keeps.each
    | with_reducible apply Keeps.when
    | with_reducible apply Keeps.foldl
    | split
    | intro _ _ _
    | intro _ _
    | intro _
    | with_reducible refine Keeps.of_pair (by with_reducible assumption) ?_
    | with_reducible refine Keeps.of_triple (by with_reducible assumption) ?_
    | dsimp only)

theorem State.pgEnter_keeps {w₀ : Nat} {s₀ s : State} (hw : Sub 0x880028000000000000040 w₀) (p : Nat) (h₀ : Keeps w₀ s₀ s) :
    Keeps w₀ s₀ (State.pgEnter s p) := by
  unfold State.pgEnter
  repeat' (first
    | with_reducible assumption
    | with_reducible apply State.setPg_keeps
    | with_reducible apply State.setPgState_keeps
    | with_reducible apply State.pgFirst_keeps
    | (simp only [Keeps.mk_eq]; with_reducible apply KeepsMk.upd)
    | exact hw.le rfl
    | exact Or.inl (hw.bit rfl)
    | with_reducible exact Or.inr rfl
    | with_reducible apply ResKeeps.next
    | with_reducible apply Keeps.each
    | with_reducible apply Keeps.when
    | with_reducible apply Keeps.foldl
    | split
    | intro _ _ _
    | intro _ _
    | intro _
    | with_reducible refine Keeps.of_pair (by with_reducible assumption) ?_
    | with_reducible refine Keeps.of_triple (by with_reducible assumption) ?_
    | dsimp only)

theorem State.pgSync_keeps {w₀ : Nat} {s₀ s : State} (hw : Sub 0x880028000000000000040 w₀) (h₀ : Keeps w₀ s₀ s) :
    Keeps w₀ s₀ (State.pgSync s) := by
  unfold State.pgSync
  repeat' (first
    | with_reducible assumption
    | with_reducible apply State.setPg_keeps
    | with_reducible apply State.setPgState_keeps
    | with_reducible apply State.pgFirst_keeps
    | (simp only [Keeps.mk_eq]; with_reducible apply KeepsMk.upd)
    | exact hw.le rfl
    | exact Or.inl (hw.bit rfl)
    | with_reducible exact Or.inr rfl
    | with_reducible apply ResKeeps.next
    | with_reducible apply Keeps.each
    | with_reducible apply Keeps.when
    | with_reducible apply Keeps.foldl
    | split
    | intro _ _ _
    | intro _ _
    | intro _
    | with_reducible refine Keeps.of_pair (by with_reducible assumption) ?_
    | with_reducible refine Keeps.of_triple (by with_reducible assumption) ?_
    | dsimp only)

theorem State.pgRun_keeps {w₀ : Nat} {s₀ s : State} (hw : Sub 0x880028000000000000040 w₀) (h₀ : Keeps w₀ s₀ s) :
    Keeps w₀ s₀ (State.pgRun s) := by
  unfold State.pgRun
  repeat' (first
    | with_reducible assumption
    | with_reducible apply State.pgEnter_keeps
    | exact hw.le rfl
    | with_reducible apply ResKeeps.next
    | with_reducible apply Keeps.each
    | with_reducible apply Keeps.when
    | with_reducible apply Keeps.foldl
    | split
    | intro _ _ _
    | intro _ _
    | intro _
    | with_reducible refine Keeps.of_pair (by with_reducible assumption) ?_
    | with_reducible refine Keeps.of_triple (by with_reducible assumption) ?_
    | dsimp only)

theorem State.pgResult_keeps {w₀ : Nat} {s₀ s : State} (hw : Sub 0x40 w₀) (p : Nat) (r : Nat) (h₀ : Keeps w₀ s₀ s) :
    Keeps w₀ s₀ (State.pgResult s p r) := by
  unfold State.pgResult
  repeat' (first
    | with_reducible assumption
    | with_reducible apply State.wrs_keeps
    | with_reducible exact Reg.tsPgCmdStatusPg_may hw rfl
    | with_reducible exact Reg.tsPgCmdStatusResult_may hw rfl
    | with_reducible exact AllMay.nil _
    | with_reducible apply AllMay.cons
    | with_reducible apply AllMay.append
    | with_reducible apply AllMay.map
    | exact hw.le rfl
    | with_reducible apply ResKeeps.next
    | with_reducible apply Keeps.each
    | with_reducible apply Keeps.when
    | with_reducible apply Keeps.foldl
    | split
    | intro _ _ _
    | intro _ _
    | intro _
    | with_reducible refine Keeps.of_pair (by with_reducible assumption) ?_
    | with_reducible refine Keeps.of_triple (by with_reducible assumption) ?_
    | dsimp only)

theorem execPgCmdNop_keeps {w₀ : Nat} {s₀ s : State} (hw : Sub 0x40 w₀) (pg : Fin 16) (h₀ : Keeps w₀ s₀ s) :
    ResKeeps w₀ s₀ (execPgCmdNop pg s) := by
  unfold execPgCmdNop
  repeat' (first
    | with_reducible assumption
    | with_reducible apply State.pgResult_keeps
    | exact hw.le rfl
    | with_reducible apply ResKeeps.next
    | with_reducible apply Keeps.each
    | with_reducible apply Keeps.when
    | with_reducible apply Keeps.foldl
    | split
    | intro _ _ _
    | intro _ _
    | intro _
    | with_reducible refine Keeps.of_pair (by with_reducible assumption) ?_
    | with_reducible refine Keeps.of_triple (by with_reducible assumption) ?_
    | dsimp only)

theorem execPgCmdReserved_keeps {w₀ : Nat} {s₀ s : State} (hw : Sub 0x40 w₀) (pg : Fin 16) (gen : Fin 65536) (h₀ : Keeps w₀ s₀ s) :
    ResKeeps w₀ s₀ (execPgCmdReserved pg gen s) := by
  unfold execPgCmdReserved
  repeat' (first
    | with_reducible assumption
    | with_reducible apply State.pgResult_keeps
    | exact hw.le rfl
    | with_reducible apply ResKeeps.next
    | with_reducible apply Keeps.each
    | with_reducible apply Keeps.when
    | with_reducible apply Keeps.foldl
    | split
    | intro _ _ _
    | intro _ _
    | intro _
    | with_reducible refine Keeps.of_pair (by with_reducible assumption) ?_
    | with_reducible refine Keeps.of_triple (by with_reducible assumption) ?_
    | dsimp only)

theorem execPgArm_keeps {w₀ : Nat} {s₀ s : State} (hw : Sub 0x880028000000000000040 w₀) (pg : Fin 16) (gen : Fin 65536) (h₀ : Keeps w₀ s₀ s) :
    ResKeeps w₀ s₀ (execPgArm pg gen s) := by
  unfold execPgArm
  repeat' (first
    | with_reducible assumption
    | with_reducible apply State.wrs_keeps
    | with_reducible apply State.pgEnter_keeps
    | with_reducible apply State.pgResult_keeps
    | with_reducible exact Reg.tsPgCfgMode_may hw rfl
    | with_reducible exact Reg.tsPgCfgPol_may hw rfl
    | with_reducible exact Reg.tsPgCfgTb_may hw rfl
    | with_reducible exact Reg.tsPgCntCount_may hw rfl
    | with_reducible exact Reg.tsPgFiredFired_may hw rfl
    | with_reducible exact Reg.tsPgPer0PeriodLo_may hw rfl
    | with_reducible exact Reg.tsPgPer1PeriodHi_may hw rfl
    | with_reducible exact Reg.tsPgStart0StartSecLo_may hw rfl
    | with_reducible exact Reg.tsPgStart1StartSecHi_may hw rfl
    | with_reducible exact Reg.tsPgStart2StartNs_may hw rfl
    | with_reducible exact Reg.tsPgStart3StartFrac_may hw rfl
    | with_reducible exact Reg.tsPgStatusLate_may hw rfl
    | with_reducible exact Reg.tsPgWid0WidthLo_may hw rfl
    | with_reducible exact Reg.tsPgWid1WidthHi_may hw rfl
    | with_reducible exact AllMay.nil _
    | with_reducible apply AllMay.cons
    | with_reducible apply AllMay.append
    | with_reducible apply AllMay.map
    | exact hw.le rfl
    | with_reducible apply ResKeeps.next
    | with_reducible apply Keeps.each
    | with_reducible apply Keeps.when
    | with_reducible apply Keeps.foldl
    | split
    | intro _ _ _
    | intro _ _
    | intro _
    | with_reducible refine Keeps.of_pair (by with_reducible assumption) ?_
    | with_reducible refine Keeps.of_triple (by with_reducible assumption) ?_
    | dsimp only)

theorem execPgDisarm_keeps {w₀ : Nat} {s₀ s : State} (hw : Sub 0x880028000000000000040 w₀) (pg : Fin 16) (gen : Fin 65536) (h₀ : Keeps w₀ s₀ s) :
    ResKeeps w₀ s₀ (execPgDisarm pg gen s) := by
  unfold execPgDisarm
  repeat' (first
    | with_reducible assumption
    | with_reducible apply State.setPg_keeps
    | with_reducible apply State.setPgState_keeps
    | with_reducible apply State.pgResult_keeps
    | (simp only [Keeps.mk_eq]; with_reducible apply KeepsMk.upd)
    | exact hw.le rfl
    | exact Or.inl (hw.bit rfl)
    | with_reducible exact Or.inr rfl
    | with_reducible apply ResKeeps.next
    | with_reducible apply Keeps.each
    | with_reducible apply Keeps.when
    | with_reducible apply Keeps.foldl
    | split
    | intro _ _ _
    | intro _ _
    | intro _
    | with_reducible refine Keeps.of_pair (by with_reducible assumption) ?_
    | with_reducible refine Keeps.of_triple (by with_reducible assumption) ?_
    | dsimp only)

theorem execPgEdge_keeps {w₀ : Nat} {s₀ s : State} (hw : Sub 0x890028000000000000040 w₀) (pg : Fin 16) (rising : Bool) (h₀ : Keeps w₀ s₀ s) :
    ResKeeps w₀ s₀ (execPgEdge pg rising s) := by
  unfold execPgEdge
  repeat' (first
    | with_reducible assumption
    | with_reducible apply Keeps.wr
    | with_reducible apply State.bump_keeps
    | with_reducible apply State.send_keeps
    | with_reducible apply State.report_keeps
    | with_reducible apply State.setPg_keeps
    | with_reducible apply State.setPgState_keeps
    | with_reducible exact Reg.tsPgFiredFired_may hw rfl
    | with_reducible exact Reg.tsPgStatusTapSat_may hw rfl
    | exact hw.le rfl
    | with_reducible apply ResKeeps.next
    | with_reducible apply Keeps.each
    | with_reducible apply Keeps.when
    | with_reducible apply Keeps.foldl
    | split
    | intro _ _ _
    | intro _ _
    | intro _
    | with_reducible refine Keeps.of_pair (by with_reducible assumption) ?_
    | with_reducible refine Keeps.of_triple (by with_reducible assumption) ?_
    | dsimp only)

theorem execEvtInEdge_keeps {w₀ : Nat} {s₀ s : State} (hw : Sub 0x880028000000000000040 w₀) (input : Fin 16) (rising : Bool) (pop : Bool) (coarse : Fin 64) (fine : Fin 32) (h₀ : Keeps w₀ s₀ s) :
    ResKeeps w₀ s₀ (execEvtInEdge input rising pop coarse fine s) := by
  unfold execEvtInEdge
  repeat' (first
    | with_reducible assumption
    | with_reducible apply State.bump_keeps
    | with_reducible apply State.capPush_keeps
    | with_reducible apply State.capPop_keeps
    | with_reducible exact Reg.tsCapGatedGated_may hw rfl
    | with_reducible exact Reg.tsCapMissedMissed_may hw rfl
    | (simp only [Keeps.mk_eq]; with_reducible apply KeepsMk.upd)
    | exact hw.le rfl
    | exact Or.inl (hw.bit rfl)
    | with_reducible exact Or.inr rfl
    | with_reducible apply ResKeeps.next
    | with_reducible apply Keeps.each
    | with_reducible apply Keeps.when
    | with_reducible apply Keeps.foldl
    | split
    | intro _ _ _
    | intro _ _
    | intro _
    | with_reducible refine Keeps.of_pair (by with_reducible assumption) ?_
    | with_reducible refine Keeps.of_triple (by with_reducible assumption) ?_
    | dsimp only)

theorem applyPulses_keeps {w₀ : Nat} {s₀ s : State} (hw : Sub 0x40 w₀) (v : List Byte) (h₀ : Keeps w₀ s₀ s) :
    Keeps w₀ s₀ (applyPulses v s) := by
  unfold applyPulses
  repeat' (first
    | with_reducible assumption
    | with_reducible apply Keeps.wr
    | with_reducible apply State.wrs_keeps
    | with_reducible exact Reg.tsCapCfgEdge_may hw rfl
    | with_reducible exact Reg.tsCapCfgGate_may hw rfl
    | with_reducible exact Reg.tsCapCfgTb_may hw rfl
    | with_reducible exact Reg.tsCapCfgWinEn_may hw rfl
    | with_reducible exact Reg.tsCapCfgWinPg_may hw rfl
    | with_reducible exact Reg.tsCapExtExtDelay_may hw rfl
    | with_reducible exact Reg.tsLeatTbTb_may hw rfl
    | with_reducible exact Reg.tsPgCfgDrive_may hw rfl
    | with_reducible exact Reg.tsPgCfgMode_may hw rfl
    | with_reducible exact Reg.tsPgCfgOwner_may hw rfl
    | with_reducible exact Reg.tsPgCfgPol_may hw rfl
    | with_reducible exact Reg.tsPgCfgTb_may hw rfl
    | with_reducible exact Reg.tsPgCntCount_may hw rfl
    | with_reducible exact Reg.tsPgExtExtDelay_may hw rfl
    | with_reducible exact Reg.tsPgPer0PeriodLo_may hw rfl
    | with_reducible exact Reg.tsPgPer1PeriodHi_may hw rfl
    | with_reducible exact Reg.tsPgStart0StartSecLo_may hw rfl
    | with_reducible exact Reg.tsPgStart1StartSecHi_may hw rfl
    | with_reducible exact Reg.tsPgStart2StartNs_may hw rfl
    | with_reducible exact Reg.tsPgStart3StartFrac_may hw rfl
    | with_reducible exact Reg.tsPgWid0WidthLo_may hw rfl
    | with_reducible exact Reg.tsPgWid1WidthHi_may hw rfl
    | with_reducible exact AllMay.nil _
    | with_reducible apply AllMay.cons
    | with_reducible apply AllMay.append
    | with_reducible apply AllMay.map
    | exact hw.le rfl
    | with_reducible apply ResKeeps.next
    | with_reducible apply Keeps.each
    | with_reducible apply Keeps.when
    | with_reducible apply Keeps.foldl
    | split
    | intro _ _ _
    | intro _ _
    | intro _
    | with_reducible refine Keeps.of_pair (by with_reducible assumption) ?_
    | with_reducible refine Keeps.of_triple (by with_reducible assumption) ?_
    | dsimp only)

end Sys2Proof.Machine
end

