-- ==== Sys2Proof/Laws/KeepFeed.lean ====
section
/-! SUPPORT. What the operations of Machine/Feed.lean keep. -/

set_option linter.all false
set_option Elab.async false

namespace Sys2Proof.Machine

theorem State.sampleTb_keeps {w₀ : Nat} {s₀ s : State} (hw : Sub 0x8c0028000040000000050 w₀) (n : Nat) (e : Int) (h₀ : Keeps w₀ s₀ s) :
    Keeps w₀ s₀ (State.sampleTb s n e) := by
  unfold State.sampleTb
  repeat' (first
    | with_reducible assumption
    | with_reducible apply State.sample_keeps
    | with_reducible apply State.pgSync_keeps
    | exact hw.le rfl
    | with_reducible apply ResKeeps.next
    | with_reducible apply Keeps.each
    | with_reducible apply Keeps.when
    | with_reducible apply Keeps.foldl
    | split
    | intro _ _ _
    | intro _ _
    | intro _
    | with_reducible refine Keeps.of_pair (by with_reducible assumption) ?_
    | with_reducible refine Keeps.of_triple (by with_reducible assumption) ?_
    | dsimp only)

theorem State.feedResult_keeps {w₀ : Nat} {s₀ s : State} (hw : Sub 0x10 w₀) (n : Nat) (r : Nat) (h₀ : Keeps w₀ s₀ s) :
    Keeps w₀ s₀ (State.feedResult s n r) := by
  unfold State.feedResult
  repeat' (first
    | with_reducible assumption
    | with_reducible apply Keeps.wr
    | with_reducible apply State.bump_keeps
    | with_reducible exact Reg.tkTbFeedStatusAccepted_may hw rfl
    | with_reducible exact Reg.tkTbFeedStatusResult_may hw rfl
    | exact hw.le rfl
    | with_reducible apply ResKeeps.next
    | with_reducible apply Keeps.each
    | with_reducible apply Keeps.when
    | with_reducible apply Keeps.foldl
    | split
    | intro _ _ _
    | intro _ _
    | intro _
    | with_reducible refine Keeps.of_pair (by with_reducible assumption) ?_
    | with_reducible refine Keeps.of_triple (by with_reducible assumption) ?_
    | dsimp only)

theorem execTbFeedOffset_keeps {w₀ : Nat} {s₀ s : State} (hw : Sub 0x8c0028000040000000050 w₀) (n : Fin 8) (gen : Fin 65536) (h₀ : Keeps w₀ s₀ s) :
    ResKeeps w₀ s₀ (execTbFeedOffset n gen s) := by
  unfold execTbFeedOffset
  repeat' (first
    | with_reducible assumption
    | with_reducible apply State.sampleTb_keeps
    | with_reducible apply State.feedResult_keeps
    | exact hw.le rfl
    | with_reducible apply ResKeeps.next
    | with_reducible apply Keeps.each
    | with_reducible apply Keeps.when
    | with_reducible apply Keeps.foldl
    | split
    | intro _ _ _
    | intro _ _
    | intro _
    | with_reducible refine Keeps.of_pair (by with_reducible assumption) ?_
    | with_reducible refine Keeps.of_triple (by with_reducible assumption) ?_
    | dsimp only)

theorem State.setTime_keeps {w₀ : Nat} {s₀ s : State} (hw : Sub 0xc0028000000000000010 w₀) (k : Nat) (n : Nat) (t : Nat) (h₀ : Keeps w₀ s₀ s) :
    Keeps w₀ s₀ (State.setTime s k n t) := by
  unfold State.setTime
  repeat' (first
    | with_reducible assumption
    | with_reducible apply State.setTb_keeps
    | with_reducible apply State.putTb_keeps
    | (simp only [Keeps.mk_eq]; with_reducible apply KeepsMk.upd)
    | exact hw.le rfl
    | exact Or.inl (hw.bit rfl)
    | with_reducible exact Or.inr rfl
    | with_reducible apply ResKeeps.next
    | with_reducible apply Keeps.each
    | with_reducible apply Keeps.when
    | with_reducible apply Keeps.foldl
    | split
    | intro _ _ _
    | intro _ _
    | intro _
    | with_reducible refine Keeps.of_pair (by with_reducible assumption) ?_
    | with_reducible refine Keeps.of_triple (by with_reducible assumption) ?_
    | dsimp only)

theorem execTbFeedSet_keeps {w₀ : Nat} {s₀ s : State} (hw : Sub 0x8c0028000000000000050 w₀) (n : Fin 8) (gen : Fin 65536) (h₀ : Keeps w₀ s₀ s) :
    ResKeeps w₀ s₀ (execTbFeedSet n gen s) := by
  unfold execTbFeedSet
  repeat' (first
    | with_reducible assumption
    | with_reducible apply State.pgSync_keeps
    | with_reducible apply State.feedResult_keeps
    | with_reducible apply State.setTime_keeps
    | exact hw.le rfl
    | with_reducible apply ResKeeps.next
    | with_reducible apply Keeps.each
    | with_reducible apply Keeps.when
    | with_reducible apply Keeps.foldl
    | split
    | intro _ _ _
    | intro _ _
    | intro _
    | with_reducible refine Keeps.of_pair (by with_reducible assumption) ?_
    | with_reducible refine Keeps.of_triple (by with_reducible assumption) ?_
    | dsimp only)

theorem execTbSampleDeferred_keeps {w₀ : Nat} {s₀ s : State} (hw : Sub 0x8c0028000040000000050 w₀) (n : Fin 8) (h₀ : Keeps w₀ s₀ s) :
    ResKeeps w₀ s₀ (execTbSampleDeferred n s) := by
  unfold execTbSampleDeferred
  repeat' (first
    | with_reducible assumption
    | with_reducible apply State.deferredCheck_keeps
    | with_reducible apply State.useWaiting_keeps
    | with_reducible apply State.pgSync_keeps
    | exact hw.le rfl
    | with_reducible apply ResKeeps.next
    | with_reducible apply Keeps.each
    | with_reducible apply Keeps.when
    | with_reducible apply Keeps.foldl
    | split
    | intro _ _ _
    | intro _ _
    | intro _
    | with_reducible refine Keeps.of_pair (by with_reducible assumption) ?_
    | with_reducible refine Keeps.of_triple (by with_reducible assumption) ?_
    | dsimp only)

theorem execTbRampTick_keeps {w₀ : Nat} {s₀ s : State} (hw : Sub 0x2c0028000040000000010 w₀) (k : Fin 4) (h₀ : Keeps w₀ s₀ s) :
    ResKeeps w₀ s₀ (execTbRampTick k s) := by
  unfold execTbRampTick
  repeat' (first
    | with_reducible assumption
    | with_reducible apply State.rampTick_keeps
    | exact hw.le rfl
    | with_reducible apply ResKeeps.next
    | with_reducible apply Keeps.each
    | with_reducible apply Keeps.when
    | with_reducible apply Keeps.foldl
    | split
    | intro _ _ _
    | intro _ _
    | intro _
    | with_reducible refine Keeps.of_pair (by with_reducible assumption) ?_
    | with_reducible refine Keeps.of_triple (by with_reducible assumption) ?_
    | dsimp only)

theorem State.ppsSample_keeps {w₀ : Nat} {s₀ s : State} (hw : Sub 0x8c0028000040000000050 w₀) (n : Nat) (m : Nat) (coarse : Nat) (fine : Nat) (h₀ : Keeps w₀ s₀ s) :
    Keeps w₀ s₀ (State.ppsSample s n m coarse fine) := by
  unfold State.ppsSample
  repeat' (first
    | with_reducible assumption
    | with_reducible apply State.sampleTb_keeps
    | (simp only [Keeps.mk_eq]; with_reducible apply KeepsMk.upd)
    | exact hw.le rfl
    | exact Or.inl (hw.bit rfl)
    | with_reducible exact Or.inr rfl
    | with_reducible apply ResKeeps.next
    | with_reducible apply Keeps.each
    | with_reducible apply Keeps.when
    | with_reducible apply Keeps.foldl
    | split
    | intro _ _ _
    | intro _ _
    | intro _
    | with_reducible refine Keeps.of_pair (by with_reducible assumption) ?_
    | with_reducible refine Keeps.of_triple (by with_reducible assumption) ?_
    | dsimp only)

theorem execRefinPpsEdge_keeps {w₀ : Nat} {s₀ s : State} (hw : Sub 0x9c0028000040000000054 w₀) (pair : Fin 4) (cyclesOk : Bool) (taps : Fin 64 × Fin 32) (h₀ : Keeps w₀ s₀ s) :
    ResKeeps w₀ s₀ (execRefinPpsEdge pair cyclesOk taps s) := by
  unfold execRefinPpsEdge
  repeat' (first
    | with_reducible assumption
    | with_reducible apply Keeps.wr
    | with_reducible apply State.sourceLost_keeps
    | with_reducible apply State.setCand_keeps
    | with_reducible apply State.ppsSample_keeps
    | with_reducible exact Reg.refselCandStatusPpsValid_may hw rfl
    | (simp only [Keeps.mk_eq]; with_reducible apply KeepsMk.upd)
    | exact hw.le rfl
    | exact Or.inl (hw.bit rfl)
    | with_reducible exact Or.inr rfl
    | with_reducible apply ResKeeps.next
    | with_reducible apply Keeps.each
    | with_reducible apply Keeps.when
    | with_reducible apply Keeps.foldl
    | split
    | intro _ _ _
    | intro _ _
    | intro _
    | with_reducible refine Keeps.of_pair (by with_reducible assumption) ?_
    | with_reducible refine Keeps.of_triple (by with_reducible assumption) ?_
    | dsimp only)

theorem execPpsEdgeTimeout_keeps {w₀ : Nat} {s₀ s : State} (hw : Sub 0x1c0028000000000000014 w₀) (pair : Fin 4) (h₀ : Keeps w₀ s₀ s) :
    ResKeeps w₀ s₀ (execPpsEdgeTimeout pair s) := by
  unfold execPpsEdgeTimeout
  repeat' (first
    | with_reducible assumption
    | with_reducible apply Keeps.wr
    | with_reducible apply State.sourceLost_keeps
    | with_reducible apply State.setCand_keeps
    | with_reducible exact Reg.refselCandStatusPpsValid_may hw rfl
    | (simp only [Keeps.mk_eq]; with_reducible apply KeepsMk.upd)
    | exact hw.le rfl
    | exact Or.inl (hw.bit rfl)
    | with_reducible exact Or.inr rfl
    | with_reducible apply ResKeeps.next
    | with_reducible apply Keeps.each
    | with_reducible apply Keeps.when
    | with_reducible apply Keeps.foldl
    | split
    | intro _ _ _
    | intro _ _
    | intro _
    | with_reducible refine Keeps.of_pair (by with_reducible assumption) ?_
    | with_reducible refine Keeps.of_triple (by with_reducible assumption) ?_
    | dsimp only)

end Sys2Proof.Machine
end

