-- ==== Sys2Proof/Laws/KeepRings.lean ====
section
/-! SUPPORT. What the operations of Machine/Rings.lean keep. -/

set_option linter.all false
set_option Elab.async false

namespace Sys2Proof.Machine

theorem State.ringStep_keeps {w₀ : Nat} {s₀ s : State} (hw : Sub 0x80028000200000000000 w₀) (r : Nat) (h₀ : Keeps w₀ s₀ s) :
    Keeps w₀ s₀ (State.ringStep s r) := by
  unfold State.ringStep
  repeat' (first
    | with_reducible assumption
    | with_reducible apply Keeps.wr
    | with_reducible apply State.send_keeps
    | with_reducible apply State.intr_keeps
    | with_reducible exact Reg.hifRingDevIdxDevIdx_may hw rfl
    | exact hw.le rfl
    | with_reducible apply ResKeeps.next
    | with_reducible apply Keeps.each
    | with_reducible apply Keeps.when
    | with_reducible apply Keeps.foldl
    | split
    | intro _ _ _
    | intro _ _
    | intro _
    | with_reducible refine Keeps.of_pair (by with_reducible assumption) ?_
    | with_reducible refine Keeps.of_triple (by with_reducible assumption) ?_
    | dsimp only)

theorem State.ringPost_keeps {w₀ : Nat} {s₀ s : State} (hw : Sub 0x80028000200000000000 w₀) (r : Nat) (e : List Byte) (h₀ : Keeps w₀ s₀ s) :
    Keeps w₀ s₀ (State.ringPost s r e) := by
  unfold State.ringPost
  repeat' (first
    | with_reducible assumption
    | with_reducible apply State.send_keeps
    | with_reducible apply State.ringStep_keeps
    | exact hw.le rfl
    | with_reducible apply ResKeeps.next
    | with_reducible apply Keeps.each
    | with_reducible apply Keeps.when
    | with_reducible apply Keeps.foldl
    | split
    | intro _ _ _
    | intro _ _
    | intro _
    | with_reducible refine Keeps.of_pair (by with_reducible assumption) ?_
    | with_reducible refine Keeps.of_triple (by with_reducible assumption) ?_
    | dsimp only)

theorem State.memberStart_keeps {w₀ : Nat} {s₀ s : State} (hw : Sub 0x10000000000 w₀) (n : Nat) (h₀ : Keeps w₀ s₀ s) :
    Keeps w₀ s₀ (State.memberStart s n) := by
  unfold State.memberStart
  repeat' (first
    | with_reducible assumption
    | with_reducible apply State.unitStart_keeps
    | exact hw.le rfl
    | with_reducible apply ResKeeps.next
    | with_reducible apply Keeps.each
    | with_reducible apply Keeps.when
    | with_reducible apply Keeps.foldl
    | split
    | intro _ _ _
    | intro _ _
    | intro _
    | with_reducible refine Keeps.of_pair (by with_reducible assumption) ?_
    | with_reducible refine Keeps.of_triple (by with_reducible assumption) ?_
    | dsimp only)

end Sys2Proof.Machine
end

