-- ==== Sys2Proof/Laws/KeepTables.lean ====
section
/-! SUPPORT. What the operations of Machine/Tables.lean keep. -/

set_option linter.all false
set_option Elab.async false

namespace Sys2Proof.Machine

theorem State.tblUse_keeps {w₀ : Nat} {s₀ s : State} (hw : Sub 0x1000000 w₀) (h₀ : Keeps w₀ s₀ s) :
    Keeps w₀ s₀ (State.tblUse s) := by
  unfold State.tblUse
  repeat' (first
    | with_reducible assumption
    | with_reducible apply State.wrs_keeps
    | with_reducible exact Reg.tblFdbStaticStatic_may hw rfl
    | with_reducible exact Reg.tblFdbUseTotal_may hw rfl
    | with_reducible exact Reg.tblFlowUseStatic_may hw rfl
    | with_reducible exact Reg.tblFlowUseTotal_may hw rfl
    | with_reducible exact AllMay.nil _
    | with_reducible apply AllMay.cons
    | with_reducible apply AllMay.append
    | with_reducible apply AllMay.map
    | exact hw.le rfl
    | with_reducible apply ResKeeps.next
    | with_reducible apply Keeps.each
    | with_reducible apply Keeps.when
    | with_reducible apply Keeps.foldl
    | split
    | intro _ _ _
    | intro _ _
    | intro _
    | with_reducible refine Keeps.of_pair (by with_reducible assumption) ?_
    | with_reducible refine Keeps.of_triple (by with_reducible assumption) ?_
    | dsimp only)

theorem State.setParity_keeps {w₀ : Nat} {s₀ s : State} (hw : Sub 0x2000000000000000000000 w₀) (t : Nat) (slot : Nat) (p : Nat) (h₀ : Keeps w₀ s₀ s) :
    Keeps w₀ s₀ (State.setParity s t slot p) := by
  unfold State.setParity
  repeat' (first
    | with_reducible assumption
    | (simp only [Keeps.mk_eq]; with_reducible apply KeepsMk.upd)
    | exact hw.le rfl
    | exact Or.inl (hw.bit rfl)
    | with_reducible exact Or.inr rfl
    | with_reducible apply ResKeeps.next
    | with_reducible apply Keeps.each
    | with_reducible apply Keeps.when
    | with_reducible apply Keeps.foldl
    | split
    | intro _ _ _
    | intro _ _
    | intro _
    | with_reducible refine Keeps.of_pair (by with_reducible assumption) ?_
    | with_reducible refine Keeps.of_triple (by with_reducible assumption) ?_
    | dsimp only)

theorem State.setEnt_keeps {w₀ : Nat} {s₀ s : State} (hw : Sub 0x2000000000000001000000 w₀) (t : Nat) (slot : Nat) (e : Nat) (h₀ : Keeps w₀ s₀ s) :
    Keeps w₀ s₀ (State.setEnt s t slot e) := by
  unfold State.setEnt
  repeat' (first
    | with_reducible assumption
    | with_reducible apply State.tblUse_keeps
    | with_reducible apply State.setParity_keeps
    | (simp only [Keeps.mk_eq]; with_reducible apply KeepsMk.upd)
    | exact hw.le rfl
    | exact Or.inl (hw.bit rfl)
    | with_reducible exact Or.inr rfl
    | with_reducible apply ResKeeps.next
    | with_reducible apply Keeps.each
    | with_reducible apply Keeps.when
    | with_reducible apply Keeps.foldl
    | split
    | intro _ _ _
    | intro _ _
    | intro _
    | with_reducible refine Keeps.of_pair (by with_reducible assumption) ?_
    | with_reducible refine Keeps.of_triple (by with_reducible assumption) ?_
    | dsimp only)

theorem State.clearSlot_keeps {w₀ : Nat} {s₀ s : State} (hw : Sub 0x2000000000000001000000 w₀) (t : Nat) (slot : Nat) (h₀ : Keeps w₀ s₀ s) :
    Keeps w₀ s₀ (State.clearSlot s t slot) := by
  unfold State.clearSlot
  repeat' (first
    | with_reducible assumption
    | with_reducible apply State.setEnt_keeps
    | (simp only [Keeps.mk_eq]; with_reducible apply KeepsMk.upd)
    | exact hw.le rfl
    | exact Or.inl (hw.bit rfl)
    | with_reducible exact Or.inr rfl
    | with_reducible apply ResKeeps.next
    | with_reducible apply Keeps.each
    | with_reducible apply Keeps.when
    | with_reducible apply Keeps.foldl
    | split
    | intro _ _ _
    | intro _ _
    | intro _
    | with_reducible refine Keeps.of_pair (by with_reducible assumption) ?_
    | with_reducible refine Keeps.of_triple (by with_reducible assumption) ?_
    | dsimp only)

theorem State.scrubDue_keeps {w₀ : Nat} {s₀ s : State} (hw : Sub 0x2000000000000001000000 w₀) (h₀ : Keeps w₀ s₀ s) :
    Keeps w₀ s₀ (State.scrubDue s) := by
  unfold State.scrubDue
  repeat' (first
    | with_reducible assumption
    | with_reducible apply State.clearSlot_keeps
    | (simp only [Keeps.mk_eq]; with_reducible apply KeepsMk.upd)
    | exact hw.le rfl
    | exact Or.inl (hw.bit rfl)
    | with_reducible exact Or.inr rfl
    | with_reducible apply ResKeeps.next
    | with_reducible apply Keeps.each
    | with_reducible apply Keeps.when
    | with_reducible apply Keeps.foldl
    | split
    | intro _ _ _
    | intro _ _
    | intro _
    | with_reducible refine Keeps.of_pair (by with_reducible assumption) ?_
    | with_reducible refine Keeps.of_triple (by with_reducible assumption) ?_
    | dsimp only)

theorem State.parityErr_keeps {w₀ : Nat} {s₀ s : State} (hw : Sub 0x2010000000040001000000 w₀) (t : Nat) (slot : Nat) (h₀ : Keeps w₀ s₀ s) :
    Keeps w₀ s₀ (State.parityErr s t slot) := by
  unfold State.parityErr
  repeat' (first
    | with_reducible assumption
    | with_reducible apply State.wrs_keeps
    | with_reducible apply State.bump_keeps
    | with_reducible apply State.report_keeps
    | with_reducible apply State.ev_keeps
    | with_reducible apply State.clearSlot_keeps
    | with_reducible exact Reg.tblCntParity_may hw rfl
    | with_reducible exact Reg.tblParityLocBank_may hw rfl
    | with_reducible exact Reg.tblParityLocIndex_may hw rfl
    | with_reducible exact Reg.tblParityLocTable_may hw rfl
    | with_reducible exact Reg.tblParityLocWay_may hw rfl
    | with_reducible exact AllMay.nil _
    | with_reducible apply AllMay.cons
    | with_reducible apply AllMay.append
    | with_reducible apply AllMay.map
    | exact hw.le rfl
    | with_reducible apply ResKeeps.next
    | with_reducible apply Keeps.each
    | with_reducible apply Keeps.when
    | with_reducible apply Keeps.foldl
    | split
    | intro _ _ _
    | intro _ _
    | intro _
    | with_reducible refine Keeps.of_pair (by with_reducible assumption) ?_
    | with_reducible refine Keeps.of_triple (by with_reducible assumption) ?_
    | dsimp only)

theorem State.upset_keeps {w₀ : Nat} {s₀ s : State} (hw : Sub 0x2000000000000000000000 w₀) (t : Nat) (slot : Nat) (h₀ : Keeps w₀ s₀ s) :
    Keeps w₀ s₀ (State.upset s t slot) := by
  unfold State.upset
  repeat' (first
    | with_reducible assumption
    | with_reducible apply State.setParity_keeps
    | exact hw.le rfl
    | with_reducible apply ResKeeps.next
    | with_reducible apply Keeps.each
    | with_reducible apply Keeps.when
    | with_reducible apply Keeps.foldl
    | split
    | intro _ _ _
    | intro _ _
    | intro _
    | with_reducible refine Keeps.of_pair (by with_reducible assumption) ?_
    | with_reducible refine Keeps.of_triple (by with_reducible assumption) ?_
    | dsimp only)

theorem State.parityReads_keeps {w₀ : Nat} {s₀ s : State} (hw : Sub 0x2010000000040001000000 w₀) (reads : List (Nat × Nat)) (bad : List (Nat × Nat)) (h₀ : Keeps w₀ s₀ s) :
    Keeps w₀ s₀ (State.parityReads s reads bad) := by
  unfold State.parityReads
  repeat' (first
    | with_reducible assumption
    | with_reducible apply State.parityErr_keeps
    | with_reducible apply State.upset_keeps
    | exact hw.le rfl
    | with_reducible apply ResKeeps.next
    | with_reducible apply Keeps.each
    | with_reducible apply Keeps.when
    | with_reducible apply Keeps.foldl
    | split
    | intro _ _ _
    | intro _ _
    | intro _
    | with_reducible refine Keeps.of_pair (by with_reducible assumption) ?_
    | with_reducible refine Keeps.of_triple (by with_reducible assumption) ?_
    | dsimp only)

theorem State.setLnq_keeps {w₀ : Nat} {s₀ s : State} (hw : Sub 0x2000000000000001000000 w₀) (l : List (List Byte)) (h₀ : Keeps w₀ s₀ s) :
    Keeps w₀ s₀ (State.setLnq s l) := by
  unfold State.setLnq
  repeat' (first
    | with_reducible assumption
    | with_reducible apply Keeps.wr
    | with_reducible exact Reg.tblLnqStatusCount_may hw rfl
    | (simp only [Keeps.mk_eq]; with_reducible apply KeepsMk.upd)
    | exact hw.le rfl
    | exact Or.inl (hw.bit rfl)
    | with_reducible exact Or.inr rfl
    | with_reducible apply ResKeeps.next
    | with_reducible apply Keeps.each
    | with_reducible apply Keeps.when
    | with_reducible apply Keeps.foldl
    | split
    | intro _ _ _
    | intro _ _
    | intro _
    | with_reducible refine Keeps.of_pair (by with_reducible assumption) ?_
    | with_reducible refine Keeps.of_triple (by with_reducible assumption) ?_
    | dsimp only)

theorem State.lnqPush_keeps {w₀ : Nat} {s₀ s : State} (hw : Sub 0x2080028000000001000000 w₀) (r : List Byte) (h₀ : Keeps w₀ s₀ s) :
    Keeps w₀ s₀ (State.lnqPush s r) := by
  unfold State.lnqPush
  repeat' (first
    | with_reducible assumption
    | with_reducible apply State.intr_keeps
    | with_reducible apply State.setLnq_keeps
    | exact hw.le rfl
    | with_reducible apply ResKeeps.next
    | with_reducible apply Keeps.each
    | with_reducible apply Keeps.when
    | with_reducible apply Keeps.foldl
    | split
    | intro _ _ _
    | intro _ _
    | intro _
    | with_reducible refine Keeps.of_pair (by with_reducible assumption) ?_
    | with_reducible refine Keeps.of_triple (by with_reducible assumption) ?_
    | dsimp only)

theorem State.post_keeps {w₀ : Nat} {s₀ s : State} (hw : Sub 0x2080028000000001000000 w₀) (ty : Nat) (flags : Nat) (vid : Nat) (mac : Nat) (a : Nat) (b : Nat) (sa : Nat) (sb : Nat) (h₀ : Keeps w₀ s₀ s) :
    Keeps w₀ s₀ (State.post s ty flags vid mac a b sa sb) := by
  unfold State.post
  repeat' (first
    | with_reducible assumption
    | with_reducible apply State.bump_keeps
    | with_reducible apply State.bumpWrap_keeps
    | with_reducible apply State.lnqPush_keeps
    | with_reducible exact Reg.tblCntAged_may hw rfl
    | with_reducible exact Reg.tblCntConflict_may hw rfl
    | with_reducible exact Reg.tblCntLearn_may hw rfl
    | with_reducible exact Reg.tblCntMove_may hw rfl
    | with_reducible exact Reg.tblNseqNext_may hw rfl
    | exact hw.le rfl
    | with_reducible apply ResKeeps.next
    | with_reducible apply Keeps.each
    | with_reducible apply Keeps.when
    | with_reducible apply Keeps.foldl
    | split
    | intro _ _ _
    | intro _ _
    | intro _
    | with_reducible refine Keeps.of_pair (by with_reducible assumption) ?_
    | with_reducible refine Keeps.of_triple (by with_reducible assumption) ?_
    | dsimp only)

theorem State.setCam_keeps {w₀ : Nat} {s₀ s : State} (hw : Sub 0x2000000000000001000000 w₀) (l : List Cam) (h₀ : Keeps w₀ s₀ s) :
    Keeps w₀ s₀ (State.setCam s l) := by
  unfold State.setCam
  repeat' (first
    | with_reducible assumption
    | with_reducible apply Keeps.wr
    | with_reducible exact Reg.tblLnqStatusCamUsed_may hw rfl
    | (simp only [Keeps.mk_eq]; with_reducible apply KeepsMk.upd)
    | exact hw.le rfl
    | exact Or.inl (hw.bit rfl)
    | with_reducible exact Or.inr rfl
    | with_reducible apply ResKeeps.next
    | with_reducible apply Keeps.each
    | with_reducible apply Keeps.when
    | with_reducible apply Keeps.foldl
    | split
    | intro _ _ _
    | intro _ _
    | intro _
    | with_reducible refine Keeps.of_pair (by with_reducible assumption) ?_
    | with_reducible refine Keeps.of_triple (by with_reducible assumption) ?_
    | dsimp only)

theorem State.camDrop_keeps {w₀ : Nat} {s₀ s : State} (hw : Sub 0x2000000000000001000000 w₀) (vid : Nat) (mac : Nat) (h₀ : Keeps w₀ s₀ s) :
    Keeps w₀ s₀ (State.camDrop s vid mac) := by
  unfold State.camDrop
  repeat' (first
    | with_reducible assumption
    | with_reducible apply State.setCam_keeps
    | exact hw.le rfl
    | with_reducible apply ResKeeps.next
    | with_reducible apply Keeps.each
    | with_reducible apply Keeps.when
    | with_reducible apply Keeps.foldl
    | split
    | intro _ _ _
    | intro _ _
    | intro _
    | with_reducible refine Keeps.of_pair (by with_reducible assumption) ?_
    | with_reducible refine Keeps.of_triple (by with_reducible assumption) ?_
    | dsimp only)

theorem State.sighting_keeps {w₀ : Nat} {s₀ s : State} (hw : Sub 0x2080028000040001000000 w₀) (p : Nat) (vid : Nat) (mac : Nat) (port : Nat) (stamp : Nat) (id : Nat) (sa : Option Nat) (h₀ : Keeps w₀ s₀ s) :
    Keeps w₀ s₀ (State.sighting s p vid mac port stamp id sa).2 := by
  unfold State.sighting
  repeat' (first
    | with_reducible assumption
    | with_reducible apply State.bump_keeps
    | with_reducible apply State.ev_keeps
    | with_reducible apply State.post_keeps
    | with_reducible apply State.setCam_keeps
    | with_reducible exact Reg.tblCntCamFull_may hw rfl
    | with_reducible exact Reg.tblCntLnqFull_may hw rfl
    | (simp only [Keeps.mk_eq]; with_reducible apply KeepsMk.upd)
    | exact hw.le rfl
    | exact Or.inl (hw.bit rfl)
    | with_reducible exact Or.inr rfl
    | with_reducible apply ResKeeps.next
    | with_reducible apply Keeps.each
    | with_reducible apply Keeps.when
    | with_reducible apply Keeps.foldl
    | split
    | intro _ _ _
    | intro _ _
    | intro _
    | with_reducible refine Keeps.of_pair (by with_reducible assumption) ?_
    | with_reducible refine Keeps.of_triple (by with_reducible assumption) ?_
    | dsimp only)

theorem State.retract_keeps {w₀ : Nat} {s₀ s : State} (hw : Sub 0x2080028000040001000000 w₀) (note : List Byte) (h₀ : Keeps w₀ s₀ s) :
    Keeps w₀ s₀ (State.retract s note) := by
  unfold State.retract
  repeat' (first
    | with_reducible assumption
    | with_reducible apply State.bump_keeps
    | with_reducible apply State.ev_keeps
    | with_reducible apply State.lnqPush_keeps
    | with_reducible apply State.setCam_keeps
    | with_reducible exact Reg.tblCntRetract_may hw rfl
    | exact hw.le rfl
    | with_reducible apply ResKeeps.next
    | with_reducible apply Keeps.each
    | with_reducible apply Keeps.when
    | with_reducible apply Keeps.foldl
    | split
    | intro _ _ _
    | intro _ _
    | intro _
    | with_reducible refine Keeps.of_pair (by with_reducible assumption) ?_
    | with_reducible refine Keeps.of_triple (by with_reducible assumption) ?_
    | dsimp only)

theorem State.refresh_keeps {w₀ : Nat} {s₀ s : State} (hw : Sub 0x2000000000000001000000 w₀) (t : Nat) (slot : Nat) (h₀ : Keeps w₀ s₀ s) :
    Keeps w₀ s₀ (State.refresh s t slot) := by
  unfold State.refresh
  repeat' (first
    | with_reducible assumption
    | with_reducible apply State.setEnt_keeps
    | exact hw.le rfl
    | with_reducible apply ResKeeps.next
    | with_reducible apply Keeps.each
    | with_reducible apply Keeps.when
    | with_reducible apply Keeps.foldl
    | split
    | intro _ _ _
    | intro _ _
    | intro _
    | with_reducible refine Keeps.of_pair (by with_reducible assumption) ?_
    | with_reducible refine Keeps.of_triple (by with_reducible assumption) ?_
    | dsimp only)

theorem State.vlanLookup_keeps {w₀ : Nat} {s₀ s : State} (hw : Sub 0x2000000000000001000000 w₀) (vid : Nat) (h₀ : Keeps w₀ s₀ s) :
    Keeps w₀ s₀ (State.vlanLookup s vid).2 := by
  unfold State.vlanLookup
  repeat' (first
    | with_reducible assumption
    | with_reducible apply State.refresh_keeps
    | exact hw.le rfl
    | with_reducible apply ResKeeps.next
    | with_reducible apply Keeps.each
    | with_reducible apply Keeps.when
    | with_reducible apply Keeps.foldl
    | split
    | intro _ _ _
    | intro _ _
    | intro _
    | with_reducible refine Keeps.of_pair (by with_reducible assumption) ?_
    | with_reducible refine Keeps.of_triple (by with_reducible assumption) ?_
    | dsimp only)

theorem State.unicast_keeps {w₀ : Nat} {s₀ s : State} (hw : Sub 0x40001000000 w₀) (p : Nat) (v : Nat) (ing : Nat) (n : Nat) (h₀ : Keeps w₀ s₀ s) :
    Keeps w₀ s₀ (State.unicast s p v ing n).2 := by
  unfold State.unicast
  repeat' (first
    | with_reducible assumption
    | with_reducible apply State.bump_keeps
    | with_reducible apply State.ev_keeps
    | with_reducible exact Reg.tblCntVlanDrop_may hw rfl
    | exact hw.le rfl
    | with_reducible apply ResKeeps.next
    | with_reducible apply Keeps.each
    | with_reducible apply Keeps.when
    | with_reducible apply Keeps.foldl
    | split
    | intro _ _ _
    | intro _ _
    | intro _
    | with_reducible refine Keeps.of_pair (by with_reducible assumption) ?_
    | with_reducible refine Keeps.of_triple (by with_reducible assumption) ?_
    | dsimp only)

theorem State.daDecide_keeps {w₀ : Nat} {s₀ s : State} (hw : Sub 0x40001000000 w₀) (p : Nat) (v : Nat) (ing : Nat) (vid : Nat) (da : Nat) (d : Option Nat) (tc : Nat) (h₀ : Keeps w₀ s₀ s) :
    Keeps w₀ s₀ (State.daDecide s p v ing vid da d tc).2.2 := by
  unfold State.daDecide
  repeat' (first
    | with_reducible assumption
    | with_reducible apply State.bump_keeps
    | with_reducible apply State.ev_keeps
    | with_reducible apply State.unicast_keeps
    | with_reducible exact Reg.tblCntFloods_may hw rfl
    | exact hw.le rfl
    | with_reducible apply ResKeeps.next
    | with_reducible apply Keeps.each
    | with_reducible apply Keeps.when
    | with_reducible apply Keeps.foldl
    | split
    | intro _ _ _
    | intro _ _
    | intro _
    | with_reducible refine Keeps.of_pair (by with_reducible assumption) ?_
    | with_reducible refine Keeps.of_triple (by with_reducible assumption) ?_
    | dsimp only)

theorem State.daLookup_keeps {w₀ : Nat} {s₀ s : State} (hw : Sub 0x2000000000000001000000 w₀) (vid : Nat) (da : Nat) (h₀ : Keeps w₀ s₀ s) :
    Keeps w₀ s₀ (State.daLookup s vid da).2 := by
  unfold State.daLookup
  repeat' (first
    | with_reducible assumption
    | with_reducible apply State.refresh_keeps
    | exact hw.le rfl
    | with_reducible apply ResKeeps.next
    | with_reducible apply Keeps.each
    | with_reducible apply Keeps.when
    | with_reducible apply Keeps.foldl
    | split
    | intro _ _ _
    | intro _ _
    | intro _
    | with_reducible refine Keeps.of_pair (by with_reducible assumption) ?_
    | with_reducible refine Keeps.of_triple (by with_reducible assumption) ?_
    | dsimp only)

theorem State.saStep_keeps {w₀ : Nat} {s₀ s : State} (hw : Sub 0x2080028000040001000000 w₀) (p : Nat) (id : Nat) (f : Frame) (v : Nat) (h₀ : Keeps w₀ s₀ s) :
    Keeps w₀ s₀ (State.saStep s p id f v).2 := by
  unfold State.saStep
  repeat' (first
    | with_reducible assumption
    | with_reducible apply State.bump_keeps
    | with_reducible apply State.sighting_keeps
    | with_reducible apply State.refresh_keeps
    | with_reducible exact Reg.tblCntStaticMismatch_may hw rfl
    | with_reducible exact Reg.tblLearnPortMask_may hw rfl
    | exact hw.le rfl
    | with_reducible apply ResKeeps.next
    | with_reducible apply Keeps.each
    | with_reducible apply Keeps.when
    | with_reducible apply Keeps.foldl
    | split
    | intro _ _ _
    | intro _ _
    | intro _
    | with_reducible refine Keeps.of_pair (by with_reducible assumption) ?_
    | with_reducible refine Keeps.of_triple (by with_reducible assumption) ?_
    | dsimp only)

theorem State.flowLook_keeps {w₀ : Nat} {s₀ s : State} (hw : Sub 0x40001000000 w₀) (p : Nat) (f : Frame) (v : Nat) (e : Nat) (h₀ : Keeps w₀ s₀ s) :
    Keeps w₀ s₀ (State.flowLook s p f v e).2 := by
  unfold State.flowLook
  repeat' (first
    | with_reducible assumption
    | with_reducible apply State.unicast_keeps
    | exact hw.le rfl
    | with_reducible apply ResKeeps.next
    | with_reducible apply Keeps.each
    | with_reducible apply Keeps.when
    | with_reducible apply Keeps.foldl
    | split
    | intro _ _ _
    | intro _ _
    | intro _
    | with_reducible refine Keeps.of_pair (by with_reducible assumption) ?_
    | with_reducible refine Keeps.of_triple (by with_reducible assumption) ?_
    | dsimp only)

theorem State.lookupFlow_keeps {w₀ : Nat} {s₀ s : State} (hw : Sub 0x2080028000040001000000 w₀) (p : Nat) (id : Nat) (f : Frame) (v : Nat) (sl : Nat) (e : Nat) (h₀ : Keeps w₀ s₀ s) :
    Keeps w₀ s₀ (State.lookupFlow s p id f v sl e).2.2 := by
  unfold State.lookupFlow
  repeat' (first
    | with_reducible assumption
    | with_reducible apply State.ev_keeps
    | with_reducible apply State.refresh_keeps
    | with_reducible apply State.saStep_keeps
    | with_reducible apply State.flowLook_keeps
    | exact hw.le rfl
    | with_reducible apply ResKeeps.next
    | with_reducible apply Keeps.each
    | with_reducible apply Keeps.when
    | with_reducible apply Keeps.foldl
    | split
    | intro _ _ _
    | intro _ _
    | intro _
    | with_reducible refine Keeps.of_pair (by with_reducible assumption) ?_
    | with_reducible refine Keeps.of_triple (by with_reducible assumption) ?_
    | dsimp only)

theorem State.lookupDa_keeps {w₀ : Nat} {s₀ s : State} (hw : Sub 0x2080028000040001000000 w₀) (p : Nat) (id : Nat) (f : Frame) (v : Nat) (d : Option Nat) (h₀ : Keeps w₀ s₀ s) :
    Keeps w₀ s₀ (State.lookupDa s p id f v d).2.2 := by
  unfold State.lookupDa
  repeat' (first
    | with_reducible assumption
    | with_reducible apply State.daDecide_keeps
    | with_reducible apply State.saStep_keeps
    | exact hw.le rfl
    | with_reducible apply ResKeeps.next
    | with_reducible apply Keeps.each
    | with_reducible apply Keeps.when
    | with_reducible apply Keeps.foldl
    | split
    | intro _ _ _
    | intro _ _
    | intro _
    | with_reducible refine Keeps.of_pair (by with_reducible assumption) ?_
    | with_reducible refine Keeps.of_triple (by with_reducible assumption) ?_
    | dsimp only)

theorem State.lookup1_keeps {w₀ : Nat} {s₀ s : State} (hw : Sub 0x2080028000040001000000 w₀) (p : Nat) (id : Nat) (f : Frame) (h₀ : Keeps w₀ s₀ s) :
    Keeps w₀ s₀ (State.lookup1 s p id f).2.2 := by
  unfold State.lookup1
  repeat' (first
    | with_reducible assumption
    | with_reducible apply State.bump_keeps
    | with_reducible apply State.ev_keeps
    | with_reducible apply State.vlanLookup_keeps
    | with_reducible apply State.daLookup_keeps
    | with_reducible apply State.lookupFlow_keeps
    | with_reducible apply State.lookupDa_keeps
    | with_reducible exact Reg.tblCntVlanDrop_may hw rfl
    | exact hw.le rfl
    | with_reducible apply ResKeeps.next
    | with_reducible apply Keeps.each
    | with_reducible apply Keeps.when
    | with_reducible apply Keeps.foldl
    | split
    | intro _ _ _
    | intro _ _
    | intro _
    | with_reducible refine Keeps.of_pair (by with_reducible assumption) ?_
    | with_reducible refine Keeps.of_triple (by with_reducible assumption) ?_
    | dsimp only)

theorem State.lookup2_keeps {w₀ : Nat} {s₀ s : State} (hw : Sub 0x2000000000040001000000 w₀) (p : Nat) (f : Frame) (h₀ : Keeps w₀ s₀ s) :
    Keeps w₀ s₀ (State.lookup2 s p f).2 := by
  unfold State.lookup2
  repeat' (first
    | with_reducible assumption
    | with_reducible apply State.bump_keeps
    | with_reducible apply State.ev_keeps
    | with_reducible apply State.vlanLookup_keeps
    | with_reducible apply State.daDecide_keeps
    | with_reducible apply State.daLookup_keeps
    | with_reducible exact Reg.tblCntVlanDrop_may hw rfl
    | exact hw.le rfl
    | with_reducible apply ResKeeps.next
    | with_reducible apply Keeps.each
    | with_reducible apply Keeps.when
    | with_reducible apply Keeps.foldl
    | split
    | intro _ _ _
    | intro _ _
    | intro _
    | with_reducible refine Keeps.of_pair (by with_reducible assumption) ?_
    | with_reducible refine Keeps.of_triple (by with_reducible assumption) ?_
    | dsimp only)

theorem execAgeClockTick_keeps {w₀ : Nat} {s₀ s : State} (hw : Sub 0x1000000 w₀) (h₀ : Keeps w₀ s₀ s) :
    ResKeeps w₀ s₀ (execAgeClockTick s) := by
  unfold execAgeClockTick
  repeat' (first
    | with_reducible assumption
    | with_reducible apply State.bumpWrap_keeps
    | with_reducible exact Reg.tblStatusAgeNow_may hw rfl
    | exact hw.le rfl
    | with_reducible apply ResKeeps.next
    | with_reducible apply Keeps.each
    | with_reducible apply Keeps.when
    | with_reducible apply Keeps.foldl
    | split
    | intro _ _ _
    | intro _ _
    | intro _
    | with_reducible refine Keeps.of_pair (by with_reducible assumption) ?_
    | with_reducible refine Keeps.of_triple (by with_reducible assumption) ?_
    | dsimp only)

theorem State.agedPost_keeps {w₀ : Nat} {s₀ s : State} (hw : Sub 0x2080028000000001000000 w₀) (t : Nat) (e : Nat) (reason : Nat) (h₀ : Keeps w₀ s₀ s) :
    Keeps w₀ s₀ (State.agedPost s t e reason) := by
  unfold State.agedPost
  repeat' (first
    | with_reducible assumption
    | with_reducible apply State.post_keeps
    | exact hw.le rfl
    | with_reducible apply ResKeeps.next
    | with_reducible apply Keeps.each
    | with_reducible apply Keeps.when
    | with_reducible apply Keeps.foldl
    | split
    | intro _ _ _
    | intro _ _
    | intro _
    | with_reducible refine Keeps.of_pair (by with_reducible assumption) ?_
    | with_reducible refine Keeps.of_triple (by with_reducible assumption) ?_
    | dsimp only)

theorem State.ageSlot_keeps {w₀ : Nat} {s₀ s : State} (hw : Sub 0x2080028000040001000000 w₀) (t : Nat) (slot : Nat) (h₀ : Keeps w₀ s₀ s) :
    Keeps w₀ s₀ (State.ageSlot s t slot) := by
  unfold State.ageSlot
  repeat' (first
    | with_reducible assumption
    | with_reducible apply State.bump_keeps
    | with_reducible apply State.ev_keeps
    | with_reducible apply State.setEnt_keeps
    | with_reducible apply State.agedPost_keeps
    | with_reducible exact Reg.tblAgeLimitFdbLimit_may hw rfl
    | with_reducible exact Reg.tblAgeLimitFlowLimit_may hw rfl
    | with_reducible exact Reg.tblCntAgeDefer_may hw rfl
    | exact hw.le rfl
    | with_reducible apply ResKeeps.next
    | with_reducible apply Keeps.each
    | with_reducible apply Keeps.when
    | with_reducible apply Keeps.foldl
    | split
    | intro _ _ _
    | intro _ _
    | intro _
    | with_reducible refine Keeps.of_pair (by with_reducible assumption) ?_
    | with_reducible refine Keeps.of_triple (by with_reducible assumption) ?_
    | dsimp only)

theorem execAgerVisit_keeps {w₀ : Nat} {s₀ s : State} (hw : Sub 0x2090028000040001000000 w₀) (parity : List (Nat × Nat)) (h₀ : Keeps w₀ s₀ s) :
    ResKeeps w₀ s₀ (execAgerVisit parity s) := by
  unfold execAgerVisit
  repeat' (first
    | with_reducible assumption
    | with_reducible apply State.ev_keeps
    | with_reducible apply State.parityReads_keeps
    | with_reducible apply State.ageSlot_keeps
    | (simp only [Keeps.mk_eq]; with_reducible apply KeepsMk.upd)
    | exact hw.le rfl
    | exact Or.inl (hw.bit rfl)
    | with_reducible exact Or.inr rfl
    | with_reducible apply ResKeeps.next
    | with_reducible apply Keeps.each
    | with_reducible apply Keeps.when
    | with_reducible apply Keeps.foldl
    | split
    | intro _ _ _
    | intro _ _
    | intro _
    | with_reducible refine Keeps.of_pair (by with_reducible assumption) ?_
    | with_reducible refine Keeps.of_triple (by with_reducible assumption) ?_
    | dsimp only)

theorem State.moveEnt_keeps {w₀ : Nat} {s₀ s : State} (hw : Sub 0x2000000000040001000000 w₀) (t : Nat) (sl : Nat) (src : Nat) (h₀ : Keeps w₀ s₀ s) :
    Keeps w₀ s₀ (State.moveEnt s t sl src) := by
  unfold State.moveEnt
  repeat' (first
    | with_reducible assumption
    | with_reducible apply State.ev_keeps
    | with_reducible apply State.setEnt_keeps
    | exact hw.le rfl
    | with_reducible apply ResKeeps.next
    | with_reducible apply Keeps.each
    | with_reducible apply Keeps.when
    | with_reducible apply Keeps.foldl
    | split
    | intro _ _ _
    | intro _ _
    | intro _
    | with_reducible refine Keeps.of_pair (by with_reducible assumption) ?_
    | with_reducible refine Keeps.of_triple (by with_reducible assumption) ?_
    | dsimp only)

theorem State.runPath_keeps {w₀ : Nat} {s₀ s : State} (hw : Sub 0x2000000000040001000000 w₀) (t e : Nat) (l : List Nat) (h₀ : Keeps w₀ s₀ s) :
    Keeps w₀ s₀ (State.runPath s t e l) := by
  induction l generalizing s with
  | nil => exact h₀
  | cons x l ih =>
    rw [State.runPath]
    split
    · exact State.setEnt_keeps (hw.le rfl) t x e h₀
    · exact ih (State.moveEnt_keeps (hw.le rfl) t x _ h₀)

theorem State.place_keeps {w₀ : Nat} {s₀ s : State} (hw : Sub 0x2000000000040001000000 w₀) (t : Nat) (e : Nat) (h₀ : Keeps w₀ s₀ s) :
    Keeps w₀ s₀ (State.place s t e).2 := by
  unfold State.place
  repeat' (first
    | with_reducible assumption
    | with_reducible apply State.runPath_keeps
    | exact hw.le rfl
    | with_reducible apply ResKeeps.next
    | with_reducible apply Keeps.each
    | with_reducible apply Keeps.when
    | with_reducible apply Keeps.foldl
    | split
    | intro _ _ _
    | intro _ _
    | intro _
    | with_reducible refine Keeps.of_pair (by with_reducible assumption) ?_
    | with_reducible refine Keeps.of_triple (by with_reducible assumption) ?_
    | dsimp only)

theorem State.reinstateKey_keeps {w₀ : Nat} {s₀ s : State} (hw : Sub 0x2080028000000001000000 w₀) (t : Nat) (e : Nat) (h₀ : Keeps w₀ s₀ s) :
    Keeps w₀ s₀ (State.reinstateKey s t e).2 := by
  unfold State.reinstateKey
  repeat' (first
    | with_reducible assumption
    | with_reducible apply State.setEnt_keeps
    | with_reducible apply State.agedPost_keeps
    | exact hw.le rfl
    | with_reducible apply ResKeeps.next
    | with_reducible apply Keeps.each
    | with_reducible apply Keeps.when
    | with_reducible apply Keeps.foldl
    | split
    | intro _ _ _
    | intro _ _
    | intro _
    | with_reducible refine Keeps.of_pair (by with_reducible assumption) ?_
    | with_reducible refine Keeps.of_triple (by with_reducible assumption) ?_
    | dsimp only)

theorem State.auditCount_keeps {w₀ : Nat} {s₀ s : State} (hw : Sub 0x40001000000 w₀) (h₀ : Keeps w₀ s₀ s) :
    Keeps w₀ s₀ (State.auditCount s) := by
  unfold State.auditCount
  repeat' (first
    | with_reducible assumption
    | with_reducible apply State.bump_keeps
    | with_reducible apply State.ev_keeps
    | with_reducible exact Reg.tblCntReinstated_may hw rfl
    | exact hw.le rfl
    | with_reducible apply ResKeeps.next
    | with_reducible apply Keeps.each
    | with_reducible apply Keeps.when
    | with_reducible apply Keeps.foldl
    | split
    | intro _ _ _
    | intro _ _
    | intro _
    | with_reducible refine Keeps.of_pair (by with_reducible assumption) ?_
    | with_reducible refine Keeps.of_triple (by with_reducible assumption) ?_
    | dsimp only)

theorem State.auditItem_keeps {w₀ : Nat} {s₀ s : State} (hw : Sub 0x2080028000040001000000 w₀) (x : Nat × Nat × Nat) (h₀ : Keeps w₀ s₀ s) :
    Keeps w₀ s₀ (State.auditItem s x) := by
  unfold State.auditItem
  repeat' (first
    | with_reducible assumption
    | with_reducible apply State.setEnt_keeps
    | with_reducible apply State.reinstateKey_keeps
    | with_reducible apply State.auditCount_keeps
    | exact hw.le rfl
    | with_reducible apply ResKeeps.next
    | with_reducible apply Keeps.each
    | with_reducible apply Keeps.when
    | with_reducible apply Keeps.foldl
    | split
    | intro _ _ _
    | intro _ _
    | intro _
    | with_reducible refine Keeps.of_pair (by with_reducible assumption) ?_
    | with_reducible refine Keeps.of_triple (by with_reducible assumption) ?_
    | dsimp only)

theorem execShadowAuditStep_keeps {w₀ : Nat} {s₀ s : State} (hw : Sub 0x2090028000040001000000 w₀) (ecc : Fin 3) (parity : List (Nat × Nat)) (h₀ : Keeps w₀ s₀ s) :
    ResKeeps w₀ s₀ (execShadowAuditStep ecc parity s) := by
  unfold execShadowAuditStep
  repeat' (first
    | with_reducible assumption
    | with_reducible apply State.report_keeps
    | with_reducible apply State.parityReads_keeps
    | with_reducible apply State.auditItem_keeps
    | (simp only [Keeps.mk_eq]; with_reducible apply KeepsMk.upd)
    | exact hw.le rfl
    | exact Or.inl (hw.bit rfl)
    | with_reducible exact Or.inr rfl
    | with_reducible apply ResKeeps.next
    | with_reducible apply Keeps.each
    | with_reducible apply Keeps.when
    | with_reducible apply Keeps.foldl
    | split
    | intro _ _ _
    | intro _ _
    | intro _
    | with_reducible refine Keeps.of_pair (by with_reducible assumption) ?_
    | with_reducible refine Keeps.of_triple (by with_reducible assumption) ?_
    | dsimp only)

theorem execCamEntryExpire_keeps {w₀ : Nat} {s₀ s : State} (hw : Sub 0x2000000000000001000000 w₀) (h₀ : Keeps w₀ s₀ s) :
    ResKeeps w₀ s₀ (execCamEntryExpire s) := by
  unfold execCamEntryExpire
  repeat' (first
    | with_reducible assumption
    | with_reducible apply State.setCam_keeps
    | exact hw.le rfl
    | with_reducible apply ResKeeps.next
    | with_reducible apply Keeps.each
    | with_reducible apply Keeps.when
    | with_reducible apply Keeps.foldl
    | split
    | intro _ _ _
    | intro _ _
    | intro _
    | with_reducible refine Keeps.of_pair (by with_reducible assumption) ?_
    | with_reducible refine Keeps.of_triple (by with_reducible assumption) ?_
    | dsimp only)

theorem State.fifoStatus_keeps {w₀ : Nat} {s₀ s : State} (hw : Sub 0x200000000000 w₀) (h₀ : Keeps w₀ s₀ s) :
    Keeps w₀ s₀ (State.fifoStatus s) := by
  unfold State.fifoStatus
  repeat' (first
    | with_reducible assumption
    | with_reducible apply State.wrs_keeps
    | with_reducible exact Reg.hifFifoStatusTcqFree_may hw rfl
    | with_reducible exact Reg.hifFifoStatusTcrCount_may hw rfl
    | with_reducible exact AllMay.nil _
    | with_reducible apply AllMay.cons
    | with_reducible apply AllMay.append
    | with_reducible apply AllMay.map
    | exact hw.le rfl
    | with_reducible apply ResKeeps.next
    | with_reducible apply Keeps.each
    | with_reducible apply Keeps.when
    | with_reducible apply Keeps.foldl
    | split
    | intro _ _ _
    | intro _ _
    | intro _
    | with_reducible refine Keeps.of_pair (by with_reducible assumption) ?_
    | with_reducible refine Keeps.of_triple (by with_reducible assumption) ?_
    | dsimp only)

theorem State.tcqDone_keeps {w₀ : Nat} {s₀ s : State} (hw : Sub 0x2080028000240000000000 w₀) (c : TcqCmd) (r : Nat) (h₀ : Keeps w₀ s₀ s) :
    Keeps w₀ s₀ (State.tcqDone s c r) := by
  unfold State.tcqDone
  repeat' (first
    | with_reducible assumption
    | with_reducible apply State.intr_keeps
    | with_reducible apply State.ev_keeps
    | with_reducible apply State.ringPost_keeps
    | with_reducible apply State.fifoStatus_keeps
    | (simp only [Keeps.mk_eq]; with_reducible apply KeepsMk.upd)
    | exact hw.le rfl
    | exact Or.inl (hw.bit rfl)
    | with_reducible exact Or.inr rfl
    | with_reducible apply ResKeeps.next
    | with_reducible apply Keeps.each
    | with_reducible apply Keeps.when
    | with_reducible apply Keeps.foldl
    | split
    | intro _ _ _
    | intro _ _
    | intro _
    | with_reducible refine Keeps.of_pair (by with_reducible assumption) ?_
    | with_reducible refine Keeps.of_triple (by with_reducible assumption) ?_
    | dsimp only)

theorem State.tableCmd_keeps {w₀ : Nat} {s₀ s : State} (hw : Sub 0x2080028000240001000000 w₀) (c : TcqCmd) (op : Nat) (h₀ : Keeps w₀ s₀ s) :
    Keeps w₀ s₀ (State.tableCmd s c op) := by
  unfold State.tableCmd
  repeat' (first
    | with_reducible assumption
    | with_reducible apply State.bump_keeps
    | with_reducible apply State.setEnt_keeps
    | with_reducible apply State.camDrop_keeps
    | with_reducible apply State.place_keeps
    | with_reducible apply State.tcqDone_keeps
    | with_reducible exact Reg.tblCntTcqFull_may hw rfl
    | exact hw.le rfl
    | with_reducible apply ResKeeps.next
    | with_reducible apply Keeps.each
    | with_reducible apply Keeps.when
    | with_reducible apply Keeps.foldl
    | split
    | intro _ _ _
    | intro _ _
    | intro _
    | with_reducible refine Keeps.of_pair (by with_reducible assumption) ?_
    | with_reducible refine Keeps.of_triple (by with_reducible assumption) ?_
    | dsimp only)

theorem State.tcqRun_keeps {w₀ : Nat} {s₀ s : State} (op : Nat → Bool) (f : State → TcqCmd → State)
    (hf : ∀ t c, Keeps w₀ s₀ t → Keeps w₀ s₀ (f t c)) (h₀ : Keeps w₀ s₀ s) : ResKeeps w₀ s₀ (State.tcqRun s op f) := by
  unfold State.tcqRun
  repeat' (first
    | with_reducible assumption
    | with_reducible apply ResKeeps.next
    | with_reducible apply hf
    | split
    | dsimp only)

theorem execTcqNop_keeps {w₀ : Nat} {s₀ s : State} (hw : Sub 0x2080028000240000000000 w₀) (h₀ : Keeps w₀ s₀ s) :
    ResKeeps w₀ s₀ (execTcqNop s) := by
  unfold execTcqNop
  repeat' (first
    | with_reducible assumption
    | with_reducible apply State.tcqDone_keeps
    | with_reducible apply State.tcqRun_keeps
    | exact hw.le rfl
    | with_reducible apply ResKeeps.next
    | with_reducible apply Keeps.each
    | with_reducible apply Keeps.when
    | with_reducible apply Keeps.foldl
    | split
    | intro _ _ _
    | intro _ _
    | intro _
    | with_reducible refine Keeps.of_pair (by with_reducible assumption) ?_
    | with_reducible refine Keeps.of_triple (by with_reducible assumption) ?_
    | dsimp only)

theorem execTcqInsert_keeps {w₀ : Nat} {s₀ s : State} (hw : Sub 0x2080028000240001000000 w₀) (h₀ : Keeps w₀ s₀ s) :
    ResKeeps w₀ s₀ (execTcqInsert s) := by
  unfold execTcqInsert
  repeat' (first
    | with_reducible assumption
    | with_reducible apply State.tableCmd_keeps
    | with_reducible apply State.tcqRun_keeps
    | exact hw.le rfl
    | with_reducible apply ResKeeps.next
    | with_reducible apply Keeps.each
    | with_reducible apply Keeps.when
    | with_reducible apply Keeps.foldl
    | split
    | intro _ _ _
    | intro _ _
    | intro _
    | with_reducible refine Keeps.of_pair (by with_reducible assumption) ?_
    | with_reducible refine Keeps.of_triple (by with_reducible assumption) ?_
    | dsimp only)

theorem execTcqModify_keeps {w₀ : Nat} {s₀ s : State} (hw : Sub 0x2080028000240001000000 w₀) (h₀ : Keeps w₀ s₀ s) :
    ResKeeps w₀ s₀ (execTcqModify s) := by
  unfold execTcqModify
  repeat' (first
    | with_reducible assumption
    | with_reducible apply State.tableCmd_keeps
    | with_reducible apply State.tcqRun_keeps
    | exact hw.le rfl
    | with_reducible apply ResKeeps.next
    | with_reducible apply Keeps.each
    | with_reducible apply Keeps.when
    | with_reducible apply Keeps.foldl
    | split
    | intro _ _ _
    | intro _ _
    | intro _
    | with_reducible refine Keeps.of_pair (by with_reducible assumption) ?_
    | with_reducible refine Keeps.of_triple (by with_reducible assumption) ?_
    | dsimp only)

theorem execTcqDelete_keeps {w₀ : Nat} {s₀ s : State} (hw : Sub 0x2080028000240001000000 w₀) (h₀ : Keeps w₀ s₀ s) :
    ResKeeps w₀ s₀ (execTcqDelete s) := by
  unfold execTcqDelete
  repeat' (first
    | with_reducible assumption
    | with_reducible apply State.tableCmd_keeps
    | with_reducible apply State.tcqRun_keeps
    | exact hw.le rfl
    | with_reducible apply ResKeeps.next
    | with_reducible apply Keeps.each
    | with_reducible apply Keeps.when
    | with_reducible apply Keeps.foldl
    | split
    | intro _ _ _
    | intro _ _
    | intro _
    | with_reducible refine Keeps.of_pair (by with_reducible assumption) ?_
    | with_reducible refine Keeps.of_triple (by with_reducible assumption) ?_
    | dsimp only)

theorem execTcqFence_keeps {w₀ : Nat} {s₀ s : State} (hw : Sub 0x2080028000240001000000 w₀) (h₀ : Keeps w₀ s₀ s) :
    ResKeeps w₀ s₀ (execTcqFence s) := by
  unfold execTcqFence
  repeat' (first
    | with_reducible assumption
    | with_reducible apply State.wrs_keeps
    | with_reducible apply State.ev_keeps
    | with_reducible apply State.tcqDone_keeps
    | with_reducible apply State.tcqRun_keeps
    | with_reducible exact Reg.tblEpochCurrent_may hw rfl
    | with_reducible exact Reg.tblEpochOutstanding_may hw rfl
    | with_reducible exact AllMay.nil _
    | with_reducible apply AllMay.cons
    | with_reducible apply AllMay.append
    | with_reducible apply AllMay.map
    | (simp only [Keeps.mk_eq]; with_reducible apply KeepsMk.upd)
    | exact hw.le rfl
    | exact Or.inl (hw.bit rfl)
    | with_reducible exact Or.inr rfl
    | with_reducible apply ResKeeps.next
    | with_reducible apply Keeps.each
    | with_reducible apply Keeps.when
    | with_reducible apply Keeps.foldl
    | split
    | intro _ _ _
    | intro _ _
    | intro _
    | with_reducible refine Keeps.of_pair (by with_reducible assumption) ?_
    | with_reducible refine Keeps.of_triple (by with_reducible assumption) ?_
    | dsimp only)

theorem execTcqReserved_keeps {w₀ : Nat} {s₀ s : State} (hw : Sub 0x2080028000240000000000 w₀) (h₀ : Keeps w₀ s₀ s) :
    ResKeeps w₀ s₀ (execTcqReserved s) := by
  unfold execTcqReserved
  repeat' (first
    | with_reducible assumption
    | with_reducible apply State.tcqDone_keeps
    | with_reducible apply State.tcqRun_keeps
    | exact hw.le rfl
    | with_reducible apply ResKeeps.next
    | with_reducible apply Keeps.each
    | with_reducible apply Keeps.when
    | with_reducible apply Keeps.foldl
    | split
    | intro _ _ _
    | intro _ _
    | intro _
    | with_reducible refine Keeps.of_pair (by with_reducible assumption) ?_
    | with_reducible refine Keeps.of_triple (by with_reducible assumption) ?_
    | dsimp only)

theorem State.epochAdd_keeps {w₀ : Nat} {s₀ s : State} (hw : Sub 0x2000000000000000000000 w₀) (e : Nat) (up : Bool) (h₀ : Keeps w₀ s₀ s) :
    Keeps w₀ s₀ (State.epochAdd s e up) := by
  unfold State.epochAdd
  repeat' (first
    | with_reducible assumption
    | (simp only [Keeps.mk_eq]; with_reducible apply KeepsMk.upd)
    | exact hw.le rfl
    | exact Or.inl (hw.bit rfl)
    | with_reducible exact Or.inr rfl
    | with_reducible apply ResKeeps.next
    | with_reducible apply Keeps.each
    | with_reducible apply Keeps.when
    | with_reducible apply Keeps.foldl
    | split
    | intro _ _ _
    | intro _ _
    | intro _
    | with_reducible refine Keeps.of_pair (by with_reducible assumption) ?_
    | with_reducible refine Keeps.of_triple (by with_reducible assumption) ?_
    | dsimp only)

theorem execFenceComplete_keeps {w₀ : Nat} {s₀ s : State} (hw : Sub 0x2080028000040001000000 w₀) (h₀ : Keeps w₀ s₀ s) :
    ResKeeps w₀ s₀ (execFenceComplete s) := by
  unfold execFenceComplete
  repeat' (first
    | with_reducible assumption
    | with_reducible apply State.wrs_keeps
    | with_reducible apply State.intr_keeps
    | with_reducible apply State.ev_keeps
    | with_reducible exact Reg.tblEpochCompleted_may hw rfl
    | with_reducible exact Reg.tblEpochOutstanding_may hw rfl
    | with_reducible exact Reg.tblFenceStatusDone_may hw rfl
    | with_reducible exact AllMay.nil _
    | with_reducible apply AllMay.cons
    | with_reducible apply AllMay.append
    | with_reducible apply AllMay.map
    | (simp only [Keeps.mk_eq]; with_reducible apply KeepsMk.upd)
    | exact hw.le rfl
    | exact Or.inl (hw.bit rfl)
    | with_reducible exact Or.inr rfl
    | with_reducible apply ResKeeps.next
    | with_reducible apply Keeps.each
    | with_reducible apply Keeps.when
    | with_reducible apply Keeps.foldl
    | split
    | intro _ _ _
    | intro _ _
    | intro _
    | with_reducible refine Keeps.of_pair (by with_reducible assumption) ?_
    | with_reducible refine Keeps.of_triple (by with_reducible assumption) ?_
    | dsimp only)

theorem execLnqCtlWrite_keeps {w₀ : Nat} {s₀ s : State} (hw : Sub 0x1000000 w₀) (run : Bool) (h₀ : Keeps w₀ s₀ s) :
    ResKeeps w₀ s₀ (execLnqCtlWrite run s) := by
  unfold execLnqCtlWrite
  repeat' (first
    | with_reducible assumption
    | with_reducible apply Keeps.wr
    | with_reducible apply State.bumpWrap_keeps
    | with_reducible exact Reg.tblLnqCtlRun_may hw rfl
    | with_reducible exact Reg.tblStatusGen_may hw rfl
    | exact hw.le rfl
    | with_reducible apply ResKeeps.next
    | with_reducible apply Keeps.each
    | with_reducible apply Keeps.when
    | with_reducible apply Keeps.foldl
    | split
    | intro _ _ _
    | intro _ _
    | intro _
    | with_reducible refine Keeps.of_pair (by with_reducible assumption) ?_
    | with_reducible refine Keeps.of_triple (by with_reducible assumption) ?_
    | dsimp only)

theorem State.sweep_keeps {w₀ : Nat} {s₀ s : State} (hw : Sub 0x2000000000000000000000 w₀) (h₀ : Keeps w₀ s₀ s) :
    Keeps w₀ s₀ (State.sweep s) := by
  unfold State.sweep
  repeat' (first
    | with_reducible assumption
    | (simp only [Keeps.mk_eq]; with_reducible apply KeepsMk.upd)
    | exact hw.le rfl
    | exact Or.inl (hw.bit rfl)
    | with_reducible exact Or.inr rfl
    | with_reducible apply ResKeeps.next
    | with_reducible apply Keeps.each
    | with_reducible apply Keeps.when
    | with_reducible apply Keeps.foldl
    | split
    | intro _ _ _
    | intro _ _
    | intro _
    | with_reducible refine Keeps.of_pair (by with_reducible assumption) ?_
    | with_reducible refine Keeps.of_triple (by with_reducible assumption) ?_
    | dsimp only)

theorem State.tblReset_keeps {w₀ : Nat} {s₀ s : State} (hw : Sub 0x2000000000000001000000 w₀) (h₀ : Keeps w₀ s₀ s) :
    Keeps w₀ s₀ (State.tblReset s) := by
  unfold State.tblReset
  repeat' (first
    | with_reducible assumption
    | with_reducible apply State.wrs_keeps
    | with_reducible apply State.bumpWrap_keeps
    | with_reducible apply State.tblUse_keeps
    | with_reducible apply State.setLnq_keeps
    | with_reducible apply State.setCam_keeps
    | with_reducible apply State.sweep_keeps
    | with_reducible exact Reg.tblFenceStatusIe_may hw rfl
    | with_reducible exact Reg.tblLnqCtlRun_may hw rfl
    | with_reducible exact Reg.tblStatusGen_may hw rfl
    | with_reducible exact AllMay.nil _
    | with_reducible apply AllMay.cons
    | with_reducible apply AllMay.append
    | with_reducible apply AllMay.map
    | (simp only [Keeps.mk_eq]; with_reducible apply KeepsMk.upd)
    | exact hw.le rfl
    | exact Or.inl (hw.bit rfl)
    | with_reducible exact Or.inr rfl
    | with_reducible apply ResKeeps.next
    | with_reducible apply Keeps.each
    | with_reducible apply Keeps.when
    | with_reducible apply Keeps.foldl
    | split
    | intro _ _ _
    | intro _ _
    | intro _
    | with_reducible refine Keeps.of_pair (by with_reducible assumption) ?_
    | with_reducible refine Keeps.of_triple (by with_reducible assumption) ?_
    | dsimp only)

theorem State.tblHeader_keeps {w₀ : Nat} {s₀ s : State} (hw : Sub 0x1000000 w₀) (v : List Byte) (h₀ : Keeps w₀ s₀ s) :
    Keeps w₀ s₀ (State.tblHeader s v) := by
  unfold State.tblHeader
  repeat' (first
    | with_reducible assumption
    | with_reducible apply Keeps.wr
    | with_reducible apply State.wrs_keeps
    | with_reducible exact Reg.tblAgeLimitFdbLimit_may hw rfl
    | with_reducible exact Reg.tblAgeLimitFlowLimit_may hw rfl
    | with_reducible exact Reg.tblCfgAgeNotify_may hw rfl
    | with_reducible exact Reg.tblCfgAgeUnit_may hw rfl
    | with_reducible exact Reg.tblCfgFlowTc_may hw rfl
    | with_reducible exact Reg.tblCfgLearnEn_may hw rfl
    | with_reducible exact Reg.tblCfgRefreshDa_may hw rfl
    | with_reducible exact Reg.tblFseed0Seed_may hw rfl
    | with_reducible exact Reg.tblFseed1Seed_may hw rfl
    | with_reducible exact Reg.tblLearnPortMask_may hw rfl
    | with_reducible exact Reg.tblSeed0Seed_may hw rfl
    | with_reducible exact Reg.tblSeed1Seed_may hw rfl
    | with_reducible exact AllMay.nil _
    | with_reducible apply AllMay.cons
    | with_reducible apply AllMay.append
    | with_reducible apply AllMay.map
    | exact hw.le rfl
    | with_reducible apply ResKeeps.next
    | with_reducible apply Keeps.each
    | with_reducible apply Keeps.when
    | with_reducible apply Keeps.foldl
    | split
    | intro _ _ _
    | intro _ _
    | intro _
    | with_reducible refine Keeps.of_pair (by with_reducible assumption) ?_
    | with_reducible refine Keeps.of_triple (by with_reducible assumption) ?_
    | dsimp only)

theorem State.placeAll_keeps {w₀ : Nat} {s₀ s : State} (hw : Sub 0x2000000000040001000000 w₀) (t : Nat) (l : List Nat) (h₀ : Keeps w₀ s₀ s) :
    Keeps w₀ s₀ (State.placeAll s t l).2 := by
  induction l generalizing s with
  | nil => exact h₀
  | cons e l ih =>
    unfold State.placeAll
    split
    next ok s' hp =>
      have hk : Keeps w₀ s₀ s' := Keeps.of_pair hp (State.place_keeps (hw.le rfl) _ _ h₀)
      cases ok
      · exact hk
      · exact ih hk

theorem State.shadowAdd_keeps {w₀ : Nat} {s₀ s : State} (hw : Sub 0x2000000000000000000000 w₀) (kind : Nat) (vid : Nat) (e : Nat) (h₀ : Keeps w₀ s₀ s) :
    Keeps w₀ s₀ (State.shadowAdd s kind vid e) := by
  unfold State.shadowAdd
  repeat' (first
    | with_reducible assumption
    | (simp only [Keeps.mk_eq]; with_reducible apply KeepsMk.upd)
    | exact hw.le rfl
    | exact Or.inl (hw.bit rfl)
    | with_reducible exact Or.inr rfl
    | with_reducible apply ResKeeps.next
    | with_reducible apply Keeps.each
    | with_reducible apply Keeps.when
    | with_reducible apply Keeps.foldl
    | split
    | intro _ _ _
    | intro _ _
    | intro _
    | with_reducible refine Keeps.of_pair (by with_reducible assumption) ?_
    | with_reducible refine Keeps.of_triple (by with_reducible assumption) ?_
    | dsimp only)

theorem State.loadItem_keeps {w₀ : Nat} {s₀ s : State} (hw : Sub 0x2000000000040001000000 w₀) (x : Nat × Nat × Nat) (h₀ : Keeps w₀ s₀ s) :
    Keeps w₀ s₀ (State.loadItem s x) := by
  unfold State.loadItem
  repeat' (first
    | with_reducible assumption
    | with_reducible apply State.setEnt_keeps
    | with_reducible apply State.place_keeps
    | exact hw.le rfl
    | with_reducible apply ResKeeps.next
    | with_reducible apply Keeps.each
    | with_reducible apply Keeps.when
    | with_reducible apply Keeps.foldl
    | split
    | intro _ _ _
    | intro _ _
    | intro _
    | with_reducible refine Keeps.of_pair (by with_reducible assumption) ?_
    | with_reducible refine Keeps.of_triple (by with_reducible assumption) ?_
    | dsimp only)

theorem State.tablesWipe_keeps {w₀ : Nat} {s₀ s : State} (hw : Sub 0x2080000000200001000000 w₀) (h₀ : Keeps w₀ s₀ s) :
    Keeps w₀ s₀ (State.tablesWipe s) := by
  unfold State.tablesWipe
  repeat' (first
    | with_reducible assumption
    | with_reducible apply State.setLnq_keeps
    | with_reducible apply State.setCam_keeps
    | with_reducible apply State.fifoStatus_keeps
    | (simp only [Keeps.mk_eq]; with_reducible apply KeepsMk.upd)
    | exact hw.le rfl
    | exact Or.inl (hw.bit rfl)
    | with_reducible exact Or.inr rfl
    | with_reducible apply ResKeeps.next
    | with_reducible apply Keeps.each
    | with_reducible apply Keeps.when
    | with_reducible apply Keeps.foldl
    | split
    | intro _ _ _
    | intro _ _
    | intro _
    | with_reducible refine Keeps.of_pair (by with_reducible assumption) ?_
    | with_reducible refine Keeps.of_triple (by with_reducible assumption) ?_
    | dsimp only)

theorem State.tablesLoad_keeps {w₀ : Nat} {s₀ s : State} (hw : Sub 0x2080000000240001000000 w₀) (h₀ : Keeps w₀ s₀ s) :
    Keeps w₀ s₀ (State.tablesLoad s) := by
  unfold State.tablesLoad
  repeat' (first
    | with_reducible assumption
    | with_reducible apply State.tblUse_keeps
    | with_reducible apply State.loadItem_keeps
    | with_reducible apply State.tablesWipe_keeps
    | exact hw.le rfl
    | with_reducible apply ResKeeps.next
    | with_reducible apply Keeps.each
    | with_reducible apply Keeps.when
    | with_reducible apply Keeps.foldl
    | split
    | intro _ _ _
    | intro _ _
    | intro _
    | with_reducible refine Keeps.of_pair (by with_reducible assumption) ?_
    | with_reducible refine Keeps.of_triple (by with_reducible assumption) ?_
    | dsimp only)

theorem applyTables_keeps {w₀ : Nat} {s₀ s : State} (hw : Sub 0x2000000000040001000000 w₀) (v : List Byte) (h₀ : Keeps w₀ s₀ s) :
    Keeps w₀ s₀ (applyTables v s) := by
  unfold applyTables
  repeat' (first
    | with_reducible assumption
    | with_reducible apply State.setEnt_keeps
    | with_reducible apply State.place_keeps
    | with_reducible apply State.tblHeader_keeps
    | with_reducible apply State.shadowAdd_keeps
    | exact hw.le rfl
    | with_reducible apply ResKeeps.next
    | with_reducible apply Keeps.each
    | with_reducible apply Keeps.when
    | with_reducible apply Keeps.foldl
    | split
    | intro _ _ _
    | intro _ _
    | intro _
    | with_reducible refine Keeps.of_pair (by with_reducible assumption) ?_
    | with_reducible refine Keeps.of_triple (by with_reducible assumption) ?_
    | dsimp only)

theorem applyTablesDefault_keeps {w₀ : Nat} {s₀ s : State} (hw : Sub 0x2000000000000001000000 w₀) (h₀ : Keeps w₀ s₀ s) :
    Keeps w₀ s₀ (applyTablesDefault s) := by
  unfold applyTablesDefault
  repeat' (first
    | with_reducible assumption
    | with_reducible apply State.setEnt_keeps
    | with_reducible apply State.shadowAdd_keeps
    | exact hw.le rfl
    | with_reducible apply ResKeeps.next
    | with_reducible apply Keeps.each
    | with_reducible apply Keeps.when
    | with_reducible apply Keeps.foldl
    | split
    | intro _ _ _
    | intro _ _
    | intro _
    | with_reducible refine Keeps.of_pair (by with_reducible assumption) ?_
    | with_reducible refine Keeps.of_triple (by with_reducible assumption) ?_
    | dsimp only)

end Sys2Proof.Machine
end

