-- ==== Sys2Proof/Laws/KeepFabric.lean ====
section
/-! SUPPORT. What the operations of Machine/Fabric.lean keep. -/

set_option linter.all false
set_option Elab.async false

namespace Sys2Proof.Machine

theorem State.setFrame_keeps {w₀ : Nat} {s₀ s : State} (hw : Sub 0x4000000000000000000000 w₀) (id : Nat) (f : Frame) (h₀ : Keeps w₀ s₀ s) :
    Keeps w₀ s₀ (State.setFrame s id f) := by
  unfold State.setFrame
  repeat' (first
    | with_reducible assumption
    | (simp only [Keeps.mk_eq]; with_reducible apply KeepsMk.upd)
    | exact hw.le rfl
    | exact Or.inl (hw.bit rfl)
    | with_reducible exact Or.inr rfl
    | with_reducible apply ResKeeps.next
    | with_reducible apply Keeps.each
    | with_reducible apply Keeps.when
    | with_reducible apply Keeps.foldl
    | split
    | intro _ _ _
    | intro _ _
    | intro _
    | with_reducible refine Keeps.of_pair (by with_reducible assumption) ?_
    | with_reducible refine Keeps.of_triple (by with_reducible assumption) ?_
    | dsimp only)

theorem State.setHeld_keeps {w₀ : Nat} {s₀ s : State} (hw : Sub 0x4000000000040100010000 w₀) (k : Nat) (b : Bool) (h₀ : Keeps w₀ s₀ s) :
    Keeps w₀ s₀ (State.setHeld s k b) := by
  unfold State.setHeld
  repeat' (first
    | with_reducible assumption
    | with_reducible apply State.wrBit_keeps
    | with_reducible apply State.ev_keeps
    | with_reducible exact Reg.fabDestStatusXoff_may hw rfl
    | with_reducible exact Reg.portLinkTxXoff_may hw rfl
    | (simp only [Keeps.mk_eq]; with_reducible apply KeepsMk.upd)
    | exact hw.le rfl
    | exact Or.inl (hw.bit rfl)
    | with_reducible exact Or.inr rfl
    | with_reducible apply ResKeeps.next
    | with_reducible apply Keeps.each
    | with_reducible apply Keeps.when
    | with_reducible apply Keeps.foldl
    | split
    | intro _ _ _
    | intro _ _
    | intro _
    | with_reducible refine Keeps.of_pair (by with_reducible assumption) ?_
    | with_reducible refine Keeps.of_triple (by with_reducible assumption) ?_
    | dsimp only)

theorem State.bpStep_keeps {w₀ : Nat} {s₀ s : State} (hw : Sub 0x4000000000040100010000 w₀) (k : Nat) (h₀ : Keeps w₀ s₀ s) :
    Keeps w₀ s₀ (State.bpStep s k) := by
  unfold State.bpStep
  repeat' (first
    | with_reducible assumption
    | with_reducible apply State.setHeld_keeps
    | exact hw.le rfl
    | with_reducible apply ResKeeps.next
    | with_reducible apply Keeps.each
    | with_reducible apply Keeps.when
    | with_reducible apply Keeps.foldl
    | split
    | intro _ _ _
    | intro _ _
    | intro _
    | with_reducible refine Keeps.of_pair (by with_reducible assumption) ?_
    | with_reducible refine Keeps.of_triple (by with_reducible assumption) ?_
    | dsimp only)

theorem State.bpUpdate_keeps {w₀ : Nat} {s₀ s : State} (hw : Sub 0x4000000000040100010000 w₀) (h₀ : Keeps w₀ s₀ s) :
    Keeps w₀ s₀ (State.bpUpdate s) := by
  unfold State.bpUpdate
  repeat' (first
    | with_reducible assumption
    | with_reducible apply State.bpStep_keeps
    | exact hw.le rfl
    | with_reducible apply ResKeeps.next
    | with_reducible apply Keeps.each
    | with_reducible apply Keeps.when
    | with_reducible apply Keeps.foldl
    | split
    | intro _ _ _
    | intro _ _
    | intro _
    | with_reducible refine Keeps.of_pair (by with_reducible assumption) ?_
    | with_reducible refine Keeps.of_triple (by with_reducible assumption) ?_
    | dsimp only)

theorem State.bpOpen_keeps {w₀ : Nat} {s₀ s : State} (hw : Sub 0x4000000000000100010000 w₀) (i : Nat) (h₀ : Keeps w₀ s₀ s) :
    Keeps w₀ s₀ (State.bpOpen s i) := by
  unfold State.bpOpen
  repeat' (first
    | with_reducible assumption
    | with_reducible apply Keeps.wr
    | with_reducible exact Reg.fabDestStatusXoff_may hw rfl
    | with_reducible exact Reg.portLinkTxXoff_may hw rfl
    | (simp only [Keeps.mk_eq]; with_reducible apply KeepsMk.upd)
    | exact hw.le rfl
    | exact Or.inl (hw.bit rfl)
    | with_reducible exact Or.inr rfl
    | with_reducible apply ResKeeps.next
    | with_reducible apply Keeps.each
    | with_reducible apply Keeps.when
    | with_reducible apply Keeps.foldl
    | split
    | intro _ _ _
    | intro _ _
    | intro _
    | with_reducible refine Keeps.of_pair (by with_reducible assumption) ?_
    | with_reducible refine Keeps.of_triple (by with_reducible assumption) ?_
    | dsimp only)

theorem State.setCells_keeps {w₀ : Nat} {s₀ s : State} (hw : Sub 0x4000000000000100000000 w₀) (k : Nat) (sh : Nat) (hd : Nat) (free : Nat) (used : Nat) (h₀ : Keeps w₀ s₀ s) :
    Keeps w₀ s₀ (State.setCells s k sh hd free used) := by
  unfold State.setCells
  repeat' (first
    | with_reducible assumption
    | with_reducible apply State.wrs_keeps
    | with_reducible exact Reg.fabPoolSharedFree_may hw rfl
    | with_reducible exact Reg.fabUsedCells_may hw rfl
    | with_reducible exact AllMay.nil _
    | with_reducible apply AllMay.cons
    | with_reducible apply AllMay.append
    | with_reducible apply AllMay.map
    | (simp only [Keeps.mk_eq]; with_reducible apply KeepsMk.upd)
    | exact hw.le rfl
    | exact Or.inl (hw.bit rfl)
    | with_reducible exact Or.inr rfl
    | with_reducible apply ResKeeps.next
    | with_reducible apply Keeps.each
    | with_reducible apply Keeps.when
    | with_reducible apply Keeps.foldl
    | split
    | intro _ _ _
    | intro _ _
    | intro _
    | with_reducible refine Keeps.of_pair (by with_reducible assumption) ?_
    | with_reducible refine Keeps.of_triple (by with_reducible assumption) ?_
    | dsimp only)

theorem State.allocCell_keeps {w₀ : Nat} {s₀ s : State} (hw : Sub 0x4000000000040100000000 w₀) (id : Nat) (h₀ : Keeps w₀ s₀ s) :
    Keeps w₀ s₀ (State.allocCell s id).2 := by
  unfold State.allocCell
  repeat' (first
    | with_reducible assumption
    | with_reducible apply State.wrs_keeps
    | with_reducible apply State.ev_keeps
    | with_reducible apply State.setFrame_keeps
    | with_reducible apply State.setCells_keeps
    | with_reducible exact Reg.fabPoolSharedFree_may hw rfl
    | with_reducible exact Reg.fabUsedCells_may hw rfl
    | with_reducible exact AllMay.nil _
    | with_reducible apply AllMay.cons
    | with_reducible apply AllMay.append
    | with_reducible apply AllMay.map
    | (simp only [Keeps.mk_eq]; with_reducible apply KeepsMk.upd)
    | exact hw.le rfl
    | exact Or.inl (hw.bit rfl)
    | with_reducible exact Or.inr rfl
    | with_reducible apply ResKeeps.next
    | with_reducible apply Keeps.each
    | with_reducible apply Keeps.when
    | with_reducible apply Keeps.foldl
    | split
    | intro _ _ _
    | intro _ _
    | intro _
    | with_reducible refine Keeps.of_pair (by with_reducible assumption) ?_
    | with_reducible refine Keeps.of_triple (by with_reducible assumption) ?_
    | dsimp only)

theorem State.allocCells_keeps {w₀ : Nat} {s₀ s : State} (hw : Sub 0x4000000000040100010000 w₀) (id n : Nat) (h₀ : Keeps w₀ s₀ s) :
    Keeps w₀ s₀ (State.allocCells s id n).2 := by
  induction n generalizing s with
  | zero => exact h₀
  | succ n ih =>
    unfold State.allocCells
    split
    next s' hp => exact ih (State.bpUpdate_keeps (hw.le rfl) (Keeps.of_pair hp (State.allocCell_keeps (hw.le rfl) _ h₀)))
    next s' hp => exact Keeps.of_pair hp (State.allocCell_keeps (hw.le rfl) _ h₀)

theorem State.cellPut_keeps {w₀ : Nat} {s₀ s : State} (hw : Sub 0x4000000000000000000000 w₀) (c : Nat) (b : List Byte) (h₀ : Keeps w₀ s₀ s) :
    Keeps w₀ s₀ (State.cellPut s c b) := by
  unfold State.cellPut
  repeat' (first
    | with_reducible assumption
    | (simp only [Keeps.mk_eq]; with_reducible apply KeepsMk.upd)
    | exact hw.le rfl
    | exact Or.inl (hw.bit rfl)
    | with_reducible exact Or.inr rfl
    | with_reducible apply ResKeeps.next
    | with_reducible apply Keeps.each
    | with_reducible apply Keeps.when
    | with_reducible apply Keeps.foldl
    | split
    | intro _ _ _
    | intro _ _
    | intro _
    | with_reducible refine Keeps.of_pair (by with_reducible assumption) ?_
    | with_reducible refine Keeps.of_triple (by with_reducible assumption) ?_
    | dsimp only)

theorem State.cellsLeft_keeps {w₀ : Nat} {s₀ s : State} (hw : Sub 0x4000000000000000000000 w₀) (f : Frame) (h₀ : Keeps w₀ s₀ s) :
    Keeps w₀ s₀ (State.cellsLeft s f) := by
  unfold State.cellsLeft
  repeat' (first
    | with_reducible assumption
    | with_reducible apply State.cellPut_keeps
    | exact hw.le rfl
    | with_reducible apply ResKeeps.next
    | with_reducible apply Keeps.each
    | with_reducible apply Keeps.when
    | with_reducible apply Keeps.foldl
    | split
    | intro _ _ _
    | intro _ _
    | intro _
    | with_reducible refine Keeps.of_pair (by with_reducible assumption) ?_
    | with_reducible refine Keeps.of_triple (by with_reducible assumption) ?_
    | dsimp only)

theorem State.freeCells_keeps {w₀ : Nat} {s₀ s : State} (hw : Sub 0x4020000000040100010000 w₀) (id : Nat) (h₀ : Keeps w₀ s₀ s) :
    Keeps w₀ s₀ (State.freeCells s id) := by
  unfold State.freeCells
  repeat' (first
    | with_reducible assumption
    | with_reducible apply State.wrs_keeps
    | with_reducible apply State.evN_keeps
    | with_reducible apply State.setFrame_keeps
    | with_reducible apply State.bpUpdate_keeps
    | with_reducible apply State.setCells_keeps
    | with_reducible apply State.cellsLeft_keeps
    | with_reducible exact Reg.fabPoolSharedFree_may hw rfl
    | with_reducible exact Reg.fabUsedCells_may hw rfl
    | with_reducible exact AllMay.nil _
    | with_reducible apply AllMay.cons
    | with_reducible apply AllMay.append
    | with_reducible apply AllMay.map
    | (simp only [Keeps.mk_eq]; with_reducible apply KeepsMk.upd)
    | exact hw.le rfl
    | exact Or.inl (hw.bit rfl)
    | with_reducible exact Or.inr rfl
    | with_reducible apply ResKeeps.next
    | with_reducible apply Keeps.each
    | with_reducible apply Keeps.when
    | with_reducible apply Keeps.foldl
    | split
    | intro _ _ _
    | intro _ _
    | intro _
    | with_reducible refine Keeps.of_pair (by with_reducible assumption) ?_
    | with_reducible refine Keeps.of_triple (by with_reducible assumption) ?_
    | dsimp only)

theorem State.gleanEnd_keeps {w₀ : Nat} {s₀ s : State} (hw : Sub 0x1000000000040000000000 w₀) (id : Nat) (h₀ : Keeps w₀ s₀ s) :
    Keeps w₀ s₀ (State.gleanEnd s id) := by
  unfold State.gleanEnd
  repeat' (first
    | with_reducible assumption
    | with_reducible apply State.gleanOut_keeps
    | with_reducible apply State.tagDue_keeps
    | (simp only [Keeps.mk_eq]; with_reducible apply KeepsMk.upd)
    | exact hw.le rfl
    | exact Or.inl (hw.bit rfl)
    | with_reducible exact Or.inr rfl
    | with_reducible apply ResKeeps.next
    | with_reducible apply Keeps.each
    | with_reducible apply Keeps.when
    | with_reducible apply Keeps.foldl
    | split
    | intro _ _ _
    | intro _ _
    | intro _
    | with_reducible refine Keeps.of_pair (by with_reducible assumption) ?_
    | with_reducible refine Keeps.of_triple (by with_reducible assumption) ?_
    | dsimp only)

theorem execGleanRecordWrite_keeps {w₀ : Nat} {s₀ s : State} (hw : Sub 0x1080028000040000000000 w₀) (h₀ : Keeps w₀ s₀ s) :
    ResKeeps w₀ s₀ (execGleanRecordWrite s) := by
  unfold execGleanRecordWrite
  repeat' (first
    | with_reducible assumption
    | with_reducible apply State.bump_keeps
    | with_reducible apply State.tagStore_keeps
    | with_reducible exact Reg.pmonGleanLossLost_may hw rfl
    | (simp only [Keeps.mk_eq]; with_reducible apply KeepsMk.upd)
    | exact hw.le rfl
    | exact Or.inl (hw.bit rfl)
    | with_reducible exact Or.inr rfl
    | with_reducible apply ResKeeps.next
    | with_reducible apply Keeps.each
    | with_reducible apply Keeps.when
    | with_reducible apply Keeps.foldl
    | split
    | intro _ _ _
    | intro _ _
    | intro _
    | with_reducible refine Keeps.of_pair (by with_reducible assumption) ?_
    | with_reducible refine Keeps.of_triple (by with_reducible assumption) ?_
    | dsimp only)

theorem State.epochOut_keeps {w₀ : Nat} {s₀ s : State} (hw : Sub 0x6000000000000000000000 w₀) (id : Nat) (h₀ : Keeps w₀ s₀ s) :
    Keeps w₀ s₀ (State.epochOut s id) := by
  unfold State.epochOut
  repeat' (first
    | with_reducible assumption
    | with_reducible apply State.epochAdd_keeps
    | with_reducible apply State.setFrame_keeps
    | (simp only [Keeps.mk_eq]; with_reducible apply KeepsMk.upd)
    | exact hw.le rfl
    | exact Or.inl (hw.bit rfl)
    | with_reducible exact Or.inr rfl
    | with_reducible apply ResKeeps.next
    | with_reducible apply Keeps.each
    | with_reducible apply Keeps.when
    | with_reducible apply Keeps.foldl
    | split
    | intro _ _ _
    | intro _ _
    | intro _
    | with_reducible refine Keeps.of_pair (by with_reducible assumption) ?_
    | with_reducible refine Keeps.of_triple (by with_reducible assumption) ?_
    | dsimp only)

theorem State.cutOff_keeps {w₀ : Nat} {s₀ s : State} (hw : Sub 0x7020000000040100010000 w₀) (n : Nat) (note : List Byte) (h₀ : Keeps w₀ s₀ s) :
    Keeps w₀ s₀ (State.cutOff s n note) := by
  unfold State.cutOff
  repeat' (first
    | with_reducible assumption
    | with_reducible apply State.arrive_keeps
    | (simp only [Keeps.mk_eq]; with_reducible apply KeepsMk.upd)
    | exact hw.le rfl
    | exact Or.inl (hw.bit rfl)
    | with_reducible exact Or.inr rfl
    | with_reducible apply ResKeeps.next
    | with_reducible apply Keeps.each
    | with_reducible apply Keeps.when
    | with_reducible apply Keeps.foldl
    | split
    | intro _ _ _
    | intro _ _
    | intro _
    | with_reducible refine Keeps.of_pair (by with_reducible assumption) ?_
    | with_reducible refine Keeps.of_triple (by with_reducible assumption) ?_
    | dsimp only)

theorem State.reap_keeps {w₀ : Nat} {s₀ s : State} (hw : Sub 0x7020000000040100010000 w₀) (id : Nat) (h₀ : Keeps w₀ s₀ s) :
    Keeps w₀ s₀ (State.reap s id) := by
  unfold State.reap
  repeat' (first
    | with_reducible assumption
    | with_reducible apply State.setFrame_keeps
    | with_reducible apply State.freeCells_keeps
    | with_reducible apply State.gleanEnd_keeps
    | with_reducible apply State.epochOut_keeps
    | with_reducible apply State.cutOff_keeps
    | exact hw.le rfl
    | with_reducible apply ResKeeps.next
    | with_reducible apply Keeps.each
    | with_reducible apply Keeps.when
    | with_reducible apply Keeps.foldl
    | split
    | intro _ _ _
    | intro _ _
    | intro _
    | with_reducible refine Keeps.of_pair (by with_reducible assumption) ?_
    | with_reducible refine Keeps.of_triple (by with_reducible assumption) ?_
    | dsimp only)

theorem State.dropCopy_keeps {w₀ : Nat} {s₀ s : State} (hw : Sub 0x7020000000040100010000 w₀) (id : Nat) (e : Nat) (h₀ : Keeps w₀ s₀ s) :
    Keeps w₀ s₀ (State.dropCopy s id e) := by
  unfold State.dropCopy
  repeat' (first
    | with_reducible assumption
    | with_reducible apply State.setFrame_keeps
    | with_reducible apply State.reap_keeps
    | (simp only [Keeps.mk_eq]; with_reducible apply KeepsMk.upd)
    | exact hw.le rfl
    | exact Or.inl (hw.bit rfl)
    | with_reducible exact Or.inr rfl
    | with_reducible apply ResKeeps.next
    | with_reducible apply Keeps.each
    | with_reducible apply Keeps.when
    | with_reducible apply Keeps.foldl
    | split
    | intro _ _ _
    | intro _ _
    | intro _
    | with_reducible refine Keeps.of_pair (by with_reducible assumption) ?_
    | with_reducible refine Keeps.of_triple (by with_reducible assumption) ?_
    | dsimp only)

theorem State.linkDrop_keeps {w₀ : Nat} {s₀ s : State} (hw : Sub 0x7020000000040100010000 w₀) (id : Nat) (e : Nat) (h₀ : Keeps w₀ s₀ s) :
    Keeps w₀ s₀ (State.linkDrop s id e) := by
  unfold State.linkDrop
  repeat' (first
    | with_reducible assumption
    | with_reducible apply State.bump_keeps
    | with_reducible apply State.dropCopy_keeps
    | with_reducible exact Reg.fabCntLinkDrop_may hw rfl
    | with_reducible exact Reg.fabDestLdropLinkDrop_may hw rfl
    | exact hw.le rfl
    | with_reducible apply ResKeeps.next
    | with_reducible apply Keeps.each
    | with_reducible apply Keeps.when
    | with_reducible apply Keeps.foldl
    | split
    | intro _ _ _
    | intro _ _
    | intro _
    | with_reducible refine Keeps.of_pair (by with_reducible assumption) ?_
    | with_reducible refine Keeps.of_triple (by with_reducible assumption) ?_
    | dsimp only)

theorem State.setHeldAt_keeps {w₀ : Nat} {s₀ s : State} (hw : Sub 0x4000000000000100000000 w₀) (e : Nat) (l : List Nat) (h₀ : Keeps w₀ s₀ s) :
    Keeps w₀ s₀ (State.setHeldAt s e l) := by
  unfold State.setHeldAt
  repeat' (first
    | with_reducible assumption
    | with_reducible apply Keeps.wr
    | with_reducible exact Reg.fabDestStatusHeld_may hw rfl
    | (simp only [Keeps.mk_eq]; with_reducible apply KeepsMk.upd)
    | exact hw.le rfl
    | exact Or.inl (hw.bit rfl)
    | with_reducible exact Or.inr rfl
    | with_reducible apply ResKeeps.next
    | with_reducible apply Keeps.each
    | with_reducible apply Keeps.when
    | with_reducible apply Keeps.foldl
    | split
    | intro _ _ _
    | intro _ _
    | intro _
    | with_reducible refine Keeps.of_pair (by with_reducible assumption) ?_
    | with_reducible refine Keeps.of_triple (by with_reducible assumption) ?_
    | dsimp only)

theorem State.setQueue_keeps {w₀ : Nat} {s₀ s : State} (hw : Sub 0x4000000000000000000000 w₀) (e : Nat) (c : Nat) (l : List Nat) (h₀ : Keeps w₀ s₀ s) :
    Keeps w₀ s₀ (State.setQueue s e c l) := by
  unfold State.setQueue
  repeat' (first
    | with_reducible assumption
    | (simp only [Keeps.mk_eq]; with_reducible apply KeepsMk.upd)
    | exact hw.le rfl
    | exact Or.inl (hw.bit rfl)
    | with_reducible exact Or.inr rfl
    | with_reducible apply ResKeeps.next
    | with_reducible apply Keeps.each
    | with_reducible apply Keeps.when
    | with_reducible apply Keeps.foldl
    | split
    | intro _ _ _
    | intro _ _
    | intro _
    | with_reducible refine Keeps.of_pair (by with_reducible assumption) ?_
    | with_reducible refine Keeps.of_triple (by with_reducible assumption) ?_
    | dsimp only)

theorem State.enqueue_keeps {w₀ : Nat} {s₀ s : State} (hw : Sub 0x7020000000040100010000 w₀) (e : Nat) (id : Nat) (h₀ : Keeps w₀ s₀ s) :
    Keeps w₀ s₀ (State.enqueue s e id) := by
  unfold State.enqueue
  repeat' (first
    | with_reducible assumption
    | with_reducible apply State.ev_keeps
    | with_reducible apply State.setFrame_keeps
    | with_reducible apply State.linkDrop_keeps
    | with_reducible apply State.setQueue_keeps
    | (simp only [Keeps.mk_eq]; with_reducible apply KeepsMk.upd)
    | exact hw.le rfl
    | exact Or.inl (hw.bit rfl)
    | with_reducible exact Or.inr rfl
    | with_reducible apply ResKeeps.next
    | with_reducible apply Keeps.each
    | with_reducible apply Keeps.when
    | with_reducible apply Keeps.foldl
    | split
    | intro _ _ _
    | intro _ _
    | intro _
    | with_reducible refine Keeps.of_pair (by with_reducible assumption) ?_
    | with_reducible refine Keeps.of_triple (by with_reducible assumption) ?_
    | dsimp only)

theorem State.release_keeps {w₀ : Nat} {s₀ s : State} (hw : Sub 0x7020000000040100010000 w₀) (e : Nat) (id : Nat) (gap : Bool) (h₀ : Keeps w₀ s₀ s) :
    Keeps w₀ s₀ (State.release s e id gap) := by
  unfold State.release
  repeat' (first
    | with_reducible assumption
    | with_reducible apply State.bump_keeps
    | with_reducible apply State.setFrame_keeps
    | with_reducible apply State.setHeldAt_keeps
    | with_reducible apply State.enqueue_keeps
    | with_reducible exact Reg.fabDestGapsGaps_may hw rfl
    | (simp only [Keeps.mk_eq]; with_reducible apply KeepsMk.upd)
    | exact hw.le rfl
    | exact Or.inl (hw.bit rfl)
    | with_reducible exact Or.inr rfl
    | with_reducible apply ResKeeps.next
    | with_reducible apply Keeps.each
    | with_reducible apply Keeps.when
    | with_reducible apply Keeps.foldl
    | split
    | intro _ _ _
    | intro _ _
    | intro _
    | with_reducible refine Keeps.of_pair (by with_reducible assumption) ?_
    | with_reducible refine Keeps.of_triple (by with_reducible assumption) ?_
    | dsimp only)

theorem State.reseqAt_keeps {w₀ : Nat} {s₀ s : State} (hw : Sub 0x7020000000040100010000 w₀) (e n : Nat) (h₀ : Keeps w₀ s₀ s) :
    Keeps w₀ s₀ (State.reseqAt s e n) := by
  induction n generalizing s with
  | zero => exact h₀
  | succ n ih =>
    unfold State.reseqAt
    split
    · exact ih (State.release_keeps (hw.le rfl) _ _ _ h₀)
    · exact h₀

theorem State.reseqN_keeps {w₀ : Nat} {s₀ s : State} (hw : Sub 0x7020000000040100010000 w₀) (n : Nat) (h₀ : Keeps w₀ s₀ s) :
    Keeps w₀ s₀ (State.reseqN s n) := by
  induction n generalizing s with
  | zero => exact h₀
  | succ n ih =>
    have h := Keeps.each (f := fun s e => s.reseqAt e 512) (fun t x k => State.reseqAt_keeps (hw.le rfl) _ _ k) h₀ (s.fab.held.map (·.1))
    unfold State.reseqN
    dsimp only
    split
    · exact h
    · exact ih h

theorem State.reseq_keeps {w₀ : Nat} {s₀ s : State} (hw : Sub 0x7020000000040100010000 w₀) (h₀ : Keeps w₀ s₀ s) :
    Keeps w₀ s₀ (State.reseq s) := by
  unfold State.reseq
  repeat' (first
    | with_reducible assumption
    | with_reducible apply State.reseqN_keeps
    | exact hw.le rfl
    | with_reducible apply ResKeeps.next
    | with_reducible apply Keeps.each
    | with_reducible apply Keeps.when
    | with_reducible apply Keeps.foldl
    | split
    | intro _ _ _
    | intro _ _
    | intro _
    | with_reducible refine Keeps.of_pair (by with_reducible assumption) ?_
    | with_reducible refine Keeps.of_triple (by with_reducible assumption) ?_
    | dsimp only)

theorem State.reseqArrive_keeps {w₀ : Nat} {s₀ s : State} (hw : Sub 0x7020000000040100010000 w₀) (e : Nat) (id : Nat) (h₀ : Keeps w₀ s₀ s) :
    Keeps w₀ s₀ (State.reseqArrive s e id) := by
  unfold State.reseqArrive
  repeat' (first
    | with_reducible assumption
    | with_reducible apply State.bump_keeps
    | with_reducible apply State.ev_keeps
    | with_reducible apply State.setFrame_keeps
    | with_reducible apply State.setHeldAt_keeps
    | with_reducible apply State.release_keeps
    | with_reducible exact Reg.fabCntLate_may hw rfl
    | (simp only [Keeps.mk_eq]; with_reducible apply KeepsMk.upd)
    | exact hw.le rfl
    | exact Or.inl (hw.bit rfl)
    | with_reducible exact Or.inr rfl
    | with_reducible apply ResKeeps.next
    | with_reducible apply Keeps.each
    | with_reducible apply Keeps.when
    | with_reducible apply Keeps.foldl
    | split
    | intro _ _ _
    | intro _ _
    | intro _
    | with_reducible refine Keeps.of_pair (by with_reducible assumption) ?_
    | with_reducible refine Keeps.of_triple (by with_reducible assumption) ?_
    | dsimp only)

theorem State.windowFull_keeps {w₀ : Nat} {s₀ s : State} (hw : Sub 0x7020000000040100010000 w₀) (e : Nat) (h₀ : Keeps w₀ s₀ s) :
    Keeps w₀ s₀ (State.windowFull s e) := by
  unfold State.windowFull
  repeat' (first
    | with_reducible assumption
    | with_reducible apply State.bump_keeps
    | with_reducible apply State.ev_keeps
    | with_reducible apply State.release_keeps
    | with_reducible apply State.reseq_keeps
    | with_reducible exact Reg.fabCntWindowFull_may hw rfl
    | exact hw.le rfl
    | with_reducible apply ResKeeps.next
    | with_reducible apply Keeps.each
    | with_reducible apply Keeps.when
    | with_reducible apply Keeps.foldl
    | split
    | intro _ _ _
    | intro _ _
    | intro _
    | with_reducible refine Keeps.of_pair (by with_reducible assumption) ?_
    | with_reducible refine Keeps.of_triple (by with_reducible assumption) ?_
    | dsimp only)

theorem State.gapsForget_keeps {w₀ : Nat} {s₀ s : State} (hw : Sub 0x4000000000000000000000 w₀) (id : Nat) (h₀ : Keeps w₀ s₀ s) :
    Keeps w₀ s₀ (State.gapsForget s id) := by
  unfold State.gapsForget
  repeat' (first
    | with_reducible assumption
    | (simp only [Keeps.mk_eq]; with_reducible apply KeepsMk.upd)
    | exact hw.le rfl
    | exact Or.inl (hw.bit rfl)
    | with_reducible exact Or.inr rfl
    | with_reducible apply ResKeeps.next
    | with_reducible apply Keeps.each
    | with_reducible apply Keeps.when
    | with_reducible apply Keeps.foldl
    | split
    | intro _ _ _
    | intro _ _
    | intro _
    | with_reducible refine Keeps.of_pair (by with_reducible assumption) ?_
    | with_reducible refine Keeps.of_triple (by with_reducible assumption) ?_
    | dsimp only)

theorem execReseqTimeoutRelease_keeps {w₀ : Nat} {s₀ s : State} (hw : Sub 0x7020000000040100010000 w₀) (egress : Fin 128) (h₀ : Keeps w₀ s₀ s) :
    ResKeeps w₀ s₀ (execReseqTimeoutRelease egress s) := by
  unfold execReseqTimeoutRelease
  repeat' (first
    | with_reducible assumption
    | with_reducible apply State.bump_keeps
    | with_reducible apply State.ev_keeps
    | with_reducible apply State.release_keeps
    | with_reducible apply State.reseq_keeps
    | with_reducible exact Reg.fabCntTimeouts_may hw rfl
    | exact hw.le rfl
    | with_reducible apply ResKeeps.next
    | with_reducible apply Keeps.each
    | with_reducible apply Keeps.when
    | with_reducible apply Keeps.foldl
    | split
    | intro _ _ _
    | intro _ _
    | intro _
    | with_reducible refine Keeps.of_pair (by with_reducible assumption) ?_
    | with_reducible refine Keeps.of_triple (by with_reducible assumption) ?_
    | dsimp only)

theorem State.fenceGen_keeps {w₀ : Nat} {s₀ s : State} (hw : Sub 0x4000000000040100000000 w₀) (k : Nat) (et : Nat) (h₀ : Keeps w₀ s₀ s) :
    Keeps w₀ s₀ (State.fenceGen s k et).2 := by
  unfold State.fenceGen
  repeat' (first
    | with_reducible assumption
    | with_reducible apply State.bump_keeps
    | with_reducible apply State.ev_keeps
    | with_reducible exact Reg.fabCntFenceFrames_may hw rfl
    | with_reducible exact Reg.fabCntFenceOvf_may hw rfl
    | (simp only [Keeps.mk_eq]; with_reducible apply KeepsMk.upd)
    | exact hw.le rfl
    | exact Or.inl (hw.bit rfl)
    | with_reducible exact Or.inr rfl
    | with_reducible apply ResKeeps.next
    | with_reducible apply Keeps.each
    | with_reducible apply Keeps.when
    | with_reducible apply Keeps.foldl
    | split
    | intro _ _ _
    | intro _ _
    | intro _
    | with_reducible refine Keeps.of_pair (by with_reducible assumption) ?_
    | with_reducible refine Keeps.of_triple (by with_reducible assumption) ?_
    | dsimp only)

theorem State.setWaiting_keeps {w₀ : Nat} {s₀ s : State} (hw : Sub 0x4000000000000000000000 w₀) (l : Nat) (x : List Nat) (h₀ : Keeps w₀ s₀ s) :
    Keeps w₀ s₀ (State.setWaiting s l x) := by
  unfold State.setWaiting
  repeat' (first
    | with_reducible assumption
    | (simp only [Keeps.mk_eq]; with_reducible apply KeepsMk.upd)
    | exact hw.le rfl
    | exact Or.inl (hw.bit rfl)
    | with_reducible exact Or.inr rfl
    | with_reducible apply ResKeeps.next
    | with_reducible apply Keeps.each
    | with_reducible apply Keeps.when
    | with_reducible apply Keeps.foldl
    | split
    | intro _ _ _
    | intro _ _
    | intro _
    | with_reducible refine Keeps.of_pair (by with_reducible assumption) ?_
    | with_reducible refine Keeps.of_triple (by with_reducible assumption) ?_
    | dsimp only)

theorem State.takeSeq_keeps {w₀ : Nat} {s₀ s : State} (hw : Sub 0x4000000000000000000000 w₀) (k : Nat) (h₀ : Keeps w₀ s₀ s) :
    Keeps w₀ s₀ (State.takeSeq s k).2 := by
  unfold State.takeSeq
  repeat' (first
    | with_reducible assumption
    | (simp only [Keeps.mk_eq]; with_reducible apply KeepsMk.upd)
    | exact hw.le rfl
    | exact Or.inl (hw.bit rfl)
    | with_reducible exact Or.inr rfl
    | with_reducible apply ResKeeps.next
    | with_reducible apply Keeps.each
    | with_reducible apply Keeps.when
    | with_reducible apply Keeps.foldl
    | split
    | intro _ _ _
    | intro _ _
    | intro _
    | with_reducible refine Keeps.of_pair (by with_reducible assumption) ?_
    | with_reducible refine Keeps.of_triple (by with_reducible assumption) ?_
    | dsimp only)

theorem State.seqUse_keeps {w₀ : Nat} {s₀ s : State} (hw : Sub 0x4000000000040100000000 w₀) (k : Nat) (et : Nat) (h₀ : Keeps w₀ s₀ s) :
    Keeps w₀ s₀ (State.seqUse s k et) := by
  unfold State.seqUse
  repeat' (first
    | with_reducible assumption
    | with_reducible apply State.fenceGen_keeps
    | with_reducible apply State.takeSeq_keeps
    | exact hw.le rfl
    | with_reducible apply ResKeeps.next
    | with_reducible apply Keeps.each
    | with_reducible apply Keeps.when
    | with_reducible apply Keeps.foldl
    | split
    | intro _ _ _
    | intro _ _
    | intro _
    | with_reducible refine Keeps.of_pair (by with_reducible assumption) ?_
    | with_reducible refine Keeps.of_triple (by with_reducible assumption) ?_
    | dsimp only)

theorem State.enter_keeps {w₀ : Nat} {s₀ s : State} (hw : Sub 0x4000000000040100000000 w₀) (f : Frame) (h₀ : Keeps w₀ s₀ s) :
    Keeps w₀ s₀ (State.enter s f).2 := by
  unfold State.enter
  repeat' (first
    | with_reducible assumption
    | with_reducible apply State.setFrame_keeps
    | with_reducible apply State.fenceGen_keeps
    | with_reducible apply State.setWaiting_keeps
    | with_reducible apply State.takeSeq_keeps
    | (simp only [Keeps.mk_eq]; with_reducible apply KeepsMk.upd)
    | exact hw.le rfl
    | exact Or.inl (hw.bit rfl)
    | with_reducible exact Or.inr rfl
    | with_reducible apply ResKeeps.next
    | with_reducible apply Keeps.each
    | with_reducible apply Keeps.when
    | with_reducible apply Keeps.foldl
    | split
    | intro _ _ _
    | intro _ _
    | intro _
    | with_reducible refine Keeps.of_pair (by with_reducible assumption) ?_
    | with_reducible refine Keeps.of_triple (by with_reducible assumption) ?_
    | dsimp only)

theorem State.dropUnstarted_keeps {w₀ : Nat} {s₀ s : State} (hw : Sub 0x7020000000040100010000 w₀) (id : Nat) (count : State → State) (hf_count : ∀ t , Keeps w₀ s₀ t → Keeps w₀ s₀ (count t )) (h₀ : Keeps w₀ s₀ s) :
    Keeps w₀ s₀ (State.dropUnstarted s id count) := by
  unfold State.dropUnstarted
  repeat' (first
    | with_reducible assumption
    | with_reducible apply hf_count
    | with_reducible apply State.dropCopy_keeps
    | with_reducible apply State.setHeldAt_keeps
    | with_reducible apply State.setQueue_keeps
    | (simp only [Keeps.mk_eq]; with_reducible apply KeepsMk.upd)
    | exact hw.le rfl
    | exact Or.inl (hw.bit rfl)
    | with_reducible exact Or.inr rfl
    | with_reducible apply ResKeeps.next
    | with_reducible apply Keeps.each
    | with_reducible apply Keeps.when
    | with_reducible apply Keeps.foldl
    | split
    | intro _ _ _
    | intro _ _
    | intro _
    | with_reducible refine Keeps.of_pair (by with_reducible assumption) ?_
    | with_reducible refine Keeps.of_triple (by with_reducible assumption) ?_
    | dsimp only)

theorem State.overrun_keeps {w₀ : Nat} {s₀ s : State} (hw : Sub 0x7020000000040100010000 w₀) (id : Nat) (h₀ : Keeps w₀ s₀ s) :
    Keeps w₀ s₀ (State.overrun s id) := by
  unfold State.overrun
  repeat' (first
    | with_reducible assumption
    | with_reducible apply State.bump_keeps
    | with_reducible apply State.ev_keeps
    | with_reducible apply State.setFrame_keeps
    | with_reducible apply State.freeCells_keeps
    | with_reducible apply State.gleanEnd_keeps
    | with_reducible apply State.epochOut_keeps
    | with_reducible apply State.cutOff_keeps
    | with_reducible apply State.reap_keeps
    | with_reducible apply State.reseq_keeps
    | with_reducible apply State.setWaiting_keeps
    | with_reducible apply State.dropUnstarted_keeps
    | with_reducible exact Reg.fabCntOverrun_may hw rfl
    | with_reducible exact Reg.fabDestOvrOverrun_may hw rfl
    | (simp only [Keeps.mk_eq]; with_reducible apply KeepsMk.upd)
    | exact hw.le rfl
    | exact Or.inl (hw.bit rfl)
    | with_reducible exact Or.inr rfl
    | with_reducible apply ResKeeps.next
    | with_reducible apply Keeps.each
    | with_reducible apply Keeps.when
    | with_reducible apply Keeps.foldl
    | split
    | intro _ _ _
    | intro _ _
    | intro _
    | with_reducible refine Keeps.of_pair (by with_reducible assumption) ?_
    | with_reducible refine Keeps.of_triple (by with_reducible assumption) ?_
    | dsimp only)

theorem State.grow_keeps {w₀ : Nat} {s₀ s : State} (hw : Sub 0x7020000000040100010000 w₀) (id : Nat) (bytes : List Byte) (h₀ : Keeps w₀ s₀ s) :
    Keeps w₀ s₀ (State.grow s id bytes).2 := by
  unfold State.grow
  repeat' (first
    | with_reducible assumption
    | with_reducible apply State.setFrame_keeps
    | with_reducible apply State.allocCells_keeps
    | with_reducible apply State.overrun_keeps
    | (simp only [Keeps.mk_eq]; with_reducible apply KeepsMk.upd)
    | exact hw.le rfl
    | exact Or.inl (hw.bit rfl)
    | with_reducible exact Or.inr rfl
    | with_reducible apply ResKeeps.next
    | with_reducible apply Keeps.each
    | with_reducible apply Keeps.when
    | with_reducible apply Keeps.foldl
    | split
    | intro _ _ _
    | intro _ _
    | intro _
    | with_reducible refine Keeps.of_pair (by with_reducible assumption) ?_
    | with_reducible refine Keeps.of_triple (by with_reducible assumption) ?_
    | dsimp only)

theorem State.endFrame_keeps {w₀ : Nat} {s₀ s : State} (hw : Sub 0x70a0028000040101010000 w₀) (id : Nat) (bad : Bool) (badFcs : Bool) (h₀ : Keeps w₀ s₀ s) :
    Keeps w₀ s₀ (State.endFrame s id bad badFcs) := by
  unfold State.endFrame
  repeat' (first
    | with_reducible assumption
    | with_reducible apply State.bump_keeps
    | with_reducible apply State.retract_keeps
    | with_reducible apply State.setFrame_keeps
    | with_reducible apply State.reap_keeps
    | with_reducible apply State.reseq_keeps
    | with_reducible apply State.dropUnstarted_keeps
    | with_reducible exact Reg.fabCntBadDiscard_may hw rfl
    | (simp only [Keeps.mk_eq]; with_reducible apply KeepsMk.upd)
    | exact hw.le rfl
    | exact Or.inl (hw.bit rfl)
    | with_reducible exact Or.inr rfl
    | with_reducible apply ResKeeps.next
    | with_reducible apply Keeps.each
    | with_reducible apply Keeps.when
    | with_reducible apply Keeps.foldl
    | split
    | intro _ _ _
    | intro _ _
    | intro _
    | with_reducible refine Keeps.of_pair (by with_reducible assumption) ?_
    | with_reducible refine Keeps.of_triple (by with_reducible assumption) ?_
    | dsimp only)

theorem State.cutArrival_keeps {w₀ : Nat} {s₀ s : State} (hw : Sub 0x70a0028000040101010000 w₀) (n : Nat) (h₀ : Keeps w₀ s₀ s) :
    Keeps w₀ s₀ (State.cutArrival s n) := by
  unfold State.cutArrival
  repeat' (first
    | with_reducible assumption
    | with_reducible apply State.retract_keeps
    | with_reducible apply State.endFrame_keeps
    | with_reducible apply State.arrive_keeps
    | (simp only [Keeps.mk_eq]; with_reducible apply KeepsMk.upd)
    | exact hw.le rfl
    | exact Or.inl (hw.bit rfl)
    | with_reducible exact Or.inr rfl
    | with_reducible apply ResKeeps.next
    | with_reducible apply Keeps.each
    | with_reducible apply Keeps.when
    | with_reducible apply Keeps.foldl
    | split
    | intro _ _ _
    | intro _ _
    | intro _
    | with_reducible refine Keeps.of_pair (by with_reducible assumption) ?_
    | with_reducible refine Keeps.of_triple (by with_reducible assumption) ?_
    | dsimp only)

theorem State.setHostq_keeps {w₀ : Nat} {s₀ s : State} (hw : Sub 0x4000000000200000000000 w₀) (l : List (Nat × Nat)) (h₀ : Keeps w₀ s₀ s) :
    Keeps w₀ s₀ (State.setHostq s l) := by
  unfold State.setHostq
  repeat' (first
    | with_reducible assumption
    | with_reducible apply Keeps.wr
    | with_reducible exact Reg.hifHostqUsed_may hw rfl
    | (simp only [Keeps.mk_eq]; with_reducible apply KeepsMk.upd)
    | exact hw.le rfl
    | exact Or.inl (hw.bit rfl)
    | with_reducible exact Or.inr rfl
    | with_reducible apply ResKeeps.next
    | with_reducible apply Keeps.each
    | with_reducible apply Keeps.when
    | with_reducible apply Keeps.foldl
    | split
    | intro _ _ _
    | intro _ _
    | intro _
    | with_reducible refine Keeps.of_pair (by with_reducible assumption) ?_
    | with_reducible refine Keeps.of_triple (by with_reducible assumption) ?_
    | dsimp only)

theorem State.hostTrap_keeps {w₀ : Nat} {s₀ s : State} (hw : Sub 0x4000000000240100010000 w₀) (f : Frame) (reason : Nat) (h₀ : Keeps w₀ s₀ s) :
    Keeps w₀ s₀ (State.hostTrap s f reason) := by
  unfold State.hostTrap
  repeat' (first
    | with_reducible assumption
    | with_reducible apply State.bump_keeps
    | with_reducible apply Keeps.bump48
    | with_reducible apply State.setFrame_keeps
    | with_reducible apply State.allocCells_keeps
    | with_reducible apply State.setHostq_keeps
    | with_reducible exact Reg.hifRxDropCount_may hw rfl
    | with_reducible exact Reg.portRxCtrlDropLoCount_mayc hw rfl
    | (simp only [Keeps.mk_eq]; with_reducible apply KeepsMk.upd)
    | exact hw.le rfl
    | exact Or.inl (hw.bit rfl)
    | with_reducible exact Or.inr rfl
    | with_reducible apply ResKeeps.next
    | with_reducible apply Keeps.each
    | with_reducible apply Keeps.when
    | with_reducible apply Keeps.foldl
    | split
    | intro _ _ _
    | intro _ _
    | intro _
    | with_reducible refine Keeps.of_pair (by with_reducible assumption) ?_
    | with_reducible refine Keeps.of_triple (by with_reducible assumption) ?_
    | dsimp only)

theorem State.deliver_keeps {w₀ : Nat} {s₀ s : State} (hw : Sub 0x7020000000040100010000 w₀) (id : Nat) (d : Decision) (flowHit : Bool) (h₀ : Keeps w₀ s₀ s) :
    Keeps w₀ s₀ (State.deliver s id d flowHit) := by
  unfold State.deliver
  repeat' (first
    | with_reducible assumption
    | with_reducible apply State.bumpBy_keeps
    | with_reducible apply State.bump_keeps
    | with_reducible apply State.setFrame_keeps
    | with_reducible apply State.reap_keeps
    | with_reducible apply State.reseq_keeps
    | with_reducible apply State.reseqArrive_keeps
    | with_reducible apply State.windowFull_keeps
    | with_reducible apply State.gapsForget_keeps
    | with_reducible apply State.dropUnstarted_keeps
    | with_reducible exact Reg.fabCntBadDiscard_may hw rfl
    | with_reducible exact Reg.fabCntLinkDrop_may hw rfl
    | (simp only [Keeps.mk_eq]; with_reducible apply KeepsMk.upd)
    | exact hw.le rfl
    | exact Or.inl (hw.bit rfl)
    | with_reducible exact Or.inr rfl
    | with_reducible apply ResKeeps.next
    | with_reducible apply Keeps.each
    | with_reducible apply Keeps.when
    | with_reducible apply Keeps.foldl
    | split
    | intro _ _ _
    | intro _ _
    | intro _
    | with_reducible refine Keeps.of_pair (by with_reducible assumption) ?_
    | with_reducible refine Keeps.of_triple (by with_reducible assumption) ?_
    | dsimp only)

theorem State.setLater_keeps {w₀ : Nat} {s₀ s : State} (hw : Sub 0x4000000000000000000000 w₀) (p : Nat) (l : List Nat) (h₀ : Keeps w₀ s₀ s) :
    Keeps w₀ s₀ (State.setLater s p l) := by
  unfold State.setLater
  repeat' (first
    | with_reducible assumption
    | (simp only [Keeps.mk_eq]; with_reducible apply KeepsMk.upd)
    | exact hw.le rfl
    | exact Or.inl (hw.bit rfl)
    | with_reducible exact Or.inr rfl
    | with_reducible apply ResKeeps.next
    | with_reducible apply Keeps.each
    | with_reducible apply Keeps.when
    | with_reducible apply Keeps.foldl
    | split
    | intro _ _ _
    | intro _ _
    | intro _
    | with_reducible refine Keeps.of_pair (by with_reducible assumption) ?_
    | with_reducible refine Keeps.of_triple (by with_reducible assumption) ?_
    | dsimp only)

theorem State.decided_keeps {w₀ : Nat} {s₀ s : State} (hw : Sub 0x7020000000040101010000 w₀) (p : Nat) (id : Nat) (d : Decision) (outVid : Nat) (tc : Nat) (trailer : Bool) (flow : Bool) (h₀ : Keeps w₀ s₀ s) :
    Keeps w₀ s₀ (State.decided s p id d outVid tc trailer flow) := by
  unfold State.decided
  repeat' (first
    | with_reducible assumption
    | with_reducible apply State.bump_keeps
    | with_reducible apply State.setFrame_keeps
    | with_reducible apply State.grow_keeps
    | with_reducible apply State.deliver_keeps
    | with_reducible apply State.setLater_keeps
    | with_reducible exact Reg.tblCntPass2_may hw rfl
    | with_reducible exact Reg.tblCntPass3_may hw rfl
    | with_reducible exact Reg.tblCntPass4_may hw rfl
    | (simp only [Keeps.mk_eq]; with_reducible apply KeepsMk.upd)
    | exact hw.le rfl
    | exact Or.inl (hw.bit rfl)
    | with_reducible exact Or.inr rfl
    | with_reducible apply ResKeeps.next
    | with_reducible apply Keeps.each
    | with_reducible apply Keeps.when
    | with_reducible apply Keeps.foldl
    | split
    | intro _ _ _
    | intro _ _
    | intro _
    | with_reducible refine Keeps.of_pair (by with_reducible assumption) ?_
    | with_reducible refine Keeps.of_triple (by with_reducible assumption) ?_
    | dsimp only)

theorem State.pass_keeps {w₀ : Nat} {s₀ s : State} (hw : Sub 0x70b0028000040101010000 w₀) (p : Nat) (id : Nat) (recirc : Bool) (parity : List (Nat × Nat)) (h₀ : Keeps w₀ s₀ s) :
    Keeps w₀ s₀ (State.pass s p id recirc parity) := by
  unfold State.pass
  repeat' (first
    | with_reducible assumption
    | with_reducible apply State.ev_keeps
    | with_reducible apply State.parityReads_keeps
    | with_reducible apply State.lookup1_keeps
    | with_reducible apply State.lookup2_keeps
    | with_reducible apply State.setFrame_keeps
    | with_reducible apply State.decided_keeps
    | (simp only [Keeps.mk_eq]; with_reducible apply KeepsMk.upd)
    | exact hw.le rfl
    | exact Or.inl (hw.bit rfl)
    | with_reducible exact Or.inr rfl
    | with_reducible apply ResKeeps.next
    | with_reducible apply Keeps.each
    | with_reducible apply Keeps.when
    | with_reducible apply Keeps.foldl
    | split
    | intro _ _ _
    | intro _ _
    | intro _
    | with_reducible refine Keeps.of_pair (by with_reducible assumption) ?_
    | with_reducible refine Keeps.of_triple (by with_reducible assumption) ?_
    | dsimp only)

theorem execLookupFirstPass_keeps {w₀ : Nat} {s₀ s : State} (hw : Sub 0x70b0028000040101010000 w₀) (pipe : Fin 4) (collide : Bool) (recirc : Bool) (parity : List (Nat × Nat)) (h₀ : Keeps w₀ s₀ s) :
    ResKeeps w₀ s₀ (execLookupFirstPass pipe collide recirc parity s) := by
  unfold execLookupFirstPass
  repeat' (first
    | with_reducible assumption
    | with_reducible apply State.bump_keeps
    | with_reducible apply State.ev_keeps
    | with_reducible apply State.gleanTag_keeps
    | with_reducible apply State.scrubDue_keeps
    | with_reducible apply State.epochAdd_keeps
    | with_reducible apply State.setFrame_keeps
    | with_reducible apply State.setWaiting_keeps
    | with_reducible apply State.setLater_keeps
    | with_reducible apply State.pass_keeps
    | with_reducible exact Reg.fabCntUndecidedFull_may hw rfl
    | (simp only [Keeps.mk_eq]; with_reducible apply KeepsMk.upd)
    | exact hw.le rfl
    | exact Or.inl (hw.bit rfl)
    | with_reducible exact Or.inr rfl
    | with_reducible apply ResKeeps.next
    | with_reducible apply Keeps.each
    | with_reducible apply Keeps.when
    | with_reducible apply Keeps.foldl
    | split
    | intro _ _ _
    | intro _ _
    | intro _
    | with_reducible refine Keeps.of_pair (by with_reducible assumption) ?_
    | with_reducible refine Keeps.of_triple (by with_reducible assumption) ?_
    | dsimp only)

theorem execLookupLaterPass_keeps {w₀ : Nat} {s₀ s : State} (hw : Sub 0x70b0028000040101010000 w₀) (pipe : Fin 4) (recirc : Bool) (parity : List (Nat × Nat)) (h₀ : Keeps w₀ s₀ s) :
    ResKeeps w₀ s₀ (execLookupLaterPass pipe recirc parity s) := by
  unfold execLookupLaterPass
  repeat' (first
    | with_reducible assumption
    | with_reducible apply State.ev_keeps
    | with_reducible apply State.scrubDue_keeps
    | with_reducible apply State.setFrame_keeps
    | with_reducible apply State.pass_keeps
    | (simp only [Keeps.mk_eq]; with_reducible apply KeepsMk.upd)
    | exact hw.le rfl
    | exact Or.inl (hw.bit rfl)
    | with_reducible exact Or.inr rfl
    | with_reducible apply ResKeeps.next
    | with_reducible apply Keeps.each
    | with_reducible apply Keeps.when
    | with_reducible apply Keeps.foldl
    | split
    | intro _ _ _
    | intro _ _
    | intro _
    | with_reducible refine Keeps.of_pair (by with_reducible assumption) ?_
    | with_reducible refine Keeps.of_triple (by with_reducible assumption) ?_
    | dsimp only)

theorem State.drrNext_keeps {w₀ : Nat} {s₀ s : State} (hw : Sub 0x4000000000040000000000 w₀) (e : Nat) (h₀ : Keeps w₀ s₀ s) :
    Keeps w₀ s₀ (State.drrNext s e) := by
  unfold State.drrNext
  repeat' (first
    | with_reducible assumption
    | with_reducible apply State.ev_keeps
    | (simp only [Keeps.mk_eq]; with_reducible apply KeepsMk.upd)
    | exact hw.le rfl
    | exact Or.inl (hw.bit rfl)
    | with_reducible exact Or.inr rfl
    | with_reducible apply ResKeeps.next
    | with_reducible apply Keeps.each
    | with_reducible apply Keeps.when
    | with_reducible apply Keeps.foldl
    | split
    | intro _ _ _
    | intro _ _
    | intro _
    | with_reducible refine Keeps.of_pair (by with_reducible assumption) ?_
    | with_reducible refine Keeps.of_triple (by with_reducible assumption) ?_
    | dsimp only)

theorem State.drrPick_keeps {w₀ : Nat} {s₀ s : State} (hw : Sub 0x4000000000040000000000 w₀) (e n : Nat) (h₀ : Keeps w₀ s₀ s) :
    Keeps w₀ s₀ (State.drrPick s e n).2 := by
  induction n generalizing s with
  | zero => exact h₀
  | succ n ih =>
    unfold State.drrPick
    dsimp only
    split
    · apply KeepsMk.upd h₀ <;> first | exact Or.inl (hw.bit rfl) | exact Or.inr rfl
    · exact ih (State.drrNext_keeps (hw.le rfl) _ h₀)


theorem State.pickClass_keeps {w₀ : Nat} {s₀ s : State} (hw : Sub 0x4000000000040000000000 w₀) (e : Nat) (h₀ : Keeps w₀ s₀ s) :
    Keeps w₀ s₀ (State.pickClass s e).2 := by
  unfold State.pickClass
  repeat' (first
    | with_reducible assumption
    | with_reducible apply State.ev_keeps
    | with_reducible apply State.drrPick_keeps
    | exact hw.le rfl
    | with_reducible apply ResKeeps.next
    | with_reducible apply Keeps.each
    | with_reducible apply Keeps.when
    | with_reducible apply Keeps.foldl
    | split
    | intro _ _ _
    | intro _ _
    | intro _
    | with_reducible refine Keeps.of_pair (by with_reducible assumption) ?_
    | with_reducible refine Keeps.of_triple (by with_reducible assumption) ?_
    | dsimp only)

theorem State.refuseCopy_keeps {w₀ : Nat} {s₀ s t : State} (hw : Sub 0x7020000000240100010000 w₀) {e id : Nat}
    (q : s.refuseCopy e id = some t) (h₀ : Keeps w₀ s₀ s) : Keeps w₀ s₀ t := by
  unfold State.refuseCopy at q
  dsimp only at q
  have d := State.dropCopy_keeps (hw.le rfl) id e h₀
  split at q
  · cases q; exact Keeps.when (fun t k => Keeps.bump48 _ _ (Reg.portEsmcDiscardLoCount_mayc hw rfl) k) d
  · split at q
    · cases q; exact Keeps.bump48 _ _ (Reg.portTxOversizeLoCount_mayc hw rfl) d
    · split at q
      · cases q
        exact State.dropCopy_keeps (hw.le rfl) _ _ (State.setFrame_keeps (hw.le rfl) _ _
          (Keeps.when (fun t k => State.hostTrap_keeps (hw.le rfl) _ _ k) h₀))
      · cases q

/-- The state without the copy, or as it was. -/
theorem State.refuseCopy_getD_keeps {w₀ : Nat} {s₀ s t : State} (hw : Sub 0x7020000000240100010000 w₀) (e id : Nat)
    (h₀ : Keeps w₀ s₀ s) (h : Keeps w₀ s₀ t) : Keeps w₀ s₀ ((s.refuseCopy e id).getD t) := by
  cases q : s.refuseCopy e id with
  | none => exact h
  | some u => exact State.refuseCopy_keeps hw q h₀
theorem State.purgeHeads_keeps {w₀ : Nat} {s₀ s : State} (hw : Sub 0x7020000000240100010000 w₀) (e : Nat) (h₀ : Keeps w₀ s₀ s) :
    Keeps w₀ s₀ (State.purgeHeads s e) := by
  unfold State.purgeHeads
  repeat' (first
    | with_reducible assumption
    | with_reducible apply State.refuseCopy_getD_keeps
    | with_reducible apply State.setQueue_keeps
    | exact hw.le rfl
    | with_reducible apply ResKeeps.next
    | with_reducible apply Keeps.each
    | with_reducible apply Keeps.when
    | with_reducible apply Keeps.foldl
    | split
    | intro _ _ _
    | intro _ _
    | intro _
    | with_reducible refine Keeps.of_pair (by with_reducible assumption) ?_
    | with_reducible refine Keeps.of_triple (by with_reducible assumption) ?_
    | dsimp only
    | with_reducible refine State.refuseCopy_keeps (w₀ := w₀) ?_ (by with_reducible assumption) ?_)

theorem State.streamPush_keeps {w₀ : Nat} {s₀ s : State} (hw : Sub 0x10000000000000000000000 w₀) (e : Nat) (l : List Byte) (early : Bool) (h₀ : Keeps w₀ s₀ s) :
    Keeps w₀ s₀ (State.streamPush s e l early) := by
  unfold State.streamPush
  repeat' (first
    | with_reducible assumption
    | (simp only [Keeps.mk_eq]; with_reducible apply KeepsMk.upd)
    | exact hw.le rfl
    | exact Or.inl (hw.bit rfl)
    | with_reducible exact Or.inr rfl
    | with_reducible apply ResKeeps.next
    | with_reducible apply Keeps.each
    | with_reducible apply Keeps.when
    | with_reducible apply Keeps.foldl
    | split
    | intro _ _ _
    | intro _ _
    | intro _
    | with_reducible refine Keeps.of_pair (by with_reducible assumption) ?_
    | with_reducible refine Keeps.of_triple (by with_reducible assumption) ?_
    | dsimp only)

theorem State.streamTo_keeps {w₀ : Nat} {s₀ s : State} (hw : Sub 0x10000000000000000000000 w₀) (e : Nat) (b : List Byte) (h₀ : Keeps w₀ s₀ s) :
    Keeps w₀ s₀ (State.streamTo s e b) := by
  unfold State.streamTo
  repeat' (first
    | with_reducible assumption
    | (simp only [Keeps.mk_eq]; with_reducible apply KeepsMk.upd)
    | exact hw.le rfl
    | exact Or.inl (hw.bit rfl)
    | with_reducible exact Or.inr rfl
    | with_reducible apply ResKeeps.next
    | with_reducible apply Keeps.each
    | with_reducible apply Keeps.when
    | with_reducible apply Keeps.foldl
    | split
    | intro _ _ _
    | intro _ _
    | intro _
    | with_reducible refine Keeps.of_pair (by with_reducible assumption) ?_
    | with_reducible refine Keeps.of_triple (by with_reducible assumption) ?_
    | dsimp only)

theorem State.feed_keeps {w₀ : Nat} {s₀ s : State} (hw : Sub 0x10000000000000000000000 w₀) (id : Nat) (h₀ : Keeps w₀ s₀ s) :
    Keeps w₀ s₀ (State.feed s id) := by
  unfold State.feed
  repeat' (first
    | with_reducible assumption
    | with_reducible apply State.streamTo_keeps
    | exact hw.le rfl
    | with_reducible apply ResKeeps.next
    | with_reducible apply Keeps.each
    | with_reducible apply Keeps.when
    | with_reducible apply Keeps.foldl
    | split
    | intro _ _ _
    | intro _ _
    | intro _
    | with_reducible refine Keeps.of_pair (by with_reducible assumption) ?_
    | with_reducible refine Keeps.of_triple (by with_reducible assumption) ?_
    | dsimp only)

theorem State.recordCopy_keeps {w₀ : Nat} {s₀ s : State} (hw : Sub 0x5000000000000000000000 w₀) (e : Nat) (id : Nat) (txn : Nat) (fill : Nat) (h₀ : Keeps w₀ s₀ s) :
    Keeps w₀ s₀ (State.recordCopy s e id txn fill) := by
  unfold State.recordCopy
  repeat' (first
    | with_reducible assumption
    | with_reducible apply State.tagDue_keeps
    | with_reducible apply State.setFrame_keeps
    | (simp only [Keeps.mk_eq]; with_reducible apply KeepsMk.upd)
    | exact hw.le rfl
    | exact Or.inl (hw.bit rfl)
    | with_reducible exact Or.inr rfl
    | with_reducible apply ResKeeps.next
    | with_reducible apply Keeps.each
    | with_reducible apply Keeps.when
    | with_reducible apply Keeps.foldl
    | split
    | intro _ _ _
    | intro _ _
    | intro _
    | with_reducible refine Keeps.of_pair (by with_reducible assumption) ?_
    | with_reducible refine Keeps.of_triple (by with_reducible assumption) ?_
    | dsimp only)

theorem State.chargeCopy_keeps {w₀ : Nat} {s₀ s : State} (hw : Sub 0x4000000000000000000000 w₀) (e : Nat) (id : Nat) (f : Frame) (tx : Nat) (txn : Nat) (h₀ : Keeps w₀ s₀ s) :
    Keeps w₀ s₀ (State.chargeCopy s e id f tx txn) := by
  unfold State.chargeCopy
  repeat' (first
    | with_reducible assumption
    | (simp only [Keeps.mk_eq]; with_reducible apply KeepsMk.upd)
    | exact hw.le rfl
    | exact Or.inl (hw.bit rfl)
    | with_reducible exact Or.inr rfl
    | with_reducible apply ResKeeps.next
    | with_reducible apply Keeps.each
    | with_reducible apply Keeps.when
    | with_reducible apply Keeps.foldl
    | split
    | intro _ _ _
    | intro _ _
    | intro _
    | with_reducible refine Keeps.of_pair (by with_reducible assumption) ?_
    | with_reducible refine Keeps.of_triple (by with_reducible assumption) ?_
    | dsimp only)

theorem State.startCopy_keeps {w₀ : Nat} {s₀ s : State} (hw : Sub 0x15000000000040100000000 w₀) (e : Nat) (id : Nat) (tx : Nat) (fill : Nat) (h₀ : Keeps w₀ s₀ s) :
    Keeps w₀ s₀ (State.startCopy s e id tx fill) := by
  unfold State.startCopy
  repeat' (first
    | with_reducible assumption
    | with_reducible apply State.bump_keeps
    | with_reducible apply State.ev_keeps
    | with_reducible apply State.streamPush_keeps
    | with_reducible apply State.streamTo_keeps
    | with_reducible apply State.recordCopy_keeps
    | with_reducible apply State.chargeCopy_keeps
    | with_reducible exact Reg.fabCntCtCopies_may hw rfl
    | exact hw.le rfl
    | with_reducible apply ResKeeps.next
    | with_reducible apply Keeps.each
    | with_reducible apply Keeps.when
    | with_reducible apply Keeps.foldl
    | split
    | intro _ _ _
    | intro _ _
    | intro _
    | with_reducible refine Keeps.of_pair (by with_reducible assumption) ?_
    | with_reducible refine Keeps.of_triple (by with_reducible assumption) ?_
    | dsimp only)

theorem State.streamCut_keeps {w₀ : Nat} {s₀ s : State} (hw : Sub 0x10000000000000000000000 w₀) (e : Nat) (h₀ : Keeps w₀ s₀ s) :
    Keeps w₀ s₀ (State.streamCut s e) := by
  unfold State.streamCut
  repeat' (first
    | with_reducible assumption
    | (simp only [Keeps.mk_eq]; with_reducible apply KeepsMk.upd)
    | exact hw.le rfl
    | exact Or.inl (hw.bit rfl)
    | with_reducible exact Or.inr rfl
    | with_reducible apply ResKeeps.next
    | with_reducible apply Keeps.each
    | with_reducible apply Keeps.when
    | with_reducible apply Keeps.foldl
    | split
    | intro _ _ _
    | intro _ _
    | intro _
    | with_reducible refine Keeps.of_pair (by with_reducible assumption) ?_
    | with_reducible refine Keeps.of_triple (by with_reducible assumption) ?_
    | dsimp only)

theorem State.cutCopy_keeps {w₀ : Nat} {s₀ s : State} (hw : Sub 0x17020020000040100010000 w₀) (e : Nat) (h₀ : Keeps w₀ s₀ s) :
    Keeps w₀ s₀ (State.cutCopy s e) := by
  unfold State.cutCopy
  repeat' (first
    | with_reducible assumption
    | with_reducible apply State.send_keeps
    | with_reducible apply State.linkDrop_keeps
    | with_reducible apply State.streamCut_keeps
    | (simp only [Keeps.mk_eq]; with_reducible apply KeepsMk.upd)
    | exact hw.le rfl
    | exact Or.inl (hw.bit rfl)
    | with_reducible exact Or.inr rfl
    | with_reducible apply ResKeeps.next
    | with_reducible apply Keeps.each
    | with_reducible apply Keeps.when
    | with_reducible apply Keeps.foldl
    | split
    | intro _ _ _
    | intro _ _
    | intro _
    | with_reducible refine Keeps.of_pair (by with_reducible assumption) ?_
    | with_reducible refine Keeps.of_triple (by with_reducible assumption) ?_
    | dsimp only)

theorem State.flushEgress_keeps {w₀ : Nat} {s₀ s : State} (hw : Sub 0x17020020000040100010000 w₀) (e : Nat) (h₀ : Keeps w₀ s₀ s) :
    Keeps w₀ s₀ (State.flushEgress s e) := by
  unfold State.flushEgress
  repeat' (first
    | with_reducible assumption
    | with_reducible apply State.linkDrop_keeps
    | with_reducible apply State.setQueue_keeps
    | with_reducible apply State.cutCopy_keeps
    | (simp only [Keeps.mk_eq]; with_reducible apply KeepsMk.upd)
    | exact hw.le rfl
    | exact Or.inl (hw.bit rfl)
    | with_reducible exact Or.inr rfl
    | with_reducible apply ResKeeps.next
    | with_reducible apply Keeps.each
    | with_reducible apply Keeps.when
    | with_reducible apply Keeps.foldl
    | split
    | intro _ _ _
    | intro _ _
    | intro _
    | with_reducible refine Keeps.of_pair (by with_reducible assumption) ?_
    | with_reducible refine Keeps.of_triple (by with_reducible assumption) ?_
    | dsimp only)

theorem State.destDown_keeps {w₀ : Nat} {s₀ s : State} (hw : Sub 0x17020020000040100010000 w₀) (n : Nat) (h₀ : Keeps w₀ s₀ s) :
    Keeps w₀ s₀ (State.destDown s n) := by
  unfold State.destDown
  repeat' (first
    | with_reducible assumption
    | with_reducible apply Keeps.wr
    | with_reducible apply State.bpOpen_keeps
    | with_reducible apply State.flushEgress_keeps
    | with_reducible exact Reg.fabDestStatusPaused_may hw rfl
    | with_reducible exact Reg.portLinkRxPaused_may hw rfl
    | exact hw.le rfl
    | with_reducible apply ResKeeps.next
    | with_reducible apply Keeps.each
    | with_reducible apply Keeps.when
    | with_reducible apply Keeps.foldl
    | split
    | intro _ _ _
    | intro _ _
    | intro _
    | with_reducible refine Keeps.of_pair (by with_reducible assumption) ?_
    | with_reducible refine Keeps.of_triple (by with_reducible assumption) ?_
    | dsimp only)

theorem State.moveCopies_keeps {w₀ : Nat} {s₀ s : State} (hw : Sub 0x4000000000000100000000 w₀) (a : Nat) (b : Nat) (h₀ : Keeps w₀ s₀ s) :
    Keeps w₀ s₀ (State.moveCopies s a b) := by
  unfold State.moveCopies
  repeat' (first
    | with_reducible assumption
    | with_reducible apply State.setFrame_keeps
    | with_reducible apply State.setHeldAt_keeps
    | (simp only [Keeps.mk_eq]; with_reducible apply KeepsMk.upd)
    | exact hw.le rfl
    | exact Or.inl (hw.bit rfl)
    | with_reducible exact Or.inr rfl
    | with_reducible apply ResKeeps.next
    | with_reducible apply Keeps.each
    | with_reducible apply Keeps.when
    | with_reducible apply Keeps.foldl
    | split
    | intro _ _ _
    | intro _ _
    | intro _
    | with_reducible refine Keeps.of_pair (by with_reducible assumption) ?_
    | with_reducible refine Keeps.of_triple (by with_reducible assumption) ?_
    | dsimp only)

theorem State.flushAll_keeps {w₀ : Nat} {s₀ s : State} (hw : Sub 0x17020020000240101010000 w₀) (h₀ : Keeps w₀ s₀ s) :
    Keeps w₀ s₀ (State.flushAll s) := by
  unfold State.flushAll
  repeat' (first
    | with_reducible assumption
    | with_reducible apply Keeps.wr
    | with_reducible apply State.bumpBy_keeps
    | with_reducible apply State.scrubDue_keeps
    | with_reducible apply State.setFrame_keeps
    | with_reducible apply State.freeCells_keeps
    | with_reducible apply State.gleanEnd_keeps
    | with_reducible apply State.epochOut_keeps
    | with_reducible apply State.cutOff_keeps
    | with_reducible apply State.setHostq_keeps
    | with_reducible apply State.flushEgress_keeps
    | with_reducible apply State.arrive_keeps
    | with_reducible exact Reg.fabCntLinkDrop_may hw rfl
    | with_reducible exact Reg.fabDestStatusHeld_may hw rfl
    | (simp only [Keeps.mk_eq]; with_reducible apply KeepsMk.upd)
    | exact hw.le rfl
    | exact Or.inl (hw.bit rfl)
    | with_reducible exact Or.inr rfl
    | with_reducible apply ResKeeps.next
    | with_reducible apply Keeps.each
    | with_reducible apply Keeps.when
    | with_reducible apply Keeps.foldl
    | split
    | intro _ _ _
    | intro _ _
    | intro _
    | with_reducible refine Keeps.of_pair (by with_reducible assumption) ?_
    | with_reducible refine Keeps.of_triple (by with_reducible assumption) ?_
    | dsimp only)

theorem State.reserve_keeps {w₀ : Nat} {s₀ s : State} (hw : Sub 0x20000000000100000000 w₀) (h₀ : Keeps w₀ s₀ s) :
    Keeps w₀ s₀ (State.reserve s) := by
  unfold State.reserve
  repeat' (first
    | with_reducible assumption
    | with_reducible apply State.wrs_keeps
    | with_reducible exact Reg.fabDestCfgLossless_may hw rfl
    | with_reducible exact Reg.fabDestHeadHeadroom_may hw rfl
    | with_reducible exact Reg.fabHeadTotal_may hw rfl
    | with_reducible exact Reg.fabPoolSharedFree_may hw rfl
    | with_reducible exact AllMay.nil _
    | with_reducible apply AllMay.cons
    | with_reducible apply AllMay.append
    | with_reducible apply AllMay.map
    | (simp only [Keeps.mk_eq]; with_reducible apply KeepsMk.upd)
    | exact hw.le rfl
    | exact Or.inl (hw.bit rfl)
    | with_reducible exact Or.inr rfl
    | with_reducible apply ResKeeps.next
    | with_reducible apply Keeps.each
    | with_reducible apply Keeps.when
    | with_reducible apply Keeps.foldl
    | split
    | intro _ _ _
    | intro _ _
    | intro _
    | with_reducible refine Keeps.of_pair (by with_reducible assumption) ?_
    | with_reducible refine Keeps.of_triple (by with_reducible assumption) ?_
    | dsimp only)

theorem applyFabric_keeps {w₀ : Nat} {s₀ s : State} (hw : Sub 0x100000002 w₀) (v : List Byte) (h₀ : Keeps w₀ s₀ s) :
    Keeps w₀ s₀ (applyFabric v s) := by
  unfold applyFabric
  repeat' (first
    | with_reducible assumption
    | with_reducible apply Keeps.wr
    | with_reducible apply State.wrs_keeps
    | with_reducible exact Reg.clkFlagsFlfDenied_may hw rfl
    | with_reducible exact Reg.fabCfgCtEn_may hw rfl
    | with_reducible exact Reg.fabDestCfgFlfEn_may hw rfl
    | with_reducible exact Reg.fabDestCfgFlfTc_may hw rfl
    | with_reducible exact Reg.fabDestCfgLossless_may hw rfl
    | with_reducible exact Reg.fabDestCfgShapeEn_may hw rfl
    | with_reducible exact Reg.fabDestFlfFlfLat_may hw rfl
    | with_reducible exact Reg.fabDestRttRttNs_may hw rfl
    | with_reducible exact Reg.fabDestShapeBurst_may hw rfl
    | with_reducible exact Reg.fabDestShapeRate_may hw rfl
    | with_reducible exact Reg.fabGuardCells_may hw rfl
    | with_reducible exact Reg.fabTcCfgFenceEtype_may hw rfl
    | with_reducible exact Reg.fabTcCfgMode_may hw rfl
    | with_reducible exact Reg.fabTcCfgSched_may hw rfl
    | with_reducible exact Reg.fabTcCfgWeight_may hw rfl
    | with_reducible exact Reg.fabTcDropDrop_may hw rfl
    | with_reducible exact Reg.fabTcXoffXoff_may hw rfl
    | with_reducible exact Reg.fabTcXonXon_may hw rfl
    | with_reducible exact AllMay.nil _
    | with_reducible apply AllMay.cons
    | with_reducible apply AllMay.append
    | with_reducible apply AllMay.map
    | exact hw.le rfl
    | with_reducible apply ResKeeps.next
    | with_reducible apply Keeps.each
    | with_reducible apply Keeps.when
    | with_reducible apply Keeps.foldl
    | split
    | intro _ _ _
    | intro _ _
    | intro _
    | with_reducible refine Keeps.of_pair (by with_reducible assumption) ?_
    | with_reducible refine Keeps.of_triple (by with_reducible assumption) ?_
    | dsimp only)

end Sys2Proof.Machine
end

