-- ==== Sys2Proof/Laws/KeepEngine.lean ====
section
/-! SUPPORT. What the operations of Machine/Engine.lean keep. -/

set_option linter.all false
set_option Elab.async false

namespace Sys2Proof.Machine

theorem State.setEng_keeps {w₀ : Nat} {s₀ s : State} (hw : Sub 0x8000000000000000000000 w₀) (n : Nat) (e : Eng) (h₀ : Keeps w₀ s₀ s) :
    Keeps w₀ s₀ (State.setEng s n e) := by
  unfold State.setEng
  repeat' (first
    | with_reducible assumption
    | (simp only [Keeps.mk_eq]; with_reducible apply KeepsMk.upd)
    | exact hw.le rfl
    | exact Or.inl (hw.bit rfl)
    | with_reducible exact Or.inr rfl
    | with_reducible apply ResKeeps.next
    | with_reducible apply Keeps.each
    | with_reducible apply Keeps.when
    | with_reducible apply Keeps.foldl
    | split
    | intro _ _ _
    | intro _ _
    | intro _
    | with_reducible refine Keeps.of_pair (by with_reducible assumption) ?_
    | with_reducible refine Keeps.of_triple (by with_reducible assumption) ?_
    | dsimp only)

theorem State.setTt_keeps {w₀ : Nat} {s₀ s : State} (hw : Sub 0x20 w₀) (n : Nat) (st : Nat) (h₀ : Keeps w₀ s₀ s) :
    Keeps w₀ s₀ (State.setTt s n st) := by
  unfold State.setTt
  repeat' (first
    | with_reducible assumption
    | with_reducible apply Keeps.wr
    | with_reducible exact Reg.ttLaneStatusState_may hw rfl
    | exact hw.le rfl
    | with_reducible apply ResKeeps.next
    | with_reducible apply Keeps.each
    | with_reducible apply Keeps.when
    | with_reducible apply Keeps.foldl
    | split
    | intro _ _ _
    | intro _ _
    | intro _
    | with_reducible refine Keeps.of_pair (by with_reducible assumption) ?_
    | with_reducible refine Keeps.of_triple (by with_reducible assumption) ?_
    | dsimp only)

theorem execTtBeatPeriod_keeps {w₀ : Nat} {s₀ s : State} (hw : Sub 0x8000000000000000000020 w₀) (lane : Fin 128) (beats : List Nat × List Nat) (h₀ : Keeps w₀ s₀ s) :
    ResKeeps w₀ s₀ (execTtBeatPeriod lane beats s) := by
  unfold execTtBeatPeriod
  repeat' (first
    | with_reducible assumption
    | with_reducible apply Keeps.wr
    | with_reducible apply State.setEng_keeps
    | with_reducible apply State.setTt_keeps
    | with_reducible exact Reg.ttLanePhasePhase_may hw rfl
    | with_reducible exact Reg.ttLaneRateRate_may hw rfl
    | (simp only [Keeps.mk_eq]; with_reducible apply KeepsMk.upd)
    | exact hw.le rfl
    | exact Or.inl (hw.bit rfl)
    | with_reducible exact Or.inr rfl
    | with_reducible apply ResKeeps.next
    | with_reducible apply Keeps.each
    | with_reducible apply Keeps.when
    | with_reducible apply Keeps.foldl
    | split
    | intro _ _ _
    | intro _ _
    | intro _
    | with_reducible refine Keeps.of_pair (by with_reducible assumption) ?_
    | with_reducible refine Keeps.of_triple (by with_reducible assumption) ?_
    | dsimp only)

theorem State.ttToAnchor_keeps {w₀ : Nat} {s₀ s : State} (hw : Sub 0x8000000000000000000020 w₀) (n : Nat) (h₀ : Keeps w₀ s₀ s) :
    Keeps w₀ s₀ (State.ttToAnchor s n) := by
  unfold State.ttToAnchor
  repeat' (first
    | with_reducible assumption
    | with_reducible apply State.bump_keeps
    | with_reducible apply State.setEng_keeps
    | with_reducible apply State.setTt_keeps
    | with_reducible exact Reg.ttLaneCountsAnchors_may hw rfl
    | (simp only [Keeps.mk_eq]; with_reducible apply KeepsMk.upd)
    | exact hw.le rfl
    | exact Or.inl (hw.bit rfl)
    | with_reducible exact Or.inr rfl
    | with_reducible apply ResKeeps.next
    | with_reducible apply Keeps.each
    | with_reducible apply Keeps.when
    | with_reducible apply Keeps.foldl
    | split
    | intro _ _ _
    | intro _ _
    | intro _
    | with_reducible refine Keeps.of_pair (by with_reducible assumption) ?_
    | with_reducible refine Keeps.of_triple (by with_reducible assumption) ?_
    | dsimp only)

theorem execTtLockWindowDone_keeps {w₀ : Nat} {s₀ s : State} (hw : Sub 0x8000000000000000000020 w₀) (lane : Fin 128) (h₀ : Keeps w₀ s₀ s) :
    ResKeeps w₀ s₀ (execTtLockWindowDone lane s) := by
  unfold execTtLockWindowDone
  repeat' (first
    | with_reducible assumption
    | with_reducible apply State.setEng_keeps
    | with_reducible apply State.ttToAnchor_keeps
    | (simp only [Keeps.mk_eq]; with_reducible apply KeepsMk.upd)
    | exact hw.le rfl
    | exact Or.inl (hw.bit rfl)
    | with_reducible exact Or.inr rfl
    | with_reducible apply ResKeeps.next
    | with_reducible apply Keeps.each
    | with_reducible apply Keeps.when
    | with_reducible apply Keeps.foldl
    | split
    | intro _ _ _
    | intro _ _
    | intro _
    | with_reducible refine Keeps.of_pair (by with_reducible assumption) ?_
    | with_reducible refine Keeps.of_triple (by with_reducible assumption) ?_
    | dsimp only)

theorem State.ttUp_keeps {w₀ : Nat} {s₀ s : State} (hw : Sub 0x8000000000000000000020 w₀) (n : Nat) (h₀ : Keeps w₀ s₀ s) :
    Keeps w₀ s₀ (State.ttUp s n) := by
  unfold State.ttUp
  repeat' (first
    | with_reducible assumption
    | with_reducible apply State.setEng_keeps
    | with_reducible apply State.setTt_keeps
    | exact hw.le rfl
    | with_reducible apply ResKeeps.next
    | with_reducible apply Keeps.each
    | with_reducible apply Keeps.when
    | with_reducible apply Keeps.foldl
    | split
    | intro _ _ _
    | intro _ _
    | intro _
    | with_reducible refine Keeps.of_pair (by with_reducible assumption) ?_
    | with_reducible refine Keeps.of_triple (by with_reducible assumption) ?_
    | dsimp only)

theorem State.ttDown_keeps {w₀ : Nat} {s₀ s : State} (hw : Sub 0x80c0028000000000000030 w₀) (n : Nat) (h₀ : Keeps w₀ s₀ s) :
    Keeps w₀ s₀ (State.ttDown s n) := by
  unfold State.ttDown
  repeat' (first
    | with_reducible assumption
    | with_reducible apply State.sourceLost_keeps
    | with_reducible apply State.setEng_keeps
    | with_reducible apply State.setTt_keeps
    | exact hw.le rfl
    | with_reducible apply ResKeeps.next
    | with_reducible apply Keeps.each
    | with_reducible apply Keeps.when
    | with_reducible apply Keeps.foldl
    | split
    | intro _ _ _
    | intro _ _
    | intro _
    | with_reducible refine Keeps.of_pair (by with_reducible assumption) ?_
    | with_reducible refine Keeps.of_triple (by with_reducible assumption) ?_
    | dsimp only)

theorem State.ttAudit_keeps {w₀ : Nat} {s₀ s : State} (hw : Sub 0x8010000000000000000020 w₀) (n : Nat) (tx : Bool) (h₀ : Keeps w₀ s₀ s) :
    Keeps w₀ s₀ (State.ttAudit s n tx) := by
  unfold State.ttAudit
  repeat' (first
    | with_reducible assumption
    | with_reducible apply State.bump_keeps
    | with_reducible apply State.report_keeps
    | with_reducible apply State.setEng_keeps
    | with_reducible apply State.ttToAnchor_keeps
    | with_reducible exact Reg.ttLaneErrsAuditErr_may hw rfl
    | (simp only [Keeps.mk_eq]; with_reducible apply KeepsMk.upd)
    | exact hw.le rfl
    | exact Or.inl (hw.bit rfl)
    | with_reducible exact Or.inr rfl
    | with_reducible apply ResKeeps.next
    | with_reducible apply Keeps.each
    | with_reducible apply Keeps.when
    | with_reducible apply Keeps.foldl
    | split
    | intro _ _ _
    | intro _ _
    | intro _
    | with_reducible refine Keeps.of_pair (by with_reducible assumption) ?_
    | with_reducible refine Keeps.of_triple (by with_reducible assumption) ?_
    | dsimp only)

theorem State.ttAnchored_keeps {w₀ : Nat} {s₀ s : State} (hw : Sub 0x8000000000000000000020 w₀) (n : Nat) (h₀ : Keeps w₀ s₀ s) :
    Keeps w₀ s₀ (State.ttAnchored s n) := by
  unfold State.ttAnchored
  repeat' (first
    | with_reducible assumption
    | with_reducible apply State.setEng_keeps
    | with_reducible apply State.setTt_keeps
    | (simp only [Keeps.mk_eq]; with_reducible apply KeepsMk.upd)
    | exact hw.le rfl
    | exact Or.inl (hw.bit rfl)
    | with_reducible exact Or.inr rfl
    | with_reducible apply ResKeeps.next
    | with_reducible apply Keeps.each
    | with_reducible apply Keeps.when
    | with_reducible apply Keeps.foldl
    | split
    | intro _ _ _
    | intro _ _
    | intro _
    | with_reducible refine Keeps.of_pair (by with_reducible assumption) ?_
    | with_reducible refine Keeps.of_triple (by with_reducible assumption) ?_
    | dsimp only)

theorem State.ttTxMark_keeps {w₀ : Nat} {s₀ s : State} (hw : Sub 0x8010000000000000000020 w₀) (n : Nat) (cycle : Nat) (bitPos : Nat) (stuff : Nat) (h₀ : Keeps w₀ s₀ s) :
    Keeps w₀ s₀ (State.ttTxMark s n cycle bitPos stuff).2 := by
  unfold State.ttTxMark
  repeat' (first
    | with_reducible assumption
    | with_reducible apply State.setEng_keeps
    | with_reducible apply State.ttAudit_keeps
    | with_reducible apply State.ttAnchored_keeps
    | (simp only [Keeps.mk_eq]; with_reducible apply KeepsMk.upd)
    | exact hw.le rfl
    | exact Or.inl (hw.bit rfl)
    | with_reducible exact Or.inr rfl
    | with_reducible apply ResKeeps.next
    | with_reducible apply Keeps.each
    | with_reducible apply Keeps.when
    | with_reducible apply Keeps.foldl
    | split
    | intro _ _ _
    | intro _ _
    | intro _
    | with_reducible refine Keeps.of_pair (by with_reducible assumption) ?_
    | with_reducible refine Keeps.of_triple (by with_reducible assumption) ?_
    | dsimp only)

theorem State.ttRxMark_keeps {w₀ : Nat} {s₀ s : State} (hw : Sub 0x8010000000000000000020 w₀) (n : Nat) (cycle : Nat) (bitPos : Nat) (stuff : Nat) (bad : Bool) (rise : Nat) (fall : Nat) (h₀ : Keeps w₀ s₀ s) :
    Keeps w₀ s₀ (State.ttRxMark s n cycle bitPos stuff bad rise fall).2 := by
  unfold State.ttRxMark
  repeat' (first
    | with_reducible assumption
    | with_reducible apply State.setEng_keeps
    | with_reducible apply State.ttAudit_keeps
    | with_reducible apply State.ttAnchored_keeps
    | (simp only [Keeps.mk_eq]; with_reducible apply KeepsMk.upd)
    | exact hw.le rfl
    | exact Or.inl (hw.bit rfl)
    | with_reducible exact Or.inr rfl
    | with_reducible apply ResKeeps.next
    | with_reducible apply Keeps.each
    | with_reducible apply Keeps.when
    | with_reducible apply Keeps.foldl
    | split
    | intro _ _ _
    | intro _ _
    | intro _
    | with_reducible refine Keeps.of_pair (by with_reducible assumption) ?_
    | with_reducible refine Keeps.of_triple (by with_reducible assumption) ?_
    | dsimp only)

theorem execTtExchangeInterval_keeps {w₀ : Nat} {s₀ s : State} (hw : Sub 0x8000000000000000000000 w₀) (lane : Fin 128) (h₀ : Keeps w₀ s₀ s) :
    ResKeeps w₀ s₀ (execTtExchangeInterval lane s) := by
  unfold execTtExchangeInterval
  repeat' (first
    | with_reducible assumption
    | with_reducible apply State.setEng_keeps
    | (simp only [Keeps.mk_eq]; with_reducible apply KeepsMk.upd)
    | exact hw.le rfl
    | exact Or.inl (hw.bit rfl)
    | with_reducible exact Or.inr rfl
    | with_reducible apply ResKeeps.next
    | with_reducible apply Keeps.each
    | with_reducible apply Keeps.when
    | with_reducible apply Keeps.foldl
    | split
    | intro _ _ _
    | intro _ _
    | intro _
    | with_reducible refine Keeps.of_pair (by with_reducible assumption) ?_
    | with_reducible refine Keeps.of_triple (by with_reducible assumption) ?_
    | dsimp only)

theorem State.ttSend_keeps {w₀ : Nat} {s₀ s : State} (hw : Sub 0x8000000000000000000020 w₀) (n : Nat) (tf : Nat) (st : Option Stamp) (h₀ : Keeps w₀ s₀ s) :
    Keeps w₀ s₀ (State.ttSend s n tf st).2 := by
  unfold State.ttSend
  repeat' (first
    | with_reducible assumption
    | with_reducible apply State.bumpWrap_keeps
    | with_reducible apply State.setEng_keeps
    | with_reducible exact Reg.ttLaneSeqTxSeq_may hw rfl
    | (simp only [Keeps.mk_eq]; with_reducible apply KeepsMk.upd)
    | exact hw.le rfl
    | exact Or.inl (hw.bit rfl)
    | with_reducible exact Or.inr rfl
    | with_reducible apply ResKeeps.next
    | with_reducible apply Keeps.each
    | with_reducible apply Keeps.when
    | with_reducible apply Keeps.foldl
    | split
    | intro _ _ _
    | intro _ _
    | intro _
    | with_reducible refine Keeps.of_pair (by with_reducible assumption) ?_
    | with_reducible refine Keeps.of_triple (by with_reducible assumption) ?_
    | dsimp only)

theorem State.ttKeep_keeps {w₀ : Nat} {s₀ s : State} (hw : Sub 0x8000000000000000000000 w₀) (n : Nat) (st : Option Stamp) (h₀ : Keeps w₀ s₀ s) :
    Keeps w₀ s₀ (State.ttKeep s n st) := by
  unfold State.ttKeep
  repeat' (first
    | with_reducible assumption
    | with_reducible apply State.setEng_keeps
    | (simp only [Keeps.mk_eq]; with_reducible apply KeepsMk.upd)
    | exact hw.le rfl
    | exact Or.inl (hw.bit rfl)
    | with_reducible exact Or.inr rfl
    | with_reducible apply ResKeeps.next
    | with_reducible apply Keeps.each
    | with_reducible apply Keeps.when
    | with_reducible apply Keeps.foldl
    | split
    | intro _ _ _
    | intro _ _
    | intro _
    | with_reducible refine Keeps.of_pair (by with_reducible assumption) ?_
    | with_reducible refine Keeps.of_triple (by with_reducible assumption) ?_
    | dsimp only)

theorem State.ttPartner_keeps {w₀ : Nat} {s₀ s : State} (hw : Sub 0x20 w₀) (n : Nat) (tt : List Byte) (h₀ : Keeps w₀ s₀ s) :
    Keeps w₀ s₀ (State.ttPartner s n tt) := by
  unfold State.ttPartner
  repeat' (first
    | with_reducible assumption
    | with_reducible apply State.wrs_keeps
    | with_reducible exact Reg.ttLanePGmHiPGmHi_may hw rfl
    | with_reducible exact Reg.ttLanePGmLoPGmLo_may hw rfl
    | with_reducible exact Reg.ttLanePNodeHiPNodeHi_may hw rfl
    | with_reducible exact Reg.ttLanePNodeLoPNodeLo_may hw rfl
    | with_reducible exact Reg.ttLaneStatusPHops_may hw rfl
    | with_reducible exact Reg.ttLaneStatusPSource_may hw rfl
    | with_reducible exact Reg.ttLaneStatusPTbValid_may hw rfl
    | with_reducible exact AllMay.nil _
    | with_reducible apply AllMay.cons
    | with_reducible apply AllMay.append
    | with_reducible apply AllMay.map
    | exact hw.le rfl
    | with_reducible apply ResKeeps.next
    | with_reducible apply Keeps.each
    | with_reducible apply Keeps.when
    | with_reducible apply Keeps.foldl
    | split
    | intro _ _ _
    | intro _ _
    | intro _
    | with_reducible refine Keeps.of_pair (by with_reducible assumption) ?_
    | with_reducible refine Keeps.of_triple (by with_reducible assumption) ?_
    | dsimp only)

theorem State.ttRecv_keeps {w₀ : Nat} {s₀ s : State} (hw : Sub 0x8000000000000000000020 w₀) (n : Nat) (tf : Nat) (tt : List Byte) (h₀ : Keeps w₀ s₀ s) :
    Keeps w₀ s₀ (State.ttRecv s n tf tt) := by
  unfold State.ttRecv
  repeat' (first
    | with_reducible assumption
    | with_reducible apply Keeps.wr
    | with_reducible apply State.setEng_keeps
    | with_reducible apply State.ttPartner_keeps
    | with_reducible exact Reg.ttLaneSeqRxSeq_may hw rfl
    | (simp only [Keeps.mk_eq]; with_reducible apply KeepsMk.upd)
    | exact hw.le rfl
    | exact Or.inl (hw.bit rfl)
    | with_reducible exact Or.inr rfl
    | with_reducible apply ResKeeps.next
    | with_reducible apply Keeps.each
    | with_reducible apply Keeps.when
    | with_reducible apply Keeps.foldl
    | split
    | intro _ _ _
    | intro _ _
    | intro _
    | with_reducible refine Keeps.of_pair (by with_reducible assumption) ?_
    | with_reducible refine Keeps.of_triple (by with_reducible assumption) ?_
    | dsimp only)

theorem State.ttDiscard_keeps {w₀ : Nat} {s₀ s : State} (hw : Sub 0x20 w₀) (n : Nat) (reason : Nat) (h₀ : Keeps w₀ s₀ s) :
    Keeps w₀ s₀ (State.ttDiscard s n reason) := by
  unfold State.ttDiscard
  repeat' (first
    | with_reducible assumption
    | with_reducible apply Keeps.wr
    | with_reducible apply State.bump_keeps
    | with_reducible exact Reg.ttLaneCountsDiscards_may hw rfl
    | with_reducible exact Reg.ttLaneStatusLastDisc_may hw rfl
    | exact hw.le rfl
    | with_reducible apply ResKeeps.next
    | with_reducible apply Keeps.each
    | with_reducible apply Keeps.when
    | with_reducible apply Keeps.foldl
    | split
    | intro _ _ _
    | intro _ _
    | intro _
    | with_reducible refine Keeps.of_pair (by with_reducible assumption) ?_
    | with_reducible refine Keeps.of_triple (by with_reducible assumption) ?_
    | dsimp only)

theorem State.ttDeliver_keeps {w₀ : Nat} {s₀ s : State} (hw : Sub 0x8c0028000040000000050 w₀) (tb : Nat) (e : Int) (partnerCompact : Bool) (h₀ : Keeps w₀ s₀ s) :
    Keeps w₀ s₀ (State.ttDeliver s tb e partnerCompact) := by
  unfold State.ttDeliver
  repeat' (first
    | with_reducible assumption
    | with_reducible apply State.setTb_keeps
    | with_reducible apply State.ev_keeps
    | with_reducible apply State.deferredCheck_keeps
    | with_reducible apply State.hardSetSample_keeps
    | with_reducible apply State.pgSync_keeps
    | with_reducible apply State.sampleTb_keeps
    | (simp only [Keeps.mk_eq]; with_reducible apply KeepsMk.upd)
    | exact hw.le rfl
    | exact Or.inl (hw.bit rfl)
    | with_reducible exact Or.inr rfl
    | with_reducible apply ResKeeps.next
    | with_reducible apply Keeps.each
    | with_reducible apply Keeps.when
    | with_reducible apply Keeps.foldl
    | split
    | intro _ _ _
    | intro _ _
    | intro _
    | with_reducible refine Keeps.of_pair (by with_reducible assumption) ?_
    | with_reducible refine Keeps.of_triple (by with_reducible assumption) ?_
    | dsimp only)

theorem State.ttAccept_keeps {w₀ : Nat} {s₀ s : State} (hw : Sub 0x88d0028000040100000070 w₀) (n : Nat) (tb : Nat) (src : Bool) (p : Mark) (rtt : Int) (dIn : Int) (e : Int) (h₀ : Keeps w₀ s₀ s) :
    Keeps w₀ s₀ (State.ttAccept s n tb src p rtt dIn e) := by
  unfold State.ttAccept
  repeat' (first
    | with_reducible assumption
    | with_reducible apply Keeps.wr
    | with_reducible apply State.wrs_keeps
    | with_reducible apply State.bump_keeps
    | with_reducible apply State.report_keeps
    | with_reducible apply State.setEng_keeps
    | with_reducible apply State.ttDeliver_keeps
    | with_reducible exact Reg.fabDestStatusRttShort_may hw rfl
    | with_reducible exact Reg.ttHops_may hw rfl
    | with_reducible exact Reg.ttLaneDInHiDInHi_may hw rfl
    | with_reducible exact Reg.ttLaneDInLoDInLo_may hw rfl
    | with_reducible exact Reg.ttLaneEHiEHi_may hw rfl
    | with_reducible exact Reg.ttLaneELoELo_may hw rfl
    | with_reducible exact Reg.ttLaneRttHiRttHi_may hw rfl
    | with_reducible exact Reg.ttLaneRttLoRttLo_may hw rfl
    | with_reducible exact Reg.ttLaneSamplesSamples_may hw rfl
    | with_reducible exact Reg.ttLaneStatusChainLong_may hw rfl
    | with_reducible exact Reg.ttLaneStatusFormatMismatch_may hw rfl
    | with_reducible exact AllMay.nil _
    | with_reducible apply AllMay.cons
    | with_reducible apply AllMay.append
    | with_reducible apply AllMay.map
    | (simp only [Keeps.mk_eq]; with_reducible apply KeepsMk.upd)
    | exact hw.le rfl
    | exact Or.inl (hw.bit rfl)
    | with_reducible exact Or.inr rfl
    | with_reducible apply ResKeeps.next
    | with_reducible apply Keeps.each
    | with_reducible apply Keeps.when
    | with_reducible apply Keeps.foldl
    | split
    | intro _ _ _
    | intro _ _
    | intro _
    | with_reducible refine Keeps.of_pair (by with_reducible assumption) ?_
    | with_reducible refine Keeps.of_triple (by with_reducible assumption) ?_
    | dsimp only)

theorem execTtPairFormed_keeps {w₀ : Nat} {s₀ s : State} (hw : Sub 0x88d0028000040100000070 w₀) (lane : Fin 128) (h₀ : Keeps w₀ s₀ s) :
    ResKeeps w₀ s₀ (execTtPairFormed lane s) := by
  unfold execTtPairFormed
  repeat' (first
    | with_reducible assumption
    | with_reducible apply State.bump_keeps
    | with_reducible apply State.setEng_keeps
    | with_reducible apply State.ttDiscard_keeps
    | with_reducible apply State.ttAccept_keeps
    | with_reducible exact Reg.ttLaneErrsRttRebase_may hw rfl
    | (simp only [Keeps.mk_eq]; with_reducible apply KeepsMk.upd)
    | exact hw.le rfl
    | exact Or.inl (hw.bit rfl)
    | with_reducible exact Or.inr rfl
    | with_reducible apply ResKeeps.next
    | with_reducible apply Keeps.each
    | with_reducible apply Keeps.when
    | with_reducible apply Keeps.foldl
    | split
    | intro _ _ _
    | intro _ _
    | intro _
    | with_reducible refine Keeps.of_pair (by with_reducible assumption) ?_
    | with_reducible refine Keeps.of_triple (by with_reducible assumption) ?_
    | dsimp only)

theorem execTtPairTimeout_keeps {w₀ : Nat} {s₀ s : State} (hw : Sub 0x8000000000000000000020 w₀) (lane : Fin 128) (h₀ : Keeps w₀ s₀ s) :
    ResKeeps w₀ s₀ (execTtPairTimeout lane s) := by
  unfold execTtPairTimeout
  repeat' (first
    | with_reducible assumption
    | with_reducible apply State.setEng_keeps
    | with_reducible apply State.ttDiscard_keeps
    | exact hw.le rfl
    | with_reducible apply ResKeeps.next
    | with_reducible apply Keeps.each
    | with_reducible apply Keeps.when
    | with_reducible apply Keeps.foldl
    | split
    | intro _ _ _
    | intro _ _
    | intro _
    | with_reducible refine Keeps.of_pair (by with_reducible assumption) ?_
    | with_reducible refine Keeps.of_triple (by with_reducible assumption) ?_
    | dsimp only)

theorem applyTransfer_keeps {w₀ : Nat} {s₀ s : State} (hw : Sub 0x20 w₀) (v : List Byte) (h₀ : Keeps w₀ s₀ s) :
    Keeps w₀ s₀ (applyTransfer v s) := by
  unfold applyTransfer
  repeat' (first
    | with_reducible assumption
    | with_reducible apply State.wrs_keeps
    | with_reducible exact Reg.ttLaneAlphaHiAlphaHi_may hw rfl
    | with_reducible exact Reg.ttLaneAlphaLoAlphaLo_may hw rfl
    | with_reducible exact Reg.ttLaneCfgPdAvg_may hw rfl
    | with_reducible exact Reg.ttLaneCfgTb_may hw rfl
    | with_reducible exact Reg.ttLaneCfgTtEn_may hw rfl
    | with_reducible exact Reg.ttLaneExtRxExtRx_may hw rfl
    | with_reducible exact Reg.ttLaneExtTxExtTx_may hw rfl
    | with_reducible exact Reg.ttLaneRttJumpRttJump_may hw rfl
    | with_reducible exact Reg.ttLaneRttMaxRttMax_may hw rfl
    | with_reducible exact AllMay.nil _
    | with_reducible apply AllMay.cons
    | with_reducible apply AllMay.append
    | with_reducible apply AllMay.map
    | exact hw.le rfl
    | with_reducible apply ResKeeps.next
    | with_reducible apply Keeps.each
    | with_reducible apply Keeps.when
    | with_reducible apply Keeps.foldl
    | split
    | intro _ _ _
    | intro _ _
    | intro _
    | with_reducible refine Keeps.of_pair (by with_reducible assumption) ?_
    | with_reducible refine Keeps.of_triple (by with_reducible assumption) ?_
    | dsimp only)

theorem State.ttStart_keeps {w₀ : Nat} {s₀ s : State} (hw : Sub 0x20 w₀) (h₀ : Keeps w₀ s₀ s) :
    Keeps w₀ s₀ (State.ttStart s) := by
  unfold State.ttStart
  repeat' (first
    | with_reducible assumption
    | with_reducible apply State.setTt_keeps
    | exact hw.le rfl
    | with_reducible apply ResKeeps.next
    | with_reducible apply Keeps.each
    | with_reducible apply Keeps.when
    | with_reducible apply Keeps.foldl
    | split
    | intro _ _ _
    | intro _ _
    | intro _
    | with_reducible refine Keeps.of_pair (by with_reducible assumption) ?_
    | with_reducible refine Keeps.of_triple (by with_reducible assumption) ?_
    | dsimp only)

end Sys2Proof.Machine
end

