-- ==== Sys2Proof/Laws/KeepLanes.lean ====
section
/-! SUPPORT. What the operations of Machine/Lanes.lean keep. -/

set_option linter.all false
set_option Elab.async false

namespace Sys2Proof.Machine

theorem State.setLn_keeps {w₀ : Nat} {s₀ s : State} (hw : Sub 0x10000000000000000000000 w₀) (n : Nat) (x : LaneSt) (h₀ : Keeps w₀ s₀ s) :
    Keeps w₀ s₀ (State.setLn s n x) := by
  unfold State.setLn
  repeat' (first
    | with_reducible assumption
    | (simp only [Keeps.mk_eq]; with_reducible apply KeepsMk.upd)
    | exact hw.le rfl
    | exact Or.inl (hw.bit rfl)
    | with_reducible exact Or.inr rfl
    | with_reducible apply ResKeeps.next
    | with_reducible apply Keeps.each
    | with_reducible apply Keeps.when
    | with_reducible apply Keeps.foldl
    | split
    | intro _ _ _
    | intro _ _
    | intro _
    | with_reducible refine Keeps.of_pair (by with_reducible assumption) ?_
    | with_reducible refine Keeps.of_triple (by with_reducible assumption) ?_
    | dsimp only)

theorem State.laneTo_keeps {w₀ : Nat} {s₀ s : State} (hw : Sub 0x100 w₀) (n : Nat) (st : Nat) (h₀ : Keeps w₀ s₀ s) :
    Keeps w₀ s₀ (State.laneTo s n st) := by
  unfold State.laneTo
  repeat' (first
    | with_reducible assumption
    | with_reducible apply Keeps.wr
    | with_reducible apply State.bumpWrap_keeps
    | with_reducible exact Reg.laneStateGen_may hw rfl
    | with_reducible exact Reg.laneStateTstate_may hw rfl
    | exact hw.le rfl
    | with_reducible apply ResKeeps.next
    | with_reducible apply Keeps.each
    | with_reducible apply Keeps.when
    | with_reducible apply Keeps.foldl
    | split
    | intro _ _ _
    | intro _ _
    | intro _
    | with_reducible refine Keeps.of_pair (by with_reducible assumption) ?_
    | with_reducible refine Keeps.of_triple (by with_reducible assumption) ?_
    | dsimp only)

theorem State.laneFlag_keeps {w₀ : Nat} {s₀ s : State} (hw : Sub 0x10000000000000000000 w₀) (n : Nat) (f : Fld) (hf_f : may w₀ f.key = true) (h₀ : Keeps w₀ s₀ s) :
    Keeps w₀ s₀ (State.laneFlag s n f) := by
  unfold State.laneFlag
  repeat' (first
    | with_reducible assumption
    | with_reducible apply Keeps.wr
    | with_reducible apply State.report_keeps
    | exact hw.le rfl
    | with_reducible apply ResKeeps.next
    | with_reducible apply Keeps.each
    | with_reducible apply Keeps.when
    | with_reducible apply Keeps.foldl
    | split
    | intro _ _ _
    | intro _ _
    | intro _
    | with_reducible refine Keeps.of_pair (by with_reducible assumption) ?_
    | with_reducible refine Keeps.of_triple (by with_reducible assumption) ?_
    | dsimp only)

theorem State.updHeld_keeps {w₀ : Nat} {s₀ s : State} (hw : Sub 0x100 w₀) (n : Nat) (h₀ : Keeps w₀ s₀ s) :
    Keeps w₀ s₀ (State.updHeld s n) := by
  unfold State.updHeld
  repeat' (first
    | with_reducible assumption
    | with_reducible apply Keeps.wr
    | with_reducible apply State.bumpWrap_keeps
    | with_reducible exact Reg.laneStateGen_may hw rfl
    | with_reducible exact Reg.laneStateHeld_may hw rfl
    | exact hw.le rfl
    | with_reducible apply ResKeeps.next
    | with_reducible apply Keeps.each
    | with_reducible apply Keeps.when
    | with_reducible apply Keeps.foldl
    | split
    | intro _ _ _
    | intro _ _
    | intro _
    | with_reducible refine Keeps.of_pair (by with_reducible assumption) ?_
    | with_reducible refine Keeps.of_triple (by with_reducible assumption) ?_
    | dsimp only)

theorem State.prbsIdle_keeps {w₀ : Nat} {s₀ s : State} (hw : Sub 0x100 w₀) (n : Nat) (h₀ : Keeps w₀ s₀ s) :
    Keeps w₀ s₀ (State.prbsIdle s n) := by
  unfold State.prbsIdle
  repeat' (first
    | with_reducible assumption
    | with_reducible apply Keeps.wr
    | with_reducible exact Reg.lanePrbsStatusLock_may hw rfl
    | exact hw.le rfl
    | with_reducible apply ResKeeps.next
    | with_reducible apply Keeps.each
    | with_reducible apply Keeps.when
    | with_reducible apply Keeps.foldl
    | split
    | intro _ _ _
    | intro _ _
    | intro _
    | with_reducible refine Keeps.of_pair (by with_reducible assumption) ?_
    | with_reducible refine Keeps.of_triple (by with_reducible assumption) ?_
    | dsimp only)

theorem State.linkLeft_keeps {w₀ : Nat} {s₀ s : State} (hw : Sub 0x17020020000040100010000 w₀) (n : Nat) (h₀ : Keeps w₀ s₀ s) :
    Keeps w₀ s₀ (State.linkLeft s n) := by
  unfold State.linkLeft
  repeat' (first
    | with_reducible assumption
    | with_reducible apply Keeps.wr
    | with_reducible apply State.bpOpen_keeps
    | with_reducible apply State.cutCopy_keeps
    | with_reducible apply State.destDown_keeps
    | with_reducible exact Reg.fabDestStatusPaused_may hw rfl
    | with_reducible exact Reg.portLinkRxPaused_may hw rfl
    | exact hw.le rfl
    | with_reducible apply ResKeeps.next
    | with_reducible apply Keeps.each
    | with_reducible apply Keeps.when
    | with_reducible apply Keeps.foldl
    | split
    | intro _ _ _
    | intro _ _
    | intro _
    | with_reducible refine Keeps.of_pair (by with_reducible assumption) ?_
    | with_reducible refine Keeps.of_triple (by with_reducible assumption) ?_
    | dsimp only)

theorem State.laneLeaveUp_keeps {w₀ : Nat} {s₀ s : State} (hw : Sub 0x1f7e006800004010101013e w₀) (n : Nat) (h₀ : Keeps w₀ s₀ s) :
    Keeps w₀ s₀ (State.laneLeaveUp s n) := by
  unfold State.laneLeaveUp
  repeat' (first
    | with_reducible assumption
    | with_reducible apply Keeps.wr
    | with_reducible apply State.intr_keeps
    | with_reducible apply State.quadDry_keeps
    | with_reducible apply State.rcsLost_keeps
    | with_reducible apply State.cutArrival_keeps
    | with_reducible apply State.ttDown_keeps
    | with_reducible apply State.setLn_keeps
    | with_reducible apply State.linkLeft_keeps
    | with_reducible exact Reg.lanePrbsStatusLock_may hw rfl
    | with_reducible exact Reg.laneStateHealth_may hw rfl
    | (simp only [Keeps.mk_eq]; with_reducible apply KeepsMk.upd)
    | exact hw.le rfl
    | exact Or.inl (hw.bit rfl)
    | with_reducible exact Or.inr rfl
    | with_reducible apply ResKeeps.next
    | with_reducible apply Keeps.each
    | with_reducible apply Keeps.when
    | with_reducible apply Keeps.foldl
    | split
    | intro _ _ _
    | intro _ _
    | intro _
    | with_reducible refine Keeps.of_pair (by with_reducible assumption) ?_
    | with_reducible refine Keeps.of_triple (by with_reducible assumption) ?_
    | dsimp only)

theorem State.laneGo_keeps {w₀ : Nat} {s₀ s : State} (hw : Sub 0x1f7e006800004010101013e w₀) (n : Nat) (st : Nat) (h₀ : Keeps w₀ s₀ s) :
    Keeps w₀ s₀ (State.laneGo s n st) := by
  unfold State.laneGo
  repeat' (first
    | with_reducible assumption
    | with_reducible apply State.laneTo_keeps
    | with_reducible apply State.laneLeaveUp_keeps
    | exact hw.le rfl
    | with_reducible apply ResKeeps.next
    | with_reducible apply Keeps.each
    | with_reducible apply Keeps.when
    | with_reducible apply Keeps.foldl
    | split
    | intro _ _ _
    | intro _ _
    | intro _
    | with_reducible refine Keeps.of_pair (by with_reducible assumption) ?_
    | with_reducible refine Keeps.of_triple (by with_reducible assumption) ?_
    | dsimp only)

theorem State.laneToDown_keeps {w₀ : Nat} {s₀ s : State} (hw : Sub 0x1f7e006800004010101013e w₀) (n : Nat) (h₀ : Keeps w₀ s₀ s) :
    Keeps w₀ s₀ (State.laneToDown s n) := by
  unfold State.laneToDown
  repeat' (first
    | with_reducible assumption
    | with_reducible apply State.wrs_keeps
    | with_reducible apply State.setLn_keeps
    | with_reducible apply State.laneGo_keeps
    | with_reducible exact Reg.laneBackoffMs_may hw rfl
    | with_reducible exact Reg.laneManStatusMarkerSeen_may hw rfl
    | with_reducible exact Reg.laneStateQuietRx_may hw rfl
    | with_reducible exact Reg.laneStateQuietTx_may hw rfl
    | with_reducible exact AllMay.nil _
    | with_reducible apply AllMay.cons
    | with_reducible apply AllMay.append
    | with_reducible apply AllMay.map
    | exact hw.le rfl
    | with_reducible apply ResKeeps.next
    | with_reducible apply Keeps.each
    | with_reducible apply Keeps.when
    | with_reducible apply Keeps.foldl
    | split
    | intro _ _ _
    | intro _ _
    | intro _
    | with_reducible refine Keeps.of_pair (by with_reducible assumption) ?_
    | with_reducible refine Keeps.of_triple (by with_reducible assumption) ?_
    | dsimp only)

theorem State.laneToRetry_keeps {w₀ : Nat} {s₀ s : State} (hw : Sub 0x1f7e006800004010101013e w₀) (n : Nat) (h₀ : Keeps w₀ s₀ s) :
    Keeps w₀ s₀ (State.laneToRetry s n) := by
  unfold State.laneToRetry
  repeat' (first
    | with_reducible assumption
    | with_reducible apply State.wrs_keeps
    | with_reducible apply State.bump_keeps
    | with_reducible apply State.setLn_keeps
    | with_reducible apply State.laneGo_keeps
    | with_reducible exact Reg.laneEventsRetries_may hw rfl
    | with_reducible exact Reg.laneManStatusMarkerSeen_may hw rfl
    | with_reducible exact Reg.laneStateQuietRx_may hw rfl
    | with_reducible exact Reg.laneStateQuietTx_may hw rfl
    | with_reducible exact AllMay.nil _
    | with_reducible apply AllMay.cons
    | with_reducible apply AllMay.append
    | with_reducible apply AllMay.map
    | exact hw.le rfl
    | with_reducible apply ResKeeps.next
    | with_reducible apply Keeps.each
    | with_reducible apply Keeps.when
    | with_reducible apply Keeps.foldl
    | split
    | intro _ _ _
    | intro _ _
    | intro _
    | with_reducible refine Keeps.of_pair (by with_reducible assumption) ?_
    | with_reducible refine Keeps.of_triple (by with_reducible assumption) ?_
    | dsimp only)

theorem State.sendLine_keeps {w₀ : Nat} {s₀ s : State} (hw : Sub 0x20000000000000000 w₀) (n : Nat) (l : List Bool) (h₀ : Keeps w₀ s₀ s) :
    Keeps w₀ s₀ (State.sendLine s n l) := by
  unfold State.sendLine
  repeat' (first
    | with_reducible assumption
    | with_reducible apply State.send_keeps
    | exact hw.le rfl
    | with_reducible apply ResKeeps.next
    | with_reducible apply Keeps.each
    | with_reducible apply Keeps.when
    | with_reducible apply Keeps.foldl
    | split
    | intro _ _ _
    | intro _ _
    | intro _
    | with_reducible refine Keeps.of_pair (by with_reducible assumption) ?_
    | with_reducible refine Keeps.of_triple (by with_reducible assumption) ?_
    | dsimp only)

theorem State.burst_keeps {w₀ : Nat} {s₀ s : State} (hw : Sub 0x10000020000000000000000 w₀) (n : Nat) (h₀ : Keeps w₀ s₀ s) :
    Keeps w₀ s₀ (State.burst s n) := by
  unfold State.burst
  repeat' (first
    | with_reducible assumption
    | with_reducible apply State.setLn_keeps
    | with_reducible apply State.sendLine_keeps
    | (simp only [Keeps.mk_eq]; with_reducible apply KeepsMk.upd)
    | exact hw.le rfl
    | exact Or.inl (hw.bit rfl)
    | with_reducible exact Or.inr rfl
    | with_reducible apply ResKeeps.next
    | with_reducible apply Keeps.each
    | with_reducible apply Keeps.when
    | with_reducible apply Keeps.foldl
    | split
    | intro _ _ _
    | intro _ _
    | intro _
    | with_reducible refine Keeps.of_pair (by with_reducible assumption) ?_
    | with_reducible refine Keeps.of_triple (by with_reducible assumption) ?_
    | dsimp only)

theorem State.laneToDetect_keeps {w₀ : Nat} {s₀ s : State} (hw : Sub 0x1f7e006800004010101013e w₀) (n : Nat) (h₀ : Keeps w₀ s₀ s) :
    Keeps w₀ s₀ (State.laneToDetect s n) := by
  unfold State.laneToDetect
  repeat' (first
    | with_reducible assumption
    | with_reducible apply State.laneGo_keeps
    | with_reducible apply State.burst_keeps
    | exact hw.le rfl
    | with_reducible apply ResKeeps.next
    | with_reducible apply Keeps.each
    | with_reducible apply Keeps.when
    | with_reducible apply Keeps.foldl
    | split
    | intro _ _ _
    | intro _ _
    | intro _
    | with_reducible refine Keeps.of_pair (by with_reducible assumption) ?_
    | with_reducible refine Keeps.of_triple (by with_reducible assumption) ?_
    | dsimp only)

theorem State.laneToAlign_keeps {w₀ : Nat} {s₀ s : State} (hw : Sub 0x1f7e006800004010101013e w₀) (n : Nat) (h₀ : Keeps w₀ s₀ s) :
    Keeps w₀ s₀ (State.laneToAlign s n) := by
  unfold State.laneToAlign
  repeat' (first
    | with_reducible assumption
    | with_reducible apply State.setLn_keeps
    | with_reducible apply State.laneGo_keeps
    | (simp only [Keeps.mk_eq]; with_reducible apply KeepsMk.upd)
    | exact hw.le rfl
    | exact Or.inl (hw.bit rfl)
    | with_reducible exact Or.inr rfl
    | with_reducible apply ResKeeps.next
    | with_reducible apply Keeps.each
    | with_reducible apply Keeps.when
    | with_reducible apply Keeps.foldl
    | split
    | intro _ _ _
    | intro _ _
    | intro _
    | with_reducible refine Keeps.of_pair (by with_reducible assumption) ?_
    | with_reducible refine Keeps.of_triple (by with_reducible assumption) ?_
    | dsimp only)

theorem State.laneToVerify_keeps {w₀ : Nat} {s₀ s : State} (hw : Sub 0x1f7e006800004010101013e w₀) (n : Nat) (msn : Nat) (h₀ : Keeps w₀ s₀ s) :
    Keeps w₀ s₀ (State.laneToVerify s n msn) := by
  unfold State.laneToVerify
  repeat' (first
    | with_reducible assumption
    | with_reducible apply Keeps.wr
    | with_reducible apply State.setLn_keeps
    | with_reducible apply State.laneGo_keeps
    | with_reducible exact Reg.laneManStatusMarkerSeen_may hw rfl
    | (simp only [Keeps.mk_eq]; with_reducible apply KeepsMk.upd)
    | exact hw.le rfl
    | exact Or.inl (hw.bit rfl)
    | with_reducible exact Or.inr rfl
    | with_reducible apply ResKeeps.next
    | with_reducible apply Keeps.each
    | with_reducible apply Keeps.when
    | with_reducible apply Keeps.foldl
    | split
    | intro _ _ _
    | intro _ _
    | intro _
    | with_reducible refine Keeps.of_pair (by with_reducible assumption) ?_
    | with_reducible refine Keeps.of_triple (by with_reducible assumption) ?_
    | dsimp only)

theorem State.laneUpCheck_keeps {w₀ : Nat} {s₀ s : State} (hw : Sub 0x18080028000000000000120 w₀) (n : Nat) (h₀ : Keeps w₀ s₀ s) :
    Keeps w₀ s₀ (State.laneUpCheck s n) := by
  unfold State.laneUpCheck
  repeat' (first
    | with_reducible assumption
    | with_reducible apply State.intr_keeps
    | with_reducible apply State.ttUp_keeps
    | with_reducible apply State.setLn_keeps
    | with_reducible apply State.laneTo_keeps
    | (simp only [Keeps.mk_eq]; with_reducible apply KeepsMk.upd)
    | exact hw.le rfl
    | exact Or.inl (hw.bit rfl)
    | with_reducible exact Or.inr rfl
    | with_reducible apply ResKeeps.next
    | with_reducible apply Keeps.each
    | with_reducible apply Keeps.when
    | with_reducible apply Keeps.foldl
    | split
    | intro _ _ _
    | intro _ _
    | intro _
    | with_reducible refine Keeps.of_pair (by with_reducible assumption) ?_
    | with_reducible refine Keeps.of_triple (by with_reducible assumption) ?_
    | dsimp only)

theorem State.laneLos_keeps {w₀ : Nat} {s₀ s : State} (hw : Sub 0x1f7f006800004010101013e w₀) (n : Nat) (h₀ : Keeps w₀ s₀ s) :
    Keeps w₀ s₀ (State.laneLos s n) := by
  unfold State.laneLos
  repeat' (first
    | with_reducible assumption
    | with_reducible apply State.bump_keeps
    | with_reducible apply State.laneFlag_keeps
    | with_reducible apply State.laneToDown_keeps
    | with_reducible exact Reg.laneErrLos_may hw rfl
    | with_reducible exact Reg.laneLosEvtCount_may hw rfl
    | exact hw.le rfl
    | with_reducible apply ResKeeps.next
    | with_reducible apply Keeps.each
    | with_reducible apply Keeps.when
    | with_reducible apply Keeps.foldl
    | split
    | intro _ _ _
    | intro _ _
    | intro _
    | with_reducible refine Keeps.of_pair (by with_reducible assumption) ?_
    | with_reducible refine Keeps.of_triple (by with_reducible assumption) ?_
    | dsimp only)

theorem execLaneDownWait_keeps {w₀ : Nat} {s₀ s : State} (hw : Sub 0x1f7e006800004010101013e w₀) (lane : Fin 128) (h₀ : Keeps w₀ s₀ s) :
    ResKeeps w₀ s₀ (execLaneDownWait lane s) := by
  unfold execLaneDownWait
  repeat' (first
    | with_reducible assumption
    | with_reducible apply State.laneToDetect_keeps
    | exact hw.le rfl
    | with_reducible apply ResKeeps.next
    | with_reducible apply Keeps.each
    | with_reducible apply Keeps.when
    | with_reducible apply Keeps.foldl
    | split
    | intro _ _ _
    | intro _ _
    | intro _
    | with_reducible refine Keeps.of_pair (by with_reducible assumption) ?_
    | with_reducible refine Keeps.of_triple (by with_reducible assumption) ?_
    | dsimp only)

theorem execDetectBurstTimer_keeps {w₀ : Nat} {s₀ s : State} (hw : Sub 0x10000020000000000000000 w₀) (lane : Fin 128) (h₀ : Keeps w₀ s₀ s) :
    ResKeeps w₀ s₀ (execDetectBurstTimer lane s) := by
  unfold execDetectBurstTimer
  repeat' (first
    | with_reducible assumption
    | with_reducible apply State.burst_keeps
    | exact hw.le rfl
    | with_reducible apply ResKeeps.next
    | with_reducible apply Keeps.each
    | with_reducible apply Keeps.when
    | with_reducible apply Keeps.foldl
    | split
    | intro _ _ _
    | intro _ _
    | intro _
    | with_reducible refine Keeps.of_pair (by with_reducible assumption) ?_
    | with_reducible refine Keeps.of_triple (by with_reducible assumption) ?_
    | dsimp only)

theorem execLaneEnergyDetect_keeps {w₀ : Nat} {s₀ s : State} (hw : Sub 0x100 w₀) (lane : Fin 128) (h₀ : Keeps w₀ s₀ s) :
    ResKeeps w₀ s₀ (execLaneEnergyDetect lane s) := by
  unfold execLaneEnergyDetect
  repeat' (first
    | with_reducible assumption
    | with_reducible apply State.laneTo_keeps
    | exact hw.le rfl
    | with_reducible apply ResKeeps.next
    | with_reducible apply Keeps.each
    | with_reducible apply Keeps.when
    | with_reducible apply Keeps.foldl
    | split
    | intro _ _ _
    | intro _ _
    | intro _
    | with_reducible refine Keeps.of_pair (by with_reducible assumption) ?_
    | with_reducible refine Keeps.of_triple (by with_reducible assumption) ?_
    | dsimp only)

theorem execLaneCdrLocked_keeps {w₀ : Nat} {s₀ s : State} (hw : Sub 0x1f7e006800004010101013e w₀) (lane : Fin 128) (h₀ : Keeps w₀ s₀ s) :
    ResKeeps w₀ s₀ (execLaneCdrLocked lane s) := by
  unfold execLaneCdrLocked
  repeat' (first
    | with_reducible assumption
    | with_reducible apply State.laneToAlign_keeps
    | exact hw.le rfl
    | with_reducible apply ResKeeps.next
    | with_reducible apply Keeps.each
    | with_reducible apply Keeps.when
    | with_reducible apply Keeps.foldl
    | split
    | intro _ _ _
    | intro _ _
    | intro _
    | with_reducible refine Keeps.of_pair (by with_reducible assumption) ?_
    | with_reducible refine Keeps.of_triple (by with_reducible assumption) ?_
    | dsimp only)

theorem execLaneTrainTimeout_keeps {w₀ : Nat} {s₀ s : State} (hw : Sub 0x1f7e006800004010101013e w₀) (lane : Fin 128) (h₀ : Keeps w₀ s₀ s) :
    ResKeeps w₀ s₀ (execLaneTrainTimeout lane s) := by
  unfold execLaneTrainTimeout
  repeat' (first
    | with_reducible assumption
    | with_reducible apply State.laneToRetry_keeps
    | exact hw.le rfl
    | with_reducible apply ResKeeps.next
    | with_reducible apply Keeps.each
    | with_reducible apply Keeps.when
    | with_reducible apply Keeps.foldl
    | split
    | intro _ _ _
    | intro _ _
    | intro _
    | with_reducible refine Keeps.of_pair (by with_reducible assumption) ?_
    | with_reducible refine Keeps.of_triple (by with_reducible assumption) ?_
    | dsimp only)

theorem execAlignPositionWatch_keeps {w₀ : Nat} {s₀ s : State} (hw : Sub 0x1f7e006800004010101013e w₀) (lane : Fin 128) (matched : Bool) (next3 : Bool) (msn : Fin 100) (h₀ : Keeps w₀ s₀ s) :
    ResKeeps w₀ s₀ (execAlignPositionWatch lane matched next3 msn s) := by
  unfold execAlignPositionWatch
  repeat' (first
    | with_reducible assumption
    | with_reducible apply Keeps.wr
    | with_reducible apply State.wrs_keeps
    | with_reducible apply State.setLn_keeps
    | with_reducible apply State.laneToRetry_keeps
    | with_reducible apply State.laneToVerify_keeps
    | with_reducible exact Reg.laneManStatusMarkerSeen_may hw rfl
    | with_reducible exact Reg.laneStateSlip_may hw rfl
    | with_reducible exact AllMay.nil _
    | with_reducible apply AllMay.cons
    | with_reducible apply AllMay.append
    | with_reducible apply AllMay.map
    | (simp only [Keeps.mk_eq]; with_reducible apply KeepsMk.upd)
    | exact hw.le rfl
    | exact Or.inl (hw.bit rfl)
    | with_reducible exact Or.inr rfl
    | with_reducible apply ResKeeps.next
    | with_reducible apply Keeps.each
    | with_reducible apply Keeps.when
    | with_reducible apply Keeps.foldl
    | split
    | intro _ _ _
    | intro _ _
    | intro _
    | with_reducible refine Keeps.of_pair (by with_reducible assumption) ?_
    | with_reducible refine Keeps.of_triple (by with_reducible assumption) ?_
    | dsimp only)

theorem execLaneVerifyTimeout_keeps {w₀ : Nat} {s₀ s : State} (hw : Sub 0x1f7e006800004010101013e w₀) (lane : Fin 128) (h₀ : Keeps w₀ s₀ s) :
    ResKeeps w₀ s₀ (execLaneVerifyTimeout lane s) := by
  unfold execLaneVerifyTimeout
  repeat' (first
    | with_reducible assumption
    | with_reducible apply State.laneToRetry_keeps
    | exact hw.le rfl
    | with_reducible apply ResKeeps.next
    | with_reducible apply Keeps.each
    | with_reducible apply Keeps.when
    | with_reducible apply Keeps.foldl
    | split
    | intro _ _ _
    | intro _ _
    | intro _
    | with_reducible refine Keeps.of_pair (by with_reducible assumption) ?_
    | with_reducible refine Keeps.of_triple (by with_reducible assumption) ?_
    | dsimp only)

theorem execLaneBackoffExpire_keeps {w₀ : Nat} {s₀ s : State} (hw : Sub 0x1f7e006800004010101013e w₀) (lane : Fin 128) (h₀ : Keeps w₀ s₀ s) :
    ResKeeps w₀ s₀ (execLaneBackoffExpire lane s) := by
  unfold execLaneBackoffExpire
  repeat' (first
    | with_reducible assumption
    | with_reducible apply Keeps.wr
    | with_reducible apply State.laneToDetect_keeps
    | with_reducible exact Reg.laneBackoffMs_may hw rfl
    | exact hw.le rfl
    | with_reducible apply ResKeeps.next
    | with_reducible apply Keeps.each
    | with_reducible apply Keeps.when
    | with_reducible apply Keeps.foldl
    | split
    | intro _ _ _
    | intro _ _
    | intro _
    | with_reducible refine Keeps.of_pair (by with_reducible assumption) ?_
    | with_reducible refine Keeps.of_triple (by with_reducible assumption) ?_
    | dsimp only)

theorem execLaneUpStable_keeps {w₀ : Nat} {s₀ s : State} (hw : Sub 0x100 w₀) (lane : Fin 128) (h₀ : Keeps w₀ s₀ s) :
    ResKeeps w₀ s₀ (execLaneUpStable lane s) := by
  unfold execLaneUpStable
  repeat' (first
    | with_reducible assumption
    | with_reducible apply Keeps.wr
    | with_reducible exact Reg.laneBackoffMs_may hw rfl
    | exact hw.le rfl
    | with_reducible apply ResKeeps.next
    | with_reducible apply Keeps.each
    | with_reducible apply Keeps.when
    | with_reducible apply Keeps.foldl
    | split
    | intro _ _ _
    | intro _ _
    | intro _
    | with_reducible refine Keeps.of_pair (by with_reducible assumption) ?_
    | with_reducible refine Keeps.of_triple (by with_reducible assumption) ?_
    | dsimp only)

theorem execLaneLosSignal_keeps {w₀ : Nat} {s₀ s : State} (hw : Sub 0x1f7f006800004010101013e w₀) (lane : Fin 128) (h₀ : Keeps w₀ s₀ s) :
    ResKeeps w₀ s₀ (execLaneLosSignal lane s) := by
  unfold execLaneLosSignal
  repeat' (first
    | with_reducible assumption
    | with_reducible apply State.laneLos_keeps
    | exact hw.le rfl
    | with_reducible apply ResKeeps.next
    | with_reducible apply Keeps.each
    | with_reducible apply Keeps.when
    | with_reducible apply Keeps.foldl
    | split
    | intro _ _ _
    | intro _ _
    | intro _
    | with_reducible refine Keeps.of_pair (by with_reducible assumption) ?_
    | with_reducible refine Keeps.of_triple (by with_reducible assumption) ?_
    | dsimp only)

theorem execLaneLosTimeout_keeps {w₀ : Nat} {s₀ s : State} (hw : Sub 0x1f7f006800004010101013e w₀) (lane : Fin 128) (h₀ : Keeps w₀ s₀ s) :
    ResKeeps w₀ s₀ (execLaneLosTimeout lane s) := by
  unfold execLaneLosTimeout
  repeat' (first
    | with_reducible assumption
    | with_reducible apply State.laneLos_keeps
    | exact hw.le rfl
    | with_reducible apply ResKeeps.next
    | with_reducible apply Keeps.each
    | with_reducible apply Keeps.when
    | with_reducible apply Keeps.foldl
    | split
    | intro _ _ _
    | intro _ _
    | intro _
    | with_reducible refine Keeps.of_pair (by with_reducible assumption) ?_
    | with_reducible refine Keeps.of_triple (by with_reducible assumption) ?_
    | dsimp only)

theorem State.timingPayload_keeps {w₀ : Nat} {s₀ s : State} (hw : Sub 0x18000000000000000000020 w₀) (n : Nat) (st : Option Stamp) (h₀ : Keeps w₀ s₀ s) :
    Keeps w₀ s₀ (State.timingPayload s n st).2 := by
  unfold State.timingPayload
  repeat' (first
    | with_reducible assumption
    | with_reducible apply State.ttSend_keeps
    | with_reducible apply State.setLn_keeps
    | (simp only [Keeps.mk_eq]; with_reducible apply KeepsMk.upd)
    | exact hw.le rfl
    | exact Or.inl (hw.bit rfl)
    | with_reducible exact Or.inr rfl
    | with_reducible apply ResKeeps.next
    | with_reducible apply Keeps.each
    | with_reducible apply Keeps.when
    | with_reducible apply Keeps.foldl
    | split
    | intro _ _ _
    | intro _ _
    | intro _
    | with_reducible refine Keeps.of_pair (by with_reducible assumption) ?_
    | with_reducible refine Keeps.of_triple (by with_reducible assumption) ?_
    | dsimp only)

theorem State.dataPayload_keeps {w₀ : Nat} {s₀ s : State} (hw : Sub 0x10000000000000000000000 w₀) (n : Nat) (h₀ : Keeps w₀ s₀ s) :
    Keeps w₀ s₀ (State.dataPayload s n).2 := by
  unfold State.dataPayload
  repeat' (first
    | with_reducible assumption
    | with_reducible apply State.setLn_keeps
    | (simp only [Keeps.mk_eq]; with_reducible apply KeepsMk.upd)
    | exact hw.le rfl
    | exact Or.inl (hw.bit rfl)
    | with_reducible exact Or.inr rfl
    | with_reducible apply ResKeeps.next
    | with_reducible apply Keeps.each
    | with_reducible apply Keeps.when
    | with_reducible apply Keeps.foldl
    | split
    | intro _ _ _
    | intro _ _
    | intro _
    | with_reducible refine Keeps.of_pair (by with_reducible assumption) ?_
    | with_reducible refine Keeps.of_triple (by with_reducible assumption) ?_
    | dsimp only)

theorem State.sendSuperblock_keeps {w₀ : Nat} {s₀ s : State} (hw : Sub 0x18010020000040000000120 w₀) (n : Nat) (cycle : Nat) (bitPos : Nat) (h₀ : Keeps w₀ s₀ s) :
    Keeps w₀ s₀ (State.sendSuperblock s n cycle bitPos) := by
  unfold State.sendSuperblock
  repeat' (first
    | with_reducible assumption
    | with_reducible apply Keeps.bump48
    | with_reducible apply State.evN_keeps
    | with_reducible apply State.ttTxMark_keeps
    | with_reducible apply State.setLn_keeps
    | with_reducible apply State.sendLine_keeps
    | with_reducible apply State.timingPayload_keeps
    | with_reducible apply State.dataPayload_keeps
    | with_reducible exact Reg.laneStuffTxLoCount_mayc hw rfl
    | (simp only [Keeps.mk_eq]; with_reducible apply KeepsMk.upd)
    | exact hw.le rfl
    | exact Or.inl (hw.bit rfl)
    | with_reducible exact Or.inr rfl
    | with_reducible apply ResKeeps.next
    | with_reducible apply Keeps.each
    | with_reducible apply Keeps.when
    | with_reducible apply Keeps.foldl
    | split
    | intro _ _ _
    | intro _ _
    | intro _
    | with_reducible refine Keeps.of_pair (by with_reducible assumption) ?_
    | with_reducible refine Keeps.of_triple (by with_reducible assumption) ?_
    | dsimp only)

theorem execSuperblockTransmit_keeps {w₀ : Nat} {s₀ s : State} (hw : Sub 0x19010020000040000000120 w₀) (lane : Fin 128) (cycle : Nat) (bitPos : Nat) (resEmpty : Nat) (h₀ : Keeps w₀ s₀ s) :
    ResKeeps w₀ s₀ (execSuperblockTransmit lane cycle bitPos resEmpty s) := by
  unfold execSuperblockTransmit
  repeat' (first
    | with_reducible assumption
    | with_reducible apply Keeps.wr
    | with_reducible apply Keeps.bump48
    | with_reducible apply State.quadDry_keeps
    | with_reducible apply State.setLn_keeps
    | with_reducible apply State.sendSuperblock_keeps
    | with_reducible exact Reg.laneStateQuietTx_may hw rfl
    | with_reducible exact Reg.laneResEmptyLoCount_mayc hw rfl
    | (simp only [Keeps.mk_eq]; with_reducible apply KeepsMk.upd)
    | exact hw.le rfl
    | exact Or.inl (hw.bit rfl)
    | with_reducible exact Or.inr rfl
    | with_reducible apply ResKeeps.next
    | with_reducible apply Keeps.each
    | with_reducible apply Keeps.when
    | with_reducible apply Keeps.foldl
    | split
    | intro _ _ _
    | intro _ _
    | intro _
    | with_reducible refine Keeps.of_pair (by with_reducible assumption) ?_
    | with_reducible refine Keeps.of_triple (by with_reducible assumption) ?_
    | dsimp only)

theorem State.qlReceived_keeps {w₀ : Nat} {s₀ s : State} (hw : Sub 0x1078006800000000000010e w₀) (n : Nat) (ql : Nat) (h₀ : Keeps w₀ s₀ s) :
    Keeps w₀ s₀ (State.qlReceived s n ql) := by
  unfold State.qlReceived
  repeat' (first
    | with_reducible assumption
    | with_reducible apply Keeps.wr
    | with_reducible apply State.rankChange_keeps
    | with_reducible apply State.setLn_keeps
    | with_reducible exact Reg.laneRxQlLast_may hw rfl
    | with_reducible exact Reg.laneRxQlStable_may hw rfl
    | (simp only [Keeps.mk_eq]; with_reducible apply KeepsMk.upd)
    | exact hw.le rfl
    | exact Or.inl (hw.bit rfl)
    | with_reducible exact Or.inr rfl
    | with_reducible apply ResKeeps.next
    | with_reducible apply Keeps.each
    | with_reducible apply Keeps.when
    | with_reducible apply Keeps.foldl
    | split
    | intro _ _ _
    | intro _ _
    | intro _
    | with_reducible refine Keeps.of_pair (by with_reducible assumption) ?_
    | with_reducible refine Keeps.of_triple (by with_reducible assumption) ?_
    | dsimp only)

theorem State.setPaused_keeps {w₀ : Nat} {s₀ s : State} (hw : Sub 0x40100000000 w₀) (n : Nat) (m : Nat) (h₀ : Keeps w₀ s₀ s) :
    Keeps w₀ s₀ (State.setPaused s n m) := by
  unfold State.setPaused
  repeat' (first
    | with_reducible assumption
    | with_reducible apply Keeps.wr
    | with_reducible apply State.ev_keeps
    | with_reducible exact Reg.fabDestStatusPaused_may hw rfl
    | exact hw.le rfl
    | with_reducible apply ResKeeps.next
    | with_reducible apply Keeps.each
    | with_reducible apply Keeps.when
    | with_reducible apply Keeps.foldl
    | split
    | intro _ _ _
    | intro _ _
    | intro _
    | with_reducible refine Keeps.of_pair (by with_reducible assumption) ?_
    | with_reducible refine Keeps.of_triple (by with_reducible assumption) ?_
    | dsimp only)

theorem State.streamReceived_keeps {w₀ : Nat} {s₀ s : State} (hw : Sub 0x170a0028000040101010000 w₀) (n : Nat) (payload : List Bool) (h₀ : Keeps w₀ s₀ s) :
    Keeps w₀ s₀ (State.streamReceived s n payload) := by
  unfold State.streamReceived
  repeat' (first
    | with_reducible assumption
    | with_reducible apply State.cutArrival_keeps
    | with_reducible apply State.setLn_keeps
    | (simp only [Keeps.mk_eq]; with_reducible apply KeepsMk.upd)
    | exact hw.le rfl
    | exact Or.inl (hw.bit rfl)
    | with_reducible exact Or.inr rfl
    | with_reducible apply ResKeeps.next
    | with_reducible apply Keeps.each
    | with_reducible apply Keeps.when
    | with_reducible apply Keeps.foldl
    | split
    | intro _ _ _
    | intro _ _
    | intro _
    | with_reducible refine Keeps.of_pair (by with_reducible assumption) ?_
    | with_reducible refine Keeps.of_triple (by with_reducible assumption) ?_
    | dsimp only)

theorem State.extReceived_keeps {w₀ : Nat} {s₀ s : State} (hw : Sub 0x1079006800004010000010e w₀) (n : Nat) (payload : List Bool) (timing : Bool) (h₀ : Keeps w₀ s₀ s) :
    Keeps w₀ s₀ (State.extReceived s n payload timing) := by
  unfold State.extReceived
  repeat' (first
    | with_reducible assumption
    | with_reducible apply Keeps.bump48
    | with_reducible apply State.setLn_keeps
    | with_reducible apply State.laneFlag_keeps
    | with_reducible apply State.qlReceived_keeps
    | with_reducible apply State.setPaused_keeps
    | with_reducible exact Reg.laneErrExtChk_may hw rfl
    | with_reducible exact Reg.lanePrbsBitsLoCount_mayc hw rfl
    | with_reducible exact Reg.lanePrbsErrLoCount_mayc hw rfl
    | (simp only [Keeps.mk_eq]; with_reducible apply KeepsMk.upd)
    | exact hw.le rfl
    | exact Or.inl (hw.bit rfl)
    | with_reducible exact Or.inr rfl
    | with_reducible apply ResKeeps.next
    | with_reducible apply Keeps.each
    | with_reducible apply Keeps.when
    | with_reducible apply Keeps.foldl
    | split
    | intro _ _ _
    | intro _ _
    | intro _
    | with_reducible refine Keeps.of_pair (by with_reducible assumption) ?_
    | with_reducible refine Keeps.of_triple (by with_reducible assumption) ?_
    | dsimp only)

theorem State.markerError_keeps {w₀ : Nat} {s₀ s : State} (hw : Sub 0x1f7f006800004010101013e w₀) (n : Nat) (h₀ : Keeps w₀ s₀ s) :
    Keeps w₀ s₀ (State.markerError s n) := by
  unfold State.markerError
  repeat' (first
    | with_reducible assumption
    | with_reducible apply State.bump_keeps
    | with_reducible apply Keeps.bump48
    | with_reducible apply State.ev_keeps
    | with_reducible apply State.setLn_keeps
    | with_reducible apply State.laneFlag_keeps
    | with_reducible apply State.laneToAlign_keeps
    | with_reducible exact Reg.laneErrMarker_may hw rfl
    | with_reducible exact Reg.laneEventsAlignLoss_may hw rfl
    | with_reducible exact Reg.laneMarkErrLoCount_mayc hw rfl
    | (simp only [Keeps.mk_eq]; with_reducible apply KeepsMk.upd)
    | exact hw.le rfl
    | exact Or.inl (hw.bit rfl)
    | with_reducible exact Or.inr rfl
    | with_reducible apply ResKeeps.next
    | with_reducible apply Keeps.each
    | with_reducible apply Keeps.when
    | with_reducible apply Keeps.foldl
    | split
    | intro _ _ _
    | intro _ _
    | intro _
    | with_reducible refine Keeps.of_pair (by with_reducible assumption) ?_
    | with_reducible refine Keeps.of_triple (by with_reducible assumption) ?_
    | dsimp only)

theorem State.noTimingFrame_keeps {w₀ : Nat} {s₀ s : State} (hw : Sub 0x1f7e006800004010101013e w₀) (n : Nat) (h₀ : Keeps w₀ s₀ s) :
    Keeps w₀ s₀ (State.noTimingFrame s n) := by
  unfold State.noTimingFrame
  repeat' (first
    | with_reducible assumption
    | with_reducible apply State.ttKeep_keeps
    | with_reducible apply State.setLn_keeps
    | with_reducible apply State.laneToVerify_keeps
    | (simp only [Keeps.mk_eq]; with_reducible apply KeepsMk.upd)
    | exact hw.le rfl
    | exact Or.inl (hw.bit rfl)
    | with_reducible exact Or.inr rfl
    | with_reducible apply ResKeeps.next
    | with_reducible apply Keeps.each
    | with_reducible apply Keeps.when
    | with_reducible apply Keeps.foldl
    | split
    | intro _ _ _
    | intro _ _
    | intro _
    | with_reducible refine Keeps.of_pair (by with_reducible assumption) ?_
    | with_reducible refine Keeps.of_triple (by with_reducible assumption) ?_
    | dsimp only)

theorem State.lineBits_keeps {w₀ : Nat} {s₀ s : State} (hw : Sub 0x10010000000040000000100 w₀) (n : Nat) (bits : List Bool) (h₀ : Keeps w₀ s₀ s) :
    Keeps w₀ s₀ (State.lineBits s n bits).2.2.2 := by
  unfold State.lineBits
  repeat' (first
    | with_reducible assumption
    | with_reducible apply Keeps.bump48
    | with_reducible apply State.evN_keeps
    | with_reducible apply State.setLn_keeps
    | with_reducible apply State.laneFlag_keeps
    | with_reducible exact Reg.laneErrStuffViol_may hw rfl
    | with_reducible exact Reg.laneStuffRxLoCount_mayc hw rfl
    | with_reducible exact Reg.laneStuffViolLoCount_mayc hw rfl
    | (simp only [Keeps.mk_eq]; with_reducible apply KeepsMk.upd)
    | exact hw.le rfl
    | exact Or.inl (hw.bit rfl)
    | with_reducible exact Or.inr rfl
    | with_reducible apply ResKeeps.next
    | with_reducible apply Keeps.each
    | with_reducible apply Keeps.when
    | with_reducible apply Keeps.foldl
    | split
    | intro _ _ _
    | intro _ _
    | intro _
    | with_reducible refine Keeps.of_pair (by with_reducible assumption) ?_
    | with_reducible refine Keeps.of_triple (by with_reducible assumption) ?_
    | dsimp only)

theorem State.superblockBad_keeps {w₀ : Nat} {s₀ s : State} (hw : Sub 0x1f7f006800004010101013e w₀) (n : Nat) (want : Nat) (payload : List Bool) (h₀ : Keeps w₀ s₀ s) :
    Keeps w₀ s₀ (State.superblockBad s n want payload) := by
  unfold State.superblockBad
  repeat' (first
    | with_reducible assumption
    | with_reducible apply State.streamReceived_keeps
    | with_reducible apply State.extReceived_keeps
    | with_reducible apply State.markerError_keeps
    | with_reducible apply State.noTimingFrame_keeps
    | exact hw.le rfl
    | with_reducible apply ResKeeps.next
    | with_reducible apply Keeps.each
    | with_reducible apply Keeps.when
    | with_reducible apply Keeps.foldl
    | split
    | intro _ _ _
    | intro _ _
    | intro _
    | with_reducible refine Keeps.of_pair (by with_reducible assumption) ?_
    | with_reducible refine Keeps.of_triple (by with_reducible assumption) ?_
    | dsimp only)

theorem State.superblockGood_keeps {w₀ : Nat} {s₀ s : State} (hw : Sub 0x1f7f006800004010101013e w₀) (n : Nat) (msn : Nat) (payload : List Bool) (h₀ : Keeps w₀ s₀ s) :
    Keeps w₀ s₀ (State.superblockGood s n msn payload) := by
  unfold State.superblockGood
  repeat' (first
    | with_reducible assumption
    | with_reducible apply State.laneFlag_keeps
    | with_reducible apply State.laneUpCheck_keeps
    | with_reducible apply State.streamReceived_keeps
    | with_reducible apply State.extReceived_keeps
    | with_reducible apply State.noTimingFrame_keeps
    | with_reducible exact Reg.laneErrTfCrc_may hw rfl
    | exact hw.le rfl
    | with_reducible apply ResKeeps.next
    | with_reducible apply Keeps.each
    | with_reducible apply Keeps.when
    | with_reducible apply Keeps.foldl
    | split
    | intro _ _ _
    | intro _ _
    | intro _
    | with_reducible refine Keeps.of_pair (by with_reducible assumption) ?_
    | with_reducible refine Keeps.of_triple (by with_reducible assumption) ?_
    | dsimp only)

theorem State.daStamps_keeps {w₀ : Nat} {s₀ s : State} (hw : Sub 0x10000000000000000000000 w₀) (n : Nat) (bitPos : Nat) (edges : Nat × Nat) (place : Nat → Nat) (h₀ : Keeps w₀ s₀ s) :
    Keeps w₀ s₀ (State.daStamps s n bitPos edges place) := by
  unfold State.daStamps
  repeat' (first
    | with_reducible assumption
    | with_reducible apply State.setLn_keeps
    | (simp only [Keeps.mk_eq]; with_reducible apply KeepsMk.upd)
    | exact hw.le rfl
    | exact Or.inl (hw.bit rfl)
    | with_reducible exact Or.inr rfl
    | with_reducible apply ResKeeps.next
    | with_reducible apply Keeps.each
    | with_reducible apply Keeps.when
    | with_reducible apply Keeps.foldl
    | split
    | intro _ _ _
    | intro _ _
    | intro _
    | with_reducible refine Keeps.of_pair (by with_reducible assumption) ?_
    | with_reducible refine Keeps.of_triple (by with_reducible assumption) ?_
    | dsimp only)

theorem State.daTaken_keeps {w₀ : Nat} {s₀ s : State} (hw : Sub 0x10000000000000000000000 w₀) (n : Nat) (h₀ : Keeps w₀ s₀ s) :
    Keeps w₀ s₀ (State.daTaken s n) := by
  unfold State.daTaken
  repeat' (first
    | with_reducible assumption
    | with_reducible apply State.setLn_keeps
    | (simp only [Keeps.mk_eq]; with_reducible apply KeepsMk.upd)
    | exact hw.le rfl
    | exact Or.inl (hw.bit rfl)
    | with_reducible exact Or.inr rfl
    | with_reducible apply ResKeeps.next
    | with_reducible apply Keeps.each
    | with_reducible apply Keeps.when
    | with_reducible apply Keeps.foldl
    | split
    | intro _ _ _
    | intro _ _
    | intro _
    | with_reducible refine Keeps.of_pair (by with_reducible assumption) ?_
    | with_reducible refine Keeps.of_triple (by with_reducible assumption) ?_
    | dsimp only)

theorem execSuperblockReceived_keeps {w₀ : Nat} {s₀ s : State} (hw : Sub 0x1f7f006800004010101013e w₀) (lane : Fin 128) (bits : List Bool) (cycle : Nat) (bitPos : Nat) (edges : Nat × Nat) (h₀ : Keeps w₀ s₀ s) :
    ResKeeps w₀ s₀ (execSuperblockReceived lane bits cycle bitPos edges s) := by
  unfold execSuperblockReceived
  repeat' (first
    | with_reducible assumption
    | with_reducible apply Keeps.wr
    | with_reducible apply State.ttRxMark_keeps
    | with_reducible apply State.ttKeep_keeps
    | with_reducible apply State.setLn_keeps
    | with_reducible apply State.lineBits_keeps
    | with_reducible apply State.superblockBad_keeps
    | with_reducible apply State.superblockGood_keeps
    | with_reducible apply State.daStamps_keeps
    | with_reducible exact Reg.laneManStatusMarkerSeen_may hw rfl
    | with_reducible exact Reg.laneStateQuietRx_may hw rfl
    | (simp only [Keeps.mk_eq]; with_reducible apply KeepsMk.upd)
    | exact hw.le rfl
    | exact Or.inl (hw.bit rfl)
    | with_reducible exact Or.inr rfl
    | with_reducible apply ResKeeps.next
    | with_reducible apply Keeps.each
    | with_reducible apply Keeps.when
    | with_reducible apply Keeps.foldl
    | split
    | intro _ _ _
    | intro _ _
    | intro _
    | with_reducible refine Keeps.of_pair (by with_reducible assumption) ?_
    | with_reducible refine Keeps.of_triple (by with_reducible assumption) ?_
    | dsimp only)

theorem execTimingFrameReceived_keeps {w₀ : Nat} {s₀ s : State} (hw : Sub 0x1f7e006800004010101013e w₀) (lane : Fin 128) (frame : List Byte) (h₀ : Keeps w₀ s₀ s) :
    ResKeeps w₀ s₀ (execTimingFrameReceived lane frame s) := by
  unfold execTimingFrameReceived
  repeat' (first
    | with_reducible assumption
    | with_reducible apply Keeps.wr
    | with_reducible apply State.ttRecv_keeps
    | with_reducible apply State.setLn_keeps
    | with_reducible apply State.laneToVerify_keeps
    | with_reducible apply State.laneUpCheck_keeps
    | with_reducible exact Reg.lanePrbsStatusLock_may hw rfl
    | with_reducible exact Reg.laneStateQuietRx_may hw rfl
    | (simp only [Keeps.mk_eq]; with_reducible apply KeepsMk.upd)
    | exact hw.le rfl
    | exact Or.inl (hw.bit rfl)
    | with_reducible exact Or.inr rfl
    | with_reducible apply ResKeeps.next
    | with_reducible apply Keeps.each
    | with_reducible apply Keeps.when
    | with_reducible apply Keeps.foldl
    | split
    | intro _ _ _
    | intro _ _
    | intro _
    | with_reducible refine Keeps.of_pair (by with_reducible assumption) ?_
    | with_reducible refine Keeps.of_triple (by with_reducible assumption) ?_
    | dsimp only)

theorem execQuietEntry_keeps {w₀ : Nat} {s₀ s : State} (hw : Sub 0x10000000000000000000000 w₀) (lane : Fin 128) (h₀ : Keeps w₀ s₀ s) :
    ResKeeps w₀ s₀ (execQuietEntry lane s) := by
  unfold execQuietEntry
  repeat' (first
    | with_reducible assumption
    | with_reducible apply State.setLn_keeps
    | (simp only [Keeps.mk_eq]; with_reducible apply KeepsMk.upd)
    | exact hw.le rfl
    | exact Or.inl (hw.bit rfl)
    | with_reducible exact Or.inr rfl
    | with_reducible apply ResKeeps.next
    | with_reducible apply Keeps.each
    | with_reducible apply Keeps.when
    | with_reducible apply Keeps.foldl
    | split
    | intro _ _ _
    | intro _ _
    | intro _
    | with_reducible refine Keeps.of_pair (by with_reducible assumption) ?_
    | with_reducible refine Keeps.of_triple (by with_reducible assumption) ?_
    | dsimp only)

theorem execQuietExitRequest_keeps {w₀ : Nat} {s₀ s : State} (hw : Sub 0x10000000000000000000000 w₀) (lane : Fin 128) (h₀ : Keeps w₀ s₀ s) :
    ResKeeps w₀ s₀ (execQuietExitRequest lane s) := by
  unfold execQuietExitRequest
  repeat' (first
    | with_reducible assumption
    | with_reducible apply State.setLn_keeps
    | (simp only [Keeps.mk_eq]; with_reducible apply KeepsMk.upd)
    | exact hw.le rfl
    | exact Or.inl (hw.bit rfl)
    | with_reducible exact Or.inr rfl
    | with_reducible apply ResKeeps.next
    | with_reducible apply Keeps.each
    | with_reducible apply Keeps.when
    | with_reducible apply Keeps.foldl
    | split
    | intro _ _ _
    | intro _ _
    | intro _
    | with_reducible refine Keeps.of_pair (by with_reducible assumption) ?_
    | with_reducible refine Keeps.of_triple (by with_reducible assumption) ?_
    | dsimp only)

theorem execQuietBurstStart_keeps {w₀ : Nat} {s₀ s : State} (hw : Sub 0x10000020000000000000000 w₀) (lane : Fin 128) (h₀ : Keeps w₀ s₀ s) :
    ResKeeps w₀ s₀ (execQuietBurstStart lane s) := by
  unfold execQuietBurstStart
  repeat' (first
    | with_reducible assumption
    | with_reducible apply State.setLn_keeps
    | with_reducible apply State.burst_keeps
    | (simp only [Keeps.mk_eq]; with_reducible apply KeepsMk.upd)
    | exact hw.le rfl
    | exact Or.inl (hw.bit rfl)
    | with_reducible exact Or.inr rfl
    | with_reducible apply ResKeeps.next
    | with_reducible apply Keeps.each
    | with_reducible apply Keeps.when
    | with_reducible apply Keeps.foldl
    | split
    | intro _ _ _
    | intro _ _
    | intro _
    | with_reducible refine Keeps.of_pair (by with_reducible assumption) ?_
    | with_reducible refine Keeps.of_triple (by with_reducible assumption) ?_
    | dsimp only)

theorem execQuietWakeTimer_keeps {w₀ : Nat} {s₀ s : State} (hw : Sub 0x10000000000000000000000 w₀) (lane : Fin 128) (h₀ : Keeps w₀ s₀ s) :
    ResKeeps w₀ s₀ (execQuietWakeTimer lane s) := by
  unfold execQuietWakeTimer
  repeat' (first
    | with_reducible assumption
    | with_reducible apply State.setLn_keeps
    | (simp only [Keeps.mk_eq]; with_reducible apply KeepsMk.upd)
    | exact hw.le rfl
    | exact Or.inl (hw.bit rfl)
    | with_reducible exact Or.inr rfl
    | with_reducible apply ResKeeps.next
    | with_reducible apply Keeps.each
    | with_reducible apply Keeps.when
    | with_reducible apply Keeps.foldl
    | split
    | intro _ _ _
    | intro _ _
    | intro _
    | with_reducible refine Keeps.of_pair (by with_reducible assumption) ?_
    | with_reducible refine Keeps.of_triple (by with_reducible assumption) ?_
    | dsimp only)

theorem execLaneHealthWindow_keeps {w₀ : Nat} {s₀ s : State} (hw : Sub 0x10000000000010000000100 w₀) (lane : Fin 128) (h₀ : Keeps w₀ s₀ s) :
    ResKeeps w₀ s₀ (execLaneHealthWindow lane s) := by
  unfold execLaneHealthWindow
  repeat' (first
    | with_reducible assumption
    | with_reducible apply Keeps.wr
    | with_reducible apply State.memberStart_keeps
    | with_reducible apply State.setLn_keeps
    | with_reducible exact Reg.laneStateHealth_may hw rfl
    | (simp only [Keeps.mk_eq]; with_reducible apply KeepsMk.upd)
    | exact hw.le rfl
    | exact Or.inl (hw.bit rfl)
    | with_reducible exact Or.inr rfl
    | with_reducible apply ResKeeps.next
    | with_reducible apply Keeps.each
    | with_reducible apply Keeps.when
    | with_reducible apply Keeps.foldl
    | split
    | intro _ _ _
    | intro _ _
    | intro _
    | with_reducible refine Keeps.of_pair (by with_reducible assumption) ?_
    | with_reducible refine Keeps.of_triple (by with_reducible assumption) ?_
    | dsimp only)

theorem execPrbsClear_keeps {w₀ : Nat} {s₀ s : State} (hw : Sub 0x100 w₀) (lane : Fin 128) (h₀ : Keeps w₀ s₀ s) :
    ResKeeps w₀ s₀ (execPrbsClear lane s) := by
  unfold execPrbsClear
  repeat' (first
    | with_reducible assumption
    | with_reducible apply Keeps.zero48
    | with_reducible exact Reg.lanePrbsBitsLoCount_mayc hw rfl
    | with_reducible exact Reg.lanePrbsErrLoCount_mayc hw rfl
    | exact hw.le rfl
    | with_reducible apply ResKeeps.next
    | with_reducible apply Keeps.each
    | with_reducible apply Keeps.when
    | with_reducible apply Keeps.foldl
    | split
    | intro _ _ _
    | intro _ _
    | intro _
    | with_reducible refine Keeps.of_pair (by with_reducible assumption) ?_
    | with_reducible refine Keeps.of_triple (by with_reducible assumption) ?_
    | dsimp only)

theorem execPrbsCheckerBlock_keeps {w₀ : Nat} {s₀ s : State} (hw : Sub 0x10000020000000000000100 w₀) (lane : Fin 128) (seed : Fin 2147483648) (bits : List Bool) (h₀ : Keeps w₀ s₀ s) :
    ResKeeps w₀ s₀ (execPrbsCheckerBlock lane seed bits s) := by
  unfold execPrbsCheckerBlock
  repeat' (first
    | with_reducible assumption
    | with_reducible apply Keeps.wr
    | with_reducible apply Keeps.bump48
    | with_reducible apply State.setLn_keeps
    | with_reducible apply State.sendLine_keeps
    | with_reducible exact Reg.lanePrbsStatusLock_may hw rfl
    | with_reducible exact Reg.lanePrbsBitsLoCount_mayc hw rfl
    | with_reducible exact Reg.lanePrbsErrLoCount_mayc hw rfl
    | (simp only [Keeps.mk_eq]; with_reducible apply KeepsMk.upd)
    | exact hw.le rfl
    | exact Or.inl (hw.bit rfl)
    | with_reducible exact Or.inr rfl
    | with_reducible apply ResKeeps.next
    | with_reducible apply Keeps.each
    | with_reducible apply Keeps.when
    | with_reducible apply Keeps.foldl
    | split
    | intro _ _ _
    | intro _ _
    | intro _
    | with_reducible refine Keeps.of_pair (by with_reducible assumption) ?_
    | with_reducible refine Keeps.of_triple (by with_reducible assumption) ?_
    | dsimp only)

theorem State.manResult_keeps {w₀ : Nat} {s₀ s : State} (hw : Sub 0x100 w₀) (n : Nat) (r : Nat) (h₀ : Keeps w₀ s₀ s) :
    Keeps w₀ s₀ (State.manResult s n r) := by
  unfold State.manResult
  repeat' (first
    | with_reducible assumption
    | with_reducible apply Keeps.wr
    | with_reducible exact Reg.laneManStatusResult_may hw rfl
    | exact hw.le rfl
    | with_reducible apply ResKeeps.next
    | with_reducible apply Keeps.each
    | with_reducible apply Keeps.when
    | with_reducible apply Keeps.foldl
    | split
    | intro _ _ _
    | intro _ _
    | intro _
    | with_reducible refine Keeps.of_pair (by with_reducible assumption) ?_
    | with_reducible refine Keeps.of_triple (by with_reducible assumption) ?_
    | dsimp only)

theorem State.laneRelease_keeps {w₀ : Nat} {s₀ s : State} (hw : Sub 0x1f7e006800004010101013e w₀) (n : Nat) (h₀ : Keeps w₀ s₀ s) :
    Keeps w₀ s₀ (State.laneRelease s n) := by
  unfold State.laneRelease
  repeat' (first
    | with_reducible assumption
    | with_reducible apply State.laneToDetect_keeps
    | exact hw.le rfl
    | with_reducible apply ResKeeps.next
    | with_reducible apply Keeps.each
    | with_reducible apply Keeps.when
    | with_reducible apply Keeps.foldl
    | split
    | intro _ _ _
    | intro _ _
    | intro _
    | with_reducible refine Keeps.of_pair (by with_reducible assumption) ?_
    | with_reducible refine Keeps.of_triple (by with_reducible assumption) ?_
    | dsimp only)

theorem execLaneManNop_keeps {w₀ : Nat} {s₀ s : State} (hw : Sub 0x100 w₀) (lane : Fin 128) (h₀ : Keeps w₀ s₀ s) :
    ResKeeps w₀ s₀ (execLaneManNop lane s) := by
  unfold execLaneManNop
  repeat' (first
    | with_reducible assumption
    | with_reducible apply State.manResult_keeps
    | exact hw.le rfl
    | with_reducible apply ResKeeps.next
    | with_reducible apply Keeps.each
    | with_reducible apply Keeps.when
    | with_reducible apply Keeps.foldl
    | split
    | intro _ _ _
    | intro _ _
    | intro _
    | with_reducible refine Keeps.of_pair (by with_reducible assumption) ?_
    | with_reducible refine Keeps.of_triple (by with_reducible assumption) ?_
    | dsimp only)

theorem execLaneManualTrain_keeps {w₀ : Nat} {s₀ s : State} (hw : Sub 0x1f7e006800004010101013e w₀) (lane : Fin 128) (gen : Fin 65536) (h₀ : Keeps w₀ s₀ s) :
    ResKeeps w₀ s₀ (execLaneManualTrain lane gen s) := by
  unfold execLaneManualTrain
  repeat' (first
    | with_reducible assumption
    | with_reducible apply Keeps.wr
    | with_reducible apply State.setLn_keeps
    | with_reducible apply State.updHeld_keeps
    | with_reducible apply State.manResult_keeps
    | with_reducible apply State.laneRelease_keeps
    | with_reducible exact Reg.laneStateManual_may hw rfl
    | (simp only [Keeps.mk_eq]; with_reducible apply KeepsMk.upd)
    | exact hw.le rfl
    | exact Or.inl (hw.bit rfl)
    | with_reducible exact Or.inr rfl
    | with_reducible apply ResKeeps.next
    | with_reducible apply Keeps.each
    | with_reducible apply Keeps.when
    | with_reducible apply Keeps.foldl
    | split
    | intro _ _ _
    | intro _ _
    | intro _
    | with_reducible refine Keeps.of_pair (by with_reducible assumption) ?_
    | with_reducible refine Keeps.of_triple (by with_reducible assumption) ?_
    | dsimp only)

theorem execLaneSlip_keeps {w₀ : Nat} {s₀ s : State} (hw : Sub 0x100 w₀) (lane : Fin 128) (gen : Fin 65536) (h₀ : Keeps w₀ s₀ s) :
    ResKeeps w₀ s₀ (execLaneSlip lane gen s) := by
  unfold execLaneSlip
  repeat' (first
    | with_reducible assumption
    | with_reducible apply State.wrs_keeps
    | with_reducible apply State.manResult_keeps
    | with_reducible exact Reg.laneManStatusMarkerSeen_may hw rfl
    | with_reducible exact Reg.laneStateSlip_may hw rfl
    | with_reducible exact AllMay.nil _
    | with_reducible apply AllMay.cons
    | with_reducible apply AllMay.append
    | with_reducible apply AllMay.map
    | exact hw.le rfl
    | with_reducible apply ResKeeps.next
    | with_reducible apply Keeps.each
    | with_reducible apply Keeps.when
    | with_reducible apply Keeps.foldl
    | split
    | intro _ _ _
    | intro _ _
    | intro _
    | with_reducible refine Keeps.of_pair (by with_reducible assumption) ?_
    | with_reducible refine Keeps.of_triple (by with_reducible assumption) ?_
    | dsimp only)

theorem execLaneAccept_keeps {w₀ : Nat} {s₀ s : State} (hw : Sub 0x1f7e006800004010101013e w₀) (lane : Fin 128) (gen : Fin 65536) (h₀ : Keeps w₀ s₀ s) :
    ResKeeps w₀ s₀ (execLaneAccept lane gen s) := by
  unfold execLaneAccept
  repeat' (first
    | with_reducible assumption
    | with_reducible apply State.laneToVerify_keeps
    | with_reducible apply State.manResult_keeps
    | exact hw.le rfl
    | with_reducible apply ResKeeps.next
    | with_reducible apply Keeps.each
    | with_reducible apply Keeps.when
    | with_reducible apply Keeps.foldl
    | split
    | intro _ _ _
    | intro _ _
    | intro _
    | with_reducible refine Keeps.of_pair (by with_reducible assumption) ?_
    | with_reducible refine Keeps.of_triple (by with_reducible assumption) ?_
    | dsimp only)

theorem execLaneManReserved_keeps {w₀ : Nat} {s₀ s : State} (hw : Sub 0x100 w₀) (lane : Fin 128) (gen : Fin 65536) (h₀ : Keeps w₀ s₀ s) :
    ResKeeps w₀ s₀ (execLaneManReserved lane gen s) := by
  unfold execLaneManReserved
  repeat' (first
    | with_reducible assumption
    | with_reducible apply State.manResult_keeps
    | exact hw.le rfl
    | with_reducible apply ResKeeps.next
    | with_reducible apply Keeps.each
    | with_reducible apply Keeps.when
    | with_reducible apply Keeps.foldl
    | split
    | intro _ _ _
    | intro _ _
    | intro _
    | with_reducible refine Keeps.of_pair (by with_reducible assumption) ?_
    | with_reducible refine Keeps.of_triple (by with_reducible assumption) ?_
    | dsimp only)

theorem applyLanes_keeps {w₀ : Nat} {s₀ s : State} (hw : Sub 0x100 w₀) (v : List Byte) (h₀ : Keeps w₀ s₀ s) :
    Keeps w₀ s₀ (applyLanes v s) := by
  unfold applyLanes
  repeat' (first
    | with_reducible assumption
    | with_reducible apply State.wrs_keeps
    | with_reducible exact Reg.laneCfgIdleEn_may hw rfl
    | with_reducible exact Reg.laneCfgManualAllow_may hw rfl
    | with_reducible exact Reg.laneCfgMode_may hw rfl
    | with_reducible exact Reg.laneCfgPolRx_may hw rfl
    | with_reducible exact Reg.laneCfgPolTx_may hw rfl
    | with_reducible exact Reg.laneCfgQrate_may hw rfl
    | with_reducible exact Reg.laneCfgSelftest_may hw rfl
    | with_reducible exact Reg.laneHlthCfgFillExp_may hw rfl
    | with_reducible exact Reg.laneHlthCfgIdleUs_may hw rfl
    | with_reducible exact Reg.laneHlthCfgMarkLim_may hw rfl
    | with_reducible exact Reg.laneTxeqPost_may hw rfl
    | with_reducible exact Reg.laneTxeqPre_may hw rfl
    | with_reducible exact Reg.laneTxeqSwing_may hw rfl
    | with_reducible exact AllMay.nil _
    | with_reducible apply AllMay.cons
    | with_reducible apply AllMay.append
    | with_reducible apply AllMay.map
    | exact hw.le rfl
    | with_reducible apply ResKeeps.next
    | with_reducible apply Keeps.each
    | with_reducible apply Keeps.when
    | with_reducible apply Keeps.foldl
    | split
    | intro _ _ _
    | intro _ _
    | intro _
    | with_reducible refine Keeps.of_pair (by with_reducible assumption) ?_
    | with_reducible refine Keeps.of_triple (by with_reducible assumption) ?_
    | dsimp only)

end Sys2Proof.Machine
end

