-- ==== Sys2Proof/Laws/KeepPorts.lean ====
section
/-! SUPPORT. What the operations of Machine/Ports.lean keep. -/

set_option linter.all false
set_option Elab.async false

namespace Sys2Proof.Machine

theorem State.portFlag_keeps {w₀ : Nat} {s₀ s : State} (hw : Sub 0x10000000000000000000 w₀) (n : Nat) (f : Fld) (hf_f : may w₀ f.key = true) (h₀ : Keeps w₀ s₀ s) :
    Keeps w₀ s₀ (State.portFlag s n f) := by
  unfold State.portFlag
  repeat' (first
    | with_reducible assumption
    | with_reducible apply Keeps.wr
    | with_reducible apply State.report_keeps
    | exact hw.le rfl
    | with_reducible apply ResKeeps.next
    | with_reducible apply Keeps.each
    | with_reducible apply Keeps.when
    | with_reducible apply Keeps.foldl
    | split
    | intro _ _ _
    | intro _ _
    | intro _
    | with_reducible refine Keeps.of_pair (by with_reducible assumption) ?_
    | with_reducible refine Keeps.of_triple (by with_reducible assumption) ?_
    | dsimp only)

theorem State.portGo_keeps {w₀ : Nat} {s₀ s : State} (hw : Sub 0x377a006800005010101000e w₀) (n : Nat) (st : Nat) (h₀ : Keeps w₀ s₀ s) :
    Keeps w₀ s₀ (State.portGo s n st) := by
  unfold State.portGo
  repeat' (first
    | with_reducible assumption
    | with_reducible apply Keeps.wr
    | with_reducible apply State.intr_keeps
    | with_reducible apply State.rcsLost_keeps
    | with_reducible apply State.memberStart_keeps
    | with_reducible apply State.cutArrival_keeps
    | with_reducible apply State.linkLeft_keeps
    | with_reducible exact Reg.portLinkState_may hw rfl
    | (simp only [Keeps.mk_eq]; with_reducible apply KeepsMk.upd)
    | exact hw.le rfl
    | exact Or.inl (hw.bit rfl)
    | with_reducible exact Or.inr rfl
    | with_reducible apply ResKeeps.next
    | with_reducible apply Keeps.each
    | with_reducible apply Keeps.when
    | with_reducible apply Keeps.foldl
    | split
    | intro _ _ _
    | intro _ _
    | intro _
    | with_reducible refine Keeps.of_pair (by with_reducible assumption) ?_
    | with_reducible refine Keeps.of_triple (by with_reducible assumption) ?_
    | dsimp only)

theorem State.setRfault_keeps {w₀ : Nat} {s₀ s : State} (hw : Sub 0x20000000000000000000000 w₀) (n : Nat) (b : Bool) (h₀ : Keeps w₀ s₀ s) :
    Keeps w₀ s₀ (State.setRfault s n b) := by
  unfold State.setRfault
  repeat' (first
    | with_reducible assumption
    | (simp only [Keeps.mk_eq]; with_reducible apply KeepsMk.upd)
    | exact hw.le rfl
    | exact Or.inl (hw.bit rfl)
    | with_reducible exact Or.inr rfl
    | with_reducible apply ResKeeps.next
    | with_reducible apply Keeps.each
    | with_reducible apply Keeps.when
    | with_reducible apply Keeps.foldl
    | split
    | intro _ _ _
    | intro _ _
    | intro _
    | with_reducible refine Keeps.of_pair (by with_reducible assumption) ?_
    | with_reducible refine Keeps.of_triple (by with_reducible assumption) ?_
    | dsimp only)

theorem State.deskewMeasure_keeps {w₀ : Nat} {s₀ s : State} (hw : Sub 0x20000040000000000000000 w₀) (n : Nat) (h₀ : Keeps w₀ s₀ s) :
    Keeps w₀ s₀ (State.deskewMeasure s n) := by
  unfold State.deskewMeasure
  repeat' (first
    | with_reducible assumption
    | with_reducible apply State.draw_keeps
    | (simp only [Keeps.mk_eq]; with_reducible apply KeepsMk.upd)
    | exact hw.le rfl
    | exact Or.inl (hw.bit rfl)
    | with_reducible exact Or.inr rfl
    | with_reducible apply ResKeeps.next
    | with_reducible apply Keeps.each
    | with_reducible apply Keeps.when
    | with_reducible apply Keeps.foldl
    | split
    | intro _ _ _
    | intro _ _
    | intro _
    | with_reducible refine Keeps.of_pair (by with_reducible assumption) ?_
    | with_reducible refine Keeps.of_triple (by with_reducible assumption) ?_
    | dsimp only)

theorem State.portTry_keeps {w₀ : Nat} {s₀ s : State} (hw : Sub 0x377a006800005010101000e w₀) (n : Nat) (h₀ : Keeps w₀ s₀ s) :
    Keeps w₀ s₀ (State.portTry s n) := by
  unfold State.portTry
  repeat' (first
    | with_reducible assumption
    | with_reducible apply State.portGo_keeps
    | with_reducible apply State.setRfault_keeps
    | exact hw.le rfl
    | with_reducible apply ResKeeps.next
    | with_reducible apply Keeps.each
    | with_reducible apply Keeps.when
    | with_reducible apply Keeps.foldl
    | split
    | intro _ _ _
    | intro _ _
    | intro _
    | with_reducible refine Keeps.of_pair (by with_reducible assumption) ?_
    | with_reducible refine Keeps.of_triple (by with_reducible assumption) ?_
    | dsimp only)

theorem State.portToOff_keeps {w₀ : Nat} {s₀ s : State} (hw : Sub 0x377a006800005010101000e w₀) (n : Nat) (h₀ : Keeps w₀ s₀ s) :
    Keeps w₀ s₀ (State.portToOff s n) := by
  unfold State.portToOff
  repeat' (first
    | with_reducible assumption
    | with_reducible apply State.portGo_keeps
    | exact hw.le rfl
    | with_reducible apply ResKeeps.next
    | with_reducible apply Keeps.each
    | with_reducible apply Keeps.when
    | with_reducible apply Keeps.foldl
    | split
    | intro _ _ _
    | intro _ _
    | intro _
    | with_reducible refine Keeps.of_pair (by with_reducible assumption) ?_
    | with_reducible refine Keeps.of_triple (by with_reducible assumption) ?_
    | dsimp only)

theorem execPortLockAchieved_keeps {w₀ : Nat} {s₀ s : State} (hw : Sub 0x377a006800005010101000e w₀) (port : Fin 128) (h₀ : Keeps w₀ s₀ s) :
    ResKeeps w₀ s₀ (execPortLockAchieved port s) := by
  unfold execPortLockAchieved
  repeat' (first
    | with_reducible assumption
    | with_reducible apply State.portGo_keeps
    | with_reducible apply State.deskewMeasure_keeps
    | exact hw.le rfl
    | with_reducible apply ResKeeps.next
    | with_reducible apply Keeps.each
    | with_reducible apply Keeps.when
    | with_reducible apply Keeps.foldl
    | split
    | intro _ _ _
    | intro _ _
    | intro _
    | with_reducible refine Keeps.of_pair (by with_reducible assumption) ?_
    | with_reducible refine Keeps.of_triple (by with_reducible assumption) ?_
    | dsimp only)

theorem execPortLockTimeout_keeps {w₀ : Nat} {s₀ s : State} (hw : Sub 0x20010000000000000010000 w₀) (port : Fin 128) (h₀ : Keeps w₀ s₀ s) :
    ResKeeps w₀ s₀ (execPortLockTimeout port s) := by
  unfold execPortLockTimeout
  repeat' (first
    | with_reducible assumption
    | with_reducible apply State.portFlag_keeps
    | with_reducible apply State.setRfault_keeps
    | with_reducible exact Reg.portErrLockTimeout_may hw rfl
    | exact hw.le rfl
    | with_reducible apply ResKeeps.next
    | with_reducible apply Keeps.each
    | with_reducible apply Keeps.when
    | with_reducible apply Keeps.foldl
    | split
    | intro _ _ _
    | intro _ _
    | intro _
    | with_reducible refine Keeps.of_pair (by with_reducible assumption) ?_
    | with_reducible refine Keeps.of_triple (by with_reducible assumption) ?_
    | dsimp only)

theorem execPortRemoteFaultRx_keeps {w₀ : Nat} {s₀ s : State} (hw : Sub 0x377a006800005010101000e w₀) (port : Fin 128) (h₀ : Keeps w₀ s₀ s) :
    ResKeeps w₀ s₀ (execPortRemoteFaultRx port s) := by
  unfold execPortRemoteFaultRx
  repeat' (first
    | with_reducible assumption
    | with_reducible apply State.portGo_keeps
    | exact hw.le rfl
    | with_reducible apply ResKeeps.next
    | with_reducible apply Keeps.each
    | with_reducible apply Keeps.when
    | with_reducible apply Keeps.foldl
    | split
    | intro _ _ _
    | intro _ _
    | intro _
    | with_reducible refine Keeps.of_pair (by with_reducible assumption) ?_
    | with_reducible refine Keeps.of_triple (by with_reducible assumption) ?_
    | dsimp only)

theorem execPortRemoteFaultClear_keeps {w₀ : Nat} {s₀ s : State} (hw : Sub 0x377a006800005010101000e w₀) (port : Fin 128) (h₀ : Keeps w₀ s₀ s) :
    ResKeeps w₀ s₀ (execPortRemoteFaultClear port s) := by
  unfold execPortRemoteFaultClear
  repeat' (first
    | with_reducible assumption
    | with_reducible apply State.portGo_keeps
    | exact hw.le rfl
    | with_reducible apply ResKeeps.next
    | with_reducible apply Keeps.each
    | with_reducible apply Keeps.when
    | with_reducible apply Keeps.foldl
    | split
    | intro _ _ _
    | intro _ _
    | intro _
    | with_reducible refine Keeps.of_pair (by with_reducible assumption) ?_
    | with_reducible refine Keeps.of_triple (by with_reducible assumption) ?_
    | dsimp only)

theorem execPortLockLoss_keeps {w₀ : Nat} {s₀ s : State} (hw : Sub 0x377b006800005010101000e w₀) (port : Fin 128) (hiBer : Bool) (h₀ : Keeps w₀ s₀ s) :
    ResKeeps w₀ s₀ (execPortLockLoss port hiBer s) := by
  unfold execPortLockLoss
  repeat' (first
    | with_reducible assumption
    | with_reducible apply State.portFlag_keeps
    | with_reducible apply State.portGo_keeps
    | with_reducible apply State.setRfault_keeps
    | with_reducible exact Reg.portErrHiBer_may hw rfl
    | with_reducible exact Reg.portErrLockLoss_may hw rfl
    | exact hw.le rfl
    | with_reducible apply ResKeeps.next
    | with_reducible apply Keeps.each
    | with_reducible apply Keeps.when
    | with_reducible apply Keeps.foldl
    | split
    | intro _ _ _
    | intro _ _
    | intro _
    | with_reducible refine Keeps.of_pair (by with_reducible assumption) ?_
    | with_reducible refine Keeps.of_triple (by with_reducible assumption) ?_
    | dsimp only)

theorem execQuadPllLock_keeps {w₀ : Nat} {s₀ s : State} (hw : Sub 0x377b046800005010101010e w₀) (quad : Fin 32) (h₀ : Keeps w₀ s₀ s) :
    ResKeeps w₀ s₀ (execQuadPllLock quad s) := by
  unfold execQuadPllLock
  repeat' (first
    | with_reducible assumption
    | with_reducible apply Keeps.wr
    | with_reducible apply State.unreport_keeps
    | with_reducible apply State.portTry_keeps
    | with_reducible exact Reg.laneStateQpllLock_may hw rfl
    | (simp only [Keeps.mk_eq]; with_reducible apply KeepsMk.upd)
    | exact hw.le rfl
    | exact Or.inl (hw.bit rfl)
    | with_reducible exact Or.inr rfl
    | with_reducible apply ResKeeps.next
    | with_reducible apply Keeps.each
    | with_reducible apply Keeps.when
    | with_reducible apply Keeps.foldl
    | split
    | intro _ _ _
    | intro _ _
    | intro _
    | with_reducible refine Keeps.of_pair (by with_reducible assumption) ?_
    | with_reducible refine Keeps.of_triple (by with_reducible assumption) ?_
    | dsimp only)

theorem State.quadStop_keeps {w₀ : Nat} {s₀ s : State} (hw : Sub 0x3f7e006800005010101013e w₀) (q : Nat) (h₀ : Keeps w₀ s₀ s) :
    Keeps w₀ s₀ (State.quadStop s q) := by
  unfold State.quadStop
  repeat' (first
    | with_reducible assumption
    | with_reducible apply Keeps.wr
    | with_reducible apply State.laneToDown_keeps
    | with_reducible apply State.portToOff_keeps
    | with_reducible exact Reg.laneStateQpllLock_may hw rfl
    | exact hw.le rfl
    | with_reducible apply ResKeeps.next
    | with_reducible apply Keeps.each
    | with_reducible apply Keeps.when
    | with_reducible apply Keeps.foldl
    | split
    | intro _ _ _
    | intro _ _
    | intro _
    | with_reducible refine Keeps.of_pair (by with_reducible assumption) ?_
    | with_reducible refine Keeps.of_triple (by with_reducible assumption) ?_
    | dsimp only)

theorem execQuadPllUnlock_keeps {w₀ : Nat} {s₀ s : State} (hw : Sub 0x3f7f006800005010101013e w₀) (quad : Fin 32) (h₀ : Keeps w₀ s₀ s) :
    ResKeeps w₀ s₀ (execQuadPllUnlock quad s) := by
  unfold execQuadPllUnlock
  repeat' (first
    | with_reducible assumption
    | with_reducible apply State.report_keeps
    | with_reducible apply State.laneFlag_keeps
    | with_reducible apply State.quadStop_keeps
    | with_reducible exact Reg.laneErrQpllUnlock_may hw rfl
    | exact hw.le rfl
    | with_reducible apply ResKeeps.next
    | with_reducible apply Keeps.each
    | with_reducible apply Keeps.when
    | with_reducible apply Keeps.foldl
    | split
    | intro _ _ _
    | intro _ _
    | intro _
    | with_reducible refine Keeps.of_pair (by with_reducible assumption) ?_
    | with_reducible refine Keeps.of_triple (by with_reducible assumption) ?_
    | dsimp only)

theorem execLaneHold_keeps {w₀ : Nat} {s₀ s : State} (hw : Sub 0x3f7e006800005010101013e w₀) (lane : Fin 128) (gen : Fin 65536) (h₀ : Keeps w₀ s₀ s) :
    ResKeeps w₀ s₀ (execLaneHold lane gen s) := by
  unfold execLaneHold
  repeat' (first
    | with_reducible assumption
    | with_reducible apply Keeps.wr
    | with_reducible apply State.setLn_keeps
    | with_reducible apply State.updHeld_keeps
    | with_reducible apply State.laneToDown_keeps
    | with_reducible apply State.manResult_keeps
    | with_reducible apply State.portToOff_keeps
    | with_reducible exact Reg.laneStateManual_may hw rfl
    | (simp only [Keeps.mk_eq]; with_reducible apply KeepsMk.upd)
    | exact hw.le rfl
    | exact Or.inl (hw.bit rfl)
    | with_reducible exact Or.inr rfl
    | with_reducible apply ResKeeps.next
    | with_reducible apply Keeps.each
    | with_reducible apply Keeps.when
    | with_reducible apply Keeps.foldl
    | split
    | intro _ _ _
    | intro _ _
    | intro _
    | with_reducible refine Keeps.of_pair (by with_reducible assumption) ?_
    | with_reducible refine Keeps.of_triple (by with_reducible assumption) ?_
    | dsimp only)

theorem execLaneRelease_keeps {w₀ : Nat} {s₀ s : State} (hw : Sub 0x3f7e006800005010101013e w₀) (lane : Fin 128) (gen : Fin 65536) (h₀ : Keeps w₀ s₀ s) :
    ResKeeps w₀ s₀ (execLaneRelease lane gen s) := by
  unfold execLaneRelease
  repeat' (first
    | with_reducible assumption
    | with_reducible apply Keeps.wr
    | with_reducible apply State.setLn_keeps
    | with_reducible apply State.updHeld_keeps
    | with_reducible apply State.manResult_keeps
    | with_reducible apply State.laneRelease_keeps
    | with_reducible apply State.portTry_keeps
    | with_reducible exact Reg.laneStateManual_may hw rfl
    | (simp only [Keeps.mk_eq]; with_reducible apply KeepsMk.upd)
    | exact hw.le rfl
    | exact Or.inl (hw.bit rfl)
    | with_reducible exact Or.inr rfl
    | with_reducible apply ResKeeps.next
    | with_reducible apply Keeps.each
    | with_reducible apply Keeps.when
    | with_reducible apply Keeps.foldl
    | split
    | intro _ _ _
    | intro _ _
    | intro _
    | with_reducible refine Keeps.of_pair (by with_reducible assumption) ?_
    | with_reducible refine Keeps.of_triple (by with_reducible assumption) ?_
    | dsimp only)

theorem State.haltHold_keeps {w₀ : Nat} {s₀ s : State} (hw : Sub 0x3f7e006800005010101013e w₀) (n : Nat) (h₀ : Keeps w₀ s₀ s) :
    Keeps w₀ s₀ (State.haltHold s n) := by
  unfold State.haltHold
  repeat' (first
    | with_reducible assumption
    | with_reducible apply State.updHeld_keeps
    | with_reducible apply State.laneToDown_keeps
    | with_reducible apply State.portToOff_keeps
    | (simp only [Keeps.mk_eq]; with_reducible apply KeepsMk.upd)
    | exact hw.le rfl
    | exact Or.inl (hw.bit rfl)
    | with_reducible exact Or.inr rfl
    | with_reducible apply ResKeeps.next
    | with_reducible apply Keeps.each
    | with_reducible apply Keeps.when
    | with_reducible apply Keeps.foldl
    | split
    | intro _ _ _
    | intro _ _
    | intro _
    | with_reducible refine Keeps.of_pair (by with_reducible assumption) ?_
    | with_reducible refine Keeps.of_triple (by with_reducible assumption) ?_
    | dsimp only)

theorem State.haltRelease_keeps {w₀ : Nat} {s₀ s : State} (hw : Sub 0x3f7e006800005010101013e w₀) (n : Nat) (h₀ : Keeps w₀ s₀ s) :
    Keeps w₀ s₀ (State.haltRelease s n) := by
  unfold State.haltRelease
  repeat' (first
    | with_reducible assumption
    | with_reducible apply State.updHeld_keeps
    | with_reducible apply State.laneRelease_keeps
    | with_reducible apply State.portTry_keeps
    | (simp only [Keeps.mk_eq]; with_reducible apply KeepsMk.upd)
    | exact hw.le rfl
    | exact Or.inl (hw.bit rfl)
    | with_reducible exact Or.inr rfl
    | with_reducible apply ResKeeps.next
    | with_reducible apply Keeps.each
    | with_reducible apply Keeps.when
    | with_reducible apply Keeps.foldl
    | split
    | intro _ _ _
    | intro _ _
    | intro _
    | with_reducible refine Keeps.of_pair (by with_reducible assumption) ?_
    | with_reducible refine Keeps.of_triple (by with_reducible assumption) ?_
    | dsimp only)

theorem State.rxGood_keeps {w₀ : Nat} {s₀ s : State} (hw : Sub 0x1000000000040000010000 w₀) (n : Nat) (b : List Byte) (t : Nat) (h₀ : Keeps w₀ s₀ s) :
    Keeps w₀ s₀ (State.rxGood s n b t) := by
  unfold State.rxGood
  repeat' (first
    | with_reducible assumption
    | with_reducible apply Keeps.bump48
    | with_reducible apply State.fixedRx_keeps
    | with_reducible apply State.bwAdd_keeps
    | with_reducible exact Reg.portRxBytesLoCount_mayc hw rfl
    | with_reducible exact Reg.portRxFramesLoCount_mayc hw rfl
    | exact hw.le rfl
    | with_reducible apply ResKeeps.next
    | with_reducible apply Keeps.each
    | with_reducible apply Keeps.when
    | with_reducible apply Keeps.foldl
    | split
    | intro _ _ _
    | intro _ _
    | intro _
    | with_reducible refine Keeps.of_pair (by with_reducible assumption) ?_
    | with_reducible refine Keeps.of_triple (by with_reducible assumption) ?_
    | dsimp only)

theorem State.pfcReceived_keeps {w₀ : Nat} {s₀ s : State} (hw : Sub 0x20000000000040100010000 w₀) (n : Nat) (b : List Byte) (h₀ : Keeps w₀ s₀ s) :
    Keeps w₀ s₀ (State.pfcReceived s n b) := by
  unfold State.pfcReceived
  repeat' (first
    | with_reducible assumption
    | with_reducible apply Keeps.wr
    | with_reducible apply Keeps.bump48
    | with_reducible apply State.setPaused_keeps
    | with_reducible exact Reg.portLinkRxPaused_may hw rfl
    | with_reducible exact Reg.portRxCtrlDropLoCount_mayc hw rfl
    | with_reducible exact Reg.portRxPfcLoCount_mayc hw rfl
    | (simp only [Keeps.mk_eq]; with_reducible apply KeepsMk.upd)
    | exact hw.le rfl
    | exact Or.inl (hw.bit rfl)
    | with_reducible exact Or.inr rfl
    | with_reducible apply ResKeeps.next
    | with_reducible apply Keeps.each
    | with_reducible apply Keeps.when
    | with_reducible apply Keeps.foldl
    | split
    | intro _ _ _
    | intro _ _
    | intro _
    | with_reducible refine Keeps.of_pair (by with_reducible assumption) ?_
    | with_reducible refine Keeps.of_triple (by with_reducible assumption) ?_
    | dsimp only)

theorem State.esmcReceived_keeps {w₀ : Nat} {s₀ s : State} (hw : Sub 0x78006800000000001000e w₀) (n : Nat) (b : List Byte) (h₀ : Keeps w₀ s₀ s) :
    Keeps w₀ s₀ (State.esmcReceived s n b) := by
  unfold State.esmcReceived
  repeat' (first
    | with_reducible assumption
    | with_reducible apply State.wrs_keeps
    | with_reducible apply Keeps.bump48
    | with_reducible apply State.setCand_keeps
    | with_reducible apply State.rankChange_keeps
    | with_reducible exact Reg.portEsmcRxAgeS_may hw rfl
    | with_reducible exact Reg.portEsmcRxEnh_may hw rfl
    | with_reducible exact Reg.portEsmcRxSsm_may hw rfl
    | with_reducible exact Reg.portEsmcBadLoCount_mayc hw rfl
    | with_reducible exact AllMay.nil _
    | with_reducible apply AllMay.cons
    | with_reducible apply AllMay.append
    | with_reducible apply AllMay.map
    | (simp only [Keeps.mk_eq]; with_reducible apply KeepsMk.upd)
    | exact hw.le rfl
    | exact Or.inl (hw.bit rfl)
    | with_reducible exact Or.inr rfl
    | with_reducible apply ResKeeps.next
    | with_reducible apply Keeps.each
    | with_reducible apply Keeps.when
    | with_reducible apply Keeps.foldl
    | split
    | intro _ _ _
    | intro _ _
    | intro _
    | with_reducible refine Keeps.of_pair (by with_reducible assumption) ?_
    | with_reducible refine Keeps.of_triple (by with_reducible assumption) ?_
    | dsimp only)

theorem State.consume_keeps {w₀ : Nat} {s₀ s t : State} {n : Nat} {b : List Byte} (hw : Sub 0x2078006800004010001000e w₀)
    (e : State.consume s n b = some t) (h₀ : Keeps w₀ s₀ s) : Keeps w₀ s₀ t := by
  unfold State.consume at e
  split at e
  · split at e
    · cases e; exact State.pfcReceived_keeps (hw.le rfl) _ _ h₀
    · cases e; exact Keeps.bump48 _ _ (Reg.portRxCtrlDropLoCount_mayc hw rfl) h₀
  · split at e
    · cases e; exact State.esmcReceived_keeps (hw.le rfl) _ _ h₀
    · cases e


theorem State.macBad_keeps {w₀ : Nat} {s₀ s t : State} {n len : Nat} {fcs : Bool} (hw : Sub 0x10000 w₀)
    (e : State.macBad s n len fcs = some t) (h₀ : Keeps w₀ s₀ s) : Keeps w₀ s₀ t := by
  unfold State.macBad at e
  repeat' split at e
  · cases e; exact Keeps.bump48 _ _ (Reg.portRxUndersizeLoCount_mayc hw rfl) h₀
  · cases e; exact Keeps.bump48 _ _ (Reg.portRxOversizeLoCount_mayc hw rfl) h₀
  · cases e; exact Keeps.bump48 _ _ (Reg.portRxFcsErrLoCount_mayc hw rfl) h₀
  · cases e
theorem execPfcFrameReceived_keeps {w₀ : Nat} {s₀ s : State} (hw : Sub 0x21000000000040100010000 w₀) (port : Fin 128) (bytes : List Byte) (h₀ : Keeps w₀ s₀ s) :
    ResKeeps w₀ s₀ (execPfcFrameReceived port bytes s) := by
  unfold execPfcFrameReceived
  repeat' (first
    | with_reducible assumption
    | with_reducible apply State.rxGood_keeps
    | with_reducible apply State.pfcReceived_keeps
    | exact hw.le rfl
    | with_reducible apply ResKeeps.next
    | with_reducible apply Keeps.each
    | with_reducible apply Keeps.when
    | with_reducible apply Keeps.foldl
    | split
    | intro _ _ _
    | intro _ _
    | intro _
    | with_reducible refine Keeps.of_pair (by with_reducible assumption) ?_
    | with_reducible refine Keeps.of_triple (by with_reducible assumption) ?_
    | dsimp only
    | with_reducible refine State.macBad_keeps (w₀ := w₀) ?_ (by with_reducible assumption) ?_)

theorem execPfcPauseExpire_keeps {w₀ : Nat} {s₀ s : State} (hw : Sub 0x20000000000000100010000 w₀) (port : Fin 128) (tc : Fin 8) (h₀ : Keeps w₀ s₀ s) :
    ResKeeps w₀ s₀ (execPfcPauseExpire port tc s) := by
  unfold execPfcPauseExpire
  repeat' (first
    | with_reducible assumption
    | with_reducible apply Keeps.wr
    | with_reducible exact Reg.fabDestStatusPaused_may hw rfl
    | with_reducible exact Reg.portLinkRxPaused_may hw rfl
    | (simp only [Keeps.mk_eq]; with_reducible apply KeepsMk.upd)
    | exact hw.le rfl
    | exact Or.inl (hw.bit rfl)
    | with_reducible exact Or.inr rfl
    | with_reducible apply ResKeeps.next
    | with_reducible apply Keeps.each
    | with_reducible apply Keeps.when
    | with_reducible apply Keeps.foldl
    | split
    | intro _ _ _
    | intro _ _
    | intro _
    | with_reducible refine Keeps.of_pair (by with_reducible assumption) ?_
    | with_reducible refine Keeps.of_triple (by with_reducible assumption) ?_
    | dsimp only)

theorem State.portSend_keeps {w₀ : Nat} {s₀ s : State} (hw : Sub 0x20000000000010000 w₀) (n : Nat) (body : List Byte) (h₀ : Keeps w₀ s₀ s) :
    Keeps w₀ s₀ (State.portSend s n body) := by
  unfold State.portSend
  repeat' (first
    | with_reducible assumption
    | with_reducible apply Keeps.bump48
    | with_reducible apply State.send_keeps
    | with_reducible exact Reg.portTxBytesLoCount_mayc hw rfl
    | with_reducible exact Reg.portTxFramesLoCount_mayc hw rfl
    | exact hw.le rfl
    | with_reducible apply ResKeeps.next
    | with_reducible apply Keeps.each
    | with_reducible apply Keeps.when
    | with_reducible apply Keeps.foldl
    | split
    | intro _ _ _
    | intro _ _
    | intro _
    | with_reducible refine Keeps.of_pair (by with_reducible assumption) ?_
    | with_reducible refine Keeps.of_triple (by with_reducible assumption) ?_
    | dsimp only)

theorem State.ownSend_keeps {w₀ : Nat} {s₀ s : State} (hw : Sub 0x20000020000000000010000 w₀) (n : Nat) (h₀ : Keeps w₀ s₀ s) :
    Keeps w₀ s₀ (State.ownSend s n) := by
  unfold State.ownSend
  repeat' (first
    | with_reducible assumption
    | with_reducible apply State.portSend_keeps
    | (simp only [Keeps.mk_eq]; with_reducible apply KeepsMk.upd)
    | exact hw.le rfl
    | exact Or.inl (hw.bit rfl)
    | with_reducible exact Or.inr rfl
    | with_reducible apply ResKeeps.next
    | with_reducible apply Keeps.each
    | with_reducible apply Keeps.when
    | with_reducible apply Keeps.foldl
    | split
    | intro _ _ _
    | intro _ _
    | intro _
    | with_reducible refine Keeps.of_pair (by with_reducible assumption) ?_
    | with_reducible refine Keeps.of_triple (by with_reducible assumption) ?_
    | dsimp only)

theorem State.ownPush_keeps {w₀ : Nat} {s₀ s : State} (hw : Sub 0x20000020000000000010000 w₀) (n : Nat) (b : List Byte) (h₀ : Keeps w₀ s₀ s) :
    Keeps w₀ s₀ (State.ownPush s n b) := by
  unfold State.ownPush
  repeat' (first
    | with_reducible assumption
    | with_reducible apply State.ownSend_keeps
    | (simp only [Keeps.mk_eq]; with_reducible apply KeepsMk.upd)
    | exact hw.le rfl
    | exact Or.inl (hw.bit rfl)
    | with_reducible exact Or.inr rfl
    | with_reducible apply ResKeeps.next
    | with_reducible apply Keeps.each
    | with_reducible apply Keeps.when
    | with_reducible apply Keeps.foldl
    | split
    | intro _ _ _
    | intro _ _
    | intro _
    | with_reducible refine Keeps.of_pair (by with_reducible assumption) ?_
    | with_reducible refine Keeps.of_triple (by with_reducible assumption) ?_
    | dsimp only)

theorem execPfcFrameSend_keeps {w₀ : Nat} {s₀ s : State} (hw : Sub 0x24000020000000000010000 w₀) (port : Fin 128) (h₀ : Keeps w₀ s₀ s) :
    ResKeeps w₀ s₀ (execPfcFrameSend port s) := by
  unfold execPfcFrameSend
  repeat' (first
    | with_reducible assumption
    | with_reducible apply Keeps.bump48
    | with_reducible apply State.portSend_keeps
    | with_reducible apply State.ownSend_keeps
    | with_reducible exact Reg.portTxPfcLoCount_mayc hw rfl
    | (simp only [Keeps.mk_eq]; with_reducible apply KeepsMk.upd)
    | exact hw.le rfl
    | exact Or.inl (hw.bit rfl)
    | with_reducible exact Or.inr rfl
    | with_reducible apply ResKeeps.next
    | with_reducible apply Keeps.each
    | with_reducible apply Keeps.when
    | with_reducible apply Keeps.foldl
    | split
    | intro _ _ _
    | intro _ _
    | intro _
    | with_reducible refine Keeps.of_pair (by with_reducible assumption) ?_
    | with_reducible refine Keeps.of_triple (by with_reducible assumption) ?_
    | dsimp only)

theorem execPfcRepeatTimer_keeps {w₀ : Nat} {s₀ s : State} (hw : Sub 0x4000000000000000000000 w₀) (port : Fin 128) (h₀ : Keeps w₀ s₀ s) :
    ResKeeps w₀ s₀ (execPfcRepeatTimer port s) := by
  unfold execPfcRepeatTimer
  repeat' (first
    | with_reducible assumption
    | (simp only [Keeps.mk_eq]; with_reducible apply KeepsMk.upd)
    | exact hw.le rfl
    | exact Or.inl (hw.bit rfl)
    | with_reducible exact Or.inr rfl
    | with_reducible apply ResKeeps.next
    | with_reducible apply Keeps.each
    | with_reducible apply Keeps.when
    | with_reducible apply Keeps.foldl
    | split
    | intro _ _ _
    | intro _ _
    | intro _
    | with_reducible refine Keeps.of_pair (by with_reducible assumption) ?_
    | with_reducible refine Keeps.of_triple (by with_reducible assumption) ?_
    | dsimp only)

theorem execEsmcPduReceived_keeps {w₀ : Nat} {s₀ s : State} (hw : Sub 0x178006800004000001000e w₀) (port : Fin 128) (bytes : List Byte) (h₀ : Keeps w₀ s₀ s) :
    ResKeeps w₀ s₀ (execEsmcPduReceived port bytes s) := by
  unfold execEsmcPduReceived
  repeat' (first
    | with_reducible assumption
    | with_reducible apply Keeps.bump48
    | with_reducible apply State.rxGood_keeps
    | with_reducible apply State.esmcReceived_keeps
    | with_reducible exact Reg.portEsmcBadLoCount_mayc hw rfl
    | exact hw.le rfl
    | with_reducible apply ResKeeps.next
    | with_reducible apply Keeps.each
    | with_reducible apply Keeps.when
    | with_reducible apply Keeps.foldl
    | split
    | intro _ _ _
    | intro _ _
    | intro _
    | with_reducible refine Keeps.of_pair (by with_reducible assumption) ?_
    | with_reducible refine Keeps.of_triple (by with_reducible assumption) ?_
    | dsimp only
    | with_reducible refine State.macBad_keeps (w₀ := w₀) ?_ (by with_reducible assumption) ?_)

theorem execEsmcAgeTimeout_keeps {w₀ : Nat} {s₀ s : State} (hw : Sub 0x78006800000000000000e w₀) (port : Fin 128) (h₀ : Keeps w₀ s₀ s) :
    ResKeeps w₀ s₀ (execEsmcAgeTimeout port s) := by
  unfold execEsmcAgeTimeout
  repeat' (first
    | with_reducible assumption
    | with_reducible apply State.setCand_keeps
    | with_reducible apply State.rankChange_keeps
    | (simp only [Keeps.mk_eq]; with_reducible apply KeepsMk.upd)
    | exact hw.le rfl
    | exact Or.inl (hw.bit rfl)
    | with_reducible exact Or.inr rfl
    | with_reducible apply ResKeeps.next
    | with_reducible apply Keeps.each
    | with_reducible apply Keeps.when
    | with_reducible apply Keeps.foldl
    | split
    | intro _ _ _
    | intro _ _
    | intro _
    | with_reducible refine Keeps.of_pair (by with_reducible assumption) ?_
    | with_reducible refine Keeps.of_triple (by with_reducible assumption) ?_
    | dsimp only)

theorem State.esmcSend_keeps {w₀ : Nat} {s₀ s : State} (hw : Sub 0x20000020000000000010000 w₀) (event : Bool) (h₀ : Keeps w₀ s₀ s) :
    Keeps w₀ s₀ (State.esmcSend s event) := by
  unfold State.esmcSend
  repeat' (first
    | with_reducible assumption
    | with_reducible apply State.ownPush_keeps
    | exact hw.le rfl
    | with_reducible apply ResKeeps.next
    | with_reducible apply Keeps.each
    | with_reducible apply Keeps.when
    | with_reducible apply Keeps.foldl
    | split
    | intro _ _ _
    | intro _ _
    | intro _
    | with_reducible refine Keeps.of_pair (by with_reducible assumption) ?_
    | with_reducible refine Keeps.of_triple (by with_reducible assumption) ?_
    | dsimp only)

theorem execEsmcInfoTick_keeps {w₀ : Nat} {s₀ s : State} (hw : Sub 0x20000020000000000010000 w₀) (h₀ : Keeps w₀ s₀ s) :
    ResKeeps w₀ s₀ (execEsmcInfoTick s) := by
  unfold execEsmcInfoTick
  repeat' (first
    | with_reducible assumption
    | with_reducible apply State.esmcSend_keeps
    | exact hw.le rfl
    | with_reducible apply ResKeeps.next
    | with_reducible apply Keeps.each
    | with_reducible apply Keeps.when
    | with_reducible apply Keeps.foldl
    | split
    | intro _ _ _
    | intro _ _
    | intro _
    | with_reducible refine Keeps.of_pair (by with_reducible assumption) ?_
    | with_reducible refine Keeps.of_triple (by with_reducible assumption) ?_
    | dsimp only)

theorem execEsmcEventPdu_keeps {w₀ : Nat} {s₀ s : State} (hw : Sub 0x20100020000000000010000 w₀) (h₀ : Keeps w₀ s₀ s) :
    ResKeeps w₀ s₀ (execEsmcEventPdu s) := by
  unfold execEsmcEventPdu
  repeat' (first
    | with_reducible assumption
    | with_reducible apply State.esmcSend_keeps
    | (simp only [Keeps.mk_eq]; with_reducible apply KeepsMk.upd)
    | exact hw.le rfl
    | exact Or.inl (hw.bit rfl)
    | with_reducible exact Or.inr rfl
    | with_reducible apply ResKeeps.next
    | with_reducible apply Keeps.each
    | with_reducible apply Keeps.when
    | with_reducible apply Keeps.foldl
    | split
    | intro _ _ _
    | intro _ _
    | intro _
    | with_reducible refine Keeps.of_pair (by with_reducible assumption) ?_
    | with_reducible refine Keeps.of_triple (by with_reducible assumption) ?_
    | dsimp only)

theorem State.arrive_keeps {w₀ : Nat} {s₀ s : State} (hw : Sub 0x7020000000040100010000 w₀) (f : Frame) (h₀ : Keeps w₀ s₀ s) :
    Keeps w₀ s₀ (State.arrive s f) := by
  unfold State.arrive
  repeat' (first
    | with_reducible assumption
    | with_reducible apply State.enter_keeps
    | with_reducible apply State.grow_keeps
    | (simp only [Keeps.mk_eq]; with_reducible apply KeepsMk.upd)
    | exact hw.le rfl
    | exact Or.inl (hw.bit rfl)
    | with_reducible exact Or.inr rfl
    | with_reducible apply ResKeeps.next
    | with_reducible apply Keeps.each
    | with_reducible apply Keeps.when
    | with_reducible apply Keeps.foldl
    | split
    | intro _ _ _
    | intro _ _
    | intro _
    | with_reducible refine Keeps.of_pair (by with_reducible assumption) ?_
    | with_reducible refine Keeps.of_triple (by with_reducible assumption) ?_
    | dsimp only)

theorem State.arriveMore_keeps {w₀ : Nat} {s₀ s : State} (hw : Sub 0x17020000000040100010000 w₀) (n : Nat) (b : List Byte) (h₀ : Keeps w₀ s₀ s) :
    Keeps w₀ s₀ (State.arriveMore s n b) := by
  unfold State.arriveMore
  repeat' (first
    | with_reducible assumption
    | with_reducible apply State.grow_keeps
    | with_reducible apply State.feed_keeps
    | with_reducible apply State.arrive_keeps
    | exact hw.le rfl
    | with_reducible apply ResKeeps.next
    | with_reducible apply Keeps.each
    | with_reducible apply Keeps.when
    | with_reducible apply Keeps.foldl
    | split
    | intro _ _ _
    | intro _ _
    | intro _
    | with_reducible refine Keeps.of_pair (by with_reducible assumption) ?_
    | with_reducible refine Keeps.of_triple (by with_reducible assumption) ?_
    | dsimp only)

theorem State.arrived_keeps {w₀ : Nat} {s₀ s : State} (hw : Sub 0x70a0028000040101010000 w₀) (n : Nat) (b : List Byte) (bad : Bool) (badFcs : Bool) (h₀ : Keeps w₀ s₀ s) :
    Keeps w₀ s₀ (State.arrived s n b bad badFcs) := by
  unfold State.arrived
  repeat' (first
    | with_reducible assumption
    | with_reducible apply State.retract_keeps
    | with_reducible apply State.setFrame_keeps
    | with_reducible apply State.grow_keeps
    | with_reducible apply State.endFrame_keeps
    | with_reducible apply State.arrive_keeps
    | (simp only [Keeps.mk_eq]; with_reducible apply KeepsMk.upd)
    | exact hw.le rfl
    | exact Or.inl (hw.bit rfl)
    | with_reducible exact Or.inr rfl
    | with_reducible apply ResKeeps.next
    | with_reducible apply Keeps.each
    | with_reducible apply Keeps.when
    | with_reducible apply Keeps.foldl
    | split
    | intro _ _ _
    | intro _ _
    | intro _
    | with_reducible refine Keeps.of_pair (by with_reducible assumption) ?_
    | with_reducible refine Keeps.of_triple (by with_reducible assumption) ?_
    | dsimp only)

theorem execEthFrameReceived_keeps {w₀ : Nat} {s₀ s : State} (hw : Sub 0x377a006800024010101000e w₀) (port : Fin 128) (bytes : List Byte) (err : Bool) (raw : Nat) (head : Bool) (fecCorr : Nat) (fecBad : Nat) (h₀ : Keeps w₀ s₀ s) :
    ResKeeps w₀ s₀ (execEthFrameReceived port bytes err raw head fecCorr fecBad s) := by
  unfold execEthFrameReceived
  repeat' (first
    | with_reducible assumption
    | with_reducible apply Keeps.bump48
    | with_reducible apply State.seqUse_keeps
    | with_reducible apply State.hostTrap_keeps
    | with_reducible apply State.rxGood_keeps
    | with_reducible apply State.arrive_keeps
    | with_reducible apply State.arriveMore_keeps
    | with_reducible apply State.arrived_keeps
    | with_reducible exact Reg.portEsmcBadLoCount_mayc hw rfl
    | with_reducible exact Reg.portFecCorrLoCount_mayc hw rfl
    | with_reducible exact Reg.portFecUncorrLoCount_mayc hw rfl
    | with_reducible exact Reg.portRxVlanDropLoCount_mayc hw rfl
    | exact hw.le rfl
    | with_reducible apply ResKeeps.next
    | with_reducible apply Keeps.each
    | with_reducible apply Keeps.when
    | with_reducible apply Keeps.foldl
    | split
    | intro _ _ _
    | intro _ _
    | intro _
    | with_reducible refine Keeps.of_pair (by with_reducible assumption) ?_
    | with_reducible refine Keeps.of_triple (by with_reducible assumption) ?_
    | dsimp only
    | with_reducible refine State.consume_keeps (w₀ := w₀) ?_ (by with_reducible assumption) ?_
    | with_reducible refine State.macBad_keeps (w₀ := w₀) ?_ (by with_reducible assumption) ?_)

theorem execLeatFrameReceived_keeps {w₀ : Nat} {s₀ s : State} (hw : Sub 0x170a0028000240101010000 w₀) (lane : Fin 128) (tc : Fin 8) (flen : Fin 16384) (bytes : List Byte) (good : Bool) (raw : Nat) (head : Bool) (h₀ : Keeps w₀ s₀ s) :
    ResKeeps w₀ s₀ (execLeatFrameReceived lane tc flen bytes good raw head s) := by
  unfold execLeatFrameReceived
  repeat' (first
    | with_reducible assumption
    | with_reducible apply State.fixedRx_keeps
    | with_reducible apply State.bwAdd_keeps
    | with_reducible apply State.seqUse_keeps
    | with_reducible apply State.hostTrap_keeps
    | with_reducible apply State.daTaken_keeps
    | with_reducible apply State.arrive_keeps
    | with_reducible apply State.arriveMore_keeps
    | with_reducible apply State.arrived_keeps
    | (simp only [Keeps.mk_eq]; with_reducible apply KeepsMk.upd)
    | exact hw.le rfl
    | exact Or.inl (hw.bit rfl)
    | with_reducible exact Or.inr rfl
    | with_reducible apply ResKeeps.next
    | with_reducible apply Keeps.each
    | with_reducible apply Keeps.when
    | with_reducible apply Keeps.foldl
    | split
    | intro _ _ _
    | intro _ _
    | intro _
    | with_reducible refine Keeps.of_pair (by with_reducible assumption) ?_
    | with_reducible refine Keeps.of_triple (by with_reducible assumption) ?_
    | dsimp only)

theorem applyPorts_keeps {w₀ : Nat} {s₀ s : State} (hw : Sub 0x10000 w₀) (v : List Byte) (h₀ : Keeps w₀ s₀ s) :
    Keeps w₀ s₀ (applyPorts v s) := by
  unfold applyPorts
  repeat' (first
    | with_reducible assumption
    | with_reducible apply State.wrs_keeps
    | with_reducible exact Reg.portCfgEsmcExt_may hw rfl
    | with_reducible exact Reg.portCfgEsmcRx_may hw rfl
    | with_reducible exact Reg.portCfgEsmcTx_may hw rfl
    | with_reducible exact Reg.portCfgFec_may hw rfl
    | with_reducible exact Reg.portCfgMode_may hw rfl
    | with_reducible exact Reg.portMacHiMac_may hw rfl
    | with_reducible exact Reg.portMacLoMac_may hw rfl
    | with_reducible exact Reg.portMaxlenLen_may hw rfl
    | with_reducible exact Reg.portPcpMapMap_may hw rfl
    | with_reducible exact Reg.portPfcCfgLossless_may hw rfl
    | with_reducible exact Reg.portPfcCfgPfcEn_may hw rfl
    | with_reducible exact Reg.portPfcCfgQuanta_may hw rfl
    | with_reducible exact Reg.portPtpCfgOnestepEn_may hw rfl
    | with_reducible exact Reg.portPtpCfgTcMode_may hw rfl
    | with_reducible exact Reg.portPtpCfgTrailerTc_may hw rfl
    | with_reducible exact Reg.portPtpCfgTsTb_may hw rfl
    | with_reducible exact Reg.portVlanAccept_may hw rfl
    | with_reducible exact Reg.portVlanDefPcp_may hw rfl
    | with_reducible exact Reg.portVlanInFilter_may hw rfl
    | with_reducible exact Reg.portVlanPvid_may hw rfl
    | with_reducible exact AllMay.nil _
    | with_reducible apply AllMay.cons
    | with_reducible apply AllMay.append
    | with_reducible apply AllMay.map
    | exact hw.le rfl
    | with_reducible apply ResKeeps.next
    | with_reducible apply Keeps.each
    | with_reducible apply Keeps.when
    | with_reducible apply Keeps.foldl
    | split
    | intro _ _ _
    | intro _ _
    | intro _
    | with_reducible refine Keeps.of_pair (by with_reducible assumption) ?_
    | with_reducible refine Keeps.of_triple (by with_reducible assumption) ?_
    | dsimp only)

end Sys2Proof.Machine
end

