-- ==== Sys2Proof/Laws/KeepCalib.lean ====
section
/-! SUPPORT. What the operations of Machine/Calib.lean keep. -/

set_option linter.all false
set_option Elab.async false

namespace Sys2Proof.Machine

theorem State.calCrcSet_keeps {w₀ : Nat} {s₀ s : State} (hw : Sub 0x80 w₀) (h₀ : Keeps w₀ s₀ s) :
    Keeps w₀ s₀ (State.calCrcSet s) := by
  unfold State.calCrcSet
  repeat' (first
    | with_reducible assumption
    | with_reducible apply Keeps.wr
    | with_reducible exact Reg.calCrcCrc_may hw rfl
    | exact hw.le rfl
    | with_reducible apply ResKeeps.next
    | with_reducible apply Keeps.each
    | with_reducible apply Keeps.when
    | with_reducible apply Keeps.foldl
    | split
    | intro _ _ _
    | intro _ _
    | intro _
    | with_reducible refine Keeps.of_pair (by with_reducible assumption) ?_
    | with_reducible refine Keeps.of_triple (by with_reducible assumption) ?_
    | dsimp only)

theorem State.setCkoTaps_keeps {w₀ : Nat} {s₀ s : State} (hw : Sub 0x40000000000000000000000 w₀) (n : Nat) (x : Nat × Nat) (h₀ : Keeps w₀ s₀ s) :
    Keeps w₀ s₀ (State.setCkoTaps s n x) := by
  unfold State.setCkoTaps
  repeat' (first
    | with_reducible assumption
    | (simp only [Keeps.mk_eq]; with_reducible apply KeepsMk.upd)
    | exact hw.le rfl
    | exact Or.inl (hw.bit rfl)
    | with_reducible exact Or.inr rfl
    | with_reducible apply ResKeeps.next
    | with_reducible apply Keeps.each
    | with_reducible apply Keeps.when
    | with_reducible apply Keeps.foldl
    | split
    | intro _ _ _
    | intro _ _
    | intro _
    | with_reducible refine Keeps.of_pair (by with_reducible assumption) ?_
    | with_reducible refine Keeps.of_triple (by with_reducible assumption) ?_
    | dsimp only)

theorem State.ckoSat_keeps {w₀ : Nat} {s₀ s : State} (hw : Sub 0x10000000000000000008 w₀) (h₀ : Keeps w₀ s₀ s) :
    Keeps w₀ s₀ (State.ckoSat s) := by
  unfold State.ckoSat
  repeat' (first
    | with_reducible assumption
    | with_reducible apply Keeps.wr
    | with_reducible apply State.report_keeps
    | with_reducible exact Reg.synCkoCtlTapSat_may hw rfl
    | exact hw.le rfl
    | with_reducible apply ResKeeps.next
    | with_reducible apply Keeps.each
    | with_reducible apply Keeps.when
    | with_reducible apply Keeps.foldl
    | split
    | intro _ _ _
    | intro _ _
    | intro _
    | with_reducible refine Keeps.of_pair (by with_reducible assumption) ?_
    | with_reducible refine Keeps.of_triple (by with_reducible assumption) ?_
    | dsimp only)

theorem State.tapsDirect_keeps {w₀ : Nat} {s₀ s : State} (hw : Sub 0x40000000000000000000000 w₀) (h₀ : Keeps w₀ s₀ s) :
    Keeps w₀ s₀ (State.tapsDirect s) := by
  unfold State.tapsDirect
  repeat' (first
    | with_reducible assumption
    | with_reducible apply State.setCkoTaps_keeps
    | exact hw.le rfl
    | with_reducible apply ResKeeps.next
    | with_reducible apply Keeps.each
    | with_reducible apply Keeps.when
    | with_reducible apply Keeps.foldl
    | split
    | intro _ _ _
    | intro _ _
    | intro _
    | with_reducible refine Keeps.of_pair (by with_reducible assumption) ?_
    | with_reducible refine Keeps.of_triple (by with_reducible assumption) ?_
    | dsimp only)

theorem State.tapStep_keeps {w₀ : Nat} {s₀ s : State} (hw : Sub 0x40000000000000000000000 w₀) (n : Nat) (h₀ : Keeps w₀ s₀ s) :
    Keeps w₀ s₀ (State.tapStep s n) := by
  unfold State.tapStep
  repeat' (first
    | with_reducible assumption
    | with_reducible apply State.setCkoTaps_keeps
    | exact hw.le rfl
    | with_reducible apply ResKeeps.next
    | with_reducible apply Keeps.each
    | with_reducible apply Keeps.when
    | with_reducible apply Keeps.foldl
    | split
    | intro _ _ _
    | intro _ _
    | intro _
    | with_reducible refine Keeps.of_pair (by with_reducible assumption) ?_
    | with_reducible refine Keeps.of_triple (by with_reducible assumption) ?_
    | dsimp only)

theorem State.calStart_keeps {w₀ : Nat} {s₀ s : State} (hw : Sub 0x40000000000000000000080 w₀) (cause : Nat) (sensor : Nat) (h₀ : Keeps w₀ s₀ s) :
    Keeps w₀ s₀ (State.calStart s cause sensor) := by
  unfold State.calStart
  repeat' (first
    | with_reducible assumption
    | with_reducible apply State.wrs_keeps
    | with_reducible exact Reg.calStatusRetryArmed_may hw rfl
    | with_reducible exact Reg.calStatusState_may hw rfl
    | with_reducible exact Reg.calTriggerCause_may hw rfl
    | with_reducible exact Reg.calTriggerSensor_may hw rfl
    | with_reducible exact AllMay.nil _
    | with_reducible apply AllMay.cons
    | with_reducible apply AllMay.append
    | with_reducible apply AllMay.map
    | (simp only [Keeps.mk_eq]; with_reducible apply KeepsMk.upd)
    | exact hw.le rfl
    | exact Or.inl (hw.bit rfl)
    | with_reducible exact Or.inr rfl
    | with_reducible apply ResKeeps.next
    | with_reducible apply Keeps.each
    | with_reducible apply Keeps.when
    | with_reducible apply Keeps.foldl
    | split
    | intro _ _ _
    | intro _ _
    | intro _
    | with_reducible refine Keeps.of_pair (by with_reducible assumption) ?_
    | with_reducible refine Keeps.of_triple (by with_reducible assumption) ?_
    | dsimp only)

theorem State.calTrigger_keeps {w₀ : Nat} {s₀ s : State} (hw : Sub 0x40000000000000000000080 w₀) (cause : Nat) (sensor : Nat) (h₀ : Keeps w₀ s₀ s) :
    Keeps w₀ s₀ (State.calTrigger s cause sensor) := by
  unfold State.calTrigger
  repeat' (first
    | with_reducible assumption
    | with_reducible apply State.calStart_keeps
    | (simp only [Keeps.mk_eq]; with_reducible apply KeepsMk.upd)
    | exact hw.le rfl
    | exact Or.inl (hw.bit rfl)
    | with_reducible exact Or.inr rfl
    | with_reducible apply ResKeeps.next
    | with_reducible apply Keeps.each
    | with_reducible apply Keeps.when
    | with_reducible apply Keeps.foldl
    | split
    | intro _ _ _
    | intro _ _
    | intro _
    | with_reducible refine Keeps.of_pair (by with_reducible assumption) ?_
    | with_reducible refine Keeps.of_triple (by with_reducible assumption) ?_
    | dsimp only)

theorem State.calIdle_keeps {w₀ : Nat} {s₀ s : State} (hw : Sub 0x40000000000000000000080 w₀) (h₀ : Keeps w₀ s₀ s) :
    Keeps w₀ s₀ (State.calIdle s) := by
  unfold State.calIdle
  repeat' (first
    | with_reducible assumption
    | with_reducible apply State.wrs_keeps
    | with_reducible apply State.calStart_keeps
    | with_reducible exact Reg.calStatusState_may hw rfl
    | with_reducible exact Reg.calStatusWalking_may hw rfl
    | with_reducible exact AllMay.nil _
    | with_reducible apply AllMay.cons
    | with_reducible apply AllMay.append
    | with_reducible apply AllMay.map
    | exact hw.le rfl
    | with_reducible apply ResKeeps.next
    | with_reducible apply Keeps.each
    | with_reducible apply Keeps.when
    | with_reducible apply Keeps.foldl
    | split
    | intro _ _ _
    | intro _ _
    | intro _
    | with_reducible refine Keeps.of_pair (by with_reducible assumption) ?_
    | with_reducible refine Keeps.of_triple (by with_reducible assumption) ?_
    | dsimp only)

theorem State.calNominal_keeps {w₀ : Nat} {s₀ s : State} (hw : Sub 0x40010000000000000000089 w₀) (h₀ : Keeps w₀ s₀ s) :
    Keeps w₀ s₀ (State.calNominal s) := by
  unfold State.calNominal
  repeat' (first
    | with_reducible assumption
    | with_reducible apply Keeps.wr
    | with_reducible apply State.wrs_keeps
    | with_reducible apply State.calCrcSet_keeps
    | with_reducible apply State.ckoSat_keeps
    | with_reducible apply State.tapsDirect_keeps
    | with_reducible exact Reg.calStatusSource_may hw rfl
    | with_reducible exact Reg.calValValue_may hw rfl
    | with_reducible exact Reg.devBootCalNominal_may hw rfl
    | with_reducible exact AllMay.nil _
    | with_reducible apply AllMay.cons
    | with_reducible apply AllMay.append
    | with_reducible apply AllMay.map
    | exact hw.le rfl
    | with_reducible apply ResKeeps.next
    | with_reducible apply Keeps.each
    | with_reducible apply Keeps.when
    | with_reducible apply Keeps.foldl
    | split
    | intro _ _ _
    | intro _ _
    | intro _
    | with_reducible refine Keeps.of_pair (by with_reducible assumption) ?_
    | with_reducible refine Keeps.of_triple (by with_reducible assumption) ?_
    | dsimp only)

theorem State.calAbort_keeps {w₀ : Nat} {s₀ s : State} (hw : Sub 0x40090028000000000000089 w₀) (reason : Nat) (h₀ : Keeps w₀ s₀ s) :
    Keeps w₀ s₀ (State.calAbort s reason) := by
  unfold State.calAbort
  repeat' (first
    | with_reducible assumption
    | with_reducible apply State.wrs_keeps
    | with_reducible apply State.bump_keeps
    | with_reducible apply State.intr_keeps
    | with_reducible apply State.report_keeps
    | with_reducible apply State.calIdle_keeps
    | with_reducible apply State.calNominal_keeps
    | with_reducible exact Reg.calCountsAborts_may hw rfl
    | with_reducible exact Reg.calStatusLastAbort_may hw rfl
    | with_reducible exact Reg.calStatusRetryArmed_may hw rfl
    | with_reducible exact AllMay.nil _
    | with_reducible apply AllMay.cons
    | with_reducible apply AllMay.append
    | with_reducible apply AllMay.map
    | (simp only [Keeps.mk_eq]; with_reducible apply KeepsMk.upd)
    | exact hw.le rfl
    | exact Or.inl (hw.bit rfl)
    | with_reducible exact Or.inr rfl
    | with_reducible apply ResKeeps.next
    | with_reducible apply Keeps.each
    | with_reducible apply Keeps.when
    | with_reducible apply Keeps.foldl
    | split
    | intro _ _ _
    | intro _ _
    | intro _
    | with_reducible refine Keeps.of_pair (by with_reducible assumption) ?_
    | with_reducible refine Keeps.of_triple (by with_reducible assumption) ?_
    | dsimp only)

theorem State.calValues_keeps {w₀ : Nat} {s₀ s : State} (hw : Sub 0x40090028000040000000088 w₀) (sec : Nat) (h₀ : Keeps w₀ s₀ s) :
    Keeps w₀ s₀ (State.calValues s sec) := by
  unfold State.calValues
  repeat' (first
    | with_reducible assumption
    | with_reducible apply Keeps.wr
    | with_reducible apply State.wrs_keeps
    | with_reducible apply State.bump_keeps
    | with_reducible apply State.bumpWrap_keeps
    | with_reducible apply State.intr_keeps
    | with_reducible apply State.unreport_keeps
    | with_reducible apply State.ev_keeps
    | with_reducible apply State.calCrcSet_keeps
    | with_reducible apply State.ckoSat_keeps
    | with_reducible exact Reg.calCountsCommits_may hw rfl
    | with_reducible exact Reg.calLastSecSec_may hw rfl
    | with_reducible exact Reg.calStatusGen_may hw rfl
    | with_reducible exact Reg.calStatusSource_may hw rfl
    | with_reducible exact Reg.calStatusStaleTemp_may hw rfl
    | with_reducible exact Reg.calTempTRef_may hw rfl
    | with_reducible exact Reg.calValValue_may hw rfl
    | with_reducible exact AllMay.nil _
    | with_reducible apply AllMay.cons
    | with_reducible apply AllMay.append
    | with_reducible apply AllMay.map
    | (simp only [Keeps.mk_eq]; with_reducible apply KeepsMk.upd)
    | exact hw.le rfl
    | exact Or.inl (hw.bit rfl)
    | with_reducible exact Or.inr rfl
    | with_reducible apply ResKeeps.next
    | with_reducible apply Keeps.each
    | with_reducible apply Keeps.when
    | with_reducible apply Keeps.foldl
    | split
    | intro _ _ _
    | intro _ _
    | intro _
    | with_reducible refine Keeps.of_pair (by with_reducible assumption) ?_
    | with_reducible refine Keeps.of_triple (by with_reducible assumption) ?_
    | dsimp only)

theorem State.commitNow_keeps {w₀ : Nat} {s₀ s : State} (hw : Sub 0x40090028000040000000088 w₀) (h₀ : Keeps w₀ s₀ s) :
    Keeps w₀ s₀ (State.commitNow s) := by
  unfold State.commitNow
  repeat' (first
    | with_reducible assumption
    | with_reducible apply State.tapsDirect_keeps
    | with_reducible apply State.calIdle_keeps
    | with_reducible apply State.calValues_keeps
    | exact hw.le rfl
    | with_reducible apply ResKeeps.next
    | with_reducible apply Keeps.each
    | with_reducible apply Keeps.when
    | with_reducible apply Keeps.foldl
    | split
    | intro _ _ _
    | intro _ _
    | intro _
    | with_reducible refine Keeps.of_pair (by with_reducible assumption) ?_
    | with_reducible refine Keeps.of_triple (by with_reducible assumption) ?_
    | dsimp only)

theorem State.commitWait_keeps {w₀ : Nat} {s₀ s : State} (hw : Sub 0x40090028000040000000088 w₀) (h₀ : Keeps w₀ s₀ s) :
    Keeps w₀ s₀ (State.commitWait s) := by
  unfold State.commitWait
  repeat' (first
    | with_reducible assumption
    | with_reducible apply Keeps.wr
    | with_reducible apply State.commitNow_keeps
    | with_reducible exact Reg.calStatusState_may hw rfl
    | (simp only [Keeps.mk_eq]; with_reducible apply KeepsMk.upd)
    | exact hw.le rfl
    | exact Or.inl (hw.bit rfl)
    | with_reducible exact Or.inr rfl
    | with_reducible apply ResKeeps.next
    | with_reducible apply Keeps.each
    | with_reducible apply Keeps.when
    | with_reducible apply Keeps.foldl
    | split
    | intro _ _ _
    | intro _ _
    | intro _
    | with_reducible refine Keeps.of_pair (by with_reducible assumption) ?_
    | with_reducible refine Keeps.of_triple (by with_reducible assumption) ?_
    | dsimp only)

theorem State.calTbSync_keeps {w₀ : Nat} {s₀ s : State} (hw : Sub 0x40090028000040000000088 w₀) (h₀ : Keeps w₀ s₀ s) :
    Keeps w₀ s₀ (State.calTbSync s) := by
  unfold State.calTbSync
  repeat' (first
    | with_reducible assumption
    | with_reducible apply State.commitNow_keeps
    | exact hw.le rfl
    | with_reducible apply ResKeeps.next
    | with_reducible apply Keeps.each
    | with_reducible apply Keeps.when
    | with_reducible apply Keeps.foldl
    | split
    | intro _ _ _
    | intro _ _
    | intro _
    | with_reducible refine Keeps.of_pair (by with_reducible assumption) ?_
    | with_reducible refine Keeps.of_triple (by with_reducible assumption) ?_
    | dsimp only)

theorem State.commitSecond_keeps {w₀ : Nat} {s₀ s : State} (hw : Sub 0x40090028000040000000088 w₀) (h₀ : Keeps w₀ s₀ s) :
    Keeps w₀ s₀ (State.commitSecond s) := by
  unfold State.commitSecond
  repeat' (first
    | with_reducible assumption
    | with_reducible apply State.wrs_keeps
    | with_reducible apply State.calIdle_keeps
    | with_reducible apply State.calValues_keeps
    | with_reducible exact Reg.calStatusState_may hw rfl
    | with_reducible exact Reg.calStatusWalking_may hw rfl
    | with_reducible exact AllMay.nil _
    | with_reducible apply AllMay.cons
    | with_reducible apply AllMay.append
    | with_reducible apply AllMay.map
    | exact hw.le rfl
    | with_reducible apply ResKeeps.next
    | with_reducible apply Keeps.each
    | with_reducible apply Keeps.when
    | with_reducible apply Keeps.foldl
    | split
    | intro _ _ _
    | intro _ _
    | intro _
    | with_reducible refine Keeps.of_pair (by with_reducible assumption) ?_
    | with_reducible refine Keeps.of_triple (by with_reducible assumption) ?_
    | dsimp only)

theorem State.measured_keeps {w₀ : Nat} {s₀ s : State} (hw : Sub 0x40000000000000000000000 w₀) (phase : Nat → Bool) (l : List (Nat × Int)) (h₀ : Keeps w₀ s₀ s) :
    Keeps w₀ s₀ (State.measured s phase l) := by
  unfold State.measured
  repeat' (first
    | with_reducible assumption
    | (simp only [Keeps.mk_eq]; with_reducible apply KeepsMk.upd)
    | exact hw.le rfl
    | exact Or.inl (hw.bit rfl)
    | with_reducible exact Or.inr rfl
    | with_reducible apply ResKeeps.next
    | with_reducible apply Keeps.each
    | with_reducible apply Keeps.when
    | with_reducible apply Keeps.foldl
    | split
    | intro _ _ _
    | intro _ _
    | intro _
    | with_reducible refine Keeps.of_pair (by with_reducible assumption) ?_
    | with_reducible refine Keeps.of_triple (by with_reducible assumption) ?_
    | dsimp only)

theorem State.tempsRead_keeps {w₀ : Nat} {s₀ s : State} (hw : Sub 0x80 w₀) (readings : List Int) (h₀ : Keeps w₀ s₀ s) :
    Keeps w₀ s₀ (State.tempsRead s readings) := by
  unfold State.tempsRead
  repeat' (first
    | with_reducible assumption
    | with_reducible apply Keeps.wr
    | with_reducible exact Reg.calTempNow_may hw rfl
    | exact hw.le rfl
    | with_reducible apply ResKeeps.next
    | with_reducible apply Keeps.each
    | with_reducible apply Keeps.when
    | with_reducible apply Keeps.foldl
    | split
    | intro _ _ _
    | intro _ _
    | intro _
    | with_reducible refine Keeps.of_pair (by with_reducible assumption) ?_
    | with_reducible refine Keeps.of_triple (by with_reducible assumption) ?_
    | dsimp only)

theorem State.tempSpan_keeps {w₀ : Nat} {s₀ s : State} (hw : Sub 0x40000000000000000000000 w₀) (i : Nat) (h₀ : Keeps w₀ s₀ s) :
    Keeps w₀ s₀ (State.tempSpan s i) := by
  unfold State.tempSpan
  repeat' (first
    | with_reducible assumption
    | (simp only [Keeps.mk_eq]; with_reducible apply KeepsMk.upd)
    | exact hw.le rfl
    | exact Or.inl (hw.bit rfl)
    | with_reducible exact Or.inr rfl
    | with_reducible apply ResKeeps.next
    | with_reducible apply Keeps.each
    | with_reducible apply Keeps.when
    | with_reducible apply Keeps.foldl
    | split
    | intro _ _ _
    | intro _ _
    | intro _
    | with_reducible refine Keeps.of_pair (by with_reducible assumption) ?_
    | with_reducible refine Keeps.of_triple (by with_reducible assumption) ?_
    | dsimp only)

theorem State.tempTrack_keeps {w₀ : Nat} {s₀ s : State} (hw : Sub 0x40090028000000000000089 w₀) (h₀ : Keeps w₀ s₀ s) :
    Keeps w₀ s₀ (State.tempTrack s) := by
  unfold State.tempTrack
  repeat' (first
    | with_reducible assumption
    | with_reducible apply State.calAbort_keeps
    | with_reducible apply State.tempSpan_keeps
    | exact hw.le rfl
    | with_reducible apply ResKeeps.next
    | with_reducible apply Keeps.each
    | with_reducible apply Keeps.when
    | with_reducible apply Keeps.foldl
    | split
    | intro _ _ _
    | intro _ _
    | intro _
    | with_reducible refine Keeps.of_pair (by with_reducible assumption) ?_
    | with_reducible refine Keeps.of_triple (by with_reducible assumption) ?_
    | dsimp only)

theorem State.staleMark_keeps {w₀ : Nat} {s₀ s : State} (hw : Sub 0x10000000000000000080 w₀) (h₀ : Keeps w₀ s₀ s) :
    Keeps w₀ s₀ (State.staleMark s) := by
  unfold State.staleMark
  repeat' (first
    | with_reducible assumption
    | with_reducible apply Keeps.wr
    | with_reducible apply State.report_keeps
    | with_reducible exact Reg.calStatusStaleTemp_may hw rfl
    | exact hw.le rfl
    | with_reducible apply ResKeeps.next
    | with_reducible apply Keeps.each
    | with_reducible apply Keeps.when
    | with_reducible apply Keeps.foldl
    | split
    | intro _ _ _
    | intro _ _
    | intro _
    | with_reducible refine Keeps.of_pair (by with_reducible assumption) ?_
    | with_reducible refine Keeps.of_triple (by with_reducible assumption) ?_
    | dsimp only)

theorem State.crossCount_keeps {w₀ : Nat} {s₀ s : State} (hw : Sub 0x40000000000000000000000 w₀) (i : Nat) (h₀ : Keeps w₀ s₀ s) :
    Keeps w₀ s₀ (State.crossCount s i) := by
  unfold State.crossCount
  repeat' (first
    | with_reducible assumption
    | (simp only [Keeps.mk_eq]; with_reducible apply KeepsMk.upd)
    | exact hw.le rfl
    | exact Or.inl (hw.bit rfl)
    | with_reducible exact Or.inr rfl
    | with_reducible apply ResKeeps.next
    | with_reducible apply Keeps.each
    | with_reducible apply Keeps.when
    | with_reducible apply Keeps.foldl
    | split
    | intro _ _ _
    | intro _ _
    | intro _
    | with_reducible refine Keeps.of_pair (by with_reducible assumption) ?_
    | with_reducible refine Keeps.of_triple (by with_reducible assumption) ?_
    | dsimp only)

theorem State.driftTrigger_keeps {w₀ : Nat} {s₀ s : State} (hw : Sub 0x40000000000000000000080 w₀) (h₀ : Keeps w₀ s₀ s) :
    Keeps w₀ s₀ (State.driftTrigger s) := by
  unfold State.driftTrigger
  repeat' (first
    | with_reducible assumption
    | with_reducible apply State.calTrigger_keeps
    | exact hw.le rfl
    | with_reducible apply ResKeeps.next
    | with_reducible apply Keeps.each
    | with_reducible apply Keeps.when
    | with_reducible apply Keeps.foldl
    | split
    | intro _ _ _
    | intro _ _
    | intro _
    | with_reducible refine Keeps.of_pair (by with_reducible assumption) ?_
    | with_reducible refine Keeps.of_triple (by with_reducible assumption) ?_
    | dsimp only)

theorem State.sensorsRead_keeps {w₀ : Nat} {s₀ s : State} (hw : Sub 0x40090028000000000000089 w₀) (readings : List Int) (h₀ : Keeps w₀ s₀ s) :
    Keeps w₀ s₀ (State.sensorsRead s readings) := by
  unfold State.sensorsRead
  repeat' (first
    | with_reducible assumption
    | with_reducible apply State.tempsRead_keeps
    | with_reducible apply State.tempTrack_keeps
    | with_reducible apply State.staleMark_keeps
    | with_reducible apply State.crossCount_keeps
    | with_reducible apply State.driftTrigger_keeps
    | exact hw.le rfl
    | with_reducible apply ResKeeps.next
    | with_reducible apply Keeps.each
    | with_reducible apply Keeps.when
    | with_reducible apply Keeps.foldl
    | split
    | intro _ _ _
    | intro _ _
    | intro _
    | with_reducible refine Keeps.of_pair (by with_reducible assumption) ?_
    | with_reducible refine Keeps.of_triple (by with_reducible assumption) ?_
    | dsimp only)

theorem applyCalibration_keeps {w₀ : Nat} {s₀ s : State} (hw : Sub 0x40000000000000000000080 w₀) (v : List Byte) (h₀ : Keeps w₀ s₀ s) :
    Keeps w₀ s₀ (applyCalibration v s) := by
  unfold applyCalibration
  repeat' (first
    | with_reducible assumption
    | with_reducible apply State.wrs_keeps
    | with_reducible exact Reg.calCfgCalTb_may hw rfl
    | with_reducible exact Reg.calCfgDeltaT_may hw rfl
    | with_reducible exact Reg.calCfgSensorMask_may hw rfl
    | with_reducible exact Reg.calLimitsMaxStep_may hw rfl
    | with_reducible exact Reg.calLimitsRetryS_may hw rfl
    | with_reducible exact Reg.calPeriodPeriodS_may hw rfl
    | with_reducible exact AllMay.nil _
    | with_reducible apply AllMay.cons
    | with_reducible apply AllMay.append
    | with_reducible apply AllMay.map
    | (simp only [Keeps.mk_eq]; with_reducible apply KeepsMk.upd)
    | exact hw.le rfl
    | exact Or.inl (hw.bit rfl)
    | with_reducible exact Or.inr rfl
    | with_reducible apply ResKeeps.next
    | with_reducible apply Keeps.each
    | with_reducible apply Keeps.when
    | with_reducible apply Keeps.foldl
    | split
    | intro _ _ _
    | intro _ _
    | intro _
    | with_reducible refine Keeps.of_pair (by with_reducible assumption) ?_
    | with_reducible refine Keeps.of_triple (by with_reducible assumption) ?_
    | dsimp only)

end Sys2Proof.Machine
end

