-- ==== Sys2Proof/Laws/KeepRedund.lean ====
section
/-! SUPPORT. What the operations of Machine/Redund.lean keep. -/

set_option linter.all false
set_option Elab.async false

namespace Sys2Proof.Machine

theorem State.setUnverified_keeps {w₀ : Nat} {s₀ s : State} (hw : Sub 0x10000000000 w₀) (u : Nat) (b : Bool) (h₀ : Keeps w₀ s₀ s) :
    Keeps w₀ s₀ (State.setUnverified s u b) := by
  unfold State.setUnverified
  repeat' (first
    | with_reducible assumption
    | with_reducible apply Keeps.wr
    | with_reducible apply State.bumpWrap_keeps
    | with_reducible exact Reg.redUnitStatusGen_may hw rfl
    | with_reducible exact Reg.redUnitStatusUnverified_may hw rfl
    | exact hw.le rfl
    | with_reducible apply ResKeeps.next
    | with_reducible apply Keeps.each
    | with_reducible apply Keeps.when
    | with_reducible apply Keeps.foldl
    | split
    | intro _ _ _
    | intro _ _
    | intro _
    | with_reducible refine Keeps.of_pair (by with_reducible assumption) ?_
    | with_reducible refine Keeps.of_triple (by with_reducible assumption) ?_
    | dsimp only)

theorem State.setUnmonitored_keeps {w₀ : Nat} {s₀ s : State} (hw : Sub 0x10000000000 w₀) (u : Nat) (b : Bool) (h₀ : Keeps w₀ s₀ s) :
    Keeps w₀ s₀ (State.setUnmonitored s u b) := by
  unfold State.setUnmonitored
  repeat' (first
    | with_reducible assumption
    | with_reducible apply Keeps.wr
    | with_reducible apply State.bumpWrap_keeps
    | with_reducible exact Reg.redUnitStatusGen_may hw rfl
    | with_reducible exact Reg.redUnitStatusUnmonitored_may hw rfl
    | exact hw.le rfl
    | with_reducible apply ResKeeps.next
    | with_reducible apply Keeps.each
    | with_reducible apply Keeps.when
    | with_reducible apply Keeps.foldl
    | split
    | intro _ _ _
    | intro _ _
    | intro _
    | with_reducible refine Keeps.of_pair (by with_reducible assumption) ?_
    | with_reducible refine Keeps.of_triple (by with_reducible assumption) ?_
    | dsimp only)

theorem State.decision_keeps {w₀ : Nat} {s₀ s : State} (hw : Sub 0x90028000050000000000 w₀) (u : Nat) (action : Nat) (reason : Nat) (h₀ : Keeps w₀ s₀ s) :
    Keeps w₀ s₀ (State.decision s u action reason) := by
  unfold State.decision
  repeat' (first
    | with_reducible assumption
    | with_reducible apply State.wrs_keeps
    | with_reducible apply State.bump_keeps
    | with_reducible apply State.intr_keeps
    | with_reducible apply State.report_keeps
    | with_reducible apply State.ev_keeps
    | with_reducible exact Reg.redLastAction_may hw rfl
    | with_reducible exact Reg.redLastReason_may hw rfl
    | with_reducible exact Reg.redLastUnit_may hw rfl
    | with_reducible exact Reg.redStatusDecisions_may hw rfl
    | with_reducible exact AllMay.nil _
    | with_reducible apply AllMay.cons
    | with_reducible apply AllMay.append
    | with_reducible apply AllMay.map
    | exact hw.le rfl
    | with_reducible apply ResKeeps.next
    | with_reducible apply Keeps.each
    | with_reducible apply Keeps.when
    | with_reducible apply Keeps.foldl
    | split
    | intro _ _ _
    | intro _ _
    | intro _
    | with_reducible refine Keeps.of_pair (by with_reducible assumption) ?_
    | with_reducible refine Keeps.of_triple (by with_reducible assumption) ?_
    | dsimp only)

theorem State.setLost_keeps {w₀ : Nat} {s₀ s : State} (hw : Sub 0x30000000010000000000 w₀) (u : Nat) (b : Bool) (h₀ : Keeps w₀ s₀ s) :
    Keeps w₀ s₀ (State.setLost s u b) := by
  unfold State.setLost
  repeat' (first
    | with_reducible assumption
    | with_reducible apply Keeps.wr
    | with_reducible apply State.setLine_keeps
    | with_reducible apply State.report_keeps
    | with_reducible apply State.unreport_keeps
    | with_reducible exact Reg.redPairStatusDataLost_may hw rfl
    | with_reducible exact Reg.redStatusRootLost_may hw rfl
    | with_reducible exact Reg.redStatusTkLost_may hw rfl
    | (simp only [Keeps.mk_eq]; with_reducible apply KeepsMk.upd)
    | exact hw.le rfl
    | exact Or.inl (hw.bit rfl)
    | with_reducible exact Or.inr rfl
    | with_reducible apply ResKeeps.next
    | with_reducible apply Keeps.each
    | with_reducible apply Keeps.when
    | with_reducible apply Keeps.foldl
    | split
    | intro _ _ _
    | intro _ _
    | intro _
    | with_reducible refine Keeps.of_pair (by with_reducible assumption) ?_
    | with_reducible refine Keeps.of_triple (by with_reducible assumption) ?_
    | dsimp only)

theorem State.unitFail_keeps {w₀ : Nat} {s₀ s : State} (hw : Sub 0x200000000010000000010 w₀) (u : Nat) (reason : Nat) (h₀ : Keeps w₀ s₀ s) :
    Keeps w₀ s₀ (State.unitFail s u reason) := by
  unfold State.unitFail
  repeat' (first
    | with_reducible assumption
    | with_reducible apply State.wrs_keeps
    | with_reducible apply State.bump_keeps
    | with_reducible apply State.setUnit_keeps
    | with_reducible apply State.tkStandbyEnd_keeps
    | with_reducible exact Reg.redUnitCountsFails_may hw rfl
    | with_reducible exact Reg.redUnitCountsFlapCnt_may hw rfl
    | with_reducible exact Reg.redUnitLastLastFailSec_may hw rfl
    | with_reducible exact Reg.redUnitStatusReason_may hw rfl
    | with_reducible exact Reg.redUnitWtrWtrLeft_may hw rfl
    | with_reducible exact AllMay.nil _
    | with_reducible apply AllMay.cons
    | with_reducible apply AllMay.append
    | with_reducible apply AllMay.map
    | exact hw.le rfl
    | with_reducible apply ResKeeps.next
    | with_reducible apply Keeps.each
    | with_reducible apply Keeps.when
    | with_reducible apply Keeps.foldl
    | split
    | intro _ _ _
    | intro _ _
    | intro _
    | with_reducible refine Keeps.of_pair (by with_reducible assumption) ?_
    | with_reducible refine Keeps.of_triple (by with_reducible assumption) ?_
    | dsimp only)

theorem State.rootTake_keeps {w₀ : Nat} {s₀ s : State} (hw : Sub 0x4069002800000000000008b w₀) (r : Nat) (h₀ : Keeps w₀ s₀ s) :
    Keeps w₀ s₀ (State.rootTake s r) := by
  unfold State.rootTake
  repeat' (first
    | with_reducible assumption
    | with_reducible apply Keeps.wr
    | with_reducible apply State.bump_keeps
    | with_reducible apply State.calAbort_keeps
    | with_reducible exact Reg.clkShaftStatusActiveRoot_may hw rfl
    | with_reducible exact Reg.clkShaftStatusSwitches_may hw rfl
    | with_reducible exact Reg.synTrackTrackOk_may hw rfl
    | (simp only [Keeps.mk_eq]; with_reducible apply KeepsMk.upd)
    | exact hw.le rfl
    | exact Or.inl (hw.bit rfl)
    | with_reducible exact Or.inr rfl
    | with_reducible apply ResKeeps.next
    | with_reducible apply Keeps.each
    | with_reducible apply Keeps.when
    | with_reducible apply Keeps.foldl
    | split
    | intro _ _ _
    | intro _ _
    | intro _
    | with_reducible refine Keeps.of_pair (by with_reducible assumption) ?_
    | with_reducible refine Keeps.of_triple (by with_reducible assumption) ?_
    | dsimp only)

theorem State.tkTake_keeps {w₀ : Nat} {s₀ s : State} (hw : Sub 0x40e900280000500000000d9 w₀) (k : Nat) (h₀ : Keeps w₀ s₀ s) :
    Keeps w₀ s₀ (State.tkTake s k) := by
  unfold State.tkTake
  repeat' (first
    | with_reducible assumption
    | with_reducible apply Keeps.wr
    | with_reducible apply State.bump_keeps
    | with_reducible apply State.bumpWrap_keeps
    | with_reducible apply State.intr_keeps
    | with_reducible apply State.setSwapped_keeps
    | with_reducible apply State.osFailover_keeps
    | with_reducible apply State.pgSync_keeps
    | with_reducible apply State.calAbort_keeps
    | with_reducible apply State.calTbSync_keeps
    | with_reducible apply State.setUnverified_keeps
    | with_reducible exact Reg.tkStatusActive_may hw rfl
    | with_reducible exact Reg.tkStatusFailovers_may hw rfl
    | with_reducible exact Reg.tkStatusUnverified_may hw rfl
    | with_reducible exact Reg.tkTbStatusGen_may hw rfl
    | exact hw.le rfl
    | with_reducible apply ResKeeps.next
    | with_reducible apply Keeps.each
    | with_reducible apply Keeps.when
    | with_reducible apply Keeps.foldl
    | split
    | intro _ _ _
    | intro _ _
    | intro _
    | with_reducible refine Keeps.of_pair (by with_reducible assumption) ?_
    | with_reducible refine Keeps.of_triple (by with_reducible assumption) ?_
    | dsimp only)

theorem State.dataTake_keeps {w₀ : Nat} {s₀ s : State} (hw : Sub 0x17020020000050100010000 w₀) (u : Nat) (drop : Bool) (h₀ : Keeps w₀ s₀ s) :
    Keeps w₀ s₀ (State.dataTake s u drop) := by
  unfold State.dataTake
  repeat' (first
    | with_reducible assumption
    | with_reducible apply Keeps.wr
    | with_reducible apply State.bump_keeps
    | with_reducible apply State.reseq_keeps
    | with_reducible apply State.destDown_keeps
    | with_reducible apply State.moveCopies_keeps
    | with_reducible exact Reg.redPairCountsDataSwitches_may hw rfl
    | with_reducible exact Reg.redPairStatusDataActive_may hw rfl
    | (simp only [Keeps.mk_eq]; with_reducible apply KeepsMk.upd)
    | exact hw.le rfl
    | exact Or.inl (hw.bit rfl)
    | with_reducible exact Or.inr rfl
    | with_reducible apply ResKeeps.next
    | with_reducible apply Keeps.each
    | with_reducible apply Keeps.when
    | with_reducible apply Keeps.foldl
    | split
    | intro _ _ _
    | intro _ _
    | intro _
    | with_reducible refine Keeps.of_pair (by with_reducible assumption) ?_
    | with_reducible refine Keeps.of_triple (by with_reducible assumption) ?_
    | dsimp only)

theorem State.takeOver_keeps {w₀ : Nat} {s₀ s : State} (hw : Sub 0x57eb00280000501000100db w₀) (v : Nat) (reason : Nat) (h₀ : Keeps w₀ s₀ s) :
    Keeps w₀ s₀ (State.takeOver s v reason) := by
  unfold State.takeOver
  repeat' (first
    | with_reducible assumption
    | with_reducible apply Keeps.wr
    | with_reducible apply State.report_keeps
    | with_reducible apply State.setUnit_keeps
    | with_reducible apply State.decision_keeps
    | with_reducible apply State.setLost_keeps
    | with_reducible apply State.rootTake_keeps
    | with_reducible apply State.tkTake_keeps
    | with_reducible apply State.dataTake_keeps
    | with_reducible exact Reg.redStatusFoUnverified_may hw rfl
    | with_reducible exact Reg.redUnitWtrWtrLeft_may hw rfl
    | exact hw.le rfl
    | with_reducible apply ResKeeps.next
    | with_reducible apply Keeps.each
    | with_reducible apply Keeps.when
    | with_reducible apply Keeps.foldl
    | split
    | intro _ _ _
    | intro _ _
    | intro _
    | with_reducible refine Keeps.of_pair (by with_reducible assumption) ?_
    | with_reducible refine Keeps.of_triple (by with_reducible assumption) ?_
    | dsimp only)

theorem State.unitJudge_keeps {w₀ : Nat} {s₀ s : State} (hw : Sub 0x57eb00280000501000100db w₀) (u : Nat) (reason : Nat) (h₀ : Keeps w₀ s₀ s) :
    Keeps w₀ s₀ (State.unitJudge s u reason) := by
  unfold State.unitJudge
  repeat' (first
    | with_reducible assumption
    | with_reducible apply State.decision_keeps
    | with_reducible apply State.setLost_keeps
    | with_reducible apply State.unitFail_keeps
    | with_reducible apply State.takeOver_keeps
    | exact hw.le rfl
    | with_reducible apply ResKeeps.next
    | with_reducible apply Keeps.each
    | with_reducible apply Keeps.when
    | with_reducible apply Keeps.foldl
    | split
    | intro _ _ _
    | intro _ _
    | intro _
    | with_reducible refine Keeps.of_pair (by with_reducible assumption) ?_
    | with_reducible refine Keeps.of_triple (by with_reducible assumption) ?_
    | dsimp only)

theorem State.unitDown_keeps {w₀ : Nat} {s₀ s : State} (hw : Sub 0x57eb00280000501000100db w₀) (u : Nat) (reason : Nat) (h₀ : Keeps w₀ s₀ s) :
    Keeps w₀ s₀ (State.unitDown s u reason) := by
  unfold State.unitDown
  repeat' (first
    | with_reducible assumption
    | with_reducible apply State.unitJudge_keeps
    | exact hw.le rfl
    | with_reducible apply ResKeeps.next
    | with_reducible apply Keeps.each
    | with_reducible apply Keeps.when
    | with_reducible apply Keeps.foldl
    | split
    | intro _ _ _
    | intro _ _
    | intro _
    | with_reducible refine Keeps.of_pair (by with_reducible assumption) ?_
    | with_reducible refine Keeps.of_triple (by with_reducible assumption) ?_
    | dsimp only)

theorem State.lostAgain_keeps {w₀ : Nat} {s₀ s : State} (hw : Sub 0x57eb00280000501000100db w₀) (u : Nat) (h₀ : Keeps w₀ s₀ s) :
    Keeps w₀ s₀ (State.lostAgain s u) := by
  unfold State.lostAgain
  repeat' (first
    | with_reducible assumption
    | with_reducible apply State.setLost_keeps
    | with_reducible apply State.unitDown_keeps
    | exact hw.le rfl
    | with_reducible apply ResKeeps.next
    | with_reducible apply Keeps.each
    | with_reducible apply Keeps.when
    | with_reducible apply Keeps.foldl
    | split
    | intro _ _ _
    | intro _ _
    | intro _
    | with_reducible refine Keeps.of_pair (by with_reducible assumption) ?_
    | with_reducible refine Keeps.of_triple (by with_reducible assumption) ?_
    | dsimp only)

theorem State.unitRelease_keeps {w₀ : Nat} {s₀ s : State} (hw : Sub 0x10000000000 w₀) (u : Nat) (h₀ : Keeps w₀ s₀ s) :
    Keeps w₀ s₀ (State.unitRelease s u) := by
  unfold State.unitRelease
  repeat' (first
    | with_reducible assumption
    | with_reducible apply Keeps.wr
    | with_reducible apply State.setUnit_keeps
    | with_reducible exact Reg.redUnitCountsFlapCnt_may hw rfl
    | exact hw.le rfl
    | with_reducible apply ResKeeps.next
    | with_reducible apply Keeps.each
    | with_reducible apply Keeps.when
    | with_reducible apply Keeps.foldl
    | split
    | intro _ _ _
    | intro _ _
    | intro _
    | with_reducible refine Keeps.of_pair (by with_reducible assumption) ?_
    | with_reducible refine Keeps.of_triple (by with_reducible assumption) ?_
    | dsimp only)

theorem State.judgeTiming_keeps {w₀ : Nat} {s₀ s : State} (hw : Sub 0xd0028000050000000010 w₀) (k : Nat) (h₀ : Keeps w₀ s₀ s) :
    Keeps w₀ s₀ (State.judgeTiming s k) := by
  unfold State.judgeTiming
  repeat' (first
    | with_reducible assumption
    | with_reducible apply State.bump_keeps
    | with_reducible apply State.pairOrder_keeps
    | with_reducible apply State.decision_keeps
    | with_reducible exact Reg.redPairCountsTimeSwitches_may hw rfl
    | exact hw.le rfl
    | with_reducible apply ResKeeps.next
    | with_reducible apply Keeps.each
    | with_reducible apply Keeps.when
    | with_reducible apply Keeps.foldl
    | split
    | intro _ _ _
    | intro _ _
    | intro _
    | with_reducible refine Keeps.of_pair (by with_reducible assumption) ?_
    | with_reducible refine Keeps.of_triple (by with_reducible assumption) ?_
    | dsimp only)

theorem State.judgeTimings_keeps {w₀ : Nat} {s₀ s : State} (hw : Sub 0xd0028000050000000010 w₀) (h₀ : Keeps w₀ s₀ s) :
    Keeps w₀ s₀ (State.judgeTimings s) := by
  unfold State.judgeTimings
  repeat' (first
    | with_reducible assumption
    | with_reducible apply State.judgeTiming_keeps
    | exact hw.le rfl
    | with_reducible apply ResKeeps.next
    | with_reducible apply Keeps.each
    | with_reducible apply Keeps.when
    | with_reducible apply Keeps.foldl
    | split
    | intro _ _ _
    | intro _ _
    | intro _
    | with_reducible refine Keeps.of_pair (by with_reducible assumption) ?_
    | with_reducible refine Keeps.of_triple (by with_reducible assumption) ?_
    | dsimp only)

theorem execHealthRailFault_keeps {w₀ : Nat} {s₀ s : State} (hw : Sub 0x10000000000 w₀) (unit : Fin 68) (h₀ : Keeps w₀ s₀ s) :
    ResKeeps w₀ s₀ (execHealthRailFault unit s) := by
  unfold execHealthRailFault
  repeat' (first
    | with_reducible assumption
    | with_reducible apply State.setUnmonitored_keeps
    | exact hw.le rfl
    | with_reducible apply ResKeeps.next
    | with_reducible apply Keeps.each
    | with_reducible apply Keeps.when
    | with_reducible apply Keeps.foldl
    | split
    | intro _ _ _
    | intro _ _
    | intro _
    | with_reducible refine Keeps.of_pair (by with_reducible assumption) ?_
    | with_reducible refine Keeps.of_triple (by with_reducible assumption) ?_
    | dsimp only)

theorem execUnitHoldoffExpire_keeps {w₀ : Nat} {s₀ s : State} (hw : Sub 0x200000000010000000010 w₀) (unit : Fin 68) (h₀ : Keeps w₀ s₀ s) :
    ResKeeps w₀ s₀ (execUnitHoldoffExpire unit s) := by
  unfold execUnitHoldoffExpire
  repeat' (first
    | with_reducible assumption
    | with_reducible apply Keeps.wr
    | with_reducible apply State.setUnit_keeps
    | with_reducible apply State.tkLoadStart_keeps
    | with_reducible exact Reg.redUnitStatusHbOk_may hw rfl
    | exact hw.le rfl
    | with_reducible apply ResKeeps.next
    | with_reducible apply Keeps.each
    | with_reducible apply Keeps.when
    | with_reducible apply Keeps.foldl
    | split
    | intro _ _ _
    | intro _ _
    | intro _
    | with_reducible refine Keeps.of_pair (by with_reducible assumption) ?_
    | with_reducible refine Keeps.of_triple (by with_reducible assumption) ?_
    | dsimp only)

theorem execUnitLatchExpire_keeps {w₀ : Nat} {s₀ s : State} (hw : Sub 0x10000000000 w₀) (unit : Fin 68) (h₀ : Keeps w₀ s₀ s) :
    ResKeeps w₀ s₀ (execUnitLatchExpire unit s) := by
  unfold execUnitLatchExpire
  repeat' (first
    | with_reducible assumption
    | with_reducible apply State.unitRelease_keeps
    | exact hw.le rfl
    | with_reducible apply ResKeeps.next
    | with_reducible apply Keeps.each
    | with_reducible apply Keeps.when
    | with_reducible apply Keeps.foldl
    | split
    | intro _ _ _
    | intro _ _
    | intro _
    | with_reducible refine Keeps.of_pair (by with_reducible assumption) ?_
    | with_reducible refine Keeps.of_triple (by with_reducible assumption) ?_
    | dsimp only)

theorem execUnitWtrExpire_keeps {w₀ : Nat} {s₀ s : State} (hw : Sub 0x170b0028000050100010000 w₀) (unit : Fin 68) (h₀ : Keeps w₀ s₀ s) :
    ResKeeps w₀ s₀ (execUnitWtrExpire unit s) := by
  unfold execUnitWtrExpire
  repeat' (first
    | with_reducible assumption
    | with_reducible apply Keeps.wr
    | with_reducible apply State.setUnit_keeps
    | with_reducible apply State.decision_keeps
    | with_reducible apply State.dataTake_keeps
    | with_reducible exact Reg.redUnitWtrWtrLeft_may hw rfl
    | exact hw.le rfl
    | with_reducible apply ResKeeps.next
    | with_reducible apply Keeps.each
    | with_reducible apply Keeps.when
    | with_reducible apply Keeps.foldl
    | split
    | intro _ _ _
    | intro _ _
    | intro _
    | with_reducible refine Keeps.of_pair (by with_reducible assumption) ?_
    | with_reducible refine Keeps.of_triple (by with_reducible assumption) ?_
    | dsimp only)

theorem execFlapWindowExpire_keeps {w₀ : Nat} {s₀ s : State} (hw : Sub 0x10000000000 w₀) (unit : Fin 68) (h₀ : Keeps w₀ s₀ s) :
    ResKeeps w₀ s₀ (execFlapWindowExpire unit s) := by
  unfold execFlapWindowExpire
  repeat' (first
    | with_reducible assumption
    | with_reducible apply Keeps.wr
    | with_reducible exact Reg.redUnitCountsFlapCnt_may hw rfl
    | exact hw.le rfl
    | with_reducible apply ResKeeps.next
    | with_reducible apply Keeps.each
    | with_reducible apply Keeps.when
    | with_reducible apply Keeps.foldl
    | split
    | intro _ _ _
    | intro _ _
    | intro _
    | with_reducible refine Keeps.of_pair (by with_reducible assumption) ?_
    | with_reducible refine Keeps.of_triple (by with_reducible assumption) ?_
    | dsimp only)

theorem execDeferredOrderWithdraw_keeps {w₀ : Nat} {s₀ s : State} (hw : Sub 0xd0028000050000000010 w₀) (pair : Fin 32) (h₀ : Keeps w₀ s₀ s) :
    ResKeeps w₀ s₀ (execDeferredOrderWithdraw pair s) := by
  unfold execDeferredOrderWithdraw
  repeat' (first
    | with_reducible assumption
    | with_reducible apply Keeps.wr
    | with_reducible apply State.judgeTimings_keeps
    | with_reducible exact Reg.tkPairDeferred_may hw rfl
    | exact hw.le rfl
    | with_reducible apply ResKeeps.next
    | with_reducible apply Keeps.each
    | with_reducible apply Keeps.when
    | with_reducible apply Keeps.foldl
    | split
    | intro _ _ _
    | intro _ _
    | intro _
    | with_reducible refine Keeps.of_pair (by with_reducible assumption) ?_
    | with_reducible refine Keeps.of_triple (by with_reducible assumption) ?_
    | dsimp only)

theorem execTtHealthTimeout_keeps {w₀ : Nat} {s₀ s : State} (hw : Sub 0x80d0028000050000000010 w₀) (lane : Fin 128) (h₀ : Keeps w₀ s₀ s) :
    ResKeeps w₀ s₀ (execTtHealthTimeout lane s) := by
  unfold execTtHealthTimeout
  repeat' (first
    | with_reducible assumption
    | with_reducible apply State.setEng_keeps
    | with_reducible apply State.judgeTimings_keeps
    | (simp only [Keeps.mk_eq]; with_reducible apply KeepsMk.upd)
    | exact hw.le rfl
    | exact Or.inl (hw.bit rfl)
    | with_reducible exact Or.inr rfl
    | with_reducible apply ResKeeps.next
    | with_reducible apply Keeps.each
    | with_reducible apply Keeps.when
    | with_reducible apply Keeps.foldl
    | split
    | intro _ _ _
    | intro _ _
    | intro _
    | with_reducible refine Keeps.of_pair (by with_reducible assumption) ?_
    | with_reducible refine Keeps.of_triple (by with_reducible assumption) ?_
    | dsimp only)

theorem execXcSlot_keeps {w₀ : Nat} {s₀ s : State} (hw : Sub 0x57ef00280000501000100db w₀) (wire : Option (List (Fin 320))) (h₀ : Keeps w₀ s₀ s) :
    ResKeeps w₀ s₀ (execXcSlot wire s) := by
  unfold execXcSlot
  repeat' (first
    | with_reducible assumption
    | with_reducible apply Keeps.wr
    | with_reducible apply State.setUnit_keeps
    | with_reducible apply State.xcSlot_keeps
    | with_reducible apply State.setUnverified_keeps
    | with_reducible apply State.lostAgain_keeps
    | with_reducible exact Reg.tkStatusUnverified_may hw rfl
    | exact hw.le rfl
    | with_reducible apply ResKeeps.next
    | with_reducible apply Keeps.each
    | with_reducible apply Keeps.when
    | with_reducible apply Keeps.foldl
    | split
    | intro _ _ _
    | intro _ _
    | intro _
    | with_reducible refine Keeps.of_pair (by with_reducible assumption) ?_
    | with_reducible refine Keeps.of_triple (by with_reducible assumption) ?_
    | dsimp only)

theorem execRedCmdNop_keeps {w₀ : Nat} {s₀ s : State} (hw : Sub 0x10000000000 w₀) (h₀ : Keeps w₀ s₀ s) :
    ResKeeps w₀ s₀ (execRedCmdNop s) := by
  unfold execRedCmdNop
  repeat' (first
    | with_reducible assumption
    | with_reducible apply Keeps.wr
    | with_reducible exact Reg.redCmdStatusResult_may hw rfl
    | exact hw.le rfl
    | with_reducible apply ResKeeps.next
    | with_reducible apply Keeps.each
    | with_reducible apply Keeps.when
    | with_reducible apply Keeps.foldl
    | split
    | intro _ _ _
    | intro _ _
    | intro _
    | with_reducible refine Keeps.of_pair (by with_reducible assumption) ?_
    | with_reducible refine Keeps.of_triple (by with_reducible assumption) ?_
    | dsimp only)

theorem execRedRelease_keeps {w₀ : Nat} {s₀ s : State} (hw : Sub 0x10000000000 w₀) (unit : Fin 128) (gen : Fin 65536) (h₀ : Keeps w₀ s₀ s) :
    ResKeeps w₀ s₀ (execRedRelease unit gen s) := by
  unfold execRedRelease
  repeat' (first
    | with_reducible assumption
    | with_reducible apply Keeps.wr
    | with_reducible apply State.unitRelease_keeps
    | with_reducible exact Reg.redCmdStatusResult_may hw rfl
    | exact hw.le rfl
    | with_reducible apply ResKeeps.next
    | with_reducible apply Keeps.each
    | with_reducible apply Keeps.when
    | with_reducible apply Keeps.foldl
    | split
    | intro _ _ _
    | intro _ _
    | intro _
    | with_reducible refine Keeps.of_pair (by with_reducible assumption) ?_
    | with_reducible refine Keeps.of_triple (by with_reducible assumption) ?_
    | dsimp only)

theorem execRedCmdReserved_keeps {w₀ : Nat} {s₀ s : State} (hw : Sub 0x10000000000 w₀) (h₀ : Keeps w₀ s₀ s) :
    ResKeeps w₀ s₀ (execRedCmdReserved s) := by
  unfold execRedCmdReserved
  repeat' (first
    | with_reducible assumption
    | with_reducible apply Keeps.wr
    | with_reducible exact Reg.redCmdStatusResult_may hw rfl
    | exact hw.le rfl
    | with_reducible apply ResKeeps.next
    | with_reducible apply Keeps.each
    | with_reducible apply Keeps.when
    | with_reducible apply Keeps.foldl
    | split
    | intro _ _ _
    | intro _ _
    | intro _
    | with_reducible refine Keeps.of_pair (by with_reducible assumption) ?_
    | with_reducible refine Keeps.of_triple (by with_reducible assumption) ?_
    | dsimp only)

theorem applyProtection_keeps {w₀ : Nat} {s₀ s : State} (hw : Sub 0x10000000000 w₀) (v : List Byte) (h₀ : Keeps w₀ s₀ s) :
    Keeps w₀ s₀ (applyProtection v s) := by
  unfold applyProtection
  repeat' (first
    | with_reducible assumption
    | with_reducible apply State.wrs_keeps
    | with_reducible exact Reg.redCfgConfirm_may hw rfl
    | with_reducible exact Reg.redCfgDenyUnverified_may hw rfl
    | with_reducible exact Reg.redCfgHbTimeout_may hw rfl
    | with_reducible exact Reg.redCfgHoldoff_may hw rfl
    | with_reducible exact Reg.redFlapFlapLim_may hw rfl
    | with_reducible exact Reg.redFlapFlapWinS_may hw rfl
    | with_reducible exact Reg.redLatchLatchS_may hw rfl
    | with_reducible exact Reg.redPairCfgKind_may hw rfl
    | with_reducible exact Reg.redPairCfgPrimary_may hw rfl
    | with_reducible exact Reg.redPairCfgSecondary_may hw rfl
    | with_reducible exact Reg.redPairCfgTkPair_may hw rfl
    | with_reducible exact Reg.redPairWtrWtrS_may hw rfl
    | with_reducible exact AllMay.nil _
    | with_reducible apply AllMay.cons
    | with_reducible apply AllMay.append
    | with_reducible apply AllMay.map
    | exact hw.le rfl
    | with_reducible apply ResKeeps.next
    | with_reducible apply Keeps.each
    | with_reducible apply Keeps.when
    | with_reducible apply Keeps.foldl
    | split
    | intro _ _ _
    | intro _ _
    | intro _
    | with_reducible refine Keeps.of_pair (by with_reducible assumption) ?_
    | with_reducible refine Keeps.of_triple (by with_reducible assumption) ?_
    | dsimp only)

end Sys2Proof.Machine
end

