-- ==== Sys2Proof/Laws/KeepFaults.lean ====
section
/-! SUPPORT. What the operations of Machine/Faults.lean keep. -/

set_option linter.all false
set_option Elab.async false

namespace Sys2Proof.Machine

theorem State.setCol_keeps {w₀ : Nat} {s₀ s : State} (hw : Sub 0x20000000000 w₀) (st : Nat) (h₀ : Keeps w₀ s₀ s) :
    Keeps w₀ s₀ (State.setCol s st) := by
  unfold State.setCol
  repeat' (first
    | with_reducible assumption
    | with_reducible apply Keeps.wr
    | with_reducible apply State.bumpWrap_keeps
    | with_reducible exact Reg.fltStatusGen_may hw rfl
    | with_reducible exact Reg.fltStatusState_may hw rfl
    | exact hw.le rfl
    | with_reducible apply ResKeeps.next
    | with_reducible apply Keeps.each
    | with_reducible apply Keeps.when
    | with_reducible apply Keeps.foldl
    | split
    | intro _ _ _
    | intro _ _
    | intro _
    | with_reducible refine Keeps.of_pair (by with_reducible assumption) ?_
    | with_reducible refine Keeps.of_triple (by with_reducible assumption) ?_
    | dsimp only)

theorem State.haltDevice_keeps {w₀ : Nat} {s₀ s : State} (hw : Sub 0x5c002800002000000001e w₀) (h₀ : Keeps w₀ s₀ s) :
    Keeps w₀ s₀ (State.haltDevice s) := by
  unfold State.haltDevice
  repeat' (first
    | with_reducible assumption
    | with_reducible apply Keeps.wr
    | with_reducible apply State.tbHalt_keeps
    | with_reducible apply State.rootsHold_keeps
    | with_reducible apply State.updQl_keeps
    | with_reducible exact Reg.fltStatusHalted_may hw rfl
    | exact hw.le rfl
    | with_reducible apply ResKeeps.next
    | with_reducible apply Keeps.each
    | with_reducible apply Keeps.when
    | with_reducible apply Keeps.foldl
    | split
    | intro _ _ _
    | intro _ _
    | intro _
    | with_reducible refine Keeps.of_pair (by with_reducible assumption) ?_
    | with_reducible refine Keeps.of_triple (by with_reducible assumption) ?_
    | dsimp only)

theorem State.quarantine_keeps {w₀ : Nat} {s₀ s : State} (hw : Sub 0x4020000000060100010000 w₀) (cell : Nat) (h₀ : Keeps w₀ s₀ s) :
    Keeps w₀ s₀ (State.quarantine s cell) := by
  unfold State.quarantine
  repeat' (first
    | with_reducible assumption
    | with_reducible apply State.wrs_keeps
    | with_reducible apply State.bpUpdate_keeps
    | with_reducible exact Reg.fabPoolSharedFree_may hw rfl
    | with_reducible exact Reg.fltQuarCells_may hw rfl
    | with_reducible exact Reg.fltQuarFull_may hw rfl
    | with_reducible exact AllMay.nil _
    | with_reducible apply AllMay.cons
    | with_reducible apply AllMay.append
    | with_reducible apply AllMay.map
    | (simp only [Keeps.mk_eq]; with_reducible apply KeepsMk.upd)
    | exact hw.le rfl
    | exact Or.inl (hw.bit rfl)
    | with_reducible exact Or.inr rfl
    | with_reducible apply ResKeeps.next
    | with_reducible apply Keeps.each
    | with_reducible apply Keeps.when
    | with_reducible apply Keeps.foldl
    | split
    | intro _ _ _
    | intro _ _
    | intro _
    | with_reducible refine Keeps.of_pair (by with_reducible assumption) ?_
    | with_reducible refine Keeps.of_triple (by with_reducible assumption) ?_
    | dsimp only)

theorem State.contain_keeps {w₀ : Nat} {s₀ s : State} (hw : Sub 0x4020000000060100010000 w₀) (src : Nat) (synd : Nat) (h₀ : Keeps w₀ s₀ s) :
    Keeps w₀ s₀ (State.contain s src synd) := by
  unfold State.contain
  repeat' (first
    | with_reducible assumption
    | with_reducible apply State.quarantine_keeps
    | (simp only [Keeps.mk_eq]; with_reducible apply KeepsMk.upd)
    | exact hw.le rfl
    | exact Or.inl (hw.bit rfl)
    | with_reducible exact Or.inr rfl
    | with_reducible apply ResKeeps.next
    | with_reducible apply Keeps.each
    | with_reducible apply Keeps.when
    | with_reducible apply Keeps.foldl
    | split
    | intro _ _ _
    | intro _ _
    | intro _
    | with_reducible refine Keeps.of_pair (by with_reducible assumption) ?_
    | with_reducible refine Keeps.of_triple (by with_reducible assumption) ?_
    | dsimp only)

theorem State.react_keeps {w₀ : Nat} {s₀ s : State} (hw : Sub 0x3f7e006800007010101013e w₀) (r : Nat) (src : Nat) (synd : Nat) (h₀ : Keeps w₀ s₀ s) :
    Keeps w₀ s₀ (State.react s r src synd) := by
  unfold State.react
  repeat' (first
    | with_reducible assumption
    | with_reducible apply State.haltHold_keeps
    | with_reducible apply State.haltDevice_keeps
    | with_reducible apply State.contain_keeps
    | (simp only [Keeps.mk_eq]; with_reducible apply KeepsMk.upd)
    | exact hw.le rfl
    | exact Or.inl (hw.bit rfl)
    | with_reducible exact Or.inr rfl
    | with_reducible apply ResKeeps.next
    | with_reducible apply Keeps.each
    | with_reducible apply Keeps.when
    | with_reducible apply Keeps.foldl
    | split
    | intro _ _ _
    | intro _ _
    | intro _
    | with_reducible refine Keeps.of_pair (by with_reducible assumption) ?_
    | with_reducible refine Keeps.of_triple (by with_reducible assumption) ?_
    | dsimp only)

theorem State.colTake_keeps {w₀ : Nat} {s₀ s : State} (hw : Sub 0x3f7e106800007010101013e w₀) (e : ColEv) (first : Bool) (h₀ : Keeps w₀ s₀ s) :
    Keeps w₀ s₀ (State.colTake s e first) := by
  unfold State.colTake
  repeat' (first
    | with_reducible assumption
    | with_reducible apply State.bump_keeps
    | with_reducible apply State.jwrite_keeps
    | with_reducible apply State.setLevel_keeps
    | with_reducible apply State.ev_keeps
    | with_reducible apply State.react_keeps
    | with_reducible exact Reg.fltSrcCount_may hw rfl
    | exact hw.le rfl
    | with_reducible apply ResKeeps.next
    | with_reducible apply Keeps.each
    | with_reducible apply Keeps.when
    | with_reducible apply Keeps.foldl
    | split
    | intro _ _ _
    | intro _ _
    | intro _
    | with_reducible refine Keeps.of_pair (by with_reducible assumption) ?_
    | with_reducible refine Keeps.of_triple (by with_reducible assumption) ?_
    | dsimp only)

theorem State.colRecord_keeps {w₀ : Nat} {s₀ s : State} (hw : Sub 0x20000000000 w₀) (e : ColEv) (h₀ : Keeps w₀ s₀ s) :
    Keeps w₀ s₀ (State.colRecord s e) := by
  unfold State.colRecord
  repeat' (first
    | with_reducible assumption
    | with_reducible apply State.wrs_keeps
    | with_reducible exact Reg.fltRecFracFrac_may hw rfl
    | with_reducible exact Reg.fltRecNsNs_may hw rfl
    | with_reducible exact Reg.fltRecSecHiSec_may hw rfl
    | with_reducible exact Reg.fltRecSecLoSec_may hw rfl
    | with_reducible exact Reg.fltRecSrcClass_may hw rfl
    | with_reducible exact Reg.fltRecSrcInj_may hw rfl
    | with_reducible exact Reg.fltRecSrcRail_may hw rfl
    | with_reducible exact Reg.fltRecSrcReaction_may hw rfl
    | with_reducible exact Reg.fltRecSrcSource_may hw rfl
    | with_reducible exact Reg.fltRecSrcTimeValid_may hw rfl
    | with_reducible exact Reg.fltRecSyndSyndrome_may hw rfl
    | with_reducible exact AllMay.nil _
    | with_reducible apply AllMay.cons
    | with_reducible apply AllMay.append
    | with_reducible apply AllMay.map
    | exact hw.le rfl
    | with_reducible apply ResKeeps.next
    | with_reducible apply Keeps.each
    | with_reducible apply Keeps.when
    | with_reducible apply Keeps.foldl
    | split
    | intro _ _ _
    | intro _ _
    | intro _
    | with_reducible refine Keeps.of_pair (by with_reducible assumption) ?_
    | with_reducible refine Keeps.of_triple (by with_reducible assumption) ?_
    | dsimp only)

theorem State.colLater_keeps {w₀ : Nat} {s₀ s : State} (hw : Sub 0x3f7e106800007010101013e w₀) (e : ColEv) (h₀ : Keeps w₀ s₀ s) :
    Keeps w₀ s₀ (State.colLater s e) := by
  unfold State.colLater
  repeat' (first
    | with_reducible assumption
    | with_reducible apply Keeps.wr
    | with_reducible apply State.intr_keeps
    | with_reducible apply State.colTake_keeps
    | with_reducible exact Reg.fltStatusOvf_may hw rfl
    | exact hw.le rfl
    | with_reducible apply ResKeeps.next
    | with_reducible apply Keeps.each
    | with_reducible apply Keeps.when
    | with_reducible apply Keeps.foldl
    | split
    | intro _ _ _
    | intro _ _
    | intro _
    | with_reducible refine Keeps.of_pair (by with_reducible assumption) ?_
    | with_reducible refine Keeps.of_triple (by with_reducible assumption) ?_
    | dsimp only)

theorem State.colEvents_keeps {w₀ : Nat} {s₀ s : State} (hw : Sub 0x3f7e106800007010101013e w₀) (l : List ColEv) (h₀ : Keeps w₀ s₀ s) :
    Keeps w₀ s₀ (State.colEvents s l) := by
  unfold State.colEvents
  repeat' (first
    | with_reducible assumption
    | with_reducible apply State.intr_keeps
    | with_reducible apply State.setCol_keeps
    | with_reducible apply State.colTake_keeps
    | with_reducible apply State.colRecord_keeps
    | with_reducible apply State.colLater_keeps
    | exact hw.le rfl
    | with_reducible apply ResKeeps.next
    | with_reducible apply Keeps.each
    | with_reducible apply Keeps.when
    | with_reducible apply Keeps.foldl
    | split
    | intro _ _ _
    | intro _ _
    | intro _
    | with_reducible refine Keeps.of_pair (by with_reducible assumption) ?_
    | with_reducible refine Keeps.of_triple (by with_reducible assumption) ?_
    | dsimp only)

theorem State.setPair_keeps {w₀ : Nat} {s₀ s : State} (hw : Sub 0x10000000020000000000 w₀) (src : Nat) (pair : Nat) (h₀ : Keeps w₀ s₀ s) :
    Keeps w₀ s₀ (State.setPair s src pair) := by
  unfold State.setPair
  repeat' (first
    | with_reducible assumption
    | with_reducible apply Keeps.wr
    | with_reducible apply State.setLine_keeps
    | with_reducible apply State.setActive_keeps
    | with_reducible exact Reg.fltSrcRail_may hw rfl
    | (simp only [Keeps.mk_eq]; with_reducible apply KeepsMk.upd)
    | exact hw.le rfl
    | exact Or.inl (hw.bit rfl)
    | with_reducible exact Or.inr rfl
    | with_reducible apply ResKeeps.next
    | with_reducible apply Keeps.each
    | with_reducible apply Keeps.when
    | with_reducible apply Keeps.foldl
    | split
    | intro _ _ _
    | intro _ _
    | intro _
    | with_reducible refine Keeps.of_pair (by with_reducible assumption) ?_
    | with_reducible refine Keeps.of_triple (by with_reducible assumption) ?_
    | dsimp only)

theorem State.sourcesOff_keeps {w₀ : Nat} {s₀ s : State} (hw : Sub 0x10000000020000000000 w₀) (d : Nat) (h₀ : Keeps w₀ s₀ s) :
    Keeps w₀ s₀ (State.sourcesOff s d) := by
  unfold State.sourcesOff
  repeat' (first
    | with_reducible assumption
    | with_reducible apply State.unreport_keeps
    | with_reducible apply State.setPair_keeps
    | exact hw.le rfl
    | with_reducible apply ResKeeps.next
    | with_reducible apply Keeps.each
    | with_reducible apply Keeps.when
    | with_reducible apply Keeps.foldl
    | split
    | intro _ _ _
    | intro _ _
    | intro _
    | with_reducible refine Keeps.of_pair (by with_reducible assumption) ?_
    | with_reducible refine Keeps.of_triple (by with_reducible assumption) ?_
    | dsimp only)

theorem State.bufError_keeps {w₀ : Nat} {s₀ s : State} (hw : Sub 0x7020000000240100010000 w₀) (id : Nat) (h₀ : Keeps w₀ s₀ s) :
    Keeps w₀ s₀ (State.bufError s id) := by
  unfold State.bufError
  repeat' (first
    | with_reducible assumption
    | with_reducible apply State.bump_keeps
    | with_reducible apply State.setFrame_keeps
    | with_reducible apply State.freeCells_keeps
    | with_reducible apply State.reap_keeps
    | with_reducible apply State.reseq_keeps
    | with_reducible apply State.dropUnstarted_keeps
    | with_reducible apply State.setHostq_keeps
    | with_reducible exact Reg.fabCntBadDiscard_may hw rfl
    | (simp only [Keeps.mk_eq]; with_reducible apply KeepsMk.upd)
    | exact hw.le rfl
    | exact Or.inl (hw.bit rfl)
    | with_reducible exact Or.inr rfl
    | with_reducible apply ResKeeps.next
    | with_reducible apply Keeps.each
    | with_reducible apply Keeps.when
    | with_reducible apply Keeps.foldl
    | split
    | intro _ _ _
    | intro _ _
    | intro _
    | with_reducible refine Keeps.of_pair (by with_reducible assumption) ?_
    | with_reducible refine Keeps.of_triple (by with_reducible assumption) ?_
    | dsimp only)

theorem State.queueError_keeps {w₀ : Nat} {s₀ s : State} (hw : Sub 0x2000000000200001000000 w₀) (synd : Nat) (h₀ : Keeps w₀ s₀ s) :
    Keeps w₀ s₀ (State.queueError s synd) := by
  unfold State.queueError
  repeat' (first
    | with_reducible assumption
    | with_reducible apply State.setLnq_keeps
    | with_reducible apply State.fifoStatus_keeps
    | (simp only [Keeps.mk_eq]; with_reducible apply KeepsMk.upd)
    | exact hw.le rfl
    | exact Or.inl (hw.bit rfl)
    | with_reducible exact Or.inr rfl
    | with_reducible apply ResKeeps.next
    | with_reducible apply Keeps.each
    | with_reducible apply Keeps.when
    | with_reducible apply Keeps.foldl
    | split
    | intro _ _ _
    | intro _ _
    | intro _
    | with_reducible refine Keeps.of_pair (by with_reducible assumption) ?_
    | with_reducible refine Keeps.of_triple (by with_reducible assumption) ?_
    | dsimp only)

theorem State.errorHere_keeps {w₀ : Nat} {s₀ s : State} (hw : Sub 0x7030000000240101010000 w₀) (e : FaultEv) (h₀ : Keeps w₀ s₀ s) :
    Keeps w₀ s₀ (State.errorHere s e) := by
  unfold State.errorHere
  repeat' (first
    | with_reducible assumption
    | with_reducible apply State.report_keeps
    | with_reducible apply State.bufError_keeps
    | with_reducible apply State.queueError_keeps
    | exact hw.le rfl
    | with_reducible apply ResKeeps.next
    | with_reducible apply Keeps.each
    | with_reducible apply Keeps.when
    | with_reducible apply Keeps.foldl
    | split
    | intro _ _ _
    | intro _ _
    | intro _
    | with_reducible refine Keeps.of_pair (by with_reducible assumption) ?_
    | with_reducible refine Keeps.of_triple (by with_reducible assumption) ?_
    | dsimp only)

theorem State.collide_keeps {w₀ : Nat} {s₀ s : State} (hw : Sub 0x20000000000000000000 w₀) (l : List ColEv) (h₀ : Keeps w₀ s₀ s) :
    Keeps w₀ s₀ (State.collide s l) := by
  unfold State.collide
  repeat' (first
    | with_reducible assumption
    | (simp only [Keeps.mk_eq]; with_reducible apply KeepsMk.upd)
    | exact hw.le rfl
    | exact Or.inl (hw.bit rfl)
    | with_reducible exact Or.inr rfl
    | with_reducible apply ResKeeps.next
    | with_reducible apply Keeps.each
    | with_reducible apply Keeps.when
    | with_reducible apply Keeps.foldl
    | split
    | intro _ _ _
    | intro _ _
    | intro _
    | with_reducible refine Keeps.of_pair (by with_reducible assumption) ?_
    | with_reducible refine Keeps.of_triple (by with_reducible assumption) ?_
    | dsimp only)

theorem State.evPair_keeps {w₀ : Nat} {s₀ s : State} (hw : Sub 0x10000000030000000000 w₀) (e : ColEv) (h₀ : Keeps w₀ s₀ s) :
    Keeps w₀ s₀ (State.evPair s e) := by
  unfold State.evPair
  repeat' (first
    | with_reducible assumption
    | with_reducible apply State.setUnmonitored_keeps
    | with_reducible apply State.setPair_keeps
    | exact hw.le rfl
    | with_reducible apply ResKeeps.next
    | with_reducible apply Keeps.each
    | with_reducible apply Keeps.when
    | with_reducible apply Keeps.foldl
    | split
    | intro _ _ _
    | intro _ _
    | intro _
    | with_reducible refine Keeps.of_pair (by with_reducible assumption) ?_
    | with_reducible refine Keeps.of_triple (by with_reducible assumption) ?_
    | dsimp only)

theorem State.faultCycle_keeps {w₀ : Nat} {s₀ s : State} (hw : Sub 0x3f7f106800027010101013e w₀) (events : List FaultEv) (h₀ : Keeps w₀ s₀ s) :
    Keeps w₀ s₀ (State.faultCycle s events) := by
  unfold State.faultCycle
  repeat' (first
    | with_reducible assumption
    | with_reducible apply State.colEvents_keeps
    | with_reducible apply State.errorHere_keeps
    | with_reducible apply State.collide_keeps
    | with_reducible apply State.evPair_keeps
    | exact hw.le rfl
    | with_reducible apply ResKeeps.next
    | with_reducible apply Keeps.each
    | with_reducible apply Keeps.when
    | with_reducible apply Keeps.foldl
    | split
    | intro _ _ _
    | intro _ _
    | intro _
    | with_reducible refine Keeps.of_pair (by with_reducible assumption) ?_
    | with_reducible refine Keeps.of_triple (by with_reducible assumption) ?_
    | dsimp only)

theorem execFaultEvent_keeps {w₀ : Nat} {s₀ s : State} (hw : Sub 0x3f7f106800027010101013e w₀) (events : List FaultEv) (h₀ : Keeps w₀ s₀ s) :
    ResKeeps w₀ s₀ (execFaultEvent events s) := by
  unfold execFaultEvent
  repeat' (first
    | with_reducible assumption
    | with_reducible apply State.faultCycle_keeps
    | exact hw.le rfl
    | with_reducible apply ResKeeps.next
    | with_reducible apply Keeps.each
    | with_reducible apply Keeps.when
    | with_reducible apply Keeps.foldl
    | split
    | intro _ _ _
    | intro _ _
    | intro _
    | with_reducible refine Keeps.of_pair (by with_reducible assumption) ?_
    | with_reducible refine Keeps.of_triple (by with_reducible assumption) ?_
    | dsimp only)

theorem execFaultRailFault_keeps {w₀ : Nat} {s₀ s : State} (hw : Sub 0x3f7f106800027010101013e w₀) (source : Fin 512) (code : Fin 4 × Bool) (h₀ : Keeps w₀ s₀ s) :
    ResKeeps w₀ s₀ (execFaultRailFault source code s) := by
  unfold execFaultRailFault
  repeat' (first
    | with_reducible assumption
    | with_reducible apply State.faultCycle_keeps
    | exact hw.le rfl
    | with_reducible apply ResKeeps.next
    | with_reducible apply Keeps.each
    | with_reducible apply Keeps.when
    | with_reducible apply Keeps.foldl
    | split
    | intro _ _ _
    | intro _ _
    | intro _
    | with_reducible refine Keeps.of_pair (by with_reducible assumption) ?_
    | with_reducible refine Keeps.of_triple (by with_reducible assumption) ?_
    | dsimp only)

theorem State.lostReview_keeps {w₀ : Nat} {s₀ s : State} (hw : Sub 0x57eb00280000501000100db w₀) (src : Nat) (h₀ : Keeps w₀ s₀ s) :
    Keeps w₀ s₀ (State.lostReview s src) := by
  unfold State.lostReview
  repeat' (first
    | with_reducible assumption
    | with_reducible apply State.lostAgain_keeps
    | exact hw.le rfl
    | with_reducible apply ResKeeps.next
    | with_reducible apply Keeps.each
    | with_reducible apply Keeps.when
    | with_reducible apply Keeps.foldl
    | split
    | intro _ _ _
    | intro _ _
    | intro _
    | with_reducible refine Keeps.of_pair (by with_reducible assumption) ?_
    | with_reducible refine Keeps.of_triple (by with_reducible assumption) ?_
    | dsimp only)

theorem execFaultSourceIdle_keeps {w₀ : Nat} {s₀ s : State} (hw : Sub 0x57eb00280000701000100db w₀) (source : Fin 512) (h₀ : Keeps w₀ s₀ s) :
    ResKeeps w₀ s₀ (execFaultSourceIdle source s) := by
  have h₁ := State.lostReview_keeps (hw.le rfl) source.val h₀
  unfold execFaultSourceIdle
  dsimp only
  generalize State.lostReview s source.val = t at h₁ ⊢
  exact iteInduction (motive := fun x => ResKeeps w₀ s₀ x) (fun _ => ResKeeps.next h₁) fun _ =>
    iteInduction (motive := fun x => ResKeeps w₀ s₀ x) (fun _ => ResKeeps.next (State.setPair_keeps (hw.le rfl) _ _ h₁))
      fun _ => ResKeeps.next (State.setPair_keeps (hw.le rfl) _ _ (State.unreport_keeps (hw.le rfl) _ h₁))
theorem execCollectorReactEnd_keeps {w₀ : Nat} {s₀ s : State} (hw : Sub 0x20000000000 w₀) (h₀ : Keeps w₀ s₀ s) :
    ResKeeps w₀ s₀ (execCollectorReactEnd s) := by
  unfold execCollectorReactEnd
  repeat' (first
    | with_reducible assumption
    | with_reducible apply State.setCol_keeps
    | exact hw.le rfl
    | with_reducible apply ResKeeps.next
    | with_reducible apply Keeps.each
    | with_reducible apply Keeps.when
    | with_reducible apply Keeps.foldl
    | split
    | intro _ _ _
    | intro _ _
    | intro _
    | with_reducible refine Keeps.of_pair (by with_reducible assumption) ?_
    | with_reducible refine Keeps.of_triple (by with_reducible assumption) ?_
    | dsimp only)

theorem execFailoverInputRelease_keeps {w₀ : Nat} {s₀ s : State} (hw : Sub 0x57eb00280000501000100db w₀) (source : Fin 512) (h₀ : Keeps w₀ s₀ s) :
    ResKeeps w₀ s₀ (execFailoverInputRelease source s) := by
  unfold execFailoverInputRelease
  repeat' (first
    | with_reducible assumption
    | with_reducible apply State.lostAgain_keeps
    | (simp only [Keeps.mk_eq]; with_reducible apply KeepsMk.upd)
    | exact hw.le rfl
    | exact Or.inl (hw.bit rfl)
    | with_reducible exact Or.inr rfl
    | with_reducible apply ResKeeps.next
    | with_reducible apply Keeps.each
    | with_reducible apply Keeps.when
    | with_reducible apply Keeps.foldl
    | split
    | intro _ _ _
    | intro _ _
    | intro _
    | with_reducible refine Keeps.of_pair (by with_reducible assumption) ?_
    | with_reducible refine Keeps.of_triple (by with_reducible assumption) ?_
    | dsimp only)

theorem State.levelClear_keeps {w₀ : Nat} {s₀ s : State} (hw : Sub 0x3f7e006800007010101013e w₀) (src : Nat) (h₀ : Keeps w₀ s₀ s) :
    Keeps w₀ s₀ (State.levelClear s src) := by
  unfold State.levelClear
  repeat' (first
    | with_reducible assumption
    | with_reducible apply State.setLevel_keeps
    | with_reducible apply State.haltRelease_keeps
    | exact hw.le rfl
    | with_reducible apply ResKeeps.next
    | with_reducible apply Keeps.each
    | with_reducible apply Keeps.when
    | with_reducible apply Keeps.foldl
    | split
    | intro _ _ _
    | intro _ _
    | intro _
    | with_reducible refine Keeps.of_pair (by with_reducible assumption) ?_
    | with_reducible refine Keeps.of_triple (by with_reducible assumption) ?_
    | dsimp only)

theorem execFltClear_keeps {w₀ : Nat} {s₀ s : State} (hw : Sub 0x3f7e006800007010101013e w₀) (value : Word) (h₀ : Keeps w₀ s₀ s) :
    ResKeeps w₀ s₀ (execFltClear value s) := by
  unfold execFltClear
  repeat' (first
    | with_reducible assumption
    | with_reducible apply Keeps.wr
    | with_reducible apply State.clrs_keeps
    | with_reducible apply State.setCol_keeps
    | with_reducible apply State.levelClear_keeps
    | with_reducible exact Reg.fltClearStatusResult_may hw rfl
    | with_reducible exact Reg.fltRecFracFrac_may hw rfl
    | with_reducible exact Reg.fltRecNsNs_may hw rfl
    | with_reducible exact Reg.fltRecSecHiSec_may hw rfl
    | with_reducible exact Reg.fltRecSecLoSec_may hw rfl
    | with_reducible exact Reg.fltRecSrcClass_may hw rfl
    | with_reducible exact Reg.fltRecSrcInj_may hw rfl
    | with_reducible exact Reg.fltRecSrcRail_may hw rfl
    | with_reducible exact Reg.fltRecSrcReaction_may hw rfl
    | with_reducible exact Reg.fltRecSrcSource_may hw rfl
    | with_reducible exact Reg.fltRecSrcTimeValid_may hw rfl
    | with_reducible exact Reg.fltRecSyndSyndrome_may hw rfl
    | with_reducible exact Reg.fltStatusOvf_may hw rfl
    | with_reducible exact AllIn.nil _
    | with_reducible apply AllIn.cons
    | with_reducible apply AllIn.append
    | with_reducible apply AllIn.map
    | exact hw.le rfl
    | with_reducible apply ResKeeps.next
    | with_reducible apply Keeps.each
    | with_reducible apply Keeps.when
    | with_reducible apply Keeps.foldl
    | split
    | intro _ _ _
    | intro _ _
    | intro _
    | with_reducible refine Keeps.of_pair (by with_reducible assumption) ?_
    | with_reducible refine Keeps.of_triple (by with_reducible assumption) ?_
    | dsimp only)

theorem execFltSrcClr_keeps {w₀ : Nat} {s₀ s : State} (hw : Sub 0x3f7e006800007010101013e w₀) (source : Fin 512) (value : Word) (h₀ : Keeps w₀ s₀ s) :
    ResKeeps w₀ s₀ (execFltSrcClr source value s) := by
  unfold execFltSrcClr
  repeat' (first
    | with_reducible assumption
    | with_reducible apply Keeps.wr
    | with_reducible apply State.levelClear_keeps
    | with_reducible exact Reg.fltStatusClrRefused_may hw rfl
    | exact hw.le rfl
    | with_reducible apply ResKeeps.next
    | with_reducible apply Keeps.each
    | with_reducible apply Keeps.when
    | with_reducible apply Keeps.foldl
    | split
    | intro _ _ _
    | intro _ _
    | intro _
    | with_reducible refine Keeps.of_pair (by with_reducible assumption) ?_
    | with_reducible refine Keeps.of_triple (by with_reducible assumption) ?_
    | dsimp only)

theorem execFltInject_keeps {w₀ : Nat} {s₀ s : State} (hw : Sub 0x20000000020000000000 w₀) (value : Word) (h₀ : Keeps w₀ s₀ s) :
    ResKeeps w₀ s₀ (execFltInject value s) := by
  unfold execFltInject
  repeat' (first
    | with_reducible assumption
    | with_reducible apply Keeps.wr
    | with_reducible apply State.wrs_keeps
    | with_reducible exact Reg.fltInjStatusBusy_may hw rfl
    | with_reducible exact Reg.fltInjStatusResult_may hw rfl
    | with_reducible exact Reg.fltInjStatusSource_may hw rfl
    | with_reducible exact AllMay.nil _
    | with_reducible apply AllMay.cons
    | with_reducible apply AllMay.append
    | with_reducible apply AllMay.map
    | (simp only [Keeps.mk_eq]; with_reducible apply KeepsMk.upd)
    | exact hw.le rfl
    | exact Or.inl (hw.bit rfl)
    | with_reducible exact Or.inr rfl
    | with_reducible apply ResKeeps.next
    | with_reducible apply Keeps.each
    | with_reducible apply Keeps.when
    | with_reducible apply Keeps.foldl
    | split
    | intro _ _ _
    | intro _ _
    | intro _
    | with_reducible refine Keeps.of_pair (by with_reducible assumption) ?_
    | with_reducible refine Keeps.of_triple (by with_reducible assumption) ?_
    | dsimp only)

theorem execFltInjectEnd_keeps {w₀ : Nat} {s₀ s : State} (hw : Sub 0x20000000020000000000 w₀) (h₀ : Keeps w₀ s₀ s) :
    ResKeeps w₀ s₀ (execFltInjectEnd s) := by
  unfold execFltInjectEnd
  repeat' (first
    | with_reducible assumption
    | with_reducible apply Keeps.wr
    | with_reducible apply State.wrs_keeps
    | with_reducible exact Reg.fltInjStatusBusy_may hw rfl
    | with_reducible exact Reg.fltInjStatusCollided_may hw rfl
    | with_reducible exact Reg.fltInjStatusDone_may hw rfl
    | with_reducible exact AllMay.nil _
    | with_reducible apply AllMay.cons
    | with_reducible apply AllMay.append
    | with_reducible apply AllMay.map
    | (simp only [Keeps.mk_eq]; with_reducible apply KeepsMk.upd)
    | exact hw.le rfl
    | exact Or.inl (hw.bit rfl)
    | with_reducible exact Or.inr rfl
    | with_reducible apply ResKeeps.next
    | with_reducible apply Keeps.each
    | with_reducible apply Keeps.when
    | with_reducible apply Keeps.foldl
    | split
    | intro _ _ _
    | intro _ _
    | intro _
    | with_reducible refine Keeps.of_pair (by with_reducible assumption) ?_
    | with_reducible refine Keeps.of_triple (by with_reducible assumption) ?_
    | dsimp only)

theorem applyFaultPolicy_keeps {w₀ : Nat} {s₀ s : State} (hw : Sub 0x20000000000 w₀) (v : List Byte) (h₀ : Keeps w₀ s₀ s) :
    Keeps w₀ s₀ (applyFaultPolicy v s) := by
  unfold applyFaultPolicy
  repeat' (first
    | with_reducible assumption
    | with_reducible apply Keeps.wr
    | with_reducible exact Reg.fltCfgInjEn_may hw rfl
    | with_reducible exact Reg.fltSrcReaction_may hw rfl
    | exact hw.le rfl
    | with_reducible apply ResKeeps.next
    | with_reducible apply Keeps.each
    | with_reducible apply Keeps.when
    | with_reducible apply Keeps.foldl
    | split
    | intro _ _ _
    | intro _ _
    | intro _
    | with_reducible refine Keeps.of_pair (by with_reducible assumption) ?_
    | with_reducible refine Keeps.of_triple (by with_reducible assumption) ?_
    | dsimp only)

end Sys2Proof.Machine
end

