-- ==== Sys2Proof/Laws/KeepHostReset.lean ====
section
/-! SUPPORT. What the operations of Machine/HostReset.lean keep. -/

set_option linter.all false
set_option Elab.async false

namespace Sys2Proof.Machine

theorem ringFlds_in {w : Nat} (hw : Sub 0x200000000000 w) (r : Nat) : AllIn w (ringFlds r) := by
  unfold ringFlds
  exact AllIn.cons (Reg.hifRingBaseLoBaseLo_may hw rfl) (AllIn.cons (Reg.hifRingBaseHiBaseHi_may hw rfl) (AllIn.cons (Reg.hifRingCtlEn_may hw rfl) (AllIn.cons (Reg.hifRingCtlSize_may hw rfl) (AllIn.cons (Reg.hifRingDevIdxDevIdx_may hw rfl) (AllIn.cons (Reg.hifRingHostIdxHostIdx_may hw rfl) (AllIn.cons (Reg.hifRingWbLoWbLo_may hw rfl) (AllIn.cons (Reg.hifRingWbHiWbHi_may hw rfl) (AllIn.nil _))))))))

theorem State.endpointReset_keeps {w₀ : Nat} {s₀ s : State} (hw : Sub 0x80000000200000000000 w₀) (h₀ : Keeps w₀ s₀ s) :
    Keeps w₀ s₀ (State.endpointReset s) := by
  unfold State.endpointReset
  repeat' (first
    | with_reducible assumption
    | with_reducible apply State.wrs_keeps
    | with_reducible exact Reg.hifStatusBme_may hw rfl
    | with_reducible exact Reg.hifStatusMsixEn_may hw rfl
    | with_reducible exact AllMay.nil _
    | with_reducible apply AllMay.cons
    | with_reducible apply AllMay.append
    | with_reducible apply AllMay.map
    | (simp only [Keeps.mk_eq]; with_reducible apply KeepsMk.upd)
    | exact hw.le rfl
    | exact Or.inl (hw.bit rfl)
    | with_reducible exact Or.inr rfl
    | with_reducible apply ResKeeps.next
    | with_reducible apply Keeps.each
    | with_reducible apply Keeps.when
    | with_reducible apply Keeps.foldl
    | split
    | intro _ _ _
    | intro _ _
    | intro _
    | with_reducible refine Keeps.of_pair (by with_reducible assumption) ?_
    | with_reducible refine Keeps.of_triple (by with_reducible assumption) ?_
    | dsimp only)

theorem State.hostqDrop_keeps {w₀ : Nat} {s₀ s : State} (hw : Sub 0x4020000000240100010000 w₀) (h₀ : Keeps w₀ s₀ s) :
    Keeps w₀ s₀ (State.hostqDrop s) := by
  unfold State.hostqDrop
  repeat' (first
    | with_reducible assumption
    | with_reducible apply State.setFrame_keeps
    | with_reducible apply State.freeCells_keeps
    | with_reducible apply State.setHostq_keeps
    | exact hw.le rfl
    | with_reducible apply ResKeeps.next
    | with_reducible apply Keeps.each
    | with_reducible apply Keeps.when
    | with_reducible apply Keeps.foldl
    | split
    | intro _ _ _
    | intro _ _
    | intro _
    | with_reducible refine Keeps.of_pair (by with_reducible assumption) ?_
    | with_reducible refine Keeps.of_triple (by with_reducible assumption) ?_
    | dsimp only)

theorem State.hifReset_keeps {w₀ : Nat} {s₀ s : State} (hw : Sub 0x40a0008000240100010000 w₀) (h₀ : Keeps w₀ s₀ s) :
    Keeps w₀ s₀ (State.hifReset s) := by
  unfold State.hifReset
  repeat' (first
    | with_reducible assumption
    | exact ringFlds_in (hw.le rfl) _
    | with_reducible apply Keeps.wr
    | with_reducible apply State.clrs_keeps
    | with_reducible apply State.fifoStatus_keeps
    | with_reducible apply State.hostqDrop_keeps
    | with_reducible exact Reg.hifAccAddrAddr_may hw rfl
    | with_reducible exact Reg.hifAccAddrBar2_may hw rfl
    | with_reducible exact Reg.hifAccErrCount_may hw rfl
    | with_reducible exact Reg.hifAccErrPath_may hw rfl
    | with_reducible exact Reg.hifAccErrType_may hw rfl
    | with_reducible exact Reg.hifAccErrValid_may hw rfl
    | with_reducible exact Reg.hifIntMaskMask_may hw rfl
    | with_reducible exact Reg.hifIntStatusStatus_may hw rfl
    | with_reducible exact Reg.hifIrqMaskMask_may hw rfl
    | with_reducible exact Reg.hifLnqDataData_may hw rfl
    | with_reducible exact Reg.hifStatusMsixEn_may hw rfl
    | with_reducible exact Reg.hifTcqDataData_may hw rfl
    | with_reducible exact Reg.hifTcrDataData_may hw rfl
    | with_reducible exact AllIn.nil _
    | with_reducible apply AllIn.cons
    | with_reducible apply AllIn.append
    | with_reducible apply AllIn.map
    | (simp only [Keeps.mk_eq]; with_reducible apply KeepsMk.upd)
    | exact hw.le rfl
    | exact Or.inl (hw.bit rfl)
    | with_reducible exact Or.inr rfl
    | with_reducible apply ResKeeps.next
    | with_reducible apply Keeps.each
    | with_reducible apply Keeps.when
    | with_reducible apply Keeps.foldl
    | split
    | intro _ _ _
    | intro _ _
    | intro _
    | with_reducible refine Keeps.of_pair (by with_reducible assumption) ?_
    | with_reducible refine Keeps.of_triple (by with_reducible assumption) ?_
    | dsimp only)

theorem State.hostViewBlocks_keeps {w₀ : Nat} {s₀ s : State} (hw : Sub 0x30000000000f0001000050 w₀) (h₀ : Keeps w₀ s₀ s) :
    Keeps w₀ s₀ (State.hostViewBlocks s) := by
  unfold State.hostViewBlocks
  repeat' (first
    | with_reducible assumption
    | with_reducible apply Keeps.wr
    | with_reducible apply State.clrs_keeps
    | with_reducible apply State.pmonReset_keeps
    | with_reducible apply State.tblReset_keeps
    | with_reducible exact Reg.fltClearStatusResult_may hw rfl
    | with_reducible exact Reg.fltInjStatusResult_may hw rfl
    | with_reducible exact Reg.redCmdStatusResult_may hw rfl
    | with_reducible exact Reg.secReqStatusClaim_may hw rfl
    | with_reducible exact Reg.tkTbFeedStatusResult_may hw rfl
    | with_reducible exact Reg.tsPgCmdStatusPg_may hw rfl
    | with_reducible exact Reg.tsPgCmdStatusResult_may hw rfl
    | with_reducible exact Reg.tsPgStgCfgMode_may hw rfl
    | with_reducible exact Reg.tsPgStgCfgPol_may hw rfl
    | with_reducible exact Reg.tsPgStgCfgTb_may hw rfl
    | with_reducible exact Reg.tsPgStgCountCount_may hw rfl
    | with_reducible exact Reg.tsPgStgPeriodHiPeriod_may hw rfl
    | with_reducible exact Reg.tsPgStgPeriodLoPeriod_may hw rfl
    | with_reducible exact Reg.tsPgStgStartFracFrac_may hw rfl
    | with_reducible exact Reg.tsPgStgStartNsNs_may hw rfl
    | with_reducible exact Reg.tsPgStgStartSecHiSec_may hw rfl
    | with_reducible exact Reg.tsPgStgStartSecLoSec_may hw rfl
    | with_reducible exact Reg.tsPgStgWidthHiWidth_may hw rfl
    | with_reducible exact Reg.tsPgStgWidthLoWidth_may hw rfl
    | with_reducible exact AllIn.nil _
    | with_reducible apply AllIn.cons
    | with_reducible apply AllIn.append
    | with_reducible apply AllIn.map
    | exact hw.le rfl
    | with_reducible apply ResKeeps.next
    | with_reducible apply Keeps.each
    | with_reducible apply Keeps.when
    | with_reducible apply Keeps.foldl
    | split
    | intro _ _ _
    | intro _ _
    | intro _
    | with_reducible refine Keeps.of_pair (by with_reducible assumption) ?_
    | with_reducible refine Keeps.of_triple (by with_reducible assumption) ?_
    | dsimp only)

theorem State.hostViewStart_keeps {w₀ : Nat} {s₀ s : State} (hw : Sub 0x70210000002f0101010051 w₀) (h₀ : Keeps w₀ s₀ s) :
    Keeps w₀ s₀ (State.hostViewStart s) := by
  unfold State.hostViewStart
  repeat' (first
    | with_reducible assumption
    | with_reducible apply Keeps.wr
    | with_reducible apply State.bump_keeps
    | with_reducible apply State.jwrite_keeps
    | with_reducible apply State.hostqDrop_keeps
    | with_reducible apply State.hostViewBlocks_keeps
    | with_reducible exact Reg.devResetStatusHvBusy_may hw rfl
    | with_reducible exact Reg.devResetStatusHvCount_may hw rfl
    | exact hw.le rfl
    | with_reducible apply ResKeeps.next
    | with_reducible apply Keeps.each
    | with_reducible apply Keeps.when
    | with_reducible apply Keeps.foldl
    | split
    | intro _ _ _
    | intro _ _
    | intro _
    | with_reducible refine Keeps.of_pair (by with_reducible assumption) ?_
    | with_reducible refine Keeps.of_triple (by with_reducible assumption) ?_
    | dsimp only)

theorem State.pcieReset_keeps {w₀ : Nat} {s₀ s : State} (hw : Sub 0x70a10000002f0101010051 w₀) (h₀ : Keeps w₀ s₀ s) :
    Keeps w₀ s₀ (State.pcieReset s) := by
  unfold State.pcieReset
  repeat' (first
    | with_reducible assumption
    | with_reducible apply State.endpointReset_keeps
    | with_reducible apply State.hostViewStart_keeps
    | exact hw.le rfl
    | with_reducible apply ResKeeps.next
    | with_reducible apply Keeps.each
    | with_reducible apply Keeps.when
    | with_reducible apply Keeps.foldl
    | split
    | intro _ _ _
    | intro _ _
    | intro _
    | with_reducible refine Keeps.of_pair (by with_reducible assumption) ?_
    | with_reducible refine Keeps.of_triple (by with_reducible assumption) ?_
    | dsimp only)

theorem execPcieFlr_keeps {w₀ : Nat} {s₀ s : State} (hw : Sub 0x70a10000002f0101010051 w₀) (h₀ : Keeps w₀ s₀ s) :
    ResKeeps w₀ s₀ (execPcieFlr s) := by
  unfold execPcieFlr
  repeat' (first
    | with_reducible assumption
    | with_reducible apply State.pcieReset_keeps
    | exact hw.le rfl
    | with_reducible apply ResKeeps.next
    | with_reducible apply Keeps.each
    | with_reducible apply Keeps.when
    | with_reducible apply Keeps.foldl
    | split
    | intro _ _ _
    | intro _ _
    | intro _
    | with_reducible refine Keeps.of_pair (by with_reducible assumption) ?_
    | with_reducible refine Keeps.of_triple (by with_reducible assumption) ?_
    | dsimp only)

theorem execHvResetDone_keeps {w₀ : Nat} {s₀ s : State} (hw : Sub 0x40a0008000240100010001 w₀) (h₀ : Keeps w₀ s₀ s) :
    ResKeeps w₀ s₀ (execHvResetDone s) := by
  unfold execHvResetDone
  repeat' (first
    | with_reducible assumption
    | with_reducible apply Keeps.wr
    | with_reducible apply State.hifReset_keeps
    | with_reducible exact Reg.devResetStatusHvBusy_may hw rfl
    | exact hw.le rfl
    | with_reducible apply ResKeeps.next
    | with_reducible apply Keeps.each
    | with_reducible apply Keeps.when
    | with_reducible apply Keeps.foldl
    | split
    | intro _ _ _
    | intro _ _
    | intro _
    | with_reducible refine Keeps.of_pair (by with_reducible assumption) ?_
    | with_reducible refine Keeps.of_triple (by with_reducible assumption) ?_
    | dsimp only)

end Sys2Proof.Machine
end

