-- ==== Sys2Proof/Laws/KeepPower.lean ====
section
/-! SUPPORT. What the operations of Machine/Power.lean keep. -/

set_option linter.all false
set_option Elab.async false

namespace Sys2Proof.Machine

theorem State.setPwr_keeps {w₀ : Nat} {s₀ s : State} (hw : Sub 0x80028000100000000000 w₀) (st : Nat) (h₀ : Keeps w₀ s₀ s) :
    Keeps w₀ s₀ (State.setPwr s st) := by
  unfold State.setPwr
  repeat' (first
    | with_reducible assumption
    | with_reducible apply Keeps.wr
    | with_reducible apply State.intr_keeps
    | with_reducible exact Reg.pwrStatusState_may hw rfl
    | exact hw.le rfl
    | with_reducible apply ResKeeps.next
    | with_reducible apply Keeps.each
    | with_reducible apply Keeps.when
    | with_reducible apply Keeps.foldl
    | split
    | intro _ _ _
    | intro _ _
    | intro _
    | with_reducible refine Keeps.of_pair (by with_reducible assumption) ?_
    | with_reducible refine Keeps.of_triple (by with_reducible assumption) ?_
    | dsimp only)

theorem Tab.get_filter_any {w : Nat} {a s t : State} (h : Keeps w a s) (hw : Sub 0xffffffffffffffff w) (hc : Canonical s → Canonical t)
    (e : t = { s with regs := t.regs, cnt48 := t.cnt48 }) : Keeps w a t := by
  rw [e]
  refine ⟨fun c => ?_, h.jrnl, h.fuses, h.die, h.queue, fun k d hk => ?_, fun k d hk => ?_, h.inn.out, h.inn.free, h.inn.pins, h.inn.xo,
    h.inn.fmeter, h.inn.boot, h.inn.journal, h.inn.jrnlQ, h.inn.otp, h.inn.sec, h.inn.pwr, h.inn.lines, h.inn.flt, h.inn.tbs, h.inn.hif,
    h.inn.refsel, h.inn.xc, h.inn.syn, h.inn.pul, h.inn.pmon, h.inn.tbl, h.inn.fab, h.inn.tt, h.inn.lan, h.inn.prt, h.inn.dress⟩
  · exact hc (h.canon c)
  · rw [may_any hw] at hk; cases hk
  · rw [may_any hw] at hk; cases hk

theorem State.clearDomain_keeps {w₀ : Nat} {s₀ s : State} (hw : Sub 0xffffffffffffffff w₀) (d : Nat) (h₀ : Keeps w₀ s₀ s) :
    Keeps w₀ s₀ (State.clearDomain s d) :=
  Tab.get_filter_any h₀ (hw.le rfl)
    (fun k => ⟨Tab.rising_filter _ k.1, Tab.wf_filter _ k.2.1, fun e he => k.2.2 e (List.mem_filter.mp he).1⟩) rfl

theorem State.unitPowerOff_keeps {w₀ : Nat} {s₀ s : State} (hw : Sub 0x57eb00280000501000100db w₀) (u : Nat) (h₀ : Keeps w₀ s₀ s) :
    Keeps w₀ s₀ (State.unitPowerOff s u) := by
  unfold State.unitPowerOff
  repeat' (first
    | with_reducible assumption
    | with_reducible apply Keeps.wr
    | with_reducible apply State.unitOff_keeps
    | with_reducible apply State.setLost_keeps
    | with_reducible apply State.takeOver_keeps
    | with_reducible exact Reg.redPairStatusDataActive_may hw rfl
    | exact hw.le rfl
    | with_reducible apply ResKeeps.next
    | with_reducible apply Keeps.each
    | with_reducible apply Keeps.when
    | with_reducible apply Keeps.foldl
    | split
    | intro _ _ _
    | intro _ _
    | intro _
    | with_reducible refine Keeps.of_pair (by with_reducible assumption) ?_
    | with_reducible refine Keeps.of_triple (by with_reducible assumption) ?_
    | dsimp only)

theorem State.memberOff_keeps {w₀ : Nat} {s₀ s : State} (hw : Sub 0x57eb00280000501000100db w₀) (n : Nat) (h₀ : Keeps w₀ s₀ s) :
    Keeps w₀ s₀ (State.memberOff s n) := by
  unfold State.memberOff
  repeat' (first
    | with_reducible assumption
    | with_reducible apply State.unitPowerOff_keeps
    | exact hw.le rfl
    | with_reducible apply ResKeeps.next
    | with_reducible apply Keeps.each
    | with_reducible apply Keeps.when
    | with_reducible apply Keeps.foldl
    | split
    | intro _ _ _
    | intro _ _
    | intro _
    | with_reducible refine Keeps.of_pair (by with_reducible assumption) ?_
    | with_reducible refine Keeps.of_triple (by with_reducible assumption) ?_
    | dsimp only)

theorem State.destPowerOff_keeps {w₀ : Nat} {s₀ s : State} (hw : Sub 0x7fff00680000501010101ff w₀) (n : Nat) (h₀ : Keeps w₀ s₀ s) :
    Keeps w₀ s₀ (State.destPowerOff s n) := by
  unfold State.destPowerOff
  repeat' (first
    | with_reducible assumption
    | with_reducible apply State.laneToDown_keeps
    | with_reducible apply State.portToOff_keeps
    | with_reducible apply State.memberOff_keeps
    | exact hw.le rfl
    | with_reducible apply ResKeeps.next
    | with_reducible apply Keeps.each
    | with_reducible apply Keeps.when
    | with_reducible apply Keeps.foldl
    | split
    | intro _ _ _
    | intro _ _
    | intro _
    | with_reducible refine Keeps.of_pair (by with_reducible assumption) ?_
    | with_reducible refine Keeps.of_triple (by with_reducible assumption) ?_
    | dsimp only)

theorem State.rcsPowerOff_keeps {w₀ : Nat} {s₀ s : State} (hw : Sub 0x78006800000000000000e w₀) (q : Nat) (h₀ : Keeps w₀ s₀ s) :
    Keeps w₀ s₀ (State.rcsPowerOff s q) := by
  unfold State.rcsPowerOff
  repeat' (first
    | with_reducible assumption
    | with_reducible apply State.candLost_keeps
    | exact hw.le rfl
    | with_reducible apply ResKeeps.next
    | with_reducible apply Keeps.each
    | with_reducible apply Keeps.when
    | with_reducible apply Keeps.foldl
    | split
    | intro _ _ _
    | intro _ _
    | intro _
    | with_reducible refine Keeps.of_pair (by with_reducible assumption) ?_
    | with_reducible refine Keeps.of_triple (by with_reducible assumption) ?_
    | dsimp only)

theorem State.rcsPowerOn_keeps {w₀ : Nat} {s₀ s : State} (hw : Sub 0x4 w₀) (q : Nat) (h₀ : Keeps w₀ s₀ s) :
    Keeps w₀ s₀ (State.rcsPowerOn s q) := by
  unfold State.rcsPowerOn
  repeat' (first
    | with_reducible assumption
    | with_reducible apply Keeps.wr
    | with_reducible exact Reg.refselCandStatusReason_may hw rfl
    | exact hw.le rfl
    | with_reducible apply ResKeeps.next
    | with_reducible apply Keeps.each
    | with_reducible apply Keeps.when
    | with_reducible apply Keeps.foldl
    | split
    | intro _ _ _
    | intro _ _
    | intro _
    | with_reducible refine Keeps.of_pair (by with_reducible assumption) ?_
    | with_reducible refine Keeps.of_triple (by with_reducible assumption) ?_
    | dsimp only)

theorem State.idleMembersOff_keeps {w₀ : Nat} {s₀ s : State} (hw : Sub 0x57eb00280000501000100db w₀) (l : List Nat) (h₀ : Keeps w₀ s₀ s) :
    Keeps w₀ s₀ (State.idleMembersOff s l) := by
  unfold State.idleMembersOff
  repeat' (first
    | with_reducible assumption
    | with_reducible apply State.unitPowerOff_keeps
    | exact hw.le rfl
    | with_reducible apply ResKeeps.next
    | with_reducible apply Keeps.each
    | with_reducible apply Keeps.when
    | with_reducible apply Keeps.foldl
    | split
    | intro _ _ _
    | intro _ _
    | intro _
    | with_reducible refine Keeps.of_pair (by with_reducible assumption) ?_
    | with_reducible refine Keeps.of_triple (by with_reducible assumption) ?_
    | dsimp only)

theorem State.destsPowerOff_keeps {w₀ : Nat} {s₀ s : State} (hw : Sub 0x7fff00680000501010101ff w₀) (l : List Nat) (h₀ : Keeps w₀ s₀ s) :
    Keeps w₀ s₀ (State.destsPowerOff s l) := by
  unfold State.destsPowerOff
  repeat' (first
    | with_reducible assumption
    | with_reducible apply State.destPowerOff_keeps
    | with_reducible apply State.idleMembersOff_keeps
    | exact hw.le rfl
    | with_reducible apply ResKeeps.next
    | with_reducible apply Keeps.each
    | with_reducible apply Keeps.when
    | with_reducible apply Keeps.foldl
    | split
    | intro _ _ _
    | intro _ _
    | intro _
    | with_reducible refine Keeps.of_pair (by with_reducible assumption) ?_
    | with_reducible refine Keeps.of_triple (by with_reducible assumption) ?_
    | dsimp only)

theorem State.quadrantStop_keeps {w₀ : Nat} {s₀ s : State} (hw : Sub 0x7fff04680000501010101ff w₀) (q : Nat) (h₀ : Keeps w₀ s₀ s) :
    Keeps w₀ s₀ (State.quadrantStop s q) := by
  unfold State.quadrantStop
  repeat' (first
    | with_reducible assumption
    | with_reducible apply State.unreport_keeps
    | with_reducible apply State.setTxq_keeps
    | with_reducible apply State.quadStop_keeps
    | with_reducible apply State.rcsPowerOff_keeps
    | with_reducible apply State.destsPowerOff_keeps
    | (simp only [Keeps.mk_eq]; with_reducible apply KeepsMk.upd)
    | exact hw.le rfl
    | exact Or.inl (hw.bit rfl)
    | with_reducible exact Or.inr rfl
    | with_reducible apply ResKeeps.next
    | with_reducible apply Keeps.each
    | with_reducible apply Keeps.when
    | with_reducible apply Keeps.foldl
    | split
    | intro _ _ _
    | intro _ _
    | intro _
    | with_reducible refine Keeps.of_pair (by with_reducible assumption) ?_
    | with_reducible refine Keeps.of_triple (by with_reducible assumption) ?_
    | dsimp only)

theorem State.sideStop_keeps {w₀ : Nat} {s₀ s : State} (hw : Sub 0x57ef00280000501000100db w₀) (r : Nat) (h₀ : Keeps w₀ s₀ s) :
    Keeps w₀ s₀ (State.sideStop s r) := by
  unfold State.sideStop
  repeat' (first
    | with_reducible assumption
    | with_reducible apply State.tkStop_keeps
    | with_reducible apply State.tkStandbyEnd_keeps
    | with_reducible apply State.rootStop_keeps
    | with_reducible apply State.pgSync_keeps
    | with_reducible apply State.calTbSync_keeps
    | with_reducible apply State.unitPowerOff_keeps
    | exact hw.le rfl
    | with_reducible apply ResKeeps.next
    | with_reducible apply Keeps.each
    | with_reducible apply Keeps.when
    | with_reducible apply Keeps.foldl
    | split
    | intro _ _ _
    | intro _ _
    | intro _
    | with_reducible refine Keeps.of_pair (by with_reducible assumption) ?_
    | with_reducible refine Keeps.of_triple (by with_reducible assumption) ?_
    | dsimp only)

theorem State.outputsStop_keeps {w₀ : Nat} {s₀ s : State} (hw : Sub 0xc10000000000000000048 w₀) (h₀ : Keeps w₀ s₀ s) :
    Keeps w₀ s₀ (State.outputsStop s) := by
  unfold State.outputsStop
  repeat' (first
    | with_reducible assumption
    | with_reducible apply State.wrs_keeps
    | with_reducible apply State.synthOff_keeps
    | with_reducible exact Reg.tsStatusCapNe_may hw rfl
    | with_reducible exact Reg.tsStatusCapOvf_may hw rfl
    | with_reducible exact AllMay.nil _
    | with_reducible apply AllMay.cons
    | with_reducible apply AllMay.append
    | with_reducible apply AllMay.map
    | (simp only [Keeps.mk_eq]; with_reducible apply KeepsMk.upd)
    | exact hw.le rfl
    | exact Or.inl (hw.bit rfl)
    | with_reducible exact Or.inr rfl
    | with_reducible apply ResKeeps.next
    | with_reducible apply Keeps.each
    | with_reducible apply Keeps.when
    | with_reducible apply Keeps.foldl
    | split
    | intro _ _ _
    | intro _ _
    | intro _
    | with_reducible refine Keeps.of_pair (by with_reducible assumption) ?_
    | with_reducible refine Keeps.of_triple (by with_reducible assumption) ?_
    | dsimp only)

theorem State.tagBufferWipe_keeps {w₀ : Nat} {s₀ s : State} (hw : Sub 0x1000000000000000000000 w₀) (h₀ : Keeps w₀ s₀ s) :
    Keeps w₀ s₀ (State.tagBufferWipe s) := by
  unfold State.tagBufferWipe
  repeat' (first
    | with_reducible assumption
    | (simp only [Keeps.mk_eq]; with_reducible apply KeepsMk.upd)
    | exact hw.le rfl
    | exact Or.inl (hw.bit rfl)
    | with_reducible exact Or.inr rfl
    | with_reducible apply ResKeeps.next
    | with_reducible apply Keeps.each
    | with_reducible apply Keeps.when
    | with_reducible apply Keeps.foldl
    | split
    | intro _ _ _
    | intro _ _
    | intro _
    | with_reducible refine Keeps.of_pair (by with_reducible assumption) ?_
    | with_reducible refine Keeps.of_triple (by with_reducible assumption) ?_
    | dsimp only)

theorem State.domainDown_keeps {w₀ : Nat} {s₀ s : State} (hw : Sub 0x7fff946ffffffffffffffff w₀) (d : Nat) (h₀ : Keeps w₀ s₀ s) :
    Keeps w₀ s₀ (State.domainDown s d) := by
  unfold State.domainDown
  repeat' (first
    | with_reducible assumption
    | with_reducible apply State.wrs_keeps
    | with_reducible apply State.fifoStatus_keeps
    | with_reducible apply State.tablesWipe_keeps
    | with_reducible apply State.flushAll_keeps
    | with_reducible apply State.reserve_keeps
    | with_reducible apply State.calAbort_keeps
    | with_reducible apply State.sourcesOff_keeps
    | with_reducible apply State.pcieReset_keeps
    | with_reducible apply State.clearDomain_keeps
    | with_reducible apply State.quadrantStop_keeps
    | with_reducible apply State.sideStop_keeps
    | with_reducible apply State.outputsStop_keeps
    | with_reducible apply State.tagBufferWipe_keeps
    | with_reducible exact Reg.hifStatusLinkUp_may hw rfl
    | with_reducible exact Reg.hifStatusSpeed_may hw rfl
    | with_reducible exact Reg.hifStatusWidth_may hw rfl
    | with_reducible exact AllMay.nil _
    | with_reducible apply AllMay.cons
    | with_reducible apply AllMay.append
    | with_reducible apply AllMay.map
    | (simp only [Keeps.mk_eq]; with_reducible apply KeepsMk.upd)
    | exact hw.le rfl
    | exact Or.inl (hw.bit rfl)
    | with_reducible exact Or.inr rfl
    | with_reducible exact may_any (hw.le rfl) _
    | with_reducible apply ResKeeps.next
    | with_reducible apply Keeps.each
    | with_reducible apply Keeps.when
    | with_reducible apply Keeps.foldl
    | split
    | intro _ _ _
    | intro _ _
    | intro _
    | with_reducible refine Keeps.of_pair (by with_reducible assumption) ?_
    | with_reducible refine Keeps.of_triple (by with_reducible assumption) ?_
    | dsimp only)

theorem State.linkTrain_keeps {w₀ : Nat} {s₀ s : State} (hw : Sub 0x40000200000000000 w₀) (h₀ : Keeps w₀ s₀ s) :
    Keeps w₀ s₀ (State.linkTrain s) := by
  unfold State.linkTrain
  repeat' (first
    | with_reducible assumption
    | with_reducible apply State.wrs_keeps
    | with_reducible apply State.draw_keeps
    | with_reducible exact Reg.hifStatusLinkUp_may hw rfl
    | with_reducible exact Reg.hifStatusSpeed_may hw rfl
    | with_reducible exact Reg.hifStatusWidth_may hw rfl
    | with_reducible exact AllMay.nil _
    | with_reducible apply AllMay.cons
    | with_reducible apply AllMay.append
    | with_reducible apply AllMay.map
    | exact hw.le rfl
    | with_reducible apply ResKeeps.next
    | with_reducible apply Keeps.each
    | with_reducible apply Keeps.when
    | with_reducible apply Keeps.foldl
    | split
    | intro _ _ _
    | intro _ _
    | intro _
    | with_reducible refine Keeps.of_pair (by with_reducible assumption) ?_
    | with_reducible refine Keeps.of_triple (by with_reducible assumption) ?_
    | dsimp only)

theorem State.linkDown_keeps {w₀ : Nat} {s₀ s : State} (hw : Sub 0x200000000000 w₀) (h₀ : Keeps w₀ s₀ s) :
    Keeps w₀ s₀ (State.linkDown s) := by
  unfold State.linkDown
  repeat' (first
    | with_reducible assumption
    | with_reducible apply State.wrs_keeps
    | with_reducible exact Reg.hifStatusLinkUp_may hw rfl
    | with_reducible exact Reg.hifStatusSpeed_may hw rfl
    | with_reducible exact Reg.hifStatusWidth_may hw rfl
    | with_reducible exact AllMay.nil _
    | with_reducible apply AllMay.cons
    | with_reducible apply AllMay.append
    | with_reducible apply AllMay.map
    | exact hw.le rfl
    | with_reducible apply ResKeeps.next
    | with_reducible apply Keeps.each
    | with_reducible apply Keeps.when
    | with_reducible apply Keeps.foldl
    | split
    | intro _ _ _
    | intro _ _
    | intro _
    | with_reducible refine Keeps.of_pair (by with_reducible assumption) ?_
    | with_reducible refine Keeps.of_triple (by with_reducible assumption) ?_
    | dsimp only)

theorem execPcieHotReset_keeps {w₀ : Nat} {s₀ s : State} (hw : Sub 0x70a10c00002f0101010051 w₀) (perst : Bool) (h₀ : Keeps w₀ s₀ s) :
    ResKeeps w₀ s₀ (execPcieHotReset perst s) := by
  unfold execPcieHotReset
  repeat' (first
    | with_reducible assumption
    | with_reducible apply State.pcieReset_keeps
    | with_reducible apply State.linkTrain_keeps
    | with_reducible apply State.linkDown_keeps
    | (simp only [Keeps.mk_eq]; with_reducible apply KeepsMk.upd)
    | exact hw.le rfl
    | exact Or.inl (hw.bit rfl)
    | with_reducible exact Or.inr rfl
    | with_reducible apply ResKeeps.next
    | with_reducible apply Keeps.each
    | with_reducible apply Keeps.when
    | with_reducible apply Keeps.foldl
    | split
    | intro _ _ _
    | intro _ _
    | intro _
    | with_reducible refine Keeps.of_pair (by with_reducible assumption) ?_
    | with_reducible refine Keeps.of_triple (by with_reducible assumption) ?_
    | dsimp only)

theorem execPerstNRelease_keeps {w₀ : Nat} {s₀ s : State} (hw : Sub 0xc0000200000000000 w₀) (h₀ : Keeps w₀ s₀ s) :
    ResKeeps w₀ s₀ (execPerstNRelease s) := by
  unfold execPerstNRelease
  repeat' (first
    | with_reducible assumption
    | with_reducible apply State.linkTrain_keeps
    | (simp only [Keeps.mk_eq]; with_reducible apply KeepsMk.upd)
    | exact hw.le rfl
    | exact Or.inl (hw.bit rfl)
    | with_reducible exact Or.inr rfl
    | with_reducible apply ResKeeps.next
    | with_reducible apply Keeps.each
    | with_reducible apply Keeps.when
    | with_reducible apply Keeps.foldl
    | split
    | intro _ _ _
    | intro _ _
    | intro _
    | with_reducible refine Keeps.of_pair (by with_reducible assumption) ?_
    | with_reducible refine Keeps.of_triple (by with_reducible assumption) ?_
    | dsimp only)

theorem execPcieRefclkLoss_keeps {w₀ : Nat} {s₀ s : State} (hw : Sub 0x70a10c00002f0101010051 w₀) (present : Bool) (h₀ : Keeps w₀ s₀ s) :
    ResKeeps w₀ s₀ (execPcieRefclkLoss present s) := by
  unfold execPcieRefclkLoss
  repeat' (first
    | with_reducible assumption
    | with_reducible apply State.pcieReset_keeps
    | with_reducible apply State.linkTrain_keeps
    | with_reducible apply State.linkDown_keeps
    | (simp only [Keeps.mk_eq]; with_reducible apply KeepsMk.upd)
    | exact hw.le rfl
    | exact Or.inl (hw.bit rfl)
    | with_reducible exact Or.inr rfl
    | with_reducible apply ResKeeps.next
    | with_reducible apply Keeps.each
    | with_reducible apply Keeps.when
    | with_reducible apply Keeps.foldl
    | split
    | intro _ _ _
    | intro _ _
    | intro _
    | with_reducible refine Keeps.of_pair (by with_reducible assumption) ?_
    | with_reducible refine Keeps.of_triple (by with_reducible assumption) ?_
    | dsimp only)

theorem State.bufferWipe_keeps {w₀ : Nat} {s₀ s : State} (hw : Sub 0x4000000000000000000000 w₀) (h₀ : Keeps w₀ s₀ s) :
    Keeps w₀ s₀ (State.bufferWipe s) := by
  unfold State.bufferWipe
  repeat' (first
    | with_reducible assumption
    | (simp only [Keeps.mk_eq]; with_reducible apply KeepsMk.upd)
    | exact hw.le rfl
    | exact Or.inl (hw.bit rfl)
    | with_reducible exact Or.inr rfl
    | with_reducible apply ResKeeps.next
    | with_reducible apply Keeps.each
    | with_reducible apply Keeps.when
    | with_reducible apply Keeps.foldl
    | split
    | intro _ _ _
    | intro _ _
    | intro _
    | with_reducible refine Keeps.of_pair (by with_reducible assumption) ?_
    | with_reducible refine Keeps.of_triple (by with_reducible assumption) ?_
    | dsimp only)

theorem State.domainUp_keeps {w₀ : Nat} {s₀ s : State} (hw : Sub 0x4fcd80680002500010000fe w₀) (d : Nat) (h₀ : Keeps w₀ s₀ s) :
    Keeps w₀ s₀ (State.domainUp s d) := by
  unfold State.domainUp
  repeat' (first
    | with_reducible assumption
    | with_reducible apply State.unitStart_keeps
    | with_reducible apply State.tkEnable_keeps
    | with_reducible apply State.rootStart_keeps
    | with_reducible apply State.osStart_keeps
    | with_reducible apply State.pgSync_keeps
    | with_reducible apply State.pgRun_keeps
    | with_reducible apply State.tablesLoad_keeps
    | with_reducible apply State.ttStart_keeps
    | with_reducible apply State.ckoSat_keeps
    | with_reducible apply State.tapsDirect_keeps
    | with_reducible apply State.calTrigger_keeps
    | with_reducible apply State.calTbSync_keeps
    | with_reducible apply State.rcsPowerOn_keeps
    | with_reducible apply State.tagBufferWipe_keeps
    | with_reducible apply State.linkTrain_keeps
    | with_reducible apply State.bufferWipe_keeps
    | (simp only [Keeps.mk_eq]; with_reducible apply KeepsMk.upd)
    | exact hw.le rfl
    | exact Or.inl (hw.bit rfl)
    | with_reducible exact Or.inr rfl
    | with_reducible apply ResKeeps.next
    | with_reducible apply Keeps.each
    | with_reducible apply Keeps.when
    | with_reducible apply Keeps.foldl
    | split
    | intro _ _ _
    | intro _ _
    | intro _
    | with_reducible refine Keeps.of_pair (by with_reducible assumption) ?_
    | with_reducible refine Keeps.of_triple (by with_reducible assumption) ?_
    | dsimp only)

theorem State.ramp_keeps {w₀ : Nat} {s₀ s : State} (hw : Sub 0x7fff946ffffffffffffffff w₀) (d : Nat) (up : Bool) (h₀ : Keeps w₀ s₀ s) :
    Keeps w₀ s₀ (State.ramp s d up) := by
  unfold State.ramp
  repeat' (first
    | with_reducible assumption
    | with_reducible apply Keeps.wr
    | with_reducible apply State.domainDown_keeps
    | with_reducible exact Reg.pwrDomainsRamping_may hw rfl
    | (simp only [Keeps.mk_eq]; with_reducible apply KeepsMk.upd)
    | exact hw.le rfl
    | exact Or.inl (hw.bit rfl)
    | with_reducible exact Or.inr rfl
    | with_reducible exact may_any (hw.le rfl) _
    | with_reducible apply ResKeeps.next
    | with_reducible apply Keeps.each
    | with_reducible apply Keeps.when
    | with_reducible apply Keeps.foldl
    | split
    | intro _ _ _
    | intro _ _
    | intro _
    | with_reducible refine Keeps.of_pair (by with_reducible assumption) ?_
    | with_reducible refine Keeps.of_triple (by with_reducible assumption) ?_
    | dsimp only)

theorem State.selPower_keeps {w₀ : Nat} {s₀ s : State} (hw : Sub 0x78006800000000000000e w₀) (t : Nat) (h₀ : Keeps w₀ s₀ s) :
    Keeps w₀ s₀ (State.selPower s t) := by
  unfold State.selPower
  repeat' (first
    | with_reducible assumption
    | with_reducible apply State.wrs_keeps
    | with_reducible apply State.rootsDrive_keeps
    | with_reducible apply State.updQl_keeps
    | with_reducible apply State.setSel_keeps
    | with_reducible apply State.setSelected_keeps
    | with_reducible apply State.disconnect_keeps
    | with_reducible apply State.selEvalFree_keeps
    | with_reducible exact Reg.refselStatePhase_may hw rfl
    | with_reducible exact Reg.refselStateTarget_may hw rfl
    | with_reducible exact AllMay.nil _
    | with_reducible apply AllMay.cons
    | with_reducible apply AllMay.append
    | with_reducible apply AllMay.map
    | (simp only [Keeps.mk_eq]; with_reducible apply KeepsMk.upd)
    | exact hw.le rfl
    | exact Or.inl (hw.bit rfl)
    | with_reducible exact Or.inr rfl
    | with_reducible apply ResKeeps.next
    | with_reducible apply Keeps.each
    | with_reducible apply Keeps.when
    | with_reducible apply Keeps.foldl
    | split
    | intro _ _ _
    | intro _ _
    | intro _
    | with_reducible refine Keeps.of_pair (by with_reducible assumption) ?_
    | with_reducible refine Keeps.of_triple (by with_reducible assumption) ?_
    | dsimp only)

theorem State.lanesPower_keeps {w₀ : Nat} {s₀ s : State} (hw : Sub 0x7fff80680001501010101ff w₀) (t : Nat) (h₀ : Keeps w₀ s₀ s) :
    Keeps w₀ s₀ (State.lanesPower s t) := by
  unfold State.lanesPower
  repeat' (first
    | with_reducible assumption
    | with_reducible apply State.laneRelease_keeps
    | with_reducible apply State.portTry_keeps
    | with_reducible apply State.destsPowerOff_keeps
    | with_reducible exact Reg.pwrTimingLanesMask_may hw rfl
    | (simp only [Keeps.mk_eq]; with_reducible apply KeepsMk.upd)
    | exact hw.le rfl
    | exact Or.inl (hw.bit rfl)
    | with_reducible exact Or.inr rfl
    | with_reducible apply ResKeeps.next
    | with_reducible apply Keeps.each
    | with_reducible apply Keeps.when
    | with_reducible apply Keeps.foldl
    | split
    | intro _ _ _
    | intro _ _
    | intro _
    | with_reducible refine Keeps.of_pair (by with_reducible assumption) ?_
    | with_reducible refine Keeps.of_triple (by with_reducible assumption) ?_
    | dsimp only)

theorem State.pwrDone_keeps {w₀ : Nat} {s₀ s : State} (hw : Sub 0x7fff80680001501010101ff w₀) (t : Nat) (h₀ : Keeps w₀ s₀ s) :
    Keeps w₀ s₀ (State.pwrDone s t) := by
  unfold State.pwrDone
  repeat' (first
    | with_reducible assumption
    | with_reducible apply State.bumpWrap_keeps
    | with_reducible apply State.setPwr_keeps
    | with_reducible apply State.selPower_keeps
    | with_reducible apply State.lanesPower_keeps
    | with_reducible exact Reg.pwrStatusGen_may hw rfl
    | (simp only [Keeps.mk_eq]; with_reducible apply KeepsMk.upd)
    | exact hw.le rfl
    | exact Or.inl (hw.bit rfl)
    | with_reducible exact Or.inr rfl
    | with_reducible apply ResKeeps.next
    | with_reducible apply Keeps.each
    | with_reducible apply Keeps.when
    | with_reducible apply Keeps.foldl
    | split
    | intro _ _ _
    | intro _ _
    | intro _
    | with_reducible refine Keeps.of_pair (by with_reducible assumption) ?_
    | with_reducible refine Keeps.of_triple (by with_reducible assumption) ?_
    | dsimp only)

theorem State.pwrAdvance_keeps {w₀ : Nat} {s₀ s : State} (hw : Sub 0x7fff946ffffffffffffffff w₀) (h₀ : Keeps w₀ s₀ s) :
    Keeps w₀ s₀ (State.pwrAdvance s) := by
  unfold State.pwrAdvance
  repeat' (first
    | with_reducible assumption
    | with_reducible apply Keeps.wr
    | with_reducible apply State.ramp_keeps
    | with_reducible apply State.lanesPower_keeps
    | with_reducible apply State.pwrDone_keeps
    | with_reducible exact Reg.pwrStatusKeepSide_may hw rfl
    | exact hw.le rfl
    | with_reducible exact may_any (hw.le rfl) _
    | with_reducible apply ResKeeps.next
    | with_reducible apply Keeps.each
    | with_reducible apply Keeps.when
    | with_reducible apply Keeps.foldl
    | split
    | intro _ _ _
    | intro _ _
    | intro _
    | with_reducible refine Keeps.of_pair (by with_reducible assumption) ?_
    | with_reducible refine Keeps.of_triple (by with_reducible assumption) ?_
    | dsimp only)

theorem State.drained_keeps {w₀ : Nat} {s₀ s : State} (hw : Sub 0x7fff946ffffffffffffffff w₀) (h₀ : Keeps w₀ s₀ s) :
    Keeps w₀ s₀ (State.drained s) := by
  unfold State.drained
  repeat' (first
    | with_reducible assumption
    | with_reducible apply State.pwrAdvance_keeps
    | (simp only [Keeps.mk_eq]; with_reducible apply KeepsMk.upd)
    | exact hw.le rfl
    | exact Or.inl (hw.bit rfl)
    | with_reducible exact Or.inr rfl
    | with_reducible exact may_any (hw.le rfl) _
    | with_reducible apply ResKeeps.next
    | with_reducible apply Keeps.each
    | with_reducible apply Keeps.when
    | with_reducible apply Keeps.foldl
    | split
    | intro _ _ _
    | intro _ _
    | intro _
    | with_reducible refine Keeps.of_pair (by with_reducible assumption) ?_
    | with_reducible refine Keeps.of_triple (by with_reducible assumption) ?_
    | dsimp only)

theorem State.pwrChange_keeps {w₀ : Nat} {s₀ s : State} (hw : Sub 0x7fff946ffffffffffffffff w₀) (t : Nat) (h₀ : Keeps w₀ s₀ s) :
    Keeps w₀ s₀ (State.pwrChange s t) := by
  unfold State.pwrChange
  repeat' (first
    | with_reducible assumption
    | with_reducible apply State.bump_keeps
    | with_reducible apply State.setPwr_keeps
    | with_reducible apply State.pwrAdvance_keeps
    | with_reducible exact Reg.pwrCountsChanges_may hw rfl
    | (simp only [Keeps.mk_eq]; with_reducible apply KeepsMk.upd)
    | exact hw.le rfl
    | exact Or.inl (hw.bit rfl)
    | with_reducible exact Or.inr rfl
    | with_reducible exact may_any (hw.le rfl) _
    | with_reducible apply ResKeeps.next
    | with_reducible apply Keeps.each
    | with_reducible apply Keeps.when
    | with_reducible apply Keeps.foldl
    | split
    | intro _ _ _
    | intro _ _
    | intro _
    | with_reducible refine Keeps.of_pair (by with_reducible assumption) ?_
    | with_reducible refine Keeps.of_triple (by with_reducible assumption) ?_
    | dsimp only)

theorem State.pwrUpdate_keeps {w₀ : Nat} {s₀ s : State} (hw : Sub 0x7fff946ffffffffffffffff w₀) (h₀ : Keeps w₀ s₀ s) :
    Keeps w₀ s₀ (State.pwrUpdate s) := by
  unfold State.pwrUpdate
  repeat' (first
    | with_reducible assumption
    | with_reducible apply Keeps.wr
    | with_reducible apply State.pwrAdvance_keeps
    | with_reducible apply State.pwrChange_keeps
    | with_reducible exact Reg.pwrStatusTarget_may hw rfl
    | exact hw.le rfl
    | with_reducible exact may_any (hw.le rfl) _
    | with_reducible apply ResKeeps.next
    | with_reducible apply Keeps.each
    | with_reducible apply Keeps.when
    | with_reducible apply Keeps.foldl
    | split
    | intro _ _ _
    | intro _ _
    | intro _
    | with_reducible refine Keeps.of_pair (by with_reducible assumption) ?_
    | with_reducible refine Keeps.of_triple (by with_reducible assumption) ?_
    | dsimp only)

theorem State.bootRampOf_keeps {w₀ : Nat} {s₀ s : State} (hw : Sub 0x7fff946ffffffffffffffff w₀) (l : List (Nat × Bool))
    (h₀ : Keeps w₀ s₀ s) : Keeps w₀ s₀ (State.bootRampOf s l) := by
  have key : ∀ q, Keeps w₀ s₀ { s with pwr := { s.pwr with bootQ := q } } := fun q => by
    apply KeepsMk.upd h₀ <;> first | exact Or.inl (hw.bit rfl) | exact Or.inr rfl
  induction l with
  | nil => exact key _
  | cons x l ih =>
    unfold State.bootRampOf
    split
    · exact ih
    · exact State.ramp_keeps (hw.le rfl) _ _ (key _)

theorem State.bootRamp_keeps {w₀ : Nat} {s₀ s : State} (hw : Sub 0x7fff946ffffffffffffffff w₀) (h₀ : Keeps w₀ s₀ s) :
    Keeps w₀ s₀ (State.bootRamp s) := by
  unfold State.bootRamp
  repeat' (first
    | with_reducible assumption
    | with_reducible apply State.bootRampOf_keeps
    | exact hw.le rfl
    | with_reducible exact may_any (hw.le rfl) _
    | with_reducible apply ResKeeps.next
    | with_reducible apply Keeps.each
    | with_reducible apply Keeps.when
    | with_reducible apply Keeps.foldl
    | split
    | intro _ _ _
    | intro _ _
    | intro _
    | with_reducible refine Keeps.of_pair (by with_reducible assumption) ?_
    | with_reducible refine Keeps.of_triple (by with_reducible assumption) ?_
    | dsimp only)

theorem State.bootRamps_keeps {w₀ : Nat} {s₀ s : State} (hw : Sub 0x7fff946ffffffffffffffff w₀) (l : List (Nat × Bool)) (h₀ : Keeps w₀ s₀ s) :
    Keeps w₀ s₀ (State.bootRamps s l) := by
  unfold State.bootRamps
  repeat' (first
    | with_reducible assumption
    | with_reducible apply State.bootRamp_keeps
    | (simp only [Keeps.mk_eq]; with_reducible apply KeepsMk.upd)
    | exact hw.le rfl
    | exact Or.inl (hw.bit rfl)
    | with_reducible exact Or.inr rfl
    | with_reducible exact may_any (hw.le rfl) _
    | with_reducible apply ResKeeps.next
    | with_reducible apply Keeps.each
    | with_reducible apply Keeps.when
    | with_reducible apply Keeps.foldl
    | split
    | intro _ _ _
    | intro _ _
    | intro _
    | with_reducible refine Keeps.of_pair (by with_reducible assumption) ?_
    | with_reducible refine Keeps.of_triple (by with_reducible assumption) ?_
    | dsimp only)

theorem State.domainRamped_keeps {w₀ : Nat} {s₀ s : State} (hw : Sub 0x7fff946ffffffffffffffff w₀) (h₀ : Keeps w₀ s₀ s) :
    Keeps w₀ s₀ (State.domainRamped s) := by
  unfold State.domainRamped
  repeat' (first
    | with_reducible assumption
    | with_reducible apply Keeps.wr
    | with_reducible apply State.wrBit_keeps
    | with_reducible apply State.domainUp_keeps
    | with_reducible apply State.pwrAdvance_keeps
    | with_reducible apply State.bootRamp_keeps
    | with_reducible exact Reg.pwrDomainsOn_may hw rfl
    | with_reducible exact Reg.pwrDomainsRamping_may hw rfl
    | exact hw.le rfl
    | with_reducible exact may_any (hw.le rfl) _
    | with_reducible apply ResKeeps.next
    | with_reducible apply Keeps.each
    | with_reducible apply Keeps.when
    | with_reducible apply Keeps.foldl
    | split
    | intro _ _ _
    | intro _ _
    | intro _
    | with_reducible refine Keeps.of_pair (by with_reducible assumption) ?_
    | with_reducible refine Keeps.of_triple (by with_reducible assumption) ?_
    | dsimp only)

theorem execDomainRampDone_keeps {w₀ : Nat} {s₀ s : State} (hw : Sub 0x7fff946ffffffffffffffff w₀) (h₀ : Keeps w₀ s₀ s) :
    ResKeeps w₀ s₀ (execDomainRampDone s) := by
  unfold execDomainRampDone
  repeat' (first
    | with_reducible assumption
    | with_reducible apply State.drained_keeps
    | with_reducible apply State.domainRamped_keeps
    | exact hw.le rfl
    | with_reducible exact may_any (hw.le rfl) _
    | with_reducible apply ResKeeps.next
    | with_reducible apply Keeps.each
    | with_reducible apply Keeps.when
    | with_reducible apply Keeps.foldl
    | split
    | intro _ _ _
    | intro _ _
    | intro _
    | with_reducible refine Keeps.of_pair (by with_reducible assumption) ?_
    | with_reducible refine Keeps.of_triple (by with_reducible assumption) ?_
    | dsimp only)

theorem execDomainWipeDone_keeps {w₀ : Nat} {s₀ s : State} (hw : Sub 0x4fcd80680002500010000fe w₀) (domain : Fin 11) (h₀ : Keeps w₀ s₀ s) :
    ResKeeps w₀ s₀ (execDomainWipeDone domain s) := by
  unfold execDomainWipeDone
  repeat' (first
    | with_reducible assumption
    | with_reducible apply State.domainUp_keeps
    | exact hw.le rfl
    | with_reducible apply ResKeeps.next
    | with_reducible apply Keeps.each
    | with_reducible apply Keeps.when
    | with_reducible apply Keeps.foldl
    | split
    | intro _ _ _
    | intro _ _
    | intro _
    | with_reducible refine Keeps.of_pair (by with_reducible assumption) ?_
    | with_reducible refine Keeps.of_triple (by with_reducible assumption) ?_
    | dsimp only)

theorem execPwrReqPinStable_keeps {w₀ : Nat} {s₀ s : State} (hw : Sub 0x7fff94effffffffffffffff w₀) (req : Fin 4) (h₀ : Keeps w₀ s₀ s) :
    ResKeeps w₀ s₀ (execPwrReqPinStable req s) := by
  unfold execPwrReqPinStable
  repeat' (first
    | with_reducible assumption
    | with_reducible apply Keeps.wr
    | with_reducible apply State.pwrUpdate_keeps
    | with_reducible exact Reg.pwrStatusPinReq_may hw rfl
    | (simp only [Keeps.mk_eq]; with_reducible apply KeepsMk.upd)
    | exact hw.le rfl
    | exact Or.inl (hw.bit rfl)
    | with_reducible exact Or.inr rfl
    | with_reducible exact may_any (hw.le rfl) _
    | with_reducible apply ResKeeps.next
    | with_reducible apply Keeps.each
    | with_reducible apply Keeps.when
    | with_reducible apply Keeps.foldl
    | split
    | intro _ _ _
    | intro _ _
    | intro _
    | with_reducible refine Keeps.of_pair (by with_reducible assumption) ?_
    | with_reducible refine Keeps.of_triple (by with_reducible assumption) ?_
    | dsimp only)

theorem State.hostPwr_keeps {w₀ : Nat} {s₀ s : State} (hw : Sub 0x7fff946ffffffffffffffff w₀) (gen : Nat) (req : Nat) (h₀ : Keeps w₀ s₀ s) :
    Keeps w₀ s₀ (State.hostPwr s gen req) := by
  unfold State.hostPwr
  repeat' (first
    | with_reducible assumption
    | with_reducible apply Keeps.wr
    | with_reducible apply State.pwrUpdate_keeps
    | with_reducible exact Reg.pwrCmdStatusResult_may hw rfl
    | with_reducible exact Reg.pwrStatusSwReq_may hw rfl
    | exact hw.le rfl
    | with_reducible exact may_any (hw.le rfl) _
    | with_reducible apply ResKeeps.next
    | with_reducible apply Keeps.each
    | with_reducible apply Keeps.when
    | with_reducible apply Keeps.foldl
    | split
    | intro _ _ _
    | intro _ _
    | intro _
    | with_reducible refine Keeps.of_pair (by with_reducible assumption) ?_
    | with_reducible refine Keeps.of_triple (by with_reducible assumption) ?_
    | dsimp only)

theorem execPwrHostReqRun_keeps {w₀ : Nat} {s₀ s : State} (hw : Sub 0x7fff946ffffffffffffffff w₀) (gen : Fin 65536) (h₀ : Keeps w₀ s₀ s) :
    ResKeeps w₀ s₀ (execPwrHostReqRun gen s) := by
  unfold execPwrHostReqRun
  repeat' (first
    | with_reducible assumption
    | with_reducible apply State.hostPwr_keeps
    | exact hw.le rfl
    | with_reducible exact may_any (hw.le rfl) _
    | with_reducible apply ResKeeps.next
    | with_reducible apply Keeps.each
    | with_reducible apply Keeps.when
    | with_reducible apply Keeps.foldl
    | split
    | intro _ _ _
    | intro _ _
    | intro _
    | with_reducible refine Keeps.of_pair (by with_reducible assumption) ?_
    | with_reducible refine Keeps.of_triple (by with_reducible assumption) ?_
    | dsimp only)

theorem execPwrHostReqTiming_keeps {w₀ : Nat} {s₀ s : State} (hw : Sub 0x7fff946ffffffffffffffff w₀) (gen : Fin 65536) (h₀ : Keeps w₀ s₀ s) :
    ResKeeps w₀ s₀ (execPwrHostReqTiming gen s) := by
  unfold execPwrHostReqTiming
  repeat' (first
    | with_reducible assumption
    | with_reducible apply State.hostPwr_keeps
    | exact hw.le rfl
    | with_reducible exact may_any (hw.le rfl) _
    | with_reducible apply ResKeeps.next
    | with_reducible apply Keeps.each
    | with_reducible apply Keeps.when
    | with_reducible apply Keeps.foldl
    | split
    | intro _ _ _
    | intro _ _
    | intro _
    | with_reducible refine Keeps.of_pair (by with_reducible assumption) ?_
    | with_reducible refine Keeps.of_triple (by with_reducible assumption) ?_
    | dsimp only)

theorem execPwrHostReqKeep_keeps {w₀ : Nat} {s₀ s : State} (hw : Sub 0x7fff946ffffffffffffffff w₀) (gen : Fin 65536) (h₀ : Keeps w₀ s₀ s) :
    ResKeeps w₀ s₀ (execPwrHostReqKeep gen s) := by
  unfold execPwrHostReqKeep
  repeat' (first
    | with_reducible assumption
    | with_reducible apply State.hostPwr_keeps
    | exact hw.le rfl
    | with_reducible exact may_any (hw.le rfl) _
    | with_reducible apply ResKeeps.next
    | with_reducible apply Keeps.each
    | with_reducible apply Keeps.when
    | with_reducible apply Keeps.foldl
    | split
    | intro _ _ _
    | intro _ _
    | intro _
    | with_reducible refine Keeps.of_pair (by with_reducible assumption) ?_
    | with_reducible refine Keeps.of_triple (by with_reducible assumption) ?_
    | dsimp only)

theorem execPwrHostReqDormant_keeps {w₀ : Nat} {s₀ s : State} (hw : Sub 0x7fff946ffffffffffffffff w₀) (gen : Fin 65536) (h₀ : Keeps w₀ s₀ s) :
    ResKeeps w₀ s₀ (execPwrHostReqDormant gen s) := by
  unfold execPwrHostReqDormant
  repeat' (first
    | with_reducible assumption
    | with_reducible apply State.hostPwr_keeps
    | exact hw.le rfl
    | with_reducible exact may_any (hw.le rfl) _
    | with_reducible apply ResKeeps.next
    | with_reducible apply Keeps.each
    | with_reducible apply Keeps.when
    | with_reducible apply Keeps.foldl
    | split
    | intro _ _ _
    | intro _ _
    | intro _
    | with_reducible refine Keeps.of_pair (by with_reducible assumption) ?_
    | with_reducible refine Keeps.of_triple (by with_reducible assumption) ?_
    | dsimp only)

theorem execPwrHostReqOff_keeps {w₀ : Nat} {s₀ s : State} (hw : Sub 0x7fff946ffffffffffffffff w₀) (gen : Fin 65536) (h₀ : Keeps w₀ s₀ s) :
    ResKeeps w₀ s₀ (execPwrHostReqOff gen s) := by
  unfold execPwrHostReqOff
  repeat' (first
    | with_reducible assumption
    | with_reducible apply State.hostPwr_keeps
    | exact hw.le rfl
    | with_reducible exact may_any (hw.le rfl) _
    | with_reducible apply ResKeeps.next
    | with_reducible apply Keeps.each
    | with_reducible apply Keeps.when
    | with_reducible apply Keeps.foldl
    | split
    | intro _ _ _
    | intro _ _
    | intro _
    | with_reducible refine Keeps.of_pair (by with_reducible assumption) ?_
    | with_reducible refine Keeps.of_triple (by with_reducible assumption) ?_
    | dsimp only)

theorem execPwrHostReqReserved_keeps {w₀ : Nat} {s₀ s : State} (hw : Sub 0x7fff946ffffffffffffffff w₀) (gen : Fin 65536) (h₀ : Keeps w₀ s₀ s) :
    ResKeeps w₀ s₀ (execPwrHostReqReserved gen s) := by
  unfold execPwrHostReqReserved
  repeat' (first
    | with_reducible assumption
    | with_reducible apply State.hostPwr_keeps
    | exact hw.le rfl
    | with_reducible exact may_any (hw.le rfl) _
    | with_reducible apply ResKeeps.next
    | with_reducible apply Keeps.each
    | with_reducible apply Keeps.when
    | with_reducible apply Keeps.foldl
    | split
    | intro _ _ _
    | intro _ _
    | intro _
    | with_reducible refine Keeps.of_pair (by with_reducible assumption) ?_
    | with_reducible refine Keeps.of_triple (by with_reducible assumption) ?_
    | dsimp only)

theorem execPwrDrainTimeout_keeps {w₀ : Nat} {s₀ s : State} (hw : Sub 0x7fff946ffffffffffffffff w₀) (h₀ : Keeps w₀ s₀ s) :
    ResKeeps w₀ s₀ (execPwrDrainTimeout s) := by
  unfold execPwrDrainTimeout
  repeat' (first
    | with_reducible assumption
    | with_reducible apply State.flushAll_keeps
    | with_reducible apply State.pwrAdvance_keeps
    | (simp only [Keeps.mk_eq]; with_reducible apply KeepsMk.upd)
    | exact hw.le rfl
    | exact Or.inl (hw.bit rfl)
    | with_reducible exact Or.inr rfl
    | with_reducible exact may_any (hw.le rfl) _
    | with_reducible apply ResKeeps.next
    | with_reducible apply Keeps.each
    | with_reducible apply Keeps.when
    | with_reducible apply Keeps.foldl
    | split
    | intro _ _ _
    | intro _ _
    | intro _
    | with_reducible refine Keeps.of_pair (by with_reducible assumption) ?_
    | with_reducible refine Keeps.of_triple (by with_reducible assumption) ?_
    | dsimp only)

theorem execPowerFailAssert_keeps {w₀ : Nat} {s₀ s : State} (hw : Sub 0x880a8000100000000000 w₀) (widthNs : Nat) (h₀ : Keeps w₀ s₀ s) :
    ResKeeps w₀ s₀ (execPowerFailAssert widthNs s) := by
  unfold execPowerFailAssert
  repeat' (first
    | with_reducible assumption
    | with_reducible apply Keeps.wr
    | with_reducible apply State.bump_keeps
    | with_reducible apply State.setPwr_keeps
    | with_reducible exact Reg.pwrCountsChanges_may hw rfl
    | with_reducible exact Reg.pwrCountsSheds_may hw rfl
    | with_reducible exact Reg.pwrStatusShed_may hw rfl
    | with_reducible exact Reg.pwrStatusTarget_may hw rfl
    | (simp only [Keeps.mk_eq]; with_reducible apply KeepsMk.upd)
    | exact hw.le rfl
    | exact Or.inl (hw.bit rfl)
    | with_reducible exact Or.inr rfl
    | with_reducible apply ResKeeps.next
    | with_reducible apply Keeps.each
    | with_reducible apply Keeps.when
    | with_reducible apply Keeps.foldl
    | split
    | intro _ _ _
    | intro _ _
    | intro _
    | with_reducible refine Keeps.of_pair (by with_reducible assumption) ?_
    | with_reducible refine Keeps.of_triple (by with_reducible assumption) ?_
    | dsimp only)

theorem execShedRampStart_keeps {w₀ : Nat} {s₀ s : State} (hw : Sub 0x7fff946ffffffffffffffff w₀) (h₀ : Keeps w₀ s₀ s) :
    ResKeeps w₀ s₀ (execShedRampStart s) := by
  unfold execShedRampStart
  repeat' (first
    | with_reducible assumption
    | with_reducible apply State.pwrAdvance_keeps
    | (simp only [Keeps.mk_eq]; with_reducible apply KeepsMk.upd)
    | exact hw.le rfl
    | exact Or.inl (hw.bit rfl)
    | with_reducible exact Or.inr rfl
    | with_reducible exact may_any (hw.le rfl) _
    | with_reducible apply ResKeeps.next
    | with_reducible apply Keeps.each
    | with_reducible apply Keeps.when
    | with_reducible apply Keeps.foldl
    | split
    | intro _ _ _
    | intro _ _
    | intro _
    | with_reducible refine Keeps.of_pair (by with_reducible assumption) ?_
    | with_reducible refine Keeps.of_triple (by with_reducible assumption) ?_
    | dsimp only)

theorem State.shedEnd_keeps {w₀ : Nat} {s₀ s : State} (hw : Sub 0x7fff946ffffffffffffffff w₀) (h₀ : Keeps w₀ s₀ s) :
    Keeps w₀ s₀ (State.shedEnd s) := by
  unfold State.shedEnd
  repeat' (first
    | with_reducible assumption
    | with_reducible apply Keeps.wr
    | with_reducible apply State.pwrChange_keeps
    | with_reducible apply State.pwrUpdate_keeps
    | with_reducible exact Reg.pwrStatusShed_may hw rfl
    | with_reducible exact Reg.pwrStatusTarget_may hw rfl
    | (simp only [Keeps.mk_eq]; with_reducible apply KeepsMk.upd)
    | exact hw.le rfl
    | exact Or.inl (hw.bit rfl)
    | with_reducible exact Or.inr rfl
    | with_reducible exact may_any (hw.le rfl) _
    | with_reducible apply ResKeeps.next
    | with_reducible apply Keeps.each
    | with_reducible apply Keeps.when
    | with_reducible apply Keeps.foldl
    | split
    | intro _ _ _
    | intro _ _
    | intro _
    | with_reducible refine Keeps.of_pair (by with_reducible assumption) ?_
    | with_reducible refine Keeps.of_triple (by with_reducible assumption) ?_
    | dsimp only)

theorem execShedRelease_keeps {w₀ : Nat} {s₀ s : State} (hw : Sub 0x7fff94effffffffffffffff w₀) (h₀ : Keeps w₀ s₀ s) :
    ResKeeps w₀ s₀ (execShedRelease s) := by
  unfold execShedRelease
  repeat' (first
    | with_reducible assumption
    | with_reducible apply State.shedEnd_keeps
    | (simp only [Keeps.mk_eq]; with_reducible apply KeepsMk.upd)
    | exact hw.le rfl
    | exact Or.inl (hw.bit rfl)
    | with_reducible exact Or.inr rfl
    | with_reducible exact may_any (hw.le rfl) _
    | with_reducible apply ResKeeps.next
    | with_reducible apply Keeps.each
    | with_reducible apply Keeps.when
    | with_reducible apply Keeps.foldl
    | split
    | intro _ _ _
    | intro _ _
    | intro _
    | with_reducible refine Keeps.of_pair (by with_reducible assumption) ?_
    | with_reducible refine Keeps.of_triple (by with_reducible assumption) ?_
    | dsimp only)

theorem applyPower_keeps {w₀ : Nat} {s₀ s : State} (hw : Sub 0x100000000000 w₀) (v : List Byte) (h₀ : Keeps w₀ s₀ s) :
    Keeps w₀ s₀ (applyPower v s) := by
  unfold applyPower
  repeat' (first
    | with_reducible assumption
    | with_reducible apply Keeps.wr
    | with_reducible apply State.wrs_keeps
    | with_reducible exact Reg.pwrCfgHostEn_may hw rfl
    | with_reducible exact Reg.pwrCfgHostLow_may hw rfl
    | with_reducible exact Reg.pwrCfgInitReq_may hw rfl
    | with_reducible exact Reg.pwrCfgPinEn_may hw rfl
    | with_reducible exact Reg.pwrCfgReleaseMs_may hw rfl
    | with_reducible exact Reg.pwrCfgShedTarget_may hw rfl
    | with_reducible exact Reg.pwrStatusSwReq_may hw rfl
    | with_reducible exact Reg.pwrTimingLanesMask_may hw rfl
    | with_reducible exact AllMay.nil _
    | with_reducible apply AllMay.cons
    | with_reducible apply AllMay.append
    | with_reducible apply AllMay.map
    | exact hw.le rfl
    | with_reducible apply ResKeeps.next
    | with_reducible apply Keeps.each
    | with_reducible apply Keeps.when
    | with_reducible apply Keeps.foldl
    | split
    | intro _ _ _
    | intro _ _
    | intro _
    | with_reducible refine Keeps.of_pair (by with_reducible assumption) ?_
    | with_reducible refine Keeps.of_triple (by with_reducible assumption) ?_
    | dsimp only)

end Sys2Proof.Machine
end

