-- ==== Sys2Proof/Laws/KeepJournal.lean ====
section
/-! SUPPORT. What the operations of Machine/Journal.lean keep. -/

set_option linter.all false
set_option Elab.async false

namespace Sys2Proof.Machine


theorem le_length (k n : Nat) : (le k n).length = k := by simp [le]

theorem slice_length (v : List Byte) (o k : Nat) : (slice v o k).length = k := by simp [slice]

/-- A journal record takes 32 bytes (Table IM-15). -/
theorem JRec.bytes_length (r : JRec) (seq : Nat) : (r.bytes seq).length = 32 := by
  simp [JRec.bytes, le_length, slice_length]

theorem State.nextSlot_lt (s : State) : s.nextSlot.1 < 8192 := by
  unfold State.nextSlot
  split
  · exact Nat.mod_lt _ (by decide)
  · decide

theorem State.jrnlHead_keeps {w₀ : Nat} {s₀ s : State} (hw : Sub 0x1 w₀) (h₀ : Keeps w₀ s₀ s) : Keeps w₀ s₀ s.jrnlHead := by
  unfold State.jrnlHead
  split <;> exact State.wrs_keeps _ (AllMay.cons (Reg.devJrnlHeadEmpty_may hw rfl)
    (AllMay.cons (Reg.devJrnlHeadSlot_may hw rfl) (AllMay.nil _))) h₀

theorem State.setSlot_keeps {w₀ : Nat} {s₀ s : State} (hw : Sub 0x800000000000000000 w₀) (i : Nat) (b : List Byte) (hi : i < 8192)
    (hb : b.length = 32) (h₀ : Keeps w₀ s₀ s) : Keeps w₀ s₀ (s.setSlot i b) := h₀.jset (hw.bit rfl) hi hb _

theorem tornBytes_length (b : List Byte) : (tornBytes b).length = b.length := by unfold tornBytes; split <;> simp

theorem State.jput_keeps {w₀ : Nat} {s₀ s : State} (hw : Sub 0x800000040000000001 w₀) (r : JRec) (h₀ : Keeps w₀ s₀ s) :
    Keeps w₀ s₀ (State.jput s r) :=
  State.ev_keeps (hw.le rfl) 0x283 (State.jrnlHead_keeps (hw.le rfl)
    (State.setSlot_keeps (hw.le rfl) _ _ s.nextSlot_lt (JRec.bytes_length r _) h₀))

theorem State.jbad_keeps {w₀ : Nat} {s₀ s : State} (hw : Sub 0x840000000000000001 w₀) (h₀ : Keeps w₀ s₀ s) : Keeps w₀ s₀ s.jbad :=
  State.jrnlHead_keeps (hw.le rfl) (State.draw_keeps (hw.le rfl)
    (State.setSlot_keeps (hw.le rfl) _ _ s.nextSlot_lt (le_length _ _) h₀))

theorem State.jtear_keeps {w₀ : Nat} {s₀ s : State} (hw : Sub 0x840000000000000000 w₀) (h₀ : Keeps w₀ s₀ s) : Keeps w₀ s₀ s.jtear := by
  unfold State.jtear
  split
  · exact h₀
  · exact State.draw_keeps (hw.le rfl) (State.setSlot_keeps (hw.le rfl) _ _ s.nextSlot_lt
      ((tornBytes_length _).trans (le_length _ _)) h₀)

theorem State.jclear_keeps {w₀ : Nat} {s₀ s : State} (hw : Sub 0x1800000000000000000 w₀) (h : Keeps w₀ s₀ s) : Keeps w₀ s₀ (State.jclear s) :=
  ⟨h.canon, fun _ => ⟨rfl, fun e he => by cases he⟩, h.fuses, h.die, h.queue, h.inn.regs, h.inn.cnts, h.inn.out, h.inn.free, h.inn.pins, h.inn.xo,
    h.inn.fmeter, h.inn.boot, (fun k => by rw [hw.bit rfl] at k; cases k), (fun k => by rw [hw.bit rfl] at k; cases k), h.inn.otp,
    h.inn.sec, h.inn.pwr, h.inn.lines, h.inn.flt, h.inn.tbs, h.inn.hif,
    h.inn.refsel, h.inn.xc, h.inn.syn, h.inn.pul, h.inn.pmon, h.inn.tbl, h.inn.fab, h.inn.tt, h.inn.lan, h.inn.prt, h.inn.dress⟩

theorem execJournalWriteDone_keeps {w₀ : Nat} {s₀ s : State} (hw : Sub 0x7fff9c6ffffffffffffffff w₀) (verified : Bool) (h₀ : Keeps w₀ s₀ s) :
    ResKeeps w₀ s₀ (execJournalWriteDone verified s) := by
  unfold execJournalWriteDone
  repeat' (first
    | with_reducible assumption
    | with_reducible apply State.report_keeps
    | with_reducible apply State.pwrAdvance_keeps
    | with_reducible apply State.jput_keeps
    | with_reducible apply State.jbad_keeps
    | (simp only [Keeps.mk_eq]; with_reducible apply KeepsMk.upd)
    | exact hw.le rfl
    | exact Or.inl (hw.bit rfl)
    | with_reducible exact Or.inr rfl
    | with_reducible exact may_any (hw.le rfl) _
    | with_reducible apply ResKeeps.next
    | with_reducible apply Keeps.each
    | with_reducible apply Keeps.when
    | with_reducible apply Keeps.foldl
    | split
    | intro _ _ _
    | intro _ _
    | intro _
    | with_reducible refine Keeps.of_pair (by with_reducible assumption) ?_
    | with_reducible refine Keeps.of_triple (by with_reducible assumption) ?_
    | dsimp only)

theorem execJrnlIdxWrite_keeps {w₀ : Nat} {s₀ s : State} (hw : Sub 0x1 w₀) (value : Word) (h₀ : Keeps w₀ s₀ s) :
    ResKeeps w₀ s₀ (execJrnlIdxWrite value s) := by
  unfold execJrnlIdxWrite
  repeat' (first
    | with_reducible assumption
    | with_reducible apply Keeps.wr
    | with_reducible apply State.wrs_keeps
    | with_reducible exact Reg.devJrnlDataWord_may hw rfl
    | with_reducible exact Reg.devJrnlIdxSlot_may hw rfl
    | with_reducible exact AllMay.nil _
    | with_reducible apply AllMay.cons
    | with_reducible apply AllMay.append
    | with_reducible apply AllMay.map
    | exact hw.le rfl
    | with_reducible apply ResKeeps.next
    | with_reducible apply Keeps.each
    | with_reducible apply Keeps.when
    | with_reducible apply Keeps.foldl
    | split
    | intro _ _ _
    | intro _ _
    | intro _
    | with_reducible refine Keeps.of_pair (by with_reducible assumption) ?_
    | with_reducible refine Keeps.of_triple (by with_reducible assumption) ?_
    | dsimp only)

theorem State.fullReset_keeps {w₀ : Nat} {s₀ s : State} (hw : Sub 0x7fffc70ffffffffffffffff w₀) (h : Keeps w₀ s₀ s) :
    Keeps w₀ s₀ (State.fullReset s) := by
  exact ⟨fun _ => ⟨rfl, rfl, fun e he => by cases he⟩, h.jrnl, h.fuses, h.die, h.queue,
    { regs := fun k d hk => part_in (may_any (hw.le rfl) k) hk
      cnts := fun k d hk => part_in (may_any (hw.le rfl) (32 * k)) hk
      out := h.inn.out
      free := h.inn.free
      pins := h.inn.pins
      xo := part_in (hw.bit rfl)
      fmeter := part_in (hw.bit rfl)
      boot := part_in (hw.bit rfl)
      journal := h.inn.journal
      jrnlQ := h.inn.jrnlQ
      otp := h.inn.otp
      sec := part_in (hw.bit rfl)
      pwr := part_in (hw.bit rfl)
      lines := part_in (hw.bit rfl)
      flt := part_in (hw.bit rfl)
      tbs := part_in (hw.bit rfl)
      hif := part_in (hw.bit rfl)
      refsel := part_in (hw.bit rfl)
      xc := part_in (hw.bit rfl)
      syn := part_in (hw.bit rfl)
      pul := part_in (hw.bit rfl)
      pmon := part_in (hw.bit rfl)
      tbl := part_in (hw.bit rfl)
      fab := part_in (hw.bit rfl)
      tt := part_in (hw.bit rfl)
      lan := part_in (hw.bit rfl)
      prt := part_in (hw.bit rfl)
      dress := part_in (hw.bit rfl) }⟩

end Sys2Proof.Machine
end

