-- ==== Sys2Proof/Laws/KeepSecurity.lean ====
section
/-! SUPPORT. What the operations of Machine/Security.lean keep. -/

set_option linter.all false
set_option Elab.async false

namespace Sys2Proof.Machine

theorem State.mboxWrite_keeps {w₀ : Nat} {s₀ s : State} (hw : Sub 0x80000000000 w₀) (viaJtag : Bool) (f : State → State) (hf_f : ∀ t , Keeps w₀ s₀ t → Keeps w₀ s₀ (f t )) (h₀ : Keeps w₀ s₀ s) :
    Keeps w₀ s₀ (State.mboxWrite s viaJtag f) := by
  unfold State.mboxWrite
  repeat' (first
    | with_reducible assumption
    | with_reducible apply hf_f
    | with_reducible apply Keeps.wr
    | with_reducible apply State.bump_keeps
    | with_reducible exact Reg.secReqStatusClaim_may hw rfl
    | with_reducible exact Reg.secReqStatusForeign_may hw rfl
    | exact hw.le rfl
    | with_reducible apply ResKeeps.next
    | with_reducible apply Keeps.each
    | with_reducible apply Keeps.when
    | with_reducible apply Keeps.foldl
    | split
    | intro _ _ _
    | intro _ _
    | intro _
    | with_reducible refine Keeps.of_pair (by with_reducible assumption) ?_
    | with_reducible refine Keeps.of_triple (by with_reducible assumption) ?_
    | dsimp only
    | refine Keeps.fuse (hw.bit rfl) ?_ (by rfl) (by rfl))

theorem State.mboxCmd_keeps {w₀ : Nat} {s₀ s : State} (hw : Sub 0x80000000000 w₀) (viaJtag : Bool) (f : State → State) (hf_f : ∀ t , Keeps w₀ s₀ t → Keeps w₀ s₀ (f t )) (h₀ : Keeps w₀ s₀ s) :
    Keeps w₀ s₀ (State.mboxCmd s viaJtag f) := by
  unfold State.mboxCmd
  repeat' (first
    | with_reducible assumption
    | with_reducible apply hf_f
    | with_reducible apply State.mboxWrite_keeps
    | exact hw.le rfl
    | with_reducible apply ResKeeps.next
    | with_reducible apply Keeps.each
    | with_reducible apply Keeps.when
    | with_reducible apply Keeps.foldl
    | split
    | intro _ _ _
    | intro _ _
    | intro _
    | with_reducible refine Keeps.of_pair (by with_reducible assumption) ?_
    | with_reducible refine Keeps.of_triple (by with_reducible assumption) ?_
    | dsimp only
    | refine Keeps.fuse (hw.bit rfl) ?_ (by rfl) (by rfl))

theorem State.secResult_keeps {w₀ : Nat} {s₀ s : State} (hw : Sub 0x80000000000 w₀) (r : Nat) (h₀ : Keeps w₀ s₀ s) :
    Keeps w₀ s₀ (State.secResult s r) := by
  unfold State.secResult
  repeat' (first
    | with_reducible assumption
    | with_reducible apply Keeps.wr
    | with_reducible exact Reg.secReqStatusResult_may hw rfl
    | exact hw.le rfl
    | with_reducible apply ResKeeps.next
    | with_reducible apply Keeps.each
    | with_reducible apply Keeps.when
    | with_reducible apply Keeps.foldl
    | split
    | intro _ _ _
    | intro _ _
    | intro _
    | with_reducible refine Keeps.of_pair (by with_reducible assumption) ?_
    | with_reducible refine Keeps.of_triple (by with_reducible assumption) ?_
    | dsimp only
    | refine Keeps.fuse (hw.bit rfl) ?_ (by rfl) (by rfl))

theorem State.secFinish_keeps {w₀ : Nat} {s₀ s : State} (hw : Sub 0x84028000080000000000 w₀) (r : Nat) (h₀ : Keeps w₀ s₀ s) :
    Keeps w₀ s₀ (State.secFinish s r) := by
  unfold State.secFinish
  repeat' (first
    | with_reducible assumption
    | with_reducible apply State.wrs_keeps
    | with_reducible apply State.intr_keeps
    | with_reducible exact Reg.secReqStatusBusy_may hw rfl
    | with_reducible exact Reg.secReqStatusClaim_may hw rfl
    | with_reducible exact Reg.secReqStatusResult_may hw rfl
    | with_reducible exact AllMay.nil _
    | with_reducible apply AllMay.cons
    | with_reducible apply AllMay.append
    | with_reducible apply AllMay.map
    | (simp only [Keeps.mk_eq]; with_reducible apply KeepsMk.upd)
    | exact hw.le rfl
    | exact Or.inl (hw.bit rfl)
    | with_reducible exact Or.inr rfl
    | with_reducible apply ResKeeps.next
    | with_reducible apply Keeps.each
    | with_reducible apply Keeps.when
    | with_reducible apply Keeps.foldl
    | split
    | intro _ _ _
    | intro _ _
    | intro _
    | with_reducible refine Keeps.of_pair (by with_reducible assumption) ?_
    | with_reducible refine Keeps.of_triple (by with_reducible assumption) ?_
    | dsimp only
    | refine Keeps.fuse (hw.bit rfl) ?_ (by rfl) (by rfl))

theorem execSecCmdNone_keeps {w₀ : Nat} {s₀ s : State} (hw : Sub 0x80000000000 w₀) (viaJtag : Bool) (h₀ : Keeps w₀ s₀ s) :
    ResKeeps w₀ s₀ (execSecCmdNone viaJtag s) := by
  unfold execSecCmdNone
  repeat' (first
    | with_reducible assumption
    | with_reducible apply State.mboxWrite_keeps
    | exact hw.le rfl
    | with_reducible apply ResKeeps.next
    | with_reducible apply Keeps.each
    | with_reducible apply Keeps.when
    | with_reducible apply Keeps.foldl
    | split
    | intro _ _ _
    | intro _ _
    | intro _
    | with_reducible refine Keeps.of_pair (by with_reducible assumption) ?_
    | with_reducible refine Keeps.of_triple (by with_reducible assumption) ?_
    | dsimp only
    | refine Keeps.fuse (hw.bit rfl) ?_ (by rfl) (by rfl))

theorem execSecCmdReserved_keeps {w₀ : Nat} {s₀ s : State} (hw : Sub 0x80000000000 w₀) (viaJtag : Bool) (x1 : Nat) (h₀ : Keeps w₀ s₀ s) :
    ResKeeps w₀ s₀ (execSecCmdReserved viaJtag x1 s) := by
  unfold execSecCmdReserved
  repeat' (first
    | with_reducible assumption
    | with_reducible apply State.mboxWrite_keeps
    | exact hw.le rfl
    | with_reducible apply ResKeeps.next
    | with_reducible apply Keeps.each
    | with_reducible apply Keeps.when
    | with_reducible apply Keeps.foldl
    | split
    | intro _ _ _
    | intro _ _
    | intro _
    | with_reducible refine Keeps.of_pair (by with_reducible assumption) ?_
    | with_reducible refine Keeps.of_triple (by with_reducible assumption) ?_
    | dsimp only
    | refine Keeps.fuse (hw.bit rfl) ?_ (by rfl) (by rfl))

theorem execSecGetNonce_keeps {w₀ : Nat} {s₀ s : State} (hw : Sub 0x80000000000 w₀) (viaJtag : Bool) (random : BitVec 256) (h₀ : Keeps w₀ s₀ s) :
    ResKeeps w₀ s₀ (execSecGetNonce viaJtag random s) := by
  unfold execSecGetNonce
  repeat' (first
    | with_reducible assumption
    | with_reducible apply Keeps.wr
    | with_reducible apply State.wrs_keeps
    | with_reducible apply State.mboxCmd_keeps
    | with_reducible exact Reg.secNonceNonce_may hw rfl
    | with_reducible exact Reg.secReqStatusNonceValid_may hw rfl
    | with_reducible exact AllMay.nil _
    | with_reducible apply AllMay.cons
    | with_reducible apply AllMay.append
    | with_reducible apply AllMay.map
    | exact hw.le rfl
    | with_reducible apply ResKeeps.next
    | with_reducible apply Keeps.each
    | with_reducible apply Keeps.when
    | with_reducible apply Keeps.foldl
    | split
    | intro _ _ _
    | intro _ _
    | intro _
    | with_reducible refine Keeps.of_pair (by with_reducible assumption) ?_
    | with_reducible refine Keeps.of_triple (by with_reducible assumption) ?_
    | dsimp only
    | refine Keeps.fuse (hw.bit rfl) ?_ (by rfl) (by rfl))

theorem execSecSubmit_keeps {w₀ : Nat} {s₀ s : State} (hw : Sub 0x84028000080000000000 w₀) (viaJtag : Bool) (h₀ : Keeps w₀ s₀ s) :
    ResKeeps w₀ s₀ (execSecSubmit viaJtag s) := by
  unfold execSecSubmit
  repeat' (first
    | with_reducible assumption
    | with_reducible apply Keeps.wr
    | with_reducible apply State.mboxWrite_keeps
    | with_reducible apply State.secResult_keeps
    | with_reducible apply State.secFinish_keeps
    | with_reducible exact Reg.secReqStatusBusy_may hw rfl
    | with_reducible exact Reg.secReqStatusNonceValid_may hw rfl
    | (simp only [Keeps.mk_eq]; with_reducible apply KeepsMk.upd)
    | exact hw.le rfl
    | exact Or.inl (hw.bit rfl)
    | with_reducible exact Or.inr rfl
    | with_reducible apply ResKeeps.next
    | with_reducible apply Keeps.each
    | with_reducible apply Keeps.when
    | with_reducible apply Keeps.foldl
    | split
    | intro _ _ _
    | intro _ _
    | intro _
    | with_reducible refine Keeps.of_pair (by with_reducible assumption) ?_
    | with_reducible refine Keeps.of_triple (by with_reducible assumption) ?_
    | dsimp only
    | refine Keeps.fuse (hw.bit rfl) ?_ (by rfl) (by rfl))

theorem State.dbgTo_keeps {w₀ : Nat} {s₀ s : State} (hw : Sub 0x104000000080000000000 w₀) (l : Nat) (lease : Nat) (h₀ : Keeps w₀ s₀ s) :
    Keeps w₀ s₀ (State.dbgTo s l lease) := by
  unfold State.dbgTo
  repeat' (first
    | with_reducible assumption
    | with_reducible apply Keeps.wr
    | with_reducible apply State.startSeconds_keeps
    | with_reducible exact Reg.secDbgLeaseLeft_may hw rfl
    | with_reducible exact Reg.secDbgLevel_may hw rfl
    | (simp only [Keeps.mk_eq]; with_reducible apply KeepsMk.upd)
    | exact hw.le rfl
    | exact Or.inl (hw.bit rfl)
    | with_reducible exact Or.inr rfl
    | with_reducible apply ResKeeps.next
    | with_reducible apply Keeps.each
    | with_reducible apply Keeps.when
    | with_reducible apply Keeps.foldl
    | split
    | intro _ _ _
    | intro _ _
    | intro _
    | with_reducible refine Keeps.of_pair (by with_reducible assumption) ?_
    | with_reducible refine Keeps.of_triple (by with_reducible assumption) ?_
    | dsimp only
    | refine Keeps.fuse (hw.bit rfl) ?_ (by rfl) (by rfl))

theorem execSecSet_keeps {w₀ : Nat} {s₀ s : State} (hw : Sub 0x104000000080000000000 w₀) (viaJtag : Bool) (level : Fin 4) (h₀ : Keeps w₀ s₀ s) :
    ResKeeps w₀ s₀ (execSecSet viaJtag level s) := by
  unfold execSecSet
  repeat' (first
    | with_reducible assumption
    | with_reducible apply State.mboxCmd_keeps
    | with_reducible apply State.secResult_keeps
    | with_reducible apply State.dbgTo_keeps
    | exact hw.le rfl
    | with_reducible apply ResKeeps.next
    | with_reducible apply Keeps.each
    | with_reducible apply Keeps.when
    | with_reducible apply Keeps.foldl
    | split
    | intro _ _ _
    | intro _ _
    | intro _
    | with_reducible refine Keeps.of_pair (by with_reducible assumption) ?_
    | with_reducible refine Keeps.of_triple (by with_reducible assumption) ?_
    | dsimp only
    | refine Keeps.fuse (hw.bit rfl) ?_ (by rfl) (by rfl))

theorem execSecDisarm_keeps {w₀ : Nat} {s₀ s : State} (hw : Sub 0x4000000080000000000 w₀) (viaJtag : Bool) (h₀ : Keeps w₀ s₀ s) :
    ResKeeps w₀ s₀ (execSecDisarm viaJtag s) := by
  unfold execSecDisarm
  repeat' (first
    | with_reducible assumption
    | with_reducible apply State.mboxCmd_keeps
    | with_reducible apply State.secResult_keeps
    | (simp only [Keeps.mk_eq]; with_reducible apply KeepsMk.upd)
    | exact hw.le rfl
    | exact Or.inl (hw.bit rfl)
    | with_reducible exact Or.inr rfl
    | with_reducible apply ResKeeps.next
    | with_reducible apply Keeps.each
    | with_reducible apply Keeps.when
    | with_reducible apply Keeps.foldl
    | split
    | intro _ _ _
    | intro _ _
    | intro _
    | with_reducible refine Keeps.of_pair (by with_reducible assumption) ?_
    | with_reducible refine Keeps.of_triple (by with_reducible assumption) ?_
    | dsimp only
    | refine Keeps.fuse (hw.bit rfl) ?_ (by rfl) (by rfl))

theorem execSecRelease_keeps {w₀ : Nat} {s₀ s : State} (hw : Sub 0x80000000000 w₀) (viaJtag : Bool) (h₀ : Keeps w₀ s₀ s) :
    ResKeeps w₀ s₀ (execSecRelease viaJtag s) := by
  unfold execSecRelease
  repeat' (first
    | with_reducible assumption
    | with_reducible apply Keeps.wr
    | with_reducible apply State.mboxCmd_keeps
    | with_reducible exact Reg.secReqStatusClaim_may hw rfl
    | exact hw.le rfl
    | with_reducible apply ResKeeps.next
    | with_reducible apply Keeps.each
    | with_reducible apply Keeps.when
    | with_reducible apply Keeps.foldl
    | split
    | intro _ _ _
    | intro _ _
    | intro _
    | with_reducible refine Keeps.of_pair (by with_reducible assumption) ?_
    | with_reducible refine Keeps.of_triple (by with_reducible assumption) ?_
    | dsimp only
    | refine Keeps.fuse (hw.bit rfl) ?_ (by rfl) (by rfl))

theorem execMailboxForeignWrite_keeps {w₀ : Nat} {s₀ s : State} (hw : Sub 0x80000000000 w₀) (viaJtag : Bool) (x1 : Nat) (x2 : Word) (h₀ : Keeps w₀ s₀ s) :
    ResKeeps w₀ s₀ (execMailboxForeignWrite viaJtag x1 x2 s) := by
  unfold execMailboxForeignWrite
  repeat' (first
    | with_reducible assumption
    | with_reducible apply State.bump_keeps
    | with_reducible exact Reg.secReqStatusForeign_may hw rfl
    | exact hw.le rfl
    | with_reducible apply ResKeeps.next
    | with_reducible apply Keeps.each
    | with_reducible apply Keeps.when
    | with_reducible apply Keeps.foldl
    | split
    | intro _ _ _
    | intro _ _
    | intro _
    | with_reducible refine Keeps.of_pair (by with_reducible assumption) ?_
    | with_reducible refine Keeps.of_triple (by with_reducible assumption) ?_
    | dsimp only
    | refine Keeps.fuse (hw.bit rfl) ?_ (by rfl) (by rfl))

theorem execMailboxClaimTimeout_keeps {w₀ : Nat} {s₀ s : State} (hw : Sub 0x80000000000 w₀) (h₀ : Keeps w₀ s₀ s) :
    ResKeeps w₀ s₀ (execMailboxClaimTimeout s) := by
  unfold execMailboxClaimTimeout
  repeat' (first
    | with_reducible assumption
    | with_reducible apply Keeps.wr
    | with_reducible exact Reg.secReqStatusClaim_may hw rfl
    | exact hw.le rfl
    | with_reducible apply ResKeeps.next
    | with_reducible apply Keeps.each
    | with_reducible apply Keeps.when
    | with_reducible apply Keeps.foldl
    | split
    | intro _ _ _
    | intro _ _
    | intro _
    | with_reducible refine Keeps.of_pair (by with_reducible assumption) ?_
    | with_reducible refine Keeps.of_triple (by with_reducible assumption) ?_
    | dsimp only
    | refine Keeps.fuse (hw.bit rfl) ?_ (by rfl) (by rfl))

theorem execNonceExpire_keeps {w₀ : Nat} {s₀ s : State} (hw : Sub 0x80000000000 w₀) (h₀ : Keeps w₀ s₀ s) :
    ResKeeps w₀ s₀ (execNonceExpire s) := by
  unfold execNonceExpire
  repeat' (first
    | with_reducible assumption
    | with_reducible apply Keeps.wr
    | with_reducible exact Reg.secReqStatusNonceValid_may hw rfl
    | exact hw.le rfl
    | with_reducible apply ResKeeps.next
    | with_reducible apply Keeps.each
    | with_reducible apply Keeps.when
    | with_reducible apply Keeps.foldl
    | split
    | intro _ _ _
    | intro _ _
    | intro _
    | with_reducible refine Keeps.of_pair (by with_reducible assumption) ?_
    | with_reducible refine Keeps.of_triple (by with_reducible assumption) ?_
    | dsimp only
    | refine Keeps.fuse (hw.bit rfl) ?_ (by rfl) (by rfl))

theorem State.secRequest_keeps {w₀ : Nat} {s₀ s : State} (hw : Sub 0x0 w₀) (ty : Nat) (f : State → SecReq → State) (hf_f : ∀ t a, Keeps w₀ s₀ t → Keeps w₀ s₀ (f t a)) (h₀ : Keeps w₀ s₀ s) :
    Keeps w₀ s₀ (State.secRequest s ty f) := by
  unfold State.secRequest
  repeat' (first
    | with_reducible assumption
    | with_reducible apply hf_f
    | exact hw.le rfl
    | with_reducible apply ResKeeps.next
    | with_reducible apply Keeps.each
    | with_reducible apply Keeps.when
    | with_reducible apply Keeps.foldl
    | split
    | intro _ _ _
    | intro _ _
    | intro _
    | with_reducible refine Keeps.of_pair (by with_reducible assumption) ?_
    | with_reducible refine Keeps.of_triple (by with_reducible assumption) ?_
    | dsimp only
    | refine Keeps.fuse (hw.bit rfl) ?_ (by rfl) (by rfl))

theorem State.otpFail_keeps {w₀ : Nat} {s₀ s : State} (hw : Sub 0x84028000080000000000 w₀) (h₀ : Keeps w₀ s₀ s) :
    Keeps w₀ s₀ (State.otpFail s) := by
  unfold State.otpFail
  repeat' (first
    | with_reducible assumption
    | with_reducible apply Keeps.wr
    | with_reducible apply State.secFinish_keeps
    | with_reducible exact Reg.secOtpStatusOtpErr_may hw rfl
    | exact hw.le rfl
    | with_reducible apply ResKeeps.next
    | with_reducible apply Keeps.each
    | with_reducible apply Keeps.when
    | with_reducible apply Keeps.foldl
    | split
    | intro _ _ _
    | intro _ _
    | intro _
    | with_reducible refine Keeps.of_pair (by with_reducible assumption) ?_
    | with_reducible refine Keeps.of_triple (by with_reducible assumption) ?_
    | dsimp only
    | refine Keeps.fuse (hw.bit rfl) ?_ (by rfl) (by rfl))

theorem execReqLifecycle_keeps {w₀ : Nat} {s₀ s : State} (hw : Sub 0x4000000000000000000 w₀) (h₀ : Keeps w₀ s₀ s) :
    ResKeeps w₀ s₀ (execReqLifecycle s) := by
  unfold execReqLifecycle
  repeat' (first
    | with_reducible assumption
    | with_reducible apply State.secRequest_keeps
    | (simp only [Keeps.mk_eq]; with_reducible apply KeepsMk.upd)
    | exact hw.le rfl
    | exact Or.inl (hw.bit rfl)
    | with_reducible exact Or.inr rfl
    | with_reducible apply ResKeeps.next
    | with_reducible apply Keeps.each
    | with_reducible apply Keeps.when
    | with_reducible apply Keeps.foldl
    | split
    | intro _ _ _
    | intro _ _
    | intro _
    | with_reducible refine Keeps.of_pair (by with_reducible assumption) ?_
    | with_reducible refine Keeps.of_triple (by with_reducible assumption) ?_
    | dsimp only
    | refine Keeps.fuse (hw.bit rfl) ?_ (by rfl) (by rfl))

theorem execReqDebug_keeps {w₀ : Nat} {s₀ s : State} (hw : Sub 0x184028000080000000000 w₀) (h₀ : Keeps w₀ s₀ s) :
    ResKeeps w₀ s₀ (execReqDebug s) := by
  unfold execReqDebug
  repeat' (first
    | with_reducible assumption
    | with_reducible apply State.secFinish_keeps
    | with_reducible apply State.dbgTo_keeps
    | with_reducible apply State.secRequest_keeps
    | exact hw.le rfl
    | with_reducible apply ResKeeps.next
    | with_reducible apply Keeps.each
    | with_reducible apply Keeps.when
    | with_reducible apply Keeps.foldl
    | split
    | intro _ _ _
    | intro _ _
    | intro _
    | with_reducible refine Keeps.of_pair (by with_reducible assumption) ?_
    | with_reducible refine Keeps.of_triple (by with_reducible assumption) ?_
    | dsimp only
    | refine Keeps.fuse (hw.bit rfl) ?_ (by rfl) (by rfl))

theorem execReqKeyAdd_keeps {w₀ : Nat} {s₀ s : State} (hw : Sub 0x86068000080000000000 w₀) (readBack : Bool) (h₀ : Keeps w₀ s₀ s) :
    ResKeeps w₀ s₀ (execReqKeyAdd readBack s) := by
  unfold execReqKeyAdd
  repeat' (first
    | with_reducible assumption
    | with_reducible apply State.draw_keeps
    | with_reducible apply State.secFinish_keeps
    | with_reducible apply State.secRequest_keeps
    | with_reducible apply State.otpFail_keeps
    | (simp only [Keeps.mk_eq]; with_reducible apply KeepsMk.upd)
    | exact hw.le rfl
    | exact Or.inl (hw.bit rfl)
    | with_reducible exact Or.inr rfl
    | with_reducible apply ResKeeps.next
    | with_reducible apply Keeps.each
    | with_reducible apply Keeps.when
    | with_reducible apply Keeps.foldl
    | split
    | intro _ _ _
    | intro _ _
    | intro _
    | with_reducible refine Keeps.of_pair (by with_reducible assumption) ?_
    | with_reducible refine Keeps.of_triple (by with_reducible assumption) ?_
    | dsimp only
    | refine Keeps.fuse (hw.bit rfl) ?_ (by rfl) (by rfl))

theorem execReqKeyRevoke_keeps {w₀ : Nat} {s₀ s : State} (hw : Sub 0x86068000080000000000 w₀) (readBack : Bool) (h₀ : Keeps w₀ s₀ s) :
    ResKeeps w₀ s₀ (execReqKeyRevoke readBack s) := by
  unfold execReqKeyRevoke
  repeat' (first
    | with_reducible assumption
    | with_reducible apply State.draw_keeps
    | with_reducible apply State.secFinish_keeps
    | with_reducible apply State.secRequest_keeps
    | with_reducible apply State.otpFail_keeps
    | (simp only [Keeps.mk_eq]; with_reducible apply KeepsMk.upd)
    | exact hw.le rfl
    | exact Or.inl (hw.bit rfl)
    | with_reducible exact Or.inr rfl
    | with_reducible apply ResKeeps.next
    | with_reducible apply Keeps.each
    | with_reducible apply Keeps.when
    | with_reducible apply Keeps.foldl
    | split
    | intro _ _ _
    | intro _ _
    | intro _
    | with_reducible refine Keeps.of_pair (by with_reducible assumption) ?_
    | with_reducible refine Keeps.of_triple (by with_reducible assumption) ?_
    | dsimp only
    | refine Keeps.fuse (hw.bit rfl) ?_ (by rfl) (by rfl))

theorem bit_setBit_true (n i j : Nat) (h : bit n j = true) : bit (setBit n i true) j = true := by
  unfold setBit
  split
  · exact h
  next hi =>
    have pi : 0 < 2 ^ i := Nat.two_pow_pos i
    simp only [bit, beq_iff_eq] at h hi
    have even : n / 2 ^ i % 2 = 0 := by
      rcases Nat.mod_two_eq_zero_or_one (n / 2 ^ i) with e | e
      · exact e
      · simp [e] at hi
    have q : (n + 2 ^ i) / 2 ^ i = n / 2 ^ i + 1 := Nat.add_div_right n pi
    simp only [if_true, bit, beq_iff_eq]
    rcases Nat.lt_trichotomy j i with l | rfl | l
    · have e : 2 ^ i = 2 ^ j * (2 * 2 ^ (i - j - 1)) := by
        rw [← Nat.pow_succ', ← Nat.pow_add]; congr 1; omega
      rw [e, Nat.add_mul_div_left _ _ (Nat.two_pow_pos j)]
      omega
    · omega
    · have e : 2 ^ j = 2 ^ i * (2 * 2 ^ (j - i - 1)) := by
        rw [← Nat.pow_succ', ← Nat.pow_add]; congr 1; omega
      rw [e, ← Nat.div_div_eq_div_mul, ← Nat.div_div_eq_div_mul] at h ⊢
      rw [q]
      have : (n / 2 ^ i + 1) / 2 = n / 2 ^ i / 2 := by omega
      rw [this]; exact h

theorem execLcFuseBlowDone_keeps {w₀ : Nat} {s₀ s : State} (hw : Sub 0x86028000080000000000 w₀) (readBack : Bool) (h₀ : Keeps w₀ s₀ s) :
    ResKeeps w₀ s₀ (execLcFuseBlowDone readBack s) := by
  have key : ∀ x, Keeps w₀ s₀ { s with sec := x } := fun q => by
    apply KeepsMk.upd h₀ <;> first | exact Or.inl (hw.bit rfl) | exact Or.inr rfl
  unfold execLcFuseBlowDone
  split
  next a b _ =>
    split
    · have h := key { s.sec with trans := some (a, b, true), armedFull := false }
      exact ResKeeps.next ⟨h.canon, h.jrnl, fun i hi => bit_setBit_true _ _ _ (h₀.fuses i hi), h.die, h.queue, h.inn.regs, h.inn.cnts,
        h.inn.out, h.inn.free, h.inn.pins, h.inn.xo, h.inn.fmeter, h.inn.boot, h.inn.journal, h.inn.jrnlQ,
        (fun k => by rw [hw.bit rfl] at k; cases k), h.inn.sec, h.inn.pwr, h.inn.lines, h.inn.flt, h.inn.tbs, h.inn.hif,
        h.inn.refsel, h.inn.xc, h.inn.syn, h.inn.pul, h.inn.pmon, h.inn.tbl, h.inn.fab, h.inn.tt, h.inn.lan, h.inn.prt, h.inn.dress⟩
    · exact ResKeeps.next (State.otpFail_keeps (hw.le rfl) (key _))
  · exact ResKeeps.next h₀

theorem execLcJournalClearDone_keeps {w₀ : Nat} {s₀ s : State} (hw : Sub 0x7fffdf0ffffffffffffffff w₀) (h₀ : Keeps w₀ s₀ s) :
    ResKeeps w₀ s₀ (execLcJournalClearDone s) := by
  unfold execLcJournalClearDone
  repeat' (first
    | with_reducible assumption
    | with_reducible apply State.jput_keeps
    | with_reducible apply State.jclear_keeps
    | with_reducible apply State.fullReset_keeps
    | exact hw.le rfl
    | with_reducible exact may_any (hw.le rfl) _
    | with_reducible apply ResKeeps.next
    | with_reducible apply Keeps.each
    | with_reducible apply Keeps.when
    | with_reducible apply Keeps.foldl
    | split
    | intro _ _ _
    | intro _ _
    | intro _
    | with_reducible refine Keeps.of_pair (by with_reducible assumption) ?_
    | with_reducible refine Keeps.of_triple (by with_reducible assumption) ?_
    | dsimp only
    | refine Keeps.fuse (hw.bit rfl) ?_ (by rfl) (by rfl))

theorem execDebugLeaseExpire_keeps {w₀ : Nat} {s₀ s : State} (hw : Sub 0x80000000000 w₀) (h₀ : Keeps w₀ s₀ s) :
    ResKeeps w₀ s₀ (execDebugLeaseExpire s) := by
  unfold execDebugLeaseExpire
  repeat' (first
    | with_reducible assumption
    | with_reducible apply State.wrs_keeps
    | with_reducible exact Reg.secDbgLeaseLeft_may hw rfl
    | with_reducible exact Reg.secDbgLevel_may hw rfl
    | with_reducible exact AllMay.nil _
    | with_reducible apply AllMay.cons
    | with_reducible apply AllMay.append
    | with_reducible apply AllMay.map
    | exact hw.le rfl
    | with_reducible apply ResKeeps.next
    | with_reducible apply Keeps.each
    | with_reducible apply Keeps.when
    | with_reducible apply Keeps.foldl
    | split
    | intro _ _ _
    | intro _ _
    | intro _
    | with_reducible refine Keeps.of_pair (by with_reducible assumption) ?_
    | with_reducible refine Keeps.of_triple (by with_reducible assumption) ?_
    | dsimp only
    | refine Keeps.fuse (hw.bit rfl) ?_ (by rfl) (by rfl))

theorem applySecurity_keeps {w₀ : Nat} {s₀ s : State} (hw : Sub 0x80000000000 w₀) (v : List Byte) (h₀ : Keeps w₀ s₀ s) :
    Keeps w₀ s₀ (applySecurity v s) := by
  unfold applySecurity
  repeat' (first
    | with_reducible assumption
    | with_reducible apply State.wrs_keeps
    | with_reducible exact Reg.secCfgDebugSlot_may hw rfl
    | with_reducible exact Reg.secCfgJtagEn_may hw rfl
    | with_reducible exact Reg.secCfgLeaseS_may hw rfl
    | with_reducible exact AllMay.nil _
    | with_reducible apply AllMay.cons
    | with_reducible apply AllMay.append
    | with_reducible apply AllMay.map
    | exact hw.le rfl
    | with_reducible apply ResKeeps.next
    | with_reducible apply Keeps.each
    | with_reducible apply Keeps.when
    | with_reducible apply Keeps.foldl
    | split
    | intro _ _ _
    | intro _ _
    | intro _
    | with_reducible refine Keeps.of_pair (by with_reducible assumption) ?_
    | with_reducible refine Keeps.of_triple (by with_reducible assumption) ?_
    | dsimp only
    | refine Keeps.fuse (hw.bit rfl) ?_ (by rfl) (by rfl))

end Sys2Proof.Machine
end

