-- ==== Sys2Proof/Laws/KeepStart.lean ====
section
/-! SUPPORT. What the operations of Machine/Start.lean keep. -/

set_option linter.all false
set_option Elab.async false

namespace Sys2Proof.Machine

theorem State.bootRecord_keeps {w₀ : Nat} {s₀ s : State} (hw : Sub 0x1000000020000000000 w₀) (seq : Nat) (h₀ : Keeps w₀ s₀ s) :
    Keeps w₀ s₀ (State.bootRecord s seq) := by
  unfold State.bootRecord
  repeat' (first
    | with_reducible assumption
    | with_reducible apply State.jwrite_keeps
    | exact hw.le rfl
    | with_reducible apply ResKeeps.next
    | with_reducible apply Keeps.each
    | with_reducible apply Keeps.when
    | with_reducible apply Keeps.foldl
    | split
    | intro _ _ _
    | intro _ _
    | intro _
    | with_reducible refine Keeps.of_pair (by with_reducible assumption) ?_
    | with_reducible refine Keeps.of_triple (by with_reducible assumption) ?_
    | dsimp only
    | refine Keeps.fuse (hw.bit rfl) ?_ (by rfl) (by rfl))

theorem State.haltEnter_keeps {w₀ : Nat} {s₀ s : State} (hw : Sub 0x7fff946ffffffffffffffff w₀) (h₀ : Keeps w₀ s₀ s) :
    Keeps w₀ s₀ (State.haltEnter s) := by
  unfold State.haltEnter
  repeat' (first
    | with_reducible assumption
    | with_reducible apply Keeps.wr
    | with_reducible apply State.setPwr_keeps
    | with_reducible apply State.linkTrain_keeps
    | with_reducible apply State.bootRamps_keeps
    | with_reducible apply State.bootRecord_keeps
    | with_reducible exact Reg.devBootPhase_may hw rfl
    | exact hw.le rfl
    | with_reducible exact may_any (hw.le rfl) _
    | with_reducible apply ResKeeps.next
    | with_reducible apply Keeps.each
    | with_reducible apply Keeps.when
    | with_reducible apply Keeps.foldl
    | split
    | intro _ _ _
    | intro _ _
    | intro _
    | with_reducible refine Keeps.of_pair (by with_reducible assumption) ?_
    | with_reducible refine Keeps.of_triple (by with_reducible assumption) ?_
    | dsimp only
    | refine Keeps.fuse (hw.bit rfl) ?_ (by rfl) (by rfl))

theorem State.floorStart_keeps {w₀ : Nat} {s₀ s : State} (hw : Sub 0x400000080000000000 w₀) (h₀ : Keeps w₀ s₀ s) :
    Keeps w₀ s₀ (State.floorStart s) := by
  unfold State.floorStart
  repeat' (first
    | with_reducible assumption
    | with_reducible apply Keeps.wr
    | with_reducible exact Reg.secOtpStatusFloorFull_may hw rfl
    | (simp only [Keeps.mk_eq]; with_reducible apply KeepsMk.upd)
    | exact hw.le rfl
    | exact Or.inl (hw.bit rfl)
    | with_reducible exact Or.inr rfl
    | with_reducible apply ResKeeps.next
    | with_reducible apply Keeps.each
    | with_reducible apply Keeps.when
    | with_reducible apply Keeps.foldl
    | split
    | intro _ _ _
    | intro _ _
    | intro _
    | with_reducible refine Keeps.of_pair (by with_reducible assumption) ?_
    | with_reducible refine Keeps.of_triple (by with_reducible assumption) ?_
    | dsimp only
    | refine Keeps.fuse (hw.bit rfl) ?_ (by rfl) (by rfl))

theorem State.enterRun_keeps {w₀ : Nat} {s₀ s : State} (hw : Sub 0x7fff946ffffffffffffffff w₀) (h₀ : Keeps w₀ s₀ s) :
    Keeps w₀ s₀ (State.enterRun s) := by
  unfold State.enterRun
  repeat' (first
    | with_reducible assumption
    | with_reducible apply Keeps.wr
    | with_reducible apply State.pgRun_keeps
    | with_reducible apply State.setPwr_keeps
    | with_reducible apply State.pwrUpdate_keeps
    | with_reducible apply State.floorStart_keeps
    | with_reducible exact Reg.devBootPhase_may hw rfl
    | (simp only [Keeps.mk_eq]; with_reducible apply KeepsMk.upd)
    | exact hw.le rfl
    | exact Or.inl (hw.bit rfl)
    | with_reducible exact Or.inr rfl
    | with_reducible exact may_any (hw.le rfl) _
    | with_reducible apply ResKeeps.next
    | with_reducible apply Keeps.each
    | with_reducible apply Keeps.when
    | with_reducible apply Keeps.foldl
    | split
    | intro _ _ _
    | intro _ _
    | intro _
    | with_reducible refine Keeps.of_pair (by with_reducible assumption) ?_
    | with_reducible refine Keeps.of_triple (by with_reducible assumption) ?_
    | dsimp only
    | refine Keeps.fuse (hw.bit rfl) ?_ (by rfl) (by rfl))

theorem State.calSettle_keeps {w₀ : Nat} {s₀ s : State} (hw : Sub 0x7fff946ffffffffffffffff w₀) (h₀ : Keeps w₀ s₀ s) :
    Keeps w₀ s₀ (State.calSettle s) := by
  unfold State.calSettle
  repeat' (first
    | with_reducible assumption
    | with_reducible apply State.enterRun_keeps
    | exact hw.le rfl
    | with_reducible exact may_any (hw.le rfl) _
    | with_reducible apply ResKeeps.next
    | with_reducible apply Keeps.each
    | with_reducible apply Keeps.when
    | with_reducible apply Keeps.foldl
    | split
    | intro _ _ _
    | intro _ _
    | intro _
    | with_reducible refine Keeps.of_pair (by with_reducible assumption) ?_
    | with_reducible refine Keeps.of_triple (by with_reducible assumption) ?_
    | dsimp only
    | refine Keeps.fuse (hw.bit rfl) ?_ (by rfl) (by rfl))

theorem State.putFloor_keeps {w₀ : Nat} {s₀ s : State} (hw : Sub 0x2000000000000000000 w₀) (i : Nat) (w : Nat) (h₀ : Keeps w₀ s₀ s) :
    Keeps w₀ s₀ (State.putFloor s i w) := by
  unfold State.putFloor
  repeat' (first
    | with_reducible assumption
    | (simp only [Keeps.mk_eq]; with_reducible apply KeepsMk.upd)
    | exact hw.le rfl
    | exact Or.inl (hw.bit rfl)
    | with_reducible exact Or.inr rfl
    | with_reducible apply ResKeeps.next
    | with_reducible apply Keeps.each
    | with_reducible apply Keeps.when
    | with_reducible apply Keeps.foldl
    | split
    | intro _ _ _
    | intro _ _
    | intro _
    | with_reducible refine Keeps.of_pair (by with_reducible assumption) ?_
    | with_reducible refine Keeps.of_triple (by with_reducible assumption) ?_
    | dsimp only
    | refine Keeps.fuse (hw.bit rfl) ?_ (by rfl) (by rfl))

theorem execFloorRaiseDone_keeps {w₀ : Nat} {s₀ s : State} (hw : Sub 0x34400000a0000000001 w₀) (readBack : Bool) (h₀ : Keeps w₀ s₀ s) :
    ResKeeps w₀ s₀ (execFloorRaiseDone readBack s) := by
  unfold execFloorRaiseDone
  repeat' (first
    | with_reducible assumption
    | with_reducible apply Keeps.wr
    | with_reducible apply State.draw_keeps
    | with_reducible apply State.jwrite_keeps
    | with_reducible apply State.putFloor_keeps
    | with_reducible exact Reg.devBootFloorRaised_may hw rfl
    | with_reducible exact Reg.secOtpStatusOtpErr_may hw rfl
    | (simp only [Keeps.mk_eq]; with_reducible apply KeepsMk.upd)
    | exact hw.le rfl
    | exact Or.inl (hw.bit rfl)
    | with_reducible exact Or.inr rfl
    | with_reducible apply ResKeeps.next
    | with_reducible apply Keeps.each
    | with_reducible apply Keeps.when
    | with_reducible apply Keeps.foldl
    | split
    | intro _ _ _
    | intro _ _
    | intro _
    | with_reducible refine Keeps.of_pair (by with_reducible assumption) ?_
    | with_reducible refine Keeps.of_triple (by with_reducible assumption) ?_
    | dsimp only
    | refine Keeps.fuse (hw.bit rfl) ?_ (by rfl) (by rfl))

end Sys2Proof.Machine
end

