-- ==== Sys2Proof/Laws/KeepCalRun.lean ====
section
/-! SUPPORT. What the operations of Machine/CalRun.lean keep. -/

set_option linter.all false
set_option Elab.async false

namespace Sys2Proof.Machine

theorem execTempSensorRead_keeps {w₀ : Nat} {s₀ s : State} (hw : Sub 0x7fff946ffffffffffffffff w₀) (readings : List Int) (h₀ : Keeps w₀ s₀ s) :
    ResKeeps w₀ s₀ (execTempSensorRead readings s) := by
  unfold execTempSensorRead
  repeat' (first
    | with_reducible assumption
    | with_reducible apply State.sensorsRead_keeps
    | with_reducible apply State.calSettle_keeps
    | exact hw.le rfl
    | with_reducible exact may_any (hw.le rfl) _
    | with_reducible apply ResKeeps.next
    | with_reducible apply Keeps.each
    | with_reducible apply Keeps.when
    | with_reducible apply Keeps.foldl
    | split
    | intro _ _ _
    | intro _ _
    | intro _
    | with_reducible refine Keeps.of_pair (by with_reducible assumption) ?_
    | with_reducible refine Keeps.of_triple (by with_reducible assumption) ?_
    | dsimp only)

theorem execCalPeriodTimer_keeps {w₀ : Nat} {s₀ s : State} (hw : Sub 0x40000000000000000000080 w₀) (h₀ : Keeps w₀ s₀ s) :
    ResKeeps w₀ s₀ (execCalPeriodTimer s) := by
  unfold execCalPeriodTimer
  repeat' (first
    | with_reducible assumption
    | with_reducible apply State.calTrigger_keeps
    | exact hw.le rfl
    | with_reducible apply ResKeeps.next
    | with_reducible apply Keeps.each
    | with_reducible apply Keeps.when
    | with_reducible apply Keeps.foldl
    | split
    | intro _ _ _
    | intro _ _
    | intro _
    | with_reducible refine Keeps.of_pair (by with_reducible assumption) ?_
    | with_reducible refine Keeps.of_triple (by with_reducible assumption) ?_
    | dsimp only)

theorem execCalRetryDue_keeps {w₀ : Nat} {s₀ s : State} (hw : Sub 0x40000000000000000000080 w₀) (h₀ : Keeps w₀ s₀ s) :
    ResKeeps w₀ s₀ (execCalRetryDue s) := by
  unfold execCalRetryDue
  repeat' (first
    | with_reducible assumption
    | with_reducible apply Keeps.wr
    | with_reducible apply State.calTrigger_keeps
    | with_reducible exact Reg.calStatusRetryArmed_may hw rfl
    | exact hw.le rfl
    | with_reducible apply ResKeeps.next
    | with_reducible apply Keeps.each
    | with_reducible apply Keeps.when
    | with_reducible apply Keeps.foldl
    | split
    | intro _ _ _
    | intro _ _
    | intro _
    | with_reducible refine Keeps.of_pair (by with_reducible assumption) ?_
    | with_reducible refine Keeps.of_triple (by with_reducible assumption) ?_
    | dsimp only)

theorem execCalPrecheckDone_keeps {w₀ : Nat} {s₀ s : State} (hw : Sub 0x7fff946ffffffffffffffff w₀) (h₀ : Keeps w₀ s₀ s) :
    ResKeeps w₀ s₀ (execCalPrecheckDone s) := by
  unfold execCalPrecheckDone
  repeat' (first
    | with_reducible assumption
    | with_reducible apply Keeps.wr
    | with_reducible apply State.calAbort_keeps
    | with_reducible apply State.calSettle_keeps
    | with_reducible exact Reg.calStatusState_may hw rfl
    | exact hw.le rfl
    | with_reducible exact may_any (hw.le rfl) _
    | with_reducible apply ResKeeps.next
    | with_reducible apply Keeps.each
    | with_reducible apply Keeps.when
    | with_reducible apply Keeps.foldl
    | split
    | intro _ _ _
    | intro _ _
    | intro _
    | with_reducible refine Keeps.of_pair (by with_reducible assumption) ?_
    | with_reducible refine Keeps.of_triple (by with_reducible assumption) ?_
    | dsimp only)

theorem State.calPhase_keeps {w₀ : Nat} {s₀ s : State} (hw : Sub 0x40000000000000000000080 w₀) (st : Nat) (phase : Nat → Bool) (l : List (Nat × Int)) (h₀ : Keeps w₀ s₀ s) :
    ResKeeps w₀ s₀ (State.calPhase s st phase l) := by
  unfold State.calPhase
  repeat' (first
    | with_reducible assumption
    | with_reducible apply Keeps.wr
    | with_reducible apply State.measured_keeps
    | with_reducible exact Reg.calStatusState_may hw rfl
    | exact hw.le rfl
    | with_reducible apply ResKeeps.next
    | with_reducible apply Keeps.each
    | with_reducible apply Keeps.when
    | with_reducible apply Keeps.foldl
    | split
    | intro _ _ _
    | intro _ _
    | intro _
    | with_reducible refine Keeps.of_pair (by with_reducible assumption) ?_
    | with_reducible refine Keeps.of_triple (by with_reducible assumption) ?_
    | dsimp only)

theorem execCalScaleDone_keeps {w₀ : Nat} {s₀ s : State} (hw : Sub 0x40000000000000000000080 w₀) (values : List (Nat × Int)) (h₀ : Keeps w₀ s₀ s) :
    ResKeeps w₀ s₀ (execCalScaleDone values s) := by
  unfold execCalScaleDone
  repeat' (first
    | with_reducible assumption
    | with_reducible apply State.calPhase_keeps
    | exact hw.le rfl
    | with_reducible apply ResKeeps.next
    | with_reducible apply Keeps.each
    | with_reducible apply Keeps.when
    | with_reducible apply Keeps.foldl
    | split
    | intro _ _ _
    | intro _ _
    | intro _
    | with_reducible refine Keeps.of_pair (by with_reducible assumption) ?_
    | with_reducible refine Keeps.of_triple (by with_reducible assumption) ?_
    | dsimp only)

theorem execCalLoopDone_keeps {w₀ : Nat} {s₀ s : State} (hw : Sub 0x40000000000000000000080 w₀) (values : List (Nat × Int)) (h₀ : Keeps w₀ s₀ s) :
    ResKeeps w₀ s₀ (execCalLoopDone values s) := by
  unfold execCalLoopDone
  repeat' (first
    | with_reducible assumption
    | with_reducible apply State.calPhase_keeps
    | exact hw.le rfl
    | with_reducible apply ResKeeps.next
    | with_reducible apply Keeps.each
    | with_reducible apply Keeps.when
    | with_reducible apply Keeps.foldl
    | split
    | intro _ _ _
    | intro _ _
    | intro _
    | with_reducible refine Keeps.of_pair (by with_reducible assumption) ?_
    | with_reducible refine Keeps.of_triple (by with_reducible assumption) ?_
    | dsimp only)

theorem execCalPointsDone_keeps {w₀ : Nat} {s₀ s : State} (hw : Sub 0x40000000000000000000080 w₀) (values : List (Nat × Int)) (h₀ : Keeps w₀ s₀ s) :
    ResKeeps w₀ s₀ (execCalPointsDone values s) := by
  unfold execCalPointsDone
  repeat' (first
    | with_reducible assumption
    | with_reducible apply State.calPhase_keeps
    | exact hw.le rfl
    | with_reducible apply ResKeeps.next
    | with_reducible apply Keeps.each
    | with_reducible apply Keeps.when
    | with_reducible apply Keeps.foldl
    | split
    | intro _ _ _
    | intro _ _
    | intro _
    | with_reducible refine Keeps.of_pair (by with_reducible assumption) ?_
    | with_reducible refine Keeps.of_triple (by with_reducible assumption) ?_
    | dsimp only)

theorem execCalOutputsDone_keeps {w₀ : Nat} {s₀ s : State} (hw : Sub 0x40000000000000000000080 w₀) (values : List (Nat × Int)) (h₀ : Keeps w₀ s₀ s) :
    ResKeeps w₀ s₀ (execCalOutputsDone values s) := by
  unfold execCalOutputsDone
  repeat' (first
    | with_reducible assumption
    | with_reducible apply State.calPhase_keeps
    | exact hw.le rfl
    | with_reducible apply ResKeeps.next
    | with_reducible apply Keeps.each
    | with_reducible apply Keeps.when
    | with_reducible apply Keeps.foldl
    | split
    | intro _ _ _
    | intro _ _
    | intro _
    | with_reducible refine Keeps.of_pair (by with_reducible assumption) ?_
    | with_reducible refine Keeps.of_triple (by with_reducible assumption) ?_
    | dsimp only)

theorem execCalComputeDone_keeps {w₀ : Nat} {s₀ s : State} (hw : Sub 0x7fff946ffffffffffffffff w₀) (h₀ : Keeps w₀ s₀ s) :
    ResKeeps w₀ s₀ (execCalComputeDone s) := by
  unfold execCalComputeDone
  repeat' (first
    | with_reducible assumption
    | with_reducible apply State.calAbort_keeps
    | with_reducible apply State.commitWait_keeps
    | with_reducible apply State.calSettle_keeps
    | exact hw.le rfl
    | with_reducible exact may_any (hw.le rfl) _
    | with_reducible apply ResKeeps.next
    | with_reducible apply Keeps.each
    | with_reducible apply Keeps.when
    | with_reducible apply Keeps.foldl
    | split
    | intro _ _ _
    | intro _ _
    | intro _
    | with_reducible refine Keeps.of_pair (by with_reducible assumption) ?_
    | with_reducible refine Keeps.of_triple (by with_reducible assumption) ?_
    | dsimp only)

theorem execCalCommit_keeps {w₀ : Nat} {s₀ s : State} (hw : Sub 0x40090028000040000000088 w₀) (h₀ : Keeps w₀ s₀ s) :
    ResKeeps w₀ s₀ (execCalCommit s) := by
  unfold execCalCommit
  repeat' (first
    | with_reducible assumption
    | with_reducible apply State.commitNow_keeps
    | with_reducible apply State.commitSecond_keeps
    | exact hw.le rfl
    | with_reducible apply ResKeeps.next
    | with_reducible apply Keeps.each
    | with_reducible apply Keeps.when
    | with_reducible apply Keeps.foldl
    | split
    | intro _ _ _
    | intro _ _
    | intro _
    | with_reducible refine Keeps.of_pair (by with_reducible assumption) ?_
    | with_reducible refine Keeps.of_triple (by with_reducible assumption) ?_
    | dsimp only)

theorem execCalTapWalkStep_keeps {w₀ : Nat} {s₀ s : State} (hw : Sub 0x40000000000000000000080 w₀) (h₀ : Keeps w₀ s₀ s) :
    ResKeeps w₀ s₀ (execCalTapWalkStep s) := by
  unfold execCalTapWalkStep
  repeat' (first
    | with_reducible assumption
    | with_reducible apply State.tapStep_keeps
    | with_reducible apply State.calIdle_keeps
    | exact hw.le rfl
    | with_reducible apply ResKeeps.next
    | with_reducible apply Keeps.each
    | with_reducible apply Keeps.when
    | with_reducible apply Keeps.foldl
    | split
    | intro _ _ _
    | intro _ _
    | intro _
    | with_reducible refine Keeps.of_pair (by with_reducible assumption) ?_
    | with_reducible refine Keeps.of_triple (by with_reducible assumption) ?_
    | dsimp only)

theorem execCalRefClkLoss_keeps {w₀ : Nat} {s₀ s : State} (hw : Sub 0x7fff946ffffffffffffffff w₀) (h₀ : Keeps w₀ s₀ s) :
    ResKeeps w₀ s₀ (execCalRefClkLoss s) := by
  unfold execCalRefClkLoss
  repeat' (first
    | with_reducible assumption
    | with_reducible apply Keeps.wr
    | with_reducible apply State.calAbort_keeps
    | with_reducible apply State.calSettle_keeps
    | with_reducible exact Reg.calStatusClkOk_may hw rfl
    | (simp only [Keeps.mk_eq]; with_reducible apply KeepsMk.upd)
    | exact hw.le rfl
    | exact Or.inl (hw.bit rfl)
    | with_reducible exact Or.inr rfl
    | with_reducible exact may_any (hw.le rfl) _
    | with_reducible apply ResKeeps.next
    | with_reducible apply Keeps.each
    | with_reducible apply Keeps.when
    | with_reducible apply Keeps.foldl
    | split
    | intro _ _ _
    | intro _ _
    | intro _
    | with_reducible refine Keeps.of_pair (by with_reducible assumption) ?_
    | with_reducible refine Keeps.of_triple (by with_reducible assumption) ?_
    | dsimp only)

theorem execCalClkFreqWindow_keeps {w₀ : Nat} {s₀ s : State} (hw : Sub 0x7fff946ffffffffffffffff w₀) (offPpb : Int) (h₀ : Keeps w₀ s₀ s) :
    ResKeeps w₀ s₀ (execCalClkFreqWindow offPpb s) := by
  unfold execCalClkFreqWindow
  repeat' (first
    | with_reducible assumption
    | with_reducible apply Keeps.wr
    | with_reducible apply State.calAbort_keeps
    | with_reducible apply State.calSettle_keeps
    | with_reducible exact Reg.calStatusClkOk_may hw rfl
    | (simp only [Keeps.mk_eq]; with_reducible apply KeepsMk.upd)
    | exact hw.le rfl
    | exact Or.inl (hw.bit rfl)
    | with_reducible exact Or.inr rfl
    | with_reducible exact may_any (hw.le rfl) _
    | with_reducible apply ResKeeps.next
    | with_reducible apply Keeps.each
    | with_reducible apply Keeps.when
    | with_reducible apply Keeps.foldl
    | split
    | intro _ _ _
    | intro _ _
    | intro _
    | with_reducible refine Keeps.of_pair (by with_reducible assumption) ?_
    | with_reducible refine Keeps.of_triple (by with_reducible assumption) ?_
    | dsimp only)

theorem execCalRefPpsEdge_keeps {w₀ : Nat} {s₀ s : State} (hw : Sub 0x7fff946ffffffffffffffff w₀) (devPs : Int) (offset : Nat) (h₀ : Keeps w₀ s₀ s) :
    ResKeeps w₀ s₀ (execCalRefPpsEdge devPs offset s) := by
  unfold execCalRefPpsEdge
  repeat' (first
    | with_reducible assumption
    | with_reducible apply Keeps.wr
    | with_reducible apply State.wrs_keeps
    | with_reducible apply State.calAbort_keeps
    | with_reducible apply State.calSettle_keeps
    | with_reducible exact Reg.calPpsOffHiOff_may hw rfl
    | with_reducible exact Reg.calPpsOffHiValid_may hw rfl
    | with_reducible exact Reg.calPpsOffLoOff_may hw rfl
    | with_reducible exact Reg.calStatusPpsOk_may hw rfl
    | with_reducible exact AllMay.nil _
    | with_reducible apply AllMay.cons
    | with_reducible apply AllMay.append
    | with_reducible apply AllMay.map
    | (simp only [Keeps.mk_eq]; with_reducible apply KeepsMk.upd)
    | exact hw.le rfl
    | exact Or.inl (hw.bit rfl)
    | with_reducible exact Or.inr rfl
    | with_reducible exact may_any (hw.le rfl) _
    | with_reducible apply ResKeeps.next
    | with_reducible apply Keeps.each
    | with_reducible apply Keeps.when
    | with_reducible apply Keeps.foldl
    | split
    | intro _ _ _
    | intro _ _
    | intro _
    | with_reducible refine Keeps.of_pair (by with_reducible assumption) ?_
    | with_reducible refine Keeps.of_triple (by with_reducible assumption) ?_
    | dsimp only)

theorem execCalPpsMissing_keeps {w₀ : Nat} {s₀ s : State} (hw : Sub 0x40090028000000000000089 w₀) (h₀ : Keeps w₀ s₀ s) :
    ResKeeps w₀ s₀ (execCalPpsMissing s) := by
  unfold execCalPpsMissing
  repeat' (first
    | with_reducible assumption
    | with_reducible apply Keeps.wr
    | with_reducible apply State.calAbort_keeps
    | with_reducible exact Reg.calStatusPpsOk_may hw rfl
    | (simp only [Keeps.mk_eq]; with_reducible apply KeepsMk.upd)
    | exact hw.le rfl
    | exact Or.inl (hw.bit rfl)
    | with_reducible exact Or.inr rfl
    | with_reducible apply ResKeeps.next
    | with_reducible apply Keeps.each
    | with_reducible apply Keeps.when
    | with_reducible apply Keeps.foldl
    | split
    | intro _ _ _
    | intro _ _
    | intro _
    | with_reducible refine Keeps.of_pair (by with_reducible assumption) ?_
    | with_reducible refine Keeps.of_triple (by with_reducible assumption) ?_
    | dsimp only)

theorem execCalCmdNop_keeps {w₀ : Nat} {s₀ s : State} (hw : Sub 0x80 w₀) (h₀ : Keeps w₀ s₀ s) :
    ResKeeps w₀ s₀ (execCalCmdNop s) := by
  unfold execCalCmdNop
  repeat' (first
    | with_reducible assumption
    | with_reducible apply Keeps.wr
    | with_reducible exact Reg.calCmdStatusResult_may hw rfl
    | exact hw.le rfl
    | with_reducible apply ResKeeps.next
    | with_reducible apply Keeps.each
    | with_reducible apply Keeps.when
    | with_reducible apply Keeps.foldl
    | split
    | intro _ _ _
    | intro _ _
    | intro _
    | with_reducible refine Keeps.of_pair (by with_reducible assumption) ?_
    | with_reducible refine Keeps.of_triple (by with_reducible assumption) ?_
    | dsimp only)

theorem execCalRun_keeps {w₀ : Nat} {s₀ s : State} (hw : Sub 0x40000000000000000000080 w₀) (gen : Fin 65536) (h₀ : Keeps w₀ s₀ s) :
    ResKeeps w₀ s₀ (execCalRun gen s) := by
  unfold execCalRun
  repeat' (first
    | with_reducible assumption
    | with_reducible apply Keeps.wr
    | with_reducible apply State.calTrigger_keeps
    | with_reducible exact Reg.calCmdStatusResult_may hw rfl
    | exact hw.le rfl
    | with_reducible apply ResKeeps.next
    | with_reducible apply Keeps.each
    | with_reducible apply Keeps.when
    | with_reducible apply Keeps.foldl
    | split
    | intro _ _ _
    | intro _ _
    | intro _
    | with_reducible refine Keeps.of_pair (by with_reducible assumption) ?_
    | with_reducible refine Keeps.of_triple (by with_reducible assumption) ?_
    | dsimp only)

theorem execCalRestore_keeps {w₀ : Nat} {s₀ s : State} (hw : Sub 0x40090028000040000000088 w₀) (gen : Fin 65536) (h₀ : Keeps w₀ s₀ s) :
    ResKeeps w₀ s₀ (execCalRestore gen s) := by
  unfold execCalRestore
  repeat' (first
    | with_reducible assumption
    | with_reducible apply Keeps.wr
    | with_reducible apply State.commitWait_keeps
    | with_reducible exact Reg.calCmdStatusResult_may hw rfl
    | (simp only [Keeps.mk_eq]; with_reducible apply KeepsMk.upd)
    | exact hw.le rfl
    | exact Or.inl (hw.bit rfl)
    | with_reducible exact Or.inr rfl
    | with_reducible apply ResKeeps.next
    | with_reducible apply Keeps.each
    | with_reducible apply Keeps.when
    | with_reducible apply Keeps.foldl
    | split
    | intro _ _ _
    | intro _ _
    | intro _
    | with_reducible refine Keeps.of_pair (by with_reducible assumption) ?_
    | with_reducible refine Keeps.of_triple (by with_reducible assumption) ?_
    | dsimp only)

theorem execCalCmdReserved_keeps {w₀ : Nat} {s₀ s : State} (hw : Sub 0x80 w₀) (gen : Fin 65536) (h₀ : Keeps w₀ s₀ s) :
    ResKeeps w₀ s₀ (execCalCmdReserved gen s) := by
  unfold execCalCmdReserved
  repeat' (first
    | with_reducible assumption
    | with_reducible apply Keeps.wr
    | with_reducible exact Reg.calCmdStatusResult_may hw rfl
    | exact hw.le rfl
    | with_reducible apply ResKeeps.next
    | with_reducible apply Keeps.each
    | with_reducible apply Keeps.when
    | with_reducible apply Keeps.foldl
    | split
    | intro _ _ _
    | intro _ _
    | intro _
    | with_reducible refine Keeps.of_pair (by with_reducible assumption) ?_
    | with_reducible refine Keeps.of_triple (by with_reducible assumption) ?_
    | dsimp only)

theorem execHeartbeatLost_keeps {w₀ : Nat} {s₀ s : State} (hw : Sub 0x7fff946ffffffffffffffff w₀) (beat : HbEvent) (h₀ : Keeps w₀ s₀ s) :
    ResKeeps w₀ s₀ (execHeartbeatLost beat s) := by
  unfold execHeartbeatLost
  repeat' (first
    | with_reducible assumption
    | with_reducible apply Keeps.wr
    | with_reducible apply State.unitDown_keeps
    | with_reducible apply State.lostAgain_keeps
    | with_reducible apply State.judgeTimings_keeps
    | with_reducible apply State.calSettle_keeps
    | with_reducible exact Reg.redUnitStatusHbOk_may hw rfl
    | exact hw.le rfl
    | with_reducible exact may_any (hw.le rfl) _
    | with_reducible apply ResKeeps.next
    | with_reducible apply Keeps.each
    | with_reducible apply Keeps.when
    | with_reducible apply Keeps.foldl
    | split
    | intro _ _ _
    | intro _ _
    | intro _
    | with_reducible refine Keeps.of_pair (by with_reducible assumption) ?_
    | with_reducible refine Keeps.of_triple (by with_reducible assumption) ?_
    | dsimp only)

theorem execUnmonitoredClear_keeps {w₀ : Nat} {s₀ s : State} (hw : Sub 0x7fff946ffffffffffffffff w₀) (unit : Fin 68) (h₀ : Keeps w₀ s₀ s) :
    ResKeeps w₀ s₀ (execUnmonitoredClear unit s) := by
  unfold execUnmonitoredClear
  repeat' (first
    | with_reducible assumption
    | with_reducible apply State.setUnmonitored_keeps
    | with_reducible apply State.lostAgain_keeps
    | with_reducible apply State.calSettle_keeps
    | exact hw.le rfl
    | with_reducible exact may_any (hw.le rfl) _
    | with_reducible apply ResKeeps.next
    | with_reducible apply Keeps.each
    | with_reducible apply Keeps.when
    | with_reducible apply Keeps.foldl
    | split
    | intro _ _ _
    | intro _ _
    | intro _
    | with_reducible refine Keeps.of_pair (by with_reducible assumption) ?_
    | with_reducible refine Keeps.of_triple (by with_reducible assumption) ?_
    | dsimp only)

theorem execUnitVerified_keeps {w₀ : Nat} {s₀ s : State} (hw : Sub 0x7fff946ffffffffffffffff w₀) (unit : Fin 68) (h₀ : Keeps w₀ s₀ s) :
    ResKeeps w₀ s₀ (execUnitVerified unit s) := by
  unfold execUnitVerified
  repeat' (first
    | with_reducible assumption
    | with_reducible apply Keeps.wr
    | with_reducible apply State.startSeconds_keeps
    | with_reducible apply State.setUnit_keeps
    | with_reducible apply State.setUnverified_keeps
    | with_reducible apply State.unitJudge_keeps
    | with_reducible apply State.lostAgain_keeps
    | with_reducible apply State.calSettle_keeps
    | with_reducible exact Reg.redPairStatusDataActive_may hw rfl
    | with_reducible exact Reg.redUnitWtrWtrLeft_may hw rfl
    | with_reducible exact Reg.tkStatusUnverified_may hw rfl
    | exact hw.le rfl
    | with_reducible exact may_any (hw.le rfl) _
    | with_reducible apply ResKeeps.next
    | with_reducible apply Keeps.each
    | with_reducible apply Keeps.when
    | with_reducible apply Keeps.foldl
    | split
    | intro _ _ _
    | intro _ _
    | intro _
    | with_reducible refine Keeps.of_pair (by with_reducible assumption) ?_
    | with_reducible refine Keeps.of_triple (by with_reducible assumption) ?_
    | dsimp only)

theorem execUnitFailOver_keeps {w₀ : Nat} {s₀ s : State} (hw : Sub 0x7fff946ffffffffffffffff w₀) (unit : Fin 68) (activeOut : Bool) (standbyOut : Bool) (h₀ : Keeps w₀ s₀ s) :
    ResKeeps w₀ s₀ (execUnitFailOver unit activeOut standbyOut s) := by
  unfold execUnitFailOver
  repeat' (first
    | with_reducible assumption
    | with_reducible apply State.unitDown_keeps
    | with_reducible apply State.judgeTiming_keeps
    | with_reducible apply State.judgeTimings_keeps
    | with_reducible apply State.calSettle_keeps
    | exact hw.le rfl
    | with_reducible exact may_any (hw.le rfl) _
    | with_reducible apply ResKeeps.next
    | with_reducible apply Keeps.each
    | with_reducible apply Keeps.when
    | with_reducible apply Keeps.foldl
    | split
    | intro _ _ _
    | intro _ _
    | intro _
    | with_reducible refine Keeps.of_pair (by with_reducible assumption) ?_
    | with_reducible refine Keeps.of_triple (by with_reducible assumption) ?_
    | dsimp only)

end Sys2Proof.Machine
end

