-- ==== Sys2Proof/Laws/KeepDev.lean ====
section
/-! SUPPORT. What the operations of Machine/Dev.lean keep. -/

set_option linter.all false
set_option Elab.async false

namespace Sys2Proof.Machine

theorem execResetNAssert_keeps {w₀ : Nat} {s₀ s : State} (hw : Sub 0x7fffc7cffffffffffffffff w₀) (widthNs : Nat) (h₀ : Keeps w₀ s₀ s) :
    ResKeeps w₀ s₀ (execResetNAssert widthNs s) := by
  unfold execResetNAssert
  repeat' (first
    | with_reducible assumption
    | with_reducible apply State.draw_keeps
    | with_reducible apply State.fullReset_keeps
    | (simp only [Keeps.mk_eq]; with_reducible apply KeepsMk.upd)
    | exact hw.le rfl
    | exact Or.inl (hw.bit rfl)
    | with_reducible exact Or.inr rfl
    | with_reducible exact may_any (hw.le rfl) _
    | with_reducible apply ResKeeps.next
    | with_reducible apply Keeps.each
    | with_reducible apply Keeps.when
    | with_reducible apply Keeps.foldl
    | split
    | intro _ _ _
    | intro _ _
    | intro _
    | with_reducible refine Keeps.of_pair (by with_reducible assumption) ?_
    | with_reducible refine Keeps.of_triple (by with_reducible assumption) ?_
    | dsimp only)

theorem execResetNRelease_keeps {w₀ : Nat} {s₀ s : State} (hw : Sub 0x7fffc78ffffffffffffffff w₀) (h₀ : Keeps w₀ s₀ s) :
    ResKeeps w₀ s₀ (execResetNRelease s) := by
  unfold execResetNRelease
  repeat' (first
    | with_reducible assumption
    | with_reducible apply State.fullReset_keeps
    | (simp only [Keeps.mk_eq]; with_reducible apply KeepsMk.upd)
    | exact hw.le rfl
    | exact Or.inl (hw.bit rfl)
    | with_reducible exact Or.inr rfl
    | with_reducible exact may_any (hw.le rfl) _
    | with_reducible apply ResKeeps.next
    | with_reducible apply Keeps.each
    | with_reducible apply Keeps.when
    | with_reducible apply Keeps.foldl
    | split
    | intro _ _ _
    | intro _ _
    | intro _
    | with_reducible refine Keeps.of_pair (by with_reducible assumption) ?_
    | with_reducible refine Keeps.of_triple (by with_reducible assumption) ?_
    | dsimp only)

theorem execVddAonDetect_keeps {w₀ : Nat} {s₀ s : State} (hw : Sub 0x7fffdfcffffffffffffffff w₀) (supplies : Nat × Nat) (h₀ : Keeps w₀ s₀ s) :
    ResKeeps w₀ s₀ (execVddAonDetect supplies s) := by
  unfold execVddAonDetect
  repeat' (first
    | with_reducible assumption
    | with_reducible apply State.pcieReset_keeps
    | with_reducible apply State.linkTrain_keeps
    | with_reducible apply State.linkDown_keeps
    | with_reducible apply State.jtear_keeps
    | with_reducible apply State.fullReset_keeps
    | (simp only [Keeps.mk_eq]; with_reducible apply KeepsMk.upd)
    | exact hw.le rfl
    | exact Or.inl (hw.bit rfl)
    | with_reducible exact Or.inr rfl
    | with_reducible exact may_any (hw.le rfl) _
    | with_reducible apply ResKeeps.next
    | with_reducible apply Keeps.each
    | with_reducible apply Keeps.when
    | with_reducible apply Keeps.foldl
    | split
    | intro _ _ _
    | intro _ _
    | intro _
    | with_reducible refine Keeps.of_pair (by with_reducible assumption) ?_
    | with_reducible refine Keeps.of_triple (by with_reducible assumption) ?_
    | dsimp only)

theorem execResetKeyWrite_keeps {w₀ : Nat} {s₀ s : State} (hw : Sub 0x1 w₀) (value : Word) (h₀ : Keeps w₀ s₀ s) :
    ResKeeps w₀ s₀ (execResetKeyWrite value s) := by
  unfold execResetKeyWrite
  repeat' (first
    | with_reducible assumption
    | with_reducible apply Keeps.wr
    | with_reducible exact Reg.devResetStatusArmed_may hw rfl
    | exact hw.le rfl
    | with_reducible apply ResKeeps.next
    | with_reducible apply Keeps.each
    | with_reducible apply Keeps.when
    | with_reducible apply Keeps.foldl
    | split
    | intro _ _ _
    | intro _ _
    | intro _
    | with_reducible refine Keeps.of_pair (by with_reducible assumption) ?_
    | with_reducible refine Keeps.of_triple (by with_reducible assumption) ?_
    | dsimp only)

theorem execResetArmExpire_keeps {w₀ : Nat} {s₀ s : State} (hw : Sub 0x1 w₀) (h₀ : Keeps w₀ s₀ s) :
    ResKeeps w₀ s₀ (execResetArmExpire s) := by
  unfold execResetArmExpire
  repeat' (first
    | with_reducible assumption
    | with_reducible apply Keeps.wr
    | with_reducible exact Reg.devResetStatusArmed_may hw rfl
    | exact hw.le rfl
    | with_reducible apply ResKeeps.next
    | with_reducible apply Keeps.each
    | with_reducible apply Keeps.when
    | with_reducible apply Keeps.foldl
    | split
    | intro _ _ _
    | intro _ _
    | intro _
    | with_reducible refine Keeps.of_pair (by with_reducible assumption) ?_
    | with_reducible refine Keeps.of_triple (by with_reducible assumption) ?_
    | dsimp only)

theorem State.resetCmd_keeps {w₀ : Nat} {s₀ s : State} (hw : Sub 0x7fffd70ffffffffffffffff w₀) (action : Nat) (h₀ : Keeps w₀ s₀ s) :
    Keeps w₀ s₀ (State.resetCmd s action) := by
  unfold State.resetCmd
  repeat' (first
    | with_reducible assumption
    | with_reducible apply Keeps.wr
    | with_reducible apply State.jwrite_keeps
    | with_reducible apply State.hostViewStart_keeps
    | with_reducible apply State.fullReset_keeps
    | with_reducible exact Reg.devResetStatusArmed_may hw rfl
    | with_reducible exact Reg.devResetStatusRefused_may hw rfl
    | exact hw.le rfl
    | with_reducible exact may_any (hw.le rfl) _
    | with_reducible apply ResKeeps.next
    | with_reducible apply Keeps.each
    | with_reducible apply Keeps.when
    | with_reducible apply Keeps.foldl
    | split
    | intro _ _ _
    | intro _ _
    | intro _
    | with_reducible refine Keeps.of_pair (by with_reducible assumption) ?_
    | with_reducible refine Keeps.of_triple (by with_reducible assumption) ?_
    | dsimp only)

theorem execResetCmdFull_keeps {w₀ : Nat} {s₀ s : State} (hw : Sub 0x7fffd70ffffffffffffffff w₀) (h₀ : Keeps w₀ s₀ s) :
    ResKeeps w₀ s₀ (execResetCmdFull s) := by
  unfold execResetCmdFull
  repeat' (first
    | with_reducible assumption
    | with_reducible apply State.resetCmd_keeps
    | exact hw.le rfl
    | with_reducible exact may_any (hw.le rfl) _
    | with_reducible apply ResKeeps.next
    | with_reducible apply Keeps.each
    | with_reducible apply Keeps.when
    | with_reducible apply Keeps.foldl
    | split
    | intro _ _ _
    | intro _ _
    | intro _
    | with_reducible refine Keeps.of_pair (by with_reducible assumption) ?_
    | with_reducible refine Keeps.of_triple (by with_reducible assumption) ?_
    | dsimp only)

theorem execResetCmdHostView_keeps {w₀ : Nat} {s₀ s : State} (hw : Sub 0x7fffd70ffffffffffffffff w₀) (h₀ : Keeps w₀ s₀ s) :
    ResKeeps w₀ s₀ (execResetCmdHostView s) := by
  unfold execResetCmdHostView
  repeat' (first
    | with_reducible assumption
    | with_reducible apply State.resetCmd_keeps
    | exact hw.le rfl
    | with_reducible exact may_any (hw.le rfl) _
    | with_reducible apply ResKeeps.next
    | with_reducible apply Keeps.each
    | with_reducible apply Keeps.when
    | with_reducible apply Keeps.foldl
    | split
    | intro _ _ _
    | intro _ _
    | intro _
    | with_reducible refine Keeps.of_pair (by with_reducible assumption) ?_
    | with_reducible refine Keeps.of_triple (by with_reducible assumption) ?_
    | dsimp only)

theorem execResetCmdRefused_keeps {w₀ : Nat} {s₀ s : State} (hw : Sub 0x7fffd70ffffffffffffffff w₀) (action : Fin 4) (h₀ : Keeps w₀ s₀ s) :
    ResKeeps w₀ s₀ (execResetCmdRefused action s) := by
  unfold execResetCmdRefused
  repeat' (first
    | with_reducible assumption
    | with_reducible apply State.resetCmd_keeps
    | exact hw.le rfl
    | with_reducible exact may_any (hw.le rfl) _
    | with_reducible apply ResKeeps.next
    | with_reducible apply Keeps.each
    | with_reducible apply Keeps.when
    | with_reducible apply Keeps.foldl
    | split
    | intro _ _ _
    | intro _ _
    | intro _
    | with_reducible refine Keeps.of_pair (by with_reducible assumption) ?_
    | with_reducible refine Keeps.of_triple (by with_reducible assumption) ?_
    | dsimp only)

theorem execNvmCmdGo_keeps {w₀ : Nat} {s₀ s : State} (hw : Sub 0x420000000000000001 w₀) (value : Word) (h₀ : Keeps w₀ s₀ s) :
    ResKeeps w₀ s₀ (execNvmCmdGo value s) := by
  unfold execNvmCmdGo
  repeat' (first
    | with_reducible assumption
    | with_reducible apply Keeps.wr
    | with_reducible apply State.wrs_keeps
    | with_reducible apply State.send_keeps
    | with_reducible exact Reg.devNvmCmdAddrEn_may hw rfl
    | with_reducible exact Reg.devNvmCmdCs_may hw rfl
    | with_reducible exact Reg.devNvmCmdLen_may hw rfl
    | with_reducible exact Reg.devNvmCmdOpcode_may hw rfl
    | with_reducible exact Reg.devNvmCmdWrite_may hw rfl
    | with_reducible exact Reg.devNvmStatusBusy_may hw rfl
    | with_reducible exact Reg.devNvmStatusDenied_may hw rfl
    | with_reducible exact AllMay.nil _
    | with_reducible apply AllMay.cons
    | with_reducible apply AllMay.append
    | with_reducible apply AllMay.map
    | (simp only [Keeps.mk_eq]; with_reducible apply KeepsMk.upd)
    | exact hw.le rfl
    | exact Or.inl (hw.bit rfl)
    | with_reducible exact Or.inr rfl
    | with_reducible apply ResKeeps.next
    | with_reducible apply Keeps.each
    | with_reducible apply Keeps.when
    | with_reducible apply Keeps.foldl
    | split
    | intro _ _ _
    | intro _ _
    | intro _
    | with_reducible refine Keeps.of_pair (by with_reducible assumption) ?_
    | with_reducible refine Keeps.of_triple (by with_reducible assumption) ?_
    | dsimp only)

theorem execNvmCmdDone_keeps {w₀ : Nat} {s₀ s : State} (hw : Sub 0x400000000000000001 w₀) (data : List Byte) (h₀ : Keeps w₀ s₀ s) :
    ResKeeps w₀ s₀ (execNvmCmdDone data s) := by
  unfold execNvmCmdDone
  repeat' (first
    | with_reducible assumption
    | with_reducible apply Keeps.wr
    | with_reducible apply State.wrs_keeps
    | with_reducible exact Reg.devNvmBufData_may hw rfl
    | with_reducible exact Reg.devNvmStatusBusy_may hw rfl
    | with_reducible exact AllMay.nil _
    | with_reducible apply AllMay.cons
    | with_reducible apply AllMay.append
    | with_reducible apply AllMay.map
    | (simp only [Keeps.mk_eq]; with_reducible apply KeepsMk.upd)
    | exact hw.le rfl
    | exact Or.inl (hw.bit rfl)
    | with_reducible exact Or.inr rfl
    | with_reducible apply ResKeeps.next
    | with_reducible apply Keeps.each
    | with_reducible apply Keeps.when
    | with_reducible apply Keeps.foldl
    | split
    | intro _ _ _
    | intro _ _
    | intro _
    | with_reducible refine Keeps.of_pair (by with_reducible assumption) ?_
    | with_reducible refine Keeps.of_triple (by with_reducible assumption) ?_
    | dsimp only)

theorem execFmeterStart_keeps {w₀ : Nat} {s₀ s : State} (hw : Sub 0x200000000000000002 w₀) (value : Word) (h₀ : Keeps w₀ s₀ s) :
    ResKeeps w₀ s₀ (execFmeterStart value s) := by
  unfold execFmeterStart
  repeat' (first
    | with_reducible assumption
    | with_reducible apply State.wrs_keeps
    | with_reducible exact Reg.clkFmeterCtlSel_may hw rfl
    | with_reducible exact Reg.clkFmeterCtlWindow_may hw rfl
    | with_reducible exact AllMay.nil _
    | with_reducible apply AllMay.cons
    | with_reducible apply AllMay.append
    | with_reducible apply AllMay.map
    | (simp only [Keeps.mk_eq]; with_reducible apply KeepsMk.upd)
    | exact hw.le rfl
    | exact Or.inl (hw.bit rfl)
    | with_reducible exact Or.inr rfl
    | with_reducible apply ResKeeps.next
    | with_reducible apply Keeps.each
    | with_reducible apply Keeps.when
    | with_reducible apply Keeps.foldl
    | split
    | intro _ _ _
    | intro _ _
    | intro _
    | with_reducible refine Keeps.of_pair (by with_reducible assumption) ?_
    | with_reducible refine Keeps.of_triple (by with_reducible assumption) ?_
    | dsimp only)

theorem execFmeterWindowEnd_keeps {w₀ : Nat} {s₀ s : State} (hw : Sub 0x200000000000000002 w₀) (count : Nat) (h₀ : Keeps w₀ s₀ s) :
    ResKeeps w₀ s₀ (execFmeterWindowEnd count s) := by
  unfold execFmeterWindowEnd
  repeat' (first
    | with_reducible assumption
    | with_reducible apply Keeps.wr
    | with_reducible exact Reg.clkFmeterResultCount_may hw rfl
    | (simp only [Keeps.mk_eq]; with_reducible apply KeepsMk.upd)
    | exact hw.le rfl
    | exact Or.inl (hw.bit rfl)
    | with_reducible exact Or.inr rfl
    | with_reducible apply ResKeeps.next
    | with_reducible apply Keeps.each
    | with_reducible apply Keeps.when
    | with_reducible apply Keeps.foldl
    | split
    | intro _ _ _
    | intro _ _
    | intro _
    | with_reducible refine Keeps.of_pair (by with_reducible assumption) ?_
    | with_reducible refine Keeps.of_triple (by with_reducible assumption) ?_
    | dsimp only)

end Sys2Proof.Machine
end

