-- ==== Sys2Proof/Laws/KeepView.lean ====
section
/-! SUPPORT. What the operations of Machine/View.lean keep. -/

set_option linter.all false
set_option Elab.async false

namespace Sys2Proof.Machine

theorem State.readLatches_keeps {w₀ : Nat} {s₀ s : State} (hw : Sub 0x80000000200000000090 w₀) (p : Nat) (a : Nat) (h₀ : Keeps w₀ s₀ s) :
    Keeps w₀ s₀ (State.readLatches s p a) := by
  unfold State.readLatches
  repeat' (first
    | with_reducible assumption
    | with_reducible apply State.latch_keeps
    | with_reducible apply State.tbNowLatch_keeps
    | with_reducible apply State.tbOffLatch_keeps
    | with_reducible exact Reg.calPpsOffHiOff_may hw rfl
    | with_reducible exact Reg.hifLnqDataData_may hw rfl
    | with_reducible exact Reg.hifTcrDataData_may hw rfl
    | exact hw.le rfl
    | with_reducible apply ResKeeps.next
    | with_reducible apply Keeps.each
    | with_reducible apply Keeps.when
    | with_reducible apply Keeps.foldl
    | split
    | intro _ _ _
    | intro _ _
    | intro _
    | with_reducible refine Keeps.of_pair (by with_reducible assumption) ?_
    | with_reducible refine Keeps.of_triple (by with_reducible assumption) ?_
    | dsimp only)

theorem State.readReg_keeps {w₀ : Nat} {s₀ s : State} (hw : Sub 0x80000000200000000090 w₀) (p : Nat) (a : Nat) (h₀ : Keeps w₀ s₀ s) :
    Keeps w₀ s₀ (State.readReg s p a).2 := by
  unfold State.readReg
  repeat' (first
    | with_reducible assumption
    | with_reducible apply State.readLatches_keeps
    | exact hw.le rfl
    | with_reducible apply ResKeeps.next
    | with_reducible apply Keeps.each
    | with_reducible apply Keeps.when
    | with_reducible apply Keeps.foldl
    | split
    | intro _ _ _
    | intro _ _
    | intro _
    | with_reducible refine Keeps.of_pair (by with_reducible assumption) ?_
    | with_reducible refine Keeps.of_triple (by with_reducible assumption) ?_
    | dsimp only)

end Sys2Proof.Machine
end

