-- ==== Sys2Proof/Laws/KeepHostRegs.lean ====
section
/-! SUPPORT. What the operations of Machine/HostRegs.lean keep. -/

set_option linter.all false
set_option Elab.async false

namespace Sys2Proof.Machine

theorem State.after_keeps {w₀ : Nat} {s₀ s : State} (m : State → Res) (hf_m : ∀ t, Keeps w₀ s₀ t → ResKeeps w₀ s₀ (m t))
    (h₀ : Keeps w₀ s₀ s) : Keeps w₀ s₀ (State.after s m) := by
  unfold State.after
  split
  next t e => exact (hf_m s h₀).next_keeps t e
  · exact h₀

theorem State.accReport_keeps {w₀ : Nat} {s₀ s : State} (hw : Sub 0x80028000200000000000 w₀) (p : Nat) (bar2 : Nat) (a : Nat) (type : Nat) (h₀ : Keeps w₀ s₀ s) :
    Keeps w₀ s₀ (State.accReport s p bar2 a type) := by
  unfold State.accReport
  repeat' (first
    | with_reducible assumption
    | with_reducible apply State.wrs_keeps
    | with_reducible apply State.bump_keeps
    | with_reducible apply State.intr_keeps
    | with_reducible exact Reg.hifAccAddrAddr_may hw rfl
    | with_reducible exact Reg.hifAccAddrBar2_may hw rfl
    | with_reducible exact Reg.hifAccErrCount_may hw rfl
    | with_reducible exact Reg.hifAccErrPath_may hw rfl
    | with_reducible exact Reg.hifAccErrType_may hw rfl
    | with_reducible exact Reg.hifAccErrValid_may hw rfl
    | with_reducible exact AllMay.nil _
    | with_reducible apply AllMay.cons
    | with_reducible apply AllMay.append
    | with_reducible apply AllMay.map
    | exact hw.le rfl
    | with_reducible apply ResKeeps.next
    | with_reducible apply Keeps.each
    | with_reducible apply Keeps.when
    | with_reducible apply Keeps.foldl
    | split
    | intro _ _ _
    | intro _ _
    | intro _
    | with_reducible refine Keeps.of_pair (by with_reducible assumption) ?_
    | with_reducible refine Keeps.of_triple (by with_reducible assumption) ?_
    | dsimp only)

theorem execAccErrClear_keeps {w₀ : Nat} {s₀ s : State} (hw : Sub 0x200000000000 w₀) (h₀ : Keeps w₀ s₀ s) :
    ResKeeps w₀ s₀ (execAccErrClear s) := by
  unfold execAccErrClear
  repeat' (first
    | with_reducible assumption
    | with_reducible apply State.wrs_keeps
    | with_reducible exact Reg.hifAccAddrAddr_may hw rfl
    | with_reducible exact Reg.hifAccAddrBar2_may hw rfl
    | with_reducible exact Reg.hifAccErrCount_may hw rfl
    | with_reducible exact Reg.hifAccErrPath_may hw rfl
    | with_reducible exact Reg.hifAccErrType_may hw rfl
    | with_reducible exact Reg.hifAccErrValid_may hw rfl
    | with_reducible exact AllMay.nil _
    | with_reducible apply AllMay.cons
    | with_reducible apply AllMay.append
    | with_reducible apply AllMay.map
    | exact hw.le rfl
    | with_reducible apply ResKeeps.next
    | with_reducible apply Keeps.each
    | with_reducible apply Keeps.when
    | with_reducible apply Keeps.foldl
    | split
    | intro _ _ _
    | intro _ _
    | intro _
    | with_reducible refine Keeps.of_pair (by with_reducible assumption) ?_
    | with_reducible refine Keeps.of_triple (by with_reducible assumption) ?_
    | dsimp only)

theorem execIntMaskWrite_keeps {w₀ : Nat} {s₀ s : State} (hw : Sub 0x80020000200000000000 w₀) (value : Word) (h₀ : Keeps w₀ s₀ s) :
    ResKeeps w₀ s₀ (execIntMaskWrite value s) := by
  unfold execIntMaskWrite
  repeat' (first
    | with_reducible assumption
    | with_reducible apply Keeps.wr
    | with_reducible apply State.msix_keeps
    | with_reducible exact Reg.hifIntMaskMask_may hw rfl
    | exact hw.le rfl
    | with_reducible apply ResKeeps.next
    | with_reducible apply Keeps.each
    | with_reducible apply Keeps.when
    | with_reducible apply Keeps.foldl
    | split
    | intro _ _ _
    | intro _ _
    | intro _
    | with_reducible refine Keeps.of_pair (by with_reducible assumption) ?_
    | with_reducible refine Keeps.of_triple (by with_reducible assumption) ?_
    | dsimp only)

theorem State.ringCtl_keeps {w₀ : Nat} {s₀ s : State} (hw : Sub 0x80028000200000000000 w₀) (p : Nat) (r : Nat) (v : Nat) (h₀ : Keeps w₀ s₀ s) :
    Keeps w₀ s₀ (State.ringCtl s p r v) := by
  unfold State.ringCtl
  repeat' (first
    | with_reducible assumption
    | with_reducible apply Keeps.wr
    | with_reducible apply State.wrs_keeps
    | with_reducible apply State.accReport_keeps
    | with_reducible exact Reg.hifRingCtlEn_may hw rfl
    | with_reducible exact Reg.hifRingCtlSize_may hw rfl
    | with_reducible exact Reg.hifRingDevIdxDevIdx_may hw rfl
    | with_reducible exact Reg.hifRingHostIdxHostIdx_may hw rfl
    | with_reducible exact AllMay.nil _
    | with_reducible apply AllMay.cons
    | with_reducible apply AllMay.append
    | with_reducible apply AllMay.map
    | exact hw.le rfl
    | with_reducible apply ResKeeps.next
    | with_reducible apply Keeps.each
    | with_reducible apply Keeps.when
    | with_reducible apply Keeps.foldl
    | split
    | intro _ _ _
    | intro _ _
    | intro _
    | with_reducible refine Keeps.of_pair (by with_reducible assumption) ?_
    | with_reducible refine Keeps.of_triple (by with_reducible assumption) ?_
    | dsimp only)

theorem execRingCtlWrite_keeps {w₀ : Nat} {s₀ s : State} (hw : Sub 0x80028000200000000000 w₀) (ring : Fin 6) (path : Fin 2) (value : Word) (h₀ : Keeps w₀ s₀ s) :
    ResKeeps w₀ s₀ (execRingCtlWrite ring path value s) := by
  unfold execRingCtlWrite
  repeat' (first
    | with_reducible assumption
    | with_reducible apply State.ringCtl_keeps
    | exact hw.le rfl
    | with_reducible apply ResKeeps.next
    | with_reducible apply Keeps.each
    | with_reducible apply Keeps.when
    | with_reducible apply Keeps.foldl
    | split
    | intro _ _ _
    | intro _ _
    | intro _
    | with_reducible refine Keeps.of_pair (by with_reducible assumption) ?_
    | with_reducible refine Keeps.of_triple (by with_reducible assumption) ?_
    | dsimp only)

theorem State.gatedRead_keeps {w₀ : Nat} {s₀ s : State} (hw : Sub 0x80028000200000000000 w₀) (p : Nat) (a : Nat) (d : Nat) (f : State → Nat × State) (hf_f : ∀ t, Keeps w₀ s₀ t → Keeps w₀ s₀ (f t).2) (h₀ : Keeps w₀ s₀ s) :
    Keeps w₀ s₀ (State.gatedRead s p a d f).2 := by
  unfold State.gatedRead
  repeat' (first
    | with_reducible assumption
    | with_reducible apply hf_f
    | with_reducible apply State.accReport_keeps
    | exact hw.le rfl
    | with_reducible apply ResKeeps.next
    | with_reducible apply Keeps.each
    | with_reducible apply Keeps.when
    | with_reducible apply Keeps.foldl
    | split
    | intro _ _ _
    | intro _ _
    | intro _
    | with_reducible refine Keeps.of_pair (by with_reducible assumption) ?_
    | with_reducible refine Keeps.of_triple (by with_reducible assumption) ?_
    | dsimp only)

theorem State.answer_keeps {w₀ : Nat} {s₀ s : State} (hw : Sub 0x20000000000000000 w₀) (p : Nat) (r : Nat × State) (hf_r : Keeps w₀ s₀ r.2) (h₀ : Keeps w₀ s₀ s) :
    Keeps w₀ s₀ (State.answer s p r) := by
  unfold State.answer
  repeat' (first
    | with_reducible assumption
    | with_reducible exact hf_r
    | with_reducible apply State.send_keeps
    | exact hw.le rfl
    | with_reducible apply ResKeeps.next
    | with_reducible apply Keeps.each
    | with_reducible apply Keeps.when
    | with_reducible apply Keeps.foldl
    | split
    | intro _ _ _
    | intro _ _
    | intro _
    | with_reducible refine Keeps.of_pair (by with_reducible assumption) ?_
    | with_reducible refine Keeps.of_triple (by with_reducible assumption) ?_
    | dsimp only)

theorem State.windowRead_keeps {w₀ : Nat} {s₀ s : State} (hw : Sub 0x80028000200000000090 w₀) (p : Nat) (a : Nat) (h₀ : Keeps w₀ s₀ s) :
    Keeps w₀ s₀ (State.windowRead s p a).2 := by
  unfold State.windowRead
  repeat' (first
    | with_reducible assumption
    | with_reducible apply State.readReg_keeps
    | with_reducible apply State.gatedRead_keeps
    | exact hw.le rfl
    | with_reducible apply ResKeeps.next
    | with_reducible apply Keeps.each
    | with_reducible apply Keeps.when
    | with_reducible apply Keeps.foldl
    | split
    | intro _ _ _
    | intro _ _
    | intro _
    | with_reducible refine Keeps.of_pair (by with_reducible assumption) ?_
    | with_reducible refine Keeps.of_triple (by with_reducible assumption) ?_
    | dsimp only)

theorem State.windowWrite_keeps {w₀ : Nat} {s₀ s : State} (hw : Sub 0x80028000200000000000 w₀) (p : Nat) (a : Nat) (f : State → State) (hf_f : ∀ t , Keeps w₀ s₀ t → Keeps w₀ s₀ (f t )) (h₀ : Keeps w₀ s₀ s) :
    Keeps w₀ s₀ (State.windowWrite s p a f) := by
  unfold State.windowWrite
  repeat' (first
    | with_reducible assumption
    | with_reducible apply hf_f
    | with_reducible apply State.accReport_keeps
    | exact hw.le rfl
    | with_reducible apply ResKeeps.next
    | with_reducible apply Keeps.each
    | with_reducible apply Keeps.when
    | with_reducible apply Keeps.foldl
    | split
    | intro _ _ _
    | intro _ _
    | intro _
    | with_reducible refine Keeps.of_pair (by with_reducible assumption) ?_
    | with_reducible refine Keeps.of_triple (by with_reducible assumption) ?_
    | dsimp only)

theorem execLnqFifoRead_keeps {w₀ : Nat} {s₀ s : State} (hw : Sub 0x80028000200000000090 w₀) (path : Fin 3) (h₀ : Keeps w₀ s₀ s) :
    ResKeeps w₀ s₀ (execLnqFifoRead path s) := by
  unfold execLnqFifoRead
  repeat' (first
    | with_reducible assumption
    | with_reducible apply State.answer_keeps
    | with_reducible apply State.windowRead_keeps
    | exact hw.le rfl
    | with_reducible apply ResKeeps.next
    | with_reducible apply Keeps.each
    | with_reducible apply Keeps.when
    | with_reducible apply Keeps.foldl
    | split
    | intro _ _ _
    | intro _ _
    | intro _
    | with_reducible refine Keeps.of_pair (by with_reducible assumption) ?_
    | with_reducible refine Keeps.of_triple (by with_reducible assumption) ?_
    | dsimp only)

theorem execLnqPop_keeps {w₀ : Nat} {s₀ s : State} (hw : Sub 0x2080028000200001000000 w₀) (path : Fin 3) (h₀ : Keeps w₀ s₀ s) :
    ResKeeps w₀ s₀ (execLnqPop path s) := by
  unfold execLnqPop
  repeat' (first
    | with_reducible assumption
    | with_reducible apply State.setLnq_keeps
    | with_reducible apply State.windowWrite_keeps
    | with_reducible exact Reg.hifLnqDataData_may hw rfl
    | exact hw.le rfl
    | with_reducible apply ResKeeps.next
    | with_reducible apply Keeps.each
    | with_reducible apply Keeps.when
    | with_reducible apply Keeps.foldl
    | split
    | intro _ _ _
    | intro _ _
    | intro _
    | with_reducible refine Keeps.of_pair (by with_reducible assumption) ?_
    | with_reducible refine Keeps.of_triple (by with_reducible assumption) ?_
    | dsimp only)

theorem execTcrFifoRead_keeps {w₀ : Nat} {s₀ s : State} (hw : Sub 0x80028000200000000090 w₀) (path : Fin 3) (h₀ : Keeps w₀ s₀ s) :
    ResKeeps w₀ s₀ (execTcrFifoRead path s) := by
  unfold execTcrFifoRead
  repeat' (first
    | with_reducible assumption
    | with_reducible apply State.answer_keeps
    | with_reducible apply State.windowRead_keeps
    | exact hw.le rfl
    | with_reducible apply ResKeeps.next
    | with_reducible apply Keeps.each
    | with_reducible apply Keeps.when
    | with_reducible apply Keeps.foldl
    | split
    | intro _ _ _
    | intro _ _
    | intro _
    | with_reducible refine Keeps.of_pair (by with_reducible assumption) ?_
    | with_reducible refine Keeps.of_triple (by with_reducible assumption) ?_
    | dsimp only)

theorem execTcrPop_keeps {w₀ : Nat} {s₀ s : State} (hw : Sub 0x80028000200000000000 w₀) (path : Fin 3) (h₀ : Keeps w₀ s₀ s) :
    ResKeeps w₀ s₀ (execTcrPop path s) := by
  unfold execTcrPop
  repeat' (first
    | with_reducible assumption
    | with_reducible apply State.fifoStatus_keeps
    | with_reducible apply State.windowWrite_keeps
    | with_reducible exact Reg.hifTcrDataData_may hw rfl
    | (simp only [Keeps.mk_eq]; with_reducible apply KeepsMk.upd)
    | exact hw.le rfl
    | exact Or.inl (hw.bit rfl)
    | with_reducible exact Or.inr rfl
    | with_reducible apply ResKeeps.next
    | with_reducible apply Keeps.each
    | with_reducible apply Keeps.when
    | with_reducible apply Keeps.foldl
    | split
    | intro _ _ _
    | intro _ _
    | intro _
    | with_reducible refine Keeps.of_pair (by with_reducible assumption) ?_
    | with_reducible refine Keeps.of_triple (by with_reducible assumption) ?_
    | dsimp only)

theorem State.readLatch_keeps {w₀ : Nat} {s₀ s : State} (hw : Sub 0x80000000000000000000 w₀) (p : Nat) (w : List (Fld × Nat) × List (Fld × Nat)) (h₀ : Keeps w₀ s₀ s) :
    Keeps w₀ s₀ (State.readLatch s p w).2 := by
  unfold State.readLatch
  repeat' (first
    | with_reducible assumption
    | with_reducible apply State.latch_keeps
    | exact hw.le rfl
    | with_reducible apply ResKeeps.next
    | with_reducible apply Keeps.each
    | with_reducible apply Keeps.when
    | with_reducible apply Keeps.foldl
    | split
    | intro _ _ _
    | intro _ _
    | intro _
    | with_reducible refine Keeps.of_pair (by with_reducible assumption) ?_
    | with_reducible refine Keeps.of_triple (by with_reducible assumption) ?_
    | dsimp only)

theorem execQueueEntryRead_keeps {w₀ : Nat} {s₀ s : State} (hw : Sub 0x80028000200000000000 w₀) (capture : Bool) (n : Fin 128) (path : Fin 3) (h₀ : Keeps w₀ s₀ s) :
    ResKeeps w₀ s₀ (execQueueEntryRead capture n path s) := by
  unfold execQueueEntryRead
  repeat' (first
    | with_reducible assumption
    | with_reducible apply State.gatedRead_keeps
    | with_reducible apply State.answer_keeps
    | with_reducible apply State.readLatch_keeps
    | exact hw.le rfl
    | with_reducible apply ResKeeps.next
    | with_reducible apply Keeps.each
    | with_reducible apply Keeps.when
    | with_reducible apply Keeps.foldl
    | split
    | intro _ _ _
    | intro _ _
    | intro _
    | with_reducible refine Keeps.of_pair (by with_reducible assumption) ?_
    | with_reducible refine Keeps.of_triple (by with_reducible assumption) ?_
    | dsimp only)

theorem execTbNowRead_keeps {w₀ : Nat} {s₀ s : State} (hw : Sub 0x80028000200000000010 w₀) (n : Fin 8) (path : Fin 3) (h₀ : Keeps w₀ s₀ s) :
    ResKeeps w₀ s₀ (execTbNowRead n path s) := by
  unfold execTbNowRead
  repeat' (first
    | with_reducible assumption
    | with_reducible apply State.tbNowLatch_keeps
    | with_reducible apply State.gatedRead_keeps
    | with_reducible apply State.answer_keeps
    | with_reducible exact Reg.tkTbNowSecLoNowSecLo_may hw rfl
    | exact hw.le rfl
    | with_reducible apply ResKeeps.next
    | with_reducible apply Keeps.each
    | with_reducible apply Keeps.when
    | with_reducible apply Keeps.foldl
    | split
    | intro _ _ _
    | intro _ _
    | intro _
    | with_reducible refine Keeps.of_pair (by with_reducible assumption) ?_
    | with_reducible refine Keeps.of_triple (by with_reducible assumption) ?_
    | dsimp only)

theorem execTbOffRead_keeps {w₀ : Nat} {s₀ s : State} (hw : Sub 0x80028000200000000010 w₀) (n : Fin 8) (path : Fin 3) (h₀ : Keeps w₀ s₀ s) :
    ResKeeps w₀ s₀ (execTbOffRead n path s) := by
  unfold execTbOffRead
  repeat' (first
    | with_reducible assumption
    | with_reducible apply State.tbOffLatch_keeps
    | with_reducible apply State.gatedRead_keeps
    | with_reducible apply State.answer_keeps
    | with_reducible exact Reg.tkTbOffLoOffLo_may hw rfl
    | exact hw.le rfl
    | with_reducible apply ResKeeps.next
    | with_reducible apply Keeps.each
    | with_reducible apply Keeps.when
    | with_reducible apply Keeps.foldl
    | split
    | intro _ _ _
    | intro _ _
    | intro _
    | with_reducible refine Keeps.of_pair (by with_reducible assumption) ?_
    | with_reducible refine Keeps.of_triple (by with_reducible assumption) ?_
    | dsimp only)

theorem execTcqPush_keeps {w₀ : Nat} {s₀ s : State} (hw : Sub 0x2080028000200000000000 w₀) (path : Fin 3) (h₀ : Keeps w₀ s₀ s) :
    ResKeeps w₀ s₀ (execTcqPush path s) := by
  unfold execTcqPush
  repeat' (first
    | with_reducible assumption
    | with_reducible apply State.fifoStatus_keeps
    | with_reducible apply State.accReport_keeps
    | with_reducible apply State.windowWrite_keeps
    | (simp only [Keeps.mk_eq]; with_reducible apply KeepsMk.upd)
    | exact hw.le rfl
    | exact Or.inl (hw.bit rfl)
    | with_reducible exact Or.inr rfl
    | with_reducible apply ResKeeps.next
    | with_reducible apply Keeps.each
    | with_reducible apply Keeps.when
    | with_reducible apply Keeps.foldl
    | split
    | intro _ _ _
    | intro _ _
    | intro _
    | with_reducible refine Keeps.of_pair (by with_reducible assumption) ?_
    | with_reducible refine Keeps.of_triple (by with_reducible assumption) ?_
    | dsimp only)

theorem State.wrFld_keeps {w₀ : Nat} {s₀ s : State} (hw : Sub 0xffffffffffffffff w₀) (v : Nat) (f : Fld) (h₀ : Keeps w₀ s₀ s) :
    Keeps w₀ s₀ (State.wrFld s v f) := by
  unfold State.wrFld
  repeat' (first
    | with_reducible assumption
    | with_reducible apply Keeps.wr
    | exact hw.le rfl
    | with_reducible exact may_any (hw.le rfl) _
    | with_reducible apply ResKeeps.next
    | with_reducible apply Keeps.each
    | with_reducible apply Keeps.when
    | with_reducible apply Keeps.foldl
    | split
    | intro _ _ _
    | intro _ _
    | intro _
    | with_reducible refine Keeps.of_pair (by with_reducible assumption) ?_
    | with_reducible refine Keeps.of_triple (by with_reducible assumption) ?_
    | dsimp only)

theorem State.writeMan_keeps {w₀ : Nat} {s₀ s : State} (hw : Sub 0x3f7e006800005010101013e w₀) (n : Nat) (v : Nat) (h₀ : Keeps w₀ s₀ s) :
    Keeps w₀ s₀ (State.writeMan s n v) := by
  unfold State.writeMan
  repeat' (first
    | with_reducible assumption
    | with_reducible apply execLaneManNop_keeps
    | with_reducible apply execLaneManualTrain_keeps
    | with_reducible apply execLaneSlip_keeps
    | with_reducible apply execLaneAccept_keeps
    | with_reducible apply execLaneManReserved_keeps
    | with_reducible apply execLaneHold_keeps
    | with_reducible apply execLaneRelease_keeps
    | with_reducible apply State.after_keeps
    | exact hw.le rfl
    | with_reducible apply ResKeeps.next
    | with_reducible apply Keeps.each
    | with_reducible apply Keeps.when
    | with_reducible apply Keeps.foldl
    | split
    | intro _ _ _
    | intro _ _
    | intro _
    | with_reducible refine Keeps.of_pair (by with_reducible assumption) ?_
    | with_reducible refine Keeps.of_triple (by with_reducible assumption) ?_
    | dsimp only)

theorem State.writeFeed_keeps {w₀ : Nat} {s₀ s : State} (hw : Sub 0x8c0028000040000000050 w₀) (n : Nat) (v : Nat) (h₀ : Keeps w₀ s₀ s) :
    Keeps w₀ s₀ (State.writeFeed s n v) := by
  unfold State.writeFeed
  repeat' (first
    | with_reducible assumption
    | with_reducible apply execTbFeedNop_keeps
    | with_reducible apply execTbFeedReserved_keeps
    | with_reducible apply execTbFeedOffset_keeps
    | with_reducible apply execTbFeedSet_keeps
    | with_reducible apply State.after_keeps
    | exact hw.le rfl
    | with_reducible apply ResKeeps.next
    | with_reducible apply Keeps.each
    | with_reducible apply Keeps.when
    | with_reducible apply Keeps.foldl
    | split
    | intro _ _ _
    | intro _ _
    | intro _
    | with_reducible refine Keeps.of_pair (by with_reducible assumption) ?_
    | with_reducible refine Keeps.of_triple (by with_reducible assumption) ?_
    | dsimp only)

theorem State.writePg_keeps {w₀ : Nat} {s₀ s : State} (hw : Sub 0x880028000000000000040 w₀) (v : Nat) (h₀ : Keeps w₀ s₀ s) :
    Keeps w₀ s₀ (State.writePg s v) := by
  unfold State.writePg
  repeat' (first
    | with_reducible assumption
    | with_reducible apply execPgCmdNop_keeps
    | with_reducible apply execPgCmdReserved_keeps
    | with_reducible apply execPgArm_keeps
    | with_reducible apply execPgDisarm_keeps
    | with_reducible apply State.after_keeps
    | exact hw.le rfl
    | with_reducible apply ResKeeps.next
    | with_reducible apply Keeps.each
    | with_reducible apply Keeps.when
    | with_reducible apply Keeps.foldl
    | split
    | intro _ _ _
    | intro _ _
    | intro _
    | with_reducible refine Keeps.of_pair (by with_reducible assumption) ?_
    | with_reducible refine Keeps.of_triple (by with_reducible assumption) ?_
    | dsimp only)

theorem State.writeCal_keeps {w₀ : Nat} {s₀ s : State} (hw : Sub 0x40090028000040000000088 w₀) (v : Nat) (h₀ : Keeps w₀ s₀ s) :
    Keeps w₀ s₀ (State.writeCal s v) := by
  unfold State.writeCal
  repeat' (first
    | with_reducible assumption
    | with_reducible apply execCalCmdNop_keeps
    | with_reducible apply execCalRun_keeps
    | with_reducible apply execCalRestore_keeps
    | with_reducible apply execCalCmdReserved_keeps
    | with_reducible apply State.after_keeps
    | exact hw.le rfl
    | with_reducible apply ResKeeps.next
    | with_reducible apply Keeps.each
    | with_reducible apply Keeps.when
    | with_reducible apply Keeps.foldl
    | split
    | intro _ _ _
    | intro _ _
    | intro _
    | with_reducible refine Keeps.of_pair (by with_reducible assumption) ?_
    | with_reducible refine Keeps.of_triple (by with_reducible assumption) ?_
    | dsimp only)

theorem State.writeRed_keeps {w₀ : Nat} {s₀ s : State} (hw : Sub 0x10000000000 w₀) (v : Nat) (h₀ : Keeps w₀ s₀ s) :
    Keeps w₀ s₀ (State.writeRed s v) := by
  unfold State.writeRed
  repeat' (first
    | with_reducible assumption
    | with_reducible apply execRedCmdNop_keeps
    | with_reducible apply execRedRelease_keeps
    | with_reducible apply execRedCmdReserved_keeps
    | with_reducible apply State.after_keeps
    | exact hw.le rfl
    | with_reducible apply ResKeeps.next
    | with_reducible apply Keeps.each
    | with_reducible apply Keeps.when
    | with_reducible apply Keeps.foldl
    | split
    | intro _ _ _
    | intro _ _
    | intro _
    | with_reducible refine Keeps.of_pair (by with_reducible assumption) ?_
    | with_reducible refine Keeps.of_triple (by with_reducible assumption) ?_
    | dsimp only)

theorem State.writeSec_keeps {w₀ : Nat} {s₀ s : State} (hw : Sub 0x184068000080000000000 w₀) (jtag : Bool) (v : Nat) (h₀ : Keeps w₀ s₀ s) :
    Keeps w₀ s₀ (State.writeSec s jtag v) := by
  unfold State.writeSec
  repeat' (first
    | with_reducible assumption
    | with_reducible apply State.draw_keeps
    | with_reducible apply execSecCmdNone_keeps
    | with_reducible apply execSecCmdReserved_keeps
    | with_reducible apply execSecGetNonce_keeps
    | with_reducible apply execSecSubmit_keeps
    | with_reducible apply execSecSet_keeps
    | with_reducible apply execSecDisarm_keeps
    | with_reducible apply execSecRelease_keeps
    | with_reducible apply State.after_keeps
    | exact hw.le rfl
    | with_reducible apply ResKeeps.next
    | with_reducible apply Keeps.each
    | with_reducible apply Keeps.when
    | with_reducible apply Keeps.foldl
    | split
    | intro _ _ _
    | intro _ _
    | intro _
    | with_reducible refine Keeps.of_pair (by with_reducible assumption) ?_
    | with_reducible refine Keeps.of_triple (by with_reducible assumption) ?_
    | dsimp only)

theorem State.writePwr_keeps {w₀ : Nat} {s₀ s : State} (hw : Sub 0x7fff946ffffffffffffffff w₀) (v : Nat) (h₀ : Keeps w₀ s₀ s) :
    Keeps w₀ s₀ (State.writePwr s v) := by
  unfold State.writePwr
  repeat' (first
    | with_reducible assumption
    | with_reducible apply State.hostPwr_keeps
    | exact hw.le rfl
    | with_reducible exact may_any (hw.le rfl) _
    | with_reducible apply ResKeeps.next
    | with_reducible apply Keeps.each
    | with_reducible apply Keeps.when
    | with_reducible apply Keeps.foldl
    | split
    | intro _ _ _
    | intro _ _
    | intro _
    | with_reducible refine Keeps.of_pair (by with_reducible assumption) ?_
    | with_reducible refine Keeps.of_triple (by with_reducible assumption) ?_
    | dsimp only)

theorem State.plain_keeps {w₀ : Nat} {s₀ s : State} (hw : Sub 0xffffffffffffffff w₀) (v : Nat) (l : List Fld) (h₀ : Keeps w₀ s₀ s) :
    Keeps w₀ s₀ (State.plain s v l) := by
  unfold State.plain
  repeat' (first
    | with_reducible assumption
    | with_reducible apply State.wrFld_keeps
    | exact hw.le rfl
    | with_reducible exact may_any (hw.le rfl) _
    | with_reducible apply ResKeeps.next
    | with_reducible apply Keeps.each
    | with_reducible apply Keeps.when
    | with_reducible apply Keeps.foldl
    | split
    | intro _ _ _
    | intro _ _
    | intro _
    | with_reducible refine Keeps.of_pair (by with_reducible assumption) ?_
    | with_reducible refine Keeps.of_triple (by with_reducible assumption) ?_
    | dsimp only)

theorem State.writeDev_keeps {w₀ : Nat} {s₀ s : State} (hw : Sub 0x7fffd72ffffffffffffffff w₀) (a : Nat) (v : Nat) (l : List Fld) (h₀ : Keeps w₀ s₀ s) :
    Keeps w₀ s₀ (State.writeDev s a v l) := by
  unfold State.writeDev
  repeat' (first
    | with_reducible assumption
    | with_reducible apply execJrnlIdxWrite_keeps
    | with_reducible apply execResetKeyWrite_keeps
    | with_reducible apply State.resetCmd_keeps
    | with_reducible apply execNvmCmdGo_keeps
    | with_reducible apply execFmeterStart_keeps
    | with_reducible apply State.after_keeps
    | with_reducible apply State.plain_keeps
    | exact hw.le rfl
    | with_reducible exact may_any (hw.le rfl) _
    | with_reducible apply ResKeeps.next
    | with_reducible apply Keeps.each
    | with_reducible apply Keeps.when
    | with_reducible apply Keeps.foldl
    | split
    | intro _ _ _
    | intro _ _
    | intro _
    | with_reducible refine Keeps.of_pair (by with_reducible assumption) ?_
    | with_reducible refine Keeps.of_triple (by with_reducible assumption) ?_
    | dsimp only)

theorem State.writeClk_keeps {w₀ : Nat} {s₀ s : State} (hw : Sub 0xffffffffffffffff w₀) (a : Nat) (v : Nat) (l : List Fld) (h₀ : Keeps w₀ s₀ s) :
    Keeps w₀ s₀ (State.writeClk s a v l) := by
  unfold State.writeClk
  repeat' (first
    | with_reducible assumption
    | with_reducible apply execCkoOeHostWrite_keeps
    | with_reducible apply State.after_keeps
    | with_reducible apply State.plain_keeps
    | exact hw.le rfl
    | with_reducible exact may_any (hw.le rfl) _
    | with_reducible apply ResKeeps.next
    | with_reducible apply Keeps.each
    | with_reducible apply Keeps.when
    | with_reducible apply Keeps.foldl
    | split
    | intro _ _ _
    | intro _ _
    | intro _
    | with_reducible refine Keeps.of_pair (by with_reducible assumption) ?_
    | with_reducible refine Keeps.of_triple (by with_reducible assumption) ?_
    | dsimp only)

theorem State.writeTime_keeps {w₀ : Nat} {s₀ s : State} (hw : Sub 0x408d002ffffffffffffffff w₀) (a : Nat) (v : Nat) (l : List Fld) (h₀ : Keeps w₀ s₀ s) :
    Keeps w₀ s₀ (State.writeTime s a v l) := by
  unfold State.writeTime
  repeat' (first
    | with_reducible assumption
    | with_reducible apply State.wrBit_keeps
    | with_reducible apply execTxqPop_keeps
    | with_reducible apply execCapPop_keeps
    | with_reducible apply State.after_keeps
    | with_reducible apply State.writeFeed_keeps
    | with_reducible apply State.writePg_keeps
    | with_reducible apply State.writeCal_keeps
    | with_reducible apply State.plain_keeps
    | with_reducible exact Reg.tsStatusCapOvf_may hw rfl
    | exact hw.le rfl
    | with_reducible exact may_any (hw.le rfl) _
    | with_reducible apply ResKeeps.next
    | with_reducible apply Keeps.each
    | with_reducible apply Keeps.when
    | with_reducible apply Keeps.foldl
    | split
    | intro _ _ _
    | intro _ _
    | intro _
    | with_reducible refine Keeps.of_pair (by with_reducible assumption) ?_
    | with_reducible refine Keeps.of_triple (by with_reducible assumption) ?_
    | dsimp only)

theorem State.writeLane_keeps {w₀ : Nat} {s₀ s : State} (hw : Sub 0x3f7e006ffffffffffffffff w₀) (a : Nat) (v : Nat) (l : List Fld) (h₀ : Keeps w₀ s₀ s) :
    Keeps w₀ s₀ (State.writeLane s a v l) := by
  unfold State.writeLane
  repeat' (first
    | with_reducible assumption
    | with_reducible apply State.prbsIdle_keeps
    | with_reducible apply execPrbsClear_keeps
    | with_reducible apply State.after_keeps
    | with_reducible apply State.writeMan_keeps
    | with_reducible apply State.plain_keeps
    | exact hw.le rfl
    | with_reducible exact may_any (hw.le rfl) _
    | with_reducible apply ResKeeps.next
    | with_reducible apply Keeps.each
    | with_reducible apply Keeps.when
    | with_reducible apply Keeps.foldl
    | split
    | intro _ _ _
    | intro _ _
    | intro _
    | with_reducible refine Keeps.of_pair (by with_reducible assumption) ?_
    | with_reducible refine Keeps.of_triple (by with_reducible assumption) ?_
    | dsimp only)

theorem State.writeTable_keeps {w₀ : Nat} {s₀ s : State} (hw : Sub 0x3f7e006ffffffffffffffff w₀) (a : Nat) (v : Nat) (l : List Fld) (h₀ : Keeps w₀ s₀ s) :
    Keeps w₀ s₀ (State.writeTable s a v l) := by
  unfold State.writeTable
  repeat' (first
    | with_reducible assumption
    | with_reducible apply execLnqCtlWrite_keeps
    | with_reducible apply execFltClear_keeps
    | with_reducible apply execFltSrcClr_keeps
    | with_reducible apply execFltInject_keeps
    | with_reducible apply State.after_keeps
    | with_reducible apply State.writeRed_keeps
    | with_reducible apply State.plain_keeps
    | exact hw.le rfl
    | with_reducible exact may_any (hw.le rfl) _
    | with_reducible apply ResKeeps.next
    | with_reducible apply Keeps.each
    | with_reducible apply Keeps.when
    | with_reducible apply Keeps.foldl
    | split
    | intro _ _ _
    | intro _ _
    | intro _
    | with_reducible refine Keeps.of_pair (by with_reducible assumption) ?_
    | with_reducible refine Keeps.of_triple (by with_reducible assumption) ?_
    | dsimp only)

theorem State.writePmon_keeps {w₀ : Nat} {s₀ s : State} (hw : Sub 0x100000ffffffffffffffff w₀) (a : Nat) (v : Nat) (l : List Fld) (h₀ : Keeps w₀ s₀ s) :
    Keeps w₀ s₀ (State.writePmon s a v l) := by
  unfold State.writePmon
  repeat' (first
    | with_reducible assumption
    | with_reducible apply execPmonCntCfgWrite_keeps
    | with_reducible apply execGleanCtlWrite_keeps
    | with_reducible apply State.gleanRd_keeps
    | with_reducible apply execBwCfgWrite_keeps
    | with_reducible apply State.after_keeps
    | with_reducible apply State.plain_keeps
    | exact hw.le rfl
    | with_reducible exact may_any (hw.le rfl) _
    | with_reducible apply ResKeeps.next
    | with_reducible apply Keeps.each
    | with_reducible apply Keeps.when
    | with_reducible apply Keeps.foldl
    | split
    | intro _ _ _
    | intro _ _
    | intro _
    | with_reducible refine Keeps.of_pair (by with_reducible assumption) ?_
    | with_reducible refine Keeps.of_triple (by with_reducible assumption) ?_
    | dsimp only)

theorem State.writeSecReg_keeps {w₀ : Nat} {s₀ s : State} (hw : Sub 0x18406ffffffffffffffff w₀) (p : Nat) (a : Nat) (v : Nat) (l : List Fld) (h₀ : Keeps w₀ s₀ s) :
    Keeps w₀ s₀ (State.writeSecReg s p a v l) := by
  unfold State.writeSecReg
  repeat' (first
    | with_reducible assumption
    | with_reducible apply State.mboxWrite_keeps
    | with_reducible apply State.writeSec_keeps
    | with_reducible apply State.plain_keeps
    | exact hw.le rfl
    | with_reducible exact may_any (hw.le rfl) _
    | with_reducible apply ResKeeps.next
    | with_reducible apply Keeps.each
    | with_reducible apply Keeps.when
    | with_reducible apply Keeps.foldl
    | split
    | intro _ _ _
    | intro _ _
    | intro _
    | with_reducible refine Keeps.of_pair (by with_reducible assumption) ?_
    | with_reducible refine Keeps.of_triple (by with_reducible assumption) ?_
    | dsimp only)

theorem State.writePwrReg_keeps {w₀ : Nat} {s₀ s : State} (hw : Sub 0x7fff946ffffffffffffffff w₀) (a : Nat) (v : Nat) (l : List Fld) (h₀ : Keeps w₀ s₀ s) :
    Keeps w₀ s₀ (State.writePwrReg s a v l) := by
  unfold State.writePwrReg
  repeat' (first
    | with_reducible assumption
    | with_reducible apply State.writePwr_keeps
    | with_reducible apply State.plain_keeps
    | exact hw.le rfl
    | with_reducible exact may_any (hw.le rfl) _
    | with_reducible apply ResKeeps.next
    | with_reducible apply Keeps.each
    | with_reducible apply Keeps.when
    | with_reducible apply Keeps.foldl
    | split
    | intro _ _ _
    | intro _ _
    | intro _
    | with_reducible refine Keeps.of_pair (by with_reducible assumption) ?_
    | with_reducible refine Keeps.of_triple (by with_reducible assumption) ?_
    | dsimp only)

theorem State.writeHif_keeps {w₀ : Nat} {s₀ s : State} (hw : Sub 0x208002ffffffffffffffff w₀) (p : Nat) (a : Nat) (v : Nat) (l : List Fld) (h₀ : Keeps w₀ s₀ s) :
    Keeps w₀ s₀ (State.writeHif s p a v l) := by
  unfold State.writeHif
  repeat' (first
    | with_reducible assumption
    | with_reducible apply State.after_keeps
    | with_reducible apply State.accReport_keeps
    | with_reducible apply execAccErrClear_keeps
    | with_reducible apply execIntMaskWrite_keeps
    | with_reducible apply State.ringCtl_keeps
    | with_reducible apply execLnqPop_keeps
    | with_reducible apply execTcrPop_keeps
    | with_reducible apply execTcqPush_keeps
    | with_reducible apply State.plain_keeps
    | exact hw.le rfl
    | with_reducible exact may_any (hw.le rfl) _
    | with_reducible apply ResKeeps.next
    | with_reducible apply Keeps.each
    | with_reducible apply Keeps.when
    | with_reducible apply Keeps.foldl
    | split
    | intro _ _ _
    | intro _ _
    | intro _
    | with_reducible refine Keeps.of_pair (by with_reducible assumption) ?_
    | with_reducible refine Keeps.of_triple (by with_reducible assumption) ?_
    | dsimp only)

theorem State.writeReg_keeps {w₀ : Nat} {s₀ s : State} (hw : Sub 0x7fffd76ffffffffffffffff w₀) (p : Nat) (a : Nat) (v : Nat) (l : List Fld) (h₀ : Keeps w₀ s₀ s) :
    Keeps w₀ s₀ (State.writeReg s p a v l) := by
  unfold State.writeReg
  repeat' (first
    | with_reducible assumption
    | with_reducible apply State.writeDev_keeps
    | with_reducible apply State.writeClk_keeps
    | with_reducible apply State.writeTime_keeps
    | with_reducible apply State.writeLane_keeps
    | with_reducible apply State.writeTable_keeps
    | with_reducible apply State.writePmon_keeps
    | with_reducible apply State.writeSecReg_keeps
    | with_reducible apply State.writePwrReg_keeps
    | with_reducible apply State.writeHif_keeps
    | exact hw.le rfl
    | with_reducible exact may_any (hw.le rfl) _
    | with_reducible apply ResKeeps.next
    | with_reducible apply Keeps.each
    | with_reducible apply Keeps.when
    | with_reducible apply Keeps.foldl
    | split
    | intro _ _ _
    | intro _ _
    | intro _
    | with_reducible refine Keeps.of_pair (by with_reducible assumption) ?_
    | with_reducible refine Keeps.of_triple (by with_reducible assumption) ?_
    | dsimp only)

theorem State.hostRead_keeps {w₀ : Nat} {s₀ s : State} (hw : Sub 0x80028000200000000090 w₀) (p : Nat) (a : Nat) (h₀ : Keeps w₀ s₀ s) :
    Keeps w₀ s₀ (State.hostRead s p a).2 := by
  unfold State.hostRead
  repeat' (first
    | with_reducible assumption
    | with_reducible apply State.readReg_keeps
    | with_reducible apply State.accReport_keeps
    | exact hw.le rfl
    | with_reducible apply ResKeeps.next
    | with_reducible apply Keeps.each
    | with_reducible apply Keeps.when
    | with_reducible apply Keeps.foldl
    | split
    | intro _ _ _
    | intro _ _
    | intro _
    | with_reducible refine Keeps.of_pair (by with_reducible assumption) ?_
    | with_reducible refine Keeps.of_triple (by with_reducible assumption) ?_
    | dsimp only)

theorem State.hostWrite_keeps {w₀ : Nat} {s₀ s : State} (hw : Sub 0x7fffd76ffffffffffffffff w₀) (p : Nat) (a : Nat) (v : Nat) (full : Bool) (h₀ : Keeps w₀ s₀ s) :
    Keeps w₀ s₀ (State.hostWrite s p a v full) := by
  unfold State.hostWrite
  repeat' (first
    | with_reducible assumption
    | with_reducible apply State.accReport_keeps
    | with_reducible apply State.writeReg_keeps
    | exact hw.le rfl
    | with_reducible exact may_any (hw.le rfl) _
    | with_reducible apply ResKeeps.next
    | with_reducible apply Keeps.each
    | with_reducible apply Keeps.when
    | with_reducible apply Keeps.foldl
    | split
    | intro _ _ _
    | intro _ _
    | intro _
    | with_reducible refine Keeps.of_pair (by with_reducible assumption) ?_
    | with_reducible refine Keeps.of_triple (by with_reducible assumption) ?_
    | dsimp only)

theorem State.smi_keeps {w₀ : Nat} {s₀ s : State} (hw : Sub 0x200000000000 w₀) (f : State → State) (hf_f : ∀ t , Keeps w₀ s₀ t → Keeps w₀ s₀ (f t )) (h₀ : Keeps w₀ s₀ s) :
    Keeps w₀ s₀ (State.smi s f) := by
  unfold State.smi
  repeat' (first
    | with_reducible assumption
    | with_reducible apply hf_f
    | with_reducible apply Keeps.wr
    | with_reducible exact Reg.hifStatusSmiSeen_may hw rfl
    | exact hw.le rfl
    | with_reducible apply ResKeeps.next
    | with_reducible apply Keeps.each
    | with_reducible apply Keeps.when
    | with_reducible apply Keeps.foldl
    | split
    | intro _ _ _
    | intro _ _
    | intro _
    | with_reducible refine Keeps.of_pair (by with_reducible assumption) ?_
    | with_reducible refine Keeps.of_triple (by with_reducible assumption) ?_
    | dsimp only)

theorem State.hostReads_keeps {w₀ : Nat} {s₀ s : State} (hw : Sub 0x80028000200000000090 w₀) (p a n : Nat) (h₀ : Keeps w₀ s₀ s) :
    Keeps w₀ s₀ (State.hostReads s p a n).2 := by
  induction n with
  | zero => exact h₀
  | succ n ih => exact State.hostRead_keeps (hw.le rfl) p _ ih

theorem execSmiRead_keeps {w₀ : Nat} {s₀ s : State} (hw : Sub 0x80028000200000000090 w₀) (addr : Nat) (words : Nat) (h₀ : Keeps w₀ s₀ s) :
    ResKeeps w₀ s₀ (execSmiRead addr words s) := by
  unfold execSmiRead
  repeat' (first
    | with_reducible assumption
    | with_reducible apply State.send_keeps
    | with_reducible apply State.smi_keeps
    | with_reducible apply State.hostReads_keeps
    | exact hw.le rfl
    | with_reducible apply ResKeeps.next
    | with_reducible apply Keeps.each
    | with_reducible apply Keeps.when
    | with_reducible apply Keeps.foldl
    | split
    | intro _ _ _
    | intro _ _
    | intro _
    | with_reducible refine Keeps.of_pair (by with_reducible assumption) ?_
    | with_reducible refine Keeps.of_triple (by with_reducible assumption) ?_
    | dsimp only)

theorem State.smiWrites_keeps {w₀ : Nat} {s₀ s : State} (hw : Sub 0x7fffd76ffffffffffffffff w₀) (a : Nat) (l : List Word)
    (h₀ : Keeps w₀ s₀ s) : Keeps w₀ s₀ (State.smiWrites s a l) := by
  induction l generalizing s a with
  | nil => exact h₀
  | cons w l ih => exact ih _ (State.hostWrite_keeps (hw.le rfl) 1 a w.toNat true h₀)

theorem execSmiWrite_keeps {w₀ : Nat} {s₀ s : State} (hw : Sub 0x7fffd76ffffffffffffffff w₀) (addr : Nat) (data : List Word) (h₀ : Keeps w₀ s₀ s) :
    ResKeeps w₀ s₀ (execSmiWrite addr data s) := by
  unfold execSmiWrite
  repeat' (first
    | with_reducible assumption
    | with_reducible apply State.send_keeps
    | with_reducible apply State.smi_keeps
    | with_reducible apply State.smiWrites_keeps
    | exact hw.le rfl
    | with_reducible exact may_any (hw.le rfl) _
    | with_reducible apply ResKeeps.next
    | with_reducible apply Keeps.each
    | with_reducible apply Keeps.when
    | with_reducible apply Keeps.foldl
    | split
    | intro _ _ _
    | intro _ _
    | intro _
    | with_reducible refine Keeps.of_pair (by with_reducible assumption) ?_
    | with_reducible refine Keeps.of_triple (by with_reducible assumption) ?_
    | dsimp only)

theorem execSmiBadCommand_keeps {w₀ : Nat} {s₀ s : State} (hw : Sub 0x20000200000000000 w₀) (x0 : Fin 256) (h₀ : Keeps w₀ s₀ s) :
    ResKeeps w₀ s₀ (execSmiBadCommand x0 s) := by
  unfold execSmiBadCommand
  repeat' (first
    | with_reducible assumption
    | with_reducible apply State.send_keeps
    | with_reducible apply State.smi_keeps
    | exact hw.le rfl
    | with_reducible apply ResKeeps.next
    | with_reducible apply Keeps.each
    | with_reducible apply Keeps.when
    | with_reducible apply Keeps.foldl
    | split
    | intro _ _ _
    | intro _ _
    | intro _
    | with_reducible refine Keeps.of_pair (by with_reducible assumption) ?_
    | with_reducible refine Keeps.of_triple (by with_reducible assumption) ?_
    | dsimp only)

theorem execSmiPartial_keeps {w₀ : Nat} {s₀ s : State} (hw : Sub 0x80028000200000000000 w₀) (addr : Nat) (h₀ : Keeps w₀ s₀ s) :
    ResKeeps w₀ s₀ (execSmiPartial addr s) := by
  unfold execSmiPartial
  repeat' (first
    | with_reducible assumption
    | with_reducible apply State.accReport_keeps
    | with_reducible apply State.smi_keeps
    | exact hw.le rfl
    | with_reducible apply ResKeeps.next
    | with_reducible apply Keeps.each
    | with_reducible apply Keeps.when
    | with_reducible apply Keeps.foldl
    | split
    | intro _ _ _
    | intro _ _
    | intro _
    | with_reducible refine Keeps.of_pair (by with_reducible assumption) ?_
    | with_reducible refine Keeps.of_triple (by with_reducible assumption) ?_
    | dsimp only)

end Sys2Proof.Machine
end

