-- ==== Sys2Proof/Laws/KeepPcie.lean ====
section
/-! SUPPORT. What the operations of Machine/Pcie.lean keep. -/

set_option linter.all false
set_option Elab.async false

namespace Sys2Proof.Machine

theorem State.doorbell_keeps {w₀ : Nat} {s₀ s : State} (hw : Sub 0x80028000200000000000 w₀) (r : Nat) (v : Nat) (h₀ : Keeps w₀ s₀ s) :
    Keeps w₀ s₀ (State.doorbell s r v) := by
  unfold State.doorbell
  repeat' (first
    | with_reducible assumption
    | with_reducible apply Keeps.wr
    | with_reducible apply State.accReport_keeps
    | with_reducible exact Reg.hifRingHostIdxHostIdx_may hw rfl
    | exact hw.le rfl
    | with_reducible apply ResKeeps.next
    | with_reducible apply Keeps.each
    | with_reducible apply Keeps.when
    | with_reducible apply Keeps.foldl
    | split
    | intro _ _ _
    | intro _ _
    | intro _
    | with_reducible refine Keeps.of_pair (by with_reducible assumption) ?_
    | with_reducible refine Keeps.of_triple (by with_reducible assumption) ?_
    | dsimp only)

theorem execRingDoorbell_keeps {w₀ : Nat} {s₀ s : State} (hw : Sub 0x80028000200000000000 w₀) (ring : Fin 6) (value : Word) (h₀ : Keeps w₀ s₀ s) :
    ResKeeps w₀ s₀ (execRingDoorbell ring value s) := by
  unfold execRingDoorbell
  repeat' (first
    | with_reducible assumption
    | with_reducible apply State.accReport_keeps
    | with_reducible apply State.doorbell_keeps
    | exact hw.le rfl
    | with_reducible apply ResKeeps.next
    | with_reducible apply Keeps.each
    | with_reducible apply Keeps.when
    | with_reducible apply Keeps.foldl
    | split
    | intro _ _ _
    | intro _ _
    | intro _
    | with_reducible refine Keeps.of_pair (by with_reducible assumption) ?_
    | with_reducible refine Keeps.of_triple (by with_reducible assumption) ?_
    | dsimp only)

theorem State.msixFlush_keeps {w₀ : Nat} {s₀ s : State} (hw : Sub 0x80020000000000000000 w₀) (h₀ : Keeps w₀ s₀ s) :
    Keeps w₀ s₀ (State.msixFlush s) := by
  unfold State.msixFlush
  repeat' (first
    | with_reducible assumption
    | with_reducible apply State.send_keeps
    | with_reducible apply State.msix_keeps
    | (simp only [Keeps.mk_eq]; with_reducible apply KeepsMk.upd)
    | exact hw.le rfl
    | exact Or.inl (hw.bit rfl)
    | with_reducible exact Or.inr rfl
    | with_reducible apply ResKeeps.next
    | with_reducible apply Keeps.each
    | with_reducible apply Keeps.when
    | with_reducible apply Keeps.foldl
    | split
    | intro _ _ _
    | intro _ _
    | intro _
    | with_reducible refine Keeps.of_pair (by with_reducible assumption) ?_
    | with_reducible refine Keeps.of_triple (by with_reducible assumption) ?_
    | dsimp only)

theorem State.bar2Write_keeps {w₀ : Nat} {s₀ s : State} (hw : Sub 0x80028000200000000000 w₀) (a : Nat) (v : Nat) (h₀ : Keeps w₀ s₀ s) :
    Keeps w₀ s₀ (State.bar2Write s a v) := by
  unfold State.bar2Write
  repeat' (first
    | with_reducible assumption
    | with_reducible apply State.doorbell_keeps
    | with_reducible apply State.msixFlush_keeps
    | (simp only [Keeps.mk_eq]; with_reducible apply KeepsMk.upd)
    | exact hw.le rfl
    | exact Or.inl (hw.bit rfl)
    | with_reducible exact Or.inr rfl
    | with_reducible apply ResKeeps.next
    | with_reducible apply Keeps.each
    | with_reducible apply Keeps.when
    | with_reducible apply Keeps.foldl
    | split
    | intro _ _ _
    | intro _ _
    | intro _
    | with_reducible refine Keeps.of_pair (by with_reducible assumption) ?_
    | with_reducible refine Keeps.of_triple (by with_reducible assumption) ?_
    | dsimp only)

theorem State.pmState_keeps {w₀ : Nat} {s₀ s : State} (hw : Sub 0x70a10400002f0101010051 w₀) (v : Nat) (h₀ : Keeps w₀ s₀ s) :
    Keeps w₀ s₀ (State.pmState s v) := by
  unfold State.pmState
  repeat' (first
    | with_reducible assumption
    | with_reducible apply State.pcieReset_keeps
    | with_reducible apply State.linkTrain_keeps
    | with_reducible apply State.linkDown_keeps
    | (simp only [Keeps.mk_eq]; with_reducible apply KeepsMk.upd)
    | exact hw.le rfl
    | exact Or.inl (hw.bit rfl)
    | with_reducible exact Or.inr rfl
    | with_reducible apply ResKeeps.next
    | with_reducible apply Keeps.each
    | with_reducible apply Keeps.when
    | with_reducible apply Keeps.foldl
    | split
    | intro _ _ _
    | intro _ _
    | intro _
    | with_reducible refine Keeps.of_pair (by with_reducible assumption) ?_
    | with_reducible refine Keeps.of_triple (by with_reducible assumption) ?_
    | dsimp only)

theorem State.configWrite_keeps {w₀ : Nat} {s₀ s : State} (hw : Sub 0x70a10600002f0101010051 w₀) (a : Nat) (v : Nat) (be : Nat) (h₀ : Keeps w₀ s₀ s) :
    Keeps w₀ s₀ (State.configWrite s a v be) := by
  unfold State.configWrite
  repeat' (first
    | with_reducible assumption
    | with_reducible apply Keeps.wr
    | with_reducible apply State.pcieReset_keeps
    | with_reducible apply State.msixFlush_keeps
    | with_reducible apply State.pmState_keeps
    | with_reducible exact Reg.hifStatusBme_may hw rfl
    | with_reducible exact Reg.hifStatusMsixEn_may hw rfl
    | (simp only [Keeps.mk_eq]; with_reducible apply KeepsMk.upd)
    | exact hw.le rfl
    | exact Or.inl (hw.bit rfl)
    | with_reducible exact Or.inr rfl
    | with_reducible apply ResKeeps.next
    | with_reducible apply Keeps.each
    | with_reducible apply Keeps.when
    | with_reducible apply Keeps.foldl
    | split
    | intro _ _ _
    | intro _ _
    | intro _
    | with_reducible refine Keeps.of_pair (by with_reducible assumption) ?_
    | with_reducible refine Keeps.of_triple (by with_reducible assumption) ?_
    | dsimp only)

theorem execRegisterWrite_keeps {w₀ : Nat} {s₀ s : State} (hw : Sub 0x7fffd76ffffffffffffffff w₀) (path : Fin 2) (space : Fin 3) (addr : Nat) (value : Word) (be : Fin 16) (h₀ : Keeps w₀ s₀ s) :
    ResKeeps w₀ s₀ (execRegisterWrite path space addr value be s) := by
  unfold execRegisterWrite
  repeat' (first
    | with_reducible assumption
    | with_reducible apply State.accReport_keeps
    | with_reducible apply State.hostWrite_keeps
    | with_reducible apply State.bar2Write_keeps
    | with_reducible apply State.configWrite_keeps
    | exact hw.le rfl
    | with_reducible exact may_any (hw.le rfl) _
    | with_reducible apply ResKeeps.next
    | with_reducible apply Keeps.each
    | with_reducible apply Keeps.when
    | with_reducible apply Keeps.foldl
    | split
    | intro _ _ _
    | intro _ _
    | intro _
    | with_reducible refine Keeps.of_pair (by with_reducible assumption) ?_
    | with_reducible refine Keeps.of_triple (by with_reducible assumption) ?_
    | dsimp only)

theorem State.readWords_keeps {w₀ : Nat} {s₀ s : State} (hw : Sub 0x80028000200000000090 w₀) (p : Nat) (r : HostRead) (h₀ : Keeps w₀ s₀ s) :
    Keeps w₀ s₀ (State.readWords s p r).2 := by
  unfold State.readWords
  repeat' (first
    | with_reducible assumption
    | with_reducible apply State.readReg_keeps
    | with_reducible apply State.hostReads_keeps
    | exact hw.le rfl
    | with_reducible apply ResKeeps.next
    | with_reducible apply Keeps.each
    | with_reducible apply Keeps.when
    | with_reducible apply Keeps.foldl
    | split
    | intro _ _ _
    | intro _ _
    | intro _
    | with_reducible refine Keeps.of_pair (by with_reducible assumption) ?_
    | with_reducible refine Keeps.of_triple (by with_reducible assumption) ?_
    | dsimp only)

theorem execCounterLoRead_keeps {w₀ : Nat} {s₀ s : State} (hw : Sub 0x80028000200000000090 w₀) (read : HostRead) (path : Fin 3) (h₀ : Keeps w₀ s₀ s) :
    ResKeeps w₀ s₀ (execCounterLoRead read path s) := by
  unfold execCounterLoRead
  repeat' (first
    | with_reducible assumption
    | with_reducible apply State.send_keeps
    | with_reducible apply State.readWords_keeps
    | exact hw.le rfl
    | with_reducible apply ResKeeps.next
    | with_reducible apply Keeps.each
    | with_reducible apply Keeps.when
    | with_reducible apply Keeps.foldl
    | split
    | intro _ _ _
    | intro _ _
    | intro _
    | with_reducible refine Keeps.of_pair (by with_reducible assumption) ?_
    | with_reducible refine Keeps.of_triple (by with_reducible assumption) ?_
    | dsimp only)

end Sys2Proof.Machine
end

