-- ==== Sys2Proof/Laws/KeepDma.lean ====
section
/-! SUPPORT. What the operations of Machine/Dma.lean keep. -/

set_option linter.all false
set_option Elab.async false

namespace Sys2Proof.Machine

theorem execLnqDmaWrite_keeps {w₀ : Nat} {s₀ s : State} (hw : Sub 0x2080028000200001000000 w₀) (h₀ : Keeps w₀ s₀ s) :
    ResKeeps w₀ s₀ (execLnqDmaWrite s) := by
  unfold execLnqDmaWrite
  repeat' (first
    | with_reducible assumption
    | with_reducible apply State.ringPost_keeps
    | with_reducible apply State.setLnq_keeps
    | exact hw.le rfl
    | with_reducible apply ResKeeps.next
    | with_reducible apply Keeps.each
    | with_reducible apply Keeps.when
    | with_reducible apply Keeps.foldl
    | split
    | intro _ _ _
    | intro _ _
    | intro _
    | with_reducible refine Keeps.of_pair (by with_reducible assumption) ?_
    | with_reducible refine Keeps.of_triple (by with_reducible assumption) ?_
    | dsimp only)

theorem execTcqFetch_keeps {w₀ : Nat} {s₀ s : State} (hw : Sub 0x2080028000200000000000 w₀) (entry : List Byte) (h₀ : Keeps w₀ s₀ s) :
    ResKeeps w₀ s₀ (execTcqFetch entry s) := by
  unfold execTcqFetch
  repeat' (first
    | with_reducible assumption
    | with_reducible apply State.ringStep_keeps
    | with_reducible apply State.fifoStatus_keeps
    | (simp only [Keeps.mk_eq]; with_reducible apply KeepsMk.upd)
    | exact hw.le rfl
    | exact Or.inl (hw.bit rfl)
    | with_reducible exact Or.inr rfl
    | with_reducible apply ResKeeps.next
    | with_reducible apply Keeps.each
    | with_reducible apply Keeps.when
    | with_reducible apply Keeps.foldl
    | split
    | intro _ _ _
    | intro _ _
    | intro _
    | with_reducible refine Keeps.of_pair (by with_reducible assumption) ?_
    | with_reducible refine Keeps.of_triple (by with_reducible assumption) ?_
    | dsimp only)

theorem execTxfFetch_keeps {w₀ : Nat} {s₀ s : State} (hw : Sub 0x70a0028000240100010000 w₀) (entry : List Byte) (frame : List Byte) (h₀ : Keeps w₀ s₀ s) :
    ResKeeps w₀ s₀ (execTxfFetch entry frame s) := by
  unfold execTxfFetch
  repeat' (first
    | with_reducible assumption
    | with_reducible apply State.bump_keeps
    | with_reducible apply State.ev_keeps
    | with_reducible apply State.ringStep_keeps
    | with_reducible apply State.setFrame_keeps
    | with_reducible apply State.allocCells_keeps
    | with_reducible apply State.reap_keeps
    | with_reducible apply State.enqueue_keeps
    | with_reducible exact Reg.fabCntLinkDrop_may hw rfl
    | with_reducible exact Reg.hifTxBadCount_may hw rfl
    | (simp only [Keeps.mk_eq]; with_reducible apply KeepsMk.upd)
    | exact hw.le rfl
    | exact Or.inl (hw.bit rfl)
    | with_reducible exact Or.inr rfl
    | with_reducible apply ResKeeps.next
    | with_reducible apply Keeps.each
    | with_reducible apply Keeps.when
    | with_reducible apply Keeps.foldl
    | split
    | intro _ _ _
    | intro _ _
    | intro _
    | with_reducible refine Keeps.of_pair (by with_reducible assumption) ?_
    | with_reducible refine Keeps.of_triple (by with_reducible assumption) ?_
    | dsimp only)

theorem execHostRxDeliver_keeps {w₀ : Nat} {s₀ s : State} (hw : Sub 0x40a0028000240100010000 w₀) (rxb : List Byte) (h₀ : Keeps w₀ s₀ s) :
    ResKeeps w₀ s₀ (execHostRxDeliver rxb s) := by
  unfold execHostRxDeliver
  repeat' (first
    | with_reducible assumption
    | with_reducible apply State.bump_keeps
    | with_reducible apply State.send_keeps
    | with_reducible apply State.ringStep_keeps
    | with_reducible apply State.ringPost_keeps
    | with_reducible apply State.setFrame_keeps
    | with_reducible apply State.freeCells_keeps
    | with_reducible apply State.setHostq_keeps
    | with_reducible exact Reg.hifRxDropCount_may hw rfl
    | exact hw.le rfl
    | with_reducible apply ResKeeps.next
    | with_reducible apply Keeps.each
    | with_reducible apply Keeps.when
    | with_reducible apply Keeps.foldl
    | split
    | intro _ _ _
    | intro _ _
    | intro _
    | with_reducible refine Keeps.of_pair (by with_reducible assumption) ?_
    | with_reducible refine Keeps.of_triple (by with_reducible assumption) ?_
    | dsimp only)

theorem applyHost_keeps {w₀ : Nat} {s₀ s : State} (hw : Sub 0x80000000200000000000 w₀) (v : List Byte) (h₀ : Keeps w₀ s₀ s) :
    Keeps w₀ s₀ (applyHost v s) := by
  unfold applyHost
  repeat' (first
    | with_reducible assumption
    | with_reducible apply State.wrs_keeps
    | with_reducible exact Reg.hifCfgFramesEn_may hw rfl
    | with_reducible exact Reg.hifCfgLnqFifo_may hw rfl
    | with_reducible exact Reg.hifCfgPcieEn_may hw rfl
    | with_reducible exact Reg.hifCfgSmiEn_may hw rfl
    | with_reducible exact Reg.hifCfgTcqFifo_may hw rfl
    | with_reducible exact Reg.hifHostqCells_may hw rfl
    | with_reducible exact AllMay.nil _
    | with_reducible apply AllMay.cons
    | with_reducible apply AllMay.append
    | with_reducible apply AllMay.map
    | (simp only [Keeps.mk_eq]; with_reducible apply KeepsMk.upd)
    | exact hw.le rfl
    | exact Or.inl (hw.bit rfl)
    | with_reducible exact Or.inr rfl
    | with_reducible apply ResKeeps.next
    | with_reducible apply Keeps.each
    | with_reducible apply Keeps.when
    | with_reducible apply Keeps.foldl
    | split
    | intro _ _ _
    | intro _ _
    | intro _
    | with_reducible refine Keeps.of_pair (by with_reducible assumption) ?_
    | with_reducible refine Keeps.of_triple (by with_reducible assumption) ?_
    | dsimp only)

theorem applyHostDefault_keeps {w₀ : Nat} {s₀ s : State} (hw : Sub 0x200000000000 w₀) (pcieRef : Bool) (h₀ : Keeps w₀ s₀ s) :
    Keeps w₀ s₀ (applyHostDefault pcieRef s) := by
  unfold applyHostDefault
  repeat' (first
    | with_reducible assumption
    | with_reducible apply State.wrs_keeps
    | with_reducible exact Reg.hifCfgFramesEn_may hw rfl
    | with_reducible exact Reg.hifCfgLnqFifo_may hw rfl
    | with_reducible exact Reg.hifCfgPcieEn_may hw rfl
    | with_reducible exact Reg.hifCfgSmiEn_may hw rfl
    | with_reducible exact Reg.hifCfgTcqFifo_may hw rfl
    | with_reducible exact AllMay.nil _
    | with_reducible apply AllMay.cons
    | with_reducible apply AllMay.append
    | with_reducible apply AllMay.map
    | exact hw.le rfl
    | with_reducible apply ResKeeps.next
    | with_reducible apply Keeps.each
    | with_reducible apply Keeps.when
    | with_reducible apply Keeps.foldl
    | split
    | intro _ _ _
    | intro _ _
    | intro _
    | with_reducible refine Keeps.of_pair (by with_reducible assumption) ?_
    | with_reducible refine Keeps.of_triple (by with_reducible assumption) ?_
    | dsimp only)

end Sys2Proof.Machine
end

