-- ==== Sys2Proof/Laws/KeepJtag.lean ====
section
/-! SUPPORT. What the operations of Machine/Jtag.lean keep. -/

set_option linter.all false
set_option Elab.async false

namespace Sys2Proof.Machine

theorem State.tap_keeps {w₀ : Nat} {s₀ s : State} (hw : Sub 0x4000000000000000000 w₀) (code : Nat) (h₀ : Keeps w₀ s₀ s) :
    Keeps w₀ s₀ (State.tap s code) := by
  unfold State.tap
  repeat' (first
    | with_reducible assumption
    | (simp only [Keeps.mk_eq]; with_reducible apply KeepsMk.upd)
    | exact hw.le rfl
    | exact Or.inl (hw.bit rfl)
    | with_reducible exact Or.inr rfl
    | with_reducible apply ResKeeps.next
    | with_reducible apply Keeps.each
    | with_reducible apply Keeps.when
    | with_reducible apply Keeps.foldl
    | split
    | intro _ _ _
    | intro _ _
    | intro _
    | with_reducible refine Keeps.of_pair (by with_reducible assumption) ?_
    | with_reducible refine Keeps.of_triple (by with_reducible assumption) ?_
    | dsimp only
    | exact Keeps.jset h₀ (hw.bit rfl) (by assumption) (slice_length _ _ _) _)

theorem State.bypass_keeps {w₀ : Nat} {s₀ s : State} (hw : Sub 0x4020000000000000000 w₀) (tdi : List Bool) (h₀ : Keeps w₀ s₀ s) :
    Keeps w₀ s₀ (State.bypass s tdi) := by
  unfold State.bypass
  repeat' (first
    | with_reducible assumption
    | with_reducible apply State.send_keeps
    | with_reducible apply State.tap_keeps
    | exact hw.le rfl
    | with_reducible apply ResKeeps.next
    | with_reducible apply Keeps.each
    | with_reducible apply Keeps.when
    | with_reducible apply Keeps.foldl
    | split
    | intro _ _ _
    | intro _ _
    | intro _
    | with_reducible refine Keeps.of_pair (by with_reducible assumption) ?_
    | with_reducible refine Keeps.of_triple (by with_reducible assumption) ?_
    | dsimp only
    | exact Keeps.jset h₀ (hw.bit rfl) (by assumption) (slice_length _ _ _) _)

theorem execJtagBypass_keeps {w₀ : Nat} {s₀ s : State} (hw : Sub 0x4020000000000000000 w₀) (tdi : List Bool) (h₀ : Keeps w₀ s₀ s) :
    ResKeeps w₀ s₀ (execJtagBypass tdi s) := by
  unfold execJtagBypass
  repeat' (first
    | with_reducible assumption
    | with_reducible apply State.bypass_keeps
    | exact hw.le rfl
    | with_reducible apply ResKeeps.next
    | with_reducible apply Keeps.each
    | with_reducible apply Keeps.when
    | with_reducible apply Keeps.foldl
    | split
    | intro _ _ _
    | intro _ _
    | intro _
    | with_reducible refine Keeps.of_pair (by with_reducible assumption) ?_
    | with_reducible refine Keeps.of_triple (by with_reducible assumption) ?_
    | dsimp only
    | exact Keeps.jset h₀ (hw.bit rfl) (by assumption) (slice_length _ _ _) _)

theorem execJtagIdcode_keeps {w₀ : Nat} {s₀ s : State} (hw : Sub 0x4020000000000000000 w₀) (h₀ : Keeps w₀ s₀ s) :
    ResKeeps w₀ s₀ (execJtagIdcode s) := by
  unfold execJtagIdcode
  repeat' (first
    | with_reducible assumption
    | with_reducible apply State.send_keeps
    | with_reducible apply State.tap_keeps
    | exact hw.le rfl
    | with_reducible apply ResKeeps.next
    | with_reducible apply Keeps.each
    | with_reducible apply Keeps.when
    | with_reducible apply Keeps.foldl
    | split
    | intro _ _ _
    | intro _ _
    | intro _
    | with_reducible refine Keeps.of_pair (by with_reducible assumption) ?_
    | with_reducible refine Keeps.of_triple (by with_reducible assumption) ?_
    | dsimp only
    | exact Keeps.jset h₀ (hw.bit rfl) (by assumption) (slice_length _ _ _) _)

theorem execJtagSecAccess_keeps {w₀ : Nat} {s₀ s : State} (hw : Sub 0x7fffd76ffffffffffffffff w₀) (write : Bool) (addr : Nat) (value : Word) (h₀ : Keeps w₀ s₀ s) :
    ResKeeps w₀ s₀ (execJtagSecAccess write addr value s) := by
  unfold execJtagSecAccess
  repeat' (first
    | with_reducible assumption
    | with_reducible apply State.send_keeps
    | with_reducible apply State.readReg_keeps
    | with_reducible apply State.writeReg_keeps
    | with_reducible apply State.tap_keeps
    | exact hw.le rfl
    | with_reducible exact may_any (hw.le rfl) _
    | with_reducible apply ResKeeps.next
    | with_reducible apply Keeps.each
    | with_reducible apply Keeps.when
    | with_reducible apply Keeps.foldl
    | split
    | intro _ _ _
    | intro _ _
    | intro _
    | with_reducible refine Keeps.of_pair (by with_reducible assumption) ?_
    | with_reducible refine Keeps.of_triple (by with_reducible assumption) ?_
    | dsimp only
    | exact Keeps.jset h₀ (hw.bit rfl) (by assumption) (slice_length _ _ _) _)

theorem execJtagRegRead_keeps {w₀ : Nat} {s₀ s : State} (hw : Sub 0x84020000200000000090 w₀) (addr : Nat) (h₀ : Keeps w₀ s₀ s) :
    ResKeeps w₀ s₀ (execJtagRegRead addr s) := by
  unfold execJtagRegRead
  repeat' (first
    | with_reducible assumption
    | with_reducible apply State.send_keeps
    | with_reducible apply State.readReg_keeps
    | with_reducible apply State.tap_keeps
    | exact hw.le rfl
    | with_reducible apply ResKeeps.next
    | with_reducible apply Keeps.each
    | with_reducible apply Keeps.when
    | with_reducible apply Keeps.foldl
    | split
    | intro _ _ _
    | intro _ _
    | intro _
    | with_reducible refine Keeps.of_pair (by with_reducible assumption) ?_
    | with_reducible refine Keeps.of_triple (by with_reducible assumption) ?_
    | dsimp only
    | exact Keeps.jset h₀ (hw.bit rfl) (by assumption) (slice_length _ _ _) _)

theorem execJtagRegWrite_keeps {w₀ : Nat} {s₀ s : State} (hw : Sub 0x7fffd76ffffffffffffffff w₀) (addr : Nat) (value : Word) (h₀ : Keeps w₀ s₀ s) :
    ResKeeps w₀ s₀ (execJtagRegWrite addr value s) := by
  unfold execJtagRegWrite
  repeat' (first
    | with_reducible assumption
    | with_reducible apply State.send_keeps
    | with_reducible apply State.writeReg_keeps
    | with_reducible apply State.tap_keeps
    | exact hw.le rfl
    | with_reducible exact may_any (hw.le rfl) _
    | with_reducible apply ResKeeps.next
    | with_reducible apply Keeps.each
    | with_reducible apply Keeps.when
    | with_reducible apply Keeps.foldl
    | split
    | intro _ _ _
    | intro _ _
    | intro _
    | with_reducible refine Keeps.of_pair (by with_reducible assumption) ?_
    | with_reducible refine Keeps.of_triple (by with_reducible assumption) ?_
    | dsimp only
    | exact Keeps.jset h₀ (hw.bit rfl) (by assumption) (slice_length _ _ _) _)

theorem State.memWrite_keeps {w₀ : Nat} {s₀ s : State} (hw : Sub 0x7880800000000001000040 w₀) (m : MemKind) (i : Nat) (b : List Byte) (h₀ : Keeps w₀ s₀ s) :
    Keeps w₀ s₀ (State.memWrite s m i b) := by
  unfold State.memWrite
  repeat' (first
    | with_reducible assumption
    | with_reducible apply State.setEnt_keeps
    | with_reducible apply State.setFrame_keeps
    | with_reducible apply State.cellPut_keeps
    | with_reducible exact Reg.tsCapEntry0Inhigh_may hw rfl
    | with_reducible exact Reg.tsCapEntry0Rising_may hw rfl
    | with_reducible exact Reg.tsCapEntry0Tb_may hw rfl
    | with_reducible exact Reg.tsCapEntry0Valid_may hw rfl
    | with_reducible exact Reg.tsCapEntry0Window_may hw rfl
    | with_reducible exact Reg.tsCapEntry0Wvalid_may hw rfl
    | with_reducible exact Reg.tsTxqEntry0Bad_may hw rfl
    | with_reducible exact Reg.tsTxqEntry0Id_may hw rfl
    | with_reducible exact Reg.tsTxqEntry0Tb_may hw rfl
    | with_reducible exact Reg.tsTxqEntry0Valid_may hw rfl
    | (simp only [Keeps.mk_eq]; with_reducible apply KeepsMk.upd)
    | exact hw.le rfl
    | exact Or.inl (hw.bit rfl)
    | with_reducible exact Or.inr rfl
    | with_reducible apply ResKeeps.next
    | with_reducible apply Keeps.each
    | with_reducible apply Keeps.when
    | with_reducible apply Keeps.foldl
    | split
    | intro _ _ _
    | intro _ _
    | intro _
    | with_reducible refine Keeps.of_pair (by with_reducible assumption) ?_
    | with_reducible refine Keeps.of_triple (by with_reducible assumption) ?_
    | dsimp only
    | exact Keeps.jset h₀ (hw.bit rfl) (by assumption) (slice_length _ _ _) _)

theorem execJtagMemAccess_keeps {w₀ : Nat} {s₀ s : State} (hw : Sub 0x7884820000000001000040 w₀) (mem : MemKind) (addr : Nat) (write : Option (List Byte)) (h₀ : Keeps w₀ s₀ s) :
    ResKeeps w₀ s₀ (execJtagMemAccess mem addr write s) := by
  unfold execJtagMemAccess
  repeat' (first
    | with_reducible assumption
    | with_reducible apply State.send_keeps
    | with_reducible apply State.tap_keeps
    | with_reducible apply State.memWrite_keeps
    | exact hw.le rfl
    | with_reducible apply ResKeeps.next
    | with_reducible apply Keeps.each
    | with_reducible apply Keeps.when
    | with_reducible apply Keeps.foldl
    | split
    | intro _ _ _
    | intro _ _
    | intro _
    | with_reducible refine Keeps.of_pair (by with_reducible assumption) ?_
    | with_reducible refine Keeps.of_triple (by with_reducible assumption) ?_
    | dsimp only
    | exact Keeps.jset h₀ (hw.bit rfl) (by assumption) (slice_length _ _ _) _)

theorem execJtagSamplePreload_keeps {w₀ : Nat} {s₀ s : State} (hw : Sub 0x4020000000000000000 w₀) (pins : List Bool) (preload : List Bool) (h₀ : Keeps w₀ s₀ s) :
    ResKeeps w₀ s₀ (execJtagSamplePreload pins preload s) := by
  unfold execJtagSamplePreload
  repeat' (first
    | with_reducible assumption
    | with_reducible apply State.send_keeps
    | with_reducible apply State.tap_keeps
    | with_reducible apply State.bypass_keeps
    | (simp only [Keeps.mk_eq]; with_reducible apply KeepsMk.upd)
    | exact hw.le rfl
    | exact Or.inl (hw.bit rfl)
    | with_reducible exact Or.inr rfl
    | with_reducible apply ResKeeps.next
    | with_reducible apply Keeps.each
    | with_reducible apply Keeps.when
    | with_reducible apply Keeps.foldl
    | split
    | intro _ _ _
    | intro _ _
    | intro _
    | with_reducible refine Keeps.of_pair (by with_reducible assumption) ?_
    | with_reducible refine Keeps.of_triple (by with_reducible assumption) ?_
    | dsimp only
    | exact Keeps.jset h₀ (hw.bit rfl) (by assumption) (slice_length _ _ _) _)

theorem execJtagExtest_keeps {w₀ : Nat} {s₀ s : State} (hw : Sub 0x4020000000000000000 w₀) (pins : List Bool) (drive : List Bool) (h₀ : Keeps w₀ s₀ s) :
    ResKeeps w₀ s₀ (execJtagExtest pins drive s) := by
  unfold execJtagExtest
  repeat' (first
    | with_reducible assumption
    | with_reducible apply State.send_keeps
    | with_reducible apply State.tap_keeps
    | with_reducible apply State.bypass_keeps
    | (simp only [Keeps.mk_eq]; with_reducible apply KeepsMk.upd)
    | exact hw.le rfl
    | exact Or.inl (hw.bit rfl)
    | with_reducible exact Or.inr rfl
    | with_reducible apply ResKeeps.next
    | with_reducible apply Keeps.each
    | with_reducible apply Keeps.when
    | with_reducible apply Keeps.foldl
    | split
    | intro _ _ _
    | intro _ _
    | intro _
    | with_reducible refine Keeps.of_pair (by with_reducible assumption) ?_
    | with_reducible refine Keeps.of_triple (by with_reducible assumption) ?_
    | dsimp only
    | exact Keeps.jset h₀ (hw.bit rfl) (by assumption) (slice_length _ _ _) _)

theorem execJtagScan_keeps {w₀ : Nat} {s₀ s : State} (hw : Sub 0xc000000000000000000 w₀) (domains : Nat) (h₀ : Keeps w₀ s₀ s) :
    ResKeeps w₀ s₀ (execJtagScan domains s) := by
  unfold execJtagScan
  repeat' (first
    | with_reducible assumption
    | with_reducible apply State.tap_keeps
    | (simp only [Keeps.mk_eq]; with_reducible apply KeepsMk.upd)
    | exact hw.le rfl
    | exact Or.inl (hw.bit rfl)
    | with_reducible exact Or.inr rfl
    | with_reducible apply ResKeeps.next
    | with_reducible apply Keeps.each
    | with_reducible apply Keeps.when
    | with_reducible apply Keeps.foldl
    | split
    | intro _ _ _
    | intro _ _
    | intro _
    | with_reducible refine Keeps.of_pair (by with_reducible assumption) ?_
    | with_reducible refine Keeps.of_triple (by with_reducible assumption) ?_
    | dsimp only
    | exact Keeps.jset h₀ (hw.bit rfl) (by assumption) (slice_length _ _ _) _)

theorem execJtagTrst_keeps {w₀ : Nat} {s₀ s : State} (hw : Sub 0x4000000000000000000 w₀) (h₀ : Keeps w₀ s₀ s) :
    ResKeeps w₀ s₀ (execJtagTrst s) := by
  unfold execJtagTrst
  repeat' (first
    | with_reducible assumption
    | with_reducible apply State.tap_keeps
    | exact hw.le rfl
    | with_reducible apply ResKeeps.next
    | with_reducible apply Keeps.each
    | with_reducible apply Keeps.when
    | with_reducible apply Keeps.foldl
    | split
    | intro _ _ _
    | intro _ _
    | intro _
    | with_reducible refine Keeps.of_pair (by with_reducible assumption) ?_
    | with_reducible refine Keeps.of_triple (by with_reducible assumption) ?_
    | dsimp only
    | exact Keeps.jset h₀ (hw.bit rfl) (by assumption) (slice_length _ _ _) _)

end Sys2Proof.Machine
end

