-- ==== Sys2Proof/Laws/KeepBoot.lean ====
section
/-! SUPPORT. What the operations of Machine/Boot.lean keep. -/

set_option linter.all false
set_option Elab.async false

namespace Sys2Proof.Machine

theorem State.setXo_keeps {w₀ : Nat} {s₀ s : State} (hw : Sub 0x2 w₀) (st : Nat) (h₀ : Keeps w₀ s₀ s) :
    Keeps w₀ s₀ (State.setXo s st) := by
  unfold State.setXo
  repeat' (first
    | with_reducible assumption
    | with_reducible apply Keeps.wr
    | with_reducible exact Reg.clkXoStatusState_may hw rfl
    | exact hw.le rfl
    | with_reducible apply ResKeeps.next
    | with_reducible apply Keeps.each
    | with_reducible apply Keeps.when
    | with_reducible apply Keeps.foldl
    | split
    | intro _ _ _
    | intro _ _
    | intro _
    | with_reducible refine Keeps.of_pair (by with_reducible assumption) ?_
    | with_reducible refine Keeps.of_triple (by with_reducible assumption) ?_
    | dsimp only)

theorem State.xoGood_keeps {w₀ : Nat} {s₀ s : State} (hw : Sub 0x7fff946ffffffffffffffff w₀) (c : Nat) (h₀ : Keeps w₀ s₀ s) :
    Keeps w₀ s₀ (State.xoGood s c) := by
  unfold State.xoGood
  repeat' (first
    | with_reducible assumption
    | with_reducible apply Keeps.wr
    | with_reducible apply State.send_keeps
    | with_reducible apply State.bootRamps_keeps
    | with_reducible apply State.setXo_keeps
    | with_reducible exact Reg.clkXoStatusDetected_may hw rfl
    | with_reducible exact Reg.devBootPhase_may hw rfl
    | exact hw.le rfl
    | with_reducible exact may_any (hw.le rfl) _
    | with_reducible apply ResKeeps.next
    | with_reducible apply Keeps.each
    | with_reducible apply Keeps.when
    | with_reducible apply Keeps.foldl
    | split
    | intro _ _ _
    | intro _ _
    | intro _
    | with_reducible refine Keeps.of_pair (by with_reducible assumption) ?_
    | with_reducible refine Keeps.of_triple (by with_reducible assumption) ?_
    | dsimp only)

theorem execXoWindowEnd_keeps {w₀ : Nat} {s₀ s : State} (hw : Sub 0x7fff956ffffffffffffffff w₀) (count : Nat) (h₀ : Keeps w₀ s₀ s) :
    ResKeeps w₀ s₀ (execXoWindowEnd count s) := by
  unfold execXoWindowEnd
  repeat' (first
    | with_reducible assumption
    | with_reducible apply Keeps.wr
    | with_reducible apply State.report_keeps
    | with_reducible apply State.setXo_keeps
    | with_reducible apply State.xoGood_keeps
    | with_reducible exact Reg.clkXoStatusCount_may hw rfl
    | with_reducible exact Reg.clkXoStatusLoss_may hw rfl
    | (simp only [Keeps.mk_eq]; with_reducible apply KeepsMk.upd)
    | exact hw.le rfl
    | exact Or.inl (hw.bit rfl)
    | with_reducible exact Or.inr rfl
    | with_reducible exact may_any (hw.le rfl) _
    | with_reducible apply ResKeeps.next
    | with_reducible apply Keeps.each
    | with_reducible apply Keeps.when
    | with_reducible apply Keeps.foldl
    | split
    | intro _ _ _
    | intro _ _
    | intro _
    | with_reducible refine Keeps.of_pair (by with_reducible assumption) ?_
    | with_reducible refine Keeps.of_triple (by with_reducible assumption) ?_
    | dsimp only)

theorem execStartupRootLocked_keeps {w₀ : Nat} {s₀ s : State} (hw : Sub 0x7fff946ffffffffffffffff w₀) (root : Fin 2) (h₀ : Keeps w₀ s₀ s) :
    ResKeeps w₀ s₀ (execStartupRootLocked root s) := by
  unfold execStartupRootLocked
  repeat' (first
    | with_reducible assumption
    | with_reducible apply Keeps.wr
    | with_reducible apply State.setUnit_keeps
    | with_reducible apply State.setRootLock_keeps
    | with_reducible apply State.bootRamps_keeps
    | with_reducible exact Reg.clkShaftStatusActiveRoot_may hw rfl
    | with_reducible exact Reg.devBootPhase_may hw rfl
    | (simp only [Keeps.mk_eq]; with_reducible apply KeepsMk.upd)
    | exact hw.le rfl
    | exact Or.inl (hw.bit rfl)
    | with_reducible exact Or.inr rfl
    | with_reducible exact may_any (hw.le rfl) _
    | with_reducible apply ResKeeps.next
    | with_reducible apply Keeps.each
    | with_reducible apply Keeps.when
    | with_reducible apply Keeps.foldl
    | split
    | intro _ _ _
    | intro _ _
    | intro _
    | with_reducible refine Keeps.of_pair (by with_reducible assumption) ?_
    | with_reducible refine Keeps.of_triple (by with_reducible assumption) ?_
    | dsimp only)

theorem execRootALockTimeout_keeps {w₀ : Nat} {s₀ s : State} (hw : Sub 0x7fff946ffffffffffffffff w₀) (h₀ : Keeps w₀ s₀ s) :
    ResKeeps w₀ s₀ (execRootALockTimeout s) := by
  unfold execRootALockTimeout
  repeat' (first
    | with_reducible assumption
    | with_reducible apply Keeps.wr
    | with_reducible apply State.bootRamps_keeps
    | with_reducible exact Reg.devBootRootBStart_may hw rfl
    | exact hw.le rfl
    | with_reducible exact may_any (hw.le rfl) _
    | with_reducible apply ResKeeps.next
    | with_reducible apply Keeps.each
    | with_reducible apply Keeps.when
    | with_reducible apply Keeps.foldl
    | split
    | intro _ _ _
    | intro _ _
    | intro _
    | with_reducible refine Keeps.of_pair (by with_reducible assumption) ?_
    | with_reducible refine Keeps.of_triple (by with_reducible assumption) ?_
    | dsimp only)

theorem execRootBLockTimeout_keeps {w₀ : Nat} {s₀ s : State} (hw : Sub 0x7fff946ffffffffffffffff w₀) (h₀ : Keeps w₀ s₀ s) :
    ResKeeps w₀ s₀ (execRootBLockTimeout s) := by
  unfold execRootBLockTimeout
  repeat' (first
    | with_reducible assumption
    | with_reducible apply Keeps.wr
    | with_reducible apply State.haltEnter_keeps
    | with_reducible exact Reg.devBootFailReason0_may hw rfl
    | exact hw.le rfl
    | with_reducible exact may_any (hw.le rfl) _
    | with_reducible apply ResKeeps.next
    | with_reducible apply Keeps.each
    | with_reducible apply Keeps.when
    | with_reducible apply Keeps.foldl
    | split
    | intro _ _ _
    | intro _ _
    | intro _
    | with_reducible refine Keeps.of_pair (by with_reducible assumption) ?_
    | with_reducible refine Keeps.of_triple (by with_reducible assumption) ?_
    | dsimp only)

theorem State.lifecycleRecovery_keeps {w₀ : Nat} {s₀ s : State} (hw : Sub 0x1800000040000000001 w₀) (h₀ : Keeps w₀ s₀ s) :
    Keeps w₀ s₀ (State.lifecycleRecovery s) := by
  unfold State.lifecycleRecovery
  dsimp only
  exact iteInduction (motive := fun x => Keeps w₀ s₀ x) (fun _ => h₀)
    fun _ => State.jput_keeps (hw.le rfl) _ (State.jclear_keeps (hw.le rfl) h₀)

theorem execWipeDone_keeps {w₀ : Nat} {s₀ s : State} (hw : Sub 0x4fcddc680002d00010000ff w₀) (h₀ : Keeps w₀ s₀ s) :
    ResKeeps w₀ s₀ (execWipeDone s) := by
  unfold execWipeDone
  repeat' (first
    | with_reducible assumption
    | with_reducible apply Keeps.wr
    | with_reducible apply State.domainUp_keeps
    | with_reducible apply State.jrnlHead_keeps
    | with_reducible apply State.lifecycleRecovery_keeps
    | with_reducible exact Reg.devBootCountCount_may hw rfl
    | with_reducible exact Reg.devBootPhase_may hw rfl
    | with_reducible exact Reg.secDbgLevel_may hw rfl
    | (simp only [Keeps.mk_eq]; with_reducible apply KeepsMk.upd)
    | exact hw.le rfl
    | exact Or.inl (hw.bit rfl)
    | with_reducible exact Or.inr rfl
    | with_reducible apply ResKeeps.next
    | with_reducible apply Keeps.each
    | with_reducible apply Keeps.when
    | with_reducible apply Keeps.foldl
    | split
    | intro _ _ _
    | intro _ _
    | intro _
    | with_reducible refine Keeps.of_pair (by with_reducible assumption) ?_
    | with_reducible refine Keeps.of_triple (by with_reducible assumption) ?_
    | dsimp only)

theorem State.copyFails_keeps {w₀ : Nat} {s₀ s : State} (hw : Sub 0x7fff946ffffffffffffffff w₀) (reason : Nat) (h₀ : Keeps w₀ s₀ s) :
    Keeps w₀ s₀ (State.copyFails s reason) := by
  unfold State.copyFails
  repeat' (first
    | with_reducible assumption
    | with_reducible apply Keeps.wr
    | with_reducible apply State.haltEnter_keeps
    | with_reducible exact Reg.devBootFailReason0_may hw rfl
    | with_reducible exact Reg.devBootFailReason1_may hw rfl
    | with_reducible exact Reg.devBootPhase_may hw rfl
    | (simp only [Keeps.mk_eq]; with_reducible apply KeepsMk.upd)
    | exact hw.le rfl
    | exact Or.inl (hw.bit rfl)
    | with_reducible exact Or.inr rfl
    | with_reducible exact may_any (hw.le rfl) _
    | with_reducible apply ResKeeps.next
    | with_reducible apply Keeps.each
    | with_reducible apply Keeps.when
    | with_reducible apply Keeps.foldl
    | split
    | intro _ _ _
    | intro _ _
    | intro _
    | with_reducible refine Keeps.of_pair (by with_reducible assumption) ?_
    | with_reducible refine Keeps.of_triple (by with_reducible assumption) ?_
    | dsimp only)

theorem State.spiRead_keeps {w₀ : Nat} {s₀ s : State} (hw : Sub 0x20000000000000000 w₀) (cs : Nat) (p : FlashProbe) (h₀ : Keeps w₀ s₀ s) :
    Keeps w₀ s₀ (State.spiRead s cs p) := by
  unfold State.spiRead
  repeat' (first
    | with_reducible assumption
    | with_reducible apply State.send_keeps
    | exact hw.le rfl
    | with_reducible apply ResKeeps.next
    | with_reducible apply Keeps.each
    | with_reducible apply Keeps.when
    | with_reducible apply Keeps.foldl
    | split
    | intro _ _ _
    | intro _ _
    | intro _
    | with_reducible refine Keeps.of_pair (by with_reducible assumption) ?_
    | with_reducible refine Keeps.of_triple (by with_reducible assumption) ?_
    | dsimp only)

theorem execImageReadDone_keeps {w₀ : Nat} {s₀ s : State} (hw : Sub 0x7fff946ffffffffffffffff w₀) (probe : FlashProbe) (bytes : List Byte) (h₀ : Keeps w₀ s₀ s) :
    ResKeeps w₀ s₀ (execImageReadDone probe bytes s) := by
  unfold execImageReadDone
  repeat' (first
    | with_reducible assumption
    | with_reducible apply Keeps.wr
    | with_reducible apply State.copyFails_keeps
    | with_reducible apply State.spiRead_keeps
    | with_reducible exact Reg.devBootPhase_may hw rfl
    | (simp only [Keeps.mk_eq]; with_reducible apply KeepsMk.upd)
    | exact hw.le rfl
    | exact Or.inl (hw.bit rfl)
    | with_reducible exact Or.inr rfl
    | with_reducible exact may_any (hw.le rfl) _
    | with_reducible apply ResKeeps.next
    | with_reducible apply Keeps.each
    | with_reducible apply Keeps.when
    | with_reducible apply Keeps.foldl
    | split
    | intro _ _ _
    | intro _ _
    | intro _
    | with_reducible refine Keeps.of_pair (by with_reducible assumption) ?_
    | with_reducible refine Keeps.of_triple (by with_reducible assumption) ?_
    | dsimp only)

theorem State.accept_keeps {w₀ : Nat} {s₀ s : State} (hw : Sub 0x7fff946ffffffffffffffff w₀) (l : List Rec) (h₀ : Keeps w₀ s₀ s) :
    Keeps w₀ s₀ (State.accept s l) := by
  unfold State.accept
  repeat' (first
    | with_reducible assumption
    | with_reducible apply Keeps.wr
    | with_reducible apply State.report_keeps
    | with_reducible apply State.haltEnter_keeps
    | with_reducible apply State.setXo_keeps
    | with_reducible exact Reg.clkXoStatusMismatch_may hw rfl
    | with_reducible exact Reg.devBootFailReason0_may hw rfl
    | with_reducible exact Reg.devBootFailReason1_may hw rfl
    | with_reducible exact Reg.devBootPhase_may hw rfl
    | with_reducible exact Reg.devBootSource_may hw rfl
    | (simp only [Keeps.mk_eq]; with_reducible apply KeepsMk.upd)
    | exact hw.le rfl
    | exact Or.inl (hw.bit rfl)
    | with_reducible exact Or.inr rfl
    | with_reducible exact may_any (hw.le rfl) _
    | with_reducible apply ResKeeps.next
    | with_reducible apply Keeps.each
    | with_reducible apply Keeps.when
    | with_reducible apply Keeps.foldl
    | split
    | intro _ _ _
    | intro _ _
    | intro _
    | with_reducible refine Keeps.of_pair (by with_reducible assumption) ?_
    | with_reducible refine Keeps.of_triple (by with_reducible assumption) ?_
    | dsimp only)

theorem State.contentVerdict_keeps {w₀ : Nat} {s₀ s : State} (hw : Sub 0x7fff946ffffffffffffffff w₀) (l : List Rec) (h₀ : Keeps w₀ s₀ s) :
    Keeps w₀ s₀ (State.contentVerdict s l) := by
  unfold State.contentVerdict
  repeat' (first
    | with_reducible assumption
    | with_reducible apply Keeps.wr
    | with_reducible apply State.copyFails_keeps
    | with_reducible apply State.accept_keeps
    | with_reducible exact Reg.devBootFailType_may hw rfl
    | exact hw.le rfl
    | with_reducible exact may_any (hw.le rfl) _
    | with_reducible apply ResKeeps.next
    | with_reducible apply Keeps.each
    | with_reducible apply Keeps.when
    | with_reducible apply Keeps.foldl
    | split
    | intro _ _ _
    | intro _ _
    | intro _
    | with_reducible refine Keeps.of_pair (by with_reducible assumption) ?_
    | with_reducible refine Keeps.of_triple (by with_reducible assumption) ?_
    | dsimp only)

theorem execSignatureVerifyDone_keeps {w₀ : Nat} {s₀ s : State} (hw : Sub 0x7fff946ffffffffffffffff w₀) (h₀ : Keeps w₀ s₀ s) :
    ResKeeps w₀ s₀ (execSignatureVerifyDone s) := by
  unfold execSignatureVerifyDone
  repeat' (first
    | with_reducible assumption
    | with_reducible apply State.copyFails_keeps
    | with_reducible apply State.contentVerdict_keeps
    | exact hw.le rfl
    | with_reducible exact may_any (hw.le rfl) _
    | with_reducible apply ResKeeps.next
    | with_reducible apply Keeps.each
    | with_reducible apply Keeps.when
    | with_reducible apply Keeps.foldl
    | split
    | intro _ _ _
    | intro _ _
    | intro _
    | with_reducible refine Keeps.of_pair (by with_reducible assumption) ?_
    | with_reducible refine Keeps.of_triple (by with_reducible assumption) ?_
    | dsimp only)

theorem applyPlan_keeps {w₀ : Nat} {s₀ s : State} (hw : Sub 0x3 w₀) (l : List Rec) (h₀ : Keeps w₀ s₀ s) :
    Keeps w₀ s₀ (applyPlan l s) := by
  unfold applyPlan
  repeat' (first
    | with_reducible assumption
    | with_reducible apply State.wrs_keeps
    | with_reducible exact Reg.clkPlanDepth_may hw rfl
    | with_reducible exact Reg.clkPlanModrate_may hw rfl
    | with_reducible exact Reg.clkPlanProfile_may hw rfl
    | with_reducible exact Reg.clkPlanXoCfg_may hw rfl
    | with_reducible exact Reg.devImgBuildBuild_may hw rfl
    | with_reducible exact Reg.devNodeIdHiHi_may hw rfl
    | with_reducible exact Reg.devNodeIdLoLo_may hw rfl
    | with_reducible exact AllMay.nil _
    | with_reducible apply AllMay.cons
    | with_reducible apply AllMay.append
    | with_reducible apply AllMay.map
    | exact hw.le rfl
    | with_reducible apply ResKeeps.next
    | with_reducible apply Keeps.each
    | with_reducible apply Keeps.when
    | with_reducible apply Keeps.foldl
    | split
    | intro _ _ _
    | intro _ _
    | intro _
    | with_reducible refine Keeps.of_pair (by with_reducible assumption) ?_
    | with_reducible refine Keeps.of_triple (by with_reducible assumption) ?_
    | dsimp only)

theorem applyRecord_keeps {w₀ : Nat} {s₀ s : State} (hw : Sub 0x434800000003f01010101fe w₀) (r : Rec) (h₀ : Keeps w₀ s₀ s) :
    Keeps w₀ s₀ (applyRecord s r) := by
  unfold applyRecord
  repeat' (first
    | with_reducible assumption
    | with_reducible apply applyPmon_keeps
    | with_reducible apply applyTimebases_keeps
    | with_reducible apply applyServo_keeps
    | with_reducible apply applyBandTable_keeps
    | with_reducible apply applyOutputs_keeps
    | with_reducible apply applyRefsel_keeps
    | with_reducible apply applyPulses_keeps
    | with_reducible apply applyTables_keeps
    | with_reducible apply applyFabric_keeps
    | with_reducible apply applyTransfer_keeps
    | with_reducible apply applyLanes_keeps
    | with_reducible apply applyPorts_keeps
    | with_reducible apply applyCalibration_keeps
    | with_reducible apply applyProtection_keeps
    | with_reducible apply applyFaultPolicy_keeps
    | with_reducible apply applyPower_keeps
    | with_reducible apply applySecurity_keeps
    | with_reducible apply applyHost_keeps
    | exact hw.le rfl
    | with_reducible apply ResKeeps.next
    | with_reducible apply Keeps.each
    | with_reducible apply Keeps.when
    | with_reducible apply Keeps.foldl
    | split
    | intro _ _ _
    | intro _ _
    | intro _
    | with_reducible refine Keeps.of_pair (by with_reducible assumption) ?_
    | with_reducible refine Keeps.of_triple (by with_reducible assumption) ?_
    | dsimp only)

theorem State.regwrite_keeps {w₀ : Nat} {s₀ s : State} (hw : Sub 0x7fffd76ffffffffffffffff w₀) (a : Nat) (m : Nat) (x : Nat) (h₀ : Keeps w₀ s₀ s) :
    Keeps w₀ s₀ (State.regwrite s a m x) := by
  unfold State.regwrite
  repeat' (first
    | with_reducible assumption
    | with_reducible apply Keeps.wr
    | with_reducible apply State.ownBands_keeps
    | with_reducible apply State.writeReg_keeps
    | exact hw.le rfl
    | with_reducible exact may_any (hw.le rfl) _
    | with_reducible apply ResKeeps.next
    | with_reducible apply Keeps.each
    | with_reducible apply Keeps.when
    | with_reducible apply Keeps.foldl
    | split
    | intro _ _ _
    | intro _ _
    | intro _
    | with_reducible refine Keeps.of_pair (by with_reducible assumption) ?_
    | with_reducible refine Keeps.of_triple (by with_reducible assumption) ?_
    | dsimp only)

theorem applyRegwrite_keeps {w₀ : Nat} {s₀ s : State} (hw : Sub 0x7fffd76ffffffffffffffff w₀) (v : List Byte) (h₀ : Keeps w₀ s₀ s) :
    Keeps w₀ s₀ (applyRegwrite v s) := by
  unfold applyRegwrite
  repeat' (first
    | with_reducible assumption
    | with_reducible apply State.regwrite_keeps
    | exact hw.le rfl
    | with_reducible exact may_any (hw.le rfl) _
    | with_reducible apply ResKeeps.next
    | with_reducible apply Keeps.each
    | with_reducible apply Keeps.when
    | with_reducible apply Keeps.foldl
    | split
    | intro _ _ _
    | intro _ _
    | intro _
    | with_reducible refine Keeps.of_pair (by with_reducible assumption) ?_
    | with_reducible refine Keeps.of_triple (by with_reducible assumption) ?_
    | dsimp only)

theorem State.applyImage_keeps {w₀ : Nat} {s₀ s : State} (hw : Sub 0x7fffd76ffffffffffffffff w₀) (l : List Rec) (h₀ : Keeps w₀ s₀ s) :
    Keeps w₀ s₀ (State.applyImage s l) := by
  unfold State.applyImage
  repeat' (first
    | with_reducible assumption
    | with_reducible apply applyTablesDefault_keeps
    | with_reducible apply applyHostDefault_keeps
    | with_reducible apply applyPlan_keeps
    | with_reducible apply applyRecord_keeps
    | with_reducible apply applyRegwrite_keeps
    | exact hw.le rfl
    | with_reducible exact may_any (hw.le rfl) _
    | with_reducible apply ResKeeps.next
    | with_reducible apply Keeps.each
    | with_reducible apply Keeps.when
    | with_reducible apply Keeps.foldl
    | split
    | intro _ _ _
    | intro _ _
    | intro _
    | with_reducible refine Keeps.of_pair (by with_reducible assumption) ?_
    | with_reducible refine Keeps.of_triple (by with_reducible assumption) ?_
    | dsimp only)

theorem State.applyStart_keeps {w₀ : Nat} {s₀ s : State} (hw : Sub 0x81e002800011010000003c w₀) (h₀ : Keeps w₀ s₀ s) :
    Keeps w₀ s₀ (State.applyStart s) := by
  unfold State.applyStart
  repeat' (first
    | with_reducible assumption
    | with_reducible apply Keeps.wr
    | with_reducible apply State.setUnit_keeps
    | with_reducible apply State.unitStart_keeps
    | with_reducible apply State.tkEnable_keeps
    | with_reducible apply State.rootBwApply_keeps
    | with_reducible apply State.refselStart_keeps
    | with_reducible apply State.reserve_keeps
    | with_reducible apply State.ttStart_keeps
    | with_reducible exact Reg.pwrStatusSwReq_may hw rfl
    | with_reducible exact Reg.refselOutQlRank_may hw rfl
    | with_reducible exact Reg.tkStatusActive_may hw rfl
    | exact hw.le rfl
    | with_reducible apply ResKeeps.next
    | with_reducible apply Keeps.each
    | with_reducible apply Keeps.when
    | with_reducible apply Keeps.foldl
    | split
    | intro _ _ _
    | intro _ _
    | intro _
    | with_reducible refine Keeps.of_pair (by with_reducible assumption) ?_
    | with_reducible refine Keeps.of_triple (by with_reducible assumption) ?_
    | dsimp only)

theorem execApplyDone_keeps {w₀ : Nat} {s₀ s : State} (hw : Sub 0x7fffd76ffffffffffffffff w₀) (h₀ : Keeps w₀ s₀ s) :
    ResKeeps w₀ s₀ (execApplyDone s) := by
  unfold execApplyDone
  repeat' (first
    | with_reducible assumption
    | with_reducible apply Keeps.wr
    | with_reducible apply State.standbyTkStart_keeps
    | with_reducible apply State.bootRamps_keeps
    | with_reducible apply State.bootRecord_keeps
    | with_reducible apply State.applyImage_keeps
    | with_reducible apply State.applyStart_keeps
    | with_reducible exact Reg.devBootPhase_may hw rfl
    | with_reducible exact Reg.devImgSeqSeq_may hw rfl
    | (simp only [Keeps.mk_eq]; with_reducible apply KeepsMk.upd)
    | exact hw.le rfl
    | exact Or.inl (hw.bit rfl)
    | with_reducible exact Or.inr rfl
    | with_reducible exact may_any (hw.le rfl) _
    | with_reducible apply ResKeeps.next
    | with_reducible apply Keeps.each
    | with_reducible apply Keeps.when
    | with_reducible apply Keeps.foldl
    | split
    | intro _ _ _
    | intro _ _
    | intro _
    | with_reducible refine Keeps.of_pair (by with_reducible assumption) ?_
    | with_reducible refine Keeps.of_triple (by with_reducible assumption) ?_
    | dsimp only)

theorem State.lanesPhase_keeps {w₀ : Nat} {s₀ s : State} (hw : Sub 0x7fff946ffffffffffffffff w₀) (h₀ : Keeps w₀ s₀ s) :
    Keeps w₀ s₀ (State.lanesPhase s) := by
  unfold State.lanesPhase
  repeat' (first
    | with_reducible assumption
    | with_reducible apply Keeps.wr
    | with_reducible apply State.bootRamps_keeps
    | with_reducible exact Reg.devBootPhase_may hw rfl
    | exact hw.le rfl
    | with_reducible exact may_any (hw.le rfl) _
    | with_reducible apply ResKeeps.next
    | with_reducible apply Keeps.each
    | with_reducible apply Keeps.when
    | with_reducible apply Keeps.foldl
    | split
    | intro _ _ _
    | intro _ _
    | intro _
    | with_reducible refine Keeps.of_pair (by with_reducible assumption) ?_
    | with_reducible refine Keeps.of_triple (by with_reducible assumption) ?_
    | dsimp only)

theorem execShaftTrackDone_keeps {w₀ : Nat} {s₀ s : State} (hw : Sub 0x7fff946ffffffffffffffff w₀) (h₀ : Keeps w₀ s₀ s) :
    ResKeeps w₀ s₀ (execShaftTrackDone s) := by
  unfold execShaftTrackDone
  repeat' (first
    | with_reducible assumption
    | with_reducible apply State.lanesPhase_keeps
    | exact hw.le rfl
    | with_reducible exact may_any (hw.le rfl) _
    | with_reducible apply ResKeeps.next
    | with_reducible apply Keeps.each
    | with_reducible apply Keeps.when
    | with_reducible apply Keeps.foldl
    | split
    | intro _ _ _
    | intro _ _
    | intro _
    | with_reducible refine Keeps.of_pair (by with_reducible assumption) ?_
    | with_reducible refine Keeps.of_triple (by with_reducible assumption) ?_
    | dsimp only)

theorem execShaftTimeout_keeps {w₀ : Nat} {s₀ s : State} (hw : Sub 0x7fff946ffffffffffffffff w₀) (h₀ : Keeps w₀ s₀ s) :
    ResKeeps w₀ s₀ (execShaftTimeout s) := by
  unfold execShaftTimeout
  repeat' (first
    | with_reducible assumption
    | with_reducible apply State.lanesPhase_keeps
    | exact hw.le rfl
    | with_reducible exact may_any (hw.le rfl) _
    | with_reducible apply ResKeeps.next
    | with_reducible apply Keeps.each
    | with_reducible apply Keeps.when
    | with_reducible apply Keeps.foldl
    | split
    | intro _ _ _
    | intro _ _
    | intro _
    | with_reducible refine Keeps.of_pair (by with_reducible assumption) ?_
    | with_reducible refine Keeps.of_triple (by with_reducible assumption) ?_
    | dsimp only)

theorem execQuadEnableTick_keeps {w₀ : Nat} {s₀ s : State} (hw : Sub 0x400000000000000000 w₀) (h₀ : Keeps w₀ s₀ s) :
    ResKeeps w₀ s₀ (execQuadEnableTick s) := by
  unfold execQuadEnableTick
  repeat' (first
    | with_reducible assumption
    | (simp only [Keeps.mk_eq]; with_reducible apply KeepsMk.upd)
    | exact hw.le rfl
    | exact Or.inl (hw.bit rfl)
    | with_reducible exact Or.inr rfl
    | with_reducible apply ResKeeps.next
    | with_reducible apply Keeps.each
    | with_reducible apply Keeps.when
    | with_reducible apply Keeps.foldl
    | split
    | intro _ _ _
    | intro _ _
    | intro _
    | with_reducible refine Keeps.of_pair (by with_reducible assumption) ?_
    | with_reducible refine Keeps.of_triple (by with_reducible assumption) ?_
    | dsimp only)

theorem execQuadLockTimeout_keeps {w₀ : Nat} {s₀ s : State} (hw : Sub 0x10400000000000000000 w₀) (quad : Fin 32) (h₀ : Keeps w₀ s₀ s) :
    ResKeeps w₀ s₀ (execQuadLockTimeout quad s) := by
  unfold execQuadLockTimeout
  repeat' (first
    | with_reducible assumption
    | with_reducible apply State.report_keeps
    | (simp only [Keeps.mk_eq]; with_reducible apply KeepsMk.upd)
    | exact hw.le rfl
    | exact Or.inl (hw.bit rfl)
    | with_reducible exact Or.inr rfl
    | with_reducible apply ResKeeps.next
    | with_reducible apply Keeps.each
    | with_reducible apply Keeps.when
    | with_reducible apply Keeps.foldl
    | split
    | intro _ _ _
    | intro _ _
    | intro _
    | with_reducible refine Keeps.of_pair (by with_reducible assumption) ?_
    | with_reducible refine Keeps.of_triple (by with_reducible assumption) ?_
    | dsimp only)

theorem execLanesDone_keeps {w₀ : Nat} {s₀ s : State} (hw : Sub 0x7fff946ffffffffffffffff w₀) (calActive : Bool) (offPpb : Int) (h₀ : Keeps w₀ s₀ s) :
    ResKeeps w₀ s₀ (execLanesDone calActive offPpb s) := by
  unfold execLanesDone
  repeat' (first
    | with_reducible assumption
    | with_reducible apply Keeps.wr
    | with_reducible apply State.calTrigger_keeps
    | with_reducible apply State.calNominal_keeps
    | with_reducible apply State.calTbSync_keeps
    | with_reducible apply State.calSettle_keeps
    | with_reducible exact Reg.devBootPhase_may hw rfl
    | (simp only [Keeps.mk_eq]; with_reducible apply KeepsMk.upd)
    | exact hw.le rfl
    | exact Or.inl (hw.bit rfl)
    | with_reducible exact Or.inr rfl
    | with_reducible exact may_any (hw.le rfl) _
    | with_reducible apply ResKeeps.next
    | with_reducible apply Keeps.each
    | with_reducible apply Keeps.when
    | with_reducible apply Keeps.foldl
    | split
    | intro _ _ _
    | intro _ _
    | intro _
    | with_reducible refine Keeps.of_pair (by with_reducible assumption) ?_
    | with_reducible refine Keeps.of_triple (by with_reducible assumption) ?_
    | dsimp only)

theorem execK14LateCheck_keeps {w₀ : Nat} {s₀ s : State} (hw : Sub 0x10400000000000000000 w₀) (h₀ : Keeps w₀ s₀ s) :
    ResKeeps w₀ s₀ (execK14LateCheck s) := by
  unfold execK14LateCheck
  repeat' (first
    | with_reducible assumption
    | with_reducible apply State.report_keeps
    | (simp only [Keeps.mk_eq]; with_reducible apply KeepsMk.upd)
    | exact hw.le rfl
    | exact Or.inl (hw.bit rfl)
    | with_reducible exact Or.inr rfl
    | with_reducible apply ResKeeps.next
    | with_reducible apply Keeps.each
    | with_reducible apply Keeps.when
    | with_reducible apply Keeps.foldl
    | split
    | intro _ _ _
    | intro _ _
    | intro _
    | with_reducible refine Keeps.of_pair (by with_reducible assumption) ?_
    | with_reducible refine Keeps.of_triple (by with_reducible assumption) ?_
    | dsimp only)

end Sys2Proof.Machine
end

