-- ==== Sys2Proof/Laws/KeepEgress.lean ====
section
/-! SUPPORT. What the operations of Machine/Egress.lean keep. -/

set_option linter.all false
set_option Elab.async false

namespace Sys2Proof.Machine

theorem State.startHead_keeps {w₀ : Nat} {s₀ s : State} (hw : Sub 0x15000000000040100000000 w₀) (e : Nat) (c : Nat) (raw : Nat) (fill : Nat) (h₀ : Keeps w₀ s₀ s) :
    Keeps w₀ s₀ (State.startHead s e c raw fill) := by
  unfold State.startHead
  repeat' (first
    | with_reducible assumption
    | with_reducible apply State.setQueue_keeps
    | with_reducible apply State.startCopy_keeps
    | exact hw.le rfl
    | with_reducible apply ResKeeps.next
    | with_reducible apply Keeps.each
    | with_reducible apply Keeps.when
    | with_reducible apply Keeps.foldl
    | split
    | intro _ _ _
    | intro _ _
    | intro _
    | with_reducible refine Keeps.of_pair (by with_reducible assumption) ?_
    | with_reducible refine Keeps.of_triple (by with_reducible assumption) ?_
    | dsimp only)

theorem execEgressFrameStart_keeps {w₀ : Nat} {s₀ s : State} (hw : Sub 0x37020020000240100010000 w₀) (egress : Fin 128) (raw : Nat) (fill : Nat) (h₀ : Keeps w₀ s₀ s) :
    ResKeeps w₀ s₀ (execEgressFrameStart egress raw fill s) := by
  unfold execEgressFrameStart
  repeat' (first
    | with_reducible assumption
    | with_reducible apply State.pickClass_keeps
    | with_reducible apply State.purgeHeads_keeps
    | with_reducible apply State.ownSend_keeps
    | with_reducible apply State.startHead_keeps
    | exact hw.le rfl
    | with_reducible apply ResKeeps.next
    | with_reducible apply Keeps.each
    | with_reducible apply Keeps.when
    | with_reducible apply Keeps.foldl
    | split
    | intro _ _ _
    | intro _ _
    | intro _
    | with_reducible refine Keeps.of_pair (by with_reducible assumption) ?_
    | with_reducible refine Keeps.of_triple (by with_reducible assumption) ?_
    | dsimp only)

theorem execFlfDeparture_keeps {w₀ : Nat} {s₀ s : State} (hw : Sub 0x37020020000240100010000 w₀) (egress : Fin 128) (_raw : Nat) (fill : Nat) (h₀ : Keeps w₀ s₀ s) :
    ResKeeps w₀ s₀ (execFlfDeparture egress _raw fill s) := by
  unfold execFlfDeparture
  repeat' (first
    | with_reducible assumption
    | with_reducible apply State.bump_keeps
    | with_reducible apply State.ev_keeps
    | with_reducible apply State.setFrame_keeps
    | with_reducible apply State.reseq_keeps
    | with_reducible apply State.reseqArrive_keeps
    | with_reducible apply State.windowFull_keeps
    | with_reducible apply State.startCopy_keeps
    | with_reducible apply State.ownSend_keeps
    | with_reducible exact Reg.fabCntFlfFrames_may hw rfl
    | with_reducible exact Reg.fabCntFlfMiss_may hw rfl
    | (simp only [Keeps.mk_eq]; with_reducible apply KeepsMk.upd)
    | exact hw.le rfl
    | exact Or.inl (hw.bit rfl)
    | with_reducible exact Or.inr rfl
    | with_reducible apply ResKeeps.next
    | with_reducible apply Keeps.each
    | with_reducible apply Keeps.when
    | with_reducible apply Keeps.foldl
    | split
    | intro _ _ _
    | intro _ _
    | intro _
    | with_reducible refine Keeps.of_pair (by with_reducible assumption) ?_
    | with_reducible refine Keeps.of_triple (by with_reducible assumption) ?_
    | dsimp only
    | with_reducible refine State.refuseCopy_keeps (w₀ := w₀) ?_ (by with_reducible assumption) ?_)

theorem execEgressFrameEnd_keeps {w₀ : Nat} {s₀ s : State} (hw : Sub 0x378b0028000040100010040 w₀) (egress : Fin 128) (h₀ : Keeps w₀ s₀ s) :
    ResKeeps w₀ s₀ (execEgressFrameEnd egress s) := by
  unfold execEgressFrameEnd
  repeat' (first
    | with_reducible assumption
    | with_reducible apply Keeps.wr
    | with_reducible apply State.bump_keeps
    | with_reducible apply Keeps.bump48
    | with_reducible apply State.send_keeps
    | with_reducible apply State.report_keeps
    | with_reducible apply State.ev_keeps
    | with_reducible apply State.fixedTx_keeps
    | with_reducible apply State.bwAdd_keeps
    | with_reducible apply State.txqPush_keeps
    | with_reducible apply State.setFrame_keeps
    | with_reducible apply State.dropCopy_keeps
    | with_reducible apply State.streamTo_keeps
    | with_reducible apply State.ownSend_keeps
    | with_reducible exact Reg.fabCntStomps_may hw rfl
    | with_reducible exact Reg.fabCntUnderrun_may hw rfl
    | with_reducible exact Reg.portErrTcSat_may hw rfl
    | with_reducible exact Reg.portStompsLoCount_mayc hw rfl
    | with_reducible exact Reg.portTcSatLoCount_mayc hw rfl
    | with_reducible exact Reg.portTxBytesLoCount_mayc hw rfl
    | with_reducible exact Reg.portTxFramesLoCount_mayc hw rfl
    | with_reducible exact Reg.portTxOversizeLoCount_mayc hw rfl
    | (simp only [Keeps.mk_eq]; with_reducible apply KeepsMk.upd)
    | exact hw.le rfl
    | exact Or.inl (hw.bit rfl)
    | with_reducible exact Or.inr rfl
    | with_reducible apply ResKeeps.next
    | with_reducible apply Keeps.each
    | with_reducible apply Keeps.when
    | with_reducible apply Keeps.foldl
    | split
    | intro _ _ _
    | intro _ _
    | intro _
    | with_reducible refine Keeps.of_pair (by with_reducible assumption) ?_
    | with_reducible refine Keeps.of_triple (by with_reducible assumption) ?_
    | dsimp only)

end Sys2Proof.Machine
end

