-- ==== Sys2Proof/Laws/PerInstr.lean ====
section
/-! SUPPORT. For every command: no word spells it (the table of this block gives its rows no bits). -/
set_option Elab.async false
namespace Sys2Proof.Laws.Unspelled

/-- No word of any length spells command `i`. -/
def Statement (i : Instr) : Prop := ∀ nbits w : Nat, decodeTableWord nbits w ≠ some i

/-- Nothing is spelled by a word. -/
theorem none_spelled (i : Instr) : Statement i := fun _ _ h => nomatch h

theorem resetNAssert (widthNs : Nat) : Statement (.resetNAssert widthNs) := none_spelled _
theorem vddAonDetect (supplies : Nat × Nat) : Statement (.vddAonDetect supplies) := none_spelled _
theorem resetNRelease : Statement .resetNRelease := none_spelled _
theorem xoWindowEnd (count : Nat) : Statement (.xoWindowEnd count) := none_spelled _
theorem startupRootLocked (root : Fin 2) : Statement (.startupRootLocked root) := none_spelled _
theorem rootALockTimeout : Statement .rootALockTimeout := none_spelled _
theorem rootBLockTimeout : Statement .rootBLockTimeout := none_spelled _
theorem wipeDone : Statement .wipeDone := none_spelled _
theorem imageReadDone (probe : FlashProbe) (bytes : List Byte) : Statement (.imageReadDone probe bytes) := none_spelled _
theorem signatureVerifyDone : Statement .signatureVerifyDone := none_spelled _
theorem applyDone : Statement .applyDone := none_spelled _
theorem shaftTrackDone : Statement .shaftTrackDone := none_spelled _
theorem shaftTimeout : Statement .shaftTimeout := none_spelled _
theorem quadEnableTick : Statement .quadEnableTick := none_spelled _
theorem quadLockTimeout (quad : Fin 32) : Statement (.quadLockTimeout quad) := none_spelled _
theorem lanesDone (calActive : Bool) (offPpb : Int) : Statement (.lanesDone calActive offPpb) := none_spelled _
theorem floorRaiseDone (readBack : Bool) : Statement (.floorRaiseDone readBack) := none_spelled _
theorem k14LateCheck : Statement .k14LateCheck := none_spelled _
theorem journalWriteDone (verified : Bool) : Statement (.journalWriteDone verified) := none_spelled _
theorem jrnlIdxWrite (value : Word) : Statement (.jrnlIdxWrite value) := none_spelled _
theorem nvmCmdGo (value : Word) : Statement (.nvmCmdGo value) := none_spelled _
theorem nvmCmdDone (data : List Byte) : Statement (.nvmCmdDone data) := none_spelled _
theorem resetKeyWrite (value : Word) : Statement (.resetKeyWrite value) := none_spelled _
theorem resetArmExpire : Statement .resetArmExpire := none_spelled _
theorem resetCmdFull : Statement .resetCmdFull := none_spelled _
theorem resetCmdHostView : Statement .resetCmdHostView := none_spelled _
theorem resetCmdRefused (action : Fin 4) : Statement (.resetCmdRefused action) := none_spelled _
theorem pcieFlr : Statement .pcieFlr := none_spelled _
theorem pcieHotReset (perst : Bool) : Statement (.pcieHotReset perst) := none_spelled _
theorem hvResetDone : Statement .hvResetDone := none_spelled _
theorem perstNRelease : Statement .perstNRelease := none_spelled _
theorem fmeterStart (value : Word) : Statement (.fmeterStart value) := none_spelled _
theorem fmeterWindowEnd (count : Nat) : Statement (.fmeterWindowEnd count) := none_spelled _
theorem refmonSecond (f1s : List Int) (active : List Bool) (dcoMean : Int) (step : Int) : Statement (.refmonSecond f1s active dcoMean step) := none_spelled _
theorem refinLosTimeout (cand : Fin 8) : Statement (.refinLosTimeout cand) := none_spelled _
theorem refinPpsEdge (pair : Fin 4) (cyclesOk : Bool) (taps : Fin 64 × Fin 32) : Statement (.refinPpsEdge pair cyclesOk taps) := none_spelled _
theorem ppsEdgeTimeout (pair : Fin 4) : Statement (.ppsEdgeTimeout pair) := none_spelled _
theorem esmcAgeTimeout (port : Fin 128) : Statement (.esmcAgeTimeout port) := none_spelled _
theorem acqFailTimeout : Statement .acqFailTimeout := none_spelled _
theorem selAcquireLock : Statement .selAcquireLock := none_spelled _
theorem selDecideExpire (step : Int) : Statement (.selDecideExpire step) := none_spelled _
theorem selSettleEnd (inWin : Bool) : Statement (.selSettleEnd inWin) := none_spelled _
theorem selHoldoverLimit : Statement .selHoldoverLimit := none_spelled _
theorem esmcInfoTick : Statement .esmcInfoTick := none_spelled _
theorem esmcEventPdu : Statement .esmcEventPdu := none_spelled _
theorem rootDcoUpdate (root : Fin 2) (target : Int) (locked : Bool) : Statement (.rootDcoUpdate root target locked) := none_spelled _
theorem rootRelockDone (root : Fin 2) : Statement (.rootRelockDone root) := none_spelled _
theorem rootBandWindow (root : Fin 2) (offPpb : Int) : Statement (.rootBandWindow root offPpb) := none_spelled _
theorem standbyTrackMeasure (diff : Int) : Statement (.standbyTrackMeasure diff) := none_spelled _
theorem tlCompare (os : Fin 4) (err : Int) (frac : Fin 1099511627776) : Statement (.tlCompare os err frac) := none_spelled _
theorem tlAlignInstant (os : Fin 4) : Statement (.tlAlignInstant os) := none_spelled _
theorem tlOutputStart (os : Fin 4) : Statement (.tlOutputStart os) := none_spelled _
theorem synthLockLoss (os : Fin 4) : Statement (.synthLockLoss os) := none_spelled _
theorem ckoOeHostWrite (n : Fin 12) (value : Bool) : Statement (.ckoOeHostWrite n value) := none_spelled _
theorem syncInEdge (rising : Bool) : Statement (.syncInEdge rising) := none_spelled _
theorem syncRestart : Statement .syncRestart := none_spelled _
theorem superblockTransmit (lane : Fin 128) (cycle : Nat) (bitPos : Nat) (resEmpty : Nat) : Statement (.superblockTransmit lane cycle bitPos resEmpty) := none_spelled _
theorem superblockReceived (lane : Fin 128) (bits : List Bool) (cycle : Nat) (bitPos : Nat) (edges : Nat × Nat) : Statement (.superblockReceived lane bits cycle bitPos edges) := none_spelled _
theorem timingFrameReceived (lane : Fin 128) (frame : List Byte) : Statement (.timingFrameReceived lane frame) := none_spelled _
theorem leatFrameReceived (lane : Fin 128) (tc : Fin 8) (flen : Fin 16384) (bytes : List Byte) (good : Bool) (raw : Nat) (head : Bool) : Statement (.leatFrameReceived lane tc flen bytes good raw head) := none_spelled _
theorem laneDownWait (lane : Fin 128) : Statement (.laneDownWait lane) := none_spelled _
theorem detectBurstTimer (lane : Fin 128) : Statement (.detectBurstTimer lane) := none_spelled _
theorem laneEnergyDetect (lane : Fin 128) : Statement (.laneEnergyDetect lane) := none_spelled _
theorem laneCdrLocked (lane : Fin 128) : Statement (.laneCdrLocked lane) := none_spelled _
theorem laneTrainTimeout (lane : Fin 128) : Statement (.laneTrainTimeout lane) := none_spelled _
theorem alignPositionWatch (lane : Fin 128) (matched : Bool) (next3 : Bool) (msn : Fin 100) : Statement (.alignPositionWatch lane matched next3 msn) := none_spelled _
theorem laneVerifyTimeout (lane : Fin 128) : Statement (.laneVerifyTimeout lane) := none_spelled _
theorem laneBackoffExpire (lane : Fin 128) : Statement (.laneBackoffExpire lane) := none_spelled _
theorem laneUpStable (lane : Fin 128) : Statement (.laneUpStable lane) := none_spelled _
theorem laneLosSignal (lane : Fin 128) : Statement (.laneLosSignal lane) := none_spelled _
theorem laneLosTimeout (lane : Fin 128) : Statement (.laneLosTimeout lane) := none_spelled _
theorem quadPllUnlock (quad : Fin 32) : Statement (.quadPllUnlock quad) := none_spelled _
theorem quadPllLock (quad : Fin 32) : Statement (.quadPllLock quad) := none_spelled _
theorem laneManNop (lane : Fin 128) : Statement (.laneManNop lane) := none_spelled _
theorem laneHold (lane : Fin 128) (gen : Fin 65536) : Statement (.laneHold lane gen) := none_spelled _
theorem laneRelease (lane : Fin 128) (gen : Fin 65536) : Statement (.laneRelease lane gen) := none_spelled _
theorem laneManualTrain (lane : Fin 128) (gen : Fin 65536) : Statement (.laneManualTrain lane gen) := none_spelled _
theorem laneSlip (lane : Fin 128) (gen : Fin 65536) : Statement (.laneSlip lane gen) := none_spelled _
theorem laneAccept (lane : Fin 128) (gen : Fin 65536) : Statement (.laneAccept lane gen) := none_spelled _
theorem laneManReserved (lane : Fin 128) (gen : Fin 65536) : Statement (.laneManReserved lane gen) := none_spelled _
theorem quietEntry (lane : Fin 128) : Statement (.quietEntry lane) := none_spelled _
theorem quietExitRequest (lane : Fin 128) : Statement (.quietExitRequest lane) := none_spelled _
theorem quietBurstStart (lane : Fin 128) : Statement (.quietBurstStart lane) := none_spelled _
theorem quietWakeTimer (lane : Fin 128) : Statement (.quietWakeTimer lane) := none_spelled _
theorem laneHealthWindow (lane : Fin 128) : Statement (.laneHealthWindow lane) := none_spelled _
theorem prbsClear (lane : Fin 128) : Statement (.prbsClear lane) := none_spelled _
theorem ethFrameReceived (port : Fin 128) (bytes : List Byte) (err : Bool) (raw : Nat) (head : Bool) (fecCorr : Nat) (fecBad : Nat) : Statement (.ethFrameReceived port bytes err raw head fecCorr fecBad) := none_spelled _
theorem pfcFrameReceived (port : Fin 128) (bytes : List Byte) : Statement (.pfcFrameReceived port bytes) := none_spelled _
theorem pfcPauseExpire (port : Fin 128) (tc : Fin 8) : Statement (.pfcPauseExpire port tc) := none_spelled _
theorem pfcFrameSend (port : Fin 128) : Statement (.pfcFrameSend port) := none_spelled _
theorem pfcRepeatTimer (port : Fin 128) : Statement (.pfcRepeatTimer port) := none_spelled _
theorem esmcPduReceived (port : Fin 128) (bytes : List Byte) : Statement (.esmcPduReceived port bytes) := none_spelled _
theorem portLockAchieved (port : Fin 128) : Statement (.portLockAchieved port) := none_spelled _
theorem portLockTimeout (port : Fin 128) : Statement (.portLockTimeout port) := none_spelled _
theorem portRemoteFaultRx (port : Fin 128) : Statement (.portRemoteFaultRx port) := none_spelled _
theorem portRemoteFaultClear (port : Fin 128) : Statement (.portRemoteFaultClear port) := none_spelled _
theorem portLockLoss (port : Fin 128) (hiBer : Bool) : Statement (.portLockLoss port hiBer) := none_spelled _
theorem tbSampleDeferred (n : Fin 8) : Statement (.tbSampleDeferred n) := none_spelled _
theorem tbSampleTimeout (n : Fin 8) : Statement (.tbSampleTimeout n) := none_spelled _
theorem tbSlewComplete (n : Fin 8) : Statement (.tbSlewComplete n) := none_spelled _
theorem tbFeedNop (n : Fin 8) : Statement (.tbFeedNop n) := none_spelled _
theorem tbFeedOffset (n : Fin 8) (gen : Fin 65536) : Statement (.tbFeedOffset n gen) := none_spelled _
theorem tbFeedSet (n : Fin 8) (gen : Fin 65536) : Statement (.tbFeedSet n gen) := none_spelled _
theorem tbFeedReserved (n : Fin 8) (gen : Fin 65536) : Statement (.tbFeedReserved n gen) := none_spelled _
theorem tbRampTick (k : Fin 4) : Statement (.tbRampTick k) := none_spelled _
theorem xcSlot (wire : Option (List (Fin 320))) : Statement (.xcSlot wire) := none_spelled _
theorem standbyTkLoadDone : Statement .standbyTkLoadDone := none_spelled _
theorem tbNowRead (n : Fin 8) (path : Fin 3) : Statement (.tbNowRead n path) := none_spelled _
theorem tbOffRead (n : Fin 8) (path : Fin 3) : Statement (.tbOffRead n path) := none_spelled _
theorem counterLoRead (read : HostRead) (path : Fin 3) : Statement (.counterLoRead read path) := none_spelled _
theorem ttBeatPeriod (lane : Fin 128) (beats : List Nat × List Nat) : Statement (.ttBeatPeriod lane beats) := none_spelled _
theorem ttLockWindowDone (lane : Fin 128) : Statement (.ttLockWindowDone lane) := none_spelled _
theorem ttExchangeInterval (lane : Fin 128) : Statement (.ttExchangeInterval lane) := none_spelled _
theorem ttPairFormed (lane : Fin 128) : Statement (.ttPairFormed lane) := none_spelled _
theorem ttPairTimeout (lane : Fin 128) : Statement (.ttPairTimeout lane) := none_spelled _
theorem ttHealthTimeout (lane : Fin 128) : Statement (.ttHealthTimeout lane) := none_spelled _
theorem pgCmdNop (pg : Fin 16) : Statement (.pgCmdNop pg) := none_spelled _
theorem pgArm (pg : Fin 16) (gen : Fin 65536) : Statement (.pgArm pg gen) := none_spelled _
theorem pgDisarm (pg : Fin 16) (gen : Fin 65536) : Statement (.pgDisarm pg gen) := none_spelled _
theorem pgCmdReserved (pg : Fin 16) (gen : Fin 65536) : Statement (.pgCmdReserved pg gen) := none_spelled _
theorem pgEdge (pg : Fin 16) (rising : Bool) : Statement (.pgEdge pg rising) := none_spelled _
theorem evtInEdge (input : Fin 16) (rising : Bool) (pop : Bool) (coarse : Fin 64) (fine : Fin 32) : Statement (.evtInEdge input rising pop coarse fine) := none_spelled _
theorem queueEntryRead (capture : Bool) (n : Fin 128) (path : Fin 3) : Statement (.queueEntryRead capture n path) := none_spelled _
theorem txqPop (n : Fin 128) : Statement (.txqPop n) := none_spelled _
theorem capPop (n : Fin 16) : Statement (.capPop n) := none_spelled _
theorem tempSensorRead (readings : List Int) : Statement (.tempSensorRead readings) := none_spelled _
theorem calPeriodTimer : Statement .calPeriodTimer := none_spelled _
theorem calRetryDue : Statement .calRetryDue := none_spelled _
theorem calPrecheckDone : Statement .calPrecheckDone := none_spelled _
theorem calScaleDone (values : List (Nat × Int)) : Statement (.calScaleDone values) := none_spelled _
theorem calLoopDone (values : List (Nat × Int)) : Statement (.calLoopDone values) := none_spelled _
theorem calPointsDone (values : List (Nat × Int)) : Statement (.calPointsDone values) := none_spelled _
theorem calOutputsDone (values : List (Nat × Int)) : Statement (.calOutputsDone values) := none_spelled _
theorem calComputeDone : Statement .calComputeDone := none_spelled _
theorem calCommit : Statement .calCommit := none_spelled _
theorem calTapWalkStep : Statement .calTapWalkStep := none_spelled _
theorem calRefClkLoss : Statement .calRefClkLoss := none_spelled _
theorem calClkFreqWindow (offPpb : Int) : Statement (.calClkFreqWindow offPpb) := none_spelled _
theorem calRefPpsEdge (devPs : Int) (offset : Nat) : Statement (.calRefPpsEdge devPs offset) := none_spelled _
theorem calPpsMissing : Statement .calPpsMissing := none_spelled _
theorem calCmdNop : Statement .calCmdNop := none_spelled _
theorem calRun (gen : Fin 65536) : Statement (.calRun gen) := none_spelled _
theorem calRestore (gen : Fin 65536) : Statement (.calRestore gen) := none_spelled _
theorem calCmdReserved (gen : Fin 65536) : Statement (.calCmdReserved gen) := none_spelled _
theorem lookupFirstPass (pipe : Fin 4) (collide : Bool) (recirc : Bool) (parity : List (Nat × Nat)) : Statement (.lookupFirstPass pipe collide recirc parity) := none_spelled _
theorem lookupLaterPass (pipe : Fin 4) (recirc : Bool) (parity : List (Nat × Nat)) : Statement (.lookupLaterPass pipe recirc parity) := none_spelled _
theorem ageClockTick : Statement .ageClockTick := none_spelled _
theorem agerVisit (parity : List (Nat × Nat)) : Statement (.agerVisit parity) := none_spelled _
theorem shadowAuditStep (ecc : Fin 3) (parity : List (Nat × Nat)) : Statement (.shadowAuditStep ecc parity) := none_spelled _
theorem camEntryExpire : Statement .camEntryExpire := none_spelled _
theorem tcqNop : Statement .tcqNop := none_spelled _
theorem tcqInsert : Statement .tcqInsert := none_spelled _
theorem tcqModify : Statement .tcqModify := none_spelled _
theorem tcqDelete : Statement .tcqDelete := none_spelled _
theorem tcqFence : Statement .tcqFence := none_spelled _
theorem tcqReserved : Statement .tcqReserved := none_spelled _
theorem fenceComplete : Statement .fenceComplete := none_spelled _
theorem lnqCtlWrite (run : Bool) : Statement (.lnqCtlWrite run) := none_spelled _
theorem reseqTimeoutRelease (egress : Fin 128) : Statement (.reseqTimeoutRelease egress) := none_spelled _
theorem egressFrameStart (egress : Fin 128) (raw : Nat) (fill : Nat) : Statement (.egressFrameStart egress raw fill) := none_spelled _
theorem egressFrameEnd (egress : Fin 128) : Statement (.egressFrameEnd egress) := none_spelled _
theorem flfDeparture (egress : Fin 128) (raw : Nat) (fill : Nat) : Statement (.flfDeparture egress raw fill) := none_spelled _
theorem unitFailOver (unit : Fin 68) (activeOut : Bool) (standbyOut : Bool) : Statement (.unitFailOver unit activeOut standbyOut) := none_spelled _
theorem heartbeatLost (beat : HbEvent) : Statement (.heartbeatLost beat) := none_spelled _
theorem healthRailFault (unit : Fin 68) : Statement (.healthRailFault unit) := none_spelled _
theorem unitVerified (unit : Fin 68) : Statement (.unitVerified unit) := none_spelled _
theorem unitHoldoffExpire (unit : Fin 68) : Statement (.unitHoldoffExpire unit) := none_spelled _
theorem unitLatchExpire (unit : Fin 68) : Statement (.unitLatchExpire unit) := none_spelled _
theorem unitWtrExpire (unit : Fin 68) : Statement (.unitWtrExpire unit) := none_spelled _
theorem flapWindowExpire (unit : Fin 68) : Statement (.flapWindowExpire unit) := none_spelled _
theorem deferredOrderWithdraw (pair : Fin 32) : Statement (.deferredOrderWithdraw pair) := none_spelled _
theorem redCmdNop : Statement .redCmdNop := none_spelled _
theorem redRelease (unit : Fin 128) (gen : Fin 65536) : Statement (.redRelease unit gen) := none_spelled _
theorem redCmdReserved : Statement .redCmdReserved := none_spelled _
theorem faultEvent (events : List FaultEv) : Statement (.faultEvent events) := none_spelled _
theorem faultRailFault (source : Fin 512) (code : Fin 4 × Bool) : Statement (.faultRailFault source code) := none_spelled _
theorem collectorReactEnd : Statement .collectorReactEnd := none_spelled _
theorem failoverInputRelease (source : Fin 512) : Statement (.failoverInputRelease source) := none_spelled _
theorem fltClear (value : Word) : Statement (.fltClear value) := none_spelled _
theorem fltSrcClr (source : Fin 512) (value : Word) : Statement (.fltSrcClr source value) := none_spelled _
theorem fltInject (value : Word) : Statement (.fltInject value) := none_spelled _
theorem fltInjectEnd : Statement .fltInjectEnd := none_spelled _
theorem pmonCntCfgWrite (counter : Fin 48) (value : Word) : Statement (.pmonCntCfgWrite counter value) := none_spelled _
theorem pmonCntClear (counter : Fin 48) : Statement (.pmonCntClear counter) := none_spelled _
theorem gleanCtlWrite (value : Word) : Statement (.gleanCtlWrite value) := none_spelled _
theorem gleanRecordWrite : Statement .gleanRecordWrite := none_spelled _
theorem bwWindowClose : Statement .bwWindowClose := none_spelled _
theorem bwCfgWrite (value : Word) : Statement (.bwCfgWrite value) := none_spelled _
theorem secCmdNone (viaJtag : Bool) : Statement (.secCmdNone viaJtag) := none_spelled _
theorem secGetNonce (viaJtag : Bool) (random : BitVec 256) : Statement (.secGetNonce viaJtag random) := none_spelled _
theorem secSubmit (viaJtag : Bool) : Statement (.secSubmit viaJtag) := none_spelled _
theorem secSet (viaJtag : Bool) (level : Fin 4) : Statement (.secSet viaJtag level) := none_spelled _
theorem secDisarm (viaJtag : Bool) : Statement (.secDisarm viaJtag) := none_spelled _
theorem secRelease (viaJtag : Bool) : Statement (.secRelease viaJtag) := none_spelled _
theorem secCmdReserved (viaJtag : Bool) (code : Nat) : Statement (.secCmdReserved viaJtag code) := none_spelled _
theorem mailboxForeignWrite (viaJtag : Bool) (addr : Nat) (value : Word) : Statement (.mailboxForeignWrite viaJtag addr value) := none_spelled _
theorem reqLifecycle : Statement .reqLifecycle := none_spelled _
theorem reqDebug : Statement .reqDebug := none_spelled _
theorem reqKeyAdd (readBack : Bool) : Statement (.reqKeyAdd readBack) := none_spelled _
theorem reqKeyRevoke (readBack : Bool) : Statement (.reqKeyRevoke readBack) := none_spelled _
theorem lcFuseBlowDone (readBack : Bool) : Statement (.lcFuseBlowDone readBack) := none_spelled _
theorem jtagBypass (tdi : List Bool) : Statement (.jtagBypass tdi) := none_spelled _
theorem jtagSecAccess (write : Bool) (addr : Nat) (value : Word) : Statement (.jtagSecAccess write addr value) := none_spelled _
theorem jtagRegRead (addr : Nat) : Statement (.jtagRegRead addr) := none_spelled _
theorem jtagRegWrite (addr : Nat) (value : Word) : Statement (.jtagRegWrite addr value) := none_spelled _
theorem jtagMemAccess (mem : MemKind) (addr : Nat) (write : Option (List Byte)) : Statement (.jtagMemAccess mem addr write) := none_spelled _
theorem jtagSamplePreload (pins : List Bool) (preload : List Bool) : Statement (.jtagSamplePreload pins preload) := none_spelled _
theorem jtagExtest (pins : List Bool) (drive : List Bool) : Statement (.jtagExtest pins drive) := none_spelled _
theorem jtagScan (domains : Nat) : Statement (.jtagScan domains) := none_spelled _
theorem pwrReqPinStable (req : Fin 4) : Statement (.pwrReqPinStable req) := none_spelled _
theorem pwrHostReqRun (gen : Fin 65536) : Statement (.pwrHostReqRun gen) := none_spelled _
theorem pwrHostReqTiming (gen : Fin 65536) : Statement (.pwrHostReqTiming gen) := none_spelled _
theorem pwrHostReqKeep (gen : Fin 65536) : Statement (.pwrHostReqKeep gen) := none_spelled _
theorem pwrHostReqDormant (gen : Fin 65536) : Statement (.pwrHostReqDormant gen) := none_spelled _
theorem pwrHostReqOff (gen : Fin 65536) : Statement (.pwrHostReqOff gen) := none_spelled _
theorem pwrHostReqReserved (gen : Fin 65536) : Statement (.pwrHostReqReserved gen) := none_spelled _
theorem domainWipeDone (domain : Fin 11) : Statement (.domainWipeDone domain) := none_spelled _
theorem powerFailAssert (widthNs : Nat) : Statement (.powerFailAssert widthNs) := none_spelled _
theorem registerWrite (path : Fin 2) (space : Fin 3) (addr : Nat) (value : Word) (be : Fin 16) : Statement (.registerWrite path space addr value be) := none_spelled _
theorem smiRead (addr : Nat) (words : Nat) : Statement (.smiRead addr words) := none_spelled _
theorem smiWrite (addr : Nat) (data : List Word) : Statement (.smiWrite addr data) := none_spelled _
theorem smiBadCommand (code : Fin 256) : Statement (.smiBadCommand code) := none_spelled _
theorem smiPartial (addr : Nat) : Statement (.smiPartial addr) := none_spelled _
theorem ringDoorbell (ring : Fin 6) (value : Word) : Statement (.ringDoorbell ring value) := none_spelled _
theorem ringCtlWrite (ring : Fin 6) (path : Fin 2) (value : Word) : Statement (.ringCtlWrite ring path value) := none_spelled _
theorem tcqFetch (entry : List Byte) : Statement (.tcqFetch entry) := none_spelled _
theorem txfFetch (entry : List Byte) (frame : List Byte) : Statement (.txfFetch entry frame) := none_spelled _
theorem hostRxDeliver (rxb : List Byte) : Statement (.hostRxDeliver rxb) := none_spelled _
theorem lnqFifoRead (path : Fin 3) : Statement (.lnqFifoRead path) := none_spelled _
theorem lnqPop (path : Fin 3) : Statement (.lnqPop path) := none_spelled _
theorem tcqPush (path : Fin 3) : Statement (.tcqPush path) := none_spelled _
theorem tcrFifoRead (path : Fin 3) : Statement (.tcrFifoRead path) := none_spelled _
theorem tcrPop (path : Fin 3) : Statement (.tcrPop path) := none_spelled _
theorem intMaskWrite (value : Word) : Statement (.intMaskWrite value) := none_spelled _
theorem synthesizerLocked (os : Fin 4) : Statement (.synthesizerLocked os) := none_spelled _
theorem prbsCheckerBlock (lane : Fin 128) (seed : Fin 2147483648) (bits : List Bool) : Statement (.prbsCheckerBlock lane seed bits) := none_spelled _
theorem faultSourceIdle (source : Fin 512) : Statement (.faultSourceIdle source) := none_spelled _
theorem unmonitoredClear (unit : Fin 68) : Statement (.unmonitoredClear unit) := none_spelled _
theorem pcieRefclkLoss (present : Bool) : Statement (.pcieRefclkLoss present) := none_spelled _
theorem lcJournalClearDone : Statement .lcJournalClearDone := none_spelled _
theorem mailboxClaimTimeout : Statement .mailboxClaimTimeout := none_spelled _
theorem nonceExpire : Statement .nonceExpire := none_spelled _
theorem debugLeaseExpire : Statement .debugLeaseExpire := none_spelled _
theorem jtagIdcode : Statement .jtagIdcode := none_spelled _
theorem jtagTrst : Statement .jtagTrst := none_spelled _
theorem pwrDrainTimeout : Statement .pwrDrainTimeout := none_spelled _
theorem domainRampDone : Statement .domainRampDone := none_spelled _
theorem shedRampStart : Statement .shedRampStart := none_spelled _
theorem shedRelease : Statement .shedRelease := none_spelled _
theorem lnqDmaWrite : Statement .lnqDmaWrite := none_spelled _
theorem accErrClear : Statement .accErrClear := none_spelled _

end Sys2Proof.Laws.Unspelled
end

