-- ==== Sys2Proof/Laws/State.lean ====
section
/-! SUPPORT. The small lemmas of the plain updates: what a register write, a counter step, a message sent, a free value drawn or a time
base set leaves in each field of the state, so that no proof unfolds a record update. -/
set_option Elab.async false
namespace Sys2Proof.Machine

/-- A field reads back what was written, narrowed to its width. -/
@[simp] theorem State.rd_wr (s : State) (f : Fld) (v : Nat) : (s.wr f v).rd f = v % 2 ^ f.width := Tab.get_set_same _ _ _ _

/-- Another field reads as before. -/
theorem State.rd_wr_ne (s : State) {f g : Fld} (v : Nat) (h : g.key ≠ f.key) : (s.wr f v).rd g = s.rd g := by
  unfold State.rd State.wr; exact Tab.get_set_ne _ _ _ _ h

/-- A read after a write of a known field, by their keys. -/
theorem State.rd_wr_key (s : State) (f g : Fld) (v : Nat) :
    (s.wr f v).rd g = if g.key = f.key then Tab.get (Tab.set s.regs f.key (v % 2 ^ f.width) f.reset) f.key g.reset else s.rd g := by
  split
  next h => simp only [State.rd, State.wr, h]
  next h => exact s.rd_wr_ne v h

@[simp] theorem State.wrs_nil (s : State) : s.wrs [] = s := rfl
@[simp] theorem State.wrs_cons (s : State) (f : Fld) (v : Nat) (l : List (Fld × Nat)) : s.wrs ((f, v) :: l) = (s.wr f v).wrs l := rfl
@[simp] theorem State.clrs_nil (s : State) : s.clrs [] = s := rfl
@[simp] theorem State.clrs_cons (s : State) (f : Fld) (l : List Fld) : s.clrs (f :: l) = (s.clr f).clrs l := rfl
@[simp] theorem State.when_true (s : State) (f : State → State) : s.when true f = f s := rfl
@[simp] theorem State.when_false (s : State) (f : State → State) : s.when false f = s := rfl
@[simp] theorem State.each_nil {α : Type} (s : State) (f : State → α → State) : s.each [] f = s := rfl
@[simp] theorem State.each_cons {α : Type} (s : State) (f : State → α → State) (x : α) (l : List α) :
    s.each (x :: l) f = (f s x).each l f := rfl

/-- A list of writes to other fields leaves a field as it is. -/
theorem State.rd_wrs_ne (s : State) (l : List (Fld × Nat)) (g : Fld) (h : ∀ e ∈ l, g.key ≠ e.1.key) : (s.wrs l).rd g = s.rd g := by
  induction l generalizing s with
  | nil => rfl
  | cons e l ih =>
    rw [show s.wrs (e :: l) = (s.wr e.1 e.2).wrs l from rfl, ih _ fun x hx => h x (List.mem_cons_of_mem _ hx),
      s.rd_wr_ne _ (h e List.mem_cons_self)]

/-- A counter reads the sum after a step of `k`, held at 2^48 - 1 (R129). -/
@[simp] theorem State.c48_bump48 (s : State) (f : Fld) (k : Nat) : (s.bump48 f k).c48 f = satAdd 48 (s.c48 f) k :=
  Tab.get_set_same _ _ _ _

/-- Another counter is unchanged. -/
theorem State.c48_bump48_ne (s : State) {f g : Fld} (k : Nat) (h : g.addr ≠ f.addr) : (s.bump48 f k).c48 g = s.c48 g := by
  unfold State.c48 State.bump48; exact Tab.get_set_ne _ _ _ _ h

@[simp] theorem State.c48_zero48 (s : State) (f : Fld) : (s.zero48 f).c48 f = 0 := by
  exact Tab.get_set_same s.cnt48 f.addr 0 0

theorem State.c48_zero48_ne (s : State) {f g : Fld} (h : g.addr ≠ f.addr) : (s.zero48 f).c48 g = s.c48 g :=
  Tab.get_set_ne s.cnt48 0 0 0 h

@[simp] theorem State.wr_cnt48 (s : State) (f : Fld) (v : Nat) : (s.wr f v).cnt48 = s.cnt48 := rfl
@[simp] theorem State.wr_out (s : State) (f : Fld) (v : Nat) : (s.wr f v).out = s.out := rfl
@[simp] theorem State.wr_free (s : State) (f : Fld) (v : Nat) : (s.wr f v).free = s.free := rfl
@[simp] theorem State.wr_pins (s : State) (f : Fld) (v : Nat) : (s.wr f v).pins = s.pins := rfl
@[simp] theorem State.wr_xo (s : State) (f : Fld) (v : Nat) : (s.wr f v).xo = s.xo := rfl
@[simp] theorem State.wr_fmeter (s : State) (f : Fld) (v : Nat) : (s.wr f v).fmeter = s.fmeter := rfl
@[simp] theorem State.wr_boot (s : State) (f : Fld) (v : Nat) : (s.wr f v).boot = s.boot := rfl
@[simp] theorem State.wr_journal (s : State) (f : Fld) (v : Nat) : (s.wr f v).journal = s.journal := rfl
@[simp] theorem State.wr_jrnlQ (s : State) (f : Fld) (v : Nat) : (s.wr f v).jrnlQ = s.jrnlQ := rfl
@[simp] theorem State.wr_otp (s : State) (f : Fld) (v : Nat) : (s.wr f v).otp = s.otp := rfl
@[simp] theorem State.wr_sec (s : State) (f : Fld) (v : Nat) : (s.wr f v).sec = s.sec := rfl
@[simp] theorem State.wr_pwr (s : State) (f : Fld) (v : Nat) : (s.wr f v).pwr = s.pwr := rfl
@[simp] theorem State.wr_lines (s : State) (f : Fld) (v : Nat) : (s.wr f v).lines = s.lines := rfl
@[simp] theorem State.wr_flt (s : State) (f : Fld) (v : Nat) : (s.wr f v).flt = s.flt := rfl
@[simp] theorem State.wr_tbs (s : State) (f : Fld) (v : Nat) : (s.wr f v).tbs = s.tbs := rfl
@[simp] theorem State.wr_hif (s : State) (f : Fld) (v : Nat) : (s.wr f v).hif = s.hif := rfl
@[simp] theorem State.wr_refsel (s : State) (f : Fld) (v : Nat) : (s.wr f v).refsel = s.refsel := rfl
@[simp] theorem State.wr_xc (s : State) (f : Fld) (v : Nat) : (s.wr f v).xc = s.xc := rfl
@[simp] theorem State.wr_syn (s : State) (f : Fld) (v : Nat) : (s.wr f v).syn = s.syn := rfl
@[simp] theorem State.wr_pul (s : State) (f : Fld) (v : Nat) : (s.wr f v).pul = s.pul := rfl
@[simp] theorem State.wr_pmon (s : State) (f : Fld) (v : Nat) : (s.wr f v).pmon = s.pmon := rfl
@[simp] theorem State.wr_tbl (s : State) (f : Fld) (v : Nat) : (s.wr f v).tbl = s.tbl := rfl
@[simp] theorem State.wr_fab (s : State) (f : Fld) (v : Nat) : (s.wr f v).fab = s.fab := rfl
@[simp] theorem State.wr_tt (s : State) (f : Fld) (v : Nat) : (s.wr f v).tt = s.tt := rfl
@[simp] theorem State.wr_lan (s : State) (f : Fld) (v : Nat) : (s.wr f v).lan = s.lan := rfl
@[simp] theorem State.wr_prt (s : State) (f : Fld) (v : Nat) : (s.wr f v).prt = s.prt := rfl
@[simp] theorem State.wr_dress (s : State) (f : Fld) (v : Nat) : (s.wr f v).dress = s.dress := rfl
@[simp] theorem State.wr_pending (s : State) (f : Fld) (v : Nat) : (s.wr f v).pending = s.pending := rfl
@[simp] theorem State.c48_wr (s : State) (f : Fld) (v : Nat) (g : Fld) : (s.wr f v).c48 g = s.c48 g := rfl

@[simp] theorem State.bump48_regs (s : State) (f : Fld) (k : Nat) : (s.bump48 f k).regs = s.regs := rfl
@[simp] theorem State.bump48_out (s : State) (f : Fld) (k : Nat) : (s.bump48 f k).out = s.out := rfl
@[simp] theorem State.bump48_free (s : State) (f : Fld) (k : Nat) : (s.bump48 f k).free = s.free := rfl
@[simp] theorem State.bump48_pins (s : State) (f : Fld) (k : Nat) : (s.bump48 f k).pins = s.pins := rfl
@[simp] theorem State.bump48_xo (s : State) (f : Fld) (k : Nat) : (s.bump48 f k).xo = s.xo := rfl
@[simp] theorem State.bump48_fmeter (s : State) (f : Fld) (k : Nat) : (s.bump48 f k).fmeter = s.fmeter := rfl
@[simp] theorem State.bump48_boot (s : State) (f : Fld) (k : Nat) : (s.bump48 f k).boot = s.boot := rfl
@[simp] theorem State.bump48_journal (s : State) (f : Fld) (k : Nat) : (s.bump48 f k).journal = s.journal := rfl
@[simp] theorem State.bump48_jrnlQ (s : State) (f : Fld) (k : Nat) : (s.bump48 f k).jrnlQ = s.jrnlQ := rfl
@[simp] theorem State.bump48_otp (s : State) (f : Fld) (k : Nat) : (s.bump48 f k).otp = s.otp := rfl
@[simp] theorem State.bump48_sec (s : State) (f : Fld) (k : Nat) : (s.bump48 f k).sec = s.sec := rfl
@[simp] theorem State.bump48_pwr (s : State) (f : Fld) (k : Nat) : (s.bump48 f k).pwr = s.pwr := rfl
@[simp] theorem State.bump48_lines (s : State) (f : Fld) (k : Nat) : (s.bump48 f k).lines = s.lines := rfl
@[simp] theorem State.bump48_flt (s : State) (f : Fld) (k : Nat) : (s.bump48 f k).flt = s.flt := rfl
@[simp] theorem State.bump48_tbs (s : State) (f : Fld) (k : Nat) : (s.bump48 f k).tbs = s.tbs := rfl
@[simp] theorem State.bump48_hif (s : State) (f : Fld) (k : Nat) : (s.bump48 f k).hif = s.hif := rfl
@[simp] theorem State.bump48_refsel (s : State) (f : Fld) (k : Nat) : (s.bump48 f k).refsel = s.refsel := rfl
@[simp] theorem State.bump48_xc (s : State) (f : Fld) (k : Nat) : (s.bump48 f k).xc = s.xc := rfl
@[simp] theorem State.bump48_syn (s : State) (f : Fld) (k : Nat) : (s.bump48 f k).syn = s.syn := rfl
@[simp] theorem State.bump48_pul (s : State) (f : Fld) (k : Nat) : (s.bump48 f k).pul = s.pul := rfl
@[simp] theorem State.bump48_pmon (s : State) (f : Fld) (k : Nat) : (s.bump48 f k).pmon = s.pmon := rfl
@[simp] theorem State.bump48_tbl (s : State) (f : Fld) (k : Nat) : (s.bump48 f k).tbl = s.tbl := rfl
@[simp] theorem State.bump48_fab (s : State) (f : Fld) (k : Nat) : (s.bump48 f k).fab = s.fab := rfl
@[simp] theorem State.bump48_tt (s : State) (f : Fld) (k : Nat) : (s.bump48 f k).tt = s.tt := rfl
@[simp] theorem State.bump48_lan (s : State) (f : Fld) (k : Nat) : (s.bump48 f k).lan = s.lan := rfl
@[simp] theorem State.bump48_prt (s : State) (f : Fld) (k : Nat) : (s.bump48 f k).prt = s.prt := rfl
@[simp] theorem State.bump48_dress (s : State) (f : Fld) (k : Nat) : (s.bump48 f k).dress = s.dress := rfl
@[simp] theorem State.bump48_pending (s : State) (f : Fld) (k : Nat) : (s.bump48 f k).pending = s.pending := rfl
@[simp] theorem State.rd_bump48 (s : State) (f : Fld) (k : Nat) (g : Fld) : (s.bump48 f k).rd g = s.rd g := rfl

@[simp] theorem State.zero48_regs (s : State) (f : Fld) : (s.zero48 f).regs = s.regs := rfl
@[simp] theorem State.zero48_out (s : State) (f : Fld) : (s.zero48 f).out = s.out := rfl
@[simp] theorem State.zero48_free (s : State) (f : Fld) : (s.zero48 f).free = s.free := rfl
@[simp] theorem State.zero48_pins (s : State) (f : Fld) : (s.zero48 f).pins = s.pins := rfl
@[simp] theorem State.zero48_xo (s : State) (f : Fld) : (s.zero48 f).xo = s.xo := rfl
@[simp] theorem State.zero48_fmeter (s : State) (f : Fld) : (s.zero48 f).fmeter = s.fmeter := rfl
@[simp] theorem State.zero48_boot (s : State) (f : Fld) : (s.zero48 f).boot = s.boot := rfl
@[simp] theorem State.zero48_journal (s : State) (f : Fld) : (s.zero48 f).journal = s.journal := rfl
@[simp] theorem State.zero48_jrnlQ (s : State) (f : Fld) : (s.zero48 f).jrnlQ = s.jrnlQ := rfl
@[simp] theorem State.zero48_otp (s : State) (f : Fld) : (s.zero48 f).otp = s.otp := rfl
@[simp] theorem State.zero48_sec (s : State) (f : Fld) : (s.zero48 f).sec = s.sec := rfl
@[simp] theorem State.zero48_pwr (s : State) (f : Fld) : (s.zero48 f).pwr = s.pwr := rfl
@[simp] theorem State.zero48_lines (s : State) (f : Fld) : (s.zero48 f).lines = s.lines := rfl
@[simp] theorem State.zero48_flt (s : State) (f : Fld) : (s.zero48 f).flt = s.flt := rfl
@[simp] theorem State.zero48_tbs (s : State) (f : Fld) : (s.zero48 f).tbs = s.tbs := rfl
@[simp] theorem State.zero48_hif (s : State) (f : Fld) : (s.zero48 f).hif = s.hif := rfl
@[simp] theorem State.zero48_refsel (s : State) (f : Fld) : (s.zero48 f).refsel = s.refsel := rfl
@[simp] theorem State.zero48_xc (s : State) (f : Fld) : (s.zero48 f).xc = s.xc := rfl
@[simp] theorem State.zero48_syn (s : State) (f : Fld) : (s.zero48 f).syn = s.syn := rfl
@[simp] theorem State.zero48_pul (s : State) (f : Fld) : (s.zero48 f).pul = s.pul := rfl
@[simp] theorem State.zero48_pmon (s : State) (f : Fld) : (s.zero48 f).pmon = s.pmon := rfl
@[simp] theorem State.zero48_tbl (s : State) (f : Fld) : (s.zero48 f).tbl = s.tbl := rfl
@[simp] theorem State.zero48_fab (s : State) (f : Fld) : (s.zero48 f).fab = s.fab := rfl
@[simp] theorem State.zero48_tt (s : State) (f : Fld) : (s.zero48 f).tt = s.tt := rfl
@[simp] theorem State.zero48_lan (s : State) (f : Fld) : (s.zero48 f).lan = s.lan := rfl
@[simp] theorem State.zero48_prt (s : State) (f : Fld) : (s.zero48 f).prt = s.prt := rfl
@[simp] theorem State.zero48_dress (s : State) (f : Fld) : (s.zero48 f).dress = s.dress := rfl
@[simp] theorem State.zero48_pending (s : State) (f : Fld) : (s.zero48 f).pending = s.pending := rfl
@[simp] theorem State.rd_zero48 (s : State) (f : Fld) (g : Fld) : (s.zero48 f).rd g = s.rd g := rfl

@[simp] theorem State.send_regs (s : State) (o : Out) : (s.send o).regs = s.regs := rfl
@[simp] theorem State.send_cnt48 (s : State) (o : Out) : (s.send o).cnt48 = s.cnt48 := rfl
@[simp] theorem State.send_free (s : State) (o : Out) : (s.send o).free = s.free := rfl
@[simp] theorem State.send_pins (s : State) (o : Out) : (s.send o).pins = s.pins := rfl
@[simp] theorem State.send_xo (s : State) (o : Out) : (s.send o).xo = s.xo := rfl
@[simp] theorem State.send_fmeter (s : State) (o : Out) : (s.send o).fmeter = s.fmeter := rfl
@[simp] theorem State.send_boot (s : State) (o : Out) : (s.send o).boot = s.boot := rfl
@[simp] theorem State.send_journal (s : State) (o : Out) : (s.send o).journal = s.journal := rfl
@[simp] theorem State.send_jrnlQ (s : State) (o : Out) : (s.send o).jrnlQ = s.jrnlQ := rfl
@[simp] theorem State.send_otp (s : State) (o : Out) : (s.send o).otp = s.otp := rfl
@[simp] theorem State.send_sec (s : State) (o : Out) : (s.send o).sec = s.sec := rfl
@[simp] theorem State.send_pwr (s : State) (o : Out) : (s.send o).pwr = s.pwr := rfl
@[simp] theorem State.send_lines (s : State) (o : Out) : (s.send o).lines = s.lines := rfl
@[simp] theorem State.send_flt (s : State) (o : Out) : (s.send o).flt = s.flt := rfl
@[simp] theorem State.send_tbs (s : State) (o : Out) : (s.send o).tbs = s.tbs := rfl
@[simp] theorem State.send_hif (s : State) (o : Out) : (s.send o).hif = s.hif := rfl
@[simp] theorem State.send_refsel (s : State) (o : Out) : (s.send o).refsel = s.refsel := rfl
@[simp] theorem State.send_xc (s : State) (o : Out) : (s.send o).xc = s.xc := rfl
@[simp] theorem State.send_syn (s : State) (o : Out) : (s.send o).syn = s.syn := rfl
@[simp] theorem State.send_pul (s : State) (o : Out) : (s.send o).pul = s.pul := rfl
@[simp] theorem State.send_pmon (s : State) (o : Out) : (s.send o).pmon = s.pmon := rfl
@[simp] theorem State.send_tbl (s : State) (o : Out) : (s.send o).tbl = s.tbl := rfl
@[simp] theorem State.send_fab (s : State) (o : Out) : (s.send o).fab = s.fab := rfl
@[simp] theorem State.send_tt (s : State) (o : Out) : (s.send o).tt = s.tt := rfl
@[simp] theorem State.send_lan (s : State) (o : Out) : (s.send o).lan = s.lan := rfl
@[simp] theorem State.send_prt (s : State) (o : Out) : (s.send o).prt = s.prt := rfl
@[simp] theorem State.send_dress (s : State) (o : Out) : (s.send o).dress = s.dress := rfl
@[simp] theorem State.send_pending (s : State) (o : Out) : (s.send o).pending = s.pending := rfl
@[simp] theorem State.rd_send (s : State) (o : Out) (g : Fld) : (s.send o).rd g = s.rd g := rfl
@[simp] theorem State.c48_send (s : State) (o : Out) (g : Fld) : (s.send o).c48 g = s.c48 g := rfl

@[simp] theorem State.draw_regs (s : State) : (s.draw).regs = s.regs := rfl
@[simp] theorem State.draw_cnt48 (s : State) : (s.draw).cnt48 = s.cnt48 := rfl
@[simp] theorem State.draw_out (s : State) : (s.draw).out = s.out := rfl
@[simp] theorem State.draw_pins (s : State) : (s.draw).pins = s.pins := rfl
@[simp] theorem State.draw_xo (s : State) : (s.draw).xo = s.xo := rfl
@[simp] theorem State.draw_fmeter (s : State) : (s.draw).fmeter = s.fmeter := rfl
@[simp] theorem State.draw_boot (s : State) : (s.draw).boot = s.boot := rfl
@[simp] theorem State.draw_journal (s : State) : (s.draw).journal = s.journal := rfl
@[simp] theorem State.draw_jrnlQ (s : State) : (s.draw).jrnlQ = s.jrnlQ := rfl
@[simp] theorem State.draw_otp (s : State) : (s.draw).otp = s.otp := rfl
@[simp] theorem State.draw_sec (s : State) : (s.draw).sec = s.sec := rfl
@[simp] theorem State.draw_pwr (s : State) : (s.draw).pwr = s.pwr := rfl
@[simp] theorem State.draw_lines (s : State) : (s.draw).lines = s.lines := rfl
@[simp] theorem State.draw_flt (s : State) : (s.draw).flt = s.flt := rfl
@[simp] theorem State.draw_tbs (s : State) : (s.draw).tbs = s.tbs := rfl
@[simp] theorem State.draw_hif (s : State) : (s.draw).hif = s.hif := rfl
@[simp] theorem State.draw_refsel (s : State) : (s.draw).refsel = s.refsel := rfl
@[simp] theorem State.draw_xc (s : State) : (s.draw).xc = s.xc := rfl
@[simp] theorem State.draw_syn (s : State) : (s.draw).syn = s.syn := rfl
@[simp] theorem State.draw_pul (s : State) : (s.draw).pul = s.pul := rfl
@[simp] theorem State.draw_pmon (s : State) : (s.draw).pmon = s.pmon := rfl
@[simp] theorem State.draw_tbl (s : State) : (s.draw).tbl = s.tbl := rfl
@[simp] theorem State.draw_fab (s : State) : (s.draw).fab = s.fab := rfl
@[simp] theorem State.draw_tt (s : State) : (s.draw).tt = s.tt := rfl
@[simp] theorem State.draw_lan (s : State) : (s.draw).lan = s.lan := rfl
@[simp] theorem State.draw_prt (s : State) : (s.draw).prt = s.prt := rfl
@[simp] theorem State.draw_dress (s : State) : (s.draw).dress = s.dress := rfl
@[simp] theorem State.draw_pending (s : State) : (s.draw).pending = s.pending := rfl
@[simp] theorem State.rd_draw (s : State) (g : Fld) : (s.draw).rd g = s.rd g := rfl
@[simp] theorem State.c48_draw (s : State) (g : Fld) : (s.draw).c48 g = s.c48 g := rfl

@[simp] theorem State.setTb_regs (s : State) (k n : Nat) (b : TBase) : (s.setTb k n b).regs = s.regs := rfl
@[simp] theorem State.setTb_cnt48 (s : State) (k n : Nat) (b : TBase) : (s.setTb k n b).cnt48 = s.cnt48 := rfl
@[simp] theorem State.setTb_out (s : State) (k n : Nat) (b : TBase) : (s.setTb k n b).out = s.out := rfl
@[simp] theorem State.setTb_free (s : State) (k n : Nat) (b : TBase) : (s.setTb k n b).free = s.free := rfl
@[simp] theorem State.setTb_pins (s : State) (k n : Nat) (b : TBase) : (s.setTb k n b).pins = s.pins := rfl
@[simp] theorem State.setTb_xo (s : State) (k n : Nat) (b : TBase) : (s.setTb k n b).xo = s.xo := rfl
@[simp] theorem State.setTb_fmeter (s : State) (k n : Nat) (b : TBase) : (s.setTb k n b).fmeter = s.fmeter := rfl
@[simp] theorem State.setTb_boot (s : State) (k n : Nat) (b : TBase) : (s.setTb k n b).boot = s.boot := rfl
@[simp] theorem State.setTb_journal (s : State) (k n : Nat) (b : TBase) : (s.setTb k n b).journal = s.journal := rfl
@[simp] theorem State.setTb_jrnlQ (s : State) (k n : Nat) (b : TBase) : (s.setTb k n b).jrnlQ = s.jrnlQ := rfl
@[simp] theorem State.setTb_otp (s : State) (k n : Nat) (b : TBase) : (s.setTb k n b).otp = s.otp := rfl
@[simp] theorem State.setTb_sec (s : State) (k n : Nat) (b : TBase) : (s.setTb k n b).sec = s.sec := rfl
@[simp] theorem State.setTb_pwr (s : State) (k n : Nat) (b : TBase) : (s.setTb k n b).pwr = s.pwr := rfl
@[simp] theorem State.setTb_lines (s : State) (k n : Nat) (b : TBase) : (s.setTb k n b).lines = s.lines := rfl
@[simp] theorem State.setTb_flt (s : State) (k n : Nat) (b : TBase) : (s.setTb k n b).flt = s.flt := rfl
@[simp] theorem State.setTb_hif (s : State) (k n : Nat) (b : TBase) : (s.setTb k n b).hif = s.hif := rfl
@[simp] theorem State.setTb_refsel (s : State) (k n : Nat) (b : TBase) : (s.setTb k n b).refsel = s.refsel := rfl
@[simp] theorem State.setTb_xc (s : State) (k n : Nat) (b : TBase) : (s.setTb k n b).xc = s.xc := rfl
@[simp] theorem State.setTb_syn (s : State) (k n : Nat) (b : TBase) : (s.setTb k n b).syn = s.syn := rfl
@[simp] theorem State.setTb_pul (s : State) (k n : Nat) (b : TBase) : (s.setTb k n b).pul = s.pul := rfl
@[simp] theorem State.setTb_pmon (s : State) (k n : Nat) (b : TBase) : (s.setTb k n b).pmon = s.pmon := rfl
@[simp] theorem State.setTb_tbl (s : State) (k n : Nat) (b : TBase) : (s.setTb k n b).tbl = s.tbl := rfl
@[simp] theorem State.setTb_fab (s : State) (k n : Nat) (b : TBase) : (s.setTb k n b).fab = s.fab := rfl
@[simp] theorem State.setTb_tt (s : State) (k n : Nat) (b : TBase) : (s.setTb k n b).tt = s.tt := rfl
@[simp] theorem State.setTb_lan (s : State) (k n : Nat) (b : TBase) : (s.setTb k n b).lan = s.lan := rfl
@[simp] theorem State.setTb_prt (s : State) (k n : Nat) (b : TBase) : (s.setTb k n b).prt = s.prt := rfl
@[simp] theorem State.setTb_dress (s : State) (k n : Nat) (b : TBase) : (s.setTb k n b).dress = s.dress := rfl
@[simp] theorem State.setTb_pending (s : State) (k n : Nat) (b : TBase) : (s.setTb k n b).pending = s.pending := rfl
@[simp] theorem State.rd_setTb (s : State) (k n : Nat) (b : TBase) (g : Fld) : (s.setTb k n b).rd g = s.rd g := rfl
@[simp] theorem State.c48_setTb (s : State) (k n : Nat) (b : TBase) (g : Fld) : (s.setTb k n b).c48 g = s.c48 g := rfl

/-- An update of other parts leaves every register field as it is. -/
@[simp] theorem State.rd_mk (s : State) (f : Fld) {x0 x1 x2 x3 x4 x5 x6 x7 x8 x9 x10 x11 x12 x13 x14 x15 x16 x17 x18 x19 x20 x21 x22 x23 x24 x25 x26 x27} : State.rd (State.mk s.regs x0 x1 x2 x3 x4 x5 x6 x7 x8 x9 x10 x11 x12 x13 x14 x15 x16 x17 x18 x19 x20 x21 x22 x23 x24 x25 x26 x27) f = s.rd f := rfl
/-- An update of other parts leaves every 48-bit counter as it is. -/
@[simp] theorem State.c48_mk (s : State) (f : Fld) {x0 x1 x2 x3 x4 x5 x6 x7 x8 x9 x10 x11 x12 x13 x14 x15 x16 x17 x18 x19 x20 x21 x22 x23 x24 x25 x26 x27} : State.c48 (State.mk x0 s.cnt48 x1 x2 x3 x4 x5 x6 x7 x8 x9 x10 x11 x12 x13 x14 x15 x16 x17 x18 x19 x20 x21 x22 x23 x24 x25 x26 x27) f = s.c48 f := rfl

/-- Outside the fields of `l` every register field reads as before. -/
theorem RegsBut.wr {l : List Fld} {s t : State} {f : Fld} (v : Nat) (hf : f ∈ l) (h : RegsBut l s t) : RegsBut l s (t.wr f v) :=
  fun g hg => (t.rd_wr_ne v fun e => hg f hf e.symm).trans (h g hg)

theorem RegsBut.refl (l : List Fld) (s : State) : RegsBut l s s := fun _ _ => rfl

theorem SameBut.wr {l : List Fld} {s t : State} {f : Fld} (v : Nat) (hf : f ∈ l) (h : SameBut l s t) : SameBut l s (t.wr f v) := by
  refine ⟨?_, RegsBut.wr v hf h.2⟩
  rw [h.1]; rfl

theorem SameBut.refl (l : List Fld) (s : State) : SameBut l s s := ⟨rfl, RegsBut.refl l s⟩

end Sys2Proof.Machine
end

