-- ==== Sys2Proof/WellFormed.lean ====
section
/-! DEFINITION. Which commands are well formed: the lengths and ranges of operands that their types leave open. A command
that is not well formed still has its meaning; no run of the hardware brings it about. -/
namespace Sys2Proof

/-- The operands have the lengths and ranges that the spec gives them. -/
def Instr.wf : Instr → Bool
  | .resetNAssert _ => true
  | .vddAonDetect _ => true
  | .resetNRelease => true
  | .xoWindowEnd _ => true
  | .startupRootLocked _ => true
  | .rootALockTimeout => true
  | .rootBLockTimeout => true
  | .wipeDone => true
  | .imageReadDone _ bytes => decide (bytes.length ≤ 8388608)
  | .signatureVerifyDone => true
  | .applyDone => true
  | .shaftTrackDone => true
  | .shaftTimeout => true
  | .quadEnableTick => true
  | .quadLockTimeout _ => true
  | .lanesDone _ _ => true
  | .floorRaiseDone _ => true
  | .k14LateCheck => true
  | .journalWriteDone _ => true
  | .jrnlIdxWrite _ => true
  | .nvmCmdGo _ => true
  | .nvmCmdDone data => decide (data.length ≤ 256)
  | .resetKeyWrite _ => true
  | .resetArmExpire => true
  | .resetCmdFull => true
  | .resetCmdHostView => true
  | .resetCmdRefused _ => true
  | .pcieFlr => true
  | .pcieHotReset _ => true
  | .hvResetDone => true
  | .perstNRelease => true
  | .fmeterStart _ => true
  | .fmeterWindowEnd _ => true
  | .refmonSecond f1s active _ _ => f1s.length == 24 && active.length == 24
  | .refinLosTimeout _ => true
  | .refinPpsEdge _ _ _ => true
  | .ppsEdgeTimeout _ => true
  | .esmcAgeTimeout _ => true
  | .acqFailTimeout => true
  | .selAcquireLock => true
  | .selDecideExpire _ => true
  | .selSettleEnd _ => true
  | .selHoldoverLimit => true
  | .esmcInfoTick => true
  | .esmcEventPdu => true
  | .rootDcoUpdate _ _ _ => true
  | .rootRelockDone _ => true
  | .rootBandWindow _ _ => true
  | .standbyTrackMeasure _ => true
  | .tlCompare _ _ _ => true
  | .tlAlignInstant _ => true
  | .tlOutputStart _ => true
  | .synthLockLoss _ => true
  | .ckoOeHostWrite _ _ => true
  | .syncInEdge _ => true
  | .syncRestart => true
  | .superblockTransmit _ _ bitPos _ => decide (bitPos < 40)
  | .superblockReceived _ _ _ bitPos _ => decide (bitPos < 40)
  | .timingFrameReceived _ frame => frame.length == 125
  | .leatFrameReceived _ _ _ bytes _ _ _ => decide (bytes.length ≤ 16383)
  | .laneDownWait _ => true
  | .detectBurstTimer _ => true
  | .laneEnergyDetect _ => true
  | .laneCdrLocked _ => true
  | .laneTrainTimeout _ => true
  | .alignPositionWatch _ _ _ _ => true
  | .laneVerifyTimeout _ => true
  | .laneBackoffExpire _ => true
  | .laneUpStable _ => true
  | .laneLosSignal _ => true
  | .laneLosTimeout _ => true
  | .quadPllUnlock _ => true
  | .quadPllLock _ => true
  | .laneManNop _ => true
  | .laneHold _ _ => true
  | .laneRelease _ _ => true
  | .laneManualTrain _ _ => true
  | .laneSlip _ _ => true
  | .laneAccept _ _ => true
  | .laneManReserved _ _ => true
  | .quietEntry _ => true
  | .quietExitRequest _ => true
  | .quietBurstStart _ => true
  | .quietWakeTimer _ => true
  | .laneHealthWindow _ => true
  | .prbsClear _ => true
  | .ethFrameReceived _ bytes _ _ _ _ _ => decide (bytes.length ≤ 16383)
  | .pfcFrameReceived _ _ => true
  | .pfcPauseExpire _ _ => true
  | .pfcFrameSend _ => true
  | .pfcRepeatTimer _ => true
  | .esmcPduReceived _ _ => true
  | .portLockAchieved _ => true
  | .portLockTimeout _ => true
  | .portRemoteFaultRx _ => true
  | .portRemoteFaultClear _ => true
  | .portLockLoss _ _ => true
  | .tbSampleDeferred _ => true
  | .tbSampleTimeout _ => true
  | .tbSlewComplete _ => true
  | .tbFeedNop _ => true
  | .tbFeedOffset _ _ => true
  | .tbFeedSet _ _ => true
  | .tbFeedReserved _ _ => true
  | .tbRampTick _ => true
  | .xcSlot _ => true
  | .standbyTkLoadDone => true
  | .tbNowRead _ _ => true
  | .tbOffRead _ _ => true
  | .counterLoRead read _ => decide (0 < read.words) && decide (read.words ≤ 16) && decide (read.addr < 2 ^ 26)
  | .ttBeatPeriod _ _ => true
  | .ttLockWindowDone _ => true
  | .ttExchangeInterval _ => true
  | .ttPairFormed _ => true
  | .ttPairTimeout _ => true
  | .ttHealthTimeout _ => true
  | .pgCmdNop _ => true
  | .pgArm _ _ => true
  | .pgDisarm _ _ => true
  | .pgCmdReserved _ _ => true
  | .pgEdge _ _ => true
  | .evtInEdge _ _ _ _ _ => true
  | .queueEntryRead _ _ _ => true
  | .txqPop _ => true
  | .capPop _ => true
  | .tempSensorRead readings => readings.length == 16
  | .calPeriodTimer => true
  | .calRetryDue => true
  | .calPrecheckDone => true
  | .calScaleDone values => values.all fun e => decide (e.1 < 428)
  | .calLoopDone values => values.all fun e => decide (e.1 < 428)
  | .calPointsDone values => values.all fun e => decide (e.1 < 428)
  | .calOutputsDone values => values.all fun e => decide (e.1 < 428)
  | .calComputeDone => true
  | .calCommit => true
  | .calTapWalkStep => true
  | .calRefClkLoss => true
  | .calClkFreqWindow _ => true
  | .calRefPpsEdge _ _ => true
  | .calPpsMissing => true
  | .calCmdNop => true
  | .calRun _ => true
  | .calRestore _ => true
  | .calCmdReserved _ => true
  | .lookupFirstPass _ _ _ parity => parity.all fun e => decide (e.1 < 3)
  | .lookupLaterPass _ _ parity => parity.all fun e => decide (e.1 < 3)
  | .ageClockTick => true
  | .agerVisit parity => parity.all fun e => decide (e.1 < 2)
  | .shadowAuditStep _ parity => parity.all fun e => decide (e.1 < 3)
  | .camEntryExpire => true
  | .tcqNop => true
  | .tcqInsert => true
  | .tcqModify => true
  | .tcqDelete => true
  | .tcqFence => true
  | .tcqReserved => true
  | .fenceComplete => true
  | .lnqCtlWrite _ => true
  | .reseqTimeoutRelease _ => true
  | .egressFrameStart _ _ _ => true
  | .egressFrameEnd _ => true
  | .flfDeparture _ _ _ => true
  | .unitFailOver _ _ _ => true
  | .heartbeatLost _ => true
  | .healthRailFault _ => true
  | .unitVerified _ => true
  | .unitHoldoffExpire _ => true
  | .unitLatchExpire _ => true
  | .unitWtrExpire _ => true
  | .flapWindowExpire _ => true
  | .deferredOrderWithdraw _ => true
  | .redCmdNop => true
  | .redRelease _ _ => true
  | .redCmdReserved => true
  | .faultEvent events => events != []
  | .faultRailFault _ _ => true
  | .collectorReactEnd => true
  | .failoverInputRelease _ => true
  | .fltClear _ => true
  | .fltSrcClr _ _ => true
  | .fltInject _ => true
  | .fltInjectEnd => true
  | .pmonCntCfgWrite _ _ => true
  | .pmonCntClear _ => true
  | .gleanCtlWrite _ => true
  | .gleanRecordWrite => true
  | .bwWindowClose => true
  | .bwCfgWrite _ => true
  | .secCmdNone _ => true
  | .secGetNonce _ _ => true
  | .secSubmit _ => true
  | .secSet _ _ => true
  | .secDisarm _ => true
  | .secRelease _ => true
  | .secCmdReserved _ code => code == 6 || code == 7
  | .mailboxForeignWrite _ addr _ => decide (0x2B00050 ≤ addr) && decide (addr < 0x2B001D0)
  | .reqLifecycle => true
  | .reqDebug => true
  | .reqKeyAdd _ => true
  | .reqKeyRevoke _ => true
  | .lcFuseBlowDone _ => true
  | .jtagBypass _ => true
  | .jtagSecAccess _ addr _ => addr % 4 == 0
  | .jtagRegRead _ => true
  | .jtagRegWrite _ _ => true
  | .jtagMemAccess _ _ _ => true
  | .jtagSamplePreload _ _ => true
  | .jtagExtest _ _ => true
  | .jtagScan domains => decide (domains < 2 ^ 11)
  | .pwrReqPinStable _ => true
  | .pwrHostReqRun _ => true
  | .pwrHostReqTiming _ => true
  | .pwrHostReqKeep _ => true
  | .pwrHostReqDormant _ => true
  | .pwrHostReqOff _ => true
  | .pwrHostReqReserved _ => true
  | .domainWipeDone _ => true
  | .powerFailAssert _ => true
  | .registerWrite _ _ addr _ _ => decide (addr < 2 ^ 26)
  | .smiRead addr words => decide (addr < 2 ^ 32) && decide (0 < words)
  | .smiWrite addr data => decide (addr < 2 ^ 32) && data != []
  | .smiBadCommand _ => true
  | .smiPartial addr => decide (addr < 2 ^ 32)
  | .ringDoorbell _ _ => true
  | .ringCtlWrite _ _ _ => true
  | .tcqFetch entry => entry.length == 32
  | .txfFetch entry _ => entry.length == 32
  | .hostRxDeliver rxb => rxb.length == 16
  | .lnqFifoRead _ => true
  | .lnqPop _ => true
  | .tcqPush _ => true
  | .tcrFifoRead _ => true
  | .tcrPop _ => true
  | .intMaskWrite _ => true
  | .synthesizerLocked _ => true
  | .prbsCheckerBlock _ _ bits => bits.length == 1024
  | .faultSourceIdle _ => true
  | .unmonitoredClear _ => true
  | .pcieRefclkLoss _ => true
  | .lcJournalClearDone => true
  | .mailboxClaimTimeout => true
  | .nonceExpire => true
  | .debugLeaseExpire => true
  | .jtagIdcode => true
  | .jtagTrst => true
  | .pwrDrainTimeout => true
  | .domainRampDone => true
  | .shedRampStart => true
  | .shedRelease => true
  | .lnqDmaWrite => true
  | .accErrClear => true

end Sys2Proof
end

