-- ==== Sys2Proof/Tests/Slice0.lean ====
section
/-! SUPPORT. Tests: every hypothesis of a statement can be met (one theorem per statement), ill-formed commands are refused, and
values from the spec. Each theorem looks at one step or less on a small state. -/
namespace Sys2Proof.Tests

open Sys2Proof.Machine

set_option Elab.async false
set_option maxRecDepth 100000

/-- A device in RUN with every domain on: a state to witness hypotheses with. -/
def up : State :=
  ({ State.reset with
      pins := { resetN := true, perstN := true }
      xo := { released := true, agree := 4, prev := 4 }
      boot := { accepted := true, pcieRef := true, xoQual := true, shaft := true, applied := true, wiped := true, quadsOn := 2 ^ 32 - 1,
                quadsDone := 2 ^ 32 - 1 }
      pwr := { gates := 0x7FF, seenRun := true } } : State).wrs
    [(Reg.devBootPhase, 9), (Reg.pwrDomainsOn, 0x7FF), (Reg.clkXoStatusState, 2), (Reg.synRootStatusState 0, 4), (Reg.hifStatusLinkUp, 1), (Reg.hifStatusBme, 1)]

/-- `up` with fields written. -/
def put (l : List (Fld × Nat)) : State := up.wrs l

/-- The image of the spec's worked example (Table IM-9): its header and CLOCK_PLAN are the spec's bytes; the identity, the key and
its signature are made for this test from the standard. -/
def img : List Byte :=
  [0x43, 0x41, 0x45, 0x57, 0x0, 0x1, 0x40, 0x0, 0x4, 0x1, 0x0, 0x0, 0x7, 0x0, 0x0, 0x0, 0x4, 0x1] ++
  List.replicate 46 0 ++
  [0x1, 0x0, 0x0, 0x0, 0x20, 0x0, 0x0, 0x0, 0x0, 0x32, 0x1, 0x0, 0x0, 0x11, 0x22, 0x33, 0x44, 0x55, 0x66, 0x77] ++
  [0x7, 0x0, 0x0, 0x0, 0x65, 0x78, 0x61, 0x6d, 0x70, 0x6c, 0x65] ++
  List.replicate 9 0 ++
  [0x10, 0x0, 0x0, 0x0, 0xc] ++
  List.replicate 6 0 ++
  [0x2, 0x1, 0x1] ++
  List.replicate 6 0 ++
  [0xff, 0xff, 0x0, 0x0, 0x80, 0x0, 0x0, 0x0, 0x8, 0x8b, 0xb9, 0xff, 0x22, 0xab, 0x29, 0x1a, 0x74, 0xc8, 0x6f, 0xc6] ++
  [0x77, 0xba, 0x89, 0x7b, 0xaa, 0xde, 0xe3, 0x70, 0xcc, 0x61, 0x29, 0xb8, 0x2d, 0x17, 0xb, 0xa3, 0xfc, 0x26, 0x41, 0x5c] ++
  [0x44, 0x2d, 0xa9, 0xa7, 0x16, 0x6, 0x79, 0x56, 0xd9, 0x1e, 0xaa, 0x2, 0xb9, 0x3a, 0xd4, 0x9, 0x49, 0xe, 0x87, 0xcd] ++
  [0x5e, 0x75, 0x8e, 0xa6, 0xa3, 0x31, 0xa1, 0xde, 0xb7, 0x5b, 0xa8, 0x46, 0x6b, 0x17, 0xd1, 0xf2, 0xe1, 0x2c, 0x42, 0x47] ++
  [0xf8, 0xbc, 0xe6, 0xe5, 0x63, 0xa4, 0x40, 0xf2, 0x77, 0x3, 0x7d, 0x81, 0x2d, 0xeb, 0x33, 0xa0, 0xf4, 0xa1, 0x39, 0x45] ++
  [0xd8, 0x98, 0xc2, 0x96, 0xda, 0x66, 0x1c, 0xa3, 0x23, 0x5e, 0x79, 0xa3, 0xc2, 0x92, 0xb4, 0xc5, 0x1b, 0x75, 0x2e, 0x3b] ++
  [0x97, 0x2a, 0x6f, 0x52, 0xf1, 0x65, 0x73, 0x39, 0xd1, 0xe4, 0x40, 0x9c, 0xcb, 0x37, 0x1b, 0xa1]

/-- `up` in FIELD, with the key hash of `img`'s key in slot 1 and `img` in the image store. -/
def imgUp : State := { up with boot := { up.boot with store := img }, otp := { lc := 3, keys := [(1, 0xf8a212d4f085087c3547aae01e8f656e297a664b1373995bd4e554efb036244)] } }

/-- The state of a step's outcome. -/
def nx : Res → State
  | .next s => s
  | _ => State.reset

/-- `s` with time base `n` of timekeeper `k` in STATE `st`. -/
def tbIn (s : State) (k n st : Nat) : State := s.setTb k n { state := st, valid := true }

/-- `s` with ring `r` enabled at 64 entries and `h` as its HOST_IDX. -/
def ringAt (s : State) (r h : Nat) : State :=
  s.wrs [(Reg.hifRingCtlEn r, 1), (Reg.hifRingCtlSize r, 6), (Reg.hifRingHostIdxHostIdx r, h)]
/-- A PFC frame of class 0 to 7 with one quantum each, with its FCS (802.1Qbb, by hand). -/
def pfcFrame : List Byte :=
  [0x1, 0x80, 0xc2, 0x0, 0x0, 0x1, 0x2, 0x0, 0x0, 0x0, 0x0, 0x1, 0x88, 0x8, 0x1, 0x1, 0x0, 0xff, 0x0, 0x1] ++
  [0x0, 0x1, 0x0, 0x1, 0x0, 0x1, 0x0, 0x1, 0x0, 0x1, 0x0, 0x1, 0x0, 0x1] ++
  List.replicate 26 0 ++
  [0x9e, 0x7e, 0x2c, 0xce]

/-- An ESMC information PDU with SSM code 2 (G.8264, by hand). -/
def esmcFrame : List Byte :=
  [0x1, 0x80, 0xc2, 0x0, 0x0, 0x2, 0x2, 0x0, 0x0, 0x0, 0x0, 0x1, 0x88, 0x9, 0xa, 0x0, 0x19, 0xa7, 0x0, 0x1] ++
  [0x10, 0x0, 0x0, 0x0, 0x1, 0x0, 0x4, 0x2] ++
  List.replicate 32 0 ++
  [0xa2, 0xa3, 0xda, 0x55]

/-- A unicast IPv4 frame of 64 bytes. -/
def dataFrame : List Byte :=
  [0x2, 0x0, 0x0, 0x0, 0x0, 0x2, 0x2, 0x0, 0x0, 0x0, 0x0, 0x1, 0x8, 0x0, 0x78, 0x78, 0x78, 0x78, 0x78, 0x78] ++
  [0x78, 0x78, 0x78, 0x78, 0x78, 0x78, 0x78, 0x78, 0x78, 0x78, 0x78, 0x78, 0x78, 0x78, 0x78, 0x78, 0x78, 0x78, 0x78, 0x78] ++
  [0x78, 0x78, 0x78, 0x78, 0x78, 0x78, 0x78, 0x78, 0x78, 0x78, 0x78, 0x78, 0x78, 0x78, 0x78, 0x78, 0x78, 0x78, 0x78, 0x78] ++
  [0x29, 0x87, 0x33, 0x1d]

/-- The first 32 line bits of data superblock 1 from a scrambler at rest: the marker and the number (Table LE-2). -/
def lineStart : List Bool :=
  ([1, 0, 1, 1, 0, 1, 0, 1, 1, 1, 0, 0, 0, 0, 1, 0, 1, 1, 1, 0, 1, 0, 0, 1, 0, 0, 0, 0, 0, 0, 0, 1] : List Nat).map (· == 1)

/-- Every slot that an INSERT of `e` could use or free holds `x`. -/
def fullOf (s : State) (t e x : Nat) : State :=
  let k (b y : Nat) : Nat := s.bucketOf t b (eKeyBytes t y)
  s.each ([(0, k 0 e), (1, k 1 e), (1, k 1 x), (0, k 0 x)].flatMap fun b => (List.range 4).map fun w => slotOf t b.1 b.2 w)
    fun s sl => s.setEnt t sl x

/-- A set in the CAL staging registers whose every element is in its range (Table CA-11), with its CRC-32, and base 0 valid. -/
def calStaged : State :=
  { State.reset with
      regs := [(32 * 0x700034, 0xe3030673)] ++ (List.range 44).map (fun k => (32 * (0x702530 + 4 * k), 1600)) ++
        (List.range 44).map fun k => (32 * (0x7025E0 + 4 * k), 50)
      tbs := [(0, { state := tbTrack, valid := true })] }

/-- A bounded statement from its evaluation. -/
theorem below {n : Nat} {p : Nat → Prop} [DecidablePred p] (h : (List.range n).all (fun j => decide (p j)) = true) :
    ∀ j, j < n → p j := fun j hj => of_decide_eq_true (List.all_eq_true.mp h j (List.mem_range.mpr hj))

theorem test_met_StepIdle :
    (∃ (s : State), (s.pending = [])) ∧
    (∃ (s : State), (s.pwr.drain = false) ∧ (bit s.sec.scanStop 4 = true) ∧ (s.pdOn 4 = false)) ∧
    (∃ (s : State), (s.pwr.drain = false) ∧ (s.domRun 2 = true)) ∧
    (∃ (k : Fin 2) (s : State), (s.pwr.drain = false) ∧ (bit s.sec.scanStop (1 + k.val) = true) ∧ (s.pdOn (1 + k.val) = false)) ∧
    (∃ (k : Fin 2) (n : Fin 8) (s : State), (s.pwr.drain = false) ∧ (s.domRun (6 + k.val) = true) ∧ (s.tbOn k n = true)) :=
  ⟨⟨up, by decide +kernel⟩,
  ⟨{ up with sec := { scanStop := 2 ^ 4 }, pwr := { up.pwr with gates := 0x7EF } }, by and_intros <;> decide +kernel⟩,
  ⟨up, by decide +kernel, by decide +kernel⟩,
  ⟨1, { up with sec := { scanStop := 2 ^ 2 }, pwr := { up.pwr with gates := 0x7FB } }, by and_intros <;> decide +kernel⟩,
  ⟨0, 0, tbIn up 0 0 tbUnset, by and_intros <;> decide +kernel⟩⟩

theorem test_met_FullResets :
    (∃ (n : Nat), (1000 ≤ n)) ∧
    (∃ (n : Nat), (n < 100)) ∧
    (∃ (n : Nat), (n < 6800)) ∧
    (∃ (n : Nat) (s : State), (7000 < n) ∧ (s.pins.aonGood = false)) ∧
    (∃ (n : Nat) (s : State), (6800 ≤ n) ∧ (n ≤ 7000) ∧ (s.on Reg.hifStatusLinkUp = false)) ∧
    (∃ (n : Nat) (m : Nat) (s : State), (6800 ≤ n) ∧ (n < 7760 ∨ m < 17100) ∧ (s.pins.aonGood = true) ∧ (s.on Reg.hifStatusLinkUp = true)) ∧
    (∃ (s : State), (s.pins.resetN = false)) ∧
    (∃ (s : State), (s.on Reg.devResetStatusArmed = true) ∧ (s.jrnlQ.length < 8)) :=
  ⟨⟨1000, by decide +kernel⟩,
  ⟨5, by decide +kernel⟩,
  ⟨100, by decide +kernel⟩,
  ⟨8000, { up with pins := { up.pins with aonGood := false } }, by decide +kernel, by decide +kernel⟩,
  ⟨6900, put [(Reg.hifStatusLinkUp, 0)], by and_intros <;> decide +kernel⟩,
  ⟨7200, 18000, put [(Reg.hifStatusLinkUp, 1), (Reg.hifStatusLinkUp, 1)], by and_intros <;> decide +kernel⟩,
  ⟨{ up with pins := { up.pins with resetN := false } }, by decide +kernel⟩,
  ⟨put [(Reg.devResetStatusArmed, 1)], by decide +kernel, by decide +kernel⟩⟩

theorem test_met_XoAndRootStart :
    (∃ (n : Nat) (s : State), (s.xo.released = true) ∧ (s.rd Reg.clkXoStatusState = 2) ∧ (xoClass n = s.rd Reg.clkXoStatusDetected + 2)) ∧
    (∃ (n : Nat) (s : State), (s.xo.released = true) ∧ (s.rd Reg.clkXoStatusState = 0) ∧ (2 ≤ xoClass n)) ∧
    (∃ (n : Nat) (s : State), (s.xo.released = true) ∧ (s.rd Reg.clkXoStatusState = 1) ∧ (s.xo.agree = 2) ∧ (s.xo.prev = xoClass n) ∧ (2 ≤ xoClass n) ∧ (s.pwr.bootQ = []) ∧ (s.rd Reg.pwrDomainsRamping = 0) ∧ (bit (s.rd Reg.pwrDomainsOn) 1 = false)) ∧
    (∃ (n : Nat) (s : State), (s.xo.released = true) ∧ (s.rd Reg.clkXoStatusState = 2) ∧ (xoClass n ≠ s.rd Reg.clkXoStatusDetected + 2)) ∧
    (∃ (r : Fin 2) (s : State), (s.rd Reg.devBootPhase = 1) ∧ (s.rootRuns r = true) ∧ (s.pwr.bootQ = [])) ∧
    (∃ (s : State), (s.rd Reg.devBootPhase = 1) ∧ (s.pdOn 1 = true) ∧ (s.rd Reg.devBootRootBStart = 0) ∧ (s.pwr.bootQ = []) ∧ (s.rd Reg.pwrDomainsRamping = 0) ∧ (bit (s.rd Reg.pwrDomainsOn) 2 = false)) ∧
    (∃ (s : State), (s.rd Reg.devBootPhase = 1) ∧ (s.pdOn 2 = true) ∧ (s.on Reg.devBootRootBStart = true) ∧ (s.pwr.bootQ = []) ∧ (bit (s.rd Reg.pwrDomainsOn) 3 = false) ∧ (bit (s.rd Reg.pwrDomainsOn) 4 = false)) :=
  ⟨⟨700, put [(Reg.clkXoStatusState, 2), (Reg.clkXoStatusDetected, 0)], by and_intros <;> decide +kernel⟩,
  ⟨700, put [(Reg.clkXoStatusState, 0)], by and_intros <;> decide +kernel⟩,
  ⟨700, { (put [(Reg.clkXoStatusState, 1), (Reg.pwrDomainsRamping, 0), (Reg.pwrDomainsOn, 1)]) with xo := { released := true, agree := 2, prev := xoClass (700 : Nat) } }, by and_intros <;> decide +kernel⟩,
  ⟨5, put [(Reg.clkXoStatusState, 2)], by and_intros <;> decide +kernel⟩,
  ⟨1, put [(Reg.devBootPhase, 1), (Reg.synRootStatusState (1 : Fin 2), 3)], by and_intros <;> decide +kernel⟩,
  ⟨put [(Reg.devBootPhase, 1), (Reg.devBootRootBStart, 0), (Reg.pwrDomainsRamping, 0), (Reg.pwrDomainsOn, 3)], by and_intros <;> decide +kernel⟩,
  ⟨put [(Reg.devBootPhase, 1), (Reg.devBootRootBStart, 1), (Reg.pwrDomainsOn, 7)], by and_intros <;> decide +kernel⟩⟩

theorem test_met_StartUpPhases :
    (∃ (s : State), (s.rd Reg.devBootPhase = 2) ∧ (bit (s.rd Reg.pwrDomainsOn) 3 = true) ∧ (bit (s.rd Reg.pwrDomainsOn) 4 = true)) ∧
    (∃ (p : FlashProbe) (b : List Byte) (s : State), (s.rd Reg.devBootPhase = 3) ∧ (s.readFail p b = 0)) ∧
    (∃ (p : FlashProbe) (b : List Byte) (s : State), (s.rd Reg.devBootPhase = 3) ∧ (s.readFail p b ≠ 0) ∧ (s.boot.cs = 0)) ∧
    (∃ (s : State), (s.rd Reg.devBootPhase = 4) ∧ (s.sigFail s.boot.store ≠ 0) ∧ (s.boot.cs = 0)) ∧
    (∃ (s : State), (s.rd Reg.devBootPhase = 6) ∧ (s.on Reg.synTrackTrackOk = true)) ∧
    (∃ (s : State), (s.rd Reg.devBootPhase = 6)) ∧
    (∃ (x : Int) (s : State), (s.rd Reg.devBootPhase = 7) ∧ (s.quadsSettled = true) ∧ (s.calState = 0) ∧ (x.natAbs ≤ 1000 + s.rulerTol)) :=
  ⟨⟨put [(Reg.devBootPhase, 2)], by and_intros <;> decide +kernel⟩,
  ⟨{ signature := 0x50444653, density := 0x4000000, tableAt := 0x80, read114 := some (0x6B, 8), quadEnable := some [(0x31, [2])] }, img, imgUp.wr Reg.devBootPhase 3, by decide +kernel, by decide +kernel⟩,
  ⟨{ signature := 0x50444653, density := 26, tableAt := 0x80, read114 := some (0x6B, 8), quadEnable := some [(0x31, [2])] }, [], put [(Reg.devBootPhase, 3)], by and_intros <;> decide +kernel⟩,
  ⟨put [(Reg.devBootPhase, 4)], by and_intros <;> decide +kernel⟩,
  ⟨put [(Reg.devBootPhase, 6), (Reg.synTrackTrackOk, 1)], by decide +kernel, by decide +kernel⟩,
  ⟨put [(Reg.devBootPhase, 6)], by decide +kernel⟩,
  ⟨3, put [(Reg.devBootPhase, 7), (Reg.calStatusState, 0)], by and_intros <;> decide +kernel⟩⟩

theorem test_met_SignedImageAccepted :
    (∃ (s : State) (l : List Rec), (s.rd Reg.devBootPhase = 4) ∧ (s.sigFail s.boot.store = 0) ∧ (imgRecs s.boot.store = some l) ∧ (contentFail (s.rd Reg.devIdStepping) s.imageKeyOk l = none) ∧ ((hasRec l 0x10 = true → u8 (recOf l 0x10) 3 = s.rd Reg.clkXoStatusDetected)) ∧ (s.boot.cs ≤ 1)) :=
  ⟨{ (put [(Reg.devBootPhase, 4), (Reg.clkXoStatusDetected, 2)]) with boot := imgUp.boot, otp := imgUp.otp }, (imgRecs img).getD [], by and_intros <;> decide +kernel⟩

theorem test_met_ApplyRuns :
    (∃ (s : State), (s.rd Reg.devBootPhase = 5)) :=
  ⟨put [(Reg.devBootPhase, 5)], by decide +kernel⟩

theorem test_met_QuadsFloorAndJournal :
    (∃ (q : Nat) (s : State), ((List.range 32).find? (fun q => s.quadUsed q && s.pdOn (5 + q / 8) && !bit s.boot.quadsOn q) = some q)) ∧
    (∃ (q : Fin 32) (s : State), (bit s.boot.quadsOn q = true) ∧ (bit s.boot.quadsDone q = false)) ∧
    (∃ (i : Nat) (s : State), (s.boot.floorBusy = true) ∧ (s.floorFree = some i) ∧ (s.boot.imgSeq < 2 ^ 32)) ∧
    (∃ (s : State), (s.boot.accepted = true) ∧ (s.boot.pcieRef = true) ∧ (s.pins.pcieClk = false)) ∧
    (∃ (r : JRec) (l : List JRec) (s : State), (s.jrnlQ = r :: l) ∧ (s.pwrState ≠ pwrChanging)) :=
  ⟨⟨0, { (put [(Reg.laneCfgQrate 0, 1)]) with boot := { up.boot with quadsOn := 0 } }, by decide +kernel⟩,
  ⟨3, { (up) with boot := { up.boot with quadsDone := 0 } }, by decide +kernel, by decide +kernel⟩,
  ⟨0, { (up) with boot := { up.boot with floorBusy := true, imgSeq := 7 } }, by and_intros <;> decide +kernel⟩,
  ⟨{ (up) with pins := { up.pins with pcieClk := false } }, by and_intros <;> decide +kernel⟩,
  ⟨{ type := 1, flags := 0, boot := 2, secs := 3, nanos := 4, frac := 5, data := [1] }, [], { (up) with jrnlQ := [({ type := 1, flags := 0, boot := 2, secs := 3, nanos := 4, frac := 5, data := [1] } : JRec)] }, by decide +kernel, by decide +kernel⟩⟩

theorem test_met_FlashMeterAndKeys :
    (∃ (s : State), (s.inReset = false)) ∧
    (∃ (a : Fin 4) (s : State), ((a.val ≠ 1 ∧ a.val ≠ 2) ∨ s.on Reg.devResetStatusArmed = false)) ∧
    (∃ (v : Word) (s : State), (bit v.toNat 31 = true) ∧ (s.boot.nvmBusy = none) ∧ (v.toNat % 512 ≤ 256) ∧ (s.rd Reg.devBootPhase = 10 ∨ (s.rd Reg.devBootPhase = 9 ∧ bit s.boot.imgFlags 1 = true))) ∧
    (∃ (v : Word) (s : State), (bit v.toNat 31 = true) ∧ (s.boot.nvmBusy = none) ∧ (v.toNat % 512 ≤ 256) ∧ (s.rd Reg.devBootPhase = 9) ∧ (bit s.boot.imgFlags 1 = false)) ∧
    (∃ (n : Nat) (s : State), (s.boot.nvmBusy = some n)) ∧
    (∃ (v : Word), (bit v.toNat 31 = true)) ∧
    (∃ (k : Nat) (w : Nat) (s : State), (s.fmeter = some (k, w)) ∧ (k ≠ 0) ∧ (k ≠ 15)) :=
  ⟨⟨up, by decide +kernel⟩,
  ⟨3, up, by decide +kernel⟩,
  ⟨0x80000004, put [(Reg.devBootPhase, 10)], by and_intros <;> decide +kernel⟩,
  ⟨0x8000000C, put [(Reg.devBootPhase, 9)], by and_intros <;> decide +kernel⟩,
  ⟨5, { (up) with boot := { up.boot with nvmBusy := some (5 : Nat) } }, by decide +kernel⟩,
  ⟨0x80000000, by decide +kernel⟩,
  ⟨5, 5, { (up) with fmeter := some ((5 : Nat), (5 : Nat)) }, by and_intros <;> decide +kernel⟩⟩

theorem test_met_HostViewReset :
    (∃ (s : State), (s.hostOpen = true) ∧ (s.on Reg.devResetStatusHvBusy = false) ∧ (s.on Reg.devResetStatusArmed = true)) ∧
    (∃ (s : State), (s.hostOpen = true) ∧ (s.on Reg.devResetStatusHvBusy = false)) ∧
    (∃ (s : State), (s.on Reg.devResetStatusHvBusy = true)) :=
  ⟨⟨put [(Reg.devResetStatusHvBusy, 0), (Reg.devResetStatusArmed, 1)], by and_intros <;> decide +kernel⟩,
  ⟨put [(Reg.devResetStatusHvBusy, 0)], by decide +kernel, by decide +kernel⟩,
  ⟨put [(Reg.devResetStatusHvBusy, 1)], by decide +kernel⟩⟩

theorem test_met_PowerRequests :
    (∃ (g : Fin 65536) (s : State), (s.k1On = true) ∧ (g.val = s.rd Reg.pwrStatusGen)) ∧
    (∃ (g : Fin 65536) (s : State), (s.k1On = true) ∧ (g.val = s.rd Reg.pwrStatusGen) ∧ (s.on Reg.pwrCfgHostEn = true) ∧ (s.pwrState = pwrRun) ∧ (s.on Reg.pwrCfgPinEn = false) ∧ (s.on Reg.pwrStatusShed = false) ∧ (s.fab.frames ≠ [])) ∧
    (∃ (s : State), (s.inReset = true)) ∧
    (∃ (s : State), (s.inReset = false)) ∧
    (∃ (s : State), (s.inReset = false) ∧ (s.pwrState = pwrStart ∨ s.pwrState = pwrHalt ∨ (s.pwrState = pwrChanging ∧ s.on Reg.pwrDomainsRamping = true))) :=
  ⟨⟨3, put [(Reg.pwrStatusGen, (3 : Fin 65536).val)], by decide +kernel, by decide +kernel⟩,
  ⟨3, { (put [(Reg.pwrStatusGen, (3 : Fin 65536).val), (Reg.pwrCfgHostEn, 1), (Reg.pwrStatusState, pwrRun), (Reg.pwrCfgPinEn, 0), (Reg.pwrStatusShed, 0), (Reg.pwrStatusState, 1)]) with fab := { frames := [(1, { bytes := [], ingress := 0 })] } }, by and_intros <;> decide +kernel⟩,
  ⟨{ up with pins := { up.pins with resetN := false } }, by decide +kernel⟩,
  ⟨up, by decide +kernel⟩,
  ⟨put [(Reg.pwrStatusState, pwrStart)], by decide +kernel, by decide +kernel⟩⟩

theorem test_met_RampsAndShed :
    (∃ (d : Nat) (s : State), (s.rampingDomain = some d) ∧ (s.pwr.up = true) ∧ (s.pwrState = pwrStart) ∧ (s.pwr.bootQ = [])) ∧
    (∃ (d : Fin 11) (s : State), (bit (s.rd Reg.pwrDomainsOn) d = true) ∧ (s.pdOn d = false) ∧ (bit s.sec.scanStop d = false)) ∧
    (∃ (s : State), (s.pwr.drain = true) ∧ (s.on Reg.pwrDomainsRamping = true)) ∧
    (∃ (n : Nat) (s : State), (100 ≤ n) ∧ (s.pwrState = pwrRun ∨ s.pwrState = pwrTiming ∨ s.pwrState = pwrKeep) ∧ (s.on Reg.pwrStatusShed = false)) ∧
    (∃ (n : Nat), (n < 100)) ∧
    (∃ (s : State), (s.pwr.shedWait = true) ∧ (s.on Reg.pwrDomainsRamping = true)) ∧
    (∃ (s : State), (s.on Reg.pwrStatusShed = true)) ∧
    (∃ (s : State), (s.on Reg.pwrStatusShed = true) ∧ (s.pwrState = pwrChanging) ∧ (s.on Reg.pwrDomainsRamping = true)) :=
  ⟨⟨3, put [(Reg.pwrStatusState, pwrStart), (Reg.pwrDomainsRamping, 8)], by and_intros <;> decide +kernel⟩,
  ⟨3, { (up) with pwr := { gates := 1 } }, by and_intros <;> decide +kernel⟩,
  ⟨{ (put [(Reg.pwrDomainsRamping, 1)]) with pwr := { up.pwr with drain := true } }, by decide +kernel, by decide +kernel⟩,
  ⟨100, put [(Reg.pwrStatusState, pwrRun), (Reg.pwrStatusShed, 0)], by and_intros <;> decide +kernel⟩,
  ⟨5, by decide +kernel⟩,
  ⟨{ (put [(Reg.pwrDomainsRamping, 1)]) with pwr := { up.pwr with shedWait := true } }, by decide +kernel, by decide +kernel⟩,
  ⟨put [(Reg.pwrStatusShed, 1)], by decide +kernel⟩,
  ⟨put [(Reg.pwrStatusShed, 1), (Reg.pwrStatusState, pwrChanging), (Reg.pwrDomainsRamping, 1)], by and_intros <;> decide +kernel⟩⟩

theorem test_met_Mailbox :
    (∃ (j : Bool) (s : State), (s.mboxReach j = true) ∧ ((s.mboxClaim = 0 ∨ s.mboxClaim = mboxPort j))) ∧
    (∃ (j : Bool) (s : State), (s.mboxReach j = true) ∧ ((s.mboxClaim = 0 ∨ s.mboxClaim = mboxPort j)) ∧ (s.sec.trans = none) ∧ (s.pwrState ≠ pwrOff)) ∧
    (∃ (j : Bool) (l : Fin 4) (s : State), (s.mboxReach j = true) ∧ ((s.mboxClaim = 0 ∨ s.mboxClaim = mboxPort j)) ∧ (s.sec.trans = none) ∧ (s.pwrState ≠ pwrOff) ∧ (l.val = (s.rd Reg.secDbgLevel)) ∧ (l.val < 3)) ∧
    (∃ (j : Bool) (l : Fin 4) (s : State), (s.mboxReach j = true) ∧ ((s.mboxClaim = 0 ∨ s.mboxClaim = mboxPort j)) ∧ (s.sec.trans = none) ∧ (s.pwrState ≠ pwrOff) ∧ (l.val < (s.rd Reg.secDbgLevel)) ∧ ((s.rd Reg.secDbgLevel) < 3)) ∧
    (∃ (j : Bool) (l : Fin 4) (s : State), (s.mboxReach j = true) ∧ ((s.mboxClaim = 0 ∨ s.mboxClaim = mboxPort j)) ∧ (s.sec.trans = none) ∧ (s.pwrState ≠ pwrOff) ∧ ((s.rd Reg.secDbgLevel) < l.val) ∧ (l.val < 3) ∧ (dbgSet s.lcState l = true)) ∧
    (∃ (j : Bool) (l : Fin 4) (s : State), (s.mboxReach j = true) ∧ ((s.mboxClaim = 0 ∨ s.mboxClaim = mboxPort j)) ∧ (s.sec.trans = none) ∧ (s.pwrState ≠ pwrOff) ∧ ((s.rd Reg.secDbgLevel) < l.val) ∧ (l.val < 3) ∧ (dbgSet s.lcState l = false)) ∧
    (∃ (j : Bool) (l : Fin 4) (s : State), (s.mboxReach j = true) ∧ ((s.mboxClaim = 0 ∨ s.mboxClaim = mboxPort j)) ∧ (s.sec.trans = none) ∧ (s.pwrState ≠ pwrOff) ∧ (l.val = 3)) ∧
    (∃ (j : Bool) (s : State), (s.mboxReach j = true) ∧ ((s.mboxClaim = 0 ∨ s.mboxClaim = mboxPort j)) ∧ (s.pwrState ≠ pwrOff) ∧ (s.on Reg.secReqStatusBusy = true)) ∧
    (∃ (j : Bool) (s : State), (s.mboxReach j = true) ∧ ((s.mboxClaim = 0 ∨ s.mboxClaim = mboxPort j)) ∧ (s.pwrState ≠ pwrOff) ∧ (s.on Reg.secReqStatusBusy = false)) ∧
    (∃ (j : Bool) (s : State), (s.mboxReach j = true) ∧ (s.mboxClaim ≠ 0) ∧ (s.mboxClaim ≠ mboxPort j)) :=
  ⟨⟨true, put [(Reg.secReqStatusClaim, 0)], by decide +kernel, by decide +kernel⟩,
  ⟨true, put [(Reg.secReqStatusClaim, 0)], by and_intros <;> decide +kernel⟩,
  ⟨true, 2, put [(Reg.secReqStatusClaim, 0), (Reg.secDbgLevel, 2)], by and_intros <;> decide +kernel⟩,
  ⟨true, 1, put [(Reg.secReqStatusClaim, 0), (Reg.secDbgLevel, 2)], by and_intros <;> decide +kernel⟩,
  ⟨true, 1, put [(Reg.secReqStatusClaim, 0), (Reg.secDbgLevel, 0)], by and_intros <;> decide +kernel⟩,
  ⟨true, 2, { (put [(Reg.secReqStatusClaim, 0)]) with otp := { lc := 3 } }, by and_intros <;> decide +kernel⟩,
  ⟨true, 3, put [(Reg.secReqStatusClaim, 0)], by and_intros <;> decide +kernel⟩,
  ⟨true, put [(Reg.secReqStatusClaim, 0), (Reg.secReqStatusBusy, 1)], by and_intros <;> decide +kernel⟩,
  ⟨true, put [(Reg.secReqStatusClaim, 0), (Reg.secReqStatusBusy, 0)], by and_intros <;> decide +kernel⟩,
  ⟨true, put [(Reg.secReqStatusClaim, 1)], by and_intros <;> decide +kernel⟩⟩

theorem test_met_VerifiedRequests :
    (∃ (q : SecReq) (s : State), (s.sec.request = some q) ∧ (q.type = 1)) ∧
    (∃ (q : SecReq) (s : State), (s.sec.request = some q) ∧ (q.type = 2)) ∧
    (∃ (q : SecReq) (s : State), (s.sec.request = some q) ∧ (q.type = 3)) ∧
    (∃ (q : SecReq) (s : State), (s.sec.request = some q) ∧ (q.type = 4)) ∧
    (∃ (x : Nat) (y : Nat) (s : State), (s.sec.trans = some (x, y, false))) ∧
    (∃ (x : Nat) (y : Nat) (s : State), (s.sec.trans = some (x, y, true)) ∧ (x < 256) ∧ (y < 256)) ∧
    (∃ (s : State), (s.lcState = 2) ∧ (s.rd Reg.secDbgLevel = 1)) :=
  ⟨⟨{ type := 1, target := 1, slot := 0, arg := 0 }, { (up) with sec := { request := some { type := 1, target := 1, slot := 0, arg := 0 } } }, by decide +kernel, by decide +kernel⟩,
  ⟨{ type := 2, target := 1, slot := 0, arg := 0 }, { (up) with sec := { request := some { type := 2, target := 1, slot := 0, arg := 0 } } }, by decide +kernel, by decide +kernel⟩,
  ⟨{ type := 3, target := 1, slot := 0, arg := 0 }, { (up) with sec := { request := some { type := 3, target := 1, slot := 0, arg := 0 } } }, by decide +kernel, by decide +kernel⟩,
  ⟨{ type := 4, target := 1, slot := 0, arg := 0 }, { (up) with sec := { request := some { type := 4, target := 1, slot := 0, arg := 0 } } }, by decide +kernel, by decide +kernel⟩,
  ⟨0, 1, { (up) with sec := { trans := some (0, 1, false) } }, by decide +kernel⟩,
  ⟨0, 1, { (up) with sec := { trans := some (0, 1, true) } }, by and_intros <;> decide +kernel⟩,
  ⟨{ (put [(Reg.secDbgLevel, 1)]) with otp := { lc := 3 } }, by decide +kernel, by decide +kernel⟩⟩

theorem test_met_JtagPort :
    (∃ (s : State), (s.inReset = false)) ∧
    (∃ (s : State), (s.inReset = false)) ∧
    (∃ (s : State), (s.inReset = true)) ∧
    (∃ (a : Nat) (s : State), (s.on Reg.secCfgJtagEn = true) ∧ (s.inReset = false) ∧ (inMailbox a = true)) ∧
    (∃ (a : Nat) (l : List Fld) (s : State), (s.on Reg.secCfgJtagEn = true) ∧ (s.inReset = false) ∧ (inMailbox a = true) ∧ (fieldsAt a = some l)) ∧
    (∃ (a : Nat) (s : State), (s.dbgGrants 1 = true) ∧ (s.jtagStatus a = 0)) ∧
    (∃ (a : Nat) (s : State), (s.dbgGrants 1 = true) ∧ (s.jtagStatus a ≠ 0)) ∧
    (∃ (a : Nat) (l : List Fld) (s : State), (s.dbgGrants 2 = true) ∧ (a % 4 = 0) ∧ (fieldsAt a = some l) ∧ (s.jtagStatus a = 0)) ∧
    (∃ (a : Nat) (l : List Fld) (s : State), (s.dbgGrants 2 = true) ∧ (a % 4 = 0) ∧ (fieldsAt a = some l) ∧ (s.jtagStatus a ≠ 0)) ∧
    (∃ (s : State), (s.dbgGrants 2 = true) ∧ (s.jtagStatus 0x2D00018 = 0)) ∧
    (∃ (m : MemKind) (i : Nat) (s : State), (s.dbgGrants 2 = true) ∧ (s.domStatus (memDomain m i) = 0)) ∧
    (∃ (m : MemKind) (i : Nat) (s : State), (s.dbgGrants 2 = true) ∧ (s.domStatus (memDomain m i) ≠ 0)) ∧
    (∃ (s : State), (s.dbgGrants 2 = true)) ∧
    (∃ (b : List Byte) (i : Nat) (s : State), (s.dbgGrants 2 = true) ∧ (s.domStatus 4 = 0) ∧ (b.length = 256) ∧ (i < 196608) ∧ (s.cellOwner i = none)) ∧
    (∃ (s : State), (s.dbgGrants 2 = true)) ∧
    (∃ (m : Nat) (d : Nat) (s : State), (s.dbgGrants 2 = true) ∧ (s.k9On = true) ∧ (d < 11) ∧ (bit m d = true) ∧ (s.pdOn d = true)) ∧
    (∃ (s : State), (s.dbgGrants 2 = false)) :=
  ⟨⟨up, by decide +kernel⟩,
  ⟨up, by decide +kernel⟩,
  ⟨{ up with pins := { up.pins with resetN := false } }, by decide +kernel⟩,
  ⟨0x2B00050, put [(Reg.secCfgJtagEn, 1), (Reg.secCfgJtagEn, 1), (Reg.secDbgLevel, 2)], by and_intros <;> decide +kernel⟩,
  ⟨0x2B00050, (fieldsAt 0x2B00050).getD [], put [(Reg.secCfgJtagEn, 1), (Reg.secCfgJtagEn, 1), (Reg.secDbgLevel, 2)], by and_intros <;> decide +kernel⟩,
  ⟨0x2D00018, put [(Reg.secCfgJtagEn, 1), (Reg.secDbgLevel, 2)], by decide +kernel, by decide +kernel⟩,
  ⟨0x1000000, { (put [(Reg.secCfgJtagEn, 1), (Reg.secDbgLevel, 2)]) with pwr := { up.pwr with gates := 1 } }, by decide +kernel, by decide +kernel⟩,
  ⟨0x2D00018, (fieldsAt 0x2D00018).getD [], put [(Reg.secCfgJtagEn, 1), (Reg.secDbgLevel, 2)], by and_intros <;> decide +kernel⟩,
  ⟨0x1000000, (fieldsAt 0x1000000).getD [], { (put [(Reg.secCfgJtagEn, 1), (Reg.secDbgLevel, 2)]) with pwr := { up.pwr with gates := 1 } }, by and_intros <;> decide +kernel⟩,
  ⟨put [(Reg.secCfgJtagEn, 1), (Reg.secDbgLevel, 2)], by decide +kernel, by decide +kernel⟩,
  ⟨.journal, 5, put [(Reg.secCfgJtagEn, 1), (Reg.secDbgLevel, 2)], by decide +kernel, by decide +kernel⟩,
  ⟨.fdb, 0, { (put [(Reg.secCfgJtagEn, 1), (Reg.secDbgLevel, 2), (Reg.pwrDomainsOn, 1)]) with pwr := { up.pwr with gates := 1 } }, by decide +kernel, by decide +kernel⟩,
  ⟨put [(Reg.secCfgJtagEn, 1), (Reg.secDbgLevel, 2)], by decide +kernel⟩,
  ⟨List.replicate 256 1, 5, put [(Reg.secCfgJtagEn, 1), (Reg.secDbgLevel, 2)], by and_intros <;> decide +kernel⟩,
  ⟨put [(Reg.secCfgJtagEn, 1), (Reg.secDbgLevel, 2)], by decide +kernel⟩,
  ⟨0x20, 5, put [(Reg.secCfgJtagEn, 1), (Reg.secDbgLevel, 2)], by and_intros <;> decide +kernel⟩,
  ⟨up, by decide +kernel⟩⟩

theorem test_met_HostRegisters :
    (∃ (p : Fin 2) (a : Nat) (v : Word) (l : List Fld) (s : State), (s.pathOn p = true) ∧ (s.on Reg.devResetStatusHvBusy = false) ∧ (s.hostOpen = true) ∧ (unmapped a = false) ∧ (s.pdOn (domainOf a) = true) ∧ (fieldsAt a = some l) ∧ (l.any (s.imgWrite v.toNat) = false)) ∧
    (∃ (p : Fin 2) (s : State), (s.pathOn p = true) ∧ (s.on Reg.devResetStatusHvBusy = false) ∧ (s.hostOpen = true) ∧ (s.pdOn (domainOf 0x2D00018) = true)) ∧
    (∃ (p : Fin 2) (a : Nat) (s : State), (s.pathOn p = true) ∧ (s.on Reg.devResetStatusHvBusy = false) ∧ (s.hostOpen = true) ∧ (unmapped a = true) ∧ (s.on Reg.hifAccErrValid = false)) ∧
    (∃ (s : State), (s.configOn = true)) ∧
    (∃ (s : State), (s.configOn = true) ∧ (s.hif.pba = 0)) ∧
    (∃ (v : Word) (s : State), (s.configOn = true) ∧ (v.toNat % 4 = 3)) ∧
    (∃ (s : State), (s.bar2On = true) ∧ (s.on Reg.devResetStatusHvBusy = false)) ∧
    (∃ (r : Fin 6) (v : Word) (s : State), (s.ringOn r = false) ∧ (bit v.toNat 8 = true)) ∧
    (∃ (r : Fin 6) (v : Word) (s : State), (s.ringOn r = true) ∧ (bit v.toNat 8 = false) ∧ (s.rd (Reg.hifRingCtlSize r) = (if 6 ≤ v.toNat % 32 ∧ v.toNat % 32 ≤ 16 then v.toNat % 32 else 6))) :=
  ⟨⟨1, 0x2D00018, 5, (fieldsAt 0x2D00018).getD [], put [(Reg.devResetStatusHvBusy, 0)], by and_intros <;> decide +kernel⟩,
  ⟨1, put [(Reg.devResetStatusHvBusy, 0)], by and_intros <;> decide +kernel⟩,
  ⟨1, 5, put [(Reg.devResetStatusHvBusy, 0), (Reg.hifAccErrValid, 0)], by and_intros <;> decide +kernel⟩,
  ⟨up, by decide +kernel⟩,
  ⟨up, by decide +kernel, by decide +kernel⟩,
  ⟨3, up, by decide +kernel, by decide +kernel⟩,
  ⟨put [(Reg.devResetStatusHvBusy, 0)], by decide +kernel, by decide +kernel⟩,
  ⟨3, 0x106, up, by decide +kernel, by decide +kernel⟩,
  ⟨3, 6, put [(Reg.hifRingCtlEn (3 : Fin 6), 1), (Reg.hifRingCtlSize (3 : Fin 6), 6)], by and_intros <;> decide +kernel⟩⟩

theorem test_met_HostReads :
    (∃ (s : State), (s.pathOn 0 = true)) ∧
    (∃ (a : Nat) (s : State), (s.pathOn 0 = true) ∧ (s.blockShut a = false) ∧ (unmapped a = false) ∧ (s.pdOn (domainOf a) = true)) ∧
    (∃ (a : Nat) (s : State), (s.pathOn 0 = true) ∧ (s.blockShut a = false) ∧ (unmapped a = true) ∧ (s.on Reg.hifAccErrValid = false)) ∧
    (∃ (s : State), (s.pathOn 0 = true) ∧ (s.hostOpen = true) ∧ (s.pdOn (domainOf 0x2D00014) = true) ∧ (s.on Reg.devResetStatusHvBusy = false)) ∧
    (∃ (s : State), (s.bar2On = true)) ∧
    (∃ (s : State), (s.bar2On = true)) ∧
    (∃ (s : State), (s.bar2On = true)) ∧
    (∃ (s : State) (a : Nat), (s.bar2On = true) ∧ (0x30 ≤ a) ∧ (a < 0x8000)) ∧
    (∃ (s : State), (s.configOn = true)) ∧
    (∃ (s : State), (s.configOn = false)) :=
  ⟨⟨up, by decide +kernel⟩,
  ⟨0x2D00018, up, by and_intros <;> decide +kernel⟩,
  ⟨0x2D00FF4, put [(Reg.hifAccErrValid, 0)], by and_intros <;> decide +kernel⟩,
  ⟨put [(Reg.devResetStatusHvBusy, 0)], by and_intros <;> decide +kernel⟩,
  ⟨up, by decide +kernel⟩,
  ⟨up, by decide +kernel⟩,
  ⟨up, by decide +kernel⟩,
  ⟨up, 0x100, by and_intros <;> decide +kernel⟩,
  ⟨up, by decide +kernel⟩,
  ⟨put [(Reg.hifStatusLinkUp, 0)], by decide +kernel⟩⟩

theorem test_met_NoHostWriteMovesReferences :
    (∃ (p : Fin 2) (a : Nat) (v : Word) (w : List Word) (be : Fin 16) (i : Instr) (s : State) (t : State), (0x200000 ≤ a) ∧ ((i = .registerWrite p 0 a v be ∧ a < 0x300000) ∨ (i = .smiWrite a w ∧ a + 4 * w.length ≤ 0x300000)) ∧ (exec i s = .next t)) ∧
    (∃ (p : Fin 2) (a : Nat) (v : Word) (w : List Word) (be : Fin 16) (i : Instr) (s : State) (t : State) (f : Fld), (0x200000 ≤ a) ∧ ((i = .registerWrite p 0 a v be ∧ a < 0x300000) ∨ (i = .smiWrite a w ∧ a + 4 * w.length ≤ 0x300000)) ∧ (exec i s = .next t) ∧ (0x200000 ≤ f.addr) ∧ (f.addr < 0x300000) ∧ (f.lo < 32)) :=
  ⟨⟨1, 0x200000, 5, [], 3, .registerWrite 1 0 0x200000 5 3, up, nx (exec (.registerWrite 1 0 0x200000 5 3) up), by decide +kernel, by decide +kernel, by rfl⟩,
  ⟨1, 0x200000, 5, [], 3, .registerWrite 1 0 0x200000 5 3, up, nx (exec (.registerWrite 1 0 0x200000 5 3) up), Reg.refselCandCfgPair 0, by decide +kernel, by decide +kernel, by rfl, by and_intros <;> decide +kernel⟩⟩

theorem test_met_SmiTransactions :
    (∃ (s : State), (s.inReset = true)) ∧
    (∃ (s : State), (s.on Reg.hifCfgSmiEn = true) ∧ (s.inReset = false)) ∧
    (∃ (s : State), (s.on Reg.hifCfgSmiEn = true) ∧ (s.inReset = false)) ∧
    (∃ (s : State), (s.on Reg.hifCfgSmiEn = true) ∧ (s.inReset = false) ∧ (s.pathOn 1 = true) ∧ (s.on Reg.devResetStatusHvBusy = false) ∧ (s.inPhase 9 = true) ∧ (s.pdOn (domainOf 0x2D00018) = true)) ∧
    (∃ (s : State), (s.on Reg.hifCfgSmiEn = true) ∧ (s.inReset = false)) ∧
    (∃ (s : State), (s.on Reg.hifCfgSmiEn = true) ∧ (s.inReset = false) ∧ (s.k9On = true) ∧ (s.on Reg.hifAccErrValid = false)) :=
  ⟨⟨{ up with pins := { up.pins with resetN := false } }, by decide +kernel⟩,
  ⟨put [(Reg.hifCfgSmiEn, 1)], by decide +kernel, by decide +kernel⟩,
  ⟨put [(Reg.hifCfgSmiEn, 1)], by decide +kernel, by decide +kernel⟩,
  ⟨put [(Reg.hifCfgSmiEn, 1), (Reg.devResetStatusHvBusy, 0), (Reg.devBootPhase, 9)], by and_intros <;> decide +kernel⟩,
  ⟨put [(Reg.hifCfgSmiEn, 1)], by decide +kernel, by decide +kernel⟩,
  ⟨put [(Reg.hifCfgSmiEn, 1), (Reg.hifAccErrValid, 0)], by and_intros <;> decide +kernel⟩⟩

theorem test_met_HostQueues :
    (∃ (r : List Byte) (l : List (List Byte)) (s : State), (s.tbl.lnq = r :: l) ∧ (s.dmaOn = true) ∧ (s.on Reg.hifCfgLnqFifo = false) ∧ (0 < s.ringRoom 0)) ∧
    (∃ (s : State), (s.dmaOn = true) ∧ (s.pdOn 3 = true) ∧ (s.on Reg.hifCfgTcqFifo = false) ∧ (0 < s.ringReady 1) ∧ (s.tbl.tcq.length < 256) ∧ ((s.tbl.tcq.filter (·.dma)).length < s.ringRoom 2)) ∧
    (∃ (p : Fin 3) (s : State) (r : List Byte) (l : List (List Byte)), (s.k9On = true) ∧ ((p.val < 2 → s.pathOn p = true ∧ s.hostOpen = true)) ∧ (s.pdOn 3 = true) ∧ ((p.val < 2 → s.on Reg.devResetStatusHvBusy = false)) ∧ (s.tbl.lnq = r :: l) ∧ (s.lnqFifo p = true) ∧ (slice r 0 32 = s.windowRec p 8 Reg.hifLnqDataData)) ∧
    (∃ (p : Fin 3) (s : State), (s.k9On = true) ∧ ((p.val < 2 → s.pathOn p = true ∧ s.hostOpen = true)) ∧ (s.pdOn 3 = true) ∧ ((p.val < 2 → s.on Reg.devResetStatusHvBusy = false)) ∧ (s.tcqFifo p = true) ∧ (s.tbl.tcq.length < 256)) ∧
    (∃ (p : Fin 3) (s : State) (r : List Byte) (l : List (List Byte)), (s.k9On = true) ∧ ((p.val < 2 → s.pathOn p = true ∧ s.hostOpen = true)) ∧ (s.pdOn 3 = true) ∧ ((p.val < 2 → s.on Reg.devResetStatusHvBusy = false)) ∧ (s.hif.tcr = r :: l) ∧ (s.tcqFifo p = true) ∧ (slice r 0 16 = s.windowRec p 4 Reg.hifTcrDataData)) ∧
    (∃ (p : Fin 3) (s : State), (s.k9On = true) ∧ ((p.val < 2 → s.pathOn p = true ∧ s.hostOpen = true)) ∧ (s.pdOn 3 = true)) ∧
    (∃ (p : Fin 2) (s : State), (s.pathOn p = true) ∧ (s.hostOpen = true) ∧ (s.pdOn 3 = false) ∧ (s.on Reg.hifAccErrValid = false)) ∧
    (∃ (p : Fin 2) (s : State), (s.pathOn p = true) ∧ (s.hostOpen = true) ∧ (s.pdOn 3 = false) ∧ (s.on Reg.hifAccErrValid = false) ∧ (s.on Reg.devResetStatusHvBusy = false)) ∧
    (∃ (p : Fin 2) (s : State), (s.pathOn p = true) ∧ (s.on Reg.devResetStatusHvBusy = true) ∧ (s.on Reg.hifAccErrValid = false)) ∧
    (∃ (p : Fin 2) (s : State), (s.pathOn p = true) ∧ (s.hostOpen = false)) ∧
    (∃ (p : Fin 2) (s : State), (s.pathOn p = true) ∧ (s.hostOpen = false) ∧ (s.on Reg.devResetStatusHvBusy = false)) :=
  ⟨⟨List.replicate 32 1, [], ringAt { (put [(Reg.hifCfgLnqFifo, 0)]) with tbl := { lnq := [(List.replicate 32 1 : List Byte)] } } 0 0, by and_intros <;> decide +kernel⟩,
  ⟨ringAt (ringAt (put [(Reg.hifCfgTcqFifo, 0)]) 1 1) 2 0, by and_intros <;> decide +kernel⟩,
  ⟨1, { (up) with tbl := { lnq := [(List.replicate 32 0 : List Byte)] } }, List.replicate 32 0, [], by and_intros <;> decide +kernel⟩,
  ⟨1, up, by and_intros <;> decide +kernel⟩,
  ⟨1, { (up) with hif := { up.hif with tcr := [(List.replicate 32 0 : List Byte)] } }, List.replicate 32 0, [], by and_intros <;> decide +kernel⟩,
  ⟨1, up, by and_intros <;> decide +kernel⟩,
  ⟨1, { (put [(Reg.hifAccErrValid, 0), (Reg.pwrDomainsOn, 7)]) with pwr := { up.pwr with gates := 7 } }, by and_intros <;> decide +kernel⟩,
  ⟨1, { (put [(Reg.hifAccErrValid, 0), (Reg.devResetStatusHvBusy, 0), (Reg.pwrDomainsOn, 7)]) with pwr := { up.pwr with gates := 7 } }, by and_intros <;> decide +kernel⟩,
  ⟨1, put [(Reg.devResetStatusHvBusy, 1), (Reg.hifAccErrValid, 0)], by and_intros <;> decide +kernel⟩,
  ⟨1, put [(Reg.devBootPhase, 10)], by decide +kernel, by decide +kernel⟩,
  ⟨1, put [(Reg.devResetStatusHvBusy, 0), (Reg.devBootPhase, 10)], by and_intros <;> decide +kernel⟩⟩

theorem test_met_HostFrames :
    (∃ (e : List Byte) (b : List Byte) (s : State), (s.dmaOn = true) ∧ (s.pdOn 4 = true) ∧ (s.ringReady 3 ≠ 0) ∧ (s.txfOk (slice e 0 32) = true) ∧ (cellsOf ((slice b 0 (u16 (slice e 0 32) 8)).length + 4) ≤ s.sharedFree)) ∧
    (∃ (s : State), (s.frozen = true)) ∧
    (∃ (rxb : List Byte) (id : Nat) (reason : Nat) (l : List (Nat × Nat)) (s : State), (s.fab.hostq = (id, reason) :: l) ∧ (s.dmaOn = true) ∧ (s.frozen = false) ∧ (s.on Reg.hifCfgFramesEn = true) ∧ (s.ringReady 4 ≠ 0) ∧ (s.ringRoom 5 ≠ 0) ∧ ((s.frame id).bytes.length ≤ u16 rxb 8)) ∧
    (∃ (rxb : List Byte) (id : Nat) (reason : Nat) (l : List (Nat × Nat)) (s : State), (s.fab.hostq = (id, reason) :: l) ∧ (s.dmaOn = true) ∧ (s.frozen = false) ∧ (s.on Reg.hifCfgFramesEn = true) ∧ (s.ringReady 4 ≠ 0) ∧ (s.ringRoom 5 ≠ 0) ∧ (u16 rxb 8 < (s.frame id).bytes.length)) :=
  ⟨⟨[0, 0, 0, 0, 0, 0, 0, 0, 64, 0, 3, 2] ++ List.replicate 20 0, List.replicate 64 1, ringAt (put [(Reg.laneCfgMode 3, 1)]) 3 1, by and_intros <;> decide +kernel⟩,
  ⟨{ up with sec := { scanStop := 1 } }, by decide +kernel⟩,
  ⟨[0, 0, 0, 0, 0, 0, 0, 0, 64, 0] ++ List.replicate 6 0, 5, 5, [], ringAt (ringAt { (put [(Reg.hifCfgFramesEn, 1)]) with fab := { hostq := [((5 : Nat), (5 : Nat))], frames := [(5, { bytes := List.replicate 64 1, ingress := 3 })] } } 4 1) 5 0, by and_intros <;> decide +kernel⟩,
  ⟨[0, 0, 0, 0, 0, 0, 0, 0, 63, 0] ++ List.replicate 6 0, 5, 5, [], ringAt (ringAt { (put [(Reg.hifCfgFramesEn, 1)]) with fab := { hostq := [((5 : Nat), (5 : Nat))], frames := [(5, { bytes := List.replicate 64 1, ingress := 3 })] } } 4 1) 5 0, by and_intros <;> decide +kernel⟩⟩

theorem test_met_SamplesOfABase :
    (∃ (n : Fin 8) (k : Fin 2) (s : State), ((s.tb k n).state = tbAcquire ∨ (s.tb k n).state = tbTrack)) ∧
    (∃ (n : Fin 8) (k : Fin 2) (s : State), ((s.tb k n).p ≠ 0) ∧ ((s.tb k n).pend.natAbs ≤ (s.tb k n).p.natAbs)) ∧
    (∃ (n : Fin 8) (k : Fin 2) (e : Int) (s : State), ((s.tb k n).waiting = some e) ∧ (s.halted = false) ∧ (1024 ≤ (s.tb k n).since) ∧ ((s.tb k n).state = tbAcquire ∨ (s.tb k n).state = tbTrack ∨ (s.tb k n).state = tbHold)) ∧
    (∃ (p : Fin 4) (k : Fin 2) (s : State), (s.activeTk = k) ∧ (s.on (Reg.tkPairEn p) = true) ∧ ((s.rd (Reg.tkPairPrimary p)) < 8) ∧ ((s.rd (Reg.tkPairShadow p)) < 8) ∧ ((s.tb k (s.rd (Reg.tkPairPrimary p))).state = tbRamp) ∧ ((s.tb k (s.rd (Reg.tkPairPrimary p))).f + ppbTerm ≤ (s.tb k (s.rd (Reg.tkPairShadow p))).f)) ∧
    (∃ (k : Fin 2) (s : State), (s.xc.loading = true) ∧ (s.activeTk = k)) ∧
    (∃ (w : Option (List (Fin 320))) (m : XcMsg) (s : State), (s.on Reg.tkStatusStandbyRun = true) ∧ (s.xcReceived s.xc.next w = some m) ∧ (m.index < 8) ∧ (s.on (Reg.tkTbCfgEnable m.index) = true) ∧ (s.unit (3 - s.activeTk) ≠ unitStandby)) ∧
    (∃ (n : Fin 8) (s : State), ((s.atb n).t < 2 ^ 96) ∧ (-(2 ^ 63) ≤ (s.atb n).f) ∧ ((s.atb n).f < 2 ^ 63) ∧ (-(2 ^ 127) ≤ (s.atb n).pend) ∧ ((s.atb n).pend < 2 ^ 127) ∧ ((s.atb n).state < 256)) ∧
    (∃ (w : Option (List (Fin 320))) (s : State), (s.on Reg.tkStatusStandbyRun = true) ∧ (s.xcReceived s.xc.next w = none) ∧ (s.xc.bad < 63) ∧ (s.on Reg.tkStatusXlinkLost = false) ∧ (s.on Reg.tkStatusXcOk = false)) :=
  ⟨⟨3, 1, tbIn (up) (1 : Fin 2).val (3 : Fin 8).val tbTrack, by decide +kernel⟩,
  ⟨3, 1, (up).setTb (1 : Fin 2).val (3 : Fin 8).val { state := tbTrack, valid := true, p := 1000 }, by decide +kernel, by decide +kernel⟩,
  ⟨3, 1, 3, (up).setTb (1 : Fin 2).val (3 : Fin 8).val { state := tbTrack, valid := true, waiting := some (3 : Int) }, by and_intros <;> decide +kernel⟩,
  ⟨3, 1, ((put [(Reg.tkStatusActive, (1 : Fin 2)), (Reg.tkPairEn (3 : Fin 4), 1), (Reg.tkPairShadow (3 : Fin 4), 2), (Reg.tkPairPrimary (3 : Fin 4), 1)]).setTb (1 : Fin 2).val 1 { state := tbRamp, valid := true }).setTb (1 : Fin 2).val 2 { state := tbTrack, valid := true, f := ppbTerm }, by and_intros <;> decide +kernel⟩,
  ⟨1, { (put [(Reg.tkStatusActive, (1 : Fin 2))]) with xc := { loading := true } }, by decide +kernel, by decide +kernel⟩,
  ⟨some [], up.xcMsg 0, put [(Reg.tkStatusStandbyRun, 1), (Reg.tkTbCfgEnable (up.xcMsg 0 : XcMsg).index, 1), (Reg.tkTbCfgEnable 0, 1)], by and_intros <;> decide +kernel⟩,
  ⟨3, up, by and_intros <;> decide +kernel⟩,
  ⟨none, put [(Reg.tkStatusStandbyRun, 1), (Reg.tkStatusXlinkLost, 0), (Reg.tkStatusXcOk, 0)], by and_intros <;> decide +kernel⟩⟩

theorem test_met_FeedAndTimes :
    (∃ (n : Fin 8) (g : Fin 65536) (s : State), (g.val ≠ s.rd (Reg.tkTbStatusGen n))) ∧
    (∃ (n : Fin 8) (g : Fin 65536) (s : State), (g.val = s.rd (Reg.tkTbStatusGen n)) ∧ (s.on (Reg.tkTbCfgEnable n) = true)) ∧
    (∃ (n : Fin 8) (g : Fin 65536) (s : State), (g.val = s.rd (Reg.tkTbStatusGen n)) ∧ (s.on (Reg.tkTbCfgEnable n) = true) ∧ (s.rd (Reg.tkTbCfgSrc n) = 2) ∧ (s.halted = false) ∧ ((s.atb n).state ≠ tbUnset) ∧ (s.pairOf n = none) ∧ ((∀ j < 2, (s.tb j n).state = tbTrack ∧ (s.tb j n).since < 1024 ∧ (s.tb j n).waiting = none))) ∧
    (∃ (n : Fin 8) (g : Fin 65536) (k : Fin 2) (s : State), (g.val = s.rd (Reg.tkTbStatusGen n)) ∧ (s.on (Reg.tkTbCfgEnable n) = true) ∧ (s.rd (Reg.tkTbCfgSrc n) = 2) ∧ (s.halted = false) ∧ (s.tbValid n = false) ∧ (s.rd (Reg.tkTbSetNsSetNs n) ≤ 999999999) ∧ ((s.tb k n).state = tbUnset)) ∧
    (∃ (m : Fin 4) (s : State), (s.on (Reg.refselCandCfgPair (2 * m.val)) = true) ∧ ((s.cand (2 * m.val)).ppsRun = 2) ∧ ((∀ n < 8, s.tbSrc s.activeTk n ≠ (3, m.val)))) ∧
    (∃ (m : Fin 4) (s : State), (s.on (Reg.refselCandCfgPair (2 * m.val)) = true)) ∧
    (∃ (n : Fin 8) (p : Fin 3) (s : State), (s.reached p (Reg.tkTbNowSecLoNowSecLo n).addr = true) ∧ (s.pdOn 0 = true)) ∧
    (∃ (n : Fin 8) (p : Fin 3) (s : State), (s.reached p (Reg.tkTbOffLoOffLo n).addr = true) ∧ (s.pdOn 0 = true)) ∧
    (∃ (a : Nat) (p : Fin 3) (s : State), (isLo48 a = true) ∧ (s.pdOn (domainOf a) = true) ∧ (s.k9On = true) ∧ ((p.val < 2 → s.pathOn p = true ∧ s.blockShut a = false ∧ unmapped a = false))) :=
  ⟨⟨3, 3, up, by decide +kernel⟩,
  ⟨3, 3, put [(Reg.tkTbStatusGen (3 : Fin 8), (3 : Fin 65536).val), (Reg.tkTbCfgEnable (3 : Fin 8), 1)], by decide +kernel, by decide +kernel⟩,
  ⟨3, 3, (((put [(Reg.tkTbStatusGen (3 : Fin 8), (3 : Fin 65536).val), (Reg.tkTbCfgEnable (3 : Fin 8), 1), (Reg.tkTbCfgSrc (3 : Fin 8), 2)]).setTb 0 (3 : Fin 8).val { state := tbTrack, valid := true, since := 0 }).setTb 1 (3 : Fin 8).val { state := tbTrack, valid := true, since := 0 }), by decide +kernel, by decide +kernel, by decide +kernel, by decide +kernel, by decide +kernel, by decide +kernel, below (by decide +kernel)⟩,
  ⟨3, 3, 1, tbIn (put [(Reg.tkTbStatusGen (3 : Fin 8), (3 : Fin 65536).val), (Reg.tkTbCfgEnable (3 : Fin 8), 1), (Reg.tkTbCfgSrc (3 : Fin 8), 2)]) (1 : Fin 2).val (3 : Fin 8).val tbUnset, by and_intros <;> decide +kernel⟩,
  ⟨3, (put [(Reg.refselCandCfgPair (2 * (3 : Fin 4).val), 1)]).setCand (2 * (3 : Fin 4).val) { ppsRun := 2 }, by decide +kernel, by decide +kernel, below (by decide +kernel)⟩,
  ⟨3, put [(Reg.refselCandCfgPair (2 * (3 : Fin 4).val), 1)], by decide +kernel⟩,
  ⟨3, 1, up, by decide +kernel, by decide +kernel⟩,
  ⟨3, 1, up, by decide +kernel, by decide +kernel⟩,
  ⟨0x800030, 1, up, by and_intros <;> decide +kernel⟩⟩

theorem test_met_ServoBounds :
    (∃ (b : TBase), (b.first = false)) ∧
    (∃ (b : TBase), (b.first = true)) :=
  ⟨⟨{ first := false }, by decide +kernel⟩,
  ⟨{}, by decide +kernel⟩⟩

theorem test_met_CountingIsExact :
    (∃ (b : TBase) (range : Nat), (b.f = 0) ∧ (b.p = 0) ∧ (b.r < 165) ∧ (b.a < tbM) ∧ (b.t < range)) :=
  ⟨{}, 5, by and_intros <;> decide +kernel⟩

theorem test_met_PulseGenerators :
    (∃ (p : Fin 16) (g : Fin 65536) (s : State), (g.val ≠ s.rd (Reg.tsPgStatusGen p))) ∧
    (∃ (p : Fin 16) (g : Fin 65536) (s : State), (g.val = s.rd (Reg.tsPgStatusGen p)) ∧ (s.on (Reg.tsPgCfgOwner p) = true)) ∧
    (∃ (p : Fin 16) (g : Fin 65536) (s : State), (g.val = s.rd (Reg.tsPgStatusGen p)) ∧ (s.on (Reg.tsPgCfgOwner p) = true) ∧ (s.pgState p = pgArmed ∨ s.pgState p = pgActive ∨ s.pgState p = pgHeld)) ∧
    (∃ (p : Fin 16) (g : Fin 65536) (s : State), (g.val = s.rd (Reg.tsPgStatusGen p)) ∧ (s.on (Reg.tsPgCfgOwner p) = true) ∧ (s.pgState p = pgOff ∨ s.pgState p = pgDone) ∧ (s.stgOk = true) ∧ (s.rd Reg.tsPgStgCfgTb < 8) ∧ (s.tbValid (s.rd Reg.tsPgStgCfgTb) = false)) ∧
    (∃ (p : Fin 16) (g : Fin 65536) (s : State), (g.val = s.rd (Reg.tsPgStatusGen p)) ∧ (s.on (Reg.tsPgCfgOwner p) = true) ∧ ((s.pg p).high = false)) ∧
    (∃ (p : Fin 16) (s : State), (s.frozen = false) ∧ (s.pdOn 10 = true) ∧ ((s.pg p).high = false) ∧ (s.pgState p = pgArmed) ∧ (0 ≤ (s.pgLead p ((s.pgStart p + (s.pg p).k * s.pgPeriod p) % s.tbRange (s.rd (Reg.tsPgCfgTb p))))) ∧ ((s.pgLead p ((s.pgStart p + (s.pg p).k * s.pgPeriod p) % s.tbRange (s.rd (Reg.tsPgCfgTb p)))) < s.cycleLen (s.rd (Reg.tsPgCfgTb p)))) ∧
    (∃ (p : Fin 16) (s : State), (s.frozen = false) ∧ (s.pdOn 10 = true) ∧ ((s.pg p).high = true) ∧ ((s.pg p).loose = false) ∧ (s.pgState p = pgActive) ∧ ((s.pg p).disarm = false) ∧ (s.pgBeyond p (s.pg p).k = false) ∧ (0 ≤ (s.pgLead p (((s.pg p).rise + (s.pg p).width) % s.tbRange (s.rd (Reg.tsPgCfgTb p))))) ∧ ((s.pgLead p (((s.pg p).rise + (s.pg p).width) % s.tbRange (s.rd (Reg.tsPgCfgTb p)))) < s.cycleLen (s.rd (Reg.tsPgCfgTb p)))) :=
  ⟨⟨3, 3, up, by decide +kernel⟩,
  ⟨3, 3, put [(Reg.tsPgStatusGen (3 : Fin 16), (3 : Fin 65536).val), (Reg.tsPgCfgOwner (3 : Fin 16), 1)], by decide +kernel, by decide +kernel⟩,
  ⟨3, 3, put [(Reg.tsPgStatusGen (3 : Fin 16), (3 : Fin 65536).val), (Reg.tsPgCfgOwner (3 : Fin 16), 1), (Reg.tsPgStatusState (3 : Fin 16), pgArmed)], by and_intros <;> decide +kernel⟩,
  ⟨3, 3, put [(Reg.tsPgStatusGen (3 : Fin 16), (3 : Fin 65536).val), (Reg.tsPgCfgOwner (3 : Fin 16), 1), (Reg.tsPgStatusState (3 : Fin 16), pgOff), (Reg.tkTbCfgEnable 0, 1), (Reg.tsPgStgWidthLoWidth, 0x2000000), (Reg.tsPgStgPeriodLoPeriod, 0x8000000), (Reg.tsPgStgCfgMode, 1)], by and_intros <;> decide +kernel⟩,
  ⟨3, 3, put [(Reg.tsPgStatusGen (3 : Fin 16), (3 : Fin 65536).val), (Reg.tsPgCfgOwner (3 : Fin 16), 1)], by and_intros <;> decide +kernel⟩,
  ⟨3, put [(Reg.tsPgStatusState (3 : Fin 16), pgArmed)], by and_intros <;> decide +kernel⟩,
  ⟨3, (put [(Reg.tsPgStatusState (3 : Fin 16), pgActive)]).setPg (3 : Fin 16).val { high := true }, by and_intros <;> decide +kernel⟩⟩

theorem test_met_CapturesAndQueues :
    (∃ (c : Fin 16) (pop : Bool) (s : State), (s.rd (Reg.tsCapCfgEdge c) = 3) ∧ (s.on (Reg.tsCapCfgGate c) = false) ∧ (s.pdOn 10 = true) ∧ (Tab.get s.pul.last c none = none) ∧ ((if pop then (s.capq c).tail else s.capq c).length < 16)) ∧
    (∃ (c : Fin 16) (pop : Bool) (s : State), (s.rd (Reg.tsCapCfgEdge c) = 3) ∧ (s.on (Reg.tsCapCfgGate c) = false) ∧ (s.pdOn 10 = true) ∧ (Tab.get s.pul.last c none = none) ∧ (16 ≤ (if pop then (s.capq c).tail else s.capq c).length)) ∧
    (∃ (c : Fin 16) (s : State), (s.rd (Reg.tsCapCfgEdge c) = 0)) ∧
    (∃ (n : Fin 128) (e : TxEnt) (l : List TxEnt) (s : State), (s.txq n = e :: l)) ∧
    (∃ (n : Fin 16) (e : CapEnt) (l : List CapEnt) (s : State), (s.capq n = e :: l)) ∧
    (∃ (n : Fin 128) (s : State), (s.txq n = [])) ∧
    (∃ (n : Fin 16) (s : State), (s.capq n = [])) ∧
    (∃ (n : Fin 128) (p : Fin 3) (s : State), (n.val < 16) ∧ (s.reached p (Reg.tsCapEntry0Tb n).addr = true) ∧ (s.pdOn 10 = true)) ∧
    (∃ (n : Fin 128) (p : Fin 3) (s : State), (s.reached p (Reg.tsTxqEntry0Tb n).addr = true) ∧ (s.pdOn (5 + n.val / 32) = true)) ∧
    (∃ (n : Fin 128) (p : Fin 3) (s : State), (p.val < 2) ∧ (s.on Reg.hifAccErrValid = false) ∧ (s.reached p (Reg.tsTxqEntry0Tb n).addr = true) ∧ (s.pdOn (5 + n.val / 32) = false)) :=
  ⟨⟨3, true, put [(Reg.tsCapCfgEdge (3 : Fin 16), 3), (Reg.tsCapCfgGate (3 : Fin 16), 0)], by and_intros <;> decide +kernel⟩,
  ⟨3, true, (put [(Reg.tsCapCfgEdge (3 : Fin 16), 3), (Reg.tsCapCfgGate (3 : Fin 16), 0)]).setCapq (3 : Fin 16).val (List.replicate 17 { tb := 3, t := 7, valid := true, window := none, inHigh := false, rising := true }), by and_intros <;> decide +kernel⟩,
  ⟨3, put [(Reg.tsCapCfgEdge (3 : Fin 16), 0)], by decide +kernel⟩,
  ⟨3, { id := 5, tb := 3, t := 7, valid := true, bad := false }, [], (up).setTxq (3 : Fin 128) [({ id := 5, tb := 3, t := 7, valid := true, bad := false } : TxEnt)], by decide +kernel⟩,
  ⟨3, { tb := 3, t := 7, valid := true, window := none, inHigh := false, rising := true }, [], (up).setCapq (3 : Fin 16) [({ tb := 3, t := 7, valid := true, window := none, inHigh := false, rising := true } : CapEnt)], by decide +kernel⟩,
  ⟨3, up, by decide +kernel⟩,
  ⟨3, up, by decide +kernel⟩,
  ⟨3, 1, up, by and_intros <;> decide +kernel⟩,
  ⟨3, 1, up, by decide +kernel, by decide +kernel⟩,
  ⟨3, 1, { (put [(Reg.hifAccErrValid, 0), (Reg.pwrDomainsOn, 0x7DF)]) with pwr := { up.pwr with gates := 0x7DF } }, by and_intros <;> decide +kernel⟩⟩

theorem test_met_Monitors :
    (∃ (d : TagDue) (l : List TagDue) (s : State), (s.pmon.due = d :: l) ∧ (s.on Reg.pmonGleanStatusFull = true) ∧ (s.on Reg.pmonGleanCtlWrap = false)) ∧
    (∃ (d : TagDue) (l : List TagDue) (s : State), (s.pmon.due = d :: l) ∧ (s.on Reg.pmonGleanStatusFull = false)) ∧
    (∃ (k : Nat) (s : State), (s.bwOn = true) ∧ (s.bwW ≠ 0) ∧ (s.pmon.next = some k) ∧ (s.bwDue k = false)) ∧
    (∃ (k : Nat) (s : State), (s.bwOn = true) ∧ (s.bwW ≠ 0) ∧ (s.pmon.next = some k) ∧ (s.bwDue k = true)) :=
  ⟨⟨{ k9 := 5, egress := 3, id := 5, bytes := List.replicate 32 1 }, [], { (put [(Reg.pmonGleanStatusFull, 1), (Reg.pmonGleanCtlWrap, 0)]) with pmon := { due := [({ k9 := 5, egress := 3, id := 5, bytes := List.replicate 32 1 } : TagDue)] } }, by and_intros <;> decide +kernel⟩,
  ⟨{ k9 := 5, egress := 3, id := 5, bytes := List.replicate 32 1 }, [], { (put [(Reg.pmonGleanStatusFull, 0)]) with pmon := { due := [({ k9 := 5, egress := 3, id := 5, bytes := List.replicate 32 1 } : TagDue)] } }, by decide +kernel, by decide +kernel⟩,
  ⟨2, { ((put [(Reg.pmonBwCfgEn, 1), (Reg.pmonBwCfgWinUs, 1000)]).setTb 0 0 { state := tbTrack, valid := true }) with pmon := { next := some (2 : Nat) } }, by and_intros <;> decide +kernel⟩,
  ⟨2, { ((put [(Reg.pmonBwCfgEn, 1), (Reg.pmonBwCfgWinUs, 1000)]).setTb 0 0 { state := tbTrack, valid := true, t := 100000000000 * 65536 }) with pmon := { next := some (2 : Nat) } }, by and_intros <;> decide +kernel⟩⟩

theorem test_met_Engines :
    (∃ (n : Fin 128) (x : List Nat) (y : List Nat) (c : Nat) (s : State), (ttLock ≤ s.ttState n) ∧ (rawPhase x y = some c)) ∧
    (∃ (n : Fin 128) (s : State), (s.ttState n = ttLock) ∧ (s.ttWindow n ≤ (s.eng n).lockN)) ∧
    (∃ (n : Fin 128) (s : State), (s.ttState n = ttRun)) ∧
    (∃ (n : Fin 128) (m : Mark) (p : Mark) (s : State), (s.ttReady n = some (m, p)) ∧ (m.audit = true ∨ p.audit = true)) ∧
    (∃ (n : Fin 128) (m : Mark) (p : Mark) (s : State), (s.ttReady n = some (m, p)) ∧ (m.audit = false) ∧ (p.audit = false) ∧ (m.agen = p.agen) ∧ (p.rate = false) ∧ (m.lgen = p.lgen) ∧ (m.st.tb = p.st.tb) ∧ (p.sentBefore (roundDiv (((s.ttDiff m.st.tb p.compact p.st.t (p.other.getD 0)) + s.ttDiff m.st.tb p.compact (m.other.getD 0) m.st.t) * (2 ^ 48 + (sgn 64 (s.rd (Reg.ttLaneAlphaLoAlphaLo n) + 2 ^ 32 * s.rd (Reg.ttLaneAlphaHiAlphaHi n))))) (2 ^ 49 + (sgn 64 (s.rd (Reg.ttLaneAlphaLoAlphaLo n) + 2 ^ 32 * s.rd (Reg.ttLaneAlphaHiAlphaHi n)))).toNat) (s.eng n).ancAt = false) ∧ (p.sentBefore (roundDiv (((s.ttDiff m.st.tb p.compact p.st.t (p.other.getD 0)) + s.ttDiff m.st.tb p.compact (m.other.getD 0) m.st.t) * (2 ^ 48 + (sgn 64 (s.rd (Reg.ttLaneAlphaLoAlphaLo n) + 2 ^ 32 * s.rd (Reg.ttLaneAlphaHiAlphaHi n))))) (2 ^ 49 + (sgn 64 (s.rd (Reg.ttLaneAlphaLoAlphaLo n) + 2 ^ 32 * s.rd (Reg.ttLaneAlphaHiAlphaHi n)))).toNat) (s.eng n).lockAt = false) ∧ (((s.ttBase n).2 = true → p.valid = true ∧ p.source = false ∧ p.gm ≠ s.nodeId)) ∧ (0 ≤ ((s.ttDiff m.st.tb p.compact p.st.t (p.other.getD 0)) + s.ttDiff m.st.tb p.compact (m.other.getD 0) m.st.t)) ∧ (((s.ttDiff m.st.tb p.compact p.st.t (p.other.getD 0)) + s.ttDiff m.st.tb p.compact (m.other.getD 0) m.st.t) ≤ (s.rd (Reg.ttLaneRttMaxRttMax n) * 65536 : Nat)) ∧ (s.ttJump n (s.eng n) ((s.ttDiff m.st.tb p.compact p.st.t (p.other.getD 0)) + s.ttDiff m.st.tb p.compact (m.other.getD 0) m.st.t) = none)) ∧
    (∃ (n : Fin 128) (m : Mark) (s : State), ((s.eng n).own.find? (fun m => !m.used) = some m)) :=
  ⟨⟨3, [0, 3], [10], 17, put [(Reg.ttLaneStatusState (3 : Fin 128), ttLock)], by decide +kernel, by decide +kernel⟩,
  ⟨3, (put [(Reg.ttLaneStatusState (3 : Fin 128), ttLock)]).setEng (3 : Fin 128).val { lockN := 65536 }, by decide +kernel, by decide +kernel⟩,
  ⟨3, put [(Reg.ttLaneStatusState (3 : Fin 128), ttRun)], by decide +kernel⟩,
  ⟨3, { tf := 5, st := { t := 3, tb := 0, valid := true }, agen := 0, lgen := 0, other := some 4, audit := true }, { tf := 5, st := { t := 3, tb := 0, valid := true }, agen := 0, lgen := 0, other := some 4, audit := true }, (up).setEng (3 : Fin 128).val { own := [({ tf := 5, st := { t := 3, tb := 0, valid := true }, agen := 0, lgen := 0, other := some 4, audit := true } : Mark)], inb := [({ tf := 5, st := { t := 3, tb := 0, valid := true }, agen := 0, lgen := 0, other := some 4, audit := true } : Mark)] }, by decide +kernel, by decide +kernel⟩,
  ⟨3, { tf := 5, st := { t := 3, tb := 0, valid := true }, agen := 0, lgen := 0, other := some 4 }, { tf := 5, st := { t := 3, tb := 0, valid := true }, agen := 0, lgen := 0, other := some 4 }, (up).setEng (3 : Fin 128).val { own := [({ tf := 5, st := { t := 3, tb := 0, valid := true }, agen := 0, lgen := 0, other := some 4 } : Mark)], inb := [({ tf := 5, st := { t := 3, tb := 0, valid := true }, agen := 0, lgen := 0, other := some 4 } : Mark)] }, by and_intros <;> decide +kernel⟩,
  ⟨3, { tf := 5, st := { t := 3, tb := 0, valid := true }, agen := 0, lgen := 0 }, (up).setEng (3 : Fin 128).val { own := [({ tf := 5, st := { t := 3, tb := 0, valid := true }, agen := 0, lgen := 0 } : Mark)] }, by decide +kernel⟩⟩

theorem test_met_Candidates :
    (∃ (c : Fin 8) (s : State), (s.candState c ≠ candOff)) ∧
    (∃ (s : State), (s.selected < 24) ∧ (s.candState s.selected = candElig) ∧ (s.rd Reg.refselStateSelState = 1)) :=
  ⟨⟨3, put [(Reg.refselCandStatusState (3 : Fin 8), candElig)], by decide +kernel⟩,
  ⟨put [(Reg.refselStateSelState, 1), (Reg.refselCandStatusState 3, candElig), (Reg.refselStateSelected, 3)], by and_intros <;> decide +kernel⟩⟩

theorem test_met_Selector :
    (∃ (s : State), (s.rd Reg.refselStateSelState = 1) ∧ (s.choice = some s.selected)) ∧
    (∃ (s : State), (s.rd Reg.refselStateSelState = 3) ∧ (s.rd Reg.refselStatePhase = 1) ∧ (s.rd Reg.refselStateTarget < 24)) ∧
    (∃ (s : State), (s.rd Reg.refselStateSelState = 3) ∧ (s.rd Reg.refselStatePhase = 3) ∧ (s.choice = some s.selected)) ∧
    (∃ (s : State), (s.rd Reg.refselStateSelState = 4) ∧ (s.on Reg.refselHoLimitSeconds = true) ∧ (s.refsel.held = false)) ∧
    (∃ (s : State), (s.refsel.qlChanged = true)) ∧
    (∃ (s : State), (s.refsel.qlChanged = false)) :=
  ⟨⟨put [(Reg.refselStateSelState, 1), (Reg.refselCandStatusState 3, candElig), (Reg.refselStateSelected, 3)], by decide +kernel, by decide +kernel⟩,
  ⟨put [(Reg.refselStateSelState, 3), (Reg.refselStatePhase, 1), (Reg.refselStateTarget, 3)], by and_intros <;> decide +kernel⟩,
  ⟨put [(Reg.refselStateSelState, 3), (Reg.refselStatePhase, 3), (Reg.refselCandStatusState 3, candElig), (Reg.refselStateSelected, 3)], by and_intros <;> decide +kernel⟩,
  ⟨put [(Reg.refselStateSelState, 4), (Reg.refselHoLimitSeconds, 1)], by and_intros <;> decide +kernel⟩,
  ⟨{ (up) with refsel := { qlChanged := true } }, by decide +kernel⟩,
  ⟨up, by decide +kernel⟩⟩

theorem test_met_Roots :
    (∃ (r : Fin 2) (w : Int) (s : State), (s.rootState r = rootFree ∨ s.rootState r = rootRef) ∧ (beyondBand (s.root r).centre w = false)) ∧
    (∃ (r : Fin 2) (s : State), (s.rootState r = rootRelock)) ∧
    (∃ (r : Fin 2) (d : Int) (s : State), (s.rootState r = rootBandSel) ∧ (d.natAbs ≤ 200000)) ∧
    (∃ (s : State), (s.rootRuns 0 = true) ∧ (s.rootRuns 1 = true)) :=
  ⟨⟨1, 3, { (put [(Reg.synRootStatusState (1 : Fin 2), rootFree), (Reg.synBandCfgValid 0, 1), (Reg.synBandCentreCentreKhz 0, 20625000)]) with syn := { imgBands := true } }, by decide +kernel, by decide +kernel⟩,
  ⟨1, put [(Reg.synRootStatusState (1 : Fin 2), rootRelock)], by decide +kernel⟩,
  ⟨1, 3, put [(Reg.synRootStatusState (1 : Fin 2), rootBandSel)], by decide +kernel, by decide +kernel⟩,
  ⟨put [(Reg.synRootStatusState 1, 3)], by decide +kernel, by decide +kernel⟩⟩

theorem test_met_OutputSynthesizers :
    (∃ (o : Fin 4) (e : Int) (s : State), (s.rd (Reg.synOsStatusTlState o) = 3) ∧ (s.on (Reg.synOsStatusLock o) = true) ∧ (s.frozen = false) ∧ (500 < e.natAbs)) ∧
    (∃ (o : Fin 4) (s : State), (s.rd (Reg.synOsStatusTlState o) = 2) ∧ ((s.os o).placed = false) ∧ (s.frozen = false)) ∧
    (∃ (o : Fin 4) (s : State), ((s.os o).start = true) ∧ (s.frozen = false)) ∧
    (∃ (o : Fin 4) (s : State), (s.on (Reg.synOsStatusLock o) = true)) ∧
    (∃ (o : Fin 4) (s : State), (s.on (Reg.synOsCfgMode o) = true) ∧ (s.on (Reg.synOsStatusLock o) = false) ∧ (bit (s.rd Reg.pwrDomainsOn) 10 = true)) ∧
    (∃ (b : Bool) (s : State), (b ≠ s.on Reg.synSyncCfgPol) ∧ (s.on Reg.synSyncStatusPending = false) ∧ (s.tbValid (s.rd Reg.synSyncCfgTb) = true)) ∧
    (∃ (b : Bool) (s : State), (b ≠ s.on Reg.synSyncCfgPol) ∧ (s.on Reg.synSyncStatusPending = true)) ∧
    (∃ (s : State), (s.frozen = true)) ∧
    (∃ (k : Nat) (s : State), (s.syn.sync = some k) ∧ (s.frozen = false)) :=
  ⟨⟨3, 501, put [(Reg.synOsStatusTlState (3 : Fin 4), 3), (Reg.synOsStatusLock (3 : Fin 4), 1)], by and_intros <;> decide +kernel⟩,
  ⟨3, put [(Reg.synOsStatusTlState (3 : Fin 4), 2)], by and_intros <;> decide +kernel⟩,
  ⟨3, (up).setOs (3 : Fin 4).val { start := true }, by decide +kernel, by decide +kernel⟩,
  ⟨3, put [(Reg.synOsStatusLock (3 : Fin 4), 1)], by decide +kernel⟩,
  ⟨3, put [(Reg.synOsCfgMode (3 : Fin 4), 1), (Reg.synOsStatusLock (3 : Fin 4), 0)], by and_intros <;> decide +kernel⟩,
  ⟨true, tbIn (put [(Reg.synSyncStatusPending, 0)]) 0 0 tbTrack, by and_intros <;> decide +kernel⟩,
  ⟨true, put [(Reg.synSyncStatusPending, 1)], by decide +kernel, by decide +kernel⟩,
  ⟨{ up with sec := { scanStop := 1 } }, by decide +kernel⟩,
  ⟨5, { (up) with syn := { sync := some (5 : Nat) } }, by decide +kernel, by decide +kernel⟩⟩

theorem test_met_LaneTraining :
    (∃ (n : Fin 128) (s : State), (s.isLeat n = true) ∧ (s.tstate n = laneDown) ∧ (s.on (Reg.laneStateQpllLock n) = true) ∧ (s.laneHeld n = false) ∧ (s.laneOn n = true) ∧ (s.inPhase 10 = false)) ∧
    (∃ (n : Fin 128) (s : State), (s.isLeat n = true) ∧ (s.tstate n = laneDetect)) ∧
    (∃ (n : Fin 128) (s : State), (s.tstate n = laneDetect)) ∧
    (∃ (n : Fin 128) (s : State), (s.tstate n = laneTrain)) ∧
    (∃ (n : Fin 128) (b : Bool) (d : Bool) (s : State), (s.tstate n = laneAlign) ∧ (s.on (Reg.laneStateManual n) = false) ∧ (b = true) ∧ (d = true)) ∧
    (∃ (n : Fin 128) (b : Bool) (d : Bool) (s : State), (s.tstate n = laneAlign) ∧ (s.on (Reg.laneStateManual n) = false) ∧ ((b && d) = false) ∧ ((s.ln n).tried < 127)) ∧
    (∃ (n : Fin 128) (b : Bool) (d : Bool) (s : State), (s.tstate n = laneAlign) ∧ (s.on (Reg.laneStateManual n) = false) ∧ ((b && d) = false) ∧ ((s.ln n).tried = 127)) ∧
    (∃ (n : Fin 128) (s : State), (s.tstate n = laneVerify)) ∧
    (∃ (n : Fin 128) (s : State), (s.tstate n = laneRetry)) ∧
    (∃ (n : Fin 128) (s : State), (s.tstate n = laneUp)) ∧
    (∃ (n : Fin 128) (s : State), (laneAlign ≤ s.tstate n) ∧ (s.tstate n ≤ laneUp) ∧ (s.on (Reg.laneStateQuietRx n) = false)) :=
  ⟨⟨3, put [(Reg.laneCfgMode (3 : Fin 128), 1), (Reg.laneStateTstate (3 : Fin 128), laneDown), (Reg.laneStateQpllLock (3 : Fin 128), 1)], by and_intros <;> decide +kernel⟩,
  ⟨3, put [(Reg.laneCfgMode (3 : Fin 128), 1), (Reg.laneStateTstate (3 : Fin 128), laneDetect)], by decide +kernel, by decide +kernel⟩,
  ⟨3, put [(Reg.laneStateTstate (3 : Fin 128), laneDetect)], by decide +kernel⟩,
  ⟨3, put [(Reg.laneStateTstate (3 : Fin 128), laneTrain)], by decide +kernel⟩,
  ⟨3, true, true, put [(Reg.laneStateTstate (3 : Fin 128), laneAlign), (Reg.laneStateManual (3 : Fin 128), 0)], by and_intros <;> decide +kernel⟩,
  ⟨3, false, true, put [(Reg.laneStateTstate (3 : Fin 128), laneAlign), (Reg.laneStateManual (3 : Fin 128), 0)], by and_intros <;> decide +kernel⟩,
  ⟨3, false, true, (put [(Reg.laneStateTstate (3 : Fin 128), laneAlign), (Reg.laneStateManual (3 : Fin 128), 0)]).setLn (3 : Fin 128).val { tried := 127 }, by and_intros <;> decide +kernel⟩,
  ⟨3, put [(Reg.laneStateTstate (3 : Fin 128), laneVerify)], by decide +kernel⟩,
  ⟨3, put [(Reg.laneStateTstate (3 : Fin 128), laneRetry)], by decide +kernel⟩,
  ⟨3, put [(Reg.laneStateTstate (3 : Fin 128), laneUp)], by decide +kernel⟩,
  ⟨3, put [(Reg.laneStateQuietRx (3 : Fin 128), 0), (Reg.laneStateTstate (3 : Fin 128), laneUp)], by and_intros <;> decide +kernel⟩⟩

theorem test_met_Superblocks :
    (∃ (n : Fin 128) (s : State), (s.isLeat n = true) ∧ (laneTrain ≤ s.tstate n) ∧ (s.tstate n ≤ laneUp) ∧ ((s.ln n).quiet = 0) ∧ (s.frozen = false) ∧ (s.streamWaits n = false)) ∧
    (∃ (n : Fin 128) (s : State), (s.isLeat n = true) ∧ (laneTrain ≤ s.tstate n) ∧ (s.tstate n ≤ laneUp) ∧ ((s.ln n).quiet = 0) ∧ (s.frozen = true ∨ s.streamWaits n = true)) ∧
    (∃ (n : Fin 128) (s : State), (s.isLeat n = true) ∧ (s.tstate n = laneTrain ∨ s.tstate n = laneAlign)) ∧
    (∃ (n : Fin 128) (l : List Bool) (s : State), (s.isLeat n = true) ∧ (s.tstate n = laneVerify) ∧ (ofBits (((s.lineBits n l).1).take 24) ≠ 0xB5C2E9)) ∧
    (∃ (n : Fin 128) (l : List Bool) (s : State), (s.isLeat n = true) ∧ (s.tstate n = laneVerify ∨ s.tstate n = laneUp) ∧ (ofBits (((s.lineBits n l).1).take 24) = 0xB5C2E9) ∧ ((ofBits ((((s.lineBits n l).1).drop 24).take 8)) ≤ 99) ∧ ((ofBits ((((s.lineBits n l).1).drop 24).take 8)) = ((s.ln n).rxMsn + 1) % 100) ∧ ((ofBits ((((s.lineBits n l).1).drop 24).take 8)) ≠ 0) ∧ (s.on (Reg.laneStateQuietRx n) = false)) ∧
    (∃ (n : Fin 128) (f : List Byte) (s : State), (s.isLeat n = true) ∧ (s.tstate n = laneVerify) ∧ (f.length = 125) ∧ (crc16 (f.take 123) = beAt f 123 2)) :=
  ⟨⟨3, put [(Reg.laneCfgMode (3 : Fin 128), 1), (Reg.laneStateTstate (3 : Fin 128), laneUp)], by and_intros <;> decide +kernel⟩,
  ⟨3, { (put [(Reg.laneCfgMode (3 : Fin 128), 1), (Reg.laneStateTstate (3 : Fin 128), laneUp)]) with sec := { scanStop := 1 } }, by and_intros <;> decide +kernel⟩,
  ⟨3, put [(Reg.laneCfgMode (3 : Fin 128), 1), (Reg.laneStateTstate (3 : Fin 128), laneTrain)], by decide +kernel, by decide +kernel⟩,
  ⟨3, [], put [(Reg.laneCfgMode (3 : Fin 128), 1), (Reg.laneStateTstate (3 : Fin 128), laneVerify)], by and_intros <;> decide +kernel⟩,
  ⟨3, lineStart, put [(Reg.laneCfgMode (3 : Fin 128), 1), (Reg.laneStateTstate (3 : Fin 128), laneVerify), (Reg.laneStateQuietRx (3 : Fin 128), 0)], by and_intros <;> decide +kernel⟩,
  ⟨3, List.replicate 123 0 ++ [BitVec.ofNat 8 (crc16 (List.replicate 123 0) / 256), BitVec.ofNat 8 (crc16 (List.replicate 123 0))], put [(Reg.laneCfgMode (3 : Fin 128), 1), (Reg.laneStateTstate (3 : Fin 128), laneVerify)], by and_intros <;> decide +kernel⟩⟩

theorem test_met_LaneService :
    (∃ (n : Fin 128) (s : State), (s.isLeat n = true) ∧ (s.tstate n = laneUp) ∧ (s.on (Reg.laneCfgIdleEn n) = true) ∧ ((s.ln n).quiet = 0) ∧ (s.nothingToSend n = true)) ∧
    (∃ (n : Fin 128) (s : State), ((s.ln n).quiet = 2)) ∧
    (∃ (n : Fin 128) (s : State), ((s.ln n).quiet = 3)) ∧
    (∃ (n : Fin 128) (s : State), (s.isLeat n = true)) ∧
    (∃ (n : Fin 128) (s : State), (s.prbsActive n = true) ∧ (s.on (Reg.lanePrbsStatusLock n) = true)) ∧
    (∃ (n : Fin 128) (g : Fin 65536) (s : State), (s.on (Reg.laneCfgManualAllow n) = true) ∧ (g.val = s.rd (Reg.laneStateGen n))) ∧
    (∃ (n : Fin 128) (g : Fin 65536) (s : State), (s.on (Reg.laneCfgManualAllow n) = true) ∧ (g.val = s.rd (Reg.laneStateGen n)) ∧ (s.isLeat n = true)) ∧
    (∃ (n : Fin 128) (g : Fin 65536) (s : State), (s.on (Reg.laneCfgManualAllow n) = true) ∧ (g.val = s.rd (Reg.laneStateGen n)) ∧ (s.isLeat n = true) ∧ (s.rd (Reg.lanePrbsCtlMode n) ≠ 1) ∧ ((s.ln n).hostHeld = true)) ∧
    (∃ (n : Fin 128) (g : Fin 65536) (s : State), (s.on (Reg.laneCfgManualAllow n) = true) ∧ (g.val = s.rd (Reg.laneStateGen n)) ∧ (s.isLeat n = true) ∧ (s.on (Reg.laneStateManual n) = true) ∧ (s.tstate n = laneAlign)) ∧
    (∃ (n : Fin 128) (g : Fin 65536) (s : State), (s.on (Reg.laneCfgManualAllow n) = true) ∧ (g.val = s.rd (Reg.laneStateGen n)) ∧ (s.isLeat n = true) ∧ (s.on (Reg.laneStateManual n) = true) ∧ (s.tstate n = laneAlign) ∧ (s.on (Reg.laneManStatusMarkerSeen n) = true)) :=
  ⟨⟨3, put [(Reg.laneCfgMode (3 : Fin 128), 1), (Reg.laneStateTstate (3 : Fin 128), laneUp), (Reg.laneCfgIdleEn (3 : Fin 128), 1)], by and_intros <;> decide +kernel⟩,
  ⟨3, (up).setLn (3 : Fin 128).val { quiet := 2 }, by decide +kernel⟩,
  ⟨3, (up).setLn (3 : Fin 128).val { quiet := 3 }, by decide +kernel⟩,
  ⟨3, put [(Reg.laneCfgMode (3 : Fin 128), 1)], by decide +kernel⟩,
  ⟨3, (put [(Reg.lanePrbsStatusLock (3 : Fin 128), 1), (Reg.lanePrbsCtlMode (3 : Fin 128), 1)]).setLn (3 : Fin 128).val { hostHeld := true }, by decide +kernel, by decide +kernel⟩,
  ⟨3, 3, put [(Reg.laneCfgManualAllow (3 : Fin 128), 1), (Reg.laneStateGen (3 : Fin 128), (3 : Fin 65536).val)], by decide +kernel, by decide +kernel⟩,
  ⟨3, 3, put [(Reg.laneCfgManualAllow (3 : Fin 128), 1), (Reg.laneStateGen (3 : Fin 128), (3 : Fin 65536).val), (Reg.laneCfgMode (3 : Fin 128), 1)], by and_intros <;> decide +kernel⟩,
  ⟨3, 3, (put [(Reg.laneCfgManualAllow (3 : Fin 128), 1), (Reg.laneStateGen (3 : Fin 128), (3 : Fin 65536).val), (Reg.laneCfgMode (3 : Fin 128), 1)]).setLn (3 : Fin 128).val { hostHeld := true }, by and_intros <;> decide +kernel⟩,
  ⟨3, 3, put [(Reg.laneCfgManualAllow (3 : Fin 128), 1), (Reg.laneStateGen (3 : Fin 128), (3 : Fin 65536).val), (Reg.laneCfgMode (3 : Fin 128), 1), (Reg.laneStateManual (3 : Fin 128), 1), (Reg.laneStateTstate (3 : Fin 128), laneAlign)], by and_intros <;> decide +kernel⟩,
  ⟨3, 3, put [(Reg.laneCfgManualAllow (3 : Fin 128), 1), (Reg.laneStateGen (3 : Fin 128), (3 : Fin 65536).val), (Reg.laneCfgMode (3 : Fin 128), 1), (Reg.laneStateManual (3 : Fin 128), 1), (Reg.laneStateTstate (3 : Fin 128), laneAlign), (Reg.laneManStatusMarkerSeen (3 : Fin 128), 1)], by and_intros <;> decide +kernel⟩⟩

theorem test_met_QuadsAndPorts :
    (∃ (q : Fin 32) (s : State), (bit s.boot.quadsOn q = true) ∧ (s.pdOn (5 + q.val / 8) = true)) ∧
    (∃ (q : Fin 32) (s : State), (s.on (Reg.laneStateQpllLock (4 * q.val)) = true)) ∧
    (∃ (n : Fin 128) (s : State), (s.portState n = portLock)) ∧
    (∃ (n : Fin 128) (s : State), (s.portState n = portUp) ∧ (Tab.get s.fab.arrive n 0 = 0)) ∧
    (∃ (n : Fin 128) (s : State), (s.portState n = portRfault)) ∧
    (∃ (n : Fin 128) (s : State), (s.portState n = portUp ∨ s.portState n = portRfault) ∧ (Tab.get s.fab.arrive n 0 = 0)) :=
  ⟨⟨3, up, by decide +kernel, by decide +kernel⟩,
  ⟨3, put [(Reg.laneStateQpllLock (4 * (3 : Fin 32).val), 1)], by decide +kernel⟩,
  ⟨3, put [(Reg.portLinkState (3 : Fin 128), portLock)], by decide +kernel⟩,
  ⟨3, put [(Reg.portLinkState (3 : Fin 128), portUp)], by decide +kernel, by decide +kernel⟩,
  ⟨3, put [(Reg.portLinkState (3 : Fin 128), portRfault)], by decide +kernel⟩,
  ⟨3, put [(Reg.portLinkState (3 : Fin 128), portUp)], by decide +kernel, by decide +kernel⟩⟩

theorem test_met_PortFrames :
    (∃ (n : Fin 128) (b : List Byte) (s : State), (s.portState n = portUp) ∧ (beAt b 12 2 = 0x8808) ∧ (beAt b 14 2 = 0x0101) ∧ (64 ≤ b.length) ∧ (b.length ≤ s.rd (Reg.portMaxlenLen n)) ∧ (fcsGood b = true) ∧ (s.on (Reg.portPfcCfgPfcEn n) = true)) ∧
    (∃ (n : Fin 128) (b : List Byte) (s : State), (s.portState n = portUp) ∧ (beAt b 12 2 = 0x8808) ∧ (beAt b 14 2 = 0x0101) ∧ (64 ≤ b.length) ∧ (b.length ≤ s.rd (Reg.portMaxlenLen n)) ∧ (fcsGood b = false)) ∧
    (∃ (n : Fin 128) (s : State), (s.isPort n = true)) ∧
    (∃ (n : Fin 128) (s : State), (s.portState n = portUp) ∧ (Tab.get s.fab.pfc n 0 ≠ 0) ∧ (Tab.get s.fab.sending n 0 = 0) ∧ (s.frozen = false) ∧ (Tab.get s.fab.flf n [] = [])) ∧
    (∃ (n : Fin 128) (s : State), (s.portState n = portUp) ∧ (s.on (Reg.portPfcCfgPfcEn n) = true)) ∧
    (∃ (n : Fin 128) (b : List Byte) (s : State), (s.portState n = portUp) ∧ (isEsmc b = true) ∧ (64 ≤ b.length) ∧ (b.length ≤ s.rd (Reg.portMaxlenLen n)) ∧ (fcsGood b = false)) ∧
    (∃ (n : Fin 128) (b : List Byte) (s : State) (q : Nat) (e : Nat), (s.portState n = portUp) ∧ (isEsmc b = true) ∧ (esmcTlvs 4 ((bodyOf b).drop 24) = (some q, e)) ∧ (64 ≤ b.length) ∧ (b.length ≤ s.rd (Reg.portMaxlenLen n)) ∧ (fcsGood b = true) ∧ (u8 b 20 / 16 = 1) ∧ (s.on (Reg.portCfgEsmcRx n) = true)) ∧
    (∃ (n : Fin 128) (b : List Byte) (s : State), (s.portState n = portUp) ∧ (s.isPort n = true) ∧ (s.framesOn = true) ∧ (s.began n = false) ∧ (s.hostReason n b = none) ∧ (beAt b 12 2 ≠ 0x8808) ∧ (isEsmc b = false) ∧ (64 ≤ b.length) ∧ (b.length ≤ s.rd (Reg.portMaxlenLen n)) ∧ (fcsGood b = true) ∧ (s.vlanDrops n b = true)) ∧
    (∃ (n : Fin 128) (b : List Byte) (s : State), (s.portState n = portUp) ∧ (s.isPort n = true) ∧ (s.framesOn = true) ∧ (s.began n = false) ∧ (s.hostReason n b = none) ∧ (beAt b 12 2 ≠ 0x8808) ∧ (isEsmc b = false) ∧ (headKnown b = true) ∧ (s.vlanDrops n b = false)) ∧
    (∃ (n : Fin 128) (b : List Byte) (s : State), (s.tstate n = laneUp) ∧ (s.isLeat n = true) ∧ (s.framesOn = true) ∧ (s.began n = false) ∧ ((s.ln n).rx.phase ≠ 4) ∧ (headKnown b = true) ∧ (s.hostReason n b = none)) :=
  ⟨⟨3, pfcFrame, put [(Reg.portLinkState (3 : Fin 128), portUp), (Reg.portPfcCfgPfcEn (3 : Fin 128), 1)], by and_intros <;> decide +kernel⟩,
  ⟨3, pfcFrame ++ [0], put [(Reg.portLinkState (3 : Fin 128), portUp)], by and_intros <;> decide +kernel⟩,
  ⟨3, put [(Reg.laneCfgMode (3 : Fin 128), 2), (Reg.portCfgMode (3 : Fin 128), 1)], by decide +kernel⟩,
  ⟨3, { (put [(Reg.portLinkState (3 : Fin 128), portUp)]) with fab := { pfc := [((3 : Fin 128).val, 1)] } }, by and_intros <;> decide +kernel⟩,
  ⟨3, put [(Reg.portLinkState (3 : Fin 128), portUp), (Reg.portPfcCfgPfcEn (3 : Fin 128), 1)], by decide +kernel, by decide +kernel⟩,
  ⟨3, esmcFrame ++ [0], put [(Reg.portLinkState (3 : Fin 128), portUp)], by and_intros <;> decide +kernel⟩,
  ⟨3, esmcFrame, put [(Reg.portLinkState (3 : Fin 128), portUp), (Reg.portCfgEsmcRx (3 : Fin 128), 1)], 2, 0xFF, by and_intros <;> decide +kernel⟩,
  ⟨3, dataFrame, put [(Reg.portLinkState (3 : Fin 128), portUp), (Reg.laneCfgMode (3 : Fin 128), 2), (Reg.portCfgMode (3 : Fin 128), 1), (Reg.portVlanAccept (3 : Fin 128), 1)], by and_intros <;> decide +kernel⟩,
  ⟨3, dataFrame, put [(Reg.portLinkState (3 : Fin 128), portUp), (Reg.laneCfgMode (3 : Fin 128), 2), (Reg.portCfgMode (3 : Fin 128), 1)], by and_intros <;> decide +kernel⟩,
  ⟨3, dataFrame, put [(Reg.laneStateTstate (3 : Fin 128), laneUp), (Reg.laneCfgMode (3 : Fin 128), 1)], by and_intros <;> decide +kernel⟩⟩

theorem test_met_Forwarding :
    (∃ (p : Fin 4) (l : Nat) (id : Nat) (r : Bool) (b : Bool) (w : List Nat) (s : State), (s.pdOn 3 = true) ∧ (s.pdOn 4 = true) ∧ ((s.laterOf p).length < 32) ∧ (s.nextLane p = some l) ∧ (s.waiting l = id :: w) ∧ (b = true ∨ (r = true ∧ (s.frame id).recirc = false))) ∧
    (∃ (p : Fin 4) (id : Nat) (w : List Nat) (s : State), (s.laterOf p = id :: w) ∧ ((s.frame id).recirc = false) ∧ ((s.frame id).lost = false)) ∧
    (∃ (p : Fin 4) (l : Nat) (id : Nat) (w : List Nat) (s : State), (s.pdOn 3 = true) ∧ (s.pdOn 4 = true) ∧ ((s.laterOf p).length < 32) ∧ (s.nextLane p = some l) ∧ (s.waiting l = id :: w) ∧ (s.fab.held = []) ∧ ((s.frame id).level2 = false) ∧ (id ∉ s.laterOf p) ∧ ((s.vlanLookup (s.frame id).vid).1 = none) ∧ (cellsOf ((s.frame id).bytes.length + (if (s.frame id).trailer then 12 else 0)) ≤ (s.frame id).shared + (s.frame id).head)) ∧
    (∃ (p : Fin 4) (e : Nat) (id : Nat) (v : Nat) (c : Nat) (r : Bool) (w : List Nat) (s : State), (s.laterOf p = id :: w) ∧ (s.fab.held = []) ∧ (s.halted = false) ∧ ((s.frame id).level2 = true) ∧ ((s.frame id).bad = false) ∧ ((s.frame id).lost = false) ∧ ((s.lookup2 p (s.frame id)).1 = .done ⟨0, [e]⟩ v c r false) ∧ (s.resolve e = some e) ∧ (s.inUse e = true) ∧ (cellsOf ((s.frame id).bytes.length + (if r then 12 else 0)) ≤ (s.frame id).shared + (s.frame id).head)) ∧
    (∃ (e : Fin 128) (c : Nat) (id : Nat) (w : List Nat) (s : State), (s.egressFree e = true) ∧ ((((s.ownSend e).purgeHeads e).pickClass e).1 = some c) ∧ ((((s.ownSend e).purgeHeads e).pickClass e).2.queue e c = id :: w)) ∧
    (∃ (s : State), (s.halted = true ∨ s.frozen = true)) ∧
    (∃ (e : Fin 128) (s : State), (Tab.get s.fab.sending e 0 ≠ 0) ∧ (s.frozen = false) ∧ ((Tab.get s.lan e {}).early = false ∨ (Tab.get s.lan e {}).backlog ≤ 512)) ∧
    (∃ (e : Fin 128) (s : State), (Tab.get s.fab.sending e 0 ≠ 0) ∧ (s.frozen = false) ∧ ((Tab.get s.lan e {}).early = true) ∧ (512 < (Tab.get s.lan e {}).backlog)) ∧
    (∃ (s : State), (s.frozen = true)) ∧
    (∃ (e : Fin 128) (id : Nat) (s : State), (s.flfNext e = some id) ∧ (s.egressFree e = true) ∧ (s.revertHolds e (s.frame id).tc = false) ∧ (s.refuseCopy e id = none) ∧ (bit (s.rd (Reg.fabDestStatusPaused e)) (s.frame id).tc = false) ∧ ((s.frame id).ended = true ∨ s.ctOk (s.frame id) e = true) ∧ (s.fab.cyc ≤ s.flfDue (s.frame id)) ∧ (s.flfDue (s.frame id) < s.fab.cyc + 2)) ∧
    (∃ (e : Fin 128) (id : Nat) (s : State), ((s.held e).find? (fun id => !s.fenceBlocked (s.frame id)) = some id)) ∧
    (∃ (e : Fin 128) (s : State), (s.held e = [])) :=
  ⟨⟨3, 96, 1, true, true, [], { (up) with fab := { wait := [(96, [1])], frames := [(1, { bytes := dataFrame, len := 64, ended := true, ingress := 96 })] } }, by and_intros <;> decide +kernel⟩,
  ⟨3, 1, [], { (up) with fab := { later := [((3 : Fin 4).val, [1])], frames := [(1, { bytes := dataFrame, len := 64, ended := true, ingress := 96 })] } }, by and_intros <;> decide +kernel⟩,
  ⟨3, 96, 1, [], { (up) with fab := { wait := [(96, [1])], frames := [(1, { bytes := dataFrame, len := 64, ended := true, ingress := 96, shared := 1, head := 1 })] } }, by and_intros <;> decide +kernel⟩,
  ⟨3, 3, 1, 5, 0, false, [], ({ (put [(Reg.laneCfgMode 3, 1), (Reg.laneStateTstate 3, laneUp)]) with fab := { later := [((3 : Fin 4).val, [1])], frames := [(1, { bytes := dataFrame, len := 64, ended := true, ingress := 4, recirc := true, level2 := true, outVid := 5, da := 0x020000000002, shared := 1, head := 1 })] } }.setEnt 0 (slotOf 0 0 (up.bucketOf 0 0 (eKeyBytes 0 26002049111881478376988523567775747)) 0) 170167185509581113210064292239451881475).setEnt 2 5 (2 ^ 319 + 2 ^ 3 + 2 ^ 4), by and_intros <;> decide +kernel⟩,
  ⟨3, 0, 1, [], ({ (put [(Reg.laneCfgMode (3 : Fin 128), 1), (Reg.laneStateTstate (3 : Fin 128), laneUp)]) with fab := { frames := [(1, { bytes := dataFrame, len := 64, ended := true })] } }.setQueue (3 : Fin 128).val 0 [1]), by and_intros <;> decide +kernel⟩,
  ⟨put [(Reg.fltStatusHalted, 1)], by decide +kernel⟩,
  ⟨3, { (up) with fab := { sending := [((3 : Fin 128).val, 1)] } }, by and_intros <;> decide +kernel⟩,
  ⟨3, { (up) with fab := { sending := [((3 : Fin 128).val, 1)] }, lan := [((3 : Fin 128).val, { early := true, cur := List.replicate 600 0 })] }, by and_intros <;> decide +kernel⟩,
  ⟨{ up with sec := { scanStop := 1 } }, by decide +kernel⟩,
  ⟨3, 1, { (put [(Reg.laneCfgMode 3, 1), (Reg.laneStateTstate 3, laneUp)]) with fab := { flf := [((3 : Fin 128).val, [1])], frames := [(1, { bytes := dataFrame, len := 64, ended := true })] } }, by and_intros <;> decide +kernel⟩,
  ⟨3, 1, { (up) with fab := { held := [((3 : Fin 128).val, [1])], frames := [(1, { bytes := dataFrame, len := 64, ended := true, host := true })] } }, by decide +kernel⟩,
  ⟨3, up, by decide +kernel⟩⟩

theorem test_met_TablesAtWork :
    (∃ (s : State), (s.pdOn 3 = true)) ∧
    (∃ (s : State), (s.pdOn 3 = true)) ∧
    (∃ (s : State), (s.pdOn 3 = true) ∧ (s.tbl.items ≠ 0) ∧ (s.flt.auditSkip.contains (s.tbl.audit % s.tbl.items) = false)) ∧
    (∃ (s : State), (s.pdOn 3 = true) ∧ (s.tbl.items ≠ 0)) ∧
    (∃ (n : Nat) (w : List Nat) (s : State), (s.tbl.fences = n :: w) ∧ (s.fenceClear n = true)) ∧
    (∃ (b : Bool) (s : State), (s.rd Reg.tblLnqCtlRun ≠ b2n b)) :=
  ⟨⟨up, by decide +kernel⟩,
  ⟨up, by decide +kernel⟩,
  ⟨{ (up) with tbl := { items := 1, shadow := [(0, (1, 1, 0))] } }, by and_intros <;> decide +kernel⟩,
  ⟨{ (up) with tbl := { items := 1, shadow := [(0, (1, 1, 0))] } }, by decide +kernel, by decide +kernel⟩,
  ⟨5, [], { (up) with tbl := { fences := [(5 : Nat)] } }, by decide +kernel, by decide +kernel⟩,
  ⟨true, up, by decide +kernel⟩⟩

theorem test_met_TableCommands :
    (∃ (c : TcqCmd) (w : List TcqCmd) (s : State), (s.pdOn 3 = true) ∧ (s.tbl.tcq = c :: w) ∧ (c.dma = false) ∧ (s.hif.tcr.length < 256) ∧ ((u8 c.bytes 0) = 0)) ∧
    (∃ (c : TcqCmd) (w : List TcqCmd) (s : State), (s.pdOn 3 = true) ∧ (s.tbl.tcq = c :: w) ∧ (c.dma = false) ∧ (s.hif.tcr.length < 256) ∧ (u16 c.bytes 2 ≠ s.rd Reg.tblStatusGen) ∧ ((u8 c.bytes 0) = 1)) ∧
    (∃ (c : TcqCmd) (w : List TcqCmd) (s : State), (s.pdOn 3 = true) ∧ (s.tbl.tcq = c :: w) ∧ (c.dma = false) ∧ (s.hif.tcr.length < 256) ∧ (u16 c.bytes 2 ≠ s.rd Reg.tblStatusGen) ∧ ((u8 c.bytes 0) = 2)) ∧
    (∃ (c : TcqCmd) (w : List TcqCmd) (s : State), (s.pdOn 3 = true) ∧ (s.tbl.tcq = c :: w) ∧ (c.dma = false) ∧ (s.hif.tcr.length < 256) ∧ (u16 c.bytes 2 ≠ s.rd Reg.tblStatusGen) ∧ ((u8 c.bytes 0) = 3)) ∧
    (∃ (c : TcqCmd) (w : List TcqCmd) (s : State), (s.pdOn 3 = true) ∧ (s.tbl.tcq = c :: w) ∧ (c.dma = false) ∧ (s.hif.tcr.length < 256) ∧ (u16 c.bytes 2 ≠ s.rd Reg.tblStatusGen) ∧ ((u8 c.bytes 0) = 4)) ∧
    (∃ (c : TcqCmd) (w : List TcqCmd) (s : State), (s.pdOn 3 = true) ∧ (s.tbl.tcq = c :: w) ∧ (c.dma = false) ∧ (s.hif.tcr.length < 256) ∧ (u16 c.bytes 2 ≠ s.rd Reg.tblStatusGen) ∧ (5 ≤ (u8 c.bytes 0))) ∧
    (∃ (c : TcqCmd) (w : List TcqCmd) (s : State), (s.pdOn 3 = true) ∧ (s.tbl.tcq = c :: w) ∧ (c.dma = false) ∧ (s.hif.tcr.length < 256) ∧ (u16 c.bytes 2 = s.rd Reg.tblStatusGen) ∧ (5 ≤ (u8 c.bytes 0))) ∧
    (∃ (c : TcqCmd) (w : List TcqCmd) (s : State), (s.pdOn 3 = true) ∧ (s.tbl.tcq = c :: w) ∧ (c.dma = false) ∧ (s.hif.tcr.length < 256) ∧ (u16 c.bytes 2 = s.rd Reg.tblStatusGen) ∧ (s.cmdBad c (s.cmdEntry c) = true) ∧ ((u8 c.bytes 0) = 1)) ∧
    (∃ (c : TcqCmd) (w : List TcqCmd) (s : State), (s.pdOn 3 = true) ∧ (s.tbl.tcq = c :: w) ∧ (c.dma = false) ∧ (s.hif.tcr.length < 256) ∧ (u16 c.bytes 2 = s.rd Reg.tblStatusGen) ∧ (s.cmdBad c (s.cmdEntry c) = true) ∧ ((u8 c.bytes 0) = 2)) ∧
    (∃ (c : TcqCmd) (w : List TcqCmd) (s : State), (s.pdOn 3 = true) ∧ (s.tbl.tcq = c :: w) ∧ (c.dma = false) ∧ (s.hif.tcr.length < 256) ∧ (u16 c.bytes 2 = s.rd Reg.tblStatusGen) ∧ (s.cmdBad c (s.cmdEntry c) = true) ∧ ((u8 c.bytes 0) = 3)) ∧
    (∃ (c : TcqCmd) (w : List TcqCmd) (s : State), (s.pdOn 3 = true) ∧ (s.tbl.tcq = c :: w) ∧ (c.dma = false) ∧ (s.hif.tcr.length < 256) ∧ (u16 c.bytes 2 = s.rd Reg.tblStatusGen) ∧ (s.cmdBad c (s.cmdEntry c) = false) ∧ (s.findKey (u8 c.bytes 1) (eKeyBytes (u8 c.bytes 1) (s.cmdEntry c)) = none) ∧ ((u8 c.bytes 0) = 2)) ∧
    (∃ (c : TcqCmd) (w : List TcqCmd) (s : State), (s.pdOn 3 = true) ∧ (s.tbl.tcq = c :: w) ∧ (c.dma = false) ∧ (s.hif.tcr.length < 256) ∧ (u16 c.bytes 2 = s.rd Reg.tblStatusGen) ∧ (s.cmdBad c (s.cmdEntry c) = false) ∧ (s.findKey (u8 c.bytes 1) (eKeyBytes (u8 c.bytes 1) (s.cmdEntry c)) = none) ∧ ((u8 c.bytes 0) = 3)) ∧
    (∃ (c : TcqCmd) (w : List TcqCmd) (s : State), (s.pdOn 3 = true) ∧ (s.tbl.tcq = c :: w) ∧ (c.dma = false) ∧ (s.hif.tcr.length < 256) ∧ (u16 c.bytes 2 = s.rd Reg.tblStatusGen) ∧ (s.cmdBad c (s.cmdEntry c) = false) ∧ (s.findKey (u8 c.bytes 1) (eKeyBytes (u8 c.bytes 1) (s.cmdEntry c)) = none) ∧ ((u8 c.bytes 0) = 1) ∧ (s.insertPath (u8 c.bytes 1) (s.cmdEntry c) = none)) ∧
    (∃ (c : TcqCmd) (w : List TcqCmd) (s : State) (l : List Nat), (s.pdOn 3 = true) ∧ (s.tbl.tcq = c :: w) ∧ (c.dma = false) ∧ (s.hif.tcr.length < 256) ∧ (u16 c.bytes 2 = s.rd Reg.tblStatusGen) ∧ (s.cmdBad c (s.cmdEntry c) = false) ∧ (s.findKey (u8 c.bytes 1) (eKeyBytes (u8 c.bytes 1) (s.cmdEntry c)) = none) ∧ ((u8 c.bytes 0) = 1) ∧ (s.insertPath (u8 c.bytes 1) (s.cmdEntry c) = some l) ∧ (s.holds (u8 c.bytes 1) l = true)) ∧
    (∃ (c : TcqCmd) (w : List TcqCmd) (s : State) (l : List Nat), (s.pdOn 3 = true) ∧ (s.tbl.tcq = c :: w) ∧ (c.dma = false) ∧ (s.hif.tcr.length < 256) ∧ (u16 c.bytes 2 = s.rd Reg.tblStatusGen) ∧ (s.cmdBad c (s.cmdEntry c) = false) ∧ (s.findKey (u8 c.bytes 1) (eKeyBytes (u8 c.bytes 1) (s.cmdEntry c)) = none) ∧ ((u8 c.bytes 0) = 1) ∧ (s.insertPath (u8 c.bytes 1) (s.cmdEntry c) = some l) ∧ (s.holds (u8 c.bytes 1) l = false)) ∧
    (∃ (c : TcqCmd) (w : List TcqCmd) (s : State) (sl : Nat), (s.pdOn 3 = true) ∧ (s.tbl.tcq = c :: w) ∧ (c.dma = false) ∧ (s.hif.tcr.length < 256) ∧ (u16 c.bytes 2 = s.rd Reg.tblStatusGen) ∧ (s.cmdBad c (s.cmdEntry c) = false) ∧ (s.findKey (u8 c.bytes 1) (eKeyBytes (u8 c.bytes 1) (s.cmdEntry c)) = some sl) ∧ (eStatic (s.ent (u8 c.bytes 1) sl) = true) ∧ ((u8 c.bytes 0) = 1)) ∧
    (∃ (c : TcqCmd) (w : List TcqCmd) (s : State) (sl : Nat), (s.pdOn 3 = true) ∧ (s.tbl.tcq = c :: w) ∧ (c.dma = false) ∧ (s.hif.tcr.length < 256) ∧ (u16 c.bytes 2 = s.rd Reg.tblStatusGen) ∧ (s.cmdBad c (s.cmdEntry c) = false) ∧ (s.findKey (u8 c.bytes 1) (eKeyBytes (u8 c.bytes 1) (s.cmdEntry c)) = some sl) ∧ (eStatic (s.ent (u8 c.bytes 1) sl) = true) ∧ ((u8 c.bytes 0) = 2)) ∧
    (∃ (c : TcqCmd) (w : List TcqCmd) (s : State) (sl : Nat), (s.pdOn 3 = true) ∧ (s.tbl.tcq = c :: w) ∧ (c.dma = false) ∧ (s.hif.tcr.length < 256) ∧ (u16 c.bytes 2 = s.rd Reg.tblStatusGen) ∧ (s.cmdBad c (s.cmdEntry c) = false) ∧ (s.findKey (u8 c.bytes 1) (eKeyBytes (u8 c.bytes 1) (s.cmdEntry c)) = some sl) ∧ (eStatic (s.ent (u8 c.bytes 1) sl) = true) ∧ ((u8 c.bytes 0) = 3)) ∧
    (∃ (c : TcqCmd) (w : List TcqCmd) (s : State) (sl : Nat), (s.pdOn 3 = true) ∧ (s.tbl.tcq = c :: w) ∧ (c.dma = false) ∧ (s.hif.tcr.length < 256) ∧ (u16 c.bytes 2 = s.rd Reg.tblStatusGen) ∧ (s.cmdBad c (s.cmdEntry c) = false) ∧ (s.findKey (u8 c.bytes 1) (eKeyBytes (u8 c.bytes 1) (s.cmdEntry c)) = some sl) ∧ (eStatic (s.ent (u8 c.bytes 1) sl) = false) ∧ ((u8 c.bytes 0) = 1)) ∧
    (∃ (c : TcqCmd) (w : List TcqCmd) (s : State) (sl : Nat), (s.pdOn 3 = true) ∧ (s.tbl.tcq = c :: w) ∧ (c.dma = false) ∧ (s.hif.tcr.length < 256) ∧ (u16 c.bytes 2 = s.rd Reg.tblStatusGen) ∧ (s.cmdBad c (s.cmdEntry c) = false) ∧ (s.findKey (u8 c.bytes 1) (eKeyBytes (u8 c.bytes 1) (s.cmdEntry c)) = some sl) ∧ (eStatic (s.ent (u8 c.bytes 1) sl) = false) ∧ (s.holds (u8 c.bytes 1) [sl] = true) ∧ ((u8 c.bytes 0) = 2)) ∧
    (∃ (c : TcqCmd) (w : List TcqCmd) (s : State) (sl : Nat), (s.pdOn 3 = true) ∧ (s.tbl.tcq = c :: w) ∧ (c.dma = false) ∧ (s.hif.tcr.length < 256) ∧ (u16 c.bytes 2 = s.rd Reg.tblStatusGen) ∧ (s.cmdBad c (s.cmdEntry c) = false) ∧ (s.findKey (u8 c.bytes 1) (eKeyBytes (u8 c.bytes 1) (s.cmdEntry c)) = some sl) ∧ (eStatic (s.ent (u8 c.bytes 1) sl) = false) ∧ (s.holds (u8 c.bytes 1) [sl] = true) ∧ ((u8 c.bytes 0) = 3)) ∧
    (∃ (c : TcqCmd) (w : List TcqCmd) (s : State) (sl : Nat), (s.pdOn 3 = true) ∧ (s.tbl.tcq = c :: w) ∧ (c.dma = false) ∧ (s.hif.tcr.length < 256) ∧ (u16 c.bytes 2 = s.rd Reg.tblStatusGen) ∧ (s.cmdBad c (s.cmdEntry c) = false) ∧ (s.findKey (u8 c.bytes 1) (eKeyBytes (u8 c.bytes 1) (s.cmdEntry c)) = some sl) ∧ (eStatic (s.ent (u8 c.bytes 1) sl) = false) ∧ (s.holds (u8 c.bytes 1) [sl] = false) ∧ ((u8 c.bytes 0) = 2)) ∧
    (∃ (c : TcqCmd) (w : List TcqCmd) (s : State) (sl : Nat), (s.pdOn 3 = true) ∧ (s.tbl.tcq = c :: w) ∧ (c.dma = false) ∧ (s.hif.tcr.length < 256) ∧ (u16 c.bytes 2 = s.rd Reg.tblStatusGen) ∧ (s.cmdBad c (s.cmdEntry c) = false) ∧ (s.findKey (u8 c.bytes 1) (eKeyBytes (u8 c.bytes 1) (s.cmdEntry c)) = some sl) ∧ (eStatic (s.ent (u8 c.bytes 1) sl) = false) ∧ (s.holds (u8 c.bytes 1) [sl] = false) ∧ ((u8 c.bytes 0) = 3)) ∧
    (∃ (c : TcqCmd) (w : List TcqCmd) (s : State), (s.pdOn 3 = true) ∧ (s.tbl.tcq = c :: w) ∧ (c.dma = false) ∧ (s.hif.tcr.length < 256) ∧ (u16 c.bytes 2 = s.rd Reg.tblStatusGen) ∧ ((u8 c.bytes 0) = 4) ∧ (zeros c.bytes 24 8 = false ∨ 2 ≤ (u8 c.bytes 1))) ∧
    (∃ (c : TcqCmd) (w : List TcqCmd) (s : State), (s.pdOn 3 = true) ∧ (s.tbl.tcq = c :: w) ∧ (c.dma = false) ∧ (s.hif.tcr.length < 256) ∧ (u16 c.bytes 2 = s.rd Reg.tblStatusGen) ∧ ((u8 c.bytes 0) = 4) ∧ (zeros c.bytes 24 8 = true) ∧ ((u8 c.bytes 1) < 2) ∧ (16 ≤ s.tbl.fences.length)) ∧
    (∃ (c : TcqCmd) (w : List TcqCmd) (s : State), (s.pdOn 3 = true) ∧ (s.tbl.tcq = c :: w) ∧ (c.dma = false) ∧ (s.hif.tcr.length < 256) ∧ (u16 c.bytes 2 = s.rd Reg.tblStatusGen) ∧ ((u8 c.bytes 0) = 4) ∧ (zeros c.bytes 24 8 = true) ∧ ((u8 c.bytes 1) < 2) ∧ (s.tbl.fences.length < 16)) :=
  ⟨⟨{ bytes := List.replicate 64 0, idx := 0, dma := false }, [], { (up) with tbl := { tcq := [({ bytes := List.replicate 64 0, idx := 0, dma := false } : TcqCmd)] } }, by and_intros <;> decide +kernel⟩,
  ⟨{ bytes := ([1, 0, 9] ++ List.replicate 29 0), idx := 0, dma := false }, [], { (up) with tbl := { tcq := [({ bytes := ([1, 0, 9] ++ List.replicate 29 0), idx := 0, dma := false } : TcqCmd)] } }, by and_intros <;> decide +kernel⟩,
  ⟨{ bytes := ([2, 0, 9] ++ List.replicate 29 0), idx := 0, dma := false }, [], { (up) with tbl := { tcq := [({ bytes := ([2, 0, 9] ++ List.replicate 29 0), idx := 0, dma := false } : TcqCmd)] } }, by and_intros <;> decide +kernel⟩,
  ⟨{ bytes := ([3, 0, 9] ++ List.replicate 29 0), idx := 0, dma := false }, [], { (up) with tbl := { tcq := [({ bytes := ([3, 0, 9] ++ List.replicate 29 0), idx := 0, dma := false } : TcqCmd)] } }, by and_intros <;> decide +kernel⟩,
  ⟨{ bytes := ([4, 0, 9] ++ List.replicate 29 0), idx := 0, dma := false }, [], { (up) with tbl := { tcq := [({ bytes := ([4, 0, 9] ++ List.replicate 29 0), idx := 0, dma := false } : TcqCmd)] } }, by and_intros <;> decide +kernel⟩,
  ⟨{ bytes := ([5, 0, 9] ++ List.replicate 29 0), idx := 0, dma := false }, [], { (up) with tbl := { tcq := [({ bytes := ([5, 0, 9] ++ List.replicate 29 0), idx := 0, dma := false } : TcqCmd)] } }, by and_intros <;> decide +kernel⟩,
  ⟨{ bytes := ([5] ++ List.replicate 31 0), idx := 0, dma := false }, [], { (up) with tbl := { tcq := [({ bytes := ([5] ++ List.replicate 31 0), idx := 0, dma := false } : TcqCmd)] } }, by and_intros <;> decide +kernel⟩,
  ⟨{ bytes := ([1] ++ List.replicate 31 0), idx := 0, dma := false }, [], { (put [(Reg.laneCfgMode 3, 1)]) with tbl := { tcq := [({ bytes := ([1] ++ List.replicate 31 0), idx := 0, dma := false } : TcqCmd)] } }, by and_intros <;> decide +kernel⟩,
  ⟨{ bytes := ([2] ++ List.replicate 31 0), idx := 0, dma := false }, [], { (put [(Reg.laneCfgMode 3, 1)]) with tbl := { tcq := [({ bytes := ([2] ++ List.replicate 31 0), idx := 0, dma := false } : TcqCmd)] } }, by and_intros <;> decide +kernel⟩,
  ⟨{ bytes := ([3] ++ List.replicate 31 0), idx := 0, dma := false }, [], { (put [(Reg.laneCfgMode 3, 1)]) with tbl := { tcq := [({ bytes := ([3] ++ List.replicate 31 0), idx := 0, dma := false } : TcqCmd)] } }, by and_intros <;> decide +kernel⟩,
  ⟨{ bytes := [2, 0, 0, 0, 0, 0, 0, 0, 3, 0, 0, 0, 0, 0, 0, 0, 2, 0, 0, 0, 0, 2, 5, 0, 0, 0, 0, 0, 0, 0, 0, 0], idx := 0, dma := false }, [], { (put [(Reg.laneCfgMode 3, 1)]) with tbl := { tcq := [({ bytes := [2, 0, 0, 0, 0, 0, 0, 0, 3, 0, 0, 0, 0, 0, 0, 0, 2, 0, 0, 0, 0, 2, 5, 0, 0, 0, 0, 0, 0, 0, 0, 0], idx := 0, dma := false } : TcqCmd)] } }, by and_intros <;> decide +kernel⟩,
  ⟨{ bytes := [3, 0, 0, 0, 0, 0, 0, 0, 3, 0, 0, 0, 0, 0, 0, 0, 2, 0, 0, 0, 0, 2, 5, 0, 0, 0, 0, 0, 0, 0, 0, 0], idx := 0, dma := false }, [], { (put [(Reg.laneCfgMode 3, 1)]) with tbl := { tcq := [({ bytes := [3, 0, 0, 0, 0, 0, 0, 0, 3, 0, 0, 0, 0, 0, 0, 0, 2, 0, 0, 0, 0, 2, 5, 0, 0, 0, 0, 0, 0, 0, 0, 0], idx := 0, dma := false } : TcqCmd)] } }, by and_intros <;> decide +kernel⟩,
  ⟨{ bytes := [1, 0, 0, 0, 0, 0, 0, 0, 3, 0, 0, 0, 0, 0, 0, 0, 2, 0, 0, 0, 0, 2, 5, 0, 0, 0, 0, 0, 0, 0, 0, 0], idx := 0, dma := false }, [], { fullOf (put [(Reg.laneCfgMode 3, 1)]) 0 26002049111881478376988523567775747 170167185509581113246957780386870984707 with tbl := { (fullOf (put [(Reg.laneCfgMode 3, 1)]) 0 26002049111881478376988523567775747 170167185509581113246957780386870984707).tbl with tcq := [({ bytes := [1, 0, 0, 0, 0, 0, 0, 0, 3, 0, 0, 0, 0, 0, 0, 0, 2, 0, 0, 0, 0, 2, 5, 0, 0, 0, 0, 0, 0, 0, 0, 0], idx := 0, dma := false } : TcqCmd)] } }, by and_intros <;> decide +kernel⟩,
  ⟨{ bytes := [1, 0, 0, 0, 0, 0, 0, 0, 3, 0, 0, 0, 0, 0, 0, 0, 2, 0, 0, 0, 0, 2, 5, 0, 0, 0, 0, 0, 0, 0, 0, 0], idx := 0, dma := false }, [], { (put [(Reg.laneCfgMode 3, 1)]) with tbl := { tcq := [({ bytes := [1, 0, 0, 0, 0, 0, 0, 0, 3, 0, 0, 0, 0, 0, 0, 0, 2, 0, 0, 0, 0, 2, 5, 0, 0, 0, 0, 0, 0, 0, 0, 0], idx := 0, dma := false } : TcqCmd)] }, fab := { later := [(0, [1])], frames := [(1, { bytes := dataFrame, len := 64, ended := true, ingress := 3, recirc := true, vid := 5, da := 0x020000000002 })] } }, ((put [(Reg.laneCfgMode 3, 1)]).insertPath 0 (170167185509581113210064292239451881475 : Nat)).getD [], by and_intros <;> decide +kernel⟩,
  ⟨{ bytes := [1, 0, 0, 0, 0, 0, 0, 0, 3, 0, 0, 0, 0, 0, 0, 0, 2, 0, 0, 0, 0, 2, 5, 0, 0, 0, 0, 0, 0, 0, 0, 0], idx := 0, dma := false }, [], { (put [(Reg.laneCfgMode 3, 1)]) with tbl := { tcq := [({ bytes := [1, 0, 0, 0, 0, 0, 0, 0, 3, 0, 0, 0, 0, 0, 0, 0, 2, 0, 0, 0, 0, 2, 5, 0, 0, 0, 0, 0, 0, 0, 0, 0], idx := 0, dma := false } : TcqCmd)] } }, ((put [(Reg.laneCfgMode 3, 1)]).insertPath 0 (170167185509581113210064292239451881475 : Nat)).getD [], by and_intros <;> decide +kernel⟩,
  ⟨{ bytes := [1, 0, 0, 0, 0, 0, 0, 0, 3, 0, 0, 0, 0, 0, 0, 0, 2, 0, 0, 0, 0, 2, 5, 0, 0, 0, 0, 0, 0, 0, 0, 0], idx := 0, dma := false }, [], { (put [(Reg.laneCfgMode 3, 1)]) with tbl := { tcq := [({ bytes := [1, 0, 0, 0, 0, 0, 0, 0, 3, 0, 0, 0, 0, 0, 0, 0, 2, 0, 0, 0, 0, 2, 5, 0, 0, 0, 0, 0, 0, 0, 0, 0], idx := 0, dma := false } : TcqCmd)], fdb := [(slotOf 0 0 (up.bucketOf 0 0 (eKeyBytes 0 26002049111881478376988523567775747)) 0, 255237777239815729075907944097393934339)] } }, slotOf 0 0 (up.bucketOf 0 0 (eKeyBytes 0 26002049111881478376988523567775747)) 0, by and_intros <;> decide +kernel⟩,
  ⟨{ bytes := [2, 0, 0, 0, 0, 0, 0, 0, 3, 0, 0, 0, 0, 0, 0, 0, 2, 0, 0, 0, 0, 2, 5, 0, 0, 0, 0, 0, 0, 0, 0, 0], idx := 0, dma := false }, [], { (put [(Reg.laneCfgMode 3, 1)]) with tbl := { tcq := [({ bytes := [2, 0, 0, 0, 0, 0, 0, 0, 3, 0, 0, 0, 0, 0, 0, 0, 2, 0, 0, 0, 0, 2, 5, 0, 0, 0, 0, 0, 0, 0, 0, 0], idx := 0, dma := false } : TcqCmd)], fdb := [(slotOf 0 0 (up.bucketOf 0 0 (eKeyBytes 0 26002049111881478376988523567775747)) 0, 255237777239815729075907944097393934339)] } }, slotOf 0 0 (up.bucketOf 0 0 (eKeyBytes 0 26002049111881478376988523567775747)) 0, by and_intros <;> decide +kernel⟩,
  ⟨{ bytes := [3, 0, 0, 0, 0, 0, 0, 0, 3, 0, 0, 0, 0, 0, 0, 0, 2, 0, 0, 0, 0, 2, 5, 0, 0, 0, 0, 0, 0, 0, 0, 0], idx := 0, dma := false }, [], { (put [(Reg.laneCfgMode 3, 1)]) with tbl := { tcq := [({ bytes := [3, 0, 0, 0, 0, 0, 0, 0, 3, 0, 0, 0, 0, 0, 0, 0, 2, 0, 0, 0, 0, 2, 5, 0, 0, 0, 0, 0, 0, 0, 0, 0], idx := 0, dma := false } : TcqCmd)], fdb := [(slotOf 0 0 (up.bucketOf 0 0 (eKeyBytes 0 26002049111881478376988523567775747)) 0, 255237777239815729075907944097393934339)] } }, slotOf 0 0 (up.bucketOf 0 0 (eKeyBytes 0 26002049111881478376988523567775747)) 0, by and_intros <;> decide +kernel⟩,
  ⟨{ bytes := [1, 0, 0, 0, 0, 0, 0, 0, 3, 0, 0, 0, 0, 0, 0, 0, 2, 0, 0, 0, 0, 2, 5, 0, 0, 0, 0, 0, 0, 0, 0, 0], idx := 0, dma := false }, [], { (put [(Reg.laneCfgMode 3, 1)]) with tbl := { tcq := [({ bytes := [1, 0, 0, 0, 0, 0, 0, 0, 3, 0, 0, 0, 0, 0, 0, 0, 2, 0, 0, 0, 0, 2, 5, 0, 0, 0, 0, 0, 0, 0, 0, 0], idx := 0, dma := false } : TcqCmd)], fdb := [(slotOf 0 0 (up.bucketOf 0 0 (eKeyBytes 0 26002049111881478376988523567775747)) 0, 170167185509581113210064292239451881475)] } }, slotOf 0 0 (up.bucketOf 0 0 (eKeyBytes 0 26002049111881478376988523567775747)) 0, by and_intros <;> decide +kernel⟩,
  ⟨{ bytes := [2, 0, 0, 0, 0, 0, 0, 0, 3, 0, 0, 0, 0, 0, 0, 0, 2, 0, 0, 0, 0, 2, 5, 0, 0, 0, 0, 0, 0, 0, 0, 0], idx := 0, dma := false }, [], { (put [(Reg.laneCfgMode 3, 1)]) with tbl := { tcq := [({ bytes := [2, 0, 0, 0, 0, 0, 0, 0, 3, 0, 0, 0, 0, 0, 0, 0, 2, 0, 0, 0, 0, 2, 5, 0, 0, 0, 0, 0, 0, 0, 0, 0], idx := 0, dma := false } : TcqCmd)], fdb := [(slotOf 0 0 (up.bucketOf 0 0 (eKeyBytes 0 26002049111881478376988523567775747)) 0, 170167185509581113210064292239451881475)] }, fab := { later := [(0, [1])], frames := [(1, { bytes := dataFrame, len := 64, ended := true, ingress := 3, recirc := true, vid := 5, da := 0x020000000002 })] } }, slotOf 0 0 (up.bucketOf 0 0 (eKeyBytes 0 26002049111881478376988523567775747)) 0, by and_intros <;> decide +kernel⟩,
  ⟨{ bytes := [3, 0, 0, 0, 0, 0, 0, 0, 3, 0, 0, 0, 0, 0, 0, 0, 2, 0, 0, 0, 0, 2, 5, 0, 0, 0, 0, 0, 0, 0, 0, 0], idx := 0, dma := false }, [], { (put [(Reg.laneCfgMode 3, 1)]) with tbl := { tcq := [({ bytes := [3, 0, 0, 0, 0, 0, 0, 0, 3, 0, 0, 0, 0, 0, 0, 0, 2, 0, 0, 0, 0, 2, 5, 0, 0, 0, 0, 0, 0, 0, 0, 0], idx := 0, dma := false } : TcqCmd)], fdb := [(slotOf 0 0 (up.bucketOf 0 0 (eKeyBytes 0 26002049111881478376988523567775747)) 0, 170167185509581113210064292239451881475)] }, fab := { later := [(0, [1])], frames := [(1, { bytes := dataFrame, len := 64, ended := true, ingress := 3, recirc := true, vid := 5, da := 0x020000000002 })] } }, slotOf 0 0 (up.bucketOf 0 0 (eKeyBytes 0 26002049111881478376988523567775747)) 0, by and_intros <;> decide +kernel⟩,
  ⟨{ bytes := [2, 0, 0, 0, 0, 0, 0, 0, 3, 0, 0, 0, 0, 0, 0, 0, 2, 0, 0, 0, 0, 2, 5, 0, 0, 0, 0, 0, 0, 0, 0, 0], idx := 0, dma := false }, [], { (put [(Reg.laneCfgMode 3, 1)]) with tbl := { tcq := [({ bytes := [2, 0, 0, 0, 0, 0, 0, 0, 3, 0, 0, 0, 0, 0, 0, 0, 2, 0, 0, 0, 0, 2, 5, 0, 0, 0, 0, 0, 0, 0, 0, 0], idx := 0, dma := false } : TcqCmd)], fdb := [(slotOf 0 0 (up.bucketOf 0 0 (eKeyBytes 0 26002049111881478376988523567775747)) 0, 170167185509581113210064292239451881475)] } }, slotOf 0 0 (up.bucketOf 0 0 (eKeyBytes 0 26002049111881478376988523567775747)) 0, by and_intros <;> decide +kernel⟩,
  ⟨{ bytes := [3, 0, 0, 0, 0, 0, 0, 0, 3, 0, 0, 0, 0, 0, 0, 0, 2, 0, 0, 0, 0, 2, 5, 0, 0, 0, 0, 0, 0, 0, 0, 0], idx := 0, dma := false }, [], { (put [(Reg.laneCfgMode 3, 1)]) with tbl := { tcq := [({ bytes := [3, 0, 0, 0, 0, 0, 0, 0, 3, 0, 0, 0, 0, 0, 0, 0, 2, 0, 0, 0, 0, 2, 5, 0, 0, 0, 0, 0, 0, 0, 0, 0], idx := 0, dma := false } : TcqCmd)], fdb := [(slotOf 0 0 (up.bucketOf 0 0 (eKeyBytes 0 26002049111881478376988523567775747)) 0, 170167185509581113210064292239451881475)] } }, slotOf 0 0 (up.bucketOf 0 0 (eKeyBytes 0 26002049111881478376988523567775747)) 0, by and_intros <;> decide +kernel⟩,
  ⟨{ bytes := ([4, 2] ++ List.replicate 30 0), idx := 0, dma := false }, [], { (up) with tbl := { tcq := [({ bytes := ([4, 2] ++ List.replicate 30 0), idx := 0, dma := false } : TcqCmd)] } }, by and_intros <;> decide +kernel⟩,
  ⟨{ bytes := ([4] ++ List.replicate 31 0), idx := 0, dma := false }, [], { (up) with tbl := { tcq := [({ bytes := ([4] ++ List.replicate 31 0), idx := 0, dma := false } : TcqCmd)], fences := List.replicate 16 1 } }, by and_intros <;> decide +kernel⟩,
  ⟨{ bytes := ([4] ++ List.replicate 31 0), idx := 0, dma := false }, [], { (put [(Reg.laneCfgMode 3, 1)]) with tbl := { tcq := [({ bytes := ([4] ++ List.replicate 31 0), idx := 0, dma := false } : TcqCmd)] } }, by and_intros <;> decide +kernel⟩⟩

theorem test_met_CalibrationRuns :
    (∃ (s : State), (s.calState = 0) ∧ (s.on Reg.calPeriodPeriodS = true) ∧ (s.inPhase 9 = true)) ∧
    (∃ (s : State), (s.calState = 0) ∧ (s.on Reg.calStatusRetryArmed = true)) ∧
    (∃ (s : State) (g : Fin 65536), (s.calState = 0) ∧ (g.val = s.rd Reg.calStatusGen)) ∧
    (∃ (s : State), (s.calState = 1) ∧ (s.dress.clkLost = false) ∧ (s.dress.startup = true)) ∧
    (∃ (s : State), (s.calState = 2)) ∧
    (∃ (s : State), (s.calState = 3)) ∧
    (∃ (s : State), (s.calState = 4)) ∧
    (∃ (s : State), (s.calState = 5)) ∧
    (∃ (s : State), (s.calState = 6) ∧ (s.rd Reg.calStatusSource < 2) ∧ (s.inPhase 8 = false) ∧ (s.tbValid (s.rd Reg.calCfgCalTb) = true) ∧ ((∀ e ∈ s.dress.newV, ∀ v, e.2 = some v → elementOk e.1 v = true))) ∧
    (∃ (s : State), (s.calState = 7) ∧ ((s.inPhase 8 = false → s.tbValid (s.rd Reg.calCfgCalTb) = true → 0 ≤ s.tbDiff (s.rd Reg.calCfgCalTb) (s.atb (s.rd Reg.calCfgCalTb)).t (s.dress.second * tSecond % s.tbRange (s.rd Reg.calCfgCalTb))))) ∧
    (∃ (s : State), (s.frozen = true)) ∧
    (∃ (n : Fin 12) (s : State), (s.calState = 8) ∧ (s.frozen = false) ∧ (((((s.ckoTarget n).1).1 * s.cal (0x14C + n.val) + ((s.ckoTarget n).1).2 * s.cal (0x178 + n.val)) - ((s.ckoTaps n).1 * s.cal (0x14C + n.val) + (s.ckoTaps n).2 * s.cal (0x178 + n.val))).natAbs ≤ (s.cal (0x178 + n.val)).natAbs)) :=
  ⟨⟨put [(Reg.calStatusState, 0), (Reg.calPeriodPeriodS, 1), (Reg.devBootPhase, 9)], by and_intros <;> decide +kernel⟩,
  ⟨put [(Reg.calStatusState, 0), (Reg.calStatusRetryArmed, 1)], by decide +kernel, by decide +kernel⟩,
  ⟨put [(Reg.calStatusState, 0), (Reg.calStatusGen, (3 : Fin 65536).val)], 3, by decide +kernel, by decide +kernel⟩,
  ⟨{ (put [(Reg.calStatusState, 1)]) with dress := { up.dress with clkLost := false, startup := true } }, by and_intros <;> decide +kernel⟩,
  ⟨put [(Reg.calStatusState, 2)], by decide +kernel⟩,
  ⟨put [(Reg.calStatusState, 3)], by decide +kernel⟩,
  ⟨put [(Reg.calStatusState, 4)], by decide +kernel⟩,
  ⟨put [(Reg.calStatusState, 5)], by decide +kernel⟩,
  ⟨tbIn (put [(Reg.calStatusState, 6)]) 0 0 tbTrack, by and_intros <;> decide +kernel⟩,
  ⟨put [(Reg.calStatusState, 7)], by decide +kernel, by decide +kernel⟩,
  ⟨{ up with sec := { scanStop := 1 } }, by decide +kernel⟩,
  ⟨3, put [(Reg.calStatusState, 8)], by and_intros <;> decide +kernel⟩⟩

theorem test_met_CalibrationInputs :
    (∃ (s : State), (s.calRunning = false) ∧ (s.on Reg.calStatusSource = false) ∧ (s.inPhase 8 = false)) ∧
    (∃ (s : State), (s.calRunning = false) ∧ (s.inPhase 8 = false)) ∧
    (∃ (s : State), (s.calRunning = false) ∧ (s.inPhase 8 = false)) ∧
    (∃ (s : State), (s.calRunning = false) ∧ (s.inPhase 8 = false) ∧ (s.dress.ppsEver = false)) ∧
    (∃ (s : State) (d : Int), (s.calRunning = false) ∧ (s.inPhase 8 = false) ∧ (s.dress.ppsEver = true) ∧ (d.natAbs ≤ 100000)) ∧
    (∃ (g : Fin 65536) (s : State), (g.val = s.rd Reg.calStatusGen) ∧ (s.calState = 0)) ∧
    (∃ (g : Fin 65536) (s : State), (g.val = s.rd Reg.calStatusGen) ∧ (s.calState = 0) ∧ (calCrc (fun i => s.rd (Reg.calStgValue i)) (fun i => s.rd (Reg.calStgTrefTRef i)) ≠ s.rd Reg.calStgCrcCrc)) ∧
    (∃ (g : Fin 65536) (s : State), (g.val = s.rd Reg.calStatusGen) ∧ (s.calState = 0) ∧ (calCrc (fun i => s.rd (Reg.calStgValue i)) (fun i => s.rd (Reg.calStgTrefTRef i)) = s.rd Reg.calStgCrcCrc) ∧ ((∀ i < 428, elementOk i (sgn 32 (s.rd (Reg.calStgValue i))) = true)) ∧ (s.inPhase 8 = false) ∧ (s.tbValid (s.rd Reg.calCfgCalTb) = true)) :=
  ⟨⟨put [(Reg.calStatusSource, 0)], by and_intros <;> decide +kernel⟩,
  ⟨up, by decide +kernel, by decide +kernel⟩,
  ⟨up, by decide +kernel, by decide +kernel⟩,
  ⟨up, by and_intros <;> decide +kernel⟩,
  ⟨{ (up) with dress := { up.dress with ppsEver := true } }, 3, by and_intros <;> decide +kernel⟩,
  ⟨3, put [(Reg.calStatusGen, (3 : Fin 65536).val), (Reg.calStatusState, 0)], by decide +kernel, by decide +kernel⟩,
  ⟨3, put [(Reg.calStatusGen, (3 : Fin 65536).val), (Reg.calStatusState, 0)], by and_intros <;> decide +kernel⟩,
  ⟨0, calStaged, by decide +kernel, by decide +kernel, by decide +kernel, below (by decide +kernel), by decide +kernel, by decide +kernel⟩⟩

theorem test_met_TimekeeperFailOver :
    (∃ (k : Fin 2) (u : Fin 68) (s : State), (u.val = 2 + k.val) ∧ (s.unit u = unitActive) ∧ (s.unitHealthy u = false) ∧ (s.on (Reg.redUnitStatusUnmonitored u) = false) ∧ (s.unit (3 - k.val) = unitStandby) ∧ (s.unitDoubt (3 - k.val) = false) ∧ (s.inPhase 8 = false) ∧ ((∀ j < 32, s.rd (Reg.redPairCfgKind j) ≠ 2))) :=
  ⟨1, 3, (put [(Reg.redUnitStatusState (3 : Fin 68), unitActive), (Reg.redUnitStatusUnmonitored (3 : Fin 68), 0), (Reg.redUnitStatusState (3 - (1 : Fin 2).val), unitStandby)]).setLine 0x5A { cause := true }, by decide +kernel, by decide +kernel, by decide +kernel, by decide +kernel, by decide +kernel, by decide +kernel, by decide +kernel, below (by decide +kernel)⟩

theorem test_met_Referee :
    (∃ (u : Fin 68) (s : State), (2 ≤ u.val) ∧ (s.unitUsed u = true) ∧ (s.unit u = unitStandby) ∧ ((∀ j < 32, s.rd (Reg.redPairCfgKind j) ≠ 2)) ∧ (s.inPhase 8 = false) ∧ (s.unitHealthy u = false) ∧ (s.on (Reg.redUnitStatusUnmonitored u) = false)) ∧
    (∃ (u : Fin 68) (s : State), (2 ≤ u.val) ∧ (s.unitUsed u = true) ∧ (s.unit u = unitStandby) ∧ ((∀ j < 32, s.rd (Reg.redPairCfgKind j) ≠ 2)) ∧ (s.inPhase 8 = false)) ∧
    (∃ (u : Fin 68) (s : State), (s.unit u ≠ 0) ∧ (s.unitUsed u = true) ∧ (s.inPhase 8 = false) ∧ (s.isLost u = false)) ∧
    (∃ (u : Fin 68) (s : State), (s.unit u ≠ 0) ∧ (s.unitUsed u = true) ∧ (s.inPhase 8 = false) ∧ (s.isLost u = true) ∧ (s.unit u = unitActive) ∧ (s.unitHealthy u = true) ∧ (s.sideBad u = false)) ∧
    (∃ (u : Fin 68) (s : State), (s.unitUsed u = true)) ∧
    (∃ (u : Fin 68) (s : State), (s.isLost u = false) ∧ (s.inPhase 8 = false)) ∧
    (∃ (u : Fin 68) (s : State), (s.unit u = unitSync) ∧ (s.unitVerified u = true) ∧ (s.unit (unitOther u) = unitActive) ∧ (s.isLost u = false) ∧ (s.sideBad u = false) ∧ (s.inPhase 8 = false)) ∧
    (∃ (u : Fin 68) (s : State), (s.unit u = unitSync) ∧ (s.unitVerified u = true) ∧ (s.sideBad u = true) ∧ (s.inPhase 8 = false)) ∧
    (∃ (u : Fin 68) (s : State), (s.unit u = unitSync) ∧ (s.unitVerified u = true) ∧ (s.unit (unitOther u) ≠ unitActive) ∧ (s.sideBad u = false) ∧ ((4 ≤ u.val ∨ s.roleHeld u = true))) ∧
    (∃ (u : Fin 68) (s : State), (s.unit u = unitFailed) ∧ (s.lineShown u = true) ∧ (4 ≤ u.val)) ∧
    (∃ (u : Fin 68) (s : State), (s.unit u = unitLatched) ∧ (s.on Reg.redLatchLatchS = true)) ∧
    (∃ (u : Fin 68) (s : State), (s.unit u = unitWtr) ∧ (4 ≤ u.val) ∧ (u.val % 2 = 0)) ∧
    (∃ (k : Fin 32) (s : State), (s.rd (Reg.redPairCfgKind k) = 2) ∧ ((∀ j < 32, j ≠ k.val → s.rd (Reg.redPairCfgKind j) ≠ 2)) ∧ (s.on (Reg.tkPairDeferred (s.rd (Reg.redPairCfgTkPair k))) = true) ∧ (s.timeHealthy (s.timeUnit k) = true)) ∧
    (∃ (u : Fin 128) (s : State), (67 < u.val ∨ s.unitUsed u = false)) ∧
    (∃ (u : Fin 128) (g : Fin 65536) (s : State), (u.val ≤ 67) ∧ (s.unitUsed u = true) ∧ (g.val ≠ s.rd (Reg.redUnitStatusGen u))) ∧
    (∃ (u : Fin 128) (g : Fin 65536) (s : State), (u.val ≤ 67) ∧ (s.unitUsed u = true) ∧ (g.val = s.rd (Reg.redUnitStatusGen u)) ∧ (s.unit u = unitLatched)) :=
  ⟨⟨3, (put [(Reg.redUnitStatusState (3 : Fin 68), unitStandby), (Reg.redUnitStatusUnmonitored (3 : Fin 68), 0)]).setLine 0x5A { cause := true }, by decide +kernel, by decide +kernel, by decide +kernel, below (by decide +kernel), by and_intros <;> decide +kernel⟩,
  ⟨3, put [(Reg.redUnitStatusState (3 : Fin 68), unitStandby)], by decide +kernel, by decide +kernel, by decide +kernel, below (by decide +kernel), by decide +kernel⟩,
  ⟨3, put [(Reg.redUnitStatusState 3, 3)], by and_intros <;> decide +kernel⟩,
  ⟨2, put [(Reg.redUnitStatusState (2 : Fin 68), unitActive), (Reg.redStatusTkLost, 1)], by and_intros <;> decide +kernel⟩,
  ⟨3, up, by decide +kernel⟩,
  ⟨3, up, by decide +kernel, by decide +kernel⟩,
  ⟨3, put [(Reg.redUnitStatusState (3 : Fin 68), unitSync), (Reg.redUnitStatusState (unitOther (3 : Fin 68)), unitActive), (Reg.tkStatusStandbyRun, 1), (Reg.tkStatusXlinkLost, 1)], by and_intros <;> decide +kernel⟩,
  ⟨3, put [(Reg.redUnitStatusState (3 : Fin 68), unitSync), (Reg.redUnitStatusState 1, 1), (Reg.tkStatusStandbyRun, 1), (Reg.tkStatusXlinkLost, 1)], by and_intros <;> decide +kernel⟩,
  ⟨3, put [(Reg.redUnitStatusState (3 : Fin 68), unitSync), (Reg.tkStatusStandbyRun, 1), (Reg.tkStatusXlinkLost, 1), (Reg.tkStatusActive, 1)], by and_intros <;> decide +kernel⟩,
  ⟨4, put [(Reg.redUnitStatusState (4 : Fin 68), unitFailed), (Reg.portLinkState 0, portUp), (Reg.laneStateHealth 0, 1)], by and_intros <;> decide +kernel⟩,
  ⟨3, put [(Reg.redUnitStatusState (3 : Fin 68), unitLatched), (Reg.redLatchLatchS, 1)], by decide +kernel, by decide +kernel⟩,
  ⟨4, put [(Reg.redUnitStatusState (4 : Fin 68), unitWtr)], by and_intros <;> decide +kernel⟩,
  ⟨3, (put [(Reg.redPairCfgKind (3 : Fin 32), 2), (Reg.tkPairDeferred 0, 1), (Reg.ttLaneStatusState 0, ttRun), (Reg.laneStateHealth 0, 1)]).setEng 0 { fresh := true }, by decide +kernel, below (by decide +kernel), by decide +kernel, by decide +kernel⟩,
  ⟨70, up, by decide +kernel⟩,
  ⟨3, 3, up, by and_intros <;> decide +kernel⟩,
  ⟨3, 3, put [(Reg.redUnitStatusGen (3 : Fin 128), (3 : Fin 65536).val), (Reg.redUnitStatusState (3 : Fin 128), unitLatched)], by and_intros <;> decide +kernel⟩⟩

theorem test_met_FaultCollector :
    (∃ (e : FaultEv) (s : State), (s.inReset = false) ∧ (s.collectorOn = true) ∧ (s.sourceOn e.source = true) ∧ (0x44 ≤ e.source.val) ∧ (fltClass e.source ≠ 0) ∧ (e.rail = none) ∧ ((s.line e.source).pair = 0) ∧ ((s.line e.source).cause = true ∨ e.real = true ∨ s.injected e.source false = true) ∧ (s.colState = colIdle) ∧ (s.rd (Reg.fltSrcReaction e.source) = 0)) ∧
    (∃ (s : State), (s.collectorOn = true) ∧ (s.colState = colReact)) ∧
    (∃ (i : Fin 512) (b : Bool) (s : State), (s.inReset = false) ∧ (s.collectorOn = true) ∧ (s.sourceOn i = true) ∧ (fltClass i ≠ 0) ∧ ((s.line i).pair ≠ 2) ∧ (b = true ∨ s.injected i true = true)) ∧
    (∃ (i : Fin 512) (s : State), (s.collectorOn = true) ∧ (lastingSource i = false) ∧ ((s.line i).pair ≠ 0) ∧ (s.flt.inj = none)) ∧
    (∃ (i : Fin 512) (u : Nat) (s : State), (s.sourceUnit i = some u) ∧ (s.on (Reg.fltSrcActive i) = false) ∧ (s.isLost u = false)) ∧
    (∃ (v : Word) (s : State), (v.toNat / 2 ^ 16 ≠ s.rd Reg.fltStatusGen)) ∧
    (∃ (v : Word) (s : State), (v.toNat / 2 ^ 16 = s.rd Reg.fltStatusGen) ∧ (s.colState ≠ colHold)) ∧
    (∃ (v : Word) (s : State), (v.toNat / 2 ^ 16 = s.rd Reg.fltStatusGen) ∧ (s.colState = colHold) ∧ (s.srcActive (s.rd Reg.fltRecSrcSource) = true)) ∧
    (∃ (v : Word) (s : State), (v.toNat / 2 ^ 16 = s.rd Reg.fltStatusGen) ∧ (s.colState = colHold) ∧ (s.srcActive (s.rd Reg.fltRecSrcSource) = false) ∧ (sourcePort (s.rd Reg.fltRecSrcSource) = none)) ∧
    (∃ (i : Fin 512) (v : Word) (s : State), (bit v.toNat 8 = true) ∧ (fltClass i ≠ 0) ∧ (s.srcActive i = true ∨ (s.colState ≠ colIdle ∧ s.rd Reg.fltRecSrcSource = i))) ∧
    (∃ (i : Fin 512) (v : Word) (s : State), (bit v.toNat 8 = true) ∧ (fltClass i ≠ 0) ∧ (s.srcActive i = false) ∧ (s.colState = colIdle ∨ s.rd Reg.fltRecSrcSource ≠ i) ∧ (sourcePort i = none)) :=
  ⟨⟨{ source := 0x50, syndrome := 0, real := false, frame := 0 }, (put [(Reg.fltStatusState, colIdle), (Reg.fltSrcReaction ({ source := 0x50, syndrome := 0, real := false, frame := 0 } : FaultEv).source, 0)]).setLine 0x50 { cause := true }, by and_intros <;> decide +kernel⟩,
  ⟨put [(Reg.fltStatusState, colReact)], by decide +kernel, by decide +kernel⟩,
  ⟨3, true, up, by and_intros <;> decide +kernel⟩,
  ⟨3, (up).setLine (3 : Fin 512).val { pair := 1 }, by and_intros <;> decide +kernel⟩,
  ⟨3, 3, put [(Reg.fltSrcActive (3 : Fin 512), 0)], by and_intros <;> decide +kernel⟩,
  ⟨0x90000, up, by decide +kernel⟩,
  ⟨5, up, by decide +kernel, by decide +kernel⟩,
  ⟨5, (put [(Reg.fltStatusState, colHold), (Reg.fltRecSrcSource, 0x50), (Reg.fltSrcActive 0x50, 1)]), by and_intros <;> decide +kernel⟩,
  ⟨5, put [(Reg.fltStatusState, colHold)], by and_intros <;> decide +kernel⟩,
  ⟨3, 0x100, put [(Reg.fltSrcActive (3 : Fin 512), 1)], by and_intros <;> decide +kernel⟩,
  ⟨3, 0x100, put [(Reg.fltStatusState, colIdle)], by and_intros <;> decide +kernel⟩⟩

theorem test_met_FaultInjection :
    (∃ (s : State), (s.on Reg.fltCfgInjEn = false)) ∧
    (∃ (v : Word) (s : State), (s.on Reg.fltCfgInjEn = true) ∧ (fltClass (v.toNat % 512) = 0)) ∧
    (∃ (v : Word) (s : State), (s.on Reg.fltCfgInjEn = true) ∧ (fltClass (v.toNat % 512) ≠ 0) ∧ (s.on Reg.fltInjStatusBusy = true)) ∧
    (∃ (v : Word) (s : State), (s.on Reg.fltCfgInjEn = true) ∧ (fltClass (v.toNat % 512) ≠ 0) ∧ (s.on Reg.fltInjStatusBusy = false) ∧ (v.toNat / 2 ^ 16 = 0)) ∧
    (∃ (v : Word) (s : State), (s.on Reg.fltCfgInjEn = true) ∧ (fltClass (v.toNat % 512) ≠ 0) ∧ (s.on Reg.fltInjStatusBusy = false) ∧ (v.toNat / 2 ^ 16 ≠ 0)) ∧
    (∃ (x : Nat) (m : Nat) (s : State), (s.flt.inj = some (x, m))) :=
  ⟨⟨put [(Reg.fltCfgInjEn, 0)], by decide +kernel⟩,
  ⟨0x4A, put [(Reg.fltCfgInjEn, 1)], by decide +kernel, by decide +kernel⟩,
  ⟨5, put [(Reg.fltCfgInjEn, 1), (Reg.fltInjStatusBusy, 1)], by and_intros <;> decide +kernel⟩,
  ⟨5, put [(Reg.fltCfgInjEn, 1), (Reg.fltInjStatusBusy, 0)], by and_intros <;> decide +kernel⟩,
  ⟨0x90050, put [(Reg.fltCfgInjEn, 1), (Reg.fltInjStatusBusy, 0)], by and_intros <;> decide +kernel⟩,
  ⟨5, 5, { (up) with flt := { inj := some ((5 : Nat), (5 : Nat)) } }, by decide +kernel⟩⟩

theorem test_met_XoClasses :
    (∃ (n : Nat) (s : State), (s.xo.released = true) ∧ (s.rd Reg.clkXoStatusState = 0) ∧ (xoClass n < 2)) ∧
    (∃ (n : Nat) (s : State), (s.xo.released = true) ∧ (s.rd Reg.clkXoStatusState = 0) ∧ (2 ≤ xoClass n)) :=
  ⟨⟨5, put [(Reg.clkXoStatusState, 0)], by and_intros <;> decide +kernel⟩,
  ⟨700, put [(Reg.clkXoStatusState, 0)], by and_intros <;> decide +kernel⟩⟩

theorem test_met_FloorValue :
    (∃ (s : State), ((∀ i < 64, s.floorWord i = 0))) :=
  ⟨up, below (by decide +kernel)⟩

theorem test_met_NopCommands :
    (∃ (s : State) (c : TcqCmd) (w : List TcqCmd), (s.pdOn 3 = true) ∧ (s.tbl.tcq = c :: w) ∧ (c.dma = false) ∧ (s.hif.tcr.length < 256) ∧ (u8 c.bytes 0 = 0)) ∧
    (∃ (s : State) (g : Fin 65536), (s.k1On = true) ∧ (g.val ≠ s.rd Reg.pwrStatusGen)) :=
  ⟨⟨{ (up) with tbl := { tcq := [({ bytes := List.replicate 64 0, idx := 0, dma := false })] } }, { bytes := List.replicate 64 0, idx := 0, dma := false }, [], by and_intros <;> decide +kernel⟩,
  ⟨up, 3, by decide +kernel, by decide +kernel⟩⟩

theorem test_met_LifeCycleForward :
    (∃ (a : Nat) (b : Nat) (s : State), (s.sec.trans = some (a, b, true)) ∧ (a < 5) ∧ (b < 5)) ∧
    (∃ (s : State) (t : State), (Sys2Proof.Machine.step s = .next t)) :=
  ⟨⟨0, 1, { (up) with sec := { trans := some (0, 1, true) } }, by and_intros <;> decide +kernel⟩,
  ⟨up, nx (step up), by rfl⟩⟩

theorem test_met_ExecWithin :
    (∃ (i : Instr) (s : State) (t : State), (exec i s = .next t)) :=
  ⟨.resetCmdHostView, up, nx (exec .resetCmdHostView up), by rfl⟩

theorem test_met_CanonicalKept :
    (∃ (s : State) (t : State), (Canonical s) ∧ (Sys2Proof.Machine.step s = .next t)) :=
  ⟨up, nx (step up), ⟨by decide +kernel, by decide +kernel, by decide +kernel⟩, by rfl⟩

theorem test_met_JournalKept :
    (∃ (s : State) (t : State), (JournalOk s) ∧ (Sys2Proof.Machine.step s = .next t)) ∧
    (∃ (s : State) (t : State), (Sys2Proof.Machine.step s = .next t)) :=
  ⟨⟨up, nx (step up), ⟨by decide +kernel, by decide +kernel⟩, by rfl⟩,
  ⟨up, nx (step up), by rfl⟩⟩

theorem test_met_InjectionIsContained :
    (∃ (i : Instr) (s : State) (t : State), ((∃ v, i = .fltInject v) ∨ i = .fltInjectEnd ∨ (∃ e : FaultEv, e.source = 0x49 ∧ e.real = false ∧ i = .faultEvent [e]) ∨ (∃ c, i = .faultRailFault 0x49 (c, false))) ∧ (exec i s = .next t) ∧ ((∃ v, i = .fltInject v) ∨ i = .fltInjectEnd)) ∧
    (∃ (i : Instr) (s : State) (t : State), ((∃ v, i = .fltInject v) ∨ i = .fltInjectEnd ∨ (∃ e : FaultEv, e.source = 0x49 ∧ e.real = false ∧ i = .faultEvent [e]) ∨ (∃ c, i = .faultRailFault 0x49 (c, false))) ∧ (exec i s = .next t)) :=
  ⟨⟨.fltInjectEnd, up, nx (exec .fltInjectEnd up), .inr (.inl rfl), by rfl, .inr rfl⟩,
  ⟨.fltInjectEnd, up, nx (exec .fltInjectEnd up), .inr (.inl rfl), by rfl⟩⟩

theorem test_met_JournalRecordsAndCounters :
    (∃ (f : Fld) (s : State), (s.c48 f < 2 ^ 48)) :=
  ⟨Reg.devBootPhase, up, by decide +kernel⟩

/-! ## Well-formedness refuses -/

/-- Each check of `Instr.wf` refuses a command that breaks it. -/
theorem test_wf_lengths :
    (Instr.nvmCmdDone (List.replicate 257 0)).wf = false ∧
    (Instr.timingFrameReceived 0 []).wf = false ∧ (Instr.tempSensorRead []).wf = false ∧ (Instr.faultEvent []).wf = false ∧
    (Instr.smiRead 0 0).wf = false ∧ (Instr.smiWrite 0 []).wf = false ∧ (Instr.tcqFetch []).wf = false ∧
    (Instr.txfFetch [] []).wf = false ∧ (Instr.hostRxDeliver []).wf = false ∧ (Instr.prbsCheckerBlock 0 0 []).wf = false := by decide

theorem test_wf_long_bytes :
    (Instr.imageReadDone { signature := 0, tableAt := 0, density := 0, read114 := none, quadEnable := none } (List.replicate 8388609 0)).wf = false := by
  simp only [Instr.wf, List.length_replicate]; decide

theorem test_wf_ranges :
    (Instr.refmonSecond [] [] 0 0).wf = false ∧ (Instr.superblockTransmit 0 0 40 0).wf = false ∧
    (Instr.superblockReceived 0 [] 0 40 (0, 0)).wf = false ∧ (Instr.counterLoRead ⟨0, 2, 17⟩ 0).wf = false ∧
    (Instr.calScaleDone [(428, 0)]).wf = false ∧ (Instr.calLoopDone [(428, 0)]).wf = false ∧
    (Instr.calPointsDone [(428, 0)]).wf = false ∧ (Instr.calOutputsDone [(428, 0)]).wf = false ∧
    (Instr.lookupFirstPass 0 false false [(3, 0)]).wf = false ∧ (Instr.lookupLaterPass 0 false [(3, 0)]).wf = false ∧
    (Instr.agerVisit [(2, 0)]).wf = false ∧ (Instr.shadowAuditStep 0 [(3, 0)]).wf = false ∧
    (Instr.secCmdReserved false 1).wf = false ∧ (Instr.mailboxForeignWrite false 0 0).wf = false ∧
    (Instr.jtagSecAccess false 1 0).wf = false ∧ (Instr.jtagScan 2048).wf = false ∧
    (Instr.registerWrite 0 0 (2 ^ 26) 0 0).wf = false ∧ (Instr.smiPartial (2 ^ 32)).wf = false := by decide

theorem test_wf_long_frames :
    (Instr.leatFrameReceived 0 0 0 (List.replicate 16384 0) true 0 false).wf = false ∧
    (Instr.ethFrameReceived 0 (List.replicate 16384 0) false 0 false 0 0).wf = false := by
  simp only [Instr.wf, List.length_replicate]; decide

/-! ## Values from the spec's worked examples -/

/-- 02_image_and_startup, Table IM-9: LENGTH 260, SEQ 7, key slot 1, and records at 64, 104 and 124. -/
theorem test_example_image : headerOk img = true ∧ imgLen img = 260 ∧ imgSeqOf img = 7 ∧ imgSlot img = 1 ∧
    (imgRecs img).map (·.map fun r => (r.1, r.2.1)) = some [(1, 64), (0x10, 104), (0xFFFF, 124)] := by decide +kernel

/-- The image of Table IM-9 passes READ in FIELD: the device goes on to AUTH. -/
theorem test_example_image_read : (nx (exec (.imageReadDone
    { signature := 0x50444653, tableAt := 0x80, density := 0x4000000, read114 := some (0x6B, 8), quadEnable := some [(0x31, [2])] } img) (imgUp.wr Reg.devBootPhase 3))).rd Reg.devBootPhase = 4 := by decide +kernel

/-- 07_time_bases_and_servo: SLEW = 10 ns/s is a slew term of 2 814 749. -/
theorem test_example_slew : (put [(Reg.tkTbSlewSlew 0, 10)]).slewTerm 0 = 2814749 := by decide +kernel

/-- 07_time_bases_and_servo, one servo sample: e = 2 621 at dt = 62.5 ms takes f from +0.300 ppb (84 442) to a TK.TBn.FREQ of 260,
PEND to −1 310 units and p to −SLEW. -/
theorem test_example_servo :
    let s := put [(Reg.tkTbGainKp 1, 32768), (Reg.tkTbGainKi 1, 4096), (Reg.tkTbSlewSlew 1, 10), (Reg.tkTbIlimIlim 1, 1000)]
    let b := s.servo 1 { state := tbTrack, valid := true, f := 84442, first := false, t := 4096000000000 } 2621
    b.pend = -1310 * (tbM : Int) ∧ b.p = -2814749 ∧ (s.setTb 0 1 b).viewFld 0 (Reg.tkTbFreqFreq 1) = 260 := by decide +kernel

/-- 08_time_transfer, Table TT-5: the hop of 12.4 km. The exact times give e = 1 638.4 units; with each stamp and ALPHA
rounded to its unit the sum done by hand is 1 638.8, which rounds to 1 639. -/
theorem test_example_hop :
    let s := (put [(Reg.laneCfgMode 12, 1), (Reg.ttLaneCfgTtEn 12, 1), (Reg.tkTbCfgEnable 1, 1),
      (Reg.tkTbCfgSrc 1, 1), (Reg.tkTbCfgSrcId 1, 12),
      (Reg.ttLaneAlphaLoAlphaLo 12, 3546031138), (Reg.ttLaneAlphaHiAlphaHi 12, 4294967265), (Reg.ttLaneRttMaxRttMax 12, 1200000)]).setEng 12
      { own := [{ tf := 1, st := { t := 188167619, tb := 1, valid := true }, agen := 0, lgen := 0, other := some 4168227684 }]
        inb := [{ tf := 1, st := { t := 4057096847, tb := 1, valid := true }, agen := 0, lgen := 0, other := some 78866022, valid := true }] }
    (nx (exec (.ttPairFormed 12) s)).rd (Reg.ttLaneELoELo 12) = 1639 := by decide +kernel

/-- 09_timestamps_pulses_captures, placing one edge: 1 387.60 ps into the cycle, t_c = 24.242 ps and t_f = 0.8 ps give taps 57 and 7. -/
theorem test_example_edge : pgTaps 9093775360 1589 52 = (57, 7, false) := by decide

/-- 09_timestamps_pulses_captures, E1 to E3 of the capture example: windows 0, 1, 1 and INHIGH 0, 1, 0 on a pulse of 2 µs in 10 µs from
100 s on. -/
theorem test_example_windows :
    let s := put [(Reg.tsCapCfgWinEn 5, 1), (Reg.tsCapCfgWinPg 5, 2), (Reg.tsPgStatusState 2, pgActive), (Reg.tsPgCfgMode 2, 2),
      (Reg.tsPgCfgTb 2, 3), (Reg.tsPgStart0StartSecLo 2, 100), (Reg.tsPgPer0PeriodLo 2, 655360000), (Reg.tsPgWid0WidthLo 2, 131072000)]
    s.capWindow 5 (100 * tSecond + 655359974) = (some 0, false) ∧ s.capWindow 5 (100 * tSecond + 655360000) = (some 1, true) ∧
    s.capWindow 5 (100 * tSecond + 786432000) = (some 1, false) := by decide +kernel

/-- 06_ethernet_ports, transparent clock: a correctionField of 0x12_3400 leaves as 0x8C_CD9A and the UDP checksum as zero. -/
theorem test_example_residence :
    let sync : List Byte :=
      [1, 0, 94, 0, 1, 129, 2, 0, 0, 0, 0, 1, 8, 0, 69, 0, 0, 72, 0, 0, 0, 0, 64, 17, 0, 0, 0, 0, 0, 0, 0, 0, 0, 0, 1, 63, 1, 63, 0, 52, 18, 52]
        ++ [0, 2, 0, 44, 0, 0, 2, 0, 0, 0, 0, 0, 0, 18, 52, 0, 0, 0, 0, 0] ++ List.replicate 24 0
    let out := 1000 * tSecond + 123456912 * 65536 + 0x199A
    let s := (put [(Reg.laneCfgMode 12, 2), (Reg.portCfgMode 12, 1), (Reg.portPtpCfgTcMode 12, 1)]).setTb 0 1 { state := tbTrack, valid := true, t := out }
    let b := (s.ptpEdit { stamp := stampWord true 1 (1000 * tSecond + 123456789 * 65536 + 0x8000), ingress := 4 } 12 1 out sync).1
    beAt b 50 8 = 0x8CCD9A ∧ beAt b 40 2 = 0 := by decide +kernel

/-- 14_fault_collection, Table FL-7, cycle 0: a real and an injected event in BUF_UNCORR_4 give REACT, the next GEN and a record of
source 0x1B4 with INJ 0. -/
theorem test_example_fault :
    let t := nx (exec (.faultEvent [{ source := 0x1B4, syndrome := 0xA31C, real := true, frame := 0 }]) up)
    t.colState = colReact ∧ t.rd Reg.fltStatusGen = up.rd Reg.fltStatusGen + 1 ∧ t.rd Reg.fltRecSrcSource = 0x1B4 ∧
      t.rd Reg.fltRecSrcInj = 0 := by decide +kernel

end Sys2Proof.Tests
end

section
/-! The REFSEL block under host writes (R5, R6): every one of its fields is read-only or an image field, so a host write to the block
does nothing beyond the report of the access. -/
namespace Sys2Proof.Machine

/-- No host write changes the field: its access is neither RW nor W1C (R11). -/
def Fld.hostFixed (f : Fld) : Bool := f.acc != .rw && f.acc != .w1c

/-- What the report of a host access may change, SMI_SEEN included: registers of HIF, messages and pending interrupts. -/
def accessReportMask : Nat := maskOf [.intStatus, .regHif, .out, .hif]

/-- A write leaves a field that the host cannot change as it is. -/
theorem State.wrFld_of_hostFixed (s : State) (v : Nat) {f : Fld} (h : f.hostFixed = true) : s.wrFld v f = s := by
  unfold State.wrFld
  split
  next e => simp [Fld.hostFixed, e] at h
  next e => simp [Fld.hostFixed, e] at h
  · rfl

/-- A write to a register all of whose fields are such leaves the state as it is. -/
theorem State.plain_of_hostFixed (s : State) (v : Nat) {l : List Fld} (h : ∀ f ∈ l, f.hostFixed = true) : s.plain v l = s := by
  unfold State.plain
  induction l with
  | nil => rfl
  | cons f l ih =>
    rw [State.each_cons, s.wrFld_of_hostFixed v (h f List.mem_cons_self)]
    exact ih fun g hg => h g (List.mem_cons_of_mem f hg)

/-- The fields that an address map gives for a word are those of one of its rows. -/
theorem exists_row_of_findRow {rows : List RegRow} {a : Nat} {l : List Fld} (h : findRow rows a = some l) :
    ∃ r ∈ rows, ∃ n, l = r.flds n := by
  induction rows with
  | nil => cases h
  | cons r rs ih =>
    rw [findRow] at h
    split at h
    next n _ => exact ⟨r, List.mem_cons_self, n, (Option.some.inj h).symm⟩
    · obtain ⟨r', hr', n, hl⟩ := ih h
      exact ⟨r', List.mem_cons_of_mem r hr', n, hl⟩

/-- Every field of every row of the REFSEL map is RO or IMG (Tables FT-10, FT-11). -/
theorem rowsRefsel_hostFixed (n : Nat) : (rowsRefsel.all fun r => (r.flds n).all Fld.hostFixed) = true := rfl

/-- The map of an offset in the REFSEL block is the REFSEL map (Table HI-3). -/
theorem rowsOf_refsel {a : Nat} (lo : 0x200000 ≤ a) (hi : a < 0x300000) : rowsOf a = rowsRefsel := by
  unfold rowsOf
  rw [if_neg (by omega), if_neg (by omega), if_pos hi]

theorem fieldsAt_refsel_hostFixed {a : Nat} {l : List Fld} (lo : 0x200000 ≤ a) (hi : a < 0x300000) (h : fieldsAt a = some l) :
    ∀ f ∈ l, f.hostFixed = true := by
  rw [fieldsAt, rowsOf_refsel lo hi] at h
  obtain ⟨r, hr, n, rfl⟩ := exists_row_of_findRow h
  exact List.all_eq_true.mp (List.all_eq_true.mp (rowsRefsel_hostFixed n) r hr)

/-- A write that has passed every check has no effect on a register of REFSEL. -/
theorem State.writeReg_refsel (s : State) (p v : Nat) {a : Nat} {l : List Fld} (lo : 0x200000 ≤ a) (hi : a < 0x300000)
    (h : fieldsAt a = some l) : s.writeReg p a v l = s := by
  unfold State.writeReg
  rw [if_neg (by omega), if_pos (by omega)]
  unfold State.writeClk
  rw [if_neg (by omega)]
  exact s.plain_of_hostFixed v (fieldsAt_refsel_hostFixed lo hi h)

theorem State.accReport_keeps_report {s₀ s : State} (p bar2 a type : Nat) (h : Keeps accessReportMask s₀ s) :
    Keeps accessReportMask s₀ (s.accReport p bar2 a type) :=
  State.accReport_keeps (Sub.refl _) p bar2 a type h

/-- A host write to a word of REFSEL does at most what a report does, whichever check it meets. -/
theorem State.hostWrite_refsel_keeps {s₀ s : State} (p v : Nat) (full : Bool) {a : Nat} (lo : 0x200000 ≤ a) (hi : a < 0x300000)
    (h : Keeps accessReportMask s₀ s) : Keeps accessReportMask s₀ (s.hostWrite p a v full) := by
  have report (type : Nat) := State.accReport_keeps_report p 0 a type h
  unfold State.hostWrite
  split
  · exact h
  split
  · exact report accResetBusy
  split
  · exact h
  split
  · exact report accUnmapped
  split
  · exact report accNoDomain
  split
  · exact report accByteEn
  split
  · exact h
  next l hl =>
    rw [State.writeReg_refsel _ p v lo hi hl]
    exact Keeps.when (fun t ht => State.accReport_keeps_report p 0 a accImgWrite ht) h

theorem State.smiWrites_refsel_keeps {s₀ s : State} {a : Nat} {l : List Word} (lo : 0x200000 ≤ a) (hi : a + 4 * l.length ≤ 0x300000)
    (h : Keeps accessReportMask s₀ s) : Keeps accessReportMask s₀ (s.smiWrites a l) := by
  induction l generalizing s a with
  | nil => exact h
  | cons w l ih =>
    rw [List.length_cons] at hi
    exact ih (by omega) (by omega) (State.hostWrite_refsel_keeps 1 w.toNat true lo (by omega) h)

theorem exec_registerWrite_refsel_keeps (p : Fin 2) (v : Word) (be : Fin 16) {a : Nat} (s : State) (lo : 0x200000 ≤ a)
    (hi : a < 0x300000) : ResKeeps accessReportMask s (exec (.registerWrite p 0 a v be) s) :=
  ResKeeps.next (State.hostWrite_refsel_keeps p.val v.toNat _ lo hi (Keeps.refl _ s))

theorem exec_smiWrite_refsel_keeps {a : Nat} {l : List Word} (s : State) (lo : 0x200000 ≤ a) (hi : a + 4 * l.length ≤ 0x300000) :
    ResKeeps accessReportMask s (exec (.smiWrite a l) s) := by
  refine ResKeeps.next (State.smi_keeps (Sub.le (Sub.refl accessReportMask) rfl) _ (fun t ht => ?_) (Keeps.refl _ s))
  exact State.send_keeps (Sub.le (Sub.refl accessReportMask) rfl) _ (State.smiWrites_refsel_keeps lo hi ht)

/-- A report changes no field of the REFSEL block: its registers lie in the HIF block. -/
theorem may_accessReport_refsel {f : Fld} (lo : 0x200000 ≤ f.addr) (hi : f.addr < 0x300000) (hl : f.lo < 32) :
    may accessReportMask f.key = false := by
  have block : f.key / 2 ^ 25 = 2 := by unfold Fld.key; omega
  have word : f.key / 32 ≠ 0x2D00010 := by unfold Fld.key; omega
  unfold may unitOf
  rw [if_neg word, block]
  rfl

/-- Settles O19: the fields of REFSEL are RO or IMG, so a host write to the block, by either command, does no more than report. -/
theorem noHostWriteMovesReferences : Obligations.NoHostWriteMovesReferences := by
  unfold Obligations.NoHostWriteMovesReferences
  intro p a v w be i s t lo cmd run
  have kept : Keeps accessReportMask s t := by
    rcases cmd with ⟨rfl, hi⟩ | ⟨rfl, hi⟩
    · exact (exec_registerWrite_refsel_keeps p v be s lo hi).next_keeps t run
    · exact (exec_smiWrite_refsel_keeps s lo hi).next_keeps t run
  exact ⟨kept.inn.refsel rfl, kept.inn.syn rfl, fun f flo fhi fl => kept.inn.regs _ _ (may_accessReport_refsel flo fhi fl)⟩

end Sys2Proof.Machine
end

section
/-! Commands of code 0 (R425): each shows the result OK and nothing else moves. -/
namespace Sys2Proof.Machine

/-- A result field that takes 0 reads 0, and nothing else differs. -/
theorem State.wr_zero_spec (s : State) (f : Fld) : (s.wr f 0).rd f = 0 ∧ SameBut [f] s (s.wr f 0) :=
  ⟨by rw [State.rd_wr, Nat.zero_mod], SameBut.wr 0 List.mem_cons_self (SameBut.refl [f] s)⟩

/-- ACCEPTED of a feed stands beside RESULT in one word, so a result leaves it as it is. -/
theorem tkTbFeedStatus_accepted_ne_result (n : Nat) : (Reg.tkTbFeedStatusAccepted n).key ≠ (Reg.tkTbFeedStatusResult n).key := by
  simp only [Fld.key, Reg.tkTbFeedStatusAccepted, Reg.tkTbFeedStatusResult]
  omega

/-- PG_CMD's status names the generator and the result, and nothing else differs. -/
theorem State.pgResult_spec (s : State) (p : Fin 16) :
    (s.pgResult p.val 0).rd Reg.tsPgCmdStatusResult = 0 ∧ (s.pgResult p.val 0).rd Reg.tsPgCmdStatusPg = p.val ∧
      SameBut [Reg.tsPgCmdStatusPg, Reg.tsPgCmdStatusResult] s (s.pgResult p.val 0) := by
  rw [State.pgResult, State.wrs_cons, State.wrs_cons, State.wrs_nil]
  refine ⟨State.rd_wr _ _ 0, ?_, SameBut.wr 0 (by simp) (SameBut.wr p.val (by simp) (SameBut.refl _ s))⟩
  rw [State.rd_wr_ne _ _ (by decide), State.rd_wr]
  exact Nat.mod_eq_of_lt p.isLt

/-! ## A table command from the window completes -/

/-- The 16 bytes of the result `r` of table command `c` (Table HI-6). -/
def State.tcrEntry (s : State) (c : TcqCmd) (r : Nat) : List Byte :=
  slice c.bytes 4 4 ++ le 1 r ++ slice c.bytes 0 2 ++ le 1 (s.rd Reg.tblEpochCurrent) ++ le 4 c.idx ++ le 4 0

/-- The entry begins with the command's TAG. -/
theorem State.take_tcrEntry (s : State) (c : TcqCmd) (r : Nat) : (s.tcrEntry c r).take 4 = slice c.bytes 4 4 := by
  simp [State.tcrEntry, slice, le]

/-- The result follows the TAG. -/
theorem State.u8_tcrEntry (s : State) (c : TcqCmd) (r : Nat) : u8 (s.tcrEntry c r) 4 = r % 256 := by
  simp [State.tcrEntry, u8, slice, le, List.range_succ]

@[simp] theorem State.msix_tcr (s : State) (v : Nat) : (s.msix v).hif.tcr = s.hif.tcr := by
  unfold State.msix
  split <;> rfl

@[simp] theorem State.intr_tcr (s : State) (v : Nat) : (s.intr v).hif.tcr = s.hif.tcr := by
  unfold State.intr
  dsimp only
  split
  · exact State.msix_tcr _ v
  · rfl

@[simp] theorem State.intr_tbl (s : State) (v : Nat) : (s.intr v).tbl = s.tbl :=
  (State.intr_keeps (Sub.refl _) v (Keeps.refl _ s)).inn.tbl rfl

@[simp] theorem State.ev_tbl (s : State) (id : Nat) : (s.ev id).tbl = s.tbl :=
  (State.ev_keeps (Sub.refl _) id (Keeps.refl _ s)).inn.tbl rfl

@[simp] theorem State.ev_hif (s : State) (id : Nat) : (s.ev id).hif = s.hif :=
  (State.ev_keeps (Sub.refl _) id (Keeps.refl _ s)).inn.hif rfl

/-- Showing the levels of the FIFOs and raising the interrupt move neither queue. -/
theorem State.fifoStatus_intr_queues (s : State) (b : Bool) (v : Nat) :
    (s.fifoStatus.when b fun t => t.intr v).tbl = s.tbl ∧ (s.fifoStatus.when b fun t => t.intr v).hif.tcr = s.hif.tcr := by
  cases b
  · exact ⟨rfl, rfl⟩
  · exact ⟨State.intr_tbl _ v, State.intr_tcr _ v⟩

/-- A command that came through the window leaves the front of the queue, and its result joins the result FIFO. -/
theorem State.tcqDone_window (s : State) {c : TcqCmd} (r : Nat) (window : c.dma = false) :
    (s.tcqDone c r).tbl = { s.tbl with tcq := s.tbl.tcq.drop 1 } ∧ (s.tcqDone c r).hif.tcr = s.hif.tcr ++ [s.tcrEntry c r] := by
  have tbl := State.ev_tbl { s with tbl := { s.tbl with tcq := s.tbl.tcq.drop 1 } } 0x60
  have hif := State.ev_hif { s with tbl := { s.tbl with tcq := s.tbl.tcq.drop 1 } } 0x60
  unfold State.tcqDone
  rw [window]
  dsimp only
  generalize State.ev _ 0x60 = u at tbl hif ⊢
  obtain ⟨tbl', tcr'⟩ :=
    State.fifoStatus_intr_queues { u with hif := { u.hif with tcr := u.hif.tcr ++ [s.tcrEntry c r] } } (u.hif.tcr == []) 9
  exact ⟨tbl'.trans tbl, by rw [← hif]; exact tcr'⟩

/-- OP 0 at the front of the queue, where its result has room, completes with result 0. -/
theorem execTcqNop_eq {s : State} {c : TcqCmd} {w : List TcqCmd} (on : s.pdOn 3 = true) (front : s.tbl.tcq = c :: w)
    (room : s.hif.tcr.length < 256) (op : u8 c.bytes 0 = 0) : execTcqNop s = .next (s.tcqDone c 0) := by
  simp [execTcqNop, State.tcqRun, State.tcqFront, on, front, room, op]

/-- A request with an old GEN is answered STALE (Table SP-9). -/
theorem State.hostPwr_stale {s : State} {gen : Nat} (req : Nat) (on : s.k1On = true) (old : gen ≠ s.rd Reg.pwrStatusGen) :
    s.hostPwr gen req = s.wr Reg.pwrCmdStatusResult 1 := by
  simp [State.hostPwr, on, old]

/-- Settles O51: five of the commands write their result field alone, the table command completes, and HOST_REQ meets the check of GEN. -/
theorem nopCommands : Obligations.NopCommands := by
  unfold Obligations.NopCommands
  refine fun s => ⟨fun n => ⟨_, rfl, s.wr_zero_spec _⟩, fun n => ⟨_, rfl, ?_⟩, fun p => ⟨_, rfl, s.pgResult_spec p⟩,
    ⟨_, rfl, s.wr_zero_spec _⟩, ⟨_, rfl, s.wr_zero_spec _⟩, fun c w on front window room op => ?_, fun g on old => ?_⟩
  · obtain ⟨ok, same⟩ := s.wr_zero_spec (Reg.tkTbFeedStatusResult n)
    exact ⟨ok, same, s.rd_wr_ne 0 (tkTbFeedStatus_accepted_ne_result n)⟩
  · obtain ⟨tbl, tcr⟩ := s.tcqDone_window 0 window
    exact ⟨_, execTcqNop_eq on front room op, by rw [tbl, front]; rfl, _, tcr, s.take_tcrEntry c 0, s.u8_tcrEntry c 0⟩
  · exact ⟨_, congrArg Host.Outcome.next (State.hostPwr_stale 0 on old), s.rd_wr _ 1,
      SameBut.wr 1 List.mem_cons_self (SameBut.refl _ s)⟩

end Sys2Proof.Machine
end

section
/-! Lists of register writes: what each field of the list reads, and that no other field changes. A report line of the fault
collector, once its cause holds it. -/
namespace Sys2Proof.Machine

/-- Where a list names no field twice, each of its fields reads the value the list gives it. -/
theorem State.rd_wrs_of_mem (s : State) {l : List (Fld × Nat)} {f : Fld} {v : Nat} (nd : (l.map fun e => e.1.key).Nodup)
    (h : (f, v) ∈ l) : (s.wrs l).rd f = v % 2 ^ f.width := by
  induction l generalizing s with
  | nil => cases h
  | cons e l ih =>
    obtain ⟨notin, nd⟩ := List.nodup_cons.mp nd
    rw [show s.wrs (e :: l) = (s.wr e.1 e.2).wrs l from rfl]
    rcases List.mem_cons.mp h with rfl | h
    · rw [State.rd_wrs_ne _ l f fun x hx same => notin (List.mem_map.mpr ⟨x, hx, same.symm⟩)]
      exact s.rd_wr f v
    · exact ih _ nd h

theorem RegsBut.wrs {m : List Fld} {s t : State} {l : List (Fld × Nat)} (named : ∀ e ∈ l, e.1 ∈ m) (h : RegsBut m s t) :
    RegsBut m s (t.wrs l) := by
  induction l generalizing t with
  | nil => exact h
  | cons e l ih =>
    exact ih (fun x hx => named x (List.mem_cons_of_mem e hx)) (RegsBut.wr e.2 (named e List.mem_cons_self) h)

theorem SameBut.wrs {m : List Fld} {s t : State} {l : List (Fld × Nat)} (named : ∀ e ∈ l, e.1 ∈ m) (h : SameBut m s t) :
    SameBut m s (t.wrs l) := by
  induction l generalizing t with
  | nil => exact h
  | cons e l ih =>
    exact ih (fun x hx => named x (List.mem_cons_of_mem e hx)) (SameBut.wr e.2 (named e List.mem_cons_self) h)

theorem State.cause_report (s : State) (src synd : Nat) : ((s.report src synd).line src).cause = true := by
  rw [State.line, State.report, State.setLine, Tab.get_set_same]

end Sys2Proof.Machine
end

section
/-! The XO check (Tables CK-2, CK-3): what one window does in each state of the check. -/
namespace Sys2Proof.Machine

/-- The bands of Table CK-2: each class with the counts it stands for. -/
theorem xoClass_cases (n : Nat) :
    (xoClass n = 0 ∧ n ≤ 399) ∨ (xoClass n = 2 ∧ 640 ≤ n ∧ n ≤ 1599) ∨ (xoClass n = 3 ∧ 1600 ≤ n ∧ n ≤ 3999) ∨
      (xoClass n = 4 ∧ 6400 ≤ n ∧ n ≤ 15999) ∨
      (xoClass n = 1 ∧ ((400 ≤ n ∧ n ≤ 639) ∨ (4000 ≤ n ∧ n ≤ 6399) ∨ 16000 ≤ n)) := by
  unfold xoClass
  split
  next absent => omega
  split
  next mhz10 => omega
  split
  next mhz25 => omega
  split
  next mhz100 => omega
  next invalid => omega

theorem xoClass_lt (n : Nat) : xoClass n < 5 := by
  have := xoClass_cases n
  omega

/-- COUNT shows the edges of the window that ended, up to 65 535. -/
def State.xoCounted (s : State) (n : Nat) : State := s.wr Reg.clkXoStatusCount (min n 65535)

/-- The check remembers class `c` as that of the last of `k` windows that agree. -/
def State.xoAgree (s : State) (k c : Nat) : State := { s with xo := { s.xo with agree := k, prev := c } }

/-- A count so held fits the field. -/
theorem xoCount_mod (n : Nat) : min n 65535 % 2 ^ Reg.clkXoStatusCount.width = min n 65535 :=
  Nat.mod_eq_of_lt (Nat.lt_succ_of_le (Nat.min_le_right n 65535))

theorem State.rd_xoCounted (s : State) (n : Nat) : (s.xoCounted n).rd Reg.clkXoStatusCount = min n 65535 := by
  rw [State.xoCounted, State.rd_wr, xoCount_mod]

theorem State.rd_xoCounted_ne (s : State) (n : Nat) {f : Fld} (h : f.key ≠ Reg.clkXoStatusCount.key) :
    (s.xoCounted n).rd f = s.rd f := s.rd_wr_ne _ h

theorem State.regsBut_xoCounted {s : State} (n : Nat) {l : List Fld} (h : Reg.clkXoStatusCount ∈ l) :
    RegsBut l s (s.xoCounted n) := RegsBut.wr _ h (RegsBut.refl l s)

section
variable {n : Nat} {s : State} (released : s.xo.released = true)
include released

/-- XO_WAIT stays while the window shows no frequency. -/
theorem exec_xoWindowEnd_wait_none (wait : s.rd Reg.clkXoStatusState = 0) (c : xoClass n < 2) :
    exec (.xoWindowEnd n) s = .next ((s.xoCounted n).xoAgree 0 (xoClass n)) := by
  show execXoWindowEnd n s = _
  simp [execXoWindowEnd, released, wait, Nat.not_le.mpr c, State.xoCounted, State.xoAgree]

/-- XO_WAIT ends with the first window of a frequency. -/
theorem exec_xoWindowEnd_wait_class (wait : s.rd Reg.clkXoStatusState = 0) (c : 2 ≤ xoClass n) :
    exec (.xoWindowEnd n) s = .next (((s.xoCounted n).xoAgree 1 (xoClass n)).setXo 1) := by
  show execXoWindowEnd n s = _
  simp [execXoWindowEnd, released, wait, c, State.xoCounted, State.xoAgree]

/-- XO_MEASURE ends with the third window that agrees. -/
theorem exec_xoWindowEnd_third (measure : s.rd Reg.clkXoStatusState = 1) (agree : s.xo.agree = 2) (prev : s.xo.prev = xoClass n) :
    exec (.xoWindowEnd n) s = .next (((s.xoCounted n).xoAgree 3 (xoClass n)).xoGood (xoClass n)) := by
  show execXoWindowEnd n s = _
  simp [execXoWindowEnd, released, measure, agree, prev, State.xoCounted, State.xoAgree]

/-- XO_GOOD counts a window of its class. -/
theorem exec_xoWindowEnd_good_same (good : s.rd Reg.clkXoStatusState = 2) (c : xoClass n = s.rd Reg.clkXoStatusDetected + 2) :
    exec (.xoWindowEnd n) s = .next (s.xoCounted n) := by
  show execXoWindowEnd n s = _
  simp [execXoWindowEnd, released, good, c, State.xoCounted]

/-- XO_GOOD ends with a window of another class. -/
theorem exec_xoWindowEnd_good_other (good : s.rd Reg.clkXoStatusState = 2) (c : xoClass n ≠ s.rd Reg.clkXoStatusDetected + 2) :
    exec (.xoWindowEnd n) s =
      .next ((((s.xoCounted n).setXo 3).wr Reg.clkXoStatusLoss 1).report 0x50 (min n 65535)) := by
  show execXoWindowEnd n s = _
  simp [execXoWindowEnd, released, good, c, State.xoCounted]

end

/-- Settles O49: the bands of Table CK-2, and the two windows that XO_WAIT tells apart. -/
theorem xoClasses : Obligations.XoClasses := by
  unfold Obligations.XoClasses
  refine ⟨fun n => ?_, fun n s released wait => ⟨fun c => ?_, fun c => ?_⟩⟩
  · have := xoClass_cases n
    omega
  · exact ⟨_, exec_xoWindowEnd_wait_none released wait c, (s.rd_xoCounted_ne n (by decide)).trans wait⟩
  · exact ⟨_, exec_xoWindowEnd_wait_class released wait c, State.rd_wr _ _ 1⟩

end Sys2Proof.Machine
end

section
/-! One tick (R158, R351): what each of its parts leaves unchanged, and what it makes of a time base and of the cycle count. -/
namespace Sys2Proof.Machine

/-! ## Clocks -/

/-- What decides whether K2, K6 and K7 run stands alike in `s` and `t`: the gates, the start of the shaft, the active root and the
states of the roots. -/
structure SameClocks (s t : State) : Prop where
  pwr : t.pwr = s.pwr
  boot : t.boot = s.boot
  active : t.activeRoot = s.activeRoot
  root : ∀ r, t.rootState r = s.rootState r

theorem SameClocks.rootRuns {s t : State} (h : SameClocks s t) (r : Nat) : t.rootRuns r = s.rootRuns r := by
  unfold State.rootRuns
  rw [h.root]

theorem SameClocks.pdOn {s t : State} (h : SameClocks s t) (d : Nat) : t.pdOn d = s.pdOn d := by
  unfold State.pdOn
  rw [h.pwr]

theorem SameClocks.domRun_fabric {s t : State} (h : SameClocks s t) : t.domRun 2 = s.domRun 2 := by
  simp only [State.domRun, State.k1On, h.boot, h.active, h.rootRuns, h.pdOn]

/-- K2 needs PD4. -/
theorem State.domRun_fabric_off {s : State} (off : s.pdOn 4 = false) : s.domRun 2 = false := by
  simp [State.domRun, off]

/-- K6 and K7 are the clocks of the two timekeepers. -/
theorem State.domRun_timekeeper (s : State) (k : Fin 2) : s.domRun (6 + k.val) = (s.pdOn (1 + k.val) && s.rootRuns k.val) :=
  match k with
  | 0 => rfl
  | 1 => rfl

theorem SameClocks.domRun_timekeeper {s t : State} (h : SameClocks s t) (k : Fin 2) : t.domRun (6 + k.val) = s.domRun (6 + k.val) := by
  rw [t.domRun_timekeeper k, s.domRun_timekeeper k, h.pdOn, h.rootRuns]

/-! ## The counters and levels of a tick -/

/-- What a tick does beside the time bases and the buffer's cycle count: counters, levels and ages of PMON, and the engines' cycle. -/
def tickCountMask : Nat := maskOf [.regPmon, .pmon, .tt]

theorem State.rootState_of_keeps {s t : State} (h : Keeps tickCountMask s t) (r : Nat) : t.rootState r = s.rootState r := by
  refine h.inn.regs _ _ ?_
  rcases Nat.mod_two_eq_zero_or_one r with e | e <;> rw [Reg.synRootStatusState, e] <;> rfl

theorem SameClocks.of_keeps {s t : State} (h : Keeps tickCountMask s t) : SameClocks s t where
  pwr := h.inn.pwr rfl
  boot := h.inn.boot rfl
  active := h.inn.regs _ _ rfl
  root := State.rootState_of_keeps h

theorem State.tbRange_of_keeps {s t : State} (h : Keeps tickCountMask s t) (n : Fin 8) : t.tbRange n = s.tbRange n := by
  have outside : ∀ n : Fin 8, may tickCountMask (Reg.tkTbCfgFormat n).key = false := by decide
  have format : t.rd (Reg.tkTbCfgFormat n) = s.rd (Reg.tkTbCfgFormat n) := h.inn.regs _ _ (outside n)
  rw [State.tbRange, State.tbRange, State.on, State.on, format]

/-- The state of a tick as the timekeepers find it. -/
def State.tickCounted (s : State) : State := s.bwAges.ttCycle.tbLevels

theorem State.tickCounted_keeps (s : State) : Keeps tickCountMask s s.tickCounted :=
  State.tbLevels_keeps (Sub.le (Sub.refl _) rfl) (State.ttCycle_keeps (Sub.le (Sub.refl _) rfl)
    (State.bwAges_keeps (Sub.le (Sub.refl _) rfl) (Keeps.refl _ s)))

/-! ## The timekeepers' cycle (R158) -/

/-- Place `i` of the time bases, base `i % 8` of timekeeper `i / 8`, counts one cycle where its clock runs. -/
def State.tkCount (s : State) (i : Nat) : State :=
  if s.domRun (6 + i / 8) && s.tbOn (i / 8) (i % 8) then
    s.setTb (i / 8) (i % 8) ((s.tb (i / 8) (i % 8)).tick (s.tbRange (i % 8)))
  else s

theorem State.tkCycle_eq (s : State) : s.tkCycle = s.each (List.range 16) State.tkCount := rfl

/-- What place `i` holds after one cycle. -/
def State.tkNext (s : State) (i : Nat) : TBase :=
  if s.domRun (6 + i / 8) && s.tbOn (i / 8) (i % 8) then (s.tb (i / 8) (i % 8)).tick (s.tbRange (i % 8)) else s.tb (i / 8) (i % 8)

/-- Nothing but the table of time bases changes. -/
theorem State.tkCount_tbs (s : State) (i : Nat) : ∃ bases, s.tkCount i = { s with tbs := bases } := by
  unfold State.tkCount
  split
  · exact ⟨_, rfl⟩
  · exact ⟨s.tbs, rfl⟩

theorem State.get_tkCount (s : State) (i : Nat) : Tab.get (s.tkCount i).tbs i {} = s.tkNext i := by
  unfold State.tkCount State.tkNext
  split
  · rw [State.setTb, Nat.div_add_mod]
    exact Tab.get_set_same _ _ _ _
  · rw [State.tb, Nat.div_add_mod]

theorem State.get_tkCount_ne (s : State) {i j : Nat} (h : j ≠ i) : Tab.get (s.tkCount i).tbs j {} = Tab.get s.tbs j {} := by
  unfold State.tkCount
  split
  · rw [State.setTb, Nat.div_add_mod]
    exact Tab.get_set_ne _ _ _ _ h
  · rfl

/-- A place's next value rests on no other place. -/
theorem State.tkNext_tkCount_ne (s : State) {i j : Nat} (h : j ≠ i) : (s.tkCount i).tkNext j = s.tkNext j := by
  obtain ⟨bases, same⟩ := s.tkCount_tbs i
  have base : (s.tkCount i).tb (j / 8) (j % 8) = s.tb (j / 8) (j % 8) := by
    rw [State.tb, State.tb, Nat.div_add_mod]
    exact s.get_tkCount_ne h
  have run : (s.tkCount i).domRun (6 + j / 8) = s.domRun (6 + j / 8) := by rw [same]; rfl
  have range : (s.tkCount i).tbRange (j % 8) = s.tbRange (j % 8) := by rw [same]; rfl
  rw [State.tkNext, State.tkNext, State.tbOn, State.tbOn, base, run, range]

theorem State.get_each_tkCount (s : State) {l : List Nat} (j : Nat) (nd : l.Nodup) :
    Tab.get (s.each l State.tkCount).tbs j {} = if j ∈ l then s.tkNext j else Tab.get s.tbs j {} := by
  induction l generalizing s with
  | nil => rfl
  | cons i l ih =>
    obtain ⟨notin, nd⟩ := List.nodup_cons.mp nd
    rw [State.each_cons, ih _ nd]
    by_cases e : j = i
    · subst e
      rw [if_neg notin, if_pos List.mem_cons_self, s.get_tkCount]
    · rw [s.tkNext_tkCount_ne e, s.get_tkCount_ne e]
      simp only [List.mem_cons, e, false_or]

/-- Over one cycle each base of each timekeeper counts where its clock runs, and stands where it does not. -/
theorem State.tb_tkCycle (s : State) (k : Fin 2) (n : Fin 8) :
    s.tkCycle.tb k n = if s.domRun (6 + k.val) && s.tbOn k n then (s.tb k n).tick (s.tbRange n) else s.tb k n := by
  have place : (8 * k.val + n.val) / 8 = k.val ∧ (8 * k.val + n.val) % 8 = n.val := by omega
  have listed : 8 * k.val + n.val ∈ List.range 16 := List.mem_range.mpr (by omega)
  rw [State.tb, State.tkCycle_eq, s.get_each_tkCount _ List.nodup_range, if_pos listed, State.tkNext, place.1, place.2]

theorem State.tkCycle_tbs (s : State) : ∃ bases, s.tkCycle = { s with tbs := bases } := by
  rw [State.tkCycle_eq]
  generalize List.range 16 = l
  induction l generalizing s with
  | nil => exact ⟨s.tbs, rfl⟩
  | cons i l ih =>
    obtain ⟨first, hfirst⟩ := s.tkCount_tbs i
    obtain ⟨bases, hbases⟩ := ih (s.tkCount i)
    exact ⟨bases, by rw [State.each_cons, hbases, hfirst]⟩

/-! ## The buffer's cycles (R351) -/

/-- The levels of K2 leave the buffer alone, and its cycle count takes the two cycles where K2 runs. -/
theorem State.cyc_fabCycles (s : State) : s.fabCycles.fab.cyc = if s.domRun 2 then s.fab.cyc + 2 else s.fab.cyc := by
  have levels : ∀ t : State, Keeps tickCountMask s t → Keeps tickCountMask s t.egressLevels := fun t =>
    State.egressLevels_keeps (Sub.le (Sub.refl _) rfl)
  have level : ∀ (t : State) (id : Nat) (b : Bool), Keeps tickCountMask s t → Keeps tickCountMask s (t.evLevel id b 2) :=
    fun t id b => State.evLevel_keeps (Sub.le (Sub.refl _) rfl) id b 2
  unfold State.fabCycles
  cases s.domRun 2
  · rfl
  · exact congrArg (fun f : Fab => f.cyc + 2) ((levels _ (level _ _ _ (level _ _ _ (Keeps.refl _ s)))).inn.fab rfl)

/-! ## The tick -/

/-- With no drain under way a tick ends with the buffer's cycles. -/
theorem State.tick_of_no_drain {s : State} (drain : s.pwr.drain = false) : s.tick = s.tickCounted.tkCycle.fabCycles := by
  obtain ⟨bases, same⟩ := s.tickCounted.tkCycle_tbs
  have pwr : s.tickCounted.tkCycle.fabCycles.pwr = s.pwr := by
    rw [(State.fabCycles_keeps (Sub.refl _) (Keeps.refl _ _)).inn.pwr rfl, same]
    exact s.tickCounted_keeps.inn.pwr rfl
  show s.tickCounted.tkCycle.fabCycles.drained = _
  rw [State.drained, pwr, drain]
  rfl

theorem State.cyc_tick {s : State} (drain : s.pwr.drain = false) :
    s.tick.fab.cyc = if s.domRun 2 then s.fab.cyc + 2 else s.fab.cyc := by
  obtain ⟨bases, same⟩ := s.tickCounted.tkCycle_tbs
  have fab : s.tickCounted.fab = s.fab := s.tickCounted_keeps.inn.fab rfl
  have run : s.tickCounted.tkCycle.domRun 2 = s.domRun 2 := by
    rw [same]
    exact (SameClocks.of_keeps s.tickCounted_keeps).domRun_fabric
  rw [State.tick_of_no_drain drain, State.cyc_fabCycles, run, same, fab]

theorem State.tb_tick {s : State} (drain : s.pwr.drain = false) (k : Fin 2) (n : Fin 8) :
    s.tick.tb k n = if s.domRun (6 + k.val) && s.tbOn k n then (s.tb k n).tick (s.tbRange n) else s.tb k n := by
  have counted := s.tickCounted_keeps
  have base : s.tickCounted.tb k n = s.tb k n := congrArg (Tab.get · _ _) (counted.inn.tbs rfl)
  have fabric : ∀ t : State, t.fabCycles.tb k n = t.tb k n := fun t =>
    congrArg (Tab.get · _ _) ((State.fabCycles_keeps (Sub.refl _) (Keeps.refl _ t)).inn.tbs rfl)
  rw [State.tick_of_no_drain drain, fabric, State.tb_tkCycle, (SameClocks.of_keeps counted).domRun_timekeeper k,
    State.tbRange_of_keeps counted, State.tbOn, State.tbOn, base]

/-- Settles O2: the cycle count and each base follow their own clocks, and a clock whose domain is off stands. -/
theorem stepIdle : Obligations.StepIdle := by
  unfold Obligations.StepIdle
  refine ⟨fun s idle => ?_, fun s drain _ off => ?_, fun s drain run => ?_, fun k n s drain _ off => ?_,
    fun k n s drain run on => ?_⟩
  · rw [step, idle]
  · rw [State.cyc_tick drain, State.domRun_fabric_off off]
    rfl
  · rw [State.cyc_tick drain, run]
    rfl
  · rw [State.tb_tick drain, s.domRun_timekeeper k, off]
    rfl
  · rw [State.tb_tick drain, run, on]
    rfl

end Sys2Proof.Machine
end

section
/-! The ramps that start-up asks for (R376) and the start of the roots (R16, R50, R52). -/
namespace Sys2Proof.Machine

/-! ## Ramps of start-up -/

theorem State.ramp_up (s : State) (d : Nat) :
    s.ramp d true = { s with pwr := { s.pwr with up := true } }.wr Reg.pwrDomainsRamping (2 ^ d) := rfl

/-- No ramp waits or is under way, and domain `d` is off. -/
structure State.CanRamp (s : State) (d : Nat) : Prop where
  empty : s.pwr.bootQ = []
  rest : s.rd Reg.pwrDomainsRamping = 0
  off : bit (s.rd Reg.pwrDomainsOn) d = false

theorem State.CanRamp.wr {s : State} {d : Nat} (h : s.CanRamp d) {f : Fld} (v : Nat) (h₁ : Reg.pwrDomainsRamping.key ≠ f.key)
    (h₂ : Reg.pwrDomainsOn.key ≠ f.key) : (s.wr f v).CanRamp d :=
  ⟨h.empty, (s.rd_wr_ne v h₁).trans h.rest, (congrArg (bit · d) (s.rd_wr_ne v h₂)).trans h.off⟩

/-- Then its ramp starts. -/
theorem State.CanRamp.bootRamps_eq {s : State} {d : Nat} (h : s.CanRamp d) :
    s.bootRamps [(d, true)] = { s with pwr := { s.pwr with bootQ := [], up := true } }.wr Reg.pwrDomainsRamping (2 ^ d) := by
  simp [State.bootRamps, State.bootRamp, State.bootRampOf, State.on, State.ramp_up, h.empty, h.rest, h.off]

/-- A list of ramps takes no domain down: those it asks to be off are off already. -/
def State.NoRampDown (s : State) (l : List (Nat × Bool)) : Prop :=
  ∀ e ∈ l, e.2 = false → bit (s.rd Reg.pwrDomainsOn) e.1 = false

/-- Such a list changes RAMPING alone. -/
theorem State.rd_bootRampOf_ne {s : State} {l : List (Nat × Bool)} {f : Fld} (h : s.NoRampDown l)
    (ne : f.key ≠ Reg.pwrDomainsRamping.key) : (s.bootRampOf l).rd f = s.rd f := by
  induction l with
  | nil => rfl
  | cons e l ih =>
    obtain ⟨d, up⟩ := e
    rw [State.bootRampOf]
    split
    · exact ih fun e he => h e (List.mem_cons_of_mem _ he)
    next differs =>
      cases up with
      | true => exact State.rd_wr_ne _ _ ne
      | false => exact absurd (h (d, false) List.mem_cons_self rfl) differs

theorem State.rd_bootRamps_ne {s : State} {l : List (Nat × Bool)} {f : Fld} (empty : s.pwr.bootQ = []) (h : s.NoRampDown l)
    (ne : f.key ≠ Reg.pwrDomainsRamping.key) : (s.bootRamps l).rd f = s.rd f := by
  rw [State.bootRamps, empty, List.nil_append, State.bootRamp]
  split
  · rfl
  · exact State.rd_bootRampOf_ne h ne

/-! ## XO_GOOD begins and ends -/

/-- What the registers take at the third window of class `c`: the count, the class, the ramp of PD1 and ROOT_START. -/
def xoGoodWrites (n c : Nat) : List (Fld × Nat) :=
  [(Reg.clkXoStatusCount, min n 65535), (Reg.clkXoStatusState, 2), (Reg.clkXoStatusDetected, c - 2), (Reg.pwrDomainsRamping, 2),
    (Reg.devBootPhase, 1)]

theorem xoGoodWrites_nodup (n c : Nat) : ((xoGoodWrites n c).map fun e => e.1.key).Nodup := by
  show [Reg.clkXoStatusCount.key, Reg.clkXoStatusState.key, Reg.clkXoStatusDetected.key, Reg.pwrDomainsRamping.key,
    Reg.devBootPhase.key].Nodup
  decide

/-- What the registers take at a window of another class in XO_GOOD: the count, XO_FAIL and LOSS. -/
def xoFailWrites (n : Nat) : List (Fld × Nat) :=
  [(Reg.clkXoStatusCount, min n 65535), (Reg.clkXoStatusState, 3), (Reg.clkXoStatusLoss, 1)]

theorem xoFailWrites_nodup (n : Nat) : ((xoFailWrites n).map fun e => e.1.key).Nodup := by
  show [Reg.clkXoStatusCount.key, Reg.clkXoStatusState.key, Reg.clkXoStatusLoss.key].Nodup
  decide

theorem State.rd_xoFail_of_mem (s : State) (n : Nat) :
    ∀ e ∈ xoFailWrites n, (s.wrs (xoFailWrites n)).rd e.1 = e.2 % 2 ^ e.1.width := fun _ he =>
  s.rd_wrs_of_mem (xoFailWrites_nodup n) he

/-- XO_GOOD begins where PD1 can ramp: the registers take those values and no other. -/
theorem State.rd_xoGood {s : State} (n k c : Nat) (can : s.CanRamp 1) (f : Fld) :
    (((s.xoCounted n).xoAgree k c).xoGood c).rd f = (s.wrs (xoGoodWrites n c)).rd f := by
  have can : (((((s.xoCounted n).xoAgree k c).setXo 2).wr Reg.clkXoStatusDetected (c - 2)).send (.sel true 0)).CanRamp 1 := by
    obtain ⟨empty, rest, off⟩ :=
      ((can.wr (min n 65535) (f := Reg.clkXoStatusCount) (by decide) (by decide)).wr 2 (f := Reg.clkXoStatusState)
        (by decide) (by decide)).wr (c - 2) (f := Reg.clkXoStatusDetected) (by decide) (by decide)
    exact ⟨empty, rest, off⟩
  unfold State.xoGood
  dsimp only
  rw [can.bootRamps_eq]
  rfl

theorem State.rd_xoGood_of_mem {s : State} (n k c : Nat) (can : s.CanRamp 1) :
    ∀ e ∈ xoGoodWrites n c, (((s.xoCounted n).xoAgree k c).xoGood c).rd e.1 = e.2 % 2 ^ e.1.width := fun e he =>
  (State.rd_xoGood n k c can e.1).trans (s.rd_wrs_of_mem (xoGoodWrites_nodup n c) he)

/-! ## HALT -/

theorem State.rd_setPwr_domainsOn (s : State) (st : Nat) : (s.setPwr st).rd Reg.pwrDomainsOn = s.rd Reg.pwrDomainsOn := by
  unfold State.setPwr
  split
  · rfl
  · exact ((State.intr_keeps (Sub.refl _) 5 (Keeps.refl _ _)).inn.regs _ _ rfl).trans (s.rd_wr_ne st (by decide))

/-- What HALT changes beside the phase and its ramps: PWR with its interrupt, the BOOT record, and the link that trains. -/
def haltMask : Nat := maskOf [.intStatus, .regPwr, .regFlt, .regHif, .out, .free, .jrnlQ, .hif]

/-- HALT up to its ramps. -/
def State.haltRecorded (s : State) : State := ((s.wr Reg.devBootPhase 10).setPwr pwrHalt).bootRecord 0

theorem State.haltRecorded_keeps (s : State) : Keeps haltMask (s.wr Reg.devBootPhase 10) s.haltRecorded :=
  State.bootRecord_keeps (Sub.le (Sub.refl _) rfl) 0 (State.setPwr_keeps (Sub.le (Sub.refl _) rfl) _ (Keeps.refl _ _))

theorem State.rd_haltRecorded_domainsOn (s : State) : s.haltRecorded.rd Reg.pwrDomainsOn = s.rd Reg.pwrDomainsOn :=
  calc s.haltRecorded.rd Reg.pwrDomainsOn
    _ = ((s.wr Reg.devBootPhase 10).setPwr pwrHalt).rd Reg.pwrDomainsOn :=
      (State.bootRecord_keeps (Sub.refl _) 0 (Keeps.refl _ _)).inn.regs _ _ rfl
    _ = (s.wr Reg.devBootPhase 10).rd Reg.pwrDomainsOn := State.rd_setPwr_domainsOn _ _
    _ = s.rd Reg.pwrDomainsOn := s.rd_wr_ne 10 (by decide)

/-- Where PD3 and PD4 are off and no ramp waits, HALT writes no register of DEV but PHASE. -/
theorem State.rd_haltEnter_dev {s : State} {f : Fld} (empty : s.pwr.bootQ = []) (off3 : bit (s.rd Reg.pwrDomainsOn) 3 = false)
    (off4 : bit (s.rd Reg.pwrDomainsOn) 4 = false) (dev : may haltMask f.key = false) :
    s.haltEnter.rd f = (s.wr Reg.devBootPhase 10).rd f := by
  have kept := s.haltRecorded_keeps
  have noQueue : s.haltRecorded.pwr.bootQ = [] := (congrArg Pwr.bootQ (kept.inn.pwr rfl)).trans empty
  have ne : f.key ≠ Reg.pwrDomainsRamping.key := may_ne dev rfl
  have train : ∀ t : State, t.linkTrain.rd f = t.rd f := fun t =>
    (State.linkTrain_keeps (w₀ := haltMask) (Sub.le (Sub.refl _) rfl) (Keeps.refl _ t)).inn.regs _ _ dev
  refine (train _).trans ((State.rd_bootRamps_ne noQueue ?_ ne).trans (kept.inn.regs _ _ dev))
  intro e he down
  rw [State.rd_haltRecorded_domainsOn]
  simp only [List.cons_append, List.nil_append, List.mem_cons] at he
  rcases he with rfl | rfl | he
  · exact off4
  · exact off3
  · split at he
    · rw [List.mem_singleton.mp he] at down
      cases down
    · cases he

/-! ## The roots -/

/-- The state in which the first locked root asks for the ramps of PD4 and PD3. -/
def State.rootChosen (s : State) (r : Fin 2) : State :=
  ((({ s with boot := { s.boot with shaft := true } }).setRootLock r.val true).wr Reg.clkShaftStatusActiveRoot r.val).setUnit r.val
    unitActive

theorem State.rd_rootChosen (s : State) (r : Fin 2) : (s.rootChosen r).rd Reg.clkShaftStatusActiveRoot = r.val := by
  have unit : ∀ t : State, (t.setUnit r.val unitActive).rd Reg.clkShaftStatusActiveRoot = t.rd Reg.clkShaftStatusActiveRoot := fun t =>
    (State.setUnit_keeps (Sub.refl _) r.val unitActive (Keeps.refl _ t)).inn.regs _ _ rfl
  rw [State.rootChosen, unit, State.rd_wr]
  exact Nat.mod_eq_of_lt r.isLt

theorem State.rootChosen_pwr (s : State) (r : Fin 2) : (s.rootChosen r).pwr = s.pwr :=
  (State.setUnit_keeps (Sub.refl _) r.val unitActive (Keeps.refl _ _)).inn.pwr rfl

theorem exec_startupRootLocked {s : State} {r : Fin 2} (phase : s.rd Reg.devBootPhase = 1) (runs : s.rootRuns r = true) :
    exec (.startupRootLocked r) s = .next (((s.rootChosen r).bootRamps [(4, true), (3, true)]).wr Reg.devBootPhase 2) := by
  show execStartupRootLocked r s = _
  simp [execStartupRootLocked, State.inPhase, phase, runs, State.rootChosen]

theorem exec_rootALockTimeout {s : State} (phase : s.rd Reg.devBootPhase = 1) (on : s.pdOn 1 = true)
    (notYet : s.rd Reg.devBootRootBStart = 0) :
    exec .rootALockTimeout s = .next ((s.bootRamps [(2, true)]).wr Reg.devBootRootBStart 1) := by
  show execRootALockTimeout s = _
  simp [execRootALockTimeout, State.inPhase, State.on, phase, on, notYet]

theorem exec_rootBLockTimeout {s : State} (phase : s.rd Reg.devBootPhase = 1) (on : s.pdOn 2 = true)
    (tried : s.on Reg.devBootRootBStart = true) :
    exec .rootBLockTimeout s = .next (s.wr Reg.devBootFailReason0 13).haltEnter := by
  show execRootBLockTimeout s = _
  simp [execRootBLockTimeout, State.inPhase, phase, on, tried]

/-- Settles O5: the windows by the check's state, then the three ends of ROOT_START. -/
theorem xoAndRootStart : Obligations.XoAndRootStart := by
  unfold Obligations.XoAndRootStart
  refine ⟨fun n s released good same => ?_, fun n s released wait c => ?_,
    fun n s released measure agree prev c empty rest off => ?_, fun n s released good other => ?_,
    fun r s phase runs empty => ?_, fun s phase on notYet empty rest off => ?_, fun s phase on tried empty off3 off4 => ?_⟩
  · exact ⟨_, exec_xoWindowEnd_good_same released good same, s.rd_xoCounted n, SameBut.wr _ List.mem_cons_self (SameBut.refl _ s)⟩
  · refine ⟨_, exec_xoWindowEnd_wait_class released wait c, State.rd_wr _ _ 1, ?_, ?_⟩
    · exact (State.rd_wr_ne _ 1 (by decide)).trans (s.rd_xoCounted n)
    · exact RegsBut.wr 1 (by simp) (s.regsBut_xoCounted n (by simp))
  · have can : s.CanRamp 1 := ⟨empty, rest, off⟩
    have reads := State.rd_xoGood_of_mem n 3 (xoClass n) can
    have others : RegsBut [Reg.clkXoStatusState, Reg.clkXoStatusDetected, Reg.clkXoStatusCount, Reg.devBootPhase, Reg.pwrDomainsRamping]
        s (s.wrs (xoGoodWrites n (xoClass n))) := RegsBut.wrs (by simp [xoGoodWrites]) (RegsBut.refl _ s)
    simp only [xoGoodWrites, List.forall_mem_cons] at reads
    obtain ⟨count, state, detected, ramping, phase, -⟩ := reads
    have narrow : xoClass n - 2 < 2 ^ 2 := by
      have := xoClass_lt n
      omega
    exact ⟨_, exec_xoWindowEnd_third released measure agree prev, state, detected.trans (Nat.mod_eq_of_lt narrow), phase,
      count.trans (xoCount_mod n), ramping, fun f hf => (State.rd_xoGood n 3 _ can f).trans (others f hf)⟩
  · have reads := s.rd_xoFail_of_mem n
    obtain ⟨-, others⟩ : SameBut [Reg.clkXoStatusState, Reg.clkXoStatusLoss, Reg.clkXoStatusCount] s (s.wrs (xoFailWrites n)) :=
      SameBut.wrs (by simp [xoFailWrites]) (SameBut.refl _ s)
    simp only [xoFailWrites, List.forall_mem_cons] at reads
    obtain ⟨count, state, loss, -⟩ := reads
    exact ⟨_, exec_xoWindowEnd_good_other released good other, state, loss, State.cause_report _ _ _, count.trans (xoCount_mod n),
      rfl, others⟩
  · refine ⟨_, exec_startupRootLocked phase runs, ?_, State.rd_wr _ _ 2⟩
    rw [State.rd_wr_ne _ 2 (by decide), State.rd_bootRamps_ne (by rw [State.rootChosen_pwr, empty])
      (by simp [State.NoRampDown]) (by decide), State.rd_rootChosen]
  · refine ⟨_, exec_rootALockTimeout phase on notYet, State.rd_wr _ _ 1, ?_⟩
    rw [State.rd_wr_ne _ 1 (by decide), State.CanRamp.bootRamps_eq ⟨empty, rest, off⟩]
    exact State.rd_wr _ _ (2 ^ 2)
  · have halt : ∀ f : Fld, may haltMask f.key = false →
        (s.wr Reg.devBootFailReason0 13).haltEnter.rd f = ((s.wr Reg.devBootFailReason0 13).wr Reg.devBootPhase 10).rd f := fun f =>
      State.rd_haltEnter_dev empty (by rw [State.rd_wr_ne _ 13 (by decide), off3]) (by rw [State.rd_wr_ne _ 13 (by decide), off4])
    refine ⟨_, exec_rootBLockTimeout phase on tried, ?_, ?_⟩
    · rw [halt _ rfl]
      exact State.rd_wr _ _ 10
    · rw [halt _ rfl, State.rd_wr_ne _ 10 (by decide)]
      exact State.rd_wr _ _ 13

end Sys2Proof.Machine
end

section
/-! Quads of lanes, the floor word, K14 and the journal (R34, R51, R56, R57, R340, R364, R381). -/
namespace Sys2Proof.Machine

/-! ## Bits and bytes -/

/-- A bit that is set reads 1. -/
theorem bit_setBit_self (n i : Nat) : bit (setBit n i true) i = true := by
  unfold setBit
  split
  · assumption
  next clear =>
    have even : n / 2 ^ i % 2 ≠ 1 := by simpa [bit] using clear
    rw [if_pos rfl, bit, Nat.add_div_right n (Nat.two_pow_pos i), beq_iff_eq]
    omega

theorem unle_lt (l : List Byte) : unle l < 256 ^ l.length := by
  induction l with
  | nil => exact Nat.one_pos
  | cons b l ih =>
    have byte : b.toNat < 256 := b.isLt
    rw [unle, List.length_cons, Nat.pow_succ]
    omega

theorem u32_lt (v : List Byte) (o : Nat) : u32 v o < 2 ^ 32 := by
  have := unle_lt (slice v o 4)
  rwa [slice_length] at this

/-! ## Quads -/

theorem exec_quadEnableTick {s : State} {q : Nat}
    (next : (List.range 32).find? (fun q => s.quadUsed q && s.pdOn (5 + q / 8) && !bit s.boot.quadsOn q) = some q) :
    exec .quadEnableTick s = .next { s with boot := { s.boot with quadsOn := setBit s.boot.quadsOn q true } } := by
  show execQuadEnableTick s = _
  rw [execQuadEnableTick, next]

theorem exec_quadLockTimeout {s : State} {q : Fin 32} (on : bit s.boot.quadsOn q = true) (waits : bit s.boot.quadsDone q = false) :
    exec (.quadLockTimeout q) s =
      .next ({ s with boot := { s.boot with quadsDone := setBit s.boot.quadsDone q true } }.report (0x60 + q) q) := by
  show execQuadLockTimeout q s = _
  simp [execQuadLockTimeout, on, waits]

/-! ## The floor word -/

/-- What a verified floor word holds: SEQ below its one's complement. -/
def floorWordOf (seq : Nat) : Nat := seq + (2 ^ 32 - 1 - seq) * 2 ^ 32

/-- A verified floor word is programmed, before its record joins the journal's queue. -/
def State.floorRaised (s : State) (i : Nat) : State :=
  ({ s with boot := { s.boot with floorBusy := false } }.putFloor i (floorWordOf s.boot.imgSeq)).wr Reg.devBootFloorRaised 1

theorem State.putFloor_lc (s : State) (i w : Nat) : (s.putFloor i w).otp.lc = s.otp.lc := rfl

theorem State.putFloor_keys (s : State) (i w : Nat) : (s.putFloor i w).otp.keys = s.otp.keys := rfl

/-- The life cycle's fuses and the keys stand beside the floor words. -/
theorem State.floorRaised_lc_keys (s : State) (i : Nat) :
    (s.floorRaised i).otp.lc = s.otp.lc ∧ (s.floorRaised i).otp.keys = s.otp.keys := by
  rw [State.floorRaised, State.wr_otp, State.putFloor_lc, State.putFloor_keys]
  exact ⟨rfl, rfl⟩

theorem State.floorWord_floorRaised (s : State) (i : Nat) : (s.floorRaised i).floorWord i = floorWordOf s.boot.imgSeq :=
  Tab.get_set_same s.otp.floors i _ 0

theorem exec_floorRaiseDone {s : State} {i : Nat} (busy : s.boot.floorBusy = true) (free : s.floorFree = some i) :
    exec (.floorRaiseDone true) s = .next ((s.floorRaised i).jwrite (s.jrec 4 (le 4 0 ++ le 4 s.boot.imgSeq))) := by
  have free' : State.floorFree { s with boot := { s.boot with floorBusy := false } } = some i := free
  show execFloorRaiseDone true s = _
  rw [execFloorRaiseDone, busy]
  dsimp only [Bool.not_true]
  rw [free']
  rfl

/-- The record joins the journal's queue or is dropped: neither the fuses nor the registers of DEV nor the start-up state change. -/
theorem State.floorRaised_jwrite_keeps (s : State) (i : Nat) (r : JRec) :
    Keeps (maskOf [.regFlt, .jrnlQ]) (s.floorRaised i) ((s.floorRaised i).jwrite r) :=
  State.jwrite_keeps (Sub.refl _) r (Keeps.refl _ _)

/-! ## K14 -/

theorem exec_k14LateCheck {s : State} (accepted : s.boot.accepted = true) (asked : s.boot.pcieRef = true)
    (stopped : s.pins.pcieClk = false) :
    exec .k14LateCheck s = .next ({ s with boot := { s.boot with k14Due := true } }.report 0x51 0) := by
  show execK14LateCheck s = _
  simp [execK14LateCheck, accepted, asked, stopped]

/-! ## The journal -/

theorem State.slotBytes_setSlot (s : State) (i j : Nat) (b : List Byte) :
    (s.setSlot i b).slotBytes j = if j = i then b else s.slotBytes j := Tab.get_set s.journal i j b _

/-- A record that is written changes its slot, JRNL_HEAD and the counters of its event. -/
theorem State.jput_keeps_slot (s : State) (r : JRec) :
    Keeps (maskOf [.regDev, .regPmon]) (s.setSlot s.nextSlot.1 (r.bytes s.nextSlot.2)) (s.jput r) :=
  State.ev_keeps (Sub.le (Sub.refl _) rfl) 0x283 (State.jrnlHead_keeps (Sub.le (Sub.refl _) rfl) (Keeps.refl _ _))

theorem State.slotBytes_jput (s : State) (r : JRec) (j : Nat) :
    (s.jput r).slotBytes j = if j = s.nextSlot.1 then r.bytes s.nextSlot.2 else s.slotBytes j := by
  rw [← s.slotBytes_setSlot, State.slotBytes, (s.jput_keeps_slot r).inn.journal rfl]
  rfl

theorem State.pwrState_jput (s : State) (r : JRec) : (s.jput r).pwrState = s.pwrState :=
  (s.jput_keeps_slot r).inn.regs Reg.pwrStatusState.key Reg.pwrStatusState.reset rfl

/-- Outside a change of power state a verified write takes the oldest waiting record. -/
theorem exec_journalWriteDone {s : State} {r : JRec} {l : List JRec} (queue : s.jrnlQ = r :: l) (still : s.pwrState ≠ pwrChanging) :
    exec (.journalWriteDone true) s = .next ({ s with jrnlQ := l }.jput r) := by
  have power : ({ s with jrnlQ := l }.jput r).pwrState = s.pwrState := State.pwrState_jput _ r
  show execJournalWriteDone true s = _
  simp [execJournalWriteDone, queue, power, still]

/-- What the registers take at a write of JRNL_IDX: the slot and the eight words of its record. -/
def State.jrnlIdxWrites (s : State) (i : Nat) : List (Fld × Nat) :=
  (Reg.devJrnlIdxSlot, i) :: (List.range 8).map fun k => (Reg.devJrnlDataWord k, u32 (s.slotBytes i) (4 * k))

theorem State.jrnlIdxWrites_nodup (s : State) (i : Nat) : ((s.jrnlIdxWrites i).map fun e => e.1.key).Nodup := by
  rw [State.jrnlIdxWrites, List.map_cons, List.map_map]
  show (Reg.devJrnlIdxSlot.key :: (List.range 8).map fun k => (Reg.devJrnlDataWord k).key).Nodup
  decide

theorem State.jrnlIdxWrites_named (s : State) (i : Nat) :
    ∀ e ∈ s.jrnlIdxWrites i, e.1 ∈ Reg.devJrnlIdxSlot :: (List.range 8).map Reg.devJrnlDataWord := by
  intro e he
  rcases List.mem_cons.mp he with rfl | he
  · exact List.mem_cons_self
  · obtain ⟨k, hk, rfl⟩ := List.mem_map.mp he
    exact List.mem_cons_of_mem _ (List.mem_map_of_mem hk)

/-- JRNL_IDX holds the slot. -/
theorem State.rd_jrnlIdxWrites_slot (s : State) {i : Nat} (h : i < 8192) : (s.wrs (s.jrnlIdxWrites i)).rd Reg.devJrnlIdxSlot = i := by
  rw [s.rd_wrs_of_mem (s.jrnlIdxWrites_nodup i) List.mem_cons_self]
  exact Nat.mod_eq_of_lt h

/-- JRNL_DATA holds the words of its record. -/
theorem State.rd_jrnlIdxWrites_word (s : State) (i : Nat) {k : Nat} (h : k < 8) :
    (s.wrs (s.jrnlIdxWrites i)).rd (Reg.devJrnlDataWord k) = u32 (s.slotBytes i) (4 * k) := by
  have listed : (Reg.devJrnlDataWord k, u32 (s.slotBytes i) (4 * k)) ∈ s.jrnlIdxWrites i :=
    List.mem_cons_of_mem _ (List.mem_map_of_mem (f := fun k => (Reg.devJrnlDataWord k, u32 (s.slotBytes i) (4 * k))) (List.mem_range.mpr h))
  rw [s.rd_wrs_of_mem (s.jrnlIdxWrites_nodup i) listed]
  exact Nat.mod_eq_of_lt (u32_lt _ _)

theorem State.exec_jrnlIdxWrite (s : State) (v : Word) :
    exec (.jrnlIdxWrite v) s = .next (s.wrs (s.jrnlIdxWrites (v.toNat % 8192))) := by
  show execJrnlIdxWrite v s = _
  rw [execJrnlIdxWrite, State.jrnlIdxWrites, State.wrs_cons]

/-- Settles O9: each command's outcome, with what the operations behind it leave unchanged. -/
theorem quadsFloorAndJournal : Obligations.QuadsFloorAndJournal := by
  unfold Obligations.QuadsFloorAndJournal
  refine ⟨fun q s next => ⟨_, exec_quadEnableTick next, bit_setBit_self _ q, rfl⟩,
    fun q s on waits => ⟨_, exec_quadLockTimeout on waits, bit_setBit_self _ q, State.cause_report _ _ _, rfl⟩,
    fun i s busy free _ => ?_,
    fun s accepted asked stopped => ⟨_, exec_k14LateCheck accepted asked stopped, State.cause_report _ _ _, rfl⟩,
    fun r l s queue still => ?_, fun v s => ?_⟩
  · have kept := s.floorRaised_jwrite_keeps i (s.jrec 4 (le 4 0 ++ le 4 s.boot.imgSeq))
    have fuses := kept.inn.otp rfl
    obtain ⟨lc, keys⟩ := s.floorRaised_lc_keys i
    refine ⟨_, exec_floorRaiseDone busy free, ?_, ?_, congrArg Boot.floorBusy (kept.inn.boot rfl), by rw [fuses, lc],
      by rw [fuses, keys]⟩
    · rw [State.floorWord, fuses, ← State.floorWord, s.floorWord_floorRaised, floorWordOf]
    · exact (kept.inn.regs Reg.devBootFloorRaised.key 0 rfl).trans (State.rd_wr _ Reg.devBootFloorRaised 1)
  · have kept := State.jput_keeps_slot { s with jrnlQ := l } r
    refine ⟨_, exec_journalWriteDone queue still, kept.inn.jrnlQ rfl, ?_, fun i other => ?_, kept.inn.otp rfl⟩
    · exact (State.slotBytes_jput _ r _).trans (if_pos rfl)
    · exact (State.slotBytes_jput _ r i).trans (if_neg other)
  · exact ⟨_, s.exec_jrnlIdxWrite v, s.rd_jrnlIdxWrites_slot (Nat.mod_lt _ (by decide)), fun k hk => s.rd_jrnlIdxWrites_word _ hk,
      SameBut.wrs (s.jrnlIdxWrites_named _) (SameBut.refl _ s)⟩

end Sys2Proof.Machine
end

section
/-! Fields and tables that the roots, the synthesizers and the clock outputs share: one-bit fields, counters, and a change of several
clock outputs. -/
namespace Sys2Proof.Machine

/-! ## Fields -/

/-- Fields that begin at different bits are different fields. -/
theorem Fld.key_ne_of_lo {f g : Fld} (h : (f.lo % 32 == g.lo % 32) = false) : f.key ≠ g.key := by
  have : f.lo % 32 ≠ g.lo % 32 := ne_of_beq_false h
  unfold Fld.key
  omega

/-- A field that reads alike is on alike. -/
theorem State.on_congr {s t : State} {f : Fld} (h : t.rd f = s.rd f) : t.on f = s.on f :=
  congrArg (· != 0) h

theorem State.on_wr_b2n (s : State) {f : Fld} (b : Bool) (h : f.width = 1) : (s.wr f (b2n b)).on f = b := by
  rw [State.on, State.rd_wr, h]
  cases b <;> rfl

theorem satAdd_lt {w n k : Nat} : satAdd w n k < 2 ^ w := by
  have := Nat.two_pow_pos w
  unfold satAdd
  split <;> omega

theorem State.rd_bump (s : State) (f : Fld) : (s.bump f).rd f = satAdd f.width (s.rd f) 1 :=
  (s.rd_wr f _).trans (Nat.mod_eq_of_lt satAdd_lt)

/-- A clipped value fits its 16 bits. -/
theorem encSat_lt (i : Int) : encSat 16 i < 2 ^ 16 := by
  unfold encSat enc
  split
  · decide
  split
  · decide
  · omega

/-- So a field of 16 bits shows it whole. -/
theorem State.rd_wr_encSat (s : State) {f : Fld} (i : Int) (h : f.width = 16) : (s.wr f (encSat 16 i)).rd f = encSat 16 i := by
  rw [State.rd_wr, h]
  exact Nat.mod_eq_of_lt (encSat_lt i)

/-! ## Several clock outputs change alike -/

/-- What the device holds of each clock output of `l` changes by `g`. -/
def State.mapCkos (s : State) (l : List Nat) (g : Cko → Cko) : State := s.each l fun s n => s.setCko n (g (s.cko n))

theorem State.mapCkos_eq (s : State) (l : List Nat) (g : Cko → Cko) :
    ∃ c, s.mapCkos l g = { s with syn := { s.syn with ckos := c } } := by
  unfold State.mapCkos
  induction l generalizing s with
  | nil => exact ⟨s.syn.ckos, rfl⟩
  | cons n l ih =>
    obtain ⟨c, h⟩ := ih (s.setCko n (g (s.cko n)))
    exact ⟨c, by rw [State.each_cons, h]; rfl⟩

/-- Nothing beside what SYN holds changes. -/
theorem State.mapCkos_syn (s : State) (l : List Nat) (g : Cko → Cko) :
    s.mapCkos l g = { s with syn := (s.mapCkos l g).syn } := by
  obtain ⟨c, h⟩ := s.mapCkos_eq l g
  rw [h]

@[simp] theorem State.rd_mapCkos (s : State) (l : List Nat) (g : Cko → Cko) (f : Fld) : (s.mapCkos l g).rd f = s.rd f := by
  obtain ⟨c, h⟩ := s.mapCkos_eq l g
  rw [h]
  rfl

@[simp] theorem State.os_mapCkos (s : State) (l : List Nat) (g : Cko → Cko) (o : Nat) : (s.mapCkos l g).os o = s.os o := by
  obtain ⟨c, h⟩ := s.mapCkos_eq l g
  rw [h]
  rfl

theorem State.cko_setCko (s : State) (m n : Nat) (x : Cko) : (s.setCko m x).cko n = if n = m then x else s.cko n :=
  Tab.get_set _ _ _ _ _

/-- Each output that the list names once has changed, and no other. -/
theorem State.cko_mapCkos (s : State) {l : List Nat} (g : Cko → Cko) (n : Nat) (nd : l.Nodup) :
    (s.mapCkos l g).cko n = if n ∈ l then g (s.cko n) else s.cko n := by
  unfold State.mapCkos
  induction l generalizing s with
  | nil => rfl
  | cons m l ih =>
    obtain ⟨notin, nd⟩ := List.nodup_cons.mp nd
    rw [State.each_cons, ih _ nd, State.cko_setCko]
    by_cases e : n = m
    · subst e
      rw [if_neg notin, if_pos rfl, if_pos List.mem_cons_self]
    · simp only [List.mem_cons, e, if_false, false_or]

/-- The outputs that meet a condition have changed. -/
theorem State.cko_mapCkos_filter (s : State) {p : Nat → Bool} (g : Cko → Cko) {n : Nat} (lt : n < 12) (h : p n = true) :
    (s.mapCkos ((List.range 12).filter p) g).cko n = g (s.cko n) := by
  rw [s.cko_mapCkos g n (List.nodup_range.filter p), if_pos (List.mem_filter.mpr ⟨List.mem_range.mpr lt, h⟩)]

/-- So have those on synthesizer `o`. -/
theorem State.cko_mapCkos_ckosOf (s t : State) {o n : Nat} (g : Cko → Cko) (lt : n < 12) (h : t.rd (Reg.synCkoCfgOs n) = o) :
    (s.mapCkos (t.ckosOf o) g).cko n = g (s.cko n) :=
  s.cko_mapCkos_filter g lt (beq_iff_eq.mpr h)

/-! ## DRIVING -/

/-- DRIVING stands at bit 17 of its word. -/
theorem State.rd_wr_driving (s : State) (n v : Nat) {f : Fld} (h : (f.lo % 32 == 17) = false) :
    (s.wr (Reg.synCkoCtlDriving n) v).rd f = s.rd f :=
  s.rd_wr_ne v (Fld.key_ne_of_lo h)

/-- None of the four conditions of R95 rests on DRIVING. -/
theorem State.ckoDrives_wr_driving (s : State) (m v n : Nat) : (s.wr (Reg.synCkoCtlDriving m) v).ckoDrives n = s.ckoDrives n := by
  have rd (f : Fld) (h : (f.lo % 32 == 17) = false) := s.rd_wr_driving m v h
  unfold State.ckoDrives State.on
  dsimp only
  rw [rd (Reg.synCkoCfgOs n) rfl, rd (Reg.synCkoCfgFormat n) rfl, rd (Reg.synOsStatusLock _) rfl, rd (Reg.synCkoCtlOeHost n) rfl,
    rd (Reg.synOsCfgMode _) rfl]
  rfl

theorem synCkoCtlDriving_key_ne {m n : Nat} (lt : n < 12) (h : n ≠ m) : (Reg.synCkoCtlDriving n).key ≠ (Reg.synCkoCtlDriving m).key := by
  simp only [Fld.key, Reg.synCkoCtlDriving, cell]
  split <;> split <;> omega

theorem State.on_updCko (s : State) (n : Nat) : (s.updCko n).on (Reg.synCkoCtlDriving n) = s.ckoDrives n :=
  s.on_wr_b2n _ rfl

theorem State.rd_updCko (s : State) (n : Nat) {f : Fld} (h : (f.lo % 32 == 17) = false) : (s.updCko n).rd f = s.rd f :=
  s.rd_wr_driving n _ h

theorem State.ckoDrives_updCko (s : State) (m n : Nat) : (s.updCko m).ckoDrives n = s.ckoDrives n :=
  s.ckoDrives_wr_driving m _ n

theorem State.rd_updCkos (s : State) {f : Fld} (h : (f.lo % 32 == 17) = false) : s.updCkos.rd f = s.rd f := by
  unfold State.updCkos
  generalize List.range 12 = l
  induction l generalizing s with
  | nil => rfl
  | cons n l ih => exact (ih (s.updCko n)).trans (s.rd_updCko n h)

/-- DRIVING of every output listed is that of R95. -/
theorem State.on_each_updCko (s : State) (l : List Nat) {n : Nat} (lt : n < 12) :
    (s.each l State.updCko).on (Reg.synCkoCtlDriving n) = if n ∈ l then s.ckoDrives n else s.on (Reg.synCkoCtlDriving n) := by
  induction l generalizing s with
  | nil => rfl
  | cons m l ih =>
    rw [State.each_cons, ih, s.ckoDrives_updCko]
    by_cases e : n = m
    · subst e
      rw [s.on_updCko, ite_self, if_pos List.mem_cons_self]
    · have other : (s.updCko m).on (Reg.synCkoCtlDriving n) = s.on (Reg.synCkoCtlDriving n) :=
        State.on_congr (s.rd_wr_ne _ (synCkoCtlDriving_key_ne lt e))
      rw [other]
      simp only [List.mem_cons, e, false_or]

theorem State.on_updCkos (s : State) {n : Nat} (lt : n < 12) : s.updCkos.on (Reg.synCkoCtlDriving n) = s.ckoDrives n := by
  rw [State.updCkos, s.on_each_updCko _ lt, if_pos (List.mem_range.mpr lt)]

theorem State.syn_updCkos (s : State) : s.updCkos.syn = s.syn := by
  unfold State.updCkos
  generalize List.range 12 = l
  induction l generalizing s with
  | nil => rfl
  | cons n l ih => exact ih (s.updCko n)

theorem State.os_updCkos (s : State) (o : Nat) : s.updCkos.os o = s.os o :=
  congrArg (fun y : Syn => Tab.get y.oss o {}) s.syn_updCkos

theorem State.cko_updCkos (s : State) (n : Nat) : s.updCkos.cko n = s.cko n :=
  congrArg (fun y : Syn => Tab.get y.ckos n {}) s.syn_updCkos

end Sys2Proof.Machine
end

section
/-! The roots (R85, R86, R88, R89): one update of a DCO within its band, the state the selector drives, and standby tracking. -/
namespace Sys2Proof.Machine

/-! ## Fields of the SYN block -/

/-- The field lies in the SYN block (Table HI-3). -/
def Fld.inSyn (f : Fld) : Prop := f.key / 2 ^ 25 = 3

theorem synRootStatusState_inSyn (r : Nat) : (Reg.synRootStatusState r).inSyn := by
  simp only [Fld.inSyn, Fld.key, Reg.synRootStatusState]
  omega

theorem synRootStatusLock_inSyn (r : Nat) : (Reg.synRootStatusLock r).inSyn := by
  simp only [Fld.inSyn, Fld.key, Reg.synRootStatusLock]
  omega

theorem synTrackErr_inSyn : Reg.synTrackErr.inSyn := rfl

theorem synTrackTrackOk_inSyn : Reg.synTrackTrackOk.inSyn := rfl

theorem synRootStatusState_key_ne_lock (r : Nat) : (Reg.synRootStatusState r).key ≠ (Reg.synRootStatusLock r).key := by
  simp only [Fld.key, Reg.synRootStatusState, Reg.synRootStatusLock]
  omega

theorem synRootStatusState_key_ne_clamp (r : Nat) : (Reg.synRootStatusState r).key ≠ (Reg.synRootStatusClamp r).key := by
  simp only [Fld.key, Reg.synRootStatusState, Reg.synRootStatusClamp]
  omega

theorem synRootStatusState_key_ne_effBw (r : Nat) : (Reg.synRootStatusState r).key ≠ (Reg.synRootStatusEffBw r).key := by
  simp only [Fld.key, Reg.synRootStatusState, Reg.synRootStatusEffBw]
  omega

theorem synRootStatusLock_key_ne_clamp (r : Nat) : (Reg.synRootStatusLock r).key ≠ (Reg.synRootStatusClamp r).key := by
  simp only [Fld.key, Reg.synRootStatusLock, Reg.synRootStatusClamp]
  omega

/-- What keeps to a mask without the block leaves the field as it is. -/
theorem Keeps.rd_syn {w : Nat} {s t : State} (h : Keeps w s t) (out : bit w 3 = false) {f : Fld} (syn : f.inSyn) :
    t.rd f = s.rd f := by
  have block : f.key / 2 ^ 25 = 3 := syn
  have status : f.key / 32 ≠ 0x2D00010 := by omega
  refine h.inn.regs _ _ ?_
  unfold may unitOf
  rw [if_neg status, block, out]
  rfl

/-- LOCK of a root stands in the CLK block too, apart from every other field of SYN. -/
theorem State.rd_setRootLock_ne (s : State) (r : Nat) (b : Bool) {f : Fld} (syn : f.inSyn)
    (h : f.key ≠ (Reg.synRootStatusLock r).key) : (s.setRootLock r b).rd f = s.rd f := by
  have shaft : f.key ≠ (if r = 0 then Reg.clkShaftStatusRootaLock else Reg.clkShaftStatusRootbLock).key := by
    unfold Fld.inSyn at syn
    split <;> simp only [Fld.key, Reg.clkShaftStatusRootaLock, Reg.clkShaftStatusRootbLock] at syn ⊢ <;> omega
  rw [State.setRootLock, State.rd_wr_ne _ _ shaft, s.rd_wr_ne _ h]

theorem State.on_setRootLock (s : State) (r : Nat) (b : Bool) : (s.setRootLock r b).on (Reg.synRootStatusLock r) = b := by
  have shaft : (Reg.synRootStatusLock r).key ≠ (if r = 0 then Reg.clkShaftStatusRootaLock else Reg.clkShaftStatusRootbLock).key := by
    split <;> simp only [Fld.key, Reg.synRootStatusLock, Reg.clkShaftStatusRootaLock, Reg.clkShaftStatusRootbLock] <;> omega
  rw [State.setRootLock, State.on, State.rd_wr_ne _ _ shaft]
  exact s.on_wr_b2n b rfl

@[simp] theorem State.rootState_setRootLock (s : State) (r : Nat) (b : Bool) : (s.setRootLock r b).rootState r = s.rootState r :=
  s.rd_setRootLock_ne r b (synRootStatusState_inSyn r) (synRootStatusState_key_ne_lock r)

@[simp] theorem State.root_setRoot (s : State) (r : Nat) (x : Root) : (s.setRoot r x).root r = x :=
  Tab.get_set_same _ _ _ _

@[simp] theorem State.root_setRootLock (s : State) (r q : Nat) (b : Bool) : (s.setRootLock r b).root q = s.root q := rfl

/-! ## One update of a DCO -/

/-- The DCO of root `r` steps towards `w`, and the shaft with it where the root is the active one. -/
def State.rootMove (s : State) (r : Nat) (w : Int) : State :=
  let d := dcoStep (s.root r).dco w
  let s := s.setRoot r { s.root r with dco := d }
  s.when (r == s.activeRoot) fun s => s.shaftMotion d

/-- The shaft's motion changes no register and nothing of a root. -/
theorem State.rootMove_keeps (s : State) (r : Nat) (w : Int) :
    Keeps (maskOf [.tbs, .xc]) (s.setRoot r { s.root r with dco := dcoStep (s.root r).dco w }) (s.rootMove r w) := by
  unfold State.rootMove
  dsimp only
  exact Keeps.when (fun _ h => State.shaftMotion_keeps (Sub.le (Sub.refl _) rfl) _ h) (Keeps.refl _ _)

theorem State.root_rootMove (s : State) (r : Nat) (w : Int) :
    (s.rootMove r w).root r = { s.root r with dco := dcoStep (s.root r).dco w } := by
  rw [State.root, (s.rootMove_keeps r w).inn.syn rfl]
  exact s.root_setRoot r _

theorem State.rd_rootMove (s : State) (r : Nat) (w : Int) {f : Fld} (syn : f.inSyn) : (s.rootMove r w).rd f = s.rd f :=
  (s.rootMove_keeps r w).rd_syn rfl syn

/-- CLAMP of root `r` and its report end (R86). -/
def State.rootUnclamp (s : State) (r : Nat) : State :=
  s.when (s.on (Reg.synRootStatusClamp r)) fun s => (s.wr (Reg.synRootStatusClamp r) 0).unreport (0x52 + r)

theorem State.root_rootUnclamp (s : State) (r q : Nat) : (s.rootUnclamp r).root q = s.root q := by
  unfold State.rootUnclamp
  cases s.on (Reg.synRootStatusClamp r) <;> rfl

theorem State.on_rootUnclamp (s : State) (r : Nat) : (s.rootUnclamp r).on (Reg.synRootStatusClamp r) = false := by
  unfold State.rootUnclamp
  cases clamp : s.on (Reg.synRootStatusClamp r)
  · exact clamp
  · exact s.on_wr_b2n (f := Reg.synRootStatusClamp r) false rfl

theorem State.rd_rootUnclamp_ne (s : State) (r : Nat) {f : Fld} (h : f.key ≠ (Reg.synRootStatusClamp r).key) :
    (s.rootUnclamp r).rd f = s.rd f := by
  unfold State.rootUnclamp
  cases s.on (Reg.synRootStatusClamp r)
  · rfl
  · exact s.rd_wr_ne 0 h

/-- Root `r` has `w` for its target, and its lock detector says `b`. -/
def State.rootAimed (s : State) (r : Nat) (w : Int) (b : Bool) : State :=
  (s.setRoot r { s.root r with target := w }).setRootLock r b

theorem State.root_rootAimed (s : State) (r : Nat) (w : Int) (b : Bool) : (s.rootAimed r w b).root r = { s.root r with target := w } := by
  rw [State.rootAimed, State.root_setRootLock, State.root_setRoot]

/-- Within its band a root in FREE or REF is aimed, moves, and has no clamp (R85, R86). -/
theorem exec_rootDcoUpdate_within {s : State} {r : Fin 2} {w : Int} (b : Bool) (state : s.rootState r = rootFree ∨ s.rootState r = rootRef)
    (within : beyondBand (s.root r).centre w = false) :
    exec (.rootDcoUpdate r w b) s = .next (((s.rootAimed r w b).rootMove r w).rootUnclamp r) := by
  have runs : ¬(s.rootState r < rootFree ∨ rootRelock < s.rootState r) := by
    rcases state with h | h <;> rw [h] <;> decide
  have notHold : (s.rootState r == rootHold) = false := by
    rcases state with h | h <;> rw [h] <;> decide
  have notRelock : s.rootState r ≠ rootRelock := by
    rcases state with h | h <;> rw [h] <;> decide
  show execRootDcoUpdate r w b s = _
  simp [execRootDcoUpdate, runs, notHold, ne_of_beq_false notHold, notRelock, within, State.rootAimed, State.rootMove, State.rootUnclamp]

/-! ## The state the selector drives -/

theorem State.rootState_rootFollow (s : State) (r : Nat) : (s.rootFollow r).rootState r = s.syn.conn % 8 := by
  rw [State.rootFollow, State.rootState_setRootLock, State.rootState, State.wrs_cons, State.wrs_cons, State.wrs_nil,
    State.rd_wr_ne _ _ (synRootStatusState_key_ne_effBw r)]
  exact s.rd_wr _ _

theorem exec_rootRelockDone {s : State} {r : Fin 2} (relock : s.rootState r = rootRelock) :
    exec (.rootRelockDone r) s = .next ((s.rootFollow r).setRootLock r true) := by
  show execRootRelockDone r s = _
  rw [execRootRelockDone, if_pos relock]

theorem exec_rootBandWindow_near {s : State} {r : Fin 2} {d : Int} (sel : s.rootState r = rootBandSel) (near : d.natAbs ≤ 200000) :
    exec (.rootBandWindow r d) s = .next (s.rootFollow r) := by
  show execRootBandWindow r d s = _
  rw [execRootBandWindow, if_neg (not_not_intro sel), if_pos near]

/-! ## Standby tracking -/

/-- The trim after a phase difference of `d`: at most 0.1 ps nearer, within 50 ps (R89). -/
def State.trackTrim (s : State) (d : Int) : Int :=
  let t := s.syn.trim - (if d > 2 then 2 else if d < -2 then -2 else d)
  if t > 1000 then 1000 else if t < -1000 then -1000 else t

/-- The run of good measurements after it. -/
def State.trackRun (s : State) (d : Int) : Nat :=
  if d.natAbs ≤ 20 && !(s.rootState (1 - s.activeRoot) == rootRelock) then min 1024 (s.syn.goodRun + 1) else 0

theorem State.trackTrim_bounds (s : State) (d : Int) : -1000 ≤ s.trackTrim d ∧ s.trackTrim d ≤ 1000 := by
  unfold State.trackTrim
  generalize s.syn.trim - (if d > 2 then 2 else if d < -2 then -2 else d) = t
  dsimp only
  split
  · decide
  split
  · decide
  · omega

theorem State.trackRun_le (s : State) (d : Int) : s.trackRun d ≤ 1024 := by
  unfold State.trackRun
  split <;> omega

theorem State.trackRun_far (s : State) {d : Int} (far : 20 < d.natAbs) : s.trackRun d = 0 := by
  have : ¬d.natAbs ≤ 20 := by omega
  simp [State.trackRun, this]

/-- The measurement is shown, and the standby root is trimmed. -/
def State.tracked (s : State) (d : Int) : State :=
  { s with syn := { s.syn with trim := s.trackTrim d, goodRun := s.trackRun d } }.wrs
    [(Reg.synTrackErr, encSat 16 (5 * d)), (Reg.synTrackTrackOk, b2n (s.trackRun d == 1024))]

theorem exec_standbyTrackMeasure {s : State} (d : Int) (a : s.rootRuns 0 = true) (b : s.rootRuns 1 = true) :
    exec (.standbyTrackMeasure d) s =
      .next ((s.tracked d).when (s.trackRun d == 1024 && !s.on Reg.synTrackTrackOk) State.standbyTkStart) := by
  show execStandbyTrackMeasure d s = _
  rw [execStandbyTrackMeasure, a, b]
  rfl

/-- The start of the standby timekeeper changes nothing of SYN. -/
theorem State.tracked_start_keeps (s : State) (d : Int) (c : Bool) :
    Keeps (maskOf [.regTk, .regRed, .xc]) (s.tracked d) ((s.tracked d).when c State.standbyTkStart) :=
  Keeps.when (fun _ h => State.standbyTkStart_keeps (Sub.le (Sub.refl _) rfl) h) (Keeps.refl _ _)

theorem State.rd_tracked_err (s : State) (d : Int) : (s.tracked d).rd Reg.synTrackErr = encSat 16 (5 * d) :=
  (State.rd_wr_ne _ _ (by decide)).trans (State.rd_wr_encSat _ _ rfl)

theorem State.on_tracked_ok (s : State) (d : Int) : (s.tracked d).on Reg.synTrackTrackOk = (s.trackRun d == 1024) :=
  State.on_wr_b2n _ _ rfl

/-- Settles O33: the update by its three steps, both ends by the state that the selector drives, the measurement by what it shows. -/
theorem roots : Obligations.Roots := by
  unfold Obligations.Roots
  refine ⟨fun r w b s state within => ⟨_, exec_rootDcoUpdate_within b state within, ?_, ?_, State.on_rootUnclamp _ r, ?_⟩,
    fun r s relock => ⟨_, exec_rootRelockDone relock, ?_, State.on_setRootLock _ r true, rfl⟩,
    fun r d s sel near => ⟨_, exec_rootBandWindow_near sel near, s.rootState_rootFollow r, rfl⟩, fun d s a b => ?_⟩
  · rw [State.root_rootUnclamp, State.root_rootMove, State.root_rootAimed]
  · have shown := (State.rd_rootUnclamp_ne _ r (synRootStatusLock_key_ne_clamp r)).trans
      (State.rd_rootMove (s.rootAimed r w b) r w (synRootStatusLock_inSyn r))
    exact (State.on_congr shown).trans (State.on_setRootLock _ r b)
  · rw [State.rootState, State.rd_rootUnclamp_ne _ _ (synRootStatusState_key_ne_clamp r),
      State.rd_rootMove _ _ _ (synRootStatusState_inSyn r)]
    exact State.rootState_setRootLock _ r b
  · rw [State.rootState_setRootLock, s.rootState_rootFollow]
  · have kept := s.tracked_start_keeps d (s.trackRun d == 1024 && !s.on Reg.synTrackTrackOk)
    have syn := kept.inn.syn rfl
    obtain ⟨lo, hi⟩ := s.trackTrim_bounds d
    refine ⟨_, exec_standbyTrackMeasure d a b, (kept.rd_syn rfl synTrackErr_inSyn).trans (s.rd_tracked_err d), ?_, ?_, ?_, fun far => ?_⟩
    all_goals rw [syn]
    · exact lo
    · exact hi
    · exact s.trackRun_le d
    · have none := s.trackRun_far far
      refine ⟨(State.on_congr (kept.rd_syn rfl synTrackTrackOk_inSyn)).trans ?_, none⟩
      rw [s.on_tracked_ok, none]
      rfl

end Sys2Proof.Machine
end

section
/-! Output synthesizers, clock outputs and SYNC_IN (R95, R97, R100, R101). -/
namespace Sys2Proof.Machine

@[simp] theorem State.os_setOs (s : State) (o : Nat) (x : Os) : (s.setOs o x).os o = x := Tab.get_set_same _ _ _ _

/-! ## The timing loop (Table SY-5) -/

/-- A comparison shows its error, steers FRAC and leaves the run within 10 ps at `run` (R97). -/
def State.tlShown (s : State) (o run : Nat) (e : Int) (frac : Nat) : State :=
  (s.setOs o { s.os o with frac := frac, inRun := run }).wr (Reg.synOsStatusTlErr o) (encSat 16 e)

/-- Beyond 50 ps in ALIGNED a locked synthesizer goes to LOST and reports. -/
theorem exec_tlCompare_lost {s : State} {o : Fin 4} {e : Int} (f : Fin 1099511627776)
    (aligned : s.rd (Reg.synOsStatusTlState o) = 3) (lock : s.on (Reg.synOsStatusLock o) = true) (runs : s.frozen = false)
    (far : 500 < e.natAbs) :
    exec (.tlCompare o e f) s =
      .next (((s.tlShown o 0 e f).wr (Reg.synOsStatusTlState o) 4).report (0x54 + o) (encSat 16 e)) := by
  have out : ¬e.natAbs ≤ 100 := by omega
  show execTlCompare o e f s = _
  simp [execTlCompare, aligned, lock, runs, far, out, State.tlShown]

theorem exec_tlAlignInstant {s : State} {o : Fin 4} (aligning : s.rd (Reg.synOsStatusTlState o) = 2)
    (notYet : (s.os o).placed = false) (runs : s.frozen = false) :
    exec (.tlAlignInstant o) s = .next ((s.setOs o { s.os o with placed := true, inRun := 0 }).mapCkos (s.ckosOf o)
      fun c => { c with restart := some (s.os o).second }) := by
  show execTlAlignInstant o s = _
  rw [execTlAlignInstant]
  simp only [runs, aligning, notYet]
  rfl

theorem exec_tlOutputStart {s : State} {o : Fin 4} (waits : (s.os o).start = true) (runs : s.frozen = false) :
    exec (.tlOutputStart o) s = .next ((s.setOs o { s.os o with start := false }).mapCkos (s.ckosOf o)
      fun c => { c with edge := true }).updCkos := by
  show execTlOutputStart o s = _
  rw [execTlOutputStart]
  simp only [runs, waits]
  rfl

/-- Once a SCAN has stopped clocks none of these four moves an output (R372). -/
theorem exec_of_frozen {s : State} (o : Fin 4) (e : Int) (f : Fin 1099511627776) (frozen : s.frozen = true) :
    ∀ c ∈ [Instr.tlCompare o e f, .tlAlignInstant o, .tlOutputStart o, .syncRestart], exec c s = .next s := by
  have compare : execTlCompare o e f s = .next s := by simp [execTlCompare, frozen]
  have instant : execTlAlignInstant o s = .next s := by simp [execTlAlignInstant, frozen]
  have start : execTlOutputStart o s = .next s := by simp [execTlOutputStart, frozen]
  have restart : execSyncRestart s = .next s := by
    unfold execSyncRestart
    rw [frozen]
    split <;> rfl
  simp only [List.forall_mem_cons]
  exact ⟨compare, instant, start, restart, fun _ h => nomatch h⟩

/-! ## Lock -/

/-- A synthesizer without lock, before DRIVING follows: a time-locked one goes to HELD and its outputs wait for a first edge again. -/
def State.osHeld (s : State) (o : Nat) : State :=
  (s.wr (Reg.synOsStatusLock o) 0).when ((s.wr (Reg.synOsStatusLock o) 0).rd (Reg.synOsCfgMode o) == 2) fun s =>
    (((s.wr (Reg.synOsStatusTlState o) 1).setOs o {}).mapCkos (s.ckosOf o) fun c => { c with edge := false }).unreport (0x54 + o)

theorem State.osUnlock_eq (s : State) (o : Nat) : s.osUnlock o = (s.osHeld o).updCkos := rfl

theorem State.rd_osHeld (s : State) (o : Nat) {f : Fld} (h : f.key ≠ (Reg.synOsStatusTlState o).key) :
    (s.osHeld o).rd f = (s.wr (Reg.synOsStatusLock o) 0).rd f := by
  unfold State.osHeld
  generalize s.wr (Reg.synOsStatusLock o) 0 = u
  cases u.rd (Reg.synOsCfgMode o) == 2
  · rfl
  · exact (State.rd_mapCkos _ _ _ f).trans (u.rd_wr_ne 1 h)

theorem State.on_osHeld_lock (s : State) (o : Nat) : (s.osHeld o).on (Reg.synOsStatusLock o) = false :=
  (State.on_congr (s.rd_osHeld o (Fld.key_ne_of_lo rfl))).trans (s.on_wr_b2n (f := Reg.synOsStatusLock o) false rfl)

/-- An output whose synthesizer has no lock does not drive (R95). -/
theorem State.ckoDrives_of_unlocked {s : State} {n : Nat} (h : s.on (Reg.synOsStatusLock (s.rd (Reg.synCkoCfgOs n))) = false) :
    s.ckoDrives n = false := by
  simp [State.ckoDrives, h]

/-- Nor does one that OE_HOST silences. -/
theorem State.ckoDrives_of_silenced {s : State} {n : Nat} (h : s.on (Reg.synCkoCtlOeHost n) = false) : s.ckoDrives n = false := by
  simp [State.ckoDrives, h]

theorem synCkoCfgOs_key_ne_tlState {n : Nat} (o : Nat) (lt : n < 12) : (Reg.synCkoCfgOs n).key ≠ (Reg.synOsStatusTlState o).key := by
  simp only [Fld.key, Reg.synCkoCfgOs, Reg.synOsStatusTlState, cell]
  split <;> split <;> omega

theorem State.ckoDrives_osHeld (s : State) {o n : Nat} (lt : n < 12) (h : s.rd (Reg.synCkoCfgOs n) = o) :
    (s.osHeld o).ckoDrives n = false := by
  have os : (s.osHeld o).rd (Reg.synCkoCfgOs n) = o :=
    (s.rd_osHeld o (synCkoCfgOs_key_ne_tlState o lt)).trans ((s.rd_wr_ne 0 (Fld.key_ne_of_lo rfl)).trans h)
  refine State.ckoDrives_of_unlocked ?_
  rw [os]
  exact s.on_osHeld_lock o

theorem exec_synthLockLoss {s : State} {o : Fin 4} (lock : s.on (Reg.synOsStatusLock o) = true) :
    exec (.synthLockLoss o) s = .next (s.osHeld o).updCkos := by
  show execSynthLockLoss o s = _
  rw [execSynthLockLoss, if_pos lock, State.osUnlock_eq]

theorem State.rd_osAlign (s : State) (o : Nat) {f : Fld} (h : f.key ≠ (Reg.synOsStatusTlState o).key) : (s.osAlign o).rd f = s.rd f := by
  unfold State.osAlign
  dsimp only
  split
  · exact State.rd_wr_ne _ 2 h
  · rfl

theorem exec_synthesizerLocked {s : State} {o : Fin 4} (mode : s.on (Reg.synOsCfgMode o) = true)
    (unlocked : s.on (Reg.synOsStatusLock o) = false) (on : bit (s.rd Reg.pwrDomainsOn) 10 = true) :
    exec (.synthesizerLocked o) s = .next ((s.wr (Reg.synOsStatusLock o) 1).osAlign o).updCkos := by
  have used : s.rd (Reg.synOsCfgMode o) ≠ 0 := bne_iff_ne.mp mode
  show execSynthesizerLocked o s = _
  simp [execSynthesizerLocked, used, unlocked, on]

/-! ## SYNC_IN -/

theorem exec_syncInEdge_arms {s : State} {b : Bool} (edge : b ≠ s.on Reg.synSyncCfgPol)
    (idle : s.on Reg.synSyncStatusPending = false) (valid : s.tbValid (s.rd Reg.synSyncCfgTb) = true) :
    exec (.syncInEdge b) s = .next
      ({ s with syn := { s.syn with sync := some (secondAfter (s.atb (s.rd Reg.synSyncCfgTb)).t) } }.wr Reg.synSyncStatusPending 1) := by
  show execSyncInEdge b s = _
  rw [execSyncInEdge, if_neg edge]
  simp [idle, valid]

theorem exec_syncInEdge_ignored {s : State} {b : Bool} (edge : b ≠ s.on Reg.synSyncCfgPol)
    (armed : s.on Reg.synSyncStatusPending = true) : exec (.syncInEdge b) s = .next (s.bump Reg.synSyncStatusIgnored) := by
  show execSyncInEdge b s = _
  rw [execSyncInEdge, if_neg edge]
  simp [armed]

/-- The dividers of the outputs with SYNC_EN restart at second `k`, and no restart is pending. -/
def State.syncRestarted (s : State) (k : Nat) : State :=
  let s := s.mapCkos ((List.range 12).filter fun n => s.on (Reg.synCkoCfgSyncEn n)) fun c => { c with restart := some k }
  { s with syn := { s.syn with sync := none } }

theorem State.rd_syncRestarted (s : State) (k : Nat) (f : Fld) : (s.syncRestarted k).rd f = s.rd f :=
  s.rd_mapCkos _ _ f

theorem State.cko_syncRestarted (s : State) (k : Nat) {n : Nat} (lt : n < 12) (en : s.on (Reg.synCkoCfgSyncEn n) = true) :
    ((s.syncRestarted k).cko n).restart = some k :=
  congrArg Cko.restart (s.cko_mapCkos_filter (p := fun n => s.on (Reg.synCkoCfgSyncEn n)) (fun c => { c with restart := some k }) lt en)

theorem exec_syncRestart {s : State} {k : Nat} (pending : s.syn.sync = some k) (runs : s.frozen = false) :
    exec .syncRestart s = .next (((s.syncRestarted k).wr Reg.synSyncStatusPending 0).bump Reg.synSyncStatusDone) := by
  show execSyncRestart s = _
  rw [execSyncRestart, pending]
  simp only [runs]
  rfl

/-- Settles O34: each command's outcome, read through what the shared changes of outputs and registers leave. -/
theorem outputSynthesizers : Obligations.OutputSynthesizers := by
  unfold Obligations.OutputSynthesizers
  refine ⟨fun o e f s aligned lock runs far => ?_, fun o s aligning notYet runs => ?_, fun o s waits runs => ?_,
    fun o s lock => ?_, fun o s mode unlocked on => ?_, fun n b s => ?_, fun b s edge => ⟨fun idle valid => ?_, fun armed => ?_⟩,
    fun o e f s frozen => exec_of_frozen o e f frozen, fun k s pending runs => ?_⟩
  · have err : (Reg.synOsStatusTlErr o).key ≠ (Reg.synOsStatusTlState o).key := Fld.key_ne_of_lo rfl
    refine ⟨_, exec_tlCompare_lost f aligned lock runs far, State.rd_wr _ (Reg.synOsStatusTlState o) 4, State.cause_report _ _ _, ?_, ?_⟩
    · exact (State.rd_wr_ne _ 4 err).trans (State.rd_wr_encSat _ e rfl)
    · exact congrArg Os.frac (s.os_setOs o _)
  · refine ⟨_, exec_tlAlignInstant aligning notYet runs, ?_, State.mapCkos_syn (s.setOs o _) _ _, fun n lt on => ?_⟩
    · rw [State.os_mapCkos, State.os_setOs]
    · rw [State.cko_mapCkos_ckosOf _ s _ lt on]
  · refine ⟨_, exec_tlOutputStart waits runs, ?_, fun n lt on => ?_⟩
    · rw [State.os_updCkos, State.os_mapCkos, State.os_setOs]
    · rw [State.cko_updCkos, State.cko_mapCkos_ckosOf _ s _ lt on]
  · refine ⟨_, exec_synthLockLoss lock, ?_, fun n lt on => ?_⟩
    · exact (State.on_congr (State.rd_updCkos _ rfl)).trans (s.on_osHeld_lock o)
    · exact (State.on_updCkos _ lt).trans (s.ckoDrives_osHeld lt on)
  · have shown : ((s.wr (Reg.synOsStatusLock o) 1).osAlign o).updCkos.rd (Reg.synOsStatusLock o) =
        (s.wr (Reg.synOsStatusLock o) 1).rd (Reg.synOsStatusLock o) :=
      (State.rd_updCkos _ rfl).trans (State.rd_osAlign _ o (Fld.key_ne_of_lo rfl))
    exact ⟨_, exec_synthesizerLocked mode unlocked on, (State.on_congr shown).trans (s.on_wr_b2n true rfl)⟩
  · have host : ((s.wr (Reg.synCkoCtlOeHost n) (b2n b)).updCko n).on (Reg.synCkoCtlOeHost n) = b :=
      (State.on_congr (State.rd_updCko _ n rfl)).trans (s.on_wr_b2n b rfl)
    have drives := (State.on_updCko (s.wr (Reg.synCkoCtlOeHost n) (b2n b)) n).trans
      (State.ckoDrives_updCko _ n n).symm
    refine ⟨_, rfl, host, drives, fun silenced => ?_, ?_⟩
    · exact drives.trans (State.ckoDrives_of_silenced (host.trans silenced))
    · exact SameBut.wr _ (by simp) (SameBut.wr _ (by simp) (SameBut.refl _ s))
  · exact ⟨_, exec_syncInEdge_arms edge idle valid, rfl, State.on_wr_b2n _ true rfl,
      RegsBut.wr 1 List.mem_cons_self (RegsBut.refl _ s)⟩
  · exact ⟨_, exec_syncInEdge_ignored edge armed, SameBut.wr _ List.mem_cons_self (SameBut.refl _ s), s.rd_bump _⟩
  · have kept : RegsBut [Reg.synSyncStatusPending, Reg.synSyncStatusDone] s (s.syncRestarted k) := fun f _ => s.rd_syncRestarted k f
    refine ⟨_, exec_syncRestart pending runs, rfl, ?_, ?_, fun n lt en => s.cko_syncRestarted k lt en,
      RegsBut.wr _ (by simp) (RegsBut.wr 0 (by simp) kept)⟩
    · exact (State.on_congr (State.rd_wr_ne _ _ (by decide))).trans (State.on_wr_b2n _ false rfl)
    · rw [State.rd_bump, State.rd_wr_ne _ 0 (by decide), s.rd_syncRestarted]

end Sys2Proof.Machine
end

section
/-! The time-transfer engines (R183 to R199): beat periods, the end of LOCK, and the outcomes of exchange pairs. -/
namespace Sys2Proof.Machine

/-! ## Fields of a lane's engine -/

/-- The place of bit `lo` of the word at offset `off` in the registers of lane `n`'s engine (TT.LANEn). -/
def ttKey (n off lo : Nat) : Nat := 32 * cell (0x501000 + off) 0x80 128 n + lo

theorem ttKey_eq {n : Nat} (lt : n < 128) (off lo : Nat) : ttKey n off lo = 32 * (0x501000 + off + 0x80 * n) + lo := by
  rw [ttKey, cell, if_pos lt]

/-- Fields in different words of one engine are different fields. -/
theorem Fld.key_ne_of_ttKey {f g : Fld} {n : Nat} (lt : n < 128) (a b i j : Nat) (hf : f.key = ttKey n a i) (hg : g.key = ttKey n b j)
    (ne : a ≠ b := by decide) (li : i < 32 := by decide) (lj : j < 32 := by decide) : f.key ≠ g.key := by
  rw [hf, hg, ttKey_eq lt, ttKey_eq lt]
  omega

theorem ttLanePhase_key_ne_rate (n : Fin 128) : (Reg.ttLanePhasePhase n).key ≠ (Reg.ttLaneRateRate n).key :=
  Fld.key_ne_of_ttKey n.isLt 0x20 0x24 0 0 rfl rfl

theorem ttLanePhase_key_ne_state (n : Fin 128) : (Reg.ttLanePhasePhase n).key ≠ (Reg.ttLaneStatusState n).key :=
  Fld.key_ne_of_ttKey n.isLt 0x20 0x1c 0 0 rfl rfl

theorem ttLaneRate_key_ne_state (n : Fin 128) : (Reg.ttLaneRateRate n).key ≠ (Reg.ttLaneStatusState n).key :=
  Fld.key_ne_of_ttKey n.isLt 0x24 0x1c 0 0 rfl rfl

theorem ttLaneAnchors_key_ne_state (n : Fin 128) : (Reg.ttLaneCountsAnchors n).key ≠ (Reg.ttLaneStatusState n).key :=
  Fld.key_ne_of_ttKey n.isLt 0x44 0x1c 0 0 rfl rfl

theorem ttLaneDiscards_key_ne_lastDisc (n : Nat) : (Reg.ttLaneCountsDiscards n).key ≠ (Reg.ttLaneStatusLastDisc n).key :=
  Fld.key_ne_of_lo rfl

/-- What keeps to a mask without the TT block leaves a field of the block as it is. -/
theorem Keeps.rd_tt {w : Nat} {s t : State} (h : Keeps w s t) (out : bit w 5 = false) {f : Fld} (block : f.key / 2 ^ 25 = 5) :
    t.rd f = s.rd f := by
  have status : f.key / 32 ≠ 0x2D00010 := by omega
  refine h.inn.regs _ _ ?_
  unfold may unitOf
  rw [if_neg status, block, out]
  rfl

theorem ttKey_block {n off lo : Nat} (lt : n < 128) (off_lt : off < 0x80) (lo_lt : lo < 32) : ttKey n off lo / 2 ^ 25 = 5 := by
  rw [ttKey_eq lt]
  omega

/-- HOPS of a base stands below the engines. -/
theorem ttKey_ne_hops {n off lo : Nat} (lt : n < 128) (off_lt : off < 0x80) (lo_lt : lo < 32) (tb : Nat) :
    ttKey n off lo ≠ (Reg.ttHops tb).key := by
  rw [ttKey_eq lt]
  simp only [Fld.key, Reg.ttHops, cell]
  split <;> omega

theorem ttHops_block {tb : Nat} (lt : tb < 8) : (Reg.ttHops tb).key / 2 ^ 25 = 5 := by
  have word : tb / 4 < 2 := by omega
  simp only [Fld.key, Reg.ttHops, cell, if_pos word]
  omega

/-! ## The engine -/

@[simp] theorem State.eng_setEng (s : State) (n : Nat) (e : Eng) : (s.setEng n e).eng n = e := Tab.get_set_same _ _ _ _

@[simp] theorem State.rd_setEng (s : State) (n : Nat) (e : Eng) (f : Fld) : (s.setEng n e).rd f = s.rd f := rfl

theorem State.eng_ttDiscard (s : State) (n r m : Nat) : (s.ttDiscard n r).eng m = s.eng m := rfl

theorem State.eng_congr {s t : State} (h : t.tt = s.tt) (n : Nat) : t.eng n = s.eng n :=
  congrArg (fun tt : Tt => Tab.get tt.eng n {}) h

/-- An engine set is a change of no register. -/
theorem SameBut.setEng (l : List Fld) (s : State) (n : Nat) (e : Eng) : SameBut l { s with tt := (s.setEng n e).tt } (s.setEng n e) :=
  SameBut.refl l _

theorem SameBut.bump {l : List Fld} {s t : State} {f : Fld} (hf : f ∈ l) (h : SameBut l s t) : SameBut l s (t.bump f) :=
  SameBut.wr _ hf h

/-! ## Beat periods (R183 to R185) -/

/-- PHASE and RATE of engine `n` show those of `e`. -/
def State.ttShown (s : State) (n : Nat) (e : Eng) : State :=
  (s.wr (Reg.ttLanePhasePhase n) e.phase).wr (Reg.ttLaneRateRate n) (encSat 32 e.rate)

theorem State.rd_ttShown_phase (s : State) (n : Fin 128) (e : Eng) :
    (s.ttShown n e).rd (Reg.ttLanePhasePhase n) = e.phase % 2 ^ (Reg.ttLanePhasePhase n).width :=
  (State.rd_wr_ne _ _ (ttLanePhase_key_ne_rate n)).trans (s.rd_wr _ _)

theorem State.rd_ttShown_rate (s : State) (n : Nat) (e : Eng) :
    (s.ttShown n e).rd (Reg.ttLaneRateRate n) = encSat 32 e.rate % 2 ^ (Reg.ttLaneRateRate n).width :=
  State.rd_wr _ _ _

theorem State.ttState_ttShown (s : State) (n : Fin 128) (e : Eng) : (s.ttShown n e).ttState n = s.ttState n :=
  (State.rd_wr_ne _ _ (ttLaneRate_key_ne_state n).symm).trans (s.rd_wr_ne _ (ttLanePhase_key_ne_state n).symm)

theorem SameBut.ttShown {l : List Fld} (s : State) (n : Nat) (e x : Eng) (phase : Reg.ttLanePhasePhase n ∈ l)
    (rate : Reg.ttLaneRateRate n ∈ l) :
    SameBut l { s with tt := ((s.ttShown n e).setEng n x).tt } ((s.ttShown n e).setEng n x) := by
  show SameBut l { s with tt := (s.setEng n x).tt } (((s.setEng n x).wr _ _).wr _ _)
  exact SameBut.wr _ rate (SameBut.wr _ phase (SameBut.setEng l s n x))

/-- An engine that goes back to LOCK: its averages, its anchors and every stamp on the cycle map go (R185). -/
def Eng.relocked (e : Eng) : Eng :=
  { e with phis := [], lockN := 0, txA := none, rxA := none, rxLast := none, rxF := none, lgen := e.lgen + 1,
           inb := e.inb.map fun m => { m with rate := true } }

/-- The engine of lane `n` once a beat period of raw phase `c` has ended (R183, R184). -/
def State.ttBeaten (s : State) (n c : Nat) : Eng := s.ttComplete n ((s.eng n).push (s.ttWindow n) c)

/-- An engine in LOCK, or within 20 ppm, shows the period and stays in its state (R184, R185). -/
theorem exec_ttBeatPeriod_stays {s : State} {n : Fin 128} {x y : List Nat} {c : Nat} (active : ttLock ≤ s.ttState n)
    (raw : rawPhase x y = some c) (stays : s.ttState n = ttLock ∨ (s.ttBeaten n c).rate.natAbs ≤ 20000) :
    ∃ e, exec (.ttBeatPeriod n (x, y)) s = .next ((s.ttShown n (s.ttBeaten n c)).setEng n e) := by
  show ∃ e, execTtBeatPeriod n (x, y) s = _
  simp only [execTtBeatPeriod, raw, if_neg (Nat.not_lt.mpr active)]
  by_cases lock : s.ttState n = ttLock
  · exact ⟨_, if_pos lock⟩
  · have near : ¬20000 < (s.ttBeaten n c).rate.natAbs := Nat.not_lt.mpr (stays.resolve_left lock)
    exact ⟨_, (if_neg lock).trans (if_neg near)⟩

/-- Beyond 20 ppm an engine in ANCHOR or RUN goes back to LOCK (R185). -/
theorem exec_ttBeatPeriod_relocks {s : State} {n : Fin 128} {x y : List Nat} {c : Nat} (active : ttLock ≤ s.ttState n)
    (raw : rawPhase x y = some c) (left : s.ttState n ≠ ttLock) (far : 20000 < (s.ttBeaten n c).rate.natAbs) :
    exec (.ttBeatPeriod n (x, y)) s =
      .next (((s.ttShown n (s.ttBeaten n c)).setEng n (s.ttBeaten n c).relocked).setTt n ttLock) := by
  show execTtBeatPeriod n (x, y) s = _
  simp only [execTtBeatPeriod, raw, if_neg (Nat.not_lt.mpr active), if_neg left]
  exact if_pos far

/-! ## The end of LOCK (R185) -/

theorem exec_ttLockWindowDone {s : State} {n : Fin 128} (lock : s.ttState n = ttLock) (whole : s.ttWindow n ≤ (s.eng n).lockN) :
    exec (.ttLockWindowDone n) s = .next ((s.setEng n { s.eng n with lockAt := some s.tt.now }).ttToAnchor n) :=
  if_pos (c := s.ttState n = ttLock ∧ s.ttWindow n ≤ (s.eng n).lockN) ⟨lock, whole⟩

theorem State.ttState_ttToAnchor (s : State) (n : Fin 128) : (s.ttToAnchor n).ttState n = ttAnchor :=
  (State.rd_wr_ne _ _ (ttLaneAnchors_key_ne_state n).symm).trans (State.rd_wr _ (Reg.ttLaneStatusState n) ttAnchor)

theorem State.rd_ttToAnchor_anchors (s : State) (n : Fin 128) : (s.ttToAnchor n).rd (Reg.ttLaneCountsAnchors n) =
    satAdd (Reg.ttLaneCountsAnchors n).width (s.rd (Reg.ttLaneCountsAnchors n)) 1 := by
  rw [State.ttToAnchor, State.rd_bump, State.setTt, State.rd_wr_ne _ _ (ttLaneAnchors_key_ne_state n), State.rd_setEng]

theorem SameBut.ttToAnchor (s : State) (n : Nat) :
    SameBut [Reg.ttLaneStatusState n, Reg.ttLaneCountsAnchors n] { s with tt := (s.ttToAnchor n).tt } (s.ttToAnchor n) := by
  unfold State.ttToAnchor
  exact SameBut.bump (by simp) (SameBut.wr ttAnchor (by simp) (SameBut.setEng _ s n _))

/-! ## Discards (R192, Table TT-3) -/

/-- The engine after a discard is the one that was set. -/
theorem State.eng_setEng_ttDiscard (s : State) (n r : Nat) (e : Eng) : ((s.setEng n e).ttDiscard n r).eng n = e :=
  (State.eng_ttDiscard _ n r n).trans (s.eng_setEng n e)

theorem State.rd_ttDiscard_reason (s : State) (n r : Nat) :
    (s.ttDiscard n r).rd (Reg.ttLaneStatusLastDisc n) = r % 2 ^ (Reg.ttLaneStatusLastDisc n).width :=
  State.rd_wr _ _ _

theorem State.rd_ttDiscard_count (s : State) (n r : Nat) : (s.ttDiscard n r).rd (Reg.ttLaneCountsDiscards n) =
    satAdd (Reg.ttLaneCountsDiscards n).width (s.rd (Reg.ttLaneCountsDiscards n)) 1 :=
  (State.rd_wr_ne _ _ (ttLaneDiscards_key_ne_lastDisc n)).trans (s.rd_bump _)

/-- The engine set and a discard change nothing else. -/
theorem SameBut.ttDiscard (s : State) (n r : Nat) (e : Eng) :
    SameBut [Reg.ttLaneStatusLastDisc n, Reg.ttLaneCountsDiscards n] { s with tt := ((s.setEng n e).ttDiscard n r).tt }
      ((s.setEng n e).ttDiscard n r) := by
  unfold State.ttDiscard
  exact SameBut.wr r (by simp) (SameBut.bump (by simp) (SameBut.setEng _ s n e))

theorem exec_ttPairTimeout {s : State} {n : Fin 128} {m : Mark} (oldest : (s.eng n).own.find? (fun m => !m.used) = some m) :
    exec (.ttPairTimeout n) s = .next ((s.setEng n ((s.eng n).closeOwn m)).ttDiscard n 4) := by
  show execTtPairTimeout n s = _
  rw [execTtPairTimeout, oldest]

/-! ## Pairs (R193 to R197) -/

/-- The engine of a lane whose pair of own mark `m` and partner mark `p` is over. -/
def State.ttPaired (s : State) (n : Nat) (m p : Mark) : Eng :=
  { (s.eng n).closeOwn m with inb := (s.eng n).inb.map fun x => if x = p then { x with used := true } else x, first := false }

theorem State.ttPaired_own (s : State) (n : Nat) (m p : Mark) : (s.ttPaired n m p).own = ((s.eng n).closeOwn m).own := rfl

/-- What the local base measured of a pair: its receive stamp less the partner's time of sending. -/
def State.pairMs (s : State) (m p : Mark) : Int := s.ttDiff m.st.tb p.compact p.st.t (p.other.getD 0)

/-- The round trip of a pair. -/
def State.pairRtt (s : State) (m p : Mark) : Int := s.pairMs m p + s.ttDiff m.st.tb p.compact (m.other.getD 0) m.st.t

/-- The asymmetry of lane `n`'s link (ALPHA). -/
def State.ttAlpha (s : State) (n : Nat) : Int :=
  sgn 64 (s.rd (Reg.ttLaneAlphaLoAlphaLo n) + 2 ^ 32 * s.rd (Reg.ttLaneAlphaHiAlphaHi n))

/-- The inbound delay of a pair. -/
def State.pairDIn (s : State) (n : Nat) (m p : Mark) : Int :=
  roundDiv (s.pairRtt m p * (2 ^ 48 + s.ttAlpha n)) (2 ^ 49 + s.ttAlpha n).toNat

/-- A mark from before an audit discards its pair with reason 1, the first check of Table TT-3. -/
theorem exec_ttPairFormed_audit {s : State} {n : Fin 128} {m p : Mark} (ready : s.ttReady n = some (m, p))
    (audit : m.audit = true ∨ p.audit = true) :
    exec (.ttPairFormed n) s = .next ((s.setEng n (s.ttPaired n m p)).ttDiscard n 1) := by
  show execTtPairFormed n s = _
  have reason : (m.audit || p.audit) = true := by rcases audit with h | h <;> simp [h]
  simp only [execTtPairFormed, ready, reason, Bool.true_or, if_true]
  rfl

/-- A pair passes every check of Table TT-3, with no earlier round trip that its own is far from (R194). -/
structure State.PairPasses (s : State) (n : Nat) (m p : Mark) : Prop where
  unaudited : m.audit = false ∧ p.audit = false ∧ m.agen = p.agen ∧ p.sentBefore (s.pairDIn n m p) (s.eng n).ancAt = false
  locked : p.rate = false ∧ m.lgen = p.lgen ∧ p.sentBefore (s.pairDIn n m p) (s.eng n).lockAt = false
  base : m.st.tb = p.st.tb
  source : (s.ttBase n).2 = true → p.valid = true ∧ p.source = false ∧ p.gm ≠ s.nodeId
  positive : 0 ≤ s.pairRtt m p
  short : s.pairRtt m p ≤ (s.rd (Reg.ttLaneRttMaxRttMax n) * 65536 : Nat)
  near : s.ttJump n (s.eng n) (s.pairRtt m p) = none

/-- Such a pair is accepted. -/
theorem exec_ttPairFormed_accept {s : State} {n : Fin 128} {m p : Mark} (ready : s.ttReady n = some (m, p))
    (passes : s.PairPasses n m p) :
    exec (.ttPairFormed n) s = .next ((s.setEng n (s.ttPaired n m p)).ttAccept n (s.ttBase n).1 (s.ttBase n).2 p (s.pairRtt m p)
      (s.pairDIn n m p) (s.pairMs m p - s.pairDIn n m p)) := by
  obtain ⟨⟨mAudit, pAudit, agen, anchored⟩, ⟨rate, lgen, locked⟩, base, source, positive, short, near⟩ := passes
  have notAudit : (m.audit || p.audit || m.agen != p.agen || p.sentBefore (s.pairDIn n m p) (s.eng n).ancAt) = false := by
    simp [mAudit, pAudit, agen, anchored]
  have notRate : (p.rate || m.lgen != p.lgen || p.sentBefore (s.pairDIn n m p) (s.eng n).lockAt) = false := by
    simp [rate, lgen, locked]
  have valid : ((s.ttBase n).2 && !p.valid) = false := by
    cases src : (s.ttBase n).2
    · rfl
    · simp [source src]
  have noLoop : ((s.ttBase n).2 && (p.source || p.gm == s.nodeId)) = false := by
    cases src : (s.ttBase n).2
    · rfl
    · simp [source src]
  have inRange : ¬(s.pairRtt m p < 0 ∨ s.pairRtt m p > (s.rd (Reg.ttLaneRttMaxRttMax n) * 65536 : Nat)) := by omega
  show execTtPairFormed n s = _
  simp only [execTtPairFormed, ready]
  refine (if_neg (ne_true_of_eq_false notAudit)).trans ((if_neg (ne_true_of_eq_false notRate)).trans ((if_neg (not_not_intro base)).trans
    ((if_neg (ne_true_of_eq_false valid)).trans ((if_neg (ne_true_of_eq_false noLoop)).trans ((if_neg inRange).trans ?_)))))
  split
  next jump => cases jump.symm.trans near
  next jump => cases jump.symm.trans near
  next jump => rfl

/-! ## What an accepted pair shows (R194, R195, R197) -/

/-- What does not see the change does not see it done where a condition holds. -/
theorem State.when_same {α : Type} {s : State} {f : State → State} (q : State → α) (c : Bool) (h : q (f s) = q s) :
    q (s.when c f) = q s := by
  cases c
  · rfl
  · exact h

/-- The engine of an accepted pair of round trip `rtt`. -/
def Eng.accepted (e : Eng) (rtt : Int) : Eng := { e with rtt := some rtt, jumps := [], fresh := true }

/-- The registers that show an accepted pair, each value in two words. -/
def ttResults (n : Nat) (rtt dIn e : Int) : List (Fld × Nat) :=
  [(Reg.ttLaneRttLoRttLo n, sat48 rtt), (Reg.ttLaneRttHiRttHi n, sat48 rtt / 2 ^ 32),
   (Reg.ttLaneDInLoDInLo n, sat48 dIn), (Reg.ttLaneDInHiDInHi n, sat48 dIn / 2 ^ 32),
   (Reg.ttLaneELoELo n, encSat 48 e), (Reg.ttLaneEHiEHi n, encSat 48 e / 2 ^ 32)]

theorem ttResults_keys (n : Nat) (rtt dIn e : Int) :
    ((ttResults n rtt dIn e).map fun x => x.1.key) = [0x28, 0x2c, 0x30, 0x34, 0x38, 0x3c].map fun off => ttKey n off 0 := rfl

theorem ttResults_nodup (n : Fin 128) (rtt dIn e : Int) : ((ttResults n rtt dIn e).map fun x => x.1.key).Nodup := by
  have apart (a b : Nat) (ne : a ≠ b) : ttKey n a 0 ≠ ttKey n b 0 := by
    rw [ttKey_eq n.isLt, ttKey_eq n.isLt]
    omega
  have distinct : [0x28, 0x2c, 0x30, 0x34, 0x38, 0x3c].Nodup := by decide
  rw [ttResults_keys]
  exact List.Pairwise.map _ apart distinct

/-- The counters stand behind the results. -/
theorem ttKey_notMem_ttResults {n off : Nat} (lt : n < 128) (behind : 0x40 ≤ off) (lo : Nat) (rtt dIn e : Int) :
    ∀ x ∈ ttResults n rtt dIn e, ttKey n off lo ≠ x.1.key := by
  intro x hx same
  have mem : ttKey n off lo ∈ [0x28, 0x2c, 0x30, 0x34, 0x38, 0x3c].map fun o => ttKey n o 0 :=
    ttResults_keys n rtt dIn e ▸ List.mem_map.mpr ⟨x, hx, same.symm⟩
  simp only [ttKey_eq lt, List.map_cons, List.map_nil, List.mem_cons, List.not_mem_nil, or_false] at mem
  omega

/-- An accepted pair is counted and shown. -/
def State.ttCounted (s : State) (n : Nat) (rtt dIn e : Int) : State :=
  ((s.setEng n ((s.eng n).accepted rtt)).bump (Reg.ttLaneSamplesSamples n)).wrs (ttResults n rtt dIn e)

theorem State.wrs_tt (s : State) (l : List (Fld × Nat)) : (s.wrs l).tt = s.tt := by
  induction l generalizing s with
  | nil => rfl
  | cons x l ih => exact ih (s.wr x.1 x.2)

theorem State.eng_ttCounted (s : State) (n : Nat) (rtt dIn e : Int) : (s.ttCounted n rtt dIn e).eng n = (s.eng n).accepted rtt := by
  rw [State.eng, State.ttCounted, State.wrs_tt]
  exact s.eng_setEng n _

theorem State.rd_ttCounted_of_mem (s : State) (n : Fin 128) {rtt dIn e : Int} {f : Fld} {v : Nat} (h : (f, v) ∈ ttResults n rtt dIn e) :
    (s.ttCounted n rtt dIn e).rd f = v % 2 ^ f.width :=
  State.rd_wrs_of_mem _ (ttResults_nodup n rtt dIn e) h

theorem State.rd_ttCounted_rtt (s : State) (n : Fin 128) (rtt dIn e : Int) :
    (s.ttCounted n rtt dIn e).rd (Reg.ttLaneRttLoRttLo n) = sat48 rtt % 2 ^ 32 :=
  s.rd_ttCounted_of_mem n (.head _)

theorem State.rd_ttCounted_dIn (s : State) (n : Fin 128) (rtt dIn e : Int) :
    (s.ttCounted n rtt dIn e).rd (Reg.ttLaneDInLoDInLo n) = sat48 dIn % 2 ^ 32 :=
  s.rd_ttCounted_of_mem n (.tail _ (.tail _ (.head _)))

theorem State.rd_ttCounted_e (s : State) (n : Fin 128) (rtt dIn e : Int) :
    (s.ttCounted n rtt dIn e).rd (Reg.ttLaneELoELo n) = encSat 48 e % 2 ^ 32 :=
  s.rd_ttCounted_of_mem n (.tail _ (.tail _ (.tail _ (.tail _ (.head _)))))

theorem State.rd_ttCounted_samples (s : State) (n : Fin 128) (rtt dIn e : Int) :
    (s.ttCounted n rtt dIn e).rd (Reg.ttLaneSamplesSamples n) =
      satAdd (Reg.ttLaneSamplesSamples n).width (s.rd (Reg.ttLaneSamplesSamples n)) 1 :=
  (State.rd_wrs_ne _ _ _ (ttKey_notMem_ttResults (off := 0x40) n.isLt (by decide) 0 rtt dIn e)).trans (State.rd_bump _ _)

theorem State.rd_ttCounted_discards (s : State) (n : Fin 128) (rtt dIn e : Int) :
    (s.ttCounted n rtt dIn e).rd (Reg.ttLaneCountsDiscards n) = s.rd (Reg.ttLaneCountsDiscards n) :=
  (State.rd_wrs_ne _ _ _ (ttKey_notMem_ttResults (off := 0x44) n.isLt (by decide) 16 rtt dIn e)).trans
    (State.rd_wr_ne _ _ (Fld.key_ne_of_lo rfl))

/-- The warnings that an accepted pair may raise: CHAIN_LONG, FORMAT_MISMATCH and RTT_SHORT with its report. -/
def State.ttWarned (s : State) (n tb : Nat) (p : Mark) (rtt : Int) : State :=
  let s := s.when (decide (16 ≤ p.hops)) fun s => s.wr (Reg.ttLaneStatusChainLong n) 1
  let s := s.when (p.compact && !s.on (Reg.tkTbCfgFormat tb)) fun s => s.wr (Reg.ttLaneStatusFormatMismatch n) 1
  s.when (decide (rtt > (s.rd (Reg.fabDestRttRttNs n) * 65536 : Nat))) fun s =>
    (s.wr (Reg.fabDestStatusRttShort n) 1).report 0x5F n

theorem State.ttWarned_tt (s : State) (n tb : Nat) (p : Mark) (rtt : Int) : (s.ttWarned n tb p rtt).tt = s.tt :=
  (State.when_same State.tt _ rfl).trans ((State.when_same State.tt _ rfl).trans (State.when_same State.tt _ rfl))

/-- A field that begins with a half word is none that begins elsewhere. -/
theorem Fld.key_ne_of_half {f g : Fld} (half : f.key % 16 = 0) {lo : Nat} (bit : g.lo = lo) (other : lo % 16 ≠ 0) : f.key ≠ g.key := by
  unfold Fld.key at half ⊢
  omega

/-- Each warning is a bit within a half word. -/
theorem State.rd_ttWarned (s : State) (n tb : Nat) (p : Mark) (rtt : Int) {f : Fld} (half : f.key % 16 = 0) :
    (s.ttWarned n tb p rtt).rd f = s.rd f := by
  have short (t : State) : (t.wr (Reg.fabDestStatusRttShort n) 1).rd f = t.rd f :=
    t.rd_wr_ne 1 (Fld.key_ne_of_half half (lo := 26) rfl (by decide))
  have mismatch (t : State) : (t.wr (Reg.ttLaneStatusFormatMismatch n) 1).rd f = t.rd f :=
    t.rd_wr_ne 1 (Fld.key_ne_of_half half (lo := 12) rfl (by decide))
  have long : (s.wr (Reg.ttLaneStatusChainLong n) 1).rd f = s.rd f :=
    s.rd_wr_ne 1 (Fld.key_ne_of_half half (lo := 13) rfl (by decide))
  exact (State.when_same (State.rd · f) _ (short _)).trans
    ((State.when_same (State.rd · f) _ (mismatch _)).trans (State.when_same (State.rd · f) _ long))

/-- Base `tb` stands one hop behind the partner and carries its GM_ID (R197). -/
def State.ttChained (s : State) (tb : Nat) (p : Mark) : State :=
  let s := s.wr (Reg.ttHops tb) (min 255 (p.hops + 1))
  { s with tt := { s.tt with gm := Tab.set s.tt.gm tb p.gm [] } }

/-- In role SOURCE the base takes the difference. -/
def State.ttSourced (s : State) (tb : Nat) (p : Mark) (e : Int) (compact : Bool) : State := (s.ttChained tb p).ttDeliver tb e compact

/-- Delivery to the base keeps off the engines. -/
theorem State.ttSourced_keeps (s : State) (tb : Nat) (p : Mark) (e : Int) (compact : Bool) :
    Keeps (maskOf [.intStatus, .regTk, .regTs, .regPmon, .out, .tbs, .hif, .pul]) (s.ttChained tb p) (s.ttSourced tb p e compact) :=
  State.ttDeliver_keeps (Sub.le (Sub.refl _) rfl) tb e compact (Keeps.refl _ _)

theorem State.eng_ttSourced (s : State) (tb : Nat) (p : Mark) (e : Int) (compact : Bool) (n : Nat) :
    (s.ttSourced tb p e compact).eng n = s.eng n :=
  State.eng_congr (s := s.ttChained tb p) ((s.ttSourced_keeps tb p e compact).inn.tt rfl) n

theorem State.rd_ttSourced (s : State) (tb : Nat) (p : Mark) (e : Int) (compact : Bool) {n off lo : Nat} {f : Fld} (lt : n < 128)
    (key : f.key = ttKey n off lo) (off_lt : off < 0x80) (lo_lt : lo < 32) : (s.ttSourced tb p e compact).rd f = s.rd f :=
  ((s.ttSourced_keeps tb p e compact).rd_tt rfl (key ▸ ttKey_block lt off_lt lo_lt)).trans
    (s.rd_wr_ne _ (key ▸ ttKey_ne_hops lt off_lt lo_lt tb))

theorem State.rd_ttSourced_hops (s : State) {tb : Nat} (lt : tb < 8) (p : Mark) (e : Int) (compact : Bool) :
    (s.ttSourced tb p e compact).rd (Reg.ttHops tb) = min 255 (p.hops + 1) % 2 ^ (Reg.ttHops tb).width :=
  ((s.ttSourced_keeps tb p e compact).rd_tt rfl (ttHops_block lt)).trans (s.rd_wr _ _)

/-- An accepted pair is counted and shown, warned of, and delivered in role SOURCE. -/
theorem State.ttAccept_eq (s : State) (n tb : Nat) (src : Bool) (p : Mark) (rtt dIn e : Int) :
    ∃ compact, s.ttAccept n tb src p rtt dIn e = ((s.ttCounted n rtt dIn e).ttWarned n tb p rtt).when src fun t => t.ttSourced tb p e compact :=
  ⟨_, rfl⟩

theorem State.eng_ttAccept (s : State) (n tb : Nat) (src : Bool) (p : Mark) (rtt dIn e : Int) :
    (s.ttAccept n tb src p rtt dIn e).eng n = (s.eng n).accepted rtt := by
  obtain ⟨compact, eq⟩ := s.ttAccept_eq n tb src p rtt dIn e
  calc (s.ttAccept n tb src p rtt dIn e).eng n
    _ = (((s.ttCounted n rtt dIn e).ttWarned n tb p rtt).when src fun t => t.ttSourced tb p e compact).eng n := by rw [eq]
    _ = ((s.ttCounted n rtt dIn e).ttWarned n tb p rtt).eng n :=
      State.when_same (State.eng · n) src (State.eng_ttSourced _ tb p e compact n)
    _ = (s.ttCounted n rtt dIn e).eng n := State.eng_congr (State.ttWarned_tt _ n tb p rtt) n
    _ = (s.eng n).accepted rtt := s.eng_ttCounted n rtt dIn e

/-- A field of the engine that fills a word or a half reads as the count and the results left it. -/
theorem State.rd_ttAccept (s : State) (n : Fin 128) (tb : Nat) (src : Bool) (p : Mark) (rtt dIn e : Int) {f : Fld} (off lo : Nat)
    (key : f.key = ttKey n off lo)
    (off_lt : off < 0x80 := by decide) (half : lo % 16 = 0 := by decide) (lo_lt : lo < 32 := by decide) :
    (s.ttAccept n tb src p rtt dIn e).rd f = (s.ttCounted n rtt dIn e).rd f := by
  obtain ⟨compact, eq⟩ := s.ttAccept_eq n tb src p rtt dIn e
  have halfKey : f.key % 16 = 0 := by
    rw [key, ttKey_eq n.isLt]
    omega
  calc (s.ttAccept n tb src p rtt dIn e).rd f
    _ = (((s.ttCounted n rtt dIn e).ttWarned n tb p rtt).when src fun t => t.ttSourced tb p e compact).rd f := by rw [eq]
    _ = ((s.ttCounted n rtt dIn e).ttWarned n tb p rtt).rd f :=
      State.when_same (State.rd · f) src (State.rd_ttSourced _ tb p e compact n.isLt key off_lt lo_lt)
    _ = (s.ttCounted n rtt dIn e).rd f := State.rd_ttWarned _ n tb p rtt halfKey

theorem State.rd_ttAccept_hops (s : State) (n : Nat) {tb : Nat} (lt : tb < 8) (p : Mark) (rtt dIn e : Int) :
    (s.ttAccept n tb true p rtt dIn e).rd (Reg.ttHops tb) = min 255 (p.hops + 1) % 2 ^ (Reg.ttHops tb).width := by
  obtain ⟨compact, eq⟩ := s.ttAccept_eq n tb true p rtt dIn e
  rw [eq]
  exact State.rd_ttSourced_hops _ lt p e compact

/-- The base of which an engine is the source is one of the eight. -/
theorem State.ttBase_lt {s : State} {n : Nat} (source : (s.ttBase n).2 = true) : (s.ttBase n).1 < 8 := by
  unfold State.ttBase at source ⊢
  split at source
  next b found => exact List.mem_range.mp (List.mem_of_find?_eq_some found)
  next none => cases source

/-! ## Health (R199) -/

/-- The pairs' timing roles are judged without a change of an engine. -/
theorem State.eng_judgeTimings (s : State) (n : Nat) : s.judgeTimings.eng n = s.eng n := by
  have kept : Keeps (maskOf [.intStatus, .regTk, .regRed, .regPmon, .out, .lines, .tbs, .hif]) s s.judgeTimings :=
    State.judgeTimings_keeps (Sub.le (Sub.refl _) rfl) (Keeps.refl _ s)
  exact State.eng_congr (kept.inn.tt rfl) n

/-- Settles O30: a beat period by whether its rate lets the engine stay, and a pair by the checks it fails or passes; the other events
have one outcome each. RATE is the slope that log entry 15 chooses. -/
theorem engines : Obligations.Engines := by
  unfold Obligations.Engines
  refine ⟨fun n x y c s active raw => ?_, fun n s lock whole => ?_, fun n s run => ⟨_, if_pos run, s.eng_setEng n _, rfl⟩,
    fun n m p s ready audit => ?_, fun n m p s ready mAudit pAudit agen rate lgen base => ?_, fun n m s oldest => ?_, fun n s => ?_⟩
  · by_cases stays : s.ttState n = ttLock ∨ (s.ttBeaten n c).rate.natAbs ≤ 20000
    · obtain ⟨e, run⟩ := exec_ttBeatPeriod_stays active raw stays
      refine ⟨_, run, s.rd_ttShown_phase n _, s.rd_ttShown_rate n _, fun left far => ?_, fun _ => s.ttState_ttShown n _,
        SameBut.ttShown s n _ e (by simp) (by simp)⟩
      exact absurd (stays.resolve_left left) (Nat.not_le.mpr far)
    · obtain ⟨left, far⟩ := not_or.mp stays
      refine ⟨_, exec_ttBeatPeriod_relocks active raw left (Nat.not_le.mp far), ?_, ?_, fun _ _ => ⟨State.rd_wr _ _ ttLock, ?_, ?_⟩,
        fun h => absurd h stays, SameBut.wr ttLock (by simp) (SameBut.ttShown s n _ _ (by simp) (by simp))⟩
      · exact (State.rd_wr_ne _ ttLock (ttLanePhase_key_ne_state n)).trans (s.rd_ttShown_phase n _)
      · exact (State.rd_wr_ne _ ttLock (ttLaneRate_key_ne_state n)).trans (s.rd_ttShown_rate n _)
      · exact congrArg Eng.phis (State.eng_setEng _ n _)
      · exact congrArg Eng.lgen (State.eng_setEng _ n _)
  · exact ⟨_, exec_ttLockWindowDone lock whole, State.ttState_ttToAnchor _ n, State.rd_ttToAnchor_anchors _ n, SameBut.ttToAnchor _ n⟩
  · exact ⟨_, exec_ttPairFormed_audit ready audit, State.rd_ttDiscard_reason _ n 1,
      (congrArg Eng.own (s.eng_setEng_ttDiscard n 1 _)).trans (s.ttPaired_own n m p),
      State.rd_ttDiscard_count _ n 1, SameBut.ttDiscard s n 1 _⟩
  · intro tb ms rtt alpha dIn anchored locked source positive short near
    have passes : s.PairPasses n m p :=
      ⟨⟨mAudit, pAudit, agen, anchored⟩, ⟨rate, lgen, locked⟩, base, source, positive, short, near⟩
    have engine := (State.eng_ttAccept (s.setEng n (s.ttPaired n m p)) n tb (s.ttBase n).2 p rtt dIn (ms - dIn)).trans
      (congrArg (Eng.accepted · rtt) (s.eng_setEng n _))
    refine ⟨_, exec_ttPairFormed_accept ready passes, ?_, ?_, ?_, ?_, ?_, congrArg Eng.fresh engine, congrArg Eng.rtt engine,
      congrArg Eng.jumps engine, (congrArg Eng.own engine).trans (s.ttPaired_own n m p), fun role => ?_⟩
    · exact (State.rd_ttAccept _ n _ _ p _ _ _ 0x40 0 rfl).trans (State.rd_ttCounted_samples _ n _ _ _)
    · exact (State.rd_ttAccept _ n _ _ p _ _ _ 0x28 0 rfl).trans (State.rd_ttCounted_rtt _ n _ _ _)
    · exact (State.rd_ttAccept _ n _ _ p _ _ _ 0x30 0 rfl).trans (State.rd_ttCounted_dIn _ n _ _ _)
    · exact (State.rd_ttAccept _ n _ _ p _ _ _ 0x38 0 rfl).trans (State.rd_ttCounted_e _ n _ _ _)
    · exact (State.rd_ttAccept _ n _ _ p _ _ _ 0x44 16 rfl).trans (State.rd_ttCounted_discards _ n _ _ _)
    · rw [role]
      exact State.rd_ttAccept_hops _ n (State.ttBase_lt role) p _ _ _
  · exact ⟨_, exec_ttPairTimeout oldest, State.rd_ttDiscard_reason _ n 4, congrArg Eng.own (s.eng_setEng_ttDiscard n 4 _),
      SameBut.ttDiscard s n 4 _⟩
  · exact ⟨_, rfl, (congrArg Eng.fresh (State.eng_judgeTimings _ n)).trans (congrArg Eng.fresh (s.eng_setEng n _))⟩

end Sys2Proof.Machine
end

section
/-! Registers of an array of like blocks, and what writes, interrupts and latches leave unchanged: shared by pulse generators, captures and
transmit queues. -/
namespace Sys2Proof.Machine

/-! ## Fields of arrays -/

/-- Fields at different places of one block of an array are different fields. -/
theorem Fld.key_ne_of_cell {f g : Fld} {n count stride a b : Nat} (lt : n < count) (hf : f.addr = cell a stride count n)
    (hg : g.addr = cell b stride count n) (ne : (32 * a + f.lo == 32 * b + g.lo) = false) : f.key ≠ g.key := by
  have apart := ne_of_beq_false ne
  rw [Fld.key, Fld.key, hf, hg, cell, cell, if_pos lt, if_pos lt]
  omega

/-- No copy of a register lies below the first. -/
theorem le_cell {base : Nat} (stride count n : Nat) (le : base ≤ 0x4000000) : base ≤ cell base stride count n := by
  unfold cell
  split
  · omega
  · exact le

/-- So a field of a lower word is none of the array's. -/
theorem Fld.key_ne_of_lt_cell {f g : Fld} {base stride count n : Nat} (le : base ≤ 0x4000000) (hf : f.addr = cell base stride count n)
    (lt : g.addr < base) (lo : g.lo < 32) : f.key ≠ g.key := by
  have := le_cell stride count n le
  unfold Fld.key
  omega

/-- The field lies in the TS block. -/
def Fld.inTs (f : Fld) : Prop := f.key / 2 ^ 25 = 6

theorem Fld.inTs_of_cell {f : Fld} {base stride count n : Nat} (lt : n < count) (hf : f.addr = cell base stride count n)
    (first : 0x600000 ≤ base) (last : base + stride * (count - 1) < 0x700000) (lo : f.lo < 32) : f.inTs := by
  have offset : stride * n ≤ stride * (count - 1) := Nat.mul_le_mul_left _ (by omega)
  rw [Fld.inTs, Fld.key, hf, cell, if_pos lt]
  omega

theorem Fld.inTs.ne_intStatus {f : Fld} (h : f.inTs) : f.key ≠ Reg.hifIntStatusStatus.key := by
  unfold Fld.inTs at h
  simp only [Fld.key, Reg.hifIntStatusStatus] at h ⊢
  omega

/-! ## Lists of writes -/

/-- A list of writes changes registers alone. -/
theorem State.wrs_frame (s : State) (l : List (Fld × Nat)) : s.wrs l = { s with regs := (s.wrs l).regs } := by
  induction l generalizing s with
  | nil => rfl
  | cons e l ih => exact ih (s.wr e.1 e.2)

theorem State.wrs_tbs (s : State) (l : List (Fld × Nat)) : (s.wrs l).tbs = s.tbs := by
  rw [s.wrs_frame l]

theorem State.wrs_append (s : State) (l m : List (Fld × Nat)) : s.wrs (l ++ m) = (s.wrs l).wrs m := by
  induction l generalizing s with
  | nil => rfl
  | cons e l ih => exact ih (s.wr e.1 e.2)

/-- ACTIVE and the bases decide what is VALID. -/
theorem State.tbValid_congr {s t : State} (active : t.rd Reg.tkStatusActive = s.rd Reg.tkStatusActive) (tbs : t.tbs = s.tbs) (n : Nat) :
    t.tbValid n = s.tbValid n := by
  simp only [State.tbValid, State.atb, State.tb, State.activeTk, active, tbs]

/-! ## Interrupts -/

@[simp] theorem State.rd_msix (s : State) (v : Nat) (f : Fld) : (s.msix v).rd f = s.rd f := by
  unfold State.msix
  split <;> rfl

/-- An interrupt writes INT_STATUS alone. -/
theorem State.rd_intr (s : State) (v : Nat) {f : Fld} (h : f.key ≠ Reg.hifIntStatusStatus.key) : (s.intr v).rd f = s.rd f := by
  have set : (s.wrBit Reg.hifIntStatusStatus v true).rd f = s.rd f := s.rd_wr_ne _ h
  unfold State.intr
  dsimp only
  split
  · exact (State.rd_msix _ v f).trans set
  · exact set

/-- What an interrupt may change: INT_STATUS, a pending bit and the messages. -/
theorem State.intr_keeps_self (s : State) (v : Nat) : Keeps (maskOf [.intStatus, .out, .hif]) s (s.intr v) :=
  State.intr_keeps (Sub.refl _) v (Keeps.refl _ s)

@[simp] theorem State.intr_pul (s : State) (v : Nat) : (s.intr v).pul = s.pul := (s.intr_keeps_self v).inn.pul rfl

@[simp] theorem State.intr_pins (s : State) (v : Nat) : (s.intr v).pins = s.pins := (s.intr_keeps_self v).inn.pins rfl

/-! ## Latches (R394) -/

/-- Latched words stand in the host interface. -/
theorem State.latch_frame (s : State) (p : Nat) (l : List (Fld × Nat)) : s.latch p l = { s with hif := (s.latch p l).hif } := by
  induction l generalizing s with
  | nil => rfl
  | cons e l ih => exact ih _

end Sys2Proof.Machine
end

section
/-! The pulse generators' commands and edges (R213, R214, R216, R218, R425). -/
namespace Sys2Proof.Machine

/-! ## Fields of a generator -/

/-- The place of bit `lo` of the word at offset `off` in the registers of generator `p` (TS.PGp). -/
def pgKey (p off lo : Nat) : Nat := 32 * cell (0x601000 + off) 0x40 16 p + lo

theorem pgKey_eq {p : Nat} (lt : p < 16) (off lo : Nat) : pgKey p off lo = 32 * (0x601000 + off + 0x40 * p) + lo := by
  rw [pgKey, cell, if_pos lt]

theorem tsPgStatusState_key_ne_gen (p : Nat) : (Reg.tsPgStatusState p).key ≠ (Reg.tsPgStatusGen p).key := Fld.key_ne_of_lo rfl

theorem tsPgFired_key_ne_state (p : Fin 16) : (Reg.tsPgFiredFired p).key ≠ (Reg.tsPgStatusState p).key :=
  Fld.key_ne_of_cell p.isLt rfl rfl rfl

theorem tsPgFired_key_ne_gen (p : Nat) : (Reg.tsPgFiredFired p).key ≠ (Reg.tsPgStatusGen p).key := Fld.key_ne_of_lo rfl

theorem tsPgFired_key_ne_tapSat (p : Nat) : (Reg.tsPgFiredFired p).key ≠ (Reg.tsPgStatusTapSat p).key := Fld.key_ne_of_lo rfl

theorem tsPgCfgMode_key_ne_tapSat (p : Nat) : (Reg.tsPgCfgMode p).key ≠ (Reg.tsPgStatusTapSat p).key := Fld.key_ne_of_lo rfl

theorem tsPgCntCount_key_ne_tapSat (p : Nat) : (Reg.tsPgCntCount p).key ≠ (Reg.tsPgStatusTapSat p).key := Fld.key_ne_of_lo rfl

theorem tsPgWidthLo_key_ne_tapSat (p : Nat) : (Reg.tsPgWid0WidthLo p).key ≠ (Reg.tsPgStatusTapSat p).key := Fld.key_ne_of_lo rfl

theorem tsPgWidthHi_key_ne_tapSat (p : Nat) : (Reg.tsPgWid1WidthHi p).key ≠ (Reg.tsPgStatusTapSat p).key := Fld.key_ne_of_lo rfl

theorem tsPgStatusState_key_ne_cmdResult (p : Nat) : (Reg.tsPgStatusState p).key ≠ Reg.tsPgCmdStatusResult.key :=
  Fld.key_ne_of_lt_cell (by decide) rfl (by decide) (by decide)

theorem tsPgStatusGen_key_ne_cmdResult (p : Nat) : (Reg.tsPgStatusGen p).key ≠ Reg.tsPgCmdStatusResult.key := Fld.key_ne_of_lo rfl

/-! ## The state of a generator -/

@[simp] theorem State.pg_setPg (s : State) (p : Nat) (x : PgSt) : (s.setPg p x).pg p = x := Tab.get_set_same _ _ _ _

@[simp] theorem State.rd_setPg (s : State) (p : Nat) (x : PgSt) (f : Fld) : (s.setPg p x).rd f = s.rd f := rfl

@[simp] theorem State.pg_bump (s : State) (f : Fld) (p : Nat) : (s.bump f).pg p = s.pg p := rfl

/-- What the device holds of a generator stands beside its registers. -/
theorem State.wrs_setPg (s : State) (p : Nat) (x : PgSt) (l : List (Fld × Nat)) : (s.setPg p x).wrs l = (s.wrs l).setPg p x := by
  induction l generalizing s with
  | nil => rfl
  | cons e l ih => exact ih (s.wr e.1 e.2)

/-- A change of state other than to DONE writes STATE and GEN (R216). -/
theorem State.goPgState_writes (s : State) (p : Nat) {st : Nat} (not_done : (st == pgDone) = false) :
    ∃ gen, s.goPgState p st = s.wrs [(Reg.tsPgStatusState p, st), (Reg.tsPgStatusGen p, gen)] :=
  ⟨_, by rw [State.goPgState, not_done]; rfl⟩

/-- There is none to the state a generator is in. -/
theorem State.setPgState_writes (s : State) (p : Nat) {st : Nat} (not_done : (st == pgDone) = false) :
    ∃ l : List (Fld × Nat), (∀ e ∈ l, e.1 = Reg.tsPgStatusState p ∨ e.1 = Reg.tsPgStatusGen p) ∧
      s.setPgState p st = s.wrs l := by
  unfold State.setPgState
  split
  · exact ⟨[], by simp, rfl⟩
  · obtain ⟨gen, eq⟩ := s.goPgState_writes p not_done
    exact ⟨_, by simp, eq⟩

theorem State.pgState_setPgState (s : State) (p : Nat) {st : Nat} (not_done : (st == pgDone) = false) (fits : st < 8) :
    (s.setPgState p st).pgState p = st := by
  unfold State.setPgState
  split
  next same => exact same
  · obtain ⟨gen, eq⟩ := s.goPgState_writes p not_done
    rw [eq]
    exact (State.rd_wr_ne _ gen (tsPgStatusState_key_ne_gen p)).trans ((s.rd_wr _ st).trans (Nat.mod_eq_of_lt fits))

theorem State.rd_setPgState_ne (s : State) {p st : Nat} (not_done : (st == pgDone) = false) {f : Fld}
    (state : f.key ≠ (Reg.tsPgStatusState p).key) (gen : f.key ≠ (Reg.tsPgStatusGen p).key) : (s.setPgState p st).rd f = s.rd f := by
  obtain ⟨l, named, eq⟩ := s.setPgState_writes p not_done
  rw [eq]
  refine s.rd_wrs_ne l f fun e he => ?_
  rcases named e he with h | h
  · rwa [h]
  · rwa [h]

section
variable {m : List Fld} {s t : State} {p st : Nat} (not_done : (st == pgDone) = false) (state : Reg.tsPgStatusState p ∈ m)
  (gen : Reg.tsPgStatusGen p ∈ m)
include not_done state gen

theorem SameBut.setPgState (h : SameBut m s t) : SameBut m s (t.setPgState p st) := by
  obtain ⟨l, named, eq⟩ := t.setPgState_writes p not_done
  rw [eq]
  exact SameBut.wrs (fun e he => (named e he).elim (· ▸ state) (· ▸ gen)) h

theorem RegsBut.setPgState (h : RegsBut m s t) : RegsBut m s (t.setPgState p st) := fun f hf =>
  (t.rd_setPgState_ne not_done (Ne.symm (hf _ state)) (Ne.symm (hf _ gen))).trans (h f hf)

end

theorem State.setPgState_frame (s : State) (p : Nat) {st : Nat} (not_done : (st == pgDone) = false) :
    s.setPgState p st = { s with regs := (s.setPgState p st).regs } := by
  obtain ⟨l, -, eq⟩ := s.setPgState_writes p not_done
  rw [eq]
  exact s.wrs_frame l

theorem State.pg_setPgState (s : State) (p q : Nat) {st : Nat} (not_done : (st == pgDone) = false) :
    (s.setPgState p st).pg q = s.pg q := by
  rw [s.setPgState_frame p not_done]
  rfl

/-! ## The results of commands (Table TS-4) -/

theorem State.rd_pgResult (s : State) (p r : Nat) (fits : r < 8) : (s.pgResult p r).rd Reg.tsPgCmdStatusResult = r :=
  (State.rd_wr _ _ r).trans (Nat.mod_eq_of_lt fits)

theorem SameBut.pgResult {m : List Fld} {s t : State} (p r : Nat) (pg : Reg.tsPgCmdStatusPg ∈ m) (result : Reg.tsPgCmdStatusResult ∈ m)
    (h : SameBut m s t) : SameBut m s (t.pgResult p r) :=
  SameBut.wr r result (SameBut.wr p pg h)

/-- A command that is answered and no more. -/
theorem State.pgResult_answers (s : State) (p r : Nat) (fits : r < 8) : (s.pgResult p r).rd Reg.tsPgCmdStatusResult = r ∧
    SameBut [Reg.tsPgCmdStatusPg, Reg.tsPgCmdStatusResult] s (s.pgResult p r) :=
  ⟨s.rd_pgResult p r fits, SameBut.pgResult p r (by simp) (by simp) (SameBut.refl _ s)⟩

section
variable {p : Fin 16} {g : Fin 65536} {s : State}

/-- Another GEN is answered STALE before every other check. -/
theorem exec_pgCommand_stale (stale : g.val ≠ s.rd (Reg.tsPgStatusGen p)) {c : Instr}
    (h : c ∈ [Instr.pgArm p g, .pgDisarm p g, .pgCmdReserved p g]) : exec c s = .next (s.pgResult p 1) := by
  have check : s.pgCheck p g = 1 := if_pos stale
  rcases List.mem_cons.mp h with rfl | h
  · show execPgArm p g s = _
    simp [execPgArm, check]
  rcases List.mem_cons.mp h with rfl | h
  · show execPgDisarm p g s = _
    simp [execPgDisarm, check]
  · rw [List.mem_singleton.mp h]
    show execPgCmdReserved p g s = _
    simp [execPgCmdReserved, check]

theorem State.pgCheck_passes (gen : g.val = s.rd (Reg.tsPgStatusGen p)) (owned : s.on (Reg.tsPgCfgOwner p) = true) :
    s.pgCheck p g = 0 := by
  simp [State.pgCheck, gen, owned]

variable (check : s.pgCheck p g = 0)
include check

theorem exec_pgCmdReserved : exec (.pgCmdReserved p g) s = .next (s.pgResult p 4) := by
  show execPgCmdReserved p g s = _
  simp [execPgCmdReserved, check]

theorem exec_pgArm_busy (busy : s.pgState p = pgArmed ∨ s.pgState p = pgActive ∨ s.pgState p = pgHeld) :
    exec (.pgArm p g) s = .next (s.pgResult p 3) := by
  show execPgArm p g s = _
  simp [execPgArm, check, busy]

theorem exec_pgDisarm (low : (s.pg p).high = false) : exec (.pgDisarm p g) s = .next ((s.pgResult p 0).setPgState p pgOff) := by
  show execPgDisarm p g s = _
  simp [execPgDisarm, check, low]

end

/-! ## ARM of a generator whose base holds no valid time (R218) -/

/-- Each field of a generator that ARM copies, with the staging field it comes from. -/
def pgStaging (p : Nat) : List (Fld × Fld) :=
  [(Reg.tsPgCfgPol p, Reg.tsPgStgCfgPol), (Reg.tsPgCfgTb p, Reg.tsPgStgCfgTb), (Reg.tsPgCfgMode p, Reg.tsPgStgCfgMode),
   (Reg.tsPgStart0StartSecLo p, Reg.tsPgStgStartSecLoSec), (Reg.tsPgStart1StartSecHi p, Reg.tsPgStgStartSecHiSec),
   (Reg.tsPgStart2StartNs p, Reg.tsPgStgStartNsNs), (Reg.tsPgStart3StartFrac p, Reg.tsPgStgStartFracFrac),
   (Reg.tsPgPer0PeriodLo p, Reg.tsPgStgPeriodLoPeriod), (Reg.tsPgPer1PeriodHi p, Reg.tsPgStgPeriodHiPeriod),
   (Reg.tsPgWid0WidthLo p, Reg.tsPgStgWidthLoWidth), (Reg.tsPgWid1WidthHi p, Reg.tsPgStgWidthHiWidth),
   (Reg.tsPgCntCount p, Reg.tsPgStgCountCount)]

/-- What ARM writes as it takes over the staged values. -/
def State.pgStaged (s : State) (p : Nat) : List (Fld × Nat) :=
  (pgStaging p).map (fun x => (x.1, s.rd x.2)) ++ [(Reg.tsPgStatusLate p, 0), (Reg.tsPgFiredFired p, 0)]

/-- What ARM writes in all where the generator goes to HELD with `gen`. -/
def State.pgHeldWrites (s : State) (p gen : Nat) : List (Fld × Nat) :=
  s.pgStaged p ++ [(Reg.tsPgStatusState p, pgHeld), (Reg.tsPgStatusGen p, gen), (Reg.tsPgCmdStatusPg, p), (Reg.tsPgCmdStatusResult, 0)]

/-- The words and bits of a generator that take the staged values, LATE and FIRED with them. -/
def pgStagedPlaces : List (Nat × Nat) :=
  [(0, 8), (0, 4), (0, 0), (0x4, 0), (0x8, 0), (0xc, 0), (0x10, 0), (0x14, 0), (0x18, 0), (0x1c, 0), (0x20, 0), (0x24, 0), (0x2c, 7),
   (0x30, 0)]

theorem State.pgStaged_keys (s : State) (p : Nat) :
    ((s.pgStaged p).map fun e => e.1.key) = pgStagedPlaces.map fun (x : Nat × Nat) => pgKey p x.1 x.2 := rfl

theorem State.pgHeldWrites_keys (s : State) (p gen : Nat) : ((s.pgHeldWrites p gen).map fun e => e.1.key) =
    (pgStagedPlaces ++ [(0x2c, 0), (0x2c, 16)]).map (fun (x : Nat × Nat) => pgKey p x.1 x.2) ++
      [Reg.tsPgCmdStatusPg.key, Reg.tsPgCmdStatusResult.key] :=
  rfl

/-- The registers of a generator stand behind the block's own. -/
theorem pgKey_gt {p : Nat} (lt : p < 16) (off lo : Nat) {k : Nat} (h : k < 32 * 0x601000) : k < pgKey p off lo := by
  rw [pgKey_eq lt]
  omega

theorem State.pgHeldWrites_nodup (s : State) (p : Fin 16) (gen : Nat) : ((s.pgHeldWrites p gen).map fun e => e.1.key).Nodup := by
  have places : (pgStagedPlaces ++ [(0x2c, 0), (0x2c, 16)]).Pairwise fun (x y : Nat × Nat) =>
      32 * x.1 + x.2 ≠ 32 * y.1 + y.2 := by decide
  have answer : ∀ k ∈ [Reg.tsPgCmdStatusPg.key, Reg.tsPgCmdStatusResult.key], k < 32 * 0x601000 := by decide
  rw [State.pgHeldWrites_keys, List.nodup_append]
  refine ⟨places.map _ fun (x y : Nat × Nat) ne => ?_, by decide, fun a ha b hb => ?_⟩
  · rw [pgKey_eq p.isLt, pgKey_eq p.isLt]
    omega
  · obtain ⟨x, -, rfl⟩ := List.mem_map.mp ha
    exact Nat.ne_of_gt (pgKey_gt p.isLt x.1 x.2 (answer b hb))

theorem State.pgStaged_nodup (s : State) (p : Fin 16) : ((s.pgStaged p).map fun e => e.1.key).Nodup :=
  (s.pgHeldWrites_nodup p 0).sublist ((List.sublist_append_left _ _).map _)

theorem State.rd_pgStaged_tb (s : State) (p : Fin 16) : (s.wrs (s.pgStaged p)).rd (Reg.tsPgCfgTb p) = s.rd Reg.tsPgStgCfgTb % 8 :=
  s.rd_wrs_of_mem (s.pgStaged_nodup p) (.tail _ (.head _))

theorem State.pgState_pgStaged (s : State) (p : Fin 16) : (s.wrs (s.pgStaged p)).pgState p = s.pgState p := by
  have apart := (List.nodup_append.mp (List.map_append ▸ s.pgHeldWrites_nodup p 0)).2.2
  exact s.rd_wrs_ne _ _ fun e he => (apart _ (List.mem_map_of_mem he) _ List.mem_cons_self).symm

/-- The writes of ARM do not bear on what is VALID. -/
theorem State.tbValid_pgStaged (s : State) (p : Fin 16) (n : Nat) : (s.wrs (s.pgStaged p)).tbValid n = s.tbValid n := by
  refine State.tbValid_congr (s.rd_wrs_ne _ _ fun e he => ?_) (s.wrs_tbs _) n
  obtain ⟨x, -, key⟩ := List.mem_map.mp (s.pgStaged_keys p ▸ List.mem_map_of_mem (f := fun e : Fld × Nat => e.1.key) he)
  have below : Reg.tkStatusActive.key < e.1.key := key ▸ pgKey_gt p.isLt x.1 x.2 (by decide)
  exact Nat.ne_of_lt below

/-- A generator that enters while its base holds no valid time is held (Table TS-3). -/
theorem State.pgEnter_lost {s : State} {p : Nat} (lost : s.tbValid (s.rd (Reg.tsPgCfgTb p)) = false) :
    ∃ x, s.pgEnter p = (s.setPg p x).setPgState p pgHeld :=
  ⟨_, if_neg (ne_true_of_eq_false lost)⟩

/-- Going to HELD and the result OK are four writes. -/
theorem State.setPgState_held_answered {s : State} {p : Nat} (x : PgSt) (other : s.pgState p ≠ pgHeld) :
    ∃ gen, ((s.setPg p x).setPgState p pgHeld).pgResult p 0 = (s.wrs [(Reg.tsPgStatusState p, pgHeld), (Reg.tsPgStatusGen p, gen),
      (Reg.tsPgCmdStatusPg, p), (Reg.tsPgCmdStatusResult, 0)]).setPg p x := by
  obtain ⟨gen, eq⟩ := (s.setPg p x).goPgState_writes p (st := pgHeld) rfl
  have goes : (s.setPg p x).setPgState p pgHeld = (s.setPg p x).goPgState p pgHeld := if_neg other
  refine ⟨gen, ?_⟩
  rw [goes, eq, State.pgResult, ← State.wrs_append, State.wrs_setPg]
  rfl

/-- An accepted ARM whose base holds no valid time ends in HELD: one list of writes, beside what the device holds of the generator. -/
theorem exec_pgArm_held {p : Fin 16} {g : Fin 65536} {s : State} (check : s.pgCheck p g = 0)
    (idle : s.pgState p = pgOff ∨ s.pgState p = pgDone) (ok : s.stgOk = true) (base : s.rd Reg.tsPgStgCfgTb < 8)
    (invalid : s.tbValid (s.rd Reg.tsPgStgCfgTb) = false) :
    ∃ gen x, exec (.pgArm p g) s = .next ((s.wrs (s.pgHeldWrites p gen)).setPg p x) := by
  have free : ¬(s.pgState p = pgArmed ∨ s.pgState p = pgActive ∨ s.pgState p = pgHeld) := by
    rcases idle with h | h <;> rw [h] <;> decide
  have armed : exec (.pgArm p g) s = .next (((s.wrs (s.pgStaged p)).pgEnter p).pgResult p 0) := by
    show execPgArm p g s = _
    simp only [execPgArm, check, ok, free, if_false, ne_eq, not_true_eq_false, Bool.not_true, Bool.false_eq_true]
    rfl
  have state : (s.wrs (s.pgStaged p)).pgState p ≠ pgHeld := by
    rw [s.pgState_pgStaged p]
    exact fun h => free (.inr (.inr h))
  have lost : (s.wrs (s.pgStaged p)).tbValid ((s.wrs (s.pgStaged p)).rd (Reg.tsPgCfgTb p)) = false := by
    rw [s.rd_pgStaged_tb p, Nat.mod_eq_of_lt base, s.tbValid_pgStaged p, invalid]
  obtain ⟨x, enter⟩ := State.pgEnter_lost lost
  obtain ⟨gen, held⟩ := State.setPgState_held_answered x state
  exact ⟨gen, x, by rw [armed, enter, held, State.pgHeldWrites, State.wrs_append]⟩

theorem State.rd_pgHeldWrites (s : State) (p : Fin 16) (gen : Nat) (x : PgSt) {f : Fld} {v : Nat} (h : (f, v) ∈ s.pgHeldWrites p gen) :
    ((s.wrs (s.pgHeldWrites p gen)).setPg p x).rd f = v % 2 ^ f.width :=
  (State.rd_setPg _ p x f).trans (s.rd_wrs_of_mem (s.pgHeldWrites_nodup p gen) h)

/-- Each staged value is among the writes. -/
theorem State.mem_pgHeldWrites (s : State) (p gen : Nat) {x : Fld × Fld} (h : x ∈ pgStaging p) :
    (x.1, s.rd x.2) ∈ s.pgHeldWrites p gen :=
  List.mem_append_left _ (List.mem_append_left _ (List.mem_map_of_mem (f := fun x : Fld × Fld => (x.1, s.rd x.2)) h))

theorem State.wrs_setPg_frame (s : State) (l : List (Fld × Nat)) (p : Nat) (x : PgSt) :
    (s.wrs l).setPg p x = { s with regs := ((s.wrs l).setPg p x).regs, pul := ((s.wrs l).setPg p x).pul } := by
  have frame := s.wrs_frame l
  generalize s.wrs l = u at frame ⊢
  rw [frame]
  rfl

/-! ## Edges (R213 to R215) -/

/-- An edge placed `rem` into its cycle leaves the output, and a limit of the taps is reported (R214). -/
def State.pgPlaced (s : State) (p : Nat) (rem : Int) (rising : Bool) : State :=
  let taps := pgTaps rem (s.cal (0x158 + p)) (s.cal (0x184 + p))
  (s.send (.pulse p taps.1 taps.2.1 rising)).when taps.2.2 fun s => (s.wr (Reg.tsPgStatusTapSat p) 1).report 0x58 (0x158 + p)

theorem State.pgPlaced_out (s : State) (p : Nat) (rem : Int) (rising : Bool) :
    ∃ c f, (s.pgPlaced p rem rising).out = (s.send (.pulse p c f rising)).out :=
  ⟨_, _, State.when_same State.out _ rfl⟩

theorem State.rd_pgPlaced (s : State) (p : Nat) (rem : Int) (rising : Bool) {f : Fld} (h : f.key ≠ (Reg.tsPgStatusTapSat p).key) :
    (s.pgPlaced p rem rising).rd f = s.rd f :=
  State.when_same (State.rd · f) _ (State.rd_wr_ne _ 1 h)

theorem RegsBut.pgPlaced {m : List Fld} (s : State) {p : Nat} (rem : Int) (rising : Bool) (h : Reg.tsPgStatusTapSat p ∈ m) :
    RegsBut m s (s.pgPlaced p rem rising) :=
  fun _ other => s.rd_pgPlaced p rem rising (other _ h).symm

/-- MODE and COUNT decide which pulse is the last (R212). -/
theorem State.pgBeyond_pgPlaced (s : State) (p k : Nat) (rem : Int) (rising : Bool) :
    (s.pgPlaced p rem rising).pgBeyond p k = s.pgBeyond p k := by
  simp only [State.pgBeyond, State.pgPulses, s.rd_pgPlaced p rem rising (tsPgCfgMode_key_ne_tapSat p),
    s.rd_pgPlaced p rem rising (tsPgCntCount_key_ne_tapSat p)]

theorem State.pgWidth_pgPlaced (s : State) (p : Nat) (rem : Int) (rising : Bool) : (s.pgPlaced p rem rising).pgWidth p = s.pgWidth p := by
  simp only [State.pgWidth, s.rd_pgPlaced p rem rising (tsPgWidthLo_key_ne_tapSat p),
    s.rd_pgPlaced p rem rising (tsPgWidthHi_key_ne_tapSat p)]

/-- The time of the next rising edge of generator `p`. -/
def State.pgRise (s : State) (p : Nat) : Nat := (s.pgStart p + (s.pg p).k * s.pgPeriod p) % s.tbRange (s.rd (Reg.tsPgCfgTb p))

/-- The time of the falling edge of the pulse in progress. -/
def State.pgFall (s : State) (p : Nat) : Nat := ((s.pg p).rise + (s.pg p).width) % s.tbRange (s.rd (Reg.tsPgCfgTb p))

/-- An edge due at `edge` falls in the present cycle of the generator's base. -/
def State.PgDue (s : State) (p edge : Nat) : Prop := 0 ≤ s.pgLead p edge ∧ s.pgLead p edge < s.cycleLen (s.rd (Reg.tsPgCfgTb p))

/-- What is held of a generator whose rising edge is out. -/
def State.pgRaised (s : State) (p : Nat) : PgSt :=
  { k := (s.pg p).k + 1, high := true, rise := s.pgRise p, width := s.pgWidth p, rem := s.pgLead p (s.pgRise p) }

theorem State.PgDue.inCycle {s : State} {p edge : Nat} (due : s.PgDue p edge) :
    ¬(s.pgLead p edge < 0 ∨ s.cycleLen (s.rd (Reg.tsPgCfgTb p)) ≤ s.pgLead p edge) := by
  obtain ⟨after, before⟩ := due
  omega

section
variable {p : Fin 16} {s : State} (moves : s.frozen = false) (on : s.pdOn 10 = true)
include moves on

/-- The rising edge of an armed generator leaves, counts in FIRED and takes it to ACTIVE. -/
theorem exec_pgEdge_rises (low : (s.pg p).high = false) (armed : s.pgState p = pgArmed) (due : s.PgDue p (s.pgRise p)) :
    exec (.pgEdge p true) s = .next ((((s.pgPlaced p (s.pgLead p (s.pgRise p)) true).setPg p (s.pgRaised p)).bump
      (Reg.tsPgFiredFired p)).setPgState p pgActive) := by
  have gate : bit s.pwr.gates 10 = true := on
  have inCycle := due.inCycle
  unfold State.pgRise at inCycle
  have width := s.pgWidth_pgPlaced p (s.pgLead p (s.pgRise p)) true
  show execPgEdge p true s = _
  simp only [execPgEdge, moves, low, armed, gate, inCycle, State.when_true, Bool.false_and, Bool.false_eq_true, Bool.not_false,
    ne_eq, not_true_eq_false, false_and, and_false, or_self, if_false, if_true]
  rw [State.pgRaised, ← width]
  rfl

/-- The falling edge of a generator that goes on in ACTIVE ends its pulse. -/
theorem exec_pgEdge_falls (high : (s.pg p).high = true) (tight : (s.pg p).loose = false) (active : s.pgState p = pgActive)
    (stays : (s.pg p).disarm = false) (more : s.pgBeyond p (s.pg p).k = false) (due : s.PgDue p (s.pgFall p)) :
    exec (.pgEdge p false) s = .next ((s.pgPlaced p (s.pgLead p (s.pgFall p)) false).setPg p { k := (s.pg p).k }) := by
  have gate : bit s.pwr.gates 10 = true := on
  have inCycle := due.inCycle
  unfold State.pgFall at inCycle
  have goesOn : (s.pgPlaced p (s.pgLead p (s.pgFall p)) false).pgBeyond p (s.pg p).k = false :=
    (s.pgBeyond_pgPlaced p _ _ false).trans more
  show execPgEdge p false s = _
  simp only [execPgEdge, moves, high, tight, active, gate, inCycle, stays, State.when_true, Bool.and_false, Bool.false_eq_true,
    Bool.true_eq_false, Bool.not_true, false_and, and_false, or_self, if_false, if_true]
  exact if_neg fun h => ne_true_of_eq_false goesOn h.2

end

/-- Settles O27: each command by the check of Table TS-4 that answers it, ARM through the one list of writes it comes to in HELD, and the
edges by what the placer puts out and what the generator moves on to. -/
theorem pulseGenerators : Obligations.PulseGenerators := by
  unfold Obligations.PulseGenerators
  refine ⟨fun p s => ⟨_, rfl, s.pgResult_answers p 0 (by decide)⟩,
    fun p g s stale c command => ⟨_, exec_pgCommand_stale stale command, s.pgResult_answers p 1 (by decide)⟩,
    fun p g s gen owned => ?_, fun p s moves on low armed => ?_, fun p s moves on high tight active stays more => ?_⟩
  · have check := State.pgCheck_passes gen owned
    refine ⟨⟨_, exec_pgCmdReserved check, s.pgResult_answers p 4 (by decide)⟩,
      fun busy => ⟨_, exec_pgArm_busy check busy, s.pgResult_answers p 3 (by decide)⟩, fun idle ok base invalid => ?_, fun low => ?_⟩
    · obtain ⟨g', x, run⟩ := exec_pgArm_held check idle ok base invalid
      refine ⟨_, run, s.rd_pgHeldWrites p g' x (f := Reg.tsPgCmdStatusResult) (v := 0) ?_,
        s.rd_pgHeldWrites p g' x (f := Reg.tsPgStatusState p) (v := pgHeld) ?_,
        s.rd_pgHeldWrites p g' x (f := Reg.tsPgFiredFired p) (v := 0) ?_,
        fun f staged => s.rd_pgHeldWrites p g' x (s.mem_pgHeldWrites p g' staged), s.wrs_setPg_frame _ p x⟩
      · exact List.mem_append_right _ (.tail _ (.tail _ (.tail _ (.head _))))
      · exact List.mem_append_right _ (.head _)
      · exact List.mem_append_left _ (List.mem_append_right _ (.tail _ (.head _)))
    · refine ⟨_, exec_pgDisarm check low, ?_, State.pgState_setPgState _ p rfl (by decide), ?_⟩
      · exact (State.rd_setPgState_ne _ rfl (tsPgStatusState_key_ne_cmdResult p).symm (tsPgStatusGen_key_ne_cmdResult p).symm).trans
          (s.rd_pgResult p 0 (by decide))
      · exact SameBut.setPgState rfl (by simp) (by simp) (SameBut.pgResult p 0 (by simp) (by simp) (SameBut.refl _ s))
  · intro n lead due within
    refine ⟨_, exec_pgEdge_rises moves on low armed ⟨due, within⟩, ?_, State.pgState_setPgState _ p rfl (by decide), ?_, ?_, ?_⟩
    · obtain ⟨c, f, out⟩ := s.pgPlaced_out p lead true
      exact ⟨c, f, (congrArg State.out (State.setPgState_frame _ p rfl)).trans out⟩
    · rw [State.pg_setPgState _ p p rfl, State.pg_bump, State.pg_setPg]
      rfl
    · exact (State.rd_setPgState_ne _ rfl (tsPgFired_key_ne_state p) (tsPgFired_key_ne_gen p)).trans ((State.rd_bump _ _).trans
        (congrArg (satAdd _ · 1) (s.rd_pgPlaced p lead true (tsPgFired_key_ne_tapSat p))))
    · exact RegsBut.setPgState rfl (by simp) (by simp) (RegsBut.wr _ (by simp) (RegsBut.pgPlaced s lead true (by simp)))
  · intro n lead due within
    obtain ⟨c, f, out⟩ := s.pgPlaced_out p lead false
    exact ⟨_, exec_pgEdge_falls moves on high tight active stays more ⟨due, within⟩, ⟨c, f, out⟩, State.pg_setPg _ p _,
      RegsBut.pgPlaced s lead false (by simp)⟩

end Sys2Proof.Machine
end

section
/-! The edge captures and the stamp queues (R210, R220, R221, R224, R392, R394). -/
namespace Sys2Proof.Machine

/-! ## Fields -/

theorem tsCapStatusCount_inTs (c : Fin 16) : (Reg.tsCapStatusCount c).inTs :=
  Fld.inTs_of_cell (f := Reg.tsCapStatusCount c) c.isLt rfl (by decide) (by decide) (show 0 < 32 by decide)

theorem tsCapStatusCount_key_ne_capNe (c : Nat) : (Reg.tsCapStatusCount c).key ≠ Reg.tsStatusCapNe.key :=
  Fld.key_ne_of_lt_cell (by decide) rfl (by decide) (by decide)

theorem tsCapCfgEdge_key_ne_capNe (c : Nat) : (Reg.tsCapCfgEdge c).key ≠ Reg.tsStatusCapNe.key :=
  Fld.key_ne_of_lt_cell (by decide) rfl (by decide) (by decide)

theorem tsCapCfgEdge_key_ne_count (c : Fin 16) : (Reg.tsCapCfgEdge c).key ≠ (Reg.tsCapStatusCount c).key :=
  Fld.key_ne_of_cell c.isLt rfl rfl rfl

theorem tsCapCfgGate_key_ne_capNe (c : Nat) : (Reg.tsCapCfgGate c).key ≠ Reg.tsStatusCapNe.key := Fld.key_ne_of_lo rfl

theorem tsCapCfgGate_key_ne_count (c : Nat) : (Reg.tsCapCfgGate c).key ≠ (Reg.tsCapStatusCount c).key := Fld.key_ne_of_lo rfl

theorem tsCapCfgTb_key_ne_capNe (c : Nat) : (Reg.tsCapCfgTb c).key ≠ Reg.tsStatusCapNe.key := Fld.key_ne_of_lo rfl

theorem tsCapCfgTb_key_ne_count (c : Nat) : (Reg.tsCapCfgTb c).key ≠ (Reg.tsCapStatusCount c).key := Fld.key_ne_of_lo rfl

theorem tsCapStatusDropped_key_ne_capNe (c : Nat) : (Reg.tsCapStatusDropped c).key ≠ Reg.tsStatusCapNe.key := Fld.key_ne_of_lo rfl

theorem tsCapStatusDropped_key_ne_count (c : Nat) : (Reg.tsCapStatusDropped c).key ≠ (Reg.tsCapStatusCount c).key :=
  Fld.key_ne_of_lo rfl

theorem tsCapStatusDropped_key_ne_capOvf (c : Nat) : (Reg.tsCapStatusDropped c).key ≠ Reg.tsStatusCapOvf.key :=
  Fld.key_ne_of_lt_cell (by decide) rfl (by decide) (by decide)

theorem tsCapStatusOvf_key_ne_dropped (c : Nat) : (Reg.tsCapStatusOvf c).key ≠ (Reg.tsCapStatusDropped c).key := Fld.key_ne_of_lo rfl

theorem tsCapStatusOvf_key_ne_capOvf (c : Nat) : (Reg.tsCapStatusOvf c).key ≠ Reg.tsStatusCapOvf.key := Fld.key_ne_of_lo rfl

/-! ## Capture queues -/

/-- Setting a queue writes its COUNT and its bit of CAP_NE. -/
theorem RegsBut.setCapq (s : State) (c : Nat) (l : List CapEnt) :
    RegsBut [Reg.tsCapStatusCount c, Reg.tsStatusCapNe] s (s.setCapq c l) :=
  RegsBut.wr _ (by simp) (RegsBut.wr _ (by simp) (RegsBut.refl _ s))

theorem State.capq_setCapq (s : State) (c m : Nat) (l : List CapEnt) : (s.setCapq c l).capq m = if m = c then l else s.capq m :=
  Tab.get_set _ _ _ _ _

theorem State.rd_setCapq_count (s : State) (c : Nat) (l : List CapEnt) :
    (s.setCapq c l).rd (Reg.tsCapStatusCount c) = l.length % 2 ^ (Reg.tsCapStatusCount c).width :=
  (State.rd_wr_ne _ _ (tsCapStatusCount_key_ne_capNe c)).trans (State.rd_wr _ _ _)

@[simp] theorem State.capq_intr (s : State) (v m : Nat) : (s.intr v).capq m = s.capq m := by
  rw [State.capq, State.intr_pul, State.capq]

theorem State.capq_when_intr (s : State) (b : Bool) (v m : Nat) : (s.when b fun s => s.intr v).capq m = s.capq m :=
  State.when_same (f := fun s => s.intr v) (State.capq · m) b (s.capq_intr v m)

theorem State.rd_when_intr (s : State) (b : Bool) (v : Nat) {f : Fld} (h : f.key ≠ Reg.hifIntStatusStatus.key) :
    (s.when b fun s => s.intr v).rd f = s.rd f :=
  State.when_same (f := fun s => s.intr v) (State.rd · f) b (s.rd_intr v h)

theorem State.capPop_nil {s : State} {c : Nat} (empty : s.capq c = []) : s.capPop c = s := by
  rw [State.capPop, empty]

theorem State.capPop_cons {s : State} {c : Nat} {e : CapEnt} {l : List CapEnt} (queue : s.capq c = e :: l) :
    s.capPop c = s.setCapq c l := by
  rw [State.capPop, queue]

/-- A POP takes the oldest entry where there is one. -/
theorem State.capq_capPop (s : State) (c : Nat) : (s.capPop c).capq c = (s.capq c).tail := by
  cases queue : s.capq c with
  | nil => rw [State.capPop_nil queue, queue]; rfl
  | cons e l => rw [State.capPop_cons queue, State.capq_setCapq, if_pos rfl]; rfl

theorem RegsBut.capPop (s : State) (c : Nat) : RegsBut [Reg.tsCapStatusCount c, Reg.tsStatusCapNe] s (s.capPop c) := by
  cases queue : s.capq c with
  | nil => rw [State.capPop_nil queue]; exact RegsBut.refl _ s
  | cons e l => rw [State.capPop_cons queue]; exact RegsBut.setCapq s c l

theorem State.rd_capPop (s : State) {c : Nat} {f : Fld} (count : f.key ≠ (Reg.tsCapStatusCount c).key)
    (ne : f.key ≠ Reg.tsStatusCapNe.key) : (s.capPop c).rd f = s.rd f := by
  refine RegsBut.capPop s c f fun g hg => ?_
  rcases List.mem_cons.mp hg with rfl | hg
  · exact count.symm
  · rw [List.mem_singleton.mp hg]
    exact ne.symm

/-- What a POP may change: registers of TS and the queue. -/
theorem State.capPop_keeps_self (s : State) (c : Nat) : Keeps (maskOf [.regTs, .pul]) s (s.capPop c) :=
  State.capPop_keeps (Sub.refl _) c (Keeps.refl _ s)

theorem State.tbValid_capPop (s : State) (c n : Nat) : (s.capPop c).tbValid n = s.tbValid n :=
  State.tbValid_congr ((s.capPop_keeps_self c).inn.regs _ _ rfl) ((s.capPop_keeps_self c).inn.tbs rfl) n

theorem State.last_capPop (s : State) (c : Nat) : (s.capPop c).pul.last = s.pul.last := by
  cases queue : s.capq c with
  | nil => rw [State.capPop_nil queue]
  | cons e l => rw [State.capPop_cons queue]; rfl

/-- An entry joins a queue that has room. -/
theorem State.capPush_room {s : State} {c : Fin 16} (e : CapEnt) (room : (s.capq c).length < 16) :
    (s.capPush c e).capq c = s.capq c ++ [e] ∧
      (s.capPush c e).rd (Reg.tsCapStatusCount c) = ((s.capq c).length + 1) % 2 ^ (Reg.tsCapStatusCount c).width := by
  have joins : s.capPush c e = (s.setCapq c (s.capq c ++ [e])).when (s.capq c == []) fun s => s.intr 12 := if_neg (Nat.not_le.mpr room)
  rw [joins]
  constructor
  · rw [State.capq_when_intr, State.capq_setCapq, if_pos rfl]
  · rw [State.rd_when_intr _ _ 12 (tsCapStatusCount_inTs c).ne_intStatus, State.rd_setCapq_count, List.length_append]
    rfl

/-- A full queue drops it and counts (R221). -/
theorem State.capPush_full {s : State} {c : Nat} (e : CapEnt) (full : 16 ≤ (s.capq c).length) :
    s.capPush c e = ((s.wr (Reg.tsCapStatusOvf c) 1).wrBit Reg.tsStatusCapOvf c true).bump (Reg.tsCapStatusDropped c) :=
  if_pos full

/-! ## Edges (R220, R221) -/

/-- An edge on input `c` is stamped: the input takes both edges and is not gated, PD10 runs, and no edge came before. -/
structure State.CapReady (s : State) (c : Nat) : Prop where
  both : s.rd (Reg.tsCapCfgEdge c) = 3
  ungated : s.on (Reg.tsCapCfgGate c) = false
  on : s.pdOn 10 = true
  first : Tab.get s.pul.last c none = none

/-- The sampler time of an edge at taps `k` and `f`, 2^-16 ns / 100 000. -/
def State.capRaw (s : State) (c k f : Nat) : Int :=
  100000 * ((s.atb (s.rd (Reg.tsCapCfgTb c))).t + k * s.cal (0x168 + c) + f * s.cal (0x194 + c))

/-- Its stamp, less the input's delays. -/
def State.capTime (s : State) (c k f : Nat) : Nat :=
  ((roundDiv (s.capRaw c k f - 100000 * s.cal (0x130 + c) - centiPs (s.rdS (Reg.tsCapExtExtDelay c))) 100000)
    % (s.tbRange (s.rd (Reg.tsCapCfgTb c)) : Int)).toNat

/-- The dead time runs from the edge. -/
def State.capMarked (s : State) (c k f : Nat) : State :=
  { s with pul := { s.pul with last := Tab.set s.pul.last c (some (s.capRaw c k f).toNat) none } }

/-- The entry of an edge. -/
def State.capEntry (s : State) (c k f : Nat) (r : Bool) : CapEnt :=
  let window := (s.capMarked c k f).capWindow c (s.capTime c k f)
  { tb := s.rd (Reg.tsCapCfgTb c), t := s.capTime c k f, valid := s.tbValid (s.rd (Reg.tsCapCfgTb c)), window := window.1,
    inHigh := window.2, rising := r }

/-- A POP in the same K9 cycle takes effect before the edge. -/
theorem exec_evtInEdge_pop (c : Fin 16) (r pop : Bool) (k : Fin 64) (f : Fin 32) (s : State) :
    exec (.evtInEdge c r pop k f) s = exec (.evtInEdge c r false k f) (s.when pop fun s => s.capPop c) := rfl

theorem exec_evtInEdge_off {c : Fin 16} (r : Bool) (k : Fin 64) (f : Fin 32) {s : State} (off : s.rd (Reg.tsCapCfgEdge c) = 0) :
    exec (.evtInEdge c r false k f) s = .next s :=
  if_pos (.inl off)

section
variable {s : State} {c : Fin 16} (ready : s.CapReady c)
include ready

theorem exec_evtInEdge_stamped (r : Bool) (k : Fin 64) (f : Fin 32) :
    exec (.evtInEdge c r false k f) s = .next ((s.capMarked c k f).capPush c (s.capEntry c k f r)) := by
  have gate : bit s.pwr.gates 10 = true := ready.on
  have ungated : (s.capMarked c k f).on (Reg.tsCapCfgGate c) = false := ready.ungated
  show execEvtInEdge c r false k f s = _
  simp only [execEvtInEdge, State.when_false, ready.both, ready.first, gate]
  refine (if_neg (by simp)).trans ((if_neg Bool.false_ne_true).trans (if_neg fun gated => ?_))
  exact ne_true_of_eq_false ungated (Bool.and_eq_true_iff.mp gated).1

/-- A POP leaves the input ready. -/
theorem State.CapReady.capPop : (s.capPop c).CapReady c := by
  obtain ⟨both, ungated, on, first⟩ := ready
  exact
    { both := (s.rd_capPop (tsCapCfgEdge_key_ne_count c) (tsCapCfgEdge_key_ne_capNe c)).trans both
      ungated := (State.on_congr (s.rd_capPop (tsCapCfgGate_key_ne_count c) (tsCapCfgGate_key_ne_capNe c))).trans ungated
      on := (congrArg (fun x : Pwr => bit x.gates 10) ((s.capPop_keeps_self c).inn.pwr rfl)).trans on
      first := (congrArg (Tab.get · c none) (s.last_capPop c)).trans first }

theorem runs_evtInEdge_room (r : Bool) (k : Fin 64) (f : Fin 32) (room : (s.capq c).length < 16) :
    Runs (.evtInEdge c r false k f) s fun t => ∃ e : CapEnt, t.capq c = s.capq c ++ [e] ∧ e.rising = r ∧
      e.tb = s.rd (Reg.tsCapCfgTb c) ∧ e.valid = s.tbValid e.tb ∧
      t.rd (Reg.tsCapStatusCount c) = ((s.capq c).length + 1) % 2 ^ (Reg.tsCapStatusCount c).width := by
  obtain ⟨joined, count⟩ := State.capPush_room (s := s.capMarked c k f) (s.capEntry c k f r) room
  exact ⟨_, exec_evtInEdge_stamped ready r k f, _, joined, rfl, rfl, rfl, count⟩

theorem runs_evtInEdge_full (r : Bool) (k : Fin 64) (f : Fin 32) (full : 16 ≤ (s.capq c).length) :
    Runs (.evtInEdge c r false k f) s fun t => t.capq c = s.capq c ∧ t.rd (Reg.tsCapStatusOvf c) = 1 ∧
      t.rd (Reg.tsCapStatusDropped c) = satAdd (Reg.tsCapStatusDropped c).width (s.rd (Reg.tsCapStatusDropped c)) 1 := by
  have run := exec_evtInEdge_stamped ready r k f
  rw [State.capPush_full (s := s.capMarked c k f) _ full] at run
  refine ⟨_, run, rfl, ?_, ?_⟩
  · rw [State.bump, State.bumpBy, State.rd_wr_ne _ _ (tsCapStatusOvf_key_ne_dropped c), State.wrBit,
      State.rd_wr_ne _ _ (tsCapStatusOvf_key_ne_capOvf c), State.rd_wr]
    rfl
  · rw [State.rd_bump, State.wrBit, State.rd_wr_ne _ _ (tsCapStatusDropped_key_ne_capOvf c),
      State.rd_wr_ne _ _ (tsCapStatusOvf_key_ne_dropped c).symm]
    rfl

end

/-! ## Transmit queues -/

theorem RegsBut.setTxq (s : State) (n : Nat) (l : List TxEnt) :
    RegsBut [Reg.tsTxqStatusCount n, Reg.tsTxqNeNe (n / 32)] s (s.setTxq n l) :=
  RegsBut.wr _ (by simp) (RegsBut.wr _ (by simp) (RegsBut.refl _ s))

theorem State.txq_setTxq (s : State) (n m : Nat) (l : List TxEnt) : (s.setTxq n l).txq m = if m = n then l else s.txq m :=
  Tab.get_set _ _ _ _ _

theorem exec_txqPop_nil {n : Fin 128} {s : State} (empty : s.txq n = []) : exec (.txqPop n) s = .next s := by
  show execTxqPop n s = _
  rw [execTxqPop, empty]

theorem exec_txqPop_cons {n : Fin 128} {s : State} {e : TxEnt} {l : List TxEnt} (queue : s.txq n = e :: l) :
    exec (.txqPop n) s = .next (s.setTxq n l) := by
  show execTxqPop n s = _
  rw [execTxqPop, queue]

/-! ## Reads of the entries (R392, R394) -/

/-- An access that reaches its block is answered. -/
theorem State.answer_of_reached {s : State} {p a : Nat} (r : Nat × State) (reached : s.reached p a = true) :
    s.answer p r = r.2.send (.readData [BitVec.ofNat 32 r.1]) := by
  refine if_neg fun ⟨host, shut⟩ => ?_
  simp [State.reached, host, shut] at reached

theorem State.gatedRead_of_on {s : State} {p a d : Nat} (f : State → Nat × State) (reached : s.reached p a = true)
    (on : s.pdOn d = true) : s.gatedRead p a d f = f s := by
  simp [State.gatedRead, reached, on]

theorem State.gatedRead_of_off {s : State} {p a d : Nat} (f : State → Nat × State) (reached : s.reached p a = true)
    (off : s.pdOn d = false) : s.gatedRead p a d f = (0, s.accReport p 0 a accNoDomain) := by
  simp [State.gatedRead, reached, off]

/-- The first word of an entry goes out, and the rest is latched. -/
theorem State.answer_readLatch {s : State} {p a d : Nat} (w : State → List (Fld × Nat) × List (Fld × Nat))
    (reached : s.reached p a = true) (on : s.pdOn d = true) : ∃ t, s.answer p (s.gatedRead p a d fun s => s.readLatch p (w s)) = t ∧
      t.out = (s.send (.readData [BitVec.ofNat 32 (wordFrom (w s).1)])).out ∧ t = { s with out := t.out, hif := t.hif } := by
  rw [State.gatedRead_of_on _ reached on, State.answer_of_reached _ reached, State.readLatch, s.latch_frame p (w s).2]
  exact ⟨_, rfl, rfl, rfl⟩

/-- The first access reported since the last clear is latched, and its interrupt raised (R393). -/
theorem State.accReport_first {s : State} {p : Nat} (bar2 a type : Nat) (host : p < 2) (clear : s.on Reg.hifAccErrValid = false) :
    s.accReport p bar2 a type = ((s.bump Reg.hifAccErrCount).wrs [(Reg.hifAccErrValid, 1), (Reg.hifAccErrPath, p),
      (Reg.hifAccErrType, type), (Reg.hifAccAddrBar2, bar2), (Reg.hifAccAddrAddr, a)]).intr 18 := by
  have still : (s.bump Reg.hifAccErrCount).on Reg.hifAccErrValid = false :=
    (State.on_congr (s.rd_wr_ne _ (by decide))).trans clear
  unfold State.accReport
  rw [if_neg (Nat.not_le.mpr host)]
  exact if_neg (ne_true_of_eq_false still)

section
variable {s : State} {p : Nat} (bar2 a type : Nat) (host : p < 2) (clear : s.on Reg.hifAccErrValid = false)
include host clear

theorem State.rd_accReport_first {f : Fld} {v : Nat} (h : (f, v) ∈ [(Reg.hifAccErrValid, 1), (Reg.hifAccErrPath, p),
      (Reg.hifAccErrType, type), (Reg.hifAccAddrBar2, bar2), (Reg.hifAccAddrAddr, a)]) (other : f.key ≠ Reg.hifIntStatusStatus.key) :
    (s.accReport p bar2 a type).rd f = v % 2 ^ f.width := by
  rw [State.accReport_first bar2 a type host clear, State.rd_intr _ _ other]
  refine State.rd_wrs_of_mem _ ?_ h
  show [Reg.hifAccErrValid.key, Reg.hifAccErrPath.key, Reg.hifAccErrType.key, Reg.hifAccAddrBar2.key, Reg.hifAccAddrAddr.key].Nodup
  decide

theorem State.accReport_first_pul : (s.accReport p bar2 a type).pul = s.pul := by
  rw [State.accReport_first bar2 a type host clear, State.intr_pul, State.wrs_frame]
  rfl

theorem State.accReport_first_pins : (s.accReport p bar2 a type).pins = s.pins := by
  rw [State.accReport_first bar2 a type host clear, State.intr_pins, State.wrs_frame]
  rfl

end

/-- What goes out stands first among the outputs while the supply is in range. -/
theorem State.send_head {s : State} (o : Out) (inRange : s.pins.inRange = true) : (s.send o).out.head? = some o := by
  rw [State.send, inRange]
  rfl

theorem exec_queueEntryRead_cap {n : Fin 128} (p : Fin 3) (s : State) (some_queue : n.val < 16) :
    exec (.queueEntryRead true n p) s =
      .next (s.answer p (s.gatedRead p (Reg.tsCapEntry0Tb n).addr 10 fun s => s.readLatch p (s.capWords n))) := by
  have word : (Reg.tsCapEntry0Tb n).addr = 0x60200C + 0x40 * n.val := if_pos some_queue
  rw [word]
  exact if_pos some_queue

theorem exec_queueEntryRead_txq (n : Fin 128) (p : Fin 3) (s : State) :
    exec (.queueEntryRead false n p) s =
      .next (s.answer p (s.gatedRead p (Reg.tsTxqEntry0Tb n).addr (5 + n.val / 32) fun s => s.readLatch p (s.txqWords n))) := by
  have word : (Reg.tsTxqEntry0Tb n).addr = 0x610004 + 0x20 * n.val := if_pos n.isLt
  rw [word]
  rfl

/-- Settles O28: an edge by the room in its queue once a POP has acted, a POP by what the queue holds, and a read by whether the domain
of its queue is on. -/
theorem capturesAndQueues : Obligations.CapturesAndQueues := by
  unfold Obligations.CapturesAndQueues
  refine ⟨fun c r pop k f s both ungated on first => ?_, fun c r k f s off => ⟨exec_evtInEdge_off r k f off, ?_⟩,
    fun n e l s queue => ?_, fun n e l s queue => ?_, fun n s empty => exec_txqPop_nil empty,
    fun n s empty => congrArg Host.Outcome.next (State.capPop_nil empty), fun n p s => ⟨fun some_queue reached on => ?_,
    fun reached on => ?_, fun host clear reached off => ?_⟩⟩
  · have ready : s.CapReady c := ⟨both, ungated, on, first⟩
    intro q
    cases pop
    case false => exact ⟨runs_evtInEdge_room ready r k f, runs_evtInEdge_full ready r k f⟩
    case true =>
      have room := runs_evtInEdge_room ready.capPop r k f
      have full := runs_evtInEdge_full ready.capPop r k f
      rw [s.capq_capPop] at room full
      simp only [State.tbValid_capPop, s.rd_capPop (tsCapCfgTb_key_ne_count c) (tsCapCfgTb_key_ne_capNe c)] at room
      rw [s.rd_capPop (tsCapStatusDropped_key_ne_count c) (tsCapStatusDropped_key_ne_capNe c)] at full
      exact ⟨room, full⟩
  · rw [exec_evtInEdge_pop]
    exact exec_evtInEdge_off r k f ((s.rd_capPop (tsCapCfgEdge_key_ne_count c) (tsCapCfgEdge_key_ne_capNe c)).trans off)
  · exact ⟨_, exec_txqPop_cons queue, (s.txq_setTxq n n l).trans (if_pos rfl), fun m other => (s.txq_setTxq n m l).trans (if_neg other),
      RegsBut.setTxq s n l⟩
  · exact ⟨_, congrArg Host.Outcome.next (State.capPop_cons queue), (s.capq_setCapq n n l).trans (if_pos rfl),
      fun m other => (s.capq_setCapq n m l).trans (if_neg other), RegsBut.setCapq s n l⟩
  · obtain ⟨t, read, out, frame⟩ := State.answer_readLatch (d := 10) (fun s => s.capWords n) reached on
    exact ⟨t, (exec_queueEntryRead_cap p s some_queue).trans (congrArg Host.Outcome.next read), out, frame⟩
  · obtain ⟨t, read, out, frame⟩ := State.answer_readLatch (d := 5 + n.val / 32) (fun s => s.txqWords n) reached on
    exact ⟨t, (exec_queueEntryRead_txq n p s).trans (congrArg Host.Outcome.next read), out, frame⟩
  · have run := exec_queueEntryRead_txq n p s
    rw [State.gatedRead_of_off _ reached off, State.answer_of_reached _ reached] at run
    refine ⟨_, run, ?_, ?_, ?_, fun inRange => ?_⟩
    · exact congrArg (fun x : Pul => Tab.get x.txq n.val []) (State.accReport_first_pul 0 _ _ host clear)
    · exact State.rd_accReport_first 0 _ _ host clear (f := Reg.hifAccErrType) (.tail _ (.tail _ (.head _))) (by decide)
    · exact State.rd_accReport_first 0 _ _ host clear (f := Reg.hifAccErrValid) (.head _) (by decide)
    · exact State.send_head _ ((congrArg Pins.inRange (State.accReport_first_pins 0 _ _ host clear)).trans inRange)

end Sys2Proof.Machine
end

section
/-! The runs of the calibration (R228, R229, R232, R235 to R239, R243): what the start of a run, its return to IDLE and a commit write,
the checks of CAL.CMD, and one step of the tap walk. -/
namespace Sys2Proof.Machine

/-! ## Folds -/

/-- A fold over distinct elements reaches what its step at `x` brings about, where the steps before keep what that step needs and the
steps after keep what it has reached. -/
theorem foldl_reaches {σ α : Type} {g : σ → α → σ} {l : List α} {x : α} {s : σ} {before after : σ → Prop} (nd : l.Nodup) (mem : x ∈ l)
    (init : before s) (keep : ∀ t y, y ≠ x → before t → before (g t y)) (hit : ∀ t, before t → after (g t x))
    (hold : ∀ t y, y ≠ x → after t → after (g t y)) : after (l.foldl g s) := by
  induction l generalizing s with
  | nil => cases mem
  | cons y l ih =>
    obtain ⟨notin, nd⟩ := List.nodup_cons.mp nd
    rcases List.mem_cons.mp mem with rfl | mem
    · exact List.foldlRecOn l g (hit s init) fun t reached z hz => hold t z (ne_of_mem_of_not_mem hz notin) reached
    · exact ih nd mem (keep s y (ne_of_mem_of_not_mem mem notin).symm init)

/-- A field that no step writes reads as before. -/
theorem State.rd_each {α : Type} (s : State) (l : List α) {g : State → α → State} {f : Fld} (h : ∀ t x, (g t x).rd f = t.rd f) :
    (s.each l g).rd f = s.rd f :=
  List.foldlRecOn l g (motive := fun t => t.rd f = s.rd f) rfl fun t same x _ => (h t x).trans same

theorem RegsBut.trans {l : List Fld} {s t u : State} (h : RegsBut l s t) (k : RegsBut l t u) : RegsBut l s u := fun f hf =>
  (k f hf).trans (h f hf)

theorem RegsBut.mono {l m : List Fld} {s t : State} (sub : ∀ g ∈ l, g ∈ m) (h : RegsBut l s t) : RegsBut m s t := fun f hf =>
  h f fun g hg => hf g (sub g hg)

/-! ## Fields -/

/-- A write leaves other fields as they are, whatever the controller holds beside the registers. -/
theorem State.rd_dress_wr (s : State) (d : Dress) {f g : Fld} (v : Nat) (h : g.key ≠ f.key) :
    ({ s with dress := d }.wr f v).rd g = s.rd g :=
  State.rd_wr_ne { s with dress := d } v h

/-- No field of the temperatures or of an element is one of the words before them. -/
theorem calCell_key_ne {f g : Fld} {base stride count n : Nat} (hf : f.addr = cell base stride count n) (le : base ≤ 0x4000000)
    (first : 0x700040 ≤ base) (head : g.addr < 0x700040 ∧ g.lo < 32) : f.key ≠ g.key :=
  Fld.key_ne_of_lt_cell le hf (Nat.lt_of_lt_of_le head.1 first) head.2

/-! ## A run starts (R232, Table CA-4) -/

/-- What the registers take when a run starts. -/
def calStartWrites (cause sensor : Nat) : List (Fld × Nat) :=
  [(Reg.calStatusState, 1), (Reg.calStatusRetryArmed, 0), (Reg.calTriggerCause, cause), (Reg.calTriggerSensor, sensor)]

/-- The fields it writes. -/
def calStartFields : List Fld := [Reg.calStatusState, Reg.calStatusRetryArmed, Reg.calTriggerCause, Reg.calTriggerSensor]

theorem calStartWrites_nodup (cause sensor : Nat) : ((calStartWrites cause sensor).map fun e => e.1.key).Nodup := by
  show (calStartFields.map Fld.key).Nodup
  decide

theorem calStartWrites_named (cause sensor : Nat) : ∀ e ∈ calStartWrites cause sensor, e.1 ∈ calStartFields := by
  simp [calStartWrites, calStartFields]

theorem State.calStart_frame (s : State) (cause sensor : Nat) :
    SameBut calStartFields { s with dress := (s.calStart cause sensor).dress } (s.calStart cause sensor) :=
  SameBut.wrs (calStartWrites_named cause sensor) (SameBut.refl _ { s with dress := (s.calStart cause sensor).dress })

theorem State.calStart_regs (s : State) (cause sensor : Nat) : RegsBut calStartFields s (s.calStart cause sensor) :=
  (s.calStart_frame cause sensor).2

theorem State.rd_calStart_of_mem (s : State) {cause sensor : Nat} {f : Fld} {v : Nat} (h : (f, v) ∈ calStartWrites cause sensor) :
    (s.calStart cause sensor).rd f = v % 2 ^ f.width :=
  State.rd_wrs_of_mem _ (calStartWrites_nodup cause sensor) h

/-- In IDLE a trigger starts a run. -/
theorem State.calTrigger_idle {s : State} (idle : s.calState = 0) (cause sensor : Nat) :
    s.calTrigger cause sensor = s.calStart cause sensor := if_pos idle

/-- So the run it starts stands in PRECHECK with the trigger's cause. -/
theorem State.calStart_shows (s : State) {cause : Nat} (sensor : Nat) (fits : cause < 8) :
    (s.calStart cause sensor).calState = 1 ∧ (s.calStart cause sensor).rd Reg.calTriggerCause = cause :=
  ⟨s.rd_calStart_of_mem (.head _), (s.rd_calStart_of_mem (.tail _ (.tail _ (.head _)))).trans (Nat.mod_eq_of_lt fits)⟩

theorem exec_calPeriodTimer {s : State} (idle : s.calState = 0) (period : s.on Reg.calPeriodPeriodS = true) (run : s.inPhase 9 = true) :
    exec .calPeriodTimer s = .next (s.calStart 4 0) := by
  rw [← State.calTrigger_idle idle]
  exact if_pos (by rw [period, run]; rfl)

theorem exec_calRetryDue {s : State} (idle : s.calState = 0) (armed : s.on Reg.calStatusRetryArmed = true) :
    exec .calRetryDue s = .next ((s.wr Reg.calStatusRetryArmed 0).calStart 3 0) := by
  have still : (s.wr Reg.calStatusRetryArmed 0).calState = 0 := (s.rd_wr_ne 0 (by decide)).trans idle
  rw [← State.calTrigger_idle still]
  exact if_pos armed

/-! ## The checks of CAL.CMD (R243, Table CA-8) -/

theorem State.calCheck_stale {s : State} {gen : Nat} (stale : gen ≠ s.rd Reg.calStatusGen) : s.calCheck gen = 1 := if_pos stale

theorem State.calCheck_busy {s : State} {gen : Nat} (now : gen = s.rd Reg.calStatusGen) (busy : s.calState ≠ 0) : s.calCheck gen = 2 :=
  (if_neg (not_not_intro now)).trans (if_pos busy)

theorem State.calCheck_passes {s : State} {gen : Nat} (now : gen = s.rd Reg.calStatusGen) (idle : s.calState = 0) : s.calCheck gen = 0 :=
  (if_neg (not_not_intro now)).trans (if_neg (not_not_intro idle))

theorem exec_calRun {s : State} {g : Fin 65536} (now : g.val = s.rd Reg.calStatusGen) (idle : s.calState = 0) :
    exec (.calRun g) s = .next ((s.wr Reg.calCmdStatusResult 0).calStart 5 0) := by
  have still : (s.wr Reg.calCmdStatusResult 0).calState = 0 := (s.rd_wr_ne 0 (by decide)).trans idle
  show execCalRun g s = _
  simp only [execCalRun, State.calCheck_passes now idle, BEq.rfl, State.when_true, State.calTrigger_idle still]

/-! ## The phases of a run (R228, R229, R235, Table CA-5) -/

theorem exec_calPrecheckDone {s : State} (precheck : s.calState = 1) (clock : s.dress.clkLost = false) (startup : s.dress.startup = true) :
    exec .calPrecheckDone s = .next (s.wr Reg.calStatusState 2) := by
  show execCalPrecheckDone s = _
  simp [execCalPrecheckDone, precheck, clock, startup]

/-- A measuring phase that stands goes on to the next; its values join the run. -/
theorem State.calPhase_goes_on {s : State} {st : Nat} (phase : Nat → Bool) (l : List (Nat × Int)) (stands : s.calState = st)
    (fits : st + 1 < 16) : ∃ t, s.calPhase st phase l = .next t ∧ t.calState = st + 1 ∧
      SameBut [Reg.calStatusState] { s with dress := t.dress } t :=
  ⟨_, if_pos stands, (State.rd_wr _ _ _).trans (Nat.mod_eq_of_lt fits), SameBut.wr _ (.head _) (SameBut.refl _ (s.measured phase l))⟩

/-! ## The end of a run and a commit (R237, R238) -/

/-- The fields that the return to IDLE may write, a held trigger's run with it. -/
def calIdleFields : List Fld := Reg.calStatusWalking :: calStartFields

theorem State.calIdle_regs (s : State) : RegsBut calIdleFields s s.calIdle := by
  have idle : RegsBut calIdleFields s (s.wrs [(Reg.calStatusState, 0), (Reg.calStatusWalking, 0)]) :=
    RegsBut.wrs (by decide) (RegsBut.refl _ s)
  unfold State.calIdle
  dsimp only
  split
  next c i _ => exact RegsBut.trans idle (RegsBut.mono (fun _ h => .tail _ h) (State.calStart_regs _ c i))
  next => exact idle

theorem State.calIdle_taps (s : State) : s.calIdle.dress.taps = s.dress.taps := by
  unfold State.calIdle
  dsimp only
  split <;> rfl

/-- A value in hand becomes its element's. -/
def State.calTake (s : State) (e : Nat × Option Int) : State :=
  match e.2 with
  | some v => s.wr (Reg.calValValue e.1) (enc 32 v)
  | none => s

theorem State.rd_calTake (s : State) (e : Nat × Option Int) {f : Fld} (head : f.addr < 0x700040 ∧ f.lo < 32) :
    (s.calTake e).rd f = s.rd f := by
  unfold State.calTake
  split
  · exact s.rd_wr_ne _ (calCell_key_ne rfl (by decide) (by decide) head).symm
  · rfl

/-- The values in hand and the reference temperatures as a commit takes them, with SOURCE, STALE_TEMP and the second (R238). -/
def State.calTaken (s : State) (sec : Nat) : State :=
  let s := s.each s.dress.newV State.calTake
  let s := s.each (List.range 16) fun s i => s.wr (Reg.calTempTRef i) (enc 16 (Tab.get s.dress.tStart i 0))
  let s := { s with dress := { s.dress with cross := [] } }
  s.wrs [(Reg.calStatusSource, if s.dress.restore then 3 else 2), (Reg.calStatusStaleTemp, 0), (Reg.calLastSecSec, sec)]

/-- What follows the counts of a commit: the CRC, TAP_SAT, and the reports to the host. -/
def State.calShown (s : State) : State := ((s.calCrcSet.ckoSat.unreport 0x5D).intr 4).ev 0x282

theorem State.calValues_eq (s : State) (sec : Nat) :
    s.calValues sec = (((s.calTaken sec).bumpWrap Reg.calStatusGen).bump Reg.calCountsCommits).calShown := rfl

theorem State.rd_calTaken (s : State) (sec : Nat) {f : Fld} (head : f.addr < 0x700040 ∧ f.lo < 32)
    (ne : ∀ g ∈ [Reg.calStatusSource, Reg.calStatusStaleTemp, Reg.calLastSecSec], g.key ≠ f.key) : (s.calTaken sec).rd f = s.rd f := by
  have refs (t : State) (i : Nat) : (t.wr (Reg.calTempTRef i) (enc 16 (Tab.get t.dress.tStart i 0))).rd f = t.rd f :=
    t.rd_wr_ne _ (calCell_key_ne rfl (by decide) (by decide) head).symm
  calc (s.calTaken sec).rd f
    _ = ((s.each s.dress.newV _).each (List.range 16) _).rd f := RegsBut.wrs (by simp) (RegsBut.refl _ _) f ne
    _ = (s.each s.dress.newV _).rd f := State.rd_each _ _ refs
    _ = s.rd f := State.rd_each _ _ fun t e => t.rd_calTake e head

theorem State.rd_calShown (s : State) {f : Fld} (outside : may (maskOf [.regSyn, .lines, .intStatus, .out, .hif, .regPmon]) f.key = false)
    (ne : f.key ≠ Reg.calCrcCrc.key) : s.calShown.rd f = s.rd f := by
  have kept : Keeps (maskOf [.regSyn, .lines, .intStatus, .out, .hif, .regPmon]) s.calCrcSet s.calShown :=
    State.ev_keeps (Sub.le (Sub.refl _) rfl) _ (State.intr_keeps (Sub.le (Sub.refl _) rfl) _
      (State.unreport_keeps (Sub.le (Sub.refl _) rfl) _ (State.ckoSat_keeps (Sub.le (Sub.refl _) rfl) (Keeps.refl _ _))))
  exact (kept.inn.regs _ _ outside).trans (s.rd_wr_ne _ ne)

/-- A commit counts in GEN and in COMMITS. -/
def CommitCounted (s t : State) : Prop :=
  t.rd Reg.calStatusGen = wrapAdd Reg.calStatusGen.width (s.rd Reg.calStatusGen) 1 ∧
    t.rd Reg.calCountsCommits = satAdd Reg.calCountsCommits.width (s.rd Reg.calCountsCommits) 1

theorem State.calValues_counted (s : State) (sec : Nat) : CommitCounted s (s.calValues sec) := by
  have gen : (s.calTaken sec).rd Reg.calStatusGen = s.rd Reg.calStatusGen := s.rd_calTaken sec (by decide) (by decide)
  have commits : (s.calTaken sec).rd Reg.calCountsCommits = s.rd Reg.calCountsCommits := s.rd_calTaken sec (by decide) (by decide)
  rw [s.calValues_eq]
  constructor
  · rw [State.rd_calShown _ rfl (by decide), State.bump, State.bumpBy, State.rd_wr_ne _ _ (by decide), State.bumpWrap, State.rd_wr, gen]
    exact Nat.mod_mod _ _
  · rw [State.rd_calShown _ rfl (by decide), State.rd_bump, State.bumpWrap, State.rd_wr_ne _ _ (by decide), commits]

theorem CommitCounted.of_regs {s t u : State} (h : CommitCounted s t) (k : RegsBut calIdleFields t u) : CommitCounted s u :=
  ⟨(k _ (by decide)).trans h.1, (k _ (by decide)).trans h.2⟩

theorem State.rd_tapsDirect (s : State) (f : Fld) : s.tapsDirect.rd f = s.rd f := by
  unfold State.tapsDirect
  split
  · rfl
  · exact s.rd_each _ fun _ _ => rfl

theorem State.commitNow_counted (s : State) : CommitCounted s s.commitNow :=
  ((s.calValues_counted 0).of_regs fun f _ => State.rd_tapsDirect _ f).of_regs (State.calIdle_regs _)

theorem State.commitSecond_counted (s : State) : CommitCounted s s.commitSecond := by
  have values := s.calValues_counted s.dress.second
  unfold State.commitSecond
  dsimp only
  split
  · exact values.of_regs (State.calIdle_regs _)
  · exact values.of_regs (RegsBut.wrs (by decide) (RegsBut.refl _ _))

/-- A commit waits where CALIBRATE is over and CAL_TB is VALID. -/
theorem State.not_commitsAtOnce {s : State} (later : s.inPhase 8 = false) (valid : s.tbValid (s.rd Reg.calCfgCalTb) = true) :
    s.commitsAtOnce = false := by
  rw [State.commitsAtOnce, later, valid]
  rfl

/-- It then waits for a second that it chooses. -/
theorem State.commitWait_waits {s : State} (wait : s.commitsAtOnce = false) :
    ∃ second, s.commitWait = { s with dress := { s.dress with second := second } }.wr Reg.calStatusState 7 :=
  ⟨_, if_neg (Bool.eq_false_iff.mp wait)⟩

/-- Outside CALIBRATE nothing of start-up waits for the controller. -/
theorem State.calSettle_later {s : State} (later : s.inPhase 8 = false) : s.calSettle = s := by
  unfold State.calSettle
  rw [later, Bool.false_and]
  exact if_neg Bool.false_ne_true

theorem State.inPhase_congr {s t : State} (h : t.rd Reg.devBootPhase = s.rd Reg.devBootPhase) (p : Nat) : t.inPhase p = s.inPhase p :=
  congrArg (· == p) h

theorem exec_calComputeDone {s : State} (compute : s.calState = 6) (uncalibrated : s.rd Reg.calStatusSource < 2)
    (later : s.inPhase 8 = false) (valid : s.tbValid (s.rd Reg.calCfgCalTb) = true)
    (inRange : ∀ e ∈ s.dress.newV, ∀ v, e.2 = some v → elementOk e.1 v = true) : exec .calComputeDone s = .next s.commitWait := by
  have settled : s.commitWait.calSettle = s.commitWait := by
    refine State.calSettle_later ?_
    obtain ⟨second, waits⟩ := State.commitWait_waits (State.not_commitsAtOnce later valid)
    rw [waits]
    exact (State.inPhase_congr (s.rd_dress_wr _ 7 (by decide)) 8).trans later
  have near : ¬ 2 ≤ s.rd Reg.calStatusSource := Nat.not_le.mpr uncalibrated
  show execCalComputeDone s = _
  unfold execCalComputeDone
  dsimp only
  rw [if_neg (not_not_intro compute), if_neg, if_neg fun h => near h.1, settled]
  rw [Bool.not_eq_true', Bool.not_eq_false, List.all_eq_true]
  intro e he
  split
  next v hv => exact inRange e he v hv
  next => rfl

/-- In COMMIT_WAIT the commit happens at once, or where the chosen second has come. -/
theorem exec_calCommit {s : State} (waits : s.calState = 7)
    (come : s.inPhase 8 = false → s.tbValid (s.rd Reg.calCfgCalTb) = true → 0 ≤ s.tbDiff (s.rd Reg.calCfgCalTb)
      (s.atb (s.rd Reg.calCfgCalTb)).t (s.dress.second * tSecond % s.tbRange (s.rd Reg.calCfgCalTb))) :
    exec .calCommit s = .next (if s.commitsAtOnce = true then s.commitNow else s.commitSecond) := by
  show execCalCommit s = _
  unfold execCalCommit
  dsimp only
  rw [if_neg (not_not_intro waits)]
  by_cases once : s.commitsAtOnce = true
  · rw [if_pos once, if_pos once]
  · rw [if_neg once, if_neg once]
    rw [State.commitsAtOnce, Bool.or_eq_true, not_or, Bool.not_eq_true, Bool.not_eq_true, Bool.not_eq_false'] at once
    exact if_neg (Int.not_lt.mpr (come once.1 once.2))

/-! ## The tap walk (R238, R372) -/

/-- Where taps `x` place clock output `n`. -/
def State.tapPlace (s : State) (n : Nat) (x : Nat × Nat) : Int := x.1 * s.cal (0x14C + n) + x.2 * s.cal (0x178 + n)

theorem State.ckoTaps_setCkoTaps (s : State) (m n : Nat) (x : Nat × Nat) :
    (s.setCkoTaps m x).ckoTaps n = if n = m then x else s.ckoTaps n := Tab.get_set _ _ _ _ _

/-- A step of the walk sets taps alone, and those of one output. -/
theorem State.tapStep_cases (s : State) (n : Nat) : s.tapStep n = s ∨ ∃ x, s.tapStep n = s.setCkoTaps n x := by
  unfold State.tapStep
  dsimp only
  split
  · exact .inl rfl
  split
  · exact .inr ⟨_, rfl⟩
  · exact .inr ⟨_, rfl⟩

theorem State.ckoTaps_tapStep_ne (s : State) {m n : Nat} (ne : m ≠ n) : (s.tapStep m).ckoTaps n = s.ckoTaps n := by
  rcases s.tapStep_cases m with same | ⟨x, set⟩
  · rw [same]
  · rw [set, s.ckoTaps_setCkoTaps, if_neg ne.symm]

theorem State.tapStep_frame (s : State) (n : Nat) : ∃ d, s.tapStep n = { s with dress := d } := by
  rcases s.tapStep_cases n with same | ⟨x, set⟩
  · exact ⟨_, same⟩
  · exact ⟨_, set⟩

/-- An output within a fine step of its target reaches it. -/
theorem State.ckoTaps_tapStep_near {s : State} {n : Nat}
    (near : (s.tapPlace n (s.ckoTarget n).1 - s.tapPlace n (s.ckoTaps n)).natAbs ≤ (s.cal (0x178 + n)).natAbs) :
    (s.tapStep n).ckoTaps n = (s.ckoTarget n).1 := by
  unfold State.tapStep
  dsimp only
  split
  next there => exact there
  next =>
    have step : ((s.tapPlace n (s.ckoTarget n).1 - s.tapPlace n (s.ckoTaps n)).natAbs : Int) ≤ s.cal (0x178 + n) ∨ s.cal (0x178 + n) ≤ 0 := by
      omega
    rw [if_pos (by exact step), s.ckoTaps_setCkoTaps, if_pos rfl]

/-- The other outputs' steps neither move it nor its target. -/
theorem State.ckoTaps_each_tapStep {s : State} {l : List Nat} {n : Nat} (nd : l.Nodup) (mem : n ∈ l)
    (near : (s.tapPlace n (s.ckoTarget n).1 - s.tapPlace n (s.ckoTaps n)).natAbs ≤ (s.cal (0x178 + n)).natAbs) :
    (s.each l State.tapStep).ckoTaps n = (s.ckoTarget n).1 := by
  refine foldl_reaches (before := fun t => (∃ d, t = { s with dress := d }) ∧ t.ckoTaps n = s.ckoTaps n)
    (after := fun t => t.ckoTaps n = (s.ckoTarget n).1) nd mem ⟨⟨_, rfl⟩, rfl⟩ (fun t m ne h => ?_) (fun t h => ?_)
    fun t m ne reached => (t.ckoTaps_tapStep_ne ne).trans reached
  · obtain ⟨⟨d, rfl⟩, taps⟩ := h
    exact ⟨State.tapStep_frame _ m, (State.ckoTaps_tapStep_ne _ ne).trans taps⟩
  · obtain ⟨⟨d, rfl⟩, taps⟩ := h
    exact State.ckoTaps_tapStep_near (by rw [taps]; exact near)

theorem exec_calTapWalkStep_frozen {s : State} (frozen : s.frozen = true) : exec .calTapWalkStep s = .next s := if_pos (.inr frozen)

theorem exec_calTapWalkStep {s : State} (walk : s.calState = 8) (runs : s.frozen = false) : exec .calTapWalkStep s =
    .next ((s.each (List.range 12) State.tapStep).when (s.each (List.range 12) State.tapStep).walked State.calIdle) :=
  if_neg (by rw [walk, runs]; decide)

theorem State.ckoTaps_when_calIdle (s : State) (b : Bool) (n : Nat) : (s.when b State.calIdle).ckoTaps n = s.ckoTaps n := by
  cases b
  · rfl
  · exact congrArg (fun taps => Tab.get taps n (0, 0)) s.calIdle_taps

/-- Settles O43: a trigger in IDLE starts a run, each phase goes on, a commit counts whether it waits or not, and an output within a fine
step of its target reaches it in the walk. -/
theorem calibrationRuns : Obligations.CalibrationRuns := by
  unfold Obligations.CalibrationRuns
  refine ⟨fun s idle => ⟨fun period run => ?_, fun armed => ?_, fun g now => ?_⟩, fun s precheck clock startup => ?_,
    fun l s => ⟨fun scale => ?_, fun loops => ?_, fun points => ?_, fun outputs => ?_⟩,
    fun s compute uncalibrated later valid inRange => ?_, fun s waits come => ?_, fun s frozen => exec_calTapWalkStep_frozen frozen,
    fun n s walk runs => ?_⟩
  · obtain ⟨state, cause⟩ := s.calStart_shows (cause := 4) 0 (by decide)
    exact ⟨_, exec_calPeriodTimer idle period run, state, cause, s.calStart_frame 4 0⟩
  · obtain ⟨state, cause⟩ := (s.wr Reg.calStatusRetryArmed 0).calStart_shows (cause := 3) 0 (by decide)
    refine ⟨_, exec_calRetryDue idle armed, state, cause, ?_, ?_⟩
    · exact bne_eq_false_iff_eq.mpr (State.rd_calStart_of_mem _ (.tail _ (.head _)))
    · exact SameBut.wrs (calStartWrites_named 3 0) (SameBut.wr (f := Reg.calStatusRetryArmed) 0 (.tail _ (.head _))
        (SameBut.refl _ { s with dress := ((s.wr Reg.calStatusRetryArmed 0).calStart 3 0).dress }))
  · obtain ⟨state, cause⟩ := (s.wr Reg.calCmdStatusResult 0).calStart_shows (cause := 5) 0 (by decide)
    exact ⟨_, exec_calRun now idle, state, cause, (State.calStart_regs _ 5 0 _ (by decide)).trans (s.rd_wr Reg.calCmdStatusResult 0)⟩
  · exact ⟨_, exec_calPrecheckDone precheck clock startup, s.rd_wr Reg.calStatusState 2, SameBut.wr 2 (.head _) (SameBut.refl _ s)⟩
  · exact State.calPhase_goes_on _ l scale (by decide)
  · exact State.calPhase_goes_on _ l loops (by decide)
  · exact State.calPhase_goes_on _ l points (by decide)
  · exact State.calPhase_goes_on _ l outputs (by decide)
  · refine ⟨_, exec_calComputeDone compute uncalibrated later valid inRange, ?_⟩
    obtain ⟨second, waits⟩ := State.commitWait_waits (State.not_commitsAtOnce later valid)
    rw [waits]
    exact ⟨State.rd_wr _ Reg.calStatusState 7, SameBut.wr 7 (.head _) (SameBut.refl _ _)⟩
  · refine ⟨_, exec_calCommit waits come, ?_⟩
    split
    · exact s.commitNow_counted
    · exact s.commitSecond_counted
  · intro x y a near
    exact ⟨_, exec_calTapWalkStep walk runs, (State.ckoTaps_when_calIdle _ _ _).trans
      (State.ckoTaps_each_tapStep List.nodup_range (List.mem_range.mpr n.isLt) near)⟩

end Sys2Proof.Machine
end

section
/-! The inputs of the calibration (R231, R235, R241, R242, R425): the sensors, CAL_REF_CLK and CAL_REF_PPS outside a run, and the answers
of CAL.CMD. -/
namespace Sys2Proof.Machine

/-! ## The sensors (R231) -/

/-- A signed value takes the bits of its field. -/
theorem enc_lt (w : Nat) (i : Int) : enc w i < 2 ^ w := by
  have positive := Nat.two_pow_pos w
  have nonneg := Int.emod_nonneg i (b := (2 ^ w : Nat)) (by omega)
  have small := Int.emod_lt_of_pos i (b := (2 ^ w : Nat)) (by omega)
  unfold enc
  omega

theorem calTempNow_key_ne_head (i : Nat) {g : Fld} (head : g.addr < 0x700040 ∧ g.lo < 32) : (Reg.calTempNow i).key ≠ g.key :=
  calCell_key_ne rfl (by decide) (by decide) head

theorem calTempNow_key_ne {i j : Nat} (lt : i < 16) (ne : i ≠ j) : (Reg.calTempNow i).key ≠ (Reg.calTempNow j).key := by
  simp only [Fld.key, Reg.calTempNow, cell]
  split <;> split <;> omega

/-- Each sensor shows its reading, or 0x8000 where its domain is off. -/
theorem State.rd_tempsRead (s : State) (readings : List Int) {i : Nat} (lt : i < 16) : (s.tempsRead readings).rd (Reg.calTempNow i) =
    if s.pdOn (sensorDomain i) then enc 16 (readings.getD i 0) else 0x8000 := by
  refine foldl_reaches (before := fun t : State => t.pwr = s.pwr) (after := fun t : State => t.rd (Reg.calTempNow i) = _) List.nodup_range
    (List.mem_range.mpr lt) rfl (fun t j _ same => same) (fun t same => ?_)
    fun t j ne shown => (t.rd_wr_ne _ (calTempNow_key_ne lt ne.symm)).trans shown
  have on : t.pdOn (sensorDomain i) = s.pdOn (sensorDomain i) := congrArg (fun p : Pwr => bit p.gates (sensorDomain i)) same
  rw [on, State.rd_wr]
  split
  · exact Nat.mod_eq_of_lt (enc_lt 16 _)
  · rfl

theorem State.rd_tempsRead_head (s : State) (readings : List Int) {f : Fld} (head : f.addr < 0x700040 ∧ f.lo < 32) :
    (s.tempsRead readings).rd f = s.rd f :=
  s.rd_each _ fun t i => t.rd_wr_ne _ (calTempNow_key_ne_head i head).symm

/-- The fields that a reading of the sensors may write beside TEMP_NOW, outside a run: STALE_TEMP, and those of a run that it triggers. -/
def sensorFields : List Fld := Reg.calStatusStaleTemp :: calStartFields

theorem sensorFields_head : ∀ g ∈ sensorFields, g.addr < 0x700040 ∧ g.lo < 32 := by decide

theorem State.calTrigger_regs (s : State) (cause sensor : Nat) : RegsBut calStartFields s (s.calTrigger cause sensor) := by
  unfold State.calTrigger
  split
  · exact s.calStart_regs cause sensor
  split
  · exact RegsBut.refl _ s
  · exact fun _ _ => rfl

theorem State.driftTrigger_regs (s : State) : RegsBut calStartFields s s.driftTrigger := by
  unfold State.driftTrigger
  split
  · dsimp only
    split
    · exact s.calTrigger_regs 3 0
    · exact RegsBut.refl _ s
  split
  · exact s.calTrigger_regs 2 _
  · exact RegsBut.refl _ s

theorem State.staleMark_regs (s : State) : RegsBut [Reg.calStatusStaleTemp] s s.staleMark := by
  unfold State.staleMark
  split
  · split
    · exact RegsBut.refl _ s
    · exact RegsBut.wr 1 (.head _) (RegsBut.refl _ s)
  · exact RegsBut.refl _ s

theorem State.rd_crossCount (s : State) (i : Nat) (f : Fld) : (s.crossCount i).rd f = s.rd f := rfl

/-- Outside a run a reading follows no temperatures of one. -/
theorem State.sensorsRead_regs {s : State} (readings : List Int) (idle : s.calRunning = false) :
    RegsBut sensorFields (s.tempsRead readings) (s.sensorsRead readings) := by
  have still : (s.tempsRead readings).calRunning = false := by
    rw [State.calRunning, State.calState, s.rd_tempsRead_head readings (by decide)]
    exact idle
  unfold State.sensorsRead
  dsimp only
  rw [still, State.when_false]
  have marked : RegsBut sensorFields (s.tempsRead readings) (s.tempsRead readings).staleMark :=
    RegsBut.mono (fun g mem => List.mem_singleton.mp mem ▸ .head _) (State.staleMark_regs _)
  have triggered (t : State) : RegsBut sensorFields t t.driftTrigger := RegsBut.mono (fun _ mem => .tail _ mem) t.driftTrigger_regs
  exact fun f other => (triggered _ f other).trans ((State.rd_each _ _ fun t i => t.rd_crossCount i f).trans (marked f other))

theorem exec_tempSensorRead {s : State} (readings : List Int) (idle : s.calRunning = false) (later : s.inPhase 8 = false) :
    exec (.tempSensorRead readings) s = .next (s.sensorsRead readings) := by
  have phase : (s.sensorsRead readings).rd Reg.devBootPhase = s.rd Reg.devBootPhase :=
    (s.sensorsRead_regs readings idle Reg.devBootPhase (by decide)).trans (s.rd_tempsRead_head readings (by decide))
  show execTempSensorRead readings s = _
  rw [execTempSensorRead, State.calSettle_later ((State.inPhase_congr phase 8).trans later)]

/-! ## CAL_REF (R235, R241) -/

/-- No run stands that a loss could abort, and start-up does not wait for the controller. -/
structure State.CalQuiet (s : State) : Prop where
  idle : s.calRunning = false
  later : s.inPhase 8 = false

theorem State.CalQuiet.of_regs {l : List Fld} {s t : State} (q : s.CalQuiet) (h : RegsBut l s t)
    (state : ∀ g ∈ l, g.key ≠ Reg.calStatusState.key) (phase : ∀ g ∈ l, g.key ≠ Reg.devBootPhase.key) : t.CalQuiet where
  idle := by
    rw [State.calRunning, State.calState, h _ state]
    exact q.idle
  later := (State.inPhase_congr (h _ phase) 8).trans q.later

theorem State.CalQuiet.calAbort {s : State} (q : s.CalQuiet) (reason : Nat) : s.calAbort reason = s := by
  unfold State.calAbort
  rw [q.idle]
  rfl

theorem State.CalQuiet.when_calAbort {s : State} (q : s.CalQuiet) (b : Bool) (reason : Nat) :
    (s.when b fun s => s.calAbort reason) = s :=
  State.when_same id b (q.calAbort reason)

theorem State.CalQuiet.calSettle {s : State} (q : s.CalQuiet) : s.calSettle = s := State.calSettle_later q.later

/-- The state after CAL_REF's history reads `d` and the one-bit field `f` shows `b`. -/
def State.calRefShown (s : State) (d : Dress) (f : Fld) (b : Bool) : State := { s with dress := d }.wr f (b2n b)

theorem State.calRefShown_spec (s : State) (d : Dress) {f : Fld} (b : Bool) (width : f.width = 1) :
    (s.calRefShown d f b).on f = b ∧ (s.calRefShown d f b).dress = d ∧ RegsBut [f] s (s.calRefShown d f b) :=
  ⟨State.on_wr_b2n _ b width, rfl, RegsBut.wr _ (.head _) fun _ _ => rfl⟩

theorem State.CalQuiet.calRefShown {s : State} (q : s.CalQuiet) (d : Dress) {f : Fld} (b : Bool) (state : f.key ≠ Reg.calStatusState.key)
    (phase : f.key ≠ Reg.devBootPhase.key) : (s.calRefShown d f b).CalQuiet :=
  q.of_regs (l := [f]) (RegsBut.wr _ (.head _) fun _ _ => rfl) (by simpa using state) (by simpa using phase)

theorem exec_calRefClkLoss {s : State} (q : s.CalQuiet) :
    exec .calRefClkLoss s = .next (s.calRefShown { s.dress with clkLost := true } Reg.calStatusClkOk false) := by
  have quiet := q.calRefShown { s.dress with clkLost := true } false (f := Reg.calStatusClkOk) (by decide) (by decide)
  exact congrArg Host.Outcome.next ((congrArg State.calSettle (quiet.calAbort 1)).trans quiet.calSettle)

theorem exec_calClkFreqWindow {s : State} (q : s.CalQuiet) (d : Int) : exec (.calClkFreqWindow d) s =
    .next (s.calRefShown { s.dress with clkLost := false } Reg.calStatusClkOk (decide (d.natAbs ≤ 1000 + s.rulerTol))) := by
  have quiet := q.calRefShown { s.dress with clkLost := false } (decide (d.natAbs ≤ 1000 + s.rulerTol)) (f := Reg.calStatusClkOk)
    (by decide) (by decide)
  exact congrArg Host.Outcome.next ((congrArg State.calSettle (quiet.when_calAbort _ 2)).trans quiet.calSettle)

theorem exec_calPpsMissing {s : State} (q : s.CalQuiet) :
    exec .calPpsMissing s = .next (s.calRefShown { s.dress with ppsSeen := false } Reg.calStatusPpsOk false) := by
  have quiet := q.calRefShown { s.dress with ppsSeen := false } false (f := Reg.calStatusPpsOk) (by decide) (by decide)
  show execCalPpsMissing s = _
  unfold execCalPpsMissing
  dsimp only
  split
  · rfl
  · exact congrArg Host.Outcome.next (quiet.calAbort 4)

theorem exec_calRefPpsEdge_first {s : State} (q : s.CalQuiet) (d : Int) (r : Nat) (first : s.dress.ppsEver = false) :
    exec (.calRefPpsEdge d r) s =
      .next (s.calRefShown { s.dress with ppsSeen := true, ppsEver := true } Reg.calStatusPpsOk false) := by
  have quiet := q.calRefShown { s.dress with ppsSeen := true, ppsEver := true } false (f := Reg.calStatusPpsOk) (by decide) (by decide)
  show execCalRefPpsEdge d r s = _
  unfold execCalRefPpsEdge
  rw [first]
  exact congrArg Host.Outcome.next quiet.calSettle

/-- What the registers take at a PPS edge in time: its offset `e` from CAL_TB, marked valid (R241). -/
def ppsOffWrites (e : Nat) : List (Fld × Nat) :=
  [(Reg.calPpsOffLoOff, e), (Reg.calPpsOffHiOff, e / 2 ^ 32), (Reg.calPpsOffHiValid, 1)]

/-- A later edge within 100 ns of its second shows PPS_OK and an offset (Table CA-6). -/
theorem exec_calRefPpsEdge_inTime {s : State} (q : s.CalQuiet) {d : Int} (r : Nat) (ever : s.dress.ppsEver = true)
    (near : d.natAbs ≤ 100000) : ∃ e, exec (.calRefPpsEdge d r) s =
      .next ((s.calRefShown { s.dress with ppsSeen := true, ppsEver := true } Reg.calStatusPpsOk true).wrs (ppsOffWrites e)) := by
  have quiet := q.calRefShown { s.dress with ppsSeen := true, ppsEver := true } true (f := Reg.calStatusPpsOk) (by decide) (by decide)
  have settled (e : Nat) := (quiet.of_regs (l := [Reg.calPpsOffLoOff, Reg.calPpsOffHiOff, Reg.calPpsOffHiValid])
    (t := State.wrs _ (ppsOffWrites e)) (RegsBut.wrs (by simp [ppsOffWrites]) (RegsBut.refl _ _)) (by decide) (by decide)).calSettle
  show ∃ e, execCalRefPpsEdge d r s = _
  unfold execCalRefPpsEdge
  rw [ever, decide_eq_true near]
  exact ⟨_, congrArg Host.Outcome.next (settled _)⟩

/-! ## The answers of CAL.CMD (R242, R243, R425) -/

/-- The state that shows result `r`. -/
theorem State.calAnswer_spec (s : State) {r : Nat} (fits : r < 8) :
    (s.wr Reg.calCmdStatusResult r).rd Reg.calCmdStatusResult = r ∧ SameBut [Reg.calCmdStatusResult] s (s.wr Reg.calCmdStatusResult r) :=
  ⟨(s.rd_wr _ r).trans (Nat.mod_eq_of_lt fits), SameBut.wr r (.head _) (SameBut.refl _ s)⟩

/-- A command that the checks of every command stop shows what they found and does no more. -/
theorem exec_calCmd_stopped {s : State} {g : Fin 65536} {r : Nat} (found : s.calCheck g.val = r) (stopped : r ≠ 0) :
    ∀ c ∈ [Instr.calRun g, .calRestore g, .calCmdReserved g], exec c s = .next (s.wr Reg.calCmdStatusResult r) := by
  have not_passed : (r == 0) = false := beq_eq_false_iff_ne.mpr stopped
  intro c mem
  rcases List.mem_cons.mp mem with rfl | mem
  · show execCalRun g s = _
    simp only [execCalRun, found, not_passed, State.when_false]
  rcases List.mem_cons.mp mem with rfl | mem
  · show execCalRestore g s = _
    simp only [execCalRestore, found, ne_eq, stopped, not_false_eq_true, if_true, not_passed, State.when_false]
  · rw [List.mem_singleton.mp mem]
    show execCalCmdReserved g s = _
    simp only [execCalCmdReserved, found, stopped, if_false]

theorem exec_calCmdReserved {s : State} {g : Fin 65536} (now : g.val = s.rd Reg.calStatusGen) (idle : s.calState = 0) :
    exec (.calCmdReserved g) s = .next (s.wr Reg.calCmdStatusResult 5) := by
  show execCalCmdReserved g s = _
  rw [execCalCmdReserved, State.calCheck_passes now idle]
  rfl

/-- The CRC of the staged set (R242). -/
def State.stagedCrc (s : State) : Nat := calCrc (fun i => s.rd (Reg.calStgValue i)) fun i => s.rd (Reg.calStgTrefTRef i)

theorem exec_calRestore_badCrc {s : State} {g : Fin 65536} (now : g.val = s.rd Reg.calStatusGen) (idle : s.calState = 0)
    (bad : s.stagedCrc ≠ s.rd Reg.calStgCrcCrc) : exec (.calRestore g) s = .next (s.wr Reg.calCmdStatusResult 3) := by
  show execCalRestore g s = _
  unfold execCalRestore
  rw [State.calCheck_passes now idle]
  dsimp only
  rw [if_neg (not_not_intro rfl), if_pos (by exact bad)]
  rfl

/-- The staged values as a commit takes them. -/
def State.stagedValues (s : State) : Tab (Option Int) := (List.range 428).map fun i => (i, some (sgn 32 (s.rd (Reg.calStgValue i))))

/-- The staged reference temperatures. -/
def State.stagedTemps (s : State) : Tab Int :=
  (List.range 16).foldl (fun l i => Tab.set l i (sgn 16 (s.rd (Reg.calStgTrefTRef i))) 0) []

theorem Tab.get_map_of_mem {α : Type} {l : List Nat} {i : Nat} (f : Nat → α) (d : α) (mem : i ∈ l) :
    Tab.get (l.map fun j => (j, f j)) i d = f i := by
  induction l with
  | nil => cases mem
  | cons j l ih =>
    by_cases e : j = i
    · subst e
      exact if_pos rfl
    · exact (if_neg e).trans (ih ((List.mem_cons.mp mem).resolve_left (Ne.symm e)))

theorem State.get_stagedValues (s : State) {i : Nat} (lt : i < 428) :
    Tab.get s.stagedValues i none = some (sgn 32 (s.rd (Reg.calStgValue i))) :=
  Tab.get_map_of_mem _ none (List.mem_range.mpr lt)

theorem State.get_stagedTemps (s : State) {i : Nat} (lt : i < 16) :
    Tab.get s.stagedTemps i 0 = sgn 16 (s.rd (Reg.calStgTrefTRef i)) :=
  foldl_reaches (before := fun _ => True) (after := fun t : Tab Int => Tab.get t i 0 = sgn 16 (s.rd (Reg.calStgTrefTRef i)))
    List.nodup_range (List.mem_range.mpr lt) trivial (fun _ _ _ _ => trivial) (fun t _ => Tab.get_set_same t i _ 0)
    fun t _ ne shown => (Tab.get_set_ne t _ 0 0 ne.symm).trans shown

/-- The staged set copied for a commit, with the result OK. -/
def State.calRestored (s : State) : State :=
  { s with dress := { s.dress with restore := true, newV := s.stagedValues, tStart := s.stagedTemps } }.wr Reg.calCmdStatusResult 0

theorem State.stagedTemps_answered (s : State) (r : Nat) : (s.wr Reg.calCmdStatusResult r).stagedTemps = s.stagedTemps := by
  have same (i : Nat) : (s.wr Reg.calCmdStatusResult r).rd (Reg.calStgTrefTRef i) = s.rd (Reg.calStgTrefTRef i) :=
    s.rd_wr_ne r (calCell_key_ne rfl (by decide) (by decide) (by decide))
  simp only [State.stagedTemps, same]

theorem exec_calRestore {s : State} {g : Fin 65536} (now : g.val = s.rd Reg.calStatusGen) (idle : s.calState = 0)
    (good : s.stagedCrc = s.rd Reg.calStgCrcCrc) (inRange : ∀ i < 428, elementOk i (sgn 32 (s.rd (Reg.calStgValue i))) = true) :
    exec (.calRestore g) s = .next s.calRestored.commitWait := by
  have ok : ((List.range 428).all fun i => elementOk i (sgn 32 (s.rd (Reg.calStgValue i)))) = true :=
    List.all_eq_true.mpr fun i mem => inRange i (List.mem_range.mp mem)
  have temps := s.stagedTemps_answered 0
  show execCalRestore g s = _
  unfold execCalRestore
  rw [State.calCheck_passes now idle]
  dsimp only
  rw [if_neg (not_not_intro rfl), if_neg (by exact not_not_intro good), ok, if_neg (by decide), State.calRestored, ← temps]
  rfl

theorem State.calRestored_shows (s : State) : s.calRestored.rd Reg.calCmdStatusResult = 0 ∧
    RegsBut [Reg.calCmdStatusResult, Reg.calStatusState] s s.calRestored :=
  ⟨State.rd_wr _ _ 0, RegsBut.wr 0 (.head _) fun _ _ => rfl⟩

theorem State.calRestored_waits {s : State} (later : s.inPhase 8 = false) (valid : s.tbValid (s.rd Reg.calCfgCalTb) = true) :
    s.calRestored.commitsAtOnce = false := by
  have frame := s.calRestored_shows.2
  refine State.not_commitsAtOnce ((State.inPhase_congr (frame _ (by decide)) 8).trans later) ?_
  rw [frame Reg.calCfgCalTb (by decide)]
  exact (State.tbValid_congr (frame _ (by decide)) rfl _).trans valid

/-- Settles O44: the sensors, CAL_REF_CLK and CAL_REF_PPS by what each shows where no run stands to abort, and CAL.CMD by the checks in
their order. -/
theorem calibrationInputs : Obligations.CalibrationInputs := by
  unfold Obligations.CalibrationInputs
  refine ⟨fun l s idle _ later => ?_, fun s idle later => ?_, fun s => ⟨_, rfl, s.calAnswer_spec (r := 0) (by decide)⟩,
    fun g s c mem => ⟨fun stale => ?_, fun now busy => ?_⟩,
    fun g s now idle => ⟨?_, fun bad => ?_, fun good inRange later valid => ?_⟩⟩
  · refine ⟨_, exec_tempSensorRead l idle later, fun i lt => ?_⟩
    exact (s.sensorsRead_regs l idle _ fun g mem => (calTempNow_key_ne_head i (sensorFields_head g mem)).symm).trans (s.rd_tempsRead l lt)
  · have q : s.CalQuiet := ⟨idle, later⟩
    refine ⟨⟨_, exec_calRefClkLoss q, s.calRefShown_spec _ _ rfl⟩, fun d => ⟨_, exec_calClkFreqWindow q d, s.calRefShown_spec _ _ rfl⟩,
      fun d r first => ⟨_, exec_calRefPpsEdge_first q d r first, s.calRefShown_spec _ _ rfl⟩, fun d r ever near => ?_,
      ⟨_, exec_calPpsMissing q, s.calRefShown_spec _ _ rfl⟩⟩
    obtain ⟨e, run⟩ := exec_calRefPpsEdge_inTime q r ever near
    obtain ⟨shown, -, frame⟩ := s.calRefShown_spec { s.dress with ppsSeen := true, ppsEver := true } (f := Reg.calStatusPpsOk) true rfl
    refine ⟨_, run, ?_, ?_, ?_⟩
    · exact (State.on_congr (State.rd_wrs_ne _ _ _ (by simp [ppsOffWrites]; decide))).trans shown
    · exact State.on_wr_b2n _ true rfl
    · exact RegsBut.wrs (by simp [ppsOffWrites]) (RegsBut.mono (fun g mem => List.mem_singleton.mp mem ▸ .head _) frame)
  · exact ⟨_, exec_calCmd_stopped (State.calCheck_stale stale) (by decide) c mem, s.calAnswer_spec (by decide)⟩
  · exact ⟨_, exec_calCmd_stopped (State.calCheck_busy now busy) (by decide) c mem, s.calAnswer_spec (by decide)⟩
  · exact ⟨_, exec_calCmdReserved now idle, s.calAnswer_spec (by decide)⟩
  · exact ⟨_, exec_calRestore_badCrc now idle bad, s.calAnswer_spec (by decide)⟩
  · obtain ⟨answer, frame⟩ := s.calRestored_shows
    obtain ⟨second, waits⟩ := State.commitWait_waits (State.calRestored_waits later valid)
    refine ⟨_, exec_calRestore now idle good inRange, ?_⟩
    rw [waits]
    exact ⟨(State.rd_wr_ne _ 7 (by decide)).trans answer, State.rd_wr _ Reg.calStatusState 7, rfl, fun i lt => s.get_stagedValues lt,
      fun i lt => s.get_stagedTemps lt, RegsBut.wr 7 (.tail _ (.head _)) frame⟩

end Sys2Proof.Machine
end
